-- ==== Sys2Proof/Word.lean ====
section
/-!
DEFINITION. The words of the module and their plainest arithmetic: little-endian bytes (R14), bit fields,
saturating counters, and the sparse maps in which every indexed piece of the state is held.
-/
namespace Sys2Proof

/-- A byte. -/
abbrev Byte := BitVec 8
/-- A 32-bit word. -/
abbrev W32 := BitVec 32
/-- A 64-bit word. -/
abbrev W64 := BitVec 64

/-- A map from keys to values. A key that is not listed holds the default named where the map is read.
In canonical form the keys rise strictly and no entry holds the default. -/
abbrev SMap (α : Type) := List (Nat × α)

/-- Bits `[lo + len - 1 : lo]` of a number. -/
def bits (w lo len : Nat) : Nat := (w >>> lo) % 2 ^ len

/-- Bit `i` of a number. -/
def bit (w i : Nat) : Bool := (w >>> i) % 2 == 1

/-- One as a number. -/
def ofBit (b : Bool) : Nat := if b then 1 else 0

/-- The signed value of the low `n` bits of a number. -/
def signed (n w : Nat) : Int :=
  let u := w % 2 ^ n
  if u < 2 ^ (n - 1) then (u : Int) else (u : Int) - (2 ^ n : Nat)

/-- The low `n` bits of the two's complement of an integer. -/
def unsigned (n : Nat) (z : Int) : Nat := (z % ((2 ^ n : Nat) : Int)).toNat

/-- A counter of `n` bits that saturates. -/
def satAdd (n a b : Nat) : Nat := min (a + b) (2 ^ n - 1)

/-- Replace bits `[lo + len - 1 : lo]` of `w` by the low bits of `v`. -/
def setBits (w lo len v : Nat) : Nat :=
  w - bits w lo len * 2 ^ lo + (v % 2 ^ len) * 2 ^ lo

/-- The number that little-endian bytes spell (R14). -/
def leNat : List Byte → Nat
  | [] => 0
  | b :: bs => b.toNat + 256 * leNat bs

/-- `n` little-endian bytes of a number (R14). -/
def leBytes : Nat → Nat → List Byte
  | 0, _ => []
  | n + 1, w => BitVec.ofNat 8 w :: leBytes n (w / 256)

/-- The number that big-endian bytes spell. -/
def beNat (bs : List Byte) : Nat := bs.foldl (fun acc b => acc * 256 + b.toNat) 0

end Sys2Proof
end

