-- ==== Sys2Proof/Syntax.lean ====
section
/-!
DEFINITION. The commands of the module: one constructor of `Instr` for each row of the table of operations and
events. The table gives the rows no operands; the operands here are what the rule of each row needs from outside:
the unit that acts, the register fields, the bytes of a frame, the value a sensor gives.
-/
namespace Sys2Proof

/-- A logical tile (R4). -/
abbrev TileId := Fin 11000
/-- A Wick core of a tile (R6). -/
abbrev CoreIx := Fin 48
/-- A CU of a tile (R6). -/
abbrev CuIx := Fin 2
/-- An MU of a tile (R6). -/
abbrev MuIx := Fin 4
/-- A general register of a Wick core (Table 6.1). -/
abbrev GReg := Fin 32
/-- A queue of a unit (R7). -/
abbrev QIx := Fin 8

/-- The integer operations of groups 0x00 to 0x0F (Table 6.6). -/
inductive AluOp
  | add | sub | and | or | xor | sll | srl | sra | slt | sltu
  deriving DecidableEq, Repr

/-- A second source: a register, or the immediate after its extension. -/
inductive WSrc
  | reg (r : GReg)
  | imm (v : W32)
  deriving DecidableEq, Repr

/-- An instruction of the integer groups (Table 6.6). An encoding that the groups do not list is `unlisted`. -/
inductive AluIns
  | op (o : AluOp) (gd gs1 : GReg) (src : WSrc)
  | lui (gd : GReg) (imm : BitVec 16)
  | unlisted (word : W32)
  deriving DecidableEq, Repr

/-- The operations of groups 0x10 to 0x13. -/
inductive MulOp
  | mul | mulh | mulhu | div | divu | rem | remu
  deriving DecidableEq, Repr

/-- The accesses of groups 0x14 to 0x17. -/
inductive LsOp
  | lb | lbu | lh | lhu | lw | sb | sh | sw
  deriving DecidableEq, Repr

/-- The conditions of a branch. -/
inductive BrCond
  | eq | ne | lt | ge | ltu | geu
  deriving DecidableEq, Repr

/-- An instruction of the control groups 0x18 to 0x1B; a branch or a jump and link names the address it goes to. -/
inductive CtlIns
  | branch (c : BrCond) (gs1 gs2 : GReg) (target : BitVec 14)
  | jal (gd : GReg) (target : BitVec 14)
  | jr (gs1 : GReg)
  deriving DecidableEq, Repr

/-- A scalar floating-point width: FP32 or BF16. -/
inductive FpW
  | fp32 | bf16
  deriving DecidableEq, Repr

/-- The two-source scalar operations of groups 0x1C to 0x1F. -/
inductive FpOp
  | add | sub | mul | min | max | cmpEq | cmpLt | cmpLe
  deriving DecidableEq, Repr

/-- An instruction of the scalar floating-point groups. `rnd` is the rounding mode of Table 2.7; `fmt` is a format
code of Table 0.10 of 8 or 16 bits, FP32 or INT32; `ovm` and `ovf` select the overflow behaviour. -/
inductive FpIns
  | op2 (o : FpOp) (w : FpW) (rnd : BitVec 3) (gd gs1 gs2 : GReg)
  | fma (w : FpW) (rnd : BitVec 3) (gd gs1 gs2 gs3 : GReg)
  | cvtTo (fmt : BitVec 4) (rnd : BitVec 3) (ovm ovf : Bool) (gd gs1 : GReg)
  | cvtFrom (fmt : BitVec 4) (rnd : BitVec 3) (gd gs1 : GReg)
  deriving DecidableEq, Repr

/-- An instruction of the packed groups 0x20 to 0x23, on register quads. -/
inductive SimdIns
  | f32x4 (o : FpOp) (rnd : BitVec 3) (gd gs1 gs2 : GReg)
  | f32x4fma (rnd : BitVec 3) (gd gs1 gs2 gs3 : GReg)
  | i8x16 (sub : Bool) (ovf : Bool) (gd gs1 gs2 : GReg)
  | dot8 (gd gs1 gs2 : GReg)
  deriving DecidableEq, Repr

/-- An instruction of the bit-manipulation groups 0x24 to 0x27. -/
inductive BitIns
  | clz (gd gs1 : GReg)
  | ctz (gd gs1 : GReg)
  | popc (gd gs1 : GReg)
  | extract (gd gs1 : GReg) (pos len : Nat)
  | insert (gd gs1 : GReg) (pos len : Nat)
  | bswap (gd gs1 : GReg)
  | rotl (gd gs1 : GReg) (src : WSrc)
  | rotr (gd gs1 : GReg) (src : WSrc)
  deriving DecidableEq, Repr

/-- Faults of the hardware that a `MATMUL` meets: accumulator bits that flip (row within the micro-op, column 0 to 31, or 32 for the checksum
column, and bit), and the rows whose output the partner CU computes differently (R108, R112). -/
structure MatFault where
  flips : List (Nat × Nat × Nat)
  shadow : List Nat
  deriving DecidableEq, Repr

/-- What a scrub reads the next word of: an MU, or the local memory of a Wick core (R151, R183). -/
inductive ScrubAt
  | mu (m : MuIx)
  | wick (c : CoreIx)
  deriving DecidableEq, Repr

/-- Where the results of a micro-op lie in the row-major order of their output tensor (R70, R99): the index of lane 0 of its first row, and the
distance from row to row. No register holds the shape of a tensor, so the command brings it (assumption 22). -/
structure EPlace where
  base : Nat
  pitch : Nat
  deriving DecidableEq, Repr

/-- A read of host memory that the module has out: the fetch of an engine's command, the image of a region's load, a page of a copy
(command and page number), the package of a firmware update; and an access to the incident ring. -/
inductive HostRd
  | fetch (e : Fin 79)
  | image (r : Fin 64)
  | page (cmd i : Nat)
  | update
  | incRing
  deriving DecidableEq, Repr

/-- How a read of host memory completes (R438): with data, with poisoned data, or by Unsupported Request, Completer Abort or a completion
timeout. -/
inductive HostRes
  | data (bs : List Byte)
  | poisoned (bs : List Byte)
  | failed
  deriving DecidableEq, Repr

/-- A 64-bit register is read or written whole, or one of its halves by an access of 4 bytes. -/
inductive Half
  | whole | low | high
  deriving DecidableEq, Repr

/-- A write to a register with no behaviour of its own (R16): of a ring, of the mailbox request area, of the MSI-X table, or (`fixed`) at
BAR0 + 8 × `k` where no field can be written. -/
inductive RegW
  | ringBase (e : Fin 79) (h : Half) (v : W64)
  | cplBase (e : Fin 79) (h : Half) (v : W64)
  | cplCfg (e : Fin 79) (v : W32)
  | mbhHdr (h : Half) (v : W64)
  | request (ofs : Fin 4080) (bs : List Byte)
  | msixAddr (i : Fin 1024) (h : Half) (v : W64)
  | msixData (i : Fin 1024) (v : W32)
  | fixed (k : Fin 8192) (h : Half) (v : W64)
  deriving DecidableEq, Repr

/-- A register with a field of access RC (Table 0.8), or (`bar0`) any location of a port's BAR0, at 8 × `k` (R428). -/
inductive RegRc
  | llStat (t : TileId) (h : Half)
  | tcClk (t : TileId) (h : Half)
  | fcClk (f : Fin 100) (h : Half)
  | bbStat (d : Fin 32) (a : Fin 8) (h : Half)
  | cdSnf (p : Fin 2)
  | semStat (p : Fin 2) (h : Half)
  | mbhStat (p : Fin 2)
  | mbmStat (p : Fin 2)
  | bar0 (p : Fin 2) (k : Fin 8192) (h : Half)
  deriving DecidableEq, Repr

/-- A configuration request: a read of a double word, or a write of Memory Space Enable. -/
inductive CfgReq
  | read (dw : Fin 1024)
  | memEnable (on : Bool)
  deriving DecidableEq, Repr

/-- A reading of a sensor: a field's hottest sensor, a satellite, or the cold plate; signed, in 1/8 °C. -/
inductive Sensor
  | field (f : Fin 100) (t : BitVec 16) (sensor : Fin 16)
  | die (d : Fin 32) (t : BitVec 16)
  | coolant (inlet outlet : BitVec 16)
  deriving DecidableEq, Repr

/-- What the power controller's estimators report for a loop step, in W: fixed consumers, demand of links and memory, vector stages and Wick
cores, and for each field its estimated power and its full matrix and MU demand at each operating point (R554, R557). -/
structure PowerEst where
  fixed : Nat
  links : Nat
  memory : Nat
  vec : Nat
  pest : List Nat
  full : List (List Nat)
  deriving DecidableEq, Repr

/-- What the self-test of start-up finds (Table 19.3): a fault in a physical tile (field, row, physical column), in lanes of a mesh link
group, in a link with no repair left, or in a field's PLL or rail. -/
inductive Finding
  | tile (f : Fin 100) (row pcol : Fin 11)
  | lanes (t : TileId) (port : Fin 4) (ctl : Bool) (grp : Fin 32) (bad : List (Fin 32))
  | link (t : TileId) (port : Fin 4)
  | field (f : Fin 100)
  deriving DecidableEq, Repr

/-- How a phase of start-up ends (Tables 19.1, 19.2): step 2 with the signatures of the banks that verify and a known-answer test that fails
(0 none, 1 SHA-384, 2 ECDSA verification, more another); another step as it should; step 5 with findings; or an attempt that fails at a die or
field. -/
inductive PhaseEnd
  | boot (sigA sigB : Bool) (kat : Nat)
  | ok
  | tested (l : List Finding)
  | failed (obj : Nat)
  deriving DecidableEq, Repr

/-- The clock inputs whose validity may change in service (Table 18.2). -/
inductive ClkIn
  | pcie (p : Fin 2)
  | ten
  | pps
  deriving DecidableEq, Repr

/-- What a STATE frame reports (Table 20.5): the state of the die, its firmware version, or the slot that it acknowledges. -/
inductive DieRep
  | state (code : BitVec 8)
  | firmware (v : W32)
  | keyAck (slot : Fin 16)
  deriving DecidableEq, Repr

/-- The commands of the module. -/
inductive Instr
  /-- POWER_ON (R573). -/
  | powerOn
  /-- STARTUP_PHASE_END (R573). -/
  | startupPhaseEnd (r : PhaseEnd)
  /-- INPUT_UNDERVOLTAGE (R574). -/
  | inputUndervoltage (rail : Bool)
  /-- BLADE_CHANGE (R633). -/
  | bladeChange (i : Fin 8) (mv10 : Nat) (held : Bool)
  /-- MOD_RESET_N (R584). -/
  | modResetN
  /-- REFERENCE_CLOCK_LOSS (R521). -/
  | referenceClockLoss
  /-- REFERENCE_CLOCK_VALID (R585). -/
  | referenceClockValid
  /-- TAMPER (R626). -/
  | tamper (pin : Bool)
  /-- TAMPER_CLEARED (R626). -/
  | tamperCleared
  /-- INTEGER_ALU (R184). -/
  | integerAlu (t : TileId) (c : CoreIx) (ins : AluIns)
  /-- MULTIPLY_DIVIDE (R185). -/
  | multiplyDivide (t : TileId) (c : CoreIx) (o : MulOp) (gd gs1 gs2 : GReg)
  /-- LOAD_STORE (R181). -/
  | loadStore (t : TileId) (c : CoreIx) (o : LsOp) (gd gs1 : GReg) (imm : BitVec 16)
  /-- OWN_TILE_LOAD_DATA (R192). -/
  | ownTileLoadData (t : TileId) (c : CoreIx)
  /-- BRANCH_JUMP (R184). -/
  | branchJump (t : TileId) (c : CoreIx) (ins : CtlIns)
  /-- SCALAR_FLOATING_POINT (R186). -/
  | scalarFloatingPoint (t : TileId) (c : CoreIx) (ins : FpIns)
  /-- PACKED_SIMD (R186). -/
  | packedSimd (t : TileId) (c : CoreIx) (ins : SimdIns)
  /-- BIT_MANIPULATION (R187). -/
  | bitManipulation (t : TileId) (c : CoreIx) (ins : BitIns)
  /-- CRC32C (R190). -/
  | crc32c (t : TileId) (c : CoreIx) (gd gs1 gs2 : GReg) (w : BitVec 2)
  /-- HMIX (R191). -/
  | hmix (t : TileId) (c : CoreIx) (gd gs1 gs2 : GReg)
  /-- HFOLD (R191). -/
  | hfold (t : TileId) (c : CoreIx) (gd gs1 gs2 : GReg)
  /-- POP (R189). -/
  | pop (t : TileId) (c : CoreIx) (gd : GReg) (q : QIx)
  /-- POPL (R189). -/
  | popl (t : TileId) (c : CoreIx) (gd : GReg) (q : QIx)
  /-- PEEK (R189). -/
  | peek (t : TileId) (c : CoreIx) (gd : GReg) (q : QIx)
  /-- QCNT (R188). -/
  | qcnt (t : TileId) (c : CoreIx) (gd : GReg) (q : QIx)
  /-- QDROP (R188). -/
  | qdrop (t : TileId) (c : CoreIx) (gd : GReg) (q : QIx)
  /-- SEND (R222). -/
  | send (t : TileId) (c : CoreIx) (gd gs1 gs2 : GReg) (n : Fin 4)
  /-- SENDB (R225). -/
  | sendb (t : TileId) (c : CoreIx) (gd gs1 gs2 : GReg) (n : Fin 4)
  /-- SENDB_RETRY (R225). -/
  | sendbRetry (t : TileId) (c : CoreIx)
  /-- SENDB_DEADLINE (R225). -/
  | sendbDeadline (t : TileId) (c : CoreIx)
  /-- SENDB_REPLY_LOST (R226). -/
  | sendbReplyLost (t : TileId) (c : CoreIx)
  /-- RECV (R227). -/
  | recv (t : TileId) (c : CoreIx) (gd gs1 : GReg) (mask : BitVec 8) (rot : Bool)
  /-- RECV_TIMEOUT (R228). -/
  | recvTimeout (t : TileId) (c : CoreIx)
  /-- DSEND (R233). -/
  | dsend (t : TileId) (c : CoreIx) (gd gs1 gs2 : GReg)
  /-- TKWT (R223). -/
  | tkwt (t : TileId) (c : CoreIx) (gd gs1 : GReg)
  /-- TKST (R223). -/
  | tkst (t : TileId) (c : CoreIx) (gd gs1 : GReg)
  /-- FENCE (R195). -/
  | wickFence (t : TileId) (c : CoreIx)
  /-- LDR (R193). -/
  | ldr (t : TileId) (c : CoreIx) (gd gs1 gs2 : GReg)
  /-- STR (R193). -/
  | str (t : TileId) (c : CoreIx) (gd gs1 gs2 : GReg)
  /-- TRD (R188). -/
  | trd (t : TileId) (c : CoreIx) (gd : GReg)
  /-- TSET (R197). -/
  | tset (t : TileId) (c : CoreIx) (gs1 : GReg)
  /-- TWAIT (R197). -/
  | twait (t : TileId) (c : CoreIx)
  /-- TCHK (R197). -/
  | tchk (t : TileId) (c : CoreIx) (gd : GReg)
  /-- MTIME (R200). -/
  | mtime (t : TileId) (c : CoreIx) (gd : GReg)
  /-- CSRR (R180). -/
  | csrr (t : TileId) (c : CoreIx) (gd : GReg) (csr : BitVec 12)
  /-- CSRW (R180). -/
  | csrw (t : TileId) (c : CoreIx) (gs1 : GReg) (csr : BitVec 12)
  /-- YIELD (R208). -/
  | yield (t : TileId) (c : CoreIx)
  /-- HALT (R207). -/
  | wickHalt (t : TileId) (c : CoreIx)
  /-- TRAP (R202). -/
  | trap (t : TileId) (c : CoreIx) (imm : BitVec 14)
  /-- TIMER_DEADLINE_REACHED (R197). -/
  | timerDeadlineReached (t : TileId) (c : CoreIx)
  /-- REMOTE_ACCESS_TIMEOUT (R196). -/
  | remoteAccessTimeout (t : TileId) (c : CoreIx) (tag : Fin 4)
  /-- RRSP (R194). -/
  | rrsp (pid : Nat)
  /-- RACC (R177). -/
  | racc (pid : Nat)
  /-- REPLY (R223). -/
  | reply (pid : Nat)
  /-- TICKET_TIMEOUT (R224). -/
  | ticketTimeout (t : TileId) (c : CoreIx) (tk : Fin 8)
  /-- PROBE (R231). -/
  | probe (pid : Nat)
  /-- MSG (R217). -/
  | msg (pid : Nat)
  /-- MSGB (R217). -/
  | msgb (pid : Nat)
  /-- DESC (R233). -/
  | desc (pid : Nat)
  /-- DESCRIPTOR_RECORD_WRITTEN (R233). -/
  | descriptorRecordWritten (t : TileId) (m : MuIx)
  /-- MATMUL (R87). -/
  | matmul (t : TileId) (k : CuIx) (fl : MatFault) (ep : EPlace)
  /-- VECTOR (R91). -/
  | vector (t : TileId) (k : CuIx) (shadow : List Nat) (ep : EPlace)
  /-- LOADW (R83). -/
  | loadw (t : TileId) (k : CuIx)
  /-- LOADX (R86). -/
  | loadx (t : TileId) (k : CuIx)
  /-- UOP_HALT (R91). -/
  | uopHalt (t : TileId) (k : CuIx)
  /-- CU_CONTEXT_START (R91). -/
  | cuContextStart (t : TileId) (k : CuIx)
  /-- MICRO_OP_ISSUE (R92). -/
  | microOpIssue (t : TileId) (k : CuIx)
  /-- OUTPUT_TOKEN_SEND (R106). -/
  | outputTokenSend (t : TileId) (u : Fin 6)
  /-- MASK_DEADLINE (R134). -/
  | maskDeadline (t : TileId) (k : CuIx)
  /-- STEERING_FIRE (R262). -/
  | steeringFire (t : TileId) (k : CuIx) (shadow : List Nat) (ep : EPlace)
  /-- GENERATOR_START (R153). -/
  | generatorStart (t : TileId) (m : MuIx) (p : Fin 8) (cu : Option CuIx)
  /-- AFFINE_BEAT (R158). -/
  | affineBeat (t : TileId) (m : MuIx) (g : Fin 2)
  /-- INDIRECT_ACCESS (R159). -/
  | indirectAccess (t : TileId) (m : MuIx) (g : Fin 2)
  /-- GATHER_PIECE (R162). -/
  | gatherPiece (t : TileId) (m : MuIx) (g : Fin 2)
  /-- TREE_WALK_NODE (R165). -/
  | treeWalkNode (t : TileId) (m : MuIx) (g : Fin 2)
  /-- RING_PRODUCE (R237). -/
  | ringProduce (t : TileId) (m : MuIx) (p : Fin 8)
  /-- RING_CONSUME (R237). -/
  | ringConsume (t : TileId) (m : MuIx) (p : Fin 8)
  /-- COPY_OUT_GRANULE (R170). -/
  | copyOutGranule (t : TileId) (m : MuIx)
  /-- SNAPSHOT_SHADOW_WAIT (R172). -/
  | snapshotShadowWait (t : TileId) (m : MuIx) (g : Fin 4096)
  /-- SHADOW_FOLD_BACK (R171). -/
  | shadowFoldBack (t : TileId) (m : MuIx)
  /-- SRAM_SCRUB (R151, R183). -/
  | sramScrub (t : TileId) (u : ScrubAt)
  /-- TOKD (R257). -/
  | tokd (pid : Nat)
  /-- TOKC (R257). -/
  | tokc (pid : Nat)
  /-- CRET (R259). -/
  | cret (pid : Nat)
  /-- QUEUE_RELEASE (R257). -/
  | queueRelease (t : TileId) (u : Fin 6) (q : QIx)
  /-- ACK_STREAM_RESEND (R254). -/
  | ackStreamResend (t : TileId) (u : Fin 6) (o : QIx)
  /-- FOLD_SWITCH_REQUEST (R268). -/
  | foldSwitchRequest (t : TileId) (u : Fin 54)
  /-- FOLD_SWITCH (R269). -/
  | foldSwitch (t : TileId) (u : Fin 54)
  /-- SPILL_REINJECTION (R269). -/
  | spillReinjection (t : TileId) (u : Fin 6)
  /-- DRAIN_EVALUATION (R274). -/
  | drainEvaluation (r : Fin 64)
  /-- DRAIN_TIMEOUT (R275). -/
  | drainTimeout (r : Fin 64)
  /-- QUIESCE_DEADLINE (R280). -/
  | quiesceDeadline (tag : Nat)
  /-- WATCHDOG_WINDOW (R284). -/
  | watchdogWindow (r : Fin 64)
  /-- REGION_LOAD (R278). -/
  | regionLoad (r : Fin 64)
  /-- REGION_START (R247). -/
  | regionStart (r : Fin 64)
  /-- REGION_STOP (R276). -/
  | regionStop (r : Fin 64)
  /-- REGION_DRAIN (R275). -/
  | regionDrain (r : Fin 64)
  /-- REGION_RESTART (R277). -/
  | regionRestart (r : Fin 64)
  /-- REGION_STEP (R248). -/
  | regionStep (r : Fin 64)
  /-- PHASE (R466). -/
  | phase (r : Fin 64)
  /-- PHASE_COMPLETE (R467). -/
  | phaseComplete (r : Fin 64)
  /-- PACKET_HOP (R299). -/
  | packetHop (pid : Nat)
  /-- LINK_RETRY (R294). -/
  | linkRetry (t : TileId) (port : Fin 4) (ctl : Bool)
  /-- LINK_RETRAIN (R295). -/
  | linkRetrain (t : TileId) (port : Fin 4) (ctl : Bool)
  /-- LINK_RETRAIN_DONE (R295). -/
  | linkRetrainDone (t : TileId) (port : Fin 4) (ctl : Bool) (bad : List (Nat × Nat))
  /-- GROUP_PACKET (R305). -/
  | groupPacket (pid : Nat)
  /-- RED (R309). -/
  | red (pid : Nat)
  /-- CWAIT_EXPIRY (R309). -/
  | cwaitExpiry (t : TileId) (i : Fin 32)
  /-- RECT (R307). -/
  | rect (pid : Nat)
  /-- MESH_DOMAIN_DOWN (R314). -/
  | meshDomainDown (f : Fin 100)
  /-- LIVE_TABLE_CHANGE (R320). -/
  | liveTableChange
  /-- TABLE_CHANGE_IDLE (R320). -/
  | tableChangeIdle
  /-- TABLE_CHANGE_DEADLINE (R320). -/
  | tableChangeDeadline
  /-- WAVE_SEND (R323). -/
  | waveSend
  /-- TIME_MARK_SCHEDULE (R323). -/
  | timeMarkSchedule
  /-- SNAPSHOT (R324). -/
  | snapshot (alt : List (TileId × Bool)) (miss quiet : List TileId) (late : List (Fin 32))
  /-- COMMIT (R324). -/
  | commit (alt : List (TileId × Bool)) (miss quiet : List TileId) (late : List (Fin 32))
  /-- ABORT (R324). -/
  | abort (alt : List (TileId × Bool)) (miss quiet : List TileId) (late : List (Fin 32))
  /-- FREEZE_WAVE (R324). -/
  | freezeWave (alt : List (TileId × Bool)) (miss quiet : List TileId) (late : List (Fin 32))
  /-- TIME_MARK (R324). -/
  | timeMark (alt : List (TileId × Bool)) (miss quiet : List TileId) (late : List (Fin 32))
  /-- WAVE_REPORT_MISSING (R326). -/
  | waveReportMissing
  /-- COMMAND_FETCH (R452). -/
  | commandFetch (e : Fin 79) (words : List W64)
  /-- NOP (R453). -/
  | cmdNop (e : Fin 79)
  /-- COPY (R369). -/
  | copy (e : Fin 8)
  /-- COPY_PAGE_COMPLETE (R373). -/
  | copyPageComplete (cmd i : Nat)
  /-- DECRYPT_CHUNK (R375). -/
  | decryptChunk (cmd i : Nat)
  /-- PORT_CFG (R384). -/
  | portCfg (d : Fin 6)
  /-- INST_PUT (R398). -/
  | instPut (d : Fin 6)
  /-- INST_DEL (R398). -/
  | instDel (d : Fin 6)
  /-- TMPL_WR (R408). -/
  | tmplWr (d : Fin 6)
  /-- GUARD_WR (R411). -/
  | guardWr (d : Fin 6)
  /-- PARSE_WR (R394). -/
  | parseWr (d : Fin 6)
  /-- REPLAY_CFG (R456). -/
  | replayCfg (d : Fin 6)
  /-- WGX_SESS (R350). -/
  | wgxSess (d : Fin 6)
  /-- WGX_PUSH (R357). -/
  | wgxPush (d : Fin 6)
  /-- WGX_PULL (R357). -/
  | wgxPull (d : Fin 6)
  /-- TXN_BEGIN (R458). -/
  | txnBegin
  /-- TXN_COMMIT (R462). -/
  | txnCommit
  /-- TXN_ABORT (R464). -/
  | txnAbort
  /-- STAGE_WR (R455). -/
  | stageWr
  /-- MEMBER_STAGED (R460). -/
  | memberStaged (e : Fin 79)
  /-- TRANSACTION_DEADLINE (R462). -/
  | transactionDeadline (tag : Fin 4096)
  /-- CTR_READ (R525). -/
  | ctrRead
  /-- HIST_READ (R531). -/
  | histRead
  /-- SNAP_NOW (R453). -/
  | snapNow
  /-- LHIST_READ (R534). -/
  | lhistRead
  /-- TRACE_SET (R535). -/
  | traceSet
  /-- TRACE_STOP (R537). -/
  | traceStop
  /-- FREEZE (R325). -/
  | freeze
  /-- FRAME_RECEIVED (R387). -/
  | frameReceived (d : Fin 6) (p : Fin 16) (data : List Byte) (fcsOk : Bool) (dts : Int)
  /-- PTP_FRAME (R389). -/
  | ptpFrame (d : Fin 6) (p : Fin 16) (data : List Byte)
  /-- PARSE_NOP (R391). -/
  | parseNop (d : Fin 6) (l : Fin 16)
  /-- SETC (R391). -/
  | parseSetc (d : Fin 6) (l : Fin 16)
  /-- LD (R391). -/
  | parseLd (d : Fin 6) (l : Fin 16)
  /-- LDL (R391). -/
  | parseLdl (d : Fin 6) (l : Fin 16)
  /-- LDI (R391). -/
  | parseLdi (d : Fin 6) (l : Fin 16)
  /-- LUI (R391). -/
  | parseLui (d : Fin 6) (l : Fin 16)
  /-- ADD (R391). -/
  | parseAdd (d : Fin 6) (l : Fin 16)
  /-- ADDI (R391). -/
  | parseAddi (d : Fin 6) (l : Fin 16)
  /-- ANDI (R391). -/
  | parseAndi (d : Fin 6) (l : Fin 16)
  /-- SHRI (R391). -/
  | parseShri (d : Fin 6) (l : Fin 16)
  /-- ADV (R391). -/
  | parseAdv (d : Fin 6) (l : Fin 16)
  /-- BR (R391). -/
  | parseBr (d : Fin 6) (l : Fin 16)
  /-- JMP (R391). -/
  | parseJmp (d : Fin 6) (l : Fin 16)
  /-- KEY (R391). -/
  | parseKey (d : Fin 6) (l : Fin 16)
  /-- KEYV (R391). -/
  | parseKeyv (d : Fin 6) (l : Fin 16)
  /-- EXT (R391). -/
  | parseExt (d : Fin 6) (l : Fin 16)
  /-- FSQ (R391). -/
  | parseFsq (d : Fin 6) (l : Fin 16)
  /-- EMIT (R397). -/
  | parseEmit (d : Fin 6) (l : Fin 16)
  /-- DONE (R391). -/
  | parseDone (d : Fin 6) (l : Fin 16)
  /-- DROP (R391). -/
  | parseDrop (d : Fin 6) (l : Fin 16)
  /-- FRAME_END (R404). -/
  | frameEnd (d : Fin 6) (n : Nat)
  /-- EVENT_SEND (R401). -/
  | eventSend (d : Fin 6) (k : Fin 4)
  /-- PENDING_INDEX_TIMEOUT (R403). -/
  | pendingIndexTimeout (d : Fin 6) (n : Nat)
  /-- EVENT_REPLY_TIMEOUT (R403). -/
  | eventReplyTimeout (d : Fin 6) (n : Nat)
  /-- REPLAY_RECORD_WRITE (R419). -/
  | replayRecordWrite (d : Fin 6) (journal : Bool)
  /-- RESPONSE (R407). -/
  | response (pid : Nat)
  /-- MAC_GRANT (R409). -/
  | macGrant (d : Fin 6) (p : Fin 16) (dts : Int)
  /-- FRAME_TRANSMITTED (R410). -/
  | frameTransmitted (d : Fin 6) (p : Fin 16)
  /-- SNUFF_N (R414). -/
  | snuffN (low held : Bool)
  /-- CD_SNF_WRITE (R416). -/
  | cdSnfWrite (p : Fin 2) (v : W32)
  /-- PORT_LINK_CHANGE (R383). -/
  | portLinkChange (d : Fin 6) (p : Fin 16) (up : Bool)
  /-- REPLAY_SEND (R420). -/
  | replaySend (d : Fin 6) (g : Fin 64)
  /-- WGX_DATA (R353). -/
  | wgxData (d : Fin 6) (p : Fin 16) (f : List Byte)
  /-- WGX_ACK (R355). -/
  | wgxAck (d : Fin 6) (p : Fin 16) (f : List Byte)
  /-- WGX_PULL_FRAME (R357). -/
  | wgxPullFrame (d : Fin 6) (p : Fin 16) (f : List Byte)
  /-- WGX_RST (R353). -/
  | wgxRst (d : Fin 6) (p : Fin 16) (f : List Byte)
  /-- WGX_FRAME_SEND (R355). -/
  | wgxFrameSend (d : Fin 6) (i : Fin 32)
  /-- WGX_RTO_EXPIRY (R355). -/
  | wgxRtoExpiry (d : Fin 6) (i : Fin 32) (seq : Option Nat)
  /-- WGX_ACK_TIMER (R354). -/
  | wgxAckTimer (d : Fin 6) (i : Fin 32)
  /-- MWR (R368). -/
  | mwr (pid : Nat)
  /-- MRD (R368). -/
  | mrd (pid : Nat)
  /-- MSD_SERVICE_START (R376). -/
  | msdServiceStart (m : Fin 24)
  /-- HBM_PATROL_SCRUB (R362). -/
  | hbmPatrolScrub (m : Fin 24)
  /-- RESILVER_PAGE (R378). -/
  | resilverPage (m : Fin 24)
  /-- SATELLITE_DIE_RESET (R519). -/
  | satelliteDieReset (d : Fin 32)
  /-- SATELLITE_RETRAIN_DONE (R519). -/
  | satelliteRetrainDone (d : Fin 32)
  /-- BROBRY_FLIT (R596). -/
  | brobryFlit (d : Fin 32) (p : Fin 8) (dir : Fin 2) (slots : Option (List (Fin 4))) (ok : Bool)
  /-- BROBRY_NAK (R597). -/
  | brobryNak (d : Fin 32) (p : Fin 8) (dir : Fin 2) (oks : List Bool)
  /-- BROBRY_REPLAY_TIMEOUT (R597). -/
  | brobryReplayTimeout (d : Fin 32) (p : Fin 8) (dir : Fin 2) (oks : List Bool)
  /-- ATTACH_PORT_RETRAIN (R599). -/
  | attachPortRetrain (d : Fin 32) (p : Fin 8)
  /-- WAVE_FRAME (R602). -/
  | waveFrame (d : Fin 32) (p : Fin 8) (ok : Bool)
  /-- SNUFF_FRAME (R602). -/
  | snuffFrame (d : Fin 6)
  /-- SBACK (R601). -/
  | sbackFrame (d : Fin 32) (p : Fin 8) (dir : Fin 2) (ok : Bool)
  /-- CREDIT (R601). -/
  | creditFrame (d : Fin 32) (p : Fin 8) (dir : Fin 2) (v : W64) (ok : Bool)
  /-- TRAIN (R604). -/
  | trainFrame (d : Fin 32) (p : Fin 8) (dir : Fin 2) (w : W64) (ok : Bool)
  /-- KEY_FRAME (R619). -/
  | keyFrame (d : Fin 32) (p : Fin 8) (slot : Fin 16) (piece : Fin 4) (ok : Bool)
  /-- MGMT (R601). -/
  | mgmtFrame (d : Fin 32) (p : Fin 8) (dir : Fin 2) (bs : List Byte) (ok : Bool)
  /-- STATE (R601). -/
  | stateFrame (d : Fin 32) (p : Fin 8) (rep : DieRep) (ok : Bool)
  /-- SIDEBAND_REPEAT_TIMEOUT (R601). -/
  | sidebandRepeatTimeout (d : Fin 32) (p : Fin 8) (dir : Fin 2) (oks : List Bool)
  /-- DIE_TRAINING (R607). -/
  | dieTraining (d : Fin 32) (bad : List (Fin 8 × Fin 2 × Fin 13))
  /-- SEM_TAKE (R430). -/
  | semTake (p : Fin 2) (both : Bool)
  /-- SEM_HB (R431). -/
  | semHb (p : Fin 2) (v : W32)
  /-- SEM_REL (R431). -/
  | semRel (p : Fin 2) (v : W32)
  /-- SEMAPHORE_LEASE_END (R434). -/
  | semaphoreLeaseEnd
  /-- MRST (R583). -/
  | mrst (p : Fin 2)
  /-- RING_CFG (R436). -/
  | ringCfg (p : Fin 2) (e : Fin 79) (v : W32)
  /-- RING_DB (R437). -/
  | ringDb (p : Fin 2) (e : Fin 79) (tail : W32)
  /-- CPL_HEAD (R442). -/
  | cplHead (p : Fin 2) (e : Fin 79) (v : W32)
  /-- COMPLETION_INTERRUPT_DELAY (R442). -/
  | completionInterruptDelay (p : Fin 2) (e : Fin 79)
  /-- INT_CAUSE (R440). -/
  | intCause (p : Fin 2) (v : W32)
  /-- INT_MASK (R441). -/
  | intMask (p : Fin 2) (v : W32)
  /-- MSIX_MASK_CHANGE (R443). -/
  | msixMaskChange (p : Fin 2) (en fm : Option Bool) (vec : Option (Fin 1024 × Bool))
  /-- TIME_NS (R444). -/
  | timeNs (p : Fin 2) (h : Half)
  /-- BAR0_ACCESS_SIZE (R428). -/
  | bar0AccessSize (p : Fin 2) (write : Bool)
  /-- REGISTER_WRITE (R16). -/
  | registerWrite (p : Fin 2) (r : RegW)
  /-- FLR (R445). -/
  | flr (p : Fin 2)
  /-- PERST_N (R445). -/
  | perstN (p : Fin 2) (pin : Bool)
  /-- MBH_POST (R470). -/
  | mbhPost (p : Fin 2) (w : W32)
  /-- MAILBOX_REQUEST_CHECK (R471). -/
  | mailboxRequestCheck (p : Fin 2)
  /-- MAILBOX_REPLY (R474). -/
  | mailboxReply
  /-- MBM_ACK (R474). -/
  | mbmAck (p : Fin 2) (aseq : W32)
  /-- MAILBOX_REPLY_DEADLINE (R475). -/
  | mailboxReplyDeadline (p : Fin 2)
  /-- MB_NOP (R478). -/
  | mbNop
  /-- MB_VERSION (R478). -/
  | mbVersion
  /-- MB_STATE (R478). -/
  | mbState
  /-- MB_INVENTORY (R478). -/
  | mbInventory
  /-- MB_BIRTH_READ (R478). -/
  | mbBirthRead
  /-- MB_MEMMAP_READ (R478). -/
  | mbMemmapRead
  /-- MB_MEMMAP_SET (R480). -/
  | mbMemmapSet
  /-- MB_INCRING_SET (R485). -/
  | mbIncringSet
  /-- MB_FENCE (R481). -/
  | mbFence
  /-- MB_UNFENCE (R481). -/
  | mbUnfence
  /-- MB_SNAP_SET (R482). -/
  | mbSnapSet
  /-- MB_SNAP_READ (R478). -/
  | mbSnapRead
  /-- MB_PCAP_SET (R560). -/
  | mbPcapSet (flash : Bool)
  /-- MB_POWER_READ (R478). -/
  | mbPowerRead
  /-- MB_OPMASK_SET (R560). -/
  | mbOpmaskSet (flash : Bool)
  /-- MB_PILOT_ENTER (R568). -/
  | mbPilotEnter
  /-- MB_PILOT_WAKE (R571). -/
  | mbPilotWake
  /-- WAKE_STEP (R571). -/
  | wakeStep (fields : List (Fin 100)) (msds : List (Fin 24))
  /-- MB_CLK_STATUS (R478). -/
  | mbClkStatus
  /-- MB_FREQ_MEAS (R538). -/
  | mbFreqMeas
  /-- MB_TSRC_SET (R551). -/
  | mbTsrcSet (flash : Bool)
  /-- MB_SNUFF_ENG (R484). -/
  | mbSnuffEng
  /-- MB_SNUFF_REL (R484). -/
  | mbSnuffRel
  /-- MB_SET_READ (R478). -/
  | mbSetRead
  /-- MB_SET_WRITE (R489). -/
  | mbSetWrite (flash : Bool)
  /-- MB_SET_DEFAULT (R478). -/
  | mbSetDefault (flash : Bool)
  /-- MB_UPD_STAGE (R492). -/
  | mbUpdStage
  /-- MB_UPD_ACTIVATE (R493). -/
  | mbUpdActivate
  /-- ACTIVATION_RESET (R493). -/
  | activationReset
  /-- MB_UPD_CONFIRM (R494). -/
  | mbUpdConfirm
  /-- MB_UPD_STATUS (R478). -/
  | mbUpdStatus
  /-- HEALTH_DEADLINE (R495). -/
  | healthDeadline
  /-- SEC_STATUS (R623). -/
  | secStatus
  /-- SEC_PUBKEYS (R623). -/
  | secPubkeys
  /-- SEC_ATTEST (R624). -/
  | secAttest
  /-- SEC_KEY_IMPORT (R618). -/
  | secKeyImport
  /-- SEC_KEY_CLEAR (R620). -/
  | secKeyClear
  /-- SEC_KEY_LIST (R623). -/
  | secKeyList
  /-- SEC_RANDOM (R617). -/
  | secRandom
  /-- SEC_SELFTEST (R625). -/
  | secSelftest
  /-- SEC_DBG_CHAL (R622). -/
  | secDbgChal
  /-- SEC_DBG_UNLOCK (R622). -/
  | secDbgUnlock
  /-- SEC_DBG_LOCK (R623). -/
  | secDbgLock
  /-- SEC_AUDIT_READ (R627). -/
  | secAuditRead
  /-- SEC_ROOT_REVOKE (R621). -/
  | secRootRevoke
  /-- ENTROPY_TEST_FAILURE (R625). -/
  | entropyTestFailure (adaptive : Bool)
  /-- INCIDENT_ACCEPT (R501). -/
  | incidentAccept
  /-- COALESCING_WINDOW_END (R502). -/
  | coalescingWindowEnd
  /-- TILE_HEALTH_PROBE (R499). -/
  | tileHealthProbe (cd md silent : List TileId)
  /-- PERIODIC_SNAPSHOT (R482). -/
  | periodicSnapshot
  /-- RECOVERY_START (R511). -/
  | recoveryStart
  /-- SPARE_TEST_DONE (R511). -/
  | spareTestDone (good : Bool)
  /-- REPLAY_CAUGHT_UP (R513). -/
  | replayCaughtUp (g : Fin 64)
  /-- BLADE_MEASUREMENT (R554). -/
  | bladeMeasurement (vs : List (BitVec 16 × BitVec 16))
  /-- FAST_HALVING_RECHECK (R559). -/
  | fastHalvingRecheck
  /-- POWER_LOOP_STEP (R557). -/
  | powerLoopStep (e : PowerEst)
  /-- ISSUE_BUDGET_CYCLE (R556). -/
  | issueBudgetCycle (f : Fin 100)
  /-- OP_CHANGE_STEP (R544). -/
  | opChangeStep (f : Fin 100)
  /-- TAPER_STEP (R546). -/
  | taperStep (f : Fin 100)
  /-- DROOP_DETECTED (R547). -/
  | droopDetected (t : TileId)
  /-- DROOP_RECOVERED (R547). -/
  | droopRecovered (t : TileId)
  /-- FIELD_PLL_UNLOCK (R520). -/
  | fieldPllUnlock (f : Fin 100) (b : Bool)
  /-- STANDBY_PLL_TIMEOUT (R520). -/
  | standbyPllTimeout (f : Fin 100)
  /-- THERMAL_SENSOR_READ (R561). -/
  | thermalSensorRead (x : Sensor)
  /-- HEAT_BUDGET_STEP (R562). -/
  | heatBudgetStep (f : Fin 100)
  /-- HEAT_RESUME (R564). -/
  | heatResume (r : Fin 64)
  /-- SERVO_MEASUREMENT (R549). -/
  | servoMeasurement (o : Int)
  /-- PPS_IN (R549). -/
  | ppsIn
  /-- TIME_SOURCE_TIMEOUT (R550). -/
  | timeSourceTimeout
  /-- BYPASS (R611). -/
  | tapBypass (d : Fin 32)
  /-- IDCODE (R610). -/
  | tapIdcode (d : Fin 32)
  /-- SAMPLE_PRELOAD (R611). -/
  | tapSample (d : Fin 32) (pins preload : List Bool)
  /-- EXTEST (R611). -/
  | tapExtest (d : Fin 32) (pins next : List Bool)
  /-- JSEL (R610). -/
  | tapJsel (v : W32)
  /-- LBNEAR (R608). -/
  | tapLbnear (d : Fin 32) (v : BitVec 8)
  /-- LBFAR (R608). -/
  | tapLbfar (d : Fin 32) (v : BitVec 8)
  /-- PRBSCFG (R608). -/
  | tapPrbscfg (d : Fin 32) (v : W32)
  /-- PRBSRD (R608). -/
  | tapPrbsrd (d : Fin 32) (errs : List (Fin 13 × W32)) (bits : Nat)
  /-- BBSTAT (R611). -/
  | tapBbstat (d : Fin 32)
  /-- SB_ID (R644). -/
  | sbId
  /-- SB_STATE (R644). -/
  | sbState
  /-- SB_PIN (R644). -/
  | sbPin
  /-- SB_VMIN (R644). -/
  | sbVmin
  /-- SB_IBLADE (R644). -/
  | sbIblade
  /-- SB_TMAX (R644). -/
  | sbTmax
  /-- SB_TCOOL (R644). -/
  | sbTcool
  /-- SB_ALERT (R644). -/
  | sbAlert
  /-- UART_RX (R643). -/
  | uartRx (ch : Byte)
  /-- PILOT_ENTRY_STEP (R568). -/
  | pilotEntryStep
  /-- FREQUENCY_METER_GATE_CLOSE (R538). -/
  | frequencyMeterGateClose (m : Fin 128) (count : Option W32)
  /-- UPDATE_STAGING_COMPLETE (R492). -/
  | updateStagingComplete (flash : Bool)
  /-- HOST_PORT_RESET_END (R445). -/
  | hostPortResetEnd (p : Fin 2)
  /-- CONFIGURATION_REQUEST (R426). -/
  | configurationRequest (p : Fin 2) (q : CfgReq)
  /-- RC_REGISTER_READ (R16). -/
  | rcRegisterRead (r : RegRc)
  /-- HOST_READ_COMPLETION (R438). -/
  | hostReadCompletion (p : Fin 2) (what : HostRd) (res : HostRes)
  /-- ATTACH_PORT_RETRAIN_DONE (R599). -/
  | attachPortRetrainDone (d : Fin 32) (p : Fin 8) (bad : List (Fin 2 × Fin 13))
  /-- CLOCK_INPUT_VALIDITY_CHANGE (R541). -/
  | clockInputValidityChange (i : ClkIn) (valid : Bool)
  /-- MODULE_RESET_RELEASE (R584). -/
  | moduleResetRelease
  deriving DecidableEq, Repr

end Sys2Proof
end

