-- ==== Sys2Proof/Decode.lean ====
section
/-!
DEFINITION. The command that a word of the table's bits spells. No row of the table has bits (its fields are empty), so
no word spells a command there. The spec gives the encodings of the module-specific instructions of the Wick cores
(Tables 6.5 and 6.8); `wickDecode` reads them, for the command of a core whose fetched word is of these groups. The
encodings of the ordinary groups stand in a reference that the spec does not hold (R187).
-/
namespace Sys2Proof

/-- The command that a word spells, where the table gives a row bits: none. -/
def decodeTableWord (_nbits _w : Nat) : Option Instr := none

/-- Bits `lo` to `lo + n - 1` of an instruction word. -/
def wordBits (w : W32) (lo n : Nat) : Nat := w.toNat / 2 ^ lo % 2 ^ n

/-- `MAJ` (Table 6.5). -/
def wordMaj (w : W32) : Nat := wordBits w 26 6

/-- A register field, `GD` at 21, `GS1` at 16 and `GS2` at 11 (Table 6.5). -/
def wordReg (w : W32) (lo : Nat) : GReg := Fin.ofNat 32 (wordBits w lo 5)

/-- The word has zeros in `n` bits from `lo`, which are reserved (R187). -/
def wordZero (w : W32) (lo n : Nat) : Bool := wordBits w lo n == 0

/-- Where the reserved bits of a word are zero it is the instruction, else nothing (R187). -/
def ifZero (b : Bool) (i : Instr) : Option Instr := if b then some i else none

/-- The hashing group, `MAJ` 0x28 (Table 6.8). -/
def decHash (t : TileId) (c : CoreIx) (w : W32) : Option Instr :=
  let gd := wordReg w 21
  let a := wordReg w 16
  let b := wordReg w 11
  match wordBits w 8 3 with
  | 0 => ifZero (wordZero w 2 6 && wordBits w 0 2 != 3) (.crc32c t c gd a b (BitVec.ofNat 2 (wordBits w 0 2)))
  | 1 => ifZero (wordZero w 0 8) (.hmix t c gd a b)
  | 2 => ifZero (wordZero w 0 8) (.hfold t c gd a b)
  | _ => none

/-- The queue group, `MAJ` 0x29 (Table 6.8). -/
def decQueue (t : TileId) (c : CoreIx) (w : W32) : Option Instr :=
  let gd := wordReg w 21
  let q : QIx := Fin.ofNat 8 (wordBits w 0 3)
  let z := wordZero w 3 5
  match wordBits w 8 3 with
  | 0 => ifZero z (.pop t c gd q)
  | 1 => ifZero z (.popl t c gd q)
  | 2 => ifZero z (.peek t c gd q)
  | 3 => ifZero z (.qcnt t c gd q)
  | 4 => ifZero (z && gd == 0) (.qdrop t c gd q)
  | _ => none

/-- The messaging group, `MAJ` 0x2A (Table 6.8). -/
def decMessage (t : TileId) (c : CoreIx) (w : W32) : Option Instr :=
  let gd := wordReg w 21
  let a := wordReg w 16
  let b := wordReg w 11
  let n : Fin 4 := Fin.ofNat 4 (wordBits w 0 2)
  match wordBits w 8 3 with
  | 0 => ifZero (wordZero w 2 6) (.send t c gd a b n)
  | 1 => ifZero (wordZero w 2 6) (.sendb t c gd a b n)
  | 2 => ifZero (wordZero w 12 4) (.recv t c gd a (BitVec.ofNat 8 (wordBits w 0 8)) (wordBits w 11 1 == 1))
  | 3 => ifZero (wordZero w 0 8) (.dsend t c gd a b)
  | 4 => ifZero (wordZero w 0 8) (.tkwt t c gd a)
  | 5 => ifZero (wordZero w 0 8) (.tkst t c gd a)
  | 6 => ifZero (wordZero w 0 8 && wordZero w 11 15) (.wickFence t c)
  | _ => none

/-- The remote memory group, `MAJ` 0x2B (Table 6.8). -/
def decRemote (t : TileId) (c : CoreIx) (w : W32) : Option Instr :=
  match wordBits w 8 3 with
  | 0 => ifZero (wordZero w 0 8) (.ldr t c (wordReg w 21) (wordReg w 16) (wordReg w 11))
  | 1 => ifZero (wordZero w 0 8) (.str t c (wordReg w 21) (wordReg w 16) (wordReg w 11))
  | _ => none

/-- The timer group, `MAJ` 0x2C (Table 6.8). -/
def decTimer (t : TileId) (c : CoreIx) (w : W32) : Option Instr :=
  let z := wordZero w 0 8
  match wordBits w 8 3 with
  | 0 => ifZero z (.trd t c (wordReg w 21))
  | 1 => ifZero z (.tset t c (wordReg w 16))
  | 2 => ifZero z (.twait t c)
  | 3 => ifZero z (.tchk t c (wordReg w 21))
  | 4 => ifZero z (.mtime t c (wordReg w 21))
  | _ => none

/-- The system group, `MAJ` 0x2D, in format I (Table 6.8). -/
def decSystem (t : TileId) (c : CoreIx) (w : W32) : Option Instr :=
  let imm := wordBits w 0 14
  match wordBits w 14 2 with
  | 0 => ifZero (wordZero w 12 2) (.csrr t c (wordReg w 21) (BitVec.ofNat 12 imm))
  | 1 => ifZero (wordZero w 12 2) (.csrw t c (wordReg w 16) (BitVec.ofNat 12 imm))
  | 2 => ifZero (imm == 0) (.yield t c)
  | _ => if imm == 0 then some (.wickHalt t c) else some (.trap t c (BitVec.ofNat 14 imm))

/-- The module-specific instruction that a word of major opcodes 0x28 to 0x2D spells for core `c` of tile `t`; a word whose sub-code is not
listed or whose reserved bits are not zero spells none, and raises `ILLEGAL` (R187, R188). Register fields that a row does not use are not among
the reserved bits: the table requires zeros in them where it wants them, in `QDROP`, `RECV` and `FENCE` (assumption 131). -/
def wickDecode (t : TileId) (c : CoreIx) (w : W32) : Option Instr :=
  match wordMaj w with
  | 0x28 => decHash t c w
  | 0x29 => decQueue t c w
  | 0x2A => decMessage t c w
  | 0x2B => decRemote t c w
  | 0x2C => decTimer t c w
  | 0x2D => decSystem t c w
  | _ => none

/-- The word may be one that raises `ILLEGAL` as not listed (R187): it is of a reserved major opcode, or of a module-specific group and spells
nothing there, or of an ordinary group, whose encodings the spec does not give. -/
def mayBeUnlisted (w : W32) : Bool := (wickDecode 0 0 w).isNone

end Sys2Proof
end

