-- ==== Sys2Proof/Config.lean ====
section
/-!
DEFINITION. The free values: what the manual leaves open and the machine goes on with. Each is a constant with no
body, so nothing can evaluate it or lean on a value of it; the assumption log names each.
-/
namespace Sys2Proof.Config
open Sys2Proof

/-- The result of a Wick shift by 32 or more, by operation (assumption 10). -/
opaque wkShift : Nat → W32 → W32 → W32
/-- The result of a Wick minimum or maximum with a NaN operand or two zeros of unlike sign (assumption 11). -/
opaque wkMinMax : Nat → W32 → W32 → W32
/-- The result of a Wick compare with a NaN operand (assumption 11). -/
opaque wkCmpNan : Nat → W32 → W32 → Bool
/-- The bits of a register above a result narrower than 32 bits (assumption 12). -/
opaque wkUpper : Nat → W32 → W32 → W32
/-- The sum that a packed INT8 dot product leaves when it falls outside INT32 (assumption 13). -/
opaque wkDotOver : Int → W32
/-- A bit field that reaches beyond bit 31 (assumption 14). -/
opaque wkField : Nat → W32 → Nat → Nat → W32

/-- `LLOFS` that a calibration measures at a tile, signed, in ps: number of the calibration, tile (R328, assumption 133). -/
opaque llOfs : Nat → Nat → W32
/-- By how many ns the module-time counter of a tile lies off its line at a tick of REFCLK_MOD (R199, assumption 129). -/
opaque tileDev : Nat → Nat → Int
/-- How many ns of a backward correction a tile's counter has absorbed some ns after it (R199, assumption 129). -/
opaque tileSlowed : Nat → Nat → Nat
/-- The bits of a table-and-polynomial function of a vector stage: operation, input, immediate (assumption 23). -/
opaque vecFun : Nat → Nat → Nat → Nat
/-- The bits that `PADD`, `PMUL` and PAIR matrix sums choose within their error bound (assumption 24). -/
opaque pairBits : Nat → Nat → Nat → Nat
/-- The result of FastTwoSum when its precondition fails (assumption 25). -/
opaque fastTwoSum : Nat → Nat → Nat × Nat
/-- The larger or smaller of two zeros of unlike sign in a vector stage (assumption 26). -/
opaque vecZeros : Nat → Nat → Nat → Nat
/-- A lane that a source of a vector stage does not have (assumption 27). -/
opaque laneGap : Nat → Nat → Nat
/-- A byte of a weight block that the generator's beat does not supply (assumption 28). -/
opaque feedGap : Nat → Nat

/-- The leaf value and output slot of the record of a tree whose walk failed: tree (assumption 33). -/
opaque treeGap : Nat → Nat

/-- The source MAC address of a port (R349, assumption 134). -/
opaque srcMac : Nat → BitVec 48
/-- A header field of a WGX frame that no rule gives: port, time in periods of REFCLK_MOD, first byte of the field (R349, assumption 134). -/
opaque wgxHead : Nat → Nat → Nat → Nat
/-- WGX frames over IPv4 carry a UDP checksum (R349, assumption 134). -/
opaque wgxUdpSum : Bool

/-- AES-256-GCM as the memory-side dies use it (R374, R375): key number, 12-byte IV, additional data, ciphertext and tag;
`none` when the tag does not match (assumption 50). -/
opaque gcmOpen : Nat → List Byte → List Byte → List Byte → List Byte → Option (List Byte)

/-! The cryptographic functions that the manual names by their standards (assumption 52). -/

/-- SHA-384. -/
opaque sha384 : List Byte → List Byte
/-- The chain value of the first audit record, which has no predecessor (assumption 53). -/
opaque auditFirst : W64
/-- Byte `i` of the DRBG's output for a request, by the number of the request (R617). -/
opaque drbgByte : Nat → Nat → Byte
/-- A root key's signature over a digest verifies (R621): key, digest, signature. -/
opaque rootSig : Nat → List Byte → List Byte → Bool
/-- A debug key's signature over a digest verifies (R622): key, digest, signature. -/
opaque debugSig : List Byte → List Byte → List Byte → Bool
/-- The OTP digests of the two debug keys (Table 21.2). -/
opaque debugDigest : Nat → List Byte
/-- The model key that an import unwraps (R618 steps 1 to 4): serial number, slot, ephemeral key and wrapped key; `none` when a step
fails. -/
opaque keyUnwrap : Nat → Nat → List Byte → List Byte → Option (List Byte)
/-- Piece 0 to 2 of a slot key wrapped for an MSD (R619): MSD, slot, key, piece. -/
opaque keyWrap : Nat → Nat → Nat → Nat → List Byte
/-- Byte `i` of the reply of `SEC_PUBKEYS` (R623). -/
opaque pubKeyByte : Nat → Byte
/-- Byte `i` of the DIK's signature over a digest (R624). -/
opaque dikSig : List Byte → Nat → Byte
/-- A known-answer test that `SEC_SELFTEST` repeats fails: the run and the number of the test, or 0 (R625). -/
opaque selfTest : Nat → Nat
/-- The manufacturer code of the IDCODEs (R610, assumption 54). -/
opaque makerCode : BitVec 11

/-- The vendor and subsystem vendor identifier, as registered (R424), and the double words of configuration space that the manual leaves to
PCI Express (assumption 55). -/
opaque vendorId : BitVec 16
opaque cfgDw : Nat → W32

/-- The version of the boot ROM, which no rule gives (assumption 56). -/
opaque romVersion : W32
/-- The generation of the wafer die, which carries no capability word (assumption 56). -/
opaque waferGen : BitVec 8

/-- The regulator efficiency at the last calibration, in 1/1,000 (R557, assumption 57). -/
opaque efficiency : Nat
/-- What the time servo's proportional-integral loop answers: the offset in ns, the rate in ppb and the integral term before, and the rate and
the integral term after (R549, assumption 58). -/
opaque servo : Int → Int → Int → Int × Int

end Sys2Proof.Config
end

