-- ==== Sys2Proof/Machine/Sparse.lean ====
section
/-!
DEFINITION. Reading and writing the sparse maps that hold the indexed state (registers of units, memory bytes,
table entries): keys strictly rising, no entry at the default.
-/
namespace Sys2Proof.Machine
open Sys2Proof

/-- The value of key `k`; an unlisted key holds `d`. -/
def mget {α : Type} (d : α) : SMap α → Nat → α
  | [], _ => d
  | (j, v) :: m, k => if j = k then v else mget d m k

/-- Remove key `k`. -/
def mdel {α : Type} : SMap α → Nat → SMap α
  | [], _ => []
  | (j, v) :: m, k => if j = k then mdel m k else (j, v) :: mdel m k

/-- Put `v` at key `k`, whatever the default. -/
def mput {α : Type} : SMap α → Nat → α → SMap α
  | [], k, v => [(k, v)]
  | (j, w) :: m, k, v =>
    if j = k then (k, v) :: m else if k < j then (k, v) :: (j, w) :: m else (j, w) :: mput m k v

/-- Write `v` at key `k`, keeping the canonical form for the default `d`. -/
def mset {α : Type} [DecidableEq α] (d : α) (m : SMap α) (k : Nat) (v : α) : SMap α :=
  if v = d then mdel m k else mput m k v

/-- Change the value of key `k`. -/
def mmod {α : Type} [DecidableEq α] (d : α) (m : SMap α) (k : Nat) (f : α → α) : SMap α :=
  mset d m k (f (mget d m k))

/-- The keys of a map rise strictly and lie above `lo`. -/
def mrise {α : Type} : Nat → SMap α → Bool
  | _, [] => true
  | lo, (j, _) :: m => decide (lo ≤ j) && mrise (j + 1) m

/-- No entry holds the default. -/
def mnodef {α : Type} [DecidableEq α] (d : α) (m : SMap α) : Bool := m.all fun e => decide (e.2 ≠ d)

/-- The canonical form of a map with default `d`. -/
def mwf {α : Type} [DecidableEq α] (d : α) (m : SMap α) : Bool := mrise 0 m && mnodef d m

/-- The elements of a list at positions where a Boolean test on position and element holds, with positions. -/
def enumFilter {α : Type} (p : Nat → α → Bool) (l : List α) : List (Nat × α) :=
  (l.zipIdx.map fun e => (e.2, e.1)).filter fun e => p e.1 e.2

/-- Change element `i` of a list, if it has one. -/
def lmod {α : Type} : List α → Nat → (α → α) → List α
  | [], _, _ => []
  | a :: l, 0, f => f a :: l
  | a :: l, i + 1, f => a :: lmod l i f

/-- Set element `i` of a list, if it has one. -/
def lset {α : Type} (l : List α) (i : Nat) (v : α) : List α := lmod l i fun _ => v

/-- Element `i` of a list, or `d`. -/
def lget {α : Type} (d : α) : List α → Nat → α
  | [], _ => d
  | a :: _, 0 => a
  | _ :: l, i + 1 => lget d l i

/-- Remove element `i` of a list. -/
def ldel {α : Type} : List α → Nat → List α
  | [], _ => []
  | _ :: l, 0 => l
  | a :: l, i + 1 => a :: ldel l i

/-- Fold over the numbers 0 … n-1. -/
def forN {α : Type} : Nat → (Nat → α → α) → α → α
  | 0, _, a => a
  | n + 1, f, a => f n (forN n f a)

end Sys2Proof.Machine
end

