-- ==== Sys2Proof/Machine/Numbers.lean ====
section
/-!
DEFINITION. Number formats and exact accumulation (chapter 2): the layouts of Tables 2.1 to 2.3, exact values,
the five rounding modes with the stochastic generator (R70), conversion with the overflow rules (R66-R75), XP96
(R47-R60), FP32 and PAIR arithmetic (R46, R64, R65) and the exponent histogram (R76).
-/
namespace Sys2Proof.Machine
open Sys2Proof

/-- The formats of Table 0.10 (R19). -/
inductive Fmt
  | none | fp4 | e3m2 | e2m3 | e4m3 | e5m2 | int4 | int8 | uint8 | fp16 | bf16 | fp32 | pair | int32 | xp96 | e8m0
  deriving DecidableEq, Repr

/-- The format of a 4-bit format code (R19, Table 0.10). -/
def fmtOf (c : Nat) : Fmt :=
  match c % 16 with
  | 1 => .fp4 | 2 => .e3m2 | 3 => .e2m3 | 4 => .e4m3 | 5 => .e5m2 | 6 => .int4 | 7 => .int8 | 8 => .uint8
  | 9 => .fp16 | 10 => .bf16 | 11 => .fp32 | 12 => .pair | 13 => .int32 | 14 => .xp96 | 15 => .e8m0 | _ => .none

/-- The 4-bit code of a format (R19, Table 0.10). -/
def fmtCode : Fmt → Nat
  | .none => 0 | .fp4 => 1 | .e3m2 => 2 | .e2m3 => 3 | .e4m3 => 4 | .e5m2 => 5 | .int4 => 6 | .int8 => 7
  | .uint8 => 8 | .fp16 => 9 | .bf16 => 10 | .fp32 => 11 | .pair => 12 | .int32 => 13 | .xp96 => 14 | .e8m0 => 15

/-- Bits of one stored element of a format. -/
def fmtBits : Fmt → Nat
  | .none => 0 | .fp4 => 4 | .e3m2 => 6 | .e2m3 => 6 | .e4m3 => 8 | .e5m2 => 8 | .int4 => 4 | .int8 => 8
  | .uint8 => 8 | .fp16 => 16 | .bf16 => 16 | .fp32 => 32 | .pair => 64 | .int32 => 32 | .xp96 => 128 | .e8m0 => 8

/-- A format of 8 bits or fewer whose products enter XP96 (R50). -/
def fmtNarrow : Fmt → Bool
  | .fp4 | .e3m2 | .e2m3 | .e4m3 | .e5m2 | .int4 | .int8 | .uint8 => true
  | _ => false

/-- An integer format (R43). -/
def fmtInt : Fmt → Bool
  | .int4 | .int8 | .uint8 | .int32 => true
  | _ => false

/-- The layout of a floating-point format (Table 2.1): exponent bits, mantissa bits, bias, and what the top
exponent encodes: 0 numbers only, 1 a NaN at all ones only (E4M3), 2 infinity and NaN. -/
structure FLay where
  e : Nat
  m : Nat
  bias : Int
  top : Nat
  deriving DecidableEq, Repr

/-- Table 2.1. -/
def fmtLay : Fmt → Option FLay
  | .fp4 => some ⟨2, 1, 1, 0⟩
  | .e3m2 => some ⟨3, 2, 3, 0⟩
  | .e2m3 => some ⟨2, 3, 1, 0⟩
  | .e4m3 => some ⟨4, 3, 7, 1⟩
  | .e5m2 => some ⟨5, 2, 15, 2⟩
  | .fp16 => some ⟨5, 10, 15, 2⟩
  | .bf16 => some ⟨8, 7, 127, 2⟩
  | .fp32 => some ⟨8, 23, 127, 2⟩
  | _ => Option.none

/-- An exact value: a dyadic number with its sign, an infinity, or NaN (R41). -/
inductive Num
  | fin (neg : Bool) (mag : Nat) (exp : Int)
  | inf (neg : Bool)
  | nan
  deriving DecidableEq, Repr

/-- Plus zero. -/
def Num.zero : Num := .fin false 0 0

/-- An integer as an exact value. -/
def numOfInt (z : Int) : Num := .fin (z < 0) z.natAbs 0

/-- The sign of a value. -/
def numNeg : Num → Bool
  | .fin s _ _ => s
  | .inf s => s
  | .nan => false

/-- A value with the opposite sign. -/
def numFlip : Num → Num
  | .fin s m e => .fin (!s) m e
  | .inf s => .inf (!s)
  | .nan => .nan

/-- The magnitude of a value. -/
def numAbs : Num → Num
  | .fin _ m e => .fin false m e
  | .inf _ => .inf false
  | .nan => .nan

/-- The value is a zero. -/
def numIsZero : Num → Bool
  | .fin _ m _ => m == 0
  | _ => false

/-- The value of an encoding of a floating-point layout (R39). -/
def decodeLay (l : FLay) (w : Nat) : Num :=
  let m := bits w 0 l.m
  let e := bits w l.m l.e
  let s := bit w (l.m + l.e)
  let allOnes := e == 2 ^ l.e - 1
  if allOnes && l.top == 2 then (if m == 0 then .inf s else .nan)
  else if allOnes && l.top == 1 && m == 2 ^ l.m - 1 then .nan
  else if e == 0 then .fin s m (1 - l.bias - l.m)
  else .fin s (2 ^ l.m + m) ((e : Int) - l.bias - l.m)

/-- Flush an FP32 value whose magnitude is below the smallest normal, keeping its sign (R46). -/
def flush32 : Num → Num
  | .fin s m e => if (Nat.log2 m : Int) + e < -126 then .fin s 0 0 else .fin s m e
  | x => x

/-- The exact sum of two values; opposite infinities and NaN give NaN. The sum of two zeros is negative only when
both are, and an exact cancellation is +0 (DEDUCED, assumption 21). -/
def numAdd : Num → Num → Num
  | .nan, _ => .nan
  | _, .nan => .nan
  | .inf a, .inf b => if a == b then .inf a else .nan
  | .inf a, _ => .inf a
  | _, .inf b => .inf b
  | .fin a m e, .fin b n f =>
    if m == 0 && n == 0 then .fin (a && b) 0 0
    else
      let g := min e f
      let x : Int := (m <<< (e - g).toNat : Nat)
      let y : Int := (n <<< (f - g).toNat : Nat)
      let z := (if a then -x else x) + (if b then -y else y)
      .fin (z < 0) z.natAbs g

/-- The exact product of two values (R53). -/
def numMul : Num → Num → Num
  | .nan, _ => .nan
  | _, .nan => .nan
  | .inf a, .inf b => .inf (a != b)
  | .inf a, .fin b n _ => if n == 0 then .nan else .inf (a != b)
  | .fin a m _, .inf b => if m == 0 then .nan else .inf (a != b)
  | .fin a m e, .fin b n f => .fin (a != b) (m * n) (e + f)

/-- The difference of two values. -/
def numSub (x y : Num) : Num := numAdd x (numFlip y)

/-- Compare two values; `none` when either is NaN. -/
def numCmp : Num → Num → Option Ordering
  | .nan, _ => Option.none
  | _, .nan => Option.none
  | .inf a, .inf b => some (compare b.toNat a.toNat)
  | .inf a, _ => some (if a then .lt else .gt)
  | _, .inf b => some (if b then .gt else .lt)
  | .fin a m e, .fin b n f =>
    let g := min e f
    let x : Int := (m <<< (e - g).toNat : Nat)
    let y : Int := (n <<< (f - g).toNat : Nat)
    some (compare (if a then -x else x) (if b then -y else y))

/-! ### XP96 values (R47, R51, R52) -/

/-- The special state SPC (Table 2.2). -/
inductive Spc
  | finite | pinf | ninf | nan
  deriving DecidableEq, Repr

/-- An XP96 value: the 96-bit A, the binary point F, SPC, INX and POI (R47). -/
structure Xp where
  a : BitVec 96
  f : Int
  spc : Spc
  inx : Bool
  poi : Bool
  deriving DecidableEq, Repr

/-- A zero with binary point `f`. -/
def Xp.zero (f : Int) : Xp := ⟨0, f, .finite, false, false⟩

/-- The code of SPC (Table 2.2). -/
def spcCode : Spc → Nat
  | .finite => 0 | .pinf => 1 | .ninf => 2 | .nan => 3

/-- SPC from its code (Table 2.2). -/
def spcOf (c : Nat) : Spc :=
  match c % 4 with
  | 0 => .finite | 1 => .pinf | 2 => .ninf | _ => .nan

/-- Table 2.4. -/
def spcAdd : Spc → Spc → Spc
  | .finite, t => t
  | t, .finite => t
  | .pinf, .pinf => .pinf
  | .ninf, .ninf => .ninf
  | _, _ => .nan

/-- The sum of two XP96 values (R51, R52); the Boolean says that the binary points differ (incident 0x0210). -/
def xpAdd (x y : Xp) : Xp × Bool :=
  let differ := decide (x.f ≠ y.f)
  (⟨x.a + y.a, min x.f y.f, spcAdd x.spc y.spc, x.inx || y.inx, x.poi || y.poi || differ⟩, differ)

/-- The 128-bit container (Table 2.2). -/
def xpPack (x : Xp) : Nat :=
  x.a.toNat + 2 ^ 96 * (spcCode x.spc + 4 * ofBit x.inx + 8 * ofBit x.poi + 16 * unsigned 10 x.f)

/-- The value of a container (Table 2.2). -/
def xpUnpack (w : Nat) : Xp :=
  ⟨BitVec.ofNat 96 w, signed 10 (bits w 100 10), spcOf (bits w 96 2), bit w 98, bit w 99⟩

/-- The exact value of an XP96 with an output shift (R66 steps 1 and 2). -/
def xpNum (x : Xp) (oshift : Int) : Num :=
  match x.spc with
  | .nan => .nan
  | .pinf => .inf false
  | .ninf => .inf true
  | .finite => .fin (x.a.toInt < 0) x.a.toInt.natAbs (oshift - x.f)

/-- The value of an encoding as a unit reads it: FP32 and each half of a PAIR are flushed first (R46), MXINT8
excepted (the caller scales it); an XP96 container is read at its exact value (R66). -/
def decodeFmt (f : Fmt) (w : Nat) : Num :=
  match f with
  | .int4 => numOfInt (signed 4 w)
  | .int8 => numOfInt (signed 8 w)
  | .int32 => numOfInt (signed 32 w)
  | .uint8 => numOfInt (bits w 0 8 : Nat)
  | .e8m0 => if bits w 0 8 == 255 then .nan else .fin false 1 ((bits w 0 8 : Int) - 127)
  | .xp96 => xpNum (xpUnpack w) 0
  | .fp32 => flush32 (decodeLay ⟨8, 23, 127, 2⟩ w)
  | .pair =>
    numAdd (flush32 (decodeLay ⟨8, 23, 127, 2⟩ (bits w 0 32))) (flush32 (decodeLay ⟨8, 23, 127, 2⟩ (bits w 32 32)))
  | g => match fmtLay g with
    | some l => decodeLay l w
    | Option.none => Num.zero

/-- The rounding modes of Table 2.7, with the 24 random bits of a stochastic rounding (R69, R70). -/
inductive Rnd
  | rne | rtz | rup | rdn | sr (r24 : Nat)
  deriving DecidableEq, Repr

/-- The output G of the stochastic generator (R70). -/
def srRound (k0 k1 a b c d : W32) : W32 × W32 × W32 × W32 :=
  let a := a + k0
  let d := (d ^^^ a).rotateLeft 16
  let c := c + d
  let b := (b ^^^ c).rotateLeft 12
  let a := a + b + k1
  let d := (d ^^^ a).rotateLeft 8
  let c := c + d
  let b := (b ^^^ c).rotateLeft 7
  (a, b, c, d)

/-- The loop of R70, n rounds. -/
def srLoop : Nat → W32 → W32 → W32 × W32 × W32 × W32 → W32
  | 0, _, _, (a, _, c, _) => a ^^^ c
  | n + 1, k0, k1, (a, b, c, d) => srLoop n (k0 + 0x9E3779B9#32) k1 (srRound k0 k1 a b c d)

/-- The generator of R70. -/
def srGen (seed : W64) (tid elem step place : Nat) : W32 :=
  srLoop 6 (seed.setWidth 32) ((seed >>> 32).setWidth 32)
    (BitVec.ofNat 32 tid, BitVec.ofNat 32 elem, BitVec.ofNat 32 step, 0x6A09E667#32 + BitVec.ofNat 32 place)

/-- The rounding mode of an `RND` code (R69); a reserved code is refused at staging and never used. -/
def rndOf (c r24 : Nat) : Rnd :=
  match c % 8 with
  | 1 => .rtz | 2 => .rup | 3 => .rdn | 4 => .sr r24 | _ => .rne

/-- Round the magnitude `mag * 2^sh / 2^dn` to an integer (R69, R70). -/
def roundMag (r : Rnd) (neg : Bool) (mag dn : Nat) : Nat :=
  let q := mag >>> dn
  let rem := mag % 2 ^ dn
  if rem == 0 then q
  else match r with
    | .rne =>
      let h := 2 ^ (dn - 1)
      if rem > h || (rem == h && q % 2 == 1) then q + 1 else q
    | .rtz => q
    | .rup => if neg then q else q + 1
    | .rdn => if neg then q + 1 else q
    | .sr r24 =>
      let d24 := (rem * 2 ^ 24) >>> dn
      if d24 + r24 ≥ 2 ^ 24 then q + 1 else q

/-- Round a magnitude `mag * 2^exp` to a multiple of `2^q`; the answer counts that quantum. -/
def roundAt (r : Rnd) (neg : Bool) (mag : Nat) (exp q : Int) : Nat :=
  if exp ≥ q then mag <<< (exp - q).toNat else roundMag r neg mag (q - exp).toNat

/-- A conversion's result: the encoding, whether an FP32 result was flushed to zero (R46), and whether the zero
written stands for a NaN (Table 2.8, R74). -/
structure Conv where
  code : Nat
  flushed : Bool
  nanZero : Bool
  deriving DecidableEq, Repr

/-- The mode rounds the magnitude of a result of this sign downward (R73). -/
def roundsDown (r : Rnd) (neg : Bool) : Bool :=
  match r with
  | .rtz => true
  | .rdn => !neg
  | .rup => neg
  | _ => false

/-- What a floating-point output does with a special value: `(largest finite, infinity, NaN)` by Table 2.8, where the
overflow of a finite result writes the second. -/
def fmtSpecial (f : Fmt) (ovm : Bool) : Nat × Nat × Nat :=
  match f with
  | .fp4 => (0x7, 0x7, 0x0)
  | .e3m2 => (0x1F, 0x1F, 0x00)
  | .e2m3 => (0x1F, 0x1F, 0x00)
  | .e4m3 => (0x7E, if ovm then 0x7F else 0x7E, 0x7F)
  | .e5m2 => (0x7B, if ovm then 0x7B else 0x7C, 0x7E)
  | .fp16 => (0x7BFF, if ovm then 0x7BFF else 0x7C00, 0x7E00)
  | .bf16 => (0x7F7F, if ovm then 0x7F7F else 0x7F80, 0x7FC0)
  | .fp32 => (0x7F7FFFFF, if ovm then 0x7F7FFFFF else 0x7F800000, 0x7FC00000)
  | .e8m0 => (0xFE, if ovm then 0xFF else 0xFE, 0xFF)
  | _ => (0, 0, 0)

/-- The overflow or infinity code with the sign of the result; a NaN code carries no sign (R72). -/
def signedCode (l : FLay) (neg : Bool) (nanCode c : Nat) : Nat :=
  if c == nanCode then c else if neg then c + 2 ^ (l.e + l.m) else c

/-- Convert a value to a floating-point output (R66, R67, R68, R72, R73). `plusZero` is set for a conversion from
XP96, whose zero results are +0 (R67). -/
def convFloat (f : Fmt) (l : FLay) (r : Rnd) (ovm plusZero : Bool) (v : Num) : Conv :=
  let sp := fmtSpecial f ovm
  let zeroCode (s : Bool) : Nat := if s && !plusZero then 2 ^ (l.e + l.m) else 0
  match v with
  | .nan => ⟨sp.2.2, false, sp.2.2 == 0⟩
  | .inf s => ⟨signedCode l s sp.2.2 sp.2.1, false, false⟩
  | .fin s mag e =>
    if mag == 0 then ⟨zeroCode s, false, false⟩
    else
      let top : Int := Nat.log2 mag + e
      let emin : Int := 1 - l.bias
      let isF32 := f == .fp32
      let q : Int := (if isF32 then top else max top emin) - l.m
      let n := roundAt r s mag e q
      if n == 0 then ⟨zeroCode s, false, false⟩
      else
        let ntop : Int := Nat.log2 n + q
        let maxN : Nat := sp.1
        if isF32 && decide (ntop < -126) then ⟨zeroCode s, true, false⟩
        else
          -- n is at most 2^(m+1): a carry moves to the next binade
          let code : Nat :=
            if ntop < emin then n
            else
              let mant := if Nat.log2 n > l.m then n >>> (Nat.log2 n - l.m) else n
              (ntop + l.bias).toNat * 2 ^ l.m + mant % 2 ^ l.m
          if code > maxN then
            let c := if roundsDown r s then sp.1 else sp.2.1
            ⟨signedCode l s sp.2.2 c, false, false⟩
          else ⟨if s then code + 2 ^ (l.e + l.m) else code, false, false⟩

/-- The range of an integer format (R43). -/
def intRange : Fmt → Int × Int
  | .int4 => (-8, 7)
  | .int8 => (-128, 127)
  | .uint8 => (0, 255)
  | .int32 => (-2147483648, 2147483647)
  | _ => (0, 0)

/-- Convert a value to an integer output (R74). -/
def convInt (f : Fmt) (r : Rnd) (ovf : Bool) (v : Num) : Conv :=
  let n := fmtBits f
  let rg := intRange f
  match v with
  | .nan => ⟨0, false, true⟩
  | .inf s => ⟨unsigned n (if s then rg.1 else rg.2), false, false⟩
  | .fin s mag e =>
    let k := roundAt r s mag e 0
    let z : Int := if s then -(k : Int) else k
    if ovf then ⟨unsigned n z, false, false⟩
    else ⟨unsigned n (max rg.1 (min rg.2 z)), false, false⟩

/-- Convert a value to E8M0 (R75). -/
def convE8M0 (r : Rnd) (ovm : Bool) (v : Num) : Conv :=
  match v with
  | .nan => ⟨0xFF, false, false⟩
  | .inf true => ⟨0xFF, false, false⟩
  | .inf false => ⟨if ovm then 0xFF else 0xFE, false, false⟩
  | .fin s mag e =>
    if mag == 0 then ⟨0, false, false⟩
    else if s then ⟨0xFF, false, false⟩
    else
      let k : Int := Nat.log2 mag + e
      let l2 := Nat.log2 mag
      let rem := mag - 2 ^ l2
      let up : Bool :=
        if rem == 0 then false
        else match r with
          | .rne => decide (2 * rem > 2 ^ l2) || (2 * rem == 2 ^ l2 && decide ((k + 127) % 2 ≠ 0))
          | .rtz => false
          | .rdn => false
          | .rup => true
          | .sr r24 => decide ((rem * 2 ^ 24) / 2 ^ l2 + r24 ≥ 2 ^ 24)
      let kk := if up then k + 1 else k
      if kk > 127 then ⟨if roundsDown r false then 0xFE else if ovm then 0xFF else 0xFE, false, false⟩
      else if kk < -127 then ⟨0, false, false⟩
      else ⟨(kk + 127).toNat, false, false⟩

/-- An FP32 encoding rounded to nearest even with the flushing of R46. -/
def toF32 (v : Num) : Conv := convFloat .fp32 ⟨8, 23, 127, 2⟩ .rne false false v

/-- The FP32 encoding of an exact value under RNE. -/
def f32 (v : Num) : Nat := (toF32 v).code

/-- The value of an FP32 encoding, flushed (R46). -/
def ofF32 (w : Nat) : Num := decodeFmt .fp32 w

/-- A PAIR from an exact value: hi = RNE(v), lo = RNE(v - hi); a hi that is not finite has lo = +0 (R64, PCVT). -/
def toPair (v : Num) : Nat :=
  let hi := f32 v
  match ofF32 hi with
  | .fin s m e => hi + 2 ^ 32 * f32 (numSub v (.fin s m e))
  | _ => hi

/-- The output conversion to PAIR: hi = RNE(v), lo = RNE(v - hi), as PCVT forms it (R64, R65). Table 2.8 has no row for PAIR and no rule
says how `RND` or `OVM` would act on the two halves, so both are left out of account (assumption 101). `plusZero` is set for a conversion from XP96,
whose zero results are +0 (R67). -/
def convPair (plusZero : Bool) (v : Num) : Conv :=
  let hi := toF32 v
  ⟨if bits hi.code 0 31 == 0 then (if plusZero then 0 else hi.code) else toPair v, hi.flushed, false⟩

/-- Convert an exact value to any output format but XP96 (R66, R68, R72-R75). -/
def conv (f : Fmt) (r : Rnd) (ovm ovf plusZero : Bool) (v : Num) : Conv :=
  match f with
  | .int4 | .int8 | .uint8 | .int32 => convInt f r ovf v
  | .e8m0 => convE8M0 r ovm v
  | .pair => convPair plusZero v
  | g => match fmtLay g with
    | some l => convFloat g l r ovm plusZero v
    | Option.none => ⟨0, false, false⟩

/-- An FP32 code as the module writes it when it passes it on: a NaN canonical (R42), a subnormal flushed (R46). -/
def canon32 (w : Nat) : Conv :=
  match decodeLay ⟨8, 23, 127, 2⟩ w with
  | .nan => ⟨0x7FC00000, false, false⟩
  | .fin s m e => if m ≠ 0 ∧ (Nat.log2 m : Int) + e < -126 then ⟨if s then 2 ^ 31 else 0, true, false⟩ else ⟨w, false, false⟩
  | .inf _ => ⟨w, false, false⟩

/-- A code that passes on without a conversion: the canonical NaN for a NaN (R42), and FP32 and both halves of a PAIR flushed (R46). -/
def canonCode (f : Fmt) (w : Nat) : Conv :=
  match f with
  | .fp32 => canon32 w
  | .pair =>
    let hi := canon32 (bits w 0 32)
    match decodeLay ⟨8, 23, 127, 2⟩ (bits w 0 32) with
    | .fin .. => ⟨hi.code + 2 ^ 32 * (canon32 (bits w 32 32)).code, hi.flushed, false⟩
    | _ => ⟨hi.code, false, false⟩
  | g => match fmtLay g with
    | some l => match decodeLay l w with
      | .nan => ⟨(fmtSpecial g false).2.2, false, false⟩
      | _ => ⟨w, false, false⟩
    | Option.none => ⟨w, false, false⟩

/-! ### FP32 and PAIR arithmetic (R46, R64, R65) -/

/-- FP32 addition under RNE. -/
def f32Add (a b : Nat) : Nat := f32 (numAdd (ofF32 a) (ofF32 b))
/-- FP32 subtraction under RNE. -/
def f32Sub (a b : Nat) : Nat := f32 (numSub (ofF32 a) (ofF32 b))
/-- FP32 multiplication under RNE. -/
def f32Mul (a b : Nat) : Nat := f32 (numMul (ofF32 a) (ofF32 b))
/-- FP32 fused multiply-add under RNE: one rounding of a × b + c. -/
def f32Fma (a b c : Nat) : Nat := f32 (numAdd (numMul (ofF32 a) (ofF32 b)) (ofF32 c))

/-- TwoSum: the sum and its exact error (Table 2.6). -/
def twoSum (a b : Nat) : Nat × Nat :=
  let v := numAdd (ofF32 a) (ofF32 b)
  let s := f32 v
  (s, f32 (numSub v (ofF32 s)))

/-- TwoProduct: the product and its exact error (Table 2.6). -/
def twoProd (a b : Nat) : Nat × Nat :=
  let v := numMul (ofF32 a) (ofF32 b)
  let p := f32 v
  (p, f32 (numSub v (ofF32 p)))

/-- A quotient with enough bits, and a sticky last bit, that any rounding to 24 bits or fewer is that of the exact
quotient. -/
def numDiv : Num → Num → Num
  | .nan, _ => .nan
  | _, .nan => .nan
  | .inf _, .inf _ => .nan
  | .inf a, .fin b _ _ => .inf (a != b)
  | .fin a _ _, .inf b => .fin (a != b) 0 0
  | .fin a m e, .fin b n f =>
    if n == 0 then (if m == 0 then .nan else .inf (a != b))
    else
      let k := 64 + Nat.log2 n
      let x := m <<< k
      let q := x / n
      let st := if x % n == 0 then 0 else 1
      .fin (a != b) (2 * q + st) (e - f - k - 1)

/-- The integer square root by digits, `k` digits from the top. -/
def isqrtGo : Nat → Nat → Nat → Nat
  | 0, _, r => r
  | k + 1, n, r => let t := r + 2 ^ k; if t * t ≤ n then isqrtGo k n t else isqrtGo k n r

/-- The integer square root. -/
def isqrt (n : Nat) : Nat := isqrtGo (Nat.log2 n / 2 + 1) n 0

/-- A square root with enough bits and a sticky last bit. -/
def numSqrt : Num → Num
  | .nan => .nan
  | .inf s => if s then .nan else .inf false
  | .fin s m e =>
    if m == 0 then .fin s 0 0
    else if s then .nan
    else
      let m1 := if e % 2 = 0 then m else 2 * m
      let e1 := if e % 2 = 0 then e else e - 1
      let x := m1 <<< 80
      let r := isqrt x
      let st := if r * r == x then 0 else 1
      .fin false (2 * r + st) ((e1 - 80) / 2 - 1)

/-! ### Exact operations (R48, R53 to R60) -/

/-- Fractional bits f of a format in an exact operation (Table 2.3); an INT8 element under Microscaling has 6. -/
def fracBits (f : Fmt) (scl : Nat) : Nat :=
  match f with
  | .fp4 => 1 | .e3m2 => 4 | .e2m3 => 3 | .e4m3 => 9 | .e5m2 => 16
  | .int8 => if scl == 1 then 6 else 0
  | _ => 0

/-- Magnitude width b of a format (Table 2.3). -/
def magBits : Fmt → Nat
  | .fp4 => 4 | .e3m2 => 9 | .e2m3 => 6 | .e4m3 => 18 | .e5m2 => 32 | .int4 => 4 | .int8 => 8 | .uint8 => 8
  | _ => 0

/-- The binary point of an operation (R48, R56): an operation with both operands unscaled ignores SBASE. -/
def opPoint (fa fw : Fmt) (scla sclw : Nat) (sbase : Int) : Int :=
  (fracBits fa scla + fracBits fw sclw : Nat) - (if scla == 0 && sclw == 0 then 0 else sbase)

/-- The upper end of the scale window (R56). -/
def opDmax (fa fw : Fmt) (scla sclw : Nat) : Int :=
  75 - magBits fa - magBits fw - 4 * (ofBit (scla == 3) + ofBit (sclw == 3) : Nat)

/-- A block scale: NaN, or sign, integer n and exponent k (R55). -/
inductive Scale
  | nan
  | fin (neg : Bool) (n : Nat) (k : Int)
  deriving DecidableEq, Repr

/-- The scale that a byte of the scale stream names under mode `scl` (R55, Table 2.5). -/
def scaleOf (scl w : Nat) : Scale :=
  match scl % 4 with
  | 0 => .fin false 1 0
  | 3 =>
    let e := bits w 3 4
    let m := bits w 0 3
    if e == 15 && m == 7 then .nan
    else if e == 0 then .fin (bit w 7) m (-9) else .fin (bit w 7) (8 + m) ((e : Int) - 10)
  | _ => if bits w 0 8 == 255 then .nan else .fin false 1 ((bits w 0 8 : Int) - 127)

/-- The special state that a product of a block gives, and the block's finite integer sum in units of
`2^(-(fX+fY))` (R53, R56). `none` for the state means finite. -/
structure Dot where
  p : Int
  spc : Spc
  deriving DecidableEq, Repr

/-- The special state of a value. -/
def spcOfNum : Num → Spc
  | .nan => .nan
  | .inf false => .pinf
  | .inf true => .ninf
  | .fin .. => .finite

/-- An integer multiple of `2^(-u)` as its count. -/
def numUnits (u : Nat) : Num → Int
  | .fin s m e => let x : Int := (m <<< (e + u).toNat : Nat); if s then -x else x
  | _ => 0

/-- An element of an exact operation as a value; INT8 under Microscaling counts in units of 2^-6. -/
def exactElem (f : Fmt) (scl w : Nat) : Num :=
  match f, scl with
  | .int8, 1 => match decodeFmt .int8 w with
    | .fin s m e => .fin s m (e - 6)
    | x => x
  | g, _ => decodeFmt g w

/-- The dot product of one block from the products of its elements (R56). The states are kept apart so that the
block's scales can act on them. -/
def blockDot (u : Nat) (ps : List Num) : Dot × List Spc :=
  (⟨(ps.map (numUnits u)).sum, .finite⟩, (ps.map spcOfNum).filter (· ≠ .finite))

/-- The state of a special product once the block's scales act on it as one more factor (R56). -/
def scaleSpc (sa sw : Scale) (st : Spc) : Spc :=
  match sa, sw with
  | .fin na a _, .fin nw w _ =>
    if st == .nan then .nan
    else if a == 0 || w == 0 then .nan
    else if na != nw then (if st == .pinf then .ninf else .pinf) else st
  | _, _ => .nan

/-- What one block adds to an output (R56-R59): the value added, and whether it lay below (with SCLOW) or above the
window, with its d. -/
structure BlockIn where
  add : Xp
  below : Bool
  above : Bool
  d : Int
  deriving DecidableEq, Repr

/-- The contribution of one block to an XP96 output of binary point `f` (R56-R59, R648). -/
def blockAdd (f dmax sbase : Int) (sclow : Bool) (sa sw : Scale) (dot : Int) (specials : List Spc) : BlockIn :=
  match sa, sw with
  | .fin na a ka, .fin nw w kw =>
    let st := specials.foldl (fun acc t => spcAdd acc (scaleSpc sa sw t)) Spc.finite
    let d := ka + kw - sbase
    let z := Xp.zero f
    if a == 0 || w == 0 then ⟨⟨0, f, st, false, false⟩, false, false, d⟩
    else
      let c0 : Int := dot * (a * w : Nat)
      let c : Int := if na != nw then -c0 else c0
      if d > dmax then ⟨⟨z.a, f, st, false, true⟩, false, true, d⟩
      else if d < 0 then
        if sclow then ⟨⟨z.a, f, st, false, true⟩, true, false, d⟩
        else
          let dn := (-d).toNat
          let r := roundMag .rne (c < 0) c.natAbs dn
          let v : Int := if c < 0 then -(r : Int) else r
          ⟨⟨BitVec.ofInt 96 v, f, st, c.natAbs % 2 ^ dn != 0, false⟩, false, false, d⟩
      else ⟨⟨BitVec.ofInt 96 (c * 2 ^ d.toNat), f, st, false, false⟩, false, false, d⟩
  | _, _ => ⟨⟨0, f, .nan, false, false⟩, false, false, 0⟩

/-! ### Exponent histogram (R76, Table 2.10) -/

/-- The bin of a nonzero finite element by its exponent. -/
def expBin (hbase e : Int) : Nat :=
  if e ≤ hbase then 0 else if e ≥ hbase + 31 then 31 else (e - hbase).toNat

/-- The bin that an element written in an output format counts in (R76). -/
def histBin (f : Fmt) (hbase : Int) (c : Conv) : Nat :=
  if c.nanZero then 35
  else if c.flushed then 33
  else
    let w := if f == .pair then bits c.code 0 32 else c.code
    let g := if f == .pair then Fmt.fp32 else f
    match (match fmtLay g with
      | some l => decodeLay l w
      | Option.none => decodeFmt g w) with
    | .nan => 35
    | .inf _ => 34
    | .fin _ m e =>
      if m == 0 then 32
      else
        let top : Int := Nat.log2 m + e
        match fmtLay g with
        | some l => if top < 1 - l.bias then 33 else expBin hbase top
        | Option.none => expBin hbase top

/-- The bin of an element written as XP96 (R76). -/
def histXp (hbase : Int) (x : Xp) : Nat :=
  match x.spc with
  | .nan => 35
  | .pinf => 34
  | .ninf => 34
  | .finite =>
    if x.a.toInt == 0 then 32 else expBin hbase (Nat.log2 x.a.toInt.natAbs - x.f)

end Sys2Proof.Machine
end

