-- ==== Sys2Proof/Machine/CuFun.lean ====
section
/-!
DEFINITION. The functions of the vector stages (Table 3.9, R101). The manual bounds the error of each and gives neither table nor
coefficients, so the bits of a result are a free choice within its bound (assumption 23). The value that the bound is measured from is computed
here in fixed point with 640 fractional bits, so far beyond FP32 that its own error moves no bound by 2^-300 of itself.
-/
namespace Sys2Proof.Machine
open Sys2Proof

/-! ### Reals in fixed point -/

/-- Fractional bits. -/
def fxBits : Nat := 640
/-- One. -/
def fxOne : Int := 2 ^ fxBits
/-- The product of two fixed-point numbers. -/
def fxMul (a b : Int) : Int := a * b / fxOne
/-- The quotient of two fixed-point numbers. -/
def fxDiv (a b : Int) : Int := a * fxOne / b
/-- A finite value in fixed point. -/
def fxOf : Num → Int
  | .fin s m e =>
    let x : Int := if e + fxBits ≥ 0 then (m <<< (e + fxBits).toNat : Nat) else (m >>> (-(e + fxBits)).toNat : Nat)
    if s then -x else x
  | _ => 0
/-- A fixed-point number as a value. -/
def fxNum (x : Int) : Num := .fin (x < 0) x.natAbs (-(fxBits : Int))

/-- A power series: `term` makes the next term from the last and its number. -/
def fxSeries (term : Nat → Int → Int) : Nat → Nat → Int → Int → Int
  | 0, _, _, acc => acc
  | n + 1, k, t, acc => let u := term k t; fxSeries term n (k + 1) u (acc + u)

/-- atanh z for |z| at most 1/3: the sum of z^(2k+1) / (2k+1). -/
def fxAtanh (z : Int) : Int :=
  let q := fxMul z z
  ((List.range 260).foldl (fun (a : Int × Int) k => (fxMul a.1 q, a.2 + a.1 / (2 * k + 1 : Nat))) (z, 0)).2

/-- ln 2. -/
def fxLn2 : Int := 2 * fxAtanh (fxOne / 3)

/-- e^x for |x| at most 200: 2^n times the series of the rest. -/
def fxExp (x : Int) : Int :=
  let n := x / fxLn2
  let r := x - n * fxLn2
  let s := fxSeries (fun k t => fxMul t r / (k : Int)) 140 1 fxOne fxOne
  if n ≥ 0 then s * 2 ^ n.toNat else s / 2 ^ (-n).toNat

/-- ln of a positive value `m * 2^e`. -/
def fxLn (m : Nat) (e : Int) : Int :=
  let k := Nat.log2 m
  let y : Int := (m <<< fxBits : Nat) / (2 ^ k : Nat)
  2 * fxAtanh (fxDiv (y - fxOne) (y + fxOne)) + (k + e) * fxLn2

/-- ln (1 + y) for 0 ≤ y ≤ 1. -/
def fxLn1p (y : Int) : Int := 2 * fxAtanh (fxDiv y (2 * fxOne + y))

/-- arctan (1 / n). -/
def fxAtanInv (n : Nat) : Int :=
  ((List.range 300).foldl (fun (a : Int × Int) k =>
    (a.1 / ((n * n : Nat) : Int), a.2 + (if k % 2 == 0 then a.1 else -a.1) / (2 * k + 1 : Nat))) (fxOne / (n : Int), 0)).2

/-- π, by Machin's formula. -/
def fxPi : Int := 4 * (4 * fxAtanInv 5 - fxAtanInv 239)

/-- The square root of a nonnegative number. -/
def fxSqrt (x : Int) : Int := isqrt ((x * fxOne).toNat)

/-- The normal distribution function at x, for |x| at most 16: 1/2 + erf (x / √2) / 2. -/
def fxPhi (x : Int) : Int :=
  let z := fxDiv x (fxSqrt (2 * fxOne))
  let q := fxMul z z
  -- the sum of (-1)^n z^(2n+1) / (n! (2n+1))
  let s := ((List.range 900).foldl (fun (a : Int × Int) n =>
    (-(fxMul a.1 q) / ((n + 1 : Nat) : Int), a.2 + a.1 / ((2 * n + 1 : Nat) : Int))) (z, 0)).2
  fxOne / 2 + fxDiv s (fxSqrt fxPi)

/-! ### The functions -/

/-- The value of function `op` at a finite x (Table 3.9); `imm` is `IMM` of `VELU`. Beyond |x| = 200, and for `VGELU` beyond 16, the value is
that of the limit, from which it differs by less than any bound of the table. -/
def funVal (op : Nat) (x imm : Num) : Num :=
  let f := fxOf x
  let big := decide (f.natAbs > 200 * fxOne.natAbs)
  let neg := numNeg x
  let one : Num := .fin false 1 0
  match op, x with
  | 0x20, _ => if big then (if neg then Num.zero else .inf false) else fxNum (fxExp f)
  | 0x21, .fin _ m e => fxNum (fxLn m e)
  | 0x22, _ => if big then (if neg then Num.zero else one) else fxNum (fxDiv fxOne (fxOne + fxExp (-f)))
  | 0x23, _ =>
    if big then (if neg then numFlip one else one)
    else let t := fxExp f; let q := fxMul t t; fxNum (fxDiv (q - fxOne) (q + fxOne))
  | 0x24, _ => if f.natAbs > 16 * fxOne.natAbs then (if neg then .fin true 0 0 else x) else fxNum (fxMul f (fxPhi f))
  | 0x25, _ => if big then (if neg then .fin true 0 0 else x) else fxNum (fxDiv f (fxOne + fxExp (-f)))
  | 0x26, _ =>
    if big then (if neg then Num.zero else x)
    else if neg then fxNum (fxLn1p (fxExp f)) else fxNum (f + fxLn1p (fxExp (-f)))
  | 0x27, _ => numDiv one x
  | 0x28, _ => numDiv one (numSqrt x)
  | _, _ => if big then numFlip imm else numMul imm (fxNum (fxExp f - fxOne))

/-- The largest error of a function in units of the last place (Table 3.9). -/
def funUlp (op : Nat) : Nat :=
  if op == 0x27 || op == 0x28 then 1 else if op == 0x20 || op == 0x21 || op == 0x22 || op == 0x23 then 2 else 4

/-- The finite values of a zero result, which no bound covers: those of `Config.vecFun`, written canonically (R42, R46). -/
def funChoose (ulp : Nat) (v : Num) (free : Nat) : Conv :=
  let w := canon32 (free % 2 ^ 32)
  match v with
  | .fin _ m e =>
    if m == 0 then w
    else
      let top : Int := (Nat.log2 m : Int) + e
      let r := toF32 v
      if top < -126 || r.flushed then r
      else match ofF32 w.code, numCmp (numAbs (numSub (ofF32 w.code) v)) (.fin false ulp (top - 23)) with
        | .fin .., some .gt => r
        | .fin .., some _ => w
        | _, _ => r
  | _ => toF32 v

/-- The result of a function operation (Table 3.9) with the special inputs of R101; `code` is the input's FP32 encoding. An input that R101
does not list and for which the function has no finite value gives a free value. -/
def vecFunc (op : Nat) (x : Num) (code imm : Nat) : Conv :=
  let ok (w : Nat) : Conv := ⟨w, false, false⟩
  let nan := ok 0x7FC00000
  let pinf := ok 0x7F800000
  let free := Config.vecFun op code imm
  let val := funChoose (funUlp op) (funVal op x (ofF32 imm)) free
  match op, x with
  | _, .nan => nan
  | 0x20, .inf s => if s then ok 0 else pinf
  | 0x20, .fin .. =>
    let v := funVal op x Num.zero
    match v, numCmp v (ofF32 0x7F7FFFFF), numCmp v (ofF32 0x00800000) with
    | .inf _, _, _ => pinf
    | _, some .gt, _ => pinf
    | _, _, some .lt => ⟨0, true, false⟩
    | _, _, _ => val
  | 0x21, .inf s => if s then nan else canon32 (free % 2 ^ 32)
  | 0x21, .fin s m _ => if m == 0 then ok 0xFF800000 else if s then nan else val
  | 0x22, .inf s => if s then ok 0 else ok 0x3F800000
  | 0x23, .inf s => if s then ok 0xBF800000 else ok 0x3F800000
  | 0x24, .inf s => if s then ok 0 else pinf
  | 0x25, .inf s => if s then ok 0 else pinf
  | 0x26, .inf s => if s then ok 0 else pinf
  | 0x29, .inf s => if s then ok 0 else pinf
  | 0x29, .fin s m _ => if !s || m == 0 then toF32 x else val
  | 0x27, .fin s m _ => if m == 0 then ok (if s then 0xFF800000 else 0x7F800000) else val
  | 0x28, .inf s => if s then nan else canon32 (free % 2 ^ 32)
  | 0x28, .fin s m _ => if m == 0 then pinf else if s then nan else val
  | 0x27, .inf _ => canon32 (free % 2 ^ 32)
  | _, _ => val

end Sys2Proof.Machine
end

