-- ==== Sys2Proof/Machine/Codes.lean ====
section
/-!
DEFINITION. The shared codes of section 0.5 and the address arithmetic of section 0.3: outcomes (Table 0.9), unit
types (Table 0.11), die IDs (Table 0.6), tiles, fields and queue addresses (R3 to R12), CRCs used across chapters.
-/
namespace Sys2Proof.Machine
open Sys2Proof

/-- The outcomes of Table 0.9 (R17). -/
inductive Outc
  | done | doneDeferred | partly | refusedFull | refusedQuota | refusedFenced | refusedEpoch | aborted | poisoned
  | timeout | approx | fault
  deriving DecidableEq, Repr

/-- The 4-bit code of an outcome (Table 0.9). -/
def outcCode : Outc → Nat
  | .done => 0 | .doneDeferred => 1 | .partly => 2 | .refusedFull => 3 | .refusedQuota => 4 | .refusedFenced => 5
  | .refusedEpoch => 6 | .aborted => 7 | .poisoned => 8 | .timeout => 9 | .approx => 10 | .fault => 11

/-- The outcome of a code; a reserved code is read as FAULT (R17). -/
def outcOf (c : Nat) : Outc :=
  match c with
  | 0 => .done | 1 => .doneDeferred | 2 => .partly | 3 => .refusedFull | 4 => .refusedQuota | 5 => .refusedFenced
  | 6 => .refusedEpoch | 7 => .aborted | 8 => .poisoned | 9 => .timeout | 10 => .approx | _ => .fault

/-- Unit-type codes (Table 0.11). -/
def utCu : Nat := 0
def utMu : Nat := 1
def utWick : Nat := 2
def utRouter : Nat := 3
def utTile : Nat := 4
def utField : Nat := 5
def utMsd : Nat := 6
def utPd : Nat := 7
def utCd : Nat := 8
def utHbm : Nat := 9
def utBrobry : Nat := 10

/-- Die IDs (Table 0.6). -/
def dieWafer : Nat := 0
def dieCd : Nat := 1
def diePd (n : Nat) : Nat := 2 + n
def dieMsd (n : Nat) : Nat := 8 + n
def dieIsPd (d : Nat) : Bool := 2 ≤ d && d ≤ 7
def dieIsMsd (d : Nat) : Bool := 8 ≤ d && d ≤ 31

/-- Attach ports of a die (R290). -/
def diePorts (d : Nat) : Nat := if dieIsMsd d then 8 else if dieIsPd d then 4 else if d == 1 then 2 else 0

/-- Coordinates of a logical tile (R4). -/
def tileX (t : Nat) : Nat := t % 100
def tileY (t : Nat) : Nat := t / 100
/-- The tile at a position (R4). -/
def tileAt (x y : Nat) : Nat := y * 100 + x
/-- The field of a logical tile (R3, R5). -/
def fieldOf (t : Nat) : Nat := (tileY t / 11) * 10 + tileX t / 10
/-- Field-local row of a tile (R5). -/
def frowOf (t : Nat) : Nat := tileY t % 11
/-- Field-local logical column of a tile (R5). -/
def fcolOf (t : Nat) : Nat := tileX t % 10
/-- Number of logical tiles (R4). -/
def nTiles : Nat := 11000

/-- The parts of a queue address (Table 0.4, R7). -/
def qaTile (a : Nat) : Nat := bits a 9 14
def qaUnit (a : Nat) : Nat := bits a 3 6
def qaQueue (a : Nat) : Nat := bits a 0 3
/-- Build a queue address (Table 0.4). -/
def qaMake (t u q : Nat) : Nat := t * 512 + u * 8 + q

/-- A queue address in tile form that names a tile and an owner (R7, R8, R298). -/
def qaTileForm (a : Nat) : Bool := decide (qaTile a < nTiles) && decide (qaUnit a < 54)
/-- Group form (R298). -/
def qaGroupForm (a : Nat) : Bool := bits a 20 3 == 7 && bits a 12 8 == 0
/-- Edge form (R298). -/
def qaEdgeForm (a : Nat) : Bool := bits a 20 3 == 6
/-- Die of an edge-form address (R298). -/
def edgeDie (a : Nat) : Nat := bits a 15 5
/-- Attach port of an edge-form address (R298). -/
def edgePort (a : Nat) : Nat := bits a 12 3
/-- Sub-address of an edge-form address (R298). -/
def edgeSub (a : Nat) : Nat := bits a 0 12
/-- Build an edge-form address (R298). -/
def edgeMake (die port sub : Nat) : Nat := 6 * 2 ^ 20 + die * 2 ^ 15 + port * 2 ^ 12 + sub

/-- One bit of a reflected CRC. -/
def crcReflBit (poly c : Nat) : Nat := if c % 2 == 1 then (c / 2) ^^^ poly else c / 2
/-- Eight bits of a reflected CRC. -/
def crcRefl8 (poly c : Nat) : Nat := (List.range 8).foldl (fun acc _ => crcReflBit poly acc) c
/-- CRC-32C continued over bytes, with no initial or final inversion (R190). -/
def crc32cCont (c : Nat) (bs : List Byte) : Nat :=
  bs.foldl (fun acc b => crcRefl8 0x82F63B78 (acc ^^^ b.toNat)) c
/-- CRC-32C started from all ones and inverted at the end. -/
def crc32c (bs : List Byte) : Nat := crc32cCont 0xFFFFFFFF bs ^^^ 0xFFFFFFFF
/-- The Ethernet FCS (reflected CRC-32, IEEE 802.3). -/
def crc32eth (bs : List Byte) : Nat :=
  (bs.foldl (fun acc b => crcRefl8 0xEDB88320 (acc ^^^ b.toNat)) 0xFFFFFFFF) ^^^ 0xFFFFFFFF

/-- One bit of an unreflected CRC of width n. -/
def crcBit (n poly c : Nat) : Nat :=
  if bit c (n - 1) then ((c * 2) % 2 ^ n) ^^^ poly else (c * 2) % 2 ^ n
/-- A byte of an unreflected CRC of width n, at least 8. -/
def crcByte (n poly c b : Nat) : Nat :=
  (List.range 8).foldl (fun acc _ => crcBit n poly acc) (c ^^^ (b * 2 ^ (n - 8)))
/-- An unreflected CRC of width n over bytes, from `init`. -/
def crcMsb (n poly init : Nat) (bs : List Byte) : Nat :=
  bs.foldl (fun acc b => crcByte n poly acc b.toNat) init

/-- The HMIX mix of two words (R191). -/
def hmix (a b : W32) : W32 :=
  let h := a ^^^ b.rotateLeft 16
  let h := h ^^^ (h >>> 16)
  let h := h * 0x7FEB352D#32
  let h := h ^^^ (h >>> 15)
  let h := h * 0x846CA68B#32
  h ^^^ (h >>> 16)

/-- HFOLD: the high half of the product (R191). -/
def hfold (a b : W32) : W32 := BitVec.ofNat 32 ((a.toNat * b.toNat) >>> 32)

end Sys2Proof.Machine
end

