-- ==== Sys2Proof/Machine/WickTypes.lean ====
section
/-!
DEFINITION. Plain data of the Wick cores (R179, Table 6.1) and of the packets of the mesh (Tables 7.2 to 7.8, 8.6,
8.7, 9.3, 9.4, 9.6).
-/
namespace Sys2Proof.Machine
open Sys2Proof

/-- A general register with its poison and APPROX bits (R201). -/
structure Reg where
  v : W32
  poi : Bool
  apx : Bool
  deriving DecidableEq, Repr

/-- A register that holds zero. -/
def Reg.zero : Reg := ⟨0, false, false⟩

/-- A 64-bit queue entry or message word with its markers (R216). -/
structure QEnt where
  w : W64
  poi : Bool
  apx : Bool
  deriving DecidableEq, Repr

/-- A ticket (R222, R223); `pid` is the number of the packet whose reply resolves it (assumption 118). -/
structure Ticket where
  taken : Bool
  pending : Bool
  outc : Outc
  dst : Nat
  deadline : Nat
  pid : Nat
  deriving DecidableEq, Repr

/-- A ticket that has never been taken reads DONE, not pending (R223). -/
def Ticket.fresh : Ticket := ⟨false, false, .done, 0, 0, 0⟩

/-- A remote tag (R193-R196): free, waiting for the reply to request `pid`, or past its deadline with that reply still out. -/
inductive RTag
  | free
  | live (load : Bool) (rd deadline pid : Nat)
  | expired (pid : Nat)
  deriving DecidableEq, Repr

/-- A `SENDB` in progress (R225): issued in cycle `since`, its latest attempt is packet `pid`. -/
structure SendB where
  gd : Nat
  dst : Nat
  words : List QEnt
  deadline : Nat
  wait : Nat
  awaiting : Bool
  resume : Nat
  blockedOn : Option Nat
  probed : Bool
  since : Nat
  pid : Nat
  deriving DecidableEq, Repr

/-- A `RECV` in progress (R227), issued in cycle `since`. -/
structure RecvW where
  gd : Nat
  mask : Nat
  rot : Bool
  apx : Bool
  deadline : Nat
  since : Nat
  deriving DecidableEq, Repr

/-- An own-tile MU load that has been issued and whose data is on its way (R192). -/
structure OwnLoad where
  rd : Nat
  v : Reg
  deriving DecidableEq, Repr

/-- What a Wick context is doing: none installed, running, halted, or stopped by an exception or by its region. -/
inductive WRun
  | none | running | halted | stopped
  deriving DecidableEq, Repr

/-- One Wick core (Table 6.1, Table 6.2, Table 6.10, Table 6.11). `mem` is the local memory, zero where unlisted;
`memPoi` lists the 32-bit words that hold stored poison, `memErr` the words with a latent error (1 correctable, 2 not).
`tcnt0` is the tile cycle at which `TCNT` would be 0. `halted` lists the contexts that have come to `HALT` (R207); `dwell` is the cycle in
which the running context took the core (R268); `relAt` the tick of REFCLK_MOD of the last release of an entry and `fullAt` that at which a
queue last became full (R284). -/
structure Wick where
  regs : SMap Reg
  pc : BitVec 14
  run : WRun
  fold : Nat
  queues : SMap (List QEnt)
  tickets : SMap Ticket
  lastTk : Nat
  tags : SMap RTag
  tcnt0 : Nat
  tdl : BitVec 48
  tpast : Bool
  ecause : Nat
  epc : Nat
  eval : W32
  rlerrN : Nat
  rlerrO : Nat
  tie : Nat
  instret : W32
  scr : SMap W32
  rot : Nat
  core : W64
  ctx : SMap W64
  mem : SMap Byte
  memPoi : SMap Bool
  memErr : SMap Nat
  scrub : Nat
  qacc : SMap Nat
  qref : SMap Nat
  qdisc : SMap Nat
  sendb : Option SendB
  recv : Option RecvW
  own : List OwnLoad
  stall : SMap Nat
  foldReq : Option Nat
  halted : SMap Bool
  dwell : Nat
  relAt : Nat
  fullAt : SMap Nat
  deriving DecidableEq, Repr

/-- A Wick core after a module reset: zero everywhere, `TPAST` set (R649), the rotation pointer at 7 (R227). -/
def Wick.reset : Wick where
  regs := []
  pc := 0
  run := .none
  fold := 0
  queues := []
  tickets := []
  lastTk := 7
  tags := []
  tcnt0 := 0
  tdl := 0
  tpast := true
  ecause := 0
  epc := 0
  eval := 0
  rlerrN := 0
  rlerrO := 0
  tie := 0
  instret := 0
  scr := []
  rot := 7
  core := 0
  ctx := []
  mem := []
  memPoi := []
  memErr := []
  scrub := 0
  qacc := []
  qref := []
  qdisc := []
  sendb := none
  recv := none
  own := []
  stall := []
  foldReq := none
  halted := []
  dwell := 0
  relAt := 0
  fullAt := []

/-- A data or control token (Table 8.7). `val` is the payload of a data token or `CVAL` of a control token; `ctl` is
`CKIND` of a control token. -/
structure Token where
  seq : Nat
  epoch : Nat
  fold : Nat
  poi : Bool
  apx : Bool
  tag : Nat
  sidx : Nat
  len : Nat
  fmt : Nat
  ctl : Option Nat
  val : Nat
  deriving DecidableEq, Repr

/-- What a packet carries, by its kind (Table 9.3). A reply also says which kind of packet it answers and its ticket,
stream entry or index (assumption 16). -/
inductive Body
  | msg (blocking : Bool) (words : List QEnt)
  | desc (d : QEnt)
  | reply (o : Outc) (kind ref : Nat)
  | probe (hops mina orig : Nat)
  | tokd (ostr : Nat) (toks : List Token)
  | tokc (ostr : Nat) (tok : Token)
  | cret (ostr n : Nat)
  | red (ostr ncm1 : Nat) (tok : Token)
  | racc (st : Bool) (tag ofs : Nat) (data : Reg)
  | rrsp (tag : Nat) (data : W32) (poi : Bool) (o : Outc)
  | rect (unit skind fold t0 t1 soff : Nat) (data : List Byte)
  | event (words : List QEnt)
  | mwr (addr : Nat) (req : Nat) (reply : Bool) (o : Outc) (data : List Byte) (poi : List Bool)
  | mrd (addr len req cls : Nat)
  | raw (kind : Nat) (data : List W64)
  deriving DecidableEq, Repr

/-- Where a packet is: in an input buffer of a router, at the delivery port of a tile, or beyond an attach port at
its satellite. Ports are 0 E, 1 W, 2 S, 3 N, 4 local, 5 attach. -/
inductive Loc
  | router (tile port : Nat)
  | deliver (tile : Nat)
  | die (die port : Nat)
  deriving DecidableEq, Repr

/-- A packet under way (R296: `vch`, `yph`, `dir` are the router state `RTE`). `ctl` says that it travels on the
control network. `id` is the number under which it was sent, `re` that of the packet that it answers (assumption 118); `arr` orders the packets
of a buffer, `cyc` is the tile cycle of its arrival there; `sent` lists the outputs on which a copy of a group packet has left (R305). -/
structure Packet where
  src : Nat
  dst : Nat
  fold : Nat
  epoch : Nat
  ctl : Bool
  body : Body
  vch : Bool
  yph : Bool
  dir : Bool
  fresh : Bool
  loc : Loc
  id : Nat
  re : Nat
  arr : Nat
  cyc : Nat
  sent : List Nat
  deriving DecidableEq, Repr

/-- `KIND` of a packet (Table 9.3); an ingress event travels as a TOKD packet (R401). -/
def bodyKind : Body → Nat
  | .msg false _ => 1 | .msg true _ => 2 | .desc _ => 3 | .reply .. => 4 | .probe .. => 5 | .tokd .. => 6
  | .tokc .. => 7 | .cret .. => 8 | .red .. => 9 | .racc .. => 10 | .rrsp .. => 11 | .rect .. => 12
  | .event _ => 6 | .mwr .. => 13 | .mrd .. => 14 | .raw k _ => k

/-- The packets under way, by number, the number of the next one, and the count of arrivals in buffers that orders them. -/
structure Net where
  packets : SMap Packet
  next : Nat
  seq : Nat
  deriving DecidableEq, Repr

/-- The default of the packet store, which no number of a packet under way holds. -/
def Packet.none : Packet := ⟨0, 0, 0, 0, true, .raw 0 [], false, false, false, false, .deliver 0, 0, 0, 0, 0, []⟩

end Sys2Proof.Machine
end

