-- ==== Sys2Proof/Machine/FabricTypes.lean ====
section
/-!
DEFINITION. Plain data of the regions (chapter 8), the routers and tile controllers (chapter 9), the Lamplighter root
(9.10) and the incident path (chapter 16).
-/
namespace Sys2Proof.Machine
open Sys2Proof

/-- The states of a region (Table 8.5). -/
inductive RSt
  | empty | loaded | running | quiescing | drained | stopped
  deriving DecidableEq, Repr

/-- An address in host memory of a port, or in the module (the space selectors of command operands). -/
structure MAddr where
  space : Nat
  addr : Nat
  deriving DecidableEq, Repr

/-- A section of a region image: header (Table 8.3) and payload. -/
structure Section where
  skind : Nat
  t0 : Nat
  t1 : Nat
  unit : Nat
  fold : Nat
  soff : Nat
  data : List Byte
  deriving DecidableEq, Repr

/-- A region image after the checks of R245: descriptor, identifier, seed and sections (Table 8.2). -/
structure Image where
  desc0 : W64
  desc1 : W64
  imgid : W32
  seed : W64
  sections : List Section
  deriving DecidableEq, Repr

/-- One region (R239, Table 8.1, Table 8.5). `loadFrom` is the address of the last image loaded. `drain` remembers the last evaluation of R274 and the counters it
saw. `wd` is the cycle at which the progress watchdog last acted; `wdN` and `wdSpilled` count its actions and the queues it spilled.
`waiting` says that the region has drained and waits for its transaction's wave. `frozenAt` holds the time at which a FREEZE wave stopped it, `stopDue` that a
fault has been raised in it since, which stops it once it is released (R325).
`heatHeld` says that the region is held for heat (R563), `heatAt` since when in ps, `heatRun` that it ran before, and `heatGated` that it has
drained or stopped and its clocks are gated. -/
structure Region where
  st : RSt
  desc0 : W64
  desc1 : W64
  seed : W64
  step : W32
  imgid : W32
  epoch : Nat
  gated : Bool
  nslots : Nat
  sections : List Section
  loadFrom : MAddr
  loadLen : Nat
  slotBase : Nat
  epdisc : Nat
  drain : Option (Nat × Nat × Nat)
  wd : Nat
  phasePref : Option Nat
  phaseLat : Bool
  heatHeld : Bool
  heatGated : Bool
  heatRun : Bool
  heatAt : Nat
  frozenAt : Option Nat
  stopDue : Bool
  waiting : Bool
  wdN : Nat
  wdSpilled : Nat
  deriving DecidableEq, Repr

/-- An empty region. -/
def Region.none : Region where
  st := .empty
  desc0 := 0
  desc1 := 0
  seed := 0
  step := 0
  imgid := 0
  epoch := 0
  gated := false
  nslots := 0
  sections := []
  loadFrom := ⟨0, 0⟩
  loadLen := 0
  slotBase := 0
  epdisc := 0
  drain := Option.none
  wd := 0
  phasePref := Option.none
  phaseLat := false
  heatHeld := false
  heatGated := false
  heatRun := false
  heatAt := 0
  frozenAt := Option.none
  stopDue := false
  waiting := false
  wdN := 0
  wdSpilled := 0

/-- An entry of a combining store (R309), with the cycle in which it was opened. -/
structure Comb where
  group : Nat
  pkt : Packet
  count : Nat
  opened : Nat
  deriving DecidableEq, Repr

/-- One output link of a router (R294, R295). `spares` counts the lane groups whose spare lane is in use; `seam` says
that the seam spare link took over. -/
structure Link where
  retries : Nat
  window : Nat
  flits : Nat
  training : Bool
  failed : Bool
  spares : SMap Bool
  seam : Bool
  deriving DecidableEq, Repr

/-- A link in order. -/
def Link.ok : Link := ⟨0, 0, 0, false, false, [], false⟩

/-- One tile's router, controller and snapshot registers (chapter 9; `TC_CLK` of chapter 18). Ports as in `Loc`; links
are keyed by port + 8 × network (0 data, 1 control), as are the counts of flits sent (`grants`) and of cycles waited (`stalls`);
`fwd` counts packets combined (0), passed through (1) and sent at `CWAIT` (2). `tieW` and `tieC` count ties at `CWAIT` and as a
control tile; `dstr` counts cycles stretched for droop, `droop` is the field's cycle at which the present droop began, `lag` the cycles that the
tile is behind its field for droops past (R547); `llOwn` says that the tile has missed waves since the one in `llWnum` and `llWtyp`; without it the tile's last
wave is the last of the module; `ctrAt` is the cycle at which a counter set was last cleared, `corrW` counts corrected errors
of Wick local memories; `mtOfs` is how far the module-time counter is off and `mtOwn` the slowing that is its own (R199); `idle` says that no
region image has covered the tile since it was unfenced (R481); `turn` is, by output, the input channel that it served last (R301); `err` holds latent errors of the router's memories
(R498; assumption 98): the header of the packet at the head of a channel at 2 × channel, its payload at 2 × channel + 1, and entry i of the combining store
at 64 + i. -/
structure Tile where
  fence : W32
  colmap : W32
  brk : W64
  hold : W32
  llWnum : Nat
  llWtyp : Nat
  llOwn : Bool
  llMiss : Nat
  llAlt : Nat
  groups : SMap W64
  store : List Comb
  links : SMap Link
  grants : SMap Nat
  stalls : SMap Nat
  fwd : SMap Nat
  mtOfs : Int
  mtOwn : Option (Nat × Nat)
  mtLast : Nat
  dstr : Nat
  droop : Option Nat
  lag : Nat
  down : Bool
  idle : Bool
  pcol : Nat
  unitInc : List Nat
  tieW : Nat
  tieC : Nat
  ctrAt : SMap Nat
  corrW : Nat
  turn : SMap Nat
  err : SMap Nat
  deriving DecidableEq, Repr

/-- A tile after a module reset. `pcol` is not held by position here: `RT_ID` computes the physical column from `SKIP`. -/
def Tile.reset : Tile where
  fence := 0x300#32
  colmap := 0xAAA#32
  brk := 0
  hold := 0
  llWnum := 0
  llWtyp := 0
  llOwn := false
  llMiss := 0
  llAlt := 0
  groups := []
  store := []
  links := []
  grants := []
  stalls := []
  fwd := []
  mtOfs := 0
  mtOwn := Option.none
  mtLast := 0
  dstr := 0
  droop := Option.none
  lag := 0
  down := false
  idle := false
  pcol := 0
  unitInc := []
  tieW := 0
  tieC := 0
  ctrAt := []
  corrW := 0
  turn := []
  err := []

/-- A wave of the Lamplighter (Table 9.9). -/
inductive WType
  | snapshot | commit | abort | freeze | timeMark
  deriving DecidableEq, Repr

/-- The code of a wave type (Table 9.9). -/
def wtypeCode : WType → Nat
  | .snapshot => 1 | .commit => 2 | .abort => 3 | .freeze => 4 | .timeMark => 5

/-- Who asked for a wave: a transaction (by its tag) or nobody, an engine's command, or the stop of a trace (R537). -/
inductive WOwner
  | none | cmd (id : Nat) | traceStop
  deriving DecidableEq, Repr

/-- A wave (Table 9.9), who asked for it, when it was sent in ps, and the tiles whose reports are missing. -/
structure Wave where
  wtype : WType
  wnum : Nat
  wtxn : Nat
  wrel : Bool
  warg : W64
  owner : WOwner
  at_ : Nat
  quiet : List Nat
  deriving DecidableEq, Repr

/-- A wave to ask for. -/
def Wave.ask (t : WType) (tag : Nat) (rel : Bool) (arg : W64) (o : WOwner) : Wave := ⟨t, 0, tag, rel, arg, o, 0, []⟩

/-- A wave that no copy has yet brought to a satellite (R602). -/
structure OwedWave where
  die : Nat
  wave : Wave
  deriving DecidableEq, Repr

/-- The Lamplighter root in the CD (R323): the next wave number, the waves that wait for a slot, the waves sent whose
effect has not yet been taken, those whose reports are missing, what satellites have still to take, number and type of
the last wave taken, when the last wave was sent in ps, and how often the Lamplighter has been calibrated (R328). -/
structure Lamp where
  wnum : Nat
  pending : List Wave
  sent : List Wave
  reporting : List Wave
  owed : List OwedWave
  lastWnum : Nat
  lastWtyp : Nat
  lastAt : Option Nat
  calib : Nat
  deriving DecidableEq, Repr

/-- An incident record (Table 16.2) before it is numbered. -/
structure Inc where
  cls : Nat
  sev : Nat
  coal : Bool
  opv : Bool
  utyp : Nat
  die : Nat
  tile : Nat
  uidx : Nat
  eng : Nat
  reg : Nat
  fold : Nat
  uop : Nat
  opc : Nat
  rgv : Bool
  cseq : Nat
  temp : Nat
  volt : Nat
  count : Nat
  detail : W64
  itime : Nat
  ilast : Nat
  loss : Nat
  deriving DecidableEq, Repr

/-- A coalescing window (R502): when it opened in ns, its key, the first occurrence counted and how many. -/
structure CoalWin where
  opened : Nat
  cls : Nat
  die : Nat
  utyp : Nat
  tile : Nat
  uidx : Nat
  first : Option Inc
  count : Nat
  last : Nat
  deriving DecidableEq, Repr

/-- Where the incident ring lies and how far it is written (R485, R503). -/
structure IncRing where
  placed : Bool
  at_ : MAddr
  size : Nat
  idx : Nat
  pass : Bool
  bad : Bool
  deriving DecidableEq, Repr

/-- The incident path: source stores (R501), coalescing windows (R502), the CD's store of 256 records and its ring
(R503, R504). -/
structure IncPath where
  sources : SMap (List Inc)
  losses : SMap Nat
  windows : List CoalWin
  store : List (Nat × Inc)
  rseq : Nat
  dropped : Nat
  ring : IncRing
  turn : Nat
  pendInc2 : Option Nat
  deriving DecidableEq, Repr

end Sys2Proof.Machine
end

