-- ==== Sys2Proof/Machine/UnitTypes.lean ====
section
/-!
DEFINITION. Plain data of the CUs (chapter 3), the MUs (chapter 5), the predictor (chapter 4) and what both unit types
share: queues, output streams, folds and spill rings (chapter 8).
-/
namespace Sys2Proof.Machine
open Sys2Proof

/-- A credit owed for a contribution: the producer's unit address and its output stream entry (R259). -/
structure Owed where
  src : Nat
  ostr : Nat
  deriving DecidableEq, Repr

/-- An entry of a sequenced queue: its sequence number, the contributions placed so far and how many sources they
stand for (R257, R258). -/
structure QSlot where
  seq : Nat
  parts : List Token
  cnt : Nat
  owed : List Owed
  deriving DecidableEq, Repr

/-- A CU or MU queue (R94, R152, R257): entries waiting for release, the released tokens its consumer has not yet
taken, the release pointers by fold, `QARR`, spill-through mode (R285), and the tick of REFCLK_MOD at which it last became full (R284). -/
structure DQ where
  slots : List QSlot
  ready : List Token
  ptrs : SMap Nat
  qarr : Nat
  spill : Bool
  stall : SMap Nat
  fullAt : Nat
  deriving DecidableEq, Repr

/-- An empty queue. -/
def DQ.empty : DQ := ⟨[], [], [], 0, false, [], 0⟩

/-- An output stream entry (Table 8.8) with its running state (R250, R253, R254, R261); `pid` is the number of the packet in flight of an
acknowledged stream. -/
structure Strm where
  w0 : W64
  w1 : W64
  seq : Nat
  cred : Nat
  inflight : Option Token
  resend : Bool
  ssent : Nat
  pid : Nat
  deriving DecidableEq, Repr

/-- An absent stream. -/
def Strm.none : Strm := ⟨0, 0, 0, 0, Option.none, false, 0, 0⟩

/-- A record in a ring (R236): its offset and length, or `ov` when it lies in the HBM overflow area (R168); whether it
is complete (R233); its header fields (Table 7.10) and payload. A spill record also keeps the queue, the token and the
credits it owes. -/
structure RingRec where
  ofs : Nat
  len : Nat
  ov : Bool
  done : Bool
  src : Nat
  typ : Nat
  poi : Bool
  apx : Bool
  data : List Byte
  tok : Option (Nat × Token × List Owed)
  deriving DecidableEq, Repr

/-- The running state of a ring (R235), its records in the order in which they entered, and the same offsets for its HBM overflow area
(R168). `outc` is the outcome with which the last record offered by a producer was taken or refused (R238). -/
structure RingRt where
  head : Nat
  tail : Nat
  used : Nat
  recs : List RingRec
  ovHead : Nat
  ovTail : Nat
  ovUsed : Nat
  outc : Outc
  deriving DecidableEq, Repr

/-- An empty ring. -/
def RingRt.empty : RingRt := ⟨0, 0, 0, [], 0, 0, 0, .done⟩

/-- Tokens that the output stage or a generator has formed for a stream and the router has not yet taken (R106). `old` is the stream entry of
tokens formed under the configuration of before a COMMIT wave (R71). -/
structure OutPend where
  ostr : Nat
  toks : List Token
  old : Option Strm
  deriving DecidableEq, Repr

/-- What a CU or MU holds of the dataflow machinery of chapter 8. `qdesc` is keyed by slot × 8 + queue, `foldMap` maps
a fold of the configuration to its context slot. `spillTab` holds the words of the 12 spill entries. `since` is the number of the first packet
after the COMMIT wave that installed the streams, `relAt` the tick of REFCLK_MOD of the last release of an entry (R284). -/
structure Flow where
  qgeom : W64
  queues : SMap DQ
  qdesc : SMap W64
  streams : SMap Strm
  foldMap : SMap Nat
  curFold : Nat
  foldReq : Bool
  idle : Nat
  dwell : Nat
  spillTab : SMap W64
  rings : SMap RingRt
  reinject : List Nat
  stall : SMap Nat
  out : List OutPend
  since : Nat
  relAt : Nat
  deriving DecidableEq, Repr

/-- A unit that no image has configured: every queue has depth 0. -/
def Flow.reset : Flow := ⟨0, [], [], [], [], 0, false, 0, 0, [], [], [], [], [], 0, 0⟩

/-- A weight block in its resident form (R83, R121): per column the entries in use as (offset within the block's K
positions, element code); the scale bytes, column by column (R156); the checksum-column entries c_k by K offset with the
scale exponent they are relative to, and whether the exponents span too far for the check (R109). `poi` poisons every column, `pcols` lists
columns poisoned alone (R178). -/
structure WSlot where
  cols : List (List (Nat × Nat))
  scales : List Nat
  csum : List Int
  kmin : Int
  cskip : Bool
  poi : Bool
  pcols : List Nat
  deriving DecidableEq, Repr

/-- A slot never loaded holds zeros. -/
def WSlot.empty : WSlot := ⟨[], [], [], 0, false, false, []⟩

/-- The accumulators of one row (3.3): 32 columns and the checksum column. `wide` holds FP32 or PAIR encodings, `wfl` says for which of them
the last addition was flushed to zero (R46, R76). -/
structure AccRow where
  xp : List Xp
  wide : List Nat
  wfl : List Bool
  csum : BitVec 96
  poi : Bool
  apx : Bool
  skip : Bool
  deriving DecidableEq, Repr

/-- A beat or block delivered to the CU feed by a generator (R157, R161, R163): its bytes, its block tag, poison.
`last` marks the end of a gather; its bytes are the mask (one per neuron) and `skipped` counts the zero ones. `pcols` lists the columns of a
gathered beat whose piece is poisoned (R178); `apx` is the marker of what it was read from (R139). -/
structure FeedBlk where
  data : List Byte
  tag : Option Nat
  poi : Bool
  pcols : List Nat
  apx : Bool
  last : Bool
  skipped : Nat
  deriving DecidableEq, Repr

/-- The running state of one fold context of a CU: the next micro-op, whether the program runs, the tag and APPROX
marker of the token that started it, its invocation count (Table 8.8 `TAGM`), the tag base of its steering stage (R262),
and the outcome of its last micro-op. -/
structure CuCtx where
  next : Nat
  running : Bool
  startTag : Nat
  count : Nat
  tbase : Nat
  outc : Outc
  deriving DecidableEq, Repr

/-- A context that has not been started. -/
def CuCtx.idle : CuCtx := ⟨0, false, 0, 0, 0, .done⟩

/-- An A operand as far as its tokens have come (R86): element codes, scale bytes, markers, and the tag of the first token; `ended` says that an
end marker has closed it. -/
structure OpPart where
  el : List Nat
  scl : List Nat
  poi : Bool
  apx : Bool
  tag : Option Nat
  ended : Bool
  deriving DecidableEq, Repr

/-- No operand yet. -/
def OpPart.empty : OpPart := ⟨[], [], false, false, none, false⟩

/-- A micro-op at work: its context slot and index, the rows, column groups or vectors done, the elements passed (R103),
the values that `VTOPK` keeps as (code, index), the markers of what it wrote, the block-scale contributions outside the
window with the first one's detail (R648), the mask deadline (R134), whether the fallback mask was taken, and whether
the VHB has been loaded; the epoch in which it began, with the seed, step and tensor identifier that its elements are rounded with (R71); the
operand it is taking; and whether it ends under the configuration of before a COMMIT wave (R115). -/
structure URun where
  slot : Nat
  uop : Nat
  row : Nat
  tag : Nat
  seen : Nat
  topk : List (Nat × Nat)
  poi : Bool
  apx : Bool
  above : Nat
  aboveAt : Nat
  below : Nat
  belowAt : Nat
  deadline : Option Nat
  fallback : Bool
  loaded : Bool
  misses : Nat
  skipped : Nat
  ver : Option Nat
  epoch : Nat
  seed : W64
  step : Nat
  tid : Nat
  part : OpPart
  late : Bool
  deriving DecidableEq, Repr

/-- A micro-op that has done nothing. -/
def URun.fresh : URun :=
  ⟨0, 0, 0, 0, 0, [], false, false, 0, 0, 0, 0, none, false, false, 0, 0, none, 0, 0, 0, 0, OpPart.empty, false⟩

/-- The configuration of a CU's contexts: what a micro-op that began before a COMMIT wave goes on under (R115, R132). -/
structure CuConf where
  uops : SMap (W64 × W64)
  vprog : SMap W64
  cfg : SMap W64
  creg : SMap W32
  pred : SMap W64
  pinv : SMap Nat
  ctxs : SMap CuCtx
  streams : SMap Strm
  fold : Nat
  deriving DecidableEq, Repr

/-- One CU. Contexts are keyed by slot: micro-ops at slot × 64 + index (two words), vector stage words at
slot × 96 + program × 6 + stage, constant register lanes at slot × 128 + register × 32 + lane, `PRED_CTL` words and
`PINV` at slot × 4 + word, predictor counters at (slot × 4 + word) × 9 + counter (Table 4.9), histogram counters at
stream × 36 + bin. Accumulator rows are keyed by row; the feed by generator program. `lastMask` is the mask of the last
masked invocation, for the verification of the strict policy (R137). `err` holds latent errors (1 correctable, 2 not) of the CU's memories (R498):
queue buffers at the queue, stationary slots at 16 + slot, their index stores at 32 + slot, the VHB at 48. `loading` is a `LOADW` at work beside the issued micro-op (R84); `old` is
the configuration of micro-ops that a COMMIT wave met at work. -/
structure Cu where
  uops : SMap (W64 × W64)
  vprog : SMap W64
  cfg : SMap W64
  creg : SMap W32
  pred : SMap W64
  slots : SMap WSlot
  vhb : List Nat
  vhbScl : List Nat
  vhbPoi : Bool
  vhbApx : Bool
  acc : SMap AccRow
  ctxs : SMap CuCtx
  issued : Option URun
  loading : Option URun
  old : Option CuConf
  feed : SMap (List FeedBlk)
  hist : SMap Nat
  rot : Nat
  checkSkip : Nat
  shadowCyc : Nat
  filterDrop : Nat
  maskTie : Nat
  lastMask : List Byte
  pinv : SMap Nat
  pc : SMap Nat
  err : SMap Nat
  deriving DecidableEq, Repr

/-- A CU after a module reset. -/
def Cu.reset : Cu where
  uops := []
  vprog := []
  cfg := []
  creg := []
  pred := []
  slots := []
  vhb := []
  vhbScl := []
  vhbPoi := false
  vhbApx := false
  acc := []
  ctxs := []
  issued := none
  loading := none
  old := none
  feed := []
  hist := []
  rot := 3
  checkSkip := 0
  shadowCyc := 0
  filterDrop := 0
  maskTie := 0
  lastMask := []
  pinv := []
  pc := []
  err := []

/-- A generator at work (R153): its context slot, program number and words, the CU it feeds and by which micro-op,
the loop-nest indices (R158) or the column, chunk and tree it has come to, the indices or active neurons taken and not
used yet, a count of indices, the mask seen so far and whether its end has come (R162), the node, depth, feature address
and tag of a walk (R165), and the output gathered so far with its poison. `direct` says that the mask comes from the
fallback program or from a verification entry and not from `QIN`; a gather keeps in `idx` the poisoned columns of its beat (R178); `failed` that an address lay out of range (R155). -/
structure Gen where
  slot : Nat
  prog : Nat
  w0 : W64
  w1 : W64
  w2 : W64
  w3 : W64
  cu : Option Nat
  i0 : Nat
  i1 : Nat
  i2 : Nat
  i3 : Nat
  idx : List Nat
  n : Nat
  mask : List Byte
  maskEnd : Bool
  direct : Bool
  node : Nat
  depth : Nat
  feat : Nat
  tag : Nat
  out : List Byte
  poi : Bool
  apx : Bool
  failed : Bool
  deriving DecidableEq, Repr

/-- No generator at work. -/
def Gen.idle : Gen :=
  ⟨0, 0, 0, 0, 0, 0, none, 0, 0, 0, 0, [], 0, [], false, false, 0, 0, 0, 0, [], false, false, false⟩

/-- The copy-on-write state of an MU (R170): wave number, the window's `MU_SNAP` word, the next granule to copy and
those copied out of turn, the shadow mapping of granules, those waiting to be folded back, the granules marked poisoned
(R175), a granule whose copy a write waits for (R172), the generator that runs the copy-out and its program, the module
address of the image slot, the state block taken at the wave (R507), whether a page failed, and the writes sent and
answered. -/
structure Snap where
  wnum : Nat
  word : W64
  next : Nat
  done : List Nat
  map : SMap Nat
  fold : List Nat
  bad : List Nat
  urgent : Option Nat
  gen : Option Nat
  prog : Nat
  base : Nat
  state : List Byte
  failed : Bool
  sent : Nat
  acked : Nat
  deriving DecidableEq, Repr

/-- A W1 descriptor accepted by an MU whose record is being read (R233): the sender, its packet's number, the ring's program, the length
of the record, and the buffer. -/
structure DescJob where
  src : Nat
  re : Nat
  prog : Nat
  rlen : Nat
  addr : Nat
  len : Nat
  deriving DecidableEq, Repr

/-- One MU. `poi` lists the codewords (address ÷ 8) that hold stored poison, `err` those with a latent error
(1 correctable, 2 not). Programs are keyed by slot × 32 + program × 4 + word; ring state by program. `maskDrop` counts,
by queue, the predictor masks to discard (R134); `doneW` lists the waves of the last copy-outs that ended with every page DONE, the latest first, with `SNAPN` after each; `starts` counts program starts (Table 8.8 `TAGM`); `waitW` holds
writes that wait for a shadow granule (R172), oldest first: address, bytes, poison. -/
structure Mu where
  mem : SMap Byte
  poi : SMap Bool
  err : SMap Nat
  snapW : W64
  progs : SMap W64
  gens : SMap Gen
  rings : SMap RingRt
  snap : Option Snap
  snapN : Nat
  snapWait : Nat
  snapSkip : Nat
  doneW : List (Nat × Nat)
  corrected : Nat
  scrub : Nat
  jobs : List DescJob
  maskDrop : SMap Nat
  starts : Nat
  waitW : List (Nat × List Byte × Bool)
  deriving DecidableEq, Repr

/-- An MU after a module reset: every byte zero with valid check bits (R579). -/
def Mu.reset : Mu where
  mem := []
  poi := []
  err := []
  snapW := 0
  progs := []
  gens := []
  rings := []
  snap := none
  snapN := 0
  snapWait := 0
  snapSkip := 0
  doneW := []
  corrected := 0
  scrub := 0
  jobs := []
  maskDrop := []
  starts := 0
  waitW := []

end Sys2Proof.Machine
end

