-- ==== Sys2Proof/Machine/PowerTypes.lean ====
section
/-!
DEFINITION. Plain data of power, clocks, heat and module time (chapter 18) and of observation (chapter 17).
-/
namespace Sys2Proof.Machine
open Sys2Proof

/-- A field: what `FC_CLK`, `FC_PWR` and `FC_TEMP` show (18.3, 18.8, 18.9) and what stands behind them. `chg` is the step
of Table 18.3 in progress (0 none; 1 to 4 raising, 5 to 8 lowering); `changedAt` is when the last change began and `stepAt` when its step
began, in ps. `src` is the PLL that the islands follow (false A), `tapk` the step of a Taper and `tapAt` the cycle of its last step, `hold` that
the DCOs hold frequency; `unlockAt` is when the active PLL unlocked with the standby relocking (R545). -/
structure FieldSt where
  plA : Bool
  plB : Bool
  act : Bool
  chg : Nat
  opcur : Nat
  optgt : Nat
  opreq : Nat
  onepll : Bool
  opcnt : Nat
  changedAt : Option Nat
  pest : Nat
  platf : Bool
  hotoff : Bool
  fast : Bool
  powBud : Nat
  heatBud : Nat
  ibud : Nat
  src : Bool
  tapk : Nat
  tapAt : Nat
  hold : Bool
  stepAt : Nat
  tmax : Int
  tsen : Nat
  tstep : Nat
  coolSince : Option Nat
  heatNext : Nat
  vcmp : Nat
  vmsh : Nat
  meshOff : Bool
  lost : Bool
  unlockAt : Option Nat
  grant : Option Nat
  deriving DecidableEq, Repr

/-- A field after a module reset (`FC_CLK` 0x0540_0000, `FC_PWR` 0x400, `FC_TEMP` 0). -/
def FieldSt.reset : FieldSt where
  plA := false
  plB := false
  act := false
  chg := 0
  opcur := 1
  optgt := 1
  opreq := 1
  onepll := false
  opcnt := 0
  changedAt := none
  pest := 0
  platf := false
  hotoff := false
  fast := false
  powBud := 1024
  heatBud := 1024
  ibud := 1024
  src := false
  tapk := 64
  tapAt := 0
  hold := false
  stepAt := 0
  tmax := 0
  tsen := 0
  tstep := 0
  coolSince := none
  heatNext := 0
  vcmp := 0
  vmsh := 0
  meshOff := false
  lost := false
  unlockAt := none
  grant := some 1

/-- A trace record held in a tile and not yet written (R536). -/
structure TraceRec where
  time : Nat
  utyp : Nat
  uidx : Nat
  ev : Nat
  det : Nat
  deriving DecidableEq, Repr

/-- The trace (R535 to R537): its parameters, whether it runs, whether a wave that starts or stops it is on its way, whether an
incident ended it and no `TRACE_STOP` has reported that yet, the records held and the slice position of each tile, and the counts. -/
structure TraceSt where
  running : Bool
  starting : Bool
  stopping : Bool
  ended : Bool
  addr : Nat
  pages : Nat
  wrap : Bool
  stopInc : Bool
  mask : Nat
  t0 : Nat
  t1 : Nat
  held : SMap (List TraceRec)
  pos : SMap Nat
  written : Nat
  dropped : Nat
  deriving DecidableEq, Repr

/-- No trace. -/
def TraceSt.none : TraceSt := ⟨false, false, false, false, 0, 0, false, false, 0, 0, 0, [], [], 0, 0⟩

end Sys2Proof.Machine
end

