-- ==== Sys2Proof/Machine/EngTypes.lean ====
section
/-!
DEFINITION. Plain data of the host ports (chapter 13), the engines, their commands and transactions (chapter 14), and
the copies and memory-side dies (chapter 11).
-/
namespace Sys2Proof.Machine
open Sys2Proof

/-- A command ring and its completion area (13.5). `pass` is the phase bit of the next record (R457); `out` counts the
commands fetched and not yet completed; `due` is when a delayed completion message goes out, in ps (R442). -/
structure HRing where
  rbase : Nat
  rsize : Nat
  en : Bool
  err : Bool
  head : Nat
  taila : Nat
  cbase : Nat
  cvec : Nat
  cdly : Nat
  csize : Nat
  chead : Nat
  ctail : Nat
  arm : Bool
  pass : Bool
  out : Nat
  due : Option Nat
  deriving DecidableEq, Repr

/-- A ring after reset: all registers zero. -/
def HRing.reset : HRing := ⟨0, 0, false, false, 0, 0, 0, 0, 0, 0, 0, 0, false, true, 0, none⟩

/-- An entry of the MSI-X table: message address, message data, vector mask (R443). -/
structure Msix where
  addr : W64
  data : W32
  mask : Bool
  deriving DecidableEq, Repr

/-- An MSI-X entry after reset: masked (PCI Express). -/
def Msix.reset : Msix := ⟨0, 0, true⟩

/-- One host port (chapter 13). `mem` holds what the module has written into the host's memory through this port;
`sent` counts the messages sent on each vector. `linkUp` and `perst` are the link and the level of `PERSTn_N`;
`resetAt` is when an FLR was initiated; `memEn` is Memory Space Enable. -/
structure HostPort where
  rings : SMap HRing
  cause : Nat
  mask : Nat
  msix : SMap Msix
  pba : SMap Bool
  msixEn : Bool
  msixFm : Bool
  sent : SMap Nat
  mem : SMap Byte
  rwsign : Nat
  latch : Option Nat
  linkUp : Bool
  perst : Bool
  resetAt : Option Nat
  memEn : Bool
  deriving DecidableEq, Repr

/-- A host port after a module reset: `STATE` set, every cause masked. -/
def HostPort.reset : HostPort :=
  ⟨[], 0x40, 0xFFFF, [], [], false, false, [], [], 0, none, true, false, none, false⟩

/-- The host semaphore (13.4): its holder, the current token, the end of the lease in ps, the port that wins the next
tie, and its counters. -/
structure Sem where
  holder : Option Nat
  token : Nat
  lease : Nat
  tiew : Nat
  hbign : Nat
  tie : Nat
  deriving DecidableEq, Repr

/-- A change staged under a transaction tag (R455, R460, Table 9.10). `run` of an image says that its region ran when it
was staged (R278); an instrument change names the location, the key it concerns, and word 1 of the entry or that the
location becomes free. -/
inductive Chg
  | image (r : Nat) (img : Image) (from_ : MAddr) (len : Nat) (run : Bool)
  | step (r : Nat) (v : W32)
  | sram (t m a : Nat) (data : List Byte)
  | wickMem (t c a : Nat) (data : List Byte)
  | creg (t k fold a : Nat) (data : List Byte)
  | dieReg (die a : Nat) (v : W64)
  | inst (die loc : Nat) (key : W64) (e : Option W64)
  | tmpl (die i : Nat) (desc : List W64) (img : List Byte)
  | guard (die i : Nat) (ws : List W64)
  | parse (die i : Nat) (w : W32)
  | wgx (die i : Nat) (ws : List W64)
  | seg (i : Nat) (e : W64 × W64)
  | dieFence (m : W32)
  | lost (msd lo n : Nat)
  | colmap (t : Nat) (v : W32)
  | brk (t : Nat) (v : W64)
  | restart (r : Nat)
  | start (r : Nat)
  | unsuppress (group : Nat)
  deriving DecidableEq, Repr

/-- What a fetched command is doing. -/
inductive CPh
  /-- Accepted, not started. -/
  | ready
  /-- Waits for its image from host memory. -/
  | image
  /-- Every check has passed; its changes wait to be staged (R460), for `STAGE_WR` and images once their rectangle writes
  have been delivered. -/
  | stage (chgs : List Chg)
  /-- Its region drains since the gate, in ps (R275). -/
  | drain (since : Nat)
  /-- Waits for a wave of its own or of its transaction. -/
  | wave (tag : Nat)
  /-- A copy, WGX transfer or record write at work, started. -/
  | work
  /-- A `PHASE` that waits for its fields until this time, in ps (R467). -/
  | settle (due : Nat)
  deriving DecidableEq, Repr

/-- A command accepted from a ring (Tables 14.2 and 14.5): its words, eight for each entry; whether it waits for the
earlier commands of its ring; whether it is or was a member of a transaction (`TXM`); accept time in ns; what throttles took from
it (R468); whether its port was reset so that its record is not written (Table 13.5); and its detail on DONE (Table 14.4). `id` numbers
accepted commands. -/
structure Cmd where
  id : Nat
  port : Nat
  eng : Nat
  opc : Nat
  seq : Nat
  txh : Nat
  wait : Bool
  txm : Bool
  words : List W64
  atime : Nat
  defer : Nat
  thr : Bool
  norec : Bool
  det : Nat
  ph : CPh
  deriving DecidableEq, Repr

/-- An engine (R448): its commands fetched and not completed, in order, and the port it fetched from last. -/
structure Eng where
  cmds : List Cmd
  last : Nat
  deriving DecidableEq, Repr

/-- An engine with nothing to do. -/
def Eng.idle : Eng := ⟨[], 1⟩

/-- How far a transaction has come: open; closed by `TXN_COMMIT` and waiting for its members; its regions gated and
draining; its wave requested; its wave taken and its reports out. -/
inductive TxPh
  | open_ | closed | quiesce | waved (commit : Bool) | reporting (commit : Bool)
  deriving DecidableEq, Repr

/-- A transaction (14.6). `handle` is 0 for a command's own transaction; `port` 2 is Mantle's. `due` is the deadline
`TXTO` in ps, `qdue` the quiesce deadline. `regs` are the regions gated and drained, `groups` the groups whose epoch
rises at the wave. `count` counts members staged or failed, `staged` the commands that staged, in order; `closer` is
the command that closed it. `miss` says that a report of its wave is missing. `disc` counts the tokens discarded. -/
structure Txn where
  tag : Nat
  port : Nat
  handle : Nat
  due : Option Nat
  chgs : List Chg
  staged : List Cmd
  count : Nat
  failSeq : Option Nat
  closer : Option Cmd
  nmem : Nat
  regs : List Nat
  groups : List Nat
  qdue : Option Nat
  strict : Bool
  ph : TxPh
  outc : Outc
  reason : Nat
  wnum : Nat
  miss : Bool
  disc : Nat
  deriving DecidableEq, Repr

/-- The transaction manager: open transactions, the last tag, and for each port and handle whether its most recent
transaction has resolved, with the outcome and reason it ended by (R459, R464). `nextId` numbers accepted commands. -/
structure Engines where
  engs : SMap Eng
  txns : List Txn
  lastTag : Nat
  past : SMap (Outc × Nat)
  nextId : Nat
  deriving DecidableEq, Repr

/-- A page of a copy (11.5): its number, destination and source addresses in their spaces, its bytes, and the MSD whose
physical engines carry it out. `data` is what the source gave, when it has been read; `arrive` is when the request
reached its MSD, in ps; `ended` is its outcome. -/
structure CopyPage where
  src : MAddr
  dst : MAddr
  len : Nat
  msd : Nat
  chunk : Nat
  data : Option (List (Byte × Bool))
  arrive : Option Nat
  started : Option Nat
  ended : Option Outc
  deriving DecidableEq, Repr

/-- A copy at work: the accepted command it belongs to, its descriptor, its pages, and the segment table under which it was translated,
when that has changed since (Table 11.8). -/
structure CopyJob where
  cmd : Nat
  eng : Nat
  port : Nat
  desc : List W64
  pages : List CopyPage
  seg : Option (SMap (W64 × W64))
  deriving DecidableEq, Repr

/-- What a request to an MSD asks for. -/
inductive MReq
  /-- A write or read packet: where its reply goes, its module address, data, poison, length. -/
  | write (src dst : Nat) (a : Nat) (data : List Byte) (poi : List Bool)
  | read (src dst : Nat) (a len : Nat)
  /-- A page of a copy, or a page being resilvered. -/
  | page (cmd page : Nat)
  | resilver (page : Nat)
  deriving DecidableEq, Repr

/-- A request queued or in service at an MSD (R376, R377). `seg` is the segment table under which it was translated, when that has changed
since (Table 11.8); `bad` says that its buffer failed (R498). -/
structure MsdReq where
  cls : Nat
  req : Nat
  bytes : Nat
  arrive : Nat
  what : MReq
  seg : Option (SMap (W64 × W64))
  bad : Bool
  deriving DecidableEq, Repr

/-- One MSD and its HBM stack. `poi` and `err` are keyed by 64-bit word (1 correctable, 2 not). `allLost` says that the
stack lost its contents, which is so after every reset; `kept` are the pages written since and not lost again (R379). `keys` are the key
slots installed, by slot, as the Island's key number. `serv` holds requests in service. `rr` is the requester served last
and the grants it has left. `served`, `defN`, `refused` and `defNs` hold, by class, requests served, deferred and refused for quota, and
the longest wait in ns. `freed` lists the bytes freed in the latest period of REFCLK_MOD in which any were, as (period, requester, bytes)
(R377). `parErr` counts parity errors on the commands of the next access (Table 11.2). `bufErr` is a latent error (1 correctable, 2 not) in the buffer of the request that is served next (R498). -/
structure Msd where
  mem : SMap Byte
  poi : SMap Bool
  err : SMap Nat
  allLost : Bool
  kept : SMap Bool
  cls : W64
  qw : SMap W64
  queue : List MsdReq
  serv : List MsdReq
  rrAt : Nat
  rrLeft : Nat
  defN : SMap Nat
  defNs : SMap Nat
  served : SMap Nat
  refused : SMap Nat
  corrected : Nat
  uncorr : Nat
  repaired : Nat
  lostReads : Nat
  scrub : Nat
  keys : SMap Nat
  resilver : Option Nat
  inReset : Bool
  resetAt : Nat
  bufErr : Nat
  freed : List (Nat × Nat × Nat)
  parErr : Nat
  deriving DecidableEq, Repr

/-- The reset value of `MSD_QW[r]`. -/
def qwReset : W64 := 0xFFFF0001#64

/-- An MSD after a module reset: the stack's contents are lost (R580). -/
def Msd.reset : Msd where
  mem := []
  poi := []
  err := []
  allLost := true
  kept := []
  cls := 0x3E8271003E8#64
  qw := []
  queue := []
  serv := []
  rrAt := 0
  rrLeft := 0
  defN := []
  defNs := []
  served := []
  refused := []
  corrected := 0
  uncorr := 0
  repaired := 0
  lostReads := 0
  scrub := 0
  keys := []
  resilver := none
  inReset := false
  resetAt := 0
  bufErr := 0
  freed := []
  parErr := 0

end Sys2Proof.Machine
end

