-- ==== Sys2Proof/Machine/EdgeTypes.lean ====
section
/-!
DEFINITION. Plain data of the port dies: ports, parse engines, instrument table, events, composer, guard, replay ring
and journal (chapter 12) and the WGX sessions (10.7).
-/
namespace Sys2Proof.Machine
open Sys2Proof

/-- A received frame while a parse engine holds it or its end is open: number, first lane of its port, the port's
configuration when it started (R384), bytes without the FCS, whether the FCS is good, its timestamp in 0.25 ns (R386),
whether it has ended and been checked, and whether it failed (R404). -/
structure OutFrame where
  n : Nat
  port : Nat
  cfg : W64
  data : List Byte
  fcsOk : Bool
  ts : Nat
  ended : Bool
  bad : Bool
  deriving DecidableEq, Repr

/-- A parse engine (R391, R394): the frame it parses and the one waiting, by number, and the program's registers. -/
structure ParseEng where
  frame : Option Nat
  wait : Option Nat
  pc : Nat
  v : SMap W32
  cur : Nat
  key : W64
  fseq : Nat
  area : List Byte
  exts : Nat
  count : Nat
  emits : Nat
  deriving DecidableEq, Repr

/-- A parse engine with no frame. -/
def ParseEng.idle : ParseEng := ⟨none, none, 0, [], 0, 0, 0, [], 0, 0, 0⟩

/-- An ingress event (Table 12.6) until its record is written: the frame and entry it came from, whether it may leave
yet, its pending index and when it was sent, its outcome, whether its frame was checked and failed. `since` is when its
wait for an index began (R403); times in ps. `byTimer` says that the 10 µs rule ended it, `supp` that suppression keeps
it from being sent (R512), `replayOf` that a recovery re-sends it. -/
structure Ev where
  id : Nat
  frame : Nat
  ts : Nat
  key : W64
  fseq : Nat
  slot : Nat
  port : Nat
  ggrp : Nat
  lat : Bool
  fcsx : Bool
  midx : Nat
  fields : List Byte
  dq : Nat
  apt : Nat
  ord : Bool
  rpl : Bool
  ready : Bool
  idx : Option Nat
  sentAt : Nat
  since : Option Nat
  outc : Option Outc
  byTimer : Bool
  checked : Bool
  fcse : Bool
  supp : Bool
  replayOf : Bool
  deriving DecidableEq, Repr

/-- A template (R408): descriptor, image and sequence counter (R410). -/
structure Tmpl where
  desc : List W64
  img : List Byte
  seq : Nat
  deriving DecidableEq, Repr

/-- A guard group (R411): its words, its tokens in units of 1 / 256,000,000 and when they were last brought up to date,
in ps. -/
structure Guard where
  ws : List W64
  tok : Nat
  at_ : Nat
  deriving DecidableEq, Repr

/-- A response that passed the guard, on its way out of a port: the sender, the attach port and how to answer it (the kind and the number of its packet), its
words with markers, its template, its frame, and what the MAC grant filled in. -/
structure OutFrm where
  src : Nat
  attach : Nat
  kind : Nat
  re : Nat
  words : List QEnt
  tmpl : Nat
  form : Tmpl
  data : List Byte
  seqn : Nat
  ts : Nat
  deriving DecidableEq, Repr

/-- A record of the replay ring or the journal: its offset, its bytes, the wave number of a snapshot mark, whether a
replayed response matched it or it was written under suppression (R512), and when it was formed, in ps. -/
structure LogRec where
  ofs : Nat
  data : List Byte
  mark : Option Nat
  matched : Bool
  supp : Bool
  at_ : Nat
  deriving DecidableEq, Repr

/-- What a refused write restores: `HEAD`, `TAIL`, `USED`, the records and their number. -/
structure LogUndo where
  head : Nat
  tail : Nat
  used : Nat
  recs : List LogRec
  base : Nat
  deriving DecidableEq, Repr

/-- The replay ring or the journal (12.10): configuration, offsets, records, how many records have left at `HEAD`, what
the die has written at each offset, the write in flight with what to restore if it is refused, how many replies it
awaits and whether one refused it, whether writes fail, the records lost, and the complete records that wait. -/
structure LogRing where
  cfg : W64
  head : Nat
  tail : Nat
  used : Nat
  recs : List LogRec
  base : Nat
  img : SMap Byte
  undo : Option LogUndo
  out : Nat
  bad : Bool
  outage : Bool
  lost : Nat
  wait : List LogRec
  deriving DecidableEq, Repr

/-- A ring that is off. -/
def LogRing.reset : LogRing := ⟨0, 0, 0, 0, [], 0, [], none, 0, false, false, 0, []⟩

/-- A suppressed rectangle (R422): the group that recovers and the corners. -/
structure Supp where
  group : Nat
  t0 : Nat
  t1 : Nat
  deriving DecidableEq, Repr

/-- The replay of a recovery (R420, R422, R513), by record number: where it starts in the ring, the next record to re-send,
where the journal's comparison starts and where the restored snapshot's mark falls in the journal, the events re-sent, the
responses withheld, and whether it has diverged. -/
structure Replay where
  group : Nat
  start : Nat
  next : Nat
  jstart : Nat
  jmark : Nat
  sent : Nat
  held : Nat
  diverged : Bool
  deriving DecidableEq, Repr

/-- A DATA frame of a session that is not yet acknowledged (R355): when it was sent in ps, how often it was lost, whether
the three-frame rule has used its turn, whether it waits to be sent again, and whether the peer holds it. -/
structure WgxOut where
  seq : Nat
  ofs : Nat
  data : List Byte
  last : Bool
  tensor : Nat
  step : Nat
  fmt : Nat
  poi : Bool
  sentAt : Nat
  losses : Nat
  fast : Bool
  again : Bool
  held : Bool
  deriving DecidableEq, Repr

/-- A push or pull at work on a session (R357): the command, the buffer, the tensor, and how far it has come. `got`
lists the ranges written, `seqLast` the sequence number of the frame with `LAST`; `sentAt` and `again` concern the PULL
frame. -/
structure WgxXfer where
  cmd : Nat
  addr : Nat
  len : Nat
  tensor : Nat
  step : Nat
  fmt : Nat
  next : Nat
  count : Nat
  got : List (Nat × Nat)
  first : Bool
  seqLast : Option Nat
  poi : Bool
  sentAt : Option Nat
  again : Bool
  losses : Nat
  deriving DecidableEq, Repr

/-- A WGX session (R350): its descriptor and both directions. `acks` and `rsts` say what is owed to the peer; `heldRx` lists
the frames held beyond `ackRx`; `due` is the acknowledgement timer in ps; `ctr` counts by row of Table 10.6. -/
structure Wgx where
  ws : List W64
  live : Bool
  failed : Bool
  seqTx : Nat
  ackTx : Nat
  winTx : Nat
  outs : List WgxOut
  ackRx : Nat
  heldRx : List Nat
  inOrder : Nat
  due : Option Nat
  ackNow : Bool
  rstNow : Bool
  push : Option WgxXfer
  pull : Option WgxXfer
  ctr : SMap Nat
  deriving DecidableEq, Repr

/-- A session never installed. -/
def Wgx.none : Wgx := ⟨[], false, false, 0, 0, 64, [], 0, [], 0, Option.none, false, false, Option.none, Option.none, []⟩

/-- What a port of a die is doing: register, link, the frame in transmission (a response, or a WGX frame with its session), responses waiting for the MAC, the next
parse engine of a four-lane port, and the counters of Table 17.1. -/
structure PdPort where
  cfg : W64
  up : Bool
  tx : Option OutFrm
  txq : List OutFrm
  wgxTx : Option (Nat × List Byte)
  turn : Nat
  ctr : SMap Nat
  deriving DecidableEq, Repr

/-- A port after reset: disabled, link down. -/
def PdPort.reset : PdPort := ⟨0, false, none, [], none, 0, []⟩

/-- One port die. Ports and parse engines are keyed by lane; the instrument table by location: bucket × 4 + entry, and
524,288 + n for entry n of the stash. `lat` holds the latency histograms: for guard group g, key 128 × g + i is bin i for
i below 64, then `LHN`, `LHSUM`, `LHMAX`, `LHMIN` as its complement, and `PD_LHCFG[g]`. `ctr` counts responses decided by
outcome; `marksLost` lists the snapshot marks that its replay ring held when it was last reset. `gate` says that the Snuffer's engagement has reached the die, `gateAt` when, in ps. `err` holds latent errors (1 correctable, 2 not) of its tables (R498): instrument locations,
templates at 2^20 + index, guard groups at 2 · 2^20 + index and words of the parse store at 3 · 2^20 + index. -/
structure Pd where
  ports : SMap PdPort
  parsers : SMap ParseEng
  store : SMap W32
  insts : SMap (W64 × W64)
  frames : List OutFrame
  nextFrame : Nat
  evs : List Ev
  nextEv : Nat
  tmpls : SMap Tmpl
  guards : SMap Guard
  replay : LogRing
  journal : LogRing
  supps : List Supp
  replays : List Replay
  marksLost : List Nat
  wgx : SMap Wgx
  ctr : SMap Nat
  lat : SMap Nat
  gate : Bool
  gateAt : Nat
  inReset : Bool
  resetAt : Nat
  err : SMap Nat
  tie : Nat
  deriving DecidableEq, Repr

/-- A port die after a module reset: the Snuffer is engaged (R414). -/
def Pd.reset : Pd where
  ports := []
  parsers := []
  store := []
  insts := []
  frames := []
  nextFrame := 0
  evs := []
  nextEv := 0
  tmpls := []
  guards := []
  replay := LogRing.reset
  journal := LogRing.reset
  supps := []
  replays := []
  marksLost := []
  wgx := []
  ctr := []
  lat := []
  gate := true
  gateAt := 0
  inReset := false
  resetAt := 0
  err := []
  tie := 0

end Sys2Proof.Machine
end

