-- ==== Sys2Proof/Machine/CtlTypes.lean ====
section
/-!
DEFINITION. Plain data of Mantle and its mailboxes (chapter 15), recovery (16.6), module time and the power controller
(chapter 18), start-up (chapter 19), the Brobry links and the TAPs (chapter 20), the Security Island (chapter 21) and the
pins (chapter 22).
-/
namespace Sys2Proof.Machine
open Sys2Proof

/-! ### Mailboxes -/

/-- A reply on its way to, or in, a reply area (Table 15.2, `MBM_HDR`). -/
structure MbReply where
  port : Nat
  seq : Nat
  late : Bool
  outc : Outc
  stat : Nat
  data : List Byte
  byIsland : Bool
  cmd : Option Nat
  deriving DecidableEq, Repr

/-- The pair of mailboxes of a port (R469). -/
structure MbPort where
  hdr : W64
  req : SMap Byte
  busy : Bool
  mto : Nat
  qout : Nat
  mrej : Nat
  reply : Option MbReply
  queue : List MbReply
  tie : Nat
  tocnt : Nat
  deriving DecidableEq, Repr

/-- An empty mailbox pair. -/
def MbPort.reset : MbPort := ⟨0, [], false, 0, 0, 0, none, [], 0, 0⟩

/-- What an accepted mailbox command waits for: its start; the wave of its transaction; a time in ps; the end of its
work; or nothing more. -/
inductive MbPh
  | ready | wave (tag : Nat) | until_ (ps : Nat) | work | done
  deriving DecidableEq, Repr

/-- A mailbox command that Mantle accepted (R471). `due` is its reply deadline in ps (R475), `timedOut` says that it was
answered TIMEOUT, `discard` that its port was reset (R476). -/
structure MbCmd where
  id : Nat
  port : Nat
  seq : Nat
  opc : Nat
  sem : Bool
  data : List Byte
  due : Nat
  timedOut : Bool
  discard : Bool
  ph : MbPh
  deriving DecidableEq, Repr

/-- A bank of the CD's flash (15.7.1): its state (Table 15.7), its manifest's header fields, component versions in the
order of Table 15.8, its settings record (R487: two copies, each with its validity; `setNew` is the copy written last). -/
structure Bank where
  st : Nat
  setver : Nat
  sfmt : Nat
  minrev : Nat
  svn : Nat
  hconf : Bool
  cvers : List Nat
  set0 : List W64
  set1 : List W64
  ok0 : Bool
  ok1 : Bool
  setNew : Bool
  utime : Nat
  deriving DecidableEq, Repr

/-- The default settings record for a format (Table 15.6). -/
def settingsDefault (sfmt : Nat) : List W64 :=
  [BitVec.ofNat 64 sfmt, BitVec.ofNat 64 (15 * 2 ^ 24 + 0x24 * 2 ^ 16 + 33000), 250, 0, 0, 0, 0, 0]

/-- A bank that holds nothing. -/
def Bank.empty : Bank := ⟨0, 0, 0, 0, 0, false, [], [], [], false, false, false, 0⟩

/-- A recovery under way (R511): its group, its kind (1 spare, 2 in place), the failed tile, the step of Table 16.7 it has
come to, when it began in ns, the snapshot to be restored, `TCUT`, the attempts of the table change, and the tag of the
wave it waits for. -/
structure Recov where
  group : Nat
  kind : Nat
  tile : Nat
  step : Nat
  t0 : Nat
  wnum : Nat
  tcut : Nat
  tries : Nat
  tag : Nat
  deriving DecidableEq, Repr

/-- A live table change (R320): its tag, the changes, the routers affected, the failed tile that it repairs, the group whose
recovery it serves, when it began in ps, and how far it has come (0 asked for; 1 staged, links held; 2 wave requested). -/
structure TabChg where
  tag : Nat
  chgs : List Chg
  tiles : List Nat
  failed : Option Nat
  group : Option Nat
  t0 : Nat
  ph : Nat
  deriving DecidableEq, Repr

/-- The snapshot policy (R482), when the next periodic wave falls in ps, the latest complete snapshot of each group (R508),
`SNAPN` of each MU after the latest complete snapshot of its group, and the waves whose copy-outs are out, as (wave number,
group, port dies up at the wave). -/
structure SnapPol where
  snapp : Nat
  srmask : W64
  automask : W64
  next : Nat
  best : SMap Nat
  slots : SMap Nat
  out : List (Nat × Nat × List Nat)
  deriving DecidableEq, Repr

/-! ### Start-up, power and time -/

/-- The identity of the module (`MOD_ID`, `MOD_SER`, Table 22.1). -/
structure Part where
  gib : Nat
  stkh : Nat
  rev : Nat
  es : Bool
  serial : W64
  deriving DecidableEq, Repr

/-- A power blade (R632): voltage in 10 mV, current in 0.1 A. -/
structure Blade where
  mv10 : Nat
  ma100 : Nat
  deriving DecidableEq, Repr

/-- The CD's always-on island and the start-up sequencer. `step` is the step of Table 19.1 in progress (0: off), `mst`
the code of `MST`; `tries` counts attempts by step and object; `off` says why the module is off: 0 not, 1 input, 2
thermal shutdown, 3 tamper. `resetAt` is when the last module reset began, in ps; `input` says that the
input lies in range; `tries` counts attempts of a step by object. `late` are incidents that Mantle raises after READY; `birthBad` counts records of
the birth map that were ignored, `skipFaults` faults found in tiles that it skips already (R577, Table 19.7). -/
structure Boot where
  step : Nat
  mst : Nat
  since : Nat
  haltc : Nat
  haltd : Nat
  lrst : Nat
  tries : SMap Nat
  held : Bool
  refOk : Bool
  refAt : Nat
  off : Nat
  offAt : Nat
  pwrGood : Bool
  late : List Inc
  lastMark : Nat
  lidOpen : Bool
  tamperLow : Bool
  closedAt : Nat
  tamperSrc : Nat
  tamperAt : Nat
  tamperDue : Bool
  hotIx : Nat
  hotAt : Nat
  log : Nat
  resetAt : Option Nat
  input : Bool
  birth : List W64
  birthOk0 : Bool
  birthOk1 : Bool
  birthBad : Nat
  moved : List Nat
  newRep : Nat
  skipFaults : Nat
  deriving DecidableEq, Repr

/-- The firmware part of Mantle: banks, selector, trial and update progress (15.7). `fbc` lies in the always-on island;
`trialDue` is the health deadline in ps; `resetDue` the reset of R493; `hostOk` says that the host confirmed; `tie` counts confirmations in
the deadline cycle (R33, R494). -/
structure Fw where
  banks : SMap Bank
  rbank : Nat
  sel : Nat
  fbc : Nat
  fbEvent : Option Nat
  trial : Bool
  trialDue : Nat
  hostOk : Bool
  resetDue : Option Nat
  stageCmd : Option Nat
  staged : List Byte
  sdone : Nat
  srst : Bool
  set : List W64
  utime : Nat
  tie : Nat
  deriving DecidableEq, Repr

/-- The Snuffer (12.9): `CD_SNF`, whether the pin is low, and the SNUFF frames on their way to each port die (`true`
engages). -/
structure Snuff where
  snf : Bool
  cause : Nat
  pin : Bool
  relrej : Nat
  frames : SMap (List Bool)
  deriving DecidableEq, Repr

/-- Module time and its servo (18.6): lock, source, offset in ns, the counts toward lock and fallback, the last
measurement in ps, the rate in ppb and the integral term, the sources not followed any more (R549), the validity of the inputs (R541), when the next TIME_MARK falls in
ns of module time, and how far the tiles' counters lie from module time until it. -/
structure TimeCtl where
  lock : Bool
  src : Nat
  tofs : Int
  good : Nat
  lastAt : Nat
  back : Nat
  rate : Int
  integ : Int
  warned : Nat
  pref : Nat
  dom : Nat
  ptpOk : Bool
  ppsOk : Bool
  tenOk : Bool
  pcie : SMap Bool
  markNext : Nat
  tileOfs : Int
  tileSlow : Nat
  tileSlowAt : Nat
  deriving DecidableEq, Repr

/-- The power controller (18.8): settings, the input power measured each µs in W (latest first, 1 ms of them), the link and memory actuators in
1/1,024 of what is demanded, whether the demand at OP0 would fit the cap, the alert conditions that hold, the heat of satellites
(temperature in 1/8 °C and step by die), coolant sensors. `pilot` is the step of Table 18.9 or 18.11 come to (0: not in Pilot; 1 to 3 entering,
4 in Pilot, 5 to 8 waking), `pilotAt` the acceptance of the command, in ps. -/
structure Power where
  pcap : Nat
  pord : Nat
  opmask : Nat
  samples : List Nat
  linkLim : Nat
  memLim : Nat
  op0fits : Bool
  blades : SMap Blade
  bladeBad : Option Nat
  fastAt : Option Nat
  overAt : Option Nat
  overAlert : Bool
  bladeAlert : Bool
  dieTemp : SMap Int
  dieStep : SMap Nat
  inletT : Int
  outletT : Int
  pilot : Nat
  pilotAt : Nat
  deriving DecidableEq, Repr

/-- A frequency measurement in progress (R538). -/
structure Meter where
  cmd : Nat
  meter : Nat
  mref : Nat
  mclk : Nat
  k : Nat
  openAt : Nat
  deriving DecidableEq, Repr

/-- Mantle: mailboxes, commands, policy, recoveries, table changes, frequency meters. -/
structure Mantle where
  mb : SMap MbPort
  cmds : List MbCmd
  outbox : List MbReply
  nextId : Nat
  snap : SnapPol
  recov : List Recov
  tabs : List TabChg
  meters : List Meter
  probeAt : Nat
  deriving DecidableEq, Repr

/-! ### Brobry links and TAPs -/

/-- One direction of an attach port: flits not yet acknowledged (by sequence number), the next number to send and to
expect, whether the receiver waits after a NAK, retries in the window, lanes (R596 to R599). `gone` are the lanes that failed in this direction, and
`lane` the place among those in use of the next flit's first byte (R592). -/
structure BbDir where
  next : Nat
  unacked : List (Nat × List Nat)
  since : Nat
  expect : Nat
  naked : Bool
  retries : Nat
  window : Nat
  lanes : Nat
  spare : Bool
  carry : Nat
  gone : List Nat
  lane : Nat
  deriving DecidableEq, Repr

/-- One direction of a sideband lane (R601): numbered frames unacknowledged as (type, sub-field, body), the next number
to send and to expect, repeats, acknowledgement owed. -/
structure SbDir where
  next : Nat
  unacked : List (Nat × Nat × Nat × List Byte)
  since : Nat
  repeats : Nat
  expect : Nat
  ackDue : Bool
  bad : Nat
  deriving DecidableEq, Repr

/-- An attach port: `BB_STAT`, its two directions (0 toward the wafer, 1 from it), its sideband, and its test state. -/
structure BbPort where
  st : Nat
  rate : Nat
  ver : Nat
  sbok : Bool
  retry : Nat
  fail : W32
  d0 : BbDir
  d1 : BbDir
  s0 : SbDir
  s1 : SbDir
  credit : SMap Nat
  trainAt : Nat
  near : Bool
  far : Bool
  pat : Nat
  mask : Nat
  errs : SMap Nat
  cmp : Nat
  deriving DecidableEq, Repr

/-- A direction with nothing outstanding and 12 lanes. -/
def BbDir.reset : BbDir := ⟨0, [], 0, 0, false, 0, 0, 12, false, 0, [], 0⟩
/-- A sideband direction at link up. -/
def SbDir.reset : SbDir := ⟨0, [], 0, 0, 0, false, 0⟩
/-- An attach port after reset: down. -/
def BbPort.reset : BbPort :=
  ⟨0, 0, 0, false, 0, 0, BbDir.reset, BbDir.reset, SbDir.reset, SbDir.reset, [], 0, false, false, 0, 0, [], 0⟩

/-- A satellite as the wafer and Mantle see it: its capability word, whether it was accepted, firmware version, state of
training (the step of Table 20.7), waves taken, the TAP, and whether `MB_FENCE` fenced it. -/
structure Die where
  cap : W64
  accepted : Bool
  rate : Nat
  ver : Nat
  fw : Nat
  train : Nat
  down : Bool
  downAt : Nat
  lost : Bool
  test : Bool
  lastWave : Nat
  keyPiece : SMap (List Byte)
  state : SMap Nat
  mgmt : List Byte
  ports : SMap BbPort
  ir : Nat
  tapPort : Nat
  boundary : List Bool
  extest : Bool
  hostFence : Bool
  deriving DecidableEq, Repr

/-- A die before it is trained; its TAP selects IDCODE. -/
def Die.reset : Die :=
  ⟨0, false, 0, 0, 0, 0, false, 0, false, false, 0, [], [], [], [], 1, 0, [], false, false⟩

/-! ### Security Island -/

/-- A key slot of the Island (R618): label, fingerprint and key. -/
structure KeySlot where
  label : W64
  fp : W64
  key : Nat
  deriving DecidableEq, Repr

/-- An audit record (Table 21.6). -/
structure Audit where
  time : Nat
  seq : Nat
  boot : Nat
  evt : Nat
  src : Nat
  data : W64
  chain : W64
  deriving DecidableEq, Repr

/-- The Security Island (chapter 21). `acks` are the MSDs that
have not yet acknowledged the slot of the import under way (command, slot, dies). -/
structure Island where
  err : Bool
  slots : SMap KeySlot
  acks : Option (Nat × Nat × List Nat)
  revoked : Nat
  minsvn : Nat
  raises : Nat
  unlocked : Bool
  fails : Nat
  chal : Option (List Byte × Nat)
  drbg : Nat
  tcount : Nat
  boots : Nat
  audit : List Audit
  aseq : Nat
  deriving DecidableEq, Repr

/-! ### Answers -/

/-- The completion of the last request at a host port: none yet, the value read, configuration request retry status, Unsupported Request, or
Completer Abort. -/
inductive HAns
  | none | data (w : Nat) | retry | unsupported | abort
  deriving DecidableEq, Repr

/-- What the last reads returned: the model's own record of values that leave the module and change nothing in it. `host` is by port, `reg`
the last register read through RC_REGISTER_READ by a reader that is not a host, `smb` the bytes of the last SMBus answer (`smbAck` says that the
address was acknowledged), `tap` the data register of each die as last captured. -/
structure Answers where
  host : SMap HAns
  reg : W64
  smb : List Byte
  smbAck : Bool
  tap : SMap (List Bool)
  deriving DecidableEq, Repr

/-- Nothing read yet. -/
def Answers.none : Answers := ⟨[], 0, [], false, []⟩

end Sys2Proof.Machine
end

