-- ==== Sys2Proof/Machine/State.lean ====
section
/-!
DEFINITION. The state of the module as plain data, its fault and refusal reasons, and the state after reset.
-/
namespace Sys2Proof.Machine
open Sys2Proof

/-- The clock of a field's tiles: 25ths of a tile cycle counted by `base` at reference tick `tick0`, and how many of
them pass in a period of REFCLK_MOD (Table 1.4: 224, 200, 160 and 128 for OP0 to OP3). -/
structure FieldClk where
  base : Nat
  tick0 : Nat
  rate : Nat
  deriving DecidableEq, Repr

/-- A field's clock after reset: OP1. -/
def FieldClk.reset : FieldClk := ⟨0, 0, 200⟩

/-- Time: periods of REFCLK_MOD since the input came into range, module time in units of 2^-32 / 5 ns, and the clocks
of the fields. -/
structure TimeSt where
  ticks : Nat
  modTime : Nat
  clk : SMap FieldClk
  deriving DecidableEq, Repr

/-- The latched copies of the counters (17.2): the parts of the state that hold counters as the last SNAPSHOT wave found
them, its number, and for each tile that missed it the number of the wave whose copy it keeps and the time of that copy.
Only counters are read from it. -/
structure View where
  wnum : Nat
  time : TimeSt
  wicks : SMap Wick
  flows : SMap Flow
  cus : SMap Cu
  mus : SMap Mu
  tiles : SMap Tile
  regions : SMap Region
  msds : SMap Msd
  pds : SMap Pd
  late : SMap (Nat × TimeSt)
  deriving DecidableEq, Repr

/-- Before the first SNAPSHOT wave. -/
def View.none : View := ⟨0, ⟨0, 0, []⟩, [], [], [], [], [], [], [], [], []⟩

/-- Why the block stops with a fault. -/
inductive Fault
  /-- Raised by no command: what goes wrong in the module is state (an outcome, an incident, a stopped core or region, a reset). Safe. -/
  | none
  deriving DecidableEq, Repr

/-- Why a command is refused. -/
inductive Refusal
  /-- Raised by an arm of `exec` whose command has no meaning; every command has one. Safe. -/
  | notModelled (mnemonic : String)
  deriving DecidableEq, Repr

/-- The state of the module. `armed` lists the counter sets of blocks that clear at the next SNAPSHOT wave (R530), by set ×
65,536 + block. `segKept` holds, for packets to the MSDs that were on their way when the segment table changed, the table under which they
were translated (Table 11.8). `cdErr` is a latent error (1 correctable, 2 not) in the word of a CD memory that is read next (R498). -/
structure State where
  pending : List Instr
  time : TimeSt
  wicks : SMap Wick
  flows : SMap Flow
  cus : SMap Cu
  mus : SMap Mu
  tiles : SMap Tile
  regions : SMap Region
  net : Net
  lamp : Lamp
  inc : IncPath
  fields : SMap FieldSt
  trace : TraceSt
  latch : View
  armed : SMap Bool
  seg : SMap (W64 × W64)
  segKept : SMap (SMap (W64 × W64))
  dieFence : W32
  hosts : SMap HostPort
  sem : Sem
  eng : Engines
  copies : List CopyJob
  msds : SMap Msd
  pds : SMap Pd
  part : Part
  boot : Boot
  fw : Fw
  snuff : Snuff
  tc : TimeCtl
  power : Power
  mantle : Mantle
  dies : SMap Die
  jsel : W32
  island : Island
  ans : Answers
  cdErr : Nat
  deriving DecidableEq, Repr

/-- A bank that holds a confirmed set (assumption 40): the flash contents are the module's own, outside any reset. -/
def Bank.active : Bank where
  st := 3
  setver := 0
  sfmt := 1
  minrev := 0
  svn := 0
  hconf := false
  cvers := [0, 0, 0, 0, 0, 0]
  set0 := settingsDefault 1
  set1 := settingsDefault 1
  ok0 := true
  ok1 := true
  setNew := false
  utime := 0

/-- The state right after reset. -/
def State.reset : State where
  pending := []
  time := ⟨0, 0, []⟩
  wicks := []
  flows := []
  cus := []
  mus := []
  tiles := []
  regions := []
  net := ⟨[], 0, 0⟩
  lamp := ⟨0, [], [], [], [], 0, 0, none, 0⟩
  inc := ⟨[], [], [], [], 0, 0, ⟨false, ⟨0, 0⟩, 0, 0, false, false⟩, 0, none⟩
  fields := []
  trace := TraceSt.none
  latch := View.none
  armed := []
  seg := []
  segKept := []
  dieFence := 0
  hosts := []
  sem := ⟨none, 0, 0, 0, 0, 0⟩
  eng := ⟨[], [], 0, [], 0⟩
  copies := []
  msds := []
  pds := []
  part := ⟨864, 12, 0, false, 0⟩
  boot :=
    { step := 2, mst := 0, since := 0, haltc := 0, haltd := 0, lrst := 0, tries := [], held := false, refOk := true,
      refAt := 0, off := 0, offAt := 0, pwrGood := true, late := [], lastMark := 0, lidOpen := false, tamperLow := false,
      closedAt := 0, tamperSrc := 0, tamperAt := 0, tamperDue := false, hotIx := 0, hotAt := 0, log := 0, resetAt := none, input := true, birth := [],
      birthOk0 := true, birthOk1 := true, birthBad := 0, moved := [], newRep := 0, skipFaults := 0 }
  fw :=
    { banks := [(0, Bank.active)], rbank := 0, sel := 0, fbc := 0, fbEvent := none, trial := false, trialDue := 0,
      hostOk := false, resetDue := none, stageCmd := none, staged := [], sdone := 0, srst := false,
      set := settingsDefault 1, utime := 0, tie := 0 }
  snuff := ⟨true, 4, false, 0, []⟩
  tc :=
    { lock := false, src := 0, tofs := 0, good := 0, lastAt := 0, back := 0, rate := 0, integ := 0, warned := 0,
      pref := 0, dom := 0, ptpOk := false, ppsOk := false, tenOk := false, pcie := [(0, true), (1, true)], markNext := 1000, tileOfs := 0, tileSlow := 0, tileSlowAt := 0 }
  power :=
    { pcap := 33000, pord := 0x24, opmask := 15, samples := [], linkLim := 1024, memLim := 1024, op0fits := true, blades := [], bladeBad := none,
      fastAt := none, overAt := none, overAlert := false, bladeAlert := false, dieTemp := [], dieStep := [], inletT := 0,
      outletT := 0, pilot := 0, pilotAt := 0 }
  mantle :=
    { mb := [], cmds := [], outbox := [], nextId := 0,
      snap := { snapp := 250, srmask := 0, automask := 0, next := 0, best := [], slots := [], out := [] },
      recov := [], tabs := [], meters := [], probeAt := 0 }
  dies := []
  jsel := 2
  island :=
    { err := false, slots := [], acks := none, revoked := 0, minsvn := 0, raises := 0, unlocked := false,
      fails := 0, chal := none, drbg := 0, tcount := 0, boots := 1, audit := [], aseq := 0 }
  ans := Answers.none
  cdErr := 0

end Sys2Proof.Machine
end

