-- ==== Sys2Proof/Machine/Ops.lean ====
section
/-!
DEFINITION. The named operations over the state that every family of commands shares: access to units, time, packets,
incidents, and the memories of MUs and Wick cores with their error correction and copy-on-write.
-/
namespace Sys2Proof.Machine
open Sys2Proof

/-- What a meaning answers. -/
abbrev Out := Host.Outcome State Fault Refusal

/-! ### Access to units -/

/-- The key of a Wick core. -/
def wkey (t c : Nat) : Nat := t * 48 + c
/-- The key of a CU or MU by tile and unit field 48 to 53 (Table 0.5). -/
def ukey (t u : Nat) : Nat := t * 6 + (u - 48)

/-- A Wick core. -/
def getWick (s : State) (t c : Nat) : Wick := mget Wick.reset s.wicks (wkey t c)
/-- Replace a Wick core. -/
def setWick (s : State) (t c : Nat) (w : Wick) : State := { s with wicks := mset Wick.reset s.wicks (wkey t c) w }
/-- Change a Wick core. -/
def modWick (s : State) (t c : Nat) (f : Wick → Wick) : State := setWick s t c (f (getWick s t c))

/-- The dataflow part of a CU or MU. -/
def getFlow (s : State) (t u : Nat) : Flow := mget Flow.reset s.flows (ukey t u)
/-- Replace the dataflow part of a CU or MU. -/
def setFlow (s : State) (t u : Nat) (f : Flow) : State := { s with flows := mset Flow.reset s.flows (ukey t u) f }
/-- Change the dataflow part of a CU or MU. -/
def modFlow (s : State) (t u : Nat) (g : Flow → Flow) : State := setFlow s t u (g (getFlow s t u))

/-- A CU of a tile. -/
def getCu (s : State) (t k : Nat) : Cu := mget Cu.reset s.cus (t * 2 + k)
/-- Replace a CU. -/
def setCu (s : State) (t k : Nat) (c : Cu) : State := { s with cus := mset Cu.reset s.cus (t * 2 + k) c }
/-- Change a CU. -/
def modCu (s : State) (t k : Nat) (f : Cu → Cu) : State := setCu s t k (f (getCu s t k))

/-- An MU of a tile. -/
def getMu (s : State) (t k : Nat) : Mu := mget Mu.reset s.mus (t * 4 + k)
/-- Replace an MU. -/
def setMu (s : State) (t k : Nat) (m : Mu) : State := { s with mus := mset Mu.reset s.mus (t * 4 + k) m }
/-- Change an MU. -/
def modMu (s : State) (t k : Nat) (f : Mu → Mu) : State := setMu s t k (f (getMu s t k))

/-- A tile's router and controller. -/
def getTile (s : State) (t : Nat) : Tile := mget Tile.reset s.tiles t
/-- Replace a tile. -/
def setTile (s : State) (t : Nat) (x : Tile) : State := { s with tiles := mset Tile.reset s.tiles t x }
/-- Change a tile. -/
def modTile (s : State) (t : Nat) (f : Tile → Tile) : State := setTile s t (f (getTile s t))

/-- A region. -/
def getRegion (s : State) (r : Nat) : Region := mget Region.none s.regions r
/-- Replace a region. -/
def setRegion (s : State) (r : Nat) (x : Region) : State := { s with regions := mset Region.none s.regions r x }
/-- Change a region. -/
def modRegion (s : State) (r : Nat) (f : Region → Region) : State := setRegion s r (f (getRegion s r))

/-- Change every listed entry of a map whose key satisfies `p`, keeping the canonical form. -/
def mmap {α : Type} [DecidableEq α] (d : α) (m : SMap α) (p : Nat → Bool) (f : α → α) : SMap α :=
  (m.map fun e => if p e.1 then (e.1, f e.2) else e).filter fun e => decide (e.2 ≠ d)

/-- As `mmap`, with the key. -/
def mmapK {α : Type} [DecidableEq α] (d : α) (m : SMap α) (p : Nat → Bool) (f : Nat → α → α) : SMap α :=
  (m.map fun e => if p e.1 then (e.1, f e.1 e.2) else e).filter fun e => decide (e.2 ≠ d)

/-! ### Time -/

/-- What is left of a backward correction of `slow.1` ns that a tile's counter began to absorb at `slow.2`: the counter advances more slowly
and never steps back (R199, assumption 129). -/
def slowLeft (now : Nat) (slow : Nat × Nat) : Nat :=
  let e := now - slow.2
  slow.1 - min slow.1 (Config.tileSlowed slow.1 e % (e + 1))

/-- Tile cycles counted by a field (in whole cycles). -/
def fieldCycles (s : State) (f : Nat) : Nat :=
  let c := mget FieldClk.reset s.time.clk f
  (c.base + c.rate * (s.time.ticks - c.tick0)) / 25

/-- Cycles that a tile has counted when its field has counted `fc`: each cycle of a droop takes two periods (R547). -/
def tileCycles (x : Tile) (fc : Nat) : Nat :=
  match x.droop with
  | some d => d - x.lag + (fc - d) / 2
  | none => fc - x.lag

/-- The cycles of its field by which a tile has counted `c`. -/
def fieldCycleOf (x : Tile) (c : Nat) : Nat :=
  match x.droop with
  | some d => if c ≤ d - x.lag then c + x.lag else d + 2 * (c - (d - x.lag))
  | none => c + x.lag

/-- Tile cycles counted by a tile. -/
def cyclesOf (s : State) (t : Nat) : Nat := tileCycles (getTile s t) (fieldCycles s (fieldOf t))

/-- The least number of reference ticks at which a field has counted `c` cycles. -/
def tickOfCycle (s : State) (f c : Nat) : Nat :=
  let k := mget FieldClk.reset s.time.clk f
  if k.rate == 0 then s.time.ticks else k.tick0 + (25 * c - k.base + k.rate - 1) / k.rate

/-- Module time in ns, truncated. -/
def nowNs (s : State) : Nat := s.time.modTime / (5 * 2 ^ 32)

/-- The slowing that a tile's counter is in: its own, or that of the tiles as a whole. -/
def tileSlow (s : State) (x : Tile) : Nat × Nat := x.mtOwn.getD (s.tc.tileSlow, s.tc.tileSlowAt)

/-- How far the line of a tile's module-time counter lies from module time, in ns: what has not been corrected yet (R198, R199). -/
def tileOff (s : State) (x : Tile) : Int := s.tc.tileOfs + x.mtOfs + slowLeft (nowNs s) (tileSlow s x)

/-- The line of a tile's module-time counter in ns. -/
def tileLine (s : State) (t : Nat) : Int := nowNs s + tileOff s (getTile s t)

/-- The tiles' counters are aligned to module time, those of `miss` not (R198, R199): a counter that is behind steps forward, one that is ahead
is slowed from now on until the correction is absorbed. -/
def alignTiles (s : State) (miss : List Nat) : State :=
  let now := nowNs s
  let whole := (tileOff s Tile.reset).toNat
  let late (s' : State) (t : Nat) : State := modTile s' t fun x =>
    { x with mtOfs := x.mtOfs + s.tc.tileOfs, mtOwn := some (tileSlow s (getTile s t)) }
  let hit (x : Tile) : Tile :=
    { x with mtOfs := 0, mtOwn := if (tileOff s x).toNat = whole then none else some ((tileOff s x).toNat, now) }
  let s' := { s with tiles := mmap Tile.reset s.tiles (fun t => !miss.contains t) hit }
  miss.foldl late { s' with tc := { s'.tc with tileOfs := 0, tileSlow := whole, tileSlowAt := now } }

/-- Time since the input came into range, in ps. -/
def nowPs (s : State) : Nat := s.time.ticks * 6400

/-- Module time that passes in a period of REFCLK_MOD at the rate of the servo, in units of 2^-32 / 5 ns (R549). -/
def perTick (s : State) : Nat := (32 * 2 ^ 32 * (1000000000 + s.tc.rate) / 1000000000).toNat

/-- Advance time by whole periods of REFCLK_MOD (6.4 ns each). -/
def advance (s : State) (n : Nat) : State :=
  { s with time := { s.time with ticks := s.time.ticks + n, modTime := s.time.modTime + n * perTick s } }

/-- A deadline in a tile's cycles is reached: time has come at least that far (assumption 4). -/
def reachCycle (s : State) (t c : Nat) : State := advance s (tickOfCycle s (fieldOf t) (fieldCycleOf (getTile s t) c) - s.time.ticks)

/-- A deadline given in ps since the input came into range is reached (assumption 4). -/
def reachPs (s : State) (ps : Nat) : State := advance s ((ps + 6399) / 6400 - s.time.ticks)

/-- Time has passed a deadline given in ps, or has come to it (R33). -/
def pastPs (s : State) (ps : Nat) : Bool := decide ((ps + 6399) / 6400 < s.time.ticks)
def atPs (s : State) (ps : Nat) : Bool := decide ((ps + 6399) / 6400 = s.time.ticks)

/-- The clock of a field runs at another rate from now on. -/
def setRate (s : State) (f rate : Nat) : State :=
  let k := mget FieldClk.reset s.time.clk f
  { s with time := { s.time with clk := mset FieldClk.reset s.time.clk f ⟨k.base + k.rate * (s.time.ticks - k.tick0), s.time.ticks, rate⟩ } }

/-! ### Regions and tiles -/

/-- Fields of the region descriptor (Table 8.1). -/
def rgX0 (r : Region) : Nat := bits r.desc0.toNat 16 7
def rgY0 (r : Region) : Nat := bits r.desc0.toNat 23 7
def rgX1 (r : Region) : Nat := bits r.desc0.toNat 30 7
def rgY1 (r : Region) : Nat := bits r.desc0.toNat 37 7
def rgCtl (r : Region) : Nat := bits r.desc0.toNat 44 14
def rgGrp (r : Region) : Nat := bits r.desc0.toNat 58 6
def rgNfm1 (r : Region) : Nat := bits r.desc0.toNat 6 2
def rgFdwell (r : Region) : Nat := bits r.desc1.toNat 48 16
def rgRqto (r : Region) : Nat := bits r.desc1.toNat 32 16
def rgDrto (r : Region) : Nat := bits r.desc1.toNat 16 16
def rgWdwin (r : Region) : Nat := bits r.desc1.toNat 1 15
def rgWdspill (r : Region) : Bool := bit r.desc1.toNat 0

/-- A tile lies in a rectangle. -/
def inRect (x0 y0 x1 y1 t : Nat) : Bool :=
  decide (x0 ≤ tileX t) && decide (tileX t ≤ x1) && decide (y0 ≤ tileY t) && decide (tileY t ≤ y1) &&
    decide (t < nTiles)

/-- A tile lies in a region that holds an image (R239). -/
def inRegion (r : Region) (t : Nat) : Bool :=
  decide (r.st ≠ .empty) && inRect (rgX0 r) (rgY0 r) (rgX1 r) (rgY1 r) t

/-- The region that owns a tile (R239: at most one). -/
def regionOf (s : State) (t : Nat) : Option Nat := (s.regions.find? fun e => inRegion e.2 t).map (·.1)

/-- The region that owns a tile, or an empty one. -/
def regionAt (s : State) (t : Nat) : Region :=
  match regionOf s t with
  | some r => getRegion s r
  | none => Region.none

/-- The tiles of a rectangle in ascending order. -/
def rectTiles (x0 y0 x1 y1 : Nat) : List Nat :=
  (List.range (y1 + 1 - y0)).flatMap fun j => (List.range (x1 + 1 - x0)).map fun i => tileAt (x0 + i) (y0 + j)

/-- The tiles of a region. -/
def regionTiles (r : Region) : List Nat :=
  if r.st = .empty then [] else rectTiles (rgX0 r) (rgY0 r) (rgX1 r) (rgY1 r)

/-- The regions of a group (R241). -/
def groupRegions (s : State) (g : Nat) : List Nat :=
  (s.regions.filter fun e => decide (e.2.st ≠ .empty) && rgGrp e.2 == g).map (·.1)

/-- The epoch a tile's units hold (R265); a tile outside every region holds 0. -/
def epochAt (s : State) (t : Nat) : Nat := (regionAt s t).epoch

/-- The tile is fenced (R313). -/
def fenced (s : State) (t : Nat) : Bool := bit (getTile s t).fence.toNat 0

/-- The units of a tile stand still: the tile is fenced (R313) or its region is frozen (R325). -/
def unitsStill (s : State) (t : Nat) : Bool := fenced s t || (getTile s t).idle || (regionAt s t).frozenAt.isSome

/-- Set or clear the fence of a tile, with its cause (R313, `RT_FENCE`). -/
def fenceTile (s : State) (t : Nat) (on : Bool) (cause : Nat) : State :=
  modTile s t fun x =>
    let w := setBits (setBits x.fence.toNat 0 1 (ofBit on)) 12 4 (if on then cause else 0)
    { x with fence := BitVec.ofNat 32 w }

/-- A tile reset (R649): the timers and the configuration words of its cores. -/
def tileReset (s : State) (t : Nat) : State :=
  (List.range 48).foldl (fun s c => modWick s t c fun w =>
    { w with tcnt0 := cyclesOf s t, tdl := 0, tpast := true, core := 0, ctx := [], run := .none }) s

/-- `MDOK` of a tile: its mesh domain is healthy. -/
def tileMdok (s : State) (t : Nat) : Bool := bit (getTile s t).fence.toNat 8

/-- A field. -/
def getField (s : State) (f : Nat) : FieldSt := mget FieldSt.reset s.fields f
/-- Replace a field. -/
def setField (s : State) (f : Nat) (x : FieldSt) : State := { s with fields := mset FieldSt.reset s.fields f x }
/-- Change a field. -/
def modField (s : State) (f : Nat) (g : FieldSt → FieldSt) : State := setField s f (g (getField s f))
/-- The tiles of a field (R3, R5). -/
def fieldTiles (f : Nat) : List Nat := rectTiles (f % 10 * 10) (f / 10 * 11) (f % 10 * 10 + 9) (f / 10 * 11 + 10)

/-- A limit in 1/1,024 leaves cycle `c` of each 1,024 open (R556). -/
def rateOpen (lim c : Nat) : Bool := decide ((c % 1024 + 1) * lim / 1024 > c % 1024 * lim / 1024)

/-- The links actuator lets a copy or WGX packet into the data network (R555, R557). -/
def linkOpen (s : State) : Bool := rateOpen s.power.linkLim (nowPs s / 1000)

/-- The memory actuator lets an MSD serve bulk traffic; thermal step 2 halves its rate (R555, R557, R562). -/
def bulkOpen (s : State) (m : Nat) : Bool :=
  rateOpen (if mget 0 s.power.dieStep (8 + m) ≥ 2 then s.power.memLim / 2 else s.power.memLim) (nowPs s / 1000)

/-- A satellite. -/
def getDie (s : State) (d : Nat) : Die := mget Die.reset s.dies d
/-- Replace a satellite. -/
def setDie (s : State) (d : Nat) (x : Die) : State := { s with dies := mset Die.reset s.dies d x }
/-- Change a satellite. -/
def modDie (s : State) (d : Nat) (f : Die → Die) : State := setDie s d (f (getDie s d))
/-- An attach port of a satellite. -/
def getBb (s : State) (d p : Nat) : BbPort := mget BbPort.reset (getDie s d).ports p
/-- Change an attach port. -/
def modBb (s : State) (d p : Nat) (f : BbPort → BbPort) : State :=
  modDie s d fun x => { x with ports := mset BbPort.reset x.ports p (f (mget BbPort.reset x.ports p)) }

/-- The inputs of the tile's region are closed (R273). -/
def gatedAt (s : State) (t : Nat) : Bool := (regionAt s t).gated

/-! ### Packets -/

/-- The tile cycle at a place in the mesh; a satellite has none. -/
def locCycle (s : State) : Loc → Nat
  | .router t _ | .deliver t => cyclesOf s t
  | .die .. => 0

/-- Put `x` before the first of a list with a greater key. -/
def insertBy {α : Type} (key : α → Nat) (x : α) : List α → List α
  | [] => [x]
  | y :: l => if key x ≤ key y then x :: y :: l else y :: insertBy key x l

/-- A list in ascending order of a key; those with equal keys keep their order. -/
def sortBy {α : Type} (key : α → Nat) (l : List α) : List α := l.foldr (insertBy key) []

/-- Put a packet under way: it takes the next number. -/
def putPacket (s : State) (p : Packet) : State :=
  { s with net := ⟨mset Packet.none s.net.packets s.net.next { p with id := s.net.next, arr := s.net.seq, cyc := locCycle s p.loc },
                   s.net.next + 1, s.net.seq + 1⟩ }

/-- Remove a packet. -/
def delPacket (s : State) (pid : Nat) : State := { s with net := { s.net with packets := mdel s.net.packets pid } }

/-- A packet under way, if there is one of that number. -/
def getPacket (s : State) (pid : Nat) : Option Packet :=
  let p := mget Packet.none s.net.packets pid
  if p = Packet.none then none else some p

/-- Change a packet under way. -/
def setPacket (s : State) (pid : Nat) (p : Packet) : State :=
  { s with net := { s.net with packets := mset Packet.none s.net.packets pid p } }

/-- A packet arrives in another buffer. -/
def movePacket (s : State) (pid : Nat) (p : Packet) : State :=
  { s with net := { s.net with packets := mset Packet.none s.net.packets pid { p with arr := s.net.seq, cyc := locCycle s p.loc },
                               seq := s.net.seq + 1 } }

/-- The packet travels on the control network: one payload word (R215, Table 9.3). -/
def bodyCtl : Body → Bool
  | .msg _ ws => ws.length == 1
  | .desc _ | .reply .. | .probe .. | .tokc .. | .cret .. | .racc .. | .rrsp .. | .mrd .. => true
  | _ => false

/-- Network of a packet: 0 data, 1 control. -/
def netOf (p : Packet) : Nat := if p.ctl then 1 else 0

/-- Flits of a packet (Table 9.3). -/
def flitsOf (b : Body) : Nat :=
  match b with
  | .tokd _ ks => ks.length + 1
  | .red .. | .event .. => 2
  | .rect _ _ _ _ _ _ d => 1 + (d.length + 127) / 128
  | .mwr _ _ _ _ d _ => 1 + (d.length + 127) / 128
  | _ => 1

/-- What an input port of a router buffers in a virtual channel: flits of data or control packets (R292). Ports 0 to 3 are the links, 4 is the
tile's own, 5 the attach port. -/
def chanUsed (s : State) (t port : Nat) (vch ctl : Bool) : Nat :=
  s.net.packets.foldl (fun n e => if e.2.loc = .router t port ∧ e.2.vch = vch ∧ e.2.ctl = ctl then n + (if ctl then 1 else flitsOf e.2.body) else n) 0

/-- A channel has credit for a whole packet: 32 flits of data, or 16 control packets (R292). -/
def chanRoom (s : State) (t port : Nat) (vch ctl : Bool) (b : Body) : Bool :=
  decide (chanUsed s t port vch ctl + (if ctl then 1 else flitsOf b) ≤ if ctl then 16 else 32)

/-- The router of a tile has room for a packet of a unit of that tile (R106). -/
def localRoom (s : State) (t : Nat) (b : Body) : Bool := chanRoom s t 4 false (bodyCtl b) b

/-- A packet as its sender injects it (R296: `RTE` = 0; R300: first channel), in answer to packet `re`. -/
def newPacket (src dst fold epoch : Nat) (b : Body) (loc : Loc) (re : Nat) : Packet :=
  ⟨src, dst, fold, epoch, bodyCtl b, b, false, false, false, true, loc, 0, re, 0, 0, []⟩

/-- Inject a packet at a unit of a tile. -/
def inject (s : State) (t src dst fold epoch : Nat) (b : Body) : State := putPacket s (newPacket src dst fold epoch b (.router t 4) 0)

/-- The index a reply names: the ticket in `SRC[2:0]` for a message or descriptor, the stream entry of a token. -/
def bodyRef (src : Nat) : Body → Nat
  | .msg .. => qaQueue src
  | .desc _ => qaQueue src
  | .tokd o _ => o
  | .tokc o _ => o
  | .red o _ _ => o
  | .racc _ tag _ _ => tag
  | _ => 0

/-- Where a reply goes: `SRC`, with the entry number in the queue bits for an acknowledged stream (R254). -/
def replyTo (p : Packet) : Nat :=
  match p.body with
  | .tokd o _ | .tokc o _ => if decide (qaUnit p.dst < 48) && decide (o < 8) then p.src + o else p.src
  | _ => p.src

/-- Who answers a packet at a tile: the unit that it is addressed to, or else the tile, as unit 0 (assumption 119). The queue bits are zero
(Table 7.2). -/
def answerUnit (t : Nat) (p : Packet) : Nat := if qaTileForm p.dst && qaTile p.dst == t then qaUnit p.dst else 0

/-- The fold that a unit of a tile runs. -/
def unitFold (s : State) (t u : Nat) : Nat := if u < 48 then (getWick s t u).fold else (getFlow s t u).curFold

/-- A unit of a tile answers a packet under its own fold and epoch (R214). -/
def answerWith (s : State) (t : Nat) (p : Packet) (dst : Nat) (b : Body) : State :=
  let u := answerUnit t p
  putPacket s (newPacket (qaMake t u 0) dst (unitFold s t u) (epochAt s t) b (.router t 4) p.id)

/-- A tile or router answers a packet it refuses or accepts (R217, R303): a REPLY to its source, or an RRSP for a
remote access (Table 6.9). -/
def answerFrom (s : State) (t : Nat) (p : Packet) (o : Outc) : State :=
  match p.body with
  | .racc _ tag _ _ => answerWith s t p p.src (.rrsp tag 0 false o)
  | .reply .. | .probe .. | .cret .. | .rrsp .. | .mwr _ _ true _ _ _ => s
  | .mrd a _ rq cls => answerWith s t p p.src (.mwr a (rq + cls * 128) true o [] [])
  | b => answerWith s t p (replyTo p) (.reply o (bodyKind b) (bodyRef p.src b))

/-! ### Incidents -/

/-- The default severity of a class (Table 16.4). -/
def incSev (c : Nat) : Nat :=
  if c == 0x0101 || c == 0x0120 || c == 0x0122 || c == 0x0601 || c == 0x0701 || c == 0x0930 || c == 0x0941 ||
    c == 0x0B08 || c == 0x0B09 then 0
  else if c == 0x0203 || (0x0401 ≤ c && c ≤ 0x0405) || c == 0x0407 || c == 0x0408 || (0x0410 ≤ c && c ≤ 0x0412) ||
    (0x0460 ≤ c && c ≤ 0x0465) || c == 0x0832 || c == 0x0920 || c == 0x0A09 || c == 0x0B02 || c == 0x0B04 ||
    c == 0x0B07 || c == 0x0B21 || c == 0x0B40 then 2
  else if c == 0x0220 || c == 0x0604 || c == 0x0612 || c == 0x0613 || c == 0x0608 || c == 0x0620 || c == 0x0710 ||
    c == 0x0711 || c == 0x0811 || c == 0x0820 || c == 0x0833 || c == 0x0840 || c == 0x0B03 || c == 0x0B06 then 3
  else 1

/-- A record of class `cls` with every optional field zero (Table 16.2). -/
def mkInc (cls utyp die tile uidx detail : Nat) : Inc :=
  ⟨cls, incSev cls, false, false, utyp, die, tile, uidx, 0, 0, 0, 0, 0, false, 0, 0, 0, 1, BitVec.ofNat 64 detail, 0, 0, 0⟩

/-- No tile (R500). -/
def noTile : Nat := 0x3FFF

/-- The source that raises a record: its tile controller or its satellite (R501). -/
def incSource (i : Inc) : Nat := if i.die == 0 then i.tile else 20000 + i.die

/-- A record joins its source's store of 8, or is dropped and counted (R501). -/
def pushInc (s : State) (i : Inc) : State :=
  let k := incSource i
  let q := mget [] s.inc.sources k
  if q.length < 8 then { s with inc := { s.inc with sources := mset [] s.inc.sources k (q ++ [i]) } }
  else { s with inc := { s.inc with losses := mset 0 s.inc.losses k (satAdd 16 (mget 0 s.inc.losses k) 1) } }

/-- The rail voltage of an operating point in mV (Table 1.4). -/
def opMv (op : Nat) : Nat := match op with | 0 => 820 | 1 => 750 | 2 => 680 | _ => 620

/-- `ITEMP` and `IVOLT` (R500): of a tile's field the highest reading and the rail of its point, of a satellite its temperature; zero for
a unit outside them (assumption 60). -/
def incSense (s : State) (i : Inc) : Nat × Nat :=
  if i.die == 0 then
    (if i.tile < nTiles then
      let f := getField s (fieldOf i.tile)
      (unsigned 16 f.tmax, opMv f.opcur)
    else (0, 0))
  else (unsigned 16 (mget 0 s.power.dieTemp i.die), 0)

/-- The two corners of a rectangle of tiles, in either order, as a test. -/
def inCorners (t0 t1 t : Nat) : Bool :=
  inRect (min (tileX t0) (tileX t1)) (min (tileY t0) (tileY t1)) (max (tileX t0) (tileX t1)) (max (tileY t0) (tileY t1)) t

/-- The running trace records an event of a tile (R536). -/
def traced (s : State) (t ev : Nat) : Bool :=
  s.trace.running && bit s.trace.mask ev && inCorners s.trace.t0 s.trace.t1 t && !fenced s t

/-- The record of a traced event is held, or dropped and counted when 16 records are held (R536). -/
def traceHold (s : State) (t utyp uidx ev det : Nat) : State :=
  if !traced s t ev then s
  else
    let q := mget [] s.trace.held t
    if q.length < 16 then { s with trace := { s.trace with held := mset [] s.trace.held t (q ++ [⟨nowNs s, utyp, uidx, ev, det⟩]) } }
    else { s with trace := { s.trace with dropped := s.trace.dropped + 1 } }

/-- Raise an incident: stamp it with module time and what the sensors read (R500); a tile traces it (Table 17.7). -/
def raiseInc (s : State) (i : Inc) : State :=
  let x := incSense s i
  let s := if i.die == 0 && decide (i.tile < nTiles) then traceHold s i.tile i.utyp i.uidx 8 i.cls else s
  pushInc s { i with itime := nowNs s, ilast := nowNs s, temp := x.1, volt := x.2 }

/-- Raise an incident of a class that a tile's failure limit counts (R499): the fourth within 1 s raises 0x0220. -/
def raiseUnit (s : State) (i : Inc) : State :=
  let s := raiseInc s i
  if i.cls == 0x0102 || i.cls == 0x0201 || i.cls == 0x0202 || i.cls == 0x0203 then
    if i.die != 0 || decide (i.tile ≥ nTiles) then s
    else
      let now := nowNs s
      let recent := ((getTile s i.tile).unitInc.filter fun x => decide (now < x + 1000000000)) ++ [now]
      if recent.length ≥ 4 then
        raiseInc (modTile s i.tile fun x => { x with unitInc := [] }) (mkInc 0x0220 utTile 0 i.tile 0 0)
      else modTile s i.tile fun x => { x with unitInc := recent }
  else s

/-- Raise a coalesced incident (R502): the first occurrence opens a window and makes a record; later ones within the
window are counted. -/
def raiseCoal (s : State) (i : Inc) : State :=
  let hit (w : CoalWin) : Bool :=
    w.cls == i.cls && w.die == i.die && w.utyp == i.utyp && w.tile == i.tile && w.uidx == i.uidx
  if s.inc.windows.any hit then
    let now := nowNs s
    let x := incSense s i
    let upd (w : CoalWin) : CoalWin :=
      if hit w then
        { w with count := w.count + 1, last := now,
                 first := match w.first with
                   | some f => some f
                   | none => some { i with itime := now, ilast := now, temp := x.1, volt := x.2 } }
      else w
    { s with inc := { s.inc with windows := s.inc.windows.map upd } }
  else
    raiseInc { s with inc := { s.inc with windows := s.inc.windows ++ [⟨nowNs s, i.cls, i.die, i.utyp, i.tile, i.uidx, none, 0, 0⟩] } } i

/-- An incident of a unit of a tile, with the region in the operation fields when there is one. -/
def tileInc (s : State) (cls utyp t uidx detail : Nat) : Inc :=
  match regionOf s t with
  | some r => { mkInc cls utyp 0 t uidx detail with reg := r, rgv := true }
  | none => mkInc cls utyp 0 t uidx detail

/-! ### MU memory (R149, R150, R170-R172) -/

/-- The granule that serves an address for the program: its shadow while it is mapped (R171). -/
def muMap (m : Mu) (a : Nat) : Nat :=
  match m.snap with
  | some sn => match sn.map.lookup (a / 256) with
    | some g => g * 256 + a % 256
    | none => a
  | none => a

/-- One byte of an MU, where it lies. -/
def muByte (m : Mu) (a : Nat) : Byte := mget 0 m.mem a

/-- The codewords that cover `n` bytes from `a`. -/
def muWords (a n : Nat) : List Nat := if n == 0 then [] else (List.range ((a + n - 1) / 8 - a / 8 + 1)).map (a / 8 + ·)

/-- What a read of codewords does to an MU's errors (R149): a correctable one is corrected and counted, an
uncorrectable one stays; the answer says how many were corrected and which are uncorrectable. -/
def muEcc (m : Mu) (ws : List Nat) : Mu × Nat × List Nat :=
  let one := ws.filter fun w => mget 0 m.err w == 1
  let two := ws.filter fun w => mget 0 m.err w == 2
  ({ m with err := one.foldl (fun e w => mset 0 e w 0) m.err, corrected := satAdd 32 m.corrected one.length },
    one.length, two)

/-- Data read from an MU is poisoned: stored poison or an uncorrectable error in any codeword (R149, R150). -/
def muPoison (m : Mu) (ws : List Nat) : Bool := ws.any fun w => mget false m.poi w || mget 0 m.err w == 2

/-- Raise what a read of an MU found, error by error (R149). -/
def muRaise (s : State) (t k corrected : Nat) (bad : List Nat) : State :=
  let s := (List.range corrected).foldl (fun s _ => raiseCoal s (tileInc s 0x0101 utMu t k 0)) s
  bad.foldl (fun s w => raiseUnit s (tileInc s 0x0102 utMu t k (w * 8))) s

/-- Read `n` bytes of an MU at address `a` as its programs see them: the bytes, whether poisoned, and the state after
correction (R149, R150). -/
def muRead (s : State) (t k a n : Nat) : List Byte × Bool × State :=
  let m := getMu s t k
  let addrs := (List.range n).map fun i => muMap m (a + i)
  let ws := (addrs.map (· / 8)).eraseDups
  let r := muEcc m ws
  (addrs.map (muByte m), muPoison m ws, muRaise (setMu s t k r.1) t k r.2.1 r.2.2)

/-- The bytes of a store and the poison it leaves (R150): a store of whole unpoisoned codewords clears stored poison;
a partial store over poison stores poison; a poisoned store stores poison. -/
def muPutBytes (m : Mu) (a : Nat) (bs : List Byte) (poi : Bool) : Mu :=
  let n := bs.length
  let mem := bs.zipIdx.foldl (fun acc e => mset 0 acc (a + e.2) e.1) m.mem
  let fix (acc : SMap Bool × SMap Nat) (w : Nat) : SMap Bool × SMap Nat :=
    let whole := decide (a ≤ w * 8) && decide (w * 8 + 8 ≤ a + n)
    let was := mget false m.poi w || mget 0 m.err w == 2
    let p := poi || (!whole && was)
    (mset false acc.1 w p, mset 0 acc.2 w 0)
  let r := (muWords a n).foldl fix (m.poi, m.err)
  { m with mem := mem, poi := r.1, err := r.2 }

/-- Fields of `MU_SNAP` (Table 5.6). -/
def snSen (w : W64) : Bool := bit w.toNat 0
def snWb (w : W64) : Nat := bits w.toNat 16 12
def snWnm1 (w : W64) : Nat := bits w.toNat 28 12
def snShb (w : W64) : Nat := bits w.toNat 40 12
def snShn (w : W64) : Nat := bits w.toNat 52 12

/-- A granule is frozen and not yet copied (R170). -/
def muFrozen (m : Mu) (g : Nat) : Bool :=
  match m.snap with
  | some sn =>
    decide (sn.next ≤ g) && !sn.done.contains g && decide (snWb sn.word ≤ g) &&
      decide (g ≤ snWb sn.word + snWnm1 sn.word)
  | none => false

/-- A free shadow granule (R171): the lowest that no mapping holds. -/
def muFreeShadow (m : Mu) : Option Nat :=
  match m.snap with
  | some sn =>
    let used := sn.map.map (·.2)
    ((List.range (snShn sn.word)).map (snShb sn.word + ·)).find? fun g => !used.contains g
  | none => none

/-- Copy one granule with its errors and stored poison (R171; a correctable error is corrected before the copy). -/
def muCopyGranule (m : Mu) (g h : Nat) : Mu :=
  let bs := (List.range 256).map fun i => muByte m (g * 256 + i)
  let mem := bs.zipIdx.foldl (fun acc e => mset 0 acc (h * 256 + e.2) e.1) m.mem
  let fix (acc : SMap Bool × SMap Nat) (i : Nat) : SMap Bool × SMap Nat :=
    let bad := mget false m.poi (g * 32 + i) || mget 0 m.err (g * 32 + i) == 2
    (mset false acc.1 (h * 32 + i) bad, mset 0 acc.2 (h * 32 + i) 0)
  let r := (List.range 32).foldl fix (m.poi, m.err)
  { m with mem := mem, poi := r.1, err := r.2 }

/-- The granule relocation of R171 before a write at `a`: `none` when the write must wait for a shadow granule (R172). -/
def muRelocate (m : Mu) (a : Nat) : Option Mu :=
  let g := a / 256
  match m.snap with
  | none => some m
  | some sn =>
    if !muFrozen m g || (sn.map.lookup g).isSome then some m
    else match muFreeShadow m with
      | some h =>
        let m' := muCopyGranule m g h
        some { m' with snap := some { sn with map := mput sn.map g h } }
      | none => none

/-- A write waits for a shadow granule: the copy-out of its granule is raised (R172) and the wait counted. -/
def muMarkWait (m : Mu) (a : Nat) : Mu :=
  match m.snap with
  | some sn => { m with snap := some { sn with urgent := some (a / 256) }, snapWait := satAdd 48 m.snapWait 1 }
  | none => m

/-- The granules that `n` bytes from `a` touch. -/
def muGranules (a n : Nat) : List Nat := if n == 0 then [] else (List.range ((a + n - 1) / 256 - a / 256 + 1)).map (a / 256 + ·)

/-- The codewords that a write of `n` bytes at `a` reads: those that it writes in part (R147) and those of granules that it relocates (R171). -/
def muTouched (m : Mu) (a n : Nat) : List Nat :=
  let part := (muWords a n).filter fun w => !(decide (a ≤ w * 8) && decide (w * 8 + 8 ≤ a + n))
  let moved := (muGranules a n).filter fun g => muFrozen m g && (match m.snap with | some sn => (sn.map.lookup g).isNone | none => false)
  ((part.map fun w => muMap m (w * 8) / 8) ++ moved.flatMap fun g => (List.range 32).map (g * 32 + ·)).eraseDups

/-- The granule that a write of `n` bytes at `a` waits for: the first that it would have to relocate. -/
def muBlocked (m : Mu) (a n : Nat) : Nat :=
  ((muGranules a n).find? fun g => muFrozen m g && (match m.snap with | some sn => (sn.map.lookup g).isNone | none => false)).getD (a / 256)

/-- Write bytes that may cross granules: what the write reads is corrected and counted (R147, R149), the relocation of each granule comes
first, so the write is whole or waits (R172). -/
def muWriteAll (m : Mu) (a : Nat) (bs : List Byte) (poi : Bool) : Option Mu :=
  let gs := muGranules a bs.length
  let m1 := gs.foldl (fun acc g => acc.bind fun m => muRelocate m (g * 256)) (some (muEcc m (muTouched m a bs.length)).1)
  m1.map fun m =>
    gs.foldl (fun acc g =>
      let lo := max a (g * 256)
      let hi := min (a + bs.length) (g * 256 + 256)
      muPutBytes acc (muMap acc lo) ((bs.drop (lo - a)).take (hi - lo)) poi) m

/-- A write of a program or a core into an MU: the state after it, or the state that notes the wait (R172). -/
def muWrite (s : State) (t k a : Nat) (bs : List Byte) (poi : Bool) : State × Bool :=
  let m := getMu s t k
  match muWriteAll m a bs poi with
  | some m' =>
    let r := muEcc m (muTouched m a bs.length)
    (muRaise (setMu s t k m') t k r.2.1 r.2.2, true)
  | none => (setMu s t k (muMarkWait m (muBlocked m a bs.length * 256)), false)

/-- A write that its writer does not repeat: where it must wait for a shadow granule (R172), or behind an earlier write to the same granules, it
is kept and performed when it can be. -/
def muWriteQ (s : State) (t k a : Nat) (bs : List Byte) (poi : Bool) : State :=
  let m := getMu s t k
  let gs := muGranules a bs.length
  let behind := m.waitW.any fun w => (muGranules w.1 w.2.1.length).any gs.contains
  let keep (s : State) : State := modMu s t k fun m => { m with waitW := m.waitW ++ [(a, bs, poi)] }
  if behind then keep s
  else
    let r := muWrite s t k a bs poi
    if r.2 then r.1 else keep r.1

/-- Perform the waiting writes of an MU, oldest first, as far as shadow granules allow (R172). -/
def muFlush : Nat → State → Nat → Nat → State
  | 0, s, _, _ => s
  | n + 1, s, t, k =>
    match (getMu s t k).waitW with
    | [] => s
    | w :: rest =>
      let r := muWrite s t k w.1 w.2.1 w.2.2
      if r.2 then muFlush n (modMu r.1 t k fun m => { m with waitW := rest }) t k else r.1

/-! ### Wick local memory (R183) -/

/-- The 32-bit word of a core's local memory at word index `i`. -/
def wkWord (w : Wick) (i : Nat) : W32 :=
  BitVec.ofNat 32 (leNat ((List.range 4).map fun j => mget 0 w.mem (4 * i + j)))

/-- Count corrected words of the Wick local memories of a tile (R183, Table 17.1 set 0x05). -/
def wkCorrected (s : State) (t n : Nat) : State := modTile s t fun x => { x with corrW := satAdd 32 x.corrW n }

/-- Write bytes into a core's local memory; a poisoned store leaves stored poison, a whole word clears it, a partial
store over poison or an uncorrectable error keeps it (R183 as R150). -/
def wkPut (w : Wick) (a : Nat) (bs : List Byte) (poi : Bool) : Wick :=
  let n := bs.length
  let mem := bs.zipIdx.foldl (fun acc e => mset 0 acc (a + e.2) e.1) w.mem
  let ws := if n == 0 then [] else (List.range ((a + n - 1) / 4 - a / 4 + 1)).map (a / 4 + ·)
  let fix (acc : SMap Bool × SMap Nat) (i : Nat) : SMap Bool × SMap Nat :=
    let whole := decide (a ≤ i * 4) && decide (i * 4 + 4 ≤ a + n)
    let was := mget false w.memPoi i || mget 0 w.memErr i == 2
    (mset false acc.1 i (poi || (!whole && was)), mset 0 acc.2 i 0)
  let r := ws.foldl fix (w.memPoi, w.memErr)
  { w with mem := mem, memPoi := r.1, memErr := r.2 }

/-! ### Rings (R235, R237) -/

/-- Where a ring lies: its MU, base and size, and its overflow area in HBM with its size (R168). -/
structure RingAt where
  mu : Nat
  base : Nat
  size : Nat
  ovAddr : Nat
  ovSize : Nat
  deriving DecidableEq, Repr

/-- Where a placement puts a record: the PAD before it, if any, and its offset; `none` is a refusal (R237). -/
def ringPlace (size : Nat) (r : RingRt) (len : Nat) : Option (Option (Nat × Nat) × Nat) :=
  if r.used == 0 then (if len ≤ size then some (none, 0) else none)
  else if r.tail > r.head then
    if len ≤ size - r.tail then some (none, r.tail)
    else if len ≤ r.head then some (some (r.tail, size - r.tail), 0)
    else none
  else if r.tail < r.head then
    if len ≤ r.head - r.tail then some (none, r.tail) else none
  else none

/-- The ring after a placement (R237); an offset that reaches the size becomes 0 (R235). -/
def ringPlaced (size : Nat) (r : RingRt) (pl : Option (Nat × Nat) × Nat) (rec : RingRec) : RingRt :=
  let pad := match pl.1 with
    | some p => p.2
    | none => 0
  let t := pl.2 + rec.len
  { r with head := if r.used == 0 then 0 else r.head, tail := if t == size then 0 else t, used := r.used + pad + rec.len,
           recs := r.recs ++ [{ rec with ofs := pl.2, ov := false }] }

/-- The ring after its consumer took its oldest record (R235, R237): a PAD at the head goes first. -/
def ringFree (size : Nat) (r : RingRt) (x : RingRec) : RingRt :=
  let padded := decide (x.ofs = 0) && decide (r.head ≠ 0)
  let u := (if padded then r.used - (size - r.head) else r.used) - x.len
  let h := (if padded then 0 else r.head) + x.len
  if u == 0 then { r with head := 0, tail := 0, used := 0 } else { r with head := if h ≥ size then 0 else h, used := u }

/-- The overflow area of a ring seen as a ring of its own (assumption 106). -/
def ringOver (r : RingRt) : RingRt := { r with head := r.ovHead, tail := r.ovTail, used := r.ovUsed }

/-- A ring whose overflow area has come to another state. -/
def ringBack (r o : RingRt) : RingRt := { r with ovHead := o.head, ovTail := o.tail, ovUsed := o.used }

/-- Bytes that a record takes in the overflow area: whole HBM words of 32 bytes (assumption 106). -/
def ovLen (n : Nat) : Nat := (n + 31) / 32 * 32

/-- The ring after its consumer took its oldest record, from the ring or from the overflow area (R168). -/
def ringTake (size ovSize : Nat) (r : RingRt) : RingRt :=
  match r.recs with
  | [] => r
  | x :: rest =>
    if x.ov then { ringBack r (ringFree ovSize (ringOver r) { x with len := ovLen x.len }) with recs := rest }
    else { ringFree size r x with recs := rest }

/-- Put a record in a ring, or in its overflow area of `ovSize` bytes when the ring is full (R168, R238). -/
def ringPut (size ovSize : Nat) (r : RingRt) (rec : RingRec) : Option RingRt :=
  match ringPlace size r rec.len with
  | some pl => some (ringPlaced size r pl rec)
  | none =>
    match ringPlace ovSize (ringOver r) (ovLen rec.len) with
    | some pl =>
      some { ringBack r (ringPlaced ovSize (ringOver r) pl { rec with len := ovLen rec.len }) with
        recs := r.recs ++ [{ rec with ofs := pl.2, ov := true }] }
    | none => none

/-- The header of a record in MU SRAM (Table 7.10). -/
def recHeader (src typ len : Nat) (poi apx : Bool) : Nat :=
  len + typ * 2 ^ 16 + ofBit poi * 2 ^ 20 + ofBit apx * 2 ^ 21 + src * 2 ^ 22

/-- Stall causes in the order of Table 8.14. -/
def stFenced : Nat := 0
def stPower : Nat := 1
def stFold : Nat := 2
def stOutput : Nat := 3
def stCredit : Nat := 4
def stInput : Nat := 5

/-- Count cycles of a stall cause 0 to 5 (Table 8.14 order 1 to 6) of a Wick core. -/
def wkStall (w : Wick) (cause n : Nat) : Wick :=
  { w with stall := mset 0 w.stall cause (satAdd 48 (mget 0 w.stall cause) n) }

/-- Count cycles of a stall cause of a CU or MU. -/
def flStall (f : Flow) (cause n : Nat) : Flow :=
  { f with stall := mset 0 f.stall cause (satAdd 48 (mget 0 f.stall cause) n) }

end Sys2Proof.Machine
end

