-- ==== Sys2Proof/Machine/CuNum.lean ====
section
/-!
DEFINITION. What a CU computes (chapters 3 and 4): micro-op and stage fields, weight blocks and their compressed form,
the exact and wide accumulation of a row, and the vector stages.
-/
namespace Sys2Proof.Machine
open Sys2Proof

/-! ### Micro-op fields (Table 3.3) -/

def uChk (w : W64 × W64) : Bool := bit w.1.toNat 60
def uSpat (w : W64 × W64) : Nat := bits w.1.toNat 57 3
def uInq (w : W64 × W64) : Nat := bits w.1.toNat 54 3
def uSlot (w : W64 × W64) : Nat := bits w.1.toNat 50 4
def uAout (w : W64 × W64) : Bool := bit w.1.toNat 49
def uAclr (w : W64 × W64) : Bool := bit w.1.toNat 48
def uAcc (w : W64 × W64) : Nat := bits w.1.toNat 46 2
def uOshift (w : W64 × W64) : Int := signed 8 (bits w.1.toNat 38 8)
def uOvm (w : W64 × W64) : Bool := bit w.1.toNat 37
def uOvf (w : W64 × W64) : Bool := bit w.1.toNat 36
def uRnd (w : W64 × W64) : Nat := bits w.1.toNat 33 3
def uSclow (w : W64 × W64) : Bool := bit w.1.toNat 32
def uSbase (w : W64 × W64) : Int := signed 10 (bits w.1.toNat 22 10)
def uSclw (w : W64 × W64) : Nat := bits w.1.toNat 20 2
def uScla (w : W64 × W64) : Nat := bits w.1.toNat 18 2
def uOfmt (w : W64 × W64) : Fmt := fmtOf (bits w.1.toNat 14 4)
def uWfmt (w : W64 × W64) : Fmt := fmtOf (bits w.1.toNat 10 4)
def uAfmt (w : W64 × W64) : Fmt := fmtOf (bits w.1.toNat 6 4)
def uMode (w : W64 × W64) : Nat := bits w.1.toNat 4 2
def uOpc (w : W64 × W64) : Nat := bits w.1.toNat 0 4
def uAgp (w : W64 × W64) : Nat := bits w.2.toNat 61 3
def uWpair (w : W64 × W64) : Bool := bit w.2.toNat 60
def uPrio (w : W64 × W64) : Nat := bits w.2.toNat 58 2
def uNext (w : W64 × W64) : Nat := bits w.2.toNat 52 6
def uOstr (w : W64 × W64) : Nat := bits w.2.toNat 46 6
def uXkeep (w : W64 × W64) : Bool := bit w.2.toNat 45
def uVen (w : W64 × W64) : Bool := bit w.2.toNat 44
def uVprog (w : W64 × W64) : Nat := bits w.2.toNat 40 4
def uRows (w : W64 × W64) : Nat := bits w.2.toNat 24 16 + 1
def uK (w : W64 × W64) : Nat := bits w.2.toNat 0 24 + 1

/-- An exact operation: both operands of 8 bits or fewer (R50). -/
def uExact (w : W64 × W64) : Bool := fmtNarrow (uAfmt w) && fmtNarrow (uWfmt w)

/-- The depth of a format (Table 3.2). -/
def fmtDepth (f : Fmt) : Nat :=
  match f with
  | .fp4 | .int4 | .e3m2 | .e2m3 => 128
  | .e4m3 | .e5m2 | .int8 | .uint8 => 64
  | .fp16 | .bf16 => 16
  | .fp32 => 4
  | .pair => 2
  | _ => 1

/-- The reduction depth of an operand pair (R80). -/
def opDepth (fa fw : Fmt) : Nat := min (fmtDepth fa) (fmtDepth fw)

/-- Group size M and most nonzeros N of a pattern (Table 4.1). -/
def spGroup (spat : Nat) : Nat × Nat :=
  match spat with
  | 1 => (4, 2) | 2 => (4, 1) | 3 => (8, 2) | 4 => (8, 4) | _ => (1, 1)

/-- K positions per issue cycle in units of D (Table 4.1). -/
def spAdv (spat : Nat) : Nat := let g := spGroup spat; g.1 / g.2

/-- K positions that one weight block covers. -/
def blkK (d spat : Nat) : Nat := d * spAdv spat

/-- The number of elements of a scale block (Table 2.5); 0 when unscaled. -/
def sclLen (scl : Nat) : Nat := match scl with | 0 => 0 | 1 => 32 | _ => 16

/-- The scale block length of an operation; an unscaled one is a single block. -/
def opSclLen (scla sclw : Nat) : Nat := max (sclLen scla) (sclLen sclw)

/-- Bytes of the value part of a weight block (R118, R156). -/
def valBytes (wf : Fmt) (d : Nat) : Nat := 32 * d * fmtBits wf / 8

/-- Bytes of the metadata part of one column (R119). -/
def metaBytes (d spat : Nat) : Nat :=
  let g := spGroup spat
  if spat == 0 || spat == 5 then 0 else (d / g.2 * (3 + 3 * g.2) + 7) / 8

/-- Scale bytes per column of a weight block (R156). -/
def sclBytes (d spat sclw : Nat) : Nat := if sclw == 0 then 0 else (blkK d spat + sclLen sclw - 1) / sclLen sclw

/-- Bytes of a weight block in MU SRAM (R81, R124, R156). -/
def blkBytes (wf : Fmt) (d spat sclw : Nat) : Nat :=
  valBytes wf d + 32 * metaBytes d spat + 32 * sclBytes d spat sclw

/-- Element `i` of a packed string (R44). -/
def elemAt (f : Fmt) (w i : Nat) : Nat := bits w (i * fmtBits f) (fmtBits f)

/-! ### Decompression and its checks (R120, R121, R127, R128) -/

/-- A format error: its incident and the dense K position of its group. -/
structure SpErr where
  cls : Nat
  col : Nat
  kpos : Nat
  deriving DecidableEq, Repr

/-- The entries in use of a group: positions and value indices (R120). -/
def groupIx (rec_ n cnt : Nat) : List Nat := (List.range (min cnt n)).map fun j => bits rec_ (3 + 3 * j) 3

/-- The positions rise strictly. -/
def rising : List Nat → Bool
  | a :: b :: l => decide (a < b) && rising (b :: l)
  | _ => true

/-- The checks of Table 4.6 on one group whose first dense position is `kpos`. -/
def groupCheck (m n k rec_ kpos : Nat) : Option Nat :=
  let cnt := bits rec_ 0 3
  let ix := groupIx rec_ n cnt
  if cnt > n then some 0x0301
  else if ix.any (· ≥ m) then some 0x0302
  else if ix.any (fun p => decide (kpos + p ≥ k)) then some 0x0303
  else if !rising ix then some 0x0304
  else none

/-- One column of a compressed block: its entries and its format errors. -/
def sparseCol (wf : Fmt) (d spat k kbase col vals rec_ : Nat) : List (Nat × Nat) × List SpErr :=
  let g := spGroup spat
  let wid := 3 + 3 * g.2
  (List.range (d / g.2)).foldl (fun acc j =>
    let r := bits rec_ (wid * j) wid
    match groupCheck g.1 g.2 k r (kbase + g.1 * j) with
    | some cls => (acc.1, acc.2 ++ [⟨cls, col, kbase + g.1 * j⟩])
    | none =>
      (acc.1 ++ (groupIx r g.2 (bits r 0 3)).zipIdx.map (fun e => (g.1 * j + e.1, elemAt wf vals (col * d + j * g.2 + e.2))),
        acc.2)) ([], [])

/-- A weight block from its bytes (as a little-endian number): entries by column, scale bytes and format errors. -/
def unpackBlock (wf : Fmt) (d spat sclw k kbase : Nat) (w : Nat) : List (List (Nat × Nat)) × List Nat × List SpErr :=
  let vb := valBytes wf d
  let mb := metaBytes d spat
  let sb := sclBytes d spat sclw
  let scales := (List.range (32 * sb)).map fun i => bits w (8 * (vb + 32 * mb + i)) 8
  if spat == 0 || spat == 5 then
    ((List.range 32).map fun c => (List.range d).map fun j => (j, elemAt wf w (c * d + j)), scales, [])
  else
    let cols := (List.range 32).map fun c =>
      sparseCol wf d spat k kbase c (w % 2 ^ (8 * vb)) (bits w (8 * (vb + mb * c)) (8 * mb))
    (cols.map (·.1), scales, cols.flatMap (·.2))

/-- The exponent of a scale relative to which checksum entries are formed (R109). -/
def scaleExp : Scale → Int
  | .fin _ _ k => k
  | .nan => 0

/-- The signed integer of a scale. -/
def scaleInt : Scale → Int
  | .fin neg n _ => if neg then -(n : Int) else n
  | .nan => 0

/-- The scale of column `c` at K offset `o` of a block. -/
def colScale (sclw sb : Nat) (scales : List Nat) (c o : Nat) : Scale :=
  if sclw == 0 then .fin false 1 0 else scaleOf sclw (lget 0 scales (c * sb + o / sclLen sclw))

/-- A resident block with its checksum-column entries (R83, R109, R121). -/
def mkSlot (wf : Fmt) (d spat sclw : Nat) (cols : List (List (Nat × Nat))) (scales : List Nat) (poi : Bool)
    (pcols : List Nat) : WSlot :=
  let sb := sclBytes d spat sclw
  let exps := (List.range 32).flatMap fun c => (List.range (max 1 sb)).map fun j =>
    scaleExp (colScale sclw sb scales c (j * sclLen sclw))
  let lo := exps.foldl min (exps.headD 0)
  let hi := exps.foldl max (exps.headD 0)
  let term (c : Nat) (e : Nat × Nat) : Int :=
    let sc := colScale sclw sb scales c e.1
    numUnits (fracBits wf sclw) (exactElem wf sclw e.2) * scaleInt sc * 2 ^ (scaleExp sc - lo).toNat
  let csum := (List.range (blkK d spat)).map fun o =>
    (cols.zipIdx.map fun col => ((col.1.filter (·.1 == o)).map (term col.2)).sum).sum
  ⟨cols, scales, if fmtNarrow wf then csum else [], lo, decide (hi - lo > 31), poi, pcols⟩

/-! ### Exact accumulation of a row (R48 to R59, R108, R648) -/

/-- The A operand of a row: element codes by K, scale bytes by scale block, markers. -/
structure ARow where
  el : List Nat
  scl : List Nat
  poi : Bool
  apx : Bool
  deriving DecidableEq, Repr

/-- The contributions outside the scale window found in a row: how many above and below, with the first one's detail
(R648); and whether an addition met an accumulator with another binary point (R52). -/
structure Window where
  mis : Bool
  above : Nat
  aboveAt : Nat
  below : Nat
  belowAt : Nat
  deriving DecidableEq, Repr

/-- `IDETAIL` of 0x0211 and 0x0212 (R648). -/
def winDetail (row col k : Nat) (d : Int) : Nat := row % 65536 + k * 2 ^ 16 + unsigned 11 d * 2 ^ 40 + col * 2 ^ 51

/-- Note what one block did. -/
def winNote (w : Window) (b : BlockIn) (row col k : Nat) : Window :=
  let det := winDetail row col k b.d
  let w := if b.above then { w with above := w.above + 1, aboveAt := if w.above == 0 then det else w.aboveAt } else w
  if b.below then { w with below := w.below + 1, belowAt := if w.below == 0 then det else w.belowAt } else w

/-- The parameters of an exact operation. -/
structure ExactOp where
  fa : Fmt
  fw : Fmt
  scla : Nat
  sclw : Nat
  sbase : Int
  sclow : Bool
  k : Nat
  deriving DecidableEq, Repr

/-- The parameters of a micro-op's exact operation. -/
def uOp (w : W64 × W64) : ExactOp := ⟨uAfmt w, uWfmt w, uScla w, uSclw w, uSbase w, uSclow w, uK w⟩

/-- The scale base in effect (R56). -/
def opBase (o : ExactOp) : Int := if o.scla == 0 && o.sclw == 0 then 0 else o.sbase

/-- The scale of A at K position `k`. -/
def aScale (o : ExactOp) (a : ARow) (k : Nat) : Scale :=
  if o.scla == 0 then .fin false 1 0 else scaleOf o.scla (lget 0 a.scl (k / sclLen o.scla))

/-- One column of one weight block added to an XP96: block by block in the order of K (R56 to R59). An accumulator that another micro-op left
with another binary point is poisoned (R52). -/
def addCol (o : ExactOp) (sb : Nat) (a : ARow) (b : WSlot) (kbase row c : Nat) (acc : Xp × Window) : Xp × Window :=
  let f := opPoint o.fa o.fw o.scla o.sclw o.sbase
  let dmax := opDmax o.fa o.fw o.scla o.sclw
  let u := fracBits o.fa o.scla + fracBits o.fw o.sclw
  let len := opSclLen o.scla o.sclw
  let ents := (lget [] b.cols c).filter fun e => decide (kbase + e.1 < o.k)
  let one (acc : Xp × Window) (lo hi : Nat) : Xp × Window :=
    let ps := (ents.filter fun e => decide (lo ≤ e.1) && decide (e.1 < hi)).map fun e =>
      numMul (exactElem o.fa o.scla (lget 0 a.el (kbase + e.1))) (exactElem o.fw o.sclw e.2)
    let dot := blockDot u ps
    let r := blockAdd f dmax (opBase o) o.sclow (aScale o a (kbase + lo)) (colScale o.sclw sb b.scales c lo) dot.1.p dot.2
    let z := xpAdd acc.1 r.add
    let w := winNote acc.2 r row c (kbase + lo)
    (z.1, { w with mis := w.mis || z.2 })
  let span := (ents.map (·.1 + 1)).foldl max 1
  if len == 0 then one acc 0 span
  else (List.range ((span + len - 1) / len)).foldl (fun acc j => one acc (j * len) (j * len + len)) acc

/-- The checksum column's contribution of one weight block (R108, R109). -/
def addCsum (o : ExactOp) (a : ARow) (b : WSlot) (kbase : Nat) : Int :=
  let len := opSclLen o.scla 0
  let terms := b.csum.zipIdx.filter fun e => decide (kbase + e.2 < o.k)
  let one (lo hi : Nat) : Int :=
    let s := ((terms.filter fun e => decide (lo ≤ e.2) && decide (e.2 < hi)).map fun e =>
      numUnits (fracBits o.fa o.scla) (exactElem o.fa o.scla (lget 0 a.el (kbase + e.2))) * e.1).sum
    let sc := aScale o a (kbase + lo)
    let e := scaleExp sc + b.kmin - opBase o
    let v := s * scaleInt sc
    if e ≥ 0 then v * 2 ^ e.toNat else v / 2 ^ (-e).toNat
  if len == 0 then one 0 terms.length.succ
  else ((List.range ((b.csum.length + len - 1) / len)).map fun j => one (j * len) (j * len + len)).sum

/-- The result of a row or a sweep in the accumulators. -/
structure RowOut where
  acc : AccRow
  win : Window
  deriving DecidableEq, Repr

/-- Clear accumulators of an operation with binary point `f` (R89). -/
def accClear (f : Int) : AccRow := ⟨List.replicate 32 (Xp.zero f), List.replicate 32 0, [], 0, false, false, false⟩

/-- Accumulate a row of an exact operation over weight blocks with their K bases. -/
def exactRow (o : ExactOp) (sb : Nat) (a : ARow) (bs : List (WSlot × Nat)) (row : Nat) (acc : AccRow) (win : Window) :
    RowOut :=
  let r := (List.range 32).foldl (fun (st : List Xp × Window) c =>
    let x0 := lget (Xp.zero 0) acc.xp c
    let z := bs.foldl (fun st b => addCol o sb a b.1 b.2 row c st) (x0, st.2)
    (st.1 ++ [z.1], z.2)) ([], win)
  let poi := acc.poi || a.poi || bs.any (·.1.poi)
  let xs := r.1.zipIdx.map fun x => if poi || bs.any (·.1.pcols.contains x.2) then { x.1 with poi := true } else x.1
  let cs := (bs.map fun b => addCsum o a b.1 b.2).sum
  ⟨{ acc with xp := xs, csum := acc.csum + BitVec.ofInt 96 cs, poi := poi, apx := acc.apx || a.apx,
              skip := acc.skip || bs.any (·.1.cskip) }, r.2⟩

/-- The checksum comparison is skipped for a row (R109). -/
def rowSkip (r : AccRow) : Bool := r.skip || r.xp.any fun x => x.inx || decide (x.spc ≠ .finite) || x.poi

/-- The sum of the 32 columns equals the checksum accumulator modulo 2^96 (R108). -/
def rowAgrees (r : AccRow) : Bool := (r.xp.foldl (fun acc x => acc + x.a) (0 : BitVec 96)) == r.csum

/-- An upset flips a bit of a column's accumulator, or of the checksum's (column 32). -/
def rowUpset (r : AccRow) (u : Nat × Nat) : AccRow :=
  let m : BitVec 96 := BitVec.ofNat 96 (2 ^ u.2)
  if u.1 == 32 then { r with csum := r.csum ^^^ m }
  else { r with xp := lmod r.xp u.1 fun x => { x with a := x.a ^^^ m } }

/-! ### Wide accumulation (R61, R62) -/

/-- A PAIR within 2^-44 of an exact finite value, normalised and with flushed halves (R46, R64), or not. -/
def pairNear (v : Num) (w : Nat) : Bool :=
  let x := decodeFmt .pair w
  let hi := bits w 0 32
  let err := numAbs (numSub x v)
  match v, ofF32 hi, numCmp err (numMul (numAbs v) (.fin false 1 (-44))) with
  | .fin .., .fin .., some .gt => false
  | .fin .., .fin .., some _ => decide (f32 x = hi) && decide ((canonCode .pair w).code = w)
  | _, _, _ => false

/-- The PAIR that a pair operation writes for the exact value `v`: a free choice within its bound (Table 2.6), and the
rounded value where the free one lies outside it (assumption 24). An infinity or NaN is written with lo = +0 (R64). -/
def pairChoose (op x y : Nat) (v : Num) : Conv :=
  let w := Config.pairBits op x y % 2 ^ 64
  let c := if pairNear v w then w else toPair v
  ⟨c, bits c 0 31 == 0 && !numIsZero v, false⟩

/-- Add a group sum to an accumulator of a wide operation (R61, R62); the answer says whether the result was flushed to zero. For a PAIR the
spec says only that the sum is added with TwoSum and renormalised; the model joins the error term of TwoSum to lo with one FP32 addition and
renormalises with a second TwoSum (assumption 102). -/
def wideAdd (accm : Nat) (pairIn : Bool) (acc : Nat) (v : Num) : Conv :=
  if accm == 2 then
    if pairIn then pairChoose 2 acc (toPair v) (numAdd (decodeFmt .pair acc) v)
    else
      let g := f32 v
      let t := twoSum (bits acc 0 32) g
      let lo := f32Add (bits acc 32 32) t.2
      let r := twoSum t.1 lo
      convPair false (numAdd (ofF32 r.1) (ofF32 r.2))
  else toF32 (numAdd (ofF32 acc) (ofF32 (f32 v)))

/-- The exact sum of a list of values. -/
def numSum : List Num → Num
  | [] => Num.zero
  | x :: l => l.foldl numAdd x

/-- Accumulate a row of a wide operation: group by group in the order of K. -/
def wideRow (fa : Fmt) (accm k : Nat) (a : ARow) (bs : List (WSlot × Nat)) (acc : AccRow) : AccRow :=
  let cols := (List.range 32).map fun c =>
    bs.foldl (fun (z : Nat × Bool) b =>
      let ps := ((lget [] b.1.cols c).filter fun e => decide (b.2 + e.1 < k)).map fun e =>
        numMul (decodeFmt fa (lget 0 a.el (b.2 + e.1))) (decodeFmt fa e.2)
      if ps.isEmpty then z else let r := wideAdd accm (fa == .pair) z.1 (numSum ps); (r.code, r.flushed))
      (lget 0 acc.wide c, lget false acc.wfl c)
  { acc with wide := cols.map (·.1), wfl := if cols.any (·.2) then cols.map (·.2) else [],
             poi := acc.poi || a.poi || bs.any (fun b => b.1.poi || !b.1.pcols.isEmpty), apx := acc.apx || a.apx }

/-! ### Vectors and stages (3.6) -/

/-- A vector: the format and codes of its lanes, and what the zeros among them stand for (1 a flushed result, 2 a NaN; R76), lane by lane as
far as the list goes. -/
structure Vec where
  fmt : Fmt
  el : List Nat
  fl : List Nat
  deriving DecidableEq, Repr

/-- An empty vector. -/
def Vec.empty : Vec := ⟨.fp32, [], []⟩

/-- A vector of codes. -/
def Vec.of (f : Fmt) (l : List Nat) : Vec := ⟨f, l, []⟩

/-- A vector of conversion results. -/
def Vec.conv (f : Fmt) (l : List Conv) : Vec :=
  ⟨f, l.map (·.code), if l.any (fun c => c.flushed || c.nanZero) then l.map (fun c => if c.nanZero then 2 else ofBit c.flushed) else []⟩

/-- Lanes of a format in a vector of 1,024 bits. -/
def vecLanes (f : Fmt) : Nat := if fmtBits f == 0 then 0 else 1024 / fmtBits f

/-- Fields of a stage word (Table 3.7). -/
def sVop (w : Nat) : Nat := bits w 0 8
def sSrca (w : Nat) : Nat := bits w 8 3
def sSrcb (w : Nat) : Nat := bits w 11 3
def sQsel (w : Nat) : Nat := bits w 14 3
def sCsel (w : Nat) : Nat := bits w 17 2
def sVfmt (w : Nat) : Fmt := fmtOf (bits w 19 4)
def sRnd (w : Nat) : Nat := bits w 23 3
def sOvf (w : Nat) : Bool := bit w 26
def sOvm (w : Nat) : Bool := bit w 27
def sPred (w : Nat) : Bool := bit w 28
def sImm (w : Nat) : Nat := bits w 32 32

/-- An operation that occupies two stages (Tables 3.9, 3.10). -/
def sTwo (w : Nat) : Bool :=
  let o := sVop w
  decide (0x20 ≤ o) && decide (o ≤ 0x29) || o == 0x33 || o == 0x34 || o == 0x40 || o == 0x44

/-- The value of a lane. -/
def laneVal (v : Vec) (i : Nat) : Num :=
  if i < v.el.length then decodeFmt v.fmt (lget 0 v.el i) else decodeFmt v.fmt (Config.laneGap (fmtCode v.fmt) i)

/-- The code of a lane. -/
def laneCode (v : Vec) (i : Nat) : Nat := if i < v.el.length then lget 0 v.el i else Config.laneGap (fmtCode v.fmt) i

/-- How the stages of a row round: the region's seed and step, the tensor identifier, and the element index of lane 0 (R70, R99). -/
structure RndEnv where
  seed : W64
  tid : Nat
  step : Nat
  ix : Nat
  deriving DecidableEq, Repr

/-- The 24 random bits at a place for a lane (R70). -/
def rndBits (e : RndEnv) (place lane : Nat) : Nat := (srGen e.seed e.tid (e.ix + lane) e.step place).toNat >>> 8

/-- Convert a value in a stage. -/
def stConv (e : RndEnv) (st w i : Nat) (v : Num) : Conv :=
  conv (sVfmt w) (rndOf (sRnd w) (rndBits e (1 + st) i)) (sOvm w) (sOvf w) false v

/-- A lane that passes a stage unchanged (`PASS`, `VSEL`, a false predicate): its own code where its format is `f`, with the canonical NaN and the
flushing of R42 and R46, else its value converted. -/
def stPass (e : RndEnv) (st w : Nat) (f : Fmt) (a : Vec) (i : Nat) : Conv :=
  if a.fmt == f then
    let c := canonCode f (laneCode a i)
    let g := lget 0 a.fl i
    ⟨c.code, c.flushed || g == 1, c.nanZero || g == 2⟩
  else conv f (rndOf (sRnd w) (rndBits e (1 + st) i)) (sOvm w) (sOvf w) false (laneVal a i)

/-- The larger or smaller of two values; a NaN operand gives NaN. -/
def pickNum (op a b : Nat) (fa fb : Fmt) (wantMax : Bool) : Num :=
  let x := decodeFmt fa a
  let y := decodeFmt fb b
  if numIsZero x && numIsZero y && numNeg x != numNeg y then decodeFmt fa (Config.vecZeros op a b)
  else match numCmp x y with
    | none => .nan
    | some .lt => if wantMax then y else x
    | some _ => if wantMax then x else y

/-- A comparison of `VCMP` (Table 3.8). -/
def cmpNum (c : Nat) (x y : Num) : Bool :=
  match numCmp x y with
  | none => c == 1
  | some o =>
    match c with
    | 0 => o == .eq | 1 => o != .eq | 2 => o == .lt | 3 => o != .gt | 4 => o == .gt | 5 => o != .lt | _ => false

/-- Round toward minus infinity to an integer. -/
def numFloor : Num → Option Int
  | .fin s m e =>
    let q := roundAt .rdn s m e 0
    some (if s then -(q : Int) else q)
  | _ => none

/-- One level of the pairwise tree of `VRSUM`: adjacent values added, each sum converted (R102). Under SR the sum of a pair draws at the index of
the pair within its level, since the spec gives a sum of lanes no element index of its own (assumption 103). -/
def pairUp (f : Nat → Num → Num) : Nat → List Num → List Num
  | i, a :: b :: l => f i (numAdd a b) :: pairUp f (i + 1) l
  | _, l => l

/-- The tree of `VRSUM`. -/
def treeSum (f : Nat → Num → Num) : Nat → List Num → Num
  | 0, l => l.headD Num.zero
  | n + 1, l => if l.length ≤ 1 then l.headD Num.zero else treeSum f n (pairUp f 0 l)

/-- The first lane that holds the largest (or smallest) value, or the first NaN lane (R102). -/
def bestLane (wantMax : Bool) (vs : List Num) : Nat :=
  match vs.findIdx? (· == .nan) with
  | some i => i
  | none =>
    (vs.zipIdx.foldl (fun (b : Nat × Num) e =>
      match numCmp e.1 b.2 with
      | some .gt => if wantMax then (e.2, e.1) else b
      | some .lt => if wantMax then b else (e.2, e.1)
      | _ => b) (0, vs.headD Num.zero)).1

/-- Insert a value into the list that `VTOPK` keeps in descending order; a tie goes to the lower index, that is, the
newcomer comes after (R103). -/
def topIns (f : Fmt) (x : Nat × Nat) : List (Nat × Nat) → List (Nat × Nat)
  | [] => [x]
  | y :: l =>
    match numCmp (decodeFmt f x.1) (decodeFmt f y.1) with
    | some .gt => x :: y :: l
    | _ => y :: topIns f x l

/-- The largest normal exponent of an element format (R100). -/
def mxEmax : Fmt → Int
  | .e4m3 => 8 | .e5m2 => 15 | .e3m2 => 4 | .e2m3 => 2 | .fp4 => 2 | _ => 0

/-- `VMXQ`: the elements and the scale (R100). -/
def mxQuant (e : RndEnv) (st w : Nat) (vs : List Num) : List Nat × Nat :=
  if vs.any (fun v => match v with | .fin .. => false | _ => true) then (vs.map fun _ => 0, 0xFF)
  else
    let amax := vs.foldl (fun (b : Num) v => match numCmp (numAbs v) b with | some .gt => numAbs v | _ => b) Num.zero
    match amax with
    | .fin _ m x =>
      if m == 0 then (vs.map fun _ => 0, 0)
      else
        let s0 : Int := (Nat.log2 m : Int) + x - mxEmax (sVfmt w)
        let s := max (-127) (min 127 s0)
        let elem (v : Num) (i : Nat) : Nat :=
          let scaled := numMul v (.fin false 1 (-s))
          let r := rndOf (sRnd w) (rndBits e (1 + st) i)
          if sVfmt w == .int8 then (convInt .int8 r false (numMul scaled (.fin false 1 6))).code
          else
            let sp := fmtSpecial (sVfmt w) false
            let c := conv (sVfmt w) r true false false scaled
            match fmtLay (sVfmt w), numCmp (numAbs scaled) (decodeFmt (sVfmt w) sp.1) with
            | some l, some .gt => if numNeg scaled then sp.1 + 2 ^ (l.e + l.m) else sp.1
            | _, _ => c.code
        (vs.zipIdx.map fun v => elem v.1 v.2, (s + 127).toNat)
    | _ => (vs.map fun _ => 0, 0xFF)

/-- What passes from one stage to the next. `xp` is the wide bypass; `act` is source a of the last `VCMP`; `valid` counts the lanes that stand
for neurons in a gathered row, where the others are padding (R131). -/
structure Pass where
  xp : Option (List Xp)
  res : Vec
  sec : Vec
  pred : Option (List Bool)
  act : Vec
  valid : Option Nat
  topk : List (Nat × Nat)
  seen : Nat
  stop : Bool
  poi : Bool
  apx : Bool
  deriving DecidableEq, Repr

/-- The predicate of a lane. -/
def lanePred (p : Pass) (i : Nat) : Bool := match p.pred with | some l => lget true l i | none => true

/-- Lane-wise results over `n` lanes. -/
def lanes (n : Nat) (f : Nat → Nat) : List Nat := (List.range n).map f

/-- Lane-wise conversions over `n` lanes. -/
def lanesC (n : Nat) (f : Nat → Conv) : List Conv := (List.range n).map f

/-- A result of a stage in place of what came before. -/
def Pass.put (p : Pass) (r sec : Vec) : Pass := { p with xp := none, res := r, sec := sec }

/-- The operation of stage `st` on its sources (Tables 3.8 to 3.10). `creg0` is lane 0 of `CREG` `CSEL`. `PCVT` and `XCVT` take v of R66
step 1, with `OSHIFT` applied: Table 2.6 says only "XP96 v" for `PCVT` (assumption 104). The scale of `VMXQ` fills one lane of the second vector,
the number of lanes being left open (assumption 105). -/
def stageOp (e : RndEnv) (oshift : Int) (st w : Nat) (a b : Vec) (creg0 : Nat) (p : Pass) : Pass :=
  let f := sVfmt w
  let n := min a.el.length (vecLanes f)
  let x (i : Nat) : Num := laneVal a i
  let y (i : Nat) : Num := laneVal b i
  let out (v : Nat → Num) : Pass := p.put (Vec.conv f (lanesC n fun i => stConv e st w i (v i))) Vec.empty
  let raw (g : Nat → Nat) : Pass := p.put (Vec.of f (lanes n g)) Vec.empty
  let immN : Num := if fmtInt f then decodeFmt .int32 (sImm w) else ofF32 (sImm w)
  let pairs (op : Nat → Nat → Nat × Nat) : Pass :=
    let rs := (List.range a.el.length).map fun i => op (laneCode a i) (laneCode b i)
    p.put (Vec.conv .fp32 (rs.map fun r => canon32 r.1)) (Vec.conv .fp32 (rs.map fun r => canon32 r.2))
  let pairOp (op : Nat) (g : Num → Num → Num) : Pass :=
    p.put (Vec.conv .pair (lanesC (min 16 a.el.length) fun i => pairChoose op (laneCode a i) (laneCode b i) (g (x i) (y i)))) Vec.empty
  match sVop w with
  | 0x00 => p.put (Vec.conv a.fmt (lanesC a.el.length (stPass e st w a.fmt a))) Vec.empty
  | 0x01 => out fun i => numAdd (x i) (y i)
  | 0x02 => out fun i => numSub (x i) (y i)
  | 0x03 => out fun i => numMul (x i) (y i)
  | 0x04 => out fun i => numAdd (numMul (x i) (y i)) immN
  | 0x05 => out fun i => pickNum 5 (laneCode a i) (laneCode b i) a.fmt b.fmt true
  | 0x06 => out fun i => pickNum 6 (laneCode a i) (laneCode b i) a.fmt b.fmt false
  | 0x07 => out fun i => numAbs (x i)
  | 0x08 => out fun i => numFlip (x i)
  | 0x09 =>
    let pr := (List.range n).map fun i => cmpNum (bits (sImm w) 0 3) (x i) (y i)
    { out (fun i => numOfInt (ofBit (lget false pr i))) with pred := some pr, act := a }
  | 0x0A => raw fun i => laneCode a i &&& laneCode b i
  | 0x0B => raw fun i => laneCode a i ||| laneCode b i
  | 0x0C => raw fun i => laneCode a i ^^^ laneCode b i
  | 0x0D => out fun i => numMul (x i) (.fin false 1 (bits (laneCode b i) 0 5))
  | 0x0E => out fun i => numOfInt (signed 32 (laneCode a i) / 2 ^ bits (laneCode b i) 0 5)
  | 0x0F => out fun i => match x i with
    | .nan => .nan
    | v => if numNeg v && !numIsZero v then numMul v (ofF32 (sImm w)) else v
  | 0x10 => out x
  | 0x11 =>
    p.put (Vec.conv f ((p.xp.getD []).zipIdx.map fun v =>
      conv f (rndOf (sRnd w) (rndBits e (1 + st) v.2)) (sOvm w) (sOvf w) true (xpNum v.1 oshift))) Vec.empty
  | 0x12 => out fun i => numMul (x i) (y i)
  | 0x13 =>
    let r := mxQuant e st w ((List.range (min 32 a.el.length)).map x)
    p.put (Vec.of f r.1) (Vec.of .e8m0 [r.2])
  | 0x30 => pairs twoSum
  | 0x31 => pairs fun c d =>
    match numCmp (numAbs (ofF32 c)) (numAbs (ofF32 d)) with
    | some .lt => Config.fastTwoSum c d
    | _ => twoSum c d
  | 0x32 => pairs twoProd
  | 0x33 => pairOp 0 numAdd
  | 0x34 => pairOp 1 numMul
  | 0x35 => p.put (Vec.conv .pair (lanesC (min 16 a.el.length) fun i => convPair false (numAdd (x i) (y i)))) Vec.empty
  | 0x36 => p.put (Vec.conv .pair ((p.xp.getD []).map fun v => convPair true (xpNum v oshift))) Vec.empty
  | 0x40 =>
    let step (i : Nat) (v : Num) : Num :=
      if f == .int32 then v else decodeFmt f (stConv e st w i v).code
    let r := treeSum step 10 ((List.range a.el.length).map x)
    out fun _ => r
  | 0x41 => let i := bestLane true ((List.range a.el.length).map x); out fun _ => x i
  | 0x42 => let i := bestLane false ((List.range a.el.length).map x); out fun _ => x i
  | 0x43 =>
    let i := bestLane true ((List.range a.el.length).map x)
    { out (fun _ => x i) with sec := Vec.of .int32 (lanes n fun _ => i) }
  | 0x44 =>
    let k := bits (sImm w) 0 6
    let ins (l : List (Nat × Nat)) (i : Nat) : List (Nat × Nat) :=
      match x i with
      | .nan => l
      | v => (topIns f ((stConv e st w i v).code, p.seen + i) l).take k
    { p.put Vec.empty Vec.empty with topk := (List.range a.el.length).foldl ins p.topk, seen := p.seen + a.el.length, stop := true }
  | 0x45 =>
    let bin (i : Nat) : Nat :=
      match numMul (numSub (x i) (decodeFmt f creg0)) (y i) with
      | .nan => sImm w
      | .inf s => if s then 0 else sImm w - 1
      | v => match numFloor v with
        | some z => (max 0 (min (sImm w - 1 : Int) z)).toNat
        | none => sImm w
    p.put (Vec.of .int32 (lanes a.el.length bin)) Vec.empty
  | 0x50 => p.put (Vec.conv f (lanesC n fun i => stPass e st w f (if lanePred p i then a else b) i)) Vec.empty
  | o =>
    if 0x20 ≤ o && o ≤ 0x29 then
      p.put (Vec.conv .fp32 (lanesC a.el.length fun i => vecFunc o (x i) (laneCode a i) (sImm w))) Vec.empty
    else { p with xp := none, res := a, sec := Vec.empty }

/-- A stage with its predicate: lanes whose predicate is false pass source a unchanged (Table 3.7). -/
def stageRun (e : RndEnv) (oshift : Int) (st w : Nat) (a b : Vec) (creg0 : Nat) (p : Pass) : Pass :=
  let r := stageOp e oshift st w a b creg0 p
  if sPred w && p.pred.isSome then
    let g := r.res.fmt
    { r with res := Vec.conv g (r.res.el.zipIdx.map fun v =>
        if lanePred p v.2 then ⟨v.1, lget 0 r.res.fl v.2 == 1, lget 0 r.res.fl v.2 == 2⟩ else stPass e st w g a v.2) }
  else r

end Sys2Proof.Machine
end

