-- ==== Sys2Proof/Machine/HbmMap.lean ====
section
/-!
DEFINITION. The module address map (R360), segments (R363, R364) and how a unit of the wafer reaches HBM (11.4).
-/
namespace Sys2Proof.Machine
open Sys2Proof

/-- Fields of a segment entry (Table 11.3). -/
def sgSv (e : W64 × W64) : Bool := bit e.1.toNat 63
def sgMir (e : W64 × W64) : Bool := bit e.1.toNat 62
def sgProt (e : W64 × W64) : Bool := bit e.1.toNat 61
def sgDeg (e : W64 × W64) : Bool := bit e.1.toNat 60
def sgSet (e : W64 × W64) : Nat := bits e.1.toNat 32 24
def sgNpg (e : W64 × W64) : Nat := bits e.1.toNat 0 28
def sgLbase (e : W64 × W64) : Nat := bits e.2.toNat 36 24
def sgMbase (e : W64 × W64) : Nat := bits e.2.toNat 0 36

/-- The primaries of a segment in ascending order (R364). -/
def sgPrims (e : W64 × W64) : List Nat :=
  (List.range 24).filter fun m => bit (sgSet e) m && (!sgMir e || m % 2 == 0)

/-- The segment that holds a module page. -/
def segOf (s : State) (page : Nat) : Option (W64 × W64) :=
  (s.seg.find? fun e => sgSv e.2 && decide (sgMbase e.2 ≤ page) && decide (page < sgMbase e.2 + sgNpg e.2)).map (·.2)

/-- Where an HBM address lies: the primary MSD, the local address and its segment (R364). -/
structure HbmAt where
  msd : Nat
  lo : Nat
  seg : W64 × W64
  deriving DecidableEq, Repr

/-- The place of a module address in HBM; `none` is outside every segment (R364). -/
def hbmAt (s : State) (a : Nat) : Option HbmAt :=
  match segOf s (a / 4096) with
  | none => none
  | some e =>
    let p := a / 4096 - sgMbase e
    let ps := sgPrims e
    if ps.isEmpty then none
    else some ⟨lget 0 ps (p % ps.length), (sgLbase e + p / ps.length) * 4096 + a % 4096, e⟩

/-- A die is fenced (11.3: the die fence mask; bit by die ID). -/
def dieFenced (s : State) (d : Nat) : Bool := bit s.dieFence.toNat d

/-- The MSD that a read or write of an HBM page enters: the primary, or its mirror when the primary is fenced
(R365). -/
def hbmTarget (s : State) (h : HbmAt) : Nat :=
  if sgMir h.seg && (dieFenced s (dieMsd h.msd) || sgDeg h.seg && (mget Msd.reset s.msds h.msd).resilver.isSome) then h.msd + 1 else h.msd

/-- The edge-form address of the MSD that serves an HBM address: attach port local page mod 8 (R364, 11.4). -/
def hbmEdge (s : State) (h : HbmAt) : Nat := edgeMake (dieMsd (hbmTarget s h)) (h.lo / 4096 % 8) 0

/-- Send an `MWR` write from a tile; an unmapped address writes nothing and raises 0x0110 (R360). `cls` is 0 latency, 1
bulk, 2 system (Table 11.6). -/
def tileMwr (s : State) (t src a req cls : Nat) (data : List Byte) (poi : List Bool) : State :=
  match hbmAt s a with
  | some h => inject s t src (hbmEdge s h) 0 (epochAt s t) (.mwr a (req + cls * 128) false .done data poi)
  | none => raiseInc s (tileInc s 0x0110 utTile t 0 a)

end Sys2Proof.Machine
end

