-- ==== Sys2Proof/Machine/HostIo.lean ====
section
/-!
DEFINITION. What the module does toward its hosts: interrupt causes and MSI-X messages (13.6), writes into host memory,
completion records (R439, R442, R457); and the engines' commands and transactions as every rule uses them (14.1, 14.6).
-/
namespace Sys2Proof.Machine
open Sys2Proof

/-- A host port. -/
def getHost (s : State) (p : Nat) : HostPort := mget HostPort.reset s.hosts p
/-- Replace a host port. -/
def setHost (s : State) (p : Nat) (h : HostPort) : State := { s with hosts := mset HostPort.reset s.hosts p h }
/-- Change a host port. -/
def modHost (s : State) (p : Nat) (f : HostPort → HostPort) : State := setHost s p (f (getHost s p))

/-- A port's link is up and no reset of it is in progress (Table 13.5). -/
def portTold (s : State) (p : Nat) : Bool :=
  let h := getHost s p
  h.linkUp && !h.perst && h.resetAt.isNone

/-- A port answers BAR0: its link is up, no reset is in progress, and Memory Space Enable is set (R445). -/
def hostUp (s : State) (p : Nat) : Bool :=
  let h := getHost s p
  h.linkUp && !h.perst && h.resetAt.isNone && h.memEn && s.boot.step != 0 && s.boot.mst != 0

/-- A port holds the host semaphore: it is the holder, and its lease has not ended (R430, R432). -/
def holdsSem (s : State) (p : Nat) : Bool := s.sem.holder == some p && decide (nowPs s ≤ s.sem.lease)

/-- The ring of an engine at a port. -/
def getRing (s : State) (p e : Nat) : HRing := mget HRing.reset (getHost s p).rings e
/-- Replace a ring. -/
def setRing (s : State) (p e : Nat) (r : HRing) : State :=
  modHost s p fun h => { h with rings := mset HRing.reset h.rings e r }

/-- `MOD_ID` (13.3.1). -/
def modId (s : State) : Nat := s.part.gib * 2 ^ 32 + s.part.stkh * 2 ^ 24 + s.part.rev * 2 ^ 16 + ofBit s.part.es * 2 ^ 8 + 2

/-! ### Interrupts (R440 to R443) -/

/-- The MSI-X vector of a cause bit (Table 13.4). -/
def causeVec (b : Nat) : Nat := if b < 4 then 2 + b else if b == 5 then 1 else 0

/-- A vector's messages are withheld (R443). -/
def vecHeld (h : HostPort) (v : Nat) : Bool := !h.msixEn || h.msixFm || (mget Msix.reset h.msix v).mask

/-- Send a message on a vector, or withhold it and set its pending bit (R443). -/
def sendVec (s : State) (p v : Nat) : State :=
  modHost s p fun h =>
    if vecHeld h v then { h with pba := mset false h.pba v true }
    else { h with sent := mset 0 h.sent v (mget 0 h.sent v + 1), pba := mset false h.pba v false }

/-- Set a cause bit of one port; an unmasked bit that rises sends its message (R440, R441). -/
def setCause (s : State) (p b : Nat) : State :=
  let h := getHost s p
  if bit h.cause b then s
  else
    let s := setHost s p { h with cause := h.cause + 2 ^ b }
    if bit h.mask b then s else sendVec s p (causeVec b)

/-- Set a cause bit in both ports (R440). -/
def setCauses (s : State) (b : Nat) : State := setCause (setCause s 0 b) 1 b

/-- Cause bits of `INT_CAUSE`. -/
def cMbx : Nat := 5
def cState : Nat := 6
def cRing : Nat := 7
def cSemFree : Nat := 8
def cSemLost : Nat := 9
def cSnEng : Nat := 10
def cSnRel : Nat := 11
def cAlert : Nat := 12
def cTlock : Nat := 13
def cPeer : Nat := 14
def cUpd : Nat := 15

/-- Write bytes into the host's memory through a port. -/
def hostWrite (s : State) (p a : Nat) (bs : List Byte) : State :=
  modHost s p fun h => { h with mem := bs.zipIdx.foldl (fun m e => mput m (a + e.2) e.1) h.mem }

/-! ### Engines -/

/-- An engine. -/
def getEng (s : State) (e : Nat) : Eng := mget Eng.idle s.eng.engs e
/-- Replace an engine. -/
def setEng (s : State) (e : Nat) (x : Eng) : State := { s with eng := { s.eng with engs := mset Eng.idle s.eng.engs e x } }
/-- Change the commands of an engine. -/
def modCmds (s : State) (e : Nat) (f : List Cmd → List Cmd) : State :=
  let x := getEng s e
  setEng s e { x with cmds := f x.cmds }
/-- Set the phase of a command. -/
def setPh (s : State) (c : Cmd) (ph : CPh) : State :=
  modCmds s c.eng fun l => l.map fun x => if x.id == c.id then { x with ph := ph } else x

/-- Word `w` of entry `e` of a command (R454). -/
def cmdWord (c : Cmd) (e w : Nat) : Nat := (lget 0 c.words (8 * e + w)).toNat

/-- The opcodes that change staged state (Table 14.4). -/
def stageable (opc : Nat) : Bool := [0x10, 0x15, 0x31, 0x32, 0x33, 0x34, 0x35, 0x37, 0x43].contains opc

/-- The 32 bytes of a completion record (Table 14.6). -/
def recordBytes (s : State) (c : Cmd) (o : Outc) (detail : Nat) (ph : Bool) : List Byte :=
  leBytes 8 (c.seq * 2 ^ 32 + c.eng * 2 ^ 24 + c.opc * 2 ^ 16 + ofBit ph * 2 ^ 15 + ofBit c.thr * 2 ^ 14 +
    ofBit c.txm * 2 ^ 13 + outcCode o) ++
  leBytes 8 detail ++ leBytes 8 c.atime ++
  leBytes 8 (min (nowNs s - c.atime) (2 ^ 36 - 1) * 2 ^ 28 + min c.defer (2 ^ 28 - 1))

/-- The completion message of a ring after a record (R442). -/
def cplSignal (s : State) (p e : Nat) : State :=
  let r := getRing s p e
  if !r.arm then s
  else if r.cdly == 0 then
    let s := setRing s p e { r with arm := false }
    if r.cvec < 16 then s else sendVec s p r.cvec
  else if r.due.isSome then s
  else setRing s p e { r with due := some (nowPs s + r.cdly * 1000000) }

/-- Write the completion record of a command (R439, R442, R457); none after a reset of its port (Table 13.5). -/
def writeRecord (s : State) (c : Cmd) (o : Outc) (detail : Nat) : State :=
  if c.norec then s
  else
    let r := getRing s c.port c.eng
    let s := hostWrite s c.port (r.cbase + 32 * r.ctail) (recordBytes s c o detail r.pass)
    let last := decide (r.ctail + 1 ≥ r.csize * 128)
    let r := { r with ctail := if last then 0 else r.ctail + 1, pass := if last then !r.pass else r.pass, out := r.out - 1 }
    cplSignal (setRing s c.port c.eng r) c.port c.eng

/-- Complete a command of an engine. -/
def finishCmd (s : State) (c : Cmd) (o : Outc) (detail : Nat) : State :=
  writeRecord (modCmds s c.eng fun l => l.filter fun x => x.id != c.id) c o detail

/-- Complete a command with a reason (Table 14.7). -/
def failCmd (s : State) (c : Cmd) (o : Outc) (reason low : Nat) : State := finishCmd s c o (reason * 2 ^ 56 + low % 2 ^ 56)

/-- The command an engine of one command at a time is carrying out: the first of its list, if it has started. -/
def curCmd (s : State) (e : Nat) : Option Cmd :=
  match (getEng s e).cmds with
  | c :: _ => if c.ph = .ready then none else some c
  | [] => none

/-- A command may start (R448): no earlier command of its ring is out when it waits. -/
def waitOk (s : State) (c : Cmd) : Bool :=
  !c.wait || !((getEng s c.eng).cmds.takeWhile (·.id != c.id)).any (·.port == c.port) &&
    !(s.eng.txns.any fun x => (x.staged ++ x.closer.toList).any fun m => m.eng == c.eng && m.port == c.port && decide (m.id < c.id))

/-- The next command that a one-at-a-time engine starts, if it has the opcode asked for. -/
def nextCmd (s : State) (e opc : Nat) : Option Cmd :=
  match (getEng s e).cmds with
  | c :: _ => if c.ph = .ready && c.opc == opc && waitOk s c && s.boot.mst == 5 then some c else none
  | [] => none

/-! ### Transactions and waves -/

/-- The transaction of a tag. -/
def txnOf (s : State) (tag : Nat) : Option Txn := s.eng.txns.find? (·.tag == tag)
/-- The transaction open at a port under a handle. -/
def txnAt (s : State) (p h : Nat) : Option Txn := s.eng.txns.find? fun x => x.port == p && x.handle == h
/-- Change a transaction. -/
def modTxn (s : State) (tag : Nat) (f : Txn → Txn) : State :=
  { s with eng := { s.eng with txns := s.eng.txns.map fun x => if x.tag == tag then f x else x } }
/-- Remove a transaction. -/
def delTxn (s : State) (tag : Nat) : State :=
  { s with eng := { s.eng with txns := s.eng.txns.filter fun x => x.tag != tag } }

/-- The next tag not in use after the last (R458). -/
def freshTag (s : State) : Nat :=
  let l := (List.range 64).map fun i => (s.eng.lastTag + i) % 4095 + 1
  (l.find? fun t => !(s.eng.txns.any (·.tag == t))).getD 1

/-- A region mask (Table 9.9). -/
def maskOf (rs : List Nat) : Nat := rs.eraseDups.foldl (fun m r => m + 2 ^ r) 0

/-- Ask the root for a wave (R323). -/
def requestWave (s : State) (w : Wave) : State :=
  { s with lamp := { s.lamp with pending := s.lamp.pending ++ [w] } }

/-- The regions a change names. -/
def chgRegions : Chg → List Nat
  | .image r .. | .step r _ | .restart r | .start r => [r]
  | .sram .. | .wickMem .. | .creg .. | .dieReg .. | .inst .. | .tmpl .. | .guard .. | .parse .. | .wgx .. | .seg .. | .dieFence _ | .lost ..
  | .colmap .. | .brk .. | .unsuppress _ => []

/-- The regions of a transaction, which its wave names (Table 9.9). -/
def txnRegions (x : Txn) : List Nat := x.regs ++ x.chgs.flatMap chgRegions

/-- Ask for the COMMIT or ABORT wave of a transaction. -/
def waveTxn (s : State) (tag : Nat) (commit : Bool) (o : Outc) (reason : Nat) : State :=
  match txnOf s tag with
  | some x =>
    let s := modTxn s tag fun x => { x with ph := .waved commit, outc := o, reason := reason }
    requestWave s (Wave.ask (if commit then .commit else .abort) tag false (BitVec.ofNat 64 (maskOf (txnRegions x))) .none)
  | none => s

end Sys2Proof.Machine
end

