-- ==== Sys2Proof/Machine/RegionStop.lean ====
section
/-!
DEFINITION. Stopping a region (R276): what its cores, tickets and tags, the engine's command and a transaction that
quiesces it become.
-/
namespace Sys2Proof.Machine
open Sys2Proof

/-- Write a general register; `g0` discards writes (Table 6.1). -/
def wkSetReg (w : Wick) (r : Nat) (v : Reg) : Wick :=
  if r == 0 then w else { w with regs := mset Reg.zero w.regs r v }

/-- Read a general register; `g0` reads as zero (Table 6.1). -/
def wkReg (w : Wick) (r : Nat) : Reg := if r == 0 then Reg.zero else mget Reg.zero w.regs r

/-- End a `SENDB` with an outcome: `gd` is written, never poisoned (R201), and the core goes on (R225). -/
def wkEndSendb (w : Wick) (o : Outc) : Wick :=
  match w.sendb with
  | some b =>
    { wkSetReg w b.gd ⟨BitVec.ofNat 32 (outcCode o), false, false⟩ with
      sendb := none, pc := w.pc + 4, instret := w.instret + 1 }
  | none => w

/-- Resolve every pending ticket with TIMEOUT (R224). -/
def wkTimeoutTickets (w : Wick) : Wick :=
  { w with tickets := w.tickets.map fun e =>
      if e.2.pending then (e.1, { e.2 with pending := false, outc := .timeout }) else e }

/-- A core of a region that stops in cycle `now` (R276, R224, R226, R196). -/
def stopWick (now : Nat) (w : Wick) : Wick :=
  let w := wkTimeoutTickets w
  let w := match w.sendb with
    | some b => wkStall (wkEndSendb w .timeout) stOutput (now - b.since)
    | none => w
  { w with tags := [], run := if w.run = .running then .stopped else w.run }

/-- The units of a region's tiles stop; contents are kept (R276). The odd core of a pair ends the `SENDB` of its even core with it (R203). -/
def stopCores (s : State) (r : Nat) : State :=
  let g := getRegion s r
  let at_ := s.wicks.filter fun e => inRegion g (e.1 / 48)
  let s := at_.foldl (fun s e => setWick s (e.1 / 48) (e.1 % 48) (stopWick (cyclesOf s (e.1 / 48)) e.2)) s
  (at_.filter fun e => e.2.sendb.isSome && e.1 % 2 == 0 && bit e.2.core.toNat 16).foldl (fun s e =>
    modWick s (e.1 / 48) (e.1 % 48 + 1) fun b => { wkEndSendb { b with sendb := e.2.sendb } .timeout with sendb := b.sendb }) s

/-- The engine's side of a stop (R276, R280): its current command completes with the outcome given, unless it waits for
the wave of its transaction, and a transaction that quiesces the region aborts. -/
def engStopped (s : State) (r : Nat) (o : Outc) : State :=
  let s := (s.eng.txns.filter fun x => x.ph = .quiesce && x.regs.contains r).foldl
    (fun s x => waveTxn s x.tag false .aborted 0x0D) s
  match curCmd s r with
  | some c =>
    match c.ph with
    | .wave _ => s
    | _ => failCmd s c o 0 0
  | none => s

/-- A region stops (R276): inputs gated, cores stopped, the engine's command ended with `o`. -/
def stopRegionAs (s : State) (r : Nat) (o : Outc) : State :=
  let g := getRegion s r
  if g.st = .empty || g.st = .stopped then s
  else engStopped (modRegion (stopCores s r) r fun x => { x with st := .stopped, gated := true, drain := none }) r o

/-- A region stops for a fault (R276). In a frozen region the fault is acted on once it is released (R325). -/
def stopRegion (s : State) (r : Nat) : State :=
  let g := getRegion s r
  if g.frozenAt.isSome && g.st ≠ .empty then modRegion s r fun x => { x with stopDue := true } else stopRegionAs s r .fault

/-- The region that owns a tile stops, if there is one. -/
def stopTileRegion (s : State) (t : Nat) : State :=
  match regionOf s t with
  | some r => stopRegion s r
  | none => s

end Sys2Proof.Machine
end

