-- ==== Sys2Proof/Machine/Trace.lean ====
section
/-!
DEFINITION. The trace (17.5): holding, writing and dropping records of traced events.
-/
namespace Sys2Proof.Machine
open Sys2Proof

/-- The tiles between two corners in ascending order. -/
def cornerTiles (t0 t1 : Nat) : List Nat :=
  rectTiles (min (tileX t0) (tileX t1)) (min (tileY t0) (tileY t1)) (max (tileX t0) (tileX t1)) (max (tileY t0) (tileY t1))

/-- Records in a slice (R536). -/
def traceSlice (s : State) : Nat := s.trace.pages * 4096 / (16 * (cornerTiles s.trace.t0 s.trace.t1).length)

/-- The 16 bytes of a trace record (Table 17.6). -/
def traceBytes (t : Nat) (r : TraceRec) : List Byte :=
  leBytes 8 r.time ++ leBytes 8 (t * 2 ^ 50 + r.utyp * 2 ^ 46 + r.uidx * 2 ^ 40 + r.ev * 2 ^ 32 + r.det % 2 ^ 32)

/-- Write out held records of a tile, two to a packet, since an `MWR` carries a multiple of 32 bytes (R367); a last
single record is written with an empty one behind it when `all` is set. -/
def traceFlush (s : State) (t : Nat) (all : Bool) : Nat → State
  | 0 => s
  | n + 1 =>
    let sl := traceSlice s
    let pos := mget 0 s.trace.pos t
    let k := ((cornerTiles s.trace.t0 s.trace.t1).findIdx? (· == t)).getD 0
    match mget [] s.trace.held t with
    | [] => s
    | a :: rest =>
      let pos := if s.trace.wrap && decide (pos ≥ sl) then 0 else pos
      let base := s.trace.addr + 16 * sl * k
      let put (s : State) (n : Nat) (at_ : Nat) (data : List Byte) (left : List TraceRec) : State :=
        let s := { s with trace := { s.trace with held := mset [] s.trace.held t left, pos := mset 0 s.trace.pos t (pos + n),
                                                  written := s.trace.written + n } }
        tileMwr s t (qaMake t 0 0) at_ 65 1 data []
      if pos ≥ sl then
        traceFlush { s with trace := { s.trace with held := mset [] s.trace.held t rest, dropped := s.trace.dropped + 1 } } t all n
      else match rest with
        | b :: more =>
          if pos + 1 < sl then
            traceFlush (put s 2 (base + 16 * pos) (traceBytes t a ++ traceBytes t b) more) t all n
          else traceFlush (put s 1 (base + 16 * pos) (traceBytes t a ++ leBytes 16 0) rest) t all n
        | [] => if all then put s 1 (base + 16 * pos) (traceBytes t a ++ leBytes 16 0) [] else s

/-- A traced event of a tile (R536): its record is held, and pairs of held records are written. -/
def traceEv (s : State) (t utyp uidx ev det : Nat) : State :=
  if traced s t ev then traceFlush (traceHold s t utyp uidx ev det) t false 16 else s

end Sys2Proof.Machine
end

