-- ==== Sys2Proof/Machine/WickCore.lean ====
section
/-!
DEFINITION. How a Wick core issues an instruction (6.2, 6.3, 6.8, 6.9): the fetch checks, pending registers, what an
instruction produces as plain data, exceptions, the comparison of a lockstep pair, and the effects of what is produced.
-/
namespace Sys2Proof.Machine
open Sys2Proof

/-- What an instruction produces (R204 compares exactly this). -/
inductive WAct
  | reg (r : Nat) (v : Reg)
  | store (a : Nat) (bs : List Byte) (poi : Bool)
  | fixWord (i : Nat)
  | badWord (i : Nat)
  | muStore (k a : Nat) (bs : List Byte) (poi : Bool)
  | muLoad (rd k a n : Nat) (sgn : Bool)
  | dropHead (q : Nat)
  | send (tk dst : Nat) (words : List QEnt)
  | dsend (tk dst : Nat) (d : QEnt)
  | sendb (gd dst : Nat) (words : List QEnt)
  | recvWait (gd mask : Nat) (rot apx : Bool) (cycles : Nat)
  | rotTo (q : Nat)
  | remote (store : Bool) (tag rd tile mu ofs : Nat) (data : Reg)
  | tset (n : Nat)
  | mtime (v : Nat)
  | csrClear (n : Nat)
  | csrWrite (n : Nat) (v : W32)
  | fold
  | halt
  deriving DecidableEq, Repr

/-- How an instruction ends: it retires with what it produced and the next `pc`, stalls for a cause (for a store that
waits under R172, with the MU and address; `stallQ` for an empty queue, which counts it too, R287), or takes an exception with its cause and `EVAL`. `wait` retires later. -/
inductive WRes
  | ok (acts : List WAct) (next : Option (BitVec 14))
  | wait (acts : List WAct)
  | stall (cause : Nat) (mu : Option (Nat × Nat))
  | stallQ (q : Nat)
  | exc (cause : Nat) (eval : W32)
  deriving DecidableEq, Repr

/-- Fields of `WK_CORE` (Table 6.10). -/
def wkLock (w : Wick) : Bool := bit w.core.toNat 16
def wkQen (w : Wick) (q : Nat) : Bool := bit w.core.toNat q
def wkQcls (w : Wick) (q : Nat) : Bool := bit w.core.toNat (8 + q)

/-- The running context's `WK_CTX` word (Table 6.11). -/
def wkCtx (w : Wick) : W64 := mget 0 w.ctx w.fold
def wkSndto (w : Wick) : Nat := bits (wkCtx w).toNat 48 16
def wkRlto (w : Wick) : Nat := bits (wkCtx w).toNat 32 16
def wkXhi (w : Wick) : Nat := bits (wkCtx w).toNat 26 6
def wkXlo (w : Wick) : Nat := bits (wkCtx w).toNat 20 6
def wkSave (w : Wick) : Nat := bits (wkCtx w).toNat 14 6
def wkEntry (w : Wick) : Nat := bits (wkCtx w).toNat 2 12
def wkEn (w : Wick) : Bool := bit (wkCtx w).toNat 0

/-- An address lies in the code window of the running context (R182). -/
def inWindow (w : Wick) (a : Nat) : Bool := decide (256 * wkXlo w ≤ a) && decide (a ≤ 256 * wkXhi w + 255)

/-- `TCNT` (R197, R649). -/
def wkTcnt (s : State) (t : Nat) (w : Wick) : BitVec 48 := BitVec.ofNat 48 (cyclesOf s t - w.tcnt0)

/-- A register waits for a remote or own-tile load (R193, R192). -/
def wkPending (w : Wick) (r : Nat) : Bool :=
  r != 0 && (w.own.any (fun o => o.rd == r) ||
    w.tags.any fun e => match e.2 with
      | .live true rd _ _ => rd == r
      | _ => false)

/-- The fetch of a core, which sees itself as `w`, meets a correctable word: it is written back, counted and raised (R183). -/
def fetchFix (s : State) (t c : Nat) (w : Wick) : State :=
  let i := w.pc.toNat / 4
  if inWindow w w.pc.toNat && mget 0 w.memErr i == 1 then
    raiseCoal (wkCorrected (modWick s t c fun w => { w with memErr := mset 0 w.memErr i 0 }) t 1) (tileInc s 0x0101 utWick t c (4 * i))
  else s

/-- The exceptions of a fetch (R182, R183): outside the code window, or a word that is poison or uncorrectable. -/
def wkFetch (w : Wick) : Option (Nat × W32) :=
  let a := w.pc.toNat
  if !inWindow w a then some (3, BitVec.ofNat 32 a)
  else if mget false w.memPoi (a / 4) || mget 0 w.memErr (a / 4) == 2 then some (5, BitVec.ofNat 32 a)
  else none

/-- One attempt of a core to issue an instruction that uses the registers `uses`. -/
def wkTry (w : Wick) (uses : List Nat) (dec : Wick → WRes) : WRes :=
  match wkFetch w with
  | some e => .exc e.1 e.2
  | none =>
    match dec w with
    | .exc c v => if c == 1 then .exc c v else if uses.any (wkPending w) then .stall stInput none else .exc c v
    | r => if uses.any (wkPending w) then .stall stInput none else r

/-- A core may issue: its context runs and nothing blocks it, its tile's units do not stand still. -/
def wkCanIssue (s : State) (t : Nat) (w : Wick) : Bool :=
  decide (w.run = .running) && w.sendb.isNone && w.recv.isNone && !unitsStill s t

/-- Core `c` is the odd core of a lockstep pair (R205): it executes with its even core. -/
def wkOddLocked (s : State) (t c : Nat) : Bool := c % 2 == 1 && wkLock (getWick s t (c - 1))

/-- Core `c` is the even core of a lockstep pair (R203). -/
def wkEvenLocked (w : Wick) (c : Nat) : Bool := c % 2 == 0 && wkLock w

/-- What the odd core of a pair sees: its own registers, `pc` and memory, with the even core's queues, tickets, tags
and timers (R203). -/
def wkPairView (a b : Wick) : Wick :=
  { b with queues := a.queues, tickets := a.tickets, lastTk := a.lastTk, tags := a.tags, own := a.own, core := a.core,
           ctx := a.ctx, fold := a.fold, tcnt0 := a.tcnt0, rot := a.rot, tdl := a.tdl, tpast := a.tpast,
           foldReq := a.foldReq, rlerrN := a.rlerrN, rlerrO := a.rlerrO, tie := a.tie, run := a.run, halted := a.halted }

/-- The odd core of a pair after it has run as the pair sees it: what belongs to the even core stays there. -/
def wkPairBack (b v : Wick) : Wick :=
  { v with queues := b.queues, tickets := b.tickets, lastTk := b.lastTk, tags := b.tags, own := b.own, core := b.core, ctx := b.ctx,
           foldReq := none, rlerrN := b.rlerrN, rlerrO := b.rlerrO, tie := b.tie, sendb := b.sendb, recv := b.recv }

/-- The core address of a core (7.7). -/
def coreAddr (t c : Nat) : Nat := qaMake t c 0

/-- Send a packet from a core with its epoch and fold (R214). -/
def wkInject (s : State) (t c : Nat) (low : Nat) (dst : Nat) (b : Body) : State :=
  inject s t (coreAddr t c + low) dst (getWick s t c).fold (epochAt s t) b

/-- Save a context into its 256-byte block (R208; the layout is a design choice, assumption 15). -/
def wkSaveCtx (w : Wick) : Wick :=
  let mark (f : Reg → Bool) : Nat :=
    (List.range 32).foldl (fun acc r => acc + ofBit (f (wkReg w r)) * 2 ^ r) 0
  let words : List Nat :=
    [w.pc.toNat + ofBit w.tpast * 2 ^ 16] ++ (List.range 31).map (fun i => (wkReg w (i + 1)).v.toNat) ++
    [mark (·.poi), mark (·.apx), bits w.tdl.toNat 0 32, bits w.tdl.toNat 32 16] ++
    (List.range 8).map fun i => (mget 0 w.scr i).toNat
  wkPut w (256 * wkSave w) (words.flatMap (leBytes 4)) false

/-- Restore a context from its save block (R208). -/
def wkRestoreCtx (w : Wick) : Wick :=
  let b := 64 * wkSave w
  let word (i : Nat) : Nat := (wkWord w (b + i)).toNat
  let regs := forN 31 (fun i m =>
    mset Reg.zero m (i + 1) ⟨BitVec.ofNat 32 (word (i + 1)), bit (word 32) (i + 1), bit (word 33) (i + 1)⟩) []
  { w with
    regs := regs, pc := BitVec.ofNat 14 (word 0), tpast := bit (word 0) 16,
    tdl := BitVec.ofNat 48 (word 34 + word 35 * 2 ^ 32),
    scr := forN 8 (fun i m => mset 0 m i (BitVec.ofNat 32 (word (36 + i)))) [] }

/-- Every ticket and remote tag of the core has resolved (R195, R208). -/
def wkResolved (w : Wick) : Bool :=
  w.tickets.all (fun e => !e.2.pending) && w.tags.all (fun e => match e.2 with
    | .live .. => false
    | _ => true)

/-- Every own-tile load under way writes its register (R192). -/
def wkOwnLoads (w : Wick) : Wick := { w.own.foldl (fun w o => wkSetReg w o.rd o.v) w with own := [] }

/-- Take the pending fold switch (R208): the own-tile loads of the leaving context come in (assumption 120), the context is saved and the incoming
one restored; one that has come to `HALT` stays stopped (R207). -/
def wkSwitch (w : Wick) : Wick :=
  match w.foldReq with
  | some f =>
    let w := wkSaveCtx (wkOwnLoads w)
    let w := { w with fold := f, foldReq := none }
    if wkEn w then { wkRestoreCtx w with run := if mget false w.halted f then .halted else .running } else { w with run := .halted }
  | none => w

/-- Read-and-clear CSRs (Table 6.2). -/
def wkCsrClear (w : Wick) (n : Nat) : Wick :=
  if n == 6 then { w with rlerrN := 0, rlerrO := 0 }
  else if n == 7 then { w with tie := 0 }
  else if n == 10 then { w with instret := 0 }
  else w

/-- Effects of one product on the core that made it, apart from what leaves the pair. -/
def wkActCore (s : State) (t : Nat) (w : Wick) (a : WAct) : Wick :=
  match a with
  | .reg r v => wkSetReg w r v
  | .store ad bs poi => wkPut w ad bs poi
  | .fixWord i => { w with memErr := mset 0 w.memErr i 0 }
  | .badWord _ => w
  | .dropHead q => { w with queues := mset [] w.queues q ((mget [] w.queues q).drop 1), relAt := s.time.ticks }
  | .rotTo q => { w with rot := q }
  | .tset n =>
    { w with tdl := wkTcnt s t w + BitVec.ofNat 48 n, tpast := n == 0 }
  | .csrClear n => wkCsrClear w n
  | .csrWrite n v => if 16 ≤ n && n < 24 then { w with scr := mset 0 w.scr (n - 16) v } else w
  | .fold => { wkSwitch { w with pc := w.pc + 4, instret := w.instret + 1 } with dwell := cyclesOf s t }
  | .halt =>
    let w := { w with instret := w.instret + 1, run := WRun.halted, halted := mset false w.halted w.fold true }
    if w.foldReq.isSome then { wkSwitch w with dwell := cyclesOf s t } else w
  | .recvWait gd mask rot apx cyc => { w with recv := some ⟨gd, mask, rot, apx, cyclesOf s t + cyc, cyclesOf s t⟩ }
  | _ => w

/-- Effects of one product that leave the core, for the core that stands outside (R203). -/
def wkActOut (s : State) (t c : Nat) (a : WAct) : State :=
  match a with
  | .fixWord i => raiseCoal (wkCorrected s t 1) (tileInc s 0x0101 utWick t c (4 * i))
  | .badWord i => raiseUnit s (tileInc s 0x0102 utWick t c (4 * i))
  | .muStore k ad bs poi => (muWrite s t k ad bs poi).1
  | .muLoad rd k ad n sgn =>
    let r := muRead s t k ad n
    let v := leNat r.1
    let x : Nat := if sgn then unsigned 32 (signed (8 * n) v) else v
    modWick r.2.2 t c fun w => { w with own := w.own ++ [⟨rd, ⟨BitVec.ofNat 32 x, r.2.1, false⟩⟩] }
  | .send tk dst ws =>
    let s := modWick s t c fun w =>
      { w with lastTk := tk,
               tickets := mset Ticket.fresh w.tickets tk
                 ⟨true, true, .done, dst, cyclesOf s t + wkSndto w * 16, s.net.next⟩ }
    traceEv (wkInject s t c tk dst (.msg false ws)) t utWick c 4 dst
  | .dsend tk dst d =>
    let s := modWick s t c fun w =>
      { w with lastTk := tk,
               tickets := mset Ticket.fresh w.tickets tk
                 ⟨true, true, .done, dst, cyclesOf s t + wkSndto w * 16, s.net.next⟩ }
    wkInject s t c tk dst (.desc d)
  | .sendb gd dst ws =>
    let s := modWick s t c fun w =>
      { w with sendb := some ⟨gd, dst, ws, cyclesOf s t + wkSndto w * 16, 16, true, 0, none, false, cyclesOf s t, s.net.next⟩ }
    traceEv (wkInject s t c 0 dst (.msg true ws)) t utWick c 4 dst
  | .remote st tag rd tile mu ofs d =>
    let s := modWick s t c fun w =>
      { w with tags := mset RTag.free w.tags tag (.live (!st) rd (cyclesOf s t + wkRlto w * 16) s.net.next) }
    wkInject s t c 0 (qaMake tile (50 + mu) 0) (.racc st tag ofs d)
  | .mtime v => modTile s t fun x => { x with mtLast := v }
  | _ => s

/-- A word of a core's own local memory that a read found in error, which the other core of a pair need not share. -/
def ownError : WAct → Bool
  | .fixWord _ | .badWord _ => true
  | _ => false

/-- Apply one product of a core, and of its pair (R203). -/
def wkActOne (s : State) (t c : Nat) (a : WAct) : State :=
  let w := getWick s t c
  let s' := modWick s t c fun w => wkActCore s t w a
  let s' := if wkEvenLocked w c && !ownError a then modWick s' t (c + 1) fun b => wkPairBack b (wkActCore s t (wkPairView w b) a) else s'
  wkActOut s' t c a

/-- Apply what an instruction produced. -/
def wkApply (s : State) (t c : Nat) (acts : List WAct) : State := acts.foldl (fun s a => wkActOne s t c a) s

/-- Retire: the next `pc` and the count of instructions. -/
def wkRetire (s : State) (t c : Nat) (next : Option (BitVec 14)) : State :=
  let f (w : Wick) : Wick :=
    { w with pc := match next with
        | some p => p
        | none => w.pc + 4,
             instret := w.instret + 1 }
  let w := getWick s t c
  let s := modWick s t c f
  if wkEvenLocked w c then modWick s t (c + 1) f else s

/-- The operation fields of a Wick incident (Table 16.2): fold, `pc` ÷ 4 modulo 64, and the `pc` in the detail. -/
def wickInc (s : State) (cls t c : Nat) (w : Wick) (detail : Nat) : Inc :=
  { tileInc s cls utWick t c detail with opv := true, fold := w.fold, uop := (w.pc.toNat / 4) % 64 }

/-- A Wick exception (R202): the core stops before any state change, the incident is raised, the region stops. -/
def wickException (s : State) (t c cause : Nat) (eval : W32) : State :=
  let w := getWick s t c
  let f (x : Wick) : Wick := { x with ecause := cause, epc := w.pc.toNat, eval := eval, run := .stopped }
  let s := modWick s t c f
  let s := if wkEvenLocked w c then modWick s t (c + 1) f else s
  let s := raiseInc s (wickInc s (0x045F + cause) t c w w.pc.toNat)
  stopTileRegion s t

/-- A lockstep mismatch (R204): both cores stop, 0x0203 names both and the `pc`, the region stops. -/
def wickMismatch (s : State) (t c : Nat) : State :=
  let w := getWick s t c
  let s := modWick s t c fun x => { x with run := .stopped }
  let s := modWick s t (c + 1) fun x => { x with run := .stopped }
  let s := raiseUnit s (wickInc s 0x0203 t c w (w.pc.toNat + (c + 1) * 2 ^ 16))
  stopTileRegion s t

/-- What the end of an attempt does to the core (and its pair). -/
def wkEnd (s : State) (t c : Nat) (r : WRes) : State :=
  match r with
  | .ok acts nx => wkRetire (wkApply s t c acts) t c nx
  | .wait acts =>
    let a := (getWick s t c).fold
    let s := wkApply s t c acts
    let b := (getWick s t c).fold
    if a == b then s else traceEv s t utWick c 3 (a + b * 4)
  | .stall cause mu =>
    let s := traceEv (modWick s t c fun w => wkStall w cause 1) t utWick c 7 cause
    match mu with
    | some m => modMu s t m.1 fun x => muMarkWait x m.2
    | none => s
  | .stallQ q => traceEv (modWick s t c fun w => wkStall (wkStall w stInput 1) (6 + q * 6 + stInput) 1) t utWick c 7 stInput
  | .exc cause v => wickException s t c cause v

/-- What the two cores of a pair compare (R204): everything that they produce. -/
def wkMade : WRes → WRes
  | .ok acts nx => .ok (acts.filter fun a => !ownError a) nx
  | .wait acts => .wait (acts.filter fun a => !ownError a)
  | r => r

/-- The words in error that an attempt met. -/
def wkErrors : WRes → List WAct
  | .ok acts _ | .wait acts => acts.filter ownError
  | _ => []

/-- An exception that one core of a pair takes (R204). -/
def wkExcOf (s : State) (t c : Nat) : WRes → State
  | .exc cause v => wickException s t c cause v
  | _ => s

/-- A core issues an instruction (6.3): `uses` are the registers it reads or writes, `dec` what it does. The cores of a pair compare what they
produce (R203, R204); a mismatch, and an exception that one of them takes with it, stop the region. -/
def wkIssue (s : State) (t c : Nat) (uses : List Nat) (dec : Wick → WRes) : State :=
  let w := getWick s t c
  if !wkCanIssue s t w || wkOddLocked s t c then s
  else if wkEvenLocked w c then
    let s := fetchFix (fetchFix s t c w) t (c + 1) (wkPairView w (getWick s t (c + 1)))
    let w := getWick s t c
    let r := wkTry w uses dec
    let r2 := wkTry (wkPairView w (getWick s t (c + 1))) uses dec
    let s := (wkErrors r2).foldl (fun s a => wkActOut (modWick s t (c + 1) fun b => wkActCore s t b a) t (c + 1) a) s
    if wkMade r = wkMade r2 then wkEnd s t c r else wickMismatch (wkExcOf (wkExcOf s t c r) t (c + 1) r2) t c
  else
    let s := fetchFix s t c w
    wkEnd s t c (wkTry (getWick s t c) uses dec)

/-- Finish an instruction that blocked its core: write `gd` and go on (R225, R227); its cycles count under output full for a `SENDB`, under
input empty for a `RECV` (R225, R228). -/
def wkFinish (s : State) (t c gd : Nat) (v : Reg) : State :=
  let w := getWick s t c
  let now := cyclesOf s t
  let f (x : Wick) : Wick := { wkSetReg x gd v with pc := x.pc + 4, instret := x.instret + 1, sendb := none, recv := none }
  let waited (x : Wick) : Wick := match w.sendb, w.recv with
    | some b, _ => wkStall x stOutput (now - b.since)
    | none, some r => wkStall x stInput (now - r.since)
    | none, none => x
  let s := modWick s t c fun x => waited (f x)
  if wkEvenLocked w c then modWick s t (c + 1) f else s

/-- The markers of a result made from two sources (R201). -/
def wkJoin (v : W32) (a b : Reg) : Reg := ⟨v, a.poi || b.poi, a.apx || b.apx⟩

/-- The exception for an encoding the core does not list (Table 6.7 cause 1). -/
def wkIllegal (v : Nat) : WRes := .exc 1 (BitVec.ofNat 32 v)

/-- The exception for a poisoned decision (Table 6.7 cause 4). -/
def wkPoisonUse (r : Reg) : WRes := .exc 4 r.v

end Sys2Proof.Machine
end

