-- ==== Sys2Proof/Machine/Dataflow.lean ====
section
/-!
DEFINITION. Queues, streams and folds (8.6, 8.8, 8.9): what a destination decides about an arrival, placement by
sequence number, release and credits, spill records, and delivery into the queues of Wick cores (7.3).
-/
namespace Sys2Proof.Machine
open Sys2Proof

/-- The unit type of a unit field (Tables 0.5 and 0.11). -/
def unitType (u : Nat) : Nat := if u < 48 then utWick else if u < 50 then utCu else utMu
/-- The unit index within its type (R6). -/
def unitIx (u : Nat) : Nat := if u < 48 then u else if u < 50 then u - 48 else u - 50

/-- Depth of a CU or MU queue (Tables 3.6 and 5.2). -/
def qDepth (f : Flow) (q : Nat) : Nat := bits f.qgeom.toNat (8 * q) 8

/-- A queue of a CU or MU. -/
def getQ (f : Flow) (q : Nat) : DQ := mget DQ.empty f.queues q
/-- Replace a queue. -/
def setQ (f : Flow) (q : Nat) (x : DQ) : Flow := { f with queues := mset DQ.empty f.queues q x }

/-- The context slot of the current fold (8.9). -/
def curSlot (f : Flow) : Nat := mget 0 f.foldMap f.curFold

/-- The queue descriptor of a queue in the current fold (Table 8.9). -/
def qDesc (f : Flow) (q : Nat) : Nat := (mget 0 f.qdesc (curSlot f * 8 + q)).toNat
def qdNsm1 (d : Nat) : Nat := bits d 53 11
def qdComb (d : Nat) : Nat := bits d 51 2
def qdInp (d : Nat) : Bool := bit d 50
def qdSeqd (d : Nat) : Bool := bit d 49
def qdQsp (d : Nat) : Bool := bit d 48
def qdIw (d : Nat) : Bool := bit d 47

/-- Capacity of a queue in sequence numbers (R257). -/
def qCap (f : Flow) (q : Nat) : Nat :=
  if qdComb (qDesc f q) == 3 then qDepth f q / (qdNsm1 (qDesc f q) + 1) else qDepth f q

/-- Entries of a queue in use. -/
def qUsed (x : DQ) : Nat := x.slots.foldl (fun n e => n + max 1 e.parts.length) 0 + x.ready.length

/-- A stream entry. -/
def getStrm (f : Flow) (o : Nat) : Strm := mget Strm.none f.streams o
/-- Replace a stream entry. -/
def setStrm (f : Flow) (o : Nat) (x : Strm) : Flow := { f with streams := mset Strm.none f.streams o x }
/-- Fields of a stream entry (Table 8.8). -/
def stMode (x : Strm) : Nat := bits x.w0.toNat 62 2
def stDfold (x : Strm) : Nat := bits x.w0.toNat 60 2
def stTagm (x : Strm) : Nat := bits x.w0.toNat 58 2
def stSidx (x : Strm) : Nat := bits x.w0.toNat 47 11
def stCred (x : Strm) : Nat := bits x.w0.toNat 39 8
def stFmt (x : Strm) : Nat := bits x.w0.toNat 35 4
def stMgrp (x : Strm) : Nat := bits x.w0.toNat 23 12
def stDst (x : Strm) : Nat := bits x.w0.toNat 0 23
def stNdest (x : Strm) : Nat := bits x.w1.toNat 48 16
def stHbase (x : Strm) : Int := signed 8 (bits x.w1.toNat 32 8)
def stTid (x : Strm) : Nat := bits x.w1.toNat 0 32

/-- The group of the region that owns a tile, if there is one. -/
def groupAt (s : State) (t : Nat) : Option Nat := (regionOf s t).map fun r => rgGrp (getRegion s r)

/-- A group recovers, to which tile `t` belongs (R518). -/
def groupRecovering (s : State) (t : Nat) : Bool :=
  match groupAt s t with
  | some g => s.mantle.recov.any (·.group == g)
  | none => false

/-- A packet's source lies outside the region group of tile `t` (R273). -/
def foreign (s : State) (t src : Nat) : Bool :=
  if qaTileForm src then decide (groupAt s (qaTile src) ≠ groupAt s t) else true

/-- Count tokens or messages discarded for their epoch (R265). -/
def countEpdisc (s : State) (t n : Nat) : State :=
  match regionOf s t with
  | some r => modRegion s r fun x => { x with epdisc := satAdd 48 x.epdisc n }
  | none => s

/-- Raise a dataflow incident that stops the region (Table 8.13). -/
def flowFault (s : State) (cls t u detail : Nat) : State :=
  let s := raiseInc s (tileInc s cls (unitType u) t (unitIx u) detail)
  stopTileRegion s t

/-! ### Adding contributions (R258, R310) -/

/-- Lane by lane addition of `n` lanes of `w` bits. -/
def addLanes (n w a b : Nat) : Nat :=
  (List.range n).foldl (fun acc i => acc + ((bits a (w * i) w + bits b (w * i) w) % 2 ^ w) * 2 ^ (w * i)) 0

/-- Element by element addition of eight XP96 containers (R51, R52); says whether a binary point differed. -/
def addXps (a b : Nat) : Nat × Bool :=
  (List.range 8).foldl (fun acc i =>
    let r := xpAdd (xpUnpack (bits a (128 * i) 128)) (xpUnpack (bits b (128 * i) 128))
    (acc.1 + xpPack r.1 * 2 ^ (128 * i), acc.2 || r.2)) (0, false)

/-- Add a contribution to what an entry holds: `comb` 1 XP96, 2 integer lanes by `iw` (R258). -/
def addToken (comb : Nat) (iw : Bool) (a b : Token) : Token × Bool :=
  let r := if comb == 1 then addXps a.val b.val
    else if iw then (addLanes 16 64 a.val b.val, false) else (addLanes 32 32 a.val b.val, false)
  ({ a with val := r.1, poi := a.poi || b.poi || r.2, apx := a.apx || b.apx, len := max a.len b.len }, r.2)

/-! ### Steering inputs (R262) -/

/-- The input queues of the steering stages of a CU's current context: control queue, data queues. -/
def steerInputs (s : State) (t u : Nat) : List (Nat × List Nat) :=
  if u < 48 || u > 49 then []
  else
    let cu := getCu s t (u - 48)
    let sl := curSlot (getFlow s t u)
    (cu.uops.filter fun e => e.1 / 64 == sl && bit e.2.2.toNat 44).filterMap fun e =>
      let w := (mget 0 cu.vprog (sl * 96 + bits e.2.2.toNat 40 4 * 6)).toNat
      let inq := bits e.2.1.toNat 54 3
      let q := bits w 14 3
      if bits w 0 8 == 0x51 || bits w 0 8 == 0x53 then some (inq, [inq ^^^ 1])
      else if bits w 0 8 == 0x52 then some (inq ^^^ 1, [q, q + 1])
      else none

/-- A queue is an input of a steering stage. -/
def isSteerQ (s : State) (t u q : Nat) : Bool := (steerInputs s t u).any fun e => e.1 == q || e.2.contains q

/-- The tag base of a CU's current context. -/
def tbaseAt (s : State) (t u : Nat) : Nat := (mget CuCtx.idle (getCu s t (u - 48)).ctxs (curSlot (getFlow s t u))).tbase

/-! ### Records in rings (R168, R236, R237) -/

/-- Bytes of a record as they lie in MU SRAM. -/
def recBytes (r : RingRec) : List Byte := leBytes 8 (recHeader r.src r.typ r.len r.poi r.apx) ++ r.data

/-- Cut bytes into packets of at most 1,920 bytes whose length is a multiple of 32 (R367). -/
def cutMwr : Nat → Nat → List Byte → List (Nat × List Byte)
  | 0, _, _ => []
  | n + 1, a, l =>
    if l.isEmpty then []
    else
      let room := min 1920 (4096 - a % 4096)
      let h := l.take room
      (a, h ++ List.replicate ((32 - h.length % 32) % 32) 0) :: cutMwr n (a + h.length) (l.drop room)

/-- Write a complete record where it has its place: in MU SRAM, or in the overflow area in HBM (R168). -/
def ringWrite (s : State) (t : Nat) (ra : RingAt) (r : RingRec) : State :=
  if r.ov then
    (cutMwr 40 (ra.ovAddr + r.ofs) (recBytes r)).foldl (fun s e =>
      tileMwr s t (qaMake t (50 + ra.mu) 0) e.1 66 1 e.2 (List.replicate (e.2.length / 8) r.poi)) s
  else muWriteQ s t ra.mu (ra.base + r.ofs) (recBytes r) r.poi

/-- Put a record in a ring (R236, R237): a PAD at `TAIL` where the placement leaves one, then the record; or, the ring being full, the record in
the overflow area (R168). None when neither has room (R238). A record that is only reserved (R233) is written later. -/
def ringAdd (s : State) (t : Nat) (ra : RingAt) (rg : RingRt) (x : RingRec) : Option (State × RingRt) :=
  (ringPut ra.size ra.ovSize rg x).map fun rg' =>
    let s := match ringPlace ra.size rg x.len with
      | some (some (o, n), _) => muWriteQ s t ra.mu (ra.base + o) (leBytes 8 (recHeader 0 15 n false false)) false
      | _ => s
    (match rg'.recs.getLast? with
      | some r => if r.done then ringWrite s t ra r else s
      | none => s, rg')

/-- The payload of a complete record for its consumer: read from MU SRAM, or returned from the overflow area (assumption 106). None while a
write of the record still waits (R172). -/
def ringFetch (s : State) (t : Nat) (ra : RingAt) (r : RingRec) : Option (List Byte × Bool × State) :=
  if r.ov then some (r.data, r.poi, s)
  else if (getMu s t ra.mu).waitW.any fun w => decide (w.1 < ra.base + r.ofs + r.len) && decide (ra.base + r.ofs < w.1 + w.2.1.length) then none
  else
    let z := muRead s t ra.mu (ra.base + r.ofs) r.len
    some (z.1.drop 8, z.2.1 || r.poi, z.2.2)

/-! ### Spill records (R267, R270, R285) -/

/-- Bytes of a spill record: header, token header and payload (R270). -/
def spillLen (tok : Token) : Nat := 16 + ((tok.len * 4 + 7) / 8) * 8

/-- Words of spill entry `e` (Table 8.12). -/
def spillWord (f : Flow) (e i : Nat) : Nat := (mget 0 f.spillTab (e * 3 + i)).toNat
def spillSize (f : Flow) (e : Nat) : Nat := bits (spillWord f e 0) 20 21
def spillBase (f : Flow) (e : Nat) : Nat := bits (spillWord f e 0) 0 20
def spillMu (f : Flow) (e : Nat) : Nat := bits (spillWord f e 0) 60 2
def spillOvf (f : Flow) (e : Nat) : Nat := if bit (spillWord f e 0) 62 then bits (spillWord f e 2) 0 32 * 4096 else 0

/-- Where spill ring `e` of a unit lies. -/
def spillAt (f : Flow) (e : Nat) : RingAt := ⟨spillMu f e, spillBase f e, spillSize f e, bits (spillWord f e 1) 0 48, spillOvf f e⟩

/-- The token header word (Table 8.7). -/
def tokHeader (k : Token) : Nat :=
  let low := match k.ctl with
    | some c => (k.val % 2 ^ 16) * 2 ^ 16 + c * 2 ^ 10
    | none => k.sidx * 2 ^ 21 + ((k.len - 1) % 32) * 2 ^ 16 + k.fmt * 2 ^ 12
  k.seq * 2 ^ 48 + k.epoch * 2 ^ 44 + k.fold * 2 ^ 42 + ofBit k.poi * 2 ^ 41 + ofBit k.apx * 2 ^ 40 + k.tag * 2 ^ 32 + low

/-- Append a token to spill ring `e` of a unit. A ring that cannot take it raises 0x0407 and stops the region
(R271). -/
def spillTo (s : State) (t u e q : Nat) (tok : Token) (owed : List Owed) (src : Nat) : State :=
  let f := getFlow s t u
  let len := spillLen tok
  let data := leBytes 8 (tokHeader tok) ++ leBytes (len - 16) (if tok.ctl.isSome then 0 else tok.val)
  let rec0 : RingRec := ⟨0, len, false, true, src, 3, tok.poi, tok.apx, data, some (q, tok, owed)⟩
  let rg := mget RingRt.empty f.rings e
  match ringAdd s t (spillAt f e) rg rec0 with
  | some r => modFlow r.1 t u fun f => { f with rings := mset RingRt.empty f.rings e r.2 }
  | none => flowFault s 0x0407 t u e

/-- The ring of a unit has room for a token (R271). -/
def spillRoom (f : Flow) (e : Nat) (tok : Token) : Bool :=
  (ringPut (spillSize f e) (spillOvf f e) (mget RingRt.empty f.rings e) ⟨0, spillLen tok, false, true, 0, 3, false, false, [], none⟩).isSome

/-- The oldest spill record of ring `e` of a unit leaves it: the queue, the token as it reads from SRAM and what it owes. -/
def spillTake (s : State) (t u e : Nat) : Option (Nat × Token × List Owed × State) :=
  let f := getFlow s t u
  let rg := mget RingRt.empty f.rings e
  match rg.recs with
  | [] => none
  | r :: _ =>
    match r.tok with
    | none => none
    | some (q, tok, owed) =>
      (ringFetch s t (spillAt f e) r).map fun z =>
        let tok := { tok with val := if tok.ctl.isSome then tok.val else leNat (z.1.drop 8), poi := tok.poi || z.2.1 }
        (q, tok, owed, modFlow z.2.2 t u fun f =>
          { f with rings := mset RingRt.empty f.rings e (ringTake (spillSize f e) (spillOvf f e) rg) })

/-! ### Credits (R259) -/

/-- Return credits to producers, those of one stream in one packet. -/
def returnCredits (s : State) (t u : Nat) (owed : List Owed) : State :=
  (owed.eraseDups).foldl (fun s o =>
    inject s t (qaMake t u 0) o.src 0 (epochAt s t) (.cret o.ostr (owed.filter (· = o)).length)) s

/-! ### Placement (R257, R258) -/

/-- How a CU or MU decides a token: `stopped` when the arrival stopped the region, `held` when it stays in the arrival port (R271). -/
inductive Decide
  | accepted | full | epoch | stopped | held
  deriving DecidableEq, Repr

/-- Place a token in a sequenced queue (R257, R258): `n` contributions in one token. A queue without the entry that the token needs refuses it
(R95, Table 7.6 row 5). `fresh` says that `QARR` has not counted it yet: it counts a
token where the queue accepts it, also one that goes to a spill ring (R261). -/
def placeSeq (s : State) (t u q : Nat) (tok : Token) (n : Nat) (owed : List Owed) (fresh : Bool) : State × Decide :=
  let f := getFlow s t u
  let x := getQ f q
  let d := qDesc f q
  let ptr := mget 0 x.ptrs f.curFold
  let dist := (tok.seq + 65536 - ptr) % 65536
  let comb := qdComb d
  let fault (s : State) : State × Decide := (flowFault s 0x0403 t u (q + tok.seq * 2 ^ 16), .stopped)
  let old := x.slots.find? (·.seq == tok.seq)
  let qarr := if fresh then (x.qarr + n) % 2 ^ 48 else x.qarr
  if qUsed x ≥ qDepth f q && (old.isNone || comb == 0 || comb == 3) then (s, .full)
  else if dist ≥ qCap f q then fault s
  else if isSteerQ s t u q && decide ((tok.tag + 256 - tbaseAt s t u) % 256 ≥ 16) then
    (flowFault s 0x0401 t u q, .stopped)
  else match old with
    | none =>
      let x := { x with slots := x.slots ++ [⟨tok.seq, [tok], n, owed⟩], qarr := qarr }
      (setFlow s t u (setQ f q x), .accepted)
    | some e =>
      if comb == 0 then fault s
      else if comb == 3 && e.parts.any (·.sidx == tok.sidx) then fault s
      else
        let upd : QSlot × Bool :=
          if comb == 3 then (⟨e.seq, e.parts ++ [tok], e.cnt + n, e.owed ++ owed⟩, false)
          else match e.parts with
            | p :: _ =>
              let r := addToken comb (qdIw d) p tok
              (⟨e.seq, [r.1], e.cnt + n, e.owed ++ owed⟩, r.2)
            | [] => (⟨e.seq, [tok], e.cnt + n, e.owed ++ owed⟩, false)
        let x := { x with slots := x.slots.map fun y => if y.seq == tok.seq then upd.1 else y, qarr := qarr }
        let s := setFlow s t u (setQ f q x)
        let s := if upd.2 then raiseInc s (tileInc s 0x0210 (unitType u) t (unitIx u) q) else s
        (s, .accepted)

/-- A token as it is spilled: where a queue adds its contributions, `SIDX` carries how many the token stands for, minus 1
(assumption 35). -/
def spillTok (comb n : Nat) (tok : Token) : Token :=
  if comb == 1 || comb == 2 then { tok with sidx := n - 1 } else tok

/-- How many contributions a spilled token stands for. -/
def spillCnt (comb : Nat) (tok : Token) : Nat := if comb == 1 || comb == 2 then tok.sidx + 1 else 1

/-- The descriptor of a queue in the context of a fold. -/
def qDescOf (f : Flow) (fold q : Nat) : Nat := (mget 0 f.qdesc (mget 0 f.foldMap fold * 8 + q)).toNat

/-- The decision of a CU or MU queue on a token or message (Table 7.6 rows 3 to 6 with R260, R265, R267, R271, R285). A queue takes tokens of
streams or messages, as `SEQD` says (R256), and refuses the other kind as one that has no room for it (assumption 107). -/
def decideUnit (s : State) (t u q : Nat) (src : Nat) (msg : Bool) (tok : Token) (n : Nat) (owed : List Owed) :
    State × Decide :=
  let f := getFlow s t u
  let d := qDesc f q
  if qDepth f q == 0 then (s, .full)
  else if gatedAt s t && qdInp d && foreign s t src then (s, .full)
  else if tok.epoch != epochAt s t then (countEpdisc s t 1, .epoch)
  else if tok.fold > rgNfm1 (regionAt s t) then (flowFault s 0x0408 t u tok.fold, .stopped)
  else if msg == qdSeqd (qDescOf f tok.fold q) then (s, .full)
  else if tok.fold != f.curFold || !f.reinject.isEmpty || (getQ f q).spill then
    let away := tok.fold != f.curFold || !f.reinject.isEmpty
    let e := if away then tok.fold else 4 + q
    let tok := spillTok (qdComb (qDescOf f tok.fold q)) n tok
    if !spillRoom f e tok then (if (regionAt s t).st = .stopped then s else flowFault s 0x0407 t u e, .held)
    else
      let s := spillTo s t u e q tok (if away then owed else []) src
      let s := modFlow s t u fun f =>
        let x := getQ f q
        setQ f q { x with qarr := if msg then x.qarr else (x.qarr + n) % 2 ^ 48,
                          stall := if away then mset 0 x.stall stFold (satAdd 48 (mget 0 x.stall stFold) 1) else x.stall }
      (if away then s else returnCredits s t u owed, .accepted)
  else if msg then
    let x := getQ f q
    if qUsed x + 1 > qDepth f q then (s, .full)
    else (setFlow s t u (setQ f q { x with ready := x.ready ++ [tok] }), .accepted)
  else placeSeq s t u q tok n owed true

/-- A token or message arrives at a CU or MU queue; one that fills it is a traced event (Table 17.7). -/
def arriveUnit (s : State) (t u q : Nat) (src : Nat) (msg : Bool) (tok : Token) (n : Nat) (owed : List Owed) : State × Decide :=
  let full (s : State) : Bool := decide (qUsed (getQ (getFlow s t u) q) ≥ qDepth (getFlow s t u) q)
  let r := decideUnit s t u q src msg tok n owed
  if !full s && full r.1 then
    (traceEv (modFlow r.1 t u fun f => setQ f q { getQ f q with fullAt := s.time.ticks }) t (unitType u) (unitIx u) 6 (u * 8 + q), r.2)
  else r

/-! ### Release (R257, R259) -/

/-- The entry at the release pointer, if it is complete (R258). -/
def headSlot (f : Flow) (q : Nat) : Option QSlot :=
  let x := getQ f q
  match x.slots.find? (·.seq == mget 0 x.ptrs f.curFold) with
  | some e => if e.cnt ≥ qdNsm1 (qDesc f q) + 1 then some e else none
  | none => none

/-- The tokens a complete entry releases: one, or all contributions in ascending `SIDX` (R258), with the OR of the
markers. -/
def slotTokens (ordered : Bool) (e : QSlot) : List Token :=
  if ordered then
    let poi := e.parts.any (·.poi)
    let apx := e.parts.any (·.apx)
    (sortBy (·.sidx) e.parts).map fun k => { k with poi := poi, apx := apx }
  else e.parts

/-- Reinject records of a queue's own ring while the queue is in spill-through mode; it leaves the mode when the ring
and the queue are empty (R285). -/
def reinjectQ (s : State) (t u q : Nat) : State :=
  let f := getFlow s t u
  let x := getQ f q
  if !x.spill then s
  else
    match spillTake s t u (4 + q) with
    | some (_, tok, _, s1) =>
      let dist := (tok.seq + 65536 - mget 0 x.ptrs f.curFold) % 65536
      if dist < qCap f q then (placeSeq s1 t u q tok (spillCnt (qdComb (qDesc f q)) tok) [] false).1 else s
    | none => if (mget RingRt.empty f.rings (4 + q)).recs.isEmpty && qUsed x == 0 then setFlow s t u (setQ f q { x with spill := false }) else s

/-- Release the entry at the pointer (R257): its tokens wait for the consumer, its credits go back (R259). -/
def releaseQ (s : State) (t u q : Nat) : State :=
  let f := getFlow s t u
  match headSlot f q with
  | none => s
  | some e =>
    let x := getQ f q
    let x := { x with slots := x.slots.filter (fun y => y.seq != e.seq),
                      ready := x.ready ++ slotTokens (qdComb (qDesc f q) == 3) e,
                      ptrs := mset 0 x.ptrs f.curFold ((mget 0 x.ptrs f.curFold + 1) % 65536) }
    let s := setFlow s t u { setQ f q x with relAt := s.time.ticks }
    reinjectQ (returnCredits s t u e.owed) t u q

/-- The token at the head of a queue for its consumer. -/
def headTok (f : Flow) (q : Nat) : Option Token :=
  match (getQ f q).ready with
  | k :: _ => some k
  | [] => (headSlot f q).bind fun e => (slotTokens (qdComb (qDesc f q) == 3) e).head?

/-- A read of a memory of a CU (R498): a correctable error is corrected, written back and raised, an uncorrectable one raised; the answer says whether
the data is poisoned. The detail names the memory (assumption 122). -/
def cuMemRead (s : State) (t k key : Nat) : State × Bool :=
  match mget 0 (getCu s t k).err key with
  | 0 => (s, false)
  | 1 => (raiseCoal (modCu s t k fun c => { c with err := mset 0 c.err key 0 }) (tileInc s 0x0101 utCu t k key), false)
  | _ => (raiseUnit s (tileInc s 0x0102 utCu t k key), true)

/-- What is written into a memory of a CU has valid check bits. -/
def cuMemPut (c : Cu) (key : Nat) : Cu := { c with err := mset 0 c.err key 0 }

/-- What the buffer of a CU queue gives of a token (R498). -/
def bufRead (s : State) (t u q : Nat) (k : Token) : Token × State :=
  if u == 48 || u == 49 then
    let r := cuMemRead s t (u - 48) q
    ({ k with poi := k.poi || r.2 }, modCu r.1 t (u - 48) fun c => cuMemPut c q)
  else (k, s)

/-- The consumer takes the head of a queue, releasing it if need be. -/
def takeTok (s : State) (t u q : Nat) : Option (Token × State) :=
  let f := getFlow s t u
  let s := match (getQ f q).ready with
    | [] => releaseQ s t u q
    | _ => s
  let f := getFlow s t u
  match (getQ f q).ready with
  | k :: rest => some (bufRead (setFlow s t u (setQ f q { getQ f q with ready := rest })) t u q k)
  | [] => none

/-- Take `n` tokens from a queue, or none at all. -/
def takeToks : Nat → State → Nat → Nat → Nat → Option (List Token × State)
  | 0, s, _, _, _ => some ([], s)
  | n + 1, s, t, u, q =>
    match takeTok s t u q with
    | some (k, s') => (takeToks n s' t u q).map fun r => (k :: r.1, r.2)
    | none => none

/-! ### Stall cycles (R287, Table 8.14) -/

/-- A CU or MU counts a cycle of a stall cause; so the trace (Table 17.7). -/
def unitStall (s : State) (t u cause : Nat) : State := traceEv (modFlow s t u fun f => flStall f cause 1) t (unitType u) (unitIx u) 7 cause

/-- A queue counts a cycle of a stall cause. -/
def qStall (s : State) (a cause : Nat) : State :=
  if !qaTileForm a then s
  else if qaUnit a < 48 then modWick s (qaTile a) (qaUnit a) fun w => wkStall w (6 + qaQueue a * 6 + cause) 1
  else modFlow s (qaTile a) (qaUnit a) fun f =>
    let x := getQ f (qaQueue a)
    setQ f (qaQueue a) { x with stall := mset 0 x.stall cause (satAdd 48 (mget 0 x.stall cause) 1) }

/-- A unicast stream that feeds a queue comes from a fenced tile. -/
def feederFenced (s : State) (a : Nat) : Bool :=
  s.flows.any fun e => fenced s (e.1 / 6) && e.2.streams.any fun x => decide (stMode x.2 ≤ 1) && stDst x.2 == a && decide (x.2 ≠ Strm.none)

/-- A CU or MU waits for an input that it takes from a queue. -/
def inStall (s : State) (t u q : Nat) : State :=
  let a := qaMake t u q
  let cause := if feederFenced s a then stFenced else stInput
  let s' := unitStall s t u cause
  if (headTok (getFlow s t u) q).isNone then qStall s' a cause else s'

/-- Issue is paused by the issue budget while a queue holds a releasable entry. -/
def powerStall (s : State) (t u q : Nat) : State :=
  let s' := unitStall s t u stPower
  if (headTok (getFlow s t u) q).isSome then qStall s' (qaMake t u q) stPower else s'

/-- The credits of a stream do not let its next token go (Table 8.14 output full). -/
def strmShut (x : Strm) : Bool := stMode x == 0 && x.cred == 0 || stMode x == 1 && x.inflight.isSome

/-- A CU or MU waits for its output to leave: its stream has no credit or awaits a reply, or the router has none (R106). -/
def outStall (s : State) (t u : Nat) : State :=
  match (getFlow s t u).out with
  | o :: _ =>
    let x := o.old.getD (getStrm (getFlow s t u) o.ostr)
    if o.old.isNone && strmShut x then
      let cause := if qaTileForm (stDst x) && fenced s (qaTile (stDst x)) then stFenced else stOutput
      qStall (unitStall s t u cause) (stDst x) cause
    else unitStall s t u stCredit
  | [] => unitStall s t u stCredit

/-- A packet waits at an output of a router for a cycle (port 4 is the delivery port). -/
def countWait (s : State) (t port net : Nat) : State :=
  let k := port + 8 * net
  modTile s t fun x => { x with stalls := mset 0 x.stalls k (satAdd 48 (mget 0 x.stalls k) 1) }

/-- An arrival unit of the data network waits for one cycle at the delivery port, since one of the control network came for the same queue in the same
cycle, which is decided first (R218). -/
def portWait (s : State) (t : Nat) (p : Packet) : Option State :=
  let first (x : Packet) : Bool := x.ctl && x.loc = .deliver t && x.dst == p.dst && x.cyc == p.cyc && (match x.body with
    | .msg .. | .desc _ | .tokc .. => true
    | _ => false)
  if !p.ctl && s.net.packets.any (fun e => first e.2) then some (qStall (countWait s t 4 0) p.dst stCredit) else none

/-! ### Delivery to a Wick queue (7.3) -/

/-- Complete a waiting `RECV` of a core when a masked queue has an entry (R227, R228); an entry that comes after the deadline finds it ended with
TIMEOUT and stays queued. -/
def wakeRecv (s : State) (t c : Nat) : State :=
  let w := getWick s t c
  match w.recv with
  | none => s
  | some r =>
    let ok (q : Nat) : Bool := bit r.mask q && wkQen w q && !(mget [] w.queues q).isEmpty
    let order := if r.rot then (List.range 8).map fun i => (w.rot + 1 + i) % 8 else List.range 8
    match order.find? ok with
    | none => s
    | some q =>
      if cyclesOf s t > r.deadline then wkFinish s t c r.gd ⟨BitVec.ofNat 32 (outcCode .timeout), false, r.apx⟩
      else
      let late := decide (cyclesOf s t = r.deadline)
      let s := wkFinish s t c r.gd ⟨BitVec.ofNat 32 (q * 16), false, r.apx⟩
      modWick s t c fun w => { w with rot := if r.rot then q else w.rot, tie := if late then satAdd 16 w.tie 1 else w.tie }

/-- The decision of Table 7.6 rows 3 to 6 at a Wick queue; `anyEpoch` for ingress events, `event` says which. -/
def wkDecide (s : State) (t c q n : Nat) (src epoch : Nat) (event : Bool) : Outc :=
  let w := getWick s t c
  if !wkQen w q || wkOddLocked s t c then .refusedFull
  else if gatedAt s t && (event || (wkQcls w q && foreign s t src)) then .refusedFull
  else if !event && !wkQcls w q && epoch != epochAt s t then .refusedEpoch
  else if (mget [] w.queues q).length + n > 16 then .refusedFull
  else .done

/-- Store an arrival unit (R210) or count its refusal (R220), and wake a `RECV`. -/
def wkStore (s : State) (t c q : Nat) (ents : List QEnt) (o : Outc) : State :=
  match o with
  | .done =>
    let s := modWick s t c fun w =>
      { w with queues := mset [] w.queues q (mget [] w.queues q ++ ents), qacc := mset 0 w.qacc q (satAdd 32 (mget 0 w.qacc q) 1) }
    let s := if (mget [] (getWick s t c).queues q).length == 16 then
        traceEv (modWick s t c fun w => { w with fullAt := mset 0 w.fullAt q s.time.ticks }) t utWick c 6 (c * 8 + q)
      else s
    wakeRecv s t c
  | .refusedFull | .refusedEpoch => modWick s t c fun w => { w with qref := mset 0 w.qref q (satAdd 32 (mget 0 w.qref q) 1) }
  | _ => s

/-- The words of a message as one CU or MU entry (Table 7.1). -/
def msgToken (epoch fold : Nat) (ws : List QEnt) : Token :=
  ⟨0, epoch, fold, ws.any (·.poi), ws.any (·.apx), 0, 0, 2 * ws.length, 0, none,
    ws.reverse.foldl (fun acc e => acc * 2 ^ 64 + e.w.toNat) 0⟩

end Sys2Proof.Machine
end

