-- ==== Sys2Proof/Machine/CuFlow.lean ====
section
/-!
DEFINITION. How a CU takes its operands and forms its tokens: elements of tokens, the weight feed, the running of a
vector program, the output stage (3.7), and the bookkeeping of masked layers (4.6).
-/
namespace Sys2Proof.Machine
open Sys2Proof

/-- A region's units may run: RUNNING or QUIESCING, not frozen, the tile not fenced (R247, R313, R325). -/
def unitRuns (s : State) (t : Nat) : Bool :=
  let r := regionAt s t
  (decide (r.st = .running) || decide (r.st = .quiescing)) && !r.heatGated && !unitsStill s t

/-- A micro-op at work finishes even when its region stops (R276). -/
def cuMoves (s : State) (t : Nat) : Bool := !unitsStill s t && decide ((regionAt s t).st ≠ .empty)

/-- The micro-op of a context slot. -/
def uopAt (c : Cu) (slot i : Nat) : W64 × W64 := mget (0, 0) c.uops (slot * 64 + i)
/-- The running state of a context slot. -/
def cuCtx (c : Cu) (slot : Nat) : CuCtx := mget CuCtx.idle c.ctxs slot
/-- Change the running state of a context slot. -/
def setCtx (c : Cu) (slot : Nat) (x : CuCtx) : Cu := { c with ctxs := mset CuCtx.idle c.ctxs slot x }
/-- `CU_CFG` of a slot (Table 3.5). -/
def cuCfg (c : Cu) (slot : Nat) : Nat := (mget 0 c.cfg slot).toNat
/-- The six words of a vector program; all pass with `VEN` = 0. -/
def vprogOf (c : Cu) (slot : Nat) (w : W64 × W64) : List Nat :=
  if uVen w then (List.range 6).map fun i => (mget 0 c.vprog (slot * 96 + uVprog w * 6 + i)).toNat
  else List.replicate 6 0

/-- A CU as a micro-op at work sees it: one that a COMMIT wave met goes on under the configuration in which it began (R115, R132). -/
def cuOf (c : Cu) (run : URun) : Cu :=
  match c.old with
  | some o => if run.late then { c with uops := o.uops, vprog := o.vprog, cfg := o.cfg, creg := o.creg, pred := o.pred, pinv := o.pinv, ctxs := o.ctxs } else c
  | none => c

/-- The micro-op that runs. -/
def runUop (c : Cu) (run : URun) : W64 × W64 := uopAt (cuOf c run) run.slot run.uop

/-- The elements of a format that a token's payload holds; FP6 in whole groups (R44). -/
def tokCount (f : Fmt) (k : Token) : Nat :=
  match f with
  | .e3m2 | .e2m3 => k.len * 32 / 24 * 4
  | .none => 0
  | g => k.len * 32 / fmtBits g

/-- The element codes of a token. -/
def tokElems (f : Fmt) (k : Token) : List Nat := (List.range (tokCount f k)).map (elemAt f k.val)

/-- An element of a token: a control token holds none. -/
def opElems (f : Fmt) (k : Token) : List Nat := if k.ctl.isSome then [] else tokElems f k

/-- Pop tokens into an operand until `k` elements are held, as far as the queue goes (R86). An end marker that follows elements ends the operand,
whose other elements are zero (assumption 108). `scl` fills the scales. -/
def fillPart : Nat → State → Nat → Nat → Nat → Fmt → Nat → Bool → OpPart → OpPart × State
  | 0, s, _, _, _, _, _, _, p => (p, s)
  | n + 1, s, t, u, q, f, k, scl, p =>
    if k ≤ (if scl then p.scl.length else p.el.length) || (p.ended && !scl) then (p, s)
    else match takeTok s t u q with
      | none => (p, s)
      | some (tok, s) =>
        let l := opElems f tok
        let p := { p with poi := p.poi || tok.poi, apx := p.apx || tok.apx, tag := p.tag.or (some tok.tag) }
        fillPart n s t u q f k scl
          (if scl then { p with scl := p.scl ++ l }
           else { p with el := p.el ++ l, ended := tok.ctl == some 2 && !p.el.isEmpty })

/-- Scales that an A operand of `k` elements needs (R96). -/
def sclNeed (w : W64 × W64) : Nat := let len := sclLen (uScla w); if len == 0 then 0 else (uK w + len - 1) / len

/-- Take what has come of the A operand of a row and of its scales (R86, R96); the answer says whether it is whole. -/
def fillA (s : State) (t u : Nat) (w : W64 × W64) (p : OpPart) : OpPart × State × Bool :=
  let a := fillPart (uK w + 1) s t u (uInq w) (uAfmt w) (uK w) false p
  let b := fillPart (sclNeed w + 1) a.2 t u (uInq w ^^^ 1) .uint8 (sclNeed w) true a.1
  (b.1, b.2, (b.1.ended || decide (uK w ≤ b.1.el.length)) && decide (sclNeed w ≤ b.1.scl.length))

/-- A whole operand as a row. -/
def partRow (w : W64 × W64) (p : OpPart) : ARow := ⟨p.el.take (uK w), p.scl, p.poi, p.apx⟩

/-- What was taken from a feed. -/
structure Fed where
  bytes : List Byte
  poi : Bool
  pcols : List Nat
  apx : Bool
  deriving DecidableEq, Repr

/-- Nothing taken. -/
def Fed.none : Fed := ⟨[], false, [], false⟩

/-- Take `n` bytes from the front of a feed; none if it holds fewer. -/
def feedTake : List FeedBlk → Nat → Fed → Option (Fed × List FeedBlk)
  | l, n, acc =>
    if n == 0 then some (acc, l)
    else match l with
      | [] => none
      | b :: rest =>
        let acc := { acc with poi := acc.poi || b.poi, pcols := acc.pcols ++ b.pcols, apx := acc.apx || b.apx }
        if b.last then none
        else if b.data.length ≤ n then feedTake rest (n - b.data.length) { acc with bytes := acc.bytes ++ b.data }
        else some ({ acc with bytes := acc.bytes ++ b.data.take n }, { b with data := b.data.drop n } :: rest)

/-- The feed of a generator program. -/
def cuFeed (c : Cu) (prog : Nat) : List FeedBlk := mget [] c.feed prog
/-- Replace the feed of a generator program. -/
def setFeed (c : Cu) (prog : Nat) (l : List FeedBlk) : Cu := { c with feed := mset [] c.feed prog l }

/-- The lower MU of the pair a micro-op draws from (R79). -/
def muLow (k : Nat) (w : W64 × W64) : Nat := if uWpair w then 2 * (1 - k) else 2 * k

/-- A word of a generator program of an MU in its current fold. -/
def progWord (s : State) (t m p i : Nat) : Nat :=
  (mget 0 (getMu s t m).progs (curSlot (getFlow s t (50 + m)) * 32 + p * 4 + i)).toNat

/-- The generator that feeds a CU from a program. -/
def feedGen (s : State) (t k : Nat) (w : W64 × W64) : Option Gen :=
  ((getMu s t (muLow k w)).gens ++ (getMu s t (muLow k w + 1)).gens).find? (fun e => e.2.prog == uAgp w && e.2.cu == some k) |>.map (·.2)

/-- The weight feed of a micro-op is a gather (R131). -/
def isGather (s : State) (t k : Nat) (run : URun) (w : W64 × W64) : Bool :=
  if run.late then
    (match feedGen s t k w with | some g => bits g.w0.toNat 61 3 == 2 | none => false) || (cuFeed (getCu s t k) (uAgp w)).any (·.last)
  else bits (progWord s t (muLow k w) (uAgp w) 0) 61 3 == 2

/-! ### Format errors (R128, R129) -/

/-- The fold of a micro-op. -/
def uopFold (s : State) (t k : Nat) (run : URun) : Nat :=
  match (getCu s t k).old with
  | some o => if run.late then o.fold else (getFlow s t (48 + k)).curFold
  | none => (getFlow s t (48 + k)).curFold

/-- `IDETAIL` of a sparse-format incident (Table 4.7). -/
def spDetail (spat : Nat) (e : SpErr) : Nat := spat * 2 ^ 29 + e.col * 2 ^ 24 + e.kpos % 2 ^ 24

/-- An incident of a micro-op, with its operation fields (R500). -/
def uopInc (s : State) (cls t k : Nat) (run : URun) (w : W64 × W64) (detail : Nat) : Inc :=
  { tileInc s cls utCu t k detail with opv := true, uop := run.uop, opc := uOpc w, fold := uopFold s t k run }

/-- Raise the one incident of a block with format errors. -/
def raiseSp (s : State) (t k : Nat) (run : URun) (w : W64 × W64) (errs : List SpErr) : State :=
  match errs with
  | [] => s
  | e :: _ => raiseInc s { uopInc s e.cls t k run w (spDetail (uSpat w) e) with count := errs.length }

/-! ### Masked layers (4.6) -/

/-- Fields of `PRED_CTL` (Table 4.8). -/
def prPmwait (w : W64) : Nat := bits w.toNat 32 16
def prFbagp (w : W64) : Nat := bits w.toNat 29 3
def prVragp (w : W64) : Nat := bits w.toNat 26 3
def prVuop (w : W64) : Nat := bits w.toNat 20 6
def prMuop (w : W64) : Nat := bits w.toNat 14 6
def prPvfrac (w : W64) : Nat := bits w.toNat 11 3
def prPpol (w : W64) : Bool := bit w.toNat 9
def prMsrc (w : W64) : Bool := bit w.toNat 8

/-- The denominator of a sampled fraction; 0 for none (R135). -/
def pvDen (c : Nat) : Nat := match c with | 1 => 64 | 2 => 16 | 3 => 4 | 4 => 1 | _ => 0

/-- The `PRED_CTL` words of a slot, with their numbers; a word of zero is absent. -/
def predWords (c : Cu) (slot : Nat) : List (Nat × W64) :=
  (List.range 4).filterMap fun i =>
    let w := mget 0 c.pred (slot * 4 + i)
    if w = 0 then none else some (i, w)

/-- The word whose masked `MATMUL` a micro-op is. -/
def predOf (c : Cu) (slot uop : Nat) : Option (Nat × W64) := (predWords c slot).find? fun e => prMuop e.2 == uop

/-- The word whose verification micro-op a micro-op is. -/
def verOf (c : Cu) (slot uop : Nat) : Option (Nat × W64) :=
  (predWords c slot).find? fun e => prVuop e.2 == uop && !prMsrc e.2 && decide (prPvfrac e.2 ≠ 0)

/-- Add to a predictor counter (Table 4.9, R143). -/
def pcAdd (c : Cu) (slot word ctr n : Nat) : Cu :=
  { c with pc := mmod 0 c.pc ((slot * 4 + word) * 9 + ctr) fun x => satAdd 48 x n }

/-- Pack element codes (R44). -/
def packElems (f : Fmt) (l : List Nat) : Nat := l.zipIdx.foldl (fun acc e => acc + e.1 % 2 ^ fmtBits f * 2 ^ (fmtBits f * e.2)) 0

/-- The size and overflow size of a ring program (R168). -/
def ringSizes (s : State) (t m p : Nat) : Nat × Nat :=
  (bits (progWord s t m p 1) 0 21,
    if bit (progWord s t m p 1) 62 then bits (progWord s t m p 3) 0 32 * 4096 else 0)

/-- Where the ring of a ring program lies. -/
def progRing (s : State) (t m p : Nat) : RingAt :=
  ⟨m, bits (progWord s t m p 0) 0 20, (ringSizes s t m p).1, bits (progWord s t m p 2) 0 48, (ringSizes s t m p).2⟩

/-- Copy the VHB and the mask of a sampled invocation into the verification ring; false if it lacks room (R136). The spec leaves the body of
such a record open: the model packs the VHB elements, then the scale bytes, then the mask bytes, and pads to 8 bytes (assumption 109). -/
def verCopy (s : State) (t k : Nat) (w : W64 × W64) (p : W64) (mask : List Byte) : State × Bool :=
  let c := getCu s t k
  let m := muLow k w
  let body := leBytes ((uK w * fmtBits (uAfmt w) + 7) / 8) (packElems (uAfmt w) c.vhb) ++
    c.vhbScl.map (BitVec.ofNat 8 ·) ++ mask
  let data := body ++ List.replicate ((8 - body.length % 8) % 8) 0
  let rec0 : RingRec := ⟨0, 8 + data.length, false, true, qaMake t (48 + k) 0, 4, c.vhbPoi, c.vhbApx, data, none⟩
  match ringAdd s t (progRing s t m (prVragp p)) (mget RingRt.empty (getMu s t m).rings (prVragp p)) rec0 with
  | some r => (modMu r.1 t m fun x => { x with rings := mset RingRt.empty x.rings (prVragp p) r.2 }, true)
  | none => (s, false)

/-! ### The vector program -/

/-- The stage operation reads source b. -/
def usesB (o : Nat) : Bool :=
  decide (1 ≤ o) && decide (o ≤ 6) || o == 9 || decide (0x0A ≤ o) && decide (o ≤ 0x0E) || o == 0x12 ||
    decide (0x30 ≤ o) && decide (o ≤ 0x35) || o == 0x45 || o == 0x50

/-- The containers of a token of XP96 values; none of another. -/
def tokXps (v : Vec) : List Xp := if v.fmt == .xp96 then v.el.map xpUnpack else []

/-- A token as a vector; a token without a format is read in the stage's. -/
def tokVec (f : Fmt) (k : Token) : Vec :=
  let g := if fmtOf k.fmt = .none then f else fmtOf k.fmt
  Vec.of g (tokElems g k)

/-- A token brings poison: its marker, or `POI` in an XP96 container (R114). -/
def tokPoi (v : Vec) (k : Token) : Bool := k.poi || (tokXps v).any (·.poi)

/-- Lanes of a constant read in a format. -/
def constVec (f : Fmt) (words : Nat → Nat) : Vec :=
  let all := (List.range 32).foldl (fun acc i => acc + words i % 2 ^ 32 * 2 ^ (32 * i)) 0
  Vec.of f ((List.range (vecLanes f)).map (elemAt f all))

/-- A vector at the head of the stages; XP96 values take the wide bypass (R97). -/
def headPass (run : URun) (v : Vec) (poi apx : Bool) : Pass :=
  ⟨if v.fmt == .xp96 then some (tokXps v) else none, if v.fmt == .xp96 then Vec.empty else v, Vec.empty, none, Vec.empty, none,
    run.topk, run.seen, false, poi, apx⟩

/-- A source of a stage (Table 3.7). -/
def srcVec (s : State) (t k : Nat) (run : URun) (w code : Nat) (p : Pass) : Option (Vec × Bool × Bool × State) :=
  match code with
  | 1 => (takeTok s t (48 + k) (sQsel w)).map fun r => let v := tokVec (sVfmt w) r.1; (v, tokPoi v r.1, r.1.apx, r.2)
  | 2 => some (constVec (sVfmt w) fun i => (mget 0 (cuOf (getCu s t k) run).creg (run.slot * 128 + sCsel w * 32 + i)).toNat, false, false, s)
  | 3 => some (constVec (sVfmt w) fun _ => sImm w, false, false, s)
  | 4 => some (p.sec, false, false, s)
  | _ => some (p.res, false, false, s)

/-- Run the stages from `st` on; none if a queue that a stage reads is empty. A two-stage operation takes the next stage
(R98); `VTOPK` stops what follows until the micro-op ends (R103). -/
def runStages : List Nat → State → Nat → Nat → URun → RndEnv → Int → Nat → Bool → Pass → Option (Pass × State)
  | [], s, _, _, _, _, _, _, _, p => some (p, s)
  | w :: rest, s, t, k, run, e, osh, st, taken, p =>
    if p.stop then some (p, s)
    else if taken then runStages rest s t k run e osh (st + 1) false p
    else if sVop w == 0 && sSrca w == 0 then
      runStages rest s t k run e osh (st + 1) false { p with sec := Vec.empty }
    else
      match srcVec s t k run w (sSrca w) p with
      | none => none
      | some (a, pa, xa, s) =>
        match (if usesB (sVop w) then srcVec s t k run w (sSrcb w) p else some (Vec.empty, false, false, s)) with
        | none => none
        | some (b, pb, xb, s) =>
          let c0 := (mget 0 (cuOf (getCu s t k) run).creg (run.slot * 128 + sCsel w * 32)).toNat
          let p := { p with poi := p.poi || pa || pb, apx := p.apx || xa || xb, xp := if a.fmt == .xp96 then some (tokXps a) else p.xp }
          runStages rest s t k run e osh (st + 1) (sTwo w) (stageRun e osh st w a b c0 p)

/-! ### The output stage (3.7) -/

/-- Elements of a format in one token (R105). -/
def tokPer (f : Fmt) : Nat := match f with | .e3m2 | .e2m3 => 168 | .none => 1 | g => max 1 (1024 / fmtBits g)

/-- Cut codes into token payloads: length in 32-bit words and value. -/
def cutTokens (f : Fmt) : Nat → List Nat → List (Nat × Nat)
  | 0, _ => []
  | n + 1, l =>
    if l.isEmpty then []
    else
      let h := l.take (tokPer f)
      ((h.length * fmtBits f + 31) / 32, packElems f h) :: cutTokens f n (l.drop (tokPer f))

/-- The tag of a token (Table 8.8 `TAGM`). -/
def tagFor (x : Strm) (tag count : Nat) : Nat :=
  match stTagm x with | 1 => tag | 2 => count % 256 | _ => x.seq % 256

/-- What a unit's tokens carry: the unit and stream entry, whether the entry is that of the configuration before a COMMIT wave, the epoch, the
inputs of their tags, and the markers. -/
structure Emit where
  t : Nat
  u : Nat
  ostr : Nat
  late : Bool
  epoch : Nat
  tag : Nat
  count : Nat
  poi : Bool
  apx : Bool
  deriving DecidableEq, Repr

/-- The tokens of a micro-op carry the epoch in which it began (R115). -/
def cuEmit (s : State) (t k ostr : Nat) (run : URun) (poi apx : Bool) : Emit :=
  ⟨t, 48 + k, ostr, run.late, run.epoch, run.tag, (cuCtx (cuOf (getCu s t k) run) run.slot).count, poi, apx⟩

/-- The stream entry that tokens go out by. -/
def outStrm (s : State) (e : Emit) : Strm :=
  match (if e.late then (getCu s e.t (e.u - 48)).old else none) with
  | some o => mget Strm.none o.streams e.ostr
  | none => getStrm (getFlow s e.t e.u) e.ostr

/-- Replace the stream entry that tokens go out by. -/
def putStrm (s : State) (e : Emit) (x : Strm) : State :=
  match (if e.late then (getCu s e.t (e.u - 48)).old else none) with
  | some o => modCu s e.t (e.u - 48) fun c => { c with old := some { o with streams := mset Strm.none o.streams e.ostr x } }
  | none => modFlow s e.t e.u fun f => setStrm f e.ostr x

/-- Stamp a token of a stream (R250): a data payload, or a control token's kind and value. -/
def stampTok (s : State) (e : Emit) (len val : Nat) (ctl : Option Nat) : State × Token :=
  let x := outStrm s e
  (putStrm s e { x with seq := (x.seq + 1) % 65536 },
    ⟨x.seq, e.epoch, stDfold x, e.poi, e.apx, tagFor x e.tag e.count, stSidx x, len, if ctl.isSome then 0 else stFmt x, ctl, val⟩)

/-- Hand tokens to the router port of a unit (R105 step 5). -/
def pushOut (s : State) (e : Emit) (ks : List Token) : State :=
  if ks.isEmpty then s
  else modFlow s e.t e.u fun f => { f with out := f.out ++ [⟨e.ostr, ks, if e.late then some (outStrm s e) else none⟩] }

/-- Stamp and hand over payloads. -/
def emitToks (s : State) (e : Emit) (ps : List (Nat × Nat)) : State :=
  let r := ps.foldl (fun (a : State × List Token) p =>
    let z := stampTok a.1 e p.1 p.2 none
    (z.1, a.2 ++ [z.2])) (s, [])
  pushOut r.1 e r.2

/-- Emit a control token. -/
def emitCtl (s : State) (e : Emit) (kind val : Nat) : State :=
  let z := stampTok s e 1 val (some kind)
  pushOut z.1 e [z.2]

/-- Count an element in the exponent histogram of a stream (R76, R77). -/
def histCount (c : Cu) (ostr bin : Nat) : Cu :=
  { c with hist := mmod 0 c.hist (ostr * 36 + bin) fun x => satAdd 32 x 1 }

/-- The random bits of the output conversion (R70: place 0). -/
def outRnd (e : RndEnv) (w : W64 × W64) (i : Nat) : Rnd := rndOf (uRnd w) (rndBits e 0 i)

/-- The codes that the output stage writes and the bins it counts, from XP96 results or from lanes (R105 steps 1, 2). Lanes of a gathered row
beyond its neurons are written +0 (R131). -/
def outCodes (e : RndEnv) (w : W64 × W64) (hb : Int) (p : Pass) : Fmt × List (Nat × Nat) :=
  let pad (i : Nat) : Bool := match p.valid with | some n => decide (n ≤ i) | none => false
  match p.xp with
  | some xs =>
    let x (v : Xp × Nat) : Xp := if pad v.2 then Xp.zero v.1.f else v.1
    if uOfmt w == .xp96 then (.xp96, xs.zipIdx.map fun v => (xpPack (x v), histXp hb (x v)))
    else (uOfmt w, xs.zipIdx.map fun v =>
      let c := conv (uOfmt w) (outRnd e w v.2) (uOvm w) (uOvf w) true (xpNum (x v) (uOshift w))
      (c.code, histBin (uOfmt w) hb c))
  | none =>
    let v := p.res
    let one (x : Nat × Nat) : Conv :=
      if pad x.2 then ⟨0, false, false⟩
      else if v.fmt == uOfmt w then
        let c := canonCode v.fmt x.1
        let g := lget 0 v.fl x.2
        ⟨c.code, c.flushed || g == 1, c.nanZero || g == 2⟩
      else conv (uOfmt w) (outRnd e w x.2) (uOvm w) (uOvf w) false (decodeFmt v.fmt x.1)
    (uOfmt w, v.el.zipIdx.map fun x => let c := one x; (c.code, histBin (uOfmt w) hb c))

/-- The rounding environment of a micro-op for the beat of its row that begins at lane `off` (R70, R71, R99). -/
def rndEnv (run : URun) (w : W64 × W64) (ep : EPlace) (off : Nat) : RndEnv :=
  ⟨run.seed, run.tid, run.step, if uOfmt w = .none then run.seen else ep.base + ep.pitch * run.row + off⟩

/-- Write one vector or XP96 row: convert, count, pack, stamp, hand over. -/
def outputPass (s : State) (t k ostr : Nat) (run : URun) (w : W64 × W64) (e : RndEnv) (p : Pass) : State :=
  if uOfmt w = .none then s
  else
    let em := cuEmit s t k ostr run p.poi p.apx
    let r := outCodes e w (stHbase (outStrm s em)) p
    let s := modCu s t k fun c => r.2.foldl (fun c z => histCount c ostr z.2) c
    emitToks s em (cutTokens r.1 40 (r.2.map (·.1)))

end Sys2Proof.Machine
end

