-- ==== Sys2Proof/Machine/CuOps.lean ====
section
/-!
DEFINITION. The commands of the CUs (chapters 3 and 4): starting a context, issuing a micro-op, the micro-ops, steering,
and the mask deadline.
-/
namespace Sys2Proof.Machine
open Sys2Proof

/-! ### Starting and issuing -/

/-- The stage word V0 of a micro-op. -/
def v0Of (c : Cu) (slot : Nat) (w : W64 × W64) : Nat := (vprogOf c slot w).headD 0

/-- A micro-op whose V0 steers (R262). -/
def isSteer (c : Cu) (slot : Nat) (w : W64 × W64) : Bool :=
  uOpc w == 2 && (let o := sVop (v0Of c slot w); o == 0x51 || o == 0x52 || o == 0x53)

/-- The queues that a micro-op reads. -/
def uopQueues (c : Cu) (slot : Nat) (w : W64 × W64) : List Nat :=
  let q := uInq w
  let v0 := v0Of c slot w
  let own : List Nat :=
    if uOpc w == 1 then (if uMode w == 1 && uXkeep w then [] else [q] ++ (if uScla w == 0 then [] else [q ^^^ 1]))
    else if uOpc w == 2 then
      (if sVop v0 == 0x52 then [q ^^^ 1, sQsel v0, sQsel v0 + 1] else if isSteer c slot w then [q, q ^^^ 1] else [q])
    else if uOpc w == 4 then [q] ++ (if uScla w == 0 then [] else [q ^^^ 1])
    else []
  let more := if uOpc w == 1 || uOpc w == 2 then
    (vprogOf c slot w).filterMap fun x =>
      if sVop x != 0 && sSrca x == 1 || usesB (sVop x) && sSrcb x == 1 then some (sQsel x) else none
    else []
  own ++ more

/-- CU_CONTEXT_START (R91): a context that is not running begins at `ENTRY` when a queue that its entry micro-op reads
holds a token; an entry micro-op that reads none starts at once (assumption 29). -/
def execCuContextStart (t : TileId) (k : CuIx) (s : State) : Out :=
  let c := getCu s t.val k.val
  let f := getFlow s t.val (48 + k.val)
  let slot := curSlot f
  let entry := bits (cuCfg c slot) 30 6
  let w := uopAt c slot entry
  let x := cuCtx c slot
  let qs := uopQueues c slot w
  let head := qs.findSome? (headTok f)
  if !unitRuns s t.val || x.running || uOpc w == 0 || c.old.isSome || (f.foldReq && c.acc.isEmpty) || (!qs.isEmpty && head.isNone) then .next s
  else
    let tag := (head.map (·.tag)).getD 0
    .next (modCu s t.val k.val fun c =>
      setCtx c slot { x with running := true, next := entry, startTag := tag, count := (x.count + 1) % 2 ^ 32 })

/-- Slots that the operand of a weight-stationary `MATMUL` fills: how many from `SLOT` on. -/
def uSlots (w : W64 × W64) : Nat :=
  let kk := blkK (opDepth (uAfmt w) (uWfmt w)) (uSpat w)
  (uK w + kk - 1) / kk

/-- A slot that an unfinished `LOADW` has still to write is one that a `MATMUL` reads (R84). -/
def slotsAwaited (c : Cu) (w : W64 × W64) : Bool :=
  match c.loading with
  | some r =>
    let l := runUop c r
    uOpc w == 1 && uMode w == 0 && decide (uSlot l + r.row < uSlot w + uSlots w) && decide (uSlot w ≤ uSlot l + bits l.2.toNat 0 4)
  | none => false

/-- The micro-op of a context has what it needs to begin. -/
def uopReady (c : Cu) (f : Flow) (slot : Nat) (w : W64 × W64) : Bool :=
  if uOpc w == 3 || uOpc w == 15 then c.loading.isNone
  else
    match uopQueues c slot w with
    | [] => !(cuFeed c (uAgp w)).isEmpty
    | q :: _ => (headTok f q).isSome

/-- A matrix stage issues only in an issue cycle of its field (R556). -/
def issueOpen (s : State) (t : Nat) : Bool :=
  let b := (mget FieldSt.reset s.fields (fieldOf t)).ibud
  rateOpen b (fieldCycles s (fieldOf t))

/-- A pause for the issue budget or for heat falls on the work of the command that the tile's region engine carries out (R468): `THR`, and a
cycle of `DEFER`. -/
def throttle (s : State) (t : Nat) : State :=
  match regionOf s t with
  | none => s
  | some r =>
    let mark (c : Cmd) : Cmd := if c.ph = .ready then c else { c with thr := true, defer := c.defer + 1 }
    let upd (e : Nat × Eng) : Nat × Eng :=
      if e.1 == r then (e.1, { e.2 with cmds := match e.2.cmds with
        | c :: rest => mark c :: rest
        | [] => [] }) else e
    { s with eng := { s.eng with engs := s.eng.engs.map upd } }

/-- `TDET` of a micro-op event (Table 17.7). -/
def uopDet (s : State) (t uop fold : Nat) : Nat := uop + fold * 64 + ((regionOf s t).getD 0) * 256

/-- The running state of a micro-op that begins: it keeps the epoch, seed, step and tensor identifier of this moment (R71). -/
def runBegin (s : State) (t k slot uop tag : Nat) (ver : Option Nat) : URun :=
  let r := regionAt s t
  let w := uopAt (getCu s t k) slot uop
  { URun.fresh with slot := slot, uop := uop, tag := tag, ver := ver, epoch := epochAt s t, seed := r.seed, step := r.step.toNat,
                    tid := stTid (getStrm (getFlow s t (48 + k)) (uOstr w)) }

/-- Start a micro-op. A `LOADW` goes on beside the micro-ops that follow it (R84). -/
def issueUop (s : State) (t k : Nat) (run : URun) : State :=
  let s := modCu s t k fun c =>
    let w := uopAt c run.slot run.uop
    let c := { c with rot := ofBit run.ver.isSome }
    if uOpc w == 3 then setCtx { c with loading := some run } run.slot { cuCtx c run.slot with next := uNext w }
    else { c with issued := some run }
  traceEv s t utCu k 1 (uopDet s t run.uop (getFlow s t (48 + k)).curFold)

/-- A latency-policy verification entry waits in its ring (R136): the `PRED_CTL` word. -/
def verWaiting (s : State) (t k slot : Nat) : Option (Nat × W64) :=
  let c := getCu s t k
  (predWords c slot).find? fun e =>
    !prPpol e.2 && !prMsrc e.2 && decide (prPvfrac e.2 ≠ 0) &&
      !(mget RingRt.empty (getMu s t (muLow k (uopAt c slot (prMuop e.2)))).rings (prVragp e.2)).recs.isEmpty

/-- The latency-policy verification entries of a CU that wait when its region has drained or takes a COMMIT wave are abandoned, each counted in
`PC_DROP` (R144). -/
def dropVers (s : State) (t k : Nat) : State :=
  (List.range 4).foldl (fun s slot =>
    let c := getCu s t k
    ((predWords c slot).filter fun e => !prPpol e.2 && !prMsrc e.2 && decide (prPvfrac e.2 ≠ 0)).foldl (fun s e =>
      let m := muLow k (uopAt c slot (prMuop e.2))
      let n := (mget RingRt.empty (getMu s t m).rings (prVragp e.2)).recs.length
      if n == 0 then s
      else modMu (modCu s t k fun c => pcAdd c slot e.1 6 n) t m fun x => { x with rings := mset RingRt.empty x.rings (prVragp e.2) RingRt.empty }) s) s

/-- A verification of the strict policy is due: it belongs to the invocation's work (R144). -/
def strictDue (c : Cu) : Bool :=
  c.ctxs.any fun x => x.2.running && (match verOf c x.1 x.2.next with
    | some e => prPpol e.2
    | none => false)

/-- Take the oldest verification entry: the VHB, its scales and the mask come from the record (R136). -/
def takeVer (s : State) (t k slot : Nat) (e : Nat × W64) : State :=
  let c := getCu s t k
  let w := uopAt c slot (prMuop e.2)
  let m := muLow k w
  let p := prVragp e.2
  let rg := mget RingRt.empty (getMu s t m).rings p
  match rg.recs with
  | [] => s
  | r :: _ =>
    match ringFetch s t (progRing s t m p) r with
    | none => s
    | some (data, poi, s) =>
      let sz := ringSizes s t m p
      let s := modMu s t m fun x => { x with rings := mset RingRt.empty x.rings p (ringTake sz.1 sz.2 rg) }
      let nb := (uK w * fmtBits (uAfmt w) + 7) / 8
      let ns := sclNeed w
      let v := leNat (data.take nb)
      modCu s t k fun c =>
        { cuMemPut c 48 with
          vhb := (List.range (uK w)).map (elemAt (uAfmt w) v), vhbPoi := poi, vhbApx := r.apx,
          vhbScl := ((data.drop nb).take ns).map (·.toNat), lastMask := data.drop (nb + ns) }

/-- MICRO_OP_ISSUE (R92): of the ready micro-op of the running context and a waiting verification the one with the lower `PRIO`, by rotation
among equals. The contexts of other folds have nothing ready, since a unit runs one at a time (8.9). A matrix micro-op waits for an issue cycle,
and one whose slots are still being loaded for the load (R84). -/
def execMicroOpIssue (t : TileId) (k : CuIx) (s : State) : Out :=
  let c := getCu s t.val k.val
  let u := 48 + k.val
  let f := getFlow s t.val u
  let slot := curSlot f
  let x := cuCtx c slot
  let w := uopAt c slot x.next
  let stall (s : State) (cause : Nat) : State := unitStall s t.val u cause
  if !unitRuns s t.val || c.issued.isSome || c.old.isSome then .next s
  else if f.foldReq && c.acc.isEmpty then .next (stall s stFold)
  else
    -- rows held: the switch waits for the next micro-op with AOUT = 1 (R90)
    let s := if f.foldReq then stall s stFold else s
    let go := x.running && uopReady c f slot w && !slotsAwaited c w
    let pace (s : State) : State := throttle (powerStall s t.val u (uInq w)) t.val
    let first := match verWaiting s t.val k.val slot with
      | some e => if go && (decide (uPrio w < uPrio (uopAt c slot (prVuop e.2))) || uPrio w == uPrio (uopAt c slot (prVuop e.2)) && c.rot == 1)
          then none else some e
      | none => none
    match first with
    | some e =>
      if !issueOpen s t.val then .next (pace s)
      else .next (issueUop (takeVer s t.val k.val slot e) t.val k.val (runBegin s t.val k.val slot (prVuop e.2) 0 (some e.1)))
    | none =>
      if !go then .next (if x.running then stall s stInput else s)
      else if (uOpc w == 1 || uOpc w == 3) && !issueOpen s t.val then .next (pace s)
      else .next (issueUop s t.val k.val
        (runBegin s t.val k.val slot x.next ((uopQueues c slot w).findSome? (headTok f) |>.map (·.tag) |>.getD x.startTag) none))

/-! ### Ending a micro-op -/

/-- Raise the one incident of a kind for contributions outside the scale window (R648). -/
def raiseWin (s : State) (t k : Nat) (run : URun) (w : W64 × W64) (cls n detail : Nat) : State :=
  if n == 0 then s else raiseInc s { uopInc s cls t k run w detail with count := n }

/-- The outcome of a micro-op (R114, R139). -/
def runOutc (r : URun) : Outc := if r.poi then .poisoned else if r.apx then .approx else .done

/-- Emit what `VTOPK` kept: the values and the indices (R103); none while a queue that a later stage reads is empty. With `OFMT` none the values
go out in their lane format and the indices after them (assumption 30). -/
def emitTopk (s : State) (t k : Nat) (run : URun) (w : W64 × W64) (ep : EPlace) (st : Nat) (fmt : Fmt) (kk : Nat) : Option State :=
  let c := cuOf (getCu s t k) run
  let nan := match fmt with | .fp32 => 0x7FC00000 | g => (fmtSpecial g false).2.2
  let at_ (i : Nat) : Nat × Nat := lget (nan, 0xFFFFFFFF) run.topk i
  let vals : Vec := Vec.of fmt ((List.range kk).map fun i => (at_ i).1)
  let idx : Vec := Vec.of .int32 ((List.range kk).map fun i => (at_ i).2)
  let p : Pass := { headPass run vals run.poi run.apx with sec := idx, topk := [], seen := 0 }
  let e := rndEnv run w ep 0
  (runStages ((vprogOf c run.slot w).drop (st + 2)) s t k run e (uOshift w) (st + 2) false p).map fun (p, s) =>
    if uOfmt w = .none then
      let em := cuEmit s t k (uOstr w) run p.poi p.apx
      emitToks (emitToks s em (cutTokens p.res.fmt 40 p.res.el)) em (cutTokens p.sec.fmt 40 p.sec.el)
    else outputPass s t k (uOstr w) run w e p

/-- The stage of a `VTOPK` in a program. -/
def topkStage (ws : List Nat) : Option (Nat × Nat) :=
  (ws.zipIdx.find? fun e => sVop e.1 == 0x44).map fun e => (e.2, e.1)

/-- The end of a masked invocation: counters, sampling, verification (R135 to R140, R143). What a COMMIT wave overtook is sampled as it would
have been and not verified (R144). -/
def maskEnd (s : State) (t k : Nat) (run : URun) (w : W64 × W64) (e : Nat × W64) : State :=
  let c := getCu s t k
  let key := run.slot * 4 + e.1
  let add (s : State) (ctr n : Nat) : State := modCu s t k fun c => pcAdd c run.slot e.1 ctr n
  let s := add (add s 0 1) 1 run.skipped
  let pv := mget 0 (cuOf c run).pinv key
  let s := if run.late then s else modCu s t k fun c => { c with pinv := mset 0 c.pinv key ((pv + 1) % 2 ^ 32) }
  if prMsrc e.2 then s
  else
    let s := if run.apx then add s 2 1 else s
    let den := pvDen (prPvfrac e.2)
    if den == 0 || pv % den != 0 then s
    else
      let s := add s 4 1
      if prPpol e.2 then s
      else if run.late then add s 6 1
      else
        let r := verCopy s t k w e.2 c.lastMask
        if r.2 then r.1 else add s 6 1

/-- A micro-op that a COMMIT wave met has ended: with the last one the old configuration, the rows and the VHB go (R281). -/
def lateEnd (c : Cu) : Cu :=
  if c.old.isSome && c.issued.isNone && c.loading.isNone then
    { c with old := none, acc := [], vhb := [], vhbScl := [], vhbPoi := false, vhbApx := false, feed := [] }
  else c

/-- A micro-op ends: outputs of `VTOPK`, incidents, counters, and the next micro-op of the context; none while the later stages of a `VTOPK`
wait for a queue. Under the strict policy the verification micro-op follows the masked one (R137). -/
def endUop (s : State) (t k : Nat) (run : URun) (w : W64 × W64) (ep : EPlace) : Option State :=
  let c := cuOf (getCu s t k) run
  let top := if uOpc w == 2 || (uOpc w == 1 && uAout w) then topkStage (vprogOf c run.slot w) else none
  (match top with
    | some (st, sw) => emitTopk s t k run w ep st (sVfmt sw) (bits (sImm sw) 0 6)
    | none => some s).map fun s =>
  let s := raiseWin s t k run w 0x0211 run.above run.aboveAt
  let s := raiseWin s t k run w 0x0212 run.below run.belowAt
  let s := match predOf c run.slot run.uop, uOpc w with
    | some e, 1 => maskEnd s t k run w e
    | _, _ => s
  let s := match verOf c run.slot run.uop with
    | some e =>
      if run.ver.isSome || prPpol e.2 then
        modCu s t k fun c =>
          let c := pcAdd (pcAdd c run.slot e.1 5 1) run.slot e.1 7 run.misses
          if prPpol e.2 then pcAdd c run.slot e.1 8 run.misses else c
      else s
    | none => s
  let strict := match predOf c run.slot run.uop with
    | some e => if prPpol e.2 && !prMsrc e.2 then some (prVuop e.2) else none
    | none => none
  let s := modCu s t k fun c =>
    if uOpc w == 3 then { c with loading := none }
    else
      let x := cuCtx c run.slot
      let more (v : Nat) : URun := { URun.fresh with
        slot := run.slot, uop := v, tag := run.tag, epoch := run.epoch, seed := run.seed, step := run.step, tid := run.tid, late := true }
      let c := { c with issued := if run.late then strict.map more else none }
      if run.ver.isSome || run.late then c
      else setCtx c run.slot { x with next := strict.getD (uNext w), running := x.running && uOpc w != 15, outc := runOutc run }
  let s := modFlow (modCu s t k lateEnd) t (48 + k) fun f => { f with idle := cyclesOf s t }
  traceEv s t utCu k 2 (uopDet s t run.uop (uopFold s t k run) + outcCode (runOutc run) * 2 ^ 16)

/-- Count one cycle of a stall cause of a CU. -/
def cuStall (s : State) (t k cause : Nat) : State := unitStall s t (48 + k) cause

/-- Where a micro-op at work is kept. -/
def putRun (s : State) (t k : Nat) (run : URun) : State := modCu s t k fun c => { c with issued := some run }

/-- End a micro-op, or wait to. -/
def endOr (s : State) (t k : Nat) (run : URun) (w : W64 × W64) (ep : EPlace) : State :=
  match endUop s t k run w ep with
  | some s => s
  | none => inStall (putRun s t k run) t (48 + k) (uInq w)

/-! ### The matrix micro-op -/

/-- The weight blocks of a weight-stationary row: slots with their K bases. -/
def slotBlocks (c : Cu) (w : W64 × W64) : List (WSlot × Nat) :=
  let kk := blkK (opDepth (uAfmt w) (uWfmt w)) (uSpat w)
  (List.range (uSlots w)).map fun g => (mget WSlot.empty c.slots (uSlot w + g), g * kk)

/-- Unpack blocks of a stream into resident form, raising their format errors. -/
def unpackTo (s : State) (t k : Nat) (run : URun) (w : W64 × W64) (kbase : Nat) (b : Fed) : WSlot × State :=
  let d := opDepth (uAfmt w) (uWfmt w)
  let r := unpackBlock (uWfmt w) d (uSpat w) (uSclw w) (uK w) kbase (leNat b.bytes)
  (mkSlot (uWfmt w) d (uSpat w) (uSclw w) r.1 r.2.1 (b.poi || !r.2.2.isEmpty) b.pcols, raiseSp s t k run w r.2.2)

/-- The weight blocks of one dense or compressed streaming sweep, and whether they carry APPROX. -/
def streamBlocks : Nat → State → Nat → Nat → URun → W64 × W64 → Nat → List (WSlot × Nat) → Bool → Option (List (WSlot × Nat) × Bool × State)
  | 0, s, _, _, _, _, _, acc, apx => some (acc, apx, s)
  | n + 1, s, t, k, run, w, kbase, acc, apx =>
    if kbase ≥ uK w then some (acc, apx, s)
    else
      let d := opDepth (uAfmt w) (uWfmt w)
      match feedTake (cuFeed (getCu s t k) (uAgp w)) (blkBytes (uWfmt w) d (uSpat w) (uSclw w)) Fed.none with
      | none => none
      | some (b, rest) =>
        let s := modCu s t k fun c => setFeed c (uAgp w) rest
        let r := unpackTo s t k run w kbase b
        streamBlocks n r.2 t k run w (kbase + blkK d (uSpat w)) (acc ++ [(r.1, kbase)]) (apx || b.apx)

/-- The bytes of a tagged block of `n` bytes: the beat of its tag and those after it up to the next tag (R125, R161). Bytes that come after the
block are passed over; what is missing where the next tag has come is a free value (assumption 28). None while more may come. -/
def tagBytes (n : Nat) : List FeedBlk → Fed → Option (Fed × List FeedBlk)
  | [], acc => if n ≤ acc.bytes.length then some ({ acc with bytes := acc.bytes.take n }, []) else none
  | b :: rest, acc =>
    if b.tag.isSome || b.last then
      some ({ acc with bytes := acc.bytes.take n ++ (List.range (n - acc.bytes.length)).map fun i => BitVec.ofNat 8 (Config.feedGap i) }, b :: rest)
    else tagBytes n rest ⟨acc.bytes ++ b.data, acc.poi || b.poi, acc.pcols ++ b.pcols, acc.apx || b.apx⟩

/-- The blocks of one block-sparse sweep (R125 to R128): tags in order up to `END`, each checked in the order of Table 4.6. A beat without a tag
where a tag is due belongs to the block before (assumption 111). -/
def tagBlocks : Nat → State → Nat → Nat → URun → W64 × W64 → Option Nat → List (WSlot × Nat) →
    Option (List (WSlot × Nat) × Bool × Bool × State)
  | 0, _, _, _, _, _, _, _ => none
  | n + 1, s, t, k, run, w, prev, acc =>
    match (cuFeed (getCu s t k) (uAgp w)).dropWhile (fun b => b.tag.isNone && !b.last) with
    | [] => none
    | b :: rest =>
      let d := opDepth (uAfmt w) (uWfmt w)
      let tg := b.tag.getD 0xC000
      let fin := bit tg 15
      let nil := bit tg 14
      let kb := bits tg 0 14
      match (if nil then some (Fed.none, rest) else tagBytes (blkBytes (uWfmt w) d 0 (uSclw w)) rest ⟨b.data, b.poi, b.pcols, b.apx⟩) with
      | none => none
      | some (fed, rest) =>
        let s := modCu s t k fun c => setFeed c (uAgp w) rest
        let err : Option Nat :=
          if kb * d ≥ uK w && !(nil && fin) then some 0x0305
          else if nil && !fin then some 0x0306
          else if nil then none
          else match prev with
            | some p => if kb ≤ p then some 0x0306 else none
            | none => none
        let s := match err with
          | some cls => raiseSp s t k run w [⟨cls, 0, kb * d⟩]
          | none => s
        let bad := err.isSome
        let r := unpackTo s t k run w (kb * d) fed
        let acc := if bad || nil then acc else acc ++ [(r.1, kb * d)]
        if fin then some (acc, bad, fed.apx, s)
        else (tagBlocks n s t k run w (some kb) acc).map fun z => (z.1, z.2.1 || bad, z.2.2.1 || fed.apx, z.2.2.2)

/-- The accumulators a row begins with (R89). -/
def accOf (c : Cu) (w : W64 × W64) (row : Nat) : AccRow :=
  let f := opPoint (uAfmt w) (uWfmt w) (uScla w) (uSclw w) (uSbase w)
  if uAclr w then accClear f else mget (accClear f) c.acc row

/-- Issue cycles of a row, which the partner spends on a sampled one (R111). -/
def rowCycles (w : W64 × W64) (nb : Nat) : Nat := if uAcc w == 2 then 2 * nb else nb

/-- The row is sampled for the shadow compare (R111). -/
def rowSampled (cfg row : Nat) : Bool :=
  match bits cfg 0 3 with
  | 1 => row % 16 == 0 | 2 => row % 4 == 0 | 3 => row % 2 == 0 | 4 => true | _ => false

/-- The beats that a finished row sends into the vector stages, each with its first lane: the XP96 values (two halves for `PCVT`), FP32 lanes,
or two beats of PAIR lanes. `valid` counts the lanes that stand for neurons in a gathered row (R131). -/
def rowBeats (w : W64 × W64) (v0 : Nat) (r : AccRow) (poi apx : Bool) (run : URun) (valid : Option Nat) : List (Nat × Pass) :=
  let mk (off : Nat) (x : Option (List Xp)) (v : Vec) : Nat × Pass :=
    (off, { headPass run v poi apx with xp := x, valid := valid.map (· - off) })
  let fl (l : List Bool) : List Nat := if l.any id then l.map ofBit else []
  if uExact w then
    (if sVop v0 == 0x36 then [mk 0 (some (r.xp.take 16)) Vec.empty, mk 16 (some (r.xp.drop 16)) Vec.empty]
     else [mk 0 (some r.xp) Vec.empty])
  else if uAcc w == 2 then [mk 0 none ⟨.pair, r.wide.take 16, fl (r.wfl.take 16)⟩, mk 16 none ⟨.pair, r.wide.drop 16, fl (r.wfl.drop 16)⟩]
  else [mk 0 none ⟨.fp32, r.wide, fl r.wfl⟩]

/-- Elements that a beat stands for (R103). -/
def beatLen (p : Pass) : Nat := match p.xp with | some x => x.length | none => p.res.el.length

/-- Lanes that are neurons and whose predicate is true: the misses of a verification (R135, R143). -/
def missCount (p : Pass) : Nat :=
  ((p.pred.getD []).zipIdx.filter fun e => e.1 && (match p.valid with | some n => decide (e.2 < n) | none => true)).length

/-- What a verification micro-op writes under the strict policy: source a of its last `VCMP` where the neuron is active, +0 elsewhere (R137).
Under the latency policy it writes nothing (R139). -/
def verPass (p : Pass) : Pass :=
  { p with xp := none, res := Vec.of p.act.fmt (p.act.el.zipIdx.map fun e => if lanePred p e.2 then e.1 else 0) }

/-- Run the vector program on the beats of a row and write what comes out. -/
def sendBeats : List (Nat × Pass) → State → Nat → Nat → URun → W64 × W64 → EPlace → Option (State × URun)
  | [], s, _, _, run, _, _ => some (s, run)
  | (off, p) :: rest, s, t, k, run, w, ep =>
    let c := cuOf (getCu s t k) run
    let e := rndEnv run w ep off
    let n := beatLen p
    let p := { p with topk := run.topk, seen := run.seen }
    match runStages (vprogOf c run.slot w) s t k run e (uOshift w) 0 false p with
    | none => none
    | some (q, s) =>
      let ver := verOf c run.slot run.uop
      let s := if q.stop then s
        else match ver with
          | some v => if prPpol v.2 then outputPass s t k (uOstr w) run w e (if q.pred.isSome then verPass q else q) else s
          | none => outputPass s t k (uOstr w) run w e q
      sendBeats rest s t k
        { run with topk := q.topk, seen := run.seen + n, poi := run.poi || q.poi, apx := run.apx || q.apx,
                   misses := run.misses + if ver.isSome then missCount q else 0 } w ep

/-- A sampled row or vector (R111, R112): the partner's cycles are counted; copies that differ raise 0x0202, which names the row and, in bit 16,
the partner (assumption 112). The answer says whether they differed. -/
def shadowRow (s : State) (t k : Nat) (run : URun) (w : W64 × W64) (cyc : Nat) (shadow : List Nat) : State × Bool :=
  if !rowSampled (cuCfg (cuOf (getCu s t k) run) run.slot) run.row then (s, false)
  else
    let s := modCu s t (1 - k) fun c => { c with shadowCyc := satAdd 48 c.shadowCyc cyc }
    if shadow.contains run.row then (raiseUnit s (uopInc s 0x0202 t k run w (run.row % 65536 + (1 - k) * 2 ^ 16)), true) else (s, false)

/-- Finish a row: upsets, the checksum (R108, R109), the shadow compare (R111, R112), then the accumulators or the vector
stages (R89). None if a queue that the stages read is empty. A row sent on leaves the bank: a later micro-op with `ACLR` = 0 finds cleared
accumulators there, since the spec speaks only of rows that `AOUT` = 0 kept (assumption 113). -/
def finishRow (s : State) (t k : Nat) (run : URun) (w : W64 × W64) (r : AccRow) (nb : Nat) (fl : MatFault) (ep : EPlace)
    (valid : Option Nat) : Option (State × URun) :=
  let c := cuOf (getCu s t k) run
  let r := (fl.flips.filter fun e => e.1 == run.row).foldl (fun r e => rowUpset r e.2) r
  let chk := uExact w && uChk w && bit (cuCfg c run.slot) 4
  let skip := chk && rowSkip r
  let bad := chk && !skip && !rowAgrees r
  let s := if skip then modCu s t k fun c => { c with checkSkip := satAdd 48 c.checkSkip 1 } else s
  let s := if bad then raiseUnit s (uopInc s 0x0201 t k run w run.row) else s
  let r := if bad then { r with xp := r.xp.map fun x => { x with poi := true }, poi := true } else r
  let sh := shadowRow s t k run w (rowCycles w nb) fl.shadow
  let s := sh.1
  let poi := r.poi || sh.2 || r.xp.any (·.poi)
  if uAout w then
    let s := modCu s t k fun c => { c with acc := mdel c.acc run.row }
    (sendBeats (rowBeats w (v0Of c run.slot w) r poi (r.apx || run.apx) run valid) s t k run w ep).map fun z =>
      (z.1, { z.2 with row := run.row + 1, poi := z.2.poi || poi, apx := z.2.apx || r.apx })
  else
    some (modCu s t k fun c => { c with acc := mput c.acc run.row r },
      { run with row := run.row + 1, poi := run.poi || poi, apx := run.apx || r.apx })

/-- Accumulate an A row over blocks. An accumulator that another binary point left raises 0x0210 (R52). -/
def accumulate (s : State) (t k : Nat) (run : URun) (w : W64 × W64) (a : ARow) (bs : List (WSlot × Nat)) : AccRow × URun × State :=
  let acc := accOf (getCu s t k) w run.row
  if uExact w then
    let sb := sclBytes (opDepth (uAfmt w) (uWfmt w)) (uSpat w) (uSclw w)
    let r := exactRow (uOp w) sb a bs run.row acc ⟨false, run.above, run.aboveAt, run.below, run.belowAt⟩
    (r.acc, { run with above := r.win.above, aboveAt := r.win.aboveAt, below := r.win.below, belowAt := r.win.belowAt },
      if r.win.mis then raiseInc s (uopInc s 0x0210 t k run w run.row) else s)
  else (wideRow (uAfmt w) (uAcc w) (uK w) a bs acc, run, s)

/-- The weight blocks of a weight-stationary row as the slots and their index stores read (R498). -/
def slotsRead (s : State) (t k : Nat) (w : W64 × W64) : State × List (WSlot × Nat) :=
  ((slotBlocks (getCu s t k) w).zipIdx).foldl (fun acc b =>
    let r := cuMemRead acc.1 t k (16 + uSlot w + b.2)
    let i := cuMemRead r.1 t k (32 + uSlot w + b.2)
    (i.1, acc.2 ++ [({ b.1.1 with poi := b.1.1.poi || r.2 || i.2 }, b.1.2)])) (s, [])

/-- One weight-stationary row (3.2.1), once its operand is whole; what has come of it waits in the run. The answer says whether the row is done. -/
def wsRow (s : State) (t k : Nat) (run : URun) (w : W64 × W64) (fl : MatFault) (ep : EPlace) : State × URun × Bool :=
  let z := fillA s t (48 + k) w run.part
  let run := { run with part := z.1 }
  if !z.2.2 then (z.2.1, run, false)
  else
    let m := slotsRead z.2.1 t k w
    let bs := m.2
    let r := accumulate m.1 t k { run with tag := z.1.tag.getD 0 } w (partRow w z.1) bs
    match finishRow r.2.2 t k r.2.1 w r.1 bs.length fl ep none with
    | some y => (y.1, { y.2 with part := OpPart.empty }, true)
    | none => (z.2.1, run, false)

/-- What the VHB holds, as a row operand. -/
def vhbRow (c : Cu) : ARow := ⟨c.vhb, c.vhbScl, c.vhbPoi, c.vhbApx⟩

/-- The end-of-gather marker in a feed: the mask and the number of skipped neurons. -/
def gatherEnd (c : Cu) (prog : Nat) : Option FeedBlk := (cuFeed c prog).find? (·.last)

/-- The lanes of a group of a gathered sweep that stand for neurons (R131). -/
def groupValid (c : Cu) (w : W64 × W64) (row : Nat) : Option Nat :=
  (gatherEnd c (uAgp w)).bind fun b =>
    let n := b.data.length - b.skipped - 32 * row
    if n < 32 then some n else none

/-- One column-group sweep of a streaming operation (R87); the last component says that a gather has ended (R131). -/
def streamRow (s : State) (t k : Nat) (run : URun) (w : W64 × W64) (fl : MatFault) (ep : EPlace) : Option (State × URun × Bool) :=
  let c := getCu s t k
  let m := cuMemRead s t k 48
  let a := { vhbRow c with poi := c.vhbPoi || m.2 }
  let gather := isGather s t k run w
  if gather && ((cuFeed c (uAgp w)).head?.map (·.last)).getD false then
    some (modCu s t k fun c => setFeed c (uAgp w) ((cuFeed c (uAgp w)).drop 1), run, true)
  else
    (if uSpat w == 5 then tagBlocks 16500 m.1 t k run w none []
     else (streamBlocks 16500 m.1 t k run w 0 [] false).map fun z => (z.1, false, z.2)).bind fun (bs, bad, apx, s1) =>
      let r := accumulate s1 t k run w { a with poi := a.poi || bad, apx := a.apx || apx } bs
      (finishRow r.2.2 t k r.2.1 w r.1 bs.length fl ep (if gather then groupValid c w run.row else none)).map fun z => (z.1, z.2, false)

/-- Write a whole operand into the VHB (R86). -/
def putVhb (s : State) (t k : Nat) (w : W64 × W64) (p : OpPart) : State :=
  let a := partRow w p
  modCu s t k fun c => { cuMemPut c 48 with vhb := a.el, vhbScl := a.scl, vhbPoi := a.poi, vhbApx := a.apx }

/-- The rows of a matrix micro-op, as many as its inputs allow; the answer says whether it has ended. -/
def matLoop : Nat → State → Nat → Nat → URun → W64 × W64 → MatFault → EPlace → State × URun × Bool
  | 0, s, _, _, run, _, _, _ => (s, run, false)
  | n + 1, s, t, k, run, w, fl, ep =>
    if run.row ≥ uRows w && !(uMode w == 1 && isGather s t k run w) then (s, run, true)
    else if uMode w == 1 then
      match streamRow s t k run w fl ep with
      | none => (s, run, false)
      | some (s, run, true) => (s, run, true)
      | some (s, run, false) => matLoop n s t k run w fl ep
    else match wsRow s t k run w fl ep with
      | (s, run, true) => matLoop n s t k run w fl ep
      | (s, run, false) => (s, run, false)

/-- What a masked invocation knows before its first sweep: the mask, the neurons skipped and whether the result is
approximate (R138). -/
def maskBegin (s : State) (t k : Nat) (run : URun) (w : W64 × W64) : State × URun :=
  match gatherEnd (getCu s t k) (uAgp w) with
  | none => (s, run)
  | some b =>
    let pol := predOf (cuOf (getCu s t k) run) run.slot run.uop
    let approx := match pol with
      | some e => !prPpol e.2 && !prMsrc e.2 && decide (b.skipped > 0)
      | none => false
    let s := if pol.isSome then modCu s t k fun c => { c with lastMask := b.data } else s
    (s, { run with skipped := b.skipped, apx := run.apx || approx || b.apx })

/-- The mask deadline of an invocation, set when its first A token reaches the VHB (Table 4.8 `PMWAIT`, R134). -/
def pmDeadline (s : State) (t k : Nat) (run : URun) : Option Nat :=
  match predOf (cuOf (getCu s t k) run) run.slot run.uop with
  | some e => if prPpol e.2 || prMsrc e.2 || prPmwait e.2 == 0 || run.fallback then none else some (cyclesOf s t + prPmwait e.2)
  | none => none

/-- The VHB load that begins a streaming micro-op (R86): the answer says whether the VHB is as the micro-op needs it. -/
def vhbLoad (s : State) (t k : Nat) (run : URun) (w : W64 × W64) : State × URun × Bool :=
  if uMode w != 1 || run.loaded then (s, run, true)
  else if uXkeep w || run.ver.isSome then (s, { run with loaded := true, deadline := pmDeadline s t k run }, true)
  else
    let z := fillA s t (48 + k) w run.part
    let dl := if run.part.tag.isNone && z.1.tag.isSome then pmDeadline s t k run else run.deadline
    if z.2.2 then (putVhb z.2.1 t k w z.1, { run with part := OpPart.empty, loaded := true, deadline := dl, tag := z.1.tag.getD 0 }, true)
    else (z.2.1, { run with part := z.1, deadline := dl }, false)

/-- A micro-op stays at work for want of an input. One that a COMMIT wave met finds none that the wave discarded, and ends with what it has
(R265, R281; assumption 114). -/
def runWait (s : State) (t k : Nat) (run : URun) (w : W64 × W64) (ep : EPlace) : State :=
  if run.late && (uMode w != 1 || !run.loaded || (feedGen s t k w).isNone) then endOr s t k run w ep
  else inStall (putRun s t k run) t (48 + k) (uInq w)

/-- MATMUL (R87): the issued matrix micro-op works through its rows or column groups as far as its operands reach, and
ends with the last. It issues in issue cycles only (R115, R556). A gathered operation begins once its mask is whole (assumption 31). -/
def execMatmul (t : TileId) (k : CuIx) (fl : MatFault) (ep : EPlace) (s : State) : Out :=
  let c := getCu s t.val k.val
  match c.issued with
  | none => .next s
  | some run =>
    let w := runUop c run
    if uOpc w != 1 || !cuMoves s t.val then .next s
    else if !(getFlow s t.val (48 + k.val)).out.isEmpty then .next (outStall s t.val (48 + k.val))
    else if !issueOpen s t.val then .next (throttle (powerStall s t.val (48 + k.val) (uInq w)) t.val)
    else
      let z := vhbLoad s t.val k.val run w
      if !z.2.2 then .next (runWait z.1 t.val k.val z.2.1 w ep)
      else
        let s := z.1
        let run := z.2.1
        let gather := uMode w == 1 && isGather s t.val k.val run w
        if gather && (gatherEnd (getCu s t.val k.val) (uAgp w)).isNone then .next (runWait s t.val k.val run w ep)
        else
          let b := if gather && run.row == 0 then maskBegin s t.val k.val run w else (s, run)
          let r := matLoop (uRows w + 70000) b.1 t.val k.val b.2 w fl ep
          if r.2.2 then
            let s := if gather && uOfmt w ≠ .none then
              emitCtl r.1 (cuEmit r.1 t.val k.val (uOstr w) r.2.1 r.2.1.poi r.2.1.apx) 2 0 else r.1
            .next (endOr s t.val k.val r.2.1 w ep)
          else .next (runWait r.1 t.val k.val r.2.1 w ep)

/-! ### The other micro-ops -/

/-- A place that no element needs. -/
def EPlace.none : EPlace := ⟨0, 0⟩

/-- The vectors of a bypass micro-op; a control token passes through unchanged (assumption 32). -/
def vecLoop : Nat → State → Nat → Nat → URun → W64 × W64 → List Nat → EPlace → State × URun × Bool
  | 0, s, _, _, run, _, _, _ => (s, run, false)
  | n + 1, s, t, k, run, w, shadow, ep =>
    if run.row ≥ uRows w then (s, run, true)
    else match takeTok s t (48 + k) (uInq w) with
      | none => (s, run, false)
      | some (tok, s1) =>
        let run1 := { run with tag := tok.tag }
        if tok.ctl.isSome then
          vecLoop n (emitCtl s1 (cuEmit s1 t k (uOstr w) run1 tok.poi tok.apx) (tok.ctl.getD 0) tok.val) t k
            { run1 with row := run.row + 1, poi := run.poi || tok.poi, apx := run.apx || tok.apx } w shadow ep
        else
          let v := tokVec (uAfmt w) tok
          let sh := shadowRow s1 t k run1 w (if v.fmt == .pair then 2 else 1) shadow
          match sendBeats [(0, headPass run1 v (tokPoi v tok || sh.2) tok.apx)] sh.1 t k run1 w ep with
          | none => (s, run, false)
          | some (s2, r) => vecLoop n s2 t k { r with row := run.row + 1 } w shadow ep

/-- VECTOR (R91): `RM1` + 1 tokens of `INQ` pass through the vector program (assumption 32). -/
def execVector (t : TileId) (k : CuIx) (shadow : List Nat) (ep : EPlace) (s : State) : Out :=
  let c := getCu s t.val k.val
  match c.issued with
  | none => .next s
  | some run =>
    let w := runUop c run
    if uOpc w != 2 || isSteer (cuOf c run) run.slot w || !cuMoves s t.val then .next s
    else if !(getFlow s t.val (48 + k.val)).out.isEmpty then .next (outStall s t.val (48 + k.val))
    else
      let r := vecLoop (uRows w + 1) s t.val k.val run w shadow ep
      if r.2.2 then .next (endOr r.1 t.val k.val r.2.1 w ep) else .next (runWait r.1 t.val k.val r.2.1 w ep)

/-- What a loaded block is for: the first weight-stationary `MATMUL` of the context that reads slot `i` in the same format, pattern and scale
mode. `LOADW` itself names neither an A operand nor a K, so D, K and the K position of the block come from there; with no such micro-op D is
that of the micro-op's own formats, K without limit and the position counted from its first slot (assumption 110). -/
def slotUse (c : Cu) (run : URun) (w : W64 × W64) (i : Nat) : Nat × Nat × Nat :=
  let c := cuOf c run
  let user := ((List.range 64).map (uopAt c run.slot)).find? fun m =>
    uOpc m == 1 && uMode m == 0 && uWfmt m == uWfmt w && uSpat m == uSpat w && uSclw m == uSclw w &&
      decide (uSlot m ≤ i) && decide (i < uSlot m + uSlots m)
  match user with
  | some m => let d := opDepth (uAfmt m) (uWfmt m); (d, uK m, (i - uSlot m) * blkK d (uSpat m))
  | none =>
    let d := if fmtNarrow (uAfmt w) then opDepth (uAfmt w) (uWfmt w) else fmtDepth (uWfmt w)
    (d, 2 ^ 24, (i - uSlot w) * blkK d (uSpat w))

/-- A slot that an issued `MATMUL` has yet to finish reading (R84). -/
def slotRead (c : Cu) (i : Nat) : Bool :=
  match c.issued with
  | some r =>
    let m := runUop c r
    uOpc m == 1 && uMode m == 0 && decide (uSlot m ≤ i) && decide (i < uSlot m + uSlots m)
  | none => false

/-- Load slots from the feed, one block each (R83, R121), as far as blocks have come and slots are free of readers (R84). -/
def loadSlots : Nat → State → Nat → Nat → URun → W64 × W64 → State × URun × Bool
  | 0, s, _, _, run, _ => (s, run, true)
  | n + 1, s, t, k, run, w =>
    let i := uSlot w + run.row
    let use := slotUse (getCu s t k) run w i
    if slotRead (getCu s t k) i then (s, run, false)
    else match feedTake (cuFeed (getCu s t k) (uAgp w)) (blkBytes (uWfmt w) use.1 (uSpat w) (uSclw w)) Fed.none with
    | none => (s, run, false)
    | some (b, rest) =>
      let u := unpackBlock (uWfmt w) use.1 (uSpat w) (uSclw w) use.2.1 use.2.2 (leNat b.bytes)
      let x := mkSlot (uWfmt w) use.1 (uSpat w) (uSclw w) u.1 u.2.1 (b.poi || !u.2.2.isEmpty) b.pcols
      let s := raiseSp s t k run w u.2.2
      let s := modCu s t k fun c => { setFeed (cuMemPut (cuMemPut c (16 + i)) (32 + i)) (uAgp w) rest with slots := mset WSlot.empty c.slots i x }
      loadSlots n s t k { run with row := run.row + 1, poi := run.poi || x.poi, apx := run.apx || b.apx } w

/-- LOADW (R83): loads `KM1[3:0]` + 1 slots, as many as the feed holds blocks for. -/
def execLoadw (t : TileId) (k : CuIx) (s : State) : Out :=
  let c := getCu s t.val k.val
  match c.loading with
  | none => .next s
  | some run =>
    let w := runUop c run
    if uOpc w != 3 || !cuMoves s t.val then .next s
    else
      let n := bits w.2.toNat 0 4 + 1
      let r := loadSlots (n - run.row) s t.val k.val run w
      if r.2.2 || (run.late && (feedGen s t.val k.val w).isNone) then .next (endOr r.1 t.val k.val r.2.1 w EPlace.none)
      else .next (cuStall (modCu r.1 t.val k.val fun c => { c with loading := some r.2.1 }) t.val k.val stInput)

/-- LOADX (R86, Table 3.4). -/
def execLoadx (t : TileId) (k : CuIx) (s : State) : Out :=
  let c := getCu s t.val k.val
  match c.issued with
  | none => .next s
  | some run =>
    let w := runUop c run
    if uOpc w != 4 || !cuMoves s t.val then .next s
    else
      let z := fillA s t.val (48 + k.val) w run.part
      let run := { run with part := z.1, tag := z.1.tag.getD run.tag, poi := run.poi || z.1.poi, apx := run.apx || z.1.apx }
      if z.2.2 then .next (endOr (putVhb z.2.1 t.val k.val w z.1) t.val k.val run w EPlace.none)
      else .next (runWait z.2.1 t.val k.val run w EPlace.none)

/-- UOP_HALT (R91): the end of the context's program. -/
def execUopHalt (t : TileId) (k : CuIx) (s : State) : Out :=
  let c := getCu s t.val k.val
  match c.issued with
  | none => .next s
  | some run =>
    let w := runUop c run
    if uOpc w != 15 || !cuMoves s t.val then .next s else .next (endOr s t.val k.val run w EPlace.none)

/-! ### Steering (R262, R263) -/

/-- The control value of a token: `CVAL[0]` of a control token, bit 0 of a data token's payload. -/
def steerVal (k : Token) : Nat := k.val % 2

/-- A steered token goes out: unchanged with `OFMT` none, else through the later stages and the output stage
(assumption 30). -/
def sendSteered (s : State) (t k ostr : Nat) (run : URun) (w : W64 × W64) (tok : Token) (ep : EPlace) : Option (State × URun) :=
  let c := cuOf (getCu s t k) run
  let v := tokVec (uAfmt w) tok
  let poi := tokPoi v tok
  let run := { run with tag := tok.tag, poi := run.poi || poi, apx := run.apx || tok.apx }
  let em := cuEmit s t k ostr run poi tok.apx
  if tok.ctl.isSome then some (emitCtl s { em with poi := tok.poi } (tok.ctl.getD 0) tok.val, run)
  else if uOfmt w = .none then some (emitToks s em [(tok.len, tok.val)], run)
  else
    let e := rndEnv run w ep 0
    (runStages ((vprogOf c run.slot w).drop 1) s t k run e (uOshift w) 1 false (headPass run v poi tok.apx)).map fun (q, s) =>
      (if q.stop then s else outputPass s t k ostr run w e q,
        { run with topk := q.topk, seen := run.seen + v.el.length })

/-- STEERING_FIRE (R262): control and data heads carry tag `TBASE`; both are popped, the data token steered and the base
advanced. A head with another tag of the window raises TAG_WINDOW (R263). A sampled firing is one row of the shadow compare (R111). -/
def execSteeringFire (t : TileId) (k : CuIx) (shadow : List Nat) (ep : EPlace) (s : State) : Out :=
  let c := getCu s t.val k.val
  match c.issued with
  | none => .next s
  | some run =>
    let w := runUop c run
    let u := 48 + k.val
    let f := getFlow s t.val u
    if !isSteer (cuOf c run) run.slot w || !cuMoves s t.val then .next s
    else if !f.out.isEmpty then .next (outStall s t.val u)
    else if run.row ≥ uRows w || run.late then .next (endOr s t.val k.val run w ep)
    else
      let v0 := v0Of c run.slot w
      let x := cuCtx c run.slot
      let cq := if sVop v0 == 0x52 then uInq w ^^^ 1 else uInq w
      match headTok f cq with
      | none => .next (inStall s t.val u cq)
      | some ct =>
        let dq := if sVop v0 == 0x52 then sQsel v0 + steerVal ct else uInq w ^^^ 1
        if ct.tag != x.tbase then .next (flowFault s 0x0401 t.val u cq)
        else match headTok f dq with
          | none => .next (inStall s t.val u dq)
          | some dt =>
            if dt.tag != x.tbase then .next (flowFault s 0x0401 t.val u dq)
            else
              let s1 := match takeTok s t.val u cq with | some (_, s) => s | none => s
              let s1 := match takeTok s1 t.val u dq with | some (_, s) => s | none => s
              let sh := shadowRow s1 t.val k.val run w 1 shadow
              let s1 := sh.1
              let dt := { dt with poi := dt.poi || ct.poi || sh.2, apx := dt.apx || ct.apx }
              let drop := sVop v0 == 0x53 && steerVal ct == 0
              let ostr := if sVop v0 == 0x51 then uOstr w + steerVal ct else uOstr w
              let r : Option (State × URun) :=
                if drop then some (modCu s1 t.val k.val fun c => { c with filterDrop := satAdd 48 c.filterDrop 1 }, run)
                else sendSteered s1 t.val k.val ostr run w dt ep
              match r with
              | none => .next (cuStall s t.val k.val stInput)
              | some (s, run) =>
                let s := modCu s t.val k.val fun c => setCtx c run.slot { x with tbase := (x.tbase + 1) % 256 }
                let run := { run with row := run.row + 1 }
                if run.row ≥ uRows w then .next (endOr s t.val k.val run w ep)
                else .next (putRun s t.val k.val run)

/-! ### Sending (R106, R249 to R255) -/

/-- The packet body of tokens of a stream: one control token, a reduce token, or up to 15 data tokens. -/
def tokBody (x : Strm) (ostr : Nat) (ks : List Token) : Body :=
  match ks with
  | k :: _ => if k.ctl.isSome then .tokc ostr k else if stMode x == 3 then .red ostr 0 k else .tokd ostr ks
  | [] => .tokd ostr []

/-- Destination of a stream's packets: the group for a scheduled stream (R298, R308), else the queue. -/
def strmDst (x : Strm) : Nat := if stMode x ≥ 2 then 7 * 2 ^ 20 + stMgrp x else stDst x

/-- How many of the tokens at the front may travel in one packet: one control or reduce token, or the run of data
tokens, at most 15 (R249). -/
def packRun (x : Strm) (ks : List Token) : Nat :=
  match ks with
  | k :: _ => if k.ctl.isSome || stMode x == 3 || stMode x == 1 then 1 else min 15 (ks.takeWhile (·.ctl.isNone)).length
  | [] => 0

/-- OUTPUT_TOKEN_SEND (R106, R253, R254): the tokens at the front of a unit's output enter the router, as far as the
stream's credits and the room at the router's local port go; an acknowledged stream sends one at a time. A unit that cannot send counts the cycle.
Tokens of before a COMMIT wave leave by the stream entry they were formed for and take no credit of the new configuration (R71, R281). -/
def execOutputTokenSend (t : TileId) (u : Fin 6) (s : State) : Out :=
  let un := 48 + u.val
  let f := getFlow s t.val un
  match f.out with
  | [] => .next s
  | o :: rest =>
    let x := o.old.getD (getStrm f o.ostr)
    let room := if o.old.isSome then 15 else if stMode x == 0 then x.cred else if stMode x == 1 then (if x.inflight.isNone then 1 else 0) else 15
    let n := min room (packRun x o.toks)
    let ks := o.toks.take n
    let body := tokBody x o.ostr ks
    if unitsStill s t.val then .next s
    else if n == 0 then .next (outStall s t.val un)
    else if !localRoom s t.val body then .next (unitStall s t.val un stCredit)
    else
      let left := o.toks.drop n
      let per := bits x.w1.toNat 48 16
      let x' := { x with cred := if stMode x == 0 then x.cred - n else x.cred,
                         inflight := if stMode x == 1 then ks.head? else x.inflight, pid := s.net.next,
                         ssent := (x.ssent + n * per) % 2 ^ 48 }
      let out := if left.isEmpty then rest else ⟨o.ostr, left, o.old⟩ :: rest
      let f' := if o.old.isSome then { f with out := out } else setStrm { f with out := out } o.ostr x'
      let epoch := (ks.head?.map (·.epoch)).getD (epochAt s t.val)
      .next (inject (setFlow s t.val un f') t.val (qaMake t.val un 0) (strmDst x) (stDfold x) epoch body)

end Sys2Proof.Machine
end

