-- ==== Sys2Proof/Machine/MuOps.lean ====
section
/-!
DEFINITION. The commands of the MUs (chapter 5): generator programs by mode, rings, copy-on-write snapshots and scrub.
-/
namespace Sys2Proof.Machine
open Sys2Proof

/-! ### Program fields (Tables 5.3, 5.4) -/

def gMode (w : Nat) : Nat := bits w 61 3
def gDest (w : Nat) : Nat := bits w 58 3
def gQin (w : Nat) : Nat := bits w 55 3
def gQdat (w : Nat) : Nat := bits w 52 3
def gOstr (w : Nat) : Nat := bits w 46 6
def gBytes (w : Nat) : Nat := (bits w 41 5 + 1) * 32
def gBase (w : Nat) : Nat := bits w 0 20

/-- An MU may move: its tile's units do not stand still. -/
def muMoves (s : State) (t : Nat) : Bool := !unitsStill s t && decide ((regionAt s t).st ≠ .empty)

/-- A generator of an MU at work. -/
def genOf (s : State) (t m g : Nat) : Option Gen := (getMu s t m).gens.lookup g
/-- Set a generator. -/
def setGen (s : State) (t m g : Nat) (x : Gen) : State := modMu s t m fun u => { u with gens := mput u.gens g x }
/-- End a generator's program. -/
def endGen (s : State) (t m g : Nat) : State :=
  modFlow (modMu s t m fun u => { u with gens := mdel u.gens g }) t (50 + m) fun f => { f with idle := cyclesOf s t }

/-- A generator is idle: no program and no copy-out holds it (R153). -/
def genIdle (m : Mu) (g : Nat) : Bool :=
  (m.gens.lookup g).isNone && (match m.snap with | some sn => decide (sn.gen ≠ some g) | none => true)

/-- The lower-numbered idle generator (R153). -/
def freeGen (m : Mu) : Option Nat := (List.range 2).find? (genIdle m)

/-- The generator of an MU that runs a program for a CU. -/
def genFor (m : Mu) (p : Nat) (cu : Option Nat) : Option Nat :=
  (m.gens.find? fun e => e.2.prog == p && e.2.cu == cu).map (·.1)

/-- A feed beat of a pair comes from this MU together with the upper one (R157). -/
def isPaired (w0 : Nat) (m : Nat) : Bool := gDest w0 == 0 && m % 2 == 0

/-- Count one cycle of a stall cause of an MU, and of the CU that it feeds when an input is empty (R153). -/
def muStall (s : State) (t m : Nat) (cause : Nat) : State := unitStall s t (50 + m) cause

/-! ### Reading, emitting, taking -/

/-- A program address out of range (R155): the incident, once; the program then delivers what it owes as poison. -/
def genFail (s : State) (t m g : Nat) (x : Gen) (a : Nat) : State :=
  if x.failed then s
  else setGen (raiseInc s (tileInc s 0x0103 utMu t m (a % 2 ^ 32))) t m g { x with failed := true, poi := true }

/-- Free bytes with poison, for data that a failed program owes. -/
def gapBytes (n : Nat) : List Byte := (List.range n).map fun i => BitVec.ofNat 8 (Config.feedGap i)

/-- Read for a program: bytes at an address of this MU, or of this MU and the upper one of the pair. -/
def genRead (s : State) (t m : Nat) (paired : Bool) (a n : Nat) : List Byte × Bool × State :=
  let r := muRead s t m a n
  if paired then
    let r2 := muRead r.2.2 t (m + 1) a n
    (r.1 ++ r2.1, r.2.1 || r2.2.1, r2.2.2)
  else r

/-- Token payloads of up to 128 bytes. -/
def byteToks : Nat → List Byte → List (Nat × Nat)
  | 0, _ => []
  | n + 1, l => if l.isEmpty then [] else (((l.take 128).length + 3) / 4, leNat (l.take 128)) :: byteToks n (l.drop 128)

/-- What the tokens of a program carry (R105, R250). -/
def muEmit (s : State) (t m : Nat) (x : Gen) (poi : Bool) : Emit :=
  ⟨t, 50 + m, gOstr x.w0.toNat, false, epochAt s t, x.tag, (getMu s t m).starts, poi, x.apx⟩

/-- Put blocks on the feed of a program's CU. -/
def genFeed (s : State) (t : Nat) (x : Gen) (l : List FeedBlk) : State :=
  match x.cu with
  | some k => modCu s t k fun c => setFeed c x.prog (cuFeed c x.prog ++ l)
  | none => s

/-- Deliver a beat to a program's destination (Table 5.3 `DEST`). A program whose destination is a CU feed and that no
CU started feeds nothing. -/
def genEmit (s : State) (t m : Nat) (x : Gen) (tag : Option Nat) (bs : List Byte) (poi : Bool) : State :=
  match gDest x.w0.toNat with
  | 0 | 1 => genFeed s t x [⟨bs, tag, poi, [], x.apx, false, 0⟩]
  | 2 => emitToks s (muEmit s t m x poi) (byteToks 40 bs)
  | _ => s

/-- The unit may emit: nothing waits in its output (R106). -/
def genCanEmit (s : State) (t m : Nat) (x : Gen) : Bool :=
  gDest x.w0.toNat != 2 || (getFlow s t (50 + m)).out.isEmpty

/-- Pop write data from a queue until `n` bytes are held. An MU keeps no APPROX marker with a stored byte (assumption 116). -/
def popBytes : Nat → State → Nat → Nat → Nat → Nat → List Byte → Bool → Option (List Byte × Bool × State)
  | 0, _, _, _, _, _, _, _ => none
  | k + 1, s, t, u, q, n, acc, poi =>
    if n ≤ acc.length then some (acc, poi, s)
    else match takeTok s t u q with
      | none => none
      | some (tok, s) => popBytes k s t u q n (acc ++ leBytes (tok.len * 4) tok.val) (poi || tok.poi)

/-- A program ends, in the upper MU of a pair too. -/
def finishGen (s : State) (t m g : Nat) (x : Gen) : State :=
  let s := endGen s t m g
  if isPaired x.w0.toNat m && x.cu.isSome then
    match genFor (getMu s t (m + 1)) x.prog x.cu with
    | some h => endGen s t (m + 1) h
    | none => s
  else s

/-! ### Starting (R153) -/

/-- The micro-op of a CU that names a program now: the issued one, a `LOADW` at work, or the next of its running context, since a program
runs ahead of its consumer (R157, 3.8). -/
def consumerUop (s : State) (t k p : Nat) : Option URun :=
  let c := getCu s t k
  let slot := curSlot (getFlow s t (48 + k))
  let x := cuCtx c slot
  let next : List URun := if c.issued.isNone && c.old.isNone && x.running && (uOpc (uopAt c slot x.next) == 1 || uOpc (uopAt c slot x.next) == 3)
    then [{ URun.fresh with slot := slot, uop := x.next }] else []
  (c.loading.toList ++ c.issued.toList ++ next).find? fun r => uAgp (runUop c r) == p && (uOpc (runUop c r) == 1 || uOpc (runUop c r) == 3)

/-- The addresses of an affine nest in order (R158). -/
def affineAddrs (w0 w1 w2 w3 : Nat) : List Int :=
  let c (i : Nat) : Nat := bits w1 (16 * i) 16 + 1
  let st : Nat → Int
    | 0 => signed 24 (bits w2 0 24) | 1 => signed 24 (bits w2 24 24) | 2 => signed 24 (bits w3 0 24)
    | _ => signed 24 (bits w3 24 24)
  (List.range (c 3)).flatMap fun i3 => (List.range (c 2)).flatMap fun i2 => (List.range (c 1)).flatMap fun i1 =>
    (List.range (c 0)).map fun i0 =>
      Int.ofNat (gBase w0) + Int.ofNat i0 * st 0 + Int.ofNat i1 * st 1 + Int.ofNat i2 * st 2 + Int.ofNat i3 * st 3

/-- An address range lies in the MU (R155). -/
def inMu (a : Int) (n : Nat) : Bool := decide (0 ≤ a) && decide (a + n ≤ 2 ^ 20)

/-- The mask that a fallback or fixed-mask program reads, whether it is poisoned, and the first address out of range, if one is
(R134, R140, R155). -/
def maskBytes (s : State) (t m p : Nat) : List Byte × Bool × Option Int × State :=
  let w (i : Nat) : Nat := progWord s t m p i
  let n := gBytes (w 0)
  (affineAddrs (w 0) (w 1) (w 2) (w 3)).foldl (fun acc a =>
    if acc.2.2.1.isSome then acc
    else if !inMu a n then (acc.1, true, some a, acc.2.2.2)
    else
      let r := muRead acc.2.2.2 t m a.toNat n
      (acc.1 ++ r.1, acc.2.1 || r.2.1, none, r.2.2)) ([], false, none, s)

/-- Where a gather that begins takes its mask from: the fixed or fallback mask of `FBAGP`, the mask of the invocation being verified, or `QIN`. -/
inductive MaskFrom
  | fbagp
  | given (l : List Byte)
  | queue
  deriving DecidableEq, Repr

/-- The source of a gather's mask (R131, R134, R136, R137, R140). -/
def maskFrom (s : State) (t k : Nat) (run : URun) : MaskFrom :=
  let c := cuOf (getCu s t k) run
  match predOf c run.slot run.uop with
  | some e => if prMsrc e.2 || run.fallback then .fbagp else .queue
  | none => if (verOf c run.slot run.uop).isSome then .given c.lastMask else .queue

/-- The program as a fresh generator. -/
def freshGen (s : State) (t m p : Nat) (cu : Option Nat) : Gen :=
  let sl := curSlot (getFlow s t (50 + m))
  let w (i : Nat) : W64 := mget 0 (getMu s t m).progs (sl * 32 + p * 4 + i)
  { Gen.idle with slot := sl, prog := p, w0 := w 0, w1 := w 1, w2 := w 2, w3 := w 3, cu := cu }

/-- GENERATOR_START (R153): by a micro-op of a CU that names the program, or by a token in `QIN` for an indirect, gather or tree
program that feeds no CU. A start token of a list program is consumed; of the others it is the first input
(assumption 34). -/
def execGeneratorStart (t : TileId) (m : MuIx) (p : Fin 8) (cu : Option CuIx) (s : State) : Out :=
  let x := freshGen s t.val m.val p.val (cu.map (·.val))
  let w0 := x.w0.toNat
  let md := gMode w0
  let f := getFlow s t.val (50 + m.val)
  if !muMoves s t.val || f.foldReq || (genFor (getMu s t.val m.val) p.val (cu.map (·.val))).isSome || md ≥ 4 then .next s
  else match cu with
    | some k =>
      match consumerUop s t.val k.val p.val with
      | none => .next s
      | some run =>
        let lo := muLow k.val (runUop (getCu s t.val k.val) run)
        if gDest w0 > 3 || m.val / 2 != lo / 2 || (gDest w0 == 0 && m.val != lo) then .next s
        else
          let x := if md != 2 then x else match maskFrom s t.val k.val run with
            | .fbagp => { x with direct := true }
            | .given l => { x with mask := l, maskEnd := true, direct := true }
            | .queue => x
          match freeGen (getMu s t.val m.val) with
          | none => .next (cuStall s t.val k.val stInput)
          | some g =>
            if gDest w0 == 0 then
              match freeGen (getMu s t.val (m.val + 1)) with
              | none => .next (cuStall s t.val k.val stInput)
              | some h =>
                .next (setGen (setGen s t.val m.val g x) t.val (m.val + 1) h (freshGen s t.val (m.val + 1) p.val (some k.val)))
            else .next (setGen s t.val m.val g x)
    | none =>
      match headTok f (gQin w0) with
      | none => .next s
      | some tok =>
        if gDest w0 ≤ 1 || md == 0 then .next s
        else match freeGen (getMu s t.val m.val) with
          | none => .next (muStall s t.val m.val stInput)
          | some g =>
            let list := md == 1 && bit x.w1.toNat 61
            let s := if list then (match takeTok s t.val (50 + m.val) (gQin w0) with | some (_, s) => s | none => s) else s
            let s := modMu s t.val m.val fun u => { u with starts := u.starts + 1 }
            .next (setGen s t.val m.val g { x with tag := tok.tag, poi := tok.poi, apx := tok.apx })

/-! ### Affine (R158) -/

/-- The next point of a loop nest; none after the last. -/
def affineNext (x : Gen) : Option Gen :=
  let c (i : Nat) : Nat := bits x.w1.toNat (16 * i) 16
  if x.i0 < c 0 then some { x with i0 := x.i0 + 1 }
  else if x.i1 < c 1 then some { x with i0 := 0, i1 := x.i1 + 1 }
  else if x.i2 < c 2 then some { x with i0 := 0, i1 := 0, i2 := x.i2 + 1 }
  else if x.i3 < c 3 then some { x with i0 := 0, i1 := 0, i2 := 0, i3 := x.i3 + 1 }
  else none

/-- The address at a point of the nest (R158). -/
def affineAddr (x : Gen) : Int :=
  (gBase x.w0.toNat : Int) + x.i0 * signed 24 (bits x.w2.toNat 0 24) + x.i1 * signed 24 (bits x.w2.toNat 24 24) +
    x.i2 * signed 24 (bits x.w3.toNat 0 24) + x.i3 * signed 24 (bits x.w3.toNat 24 24)

/-- A generator that runs in a mode and may move. In a pair the lower MU moves both. -/
def genReady (s : State) (t m g md : Nat) : Option Gen :=
  match genOf s t m g with
  | some x =>
    if gMode x.w0.toNat == md && muMoves s t && !(gDest x.w0.toNat == 0 && m % 2 == 1) then some x else none
  | none => none

/-- AFFINE_BEAT (R158): one beat of a loop nest, read or, with a write sink, written from `QDAT`. -/
def execAffineBeat (t : TileId) (m : MuIx) (g : Fin 2) (s : State) : Out :=
  match genReady s t.val m.val g.val 0 with
  | none => .next s
  | some x =>
    let n := gBytes x.w0.toNat
    let a := affineAddr x
    let go (s : State) (x : Gen) : State :=
      match affineNext x with
      | some y => setGen s t.val m.val g.val y
      | none => finishGen s t.val m.val g.val x
    let s := if inMu a n then s else genFail s t.val m.val g.val x (a % 2 ^ 32).toNat
    let x := (genOf s t.val m.val g.val).getD x
    if gDest x.w0.toNat == 3 then
      match popBytes 40 s t.val (50 + m.val) (gQdat x.w0.toNat) n [] false with
      | none => .next (inStall s t.val (50 + m.val) (gQdat x.w0.toNat))
      | some (bs, poi, s1) =>
        if x.failed then .next (go s1 x)
        else
          let r := muWrite s1 t.val m.val a.toNat (bs.take n) poi
          if r.2 then .next (go r.1 x) else .next (muStall (muWrite s t.val m.val a.toNat (bs.take n) poi).1 t.val m.val stOutput)
    else if !genCanEmit s t.val m.val x then .next (outStall s t.val (50 + m.val))
    else if (gDest x.w0.toNat ≤ 1) && !issueOpen s t.val then .next (muStall s t.val m.val stPower)
    else if x.failed then
      .next (go (genEmit s t.val m.val x none (gapBytes (if isPaired x.w0.toNat m.val then 2 * n else n)) true) x)
    else
      let r := genRead s t.val m.val (isPaired x.w0.toNat m.val) a.toNat n
      .next (go (genEmit r.2.2 t.val m.val x none r.1 (r.2.1 || x.poi)) x)

/-! ### Indirect (R159 to R161) -/

/-- Bytes of an index. -/
def ixBytes (x : Gen) : Nat := if bits x.w1.toNat 59 2 == 1 then 4 else 2

/-- What an indirect program takes next: an index, nothing yet from a token that holds none, or its end. -/
inductive Ix
  | at (i : Nat)
  | skip
  | stop
  deriving DecidableEq, Repr

/-- The next index of an indirect program and the generator after taking it. -/
def nextIndex (s : State) (t m : Nat) (x : Gen) : Option (Ix × Gen × State) :=
  if bit x.w1.toNat 61 then
    if x.n ≥ bits x.w2.toNat 0 20 then some (.stop, x, s)
    else
      let a := bits x.w1.toNat 39 20 + x.n * ixBytes x
      if a + ixBytes x > 2 ^ 20 then some (.at (2 ^ 40 + a), { x with n := x.n + 1 }, s)
      else
        let r := muRead s t m a (ixBytes x)
        some (.at (leNat r.1), { x with n := x.n + 1, poi := x.poi || r.2.1 }, r.2.2)
  else match x.idx with
    | i :: rest => some (.at i, { x with idx := rest, n := x.n + 1 }, s)
    | [] =>
      match takeTok s t (50 + m) (gQin x.w0.toNat) with
      | none => none
      | some (tok, s) =>
        if tok.ctl == some 2 then some (.stop, x, s)
        else
          let l := opElems (if ixBytes x == 4 then .int32 else .fp16) tok
          let x := { x with poi := x.poi || tok.poi, apx := x.apx || tok.apx }
          match l with
          | i :: rest => some (.at i, { x with idx := rest, n := x.n + 1 }, s)
          | [] => some (.skip, x, s)

/-- The address that an index selects; a block tag selects by its place in the list (R159, R161). An index whose place in the list lies beyond the
MU stands for that place. -/
def ixAddr (x : Gen) (i : Nat) : Int :=
  let ist : Int := (bits x.w1.toNat 0 24 : Nat)
  let v : Int := match bits x.w1.toNat 59 2 with | 1 => signed 32 i | 2 => (x.n - 1 : Nat) | _ => (i : Nat)
  if i ≥ 2 ^ 40 then ((i - 2 ^ 40 : Nat) : Int) + 2 ^ 20
  else if bits x.w1.toNat 59 2 == 1 && v < 0 then -1 else (gBase x.w0.toNat : Int) + v * ist

/-- The addend of an indirect add: the matching lane of `QDAT`, or 1 when that queue has no depth (R159). -/
def nextAddend (s : State) (t m : Nat) (x : Gen) : Option (Nat × Bool × Gen × State) :=
  let q := gQdat x.w0.toNat
  if qDepth (getFlow s t (50 + m)) q == 0 then some (1, false, x, s)
  else if x.out.length ≥ 4 then some (leNat (x.out.take 4), x.poi, { x with out := x.out.drop 4 }, s)
  else match takeTok s t (50 + m) q with
    | none => none
    | some (tok, s) =>
      let bs := leBytes (tok.len * 4) tok.val
      some (leNat (bs.take 4), tok.poi, { x with out := bs.drop 4 }, s)

/-- The beats of a tagged block (R161): `ISTRIDE` bytes of each MU, in beats of the program's length, the first with the tag. A `NIL` tag has no
block (Table 4.5). -/
def tagFeed (s : State) (t m : Nat) (x : Gen) (paired : Bool) (tag a n : Nat) : State :=
  if bit tag 14 then genFeed s t x [⟨[], some tag, x.poi, [], x.apx, false, 0⟩]
  else
    let total := max n (bits x.w1.toNat 0 24)
    (List.range ((total + n - 1) / n)).foldl (fun s j =>
      let r := genRead s t m paired (a + j * n) (min n (total - j * n))
      genFeed r.2.2 t x [⟨r.1, if j == 0 then some tag else none, r.2.1 || x.poi, [], x.apx, false, 0⟩]) s

/-- INDIRECT_ACCESS (R159, R160): one index is taken, and the beat at its address read, written or added to. -/
def execIndirectAccess (t : TileId) (m : MuIx) (g : Fin 2) (s : State) : Out :=
  match genReady s t.val m.val g.val 1 with
  | none => .next s
  | some x =>
    if !genCanEmit s t.val m.val x then .next (outStall s t.val (50 + m.val))
    else match nextIndex s t.val m.val x with
      | none => .next (inStall s t.val (50 + m.val) (gQin x.w0.toNat))
      | some (.stop, x, s) => .next (finishGen s t.val m.val g.val x)
      | some (.skip, x, s) => .next (setGen s t.val m.val g.val x)
      | some (.at i, x, s1) =>
        let iop := bits x.w1.toNat 62 2
        let n := if iop == 2 then 4 else gBytes x.w0.toNat
        let a := ixAddr x i
        let tag := if bits x.w1.toNat 59 2 == 2 then some (i % 65536) else none
        let paired := isPaired x.w0.toNat m.val
        let s2 := setGen s1 t.val m.val g.val x
        let n0 := if iop == 0 && tag.isSome then (if bit i 14 then 0 else max n (bits x.w1.toNat 0 24)) else n
        let s2 := if inMu a n0 then s2 else genFail s2 t.val m.val g.val x (a % 2 ^ 32).toNat
        let x := (genOf s2 t.val m.val g.val).getD x
        if iop == 0 then
          if x.failed then .next (genEmit s2 t.val m.val x tag (gapBytes (if paired then 2 * n else n)) true)
          else match tag with
            | some tg =>
              if gDest x.w0.toNat ≤ 1 then .next (tagFeed s2 t.val m.val x paired tg a.toNat n)
              else
                let r := genRead s2 t.val m.val paired a.toNat n
                .next (genEmit r.2.2 t.val m.val x tag r.1 (r.2.1 || x.poi))
            | none =>
              let r := genRead s2 t.val m.val paired a.toNat n
              .next (genEmit r.2.2 t.val m.val x tag r.1 (r.2.1 || x.poi))
        else if iop == 1 then
          match popBytes 40 s2 t.val (50 + m.val) (gQdat x.w0.toNat) n [] false with
          | none => .next (inStall s t.val (50 + m.val) (gQdat x.w0.toNat))
          | some (bs, poi, s3) =>
            if x.failed then .next s3
            else
              let r := muWrite s3 t.val m.val a.toNat (bs.take n) (poi || x.poi)
              if r.2 then .next r.1 else .next (muStall (modMu s t.val m.val fun u => muMarkWait u a.toNat) t.val m.val stOutput)
        else
          match nextAddend s2 t.val m.val x with
          | none => .next (inStall s t.val (50 + m.val) (gQdat x.w0.toNat))
          | some (d, poi, x, s3) =>
            let s3 := setGen s3 t.val m.val g.val x
            if x.failed then .next s3
            else
              let r := muRead s3 t.val m.val a.toNat 4
              let v := (leNat r.1 + d) % 2 ^ 32
              let z := muWrite r.2.2 t.val m.val a.toNat (leBytes 4 v) (r.2.1 || poi || x.poi)
              if z.2 then .next z.1 else .next (muStall (modMu s t.val m.val fun u => muMarkWait u a.toNat) t.val m.val stOutput)

/-! ### Gather (R162, R163) -/

/-- Neurons of a mask that a program takes. -/
def activeOf (inv : Bool) (mask : List Byte) : List Nat :=
  (mask.zipIdx.filter fun e => (e.1 = 0) == inv).map (·.2)

/-- Discard a predictor mask that the fallback replaced, up to its end marker (R134). -/
def dropMask (s : State) (t m q : Nat) : Nat → State
  | 0 => s
  | n + 1 =>
    if mget 0 (getMu s t m).maskDrop q == 0 then s
    else match takeTok s t (50 + m) q with
      | none => s
      | some (tok, s) =>
        dropMask (if tok.ctl == some 2 then modMu s t m fun u => { u with maskDrop := mmod 0 u.maskDrop q (· - 1) } else s) t m q n

/-- The mask of `FBAGP` for a gather (R134, R140): its program runs on an idle generator, for which the gather waits (R153). -/
def gatherMask (s : State) (t m g : Nat) (x : Gen) : State :=
  match x.cu with
  | none => setGen s t m g { x with maskEnd := true }
  | some k =>
    let c := getCu s t k
    let run := (c.issued.getD URun.fresh)
    match predOf (cuOf c run) run.slot run.uop, freeGen (getMu s t m) with
    | _, none => cuStall s t k stInput
    | none, _ => setGen s t m g { x with maskEnd := true }
    | some e, _ =>
      let r := maskBytes s t m (prFbagp e.2)
      let x := { x with mask := r.1, maskEnd := true, poi := x.poi || r.2.1 }
      match r.2.2.1 with
      | some a => genFail r.2.2.2 t m g x (a % 2 ^ 32).toNat
      | none => setGen r.2.2.2 t m g x

/-- Cycles beyond one that the pieces of a beat cost an MU, for pieces that meet in a bank (R146, R163): `as` their addresses, `n` words each. -/
def bankExtra (as : List Int) (n : Nat) : Nat :=
  let banks := as.flatMap fun a => (List.range n).map fun i => (a.toNat / 32 + i) % 32
  ((List.range 32).map fun b => banks.countP (· == b)).foldl max 1 - 1

/-- The address of a piece: neuron `n`, K-chunk `j` (R162). -/
def pieceAddr (x : Gen) (n j : Nat) : Int := (gBase x.w0.toNat : Int) + (n * bits x.w1.toNat 0 24 : Nat) + (j * bits x.w1.toNat 24 24 : Nat)

/-- GATHER_PIECE (R162): the next piece of the group of active neurons, a mask token when the group is not known yet, or
the end-of-gather marker after the last group. A poisoned piece poisons its column alone (R178). The cycles that pieces in one bank cost are
counted against the consumer (R146). -/
def execGatherPiece (t : TileId) (m : MuIx) (g : Fin 2) (s : State) : Out :=
  match genReady s t.val m.val g.val 2 with
  | none => .next s
  | some x =>
    let w0 := x.w0.toNat
    let inv := bit x.w1.toNat 63
    let act := (activeOf inv x.mask).drop x.n
    if !genCanEmit s t.val m.val x then .next (outStall s t.val (50 + m.val))
    else if x.direct && !x.maskEnd then .next (gatherMask s t.val m.val g.val x)
    else if act.length < 32 && !x.maskEnd then
      let s := if x.direct then s else dropMask s t.val m.val (gQin w0) 70
      match takeTok s t.val (50 + m.val) (gQin w0) with
      | none => .next (inStall s t.val (50 + m.val) (gQin w0))
      | some (tok, s) =>
        let x := if tok.ctl == some 2 then { x with maskEnd := true }
          else { x with mask := x.mask ++ leBytes (tok.len * 4) tok.val, poi := x.poi || tok.poi, apx := x.apx || tok.apx }
        .next (setGen s t.val m.val g.val x)
    else if act.isEmpty then
      let skipped := x.mask.length - (activeOf inv x.mask).length
      let s := if gDest w0 == 2 then emitCtl s (muEmit s t.val m.val x x.poi) 2 0
        else genFeed s t.val x [⟨x.mask, none, x.poi, [], x.apx, true, skipped⟩]
      .next (finishGen s t.val m.val g.val x)
    else
      let nw := bits x.w1.toNat 61 2 + 1
      let pw := nw * 32
      let col := x.i0
      let mu := if isPaired w0 m.val && col ≥ 16 then m.val + 1 else m.val
      let a := pieceAddr x (lget 0 act col) x.i1
      let dead := decide (col ≥ act.length)
      let s := if dead || inMu a pw then s else genFail s t.val m.val g.val x (a % 2 ^ 32).toNat
      let x := (genOf s t.val m.val g.val).getD x
      let r : List Byte × Bool × State :=
        if dead then (List.replicate pw 0, false, s)
        else if x.failed then (gapBytes pw, true, s)
        else muRead s t.val mu a.toNat pw
      let out := x.out ++ r.1
      let cols := if r.2.1 then x.idx ++ [col] else x.idx
      if col < 31 then .next (setGen r.2.2 t.val m.val g.val { x with out := out, idx := cols, i0 := col + 1 })
      else
        let s := if gDest w0 ≤ 1 then genFeed r.2.2 t.val x [⟨out, none, x.poi, cols, x.apx, false, 0⟩]
          else genEmit r.2.2 t.val m.val x none out (x.poi || !cols.isEmpty)
        let as := (act.take 32).map fun n => pieceAddr x n x.i1
        let extra := if isPaired w0 m.val then max (bankExtra (as.take 16) nw) (bankExtra (as.drop 16) nw) else bankExtra as nw
        let s := match x.cu with
          | some k => if extra == 0 then s else modFlow s t.val (48 + k) fun f => flStall f stInput extra
          | none => s
        let lastJ := decide (x.i1 ≥ bits x.w2.toNat 0 14)
        .next (setGen s t.val m.val g.val
          { x with out := [], idx := [], i0 := 0, i1 := if lastJ then 0 else x.i1 + 1, n := if lastJ then x.n + 32 else x.n })

/-! ### Tree walk (R164 to R166) -/

/-- Emit the records gathered so far. -/
def treeFlush (s : State) (t m : Nat) (x : Gen) : State :=
  if x.out.isEmpty then s else genEmit s t m x none x.out x.poi

/-- A tree ends with a record; after 16 records a token goes out; after the last tree the end marker (R165). -/
def treeRecord (s : State) (t m g : Nat) (x : Gen) (rec_ : Nat) (poi : Bool) : State :=
  let x := { x with out := x.out ++ leBytes 8 rec_, poi := x.poi || poi }
  let full := decide (x.out.length ≥ 128)
  let s := if full then treeFlush s t m x else s
  let x := if full then { x with out := [], poi := false } else x
  if x.n ≥ bits x.w1.toNat 48 16 then
    let s := treeFlush s t m x
    let s := if gDest x.w0.toNat == 2 then
        emitCtl s (muEmit s t m x false) 2 x.tag
      else s
    if x.failed then endGen s t m g
    else setGen s t m g { x with out := [], poi := false, i0 := 0, i1 := 0, n := 0, depth := 0 }
  else setGen s t m g { x with n := x.n + 1, i1 := 0, depth := 0 }

/-- The record of a walk that fails. -/
def treeBad (x : Gen) : Nat := Config.treeGap x.n % 2 ^ 48 + x.n % 65536 * 2 ^ 48

/-- TREE_WALK_NODE (R165): a sample is taken, a root looked up, or one node read and followed. -/
def execTreeWalkNode (t : TileId) (m : MuIx) (g : Fin 2) (s : State) : Out :=
  match genReady s t.val m.val g.val 3 with
  | none => .next s
  | some x =>
    let w0 := x.w0.toNat
    if !genCanEmit s t.val m.val x then .next (outStall s t.val (50 + m.val))
    else if x.i0 == 0 then
      match takeTok s t.val (50 + m.val) (gQin w0) with
      | none => .next (inStall s t.val (50 + m.val) (gQin w0))
      | some (tok, s) =>
        if tok.ctl == some 2 then .next (endGen s t.val m.val g.val)
        else .next (setGen s t.val m.val g.val
          { x with i0 := 1, i1 := 0, n := 0, depth := 0, feat := bits tok.val 0 20, tag := bits tok.val 20 16, poi := tok.poi,
                   apx := tok.apx })
    else if x.failed then .next (treeRecord s t.val m.val g.val x (treeBad x) true)
    else if x.i1 == 0 then
      let a : Int := (bits x.w1.toNat 0 20 + 4 * x.n : Nat)
      if !inMu a 4 then .next (genFail s t.val m.val g.val x (a % 2 ^ 32).toNat)
      else
        let r := muRead s t.val m.val a.toNat 4
        .next (setGen r.2.2 t.val m.val g.val { x with i1 := 1, node := leNat r.1, poi := x.poi || r.2.1 })
    else
      let a : Int := (gBase w0 + 8 * x.node : Nat)
      if !inMu a 8 then .next (genFail s t.val m.val g.val x (a % 2 ^ 32).toNat)
      else
        let r := muRead s t.val m.val a.toNat 8
        let nd := leNat r.1
        let s := r.2.2
        let x := { x with poi := x.poi || r.2.1, depth := x.depth + 1 }
        if bit nd 63 then
          .next (treeRecord s t.val m.val g.val x (bits nd 0 32 + bits nd 32 16 * 2 ^ 32 + x.n % 65536 * 2 ^ 48) false)
        else if bits nd 49 2 > 1 || x.depth ≥ bits x.w1.toNat 40 8 then
          .next (treeRecord (raiseInc s (tileInc s 0x0104 utMu t.val m.val x.n)) t.val m.val g.val x (treeBad x) true)
        else
          let fa : Int := (x.feat + 4 * bits nd 51 11 : Nat)
          if !inMu fa 4 then .next (genFail s t.val m.val g.val x fa.toNat)
          else
            let fr := muRead s t.val m.val fa.toNat 4
            let v := leNat fr.1
            let left := if bits nd 49 2 == 1 then decide (signed 32 v < signed 32 (bits nd 0 32))
              else match numCmp (ofF32 v) (ofF32 (bits nd 0 32)) with
                | some o => o == .lt
                | none => if ofF32 v = .nan then !bit nd 62 else false
            .next (setGen fr.2.2 t.val m.val g.val
              { x with poi := x.poi || fr.2.1, node := if left then x.node + 1 else bits nd 32 17 })

/-! ### Rings (R168, R235 to R238) -/

/-- RING_PRODUCE (R236 to R238): a token of `QDAT` becomes a record of a producer program. Without room, in the ring and in its overflow area, the
record is refused with REFUSED_FULL: nothing of it is written (assumption 115). -/
def execRingProduce (t : TileId) (m : MuIx) (p : Fin 8) (s : State) : Out :=
  let w0 := progWord s t.val m.val p.val 0
  let w1 := progWord s t.val m.val p.val 1
  if gMode w0 != 4 || bit w1 63 || !muMoves s t.val then .next s
  else match takeTok s t.val (50 + m.val) (gQdat w0) with
    | none => .next (inStall s t.val (50 + m.val) (gQdat w0))
    | some (tok, s1) =>
      let data := leBytes ((tok.len * 4 + 7) / 8 * 8) tok.val
      let rec0 : RingRec := ⟨0, 8 + data.length, false, true, qaMake t.val (50 + m.val) 0, 2, tok.poi, tok.apx, data, none⟩
      let rg := mget RingRt.empty (getMu s1 t.val m.val).rings p.val
      let put (s : State) (rg : RingRt) : State := modMu s t.val m.val fun u => { u with rings := mset RingRt.empty u.rings p.val rg }
      if bits w0 0 20 + (ringSizes s t.val m.val p.val).1 > 2 ^ 20 then
        .next (put (raiseInc s1 (tileInc s1 0x0103 utMu t.val m.val (bits w0 0 20 + (ringSizes s t.val m.val p.val).1))) { rg with outc := .poisoned })
      else match ringAdd s1 t.val (progRing s t.val m.val p.val) rg rec0 with
      | none => .next (put s1 { rg with outc := .refusedFull })
      | some r => .next (put r.1 { r.2 with outc := .done })

/-- The ring that a consumer program reads: that of the producer at the same place. -/
def ringHome (s : State) (t m p : Nat) : Nat :=
  ((List.range 8).find? fun q => q != p && gMode (progWord s t m q 0) == 4 && !bit (progWord s t m q 1) 63 &&
    gBase (progWord s t m q 0) == gBase (progWord s t m p 0)).getD p

/-- RING_CONSUME (R235, R237): the oldest complete record leaves the ring for the program's destination. -/
def execRingConsume (t : TileId) (m : MuIx) (p : Fin 8) (s : State) : Out :=
  let w0 := progWord s t.val m.val p.val 0
  let w1 := progWord s t.val m.val p.val 1
  let x := freshGen s t.val m.val p.val none
  if gMode w0 != 4 || !bit w1 63 || !muMoves s t.val then .next s
  else if !genCanEmit s t.val m.val x then .next (outStall s t.val (50 + m.val))
  else
    let home := ringHome s t.val m.val p.val
    let rg := mget RingRt.empty (getMu s t.val m.val).rings home
    match rg.recs with
    | [] => .next (muStall s t.val m.val stInput)
    | r :: _ =>
      match (if r.done then ringFetch s t.val (progRing s t.val m.val home) r else none) with
      | none => .next (muStall s t.val m.val stInput)
      | some (data, poi, s) =>
        let sz := ringSizes s t.val m.val home
        let s := modMu s t.val m.val fun u => { u with rings := mset RingRt.empty u.rings home (ringTake sz.1 sz.2 rg) }
        .next (genEmit s t.val m.val { x with apx := r.apx } none data poi)

/-! ### Snapshots and scrub (R149 to R151, R170 to R175, R507) -/

/-- The copy-out programs of an MU: the first copy-out program of its current context. -/
def copyOutProg (s : State) (t m : Nat) : Option Nat :=
  (List.range 8).find? fun p => gMode (progWord s t m p 0) == 5

/-- The size S of an image slot (R507). -/
def imageSlot (word : W64) : Nat :=
  let w := snWnm1 word + 1
  (256 * w + (w + 7) / 8 + 256 + 4095) / 4096 * 4096

/-- The state block of an MU (R507): the rings of its programs, and for MU0 the `PINV` words of the tile's CUs. -/
def stateBlock (s : State) (t m : Nat) : List Byte :=
  let u := getMu s t m
  let rings := (List.range 8).flatMap fun p =>
    let r := mget RingRt.empty u.rings p
    leBytes 4 r.head ++ leBytes 4 r.tail ++ leBytes 4 r.used
  let pinv := if m == 0 then
      (List.range 2).flatMap fun k => (List.range 16).flatMap fun i => leBytes 4 (mget 0 (getCu s t k).pinv i)
    else []
  (rings ++ pinv ++ List.replicate 256 0).take 256

/-- A SNAPSHOT wave reaches an MU whose window takes snapshots (R170, R174): every granule of the window is frozen and
the copy-out starts; an unfinished copy-out makes the MU skip. The answer says whether it was skipped. -/
def muSnapshot (s : State) (t m wnum : Nat) : State × Bool :=
  let u := getMu s t m
  if !snSen u.snapW then (s, false)
  else if u.snap.isSome then (setMu s t m { u with snapSkip := satAdd 48 u.snapSkip 1 }, true)
  else match copyOutProg s t m with
    | none => (s, false)
    | some p =>
      let h := bits (progWord s t m p 2) 0 48
      let base := h + (u.snapN % 2) * imageSlot u.snapW
      (setMu s t m { u with snap := some ⟨wnum, u.snapW, snWb u.snapW, [], [], [], [], none, freeGen u, p, base,
        stateBlock s t m, false, 0, 0⟩ }, false)

/-- Send a part of an image to HBM (11.4). -/
def imageWrite (s : State) (t m a : Nat) (data : List Byte) (poi : List Bool) : State :=
  let s := tileMwr s t (qaMake t (50 + m) 0) a 65 2 data poi
  match hbmAt s a with
  | some _ => modMu s t m fun u => match u.snap with
    | some sn => { u with snap := some { sn with sent := sn.sent + 1 } }
    | none => u
  | none => modMu s t m fun u => match u.snap with
    | some sn => { u with snap := some { sn with failed := true } }
    | none => u

/-- The bitmap of poisoned granules (R507). -/
def imageBitmap (sn : Snap) : List Byte :=
  let w := snWnm1 sn.word + 1
  leBytes ((w + 7) / 8) (sn.bad.foldl (fun acc g => acc + 2 ^ (g - snWb sn.word)) 0)

/-- Everything of an image has been sent, folded back and answered. -/
def snapOver (sn : Snap) : Bool :=
  decide (sn.next > snWb sn.word + snWnm1 sn.word) && sn.fold.isEmpty && sn.map.isEmpty && sn.acked ≥ sn.sent

/-- A snapshot of an MU that is over ends; `SNAPN` rises when every page was DONE (R507). -/
def snapFinish (s : State) (t m : Nat) : State :=
  let u := getMu s t m
  match u.snap with
  | some sn =>
    if !snapOver sn then s
    else if sn.failed then setMu s t m { u with snap := none }
    else setMu s t m { u with snap := none, snapN := (u.snapN + 1) % 2 ^ 32, doneW := ((sn.wnum, u.snapN + 1) :: u.doneW).take 4 }
  | none => s

/-- COPY_OUT_GRANULE (R170, R175): the granule that a waiting write needs, or else the next one, is read with correction
and sent to HBM; a poisoned one is marked. After the last one the bitmap and the state block follow. -/
def execCopyOutGranule (t : TileId) (m : MuIx) (s : State) : Out :=
  let u := getMu s t.val m.val
  match u.snap with
  | none => .next s
  | some sn =>
    if unitsStill s t.val then .next s
    else match (match sn.gen with | some g => some g | none => freeGen u) with
    | none => .next (muStall s t.val m.val stInput)
    | some gen =>
      let last := snWb sn.word + snWnm1 sn.word
      if sn.next > last then .next (snapFinish s t.val m.val)
      else
        let g := match sn.urgent with
          | some g => if muFrozen u g then g else sn.next
          | none => sn.next
        let bs := (List.range 256).map fun i => muByte u (g * 256 + i)
        let ws := (List.range 32).map (g * 32 + ·)
        let ecc := muEcc u ws
        let bad := muPoison u ws
        -- skip the granules already copied out of turn
        let done := if g == sn.next then sn.done else sn.done ++ [g]
        let next := if g == sn.next then
            ((List.range (last + 2 - sn.next)).map (sn.next + 1 + ·)).find? (fun h => !done.contains h) |>.getD (last + 1)
          else sn.next
        let sn' := { sn with gen := some gen, next := next, done := done, bad := if bad then sn.bad ++ [g] else sn.bad,
                             fold := if (sn.map.lookup g).isSome then sn.fold ++ [g] else sn.fold,
                             urgent := if sn.urgent = some g then none else sn.urgent }
        let s := setMu s t.val m.val { ecc.1 with snap := some sn' }
        let s := muRaise s t.val m.val ecc.2.1 ecc.2.2
        let s := imageWrite s t.val m.val (sn.base + (g - snWb sn.word) * 256) bs
          (ws.map fun w => mget false u.poi w || mget 0 u.err w == 2)
        if next > last then
          let tail := imageBitmap sn' ++ sn.state
          .next ((cutMwr 200 (sn.base + 256 * (snWnm1 sn.word + 1)) tail).foldl
            (fun s e => imageWrite s t.val m.val e.1 e.2 []) s |> fun s => muFlush 64 s t.val m.val)
        else .next (muFlush 64 s t.val m.val)

/-- SNAPSHOT_SHADOW_WAIT (R172): a write to granule `g` needs a shadow granule and none is free; it waits, and the
copy-out of `g` is raised. -/
def execSnapshotShadowWait (t : TileId) (m : MuIx) (g : Fin 4096) (s : State) : Out :=
  let u := getMu s t.val m.val
  let mapped := match u.snap with | some sn => (sn.map.lookup g.val).isSome | none => false
  if muFrozen u g.val && !mapped && (muFreeShadow u).isNone then
    .next (muStall (setMu s t.val m.val (muMarkWait u (g.val * 256))) t.val m.val stOutput)
  else .next s

/-- SHADOW_FOLD_BACK (R171): the shadow of a copied granule is folded back, the mapping removed, the shadow freed. -/
def execShadowFoldBack (t : TileId) (m : MuIx) (s : State) : Out :=
  let u := getMu s t.val m.val
  match u.snap with
  | none => .next s
  | some sn =>
    match sn.fold with
    | [] => .next s
    | g :: rest =>
      if unitsStill s t.val then .next s
      else
        let h := (sn.map.lookup g).getD g
        let e := muEcc u ((List.range 32).map (h * 32 + ·))
        let u' := muCopyGranule e.1 h g
        let s := muRaise (setMu s t.val m.val { u' with snap := some { sn with fold := rest, map := mdel sn.map g } }) t.val m.val e.2.1 e.2.2
        .next (muFlush 64 (snapFinish s t.val m.val) t.val m.val)

/-- The scrub reads the next word of an MU: a correctable error is corrected, an uncorrectable one becomes stored poison and raises 0x0102
once (R151). -/
def scrubMu (s : State) (t m : Nat) : State :=
  let u := getMu s t m
  let ws := (List.range 4).map (u.scrub * 4 + ·)
  let ecc := muEcc u ws
  let two := ws.filter fun w => mget 0 u.err w == 2
  let u' := two.foldl (fun x w => { x with err := mset 0 x.err w 0, poi := mset false x.poi w true }) ecc.1
  let s := setMu s t m { u' with scrub := (u.scrub + 1) % 32768 }
  muRaise s t m ecc.2.1 ecc.2.2

/-- The scrub reads the next word of a core's local memory (R183): a correctable error is corrected, written back, counted and raised; an
uncorrectable one becomes stored poison, as in an MU, and raises 0x0102 once. -/
def scrubWick (s : State) (t c : Nat) : State :=
  let w := getWick s t c
  let i := w.scrub
  let e := mget 0 w.memErr i
  let s := setWick s t c { w with scrub := (i + 1) % 4096, memErr := mset 0 w.memErr i 0,
                                  memPoi := if e == 2 then mset false w.memPoi i true else w.memPoi }
  if e == 1 then raiseCoal (wkCorrected s t 1) (tileInc s 0x0101 utWick t c (4 * i))
  else if e == 2 then raiseUnit s (tileInc s 0x0102 utWick t c (4 * i))
  else s

/-- SRAM_SCRUB (R151, R183). -/
def execSramScrub (t : TileId) (u : ScrubAt) (s : State) : Out :=
  if (regionAt s t.val).frozenAt.isSome && !fenced s t.val then .next s
  else .next (match u with
    | .mu m => scrubMu s t.val m.val
    | .wick c => scrubWick s t.val c.val)

/-! ### The mask deadline (R134) -/

/-- MASK_DEADLINE (R134): a latency-policy invocation whose first mask token has not come by the deadline takes the
fallback mask; the predictor's mask is discarded when it comes, and `PC_LATE` counts. -/
def execMaskDeadline (t : TileId) (k : CuIx) (s : State) : Out :=
  let c := getCu s t.val k.val
  match c.issued with
  | none => .next s
  | some run =>
    let w := runUop c run
    match predOf (cuOf c run) run.slot run.uop, run.deadline with
    | some e, some dl =>
      let lo := muLow k.val w
      let q := bits (progWord s t.val lo (uAgp w) 0) 55 3
      let gens := (getMu s t.val lo).gens
      let seen := gens.any fun g => g.2.prog == uAgp w && g.2.cu == some k.val && (!g.2.mask.isEmpty || g.2.maskEnd)
      if !cuMoves s t.val || run.fallback then .next s
      else if seen || (headTok (getFlow s t.val (50 + lo)) q).isSome || (gatherEnd c (uAgp w)).isSome then
        .next (modCu s t.val k.val fun c => { c with issued := some { run with deadline := none } })
      else
        let s := reachCycle s t.val dl
        let s := modCu s t.val k.val fun c =>
          pcAdd { c with issued := some { run with deadline := none, fallback := true } } run.slot e.1 3 1
        .next (modMu s t.val lo fun m =>
          { m with maskDrop := mmod 0 m.maskDrop q (· + 1),
                   gens := m.gens.map fun g => if g.2.prog == uAgp w && g.2.cu == some k.val then (g.1, { g.2 with direct := true }) else g })
    | _, _ => .next s


end Sys2Proof.Machine
end

