-- ==== Sys2Proof/Machine/WickAlu.lean ====
section
/-!
DEFINITION. The ordinary groups of WK32 (R184 to R187): integer, multiply and divide, scalar floating point, packed
SIMD, bit manipulation, and the hashing instructions of R190 and R191.
-/
namespace Sys2Proof.Machine
open Sys2Proof


/-- A second source of an instruction. -/
def srcVal (w : Wick) : WSrc → Reg
  | .reg r => wkReg w r.val
  | .imm v => ⟨v, false, false⟩

/-- The register a second source reads. -/
def srcUse : WSrc → List Nat
  | .reg r => [r.val]
  | .imm _ => []

/-- A shift amount of 32 or more has no stated result (assumption 10). -/
def shiftBy (k : Nat) (f : W32 → Nat → W32) (a b : W32) : W32 :=
  if b.toNat < 32 then f a b.toNat else Config.wkShift k a b

/-- The integer operations (Table 6.6). -/
def aluVal (o : AluOp) (a b : W32) : W32 :=
  match o with
  | .add => a + b
  | .sub => a - b
  | .and => a &&& b
  | .or => a ||| b
  | .xor => a ^^^ b
  | .sll => shiftBy 0 (fun x n => x <<< n) a b
  | .srl => shiftBy 1 (fun x n => x >>> n) a b
  | .sra => shiftBy 2 (fun x n => x.sshiftRight n) a b
  | .slt => if a.slt b then 1 else 0
  | .sltu => if a.ult b then 1 else 0

/-- The multiply and divide operations, with the fixed corners of R185. -/
def mulVal (o : MulOp) (a b : W32) : W32 :=
  match o with
  | .mul => a * b
  | .mulh => BitVec.ofInt 32 ((a.toInt * b.toInt) >>> 32)
  | .mulhu => BitVec.ofNat 32 ((a.toNat * b.toNat) >>> 32)
  | .divu => if b = 0 then 0xFFFFFFFF#32 else a.udiv b
  | .remu => if b = 0 then a else a.umod b
  | .div =>
    if b = 0 then 0xFFFFFFFF#32 else if a = 0x80000000#32 ∧ b = 0xFFFFFFFF#32 then 0x80000000#32
    else BitVec.ofInt 32 (a.toInt.tdiv b.toInt)
  | .rem =>
    if b = 0 then a else if a = 0x80000000#32 ∧ b = 0xFFFFFFFF#32 then 0
    else BitVec.ofInt 32 (a.toInt.tmod b.toInt)

/-- An instruction that writes one register. -/
def wrReg (gd : GReg) (v : Reg) : WRes := .ok [.reg gd.val v] none

/-- Registers an integer instruction uses. -/
def aluUses : AluIns → List Nat
  | .op _ gd a src => gd.val :: a.val :: srcUse src
  | .lui gd _ => [gd.val]
  | .unlisted _ => []

/-- What an integer instruction does. -/
def aluDec (ins : AluIns) (w : Wick) : WRes :=
  match ins with
  | .op o gd a src => wrReg gd (wkJoin (aluVal o (wkReg w a.val).v (srcVal w src).v) (wkReg w a.val) (srcVal w src))
  | .lui gd imm => wrReg gd ⟨imm.setWidth 32 <<< 16, false, false⟩
  | .unlisted word => .exc 1 word

/-- INTEGER_ALU (R184). -/
def execIntegerAlu (t : TileId) (c : CoreIx) (ins : AluIns) (s : State) : Out :=
  .next (wkIssue s t.val c.val (aluUses ins) (aluDec ins))

/-- MULTIPLY_DIVIDE (R185). -/
def execMultiplyDivide (t : TileId) (c : CoreIx) (o : MulOp) (gd gs1 gs2 : GReg) (s : State) : Out :=
  .next (wkIssue s t.val c.val [gd.val, gs1.val, gs2.val] fun w =>
    wrReg gd (wkJoin (mulVal o (wkReg w gs1.val).v (wkReg w gs2.val).v) (wkReg w gs1.val) (wkReg w gs2.val)))

/-! ### Scalar floating point (R186) -/

/-- The rounding mode of an instruction; SR and the reserved codes are illegal on the core (R186, R69). -/
def fpRnd (r : BitVec 3) : Option Rnd := if r.toNat < 4 then some (rndOf r.toNat 0) else none

/-- The value of a floating-point source. -/
def fpVal (w : FpW) (x : W32) : Num :=
  match w with
  | .fp32 => ofF32 x.toNat
  | .bf16 => decodeFmt .bf16 (bits x.toNat 0 16)

/-- A floating-point result in a register; a BF16 result leaves the upper half open (assumption 12). -/
def fpRes (k : Nat) (w : FpW) (r : Rnd) (a b : W32) (v : Num) : W32 :=
  match w with
  | .fp32 => BitVec.ofNat 32 (conv .fp32 r false false false v).code
  | .bf16 =>
    BitVec.ofNat 32 (conv .bf16 r false false false v).code ||| (Config.wkUpper k a b <<< 16)

/-- A minimum or maximum: the value of one operand, flushed and with a NaN canonical (R186, R42, R46); which value it is for a NaN operand and for
zeros of unlike sign is open (assumption 11). -/
def fpPick (k : Nat) (wantLess : Bool) (w : FpW) (a b : W32) : W32 :=
  let x := fpVal w a
  let y := fpVal w b
  fpRes (20 + k) w .rne a b (match numCmp x y with
    | some .lt => if wantLess then x else y
    | some .gt => if wantLess then y else x
    | some .eq => if x = y then x else fpVal w (Config.wkMinMax k a b)
    | none => fpVal w (Config.wkMinMax k a b))

/-- A compare as a bit; NaN is open (assumption 11). -/
def fpCmp (k : Nat) (p : Ordering → Bool) (w : FpW) (a b : W32) : Bool :=
  match numCmp (fpVal w a) (fpVal w b) with
  | some o => p o
  | none => Config.wkCmpNan k a b

/-- A two-source floating-point operation (R186). -/
def fpOp2 (o : FpOp) (w : FpW) (r : Rnd) (a b : W32) : W32 :=
  match o with
  | .add => fpRes 0 w r a b (numAdd (fpVal w a) (fpVal w b))
  | .sub => fpRes 1 w r a b (numSub (fpVal w a) (fpVal w b))
  | .mul => fpRes 2 w r a b (numMul (fpVal w a) (fpVal w b))
  | .min => fpPick 0 true w a b
  | .max => fpPick 1 false w a b
  | .cmpEq => if fpCmp 0 (· == .eq) w a b then 1 else 0
  | .cmpLt => if fpCmp 1 (· == .lt) w a b then 1 else 0
  | .cmpLe => if fpCmp 2 (· != .gt) w a b then 1 else 0

/-- The conversion targets and sources of the core (Table 6.6): formats of 8 and 16 bits, FP32 and INT32. -/
def fpFmtOk (f : Fmt) : Bool :=
  match f with
  | .e4m3 | .e5m2 | .int8 | .uint8 | .e8m0 | .fp16 | .bf16 | .fp32 | .int32 => true
  | _ => false

/-- Registers a floating-point instruction uses. -/
def fpUses : FpIns → List Nat
  | .op2 _ _ _ gd a b => [gd.val, a.val, b.val]
  | .fma _ _ gd a b c => [gd.val, a.val, b.val, c.val]
  | .cvtTo _ _ _ _ gd a => [gd.val, a.val]
  | .cvtFrom _ _ gd a => [gd.val, a.val]

/-- The low bits of a narrow result with open bits above them (assumption 12). -/
def narrowRes (k n : Nat) (a : W32) (code : Nat) : W32 :=
  if n ≥ 32 then BitVec.ofNat 32 code
  else BitVec.ofNat 32 (code % 2 ^ n) ||| (Config.wkUpper k a 0 <<< n)

/-- What a floating-point instruction does (R186). -/
def fpDec (ins : FpIns) (w : Wick) : WRes :=
  match ins with
  | .op2 o fw rnd gd a b =>
    match fpRnd rnd with
    | some r => wrReg gd (wkJoin (fpOp2 o fw r (wkReg w a.val).v (wkReg w b.val).v) (wkReg w a.val) (wkReg w b.val))
    | none => wkIllegal rnd.toNat
  | .fma fw rnd gd a b c =>
    match fpRnd rnd with
    | some r =>
      let x := wkReg w a.val
      let y := wkReg w b.val
      let z := wkReg w c.val
      let v := fpRes 3 fw r x.v y.v (numAdd (numMul (fpVal fw x.v) (fpVal fw y.v)) (fpVal fw z.v))
      wrReg gd ⟨v, x.poi || y.poi || z.poi, x.apx || y.apx || z.apx⟩
    | none => wkIllegal rnd.toNat
  | .cvtTo fmt rnd ovm _ gd a =>
    let f := fmtOf fmt.toNat
    match fpRnd rnd with
    | some r =>
      if fpFmtOk f then
        let x := wkReg w a.val
        let code := (conv f r ovm false false (ofF32 x.v.toNat)).code
        wrReg gd ⟨narrowRes (4 + fmt.toNat) (fmtBits f) x.v code, x.poi, x.apx⟩
      else wkIllegal fmt.toNat
    | none => wkIllegal rnd.toNat
  | .cvtFrom fmt rnd gd a =>
    let f := fmtOf fmt.toNat
    match fpRnd rnd with
    | some r =>
      if fpFmtOk f then
        let x := wkReg w a.val
        wrReg gd ⟨BitVec.ofNat 32 (conv .fp32 r false false false (decodeFmt f (bits x.v.toNat 0 (fmtBits f)))).code,
          x.poi, x.apx⟩
      else wkIllegal fmt.toNat
    | none => wkIllegal rnd.toNat

/-- SCALAR_FLOATING_POINT (R186). -/
def execScalarFloatingPoint (t : TileId) (c : CoreIx) (ins : FpIns) (s : State) : Out :=
  .next (wkIssue s t.val c.val (fpUses ins) (fpDec ins))

/-! ### Packed SIMD (R186) -/

/-- The registers of a quad. -/
def quad (r : GReg) : List Nat := [r.val, r.val + 1, r.val + 2, r.val + 3]

/-- A quad starts at a multiple of 4. -/
def quadOk (r : GReg) : Bool := r.val % 4 == 0

/-- The values of a quad. -/
def quadVals (w : Wick) (r : GReg) : List Reg := (quad r).map (wkReg w)

/-- Write a quad; every register takes the markers of all the sources (R201). -/
def wrQuad (gd : GReg) (vs : List W32) (poi apx : Bool) : WRes :=
  .ok ((vs.zipIdx).map fun e => .reg (gd.val + e.2) ⟨e.1, poi, apx⟩) none

/-- Bytes of a register, low first. -/
def regBytes (v : W32) : List Int := (List.range 4).map fun i => signed 8 (bits v.toNat (8 * i) 8)

/-- One packed INT8 sum or difference, wrapping or saturating by `OVF` (R74). -/
def i8Op (sub ovf : Bool) (a b : Int) : Nat :=
  let z := if sub then a - b else a + b
  if ovf then unsigned 8 z else unsigned 8 (max (-128) (min 127 z))

/-- Registers a packed instruction uses. -/
def simdUses : SimdIns → List Nat
  | .f32x4 _ _ gd a b => quad gd ++ quad a ++ quad b
  | .f32x4fma _ gd a b c => quad gd ++ quad a ++ quad b ++ quad c
  | .i8x16 _ _ gd a b => quad gd ++ quad a ++ quad b
  | .dot8 gd a b => gd.val :: quad a ++ quad b

/-- What a packed instruction does (R186). -/
def simdDec (ins : SimdIns) (w : Wick) : WRes :=
  match ins with
  | .f32x4 o rnd gd a b =>
    match fpRnd rnd with
    | some r =>
      if quadOk gd && quadOk a && quadOk b then
        let xs := quadVals w a
        let ys := quadVals w b
        wrQuad gd (List.zipWith (fun x y => fpOp2 o .fp32 r x.v y.v) xs ys) ((xs ++ ys).any (·.poi)) ((xs ++ ys).any (·.apx))
      else wkIllegal gd.val
    | none => wkIllegal rnd.toNat
  | .f32x4fma rnd gd a b c =>
    match fpRnd rnd with
    | some r =>
      if quadOk gd && quadOk a && quadOk b && quadOk c then
        let xs := quadVals w a
        let ys := quadVals w b
        let zs := quadVals w c
        let vs := (List.range 4).map fun i =>
          let x := (lget Reg.zero xs i).v
          let y := (lget Reg.zero ys i).v
          let z := (lget Reg.zero zs i).v
          fpRes 3 .fp32 r x y (numAdd (numMul (fpVal .fp32 x) (fpVal .fp32 y)) (fpVal .fp32 z))
        wrQuad gd vs ((xs ++ ys ++ zs).any (·.poi)) ((xs ++ ys ++ zs).any (·.apx))
      else wkIllegal gd.val
    | none => wkIllegal rnd.toNat
  | .i8x16 sub ovf gd a b =>
    if quadOk gd && quadOk a && quadOk b then
      let xs := quadVals w a
      let ys := quadVals w b
      let vs := List.zipWith (fun (x y : Reg) =>
        BitVec.ofNat 32 ((List.zipWith (i8Op sub ovf) (regBytes x.v) (regBytes y.v)).reverse.foldl
          (fun acc b => acc * 256 + b) 0)) xs ys
      wrQuad gd vs ((xs ++ ys).any (·.poi)) ((xs ++ ys).any (·.apx))
    else wkIllegal gd.val
  | .dot8 gd a b =>
    if quadOk a && quadOk b then
      let xs := quadVals w a
      let ys := quadVals w b
      let d := wkReg w gd.val
      let dot : Int := (List.zipWith (fun (x y : Reg) =>
        (List.zipWith (· * ·) (regBytes x.v) (regBytes y.v)).sum) xs ys).sum
      let z := d.v.toInt + dot
      let v := if -2147483648 ≤ z ∧ z ≤ 2147483647 then BitVec.ofInt 32 z else Config.wkDotOver z
      wrReg gd ⟨v, (d :: xs ++ ys).any (·.poi), (d :: xs ++ ys).any (·.apx)⟩
    else wkIllegal a.val

/-- PACKED_SIMD (R186). -/
def execPackedSimd (t : TileId) (c : CoreIx) (ins : SimdIns) (s : State) : Out :=
  .next (wkIssue s t.val c.val (simdUses ins) (simdDec ins))

/-! ### Bit manipulation (Table 6.6) -/

/-- Leading zeros of a 32-bit word. -/
def clz32 (v : W32) : Nat := if v = 0 then 32 else 31 - Nat.log2 v.toNat
/-- Trailing zeros of a 32-bit word. -/
def ctz32 (v : W32) : Nat := ((List.range 32).find? fun i => bit v.toNat i).getD 32
/-- Ones of a 32-bit word. -/
def popc32 (v : W32) : Nat := ((List.range 32).filter fun i => bit v.toNat i).length
/-- The bytes of a word in reverse order. -/
def bswap32 (v : W32) : W32 := BitVec.ofNat 32 (leNat (leBytes 4 v.toNat).reverse)

/-- Registers a bit instruction uses. -/
def bitUses : BitIns → List Nat
  | .clz gd a | .ctz gd a | .popc gd a | .bswap gd a => [gd.val, a.val]
  | .extract gd a _ _ | .insert gd a _ _ => [gd.val, a.val]
  | .rotl gd a src | .rotr gd a src => gd.val :: a.val :: srcUse src

/-- What a bit-manipulation instruction does. -/
def bitDec (ins : BitIns) (w : Wick) : WRes :=
  let one (gd a : GReg) (f : W32 → W32) : WRes := wrReg gd { wkReg w a.val with v := f (wkReg w a.val).v }
  match ins with
  | .clz gd a => one gd a fun v => BitVec.ofNat 32 (clz32 v)
  | .ctz gd a => one gd a fun v => BitVec.ofNat 32 (ctz32 v)
  | .popc gd a => one gd a fun v => BitVec.ofNat 32 (popc32 v)
  | .bswap gd a => one gd a bswap32
  | .extract gd a pos len => one gd a fun v =>
      if pos + len ≤ 32 then BitVec.ofNat 32 (bits v.toNat pos len) else Config.wkField 0 v pos len
  | .insert gd a pos len =>
    let d := wkReg w gd.val
    let x := wkReg w a.val
    let v := if pos + len ≤ 32 then BitVec.ofNat 32 (setBits d.v.toNat pos len x.v.toNat) else Config.wkField 1 x.v pos len
    wrReg gd (wkJoin v d x)
  | .rotl gd a src =>
    wrReg gd (wkJoin ((wkReg w a.val).v.rotateLeft ((srcVal w src).v.toNat % 32)) (wkReg w a.val) (srcVal w src))
  | .rotr gd a src =>
    wrReg gd (wkJoin ((wkReg w a.val).v.rotateRight ((srcVal w src).v.toNat % 32)) (wkReg w a.val) (srcVal w src))

/-- BIT_MANIPULATION (R187). -/
def execBitManipulation (t : TileId) (c : CoreIx) (ins : BitIns) (s : State) : Out :=
  .next (wkIssue s t.val c.val (bitUses ins) (bitDec ins))

/-! ### Hashing (R190, R191) -/

/-- CRC32C (R190): width code 3 is reserved and illegal (Table 6.8). -/
def execCrc32c (t : TileId) (c : CoreIx) (gd gs1 gs2 : GReg) (wd : BitVec 2) (s : State) : Out :=
  .next (wkIssue s t.val c.val [gd.val, gs1.val, gs2.val] fun w =>
    if wd = 3 then wkIllegal 3
    else
      let n := 2 ^ wd.toNat
      let v := crc32cCont (wkReg w gs1.val).v.toNat (leBytes n (wkReg w gs2.val).v.toNat)
      wrReg gd (wkJoin (BitVec.ofNat 32 v) (wkReg w gs1.val) (wkReg w gs2.val)))

/-- HMIX (R191). -/
def execHmix (t : TileId) (c : CoreIx) (gd gs1 gs2 : GReg) (s : State) : Out :=
  .next (wkIssue s t.val c.val [gd.val, gs1.val, gs2.val] fun w =>
    wrReg gd (wkJoin (hmix (wkReg w gs1.val).v (wkReg w gs2.val).v) (wkReg w gs1.val) (wkReg w gs2.val)))

/-- HFOLD (R191). -/
def execHfold (t : TileId) (c : CoreIx) (gd gs1 gs2 : GReg) (s : State) : Out :=
  .next (wkIssue s t.val c.val [gd.val, gs1.val, gs2.val] fun w =>
    wrReg gd (wkJoin (hfold (wkReg w gs1.val).v (wkReg w gs2.val).v) (wkReg w gs1.val) (wkReg w gs2.val)))

end Sys2Proof.Machine
end

