-- ==== Sys2Proof/Machine/WickMem.lean ====
section
/-!
DEFINITION. Memory accesses of the Wick cores: loads and stores (R181 to R183, R192), branches and jumps, remote
accesses and their replies (R193 to R196, R177).
-/
namespace Sys2Proof.Machine
open Sys2Proof

/-- Bytes of an access. -/
def lsBytes : LsOp → Nat
  | .lb | .lbu | .sb => 1
  | .lh | .lhu | .sh => 2
  | .lw | .sw => 4

/-- The access is a store. -/
def lsStore : LsOp → Bool
  | .sb | .sh | .sw => true
  | _ => false

/-- The load sign-extends. -/
def lsSigned : LsOp → Bool
  | .lb | .lh => true
  | _ => false

/-- The first address of the own-tile MU window (Table 6.3). -/
def muWindow : Nat := 0x100000

/-- A load from local memory: the value, with the poison and the correction of R183. -/
def loadLocal (w : Wick) (o : LsOp) (gd : GReg) (a : Nat) : WRes :=
  let n := lsBytes o
  let i := a / 4
  let v := leNat ((List.range n).map fun j => mget 0 w.mem (a + j))
  let x : Nat := if lsSigned o then unsigned 32 (signed (8 * n) v) else v
  let e := mget 0 w.memErr i
  let poi := mget false w.memPoi i || e == 2
  let fix : List WAct := if e == 1 then [.fixWord i] else if e == 2 then [.badWord i] else []
  .ok (fix ++ [.reg gd.val ⟨BitVec.ofNat 32 x, poi, false⟩]) none

/-- What a load or store does (R181): misalignment is checked before the range (assumption 17). -/
def lsDec (s : State) (t : Nat) (o : LsOp) (gd gs1 : GReg) (imm : BitVec 16) (w : Wick) : WRes :=
  let base := wkReg w gs1.val
  let a := (base.v + imm.signExtend 32).toNat
  let n := lsBytes o
  let d := wkReg w gd.val
  let bs := leBytes n d.v.toNat
  if base.poi then wkPoisonUse base
  else if a % n != 0 then .exc 2 (BitVec.ofNat 32 a)
  else if a < 0x4000 then
    if lsStore o then
      if inWindow w a then .exc 3 (BitVec.ofNat 32 a) else .ok [.store a bs d.poi] none
    else loadLocal w o gd a
  else if muWindow ≤ a ∧ a < 0x500000 then
    let k := (a - muWindow) / 0x100000
    let ad := (a - muWindow) % 0x100000
    if lsStore o then
      match muWriteAll (getMu s t k) ad bs d.poi with
      | some _ => .ok [.muStore k ad bs d.poi] none
      | none => .stall stOutput (some (k, ad))
    else if w.own.length ≥ 4 then .stall stInput none
    else .ok [.muLoad gd.val k ad n (lsSigned o)] none
  else .exc 3 (BitVec.ofNat 32 a)

/-- LOAD_STORE (R181). -/
def execLoadStore (t : TileId) (c : CoreIx) (o : LsOp) (gd gs1 : GReg) (imm : BitVec 16) (s : State) : Out :=
  .next (wkIssue s t.val c.val [gd.val, gs1.val] (lsDec s t.val o gd gs1 imm))

/-- OWN_TILE_LOAD_DATA (R192): the oldest own-tile load of the core writes its register. -/
def execOwnTileLoadData (t : TileId) (c : CoreIx) (s : State) : Out :=
  let w := getWick s t.val c.val
  match w.own with
  | [] => .next s
  | o :: rest =>
    let s := modWick s t.val c.val fun w => { wkSetReg w o.rd o.v with own := rest }
    .next (if wkEvenLocked w c.val then modWick s t.val (c.val + 1) fun b => wkSetReg b o.rd o.v else s)

/-- A branch condition. -/
def brTaken (c : BrCond) (a b : W32) : Bool :=
  match c with
  | .eq => a == b
  | .ne => a != b
  | .lt => a.slt b
  | .ge => !a.slt b
  | .ltu => a.ult b
  | .geu => !a.ult b

/-- Registers a control instruction uses. -/
def ctlUses : CtlIns → List Nat
  | .branch _ a b _ => [a.val, b.val]
  | .jal gd _ => [gd.val]
  | .jr a => [a.val]

/-- What a control instruction does. The low two bits of a target are zero, `pc` being a multiple of 4; a jump whose
register value lies beyond 14 bits raises ADDR_RANGE (assumption 18). -/
def ctlDec (ins : CtlIns) (w : Wick) : WRes :=
  let go (x : BitVec 14) : Option (BitVec 14) := some (x &&& 0x3FFC#14)
  match ins with
  | .branch c a b tgt =>
    let x := wkReg w a.val
    let y := wkReg w b.val
    if x.poi then wkPoisonUse x else if y.poi then wkPoisonUse y
    else .ok [] (if brTaken c x.v y.v then go tgt else none)
  | .jal gd tgt => .ok [.reg gd.val ⟨BitVec.ofNat 32 (w.pc.toNat + 4), false, false⟩] (go tgt)
  | .jr a =>
    let x := wkReg w a.val
    if x.poi then wkPoisonUse x
    else if x.v.toNat ≥ 0x4000 then .exc 3 x.v
    else .ok [] (go (x.v.setWidth 14))

/-- BRANCH_JUMP (R184). -/
def execBranchJump (t : TileId) (c : CoreIx) (ins : CtlIns) (s : State) : Out :=
  .next (wkIssue s t.val c.val (ctlUses ins) (ctlDec ins))

/-! ### Remote accesses -/

/-- The lowest free remote tag (R193). -/
def freeTag (w : Wick) : Option Nat := (List.range 4).find? fun i => mget RTag.free w.tags i = .free

/-- `RLERR` after an access that did not end DONE (Table 6.2). -/
def wkRlerr (w : Wick) (o : Outc) : Wick :=
  if o = .done then w
  else { w with rlerrN := satAdd 16 w.rlerrN 1, rlerrO := if w.rlerrN == 0 then outcCode o else w.rlerrO }

/-- LDR (R193); on the core's own tile an aligned load is served as an own-tile load (R194). -/
def execLdr (t : TileId) (c : CoreIx) (gd gs1 gs2 : GReg) (s : State) : Out :=
  .next (wkIssue s t.val c.val [gd.val, gs1.val, gs2.val] fun w =>
    let a := wkReg w gs1.val
    let b := wkReg w gs2.val
    let tile := bits a.v.toNat 2 14
    let mu := bits a.v.toNat 0 2
    let ofs := bits b.v.toNat 0 20
    if a.poi then wkPoisonUse a else if b.poi then wkPoisonUse b
    else if tile == t.val && ofs % 4 == 0 then
      if w.own.length ≥ 4 then .stall stInput none else .ok [.muLoad gd.val mu ofs 4 false] none
    else match freeTag w with
      | none => .stall stCredit none
      | some g => .ok [.remote false g gd.val tile mu ofs Reg.zero] none)

/-- STR (R193). -/
def execStr (t : TileId) (c : CoreIx) (gd gs1 gs2 : GReg) (s : State) : Out :=
  .next (wkIssue s t.val c.val [gd.val, gs1.val, gs2.val] fun w =>
    let a := wkReg w gs1.val
    let b := wkReg w gs2.val
    if a.poi then wkPoisonUse a else if b.poi then wkPoisonUse b
    else match freeTag w with
      | none => .stall stCredit none
      | some g =>
        .ok [.remote true g 0 (bits a.v.toNat 2 14) (bits a.v.toNat 0 2) (bits b.v.toNat 0 20) (wkReg w gd.val)] none)

/-- End a remote access (R196): the destination of a load that is not DONE is 0, poisoned. -/
def endRemote (s : State) (t c tag : Nat) (after : RTag) (o : Outc) (v : Reg) : State :=
  let w := getWick s t c
  match mget RTag.free w.tags tag with
  | .live load rd _ _ =>
    let f (x : Wick) : Wick :=
      let x := if load then wkSetReg x rd (if o = .done then v else ⟨0, true, false⟩) else x
      wkRlerr { x with tags := mset RTag.free x.tags tag after } o
    let s := modWick s t c f
    if wkEvenLocked w c then
      modWick s t (c + 1) fun x => if load then wkSetReg x rd (if o = .done then v else ⟨0, true, false⟩) else x
    else s
  | _ => s

/-- REMOTE_ACCESS_TIMEOUT (R196): the deadline passes; the tag waits for the reply that may still come. -/
def execRemoteAccessTimeout (t : TileId) (c : CoreIx) (tag : Fin 4) (s : State) : Out :=
  match mget RTag.free (getWick s t.val c.val).tags tag.val with
  | .live _ _ dl pid =>
    if (regionAt s t.val).frozenAt.isSome then .next s
    else .next (endRemote (reachCycle s t.val dl) t.val c.val tag.val (.expired pid) .timeout Reg.zero)
  | _ => .next s

/-- RRSP (R194, R196): a reply in time writes its register; one that comes after the deadline is discarded and its
tag freed then. A reply to a request that a region stop ended is discarded (R209). -/
def execRrsp (pid : Nat) (s : State) : Out :=
  match getPacket s pid with
  | some p =>
    match p.body, p.loc with
    | .rrsp tag data poi o, .deliver t =>
      let c := qaUnit p.dst
      let s := delPacket s pid
      if qaTile p.dst != t || c ≥ 48 then .next s
      else
        match mget RTag.free (getWick s t c).tags tag with
        | .live _ _ dl pid =>
          let now := cyclesOf s t
          if p.re != pid then .next s
          else if now > dl then
            .next (endRemote s t c tag .free .timeout Reg.zero)
          else
            let s := endRemote s t c tag .free o ⟨data, poi, false⟩
            .next (if now == dl then modWick s t c fun w => { w with tie := satAdd 16 w.tie 1 } else s)
        | .expired pid => .next (if p.re != pid then s else modWick s t c fun w => { w with tags := mset RTag.free w.tags tag .free })
        | .free => .next s
    | _, _ => .next s
  | none => .next s

/-- RACC (R177, Table 6.9): a remote load or store is served or refused at the target MU; while its group recovers it is refused from outside
the group (R518). -/
def execRacc (pid : Nat) (s : State) : Out :=
  match getPacket s pid with
  | some p =>
    match p.body, p.loc with
    | .racc st tag ofs d, .deliver t =>
      let k := qaUnit p.dst - 50
      let ans (s : State) (v : W32) (poi : Bool) (o : Outc) : State :=
        answerWith (delPacket s pid) t p p.src (.rrsp tag v poi o)
      if qaTile p.dst != t || qaUnit p.dst < 50 || qaUnit p.dst > 53 then .next (ans s 0 false .fault)
      else if fenced s t || (groupRecovering s t && foreign s t p.src) then .next (ans s 0 false .refusedFenced)
      else if ofs % 4 != 0 then
        .next (ans (raiseInc s (tileInc s 0x0103 utMu t k ofs)) 0 false .fault)
      else if st then
        let r := muWrite s t k ofs (leBytes 4 d.v.toNat) d.poi
        .next (if r.2 then ans r.1 0 false .done else r.1)
      else
        let r := muRead s t k ofs 4
        .next (ans r.2.2 (BitVec.ofNat 32 (leNat r.1)) r.2.1 .done)
    | _, _ => .next s
  | none => .next s

end Sys2Proof.Machine
end

