-- ==== Sys2Proof/Machine/WickMsg.lean ====
section
/-!
DEFINITION. Queue and messaging instructions of the Wick cores and the arrivals that answer them (chapter 7): pops,
SEND and tickets, SENDB with its back-off, RECV, probes of the mutual-block detector, messages and their replies.
-/
namespace Sys2Proof.Machine
open Sys2Proof

/-- A register that names a pair is even. -/
def pairOk (r : GReg) : Bool := r.val % 2 == 0

/-- Write a 64-bit value to a register pair with markers. -/
def wrPair (gd : GReg) (v : W64) (poi apx : Bool) : List WAct :=
  [.reg gd.val ⟨v.setWidth 32, poi, apx⟩, .reg (gd.val + 1) ⟨(v >>> 32).setWidth 32, poi, apx⟩]

/-- The head of a queue, or the stall of R189. -/
def qHead (w : Wick) (q : QIx) (f : QEnt → WRes) : WRes :=
  match mget [] w.queues q.val with
  | e :: _ => f e
  | [] => .stallQ q.val

/-- POP (R189). -/
def execPop (t : TileId) (c : CoreIx) (gd : GReg) (q : QIx) (s : State) : Out :=
  .next (wkIssue s t.val c.val [gd.val, gd.val + 1] fun w =>
    if pairOk gd then qHead w q fun e => .ok (wrPair gd e.w e.poi e.apx ++ [.dropHead q.val]) none
    else wkIllegal gd.val)

/-- POPL (R189). -/
def execPopl (t : TileId) (c : CoreIx) (gd : GReg) (q : QIx) (s : State) : Out :=
  .next (wkIssue s t.val c.val [gd.val] fun w =>
    qHead w q fun e => .ok [.reg gd.val ⟨e.w.setWidth 32, e.poi, e.apx⟩, .dropHead q.val] none)

/-- PEEK (R189). -/
def execPeek (t : TileId) (c : CoreIx) (gd : GReg) (q : QIx) (s : State) : Out :=
  .next (wkIssue s t.val c.val [gd.val, gd.val + 1] fun w =>
    if pairOk gd then qHead w q fun e => .ok (wrPair gd e.w e.poi e.apx) none else wkIllegal gd.val)

/-- QCNT (R188, R189). -/
def execQcnt (t : TileId) (c : CoreIx) (gd : GReg) (q : QIx) (s : State) : Out :=
  .next (wkIssue s t.val c.val [gd.val] fun w =>
    wrReg gd ⟨BitVec.ofNat 32 (mget [] w.queues q.val).length, false, false⟩)

/-- QDROP (R188): no effect on an empty queue; `GD` must be 0. -/
def execQdrop (t : TileId) (c : CoreIx) (gd : GReg) (q : QIx) (s : State) : Out :=
  .next (wkIssue s t.val c.val [] fun w =>
    if gd.val != 0 then wkIllegal gd.val
    else if (mget [] w.queues q.val).isEmpty then .ok [] none else .ok [.dropHead q.val] none)

/-! ### SEND and tickets -/

/-- Message words from register pairs with their markers (R216). -/
def msgWords (w : Wick) (gs2 n : Nat) : List QEnt :=
  (List.range n).map fun i =>
    let a := wkReg w (gs2 + 2 * i)
    let b := wkReg w (gs2 + 2 * i + 1)
    ⟨b.v ++ a.v, a.poi || b.poi, a.apx || b.apx⟩

/-- The ticket a send takes: the first free one after the last taken (R222). -/
def nextTicket (w : Wick) : Option Nat :=
  ((List.range 8).map fun i => (w.lastTk + 1 + i) % 8).find? fun k => !(mget Ticket.fresh w.tickets k).pending

/-- The registers `gs2` upward that a message of `n` words reads. -/
def msgUses (gs2 n : Nat) : List Nat := (List.range (2 * n)).map (gs2 + ·)

/-- SEND (R222): `n` is the number of words minus 1. -/
def execSend (t : TileId) (c : CoreIx) (gd gs1 gs2 : GReg) (n : Fin 4) (s : State) : Out :=
  .next (wkIssue s t.val c.val (gd.val :: gs1.val :: msgUses gs2.val (n.val + 1)) fun w =>
    let a := wkReg w gs1.val
    if gs2.val % 2 != 0 || gs2.val + 2 * (n.val + 1) > 32 then wkIllegal gs2.val
    else if a.poi then wkPoisonUse a
    else match nextTicket w with
      | none => .stall stCredit none
      | some k =>
        .ok [.reg gd.val ⟨BitVec.ofNat 32 k, false, false⟩,
          .send k (bits a.v.toNat 0 23) (msgWords w gs2.val (n.val + 1))] none)

/-- SENDB (R225). -/
def execSendb (t : TileId) (c : CoreIx) (gd gs1 gs2 : GReg) (n : Fin 4) (s : State) : Out :=
  .next (wkIssue s t.val c.val (gd.val :: gs1.val :: msgUses gs2.val (n.val + 1)) fun w =>
    let a := wkReg w gs1.val
    if gs2.val % 2 != 0 || gs2.val + 2 * (n.val + 1) > 32 then wkIllegal gs2.val
    else if a.poi then wkPoisonUse a
    else .wait [.sendb gd.val (bits a.v.toNat 0 23) (msgWords w gs2.val (n.val + 1))])

/-- DSEND (R232, R233). -/
def execDsend (t : TileId) (c : CoreIx) (gd gs1 gs2 : GReg) (s : State) : Out :=
  .next (wkIssue s t.val c.val (gd.val :: gs1.val :: msgUses gs2.val 1) fun w =>
    let a := wkReg w gs1.val
    if gs2.val % 2 != 0 then wkIllegal gs2.val
    else if a.poi then wkPoisonUse a
    else match nextTicket w with
      | none => .stall stCredit none
      | some k =>
        match msgWords w gs2.val 1 with
        | d :: _ =>
          .ok [.reg gd.val ⟨BitVec.ofNat 32 k, false, false⟩, .dsend k (bits a.v.toNat 0 23) d] none
        | [] => wkIllegal gs2.val)

/-- TKWT (R223). -/
def execTkwt (t : TileId) (c : CoreIx) (gd gs1 : GReg) (s : State) : Out :=
  .next (wkIssue s t.val c.val [gd.val, gs1.val] fun w =>
    let a := wkReg w gs1.val
    let k := mget Ticket.fresh w.tickets (bits a.v.toNat 0 3)
    if a.poi then wkPoisonUse a
    else if k.pending then .stall stCredit none
    else wrReg gd ⟨BitVec.ofNat 32 (outcCode k.outc), false, a.apx⟩)

/-- TKST (R223): bit 31 pending, bits [3:0] outcome. -/
def execTkst (t : TileId) (c : CoreIx) (gd gs1 : GReg) (s : State) : Out :=
  .next (wkIssue s t.val c.val [gd.val, gs1.val] fun w =>
    let a := wkReg w gs1.val
    let k := mget Ticket.fresh w.tickets (bits a.v.toNat 0 3)
    if a.poi then wkPoisonUse a
    else wrReg gd ⟨BitVec.ofNat 32 (ofBit k.pending * 2 ^ 31 + if k.pending then 0 else outcCode k.outc), false, a.apx⟩)

/-- FENCE (R195). -/
def execWickFence (t : TileId) (c : CoreIx) (s : State) : Out :=
  .next (wkIssue s t.val c.val [] fun w => if wkResolved w then .ok [] none else .stall stCredit none)

/-- TICKET_TIMEOUT (R224). -/
def execTicketTimeout (t : TileId) (c : CoreIx) (tk : Fin 8) (s : State) : Out :=
  let w := getWick s t.val c.val
  let k := mget Ticket.fresh w.tickets tk.val
  if k.pending && (regionAt s t.val).frozenAt.isNone then
    let s := reachCycle s t.val k.deadline
    let s := modWick s t.val c.val fun w =>
      { w with tickets := mset Ticket.fresh w.tickets tk.val { k with pending := false, outc := .timeout } }
    .next (raiseInc s (tileInc s 0x0504 utWick t.val c.val (k.dst + tk.val * 2 ^ 24)))
  else .next s

/-! ### SENDB -/

/-- SENDB_RETRY (R225): a back-off wait ends and the next attempt is sent. -/
def execSendbRetry (t : TileId) (c : CoreIx) (s : State) : Out :=
  match (getWick s t.val c.val).sendb with
  | some b =>
    if b.awaiting || b.resume ≥ b.deadline || (regionAt s t.val).frozenAt.isSome then .next s
    else
      let s := reachCycle s t.val b.resume
      let s := modWick s t.val c.val fun w =>
        { w with sendb := some { b with awaiting := true, wait := min (2 * b.wait) 1024, blockedOn := none, pid := s.net.next } }
      .next (wkInject s t.val c.val 0 b.dst (.msg true b.words))
  | none => .next s

/-- SENDB_DEADLINE (R225): the deadline is reached during back-off; the last refusal is returned. -/
def execSendbDeadline (t : TileId) (c : CoreIx) (s : State) : Out :=
  match (getWick s t.val c.val).sendb with
  | some b =>
    if b.awaiting || b.resume < b.deadline || (regionAt s t.val).frozenAt.isSome then .next s
    else .next (wkFinish (reachCycle s t.val b.deadline) t.val c.val b.gd
      ⟨BitVec.ofNat 32 (outcCode .refusedFull), false, false⟩)
  | none => .next s

/-- The end of a `SENDB` whose reply has not come in time (R226). -/
def sendbLost (s : State) (t c : Nat) (b : SendB) : State :=
  let s := wkFinish s t c b.gd ⟨BitVec.ofNat 32 (outcCode .timeout), false, false⟩
  raiseInc s (tileInc s 0x0504 utWick t c (b.dst + 2 ^ 27))

/-- SENDB_REPLY_LOST (R226). -/
def execSendbReplyLost (t : TileId) (c : CoreIx) (s : State) : Out :=
  match (getWick s t.val c.val).sendb with
  | some b =>
    if b.awaiting && (regionAt s t.val).frozenAt.isNone then
      .next (sendbLost (reachCycle s t.val (b.deadline + 4096)) t.val c.val b)
    else .next s
  | none => .next s

/-- Core B that a `SENDB` is blocked on when `dst` is one of its user-class queues (7.7). -/
def userQueueCore (s : State) (dst : Nat) : Option Nat :=
  if qaTileForm dst && decide (qaUnit dst < 48) && wkQcls (getWick s (qaTile dst) (qaUnit dst)) (qaQueue dst) then
    some (qaMake (qaTile dst) (qaUnit dst) 0)
  else none

/-- The reply to packet `re`, the latest attempt of a `SENDB` (R225), with the probe of R231 when its refusal sets the back-off to 1,024. One that
comes more than 4,096 cycles after the deadline finds the `SENDB` ended, and one to an earlier `SENDB` is discarded (R226). -/
def sendbReply (s : State) (t c : Nat) (o : Outc) (re : Nat) : State :=
  match (getWick s t c).sendb with
  | some b =>
    if !b.awaiting || b.pid != re then s
    else if cyclesOf s t > b.deadline + 4096 then sendbLost s t c b
    else
      let now := cyclesOf s t
      let s := if now == b.deadline then modWick s t c fun w => { w with tie := satAdd 16 w.tie 1 } else s
      if o ≠ .refusedFull then wkFinish s t c b.gd ⟨BitVec.ofNat 32 (outcCode o), false, false⟩
      else if now ≥ b.deadline then wkFinish s t c b.gd ⟨BitVec.ofNat 32 (outcCode .refusedFull), false, false⟩
      else
        let on := userQueueCore s b.dst
        let probe := decide (b.wait = 1024) && !b.probed && on.isSome
        let s := modWick s t c fun w =>
          { w with sendb := some { b with awaiting := false, resume := now + b.wait, blockedOn := on, probed := b.probed || probe } }
        match on with
        | some core =>
          if probe then wkInject s t c 0 core (.probe 1 (coreAddr t c) (coreAddr t c)) else s
        | none => s
  | none => s

/-- The reply to packet `re`, which a ticket awaits (R223, R224): in time it resolves the ticket; after its deadline the ticket has timed out. A
late reply to an earlier send of the same ticket is discarded. -/
def ticketReply (s : State) (t c tk : Nat) (o : Outc) (re : Nat) : State :=
  let w := getWick s t c
  let k := mget Ticket.fresh w.tickets tk
  if !k.pending || k.pid != re then s
  else
    let now := cyclesOf s t
    let set (s : State) (o : Outc) : State := modWick s t c fun w =>
      { w with tickets := mset Ticket.fresh w.tickets tk { k with pending := false, outc := o } }
    if now > k.deadline then
      let s := set s .timeout
      raiseInc s (tileInc s 0x0504 utWick t c (k.dst + tk * 2 ^ 24))
    else
      let s := set s o
      if now == k.deadline then modWick s t c fun w => { w with tie := satAdd 16 w.tie 1 } else s

/-! ### RECV -/

/-- RECV (R227, R228). -/
def execRecv (t : TileId) (c : CoreIx) (gd gs1 : GReg) (mask : BitVec 8) (rot : Bool) (s : State) : Out :=
  .next (wkIssue s t.val c.val [gd.val, gs1.val] fun w =>
    let a := wkReg w gs1.val
    if a.poi then wkPoisonUse a
    else
      let ok (q : Nat) : Bool := bit mask.toNat q && wkQen w q && !(mget [] w.queues q).isEmpty
      let order := if rot then (List.range 8).map fun i => (w.rot + 1 + i) % 8 else List.range 8
      match order.find? ok with
      | some q =>
        .ok ((if rot then [.rotTo q] else []) ++ [.reg gd.val ⟨BitVec.ofNat 32 (q * 16), false, a.apx⟩]) none
      | none =>
        if a.v = 0 then wrReg gd ⟨BitVec.ofNat 32 (outcCode .timeout), false, a.apx⟩
        else .wait [.recvWait gd.val mask.toNat rot a.apx a.v.toNat])

/-- RECV_TIMEOUT (R228): no masked queue holds an entry by the deadline. -/
def execRecvTimeout (t : TileId) (c : CoreIx) (s : State) : Out :=
  match (getWick s t.val c.val).recv with
  | some r =>
    if (regionAt s t.val).frozenAt.isSome then .next s
    else .next (wkFinish (reachCycle s t.val r.deadline) t.val c.val r.gd ⟨BitVec.ofNat 32 (outcCode .timeout), false, r.apx⟩)
  | none => .next s

/-! ### Arrivals -/

/-- A message reaches its destination queue (R217). One whose fold lies above `NFM1` is answered FAULT (assumption 121); one that its spill ring
cannot take stays in the port (R271). -/
def msgArrive (s : State) (pid : Nat) (blocking : Bool) : State :=
  match getPacket s pid with
  | some p =>
    match p.body, p.loc with
    | .msg b ws, .deliver t =>
      if b != blocking then s
      else
        let u := qaUnit p.dst
        let q := qaQueue p.dst
        let s1 := delPacket s pid
        if qaTile p.dst != t || u ≥ 54 then s
        else if (portWait s t p).isSome then (portWait s t p).getD s
        else if fenced s t then answerFrom s1 t p .refusedFenced
        else if u < 48 then
          let o := wkDecide s1 t u q ws.length p.src p.epoch false
          answerFrom (wkStore s1 t u q ws o) t p o
        else
          let r := arriveUnit s1 t u q p.src true (msgToken p.epoch p.fold ws) 1 []
          match r.2 with
          | .accepted => answerFrom r.1 t p .done
          | .full => answerFrom r.1 t p .refusedFull
          | .epoch => answerFrom r.1 t p .refusedEpoch
          | .stopped => answerFrom r.1 t p .fault
          | .held => setPacket r.1 pid p
    | _, _ => s
  | none => s

/-- MSG (R217). -/
def execMsg (pid : Nat) (s : State) : Out := .next (msgArrive s pid false)

/-- MSGB (R217). -/
def execMsgb (pid : Nat) (s : State) : Out := .next (msgArrive s pid true)

/-- A `SENDB` is over in this cycle: its deadline has come in a back-off that does not end before it, or no reply has come (R225, R226, R231). -/
def sendbOver (now : Nat) (b : SendB) : Bool :=
  if b.awaiting then decide (now > b.deadline + 4096) else decide (b.deadline ≤ b.resume) && decide (b.deadline ≤ now)

/-- PROBE (R231). -/
def execProbe (pid : Nat) (s : State) : Out :=
  match getPacket s pid with
  | some p =>
    match p.body, p.loc with
    | .probe hops mina orig, .deliver t =>
      let c := qaUnit p.dst
      let s := delPacket s pid
      if qaTile p.dst != t || c ≥ 48 || fenced s t then .next s
      else
        let me := coreAddr t c
        match (getWick s t c).sendb with
        | some b =>
          if sendbOver (cyclesOf s t) b then .next s
          else if orig == me then
            if b.probed && mina == me then
              .next (raiseInc s (tileInc s 0x0501 utWick t c (b.blockedOn.getD (qaMake (qaTile b.dst) (qaUnit b.dst) 0) + hops * 2 ^ 23)))
            else .next s
          else
            match b.blockedOn with
            | some d => if hops < 63 then .next (wkInject s t c 0 d (.probe (hops + 1) (min mina me) orig)) else .next s
            | none => .next s
        | none => .next s
    | _, _ => .next s
  | none => .next s

end Sys2Proof.Machine
end

