-- ==== Sys2Proof/Machine/DataOps.lean ====
section
/-!
DEFINITION. Arrivals and events of the dataflow machinery (chapter 8): tokens, credit returns, releases, resends, fold
switches, reinjection, draining, the quiesce deadline and the progress watchdog; and descriptors (7.8).
-/
namespace Sys2Proof.Machine
open Sys2Proof

/-! ### Tokens -/

/-- The words that a token places in a Wick queue (R210); a control token is its value (assumption 36). -/
def tokWords (k : Token) : List QEnt :=
  (List.range (if k.ctl.isSome then 1 else (k.len + 1) / 2)).map fun i =>
    ⟨BitVec.ofNat 64 (bits k.val (64 * i) 64), k.poi, k.apx⟩

/-- A token at a Wick queue, from an acknowledged stream (R254, Table 8.10). -/
def tokAtWick (s : State) (t c q src : Nat) (k : Token) : State × Outc :=
  let ws := tokWords k
  let gate := wkDecide s t c q 0 src (epochAt s t) false
  let o := if gate ≠ .done then gate
    else if k.epoch != epochAt s t then .refusedEpoch
    else if (mget [] (getWick s t c).queues q).length + ws.length > 16 then .refusedFull else .done
  (wkStore s t c q ws o, o)

/-- The credit owed for a token: one, when its stream is credited (R259). -/
def owedFor (s : State) (src o : Nat) : List Owed :=
  if qaTileForm src && decide (qaUnit src ≥ 48) && stMode (getStrm (getFlow s (qaTile src) (qaUnit src)) o) == 0 then
    [⟨src, o⟩]
  else []

/-- The tokens of a packet at a CU or MU queue, one after another, until one stops the region; the answer is the
refusal that a reply reports, if there is one, and the tokens that stay in the port (R271). -/
def tokAtUnit (t u q src o n : Nat) : List Token → State → Option Outc → State × Option Outc × List Token
  | [], s, r => (s, r, [])
  | k :: rest, s, r =>
    let a := arriveUnit s t u q src false k n (owedFor s src o)
    match a.2 with
    | .accepted | .epoch => tokAtUnit t u q src o n rest a.1 r
    | .full => tokAtUnit t u q src o n rest a.1 (some .refusedFull)
    | .stopped => (a.1, r, [])
    | .held => (a.1, r, k :: rest)

/-- Tokens of a packet at a CU or MU queue of their tile; those that stay in the port travel no further. -/
def tokPlaced (s : State) (pid : Nat) (p : Packet) (t o n : Nat) (ks : List Token) (keep : List Token → Body) : State :=
  let r := tokAtUnit t (qaUnit p.dst) (qaQueue p.dst) p.src o n ks s none
  let s := if r.2.2.isEmpty then r.1 else setPacket r.1 pid { p with body := keep r.2.2 }
  match r.2.1 with
  | some e => answerFrom s t p e
  | none => s

/-- Tokens reach the delivery port of their tile (R260, Table 8.10). -/
def tokDeliver (s : State) (pid : Nat) (p : Packet) (t o : Nat) (ks : List Token) (keep : List Token → Body) : State :=
  let u := qaUnit p.dst
  if qaTile p.dst != t || u ≥ 54 then s
  else if fenced s t then answerFrom s t p .refusedFenced
  else if u < 48 then
    match ks with
    | [k] =>
      let r := tokAtWick s t u (qaQueue p.dst) p.src k
      answerFrom r.1 t p r.2
    | _ => answerFrom s t p .fault
  else tokPlaced s pid p t o 1 ks keep

/-- A control token stays what it is. -/
def keepCtl (o : Nat) (k : Token) (_ : List Token) : Body := .tokc o k

/-- An ingress event at its queue (R401, Table 7.6): exempt from the epoch check. A CU or MU queue takes events only
when it holds messages and is an input of its region. -/
def eventDeliver (s : State) (p : Packet) (t : Nat) (ws : List QEnt) : State :=
  let u := qaUnit p.dst
  let q := qaQueue p.dst
  if qaTile p.dst != t || u ≥ 54 then s
  else if fenced s t then answerFrom s t p .refusedFenced
  else if u < 48 then
    let o := wkDecide s t u q 8 p.src 0 true
    answerFrom (wkStore s t u q ws o) t p o
  else
    let f := getFlow s t u
    let x := getQ f q
    if qDepth f q == 0 || gatedAt s t then answerFrom s t p .refusedFull
    else if qdSeqd (qDesc f q) || !qdInp (qDesc f q) then answerFrom s t p .fault
    else if qUsed x + 1 > qDepth f q then answerFrom s t p .refusedFull
    else
      answerFrom (setFlow s t u (setQ f q { x with ready := x.ready ++ [msgToken (epochAt s t) f.curFold ws] })) t p .done

/-- TOKD (R249): data tokens, or an ingress event (R401), reach their tile. -/
def execTokd (pid : Nat) (s : State) : Out :=
  match getPacket s pid with
  | some p =>
    match p.body, p.loc with
    | .tokd o ks, .deliver t => .next ((portWait s t p).getD (tokDeliver (delPacket s pid) pid p t o ks (.tokd o)))
    | .event ws, .deliver t => .next ((portWait s t p).getD (eventDeliver (delPacket s pid) p t ws))
    | _, _ => .next s
  | none => .next s

/-- TOKC (R249): a control token reaches its tile. -/
def execTokc (pid : Nat) (s : State) : Out :=
  match getPacket s pid with
  | some p =>
    match p.body, p.loc with
    | .tokc o k, .deliver t => .next (tokDeliver (delPacket s pid) pid p t o [k] (keepCtl o k))
    | _, _ => .next s
  | none => .next s

/-- CRET (R259): credits come back to their stream; those of an epoch it no longer runs are discarded. -/
def execCret (pid : Nat) (s : State) : Out :=
  match getPacket s pid with
  | some p =>
    match p.body, p.loc with
    | .cret o n, .deliver t =>
      let u := qaUnit p.dst
      let s := delPacket s pid
      if qaTile p.dst != t || u < 48 || u ≥ 54 || fenced s t || p.epoch != epochAt s t then .next s
      else .next (modFlow s t u fun f =>
        let x := getStrm f o
        if stMode x == 0 then setStrm f o { x with cred := min (x.cred + n) (stCred x) } else f)
    | _, _ => .next s
  | none => .next s

/-- What a stream's producer does with a reply to packet `re` (Table 8.10). A reply to a packet of before the COMMIT wave, or to one that an
acknowledged stream no longer awaits, changes nothing (assumption 118). -/
def streamReply (s : State) (t u o re : Nat) (r : Outc) : State :=
  let f := getFlow s t u
  let x := getStrm f o
  let ack := decide (stMode x = 1)
  let drop (s : State) : State := modFlow s t u fun f => setStrm f o { x with inflight := none, resend := false }
  if decide (re < f.since) || ack && (x.pid != re || x.inflight.isNone) then s
  else match r with
    | .done => if ack then drop s else s
    | .refusedFull =>
      if ack then
        modFlow s t u fun f => setStrm (flStall f stOutput 16) o { x with resend := true }
      else flowFault s 0x0402 t u o
    | .refusedFenced => flowFault s 0x0405 t u o
    | .refusedEpoch => if ack then drop s else s
    | .fault => flowFault s 0x0502 t u o
    | _ => s

/-- ACK_STREAM_RESEND (R254): the refused token of an acknowledged stream is sent again. -/
def execAckStreamResend (t : TileId) (u : Fin 6) (o : QIx) (s : State) : Out :=
  let un := 48 + u.val
  let x := getStrm (getFlow s t.val un) o.val
  match x.inflight with
  | some k =>
    if !x.resend || unitsStill s t.val then .next s
    else
      let s := modFlow s t.val un fun f => setStrm f o.val { x with resend := false, pid := s.net.next }
      .next (inject s t.val (qaMake t.val un 0) (stDst x) (stDfold x) (epochAt s t.val)
        (if k.ctl.isSome then .tokc o.val k else .tokd o.val [k]))
  | none => .next s

/-- QUEUE_RELEASE (R257 to R259). -/
def execQueueRelease (t : TileId) (u : Fin 6) (q : QIx) (s : State) : Out :=
  if unitsStill s t.val then .next s else .next (releaseQ s t.val (48 + u.val) q.val)

/-! ### Folds (R268 to R270) -/

/-- The records in a fold ring of a unit. -/
def foldRecs (f : Flow) (fold : Nat) : List RingRec := (mget RingRt.empty f.rings fold).recs

/-- A fold of a CU has ready work when its list program runs; one of an MU has work only in records. -/
def foldWork (s : State) (t u fold : Nat) : Bool :=
  if u < 50 then (mget CuCtx.idle (getCu s t (u - 48)).ctxs (mget 0 (getFlow s t u).foldMap fold)).running else false

/-- Another fold of a unit has records in its spill ring. -/
def otherRecs (s : State) (t u : Nat) : Bool :=
  let f := getFlow s t u
  (List.range (rgNfm1 (regionAt s t) + 1)).any fun k => k != f.curFold && !(foldRecs f k).isEmpty

/-- The current fold of a CU or MU has ready work now: a micro-op at work or whose inputs are there, or a generator at work. -/
def workNow (s : State) (t u : Nat) : Bool :=
  let f := getFlow s t u
  if u < 50 then
    let c := getCu s t (u - 48)
    let slot := curSlot f
    let x := cuCtx c slot
    c.issued.isSome || c.loading.isSome || (x.running && uopReady c f slot (uopAt c slot x.next))
  else !(getMu s t (u - 50)).gens.isEmpty

/-- The next fold after the current one with work or records (R268). -/
def nextFold (s : State) (t u : Nat) : Option Nat :=
  let n := rgNfm1 (regionAt s t) + 1
  let f := getFlow s t u
  ((List.range (n - 1)).map fun i => (f.curFold + 1 + i) % n).find? fun k =>
    !(foldRecs f k).isEmpty || foldWork s t u k

/-- The next enabled context of a core after the running one that has not come to `HALT`: it has ready work (R268). -/
def nextWickFold (s : State) (t c : Nat) : Option Nat :=
  let n := rgNfm1 (regionAt s t) + 1
  let w := getWick s t c
  ((List.range (n - 1)).map fun i => (w.fold + 1 + i) % n).find? fun k => bit (mget 0 w.ctx k).toNat 0 && !mget false w.halted k

/-- FOLD_SWITCH_REQUEST (R268): the current fold has had no ready work for 16 cycles while another has records, or the
unit has stayed in it for `FDWELL` × 64 cycles, 0 being no limit. A core, which has no spill ring, has no ready work once its context has come to
`HALT` (assumption 117). -/
def execFoldSwitchRequest (t : TileId) (u : Fin 54) (s : State) : Out :=
  let limit := rgFdwell (regionAt s t.val) * 64
  if unitsStill s t.val then .next s
  else if u.val < 48 then
    let w := getWick s t.val u.val
    match nextWickFold s t.val u.val with
    | none => .next s
    | some k =>
      let ask (s : State) : State := modWick s t.val u.val fun w => { w with foldReq := some k }
      if w.run = .halted then .next (ask (reachCycle s t.val (w.dwell + 16)))
      else if limit == 0 then .next s
      else .next (ask (reachCycle s t.val (w.dwell + limit)))
  else
    let f := getFlow s t.val u.val
    let ask (s : State) : State := modFlow s t.val u.val fun f => { f with foldReq := true }
    if (nextFold s t.val u.val).isNone then .next s
    else if otherRecs s t.val u.val && !workNow s t.val u.val then .next (ask (reachCycle s t.val (max f.idle f.dwell + 16)))
    else if limit == 0 then .next s
    else .next (ask (reachCycle s t.val (f.dwell + limit)))

/-- A fold switch of a CU or MU may be taken now: between micro-ops with no row held (R90), or with no generator of the
leaving fold at work (Table 5.8). -/
def foldFree (s : State) (t u : Nat) : Bool :=
  if u < 50 then
    let c := getCu s t (u - 48)
    c.issued.isNone && c.loading.isNone && c.acc.isEmpty
  else (getMu s t (u - 50)).gens.all fun e => gMode e.2.w0.toNat == 4

/-- Append tokens of queue `q` to spill ring `e` of the unit; none when the ring cannot take them all. -/
def spillAll (t u e q : Nat) : List (Token × List Owed) → State → Option State
  | [], s => some s
  | k :: rest, s =>
    if spillRoom (getFlow s t u) e k.1 then spillAll t u e q rest (spillTo s t u e q k.1 k.2 (qaMake t u q)) else none

/-- The entries of a queue in ascending sequence order from the pointer. -/
def slotsInOrder (ptr : Nat) (l : List QSlot) : List QSlot :=
  sortBy (fun a => (a.seq + 65536 - ptr) % 65536) l

/-- The tokens of an entry as they are spilled, with the credits each owes. -/
def slotSpill (comb : Nat) (e : QSlot) : List (Token × List Owed) :=
  (e.parts.zipIdx).map fun k => (spillTok comb e.cnt k.1, if comb == 3 then (e.owed.drop k.2).take 1 else e.owed)

/-- Append the tokens of a queue to the leaving fold's ring, in sequence order (R269). -/
def parkQueue (t u fold q : Nat) (s : State) : Option State :=
  let f := getFlow s t u
  let x := getQ f q
  let comb := qdComb (qDesc f q)
  spillAll t u fold q ((x.ready.map fun k => (spillTok comb 1 k, [])) ++
      (slotsInOrder (mget 0 x.ptrs fold) x.slots).flatMap (slotSpill comb))
    (setFlow s t u (setQ f q { x with slots := [], ready := [] }))

/-- Park every token in a unit's queues; none when the ring of the leaving fold cannot take them (R271). -/
def parkUnit (s : State) (t u fold : Nat) : Option State :=
  (List.range 8).foldl (fun a q => a.bind (parkQueue t u fold q)) (some s)

/-- A core's fold switch in the trace, if it took one (Table 17.7). -/
def traceFold (old s : State) (t c : Nat) : State :=
  let a := (getWick old t c).fold
  let b := (getWick s t c).fold
  if a == b then s else traceEv s t utWick c 3 (a + b * 4)

/-- FOLD_SWITCH (R208, R269). A spill ring that cannot take the parked tokens stops the region; they stay in their queues (R271). -/
def execFoldSwitch (t : TileId) (u : Fin 54) (s : State) : Out :=
  if unitsStill s t.val then .next s
  else if u.val < 48 then
    let w := getWick s t.val u.val
    if w.foldReq.isSome && w.run = .halted && wkResolved w then
      let sw (w : Wick) : Wick := { wkSwitch w with dwell := cyclesOf s t.val }
      let s' := modWick s t.val u.val sw
      let s' := if wkEvenLocked w u.val then modWick s' t.val (u.val + 1) fun b => wkPairBack b (sw (wkPairView w b)) else s'
      .next (traceFold s s' t.val u.val)
    else .next s
  else
    let f := getFlow s t.val u.val
    match nextFold s t.val u.val with
    | none => .next s
    | some k =>
      if !f.foldReq || !f.reinject.isEmpty then .next s
      else if !foldFree s t.val u.val then
        .next (unitStall s t.val u.val stFold)
      else match parkUnit s t.val u.val f.curFold with
      | none => .next (flowFault s 0x0407 t.val u.val f.curFold)
      | some s =>
        let s := modFlow s t.val u.val fun f =>
          flStall { f with curFold := k, foldReq := false, dwell := cyclesOf s t.val,
                           reinject := if (foldRecs f k).isEmpty then [] else [k] } stFold 64
        .next (traceEv s t.val (unitType u.val) (unitIx u.val) 3 (f.curFold + k * 4))

/-- Put a parked token back into its queue: a released one and a message join the queue's released entries. `QARR` has counted it when the queue
accepted it (R261). None while the queue has no room for it. -/
def unpark (s : State) (t u q : Nat) (tok : Token) (owed : List Owed) : Option State :=
  let f := getFlow s t u
  let x := getQ f q
  let d := qDesc f q
  let dist := (tok.seq + 65536 - mget 0 x.ptrs f.curFold) % 65536
  if !qdSeqd d || dist ≥ qCap f q then some (setFlow s t u (setQ f q { x with ready := x.ready ++ [tok] }))
  else match placeSeq s t u q tok (spillCnt (qdComb d) tok) owed false with
    | (_, .full) => none
    | r => some r.1

/-- SPILL_REINJECTION (R269): the oldest record of the incoming fold's ring goes back to its queue. -/
def execSpillReinjection (t : TileId) (u : Fin 6) (s : State) : Out :=
  let un := 48 + u.val
  match (getFlow s t.val un).reinject with
  | [] => .next s
  | k :: _ =>
    let clear (s : State) : State := modFlow s t.val un fun f => if (foldRecs f k).isEmpty then { f with reinject := [] } else f
    if unitsStill s t.val then .next s
    else if (foldRecs (getFlow s t.val un) k).isEmpty then .next (clear s)
    else match spillTake s t.val un k with
      | some (q, tok, owed, s1) => .next (match unpark s1 t.val un q tok owed with
        | some s2 => clear (modFlow s2 t.val un fun f =>
            let x := getQ f q
            setQ f q { x with stall := mset 0 x.stall stFold (satAdd 48 (mget 0 x.stall stFold) 1) })
        | none => s)
      | none => .next s

/-! ### Draining (R274, R275, R279, R280) -/

/-- Where the tokens of a stream go and how many deliveries each place has had (R261): a multicast stream's count is
shared by its destinations. -/
def streamFeeds (s : State) (x : Strm) : List (Nat × Nat) :=
  if stMode x == 0 || stMode x == 1 then [(stDst x, x.ssent)]
  else
    let g := stMgrp x
    let n := max 1 (stNdest x)
    s.tiles.filterMap fun e =>
      let w := (mget 0 e.2.groups g).toNat
      if bit w 63 && bit w 51 then some (qaMake e.1 (bits w 40 6) (bits w 37 3), x.ssent / n) else none

/-- The completion counts of a region balance (R261). -/
def balanced (s : State) (r : Nat) : Bool :=
  let g := getRegion s r
  let feeds := s.flows.flatMap fun e => e.2.streams.flatMap fun x => streamFeeds s x.2
  let mine := feeds.filter fun e => decide (qaUnit e.1 ≥ 48) && inRegion g (qaTile e.1)
  let qs := (s.flows.filter fun e => inRegion g (e.1 / 6)).flatMap fun e =>
    e.2.queues.map fun q => (qaMake (e.1 / 6) (48 + e.1 % 6) q.1, q.2.qarr)
  let addrs := ((mine.map (·.1)) ++ qs.map (·.1)).eraseDups
  addrs.all fun a =>
    (mine.filter (·.1 == a)).foldl (fun n e => n + e.2) 0 % 2 ^ 48 == ((qs.filter (·.1 == a)).map (·.2)).headD 0

/-- The counters that two evaluations compare. -/
def drainSums (s : State) (r : Nat) : Nat × Nat :=
  let g := getRegion s r
  (s.flows.filter fun e => inRegion g (e.1 / 6)).foldl (fun acc e =>
    (e.2.streams.foldl (fun n x => n + x.2.ssent) acc.1, e.2.queues.foldl (fun n q => n + q.2.qarr) acc.2)) (0, 0)

/-- A CU or MU holds no token: queues, spill rings and output empty. -/
def flowEmpty (f : Flow) : Bool :=
  f.queues.all (fun q => qUsed q.2 == 0) && f.rings.all (fun g => g.2.recs.isEmpty) && f.out.isEmpty

/-- The drain condition (R274). -/
def drainedNow (s : State) (r : Nat) : Bool :=
  let g := getRegion s r
  g.gated &&
    (s.flows.filter fun e => inRegion g (e.1 / 6)).all (fun e => flowEmpty e.2) &&
    (s.wicks.filter fun e => inRegion g (e.1 / 48)).all (fun e =>
      e.2.queues.all (fun q => q.2.isEmpty) && wkResolved e.2 && e.2.sendb.isNone) &&
    (s.cus.filter fun e => inRegion g (e.1 / 2)).all (fun e => e.2.issued.isNone && e.2.loading.isNone && !strictDue e.2) &&
    (s.mus.filter fun e => inRegion g (e.1 / 4)).all (fun e => e.2.gens.isEmpty) && balanced s r

/-- A control tile counts a tie (R33). -/
def ctlTie (s : State) (r : Nat) : State := modTile s (rgCtl (getRegion s r)) fun x => { x with tieC := satAdd 16 x.tieC 1 }

/-- A region held for heat has drained or stopped: the clocks of its tiles are gated, and `HOTOFF` is set in every field it spans (R563). -/
def heatGate (s : State) (r : Nat) : State :=
  let g := getRegion s r
  if !g.heatHeld || g.heatGated then s
  else
    let fs := ((s.fields.map (·.1)).filter fun f => (fieldTiles f).any (inRegion g))
    fs.foldl (fun s f => modField s f fun x => { x with hotoff := true }) (modRegion s r fun g => { g with heatGated := true })

/-- The quiesce deadline of a transaction has passed with a region not drained (R280). -/
def quiesceOver (s : State) (x : Txn) : State :=
  if x.strict then waveTxn s x.tag false .aborted 0x0D else waveTxn s x.tag true .done 0

/-- The CUs of a region, as (tile, CU). -/
def regionCus (s : State) (r : Nat) : List (Nat × Nat) :=
  (s.cus.filter fun e => inRegion (getRegion s r) (e.1 / 2)).map fun e => (e.1 / 2, e.1 % 2)

/-- A region has drained: its drain command completes, or its transaction takes note and decides when all have
(R275, R280). What the latency policy has yet to verify is abandoned (R144). -/
def drainDone (s : State) (r : Nat) : State :=
  let s := (regionCus s r).foldl (fun s e => dropVers s e.1 e.2) s
  let s := modRegion s r fun g => { g with drain := none, waiting := true }
  let s := match curCmd s r with
    | some c => match c.ph with
      | .drain since => finishCmd (modRegion s r fun g => { g with st := .drained, waiting := false }) c .done ((nowPs s - since) / 1000000)
      | _ => s
    | none => s
  let s := if (getRegion s r).heatHeld then heatGate (modRegion s r fun g => { g with st := .drained, waiting := false }) r else s
  (s.eng.txns.filter fun x => x.ph = .quiesce && x.regs.contains r).foldl (fun s x =>
    if !x.regs.all fun k => (getRegion s k).waiting then s
    else match x.qdue with
      | some d => if pastPs s d then quiesceOver s x else waveTxn (if atPs s d then ctlTie s r else s) x.tag true .done 0
      | none => waveTxn s x.tag true .done 0) s

/-- The drain of a region held for heat has not ended by `DRTO`: it stops, and its clocks are gated all the same (R563). -/
def heatTimeout (s : State) (r : Nat) : State :=
  let g := getRegion s r
  if !g.heatHeld || g.heatGated || g.st ≠ .quiescing then s
  else
    let s := reachPs s (g.heatAt + rgDrto g * 1000000)
    heatGate (stopRegion (raiseInc s { mkInc 0x0404 utTile 0 (rgCtl g) 0 0 with reg := r, rgv := true }) r) r

/-- The drain of a command has not ended by `DRTO` since the gate: the region stops, the command ends TIMEOUT (R275). -/
def drainTimeout (s : State) (r : Nat) (c : Cmd) (since : Nat) : State :=
  let g := getRegion s r
  let s := reachPs s (since + rgDrto g * 1000000)
  let i := { mkInc 0x0404 utTile 0 (rgCtl g) 0 0 with reg := r, rgv := true, opv := true, cseq := c.seq, opc := c.opc }
  stopRegionAs (raiseInc s i) r .timeout

/-- When a drain began that `DRTO` bounds, and what ends it: a drain command's or a hold for heat (R275, R563). -/
def drainSince (s : State) (r : Nat) : Option (Nat × Option Cmd) :=
  let g := getRegion s r
  if g.heatHeld then some (g.heatAt, none)
  else match curCmd s r with
    | some c => match c.ph with
      | .drain since => some (since, some c)
      | _ => none
    | none => none

/-- A true evaluation that completes a drain, in time, in the deadline cycle, or after it (R33, R275). -/
def drainEnds (s : State) (r : Nat) : State :=
  match drainSince s r with
  | none => drainDone s r
  | some (since, c) =>
    let due := since + rgDrto (getRegion s r) * 1000000
    if pastPs s due then
      match c with
      | some c => drainTimeout s r c since
      | none => heatTimeout s r
    else drainDone (if atPs s due then ctlTie s r else s) r

/-- DRAIN_EVALUATION (R274): every 256 cycles; the second of two true ones with the same counters completes the drain. -/
def execDrainEvaluation (r : Fin 64) (s : State) : Out :=
  let g := getRegion s r.val
  if g.st ≠ .quiescing || g.frozenAt.isSome || g.waiting then .next s
  else if drainedNow s r.val then
    let sums := drainSums s r.val
    match g.drain with
    | some (c, a, b) =>
      let s := reachCycle s (rgCtl g) (c + 256)
      if (a, b) = sums then .next (drainEnds s r.val)
      else .next (modRegion s r.val fun g => { g with drain := some (cyclesOf s (rgCtl g), sums.1, sums.2) })
    | none => .next (modRegion s r.val fun g => { g with drain := some (cyclesOf s (rgCtl g), sums.1, sums.2) })
  else .next (modRegion s r.val fun g => { g with drain := none })

/-- DRAIN_TIMEOUT (R275): `DRTO` µs have passed since the gate; a drain complete by then is on time. -/
def execDrainTimeout (r : Fin 64) (s : State) : Out :=
  match drainSince s r.val with
  | some (_, none) => .next (heatTimeout s r.val)
  | some (since, some c) => if (getRegion s r.val).frozenAt.isSome then .next s else .next (drainTimeout s r.val c since)
  | none => .next s

/-- QUIESCE_DEADLINE (R280): the regions of a transaction have not drained by its quiesce deadline. -/
def execQuiesceDeadline (tag : Nat) (s : State) : Out :=
  match txnOf s tag with
  | some x =>
    match x.ph, x.qdue with
    | .quiesce, some d => if x.regs.any fun r => (getRegion s r).frozenAt.isSome then .next s else .next (quiesceOver (reachPs s d) x)
    | _, _ => .next s
  | none => .next s

/-! ### The progress watchdog (R284, R285) -/

/-- The CU and MU queues of a region that are full, as (tile, unit, queue). -/
def fullQueues (s : State) (r : Nat) : List (Nat × Nat × Nat) :=
  let g := getRegion s r
  (s.flows.filter fun e => inRegion g (e.1 / 6)).flatMap fun e =>
    (e.2.queues.filter fun q => decide (qDepth e.2 q.1 > 0) && decide (qUsed q.2 ≥ qDepth e.2 q.1)).map fun q =>
      (e.1 / 6, 48 + e.1 % 6, q.1)

/-- The Wick queues of a region that are full, by the tick at which each became so. -/
def fullWicks (s : State) (r : Nat) : List Nat :=
  (s.wicks.filter fun e => inRegion (getRegion s r) (e.1 / 48)).flatMap fun e =>
    (e.2.queues.filter fun q => q.2.length ≥ 16).map fun q => mget 0 e.2.fullAt q.1

/-- Put a queue in spill-through mode: the half of its entries with the highest sequence numbers moves to its ring and
their credits go back (R285). A ring that cannot take them stops the region (R271). -/
def spillQueue (s : State) (t u q : Nat) : State :=
  let f := getFlow s t u
  let x := getQ f q
  let comb := qdComb (qDesc f q)
  let slots := slotsInOrder (mget 0 x.ptrs f.curFold) x.slots
  let n := slots.length - slots.length / 2
  match spillAll t u (4 + q) q ((slots.drop n).flatMap fun e => (slotSpill comb e).map fun k => (k.1, []))
      (setFlow s t u (setQ f q { x with slots := slots.take n, spill := true })) with
  | some s => (slots.drop n).foldl (fun s e => returnCredits s t u e.owed) s
  | none => flowFault s 0x0407 t u (4 + q)

/-- The tick since which no queue of a region has released an entry while one of them was full (R284). -/
def idleSince (s : State) (r : Nat) : Nat :=
  let g := getRegion s r
  let fulls := (fullQueues s r).map (fun e => (getQ (getFlow s e.1 e.2.1) e.2.2).fullAt) ++ fullWicks s r
  let rel := ((s.flows.filter fun e => inRegion g (e.1 / 6)).map (·.2.relAt)) ++ ((s.wicks.filter fun e => inRegion g (e.1 / 48)).map (·.2.relAt))
  max (rel.foldl max 0) (fulls.foldl min s.time.ticks)

/-- Cycles that a tile has counted since a tick of REFCLK_MOD, at the rate of its field now. -/
def cyclesSince (s : State) (t tick : Nat) : Nat := (mget FieldClk.reset s.time.clk (fieldOf t)).rate * (s.time.ticks - tick) / 25

/-- WATCHDOG_WINDOW (R284): `WDWIN` × 64 cycles have passed without a release while a queue was full, since the watchdog last acted. -/
def execWatchdogWindow (r : Fin 64) (s : State) : Out :=
  let g := getRegion s r.val
  let full := fullQueues s r.val
  if (g.st ≠ .running && g.st ≠ .quiescing) || g.frozenAt.isSome || rgWdwin g == 0 ||
      (full.isEmpty && (fullWicks s r.val).isEmpty) then .next s
  else
    let since := cyclesOf s (rgCtl g) - cyclesSince s (rgCtl g) (idleSince s r.val)
    let s := reachCycle s (rgCtl g) (max g.wd since + rgWdwin g * 64)
    let spill := if rgWdspill g then full.filter fun e => qdQsp (qDesc (getFlow s e.1 e.2.1) e.2.2) else []
    let s := raiseInc s { mkInc 0x0406 utTile 0 (rgCtl g) 0 spill.length with reg := r.val, rgv := true }
    let s := modRegion s r.val fun x =>
      { x with wd := cyclesOf s (rgCtl g), wdN := satAdd 48 x.wdN 1, wdSpilled := satAdd 48 x.wdSpilled spill.length }
    .next (spill.foldl (fun s e => if (getQ (getFlow s e.1 e.2.1) e.2.2).spill then s else spillQueue s e.1 e.2.1 e.2.2) s)

/-! ### Descriptors (R233, Table 7.9) -/

/-- Read bytes of a Wick local memory, with what the read finds (R183). -/
def wickRead (s : State) (t c a n : Nat) : List Byte × Bool × State :=
  let w := getWick s t c
  let ws := if n == 0 then [] else (List.range ((a + n - 1) / 4 - a / 4 + 1)).map (a / 4 + ·)
  let one := ws.filter fun i => mget 0 w.memErr i == 1
  let two := ws.filter fun i => mget 0 w.memErr i == 2
  let s := setWick s t c { w with memErr := one.foldl (fun e i => mset 0 e i 0) w.memErr }
  let s := one.foldl (fun s i => raiseCoal (wkCorrected s t 1) (tileInc s 0x0101 utWick t c (4 * i))) s
  let s := two.foldl (fun s i => raiseUnit s (tileInc s 0x0102 utWick t c (4 * i))) s
  ((List.range n).map fun i => mget 0 w.mem (a + i), !two.isEmpty || ws.any (mget false w.memPoi), s)

/-- A range lies wholly within one Wick local memory or one MU of the module address map (R360): tile, unit, offset. -/
def onWafer (a n : Nat) : Option (Nat × Nat × Nat) :=
  let mu := a - 0x100000000000
  let wk := a - 0x200000000000
  if decide (0x100000000000 ≤ a) && decide (mu / 0x800000 < nTiles) then
    let o := mu % 0x800000
    if o < 2 ^ 22 && o % 2 ^ 20 + n ≤ 2 ^ 20 then some (mu / 0x800000, 50 + o / 2 ^ 20, o % 2 ^ 20) else none
  else if decide (0x200000000000 ≤ a) && decide (wk / 0x10000 < nTiles * 48) then
    let k := wk / 0x10000
    if wk % 0x10000 + n ≤ 0x4000 then some (k / 48, k % 48, wk % 0x10000) else none
  else none

/-- The ring program of a queue's producer (`QDAT` of a program with `RDIR` = 0). -/
def producerOf (s : State) (t m q : Nat) : Option Nat :=
  (List.range 8).find? fun p => gMode (progWord s t m p 0) == 4 && !bit (progWord s t m p 1) 63 &&
    gQdat (progWord s t m p 0) == q

/-- DESC (R233): the checks of Table 7.9 in order; a descriptor that passes has its record reserved. -/
def execDesc (pid : Nat) (s : State) : Out :=
  match getPacket s pid with
  | some p =>
    match p.body, p.loc with
    | .desc d, .deliver t =>
      let u := qaUnit p.dst
      let m := u - 50
      let len := bits d.w.toNat 48 16
      let a := bits d.w.toNat 0 48
      let s := delPacket s pid
      let bad (cls detail : Nat) : State := answerFrom (raiseInc s (tileInc s cls (unitType u) t (unitIx u) detail)) t p .fault
      if qaTile p.dst != t || u ≥ 54 then .next s
      else if fenced s t then .next (answerFrom s t p .refusedFenced)
      else match (if u < 50 then none else producerOf s t m (qaQueue p.dst)) with
        | none => .next (bad 0x0505 p.dst)
        | some g =>
          if len > 4088 then .next (bad 0x0503 len)
          else if a % 8 != 0 || (onWafer a len).isNone then .next (bad 0x0506 a)
          else
            let rl := 8 + (len + 7) / 8 * 8
            let rec0 : RingRec := ⟨0, rl, false, false, qaMake (qaTile p.src) (qaUnit p.src) 0, 1, false, false, [], none⟩
            match ringAdd s t (progRing s t m g) (mget RingRt.empty (getMu s t m).rings g) rec0 with
            | none => .next (answerFrom s t p .refusedFull)
            | some (s, rg) =>
              .next (modMu s t m fun x =>
                { x with rings := mset RingRt.empty x.rings g rg, jobs := x.jobs ++ [⟨p.src, p.id, g, rl, a, len⟩] })
    | _, _ => .next s
  | none => .next s

/-- The oldest record of a ring that is reserved and not complete. -/
def openRec (l : List RingRec) : Option RingRec := l.find? fun r => !r.done

/-- Complete the oldest reserved record of a ring. -/
def fillRec : List RingRec → RingRec → List RingRec
  | [], _ => []
  | r :: rest, x => if r.done then r :: fillRec rest x else x :: rest

/-- What a descriptor's buffer reads as: its bytes, and whether the source is fenced or its data poisoned (Table 7.9 row 6). -/
def readBuffer (s : State) (a n : Nat) : List Byte × Bool × State :=
  match onWafer a n with
  | some (st, su, o) =>
    if fenced s st then (List.replicate n (0 : Byte), true, s)
    else if su < 48 then wickRead s st su o n else muRead s st (su - 50) o n
  | none => (List.replicate n 0, true, s)

/-- DESCRIPTOR_RECORD_WRITTEN (R233, R236, Table 7.9 row 6): the oldest accepted descriptor's buffer has been read and its
record is complete; its sender's ticket is answered DONE. -/
def execDescriptorRecordWritten (t : TileId) (m : MuIx) (s : State) : Out :=
  match (getMu s t.val m.val).jobs with
  | [] => .next s
  | j :: rest =>
    if unitsStill s t.val then .next s
    else
      let r := readBuffer s j.addr j.len
      let s := modMu r.2.2 t.val m.val fun x => { x with jobs := rest }
      let rg := mget RingRt.empty (getMu s t.val m.val).rings j.prog
      let s := match openRec rg.recs with
        | none => s
        | some x =>
          let x := { x with done := true, poi := r.2.1, data := r.1 ++ List.replicate (j.rlen - 8 - j.len) 0 }
          modMu (ringWrite s t.val (progRing s t.val m.val j.prog) x) t.val m.val fun u =>
            { u with rings := mset RingRt.empty u.rings j.prog { rg with recs := fillRec rg.recs x } }
      let u := 50 + m.val
      .next (putPacket s (newPacket (qaMake t.val u 0) j.src (unitFold s t.val u) (epochAt s t.val) (.reply .done 3 (qaQueue j.src)) (.router t.val 4) j.re))

end Sys2Proof.Machine
end

