-- ==== Sys2Proof/Machine/Mesh.lean ====
section
/-!
DEFINITION. The mesh (9.1 to 9.8): attach ports, routing, links and their repair, multicast and reduction.
-/
namespace Sys2Proof.Machine
open Sys2Proof

/-! ### Attach ports (R290, Table 20.2) -/

/-- The edge and the first position of a die's attach ports, and the step from port to port: edge 0 north, 1 south, 2
east, 3 west. -/
def attachRow (d : Nat) : Nat × Nat × Nat :=
  match d with
  | 1 => (2, 35, 1) | 2 => (0, 31, 1) | 3 => (0, 35, 1) | 4 => (2, 31, 1) | 5 => (1, 31, 1) | 6 => (1, 35, 1)
  | 7 => (3, 31, 1)
  | 8 => (0, 1, 2) | 9 => (0, 16, 2) | 10 => (0, 39, 2) | 11 => (0, 54, 2) | 12 => (0, 69, 2) | 13 => (0, 84, 2)
  | 14 => (2, 1, 2) | 15 => (2, 16, 2) | 16 => (2, 37, 2) | 17 => (2, 52, 2) | 18 => (2, 67, 2) | 19 => (2, 82, 2)
  | 20 => (1, 1, 2) | 21 => (1, 16, 2) | 22 => (1, 39, 2) | 23 => (1, 54, 2) | 24 => (1, 69, 2) | 25 => (1, 84, 2)
  | 26 => (3, 1, 2) | 27 => (3, 16, 2) | 28 => (3, 35, 2) | 29 => (3, 50, 2) | 30 => (3, 65, 2) | _ => (3, 80, 2)

/-- The tile of an attach port. -/
def attachTile (d p : Nat) : Nat :=
  let r := attachRow d
  let k := r.2.1 + r.2.2 * p
  match r.1 with
  | 0 => tileAt k 0
  | 1 => tileAt k 109
  | 2 => tileAt 99 k
  | _ => tileAt 0 k

/-- The attach port that sits on a tile, if one does. -/
def attachOf (t : Nat) : Option (Nat × Nat) :=
  ((List.range 31).flatMap fun i => (List.range (diePorts (i + 1))).map fun p => (i + 1, p)).find? fun e =>
    attachTile e.1 e.2 == t

/-- An attach port carries packets: its link is up (`BST` = 3). -/
def attachUp (s : State) (d p : Nat) : Bool := (getBb s d p).st == 3

/-! ### Links (R289, R291 to R295) -/

/-- The tile a link leads to: 0 E, 1 W, 2 S, 3 N (R289). -/
def neighbour (t port : Nat) : Nat :=
  match port with
  | 0 => tileAt ((tileX t + 1) % 100) (tileY t)
  | 1 => tileAt ((tileX t + 99) % 100) (tileY t)
  | 2 => tileAt (tileX t) ((tileY t + 1) % 110)
  | _ => tileAt (tileX t) ((tileY t + 109) % 110)

/-- The port by which a link enters its far router. -/
def enters (port : Nat) : Nat := match port with | 0 => 1 | 1 => 0 | 2 => 3 | _ => 2

/-- A link crosses the date line of its ring (R289). -/
def dateLine (t port : Nat) : Bool :=
  match port with
  | 0 => tileX t == 99
  | 1 => tileX t == 0
  | 2 => tileY t == 109
  | _ => tileY t == 0

/-- A link crosses a field seam. -/
def atSeam (t port : Nat) : Bool := fieldOf t != fieldOf (neighbour t port)

/-- A link of a router. -/
def getLink (s : State) (t port net : Nat) : Link := mget Link.ok (getTile s t).links (port + 8 * net)
/-- Change a link. -/
def modLink (s : State) (t port net : Nat) (f : Link → Link) : State :=
  modTile s t fun x => { x with links := mset Link.ok x.links (port + 8 * net) (f (mget Link.ok x.links (port + 8 * net))) }

/-- The mesh domain of a tile's field is up. -/
def meshUp (s : State) (t : Nat) : Bool := !(getField s (fieldOf t)).meshOff && tileMdok s t

/-- An output of a router may grant a packet (R295, R314, R319): not held, not in training, not failed, and the mesh up
at both ends. -/
def linkFree (s : State) (t port net : Nat) : Bool :=
  meshUp s t && !bit (getTile s t).hold.toNat port &&
    (if port == 4 then
      match attachOf t with
      | some e => attachUp s e.1 e.2
      | none => false
    else
      let l := getLink s t port net
      !l.training && !l.failed && meshUp s (neighbour t port))

/-- Count a packet granted on an output (port 5 is the attach port in `Loc`; its counter is keyed so). -/
def countGrant (s : State) (t port net n : Nat) : State :=
  let k := port + 8 * net
  let s := modTile s t fun x => { x with grants := mset 0 x.grants k (satAdd 48 (mget 0 x.grants k) n) }
  if port < 4 then
    modLink s t port net fun l =>
      if l.flits + n ≥ 2 ^ 20 then { l with flits := 0, window := 0 } else { l with flits := l.flits + n }
  else s

/-! ### Routing (R296 to R300) -/

/-- Where a packet leaves the mesh: a tile, and the attach port when the address is in edge form (R299). -/
def targetOf (dst : Nat) : Option (Nat × Option (Nat × Nat)) :=
  if qaEdgeForm dst then
    if edgeDie dst == 0 || edgePort dst ≥ diePorts (edgeDie dst) then none
    else some (attachTile (edgeDie dst) (edgePort dst), some (edgeDie dst, edgePort dst))
  else if qaTileForm dst then some (qaTile dst, none)
  else none

/-- What the first router checks of a packet's kind and address (R297, R298): the incident of a refusal. -/
def firstCheck (p : Packet) : Option Nat :=
  let edge := qaEdgeForm p.dst
  match p.body with
  | .raw .. => some 0x0606
  | .msg _ ws =>
    if ws.length == 0 || ws.length > 4 then some 0x0606
    else if edge && !dieIsPd (edgeDie p.dst) then some 0x0502
    else if (targetOf p.dst).isNone then some 0x0502 else none
  | .desc _ => if edge || (targetOf p.dst).isNone then some 0x0502 else none
  | .tokd _ ks => if ks.length == 0 || ks.length > 15 then some 0x0606
      else if !qaGroupForm p.dst && (targetOf p.dst).isNone then some 0x0502 else none
  | .tokc .. => if !qaGroupForm p.dst && (targetOf p.dst).isNone then some 0x0502 else none
  | .red .. => if !qaGroupForm p.dst then some 0x0502 else none
  | .rect _ _ _ _ _ _ d => if d.length == 0 || d.length > 1920 then some 0x0606 else none
  | .mwr _ _ re _ d _ => if d.length > 1920 || d.isEmpty && !re then some 0x0606 else if (targetOf p.dst).isNone then some 0x0502 else none
  | _ => if (targetOf p.dst).isNone then some 0x0502 else none

/-- A link index lies in a break span, which may wrap (R318). -/
def inSpan (lo hi i : Nat) : Bool := if lo ≤ hi then decide (lo ≤ i) && decide (i ≤ hi) else decide (lo ≤ i) || decide (i ≤ hi)

/-- The x links that a phase from column `a` to column `b` in a direction crosses (link i joins i and i + 1, R289). -/
def pathLinks (n a b : Nat) (neg : Bool) : List Nat :=
  if neg then (List.range ((a + n - b) % n)).map fun i => (a + n - 1 - i) % n
  else (List.range ((b + n - a) % n)).map fun i => (a + i) % n

/-- The direction of a phase (R299): `none` when both would use a broken link. `neg` is the negative direction. -/
def chooseDir (n a b : Nat) (brk : Nat → Bool) : Option Bool :=
  let pos := (b + n - a) % n
  let neg := decide (2 * pos > n)
  if !(pathLinks n a b neg).any brk then some neg
  else if !(pathLinks n a b (!neg)).any brk then some (!neg)
  else none

/-- The broken x links that a router holds. -/
def xBroken (s : State) (t i : Nat) : Bool :=
  let w := (getTile s t).brk.toNat
  bit w 31 && inSpan (bits w 24 7) (bits w 17 7) i
/-- The broken y links that a router holds. -/
def yBroken (s : State) (t i : Nat) : Bool :=
  let w := (getTile s t).brk.toNat
  bit w 63 && inSpan (bits w 56 7) (bits w 49 7) i

/-- What a router does next with a packet for tile `d`. -/
inductive Route
  | here | refused | go (port : Nat) (p : Packet)

/-- Route a packet at a tile (R299, R300): phases begin where they begin, and later routers keep the direction. -/
def routeAt (s : State) (t d : Nat) (p : Packet) : Route :=
  let startY (p : Packet) : Route :=
    if tileY t == tileY d then .here
    else match chooseDir 110 (tileY t) (tileY d) (yBroken s t) with
      | some neg => .go (if neg then 3 else 2) { p with vch := false, yph := true, dir := neg, fresh := false }
      | none => .refused
  if p.yph then
    if tileY t == tileY d then .here else .go (if p.dir then 3 else 2) p
  else if tileX t == tileX d then startY p
  else if p.fresh then
    match chooseDir 100 (tileX t) (tileX d) (xBroken s t) with
    | some neg => .go (if neg then 1 else 0) { p with vch := false, dir := neg, fresh := false }
    | none => .refused
  else .go (if p.dir then 1 else 0) p

/-- A packet after it has crossed a link: the channel changes at the date line (R300). -/
def crossLink (t port : Nat) (p : Packet) : Packet :=
  { p with vch := p.vch || dateLine t port, loc := .router (neighbour t port) (enters port) }

/-- The detail of an incident about a packet: `DST`, and for an address that names nothing also `SRC` and `KIND` (R8). -/
def packetDetail (c : Nat) (p : Packet) : Nat :=
  if c == 0x0502 then p.dst + p.src * 2 ^ 23 + bodyKind p.body * 2 ^ 48 else p.dst

/-- A kind that a refusal answers when its packet cannot be read further (R297, R303): those of Table 7.6 and Table 8.10, and the writes and reads. -/
def rawAnswered (k : Nat) : Bool := [1, 2, 3, 6, 7, 9, 10, 12, 13, 14].contains k

/-- A router refuses a packet (R8, R303, R305). -/
def routerRefuse (s : State) (t pid : Nat) (p : Packet) (o : Outc) (cls : Option Nat) : State :=
  let s := delPacket s pid
  let s := match cls with
    | some c => raiseInc s (mkInc c utRouter 0 t 0 (packetDetail c p))
    | none => s
  match p.body with
  | .raw k ws =>
    if !rawAnswered k then s
    else if k == 10 then answerWith s t p p.src (.rrsp (bits (lget 0 ws 1).toNat 20 2) 0 false o)
    else answerFrom s t p o
  | _ => answerFrom s t p o

/-- A packet that asks its destination for something, as against an answer. -/
def asks : Body → Bool
  | .reply .. | .cret .. | .rrsp .. | .probe .. | .mwr _ _ true _ _ _ => false
  | _ => true

/-- A packet for a fenced satellite is refused at its attach router (R363, R378). -/
def dieRefuses (s : State) (d k : Nat) (b : Body) : Bool := bit s.dieFence.toNat d && (asks b || !attachUp s d k)

/-! ### Group entries (R304, Table 9.5) -/

/-- A group entry and its fields (Table 9.5). Bits of `OUT` and `INP` are read by port number. -/
def groupEntry (s : State) (t g : Nat) : Nat := (mget 0 (getTile s t).groups g).toNat
def geOut (e port : Nat) : Bool := bit e (55 - port)
def geInp (e port : Nat) : Bool := bit e (50 - port)
def geLq (t e : Nat) : Nat := qaMake t (bits e 40 6) (bits e 37 3)
def geRop (e : Nat) : Nat := bits e 35 2
def geCwait (e : Nat) : Nat := bits e 14 10

/-- `NEXM1` is 11 bits wide. -/
def geNexm1 (e : Nat) : Nat := bits e 24 11

/-- The outputs of a group entry. -/
def geOuts (e : Nat) : List Nat := (List.range 5).filter (geOut e)

/-- The copy of a group packet that leaves on an output of its entry (R305). -/
def copyAt (t e : Nat) (p : Packet) (port : Nat) : Packet :=
  if port == 4 then { p with dst := geLq t e, loc := .deliver t, fresh := false, sent := [] }
  else crossLink t port { p with fresh := false, sent := [] }

/-- The formats that a reduce entry takes (R308). -/
def ropFmt (rop fmt : Nat) : Bool := if rop == 2 then fmt == 0xE else fmt == 0xD

/-- A combining store's entry holds the contributions of a group, a sequence number and an epoch (R309). -/
def combKey (c : Comb) (g : Nat) (k : Token) : Bool :=
  c.group == g && (match c.pkt.body with
    | .red _ _ k' => k'.seq == k.seq && k'.epoch == k.epoch
    | _ => false)

/-- What a router does with a reduce packet (R305, R308, R309). -/
inductive RedFate
  | refused (cls : Nat) | joins (i : Nat) | opens | passes
  deriving DecidableEq, Repr

/-- The fate of a reduce packet that came by `port`. -/
def redFate (s : State) (t port g ncm1 : Nat) (k : Token) : RedFate :=
  let e := groupEntry s t g
  if !bit e 63 || port > 4 || !geInp e port || !bit e 62 then .refused 0x0606
  else if !ropFmt (geRop e) k.fmt then .refused 0x0605
  else
    let tile := getTile s t
    match tile.store.findIdx? (combKey · g k) with
    | some i => .joins i
    | none => if ncm1 < geNexm1 e && geCwait e > 0 && tile.store.length < 32 then .opens else .passes

/-! ### Grants (R292, R301) -/

/-- A packet is at the head of its channel of the router in which it waits. -/
def isHead (s : State) (pid : Nat) (p : Packet) : Bool :=
  !s.net.packets.any fun e => e.1 != pid && decide (e.2.loc = p.loc) && e.2.vch == p.vch && e.2.ctl == p.ctl && decide (e.2.arr < p.arr)

/-- The input channel of a packet within its network: six ports with two channels each (R301). -/
def chanIx (p : Packet) : Nat :=
  match p.loc with
  | .router _ port => port * 2 + ofBit p.vch
  | _ => 12

/-- The channel that a packet would come to has credit for all of it (R292); delivery ports and satellites take what comes. -/
def roomFor (s : State) (q : Packet) : Bool :=
  match q.loc with
  | .router t port => chanRoom s t port q.vch q.ctl q.body
  | _ => true

/-- An output can take a packet, `q` as it would leave: 0 to 3 the links, 4 local delivery, 5 the attach port. -/
def canGo (s : State) (t net out : Nat) (q : Packet) : Bool :=
  (out == 4 || linkFree s t (if out == 5 then 4 else out) net) && roomFor s q

/-- The outputs that a packet waits for at a router, each with the packet as it would leave there. -/
def wants (s : State) (t : Nat) (p : Packet) : List (Nat × Packet) :=
  if p.fresh && (firstCheck p).isSome then []
  else if qaGroupForm p.dst then
    let e := groupEntry s t (p.dst % 4096)
    match p.loc, p.body with
    | .router _ port, .red _ n k =>
      if redFate s t port (p.dst % 4096) n k = .passes then (geOuts e).map fun o => (o, copyAt t e p o) else []
    | .router _ port, _ =>
      if bit e 63 && port ≤ 4 && geInp e port then ((geOuts e).filter fun o => !p.sent.contains o).map fun o => (o, copyAt t e p o) else []
    | _, _ => []
  else match p.body, targetOf p.dst with
    | .rect .., _ => []
    | _, none => []
    | _, some (d, att) =>
      match routeAt s t d p with
      | .refused => []
      | .here =>
        match att with
        | none => [(4, { p with loc := .deliver t, fresh := false })]
        | some (die, k) => if dieRefuses s die k p.body then [] else [(5, { p with loc := .die die k, fresh := false })]
      | .go port q => [(port, crossLink t port q)]

/-- An input channel of a router has a packet at its head that an output can take. -/
def chanReady (s : State) (t net out c : Nat) : Bool :=
  s.net.packets.any fun e => (match e.2.loc with
    | .router t' _ => t' == t
    | _ => false) && netOf e.2 == net && chanIx e.2 == c && isHead s e.1 e.2 &&
      (wants s t e.2).any fun w => w.1 == out && canGo s t net out w.2

/-- The channel that an output serves next, in rotation from the one that it served last (R301). -/
def nextChan (s : State) (t net out : Nat) : Option Nat :=
  let last := mget 0 (getTile s t).turn (out + 8 * net)
  ((List.range 12).map fun i => (last + 1 + i) % 12).find? (chanReady s t net out)

/-- An output grants a packet, `q` as it leaves: it can take it and it is the packet's turn. -/
def grantsNow (s : State) (t pid out : Nat) (p q : Packet) : Bool :=
  canGo s t (netOf p) out q && nextChan s t (netOf p) out == some (chanIx p) && isHead s pid p

/-- An output has granted a packet: it is counted, and its channel was served last. -/
def granted (s : State) (t out : Nat) (p : Packet) : State :=
  let s := countGrant s t out (netOf p) (flitsOf p.body)
  modTile s t fun x => { x with turn := mset 0 x.turn (out + 8 * netOf p) (chanIx p) }

/-- Send copies of a group packet on outputs of its entry. -/
def sendCopies (s : State) (t : Nat) (outs : List Nat) (e : Nat) (p : Packet) : State :=
  outs.foldl (fun s port => putPacket (granted s t port p) (copyAt t e p port)) s

/-! ### Errors in router buffers (R498) -/

/-- A body whose payload could not be read: its markers show it, where it has markers. -/
def poisonBody : Body → Body
  | .msg b ws => .msg b (ws.map fun w => { w with poi := true })
  | .desc d => .desc { d with poi := true }
  | .tokd o ks => .tokd o (ks.map fun k => { k with poi := true })
  | .tokc o k => .tokc o { k with poi := true }
  | .red o n k => .red o n { k with poi := true }
  | .racc st tag ofs d => .racc st tag ofs { d with poi := true }
  | .rrsp tag d _ o => .rrsp tag d true o
  | .event ws => .event (ws.map fun w => { w with poi := true })
  | .mwr a rq re o d _ => .mwr a rq re o d (d.map fun _ => true)
  | b => b

/-- A router reads the packet at the head of a channel: a correctable error is corrected and raised, an uncorrectable one in the payload poisons
it, one in the header discards the packet and fails the tile. -/
def headRead (s : State) (t pid : Nat) (p : Packet) : State × Option Packet :=
  let key := 2 * (chanIx p + 12 * netOf p)
  let h := mget 0 (getTile s t).err key
  let b := mget 0 (getTile s t).err (key + 1)
  if h == 0 && b == 0 || !isHead s pid p then (s, some p)
  else
    let s := modTile s t fun x => { x with err := mset 0 (mset 0 x.err key 0) (key + 1) 0 }
    if h == 2 then (raiseInc (delPacket s pid) (mkInc 0x0608 utRouter 0 t 0 0), none)
    else
      let s := if h == 1 then raiseCoal s (mkInc 0x0101 utRouter 0 t 0 key) else s
      let s := if b == 1 then raiseCoal s (mkInc 0x0101 utRouter 0 t 0 (key + 1)) else s
      if b == 2 then
        let p := { p with body := poisonBody p.body }
        (setPacket (raiseInc s (mkInc 0x0102 utRouter 0 t 0 (key + 1))) pid p, some p)
      else (s, some p)

/-- A router reads an entry of its combining store. -/
def storeRead (s : State) (t i : Nat) : State :=
  let key := 64 + i
  match mget 0 (getTile s t).err key with
  | 0 => s
  | x =>
    let s := modTile s t fun y => { y with err := mset 0 y.err key 0 }
    if x == 1 then raiseCoal s (mkInc 0x0101 utRouter 0 t 0 key)
    else
      let s := raiseInc s (mkInc 0x0102 utRouter 0 t 0 key)
      modTile s t fun y =>
        let c := lget ⟨0, Packet.none, 0, 0⟩ y.store i
        { y with store := lset y.store i { c with pkt := { c.pkt with body := poisonBody c.pkt.body } } }

/-- The errors of the entries that stay when entry `i` leaves the store. -/
def storeErrDrop (e : SMap Nat) (i : Nat) : SMap Nat :=
  e.foldl (fun m x =>
    if x.1 < 64 + i then mset 0 m x.1 x.2
    else if x.1 == 64 + i then m
    else mset 0 m (x.1 - 1) x.2) []

/-! ### PACKET_HOP -/

/-- A packet that a router has read: it is granted an output, or it waits (R299 to R301). -/
def hopAt (s : State) (t pid : Nat) (p : Packet) : State :=
  match (if p.fresh then firstCheck p else none) with
  | some c => routerRefuse s t pid p .fault (some c)
  | none =>
    if qaGroupForm p.dst then s
    else match p.body, targetOf p.dst with
    | .rect .., _ => s
    | _, none => s
    | _, some (d, att) =>
      let go (out : Nat) (q : Packet) : State :=
        if grantsNow s t pid out p q then movePacket (granted s t out p) pid q else countWait s t out (netOf p)
      match routeAt s t d p with
      | .refused => routerRefuse s t pid p .refusedFenced none
      | .here =>
        match att with
        | none => go 4 { p with loc := .deliver t, fresh := false }
        | some (die, k) =>
          if dieRefuses s die k p.body then routerRefuse s t pid p .refusedFenced none
          else go 5 { p with loc := .die die k, fresh := false }
      | .go port q => go port (crossLink t port q)

/-- PACKET_HOP (R299 to R303): the packet at the head of a channel is routed and granted an output, or it waits; at an attach port it passes
from the satellite. Group packets and rectangle writes have commands of their own. -/
def execPacketHop (pid : Nat) (s : State) : Out :=
  match getPacket s pid with
  | none => .next s
  | some p =>
    match p.loc with
    | .deliver _ => .next s
    | .die d k =>
      -- a satellite injects: the packet enters through the attach port
      let q := { p with loc := .router (attachTile d k) 5, fresh := true, yph := false, vch := false }
      if qaEdgeForm p.dst && edgeDie p.dst == d then .next s
      else if !attachUp s d k || !roomFor s q then .next s
      else .next (movePacket s pid q)
    | .router t _ =>
      if !meshUp s t || !isHead s pid p then .next s
      else
        let r := headRead s t pid p
        match r.2 with
        | none => .next r.1
        | some p => .next (hopAt r.1 t pid p)

/-! ### Link errors and repair (R294, R295) -/

/-- LINK_RETRY (R294). -/
def execLinkRetry (t : TileId) (port : Fin 4) (ctl : Bool) (s : State) : Out :=
  let net := if ctl then 1 else 0
  let l := getLink s t.val port.val net
  if l.training || l.failed then .next s
  else
    let far := neighbour t.val port.val
    let s := modLink s t.val port.val net fun l =>
      { l with retries := satAdd 48 l.retries 1, window := l.window + 1 }
    .next (raiseCoal s (mkInc 0x0601 utRouter 0 far (enters port.val) (port.val + 8 * net)))

/-- Hold or release both ends of a link (R295, `RT_HOLD`). -/
def holdLink (s : State) (t port : Nat) (on : Bool) : State :=
  let set (s : State) (t port : Nat) : State :=
    modTile s t fun x => { x with hold := BitVec.ofNat 32 (setBits x.hold.toNat port 1 (ofBit on)) }
  set (set s t port) (neighbour t port) (enters port)

/-- LINK_RETRAIN (R295): a link with more than 16 retries within 2^20 flits is held and retrained. -/
def execLinkRetrain (t : TileId) (port : Fin 4) (ctl : Bool) (s : State) : Out :=
  let net := if ctl then 1 else 0
  let l := getLink s t.val port.val net
  if l.window ≤ 16 || l.training || l.failed then .next s
  else .next (modLink (holdLink s t.val port.val true) t.val port.val net fun l => { l with training := true })

/-- The physical column of a tile (R315). -/
def physCol (s : State) (t : Nat) : Nat :=
  if fcolOf t < bits (getTile s t).colmap.toNat 0 4 then fcolOf t else fcolOf t + 1

/-- A repair record of a link (Table 9.7). -/
def repairRec (s : State) (rtype t port net grp lane : Nat) : W64 :=
  BitVec.ofNat 64 (rtype * 2 ^ 60 + fieldOf t * 2 ^ 53 + frowOf t * 2 ^ 49 + physCol s t * 2 ^ 45 + port * 2 ^ 43 +
    net * 2 ^ 42 + grp * 2 ^ 37 + lane * 2 ^ 32 + 2 ^ 31)

/-- Mantle appends a repair record to the birth map (R316). -/
def addRepair (s : State) (w : W64) : State :=
  { s with boot := { s.boot with birth := s.boot.birth ++ [w], newRep := s.boot.newRep + 1 } }

/-- Repair one lane group with the lanes that failed in it (R295). -/
def repairGroup (s : State) (t port net grp : Nat) (lanes : List Nat) : State :=
  let l := getLink s t port net
  match lanes with
  | [] => s
  | lane :: more =>
    let det := grp * 32 + lane
    if more.isEmpty && !mget false l.spares grp then
      let s := modLink s t port net fun l => { l with spares := mset false l.spares grp true }
      addRepair (raiseInc s (mkInc 0x0602 utRouter 0 t port det)) (repairRec s 2 t port net grp lane)
    else if atSeam t port && !l.seam then
      let s := modLink s t port net fun l => { l with seam := true, spares := [] }
      addRepair (raiseInc s (mkInc 0x0603 utRouter 0 t port det)) (repairRec s 3 t port net grp lane)
    else raiseInc (modLink s t port net fun l => { l with failed := true }) (mkInc 0x0604 utRouter 0 t port det)

/-- LINK_RETRAIN_DONE (R295): the test of every lane has found the lanes given, as (group, lane), to fail. -/
def execLinkRetrainDone (t : TileId) (port : Fin 4) (ctl : Bool) (bad : List (Nat × Nat)) (s : State) : Out :=
  let net := if ctl then 1 else 0
  let l := getLink s t.val port.val net
  if !l.training then .next s
  else
    let groups := if ctl then 4 else 32
    let s := (List.range groups).foldl (fun s g =>
      if (getLink s t.val port.val net).failed then s
      else repairGroup s t.val port.val net g ((bad.filter (·.1 == g)).map (·.2 % 32)).eraseDups) s
    let s := modLink s t.val port.val net fun l => { l with training := false, window := 0, flits := 0 }
    .next (holdLink s t.val port.val false)

/-! ### Multicast (R304 to R306) -/

/-- A token packet of a group that a router has read: each output of its entry sends its copy when it grants one, independently of the others; the
buffer is freed when the last copy has left (R305). -/
def copiesAt (s : State) (t port pid : Nat) (p : Packet) : State :=
  match (if p.fresh then firstCheck p else none) with
  | some c => routerRefuse s t pid p .fault (some c)
  | none =>
    let e := groupEntry s t (p.dst % 4096)
    if !bit e 63 || port > 4 || !geInp e port then routerRefuse s t pid p .fault (some 0x0606)
    else
      let left := (geOuts e).filter fun o => !p.sent.contains o
      let now := left.filter fun o => grantsNow s t pid o p (copyAt t e p o)
      let s := (left.filter fun o => !now.contains o).foldl (fun s o => countWait s t o (netOf p)) s
      if now.length == left.length then sendCopies (delPacket s pid) t now e p
      else setPacket (sendCopies s t now e p) pid { p with fresh := false, sent := p.sent ++ now }

/-- GROUP_PACKET (R305): a group-form token packet at a router is copied to the outputs of its entry. -/
def execGroupPacket (pid : Nat) (s : State) : Out :=
  match getPacket s pid with
  | none => .next s
  | some p =>
    match p.loc, p.body with
    | .router t port, .tokd .. | .router t port, .tokc .. =>
      if !qaGroupForm p.dst || !meshUp s t || !isHead s pid p then .next s
      else
        let r := headRead s t pid p
        match r.2 with
        | none => .next r.1
        | some p => .next (copiesAt r.1 t port pid p)
    | _, _ => .next s

/-! ### Reduction (R308 to R311) -/

/-- Count one of the combining store's events. -/
def countStore (s : State) (t k : Nat) : State :=
  modTile s t fun x => { x with fwd := mset 0 x.fwd k (satAdd 48 (mget 0 x.fwd k) 1) }

/-- Send a stored entry on, if its output can take it. -/
def sendStored (s : State) (t i e : Nat) (c : Comb) : State :=
  match c.pkt.body with
  | .red o _ k =>
    let p := { c.pkt with body := .red o (c.count - 1) k }
    if (geOuts e).all fun out => canGo s t 0 out (copyAt t e p out) then
      let s := storeRead s t i
      let c := lget c (getTile s t).store i
      let s := modTile s t fun x => { x with store := ldel x.store i, err := storeErrDrop x.err i }
      match c.pkt.body with
      | .red _ _ k => sendCopies s t (geOuts e) e { c.pkt with body := .red o (c.count - 1) k }
      | _ => s
    else (geOuts e).foldl (fun s out => countWait s t out 0) s
  | _ => s

/-- A reduce packet joins the entry that holds its key (R309, R310). -/
def redJoin (s : State) (t i g ncm1 : Nat) (k : Token) : State :=
  let e := groupEntry s t g
  let s := storeRead s t i
  let c := lget ⟨0, Packet.none, 0, 0⟩ (getTile s t).store i
  match c.pkt.body with
  | .red o' n' k' =>
    let r := addToken (if geRop e == 2 then 1 else 2) (geRop e == 1) k' k
    let c' := { c with pkt := { c.pkt with body := .red o' n' r.1 }, count := c.count + ncm1 + 1 }
    let s := countStore (modTile s t fun x => { x with store := lset x.store i c' }) t 0
    let s := if r.2 then raiseInc s (mkInc 0x0210 utRouter 0 t 0 g) else s
    let late := decide (cyclesOf s t = c.opened + geCwait e)
    let s := if late && decide (c'.count = geNexm1 e + 1) then modTile s t fun x => { x with tieW := satAdd 16 x.tieW 1 } else s
    if c'.count ≥ geNexm1 e + 1 then sendStored s t i e c' else s
  | _ => s

/-- A reduce packet at a router (R309). -/
def redAtRouter (s : State) (pid t port : Nat) (p : Packet) (o ncm1 : Nat) (k : Token) : State :=
  let g := p.dst % 4096
  let e := groupEntry s t g
  match redFate s t port g ncm1 k with
  | .refused c => routerRefuse s t pid p .fault (some c)
  | .joins i => redJoin (delPacket s pid) t i g ncm1 k
  | .opens =>
    modTile (delPacket s pid) t fun x =>
      { x with store := x.store ++ [⟨g, { p with body := .red o ncm1 k, fresh := false }, ncm1 + 1, cyclesOf s t⟩],
               err := mset 0 x.err (64 + x.store.length) 0 }
  | .passes =>
    if (geOuts e).all fun out => grantsNow s t pid out p (copyAt t e p out) then
      sendCopies (countStore (delPacket s pid) t 1) t (geOuts e) e p
    else (geOuts e).foldl (fun s out => countWait s t out 0) s

/-- The bodies that are left of a reduce packet whose token stays in its port. -/
def keepRed (o n : Nat) (k : Token) (_ : List Token) : Body := .red o n k

/-- RED (R308 to R311): a reduce packet is combined, stored or passed through at a router, or counted at the root's
queue. -/
def execRed (pid : Nat) (s : State) : Out :=
  match getPacket s pid with
  | none => .next s
  | some p =>
    match p.loc, p.body with
    | .router t port, .red .. =>
      if !meshUp s t || !isHead s pid p then .next s
      else
        let r := headRead s t pid p
        match r.2 with
        | none => .next r.1
        | some p =>
          match (if p.fresh then firstCheck p else none), p.body with
          | some c, _ => .next (routerRefuse r.1 t pid p .fault (some c))
          | none, .red o n k => .next (redAtRouter r.1 pid t port p o n k)
          | none, _ => .next r.1
    | .deliver t, .red o n k =>
      let u := qaUnit p.dst
      if qaTile p.dst != t || u < 48 || u ≥ 54 then .next (delPacket s pid)
      else if fenced s t then .next (answerFrom (delPacket s pid) t p .refusedFenced)
      else .next ((portWait s t p).getD (tokPlaced (delPacket s pid) pid p t o (n + 1) [k] (keepRed o n k)))
    | _, _ => .next s

/-- CWAIT_EXPIRY (R309, R312): the hold timer of a store entry reaches `CWAIT`, and it is sent on; an entry that is complete and waits for its
output is sent once there is room. -/
def execCwaitExpiry (t : TileId) (i : Fin 32) (s : State) : Out :=
  let tile := getTile s t.val
  if i.val ≥ tile.store.length then .next s
  else
    let c := lget ⟨0, Packet.none, 0, 0⟩ tile.store i.val
    let e := groupEntry s t.val c.group
    if c.count ≥ geNexm1 e + 1 then .next (sendStored s t.val i.val e c)
    else
      let s' := sendStored (reachCycle s t.val (c.opened + geCwait e)) t.val i.val e c
      .next (if (getTile s' t.val).store.length < tile.store.length then countStore s' t.val 2 else s')

end Sys2Proof.Machine
end

