-- ==== Sys2Proof/Machine/ProgChecks.lean ====
section
/-!
DEFINITION. The staging checks of what the programs of CUs, MUs and Wick contexts hold: micro-ops, chains, vector programs, predictor words,
generator programs and `WK_CTX` (R49, R50, R55, R56, R60, R69, R82 to R94, R97 to R103, R105, R116, R117, R132, R133, R154, R206).
-/
namespace Sys2Proof.Machine
open Sys2Proof

/-! ### Micro-ops (Table 3.3) -/

/-- A format that the matrix stage takes as a wide operand (Table 3.2). -/
def fmtWide (f : Fmt) : Bool := f == .fp16 || f == .bf16 || f == .fp32 || f == .pair

/-- The operand formats and the accumulation of an operation are those of a row of Table 3.2 (R50, R82). -/
def classOk (w : W64 × W64) : Bool :=
  let a := uAfmt w
  if uExact w then uAcc w == 0
  else fmtWide a && a == uWfmt w && (if a == .pair then uAcc w == 2 else uAcc w == 1 || uAcc w == 2)

/-- The scale modes of an operation (R55) and the binary point that they give (R56). -/
def scalesOk (w : W64 × W64) : Bool :=
  let la := sclLen (uScla w)
  let lw := sclLen (uSclw w)
  if uExact w then
    let f := opPoint (uAfmt w) (uWfmt w) (uScla w) (uSclw w) (uSbase w)
    (la == 0 || lw == 0 || la == lw) && decide (-512 ≤ f) && decide (f ≤ 511)
  else la == 0 && lw == 0

/-- Elements of a format that the VHB holds (R86). -/
def vhbCap (f : Fmt) : Nat := 65536 / fmtBits f

/-- The slots that a `MATMUL` or `LOADW` names are its context's (R85, R92). -/
def slotsOk (cfg : Nat) (w : W64 × W64) (n : Nat) : Bool :=
  decide (bits cfg 16 4 ≤ uSlot w) && decide (uSlot w + n ≤ bits cfg 20 4 + 1)

/-- The checks of a `MATMUL`. -/
def matmulOk (cfg : Nat) (w : W64 × W64) : Bool :=
  decide (uMode w ≤ 1) && classOk w && scalesOk w && (uExact w || (uSpat w == 0 && uOfmt w != .xp96)) &&
    !(uSpat w == 5 && (uMode w == 0 || uScla w != 0)) && ((uAclr w && uAout w) || decide (uRows w ≤ 8)) && decide (uK w ≤ 2 ^ 20) &&
    (if uMode w == 0 then slotsOk cfg w (uSlots w) else uXkeep w || decide (uK w ≤ vhbCap (uAfmt w)))

/-- The checks of a micro-op word by itself. -/
def uopOk (cfg : Nat) (w : W64 × W64) : Bool :=
  let base := bits w.1.toNat 61 3 == 0 && decide (uAcc w ≠ 3) && decide (uRnd w ≤ 4) && decide (uSpat w ≤ 5)
  base && (match uOpc w with
    | 1 => matmulOk cfg w
    | 2 => uMode w == 2
    | 3 => decide (uMode w ≠ 3) && (fmtNarrow (uWfmt w) || (fmtWide (uWfmt w) && uSpat w == 0)) && uSpat w != 5 &&
        slotsOk cfg w (bits w.2.toNat 0 4 + 1)
    | 4 => decide (uMode w ≠ 3) && (fmtNarrow (uAfmt w) || fmtWide (uAfmt w)) && decide (uK w ≤ vhbCap (uAfmt w))
    | 15 => decide (uMode w ≠ 3)
    | _ => false)

/-! ### Chains (R60, R89) -/

/-- Walk a chain from micro-op `i`: `k` elements have come in before it. A chain stays within 2^20 products, and a scaled `MATMUL` of it begins on a
boundary of its blocks. -/
def chainFrom (uop : Nat → W64 × W64) : Nat → Nat → Nat → Bool
  | 0, _, _ => true
  | n + 1, i, k =>
    let w := uop i
    if uOpc w == 15 then true
    else if uOpc w != 1 then chainFrom uop n (uNext w) k
    else if uAclr w && k != 0 then true
    else
      let l := opSclLen (uScla w) (uSclw w)
      decide (k + uK w ≤ 2 ^ 20) && (l == 0 || k % l == 0) && (uAout w || chainFrom uop n (uNext w) (k + uK w))

/-- Every chain of a context: each begins at a `MATMUL` with `ACLR` = 1. -/
def chainsOk (n : Nat) (uop : Nat → W64 × W64) : Bool :=
  (List.range n).all fun i => uOpc (uop i) != 1 || !uAclr (uop i) || chainFrom uop 65 i 0

/-! ### Vector programs (R97, R98, R100, R103) -/

/-- An operation that only stage V0 may hold (Tables 3.8, 3.10). -/
def opV0 (o : Nat) : Bool := o == 0x11 || o == 0x36 || o == 0x51 || o == 0x52 || o == 0x53

/-- A listed operation (Tables 3.8 to 3.10). -/
def opListed (o : Nat) : Bool :=
  decide (o ≤ 0x13) || decide (0x20 ≤ o) && decide (o ≤ 0x29) || decide (0x30 ≤ o) && decide (o ≤ 0x36) ||
    decide (0x40 ≤ o) && decide (o ≤ 0x45) || decide (0x50 ≤ o) && decide (o ≤ 0x53)

/-- A lane format (Table 3.7); a word that does nothing names none. -/
def laneFmt (w : Nat) : Bool :=
  let c := bits w 19 4
  c == 4 || c == 5 || decide (7 ≤ c) && decide (c ≤ 13) || sVop w == 0x13 && decide (1 ≤ c) && decide (c ≤ 3) || c == 0 && sVop w == 0

/-- The checks of a stage word at stage `i`. -/
def stageOk (i w : Nat) : Bool :=
  bits w 29 3 == 0 && opListed (sVop w) && laneFmt w && decide (sRnd w ≤ 4) && decide (sSrca w ≤ 4) && decide (sSrcb w ≤ 4) &&
    (i == 0 || !opV0 (sVop w)) && (!sTwo w || decide (i ≤ 4)) &&
    (sVop w != 0x44 || decide (1 ≤ bits (sImm w) 0 6) && decide (bits (sImm w) 0 6 ≤ 32))

/-- The checks of a program from stage `i` on: the word of a taken stage is zero, and after a `VMXQ` to FP4 or FP6 every stage passes. -/
def stagesOk : Nat → List Nat → Bool
  | _, [] => true
  | i, w :: ws =>
    stageOk i w && (!sTwo w || ws.head? == some 0) &&
      (!(sVop w == 0x13 && decide (bits w 19 4 ≤ 3)) || ws.all fun x => sVop x == 0) && stagesOk (i + 1) ws

/-- What a micro-op asks of its vector program: an exact result that no stage converts passes V1 to V5 untouched (R97), and packed Microscaling
elements are written as they are (R100). -/
def vprogFor (w : W64 × W64) (ws : List Nat) : Bool :=
  let v0 := sVop (ws.headD 0)
  let wide := uOpc w == 1 && uExact w || uOpc w == 2 && uAfmt w == .xp96
  (!wide || v0 == 0x11 || v0 == 0x36 || (ws.drop 1).all fun x => sVop x == 0) &&
    ws.all fun x => !(sVop x == 0x13 && decide (bits x 19 4 ≤ 3)) || uOfmt w == sVfmt x

/-! ### Predictor words (R132, R133) -/

/-- The checks of a `PRED_CTL` word; a word of zeros masks nothing. -/
def predOk (uop : Nat → W64 × W64) (p : W64) : Bool :=
  let v := p.toNat
  p = 0 || (bits v 48 16 == 0 && !bit v 10 && bits v 0 4 == 0 && decide (prPvfrac p ≤ 4) &&
    (if prPpol p then prPvfrac p == 4 && uPrio (uop (prVuop p)) == uPrio (uop (prMuop p)) else uPrio (uop (prVuop p)) == 3))

/-! ### Generator programs (R154) -/

/-- The checks of a generator program. -/
def progOk (w0 w1 w2 w3 : Nat) : Bool :=
  let md := gMode w0
  let m32 (x : Nat) : Bool := x % 32 == 0
  decide (md ≤ 5) && decide (gDest w0 ≤ 4) && bits w0 20 15 == 0 &&
    (match md with
    | 0 => bits w2 48 16 == 0 && bits w3 48 16 == 0 && m32 (gBase w0) && m32 (bits w2 0 24) && m32 (bits w2 24 24) &&
        m32 (bits w3 0 24) && m32 (bits w3 24 24)
    | 1 => decide (bits w1 62 2 ≠ 3) && decide (bits w1 59 2 ≠ 3) && bits w1 24 15 == 0 && bits w2 20 44 == 0 && w3 == 0 &&
        (if bits w1 62 2 == 2 then gBase w0 % 4 == 0 && bits w1 0 24 % 4 == 0 else m32 (gBase w0) && m32 (bits w1 0 24))
    | 2 => bits w1 48 13 == 0 && bits w2 14 50 == 0 && w3 == 0 && m32 (gBase w0) && m32 (bits w1 24 24) && m32 (bits w1 0 24)
    | 3 => bits w1 20 20 == 0 && decide (bits w1 40 8 ≥ 1) && w2 == 0 && w3 == 0
    | 4 => bits w1 21 41 == 0 && bits w2 48 16 == 0 && bits w3 32 32 == 0 && bits w1 0 21 % 8 == 0 &&
        decide (bits w1 0 21 ≤ 2 ^ 20) && bits w2 0 48 % 4096 == 0 && m32 (gBase w0)
    | _ => bits w1 32 32 == 0 && bits w2 48 16 == 0 && w3 == 0 && bits w2 0 48 % 4096 == 0)

/-! ### Wick contexts (R206) -/

/-- The checks of `WK_CTX`; a context that does not run needs none but its reserved bit. -/
def ctxOk (all : List Nat) (w : Nat) : Bool :=
  let win (x : Nat) : Nat × Nat := (bits x 20 6, bits x 26 6)
  bits w 1 1 == 0 &&
    (!bit w 0 || (
      decide (256 * (win w).1 ≤ 4 * bits w 2 12) && decide (4 * bits w 2 12 ≤ 256 * (win w).2 + 255) &&
      all.all (fun x => !bit x 0 || decide (bits w 14 6 < (win x).1) || decide ((win x).2 < bits w 14 6)) &&
      decide (bits w 32 16 ≠ 0) && decide (bits w 48 16 ≠ 0)))

end Sys2Proof.Machine
end

