-- ==== Sys2Proof/Machine/Images.lean ====
section
/-!
DEFINITION. Region images (8.3): reading and checking them, what a section writes, and what the COMMIT wave does to a
region's units (R207, R265, R281).
-/
namespace Sys2Proof.Machine
open Sys2Proof

/-! ### Reading an image (R244, Tables 8.2 and 8.3) -/

/-- The 64-bit word `i` of a byte string. -/
def wordAt (bs : List Byte) (i : Nat) : Nat := leNat ((bs.drop (8 * i)).take 8)

/-- Read `n` sections. -/
def readSections : Nat → List Byte → Option (List Section)
  | 0, _ => some []
  | n + 1, bs =>
    if bs.length < 16 then none
    else
      let w0 := wordAt bs 0
      let w1 := wordAt bs 1
      let len := bits w1 32 32
      let body := bs.drop 16
      if body.length < (len + 7) / 8 * 8 || bits w0 0 22 != 0 then none
      else (readSections n (body.drop ((len + 7) / 8 * 8))).map fun l =>
        ⟨bits w0 58 6, bits w0 44 14, bits w0 30 14, bits w0 24 6, bits w0 22 2, bits w1 0 32, body.take len⟩ :: l

/-- Read an image whose length and header agree with `ilen` and whose reserved fields are zero (R244, R245). -/
def readImage (ilen : Nat) (bs : List Byte) : Option Image :=
  let w0 := wordAt bs 0
  if bs.length != ilen || ilen < 64 || bits w0 32 32 != ilen || bits w0 8 8 != 1 || bits w0 0 8 != 0 ||
      wordAt bs 5 != 0 || wordAt bs 6 != 0 || wordAt bs 7 != 0 then none
  else if crc32c (bs.drop 64) != bits (wordAt bs 3) 32 32 then none
  else (readSections (bits w0 16 16) (bs.drop 64)).map fun l =>
    ⟨BitVec.ofNat 64 (wordAt bs 1), BitVec.ofNat 64 (wordAt bs 2), BitVec.ofNat 32 (wordAt bs 3), BitVec.ofNat 64 (wordAt bs 4), l⟩

/-- The region that an image describes, as far as its descriptor goes. -/
def imgRegion (img : Image) : Region := { Region.none with st := .loaded, desc0 := img.desc0, desc1 := img.desc1 }

/-! ### Target structures (Table 8.4) -/

/-- Bytes of the structure a section kind names, per unit and fold. -/
def kindSize (k : Nat) : Nat :=
  match k with
  | 1 => 16384 | 2 => 8 | 3 => 8 | 4 => 2312 | 5 => 8 | 6 => 256 | 7 => 16 | 8 => 32 | 9 => 1024 | 10 => 64 | 11 => 288
  | 12 => 32768 | _ => 0

/-- The units a section kind may name (R245). -/
def kindUnit (k u : Nat) : Bool :=
  if 1 ≤ k && k ≤ 3 then decide (u < 48) || u == 62
  else if k == 4 || k == 5 || k == 8 then u == 48 || u == 49
  else if k == 6 || k == 7 then decide (50 ≤ u) && decide (u ≤ 53)
  else if 9 ≤ k && k ≤ 11 then decide (48 ≤ u) && decide (u ≤ 53)
  else k == 12 && u == 63

/-- A section kind has a copy per fold (Table 8.4). -/
def kindFold (k : Nat) : Bool := k == 3 || k == 4 || k == 6 || k == 8 || k == 10

/-- The tiles of a section. -/
def secTiles (x : Section) : List Nat := cornerTiles x.t0 x.t1

/-- A section covers a tile and unit. -/
def secCovers (x : Section) (t u : Nat) : Bool :=
  inCorners x.t0 x.t1 t && (x.unit == u || (x.unit == 62 && decide (u < 48)))

/-- The 64-bit words that a section writes in its structure: index, mask and value. -/
def secWords (x : Section) : List (Nat × Nat × Nat) :=
  if x.data.isEmpty then []
  else
    (List.range ((x.soff + x.data.length - 1) / 8 - x.soff / 8 + 1)).map fun j =>
      let i := x.soff / 8 + j
      let at_ (b : Nat) : Option Byte := if 8 * i + b < x.soff then none else x.data[8 * i + b - x.soff]?
      (i, (List.range 8).foldl (fun acc b => if (at_ b).isSome then acc + 0xFF * 2 ^ (8 * b) else acc) 0,
        (List.range 8).foldl (fun acc b => acc + ((at_ b).getD 0).toNat * 2 ^ (8 * b)) 0)

/-- Overlay a section's word on an old one. -/
def overlay (old : Nat) (m v : Nat) : Nat := (old &&& (2 ^ 64 - 1 - m)) ||| v

/-- Word `i` of a structure of a unit as an image writes it; zero where no section reaches. -/
def imgWord (img : Image) (t u k fold i : Nat) : Nat :=
  img.sections.foldl (fun acc x =>
    if x.skind == k && secCovers x t u && (!kindFold k || x.fold == fold) then
      match (secWords x).find? (·.1 == i) with
      | some w => overlay acc w.2.1 w.2.2
      | none => acc
    else acc) 0

/-! ### The checks at staging -/

/-- The sum of the eight depths of a queue geometry. -/
def depthSum (w : Nat) : Nat := (List.range 8).foldl (fun n q => n + bits w (8 * q) 8) 0

/-- The images of other regions that are staged (R460). -/
def stagedImages (s : State) (r : Nat) : List (Nat × Image) :=
  let txs := s.eng.txns.flatMap fun x => match x.ph with
    | .reporting _ => []
    | _ => x.chgs
  let cmds := s.eng.engs.flatMap fun e => e.2.cmds.flatMap fun c => match c.ph with
    | .stage l => l
    | _ => []
  (txs ++ cmds).filterMap fun c => match c with
    | .image k img .. => if k != r then some (k, img) else none
    | _ => none

/-- The image that is to configure a tile, this one or one that is staged. -/
def imageAt (l : List (Nat × Image)) (t : Nat) : Option Image := (l.find? fun e => inRegion (imgRegion e.2) t).map (·.2)

/-- A tile belongs to the group of an image's region, now or with the images that are staged (R241). -/
def inGroup (s : State) (l : List (Nat × Image)) (grp t : Nat) : Bool :=
  match imageAt l t with
  | some img => rgGrp (imgRegion img) == grp
  | none => groupAt s t == some grp

/-- The group entry of a tile with the images that are staged. -/
def entryAt (s : State) (l : List (Nat × Image)) (g t : Nat) : Nat :=
  match imageAt l t with
  | some img => imgWord img t 63 12 0 g
  | none => groupEntry s t g

/-- The local deliveries of a multicast tree, as tile and local queue, from the (tile, port) pairs that its packets come to (R305). -/
def treeLeaves (entry : Nat → Nat) : Nat → List (Nat × Nat) → List (Nat × Nat)
  | 0, _ => []
  | _, [] => []
  | n + 1, (t, port) :: more =>
    let e := entry t
    if !bit e 63 || !geInp e port then treeLeaves entry n more
    else
      let next := ((geOuts e).filter (· != 4)).map fun o => (neighbour t o, enters o)
      let here := if geOut e 4 then [(t, geLq t e)] else []
      here ++ treeLeaves entry n (more ++ next)

/-- The steering queues of a CU's context as an image programs it (R262). -/
def imgSteer (img : Image) (t u fold : Nat) : List Nat :=
  let cfg := imgWord img t u 4 fold 128
  (List.range (bits cfg 24 6 + 1)).flatMap fun i =>
    let w : W64 × W64 := (BitVec.ofNat 64 (imgWord img t u 4 fold (2 * i)), BitVec.ofNat 64 (imgWord img t u 4 fold (2 * i + 1)))
    if !uVen w || decide (uOpc w ≠ 1) && decide (uOpc w ≠ 2) then []
    else
      let v := imgWord img t u 4 fold (129 + 6 * uVprog w)
      if sVop v == 0x51 || sVop v == 0x53 then [uInq w, uInq w ^^^ 1]
      else if sVop v == 0x52 then [uInq w ^^^ 1, sQsel v, sQsel v + 1]
      else []

/-- A queue address is an input of a steering stage in a fold. -/
def steersAt (s : State) (l : List (Nat × Image)) (a fold : Nat) : Bool :=
  let u := qaUnit a
  (u == 48 || u == 49) && (match imageAt l (qaTile a) with
    | some img => (imgSteer img (qaTile a) u fold).contains (qaQueue a)
    | none => isSteerQ s (qaTile a) u (qaQueue a))

/-- The depth of a queue with the images that are staged. -/
def depthAt (s : State) (l : List (Nat × Image)) (a : Nat) : Nat :=
  match imageAt l (qaTile a) with
  | some img => bits (imgWord img (qaTile a) (qaUnit a) (if qaUnit a < 50 then 5 else 7) 0 0) (8 * qaQueue a) 8
  | none => qDepth (getFlow s (qaTile a) (qaUnit a)) (qaQueue a)

/-- The format of a stream makes tokens of more than 512 bits: those of a row of 32 results (R210). -/
def wideTokens (f : Nat) : Bool := f == 11 || f == 12 || f == 13 || f == 14

/-- A stream that a steering stage reads keeps its tags in order and in the window (R264). -/
def steerStrm (x : Strm) : Bool := stMode x == 0 && decide (stCred x ≤ 16) && decide (stTagm x ≤ 1)

/-- The checks of stream entry `o` of a unit (R210, R241, R252, R264) against the images `l`, the first of which is the one it belongs to. -/
def strmOk (s : State) (l : List (Nat × Image)) (grp t o : Nat) (x : Strm) : Bool :=
  let d := stDst x
  let steer (a : Nat) : Bool := !steersAt s l a (stDfold x) || steerStrm x
  if x.w0 = 0 && x.w1 = 0 then true
  else
    decide (stTagm x ≠ 3) && bits x.w1.toNat 40 8 == 0 &&
      (match stMode x with
      | 0 => qaTileForm d && decide (qaUnit d ≥ 48) && inGroup s l grp (qaTile d) && decide (stCred x > 0) &&
          decide (stCred x ≤ depthAt s l d) && steer d
      | 1 => decide (o ≤ 7) && qaTileForm d && decide (qaUnit d < 48) && inGroup s l grp (qaTile d) && stCred x == 0 &&
          !wideTokens (stFmt x)
      | 2 => stCred x == 0 && (treeLeaves (entryAt s l (stMgrp x)) 65536 [(t, 4)]).all fun e => inGroup s l grp e.1 && steer e.2
      | _ => stCred x == 0 && qaTileForm d && inGroup s l grp (qaTile d) && steer d)

/-- The checks of a queue descriptor (R256) of a queue of depth `n`, with its ring's `SEN` bit. -/
def qdescOk (w n : Nat) (ring : Bool) : Bool :=
  bits w 0 47 == 0 && (qdComb w != 0 || qdNsm1 w == 0) &&
    (qdComb w != 3 || (decide (qdNsm1 w ≤ 15) && n % (qdNsm1 w + 1) == 0)) && (!qdQsp w || ring) && (!qdIw w || qdComb w == 2)

/-- The checks of a spill entry (Table 8.12). -/
def spillOk (w0 w1 w2 : Nat) : Bool :=
  bits w0 41 19 == 0 && bits w1 48 16 == 0 && bits w2 32 32 == 0 && bits w0 20 21 % 8 == 0 && decide (bits w0 20 21 ≤ 2 ^ 20) &&
    bits w0 0 20 % 32 == 0 && bits w1 0 48 % 4096 == 0

/-- A value has exactly one of the low five bits set. -/
def oneHot (x : Nat) : Bool := x == 1 || x == 2 || x == 4 || x == 8 || x == 16

/-- The checks of a group entry (R304). -/
def groupOk (r w : Nat) : Bool :=
  let out := bits w 51 5
  let inp := bits w 46 5
  bits w 0 14 == 0 && (!bit w 63 ||
    (bits w 56 6 == r &&
      (if bit w 62 then oneHot out && decide (geRop w ≠ 3) else oneHot inp && decide (out ≠ 0)) &&
      !((bit w 48 || bit w 47) && (bit w 55 || bit w 54))))

/-- The root of a reduction and its queue agree, in every fold that uses the queue (R311). -/
def rootOk (img : Image) (t w : Nat) : Bool :=
  !(bit w 63 && bit w 62 && bit w 51) ||
    (let u := bits w 40 6
     let qs := ((List.range (rgNfm1 (imgRegion img) + 1)).map fun f => imgWord img t u 10 f (bits w 37 3)).filter (· != 0)
     !qs.isEmpty && qs.all fun q =>
       qdNsm1 q == geNexm1 w && (if geRop w == 2 then qdComb q == 1 else qdComb q == 2) && (qdIw q == (geRop w == 1)))

/-- The checks of one Wick core (R205, R206). -/
def wickOk (img : Image) (t c : Nat) : Bool :=
  let w := imgWord img t c 2 0 0
  let n := rgNfm1 (imgRegion img) + 1
  let ctxs := (List.range n).map fun f => imgWord img t c 3 f 0
  bits w 17 47 == 0 && (c % 2 == 0 || !bit w 16) && ctxs.all (ctxOk ctxs) &&
    (c % 2 == 0 || !bit (imgWord img t (c - 1) 2 0 0) 16 || (bits w 0 8 == 0 && ctxs.all fun x => !bit x 0))

/-- The checks of one fold context of a CU (R49 to R103, R133, R264); one that an image leaves empty runs nothing. -/
def cuCtxOk (img : Image) (t u f : Nat) : Bool :=
  let cfg := imgWord img t u 4 f 128
  let n := bits cfg 24 6 + 1
  let uop (i : Nat) : W64 × W64 := (BitVec.ofNat 64 (imgWord img t u 4 f (2 * i)), BitVec.ofNat 64 (imgWord img t u 4 f (2 * i + 1)))
  let prog (i : Nat) : List Nat := (List.range 6).map fun j => imgWord img t u 4 f (129 + 6 * i + j)
  ((List.range 4).all fun i => predOk uop (BitVec.ofNat 64 (imgWord img t u 8 f i))) &&
  ((List.range 16).all fun i => stagesOk 0 (prog i)) &&
  (cfg == 0 && decide ((uop 0).1 = 0) ||
    bits cfg 36 28 == 0 && bits cfg 5 11 == 0 && bits cfg 3 1 == 0 && decide (bits cfg 0 3 ≤ 4) &&
      ((List.range n).all fun i => uopOk cfg (uop i) && (!uVen (uop i) || vprogFor (uop i) (prog (uVprog (uop i))))) &&
      chainsOk n uop &&
      ((imgSteer img t u f).all fun q => qdSeqd (imgWord img t u 10 f q)))

/-- The checks of one CU (R94). -/
def cuOk (img : Image) (t u : Nat) : Bool :=
  decide (depthSum (imgWord img t u 5 0 0) ≤ 256) && (List.range (rgNfm1 (imgRegion img) + 1)).all (cuCtxOk img t u)

/-- The checks of one MU (R152, R154, R169). -/
def muOk (img : Image) (t u : Nat) : Bool :=
  let n := rgNfm1 (imgRegion img) + 1
  let sw := BitVec.ofNat 64 (imgWord img t u 7 0 1)
  decide (depthSum (imgWord img t u 7 0 0) ≤ 64) && bits sw.toNat 1 15 == 0 &&
    decide (snWb sw + snWnm1 sw < 4096) && decide (snShb sw + snShn sw ≤ 4096) &&
    (decide (snWb sw + snWnm1 sw < snShb sw) || decide (snShb sw + snShn sw ≤ snWb sw) || snShn sw == 0) &&
    (List.range n).all fun f => (List.range 8).all fun p =>
      progOk (imgWord img t u 6 f (4 * p)) (imgWord img t u 6 f (4 * p + 1)) (imgWord img t u 6 f (4 * p + 2))
        (imgWord img t u 6 f (4 * p + 3))

/-- A unit uses a fold: it holds a queue, a micro-op or a program of it (R270). -/
def foldUsed (img : Image) (t u f : Nat) : Bool :=
  (List.range 8).any (fun q => imgWord img t u 10 f q != 0) ||
    (if u < 50 then imgWord img t u 4 f 128 != 0 || imgWord img t u 4 f 0 != 0
     else (List.range 8).any fun p => imgWord img t u 6 f (4 * p) != 0)

/-- The checks of the dataflow part of one CU or MU (R252, R256, R270). -/
def flowOk (s : State) (l : List (Nat × Image)) (img : Image) (t u : Nat) : Bool :=
  let n := rgNfm1 (imgRegion img) + 1
  let geom := imgWord img t u (if u < 50 then 5 else 7) 0 0
  let sp (e i : Nat) : Nat := imgWord img t u 11 0 (3 * e + i)
  ((List.range 64).all fun o =>
    strmOk s l (rgGrp (imgRegion img)) t o
      { Strm.none with w0 := BitVec.ofNat 64 (imgWord img t u 9 0 (2 * o)), w1 := BitVec.ofNat 64 (imgWord img t u 9 0 (2 * o + 1)) }) &&
  ((List.range n).all fun f => (List.range 8).all fun q =>
    qdescOk (imgWord img t u 10 f q) (bits geom (8 * q) 8) (bit (sp (4 + q) 0) 63)) &&
  ((List.range 12).all fun e => spillOk (sp e 0) (sp e 1) (sp e 2)) &&
  (n == 1 || (List.range n).all fun f => !foldUsed img t u f || bit (sp f 0) 63)

/-- The streams of tiles outside an image's rectangle that feed a steering stage in it (R264). -/
def feedsOk (s : State) (l : List (Nat × Image)) (img : Image) : Bool :=
  s.flows.all fun e => (imageAt l (e.1 / 6)).isSome || e.2.streams.all fun x =>
    let a := stDst x.2
    stMode x.2 == 2 || !(qaTileForm a && inRegion (imgRegion img) (qaTile a)) || !steersAt s l a (stDfold x.2) || steerStrm x.2

/-- The checks of an image for region `r` (R243, R245 and the rules named above). -/
def imageOk (s : State) (r : Nat) (img : Image) : Bool :=
  let g := imgRegion img
  let ts := regionTiles g
  let others := stagedImages s r
  let l := (r, img) :: others
  bits img.desc0.toNat 8 8 == 0 && bits img.desc0.toNat 0 6 == r &&
    decide (rgX0 g ≤ rgX1 g) && decide (rgY0 g ≤ rgY1 g) && decide (rgX1 g < 100) && decide (rgY1 g < 110) &&
    inRegion g (rgCtl g) && !(rgWdspill g && decide (ts.length > 256)) &&
    decide (rgDrto g ≠ 0) && decide (rgRqto g ≠ 0) && decide (rgWdwin g ≠ 0) &&
    (s.regions.all fun e => e.1 == r || e.2.st = .empty || !(ts.any fun t => inRegion e.2 t)) &&
    (others.all fun e => !(ts.any fun t => inRegion (imgRegion e.2) t)) &&
    (img.sections.all fun x =>
      decide (1 ≤ x.skind) && decide (x.skind ≤ 12) && kindUnit x.skind x.unit && decide (x.soff + x.data.length ≤ kindSize x.skind) &&
        decide (x.t0 < nTiles) && decide (x.t1 < nTiles) && inRegion g x.t0 && inRegion g x.t1 &&
        (!kindFold x.skind || decide (x.fold ≤ rgNfm1 g))) &&
    (img.sections.all fun x => x.skind != 12 || (secWords x).all fun w => (secTiles x).all fun t =>
      groupOk r (imgWord img t 63 12 0 w.1) && rootOk img t (imgWord img t 63 12 0 w.1)) &&
    (ts.all fun t => ((List.range 48).all (wickOk img t)) && cuOk img t 48 && cuOk img t 49 &&
      ((List.range 4).all fun k => muOk img t (50 + k)) && ((List.range 6).all fun k => flowOk s l img t (48 + k))) &&
    feedsOk s l img

/-- Bytes that an image stages in a tile (R278). -/
def footprint (img : Image) (t : Nat) : Nat :=
  (img.sections.filter fun x => inCorners x.t0 x.t1 t).foldl (fun n x => n + x.data.length) 0

/-! ### Writing a section -/

/-- Overlay a word of a map. -/
def mover (m : SMap W64) (k msk v : Nat) : SMap W64 := mset 0 m k (BitVec.ofNat 64 (overlay (mget 0 m k).toNat msk v))

/-- Write one word of a section into a unit; `slot` is the context slot of the section's fold. -/
def putWord (s : State) (k t u fold slot : Nat) (w : Nat × Nat × Nat) : State :=
  let i := w.1
  let old (x : W64) : W64 := BitVec.ofNat 64 (overlay x.toNat w.2.1 w.2.2)
  match k with
  | 2 => modWick s t u fun x => { x with core := old x.core }
  | 3 => modWick s t u fun x => { x with ctx := mover x.ctx fold w.2.1 w.2.2 }
  | 4 =>
    modCu s t (u - 48) fun c =>
      if i < 128 then
        let p := uopAt c slot (i / 2)
        { c with uops := mset (0, 0) c.uops (slot * 64 + i / 2) (if i % 2 == 0 then (old p.1, p.2) else (p.1, old p.2)) }
      else if i == 128 then { c with cfg := mover c.cfg slot w.2.1 w.2.2 }
      else if i < 225 then { c with vprog := mover c.vprog (slot * 96 + (i - 129)) w.2.1 w.2.2 }
      else
        let lane (j : Nat) (m : SMap W32) : SMap W32 :=
          let key := slot * 128 + 2 * (i - 225) + j
          let o := (mget 0 m key).toNat
          mset 0 m key (BitVec.ofNat 32 (overlay o (bits w.2.1 (32 * j) 32) (bits w.2.2 (32 * j) 32)))
        { c with creg := lane 1 (lane 0 c.creg) }
  | 5 => modFlow s t u fun f => { f with qgeom := old f.qgeom }
  | 6 => modMu s t (u - 50) fun m => { m with progs := mover m.progs (slot * 32 + i) w.2.1 w.2.2 }
  | 7 => if i == 0 then modFlow s t u fun f => { f with qgeom := old f.qgeom }
      else modMu s t (u - 50) fun m => { m with snapW := old m.snapW, snapN := 0 }
  | 8 => modCu s t (u - 48) fun c => { c with pred := mover c.pred (slot * 4 + i) w.2.1 w.2.2 }
  | 9 => modFlow s t u fun f =>
      let x := getStrm f (i / 2)
      setStrm f (i / 2) (if i % 2 == 0 then { x with w0 := old x.w0 } else { x with w1 := old x.w1 })
  | 10 => modFlow s t u fun f => { f with qdesc := mover f.qdesc (slot * 8 + i) w.2.1 w.2.2 }
  | 11 => modFlow s t u fun f => { f with spillTab := mover f.spillTab i w.2.1 w.2.2 }
  | 12 => modTile s t fun x => { x with groups := mover x.groups i w.2.1 w.2.2, store := x.store.filter (·.group != i) }
  | _ => s

/-- Write a section into the units it names. -/
def putSection (slotBase : Nat) (s : State) (x : Section) : State :=
  (secTiles x).foldl (fun s t =>
    let us := if x.unit == 62 then List.range 48 else [x.unit]
    us.foldl (fun s u =>
      if x.skind == 1 then modWick s t u fun w => wkPut w x.soff x.data false
      else (secWords x).foldl (fun s w => putWord s x.skind t u x.fold ((slotBase + x.fold) % 4) w) s) s) s

/-! ### Installing an image and the COMMIT wave -/

/-- What is at work in a CU when its configuration changes or a COMMIT wave meets it goes on under the configuration that it began with (R115,
R132). -/
def cuLate (s : State) (t k : Nat) : State :=
  let c := getCu s t k
  let f := getFlow s t (48 + k)
  if c.old.isSome || c.issued.isNone && c.loading.isNone then s
  else
    let late (r : URun) : URun := { r with late := true }
    setCu s t k { c with old := some ⟨c.uops, c.vprog, c.cfg, c.creg, c.pred, c.pinv, c.ctxs, f.streams, f.curFold⟩,
                         issued := c.issued.map late, loading := c.loading.map late }

/-- Tokens that wait for the router go out as they were formed (R71). -/
def outLate (f : Flow) : Flow := { f with out := f.out.map fun o => { o with old := some (o.old.getD (getStrm f o.ostr)) } }

/-- What a CU does before its configuration changes: the latency policy's verifications that wait are abandoned (R144), what is at work keeps the
old one. -/
def cuLeave (s : State) (t k : Nat) : State := cuLate (dropVers s t k) t k

/-- Clear the configuration of a tile's units and the group entries of a region in it (R206; assumption 41). -/
def clearTile (r : Nat) (s : State) (t : Nat) : State :=
  let s := (List.range 2).foldl (fun s k => cuLeave s t k) s
  let s := (List.range 6).foldl (fun s k => modFlow s t (48 + k) outLate) s
  let s := (List.range 48).foldl (fun s c => modWick s t c fun w => { w with core := 0, ctx := [], run := .none }) s
  let s := (List.range 6).foldl (fun s k => modFlow s t (48 + k) fun f =>
    { f with qgeom := 0, qdesc := [], streams := [], spillTab := [], foldMap := [] }) s
  let s := (List.range 2).foldl (fun s k => modCu s t k fun c =>
    { c with uops := [], vprog := [], cfg := [], creg := [], pred := [] }) s
  let s := (List.range 4).foldl (fun s k => modMu s t k fun m => { m with progs := [], snapW := 0 }) s
  modTile s t fun x => { x with idle := false, groups := x.groups.filter fun e => bits e.2.toNat 56 6 != r }

/-- Entries of queues that a new `WK_CORE` disables are discarded (R221). -/
def dropDisabled (s : State) (t : Nat) : State :=
  (List.range 48).foldl (fun s c => modWick s t c fun w =>
    (List.range 8).foldl (fun w q =>
      let n := (mget [] w.queues q).length
      if wkQen w q || n == 0 then w
      else { w with queues := mset [] w.queues q [], qdisc := mset 0 w.qdisc q (satAdd 32 (mget 0 w.qdisc q) n) }) w) s

/-- The image of the even core of a lockstep pair is written into the local memory of the odd one too (R203). -/
def pairImage (img : Image) (s : State) (t : Nat) : State :=
  (List.range 24).foldl (fun s i =>
    if !wkLock (getWick s t (2 * i)) then s
    else img.sections.foldl (fun s x =>
      if x.skind == 1 && secCovers x t (2 * i) then modWick s t (2 * i + 1) fun w => wkPut w x.soff x.data false else s) s) s

/-- Install an image in a region: its units hold the new configuration; nothing starts. -/
def installImage (s : State) (r : Nat) (img : Image) (from_ : MAddr) (len : Nat) : State :=
  let old := getRegion s r
  let base := if old.st = .empty then 0 else (old.slotBase + old.nslots) % 4
  let g : Region := { old with st := if old.st = .empty then .loaded else old.st, desc0 := img.desc0, desc1 := img.desc1, seed := img.seed,
                               imgid := img.imgid, step := if old.st = .empty then 0 else old.step, nslots := rgNfm1 (imgRegion img) + 1,
                               sections := img.sections, loadFrom := from_, loadLen := len, slotBase := base }
  let ts := (regionTiles old ++ regionTiles g).eraseDups
  let s := ts.foldl (clearTile r) s
  let s := setRegion s r g
  let s := img.sections.foldl (putSection base) s
  let s := (regionTiles g).foldl (pairImage img) s
  let s := (regionTiles g).foldl (fun s t => (List.range 6).foldl (fun s k => modFlow s t (48 + k) fun f =>
    { f with foldMap := (List.range g.nslots).foldl (fun m i => mset 0 m i ((base + i) % 4)) [] }) s) s
  ts.foldl dropDisabled s

/-- Tokens held in a unit's queues and spill rings. -/
def heldTokens (f : Flow) : Nat :=
  f.queues.foldl (fun n q => n + q.2.ready.length + q.2.slots.foldl (fun m e => m + e.parts.length) 0) 0 +
    f.rings.foldl (fun n g => n + g.2.recs.length) 0

/-- Discard the tokens of a region's queues and spill rings and count them in `EPDISC` (R265, R277, R283). -/
def discardTokens (s : State) (r : Nat) : State × Nat :=
  let g := getRegion s r
  let mine (k : Nat) : Bool := inRegion g (k / 6)
  let n := (s.flows.filter fun e => mine e.1).foldl (fun n e => n + heldTokens e.2) 0
  let empty (f : Flow) : Flow :=
    { f with queues := mmap DQ.empty f.queues (fun _ => true) (fun q => { q with slots := [], ready := [], spill := false }),
             rings := [] }
  (modRegion { s with flows := mmap Flow.reset s.flows mine empty } r fun x => { x with epdisc := satAdd 48 x.epdisc n }, n)

/-- A CU or MU at the COMMIT wave (R257, R261, R262, R281) in cycle `now`; packets from number `since` on are of the new epoch. -/
def commitFlow (now since : Nat) (f : Flow) : Flow :=
  let f := outLate f
  { f with
    queues := mmap DQ.empty f.queues (fun _ => true) fun q => { DQ.empty with stall := q.stall },
    streams := mmap Strm.none f.streams (fun _ => true) fun x =>
      { x with seq := 0, cred := stCred x, inflight := none, resend := false, ssent := 0, pid := 0 },
    curFold := 0, foldReq := false, idle := now, dwell := now, rings := [], reinject := [], since := since }

/-- A CU at the COMMIT wave: rows, VHB and contexts are discarded (R281), and `PINV` is zeroed (R135); a micro-op at work has its rows and its feed
until it ends (R115). A recovery keeps the `PINV` that it has restored. -/
def commitCu (keep : Bool) (c : Cu) : Cu :=
  let c := { c with ctxs := [], pinv := if keep then c.pinv else [] }
  if c.old.isSome then c
  else { c with acc := [], vhb := [], vhbScl := [], vhbPoi := false, vhbApx := false, issued := none, loading := none, feed := [] }

/-- An MU at the COMMIT wave: its generators end, but for those that feed a micro-op at work (R115). -/
def commitMu (s : State) (t : Nat) (m : Mu) : Mu :=
  { m with gens := m.gens.filter fun g => match g.2.cu with
      | some k => (getCu s t k).old.isSome
      | none => false,
           maskDrop := [] }

/-- Start the contexts of a core (R207) in cycle `now`: the first enabled one runs, the others wait in their save blocks. -/
def startWick (now : Nat) (w : Wick) : Wick :=
  let on := (List.range 4).filter fun k => bit (mget 0 w.ctx k).toNat 0
  let clean (w : Wick) (k : Nat) : Wick :=
    let w := { w with regs := [], scr := [], ecause := 0, tickets := [], lastTk := 7, tdl := 0, tpast := true, rot := 7,
                      fold := k, sendb := none, recv := none, foldReq := none, own := [], halted := [], dwell := now }
    { w with pc := BitVec.ofNat 14 (4 * wkEntry w) }
  match on with
  | [] => { w with run := .none }
  | k :: more =>
    let w := more.foldl (fun w j => wkSaveCtx (clean w j)) w
    { clean w k with run := .running }

/-- The odd core of a lockstep pair starts as its even core does (R203). -/
def startOdd (s : State) (t c now : Nat) : State :=
  let a := getWick s t c
  modWick s t (c + 1) fun b => wkPairBack b (startWick now (wkPairView a b))

/-- The COMMIT wave in a region that takes it running (R281): tokens are discarded, counters reset, contexts started. -/
def commitRegion (s : State) (r : Nat) : State × Nat :=
  let s := (regionCus s r).foldl (fun s e => cuLeave s e.1 e.2) s
  let d := discardTokens s r
  let s := d.1
  let g := getRegion s r
  let now := cyclesOf s (rgCtl g)
  let keep := s.mantle.recov.any fun x => x.group == rgGrp g && x.step == 7
  let s := { s with
    flows := mmapK Flow.reset s.flows (fun k => inRegion g (k / 6)) fun k => commitFlow (cyclesOf s (k / 6)) s.net.next,
    cus := mmap Cu.reset s.cus (fun k => inRegion g (k / 2)) (commitCu keep) }
  let s := (s.mus.filter fun e => inRegion g (e.1 / 4)).foldl (fun s e => modMu s (e.1 / 4) (e.1 % 4) (commitMu s (e.1 / 4))) s
  let s := { s with wicks := mmapK Wick.reset s.wicks (fun k => inRegion g (k / 48)) fun k => startWick (cyclesOf s (k / 48)) }
  let pairs := s.wicks.filter fun e => inRegion g (e.1 / 48) && wkEvenLocked e.2 (e.1 % 48)
  let s := pairs.foldl (fun s e => startOdd s (e.1 / 48) (e.1 % 48) (cyclesOf s (e.1 / 48))) s
  (modRegion s r fun x => { x with st := .running, gated := false, waiting := false, drain := none, wd := now }, d.2)

/-- A region that keeps its image is ungated at an ABORT wave and goes on where it stood (R282). -/
def resumeRegion (s : State) (r : Nat) : State :=
  modRegion s r fun x =>
    if x.st = .stopped then { x with waiting := false, drain := none }
    else { x with st := if x.st = .quiescing then .running else x.st, gated := if x.st = .drained then x.gated else false,
                  waiting := false, drain := none }

end Sys2Proof.Machine
end

