-- ==== Sys2Proof/Machine/HbmMem.lean ====
section
/-!
DEFINITION. The contents of the HBM stacks (11.2, 11.3, 11.8): local reads and writes with error correction, stored poison
and lost pages, mirrored pages, and module addresses read and written by copies.
-/
namespace Sys2Proof.Machine
open Sys2Proof

/-- A memory-side die. -/
def getMsd (s : State) (m : Nat) : Msd := mget Msd.reset s.msds m
/-- Replace a memory-side die. -/
def setMsd (s : State) (m : Nat) (x : Msd) : State := { s with msds := mset Msd.reset s.msds m x }
/-- Change a memory-side die. -/
def modMsd (s : State) (m : Nat) (f : Msd → Msd) : State := setMsd s m (f (getMsd s m))

/-- A byte with its poison. -/
abbrev PByte := Byte × Bool

/-- Bytes without poison. -/
def clean (bs : List Byte) : List PByte := bs.map fun b => (b, false)
/-- Some byte is poisoned. -/
def anyPoi (l : List PByte) : Bool := l.any (·.2)

/-- A local page is marked lost (R379, R580). -/
def pageLost (m : Msd) (p : Nat) : Bool := m.allLost && !mget false m.kept p

/-- The pages of a local range. -/
def pagesOf (a n : Nat) : List Nat := if n == 0 then [] else (List.range ((a + n - 1) / 4096 - a / 4096 + 1)).map (a / 4096 + ·)

/-- The words of a local range that fail SECDED. -/
def badWords (m : Msd) (a n : Nat) : List Nat := (muWords a n).filter fun w => mget 0 m.err w == 2

/-- Read a local range: lost pages and stored poison read as poison (R362, R379); single-bit errors are corrected. -/
def msdRead (m : Msd) (a n : Nat) : List PByte × Msd × Nat :=
  let one := (muWords a n).filter fun w => mget 0 m.err w == 1
  let lost := (pagesOf a n).filter (pageLost m)
  let bs := (List.range n).map fun i =>
    let x := a + i
    (mget 0 m.mem x, pageLost m (x / 4096) || mget false m.poi (x / 8) || mget 0 m.err (x / 8) == 2)
  (bs, { m with err := one.foldl (fun e w => mset 0 e w 0) m.err, corrected := satAdd 48 m.corrected one.length,
                lostReads := satAdd 48 m.lostReads lost.length }, one.length)

/-- Write within one page (R362, R379): a smaller write to a lost page first stores poison in all of it. -/
def msdWrite (m : Msd) (a : Nat) (bs : List PByte) : Msd :=
  let p := a / 4096
  let whole := decide (a % 4096 = 0) && decide (bs.length ≥ 4096)
  let m := if pageLost m p then
      { m with kept := mset false m.kept p true,
               poi := if whole then m.poi else (List.range 512).foldl (fun q i => mset false q (p * 512 + i) true) m.poi }
    else m
  let mem := bs.zipIdx.foldl (fun acc e => mset 0 acc (a + e.2) e.1.1) m.mem
  let fix (acc : SMap Bool × SMap Nat) (w : Nat) : SMap Bool × SMap Nat :=
    let lo := max a (8 * w)
    let hi := min (a + bs.length) (8 * w + 8)
    let bad := ((bs.drop (lo - a)).take (hi - lo)).any (·.2)
    let full := decide (lo = 8 * w) && decide (hi = 8 * w + 8)
    let was := mget false m.poi w || mget 0 m.err w == 2
    (mset false acc.1 w (bad || (!full && was)), mset 0 acc.2 w 0)
  let r := (muWords a bs.length).foldl fix (m.poi, m.err)
  { m with mem := mem, poi := r.1, err := r.2 }

/-- An incident of an HBM stack (R362). -/
def hbmInc (s : State) (cls m detail : Nat) : State := raiseInc s (mkInc cls utHbm (dieMsd m) noTile 0 detail)

/-- Raise what a local read found. -/
def hbmRaise (s : State) (m corrected : Nat) : State :=
  if corrected > 0 then raiseCoal s (mkInc 0x0120 utHbm (dieMsd m) noTile 0 0) else s

/-- The other member of a pair. -/
def mirrorOf (m : Nat) : Nat := if m % 2 == 0 then m + 1 else m - 1

/-- Repair a word from the other member of a mirrored pair, if that one is good and not fenced (R366). -/
def mirrorFix (s : State) (m w : Nat) : State × Bool :=
  let o := mirrorOf m
  let x := getMsd s o
  let ok := !dieFenced s (dieMsd o) && mget 0 x.err w != 2 && !mget false x.poi w && !pageLost x (w / 512)
  if ok then
    let r := msdRead x (8 * w) 8
    let s := setMsd s o r.2.1
    let s := modMsd s m fun y => { msdWrite y (8 * w) r.1 with repaired := satAdd 48 y.repaired 1 }
    (hbmInc s 0x0122 m (8 * w), true)
  else (s, false)

/-- Read a local range of a member: words that fail are repaired from the mirror when the page is mirrored, and otherwise
delivered poisoned with an incident (R362, R366). -/
def memberRead (s : State) (mir : Bool) (m a n : Nat) : List PByte × State :=
  let s := (badWords (getMsd s m) a n).foldl (fun s w =>
    let r := if mir then mirrorFix s m w else (s, false)
    if r.2 then r.1
    else hbmInc (modMsd r.1 m fun x => { x with uncorr := satAdd 48 x.uncorr 1 }) 0x0121 m (8 * w)) s
  let r := msdRead (getMsd s m) a n
  (r.1, hbmRaise (setMsd s m r.2.1) m r.2.2)

/-- Read bytes of one HBM page (R364 to R366). -/
def hbmRead (s : State) (h : HbmAt) (n : Nat) : List PByte × State := memberRead s (sgMir h.seg) (hbmTarget s h) h.lo n

/-- The members that a write goes to: both of a mirrored pair, less one that is fenced (R365, Table 11.7). -/
def writeTo (s : State) (h : HbmAt) : List Nat :=
  ((if sgMir h.seg then [h.msd, h.msd + 1] else [h.msd]).filter fun m => !dieFenced s (dieMsd m))

/-- Write bytes of one HBM page to every member that takes them (R365). -/
def hbmWrite (s : State) (h : HbmAt) (bs : List PByte) : State × Outc :=
  match writeTo s h with
  | [] => (s, .refusedFenced)
  | ms => (ms.foldl (fun s m => modMsd s m fun x => msdWrite x h.lo bs) s, .done)

/-- A request is carried out under the segment table by which it was translated (Table 11.8). -/
def withSeg {α : Type} (tab : Option (SMap (W64 × W64))) (s : State) (f : State → State × α) : State × α :=
  match tab with
  | none => f s
  | some g =>
    let r := f { s with seg := g }
    ({ r.1 with seg := s.seg }, r.2)

/-- The segment table changes: what is under way keeps the table it was translated under (Table 11.8). -/
def keepSeg (s : State) : State :=
  let old (x : Option (SMap (W64 × W64))) : Option (SMap (W64 × W64)) := some (x.getD s.seg)
  let req (r : MsdReq) : MsdReq := { r with seg := old r.seg }
  let hit (p : Packet) : Bool := match p.body with
    | .mwr _ _ false _ _ _ => !qaTileForm p.dst
    | .mrd .. => !qaTileForm p.dst
    | _ => false
  let pids := (s.net.packets.filter fun e => hit e.2 && (s.segKept.lookup e.1).isNone).map (·.1)
  { s with
    segKept := pids.foldl (fun m i => mput m i s.seg) s.segKept
    msds := mmap Msd.reset s.msds (fun _ => true) fun x => { x with queue := x.queue.map req, serv := x.serv.map req }
    copies := s.copies.map fun j => { j with seg := old j.seg } }

/-! ### Module addresses (R360) -/

/-- A module address lies in HBM space. -/
def inHbm (s : State) (a : Nat) : Bool := decide (a < s.part.gib * 2 ^ 30)

/-- Pieces of a range that stay within one page: start and length. -/
def cutPages (a n : Nat) : List (Nat × Nat) :=
  if n == 0 then []
  else (List.range ((a % 4096 + n + 4095) / 4096)).map fun i =>
    let lo := 4096 * i - a % 4096
    (lo, min n (4096 * (i + 1) - a % 4096) - lo)

/-- An unmapped module address (R360). -/
def unmapped (s : State) (die a : Nat) : State := raiseInc s (mkInc 0x0110 (if die == 1 then utCd else utMsd) die noTile 0 a)

/-- Read a module range piece by piece: bytes with poison, the outcome (DONE, REFUSED_FENCED or FAULT), the state. MU SRAM of a group that
recovers is refused (R518). -/
def modReadPiece (s : State) (die a n : Nat) : List PByte × Outc × State :=
  if inHbm s a then
    match hbmAt s a with
    | some h =>
      if dieFenced s (dieMsd (hbmTarget s h)) then ([], .refusedFenced, s)
      else
        let r := hbmRead s h n
        (r.1, .done, r.2)
    | none => ([], .fault, unmapped s die a)
  else match onWafer a n with
    | some (t, u, o) =>
      if fenced s t || (u ≥ 50 && groupRecovering s t) then ([], .refusedFenced, s)
      else if u < 48 then
        let r := wickRead s t u o n
        (r.1.map fun b => (b, r.2.1), .done, r.2.2)
      else
        let m := getMu s t (u - 50)
        let poi := (List.range n).map fun i => muPoison m [muMap m (o + i) / 8]
        let r := muRead s t (u - 50) o n
        (r.1.zip poi, .done, r.2.2)
    | none => ([], .fault, unmapped s die a)

/-- Read a module range that may cross pages. -/
def modRead (s : State) (die a n : Nat) : List PByte × Outc × State :=
  (cutPages a n).foldl (fun acc p =>
    if acc.2.1 ≠ .done then acc
    else
      let r := modReadPiece acc.2.2 die (a + p.1) p.2
      (acc.1 ++ r.1, r.2.1, r.2.2)) ([], .done, s)

/-- Split bytes into runs of equal poison, with their offsets. -/
def poiRuns : List PByte → List (Nat × List Byte × Bool)
  | [] => []
  | (b, p) :: rest =>
    match poiRuns rest with
    | (k, bs, q) :: more => if q == p && k == 0 then (0, b :: bs, p) :: more.map (fun e => (e.1 + 1, e.2))
        else (0, [b], p) :: ((k, bs, q) :: more).map (fun e => (e.1 + 1, e.2))
    | [] => [(0, [b], p)]

/-- Write a piece of a module range. `none` is a write that waits for a shadow granule of an MU (R172). -/
def modWritePiece (s : State) (die a : Nat) (bs : List PByte) : Option (State × Outc) :=
  if inHbm s a then
    match hbmAt s a with
    | some h => some (hbmWrite s h bs)
    | none => some (unmapped s die a, .fault)
  else match onWafer a bs.length with
    | some (t, u, o) =>
      if fenced s t || (u ≥ 50 && groupRecovering s t) then some (s, .refusedFenced)
      else if u < 48 then
        some ((poiRuns bs).foldl (fun s r => modWick s t u fun w => wkPut w (o + r.1) r.2.1 r.2.2) s, .done)
      else
        (poiRuns bs).foldl (fun acc r => match acc with
          | some (s, oc) =>
            let x := muWrite s t (u - 50) (o + r.1) r.2.1 r.2.2
            if x.2 then some (x.1, oc) else none
          | none => none) (some (s, Outc.done))
    | none => some (unmapped s die a, .fault)

/-- A write of `n` bytes at a module address waits for shadow granules of MUs: their copy-out is raised and the wait counted (R172). -/
def modWait (s : State) (a n : Nat) : State :=
  (cutPages a n).foldl (fun s p =>
    if inHbm s (a + p.1) then s
    else match onWafer (a + p.1) p.2 with
      | some (t, u, o) =>
        let m := getMu s t (u - 50)
        let g := muBlocked m o p.2
        if u < 50 || !muFrozen m g || (muFreeShadow m).isSome then s else muStall (setMu s t (u - 50) (muMarkWait m (g * 256))) t (u - 50) stOutput
      | none => s) s

/-- Write a module range that may cross pages. -/
def modWrite (s : State) (die a : Nat) (bs : List PByte) : Option (State × Outc) :=
  (cutPages a bs.length).foldl (fun acc p => match acc with
    | some (s, .done) => modWritePiece s die (a + p.1) ((bs.drop p.1).take p.2)
    | x => x) (some (s, .done))

end Sys2Proof.Machine
end

