-- ==== Sys2Proof/Machine/MsdOps.lean ====
section
/-!
DEFINITION. The memory-side dies at work (11.4 to 11.8): write and read packets, the scheduler with classes and quotas,
copies, decryption, the patrol scrub and resilvering.
-/
namespace Sys2Proof.Machine
open Sys2Proof

/-! ### Injection by a satellite -/

/-- A satellite puts a packet under way at one of its attach ports (R298). -/
def injectDie (s : State) (d k dst : Nat) (b : Body) (re : Nat) : State :=
  putPacket s (newPacket (edgeMake d k 0) dst 0 0 b (.die d k) re)

/-- A satellite answers a packet that reached it. -/
def replyDie (s : State) (d k : Nat) (p : Packet) (o : Outc) : State :=
  injectDie s d k p.src (.reply o (bodyKind p.body) (bodyRef p.src p.body)) p.id

/-! ### Arrival at the scheduler (R376, R377) -/

/-- A requester's outstanding bytes at an MSD in a period of REFCLK_MOD: bytes freed in it still count (R377). -/
def outstanding (now : Nat) (m : Msd) (req : Nat) : Nat :=
  ((m.queue ++ m.serv).filter (·.req == req)).foldl (fun n r => n + r.bytes) 0 +
    (m.freed.filter fun e => e.1 == now && e.2.1 == req).foldl (fun n e => n + e.2.2) 0

/-- The bytes of a request are freed (R377). -/
def freeBytes (now : Nat) (m : Msd) (r : MsdReq) : Msd := { m with freed := m.freed.filter (fun e => e.1 == now) ++ [(now, r.req, r.bytes)] }

/-- The system class and the module's own requests are exempt from quotas (Table 11.6, R536). -/
def quotaFree (r : MsdReq) : Bool := r.cls == 2 || r.req == 65

/-- A request would exceed its requester's quota (R377). -/
def overQuota (now : Nat) (m : Msd) (r : MsdReq) : Bool :=
  let q := bits (mget qwReset m.qw r.req).toNat 16 16
  !quotaFree r && q != 0xFFFF && (q == 0 || decide (outstanding now m r.req + r.bytes > q * 1024))

/-- A request arrives at an MSD: queued, or refused. -/
def msdArrive (s : State) (m : Nat) (r : MsdReq) : State × Outc :=
  let x := getMsd s m
  if dieFenced s (dieMsd m) || x.inReset then (s, .refusedFenced)
  else if overQuota s.time.ticks x r then
    (setMsd s m { x with refused := mset 0 x.refused r.cls (satAdd 48 (mget 0 x.refused r.cls) 1) }, .refusedQuota)
  else (setMsd s m { x with queue := x.queue ++ [{ r with arrive := nowPs s }] }, .done)

/-- A packet to an MSD is on its way no more; the answer has the segment table kept for it (Table 11.8). -/
def takeKept (s : State) (pid : Nat) : State × Option (SMap (W64 × W64)) :=
  match s.segKept.lookup pid with
  | none => (delPacket s pid, none)
  | some g => ({ delPacket s pid with segKept := mdel s.segKept pid }, some g)

/-- MWR (R367, R368): a write packet reaches its MSD or its tile; a read reply reaches its requester. -/
def execMwr (pid : Nat) (s : State) : Out :=
  match getPacket s pid with
  | none => .next s
  | some p =>
    match p.body, p.loc with
    | .mwr a rq false _ data poi, .die d k =>
      let (s, g) := takeKept s pid
      if !dieIsMsd d then .next (replyDie s d k p .fault)
      else
        let r := msdArrive s (d - 8) ⟨rq / 128, rq % 128, data.length, 0, .write p.src p.dst a data poi, g, false⟩
        .next (if r.2 = .done then r.1 else replyDie r.1 d k p r.2)
    | .mwr a _ false _ data poi, .deliver t =>
      if fenced s t then .next (answerFrom (delPacket s pid) t p .refusedFenced)
      else match onWafer a data.length with
        | some (t', _, _) =>
          if t' != t then .next (answerFrom (delPacket s pid) t p .fault)
          else match modWritePiece s 0 a (data.map fun b => (b, poi.any id)) with
            | some (s, o) => .next (answerFrom (delPacket s pid) t p o)
            | none => .next (modWait s a data.length)
        | none => .next (answerFrom (unmapped (delPacket s pid) 0 a) t p .fault)
    | .mwr _ _ true _ _ _, .deliver _ => .next (delPacket s pid)
    | .mwr _ _ true _ _ _, .die _ _ => .next (delPacket s pid)
    | _, _ => .next s

/-- MRD (R367, R368): a read request reaches its MSD, or a tile whose memory it names. -/
def execMrd (pid : Nat) (s : State) : Out :=
  match getPacket s pid with
  | none => .next s
  | some p =>
    match p.body, p.loc with
    | .mrd a len rq cls, .die d k =>
      let (s, g) := takeKept s pid
      let no (s : State) (o : Outc) : State := injectDie s d k p.src (.mwr a (rq + cls * 128) true o [] []) p.id
      if !dieIsMsd d then .next (no s .fault)
      else
        let r := msdArrive s (d - 8) ⟨cls, rq, len, 0, .read p.src p.dst a len, g, false⟩
        .next (if r.2 = .done then r.1 else no r.1 r.2)
    | .mrd a len rq cls, .deliver t =>
      let s := delPacket s pid
      let ans (s : State) (o : Outc) (data : List Byte) (poi : List Bool) : State :=
        answerWith s t p p.src (.mwr a (rq + cls * 128) true o data poi)
      if fenced s t then .next (ans s .refusedFenced [] [])
      else match onWafer a len with
        | some (t', _, _) =>
          if t' != t then .next (ans s .fault [] [])
          else
            let r := modReadPiece s 0 a len
            .next (ans r.2.2 r.2.1 (r.1.map (·.1)) [anyPoi r.1])
        | none => .next (ans (unmapped s 0 a) .fault [] [])
    | _, _ => .next s

/-! ### Service -/

/-- The class target in ps; `none` means that the class has none (`MSD_CLS`). -/
def classTarget (m : Msd) (cls : Nat) : Option Nat :=
  let t := if cls == 0 then bits m.cls.toNat 0 16 * 1000 else if cls == 2 then bits m.cls.toNat 16 16 * 1000
    else bits m.cls.toNat 32 16 * 1000000
  if t == 0 then none else some t

/-- A wait of `w` ps is beyond the class target (R377). -/
def tooLate (m : Msd) (cls w : Nat) : Bool := match classTarget m cls with
  | some t => decide (w > t)
  | none => false

/-- Count a service start. -/
def countServe (m : Msd) (cls w : Nat) : Msd :=
  { m with served := mset 0 m.served cls (satAdd 48 (mget 0 m.served cls) 1),
           defN := if tooLate m cls w then mset 0 m.defN cls (satAdd 48 (mget 0 m.defN cls) 1) else m.defN,
           defNs := mset 0 m.defNs cls (max (mget 0 m.defNs cls) (w / 1000)) }

/-- The bulk requester that is served next: the present one while it has grants left, then the next one in turn that has
a weight, and one of weight 0 only when no other waits (R376, `MSD_QW`). -/
def bulkTurn (m : Msd) : Option Nat :=
  let reqs := ((m.queue.filter (·.cls == 1)).map (·.req)).eraseDups
  let wgt (r : Nat) : Nat := bits (mget qwReset m.qw r).toNat 0 8
  let turn := (List.range 128).map fun i => (m.rrAt + 1 + i) % 128
  if m.rrLeft > 0 && reqs.contains m.rrAt && wgt m.rrAt > 0 then some m.rrAt
  else match turn.find? fun r => reqs.contains r && decide (wgt r > 0) with
    | some r => some r
    | none => turn.find? reqs.contains

/-- The position in the queue of the request that is served next (R376); `bulk` says that bulk traffic may be served (R555). -/
def nextReq (m : Msd) (bulk : Bool) : Option Nat :=
  match m.queue.findIdx? (·.cls == 0) with
  | some i => some i
  | none => match m.queue.findIdx? (·.cls == 2) with
    | some i => some i
    | none => if !bulk then none else match bulkTurn m with
      | some r => m.queue.findIdx? fun x => x.cls == 1 && x.req == r
      | none => none

/-- Carry out a packet's request at its MSD. -/
def servePacket (s : State) (m : Nat) (late : Bool) (r : MsdReq) : State :=
  let d := dieMsd m
  let ok : Outc := if late then .doneDeferred else .done
  match r.what with
  | .write src dst a data poi =>
    let k := edgePort dst
    let fin (s : State) (o : Outc) : State := injectDie s d k src (.reply o 13 0) 0
    let x := withSeg r.seg s fun s => match hbmAt s a with
      | some h => hbmWrite s h (data.map fun b => (b, r.bad || poi.any id))
      | none => (unmapped s d a, .fault)
    fin x.1 (if x.2 = .done then ok else x.2)
  | .read src dst a len =>
    let k := edgePort dst
    let fin (s : State) (o : Outc) (bs : List PByte) : State :=
      injectDie s d k src (.mwr a (r.req + r.cls * 128) true o (bs.map (·.1)) [anyPoi bs]) 0
    let x := withSeg r.seg s fun s => match hbmAt s a with
      | some h => let x := hbmRead s h len; (x.2, ok, x.1.map fun b => (b.1, b.2 || r.bad))
      | none => (unmapped s d a, .fault, [])
    fin x.1 x.2.1 x.2.2
  | _ => s

/-- Note that a copy's page has begun service. -/
def startPage (s : State) (cmd page : Nat) : State :=
  { s with copies := s.copies.map fun j => if j.cmd == cmd then
      { j with pages := lmod j.pages page fun p => { p with started := some (nowPs s) } } else j }

/-- The buffer of the request that begins service is read (R498): a correctable error is corrected and raised, an uncorrectable one poisons the
data. -/
def bufServe (s : State) (m : Nat) : State × Bool :=
  match (getMsd s m).bufErr with
  | 0 => (s, false)
  | 1 => (raiseCoal (modMsd s m fun x => { x with bufErr := 0 }) (mkInc 0x0101 utMsd (dieMsd m) noTile 0 0), false)
  | _ => (raiseInc (modMsd s m fun x => { x with bufErr := 0 }) (mkInc 0x0102 utMsd (dieMsd m) noTile 0 0), true)

/-- The command of an access to the stack meets a parity error: it is tried again once, and a second error is raised (Table 11.2). -/
def parityServe (s : State) (m : Nat) : State :=
  match (getMsd s m).parErr with
  | 0 => s
  | 1 => modMsd s m fun x => { x with parErr := 0 }
  | n + 2 => raiseInc (modMsd s m fun x => { x with parErr := n }) (mkInc 0x0123 utHbm (dieMsd m) noTile 0 0)

/-- MSD_SERVICE_START (R376, R377): packets are carried out and answered; a copy's page begins service. -/
def execMsdServiceStart (m : Fin 24) (s : State) : Out :=
  let x := getMsd s m.val
  if x.inReset then .next s
  else match nextReq x (bulkOpen s m.val) with
  | none => .next s
  | some i =>
    match x.queue[i]? with
    | none => .next s
    | some r =>
      let w := nowPs s - r.arrive
      let wgt := bits (mget qwReset x.qw r.req).toNat 0 8
      let x := { countServe x r.cls w with queue := ldel x.queue i }
      let x := if r.cls == 1 then
          { x with rrLeft := if r.req == x.rrAt && x.rrLeft > 0 then x.rrLeft - 1 else wgt - 1, rrAt := r.req }
        else x
      let (s, bad) := bufServe (parityServe (setMsd s m.val x) m.val) m.val
      let r := { r with bad := bad }
      match r.what with
      | .page cmd page => .next (startPage (modMsd s m.val fun x => { x with serv := x.serv ++ [r] }) cmd page)
      | .resilver _ => .next (modMsd s m.val fun x => { x with serv := x.serv ++ [r] })
      | _ => .next (servePacket (modMsd s m.val fun x => freeBytes s.time.ticks x r) m.val (tooLate x r.cls w) r)

/-! ### Patrol scrub and resilvering -/

/-- A local page belongs to a mirrored segment. -/
def mirroredPage (s : State) (m p : Nat) : Bool :=
  s.seg.any fun e => sgSv e.2 && sgMir e.2 && bit (sgSet e.2) m && decide (sgLbase e.2 ≤ p) &&
    decide (p < sgLbase e.2 + sgNpg e.2 / max 1 (sgPrims e.2).length)

/-- Words of a stack (R361). -/
def stackWords (s : State) : Nat := s.part.gib / 24 * 2 ^ 27

/-- HBM_PATROL_SCRUB (R362): the next word of the stack is read. -/
def execHbmPatrolScrub (m : Fin 24) (s : State) : Out :=
  let x := getMsd s m.val
  if x.inReset then .next s
  else
    let w := x.scrub
    let s := setMsd s m.val { x with scrub := if w + 1 ≥ stackWords s then 0 else w + 1 }
    .next (memberRead s (mirroredPage s m.val (w / 512)) m.val (8 * w) 8).2

/-- The mirrored local pages of an MSD, in the order of the segment table, as (first, count). -/
def mirrorRanges (s : State) (m : Nat) : List (Nat × Nat) :=
  (s.seg.filter fun e => sgSv e.2 && sgMir e.2 && bit (sgSet e.2) m).map fun e =>
    (sgLbase e.2, sgNpg e.2 / max 1 (sgPrims e.2).length)

/-- Page `k` of a list of ranges. -/
def rangePage : List (Nat × Nat) → Nat → Option Nat
  | [], _ => none
  | (a, n) :: rest, k => if k < n then some (a + k) else rangePage rest (k - n)

/-- Take a degraded mark off every segment of a pair. -/
def clearDeg (m : Nat) (e : W64 × W64) : W64 × W64 :=
  if sgMir e && bit (sgSet e) m then (BitVec.ofNat 64 (setBits e.1.toNat 60 1 0), e.2) else e

/-- Mantle stages segment entries under a tag of its own and asks for the COMMIT wave (R363, Table 11.7). -/
def mantleCommit (s : State) (chgs : List Chg) : State × Nat :=
  let tag := freshTag s
  let x : Txn := ⟨tag, 2, 0, none, chgs, [], 0, none, none, 0, [], [], none, false, .waved true, .done, 0, 0, false, 0⟩
  (requestWave { s with eng := { s.eng with lastTag := tag, txns := s.eng.txns ++ [x] } } (Wave.ask .commit tag false 0 .none), tag)

/-- RESILVER_PAGE (R378, Table 11.7 steps 7 and 8): the survivor copies the next page to the returned die; after the last
one Mantle commits `DEG` = 0. -/
def execResilverPage (m : Fin 24) (s : State) : Out :=
  let x := getMsd s m.val
  match x.resilver with
  | none => .next s
  | some k =>
    let o := mirrorOf m.val
    if x.inReset || (getMsd s o).inReset || dieFenced s (dieMsd o) then .next s
    else match rangePage (mirrorRanges s m.val) k with
      | some p =>
        let r := memberRead s false o (4096 * p) 4096
        .next (modMsd r.2 m.val fun x => { msdWrite x (4096 * p) r.1 with resilver := some (k + 1) })
      | none =>
        let s := setMsd s m.val { x with resilver := none }
        let chgs := (s.seg.filter fun e => sgMir e.2 && bit (sgSet e.2) m.val && sgDeg e.2).map fun e => Chg.seg e.1 (clearDeg m.val e.2)
        .next (mantleCommit s chgs).1

/-! ### Copies (11.5, 11.6) -/

/-- Fields of a copy descriptor (Table 11.5). -/
def cdW (d : List W64) (i : Nat) : Nat := (lget 0 d i).toNat
def cdCop (d : List W64) : Nat := bits (cdW d 0) 60 4
def cdCls (d : List W64) : Nat := bits (cdW d 0) 58 2
def cdReq (d : List W64) : Nat := bits (cdW d 0) 51 7
def cdSsp (d : List W64) : Nat := bits (cdW d 0) 49 2
def cdDsp (d : List W64) : Nat := bits (cdW d 0) 47 2
def cdEfmt (d : List W64) : Fmt := fmtOf (bits (cdW d 0) 43 4)
def cdOlay (d : List W64) : Nat := bits (cdW d 0) 40 3
def cdKslot (d : List W64) : Nat := bits (cdW d 0) 36 4
def cdSaddr (d : List W64) : Nat := cdW d 1
def cdDaddr (d : List W64) : Nat := cdW d 2
def cdLen (d : List W64) : Nat := bits (cdW d 3) 0 40
def cdSrstr (d : List W64) : Nat := bits (cdW d 4) 32 32
def cdCols (d : List W64) : Nat := bits (cdW d 4) 16 16 + 1
def cdRows (d : List W64) : Nat := bits (cdW d 4) 0 16 + 1

/-- The depth D of a block layout (Table 11.5 `OLAY`). -/
def layD (o : Nat) : Nat := match o with | 1 => 2 | 2 => 4 | 3 => 16 | 4 => 64 | 5 => 128 | _ => 0

/-- Element i of a packed row (R44). -/
def rowElem (f : Fmt) (row : List Byte) (i : Nat) : Nat := bits (leNat row) (fmtBits f * i) (fmtBits f)

/-- Pack elements into bytes, padded with zeros to a multiple of `n` bytes. -/
def packRow (f : Fmt) (es : List Nat) (n : Nat) : List Byte :=
  let len := (es.length * fmtBits f + 7) / 8
  leBytes ((len + n - 1) / n * n) (packElems f es)

/-- The output of a transposing copy (R371): the transpose row by row, or in weight blocks of 32 columns and D rows. -/
def transposeOut (f : Fmt) (olay r c : Nat) (rows : List (List Nat)) : List Byte :=
  let col (j : Nat) : List Nat := (List.range r).map fun i => lget 0 (rows[i]?.getD []) j
  if olay == 0 then (List.range c).flatMap fun j => packRow f (col j) 32
  else
    let dd := layD olay
    let blocks := (r + dd - 1) / dd
    (List.range ((c + 31) / 32)).flatMap fun g =>
      (List.range blocks).flatMap fun b =>
        packRow f ((List.range 32).flatMap fun j =>
          (List.range dd).map fun i =>
            let jj := 32 * g + j
            let ii := dd * b + i
            if jj < c && ii < r then lget 0 (rows[ii]?.getD []) jj else 0) 1

/-- The bytes a copy writes. -/
def copyLen (d : List W64) : Nat :=
  if cdCop d == 2 then
    let f := cdEfmt d
    if cdOlay d == 0 then cdCols d * (((cdRows d * fmtBits f + 7) / 8 + 31) / 32 * 32)
    else
      let dd := layD (cdOlay d)
      (cdCols d + 31) / 32 * ((cdRows d + dd - 1) / dd) * ((32 * dd * fmtBits f + 7) / 8)
  else cdLen d

/-- The bytes a copy reads from its source. -/
def srcLen (d : List W64) : Nat :=
  if cdCop d == 4 then cdLen d / 4096 * 4112
  else if cdCop d == 2 then (cdRows d - 1) * cdSrstr d + (cdCols d * fmtBits (cdEfmt d) + 7) / 8
  else if cdCop d == 3 then 0 else cdLen d

/-- A module range lies in a protected segment of HBM. -/
def rangeProt (s : State) (a n : Nat) : Bool :=
  inHbm s a && (cutPages a n).any fun p => match segOf s ((a + p.1) / 4096) with
    | some e => sgProt e
    | none => false

/-- Every HBM byte of a module range lies in protected segments. -/
def allProt (s : State) (a n : Nat) : Bool :=
  (cutPages a n).all fun p => match segOf s ((a + p.1) / 4096) with
    | some e => sgProt e
    | none => false

/-- Every page of a module range lies in protected HBM or in SRAM of the wafer. -/
def keepsProt (s : State) (a n : Nat) : Bool :=
  (cutPages a n).all fun p => if inHbm s (a + p.1) then allProt s (a + p.1) p.2 else (onWafer (a + p.1) p.2).isSome

/-- A copy would take protected data out: to host space, or outside protected HBM and the wafer's SRAM (R370). -/
def copyLeaks (s : State) (d : List W64) : Bool :=
  (cdCop d == 1 || cdCop d == 2) && cdSsp d == 0 && rangeProt s (cdSaddr d) (srcLen d) &&
    (cdDsp d != 0 || !keepsProt s (cdDaddr d) (copyLen d))

/-- The first address of a module range that lies outside every mapped range (R360). -/
def unmappedAt (s : State) (a n : Nat) : Option Nat :=
  ((cutPages a n).find? fun p => if inHbm s (a + p.1) then (hbmAt s (a + p.1)).isNone else (onWafer (a + p.1) p.2).isNone).map (a + ·.1)

/-- The module ranges that a copy touches: the rows of a transposing copy, or its source, and its destination. -/
def copyRanges (d : List W64) : List (Nat × Nat) :=
  let src := if cdCop d == 2 then
      (List.range (cdRows d)).map fun r => (cdSaddr d + r * cdSrstr d, (cdCols d * fmtBits (cdEfmt d) + 7) / 8)
    else if cdSsp d == 0 then [(cdSaddr d, srcLen d)] else []
  src ++ (if cdDsp d == 0 then [(cdDaddr d, copyLen d)] else [])

/-- The first unmapped address that a copy touches; such a copy writes nothing (R360). -/
def copyUnmapped (s : State) (d : List W64) : Option Nat := (copyRanges d).findSome? fun r => unmappedAt s r.1 r.2

/-- The checks of a copy descriptor but for that of protected data (R335, R370, R374). -/
def copyOk (s : State) (d : List W64) : Bool :=
  let cop := cdCop d
  let al (sp a n : Nat) : Bool := if sp == 0 then a % 32 == 0 && n % 32 == 0 else a % 4 == 0 && n % 4 == 0
  let bitsRow := cdCols d * fmtBits (cdEfmt d)
  let f := cdEfmt d
  decide (1 ≤ cop) && decide (cop ≤ 4) && decide (cdCls d ≤ 1) && decide (cdReq d ≤ 64) && decide (cdSsp d ≠ 3) &&
    decide (cdDsp d ≠ 3) && bits (cdW d 0) 0 36 == 0 && bits (cdW d 3) 40 24 == 0 && bits (cdW d 6) 32 32 == 0 && cdW d 7 == 0 &&
    (cop == 2 || (bits (cdW d 0) 40 7 == 0 && cdW d 4 == 0)) && (cop == 4 || (cdKslot d == 0 && cdW d 6 == 0)) &&
    (cop == 3 || cop == 4 || cdW d 5 == 0) &&
    (match cop with
    | 1 => al (cdSsp d) (cdSaddr d) (cdLen d) && al (cdDsp d) (cdDaddr d) (cdLen d)
    | 2 => cdSsp d == 0 && inHbm s (cdSaddr d) && cdDsp d == 0 && cdSaddr d % 32 == 0 && cdDaddr d % 32 == 0 &&
        decide (cdOlay d ≤ 5) && decide (f ≠ .none) && decide (f ≠ .e8m0) && decide (cdSrstr d * 8 ≥ bitsRow) &&
        ((f != .fp4 && f != .int4) || cdRows d % 2 == 0) && ((f != .e3m2 && f != .e2m3) || cdRows d % 4 == 0)
    | 3 => al (cdDsp d) (cdDaddr d) (cdLen d)
    | _ => cdLen d % 4096 == 0 && cdSaddr d % 16 == 0 && cdDsp d == 0 && cdDaddr d % 4096 == 0 && inHbm s (cdDaddr d) &&
        allProt s (cdDaddr d) (cdLen d))

/-- The MSD whose physical engine carries out a piece (11.5). -/
def pageMsd (s : State) (e : Nat) (d : List W64) (sa da : Nat) : Nat :=
  let own (a : Nat) : Option Nat := if inHbm s a then (hbmAt s a).map (·.msd) else none
  match (if cdSsp d == 0 && cdCop d != 3 && cdCop d != 4 then own sa else none) with
  | some m => m
  | none => match (if cdDsp d == 0 then own da else none) with
    | some m => m
    | none => 3 * e

/-- The page requests of a copy (R369, assumption 51). -/
def copyPages (s : State) (e : Nat) (d : List W64) : List CopyPage :=
  let mk (i so do_ len : Nat) : CopyPage :=
    ⟨⟨cdSsp d, cdSaddr d + so⟩, ⟨cdDsp d, cdDaddr d + do_⟩, len, pageMsd s e d (cdSaddr d + so) (cdDaddr d + do_), i, none, none, none, none⟩
  match cdCop d with
  | 2 => [mk 0 0 0 (copyLen d)]
  | 4 => (List.range (cdLen d / 4096)).map fun i => mk i (4112 * i) (4096 * i) 4096
  | c =>
    let base := if c == 1 && cdSsp d == 0 && inHbm s (cdSaddr d) then cdSaddr d else cdDaddr d
    (cutPages base (cdLen d)).zipIdx.map fun p => mk p.2 p.1.1 p.1.1 p.1.2

/-- A copy's job by command. -/
def jobOf (s : State) (cmd : Nat) : Option CopyJob := s.copies.find? (·.cmd == cmd)
/-- Change a copy's job. -/
def modJob (s : State) (cmd : Nat) (f : CopyJob → CopyJob) : State :=
  { s with copies := s.copies.map fun j => if j.cmd == cmd then f j else j }

/-- The rank of a page's outcome (R373). -/
def pageRank (o : Outc) : Nat :=
  match o with
  | .fault => 6 | .poisoned => 5 | .refusedFenced => 4 | .refusedQuota => 3 | .doneDeferred => 2 | _ => 1

/-- The longest page wait of a copy in ns. -/
def longestWait (j : CopyJob) : Nat :=
  j.pages.foldl (fun n p => match p.arrive, p.started with
    | some a, some b => if p.ended = some .doneDeferred then max n ((b - a) / 1000) else n
    | _, _ => n) 0

/-- When every page of a copy has ended, its command completes (R373). -/
def copyFinish (s : State) (cmd : Nat) : State :=
  match jobOf s cmd with
  | none => s
  | some j =>
    if j.pages.all fun p => p.ended.isSome then
      let os := j.pages.map fun p => p.ended.getD .done
      let o := os.foldl (fun a b => if pageRank b > pageRank a then b else a) .done
      let bad := (os.filter fun x => x ≠ .done).length
      let s := { s with copies := s.copies.filter (·.cmd != cmd) }
      match (getEng s j.eng).cmds.find? (·.id == cmd) with
      | some c => finishCmd s { c with defer := c.defer + longestWait j } o bad
      | none => s
    else s

/-- End a page of a copy. -/
def endPage (s : State) (cmd i : Nat) (o : Outc) : State :=
  copyFinish (modJob s cmd fun j => { j with pages := lmod j.pages i fun p => { p with ended := some o } }) cmd

/-- COPY (R369 to R371, R374): the next copy of an engine is checked and its pages sent to their MSDs. -/
def execCopy (e : Fin 8) (s : State) : Out :=
  let en := 0x40 + e.val
  let run := ((getEng s en).cmds.filter fun c => c.ph = .work).length
  match (getEng s en).cmds.find? fun c => c.ph = .ready with
  | none => .next s
  | some c =>
    if c.opc != 0x20 || run ≥ 4 || !waitOk s c || s.boot.mst != 5 then .next s
    else
      let d := (List.range 8).map fun i => lget 0 c.words (8 + i)
      if !copyOk s d then .next (failCmd s c .fault 2 0)
      else if copyLeaks s d then .next (failCmd (raiseInc s (mkInc 0x0B21 utCd 1 noTile 0 c.seq)) c .fault 2 0)
      else if cdCop d == 4 && (s.island.slots.find? (·.1 == cdKslot d)).isNone then .next (failCmd s c .fault 0 0)
      else match copyUnmapped s d with
      | some a => .next (failCmd (unmapped s 1 a) c .fault 0 0)
      | none =>
        let pages := copyPages s e.val d
        let s := setPh s c .work
        let s := { s with copies := s.copies ++ [⟨c.id, en, c.port, d, pages, none⟩] }
        let s := pages.zipIdx.foldl (fun s p =>
          let r := msdArrive s p.1.msd ⟨cdCls d, cdReq d, p.1.len, 0, .page c.id p.2, none, false⟩
          if r.2 = .done then modJob r.1 c.id fun j => { j with pages := lmod j.pages p.2 fun q => { q with arrive := some (nowPs s) } }
          else modJob r.1 c.id fun j => { j with pages := lmod j.pages p.2 fun q => { q with ended := some r.2 } }) s
        .next (copyFinish s c.id)

/-- Read the rows of a transposing copy. -/
def readRows (s : State) (die : Nat) (d : List W64) : List (List Nat) × Bool × Outc × State :=
  (List.range (cdRows d)).foldl (fun acc r =>
    if acc.2.2.1 ≠ .done then acc
    else
      let x := modRead acc.2.2.2 die (cdSaddr d + r * cdSrstr d) ((cdCols d * fmtBits (cdEfmt d) + 7) / 8)
      (acc.1 ++ [(List.range (cdCols d)).map (rowElem (cdEfmt d) (x.1.map (·.1)))], acc.2.1 || anyPoi x.1, x.2.1, x.2.2)) ([], false, .done, s)

/-- What a page writes: its bytes with poison, whether it was poisoned, and the outcome of reading them; `none` when the
host's data has not come. -/
def pageData (s : State) (j : CopyJob) (p : CopyPage) : Option (List PByte × Outc × State) :=
  let d := j.desc
  match cdCop d with
  | 2 =>
    let r := readRows s (dieMsd p.msd) d
    some ((transposeOut (cdEfmt d) (cdOlay d) (cdRows d) (cdCols d) r.1).map fun b => (b, r.2.1), r.2.2.1, r.2.2.2)
  | 3 => some ((List.range p.len).map fun i =>
      (BitVec.ofNat 8 (bits (cdW d 5) (8 * ((p.dst.addr - cdDaddr d + i) % 8)) 8), false), .done, s)
  | _ =>
    if p.src.space == 0 then some (modRead s (dieMsd p.msd) p.src.addr (if cdCop d == 4 then 4112 else p.len))
    else p.data.map fun x => (x, .done, s)

/-- Write a page's bytes to its destination. -/
def pageWrite (s : State) (p : CopyPage) (bs : List PByte) : Option (State × Outc) :=
  if p.dst.space == 0 then modWrite s (dieMsd p.msd) p.dst.addr bs
  else some (hostWrite s (p.dst.space - 1) p.dst.addr (bs.map (·.1)), .done)

/-- A page of a copy leaves service at its MSD; its bytes are freed (R377). -/
def unserve (s : State) (m cmd page : Nat) : State :=
  modMsd s m fun x =>
    let x := (x.serv.filter fun r => r.what = .page cmd page).foldl (freeBytes s.time.ticks) x
    { x with serv := x.serv.filter fun r => r.what ≠ .page cmd page }

/-- The buffer of a page in service failed (R498). -/
def pageBad (s : State) (m cmd page : Nat) : Bool := (getMsd s m).serv.any fun r => r.bad && r.what = .page cmd page

/-- The outcome of a page that moved its bytes (R373, R377). -/
def pageDone (s : State) (d : List W64) (p : CopyPage) (poi : Bool) : Outc :=
  if poi then .poisoned
  else match p.arrive, p.started with
    | some a, some b => if tooLate (getMsd s p.msd) (cdCls d) (b - a) then .doneDeferred else .done
    | _, _ => .done

/-- A page of a copy that is in service and has not ended. -/
def servedPage (s : State) (cmd i : Nat) : Option (CopyJob × CopyPage) :=
  match jobOf s cmd with
  | some j => match j.pages[i]? with
    | some p => if p.started.isSome && p.ended.isNone then some (j, p) else none
    | none => none
  | none => none

/-- The segment table that the pages of a copy are carried out under, when it is not the present one (Table 11.8). -/
def jobSeg (s : State) (cmd : Nat) : Option (SMap (W64 × W64)) := (jobOf s cmd).bind (·.seg)

/-- A page goes through the data network: to or from a tile. -/
def pageOnWafer (s : State) (j : CopyJob) (p : CopyPage) : Bool :=
  p.src.space == 0 && cdCop j.desc != 3 && !inHbm s p.src.addr || p.dst.space == 0 && !inHbm s p.dst.addr

/-- A page in service moves its bytes and ends (R373), when the links actuator lets it into the data network (R555). -/
def copyPageEnd (cmd i : Nat) (s : State) : State :=
  match servedPage s cmd i with
  | none => s
  | some (j, p) =>
    if cdCop j.desc == 4 || pageOnWafer s j p && !linkOpen s then s
    else if p.dst.space != 0 && !portTold s (p.dst.space - 1) then endPage (unserve s p.msd cmd i) cmd i .fault
    else match pageData s j p with
      | none => s
      | some (got, o, s1) =>
        let bs := if pageBad s p.msd cmd i then got.map fun b => (b.1, true) else got
        if o ≠ .done then endPage (unserve s1 p.msd cmd i) cmd i o
        else match pageWrite s1 p bs with
          | none => modWait s p.dst.addr bs.length
          | some (s2, o) => endPage (unserve s2 p.msd cmd i) cmd i (if o ≠ .done then o else pageDone s2 j.desc p (anyPoi bs))

/-- COPY_PAGE_COMPLETE (R373): a page in service moves its bytes and ends; the last one completes the command. -/
def execCopyPageComplete (cmd i : Nat) (s : State) : Out := .next (withSeg (jobSeg s cmd) s fun s => (copyPageEnd cmd i s, ())).1

/-- A chunk in service is decrypted and its tag checked; the page is written, or written as stored poison (R374, R375). -/
def decryptEnd (cmd i : Nat) (s : State) : State :=
  match servedPage s cmd i with
  | none => s
  | some (j, p) =>
    let d := j.desc
    if cdCop d != 4 then s
    else match pageData s j p with
      | none => s
      | some (got, o, s1) =>
        let bs := if pageBad s p.msd cmd i then got.map fun b => (b.1, true) else got
        if o ≠ .done then endPage (unserve s1 p.msd cmd i) cmd i o
        else
          let raw := bs.map (·.1)
          let key := (mget ⟨0, 0, 0⟩ s1.island.slots (cdKslot d)).key
          let iv := leBytes 8 (cdW d 5) ++ leBytes 4 p.chunk
          let aad := leBytes 4 (bits (cdW d 6) 0 32) ++ leBytes 4 p.chunk ++ leBytes 8 (cdLen d)
          let plain := if anyPoi bs || (getMsd s1 p.msd).keys.lookup (cdKslot d) ≠ some key then none
            else Config.gcmOpen key iv aad (raw.take 4096) (raw.drop 4096)
          match plain with
          | some t =>
            match pageWrite s1 p (clean ((t ++ List.replicate 4096 0).take 4096)) with
            | some (s2, o) => endPage (unserve s2 p.msd cmd i) cmd i (if o ≠ .done then o else pageDone s2 d p false)
            | none => modWait s p.dst.addr 4096
          | none =>
            let s1 := raiseInc s1 (mkInc 0x0B20 utMsd (dieMsd p.msd) noTile 0 p.chunk)
            match pageWrite s1 p (List.replicate 4096 (0, true)) with
            | some (s2, _) => endPage (unserve s2 p.msd cmd i) cmd i .fault
            | none => modWait s p.dst.addr 4096

/-- DECRYPT_CHUNK (R374, R375): chunk `i` of a decrypting copy is decrypted and its tag checked. -/
def execDecryptChunk (cmd i : Nat) (s : State) : Out := .next (withSeg (jobSeg s cmd) s fun s => (decryptEnd cmd i s, ())).1

end Sys2Proof.Machine
end

