-- ==== Sys2Proof/Machine/PdCore.lean ====
section
/-!
DEFINITION. The port dies (chapter 12): ports and their constants, the instrument table, the replay ring and the egress
journal, and the outcome of events.
-/
namespace Sys2Proof.Machine
open Sys2Proof

/-! ### Access -/

/-- A port die. -/
def getPd (s : State) (d : Nat) : Pd := mget Pd.reset s.pds d
/-- Replace a port die. -/
def setPd (s : State) (d : Nat) (x : Pd) : State := { s with pds := mset Pd.reset s.pds d x }
/-- Change a port die. -/
def modPd (s : State) (d : Nat) (f : Pd → Pd) : State := setPd s d (f (getPd s d))
/-- A port of a die, by first lane. -/
def getPort (s : State) (d p : Nat) : PdPort := mget PdPort.reset (getPd s d).ports p
/-- Change a port. -/
def modPort (s : State) (d p : Nat) (f : PdPort → PdPort) : State :=
  modPd s d fun x => { x with ports := mset PdPort.reset x.ports p (f (mget PdPort.reset x.ports p)) }
/-- Count in one of a port's counters (Table 17.1, set 0x21). -/
def portCount (s : State) (d p i : Nat) : State :=
  modPort s d p fun x => { x with ctr := mset 0 x.ctr i (satAdd 48 (mget 0 x.ctr i) 1) }

/-- An incident of a port die (R500). -/
def pdInc (cls d ix detail : Nat) : Inc := mkInc cls utPd (diePd d) noTile ix detail

/-- Module time in units of 0.25 ns (R386). -/
def nowQuarter (s : State) : Nat := s.time.modTime * 4 / (5 * 2 ^ 32)

/-- A timestamp the die's clock gives at a moment (R387): while module time is locked it lies within 1 ns of the die's time,
which lies within 2 ns of the CD's. -/
def stampAt (s : State) (t : Nat) (dts : Int) : Nat :=
  let e := if s.tc.lock then max (-12) (min 12 dts) else dts
  ((t : Int) + e).toNat % 2 ^ 64

/-! ### Ports (R381 to R385) -/

/-- Fields of `PD_PCFG`. -/
def pcEntry (w : W64) : Nat := bits w.toNat 40 8
def pcMtu (w : W64) : Nat := bits w.toNat 26 14
def pcCut (w : W64) : Bool := bit w.toNat 23
def pcPtp (w : W64) : Bool := bit w.toNat 22
def pcAn (w : W64) : Bool := bit w.toNat 21
def pcFec (w : W64) : Nat := bits w.toNat 16 4
def pcMode (w : W64) : Nat := bits w.toNat 12 4

/-- Lanes of a mode (Table 12.1). -/
def modeLanes (m : Nat) : Nat := if m == 0 then 0 else if m == 7 || m == 8 then 4 else 1

/-- The FEC codes a mode allows (Table 12.1, R384). -/
def fecOk (m f : Nat) : Bool :=
  match m with
  | 0 => f == 0
  | 1 => decide (f ≤ 1)
  | 2 => decide (f ≤ 2)
  | _ => f == 3

/-- The TX delay of Table 12.2 in 0.1 ns. -/
def txDelay (m f : Nat) : Nat :=
  match m, f with
  | 1, 0 => 896
  | 1, _ => 1056
  | 2, 0 => 636
  | 2, 1 => 700
  | 2, _ => 768
  | 3, _ | 4, _ => 608
  | 5, _ | 6, _ => 528
  | _, _ => 488

/-- A lane is the first lane of an enabled port. -/
def portOn (x : Pd) (p : Nat) : Bool := decide (p < 16) && pcMode (mget PdPort.reset x.ports p).cfg != 0

/-- A lane belongs to an enabled four-lane port other than one that starts on it (R382). -/
def laneTaken (x : Pd) (p : Nat) : Bool :=
  p % 4 != 0 && modeLanes (pcMode (mget PdPort.reset x.ports (p / 4 * 4)).cfg) == 4

/-- The checks of R384 on a write of `PD_PCFG[p]`. -/
def pcfgOk (x : Pd) (p : Nat) (w : W64) : Bool :=
  let m := pcMode w
  let four := modeLanes m == 4
  bits w.toNat 48 16 == 0 && bits w.toNat 24 2 == 0 && bits w.toNat 0 12 == 0 && decide (m ≤ 8) &&
    !laneTaken x p && (!four || (p % 4 == 0 && !(portOn x (p + 1)) && !(portOn x (p + 2)) && !(portOn x (p + 3)))) &&
    fecOk m (pcFec w) && (m == 0 || (decide (64 ≤ pcMtu w) && decide (pcMtu w ≤ 9216))) &&
    !((m == 1 || m == 2) && pcAn w)

/-- A port can send and receive frames: enabled, link up, its die running. -/
def portLive (s : State) (d p : Nat) : Bool :=
  !(getPd s d).inReset && portOn (getPd s d) p && (getPort s d p).up

/-! ### Instrument table (R395 to R399) -/

/-- The candidate buckets of a key (R395). -/
def instBuckets (k : W64) : Nat × Nat :=
  let lo : W32 := BitVec.ofNat 32 k.toNat
  let hi : W32 := BitVec.ofNat 32 (k.toNat / 2 ^ 32)
  ((hmix lo hi).toNat % 65536, 65536 + (hmix hi (lo ^^^ 0x5BD1E995#32)).toNat % 65536)

/-- First location of the stash. -/
def stash0 : Nat := 524288

/-- Keys of a die's memories in `Pd.err` (R498); instrument locations are keys themselves. -/
def pdTmplKey (i : Nat) : Nat := 2 ^ 20 + i
def pdGuardKey (g : Nat) : Nat := 2 * 2 ^ 20 + g
def pdParseKey (i : Nat) : Nat := 3 * 2 ^ 20 + i

/-- A read of a word of a die's tables (R498): a correctable error is corrected, written back and raised; the answer says that the word is
uncorrectable. The host must rewrite such an entry, so its error stays. -/
def pdMemRead (s : State) (d key : Nat) : State × Bool :=
  match mget 0 (getPd s d).err key with
  | 0 => (s, false)
  | 1 => (raiseCoal (modPd s d fun x => { x with err := mset 0 x.err key 0 }) (pdInc 0x0101 d 0 key), false)
  | _ => (s, true)

/-- An uncorrectable entry of a die's tables is raised; the detail names table and index (R498, assumption 98). -/
def pdTableBad (s : State) (d key : Nat) : State := raiseInc s (pdInc 0x0907 d 0 key)

/-- The locations a key may have: its two buckets, then the stash. -/
def instPlaces (k : W64) : List Nat :=
  let b := instBuckets k
  (List.range 4).map (4 * b.1 + ·) ++ (List.range 4).map (4 * b.2 + ·) ++ (List.range 64).map (stash0 + ·)

/-- An entry that is free. The table lists an entry only while it holds an instrument. -/
def instAt (x : SMap (W64 × W64)) (loc : Nat) : Option (W64 × W64) := x.lookup loc

/-- Lookup (R395): the entry of a key and its location. -/
def instFind (x : SMap (W64 × W64)) (k : W64) : Option (Nat × (W64 × W64)) :=
  (instPlaces k).findSome? fun l => match instAt x l with
    | some e => if e.1 = k then some (l, e) else none
    | none => none

/-- A lookup reads both buckets and the stash (R395); an entry that is uncorrectable makes it a miss (R498). -/
def instRead (s : State) (d : Nat) (k : W64) : State × Option (W64 × W64) :=
  let s := (instPlaces k).foldl (fun s l => (pdMemRead s d l).1) s
  match instFind (getPd s d).insts k with
  | some (l, e) => if (pdMemRead s d l).2 then (pdTableBad s d l, none) else (s, some e)
  | none => (s, none)

/-- Fields of word 1 of an instrument entry (Table 12.5). -/
def ieEn (w : W64) : Bool := bit w.toNat 63
def ieLat (w : W64) : Bool := bit w.toNat 62
def ieRpl (w : W64) : Bool := bit w.toNat 61
def ieGgrp (w : W64) : Nat := bits w.toNat 57 4
def ieApt (w : W64) : Nat := bits w.toNat 55 2
def ieOrd (w : W64) : Bool := bit w.toNat 54
def ieSlot (w : W64) : Nat := bits w.toNat 23 20
def ieDq (w : W64) : Nat := bits w.toNat 0 23

/-- Hops between two tiles on the torus of links. -/
def hops (a b : Nat) : Nat :=
  let d (n x y : Nat) : Nat := min ((x + n - y) % n) ((y + n - x) % n)
  d 100 (tileX a) (tileX b) + d 110 (tileY a) (tileY b)

/-- The attach port of a port die with the fewest hops to a tile (R398); the lowest-numbered of equals. -/
def nearPort (d t : Nat) : Nat :=
  (List.range 4).foldl (fun best k =>
    if hops (attachTile (diePd d) k) t < hops (attachTile (diePd d) best) t then k else best) 0

/-! ### Replay ring and journal (R418 to R421) -/

/-- Bytes of a ring. -/
def logSize (l : LogRing) : Nat := bits l.cfg.toNat 40 24 * 4096
/-- Module address of a ring. -/
def logBase (l : LogRing) : Nat := bits l.cfg.toNat 0 36 * 4096

/-- Remove the record at `HEAD` (R418). -/
def logTake (sz : Nat) (l : LogRing) : LogRing :=
  match l.recs with
  | [] => l
  | x :: rest =>
    let padded := decide (x.ofs = 0) && decide (l.head ≠ 0)
    let u := (if padded then l.used - (sz - l.head) else l.used) - x.data.length
    let h := (if padded then 0 else l.head) + x.data.length
    if u == 0 then { l with head := 0, tail := 0, used := 0, recs := rest, base := l.base + 1 }
    else { l with head := if h ≥ sz then 0 else h, used := u, recs := rest, base := l.base + 1 }

/-- Where a record goes in a ring, as the placement rule has it (R237). -/
def logPlace (sz : Nat) (l : LogRing) (len : Nat) : Option (Option (Nat × Nat) × Nat) :=
  ringPlace sz { RingRt.empty with head := l.head, tail := l.tail, used := l.used } len

/-- Remove records from `HEAD` until there is room (R418). -/
def logRoom (sz len : Nat) : Nat → LogRing → LogRing
  | 0, l => l
  | n + 1, l => if (logPlace sz l len).isSome || l.recs.isEmpty then l else logRoom sz len n (logTake sz l)

/-- The pieces of 32-byte blocks that cover a range, cut at 4 KiB (R367). -/
def blockCuts (ofs n : Nat) : List (Nat × Nat) :=
  let lo := ofs / 32 * 32
  let hi := (ofs + n + 31) / 32 * 32
  (cutPages lo (hi - lo)).map fun c => (lo + c.1, c.2)

/-- Put bytes in what the die has written of a ring. -/
def logBytes (l : LogRing) (ofs : Nat) (bs : List Byte) : LogRing :=
  { l with img := bs.zipIdx.foldl (fun m e => mset 0 m (ofs + e.2) e.1) l.img }

/-- The header of a PAD of a replay ring. -/
def padBytes (n : Nat) : List Byte := leBytes 8 (0xF * 2 ^ 37 + n)

/-- Send an `MWR` of a port die (system class, `REQ` 65). Its replies come back under sub-address 0x801 for the replay ring
and 0x802 for the journal; an unmapped address raises 0x0110. -/
def pdMwr (s : State) (d sub a : Nat) (data : List Byte) : State × Bool :=
  match hbmAt s a with
  | some h =>
    (putPacket s (newPacket (edgeMake (diePd d) 0 sub) (hbmEdge s h) 0 0 (.mwr a (65 + 2 * 128) false .done data []) (.die (diePd d) 0) 0), true)
  | none => (raiseInc s (pdInc 0x0110 d 0 a), false)

/-- A ring of a die: the journal, or the replay ring. -/
def getLog (s : State) (d : Nat) (jn : Bool) : LogRing := if jn then (getPd s d).journal else (getPd s d).replay
/-- Replace a ring of a die. -/
def setLog (s : State) (d : Nat) (jn : Bool) (l : LogRing) : State :=
  modPd s d fun x => if jn then { x with journal := l } else { x with replay := l }

/-- A complete record joins those that wait to be written; a ring that is off takes none. -/
def logAdd (s : State) (d : Nat) (jn : Bool) (data : List Byte) (mark : Option Nat) (supp : Bool) : State :=
  let l := getLog s d jn
  if logSize l == 0 then s else setLog s d jn { l with wait := l.wait ++ [⟨0, data, mark, false, supp, nowPs s⟩] }

/-- The bytes of a gap record: 16 of the replay ring (Table 12.12), 32 of the journal (R421). -/
def gapRec (jn : Bool) (lost : Nat) : List Byte :=
  if jn then leBytes 8 0xF ++ leBytes 16 0 ++ leBytes 8 lost else leBytes 8 (4 * 2 ^ 37 + 16) ++ leBytes 8 lost

/-- A refused write (R419, R421): the offsets keep the values they had, the outage is raised once, and the records that
are complete are lost. -/
def logRefused (s : State) (d : Nat) (jn : Bool) : State :=
  let l := getLog s d jn
  let back := match l.undo with
    | some u => { l with head := u.head, tail := u.tail, used := u.used, recs := u.recs, base := u.base }
    | none => l
  let s := if l.outage then s else raiseCoal s (pdInc 0x0906 d 0 (ofBit jn))
  setLog s d jn { back with undo := none, out := 0, bad := false, outage := true,
                            lost := l.lost + l.wait.length + (if l.outage then 0 else 1), wait := [] }

/-- A write that every member took. -/
def logWritten (s : State) (d : Nat) (jn : Bool) : State :=
  let l := getLog s d jn
  setLog s d jn { l with undo := none, out := 0, bad := false, lost := if l.outage then 0 else l.lost, outage := false }

/-- Write a record: place it, removing the oldest as needed, and send its blocks (R418, R419). -/
def logWrite (s : State) (d : Nat) (jn : Bool) (r : LogRec) : State :=
  let l := getLog s d jn
  let sz := logSize l
  let undo : LogUndo := ⟨l.head, l.tail, l.used, l.recs, l.base⟩
  let l1 := logRoom sz r.data.length (l.recs.length + 1) l
  match logPlace sz l1 r.data.length with
  | none => s
  | some pl =>
    let padn := match pl.1 with
      | some p => p.2
      | none => 0
    let l2 := match pl.1 with
      | some p => logBytes l1 p.1 ((padBytes p.2).take p.2)
      | none => l1
    let l2 := logBytes l2 pl.2 r.data
    let t := pl.2 + r.data.length
    let l3 := { l2 with head := if l1.used == 0 then 0 else l1.head, tail := if t ≥ sz then 0 else t,
                        used := l1.used + padn + r.data.length, recs := l1.recs ++ [{ r with ofs := pl.2 }] }
    let cuts := (match pl.1 with
      | some p => blockCuts p.1 (min p.2 8)
      | none => []) ++ blockCuts pl.2 r.data.length
    let s := setLog s d jn { l3 with undo := some undo, out := cuts.length, bad := false }
    let send := cuts.foldl (fun (acc : State × Bool) c =>
      let m := pdMwr acc.1 d (if jn then 0x802 else 0x801) (logBase l + c.1)
        ((List.range c.2).map fun i => mget 0 l3.img (c.1 + i))
      (m.1, acc.2 && m.2)) (s, true)
    if send.2 then send.1 else logRefused send.1 d jn

/-- A reply to a write of a ring (R368: matched by count). -/
def logReply (s : State) (d : Nat) (jn : Bool) (o : Outc) : State :=
  let l := getLog s d jn
  if l.out == 0 then s
  else
    let bad := l.bad || (decide (o ≠ .done) && decide (o ≠ .doneDeferred))
    if l.out > 1 then setLog s d jn { l with out := l.out - 1, bad := bad }
    else if bad then logRefused s d jn else logWritten s d jn

/-- REPLAY_RECORD_WRITE (R419, R421): the next record that waits is written; while writing fails, a gap record with the
count of the records lost is tried first. -/
def execReplayRecordWrite (d : Fin 6) (journal : Bool) (s : State) : Out :=
  let l := getLog s d.val journal
  if (getPd s d.val).inReset || l.out != 0 || logSize l == 0 then .next s
  else if l.outage then .next (logWrite s d.val journal ⟨0, gapRec journal l.lost, none, false, false, nowPs s⟩)
  else match l.wait with
    | [] => .next s
    | r :: rest => .next (logWrite (setLog s d.val journal { l with wait := rest }) d.val journal r)

/-! ### Outcomes of events (R402, R403, R419) -/

/-- Words 0 to 2 of an event (Table 12.6). -/
def evWords (e : Ev) : List Nat :=
  [e.ts, e.key.toNat,
   e.fseq * 2 ^ 40 + e.slot * 2 ^ 20 + e.port * 2 ^ 13 + e.ggrp * 2 ^ 9 + ofBit e.lat * 2 ^ 8 + ofBit e.fcsx * 2 ^ 7 +
     e.midx * 2 ^ 4 + (e.fields.length + 7) / 8 * 2]

/-- The field area of an event, zero beyond what the program appended. -/
def evFields (e : Ev) (n : Nat) : List Byte := (e.fields ++ List.replicate n 0).take n

/-- The eight words of an event (Table 12.6). -/
def evEntries (e : Ev) : List QEnt :=
  let f := evFields e 40
  ((evWords e) ++ (List.range 5).map fun i => leNat ((f.drop (8 * i)).take 8)).map fun w => ⟨BitVec.ofNat 64 w, false, false⟩

/-- `RTYP` of an event's record (R419). -/
def evTyp (e : Ev) (o : Outc) : Nat := if o = .done || (o = .timeout && e.byTimer) then 1 else 2

/-- The replay record of an event (Table 12.12). -/
def evRecord (e : Ev) (o : Outc) : List Byte :=
  let n := (e.fields.length + 7) / 8 * 8
  leBytes 8 (e.dq * 2 ^ 41 + evTyp e o * 2 ^ 37 + outcCode o * 2 ^ 33 + ofBit e.rpl * 2 ^ 32 + ofBit e.fcse * 2 ^ 31 + (32 + n)) ++
    (evWords e).flatMap (leBytes 8) ++ evFields e n

/-- A queue address lies in a suppressed rectangle of a group; `none` for one of any group. -/
def inSupp (x : Pd) (g : Option Nat) (t : Nat) : Bool :=
  x.supps.any fun r => (match g with
    | some k => r.group == k
    | none => true) && inCorners r.t0 r.t1 t

/-- An event is complete (R419). -/
def evComplete (e : Ev) : Bool := e.outc.isSome && (!e.fcsx || e.checked)

/-- Complete events leave the die: their records join those that wait, in the order in which they became complete; an event
that a recovery re-sends writes none (R419, R513). -/
def pdLogEvents (s : State) (d : Nat) : State :=
  let x := getPd s d
  let done := x.evs.filter evComplete
  let s := setPd s d { x with evs := x.evs.filter fun e => !evComplete e }
  done.foldl (fun s e => match e.outc with
    | some o =>
      let lane := e.port % 16
      let s := if e.replayOf then s
        else
          let s := if o = .timeout then portCount s d lane 9 else s
          if evTyp e o == 2 then portCount s d lane 8 else s
      if e.replayOf then s else logAdd s d false (evRecord e o) none e.supp
    | none => s) s

/-- Events that may leave but whose queue lies in a suppressed rectangle are decided DONE and left to the replay (R512). -/
def pdSuppress (s : State) (d : Nat) : State :=
  let x := getPd s d
  setPd s d { x with evs := x.evs.map fun e =>
    if e.ready && e.idx.isNone && e.outc.isNone && !e.replayOf && inSupp x none (qaTile e.dq) then
      { e with outc := some .done, supp := true }
    else e }

/-- Bring a die's events up to date: suppression, then records. -/
def pdSettle (s : State) (d : Nat) : State := pdLogEvents (pdSuppress s d) d

/-- The reply to an event (R401, R403): in time it gives the event its outcome, in the deadline cycle it is counted as a tie; a later one is
discarded. -/
def eventReply (s : State) (d ix : Nat) (o : Outc) : State :=
  let x := getPd s d
  match x.evs.find? fun e => e.idx == some ix && e.outc.isNone with
  | some e =>
    if pastPs s (e.sentAt + 10000000) then s
    else pdSettle (setPd s d { x with
      evs := x.evs.map fun y => if y.id == e.id then { y with outc := some o, idx := none } else y
      tie := if atPs s (e.sentAt + 10000000) then satAdd 16 x.tie 1 else x.tie }) d
  | none => s

end Sys2Proof.Machine
end

