-- ==== Sys2Proof/Machine/PdParse.lean ====
section
/-!
DEFINITION. Frames and parse programs (12.2, 12.3): reception, the native decode, the twenty parse instructions, and the
end of a frame.
-/
namespace Sys2Proof.Machine
open Sys2Proof

/-! ### Native decode (R390, Table 12.3) -/

/-- A byte of a frame; zero past its end. -/
def fByte (f : List Byte) (i : Nat) : Nat := (lget 0 f i).toNat
/-- A big-endian 16-bit field of a frame. -/
def fHalf (f : List Byte) (i : Nat) : Nat := fByte f i * 256 + fByte f (i + 1)

/-- What the native decode finds: VLAN tags, offset of the EtherType, the IP header, UDP header, whether IPv4 and IPv6, a
fragment, and the IP protocol or next header. -/
structure Decode where
  tags : Nat
  et : Nat
  ip : Option Nat
  udp : Option Nat
  v4 : Bool
  v6 : Bool
  frag : Bool
  proto : Nat
  deriving DecidableEq, Repr

/-- An EtherType of a VLAN tag. -/
def isVlan (e : Nat) : Bool := e == 0x8100 || e == 0x88A8

/-- The native decode of a frame (R390). A header that the frame does not hold whole counts as absent. -/
def decodeFrame (f : List Byte) : Decode :=
  let tags := if isVlan (fHalf f 12) then (if isVlan (fHalf f 16) then 2 else 1) else 0
  let et := 12 + 4 * tags
  let ip := et + 2
  let ihl := fByte f ip % 16 * 4
  let v4 := fHalf f et == 0x0800 && fByte f ip / 16 == 4 && decide (ihl ≥ 20) && decide (ip + ihl ≤ f.length)
  let v6 := fHalf f et == 0x86DD && fByte f ip / 16 == 6 && decide (ip + 40 ≤ f.length)
  let frag := v4 && fHalf f (ip + 6) % 0x4000 != 0
  let proto := if v4 then fByte f (ip + 9) else if v6 then fByte f (ip + 6) else 0
  let u := if v4 then ip + ihl else ip + 40
  let isU := (v4 || v6) && !frag && proto == 17 && decide (u + 8 ≤ f.length)
  ⟨tags, et, if v4 || v6 then some ip else none, if isU then some u else none, v4, v6, frag, proto⟩

/-- Base `i` of Table 12.3. -/
def decBase (x : Decode) (i : Nat) : Option Nat :=
  match i with
  | 0 => some 0
  | 1 => some x.et
  | 2 => x.ip
  | 3 => x.udp
  | _ => x.udp.map (· + 8)

/-- `v6` of Table 12.3. -/
def decV6 (x : Decode) : Nat :=
  x.tags + ofBit x.v4 * 4 + ofBit x.v6 * 8 + ofBit x.udp.isSome * 16 + ofBit x.frag * 32 + x.proto * 256
/-- `v7` of Table 12.3. -/
def decV7 (f : List Byte) (x : Decode) : Nat :=
  match x.udp with
  | some u => fHalf f u * 65536 + fHalf f (u + 2)
  | none => 0

/-- A frame that a port with `PTPEN` hands to the CD (R389). -/
def isPtp (f : List Byte) : Bool :=
  let x := decodeFrame f
  fHalf f x.et == 0x88F7 || (match x.udp with
    | some u => fHalf f (u + 2) == 319 || fHalf f (u + 2) == 320
    | none => false)

/-- A MAC Control frame (R381). -/
def isMacCtl (f : List Byte) : Bool := fHalf f 12 == 0x8808

/-! ### Engines (R391, R394) -/

/-- A parse engine of a die. -/
def getEngine (x : Pd) (l : Nat) : ParseEng := mget ParseEng.idle x.parsers l
/-- Replace a parse engine. -/
def putEngine (x : Pd) (l : Nat) (e : ParseEng) : Pd := { x with parsers := mset ParseEng.idle x.parsers l e }
/-- A frame by number. -/
def getFrame (x : Pd) (n : Nat) : Option OutFrame := x.frames.find? (·.n == n)

/-- The engine begins a frame: every register zero but `v6` and `v7` (R391). -/
def beginFrame (f : OutFrame) : ParseEng :=
  let x := decodeFrame f.data
  { ParseEng.idle with
    frame := some f.n, pc := pcEntry f.cfg,
    v := mset 0 (mset 0 [] 6 (BitVec.ofNat 32 (decV6 x))) 7 (BitVec.ofNat 32 (decV7 f.data x)) }

/-- A frame leaves the die when it has ended and no engine holds it. -/
def dropFrames (x : Pd) : Pd :=
  { x with frames := x.frames.filter fun f =>
      !f.ended || x.parsers.any fun e => e.2.frame == some f.n || e.2.wait == some f.n }

/-- The program of an engine ends; the frame that waits begins. -/
def endProgram (x : Pd) (l : Nat) : Pd :=
  let e := getEngine x l
  let nxt := e.wait.bind (getFrame x)
  dropFrames (putEngine x l (match nxt with
    | some f => beginFrame f
    | none => ParseEng.idle))

/-- The engines of a port: one, or four in rotation (12.3). -/
def portEngines (x : Pd) (p : Nat) : List Nat :=
  let pt := mget PdPort.reset x.ports p
  if modeLanes (pcMode pt.cfg) == 4 then (List.range 4).map fun i => p + (pt.turn + i) % 4 else [p]

/-- A frame is given to the next engine of its port with room; `none` when every engine holds two (R394). -/
def giveFrame (x : Pd) (f : OutFrame) : Option Pd :=
  match (portEngines x f.port).find? fun l => (getEngine x l).wait.isNone with
  | none => none
  | some l =>
    let e := getEngine x l
    let x := { x with frames := x.frames ++ [f], nextFrame := x.nextFrame + 1,
                      ports := mmod PdPort.reset x.ports f.port fun p => { p with turn := (l - f.port + 1) % 4 } }
    some (putEngine x l (if e.frame.isNone then beginFrame f else { e with wait := some f.n }))

/-- FRAME_RECEIVED (R387, R389, R394): a frame starts at a port's pins. `data` are its bytes without the FCS, `dts` the error
of its timestamp in 0.25 ns. -/
def execFrameReceived (d : Fin 6) (p : Fin 16) (data : List Byte) (fcsOk : Bool) (dts : Int) (s : State) : Out :=
  if !portLive s d.val p.val || laneTaken (getPd s d.val) p.val then .next s
  else
    let cfg := (getPort s d.val p.val).cfg
    let s := portCount s d.val p.val 0
    if isMacCtl data then .next (portCount s d.val p.val 10)
    else if pcPtp cfg && isPtp data then .next s
    else if s.power.pilot != 0 then .next (portCount s d.val p.val 4)
    else
      let x := getPd s d.val
      match giveFrame x ⟨x.nextFrame, p.val, cfg, data, fcsOk, stampAt s (nowQuarter s) dts, false, false⟩ with
      | some x => .next (setPd s d.val x)
      | none => .next (raiseCoal (portCount s d.val p.val 4) (pdInc 0x0903 d.val p.val 0))

/-- PTP_FRAME (R388, R389): a PTP frame on a port that carries PTP goes to the CD and never to the parse program. -/
def execPtpFrame (d : Fin 6) (p : Fin 16) (data : List Byte) (s : State) : Out :=
  if portLive s d.val p.val && pcPtp (getPort s d.val p.val).cfg && isPtp data && !isMacCtl data then
    .next (portCount s d.val p.val 0)
  else .next s

/-! ### Instructions (R391 to R393) -/

/-- Fields of a parse instruction (Table 12.4). -/
def piOp (w : Nat) : Nat := bits w 27 5
def piA (w : Nat) : Nat := bits w 24 3
def piB (w : Nat) : Nat := bits w 21 3
def piN (w : Nat) : Nat := bits w 16 5
def piImm (w : Nat) : Nat := bits w 0 16

/-- A register of a parse engine. -/
def peReg (e : ParseEng) (i : Nat) : Nat := (mget 0 e.v i).toNat
/-- Write a register of a parse engine. -/
def peSet (e : ParseEng) (i v : Nat) : ParseEng := { e with v := mset 0 e.v i (BitVec.ofNat 32 v) }

/-- Bytes a program reads at an offset; `none` past byte 255 or past the end of the frame (R393). -/
def readAt (f : OutFrame) (a n : Nat) : Option (List Byte) :=
  if a + n ≤ 256 ∧ a + n ≤ f.data.length then some ((f.data.drop a).take n) else none

/-- What an instruction leaves: the engine's registers with the program going on at the next instruction or at another,
or a fault of the program. -/
inductive PRes
  | go (e : ParseEng)
  | goto (e : ParseEng) (pc : Nat)
  | fault
  deriving DecidableEq, Repr

/-- The program of an engine faults (R393): it ends, events already formed stand, 0x0902 is raised. -/
def parseFault (s : State) (d l : Nat) (f : OutFrame) : State :=
  raiseCoal (portCount (modPd s d fun x => endProgram x l) d f.port 3) (pdInc 0x0902 d l 0)

/-- An engine runs its next instruction, if that has operation `op` and its word can be read (R498): at most 128 for a frame, and none after instruction
255 but a jump (R393). -/
def parseInstr (s : State) (d l op : Nat) (g : OutFrame → Nat → ParseEng → PRes) : State :=
  let x := getPd s d
  let e := getEngine x l
  match e.frame.bind (getFrame x) with
  | none => s
  | some f =>
    let w := (mget 0 x.store e.pc).toNat
    let m := pdMemRead s d (pdParseKey e.pc)
    if piOp w != op then s
    else if m.2 || e.count ≥ 128 then parseFault s d l f
    else
      let s := m.1
      match g f w e with
      | .go e' =>
        if e.pc == 255 then parseFault s d l f
        else setPd s d (putEngine (getPd s d) l { e' with pc := e.pc + 1, count := e.count + 1 })
      | .goto e' pc => setPd s d (putEngine (getPd s d) l { e' with pc := pc, count := e.count + 1 })
      | .fault => parseFault s d l f

/-- PARSE_NOP (R391). -/
def execParseNop (d : Fin 6) (l : Fin 16) (s : State) : Out := .next (parseInstr s d.val l.val 0 fun _ _ e => .go e)

/-- SETC (R391): `CUR` becomes a base; an absent one faults. -/
def execParseSetc (d : Fin 6) (l : Fin 16) (s : State) : Out :=
  .next (parseInstr s d.val l.val 1 fun f w e => match decBase (decodeFrame f.data) (piImm w % 8) with
    | some b => .go { e with cur := b }
    | none => .fault)

/-- LD (R391): big-endian frame bytes. -/
def execParseLd (d : Fin 6) (l : Fin 16) (s : State) : Out :=
  .next (parseInstr s d.val l.val 2 fun f w e => match readAt f (e.cur + piImm w) (piN w) with
    | some bs => .go (peSet e (piA w) (beNat bs))
    | none => .fault)

/-- LDL (R391): little-endian frame bytes. -/
def execParseLdl (d : Fin 6) (l : Fin 16) (s : State) : Out :=
  .next (parseInstr s d.val l.val 3 fun f w e => match readAt f (e.cur + piImm w) (piN w) with
    | some bs => .go (peSet e (piA w) (leNat bs))
    | none => .fault)

/-- LDI (R391). -/
def execParseLdi (d : Fin 6) (l : Fin 16) (s : State) : Out :=
  .next (parseInstr s d.val l.val 4 fun _ w e => .go (peSet e (piA w) (piImm w)))

/-- LUI (R391): the upper half only. -/
def execParseLui (d : Fin 6) (l : Fin 16) (s : State) : Out :=
  .next (parseInstr s d.val l.val 5 fun _ w e => .go (peSet e (piA w) (piImm w * 65536 + peReg e (piA w) % 65536)))

/-- ADD (R391). -/
def execParseAdd (d : Fin 6) (l : Fin 16) (s : State) : Out :=
  .next (parseInstr s d.val l.val 6 fun _ w e => .go (peSet e (piA w) (peReg e (piA w) + peReg e (piB w))))

/-- ADDI (R391). -/
def execParseAddi (d : Fin 6) (l : Fin 16) (s : State) : Out :=
  .next (parseInstr s d.val l.val 7 fun _ w e => .go (peSet e (piA w) (peReg e (piA w) + piImm w)))

/-- ANDI (R391). -/
def execParseAndi (d : Fin 6) (l : Fin 16) (s : State) : Out :=
  .next (parseInstr s d.val l.val 8 fun _ w e => .go (peSet e (piA w) (peReg e (piA w) &&& piImm w)))

/-- SHRI (R391). -/
def execParseShri (d : Fin 6) (l : Fin 16) (s : State) : Out :=
  .next (parseInstr s d.val l.val 9 fun _ w e => .go (peSet e (piA w) (peReg e (piA w) >>> piN w)))

/-- ADV (R391): `CUR` moves on; it has no stated width, and past byte 255 every read faults. -/
def execParseAdv (d : Fin 6) (l : Fin 16) (s : State) : Out :=
  .next (parseInstr s d.val l.val 10 fun _ w e => .go { e with cur := e.cur + peReg e (piA w) + piImm w })

/-- The comparison of `BR` (Table 12.4). -/
def piTaken (n a b : Nat) : Bool :=
  match n % 4 with
  | 0 => a == b
  | 1 => a != b
  | 2 => decide (a < b)
  | _ => decide (a ≥ b)

/-- BR (R391). -/
def execParseBr (d : Fin 6) (l : Fin 16) (s : State) : Out :=
  .next (parseInstr s d.val l.val 11 fun _ w e =>
    if piTaken (piN w) (peReg e (piA w)) (peReg e (piB w)) then .goto e (piImm w % 256) else .go e)

/-- JMP (R391). -/
def execParseJmp (d : Fin 6) (l : Fin 16) (s : State) : Out :=
  .next (parseInstr s d.val l.val 12 fun _ w e => .goto e (piImm w % 256))

/-- KEY (R391). -/
def execParseKey (d : Fin 6) (l : Fin 16) (s : State) : Out :=
  .next (parseInstr s d.val l.val 13 fun f w e => match readAt f (e.cur + piImm w) (piN w) with
    | some bs => .go { e with key := BitVec.ofNat 64 (e.key.toNat * 2 ^ (8 * piN w) + beNat bs) }
    | none => .fault)

/-- KEYV (R391). -/
def execParseKeyv (d : Fin 6) (l : Fin 16) (s : State) : Out :=
  .next (parseInstr s d.val l.val 14 fun _ w e => .go { e with key := BitVec.ofNat 64 (e.key.toNat * 2 ^ 32 + peReg e (piA w)) })

/-- EXT (R391, R393): bytes in wire order; at most 40 of them and 16 appends for an event. -/
def execParseExt (d : Fin 6) (l : Fin 16) (s : State) : Out :=
  .next (parseInstr s d.val l.val 15 fun f w e => match readAt f (e.cur + piImm w) (piN w) with
    | some bs =>
      if e.area.length + bs.length > 40 || e.exts ≥ 16 then .fault
      else .go { e with area := e.area ++ bs, exts := e.exts + 1 }
    | none => .fault)

/-- FSQ (R391). -/
def execParseFsq (d : Fin 6) (l : Fin 16) (s : State) : Out :=
  .next (parseInstr s d.val l.val 16 fun f w e => match readAt f (e.cur + piImm w) (piN w) with
    | some bs => .go { e with fseq := beNat bs % 2 ^ 24 }
    | none => .fault)

/-- The event an `EMIT` forms from the entry found (Table 12.6). With `CUT` it may leave at once; without, once the frame has
ended well (R404). -/
def formEvent (d : Nat) (x : Pd) (f : OutFrame) (e : ParseEng) (w : W64) : Ev :=
  let cut := pcCut f.cfg
  { id := x.nextEv, frame := f.n, ts := f.ts, key := e.key, fseq := e.fseq, slot := ieSlot w, port := 16 * d + f.port,
    ggrp := ieGgrp w, lat := ieLat w, fcsx := cut, midx := e.emits, fields := e.area, dq := ieDq w, apt := ieApt w,
    ord := ieOrd w, rpl := ieRpl w, ready := cut || f.ended, idx := none, sentAt := 0, since := none, outc := none,
    byTimer := false, checked := f.ended, fcse := f.ended && f.bad, supp := false, replayOf := false }

/-- The lookup of an `EMIT` (R397): a miss and a disabled entry are counted and form nothing. -/
def lookupEvent (s : State) (d : Nat) (f : OutFrame) (e : ParseEng) : State :=
  let r := instRead s d e.key
  let s := r.1
  let x := getPd s d
  match r.2 with
  | none => portCount s d f.port 5
  | some (_, w) =>
    if !ieEn w then portCount s d f.port 6
    else if !pcCut f.cfg && f.ended && f.bad then s
    else
      let s := setPd s d { x with evs := x.evs ++ [formEvent d x f e w], nextEv := x.nextEv + 1 }
      pdSettle (portCount s d f.port 7) d

/-- EMIT (R391, R397): forms an event from `KEY`, `FSEQ` and the field area, and zeroes `KEY` and the area. A ninth faults. -/
def execParseEmit (d : Fin 6) (l : Fin 16) (s : State) : Out :=
  let x := getPd s d.val
  let e := getEngine x l.val
  let s' := parseInstr s d.val l.val 17 fun _ _ e =>
    if e.emits ≥ 8 then .fault else .go { e with key := 0, area := [], exts := 0, emits := e.emits + 1 }
  let run := piOp (mget 0 x.store e.pc).toNat == 17 && mget 0 x.err (pdParseKey e.pc) < 2 && decide (e.count < 128) && decide (e.emits < 8) && e.pc != 255
  match e.frame.bind (getFrame x) with
  | some f => .next (if run then lookupEvent s' d.val f e else s')
  | none => .next s'

/-- A program ends. -/
def parseEnd (s : State) (d l op : Nat) (k : OutFrame → State → State) : State :=
  let x := getPd s d
  let e := getEngine x l
  match e.frame.bind (getFrame x) with
  | none => s
  | some f =>
    let m := pdMemRead s d (pdParseKey e.pc)
    if piOp (mget 0 x.store e.pc).toNat != op then s
    else if m.2 || e.count ≥ 128 then parseFault s d l f
    else k f (modPd m.1 d fun x => endProgram x l)

/-- DONE (R391). -/
def execParseDone (d : Fin 6) (l : Fin 16) (s : State) : Out := .next (parseEnd s d.val l.val 18 fun _ s => s)

/-- DROP (R391): the frame is counted as filtered. -/
def execParseDrop (d : Fin 6) (l : Fin 16) (s : State) : Out :=
  .next (parseEnd s d.val l.val 19 fun f s => portCount s d.val f.port 2)

/-! ### The end of a frame (R404) -/

/-- FRAME_END (R404): the FCS and `MTU` of a frame are checked. Without `CUT` its events leave or are never formed; with
`CUT` a failure is noted in the records of its events. -/
def execFrameEnd (d : Fin 6) (n : Nat) (s : State) : Out :=
  let x := getPd s d.val
  match getFrame x n with
  | none => .next s
  | some f =>
    if f.ended then .next s
    else
      let bad := !f.fcsOk || decide (f.data.length + 4 > pcMtu f.cfg)
      let cut := pcCut f.cfg
      let mine (e : Ev) : Bool := e.frame == n && !e.replayOf
      let evs := if bad && !cut then x.evs.filter fun e => !mine e
        else x.evs.map fun e => if mine e then { e with ready := true, checked := true, fcse := bad } else e
      let x := { x with evs := evs, frames := x.frames.map fun g => if g.n == n then { g with ended := true, bad := bad } else g }
      let s := setPd s d.val (dropFrames x)
      let s := if bad then portCount s d.val f.port 1 else s
      let s := if bad && cut then raiseCoal s (pdInc 0x0901 d.val f.port 0) else s
      .next (pdSettle s d.val)

end Sys2Proof.Machine
end

