-- ==== Sys2Proof/Machine/PdEvents.lean ====
section
/-!
DEFINITION. Events on their way to the wafer (12.5): pending indices, `ORD`, the deadlines of R403, and the replay of a
recovery (R420).
-/
namespace Sys2Proof.Machine
open Sys2Proof

/-- An event may be sent but for an index: it is ready, undecided, not yet sent, and `ORD` does not hold it behind another
event for its queue (R402). -/
def evSendable (x : Pd) (e : Ev) : Bool :=
  e.ready && e.outc.isNone && e.idx.isNone &&
    !(e.ord && x.evs.any fun y => y.ord && y.dq == e.dq && y.outc.isNone && y.id != e.id &&
      (y.idx.isSome || decide (y.ts < e.ts) || (y.ts == e.ts && decide (y.midx < e.midx))))

/-- The event that leaves next at an attach port: latency class first, then in the order formed (R402). -/
def nextEvent (x : Pd) (k : Nat) : Option Ev :=
  let c := x.evs.filter fun e => e.apt == k && evSendable x e
  match c.find? (·.lat) with
  | some e => some e
  | none => c.head?

/-- The lowest free pending index of the 2,048 (R403). -/
def freeIndex (x : Pd) : Option Nat := (List.range 2048).find? fun i => !(x.evs.any fun e => e.idx == some i)

/-- Send an event under a pending index (R401). -/
def sendEvent (s : State) (d : Nat) (e : Ev) (i : Nat) : State :=
  let s := modPd s d fun x => { x with evs := x.evs.map fun y =>
    if y.id == e.id then { y with idx := some i, sentAt := nowPs s, since := none } else y }
  putPacket s (newPacket (edgeMake (diePd d) e.apt i) e.dq 0 0 (.event (evEntries e)) (.die (diePd d) e.apt) 0)

/-- EVENT_SEND (R401 to R403): the next event of an attach port takes a pending index and leaves; with none free it begins to
wait, and so does every other event that could be sent there. -/
def execEventSend (d : Fin 6) (k : Fin 4) (s : State) : Out :=
  let x := getPd s d.val
  if x.inReset || !attachUp s (diePd d.val) k.val then .next s
  else match nextEvent x k.val with
    | none => .next s
    | some e =>
      match freeIndex x with
      | some i => .next (sendEvent s d.val e i)
      | none =>
        .next (setPd s d.val { x with evs := x.evs.map fun y =>
          if y.apt == e.apt && evSendable x y && y.since.isNone then { y with since := some (nowPs s) } else y })

/-- An event of a die by number, if it waits for an index. -/
def waitingEvent (x : Pd) (n : Nat) : Option Ev := x.evs.find? fun e => e.id == n && e.since.isSome && e.idx.isNone && e.outc.isNone

/-- PENDING_INDEX_TIMEOUT (R403): an event has waited 1 µs for an index and is dropped. -/
def execPendingIndexTimeout (d : Fin 6) (n : Nat) (s : State) : Out :=
  match waitingEvent (getPd s d.val) n with
  | none => .next s
  | some e =>
    let s := reachPs s (e.since.getD 0 + 1000000)
    let x := getPd s d.val
    let s := setPd s d.val { x with evs := x.evs.map fun y => if y.id == n then { y with outc := some .timeout, since := none } else y }
    .next (pdSettle (raiseCoal s (pdInc 0x0905 d.val 0 0)) d.val)

/-- EVENT_REPLY_TIMEOUT (R403): an event has no reply 10 µs after it was sent. -/
def execEventReplyTimeout (d : Fin 6) (n : Nat) (s : State) : Out :=
  let x := getPd s d.val
  match x.evs.find? fun e => e.id == n && e.idx.isSome && e.outc.isNone with
  | none => .next s
  | some e =>
    let s := reachPs s (e.sentAt + 10000000)
    let x := getPd s d.val
    let s := setPd s d.val { x with evs := x.evs.map fun y =>
      if y.id == n then { y with outc := some .timeout, byTimer := true, idx := none } else y }
    .next (pdSettle (raiseCoal s (pdInc 0x0905 d.val 0 0)) d.val)

/-! ### Replay (R420, R513) -/

/-- A replay of a die by group. -/
def replayOf (x : Pd) (g : Nat) : Option Replay := x.replays.find? (·.group == g)
/-- Change a replay. -/
def modReplay (s : State) (d g : Nat) (f : Replay → Replay) : State :=
  modPd s d fun x => { x with replays := x.replays.map fun r => if r.group == g then f r else r }

/-- Fields of a replay record (Table 12.12). -/
def rrHdr (r : LogRec) : Nat := leNat (r.data.take 8)
def rrTyp (r : LogRec) : Nat := bits (rrHdr r) 37 4
def rrDq (r : LogRec) : Nat := bits (rrHdr r) 41 23
def rrRpl (r : LogRec) : Bool := bit (rrHdr r) 32
/-- Word `i` behind the header of a record. -/
def rrWord (r : LogRec) (i : Nat) : Nat := leNat ((r.data.drop (8 + 8 * i)).take 8)

/-- A record that a replay of a group re-sends (R420). -/
def rrSend (x : Pd) (g : Nat) (r : LogRec) : Bool := rrTyp r == 1 && rrRpl r && inSupp x (some g) (qaTile (rrDq r))

/-- The event of a record, as it was first formed; `ORD` is what the table says of the instrument now. -/
def rrEvent (d : Nat) (x : Pd) (r : LogRec) : Ev :=
  let w2 := rrWord r 2
  let key := BitVec.ofNat 64 (rrWord r 1)
  { id := x.nextEv, frame := 0, ts := rrWord r 0, key := key, fseq := bits w2 40 24, slot := bits w2 20 20, port := bits w2 13 7,
    ggrp := bits w2 9 4, lat := bit w2 8, fcsx := bit w2 7, midx := bits w2 4 3, fields := r.data.drop 32, dq := rrDq r,
    apt := nearPort d (qaTile (rrDq r)), ord := (match instFind x.insts key with
      | some e => ieOrd e.2.2
      | none => false),
    rpl := true, ready := true, idx := none, sentAt := 0, since := none, outc := none, byTimer := false, checked := true,
    fcse := bit (rrHdr r) 31, supp := false, replayOf := true }

/-- REPLAY_SEND (R420, R513): the replay of a group comes to the next record of the ring and re-sends its event, unless `ORD`
or the lack of an index holds it. -/
def execReplaySend (d : Fin 6) (g : Fin 64) (s : State) : Out :=
  let x := getPd s d.val
  match replayOf x g.val with
  | none => .next s
  | some r =>
    if x.inReset || r.diverged || r.next < x.replay.base then .next s
    else match x.replay.recs.drop (r.next - x.replay.base) with
      | [] => .next s
      | c :: _ =>
        if !rrSend x g.val c then .next (modReplay s d.val g.val fun r => { r with next := r.next + 1 })
        else
          let e := rrEvent d.val x c
          let x' := { x with evs := x.evs ++ [e], nextEv := x.nextEv + 1 }
          match freeIndex x with
          | some i =>
            if evSendable x' e && attachUp s (diePd d.val) e.apt then
              .next (sendEvent (modReplay (setPd s d.val x') d.val g.val fun r => { r with next := r.next + 1, sent := r.sent + 1 }) d.val e i)
            else .next s
          | none => .next s

/-- A die's replay of a group has reached the tail with no event of it awaiting a reply (R513). -/
def replayAtTail (x : Pd) (g : Nat) : Bool :=
  match replayOf x g with
  | some r =>
    decide (r.next ≥ x.replay.base + x.replay.recs.length) && x.replay.wait.isEmpty && x.replay.out == 0 &&
      !(x.evs.any fun e => e.replayOf && inSupp x (some g) (qaTile e.dq))
  | none => true

end Sys2Proof.Machine
end

