-- ==== Sys2Proof/Machine/PdOut.lean ====
section
/-!
DEFINITION. The way out of a port die (12.7 to 12.10): the decision on a response, templates and the guard, the MAC, the
egress journal, and the Snuffer.
-/
namespace Sys2Proof.Machine
open Sys2Proof

/-! ### Templates (R408, R409) -/

/-- Word `i` of a list of 64-bit words. -/
def wordOf (ws : List W64) (i : Nat) : Nat := (lget 0 ws i).toNat

/-- Fields of a template descriptor (Table 12.9). -/
def tdTv (t : Tmpl) : Bool := bit (wordOf t.desc 0) 63
def tdIcs (t : Tmpl) : Bool := bit (wordOf t.desc 0) 62
def tdUcs (t : Tmpl) : Bool := bit (wordOf t.desc 0) 61
def tdTlen (t : Tmpl) : Nat := bits (wordOf t.desc 0) 52 9
def tdL3 (t : Tmpl) : Nat := bits (wordOf t.desc 0) 44 8
def tdL4 (t : Tmpl) : Nat := bits (wordOf t.desc 0) 36 8
def tdGmsk (t : Tmpl) : Nat := bits (wordOf t.desc 0) 20 16
def tdSqoff (t : Tmpl) : Nat := bits (wordOf t.desc 1) 56 8
def tdSqw (t : Tmpl) : Nat := bits (wordOf t.desc 1) 54 2
def tdTsoff (t : Tmpl) : Nat := bits (wordOf t.desc 1) 40 8
def tdTsfmt (t : Tmpl) : Nat := bits (wordOf t.desc 1) 38 2
def tdAxoff (t : Tmpl) : Nat := bits (wordOf t.desc 1) 24 8
def tdAxbit (t : Tmpl) : Nat := bits (wordOf t.desc 1) 21 3
/-- Insert `i` of a template. -/
def tdIns (t : Tmpl) (i : Nat) : Nat := bits (wordOf t.desc (2 + i / 2)) (i % 2 * 32) 32

/-- Fields of an insert. -/
def inDoff (w : Nat) : Nat := bits w 24 8
def inSoff (w : Nat) : Nat := bits w 19 5
def inLen (w : Nat) : Nat := bits w 16 3 + 1
def inSwap (w : Nat) : Bool := bit w 15
def inSgn (w : Nat) : Bool := bit w 14
def inBsel (w : Nat) : Nat := bits w 11 3
def inIv (w : Nat) : Bool := bit w 10

/-- The valid inserts of a template. -/
def tdInserts (t : Tmpl) : List Nat := ((List.range 8).map (tdIns t)).filter inIv

/-- Widths of the sequence and timestamp fields in bytes. -/
def sqBytes (t : Tmpl) : Nat := 2 * 2 ^ tdSqw t
def tsBytes (t : Tmpl) : Nat := if tdTsfmt t == 1 then 10 else 8

/-- Replace bytes of a frame from an offset. -/
def putBytes (f : List Byte) (ofs : Nat) (bs : List Byte) : List Byte :=
  f.zipIdx.map fun e => if ofs ≤ e.2 ∧ e.2 < ofs + bs.length then lget 0 bs (e.2 - ofs) else e.1

/-- Big-endian bytes of a number. -/
def beBytes (n v : Nat) : List Byte := (leBytes n v).reverse

/-- One's complement sum of 16-bit big-endian words, folded. -/
def sum16 : List Byte → Nat
  | [] => 0
  | [a] => a.toNat * 256
  | a :: b :: rest => a.toNat * 256 + b.toNat + sum16 rest
/-- Fold carries into 16 bits and complement. -/
def inetSum (bs : List Byte) : Nat :=
  let n := sum16 bs
  let n := n % 65536 + n / 65536
  let n := n % 65536 + n / 65536
  0xFFFF - (n % 65536 + n / 65536)

/-- Slice of a frame. -/
def slice (f : List Byte) (a n : Nat) : List Byte := (f.drop a).take n

/-- The checksums of a frame whose IP header lies at `l3` and UDP header at `l4` (R409): IPv4's when asked for, UDP's when
asked for or always for IPv6; a UDP checksum not computed is zero and one that comes out zero is sent as all ones. -/
def frameSums (f : List Byte) (l3 l4 : Nat) (ics ucs : Bool) : List Byte :=
  let six := fByte f l3 / 16 == 6
  let f := if six || !ics then f
    else
      let g := putBytes f (l3 + 10) [0, 0]
      putBytes g (l3 + 10) (beBytes 2 (inetSum (slice g l3 (fByte g l3 % 16 * 4))))
  let f := putBytes f (l4 + 6) [0, 0]
  if !six && !ucs then f
  else
    let len := slice f (l4 + 4) 2
    let pseudo := if six then slice f (l3 + 8) 32 ++ [0, 0] ++ len ++ [0, 0, 0, 17] else slice f (l3 + 12) 8 ++ [0, 17] ++ len
    let c := inetSum (pseudo ++ f.drop l4)
    putBytes f (l4 + 6) (beBytes 2 (if c == 0 then 0xFFFF else c))

/-- The payload of a response: words 1 to 3 in little-endian order (R406). -/
def respBytes (ws : List QEnt) : List Byte := (ws.drop 1).flatMap fun w => leBytes 8 w.w.toNat
/-- Some payload word carries the APPROX marker. -/
def respApx (ws : List QEnt) : Bool := (ws.drop 1).any (·.apx)

/-- The value an insert writes (R409). -/
def insertBytes (ws : List QEnt) (w : Nat) : List Byte :=
  let b := slice (respBytes ws) (inSoff w) (inLen w)
  if inSwap w then b.reverse else b

/-- The frame a template makes of a response, before the MAC grant (R409). -/
def composeFrame (t : Tmpl) (ws : List QEnt) : List Byte :=
  let f := (tdInserts t).foldl (fun f w => putBytes f (inDoff w) (insertBytes ws w)) (t.img.take (tdTlen t))
  let f := if tdAxoff t == 0 then f
    else putBytes f (tdAxoff t) [BitVec.ofNat 8 (setBits (fByte f (tdAxoff t)) (tdAxbit t) 1 (ofBit (respApx ws)))]
  frameSums f (tdL3 t) (tdL4 t) (tdIcs t) (tdUcs t)

/-- The bytes of a transmit timestamp (`TSFMT`). -/
def tsField (fmt ts : Nat) : List Byte :=
  let ns := ts / 4
  match fmt with
  | 0 => beBytes 8 ts
  | 1 => beBytes 6 (ns / 1000000000) ++ beBytes 4 (ns % 1000000000)
  | _ => beBytes 8 ns

/-- What the MAC grant fills in: sequence, transmit timestamp, and the checksums adjusted for them (R409, R410). -/
def grantFrame (t : Tmpl) (f : List Byte) (seqn ts : Nat) : List Byte :=
  let f := if tdSqoff t == 0 then f else putBytes f (tdSqoff t) (beBytes (sqBytes t) seqn)
  let f := if tdTsoff t == 0 then f else putBytes f (tdTsoff t) (tsField (tdTsfmt t) ts)
  frameSums f (tdL3 t) (tdL4 t) (tdIcs t) (tdUcs t)

/-! ### Guard (R411 to R413) -/

/-- A guard group never written. -/
def Guard.none : Guard := ⟨[], 0, 0⟩
/-- A guard group. -/
def getGuard (s : State) (d g : Nat) : Guard := mget Guard.none (getPd s d).guards g
/-- Fields of word 0 of a guard group (Table 12.10). -/
def ggEn (g : Guard) : Bool := bit (wordOf g.ws 0) 63
def ggRate (g : Guard) : Nat := bits (wordOf g.ws 0) 32 16
def ggBurst (g : Guard) : Nat := bits (wordOf g.ws 0) 20 12
/-- A whole token. -/
def tokenUnit : Nat := 256000000
/-- The token count of a group now (R413). -/
def ggTokens (now : Nat) (g : Guard) : Nat := min (g.tok + ggRate g * (now - g.at_)) (ggBurst g * tokenUnit)

/-- A value lies within a bound, in the sense its insert states (R412). -/
def boundOk (g : Guard) (ws : List QEnt) (w : Nat) : Bool :=
  if inBsel w == 0 then true
  else
    let v := beNat (insertBytes ws w)
    let lo := wordOf g.ws (2 * inBsel w - 1)
    let hi := wordOf g.ws (2 * inBsel w)
    if inSgn w then
      let z := signed (8 * inLen w) v
      decide (signed 64 lo ≤ z) && decide (z ≤ signed 64 hi)
    else decide (lo ≤ v) && decide (v ≤ hi)

/-! ### Responses (R406, R407) -/

/-- Fields of word 0 of a response (Table 12.7). -/
def rwTmpl (w : Nat) : Nat := bits w 54 10
def rwPort (w : Nat) : Nat := bits w 47 7
def rwGgrp (w : Nat) : Nat := bits w 43 4
def rwIts (w : Nat) : Nat := bits w 0 30
/-- The key of a response in the layout of a journal record: `IPORT`, `MIDX`, `RIDX`, `ITS` (Table 12.13). -/
def rwKey (w : Nat) : Nat := bits w 30 7 * 2 ^ 57 + bits w 37 3 * 2 ^ 54 + bits w 40 3 * 2 ^ 51 + bits w 0 30 * 2 ^ 21

/-- The response hash `JH` (R421). -/
def respHash (ws : List QEnt) : Nat :=
  let b := ((List.range 4).flatMap fun i =>
    let q := lget ⟨0, false, false⟩ ws i
    leBytes 8 (q.w.toNat ^^^ ofBit q.apx))
  crc32c b.reverse * 2 ^ 32 + crc32c b

/-- A journal record (Table 12.13). -/
def journalBytes (ws : List QEnt) (o : Outc) (ts seqn : Nat) : List Byte :=
  let w := (lget ⟨0, false, false⟩ ws 0).w.toNat
  leBytes 8 (rwKey w + rwPort w * 2 ^ 14 + rwTmpl w * 2 ^ 4 + outcCode o) ++ leBytes 8 ts ++ leBytes 8 (respHash ws) ++ leBytes 8 seqn

/-- The REPLY to a response leaves through the attach port it arrived on (R407). -/
def respReply (s : State) (d k kind src re : Nat) (o : Outc) : State :=
  injectDie s (diePd d) k src (.reply o kind (qaQueue src)) re

/-- A response is decided with an outcome, which is counted (Table 17.1, set 0x21). -/
def respCount (s : State) (d : Nat) (o : Outc) : State :=
  modPd s d fun x => { x with ctr := mset 0 x.ctr (outcCode o) (satAdd 48 (mget 0 x.ctr (outcCode o)) 1) }

/-- A response is decided: counted, journalled and answered. -/
def respDecide (s : State) (d k kind src re : Nat) (ws : List QEnt) (o : Outc) (ts seqn : Nat) : State :=
  let s := respCount s d o
  respReply (logAdd s d true (journalBytes ws o ts seqn) none false) d k kind src re o

/-- The groups whose suppressed rectangles hold a tile. -/
def suppGroup (x : Pd) (t : Nat) : Option Nat := (x.supps.find? fun r => inCorners r.t0 r.t1 t).map (·.group)

/-- A journal record has the key of a response; a gap record has none. -/
def jnHas (key : Nat) (r : LogRec) : Bool :=
  let w := leNat (r.data.take 8)
  w % 16 != 0xF && w / 2 ^ 21 == key / 2 ^ 21

/-- The event of a response was written under suppression, so the response is withheld (R512, R515). -/
def withheld (x : Pd) (w : Nat) : Bool :=
  (x.replay.recs ++ x.replay.wait).any fun r =>
    r.supp && rrTyp r == 1 && rrWord r 0 / 4 % 2 ^ 30 == rwIts w && bits (rrWord r 2) 13 7 == bits w 30 7 && bits (rrWord r 2) 4 3 == bits w 37 3

/-- DIVERGENCE (R422, R515): raised with the key; the replay stops. -/
def diverge (s : State) (d g key : Nat) : State :=
  modReplay (raiseInc s (pdInc 0x0920 d 0 key)) d g fun r => { r with diverged := true }

/-- The journal check of a response from a suppressed tile (Table 12.8 row 4, R422, R515). -/
def journalCheck (s : State) (d g : Nat) (ws : List QEnt) : State :=
  let x := getPd s d
  let w := (lget ⟨0, false, false⟩ ws 0).w.toNat
  match replayOf x g with
  | none => s
  | some r =>
    if withheld x w then modReplay s d g fun r => { r with held := r.held + 1 }
    else
      let from_ := r.jstart - x.journal.base
      match (x.journal.recs.drop from_).find? (jnHas (rwKey w)) with
      | none => diverge s d g (rwKey w)
      | some c =>
        let s := modPd s d fun x => { x with journal := { x.journal with
          recs := x.journal.recs.zipIdx.map fun e => if decide (e.2 ≥ from_) && jnHas (rwKey w) e.1 then { e.1 with matched := true } else e.1 } }
        if leNat (slice c.data 16 8) == respHash ws then s else diverge s d g (rwKey w)

/-- RESPONSE (R406, R407): a message reaches the composer of a port die and is decided by the first row of Table 12.8 that
applies; one that passes waits for its MAC grant. A template or guard group that cannot be read makes it FAULT (R498). -/
def execResponse (pid : Nat) (s : State) : Out :=
  match getPacket s pid with
  | none => .next s
  | some p =>
    match p.body, p.loc with
    | .msg _ ws, .die die k =>
      if !dieIsPd die || (getPd s (die - 2)).inReset then .next s
      else
        let s := delPacket s pid
        let d := die - 2
        let kind := bodyKind p.body
        let w := (lget ⟨0, false, false⟩ ws 0).w.toNat
        let end_ (s : State) (o : Outc) : Out := .next (respDecide s d k kind p.src pid ws o 0 0)
        let m := pdMemRead s d (pdTmplKey (rwTmpl w))
        let s := m.1
        let x := getPd s d
        let t := mget ⟨[], [], 0⟩ x.tmpls (rwTmpl w)
        let lane := rwPort w % 16
        let queued := x.ports.foldl (fun n e => n + (e.2.txq.filter (·.attach == k)).length) 0
        if edgeSub p.dst != 0x800 then .next (respReply s d k kind p.src pid .fault)
        else if queued ≥ 64 then end_ s .refusedFull
        else if (ws.drop 1).any (·.poi) then end_ (raiseInc s (pdInc 0x0914 d lane (rwKey w))) .poisoned
        else if m.2 then end_ (pdTableBad s d (pdTmplKey (rwTmpl w))) .fault
        else if !tdTv t || rwPort w / 16 != d || !bit (tdGmsk t) (rwGgrp w) || decide (ws.length > 4) ||
            (tdInserts t).any (fun i => decide (inSoff i + inLen i > 8 * (ws.length - 1))) then
          end_ (raiseInc s (pdInc 0x0910 d lane (rwTmpl w))) .fault
        else match suppGroup x (qaTile p.src) with
          | some g => .next (respReply (respCount (journalCheck s d g ws) d .done) d k kind p.src pid .done)
          | none =>
            let gm := pdMemRead s d (pdGuardKey (rwGgrp w))
            let s := gm.1
            let g := getGuard s d (rwGgrp w)
            let tok := ggTokens (nowPs s) g
            if x.gate || !portLive s d lane then end_ s .refusedFenced
            else if gm.2 then end_ (pdTableBad s d (pdGuardKey (rwGgrp w))) .fault
            else if !((tdInserts t).all (boundOk g ws)) then
              end_ (raiseInc s (pdInc 0x0911 d lane (rwKey w))) .refusedQuota
            else if !ggEn g || ggRate g == 0 || tok < tokenUnit then
              end_ (raiseCoal s (pdInc 0x0912 d lane (rwGgrp w))) .refusedQuota
            else
              let s := modPd s d fun x =>
                { x with guards := mset Guard.none x.guards (rwGgrp w) { g with tok := tok - tokenUnit, at_ := nowPs s } }
              .next (modPort s d lane fun q =>
                { q with txq := q.txq ++ [⟨p.src, k, kind, pid, ws, rwTmpl w, t, composeFrame t ws, 0, 0⟩] })
    | _, _ => .next s

/-! ### The MAC (R387, R409, R410) -/

/-- MAC_GRANT (R409): the next response of a port begins to leave, its sequence and timestamp filled in. -/
def execMacGrant (d : Fin 6) (p : Fin 16) (dts : Int) (s : State) : Out :=
  let x := getPd s d.val
  let q := getPort s d.val p.val
  match q.txq with
  | [] => .next s
  | f :: rest =>
    if q.tx.isSome || q.wgxTx.isSome || x.gate || !portLive s d.val p.val then .next s
    else
      let t := mget ⟨[], [], 0⟩ x.tmpls f.tmpl
      let ts := stampAt s (nowQuarter s + txDelay (pcMode q.cfg) (pcFec q.cfg) * 4 / 10) dts
      let f := { f with data := grantFrame f.form f.data t.seq ts, seqn := t.seq, ts := ts }
      .next (modPort s d.val p.val fun q => { q with tx := some f, txq := rest })

/-- A key of the latency histograms. -/
def latKey (g i : Nat) : Nat := 128 * g + i

/-- Count a latency (R533). -/
def latCount (x : Pd) (g ts its : Nat) : Pd :=
  let cfg := mget 0 x.lat (latKey g 68)
  if !bit cfg 63 then x
  else
    let lam := (ts / 4 + 2 ^ 30 - its) % 2 ^ 30
    let base := bits cfg 0 32
    let w := 2 ^ bits cfg 56 4
    let b := if lam < base then 0 else if lam < base + 62 * w then (lam - base) / w + 1 else 63
    let up (m : SMap Nat) (i : Nat) (f : Nat → Nat) : SMap Nat := mset 0 m (latKey g i) (f (mget 0 m (latKey g i)))
    let m := up x.lat b fun v => satAdd 32 v 1
    let m := up m 64 fun v => satAdd 32 v 1
    let m := up m 65 fun v => (v + lam) % 2 ^ 64
    let m := up m 66 fun v => max v lam
    { x with lat := up m 67 fun v => max v (0xFFFFFFFF - lam) }

/-- FRAME_TRANSMITTED (R407, R410, R421, R533): the last bit of the FCS of the frame in transmission leaves the pins. -/
def execFrameTransmitted (d : Fin 6) (p : Fin 16) (s : State) : Out :=
  let q := getPort s d.val p.val
  match q.tx with
  | some f =>
    let w := (lget ⟨0, false, false⟩ f.words 0).w.toNat
    let s := modPort s d.val p.val fun q => { q with tx := none }
    let s := portCount s d.val p.val 11
    let s := modPd s d.val fun x =>
      latCount { x with tmpls := mmod ⟨[], [], 0⟩ x.tmpls f.tmpl fun t => { t with seq := (t.seq + 1) % 2 ^ 64 } } (rwGgrp w) f.ts (rwIts w)
    .next (respDecide s d.val f.attach f.kind f.src f.re f.words .done f.ts f.seqn)
  | none =>
    match q.wgxTx with
    | some _ => .next (portCount (modPort s d.val p.val fun q => { q with wgxTx := none }) d.val p.val 11)
    | none => .next s

/-- Everything on its way out of a port is refused: what waits, and what is in transmission, cut off (R407, R415, R417). -/
def flushPort (s : State) (d p : Nat) : State :=
  let q := getPort s d p
  let s := modPort s d p fun q => { q with tx := none, txq := [], wgxTx := none }
  let s := match q.tx with
    | some f => respDecide s d f.attach f.kind f.src f.re f.words .refusedFenced f.ts f.seqn
    | none => s
  q.txq.foldl (fun s f => respDecide s d f.attach f.kind f.src f.re f.words .refusedFenced 0 0) s

/-! ### Links of ports (R383) -/

/-- A port's link comes up or goes down (Table 12.14). -/
def setLink (s : State) (d p : Nat) (up : Bool) : State :=
  let q := getPort s d p
  if q.up == up then s
  else
    let s := raiseInc (modPort s d p fun q => { q with up := up }) (pdInc 0x0930 d p (ofBit up))
    if up then s else flushPort s d p

/-- PORT_LINK_CHANGE (R383). -/
def execPortLinkChange (d : Fin 6) (p : Fin 16) (up : Bool) (s : State) : Out :=
  let x := getPd s d.val
  if up && (x.inReset || !portOn x p.val || laneTaken x p.val) then .next s else .next (setLink s d.val p.val up)

/-! ### Snuffer (R414 to R417) -/

/-- The CD sends a SNUFF frame to every port die (R602). -/
def sendSnuff (s : State) (on : Bool) : State :=
  { s with snuff := { s.snuff with frames := (List.range 6).foldl (fun m d => mset [] m d (mget [] m d ++ [on])) s.snuff.frames } }

/-- The Snuffer is engaged (R414): `CD_SNF` and, when it was released, the cause bits of both ports. -/
def snuffEngage (s : State) (cause : Nat) : State :=
  let s := if s.snuff.snf then s else setCauses s cSnEng
  sendSnuff { s with snuff := { s.snuff with snf := true, cause := cause } } true

/-- The Snuffer is released (R416), unless the pin is low, which is counted. The answer says whether it was refused. -/
def snuffRelease (s : State) : State × Bool :=
  if s.snuff.pin then ({ s with snuff := { s.snuff with relrej := satAdd 8 s.snuff.relrej 1 } }, true)
  else if !s.snuff.snf then (s, false)
  else (sendSnuff { setCauses s cSnRel with snuff := { s.snuff with snf := false } } false, false)

/-- SNUFF_N (R414): the pin goes low, and `held` says that it stayed low for 20 ns; or it goes high. -/
def execSnuffN (low held : Bool) (s : State) : Out :=
  let s := { s with snuff := { s.snuff with pin := low } }
  .next (if low && held then snuffEngage s 1 else s)

/-- A write to an RWS field from a port that does not hold the semaphore is ignored and counted (R431). -/
def countIgnored (s : State) (p : Nat) : State := modHost s p fun h => { h with rwsign := satAdd 16 h.rwsign 1 }

/-- CD_SNF_WRITE (R414, R416): `ENG` engages; `REL` releases for the holder of the semaphore. With both, the Snuffer stays
engaged. -/
def execCdSnfWrite (p : Fin 2) (v : W32) (s : State) : Out :=
  let eng := bit v.toNat 1
  if !hostUp s p.val then .next s
  else
  let s := if eng then snuffEngage s 2 else s
  if !bit v.toNat 2 then .next s
  else if !holdsSem s p.val then .next (countIgnored s p.val)
  else if eng && !s.snuff.pin then .next s
  else .next (snuffRelease s).1

/-- A die's MAC gates open: the timers of its WGX sessions go on from where they stood (Table 10.7). -/
def openGate (now : Nat) (x : Pd) : Pd :=
  let n := if x.gate then now - x.gateAt else 0
  let xf (t : WgxXfer) : WgxXfer := { t with sentAt := t.sentAt.map (· + n) }
  { x with gate := false,
           wgx := x.wgx.map fun e => (e.1, { e.2 with outs := e.2.outs.map fun o => { o with sentAt := o.sentAt + n },
                                                      push := e.2.push.map xf, pull := e.2.pull.map xf }) }

/-- SNUFF_FRAME (R415 to R417, R602): the oldest SNUFF frame reaches a port die. An engagement closes its MAC gates: what was
in transmission is cut off and what waited is refused; WGX frames are held. -/
def execSnuffFrame (d : Fin 6) (s : State) : Out :=
  match mget [] s.snuff.frames d.val with
  | [] => .next s
  | on :: rest =>
    let s := { s with snuff := { s.snuff with frames := mset [] s.snuff.frames d.val rest } }
    if (getPd s d.val).inReset then .next s
    else if !on then .next (modPd s d.val (openGate (nowPs s)))
    else
      let s := modPd s d.val fun x => { x with gate := true, gateAt := if x.gate then x.gateAt else nowPs s }
      .next ((List.range 16).foldl (fun s p => flushPort s d.val p) s)

end Sys2Proof.Machine
end

