-- ==== Sys2Proof/Machine/Txn.lean ====
section
/-!
DEFINITION. The transaction manager (14.6): opening, members and their targets, the decision, the quiesce of Table 8.11 and
the records of a transaction that has resolved.
-/
namespace Sys2Proof.Machine
open Sys2Proof

/-! ### Targets (R461) -/

/-- The 8-byte words of a range. -/
def eights (a n : Nat) : List Nat := if n == 0 then [] else (List.range ((a + n - 1) / 8 - a / 8 + 1)).map (a / 8 + ·)

/-- The groups that a new image of a region touches: the one that the region leaves, if it holds an image, and the one that it joins. -/
def imageGroups (s : State) (r : Nat) (img : Image) : List Nat :=
  if (getRegion s r).st = .empty then [rgGrp (imgRegion img)] else [rgGrp (getRegion s r), rgGrp (imgRegion img)].eraseDups

/-- The targets that a change stages, as kind, place and index (R461). -/
def chgTargets (s : State) : Chg → List (Nat × Nat × Nat)
  | .image r img .. => (11, r, 0) :: (imageGroups s r img).map fun g => (0, g, 0)
  | .step r _ | .restart r | .start r => [(0, rgGrp (getRegion s r), 0)]
  | .inst d l k _ => [(1, d, l), (2, d, k.toNat)]
  | .tmpl d i _ _ => [(3, d, i)]
  | .guard d i _ => [(4, d, i)]
  | .parse d _ _ => [(5, d, 0)]
  | .wgx d i _ => [(6, d, i)]
  | .dieReg d a _ => [(7, d, a)]
  | .sram t m a bs => (eights a bs.length).map fun w => (8, t * 4 + m, w)
  | .wickMem t c a bs => (eights a bs.length).map fun w => (9, t * 48 + c, w)
  | .creg t k f a bs => (eights a bs.length).map fun w => (10, t * 8 + k * 4 + f, w)
  | .seg .. | .dieFence _ | .lost .. | .colmap .. | .brk .. | .unsuppress _ => []

/-- A transaction that has not yet taken its wave: its staged targets are its own. -/
def txnHolds (x : Txn) : Bool := match x.ph with
  | .reporting _ => false
  | _ => true

/-- Some other transaction has staged one of the targets (R461). -/
def conflicts (s : State) (tag : Nat) (ts : List (Nat × Nat × Nat)) : Bool :=
  s.eng.txns.any fun x => x.tag != tag && txnHolds x && (x.chgs.flatMap (chgTargets s)).any ts.contains

/-! ### Records (R463) -/

/-- The low part of the detail of a transaction that did not commit: the first failing member's `SEQ` for reason 0x0C (Table 14.7). -/
def txnLow (x : Txn) : Nat := if x.reason == 0xC then x.failSeq.getD 0 else 0

/-- Complete a command that its transaction holds. -/
def recordOf (s : State) (c : Cmd) (o : Outc) (reason low detail : Nat) : State :=
  writeRecord s c o (if o = .done then detail else reason * 2 ^ 56 + low % 2 ^ 56)

/-- The record of the command that closed a transaction (R463, R464): `TXN_COMMIT`, or `TXN_ABORT`, which completes DONE. -/
def closerRecord (s : State) (x : Txn) (c : Cmd) : State :=
  let members := min x.staged.length 4095 * 2 ^ 32
  if x.miss then recordOf s c .fault 0xE 0 0
  else if c.opc == 0x42 then writeRecord s c .done members
  else match x.outc with
    | .done => writeRecord s c .done (x.tag + x.wnum * 2 ^ 12 + members)
    | o => recordOf s c o x.reason (txnLow x) 0

/-- The member records and the closing record of a transaction whose wave every tile has reported, or not (R463). -/
def txnRecords (s : State) (x : Txn) : State :=
  let o : Outc := if x.miss then .fault else if x.outc = .done then .done else .aborted
  let reason := if x.miss then 0xE else x.reason
  let s := x.staged.foldl (fun s c => recordOf s c o reason (if x.miss then 0 else txnLow x) c.det) s
  let s := match x.closer with
    | some c => closerRecord s x c
    | none => s
  let s := if x.handle == 0 then s
    else { s with eng := { s.eng with past := mput s.eng.past (x.port * 2048 + x.handle) (x.outc, if x.closer.isSome then 8 else x.reason) } }
  delTxn s x.tag

/-- `TXTO` has passed before the members of a transaction are in (R462, R464). -/
def txnLate (s : State) (x : Txn) : Bool :=
  x.handle != 0 && (decide (x.ph = .open_) || decide (x.ph = .closed) && decide (x.count < x.nmem)) && (match x.due with
    | some d => decide (nowPs s > d)
    | none => false)

/-- A transaction ends at its deadline: incident 0x0A07 and an ABORT wave (R462). -/
def txnTimeout (s : State) (x : Txn) : State :=
  waveTxn (raiseInc s { mkInc 0x0A07 utCd 1 noTile 0 0 with eng := 0x4E }) x.tag false .timeout 0xA

/-- The transactions whose deadline has passed end before anything later reaches them (R33). -/
def txnLapse (s : State) : State := (s.eng.txns.filter (txnLate s)).foldl txnTimeout s

/-! ### The decision (R462, R279, R280, R242) -/

/-- Regions whose change takes effect as a running image (R278, R281): images of regions that ran, restarts and starts. -/
def chgRuns : Chg → Option Nat
  | .image r _ _ _ run => if run then some r else none
  | .restart r | .start r => some r
  | _ => none

/-- The groups that a change of a region takes in (R242). -/
def chgGroups (s : State) : Chg → List Nat
  | .image r img .. => imageGroups s r img
  | .restart r | .start r => [rgGrp (getRegion s r)]
  | _ => []

/-- The regions that a transaction changes with an image, a start or a restart. -/
def chgImages : Chg → Option Nat
  | .image r .. => some r
  | .restart r | .start r => some r
  | _ => none

/-- The groups of the regions that a transaction changes (R242). -/
def txnGroups (s : State) (x : Txn) : List Nat := (x.chgs.flatMap (chgGroups s)).eraseDups

/-- The groups whose epoch a transaction raises: those with a region that it sets running or drains, and those with another region than the ones
that it changes (R242). -/
def txnRaises (s : State) (x : Txn) (rs : List Nat) : List Nat :=
  let own := x.chgs.filterMap chgImages
  let ups := x.chgs.filterMap fun c => match c with
    | .image _ img _ _ true => some (rgGrp (imgRegion img))
    | .restart r | .start r => some (rgGrp (getRegion s r))
    | _ => none
  let others := (txnGroups s x).filter fun g => (groupRegions s g).any fun r => !own.contains r
  (ups ++ rs.map (fun r => rgGrp (getRegion s r)) ++ others).eraseDups

/-- The running regions of the groups of a transaction: they are gated and drained together (R242, R279). -/
def txnRunning (s : State) (x : Txn) : List Nat :=
  ((txnGroups s x).flatMap (groupRegions s)).filter fun r => (getRegion s r).st = .running

/-- A region staged to be reconfigured no longer runs (R280, Table 14.10). -/
def txnLost (s : State) (x : Txn) : Bool :=
  x.chgs.any fun c => match c with
    | .image r _ _ _ true => decide ((getRegion s r).st ≠ .running)
    | _ => false

/-- Gate a region (R273); its drain begins. -/
def gateRegion (s : State) (r : Nat) : State :=
  modRegion s r fun g => { g with st := .quiescing, gated := true, waiting := false, drain := none }

/-- Every member is in: quiesce the regions, or ask for the wave (R462). -/
def txnGo (s : State) (x : Txn) : State :=
  if txnLost s x then waveTxn s x.tag false .aborted 0xD
  else
    let rs := txnRunning s x
    let s := modTxn s x.tag fun y => { y with groups := txnRaises s x rs, regs := rs }
    if rs.isEmpty then waveTxn s x.tag true .done 0
    else
      let due := rs.foldl (fun n r => min n (rgRqto (getRegion s r))) 65535
      modTxn (rs.foldl gateRegion s) x.tag fun x => { x with ph := .quiesce, qdue := some (nowPs s + due * 1000000) }

/-- A load of a region held for heat is staged and not committed until the hold ends (R563). -/
def txnHeld (s : State) (x : Txn) : Bool := x.chgs.any fun c => match c with
  | .image r .. => (getRegion s r).heatHeld
  | _ => false

/-- Decide a closed transaction once its members are in (R462). -/
def txnDecide (s : State) (tag : Nat) : State :=
  match txnOf s tag with
  | some x =>
    if x.ph ≠ .closed || x.count < x.nmem || x.failSeq.isNone && txnHeld s x then s
    else if x.failSeq.isSome then waveTxn s tag false .aborted 0xC
    else txnGo s x
  | none => s

/-! ### Members (R460, R461) -/

/-- Transactions open at a port (R458). -/
def openTxns (s : State) (p : Nat) : Nat := (s.eng.txns.filter (·.port == p)).length

/-- A transaction that nothing has joined. -/
def Txn.fresh (tag port handle : Nat) (due : Option Nat) : Txn :=
  ⟨tag, port, handle, due, [], [], 0, none, none, 0, [], [], none, false, .open_, .done, 0, 0, false, 0⟩

/-- Add a transaction; its tag is the last given. -/
def addTxn (s : State) (x : Txn) : State := { s with eng := { s.eng with txns := s.eng.txns ++ [x], lastTag := x.tag } }

/-- A staged command without `TXH` becomes a transaction of its own, closed, with one member (R461). -/
def ownTxn (s : State) (c : Cmd) (chgs : List Chg) (strict : Bool) : State × Nat :=
  let tag := freshTag s
  let s := addTxn s { Txn.fresh tag c.port 0 (some (nowPs s + 100000000000)) with chgs := chgs, nmem := 1, ph := .closed, strict := strict }
  (s, tag)

/-- A member leaves its engine and waits for its transaction. -/
def joinTxn (s : State) (c : Cmd) (tag : Nat) : State :=
  let s := modCmds s c.eng fun l => l.filter fun x => x.id != c.id
  modTxn s tag fun x => { x with staged := x.staged ++ [c], count := x.count + 1 }

/-- A member fails staging: it completes at once, and its transaction is bound to abort (R460). -/
def memberFail (s : State) (c : Cmd) (o : Outc) (reason low : Nat) : State :=
  let s := txnLapse s
  let s := failCmd s c o reason low
  if c.txh == 0 then s
  else match txnAt s c.port c.txh with
    | some x =>
      match x.ph with
      | .open_ | .closed =>
        txnDecide (modTxn s x.tag fun x => { x with count := x.count + 1, failSeq := match x.failSeq with
          | some q => some q
          | none => some c.seq }) x.tag
      | _ => s
    | none => s

/-- The transaction that a staged command belongs to, open for members. -/
def memberTxn (s : State) (c : Cmd) : Option Txn :=
  if c.txh == 0 then none
  else (txnAt s c.port c.txh).filter fun x => match x.ph with
    | .open_ | .closed => true
    | _ => false

/-- The changes already staged in a command's transaction. -/
def stagedBefore (s : State) (c : Cmd) : List Chg :=
  match memberTxn s c with
  | some x => x.chgs
  | none => []

/-- The tag of a command's transaction, or 0. -/
def memberTag (s : State) (c : Cmd) : Nat :=
  match memberTxn s c with
  | some x => x.tag
  | none => 0

/-- Bytes of changes in a tile, for the 64 KiB shadow (R278, Table 14.9). -/
def chgBytes (t : Nat) : Chg → Nat
  | .image _ img .. => footprint img t
  | .sram u _ _ bs | .wickMem u _ _ bs | .creg u _ _ _ bs => if u == t then bs.length else 0
  | _ => 0

/-- The tiles that a change stages bytes in. -/
def chgTiles : Chg → List Nat
  | .image _ img .. => (img.sections.flatMap secTiles).eraseDups
  | .sram u .. | .wickMem u .. | .creg u .. => [u]
  | _ => []

/-- Port dies and kinds of table change for the shadows of Table 14.9. -/
def chgDie (kind d : Nat) : Chg → Bool
  | .inst e .. => kind == 0 && e == d
  | .tmpl e .. => kind == 1 && e == d
  | _ => false

/-- A set of changes stays within the shadows of Table 14.9: 64 KiB in each tile (reason 0x06), 16,384 instrument entries and
64 templates at each die (reason 0x05). -/
def overShadow (all new : List Chg) : Option Nat :=
  if (new.flatMap chgTiles).eraseDups.any fun t => decide (all.foldl (fun n c => n + chgBytes t c) 0 > 65536) then some 6
  else if (List.range 6).any fun d =>
      decide ((all.filter (chgDie 0 d)).length > 16384) || decide ((all.filter (chgDie 1 d)).length > 64) then some 5
  else none

/-- A reconfiguration has the context slots it needs: running folds and new ones make at most 4 (R278). -/
def slotsShort (s : State) : Chg → Bool
  | .image r img _ _ true => decide ((getRegion s r).nslots + rgNfm1 (imgRegion img) + 1 > 4)
  | _ => false

/-- A command whose checks have passed stages its changes (R460, R461). Without a free transaction at its port it waits
(R458). -/
def memberStage (s : State) (c : Cmd) (chgs : List Chg) (strict replace : Bool) : State :=
  let s := txnLapse s
  let before := stagedBefore s c
  let ts := chgs.flatMap (chgTargets s)
  if c.txh == 0 && openTxns s c.port ≥ 16 then s
  else if c.txh != 0 && (memberTxn s c).isNone then failCmd s c .fault 8 0
  else if conflicts s (memberTag s c) ts then memberFail s c .refusedFull 4 0
  else if !replace && chgs.any (slotsShort s) then
    (if c.txh == 0 then failCmd s c .aborted 6 0 else memberFail s c .refusedFull 6 0)
  else match overShadow (before ++ chgs) chgs with
    | some n => if c.txh == 0 && c.opc == 0x10 && n == 6 then failCmd s c .aborted 6 0 else memberFail s c .refusedFull n 0
    | none =>
      match memberTxn s c with
      | some x =>
        let s := joinTxn s c x.tag
        txnDecide (modTxn s x.tag fun x => { x with chgs := x.chgs ++ chgs, strict := x.strict || strict }) x.tag
      | none =>
        let o := ownTxn s c chgs strict
        txnDecide (joinTxn o.1 c o.2) o.2

/-- Every check of a stageable command has passed: its changes wait to be staged. -/
def toStage (s : State) (c : Cmd) (chgs : List Chg) (det : Nat) : State :=
  modCmds s c.eng fun l => l.map fun x => if x.id == c.id then { x with ph := .stage chgs, det := det } else x

/-! ### Wire-engine commands -/

/-- A push or pull; a wire engine runs those beside one table or port command (Table 14.1). -/
def isWgx (opc : Nat) : Bool := opc == 0x38 || opc == 0x39

/-- The next command that a wire engine starts, if it has the opcode asked for: the first not yet started, with no table or port
command in progress before one of those. -/
def wireNext (s : State) (d opc : Nat) : Option Cmd :=
  let l := (getEng s (0x48 + d)).cmds
  match l.find? fun c => c.ph = .ready with
  | some c =>
    let before := l.takeWhile (·.id != c.id)
    if c.opc == opc && waitOk s c && s.boot.mst == 5 && (isWgx opc || before.all fun b => isWgx b.opc) then some c else none
  | none => none

/-- The next command of a wire engine with an opcode; on a die that is fenced or in reset it is refused (R357, R519). -/
def wireCmd (s : State) (d opc : Nat) (k : Cmd → State) : State :=
  match wireNext s d opc with
  | none => s
  | some c => if dieFenced s (diePd d) || (getPd s d).inReset then memberFail s c .refusedFenced 0 0 else k c

end Sys2Proof.Machine
end

