-- ==== Sys2Proof/Machine/PdCmds.lean ====
section
/-!
DEFINITION. The commands of the wire engines on ports, tables, templates, guards, programs and rings (14.3, chapter 12).
-/
namespace Sys2Proof.Machine
open Sys2Proof

/-- PORT_CFG (R384): `PD_PCFG[p]` is written at once; a change of `MODE`, `FEC`, `AN` or `LT` takes the link down. -/
def execPortCfg (d : Fin 6) (s : State) : Out :=
  .next (wireCmd s d.val 0x30 fun c =>
    let p := bits (cmdWord c 0 2) 0 4
    let w := BitVec.ofNat 64 (cmdWord c 0 3)
    if !pcfgOk (getPd s d.val) p w then failCmd s c .fault 2 0
    else
      let old := (getPort s d.val p).cfg
      let down := bits old.toNat 12 10 != bits w.toNat 12 10
      let s := if down then setLink s d.val p false else s
      finishCmd (modPort s d.val p fun q => { q with cfg := w }) c .done 0)

/-- REPLAY_CFG (12.10, R456): a ring is placed and its offsets are zeroed. -/
def execReplayCfg (d : Fin 6) (s : State) : Out :=
  .next (wireCmd s d.val 0x36 fun c =>
    let jn := bit (cmdWord c 0 2) 0
    let w := cmdWord c 0 3
    if bits w 36 4 != 0 then failCmd s c .fault 2 0
    else
      let l := getLog s d.val jn
      finishCmd (setLog s d.val jn { LogRing.reset with cfg := BitVec.ofNat 64 w, base := l.base + l.recs.length, out := l.out,
                                                        outage := l.outage, lost := l.lost }) c .done 0)

/-! ### Instrument table (R398) -/

/-- The table as a transaction's own staged changes leave it. -/
def instApply (d : Nat) (x : SMap (W64 × W64)) : List Chg → SMap (W64 × W64)
  | [] => x
  | .inst e l k w :: rest =>
    instApply d (if e == d then (match w with
      | some w => mput x l (k, w)
      | none => mdel x l) else x) rest
  | _ :: rest => instApply d x rest

/-- The locations of a die that other open transactions have staged (R398). -/
def instHeld (s : State) (tag d : Nat) : List Nat :=
  ((s.eng.txns.filter fun x => x.tag != tag && txnHolds x).flatMap (·.chgs)).filterMap fun c => match c with
    | .inst e l _ _ => if e == d then some l else none
    | _ => none

/-- The four locations of the bucket of the other way from the one an entry lies in. -/
def otherBucket (k : W64) (loc : Nat) : List Nat :=
  let b := instBuckets k
  (List.range 4).map ((if loc / 4 == b.1 then 4 * b.2 else 4 * b.1) + ·)

/-- One level of the breadth-first search for a chain of moves: a path that ends at a free place, or the next frontier. A path
lists locations, the last reached first. -/
def chainLevel (x : SMap (W64 × W64)) (held : List Nat) : List (List Nat) → List Nat → List (List Nat) → Sum (List Nat) (List (List Nat) × List Nat)
  | [], seen, next => .inr (next.reverse, seen)
  | p :: rest, seen, next =>
    match p.head?.bind fun l => (instAt x l).map fun e => (l, e) with
    | none => chainLevel x held rest seen next
    | some (l, e) =>
      let alts := (otherBucket e.1 l).filter fun a => !held.contains a && !seen.contains a
      match alts.find? fun a => (instAt x a).isNone with
      | some a => .inl (a :: p)
      | none => chainLevel x held rest (seen ++ alts) ((alts.map fun a => a :: p).reverse ++ next)

/-- The search: at most `n` moves (R398). -/
def chainFind (x : SMap (W64 × W64)) (held : List Nat) : Nat → List (List Nat) → List Nat → Option (List Nat)
  | 0, _, _ => none
  | n + 1, fr, seen =>
    match chainLevel x held fr seen [] with
    | .inl p => some p
    | .inr (fr', seen') => if fr'.isEmpty then none else chainFind x held n fr' seen'

/-- The moves along a path: each entry goes to the place before it in the list. -/
def chainMoves (d : Nat) (x : SMap (W64 × W64)) : List Nat → List Chg
  | a :: b :: rest => (match instAt x b with
    | some e => [.inst d a e.1 (some e.2)]
    | none => []) ++ chainMoves d x (b :: rest)
  | _ => []

/-- Where a put goes and the changes it needs: its location, changes, moves and whether it went to the stash (R398). -/
def placeInst (d : Nat) (x : SMap (W64 × W64)) (held : List Nat) (k w : W64) : Option (List Chg × Nat × Bool) :=
  let b := instBuckets k
  let home := (List.range 4).map (4 * b.1 + ·) ++ (List.range 4).map (4 * b.2 + ·)
  let free (l : Nat) : Bool := (instAt x l).isNone && !held.contains l
  match instFind x k with
  | some (l, _) => if held.contains l then none else some ([.inst d l k (some w)], 0, false)
  | none =>
    match home.find? free with
    | some l => some ([.inst d l k (some w)], 0, false)
    | none =>
      let start := (home.filter fun l => !held.contains l).map fun l => [l]
      match chainFind x held 16 start home with
      | some p => some (chainMoves d x p ++ [.inst d (p.getLast?.getD 0) k (some w)], p.length - 1, false)
      | none =>
        match ((List.range 64).map (stash0 + ·)).find? free with
        | some l => some ([.inst d l k (some w)], 0, true)
        | none => none

/-- Place the entries of a put one after another: changes, moves, and whether one went to the stash; or why it fails: other
transactions stand in the way (0x04), or the stash is full (0x05). -/
def placeAll (d : Nat) (held : List Nat) : SMap (W64 × W64) → List (W64 × W64) → Nat ⊕ (List Chg × Nat × Bool)
  | _, [] => .inr ([], 0, false)
  | x, (k, w) :: rest =>
    match placeInst d x held k w with
    | none => .inl (if (placeInst d x [] k w).isSome then 4 else 5)
    | some (cs, n, st) =>
      match placeAll d held (instApply d x cs) rest with
      | .inl e => .inl e
      | .inr (cs', n', st') => .inr (cs ++ cs', n + n', st || st')

/-- Word 1 of an entry with the attach port the engine chooses (R398). -/
def withApt (d : Nat) (w : W64) : W64 := BitVec.ofNat 64 (setBits w.toNat 55 2 (nearPort d (qaTile (ieDq w))))

/-- INST_PUT (R396, R398, R456): entries are placed in the shadow of the die's table. -/
def execInstPut (d : Fin 6) (s : State) : Out :=
  .next (wireCmd s d.val 0x31 fun c =>
    let n := bits (cmdWord c 0 2) 0 6
    let es := (List.range n).map fun i => (lget 0 c.words (8 + 2 * i), lget 0 c.words (9 + 2 * i))
    let ok (w : W64) : Bool := ieApt w == 0 && bits w.toNat 43 11 == 0 && qaTileForm (ieDq w)
    if n == 0 || n > 60 || !(es.all fun e => ok e.2) then memberFail s c .fault 2 0
    else
      let x := instApply d.val (getPd s d.val).insts (stagedBefore s c)
      match placeAll d.val (instHeld s (memberTag s c) d.val) x (es.map fun e => (e.1, withApt d.val e.2)) with
      | .inl r => memberFail s c .refusedFull r 0
      | .inr (cs, moves, st) => toStage s c cs (n + moves * 2 ^ 16 + ofBit st * 2 ^ 32))

/-- A delete and the refill of its place from the stash, by an entry that no other transaction has staged (R398). -/
def dropInst (d : Nat) (held : List Nat) (x : SMap (W64 × W64)) (k : W64) (l : Nat) : List Chg :=
  let back := ((List.range 64).map (stash0 + ·)).find? fun j => match instAt x j with
    | some e => j != l && !held.contains j && (instBuckets e.1 == (l / 4, (instBuckets e.1).2) || (instBuckets e.1).2 == l / 4)
    | none => false
  match (if l < stash0 then back else none) with
  | some j => match instAt x j with
    | some e => [.inst d l k none, .inst d l e.1 (some e.2), .inst d j e.1 none]
    | none => [.inst d l k none]
  | none => [.inst d l k none]

/-- Delete keys one after another: changes, entries deleted, keys not found; `none` when another transaction holds one. -/
def dropAll (d : Nat) (held : List Nat) : SMap (W64 × W64) → List W64 → Option (List Chg × Nat × Nat)
  | _, [] => some ([], 0, 0)
  | x, k :: rest =>
    match instFind x k with
    | none => (dropAll d held x rest).map fun r => (r.1, r.2.1, r.2.2 + 1)
    | some (l, _) =>
      let cs := dropInst d held x k l
      if cs.any fun c => match c with
        | .inst _ j _ _ => held.contains j
        | _ => false then none
      else (dropAll d held (instApply d x cs) rest).map fun r => (cs ++ r.1, r.2.1 + 1, r.2.2)

/-- INST_DEL (R398): keys are deleted in the shadow of the die's table. -/
def execInstDel (d : Fin 6) (s : State) : Out :=
  .next (wireCmd s d.val 0x32 fun c =>
    let n := bits (cmdWord c 0 2) 0 7
    let ks := (List.range n).map fun i => lget 0 c.words (8 + i)
    if n == 0 || n > 120 then memberFail s c .fault 2 0
    else match dropAll d.val (instHeld s (memberTag s c) d.val) (instApply d.val (getPd s d.val).insts (stagedBefore s c)) ks with
      | none => memberFail s c .refusedFull 4 0
      | some (cs, del, miss) => toStage s c cs (del + miss * 2 ^ 16))

/-! ### Templates, guards, programs (R394, R408, R411) -/

/-- The byte ranges a template writes beside its image: inserts, sequence, timestamp and flag byte. -/
def tmplFields (t : Tmpl) : List (Nat × Nat) :=
  ((tdInserts t).map fun w => (inDoff w, inLen w)) ++ (if tdSqoff t == 0 then [] else [(tdSqoff t, sqBytes t)]) ++
    (if tdTsoff t == 0 then [] else [(tdTsoff t, tsBytes t)]) ++ (if tdAxoff t == 0 then [] else [(tdAxoff t, 1)])

/-- No two ranges of a list overlap. -/
def disjointAll : List (Nat × Nat) → Bool
  | [] => true
  | a :: rest => (rest.all fun b => decide (a.1 + a.2 ≤ b.1) || decide (b.1 + b.2 ≤ a.1)) && disjointAll rest

/-- The checks of R408 on a template. -/
def tmplOk (t : Tmpl) : Bool :=
  let f := t.img
  let n := tdTlen t
  let l3 := tdL3 t
  let v4 := fByte f l3 / 16 == 4 && decide (fByte f l3 % 16 ≥ 5) && fByte f (l3 + 9) == 17 &&
    tdL4 t == l3 + fByte f l3 % 16 * 4 && decide (l3 + 20 ≤ n)
  let v6 := fByte f l3 / 16 == 6 && fByte f (l3 + 6) == 17 && tdL4 t == l3 + 40
  decide (60 ≤ n) && decide (n ≤ 256) && (tmplFields t).all (fun r => decide (r.1 + r.2 ≤ n)) && disjointAll (tmplFields t) &&
    (v4 || v6) && decide (tdL4 t + 8 ≤ n) &&
    bits (wordOf t.desc 0) 0 20 == 0 && bits (wordOf t.desc 1) 48 6 == 0 && bits (wordOf t.desc 1) 32 6 == 0 &&
    bits (wordOf t.desc 1) 0 21 == 0 && tdSqw t != 3 && tdTsfmt t != 3 &&
    ((List.range 8).all fun i => bits (tdIns t i) 0 10 == 0 && decide (inBsel (tdIns t i) ≤ 4) && decide (inSoff (tdIns t i) ≤ 23)) &&
    wordOf t.desc 6 == 0 && wordOf t.desc 7 == 0

/-- The bytes of the entries of a command from entry `e`. -/
def entryBytes (c : Cmd) (e : Nat) : List Byte := (c.words.drop (8 * e)).flatMap fun w => leBytes 8 w.toNat

/-- TMPL_WR (R408): a template is staged, or marked invalid. -/
def execTmplWr (d : Fin 6) (s : State) : Out :=
  .next (wireCmd s d.val 0x33 fun c =>
    let i := bits (cmdWord c 0 2) 0 10
    if bit (cmdWord c 0 2) 10 then toStage s c [.tmpl d.val i [] []] 0
    else
      let desc := (c.words.drop 8).take 8
      let img := entryBytes c 2
      let t : Tmpl := ⟨desc, img, 0⟩
      if !tmplOk t || img.length < tdTlen t then memberFail s c .fault 2 0
      else toStage s c [.tmpl d.val i desc (img.take (tdTlen t))] 0)

/-- GUARD_WR (R411): a guard group is staged; reserved bits must be zero. -/
def execGuardWr (d : Fin 6) (s : State) : Out :=
  .next (wireCmd s d.val 0x34 fun c =>
    let ws := (c.words.drop 8).take 9
    let w0 := wordOf ws 0
    if bits w0 48 15 != 0 || bits w0 0 20 != 0 then memberFail s c .fault 2 0
    else toStage s c [.guard d.val (bits (cmdWord c 0 2) 0 4) ws] 0)

/-- A parse instruction's encoding is not reserved (R394). -/
def parseOk (w : Nat) : Bool :=
  let op := piOp w
  let a := piA w == 0
  let b := piB w == 0
  let n := piN w == 0
  let m := piImm w == 0
  let n4 := decide (1 ≤ piN w) && decide (piN w ≤ 4)
  let n8 := decide (1 ≤ piN w) && decide (piN w ≤ 8)
  match op with
  | 0x00 | 0x11 | 0x12 | 0x13 => a && b && n && m
  | 0x01 => a && b && n && decide (piImm w ≤ 4)
  | 0x02 | 0x03 => b && n4
  | 0x04 | 0x05 | 0x07 | 0x08 | 0x0A => b && n
  | 0x06 => n && m
  | 0x09 => b && m
  | 0x0B => decide (piN w < 4) && decide (piImm w < 256)
  | 0x0C => a && b && n && decide (piImm w < 256)
  | 0x0D | 0x0F => a && b && n8
  | 0x0E => b && n && m
  | 0x10 => a && b && n4
  | _ => false

/-- PARSE_WR (R394): instructions of the program store are staged. -/
def execParseWr (d : Fin 6) (s : State) : Out :=
  .next (wireCmd s d.val 0x35 fun c =>
    let n := bits (cmdWord c 0 2) 8 8
    let f := bits (cmdWord c 0 2) 0 8
    let ws := (List.range n).map fun i => bits (wordOf c.words (8 + i / 2)) (i % 2 * 32) 32
    if n == 0 || n > 240 || f + n > 256 || !(ws.all parseOk) then memberFail s c .fault 2 0
    else toStage s c (ws.zipIdx.map fun e => .parse d.val (f + e.2) (BitVec.ofNat 32 e.1)) 0)

end Sys2Proof.Machine
end

