-- ==== Sys2Proof/Machine/Wgx.lean ====
section
/-!
DEFINITION. WGX (10.7): sessions, pushes and pulls, and frames to and from a server.
-/
namespace Sys2Proof.Machine
open Sys2Proof

/-! ### Sessions (R350) -/

/-- A session of a port die. -/
def getWgx (s : State) (d i : Nat) : Wgx := mget Wgx.none (getPd s d).wgx i
/-- Change a session. -/
def modWgx (s : State) (d i : Nat) (f : Wgx → Wgx) : State :=
  modPd s d fun x => { x with wgx := mset Wgx.none x.wgx i (f (mget Wgx.none x.wgx i)) }

/-- Fields of a session descriptor (Table 10.3). -/
def wsSen (ws : List W64) : Bool := bit (wordOf ws 0) 63
def wsPort (ws : List W64) : Nat := bits (wordOf ws 0) 39 7
def wsSeg (ws : List W64) : Nat := bits (wordOf ws 2) 32 16
def wsWmax (ws : List W64) : Nat := bits (wordOf ws 2) 16 16
def wsRmax (ws : List W64) : Nat := bits (wordOf ws 2) 8 8
def wsAckn (ws : List W64) : Nat := bits (wordOf ws 2) 0 8
def wsSid (ws : List W64) : Nat := bits (wordOf ws 3) 48 16
def wsRto (ws : List W64) : Nat := bits (wordOf ws 3) 0 32

/-- The checks of R350. -/
def wgxOk (d : Nat) (ws : List W64) : Bool :=
  wsPort ws / 16 == d && wsSeg ws % 64 == 0 && decide (256 ≤ wsSeg ws) && decide (wsSeg ws ≤ 8192) &&
    decide (1 ≤ wsWmax ws) && decide (wsWmax ws ≤ 64) && decide (1 ≤ wsRmax ws) && decide (1 ≤ wsAckn ws) &&
    decide (wsAckn ws ≤ 64) && decide (10 ≤ wsRto ws) && decide (wsRto ws ≤ 100000) &&
    bits (wordOf ws 0) 0 39 == 0 && bits (wordOf ws 3) 32 16 == 0

/-- WGX_SESS (R350): a session descriptor is staged. -/
def execWgxSess (d : Fin 6) (s : State) : Out :=
  .next (wireCmd s d.val 0x37 fun c =>
    let ws := (c.words.drop 8).take 8
    if wgxOk d.val ws then toStage s c [.wgx d.val (bits (cmdWord c 0 2) 0 5) ws] 0 else memberFail s c .fault 2 0)

/-! ### Pushes and pulls (R357) -/

/-- Complete the command of a push or pull. -/
def wgxEnd (s : State) (d cmd : Nat) (o : Outc) (detail : Nat) : State :=
  match (getEng s (0x48 + d)).cmds.find? (·.id == cmd) with
  | some c => finishCmd s c o detail
  | none => s

/-- Both transfers of a session complete with an outcome (R353, R356, R357). -/
def wgxEndBoth (s : State) (d i : Nat) (o : Outc) : State :=
  let w := getWgx s d i
  let s := modWgx s d i fun w => { w with push := none, pull := none, outs := [] }
  let fin (s : State) (t : Option WgxXfer) : State := match t with
    | some t => wgxEnd s d t.cmd o 0
    | none => s
  fin (fin s w.push) w.pull

/-- A session restarts: both directions number from 0 (R352). -/
def wgxRestart (w : Wgx) : Wgx :=
  { w with live := true, failed := false, seqTx := 0, ackTx := 0, winTx := 64, outs := [], ackRx := 0, heldRx := [], inOrder := 0,
           due := none, ackNow := false }

/-- A COMMIT wave installs a session: transfers complete FAULT, and the new one starts with an RST (R356, Table 10.7). -/
def wgxInstall (s : State) (d i : Nat) (ws : List W64) : State :=
  let s := wgxEndBoth s d i .fault
  modWgx s d i fun w =>
    if wsSen ws then { wgxRestart w with ws := ws, rstNow := true } else { Wgx.none with ws := ws, ctr := w.ctr }

/-- A session fails (R356). -/
def wgxFail (s : State) (d i : Nat) : State :=
  let s := raiseInc s (pdInc 0x0940 d (wsPort (getWgx s d i).ws % 16) i)
  modWgx (wgxEndBoth s d i .timeout) d i fun w => { w with failed := true, rstNow := false, ackNow := false, due := none }

/-- Pushes and pulls in progress in a wire engine (Table 14.1). -/
def wgxRunning (s : State) (d : Nat) : Nat := ((getEng s (0x48 + d)).cmds.filter fun c => isWgx c.opc && c.ph = .work).length

/-- The next push or pull of a die starts, on a session that is installed and idle in that direction, while fewer than 32 are in progress
(Table 14.1). -/
def wgxStart (s : State) (d opc : Nat) (busy : Wgx → Bool) (put : Wgx → WgxXfer → Wgx) : State :=
  wireCmd s d opc fun c =>
    let i := bits (cmdWord c 0 3) 40 5
    let len := bits (cmdWord c 0 3) 0 40
    let a := cmdWord c 0 2
    let w := getWgx s d i
    if !w.live || w.failed || len == 0 || a + len > s.part.gib * 2 ^ 30 then failCmd s c .fault 2 0
    else if busy w || wgxRunning s d ≥ 32 then s
    else
      let t : WgxXfer := ⟨c.id, a, len, bits (cmdWord c 0 4) 32 32, bits (cmdWord c 0 4) 0 32, bits (cmdWord c 0 5) 0 4, 0, 0, [], false,
        none, false, none, false, 0⟩
      modWgx (setPh s c .work) d i fun w => put w t

/-- WGX_PUSH (R357): a tensor begins to leave HBM for the server. -/
def execWgxPush (d : Fin 6) (s : State) : Out :=
  .next (wgxStart s d.val 0x38 (·.push.isSome) fun w t => { w with push := some t })

/-- WGX_PULL (R357): a tensor is asked for. -/
def execWgxPull (d : Fin 6) (s : State) : Out :=
  .next (wgxStart s d.val 0x39 (·.pull.isSome) fun w t => { w with pull := some { t with again := true } })

/-! ### Frames (R351) -/

/-- The UDP payload of a frame: header, payload, CRC-32C (R351). -/
def wgxFrame (w : Wgx) (typ fmt : Nat) (poi retx last : Bool) (seq tensor step ofs : Nat) (pay : List Byte) : List Byte :=
  let b := leBytes 8 (1 * 2 ^ 60 + typ * 2 ^ 56 + fmt * 2 ^ 52 + ofBit poi * 2 ^ 50 + ofBit retx * 2 ^ 49 + ofBit last * 2 ^ 48 +
      wsSid w.ws * 2 ^ 32 + seq) ++
    leBytes 8 (w.ackRx * 2 ^ 32 + tensor) ++ leBytes 8 (step * 2 ^ 32 + 64 * 2 ^ 16 + pay.length) ++ leBytes 8 ofs ++ pay
  b ++ leBytes 4 (crc32c b)

/-- The bitmap of an ACK (Table 10.5). -/
def wgxBitmap (w : Wgx) : Nat :=
  (List.range 64).foldl (fun n i => if w.heldRx.contains ((w.ackRx + 1 + i) % 2 ^ 32) then n + 2 ^ i else n) 0

/-- The lower `n` bytes of an address of a session descriptor, highest first: its first word holds the lower half (R14, R350). -/
def wsAddr (ws : List W64) (i n : Nat) : List Byte := beBytes n (wordOf ws i + 2 ^ 64 * wordOf ws (i + 1))

/-- The Ethernet frame that carries a UDP payload of a session, from the destination address to the end of the payload (R349, R350). `h` gives
the fields that no rule states, by the byte they begin at (assumption 134). -/
def wgxWire (ws : List W64) (h : Nat → Nat) (pay : List Byte) : List Byte :=
  let v6 := bit (wordOf ws 0) 62
  let tag := if bit (wordOf ws 0) 61 then [0x81, 0x00] ++ beBytes 2 (bits (wordOf ws 0) 58 3 * 2 ^ 13 + bits (wordOf ws 0) 46 12) else []
  let eth := beBytes 6 (bits (wordOf ws 1) 0 48) ++ beBytes 6 (Config.srcMac (wsPort ws)).toNat ++ tag ++
    (if v6 then [0x86, 0xDD] else [0x08, 0x00])
  let n := 8 + pay.length
  let ip := if v6 then
      beBytes 4 (6 * 2 ^ 28 + h 0 % 2 ^ 28) ++ beBytes 2 n ++ [17] ++ beBytes 1 (h 7) ++ wsAddr ws 4 16 ++ wsAddr ws 6 16
    else
      [0x45] ++ beBytes 1 (h 1) ++ beBytes 2 (20 + n) ++ beBytes 4 (h 4) ++ beBytes 1 (h 8) ++ [17, 0, 0] ++ wsAddr ws 4 4 ++ wsAddr ws 6 4
  let udp := beBytes 2 (bits (wordOf ws 1) 48 16) ++ beBytes 2 (bits (wordOf ws 2) 48 16) ++ beBytes 2 n ++ [0, 0]
  frameSums (eth ++ ip ++ udp ++ pay) eth.length (eth.length + ip.length) true Config.wgxUdpSum

/-- A frame with a UDP payload begins to leave on a session's port. -/
def wgxOut (s : State) (d i : Nat) (f : List Byte) : State :=
  let ws := (getWgx s d i).ws
  modPort s d (wsPort ws % 16) fun q => { q with wgxTx := some (i, wgxWire ws (Config.wgxHead (wsPort ws) s.time.ticks) f) }

/-- Count in a session's counters: rows 1 to 7, then DATA frames sent and frames retransmitted (Table 17.1). -/
def wgxCount (s : State) (d i k : Nat) : State :=
  modWgx s d i fun w => { w with ctr := mset 0 w.ctr k (satAdd 48 (mget 0 w.ctr k) 1) }

/-- Send a DATA frame, new or again (R352, R355). -/
def wgxSendData (s : State) (d i : Nat) (o : WgxOut) (retx : Bool) : State :=
  let w := getWgx s d i
  let o := { o with sentAt := nowPs s, again := false }
  let f := wgxFrame w 1 o.fmt o.poi retx o.last o.seq o.tensor o.step o.ofs o.data
  let s := modWgx s d i fun w => if retx then
      { w with outs := w.outs.map fun x => if x.seq == o.seq then o else x,
               push := w.push.map fun t => { t with count := satAdd 32 t.count 1 } }
    else { w with outs := w.outs ++ [o], seqTx := (w.seqTx + 1) % 2 ^ 32 }
  wgxCount (wgxOut s d i f) d i (if retx then 8 else 7)

/-- DATA frames a sender may keep beyond the peer's last `ACKSEQ` (R355). -/
def wgxRoom (w : Wgx) : Bool := decide ((w.seqTx + 2 ^ 32 - w.ackTx) % 2 ^ 32 < min (wsWmax w.ws) w.winTx)

/-- Send the next new DATA frame of a push: its payload is read from HBM (R357); a read that fails ends the push with its
outcome. -/
def wgxSendNew (s : State) (d i : Nat) (t : WgxXfer) : State :=
  let w := getWgx s d i
  let n := min (wsSeg w.ws) (t.len - t.next)
  let r := modRead s (diePd d) (t.addr + t.next) n
  if r.2.1 ≠ .done then wgxEnd (modWgx r.2.2 d i fun w => { w with push := none, outs := [] }) d t.cmd r.2.1 0
  else
    let bad := anyPoi r.1
    let s := modWgx r.2.2 d i fun w => { w with push := some { t with next := t.next + n, poi := t.poi || bad } }
    wgxSendData s d i ⟨w.seqTx, t.next, r.1.map (·.1), decide (t.next + n = t.len), t.tensor, t.step, t.fmt, bad, 0, 0, false, false, false⟩ false

/-- A session's port is free for a WGX frame: responses go first, and while the gate is closed frames are held (R358, R417). -/
def wgxFree (s : State) (d i : Nat) : Bool :=
  let p := wsPort (getWgx s d i).ws % 16
  let q := getPort s d p
  portLive s d p && !(getPd s d).gate && q.tx.isNone && q.wgxTx.isNone && q.txq.isEmpty

/-- WGX_FRAME_SEND (R355, R358): the next frame of a session leaves: an RST, a retransmission, a PULL frame, an ACK, or a new
DATA frame that the window allows. -/
def execWgxFrameSend (d : Fin 6) (i : Fin 32) (s : State) : Out :=
  let w := getWgx s d.val i.val
  if !w.live || w.failed || !wgxFree s d.val i.val then .next s
  else if w.rstNow then
    .next (wgxOut (modWgx s d.val i.val fun w => { w with rstNow := false }) d.val i.val
      (wgxFrame w 4 0 false false false w.seqTx 0 0 0 []))
  else match w.outs.find? (·.again) with
    | some o => .next (wgxSendData s d.val i.val o true)
    | none =>
      match w.pull.filter (·.again) with
      | some t =>
        let retx := t.sentAt.isSome
        let s := modWgx s d.val i.val fun w => { w with pull := some { t with again := false, sentAt := some (nowPs s) } }
        let s := wgxOut s d.val i.val (wgxFrame w 3 0 false retx false w.seqTx t.tensor t.step 0 (leBytes 8 t.len))
        .next (if retx then wgxCount s d.val i.val 8 else s)
      | none =>
        if w.ackNow then
          .next (wgxOut (modWgx s d.val i.val fun w => { w with ackNow := false, inOrder := 0, due := none }) d.val i.val
            (wgxFrame w 2 0 false false false w.seqTx 0 0 0 (leBytes 8 (wgxBitmap w))))
        else match w.push with
          | some t => .next (if t.next < t.len && wgxRoom w && linkOpen s then wgxSendNew s d.val i.val t else s)
          | none => .next s

/-! ### Loss (R355, R356) -/

/-- A frame was lost: it is sent again, or the session fails after more than `RMAX` losses. -/
def wgxLost (s : State) (d i seq : Nat) (fast : Bool) : State :=
  let w := getWgx s d i
  match w.outs.find? (·.seq == seq) with
  | some o =>
    if o.losses + 1 > wsRmax w.ws then wgxFail s d i
    else modWgx s d i fun w => { w with outs := w.outs.map fun x =>
      if x.seq == seq then { x with losses := x.losses + 1, again := true, fast := x.fast || fast } else x }
  | none => s

/-- WGX_RTO_EXPIRY (R355, R356): `RTO` µs have passed since a DATA frame, or the PULL frame when `seq` is none, was last sent.
While the Snuffer holds the port the timers stand still. -/
def execWgxRtoExpiry (d : Fin 6) (i : Fin 32) (seq : Option Nat) (s : State) : Out :=
  let w := getWgx s d.val i.val
  if !w.live || w.failed || (getPd s d.val).gate then .next s
  else match seq with
    | some q =>
      match w.outs.find? fun o => o.seq == q && !o.again && !o.held with
      | some o => .next (wgxLost (reachPs s (o.sentAt + wsRto w.ws * 1000000)) d.val i.val q false)
      | none => .next s
    | none =>
      match w.pull.filter fun t => !t.first && !t.again with
      | some t =>
        match t.sentAt with
        | some at_ =>
          let s := reachPs s (at_ + wsRto w.ws * 1000000)
          .next (if t.losses + 1 > wsRmax w.ws then wgxFail s d.val i.val
            else modWgx s d.val i.val fun w => { w with pull := some { t with again := true, losses := t.losses + 1 } })
        | none => .next s
      | none => .next s

/-- WGX_ACK_TIMER (R354): 2 µs after the earliest unacknowledged in-order frame an ACK is owed. -/
def execWgxAckTimer (d : Fin 6) (i : Fin 32) (s : State) : Out :=
  match (getWgx s d.val i.val).due with
  | some t => .next (modWgx (reachPs s t) d.val i.val fun w => { w with ackNow := true, due := none })
  | none => .next s

/-! ### Reception (R353) -/

/-- A WGX header (Table 10.4) and its payload. -/
structure WHdr where
  typ : Nat
  fmt : Nat
  poi : Bool
  last : Bool
  sid : Nat
  seq : Nat
  ack : Nat
  tensor : Nat
  step : Nat
  win : Nat
  ofs : Nat
  pay : List Byte
  deriving DecidableEq, Repr

/-- Read a frame; `none` when its length, CRC-32C, version or type is wrong (Table 10.6 row 1). -/
def wgxParse (f : List Byte) : Option WHdr :=
  let w0 := wordAt f 0
  let w1 := wordAt f 1
  let w2 := wordAt f 2
  let n := bits w2 0 16
  if f.length != 36 + n then none
  else if crc32c (f.take (32 + n)) != leNat (f.drop (32 + n)) || bits w0 60 4 != 1 then none
  else if bits w0 56 4 == 0 || bits w0 56 4 > 4 then none
  else some ⟨bits w0 56 4, bits w0 52 4, bit w0 50, bit w0 48, bits w0 32 16, bits w0 0 32, bits w1 32 32, bits w1 0 32, bits w2 32 32,
    bits w2 16 16, bits (wordAt f 3) 0 48, (f.drop 32).take n⟩

/-- The session of an identifier. -/
def sidOf (s : State) (d sid : Nat) : Option Nat :=
  ((getPd s d).wgx.find? fun e => e.2.live && wsSid e.2.ws == sid).map (·.1)

/-- Row 1 of Table 10.6: the frame is discarded. -/
def wgxBad (s : State) (d p : Nat) (f : List Byte) : State :=
  let s := match sidOf s d (bits (wordAt f 0) 32 16) with
    | some i => wgxCount s d i 0
    | none => s
  raiseCoal s (pdInc 0x0941 d p (bits (wordAt f 0) 32 16))

/-- A push is complete when every frame has been acknowledged (R357). -/
def wgxPushDone (s : State) (d i : Nat) : State :=
  let w := getWgx s d i
  match w.push with
  | some t =>
    if t.next == t.len && w.outs.isEmpty then
      wgxEnd (modWgx s d i fun w => { w with push := none }) d t.cmd (if t.poi then .poisoned else .done) (if t.poi then 0 else t.count)
    else s
  | none => s

/-- Frames of a session whose `RTO` ended before this cycle were lost then, so that a later arrival does not count for them (R33, R356). -/
def wgxLapse (s : State) (d i : Nat) : State :=
  let w := getWgx s d i
  if w.failed || (getPd s d).gate then s
  else
    let late := w.outs.filter fun o => !o.again && !o.held && pastPs s (o.sentAt + wsRto w.ws * 1000000)
    late.foldl (fun s o => if (getWgx s d i).failed then s else wgxLost s d i o.seq false) s

/-- Frames acknowledged in the cycle of their `RTO` deadline (R33, R356). -/
def wgxTies (s : State) (d i : Nat) (gone : WgxOut → Bool) : State :=
  let w := getWgx s d i
  let n := (w.outs.filter fun o => gone o && !o.again && !o.held && atPs s (o.sentAt + wsRto w.ws * 1000000)).length
  modPd s d fun x => { x with tie := satAdd 16 x.tie n }

/-- What every frame from the peer says of the frames sent: those before `ACKSEQ` are acknowledged, and `WIN` holds (R354,
R355). -/
def wgxAcked (s : State) (d i ack win : Nat) : State :=
  let n := (ack + 2 ^ 32 - (getWgx s d i).ackTx) % 2 ^ 32
  let s := if n > ((getWgx s d i).seqTx + 2 ^ 32 - (getWgx s d i).ackTx) % 2 ^ 32 then s
    else wgxTies s d i fun o => decide ((o.seq + 2 ^ 32 - (getWgx s d i).ackTx) % 2 ^ 32 < n)
  let s := modWgx s d i fun w =>
    let n := (ack + 2 ^ 32 - w.ackTx) % 2 ^ 32
    if n > (w.seqTx + 2 ^ 32 - w.ackTx) % 2 ^ 32 then w
    else { w with ackTx := ack, winTx := win, outs := w.outs.filter fun o => decide ((o.seq + 2 ^ 32 - w.ackTx) % 2 ^ 32 ≥ n) }
  wgxPushDone s d i

/-- Receive a frame of a type: row 1, then `k` for the session it names. -/
def wgxReceive (s : State) (d p typ : Nat) (f : List Byte) (k : State → Nat → WHdr → State) : State :=
  if !portLive s d p then s
  else
    let s := portCount s d p 0
    match wgxParse f with
    | none => wgxBad s d p f
    | some h =>
      match sidOf s d h.sid with
      | none => wgxBad s d p f
      | some i =>
        if h.typ != typ then s
        else k (wgxLapse s d i) i h

/-- A pull is complete when `ACKSEQ` has passed its last frame and every byte is written (R357). -/
def wgxPullDone (s : State) (d i : Nat) : State :=
  let w := getWgx s d i
  match w.pull with
  | some t =>
    match t.seqLast with
    | some q =>
      let gone := decide ((w.ackRx + 2 ^ 32 - q) % 2 ^ 32 > 0) && decide ((w.ackRx + 2 ^ 32 - q) % 2 ^ 32 < 2 ^ 31)
      let reach := (sortBy (·.1) t.got).foldl (fun n r => if r.1 ≤ n then max n r.2 else n) 0
      if gone && decide (reach ≥ t.len) then
        wgxEnd (modWgx s d i fun w => { w with pull := none }) d t.cmd (if t.poi then .poisoned else .done) (if t.poi then 0 else t.count)
      else s
    | none => s
  | none => s

/-- Move `ACKSEQ` past frames that are held. -/
def wgxAdvance : Nat → Nat → List Nat → Nat × List Nat
  | 0, a, l => (a, l)
  | n + 1, a, l => if l.contains a then wgxAdvance n ((a + 1) % 2 ^ 32) (l.filter (· != a)) else (a, l)

/-- A frame is held as received, and an ACK may be owed (R354). `seven` says that row 7 decided it. -/
def wgxHold (now : Nat) (seven : Bool) (seq : Nat) (w : Wgx) : Wgx :=
  if seq == w.ackRx then
    let a := wgxAdvance 65 ((seq + 1) % 2 ^ 32) w.heldRx
    let jumped := decide (a.1 ≠ (seq + 1) % 2 ^ 32)
    let n := w.inOrder + 1
    { w with ackRx := a.1, heldRx := a.2, inOrder := n, ackNow := w.ackNow || jumped || decide (n ≥ wsAckn w.ws),
             due := if w.due.isSome then w.due else some (now + 2000000) }
  else { w with heldRx := w.heldRx ++ [seq], ackNow := w.ackNow || seven }

/-- WGX_DATA (R353, R354): a DATA frame is decided by rows 4 to 7 of Table 10.6. -/
def execWgxData (d : Fin 6) (p : Fin 16) (f : List Byte) (s : State) : Out :=
  .next (wgxReceive s d.val p.val 1 f fun s i h =>
    let s := wgxAcked s d.val i h.ack h.win
    let w := getWgx s d.val i
    let n := (h.seq + 2 ^ 32 - w.ackRx) % 2 ^ 32
    if n ≥ 2 ^ 31 || w.heldRx.contains h.seq then
      wgxCount (modWgx s d.val i fun w => { w with ackNow := true, pull := w.pull.map fun t => { t with count := satAdd 32 t.count 1 } }) d.val i 3
    else if n > 64 then wgxCount s d.val i 4
    else match w.pull.filter (fun t => t.tensor == h.tensor && t.step == h.step && decide (h.ofs + h.pay.length ≤ t.len)) with
      | none => wgxPullDone (wgxCount (modWgx s d.val i (wgxHold (nowPs s) false h.seq)) d.val i 5) d.val i
      | some t =>
        match modWrite s (diePd d.val) (t.addr + h.ofs) (h.pay.map fun b => (b, h.poi)) with
        | none => modWait s (t.addr + h.ofs) h.pay.length
        | some r =>
          let s := wgxCount (modWgx r.1 d.val i (wgxHold (nowPs s) true h.seq)) d.val i 6
          if r.2 ≠ .done then wgxEnd (modWgx s d.val i fun w => { w with pull := none }) d.val t.cmd r.2 0
          else
            let t := { t with first := true, again := false, poi := t.poi || h.poi, got := t.got ++ [(h.ofs, h.ofs + h.pay.length)],
                              seqLast := if h.last then some h.seq else t.seqLast }
            wgxPullDone (modWgx s d.val i fun w => { w with pull := some t }) d.val i)

/-- The frames of a session that an ACK shows lost: at least three higher ones are held (R355). -/
def wgxThree (w : Wgx) : List Nat :=
  let pos (q : Nat) : Nat := (q + 2 ^ 32 - w.ackTx) % 2 ^ 32
  (w.outs.filter fun o => !o.held && !o.fast && !o.again &&
    decide ((w.outs.filter fun x => x.held && decide (pos x.seq > pos o.seq)).length ≥ 3)).map (·.seq)

/-- A frame that the bitmap of an ACK shows held (Table 10.5). -/
def wgxMark (ack bm : Nat) (o : WgxOut) : WgxOut :=
  let k := (o.seq + 2 ^ 32 - (ack + 1)) % 2 ^ 32
  if k < 64 ∧ bit bm k then { o with held := true, again := false } else o

/-- WGX_ACK (R353, R355): acknowledgements and the bitmap apply to the outstanding frames. -/
def execWgxAck (d : Fin 6) (p : Fin 16) (f : List Byte) (s : State) : Out :=
  .next (wgxReceive s d.val p.val 2 f fun s i h =>
    let s := wgxCount (wgxAcked s d.val i h.ack h.win) d.val i 2
    let bm := leNat (h.pay.take 8)
    let s := wgxTies s d.val i fun o => (wgxMark h.ack bm { o with held := false }).held
    let s := modWgx s d.val i fun w => { w with outs := w.outs.map (wgxMark h.ack bm) }
    (wgxThree (getWgx s d.val i)).foldl (fun s q => wgxLost s d.val i q true) s)

/-- WGX_PULL_FRAME (R351, R354): Table 10.6 has no row for a PULL frame from the peer; its acknowledgement holds, and nothing
else follows. -/
def execWgxPullFrame (d : Fin 6) (p : Fin 16) (f : List Byte) (s : State) : Out :=
  .next (wgxReceive s d.val p.val 3 f fun s i h => wgxAcked s d.val i h.ack h.win)

/-- WGX_RST (R353): the session restarts, and pending transfers complete FAULT. -/
def execWgxRst (d : Fin 6) (p : Fin 16) (f : List Byte) (s : State) : Out :=
  .next (wgxReceive s d.val p.val 4 f fun s i _ =>
    let s := wgxCount (wgxEndBoth s d.val i .fault) d.val i 1
    raiseInc (modWgx s d.val i fun w => { wgxRestart w with rstNow := w.rstNow, failed := w.failed }) (pdInc 0x0942 d.val p.val i))

end Sys2Proof.Machine
end

