-- ==== Sys2Proof/Machine/Counters.lean ====
section
/-!
DEFINITION. The counter sets (17.1), their latched copies (17.2), and records written for the maintenance engine.
-/
namespace Sys2Proof.Machine
open Sys2Proof

/-- Entry `k` of a map of counters. -/
def ctr0 (m : SMap Nat) (k : Nat) : Nat := mget 0 m k

/-- The six causes of a stall map, in the order of Table 8.14. -/
def sixCauses (m : SMap Nat) : List Nat := (List.range 6).map (ctr0 m)

/-- Words per block of a counter set; `none` for a reserved code (Table 17.1). -/
def setWords (k : Nat) : Option Nat :=
  match k with
  | 0x01 => some 325 | 0x02 => some 2593 | 0x03 => some 1200 | 0x04 => some 384 | 0x05 => some 17 | 0x06 => some 52
  | 0x07 => some 39 | 0x10 => some 3 | 0x11 => some 144 | 0x20 => some 16 | 0x21 => some 208 | 0x22 => some 288
  | _ => none

/-- Tile cycles since a set of a tile was last cleared. -/
def sinceClear (s : State) (t k : Nat) : Nat := cyclesOf s t - mget 0 (getTile s t).ctrAt k

/-- The counters of a tile set (Table 17.1). -/
def tileSet (s : State) (k t : Nat) : List Nat :=
  let units := (List.range 6).map fun i => getFlow s t (48 + i)
  let wicks := (List.range 48).map fun c => getWick s t c
  let mus := (List.range 4).map fun m => getMu s t m
  let cus := (List.range 2).map fun c => getCu s t c
  let qs (f : Flow) : List DQ := (List.range 8).map fun q => getQ f q
  let x := getTile s t
  match k with
  | 0x01 => sinceClear s t k :: (units.flatMap fun f => sixCauses f.stall) ++ wicks.flatMap fun w => sixCauses w.stall
  | 0x02 => sinceClear s t k :: (wicks.flatMap fun w => (List.range 8).flatMap fun q =>
      (List.range 6).map fun i => ctr0 w.stall (6 + q * 6 + i)) ++ units.flatMap fun f => (qs f).flatMap fun q => sixCauses q.stall
  | 0x03 => (wicks.flatMap fun w => (List.range 8).flatMap fun q => [ctr0 w.qacc q, ctr0 w.qref q, ctr0 w.qdisc q]) ++
      units.flatMap fun f => (qs f).map (·.qarr)
  | 0x04 => units.flatMap fun f => (List.range 64).map fun o => (getStrm f o).ssent
  | 0x05 => cus.map (·.checkSkip) ++ cus.map (·.shadowCyc) ++ mus.map (·.corrected) ++ [x.corrW] ++
      mus.map (·.snapWait) ++ mus.map (·.snapSkip)
  | 0x06 => wicks.map (·.tie) ++ cus.map (·.maskTie) ++ [x.tieW, x.tieC]
  | _ => ((List.range 6).flatMap fun p => (List.range 2).flatMap fun n =>
      [ctr0 x.grants (p + 8 * n), ctr0 x.stalls (p + 8 * n), (mget Link.ok x.links (p + 8 * n)).retries]) ++
      (List.range 3).map (ctr0 x.fwd)

/-- `PLAYER` of a predictor word (Table 4.8). -/
def prPlayer (w : W64) : Nat := bits w.toNat 4 4

/-- The counters of a region set. -/
def regionSet (s : State) (k r : Nat) : List Nat :=
  if k == 0x10 then let g := getRegion s r; [g.epdisc, g.wdN, g.wdSpilled]
  else (List.range 16).flatMap fun p => (List.range 9).map fun j =>
    (regionCus s r).foldl (fun n e =>
      let c := getCu s e.1 e.2
      c.pred.foldl (fun n w => if prPlayer w.2 == p && w.2 ≠ 0 then n + ctr0 c.pc (w.1 * 9 + j) else n) n) 0

/-- The counters of a die set; `n` counts within the class. -/
def dieSet (s : State) (k n : Nat) : List Nat :=
  match k with
  | 0x20 =>
    let m := getMsd s n
    ((List.range 3).flatMap fun c => [ctr0 m.served c, ctr0 m.defN c, ctr0 m.refused c, ctr0 m.defNs c]) ++
      [m.corrected, m.uncorr, m.repaired, m.lostReads]
  | 0x21 =>
    let x := getPd s n
    ((List.range 16).flatMap fun p => (List.range 12).map fun i => if portOn x p then ctr0 (getPort s n p).ctr i else 0) ++
      (List.range 16).map (ctr0 x.ctr)
  | _ => (List.range 32).flatMap fun i => (List.range 9).map (ctr0 (mget Wgx.none (getPd s n).wgx i).ctr)

/-- A set is a tile set, a region set or a die set. -/
def isTileSet (k : Nat) : Bool := decide (k < 0x10)
def isRegionSet (k : Nat) : Bool := k == 0x10 || k == 0x11

/-- The first die of the class of a die set, and the number of dies. -/
def setDies (k : Nat) : Nat × Nat := if k == 0x20 then (8, 24) else (2, 6)

/-- The counters of one block. -/
def ctrBlock (s : State) (k b : Nat) : List Nat :=
  if isTileSet k then tileSet s k b
  else if isRegionSet k then regionSet s k b
  else dieSet s k (b - (setDies k).1)

/-- The words of one block read from the latched copies (R529, R530). -/
def latchBlock (s : State) (k b : Nat) : List Nat :=
  let v := s.latch
  let tm := if isTileSet k then (match v.late.lookup b with | some e => e.2 | none => v.time) else v.time
  ctrBlock { s with wicks := v.wicks, flows := v.flows, cus := v.cus, mus := v.mus, tiles := v.tiles, msds := v.msds, pds := v.pds,
                    time := tm, regions := s.regions.map fun e =>
                      let o := mget Region.none v.regions e.1
                      (e.1, { e.2 with epdisc := o.epdisc, wdN := o.wdN, wdSpilled := o.wdSpilled }) } k b

/-- `BWNUM` of a latched block. -/
def latchWnum (s : State) (k b : Nat) : Nat :=
  if isTileSet k then (match s.latch.late.lookup b with | some e => e.1 | none => s.latch.wnum) else s.latch.wnum

/-- Clear the counters of one block of a tile set. -/
def clearTileSet (s : State) (k t : Nat) : State :=
  let cyc := cyclesOf s t
  let wicks (f : Wick → Wick) (s : State) : State := { s with wicks := mmap Wick.reset s.wicks (fun j => j / 48 == t) f }
  let flows (f : Flow → Flow) (s : State) : State := { s with flows := mmap Flow.reset s.flows (fun j => j / 6 == t) f }
  let queues (f : DQ → DQ) (x : Flow) : Flow := { x with queues := mmap DQ.empty x.queues (fun _ => true) f }
  let stamp (s : State) : State := modTile s t fun x => { x with ctrAt := mset 0 x.ctrAt k cyc }
  match k with
  | 0x01 => stamp (flows (fun f => { f with stall := [] }) (wicks (fun w => { w with stall := w.stall.filter fun e => decide (e.1 ≥ 6) }) s))
  | 0x02 => stamp (flows (queues fun q => { q with stall := [] })
      (wicks (fun w => { w with stall := w.stall.filter fun e => decide (e.1 < 6) }) s))
  | 0x03 => flows (queues fun q => { q with qarr := 0 }) (wicks (fun w => { w with qacc := [], qref := [], qdisc := [] }) s)
  | 0x04 => flows (fun f => { f with streams := mmap Strm.none f.streams (fun _ => true) fun x => { x with ssent := 0 } }) s
  | 0x05 =>
    let s := { s with cus := mmap Cu.reset s.cus (fun j => j / 2 == t) fun c => { c with checkSkip := 0, shadowCyc := 0 },
                      mus := mmap Mu.reset s.mus (fun j => j / 4 == t) fun m => { m with corrected := 0, snapWait := 0, snapSkip := 0 } }
    modTile s t fun x => { x with corrW := 0 }
  | 0x06 =>
    let s := wicks (fun w => { w with tie := 0 }) { s with cus := mmap Cu.reset s.cus (fun j => j / 2 == t) fun c => { c with maskTie := 0 } }
    modTile s t fun x => { x with tieW := 0, tieC := 0 }
  | _ => modTile s t fun x =>
      { x with grants := [], stalls := [], fwd := [], links := mmap Link.ok x.links (fun _ => true) fun l => { l with retries := 0 } }

/-- Clear the counters of one block (R527). -/
def ctrClear (s : State) (k b : Nat) : State :=
  if isTileSet k then clearTileSet s k b
  else if k == 0x10 then modRegion s b fun g => { g with epdisc := 0, wdN := 0, wdSpilled := 0 }
  else if k == 0x11 then (regionCus s b).foldl (fun s e => modCu s e.1 e.2 fun c => { c with pc := [] }) s
  else
    let n := b - (setDies k).1
    match k with
    | 0x20 => modMsd s n fun m =>
        { m with served := [], defN := [], refused := [], defNs := [], corrected := 0, uncorr := 0, repaired := 0, lostReads := 0 }
    | 0x21 => modPd s n fun x => { x with ctr := [], ports := mmap PdPort.reset x.ports (fun _ => true) fun p => { p with ctr := [] } }
    | _ => modPd s n fun x => { x with wgx := mmap Wgx.none x.wgx (fun _ => true) fun w => { w with ctr := [] } }

/-- `BSTAT` of a block (Table 17.3). A region's block is its sum over all tiles and always read. -/
def ctrStat (s : State) (k b : Nat) : Nat :=
  if isTileSet k then ofBit (fenced s b)
  else if isRegionSet k then 0
  else if dieFenced s b then 1
  else if (if k == 0x20 then (getMsd s (b - 8)).inReset else (getPd s (b - 2)).inReset) || (getDie s b).down then 2
  else 0

/-- The blocks of a read, in ascending order (R524). -/
def ctrBlocks (s : State) (k t0 t1 : Nat) : List Nat :=
  if isTileSet k then cornerTiles t0 t1
  else if isRegionSet k then
    (s.regions.filter fun e => (regionTiles e.2).any (inCorners t0 t1)).map (·.1)
  else
    let c := setDies k
    ((List.range c.2).map (c.1 + ·)).filter fun d => decide (t0 % 256 ≤ d) && decide (d ≤ t1 % 256)

/-! ### SNAPSHOT: the latched copies -/

/-- The entries of a map that belong to tiles that took the wave are new; the others keep the old copy. -/
def latchMap {α : Type} (new old : SMap α) (miss : List Nat) (per : Nat) : SMap α :=
  if miss.isEmpty then new
  else (old.filter fun e => miss.contains (e.1 / per)).foldl (fun m e => mput m e.1 e.2)
    (new.filter fun e => !miss.contains (e.1 / per))

/-- Every tile and satellite latches its counters; a tile that misses the wave keeps the older copy (R529, Table 17.8). -/
def latchView (s : State) (wnum : Nat) (miss : List Nat) : View :=
  let o := s.latch
  let keep := miss.map fun t => (t, match o.late.lookup t with | some e => e | none => (o.wnum, o.time))
  { wnum := wnum, time := s.time, wicks := latchMap s.wicks o.wicks miss 48, flows := latchMap s.flows o.flows miss 6,
    cus := latchMap s.cus o.cus miss 2, mus := latchMap s.mus o.mus miss 4, tiles := latchMap s.tiles o.tiles miss 1,
    regions := s.regions, msds := s.msds, pds := s.pds, late := keep.foldl (fun m e => mput m e.1 e.2) [] }

/-- An armed clear applies unless its tile missed the wave. -/
def armedNow (miss : List Nat) (k : Nat) : Bool := !(isTileSet (k / 65536) && miss.contains (k % 65536))

/-- The counters at a SNAPSHOT wave: latched, then cleared where that was armed (R529, R530). -/
def latchAll (s : State) (wnum : Nat) (miss : List Nat) : State :=
  let go := s.armed.filter fun e => armedNow miss e.1
  let s := { s with latch := latchView s wnum miss, armed := s.armed.filter fun e => !armedNow miss e.1 }
  go.foldl (fun s e => ctrClear s (e.1 / 65536) (e.1 % 65536)) s

/-! ### Records of the maintenance engine -/

/-- Words as little-endian bytes. -/
def wordBytes (ws : List Nat) : List Byte := ws.flatMap (leBytes 8)

/-- Write a record where an operand's space selector points: module (0) or the host memory of port 0 or 1. `none` is a
write that waits for a shadow granule of an MU (R172). -/
def writeAt (s : State) (sp a : Nat) (bs : List Byte) : Option (State × Outc) :=
  if sp == 0 then modWrite s dieCd a (clean bs)
  else some (hostWrite s (sp - 1) a bs, .done)

end Sys2Proof.Machine
end

