-- ==== Sys2Proof/Machine/Mail.lean ====
section
/-!
DEFINITION. The mailboxes (15.1): posts, the checks of a request, replies, their deadlines, and how a command ends.
-/
namespace Sys2Proof.Machine
open Sys2Proof

/-- The mailbox pair of a port. -/
def getMb (s : State) (p : Nat) : MbPort := mget MbPort.reset s.mantle.mb p
/-- Replace a mailbox pair. -/
def setMb (s : State) (p : Nat) (x : MbPort) : State := { s with mantle := { s.mantle with mb := mset MbPort.reset s.mantle.mb p x } }
/-- Change a mailbox pair. -/
def modMb (s : State) (p : Nat) (f : MbPort → MbPort) : State := setMb s p (f (getMb s p))

/-- Change an accepted mailbox command. -/
def modMail (s : State) (id : Nat) (f : MbCmd → MbCmd) : State :=
  { s with mantle := { s.mantle with cmds := s.mantle.cmds.map fun c => if c.id == id then f c else c } }

/-- Remove a mailbox command. -/
def delMail (s : State) (id : Nat) : State :=
  { s with mantle := { s.mantle with cmds := s.mantle.cmds.filter (·.id != id) } }

/-- Word `i` of a request (Table 15.4). -/
def mbWord (c : MbCmd) (i : Nat) : Nat := wordAt c.data i

/-- A command completes: Mantle's reply sets out for the island in completion order, unless its port was reset (R472, R476). -/
def mailEnd (s : State) (c : MbCmd) (o : Outc) (stat : Nat) (data : List Byte) : State :=
  if c.discard then delMail s c.id
  else
    let s := modMail s c.id fun x => { x with ph := .done }
    { s with mantle := { s.mantle with outbox := s.mantle.outbox ++ [⟨c.port, c.seq, false, o, stat, data, false, some c.id⟩] } }

/-- A command completes as its rules state, with status 0x00. -/
def mailOk (s : State) (c : MbCmd) (ws : List Nat) : State := mailEnd s c .done 0 (wordBytes ws)

/-- A command fails with a status of Table 15.2. -/
def mailFail (s : State) (c : MbCmd) (stat : Nat) : State :=
  let o : Outc := match stat with
    | 6 => .refusedFull | 9 => .timeout | 0xA => .refusedFenced | _ => .fault
  mailEnd s c o stat []

/-- The command that waits for the wave of a tag. -/
def mailOfTag (s : State) (tag : Nat) : Option MbCmd := s.mantle.cmds.find? fun c => c.ph = .wave tag

/-! ### The catalogue (Tables 15.3, 21.4) -/

/-- Request length check: least and greatest. -/
def mbLen (opc : Nat) : Option (Nat × Nat) :=
  match opc with
  | 0x0001 => some (0, 4080)
  | 0x0002 | 0x0003 | 0x0010 | 0x0020 | 0x0039 | 0x0041 | 0x0048 | 0x0049 | 0x0050 | 0x0058 | 0x0059 | 0x0060 | 0x0062 | 0x0073 =>
    some (0, 0)
  | 0x0011 | 0x0030 | 0x0031 | 0x0040 | 0x0042 | 0x0051 | 0x0052 | 0x0071 | 0x0072 => some (8, 8)
  | 0x0021 => some (8, 520)
  | 0x0028 | 0x0070 => some (16, 16)
  | 0x0038 => some (24, 24)
  | 0x0061 => some (64, 64)
  | 0x0100 | 0x0101 | 0x0112 | 0x0121 | 0x0130 | 0x0132 => some (0, 0)
  | 0x0111 | 0x0120 | 0x0140 => some (8, 8)
  | 0x0102 => some (48, 48)
  | 0x0110 => some (152, 152)
  | 0x0131 => some (192, 192)
  | 0x0150 => some (104, 104)
  | _ => none

/-- A command needs the semaphore. -/
def mbSem (opc : Nat) : Bool :=
  [0x0021, 0x0028, 0x0030, 0x0031, 0x0038, 0x0040, 0x0042, 0x0048, 0x0049, 0x0052, 0x0059, 0x0061, 0x0062, 0x0070, 0x0071,
    0x0072, 0x0110, 0x0111, 0x0121, 0x0130, 0x0131, 0x0132, 0x0150].contains opc

/-- A command is accepted in a module state. -/
def mbState (opc mst : Nat) : Bool :=
  if [0x0070, 0x0071, 0x0130, 0x0131].contains opc then mst == 5 || mst == 8
  else if opc == 0x0049 then mst == 6
  else if [0x0020, 0x0021, 0x0030, 0x0031, 0x0038, 0x0039, 0x0040, 0x0042, 0x0048, 0x0052, 0x0061, 0x0062, 0x0072, 0x0102, 0x0110,
      0x0150].contains opc then mst == 5
  else true

/-- A command runs for longer than 1 ms and holds the order only for its start (R472): `MB_UNFENCE` of a die, `MB_PILOT_WAKE`,
`MB_UPD_STAGE`. -/
def mbBackground (c : MbCmd) : Bool :=
  c.opc == 0x0049 || c.opc == 0x0070 || c.opc == 0x0031 && bit (mbWord c 0) 63

/-- A command holds the order of R472. -/
def mbHolds (c : MbCmd) : Bool :=
  c.sem && (match c.ph with
    | .done => false
    | .ready => true
    | _ => !mbBackground c)

/-- A command may start (R472). -/
def mbMayStart (s : State) (c : MbCmd) : Bool :=
  c.ph = .ready && (!c.sem || !(s.mantle.cmds.takeWhile (·.id != c.id)).any mbHolds)

/-- The command of an opcode that starts next. -/
def mailNext (s : State) (opc : Nat) : Option MbCmd := s.mantle.cmds.find? fun c => c.opc == opc && mbMayStart s c

/-- Start the next command of an opcode. -/
def mailRun (s : State) (opc : Nat) (k : MbCmd → State) : State := match mailNext s opc with
  | some c => k c
  | none => s

/-- An incident of the CD. -/
def cdInc (cls detail : Nat) : Inc := mkInc cls utCd 1 noTile 0 detail

/-! ### Replies in the island (R474, R475) -/

/-- Write the head of a port's queue into a free reply area and set `MBX` (R474). -/
def mbDeliver (s : State) (p : Nat) : State :=
  let x := getMb s p
  match x.reply, x.queue with
  | none, r :: rest => setCause (setMb s p { x with reply := some r, queue := rest }) p cMbx
  | _, _ => s

/-- A reply joins the queue of its port. -/
def mbQueue (s : State) (r : MbReply) : State := mbDeliver (modMb s r.port fun x => { x with queue := x.queue ++ [r] }) r.port

/-- Replies held for a port (R470). -/
def mbHeld (x : MbPort) : Nat := ofBit x.reply.isSome + x.queue.length

/-- MBH_POST (R470): a post is taken while `BUSY` = 0 and fewer than 8 posts and replies are held; otherwise it is counted. -/
def execMbhPost (p : Fin 2) (w : W32) (s : State) : Out :=
  if !hostUp s p.val || !bit w.toNat 0 then .next s
  else
    let x := getMb s p.val
    if x.busy || x.qout + mbHeld x ≥ 8 then .next (setMb s p.val { x with mrej := satAdd 16 x.mrej 1 })
    else .next (setMb s p.val { x with busy := true, mto := bits w.toNat 16 16, qout := x.qout + 1 })

/-- The check of a copied request that fails first (R471), as a status. -/
def mbCheck (s : State) (p opc len : Nat) : Option Nat :=
  match mbLen opc with
  | none => some 1
  | some (lo, hi) =>
    if len < lo || hi < len || len % 8 != 0 then some 2
    else if !mbState opc s.boot.mst then some 4
    else if mbSem opc && !holdsSem s p then some 3
    else none

/-- MAILBOX_REQUEST_CHECK (R471): Mantle copies the posted request and checks it; a command that passes is accepted. -/
def execMailboxRequestCheck (p : Fin 2) (s : State) : Out :=
  let x := getMb s p.val
  if !x.busy then .next s
  else
    let opc := bits x.hdr.toNat 0 16
    let len := bits x.hdr.toNat 16 12
    let seq := bits x.hdr.toNat 32 32
    let data := (List.range len).map fun i => mget 0 x.req i
    let s := setMb s p.val { x with busy := false }
    match mbCheck s p.val opc len with
    | some st =>
      let s := if st == 3 then modHost s p.val fun h => { h with rwsign := satAdd 16 h.rwsign 1 } else s
      .next { s with mantle := { s.mantle with outbox := s.mantle.outbox ++ [⟨p.val, seq, false, .fault, st, [], false, none⟩] } }
    | none =>
      let due := nowPs s + (if x.mto == 0 then 200 else x.mto) * 10000000000
      let c : MbCmd := ⟨s.mantle.nextId, p.val, seq, opc, mbSem opc, data, due, false, false, .ready⟩
      .next { s with mantle := { s.mantle with cmds := s.mantle.cmds ++ [c], nextId := s.mantle.nextId + 1 } }

/-- A reply to a command arrives in the cycle of its deadline (R33, R475). -/
def replyTie (s : State) : Option MbCmd → Bool
  | some c => !c.timedOut && atPs s c.due
  | none => false

/-- The island answers TIMEOUT for a command whose reply deadline has come (R475); the command runs on. -/
def mbTimeOut (s : State) (c : MbCmd) : State :=
  let s := modMail s c.id fun x => { x with timedOut := true }
  let s := modMb s c.port fun x => { x with tocnt := satAdd 16 x.tocnt 1 }
  let s := raiseInc s (cdInc 0x0A08 0)
  mbQueue s ⟨c.port, c.seq, false, .timeout, 9, [], true, none⟩

/-- A command whose reply deadline has passed was answered before a later reply reaches the island (R33, R34). -/
def mbLapse (s : State) (id : Option Nat) : State :=
  match s.mantle.cmds.find? fun c => id == some c.id with
  | some c => if !c.timedOut && !c.discard && pastPs s c.due then mbTimeOut s c else s
  | none => s

/-- A command has been answered TIMEOUT already. -/
def replyLate : Option MbCmd → Bool
  | some c => c.timedOut
  | none => false

/-- MAILBOX_REPLY (R474): Mantle's next reply reaches the island and is queued; one in the deadline cycle counts in `TIE`. -/
def execMailboxReply (s : State) : Out :=
  match s.mantle.outbox with
  | [] => .next s
  | r :: rest =>
    let s := mbLapse { s with mantle := { s.mantle with outbox := rest } } r.cmd
    let c := s.mantle.cmds.find? fun c => r.cmd == some c.id
    let late := replyLate c
    let tie := replyTie s c
    let s := match c with | some c => delMail s c.id | none => s
    let s := modMb s r.port fun x => { x with qout := x.qout - 1, tie := if tie then satAdd 8 x.tie 1 else x.tie }
    .next (mbQueue s { r with late := late })

/-- MBM_ACK (R474): the matching `ASEQ` releases the reply area, and the next reply is written. -/
def execMbmAck (p : Fin 2) (aseq : W32) (s : State) : Out :=
  if !hostUp s p.val then .next s
  else
    let x := getMb s p.val
    match x.reply with
    | some r => if r.seq == aseq.toNat then .next (mbDeliver (setMb s p.val { x with reply := none }) p.val) else .next s
    | none => .next s

/-- MAILBOX_REPLY_DEADLINE (R475): the first command of a port whose deadline comes next is answered TIMEOUT by the island; the
command runs on. -/
def execMailboxReplyDeadline (p : Fin 2) (s : State) : Out :=
  let open_ := s.mantle.cmds.filter fun c => c.port == p.val && !c.timedOut && !c.discard
  let due := open_.foldl (fun n c => min n c.due) (2 ^ 80)
  match open_.find? (·.due == due) with
  | none => .next s
  | some c => .next (mbTimeOut (reachPs s c.due) c)

end Sys2Proof.Machine
end

