-- ==== Sys2Proof/Machine/Recover.lean ====
section
/-!
DEFINITION. Live table changes (9.9), the snapshots that Mantle keeps (16.5) and region recovery (16.6): what Mantle does
between the waves.
-/
namespace Sys2Proof.Machine
open Sys2Proof

/-- Change Mantle's part. -/
def modMantle (s : State) (f : Mantle → Mantle) : State := { s with mantle := f s.mantle }

/-- Mantle stages changes under a tag of its own and asks for the COMMIT wave; `groups` are those whose epoch rises. -/
def mantleTxn (s : State) (chgs : List Chg) (groups : List Nat) : State × Nat :=
  let r := mantleCommit s chgs
  (modTxn r.1 r.2 fun x => { x with groups := groups }, r.2)

/-! ### Break spans and column maps (R314, R317, R318) -/

/-- Steps from `a` up to `b` on a ring of `n`. -/
def ringDist (n a b : Nat) : Nat := (b + n - a) % n

/-- The shortest interval of a ring that holds two intervals, as one router holds one span. -/
def joinSpan (n : Nat) (old : Option (Nat × Nat)) (a b : Nat) : Nat × Nat :=
  match old with
  | none => (a, b)
  | some (lo, hi) =>
    let holds (x : Nat × Nat) : Bool := [lo, hi, a, b].all fun z => decide (ringDist n x.1 z ≤ ringDist n x.1 x.2)
    let cands := ([(lo, hi), (a, b), (lo, b), (a, hi)].filter holds)
    cands.foldl (fun m x => if ringDist n x.1 x.2 < ringDist n m.1 m.2 then x else m) (cands.headD (a, b))

/-- `RT_BRK` with an x span or a y span added (R318). -/
def addX (w : Nat) (a b : Nat) : Nat :=
  let p := joinSpan 100 (if bit w 31 then some (bits w 24 7, bits w 17 7) else none) a b
  setBits (setBits (setBits w 31 1 1) 24 7 p.1) 17 7 p.2
def addY (w : Nat) (a b : Nat) : Nat :=
  let p := joinSpan 110 (if bit w 63 then some (bits w 56 7, bits w 49 7) else none) a b
  setBits (setBits (setBits w 63 1 1) 56 7 p.1) 49 7 p.2

/-- What `RT_BRK` of a tile will be after the changes already asked for. -/
def brkSoon (s : State) (t : Nat) : Nat :=
  (s.mantle.tabs.flatMap (·.chgs)).foldl (fun w c => match c with
    | .brk u v => if u == t then v.toNat else w
    | _ => w) (getTile s t).brk.toNat

/-- Break spans over x links `xs` of the fields in a field row and y links `ys` of those in a field column. -/
def breakChgs (s : State) (fx fy : Nat) (xs ys : Option (Nat × Nat)) : List Chg :=
  (List.range 100).flatMap fun f =>
    if (f / 10 == fy && xs.isSome) || (f % 10 == fx && ys.isSome) then
      (fieldTiles f).map fun t =>
        let w := brkSoon s t
        let w := match xs with | some p => if f / 10 == fy then addX w p.1 p.2 else w | none => w
        let w := match ys with | some p => if f % 10 == fx then addY w p.1 p.2 else w | none => w
        Chg.brk t (BitVec.ofNat 64 w)
    else []

/-- Break spans over every link of a field (R314). -/
def fieldBreak (s : State) (f : Nat) : List Chg :=
  let fx := f % 10
  let fy := f / 10
  breakChgs s fx fy (some ((10 * fx + 99) % 100, 10 * fx + 9)) (some ((11 * fy + 109) % 110, 11 * fy + 10))

/-- A break span over one link, named by a tile and its output port (Table 16.5). -/
def linkBreak (s : State) (t port : Nat) : List Chg :=
  let fx := fieldOf t % 10
  let fy := fieldOf t / 10
  let x := tileX t
  let y := tileY t
  match port with
  | 0 => breakChgs s fx fy (some (x, x)) none
  | 1 => breakChgs s fx fy (some ((x + 99) % 100, (x + 99) % 100)) none
  | 2 => breakChgs s fx fy none (some (y, y))
  | _ => breakChgs s fx fy none (some ((y + 109) % 110, (y + 109) % 110))

/-- The birth map holds a tile skip for the row segment of a tile (Table 9.7). -/
def rowSkipped (s : State) (t : Nat) : Bool := s.boot.birth.any fun w =>
  bits w.toNat 60 4 == 1 && bits w.toNat 53 7 == fieldOf t && bits w.toNat 49 4 == frowOf t

/-- The row segment of a tile has an unused spare: `SKIP` still names it, and no fault of it is recorded (R315, Table 19.3). -/
def spareFree (s : State) (t : Nat) : Bool := bits (getTile s t).colmap.toNat 0 4 == 10 && !rowSkipped s t

/-- The record of a tile skip at a physical column of the row segment of a tile, repaired in the field (Table 9.7). -/
def skipRec (t p : Nat) : W64 := BitVec.ofNat 64 (2 ^ 60 + fieldOf t * 2 ^ 53 + frowOf t * 2 ^ 49 + p * 2 ^ 45 + 2 ^ 31)

/-- The physical column of a tile within its field (R315). -/
def physOf (s : State) (t : Nat) : Nat :=
  let sk := bits (getTile s t).colmap.toNat 0 4
  if fcolOf t < sk then fcolOf t else fcolOf t + 1

/-- The tiles of the row segment of a tile. -/
def segTiles (t : Nat) : List Nat := (List.range 10).map fun i => tileAt (tileX t / 10 * 10 + i) (tileY t)

/-- The column-map change that replaces a failed tile by its row's spare (R317), with what the neighbouring rows hold of it. -/
def repairChgs (s : State) (t : Nat) : List Chg :=
  let p := physOf s t
  let put (lo u : Nat) : Chg := .colmap u (BitVec.ofNat 32 (setBits (getTile s u).colmap.toNat lo 4 p))
  let up := (tileY t + 109) % 110
  let dn := (tileY t + 1) % 110
  (segTiles t).map (put 0) ++ (segTiles t).map (fun u => put 8 (tileAt (tileX u) up)) ++
    (segTiles t).map fun u => put 4 (tileAt (tileX u) dn)

/-- The tiles that move: their physical column lies strictly between the failed one and the spare, which is at column 10 while it is
unused (R317). -/
def movedTiles (t : Nat) : List Nat := (segTiles t).filter fun u => decide (fcolOf t < fcolOf u)

/-- The tile that a change of tables names. -/
def chgTile : Chg → Option Nat
  | .colmap t _ | .brk t _ => some t
  | _ => none

/-- Ask for a live table change. -/
def wantTable (s : State) (chgs : List Chg) (failed group : Option Nat) : State :=
  modMantle s fun m => { m with tabs := m.tabs ++ [⟨0, chgs, (chgs.filterMap chgTile).eraseDups, failed, group, 0, 0⟩] }

/-- Hold, or release, the links by which routers outside the set send into it (Table 9.8 step 3). -/
def holdInto (s : State) (ts : List Nat) (on : Bool) : State :=
  ts.foldl (fun s t => (List.range 4).foldl (fun s p =>
    let n := neighbour t p
    if ts.contains n then s
    else modTile s n fun x => { x with hold := BitVec.ofNat 32 (setBits x.hold.toNat (enters p) 1 (ofBit on)) }) s) s

/-- Stop every region that owns one of some tiles and runs. -/
def stopOwners (s : State) (ts : List Nat) : State :=
  ((ts.filterMap (regionOf s)).eraseDups).foldl (fun s r =>
    let st := (getRegion s r).st
    if st = .running || st = .quiescing || st = .drained then stopRegion s r else s) s

/-- Change the first table change that satisfies `p`. -/
def modTab (s : State) (p : TabChg → Bool) (f : TabChg → TabChg) : State :=
  match s.mantle.tabs.findIdx? p with
  | some i => modMantle s fun m => { m with tabs := lmod m.tabs i f }
  | none => s

/-- LIVE_TABLE_CHANGE (R320, Table 9.8 steps 1 to 3): the regions that own affected tiles stop, the new values are staged under
one tag, and the links into the affected routers are held. One change is made at a time. -/
def execLiveTableChange (s : State) : Out :=
  if s.mantle.tabs.any (·.ph != 0) then .next s
  else match s.mantle.tabs with
    | [] => .next s
    | x :: _ =>
      let s := stopOwners s x.tiles
      let tag := freshTag s
      let t : Txn := { Txn.fresh tag 2 0 none with chgs := x.chgs, nmem := 1, ph := .closed }
      let s := modTab (addTxn s t) (fun y => y.ph == 0) fun y => { y with tag := tag, ph := 1, t0 := nowPs s }
      .next (holdInto s x.tiles true)

/-- A router is idle: no packet is in its buffers. -/
def routerIdle (s : State) (t : Nat) : Bool := !(s.net.packets.any fun e => match e.2.loc with
  | .router u _ => u == t
  | _ => false)

/-- TABLE_CHANGE_IDLE (Table 9.8 step 5): every affected router reads `IDLE`, and the COMMIT wave is asked for. -/
def execTableChangeIdle (s : State) : Out :=
  match s.mantle.tabs.find? (·.ph == 1) with
  | some x =>
    if x.tiles.all (routerIdle s) && nowPs s ≤ x.t0 + 1000000000 then
      .next (waveTxn (modTab s (·.ph == 1) fun y => { y with ph := 2 }) x.tag true .done 0)
    else .next s
  | none => .next s

/-- TABLE_CHANGE_DEADLINE (Table 9.8 step 5): 1 ms has passed without it; incident 0x0607 and the ABORT wave. -/
def execTableChangeDeadline (s : State) : Out :=
  match s.mantle.tabs.find? (·.ph == 1) with
  | some x =>
    let s := reachPs s (x.t0 + 1000000000)
    let s := raiseInc s (cdInc 0x0607 0)
    .next (waveTxn (modTab s (·.ph == 1) fun y => { y with ph := 2 }) x.tag false .aborted 0)
  | none => .next s

/-! ### Snapshots (R507 to R509) -/

/-- The MUs of a group that take snapshots, as (tile, MU). -/
def groupMus (s : State) (g : Nat) : List (Nat × Nat) :=
  ((groupRegions s g).flatMap fun r => regionTiles (getRegion s r)).flatMap fun t =>
    ((List.range 4).filter fun m => snSen (getMu s t m).snapW).map fun m => (t, m)

/-- A port die has written its mark for a wave into its replay ring. -/
def markWritten (s : State) (d w : Nat) : Bool :=
  let l := (getPd s d).replay
  (l.recs.any fun r => r.mark == some w) && (l.undo.isNone || (match l.recs.getLast? with
    | some r => r.mark != some w
    | none => true))

/-- The mark of a wave still waits to be written. -/
def markWaits (s : State) (d w : Nat) : Bool :=
  let l := (getPd s d).replay
  (l.wait.any fun r => r.mark == some w) || (l.recs.any fun r => r.mark == some w)

/-- The state of a snapshot of a group: still being copied, complete, or incomplete (R508, R509). -/
inductive SnapRes
  | waits | complete | incomplete
  deriving DecidableEq, Repr

/-- Judge the snapshot of wave `w` for group `g` with the port dies that were up. -/
def snapJudge (s : State) (w g : Nat) (pds : List Nat) : SnapRes :=
  let mus := groupMus s g
  let copying (e : Nat × Nat) : Bool := match (getMu s e.1 e.2).snap with
    | some sn => sn.wnum == w
    | none => false
  if mus.any copying then .waits
  else if !(mus.all fun e => ((getMu s e.1 e.2).doneW.lookup w).isSome) then .incomplete
  else if pds.all fun d => markWritten s d w then .complete
  else if pds.all fun d => markWaits s d w then .waits
  else .incomplete

/-- Set `SNAPN` of an idle MU back to its value after the latest complete snapshot (R509). -/
def snapBack (s : State) (e : Nat × Nat) : State :=
  modMu s e.1 e.2 fun u => if u.snap.isSome then u else { u with snapN := mget 0 s.mantle.snap.slots (e.1 * 4 + e.2) }

/-- Take note of the snapshots that have become complete or incomplete (R508, R509). -/
def snapSettle (s : State) : State :=
  s.mantle.snap.out.foldl (fun s o =>
    let drop (s : State) : State := modMantle s fun m => { m with snap := { m.snap with out := m.snap.out.filter (· != o) } }
    match snapJudge s o.1 o.2.1 o.2.2 with
    | .waits => s
    | .complete =>
      let slots := (groupMus s o.2.1).foldl (fun k e =>
        mset 0 k (e.1 * 4 + e.2) (((getMu s e.1 e.2).doneW.lookup o.1).getD 0)) s.mantle.snap.slots
      modMantle (drop s) fun m => { m with snap := { m.snap with best := mput m.snap.best o.2.1 o.1, slots := slots } }
    | .incomplete =>
      let s := raiseInc (drop s) (cdInc 0x0415 (o.1 + o.2.1 * 65536))
      (groupMus s o.2.1).foldl snapBack s) s

/-- A group recovers. -/
def recovering (s : State) (g : Nat) : Bool := s.mantle.recov.any (·.group == g)

/-- The groups all of whose regions a mask names. -/
def maskGroups (s : State) (mask : Nat) : List Nat :=
  (((s.regions.filter fun e => decide (e.2.st ≠ .empty)).map fun e => rgGrp e.2).eraseDups).filter fun g =>
    (groupRegions s g).all (bit mask)

/-- PERIODIC_SNAPSHOT (R482, R511 step 2): `SNAPP` ms have passed; a SNAPSHOT wave for `SRMASK`, less the groups that recover. -/
def execPeriodicSnapshot (s : State) : Out :=
  let p := s.mantle.snap
  if p.snapp == 0 || s.boot.mst != 5 || s.power.pilot != 0 then .next s
  else
    let s := reachPs s p.next
    let off := (s.mantle.recov.map (·.group)).flatMap (groupRegions s)
    let mask := ((List.range 64).filter fun r => bit p.srmask.toNat r && !off.contains r)
    let s := modMantle s fun m => { m with snap := { m.snap with next := p.next + p.snapp * 1000000000 } }
    .next (requestWave s (Wave.ask .snapshot 0 false (BitVec.ofNat 64 (maskOf mask)) .none))

/-! ### Recovery: stop and suppress (R510 to R512) -/

/-- A group is eligible: every region of it is in `AUTOMASK`. -/
def eligible (s : State) (g : Nat) : Bool :=
  !(groupRegions s g).isEmpty && (groupRegions s g).all (bit s.mantle.snap.automask.toNat)

/-- Change the recovery of a group. -/
def modRecov (s : State) (g : Nat) (f : Recov → Recov) : State :=
  modMantle s fun m => { m with recov := m.recov.map fun x => if x.group == g then f x else x }

/-- A recovery is asked for; its other steps are RECOVERY_START's. A group that recovers already goes on with that. `tag` is
that of a wave of Mantle's to wait for, or 0. -/
def wantRecovery (s : State) (g kind tile tag : Nat) : State :=
  if recovering s g || !eligible s g then s
  else modMantle s fun m => { m with recov := m.recov ++ [⟨g, kind, tile, 0, nowNs s, 0, 0, 0, tag⟩] }

/-- The rectangles of a group that a port die suppresses: it has four (R422). -/
def groupRects (s : State) (g : Nat) : List Supp :=
  (groupRegions s g).map fun r =>
    let x := getRegion s r
    ⟨g, tileAt (rgX0 x) (rgY0 x), tileAt (rgX1 x) (rgY1 x)⟩

/-- Suppress a group's rectangles at every port die (R512). -/
def suppress (s : State) (g : Nat) : State :=
  (List.range 6).foldl (fun s d =>
    pdSettle (modPd s d fun x => { x with supps := (x.supps ++ groupRects s g).take 4 }) d) s

/-- Take a group's rectangles and replays off every port die. -/
def unsuppress (s : State) (g : Nat) : State :=
  (List.range 6).foldl (fun s d => pdSettle (modPd s d fun x =>
    { x with supps := x.supps.filter (·.group != g), replays := x.replays.filter (·.group != g) }) d) s

/-- Abandon a recovery (R517, Table 16.8). -/
def abandon (s : State) (g cause : Nat) : State :=
  let s := unsuppress s g
  let s := modMantle s fun m => { m with recov := m.recov.filter (·.group != g) }
  let s := (groupRegions s g).foldl (fun s r =>
    let st := (getRegion s r).st
    if st = .running || st = .quiescing || st = .drained then stopRegion s r else s) s
  raiseInc s (cdInc 0x0412 (cause + g * 256))

/-- The recovery is over (R515, R516): suppression lifted, the answers withheld by each die and the recovery reported. -/
def liftSuppression (s : State) (g : Nat) : State :=
  match s.mantle.recov.find? (·.group == g) with
  | none => unsuppress s g
  | some x =>
    let reps := (List.range 6).filterMap fun d => (replayOf (getPd s d) g).map fun r => (d, r)
    let s := unsuppress s g
    let s := modMantle s fun m => { m with recov := m.recov.filter (·.group != g) }
    let s := reps.foldl (fun s e => raiseInc s (pdInc 0x0413 e.1 0 (e.2.held % 2 ^ 32 + g * 2 ^ 32))) s
    let sent := reps.foldl (fun n e => n + e.2.sent) 0
    raiseInc s (cdInc 0x0411 (sent % 2 ^ 32 + x.wnum * 2 ^ 32 + min ((nowNs s - x.t0) / 1000000) 65535 * 2 ^ 48))

/-! ### Recovery: reload and restore (steps 5 and 6) -/

/-- The image that a region holds. -/
def heldImage (r : Region) : Image := ⟨r.desc0, r.desc1, r.imgid, r.seed, r.sections⟩

/-- Read a region's image again from the address of its last load. From host memory it is the image the region holds, if the
port is up. -/
def imageAgain (s : State) (r : Nat) : Option Image × State :=
  let g := getRegion s r
  if g.loadFrom.space == 0 then
    let x := modRead s dieCd g.loadFrom.addr g.loadLen
    if x.2.1 ≠ .done || anyPoi x.1 then (none, x.2.2)
    else match readImage g.loadLen (x.1.map (·.1)) with
      | some img => (if imageOk x.2.2 r img then some img else none, x.2.2)
      | none => (none, x.2.2)
  else ((if (getHost s (g.loadFrom.space - 1)).linkUp then some (heldImage g) else none), s)

/-- Reload a region (step 5); `false` when its image cannot be read. -/
def reloadRegion (s : State) (r : Nat) : State × Bool :=
  let g := getRegion s r
  match imageAgain s r with
  | (some img, s) => (installImage s r img g.loadFrom g.loadLen, true)
  | (none, s) => (s, false)

/-- The records of a ring between `HEAD` and `TAIL`, read from memory (Table 7.10); a PAD goes to the start. -/
def parseRing (u : Mu) (base size : Nat) : Nat → Nat → Nat → List RingRec
  | 0, _, _ => []
  | n + 1, ofs, left =>
    if left == 0 then []
    else
      let h := leNat ((List.range 8).map fun i => muByte u (base + ofs + i))
      let len := bits h 0 16
      if bits h 16 4 == 0xF || len < 8 then parseRing u base size n 0 (left - (size - ofs))
      else
        let r : RingRec := ⟨ofs, len, false, true, bits h 22 23, bits h 16 4, bit h 20, bit h 21,
          (List.range (len - 8)).map (fun i => muByte u (base + ofs + 8 + i)), none⟩
        r :: parseRing u base size n (if ofs + len ≥ size then 0 else ofs + len) (left - len)

/-- Write a state block back (R507): the rings of the MU's programs, and for MU0 the `PINV` words of the tile's CUs. -/
def restoreState (s : State) (t m : Nat) (blk : List Byte) : State :=
  let word (i : Nat) : Nat := leNat ((blk.drop (4 * i)).take 4)
  let rings := (List.range 8).foldl (fun acc p =>
    let w0 := progWord s t m p 0
    let size := bits (progWord s t m p 1) 0 21
    let rt : RingRt := ⟨word (3 * p), word (3 * p + 1), word (3 * p + 2),
      if gMode w0 == 4 then parseRing (getMu s t m) (gBase w0) size 131072 (word (3 * p)) (word (3 * p + 2)) else [], 0, 0, 0, .done⟩
    mset RingRt.empty acc p rt) []
  let s := modMu s t m fun u => { u with rings := rings }
  if m != 0 then s
  else (List.range 2).foldl (fun s k => modCu s t k fun c =>
    { c with pinv := (List.range 16).foldl (fun a i => mset 0 a i (word (24 + 16 * k + i))) [] }) s

/-- Restore one MU from its slot of wave `w` (step 6): a granule marked poisoned, or read so, is written as stored poison (R175, Table 16.11).
`false` when the slot cannot be read, or its bitmap or state block is poisoned (assumption 132). -/
def restoreMu (s : State) (w : Nat) (e : Nat × Nat) : State × Bool :=
  let t := e.1
  let m := e.2
  let u := getMu s t m
  match copyOutProg s t m, u.doneW.lookup w with
  | some p, some n =>
    let wn := snWnm1 u.snapW + 1
    let base := bits (progWord s t m p 2) 0 48 + ((n + 1) % 2) * imageSlot u.snapW
    let x := modRead s dieCd base (256 * wn + (wn + 7) / 8 + 256)
    if x.2.1 ≠ .done || anyPoi (x.1.drop (256 * wn)) then (x.2.2, false)
    else
      let bs := x.1.map (·.1)
      let bad (g : Nat) : Bool := anyPoi ((x.1.drop (256 * g)).take 256)
      let map := leNat ((bs.drop (256 * wn)).take ((wn + 7) / 8))
      let s := modMu x.2.2 t m fun u => (List.range wn).foldl (fun u g =>
        muPutBytes u ((snWb u.snapW + g) * 256) ((bs.drop (256 * g)).take 256) (bit map g || bad g)) { u with snap := none, snapN := n }
      (restoreState s t m ((bs.drop (256 * wn + (wn + 7) / 8)).take 256), true)
  | _, _ => (s, false)

/-- Every byte of an MU outside its window and shadow area becomes stored poison (step 6, the repaired tile). -/
def poisonRest (u : Mu) : Mu :=
  let keep (g : Nat) : Bool := snSen u.snapW && (decide (snWb u.snapW ≤ g) && decide (g ≤ snWb u.snapW + snWnm1 u.snapW) ||
    decide (snShb u.snapW ≤ g) && decide (g < snShb u.snapW + snShn u.snapW))
  (List.range 4096).foldl (fun u g => if keep g then u
    else { u with poi := (List.range 32).foldl (fun q i => mset false q (g * 32 + i) true) u.poi }) u

/-- Reload and restore a group, then restart it as by `REGION_RESTART` (steps 5 to 7); cause 7 when a read fails. -/
def reloadGroup (s : State) (g : Nat) : State :=
  match s.mantle.recov.find? (·.group == g) with
  | none => s
  | some x =>
    let rs := groupRegions s g
    let a := rs.foldl (fun (acc : State × Bool) r =>
      let y := if acc.2 then reloadRegion acc.1 r else acc
      y) (s, true)
    let b := (groupMus a.1 g).foldl (fun (acc : State × Bool) e => if acc.2 then restoreMu acc.1 x.wnum e else acc) a
    if !b.2 then abandon b.1 g 7
    else
      let s := if x.kind == 1 then (List.range 4).foldl (fun s m => modMu s x.tile m poisonRest) b.1 else b.1
      let s := rs.foldl (fun s r => (discardTokens s r).1) s
      let y := mantleTxn s (rs.map Chg.restart) [g]
      modRecov y.1 g fun r => { r with step := 7, tag := y.2 }

/-- RECOVERY_START (R511 steps 1 and 2): 0x0410; the failed tile fenced, the group stopped and suppressed, `TCUT` taken. A recovery in
place goes on to steps 5 to 7. A group with a frozen region waits for its release (R325). -/
def execRecoveryStart (s : State) : Out :=
  let ok (x : Recov) : Bool := x.step == 0 && (x.tag == 0 || (txnOf s x.tag).isNone) && !((groupRegions s x.group).any fun r => (getRegion s r).frozenAt.isSome)
  match s.mantle.recov.find? ok with
  | none => .next s
  | some x =>
    let s := snapSettle s
    let w := s.mantle.snap.best.lookup x.group
    let s := raiseInc s (cdInc 0x0410 (x.kind + x.group * 256 + x.tile * 65536 + w.getD 0 * 2 ^ 32))
    let s := if x.kind == 1 then fenceTile s x.tile true 2 else s
    let s := (groupRegions s x.group).foldl stopRegion s
    let s := suppress s x.group
    let s := modRecov s x.group fun r => { r with step := 2, tag := 0, wnum := w.getD 0, tcut := nowNs s }
    match w with
    | none => .next (abandon s x.group 2)
    | some _ => if x.kind == 1 then .next s else .next (reloadGroup s x.group)

/-- SPARE_TEST_DONE (R511 steps 3 and 4): the spare of the row has been tested; with a good one the column map changes, without it
the recovery is abandoned with cause 8. -/
def execSpareTestDone (good : Bool) (s : State) : Out :=
  match s.mantle.recov.find? fun x => x.step == 2 && x.kind == 1 with
  | none => .next s
  | some x =>
    if good then
      .next (wantTable (modRecov s x.group fun r => { r with step := 4 }) (repairChgs s x.tile) (some x.tile) (some x.group))
    else .next (abandon s x.group 8)

/-! ### Recovery: replay (steps 8 and 9) -/

/-- The place of a mark in a port die's ring: the number of its record and when it was formed. -/
def markAt (l : LogRing) (w : Nat) : Option (Nat × Nat) :=
  match l.recs.findIdx? fun r => r.mark == some w with
  | some i => (l.recs[i]?).map fun r => (l.base + i, r.at_)
  | none => none

/-- The number of the first record formed at `t` or later. -/
def firstFrom (l : LogRing) (t : Nat) : Nat :=
  match (l.recs ++ l.wait).findIdx? fun r => decide (t ≤ r.at_) with
  | some i => l.base + i
  | none => l.base + l.recs.length + l.wait.length

/-- The replay span is whole (R514): from its start on no record has left the ring and no gap record was written. -/
def spanWhole (l : LogRing) (start : Nat) : Bool :=
  decide (l.base ≤ start) && !l.outage && !((l.recs.drop (start - l.base)).any fun r => rrTyp r == 4)

/-- A port die begins to replay for a group (R513, R420); `none` when the span is not in its ring. A die whose ring is off has
nothing to replay. -/
def beginReplay (x : Pd) (g w : Nat) : Option Pd :=
  if logSize x.replay == 0 && !x.marksLost.contains w then some { x with replays := x.replays ++ [⟨g, 0, 0, 0, 0, 0, 0, false⟩] }
  else match markAt x.replay w with
    | none => none
    | some m =>
      let from_ := m.2 - 10000000
      let start := firstFrom x.replay from_
      let cut := x.marksLost.contains w || decide (x.replay.base > 0) && decide (start = x.replay.base)
      if cut || !spanWhole x.replay start || x.inReset then none
      else some { x with replays := x.replays ++ [⟨g, start, start, firstFrom x.journal from_, firstFrom x.journal m.2, 0, 0, false⟩] }

/-- Step 8: every port die replays. -/
def startReplay (s : State) (g : Nat) : State :=
  match s.mantle.recov.find? (·.group == g) with
  | none => s
  | some x =>
    let r := (List.range 6).foldl (fun (acc : State × Bool) d =>
      if !acc.2 || dieFenced acc.1 (diePd d) && logSize (getPd acc.1 d).replay == 0 && !(getPd acc.1 d).marksLost.contains x.wnum then acc
      else match beginReplay (getPd acc.1 d) g x.wnum with
        | some y => (setPd acc.1 d y, true)
        | none => (acc.1, false)) (s, true)
    if r.2 then modRecov r.1 g fun y => { y with step := 8 } else abandon r.1 g 3

/-- A journal record after the mark, of an event for the group, that no replayed response matched (R422). -/
def unmatched (x : Pd) (r : Replay) : Option LogRec :=
  (x.journal.recs.drop (r.jmark - x.journal.base)).find? fun c =>
    let w := leNat (c.data.take 8)
    !c.matched && w % 16 != 0xF && (x.replay.recs.any fun e => rrSend x r.group e && rrWord e 0 / 4 % 2 ^ 30 == bits w 21 30 &&
      bits (rrWord e 2) 13 7 == bits w 57 7 && bits (rrWord e 2) 4 3 == bits w 54 3)

/-- REPLAY_CAUGHT_UP (R513, R515, R422): every port die has reached its tail with no replayed event awaiting a reply. Without an
unmatched journal record, suppression is lifted by one COMMIT wave; with one, the recovery diverges. -/
def execReplayCaughtUp (g : Fin 64) (s : State) : Out :=
  match s.mantle.recov.find? fun x => x.group == g.val && x.step == 8 with
  | none => .next s
  | some _ =>
    if !((List.range 6).all fun d => replayAtTail (getPd s d) g.val) then .next s
    else
      let bad := (List.range 6).filterMap fun d => match replayOf (getPd s d) g.val with
        | some r => if !spanWhole (getPd s d).replay r.start && logSize (getPd s d).replay != 0 then none
          else (unmatched (getPd s d) r).map fun c => (d, c)
        | none => none
      let lost := (List.range 6).any fun d => match replayOf (getPd s d) g.val with
        | some _ => logSize (getPd s d).replay != 0 && (getPd s d).replay.outage
        | none => !(dieFenced s (diePd d))
      if lost then .next (abandon s g.val 3)
      else match bad with
        | e :: _ => .next (abandon (diverge s e.1 g.val (leNat (e.2.data.take 8))) g.val 4)
        | [] =>
          let y := mantleTxn s [.unsuppress g.val] []
          .next (modRecov y.1 g.val fun r => { r with step := 9, tag := y.2 })

/-! ### What a wave of Mantle's brings on -/

/-- A tile served by another physical tile from now on: that tile is reset (R649); then what R317 copies is written into it, the words of its
cores among the configuration; the rest of its units starts fresh. -/
def movedTile (s : State) (t : Nat) : State :=
  let now := cyclesOf s t
  let s := { s with
    wicks := mmap Wick.reset s.wicks (fun k => k / 48 == t) fun w =>
      { Wick.reset with mem := w.mem, memPoi := w.memPoi, memErr := w.memErr, core := w.core, ctx := w.ctx, stall := w.stall },
    cus := mmap Cu.reset s.cus (fun k => k / 2 == t) fun c =>
      { Cu.reset with uops := c.uops, vprog := c.vprog, cfg := c.cfg, creg := c.creg, pred := c.pred },
    flows := mmap Flow.reset s.flows (fun k => k / 6 == t) fun f =>
      { Flow.reset with qgeom := f.qgeom, qdesc := f.qdesc, streams := f.streams, foldMap := f.foldMap, spillTab := f.spillTab,
                        stall := f.stall } }
  let s := (List.range 48).foldl (fun s c => modWick s t c fun w => { w with tcnt0 := now }) s
  modTile s t fun x => { x with store := [] }

/-- The failed tile is served by the physical tile next to it, which is reset (R649); nothing is copied (R317): its SRAM holds what it held for
the tile that it served, `u`, or, for the spare, nothing (assumption 130). -/
def servedAnew (s : State) (t : Nat) (u : Option Nat) : State :=
  let mus := (List.range 4).map fun m => u.map (getMu s · m)
  let wicks := (List.range 48).map fun c => u.map (getWick s · c)
  let s := { s with
    cus := s.cus.filter fun e => e.1 / 2 != t, flows := s.flows.filter fun e => e.1 / 6 != t,
    mus := s.mus.filter fun e => e.1 / 4 != t, wicks := s.wicks.filter fun e => e.1 / 48 != t }
  let s := (List.range 4).foldl (fun s m => match (mus.getD m none) with
    | some x => setMu s t m { Mu.reset with mem := x.mem, poi := x.poi, err := x.err }
    | none => s) s
  let s := (List.range 48).foldl (fun s c => match (wicks.getD c none) with
    | some x => setWick s t c { Wick.reset with mem := x.mem, memPoi := x.memPoi, memErr := x.memErr }
    | none => s) s
  modTile (tileReset s t) t fun x => { x with store := [], groups := [] }

/-- A table change has resolved: the holds are released; a change that took effect ends the fence of the tile it repairs and lets its
recovery go on; one that was aborted is repeated, three times for a recovery (Table 9.8 step 7, Table 16.7 step 4). -/
def tabResolved (s : State) (x : TabChg) (commit : Bool) : State :=
  let s := holdInto s x.tiles false
  let i := (s.mantle.tabs.findIdx? fun y => y.tag == x.tag && y.ph == 2).getD 0
  let drop (s : State) : State := modMantle s fun m => { m with tabs := ldel m.tabs i }
  if commit then
    let s := drop s
    let s := match x.failed with
      | some t =>
        let s := addRepair ((movedTiles t).foldl movedTile (servedAnew s t (movedTiles t).head?)) (skipRec t (bits (getTile s t).colmap.toNat 0 4))
        fenceTile (modTile s t fun y => { y with fence := BitVec.ofNat 32 (setBits y.fence.toNat 9 1 1), down := false }) t false 0
      | none => s
    match x.group with
    | some g => if recovering s g then reloadGroup s g else s
    | none => s
  else match x.group with
    | some g =>
      let n := match s.mantle.recov.find? (·.group == g) with
        | some r => r.tries + 1
        | none => 3
      if n ≥ 3 then abandon (drop s) g 9
      else modRecov (modMantle s fun m => { m with tabs := lmod m.tabs i fun y => { y with ph := 0, tag := 0 } }) g fun r => { r with tries := n }
    | none => modMantle s fun m => { m with tabs := lmod m.tabs i fun y => { y with ph := 0, tag := 0 } }

/-- What Mantle does when a wave of its own has been reported. -/
def mantleResolved (s : State) (x : Txn) (commit : Bool) : State :=
  let s := match mailOfTag s x.tag with
    | some c => if x.miss then mailEnd s c .fault 0 [] else mailOk s c [x.wnum]
    | none => s
  let s := match s.mantle.tabs.find? fun y => y.tag == x.tag && y.ph == 2 with
    | some y => tabResolved s y commit
    | none => s
  match s.mantle.recov.find? fun r => r.tag == x.tag && r.step == 7 with
  | some r => startReplay s r.group
  | none => s

end Sys2Proof.Machine
end

