-- ==== Sys2Proof/Machine/Lamp.lean ====
section
/-!
DEFINITION. The Lamplighter (9.10): sending waves, what each wave does in tiles and satellites, its reports, and what the
operation that asked for it becomes.
-/
namespace Sys2Proof.Machine
open Sys2Proof

/-! ### Sending (R323) -/

/-- The Lamplighter has been calibrated and its clocks run: from CALIB on, and not in Pilot. -/
def lampOn (s : State) : Bool := s.boot.mst == 4 || s.boot.mst == 5 && s.power.pilot != 3

/-- The order in which waiting waves go: FREEZE, ABORT, COMMIT, SNAPSHOT. -/
def waveRank : WType → Nat
  | .freeze => 0 | .abort => 1 | .commit => 2 | .snapshot => 3 | .timeMark => 4

/-- Send a wave in the next slot: it takes the next number. -/
def sendWave (s : State) (w : Wave) : State :=
  let s := match s.lamp.lastAt with
    | some t => reachPs s (t + 32000)
    | none => s
  { s with lamp := { s.lamp with wnum := (s.lamp.wnum + 1) % 65536, lastAt := some (nowPs s),
                                 sent := s.lamp.sent ++ [{ w with wnum := s.lamp.wnum, at_ := nowPs s }] } }

/-- WAVE_SEND (R323): the waiting wave of highest order goes, the oldest of its type first. -/
def execWaveSend (s : State) : Out :=
  if !lampOn s || s.lamp.pending.isEmpty then .next s
  else
    let best := s.lamp.pending.foldl (fun n w => min n (waveRank w.wtype)) 9
    match s.lamp.pending.findIdx? fun w => waveRank w.wtype == best with
    | none => .next s
    | some i =>
      match s.lamp.pending[i]? with
      | some w => .next (sendWave { s with lamp := { s.lamp with pending := ldel s.lamp.pending i } } w)
      | none => .next s

/-- Advance until module time has come to `ns`. -/
def reachNs (s : State) (ns : Nat) : State :=
  let p := max 1 (perTick s)
  advance s ((ns * 5 * 2 ^ 32 + p - 1 - s.time.modTime) / p)

/-- TIME_MARK_SCHEDULE (R323): 300 ns before the next multiple of 1,000 ns of module time, a TIME_MARK goes with that time. -/
def execTimeMarkSchedule (s : State) : Out :=
  if !lampOn s then .next s
  else
    let m := max s.tc.markNext ((nowNs s + 300 + 999) / 1000 * 1000)
    let s := reachNs s (m - 300)
    .next (sendWave { s with tc := { s.tc with markNext := m + 1000 } } (Wave.ask .timeMark 0 false (BitVec.ofNat 64 m) .none))

/-! ### What a COMMIT wave applies -/

/-- Apply a change to a constant register file: bytes from offset `a` in the slot of a fold (R455). -/
def applyCreg (s : State) (t k fold a : Nat) (bs : List Byte) : State :=
  let slot := mget 0 (getFlow s t (48 + k)).foldMap fold
  modCu s t k fun c => { c with creg := (List.range (bs.length / 4)).foldl (fun m i =>
    mset 0 m (slot * 128 + a / 4 + i) (BitVec.ofNat 32 (leNat ((bs.drop (4 * i)).take 4)))) c.creg }

/-- Apply a change to a die register (R377, R532). -/
def applyDieReg (s : State) (die a : Nat) (v : W64) : State :=
  if dieIsMsd die then
    modMsd s (die - 8) fun m => if a == 0xF00 then { m with cls := v } else { m with qw := mset qwReset m.qw ((a - 0x1000) / 8) v }
  else if dieIsPd die then
    let g := (a - 0x500) / 8
    modPd s (die - 2) fun x => { x with lat := mset 0 (x.lat.filter fun e => e.1 / 128 != g) (latKey g 68) v.toNat }
  else s

/-- The epoch of a group, as one of its regions holds it. -/
def groupEpoch (s : State) (g r : Nat) : Nat :=
  match (groupRegions s g).find? (· != r) with
  | some k => (getRegion s k).epoch
  | none => (getRegion s r).epoch

/-- Install an image at its wave: in a region that does not run, tokens are discarded and it becomes LOADED (R283, R281). A region that joins a
group takes its epoch (R242). -/
def applyImage (s : State) (r : Nat) (img : Image) (from_ : MAddr) (len : Nat) (run : Bool) : State × Nat :=
  let was := (getRegion s r).st
  let grp := rgGrp (getRegion s r)
  let d := if run || was = .empty then (s, 0) else discardTokens s r
  let s := installImage d.1 r img from_ len
  let s := modRegion s r fun x => { x with epoch := if was = .empty || grp != rgGrp x then groupEpoch s (rgGrp x) r else x.epoch }
  if run then (s, d.2) else (modRegion s r fun x => { x with st := .loaded }, d.2)

/-- The die that a change acts on, if it is a satellite's own table. -/
def chgSat : Chg → Option Nat
  | .dieReg d _ _ => some d
  | .inst d .. | .tmpl d .. | .guard d .. | .parse d .. | .wgx d .. => some (diePd d)
  | _ => none

/-- Apply one change; the count is of tokens discarded. -/
def applyChg (s : State) : Chg → State × Nat
  | .image r img a n run => applyImage s r img a n run
  | .step r v => (modRegion s r fun x => { x with step := v }, 0)
  | .sram t m a bs => (muWriteQ s t m a bs false, 0)
  | .wickMem t c a bs => (modWick s t c fun w => wkPut w a bs false, 0)
  | .creg t k f a bs => (applyCreg s t k f a bs, 0)
  | .dieReg d a v => (applyDieReg s d a v, 0)
  | .inst d l k e => (modPd s d fun x => { x with insts := instApply d x.insts [.inst d l k e], err := mset 0 x.err l 0 }, 0)
  | .tmpl d i desc img => (modPd s d fun x => { x with tmpls := mset ⟨[], [], 0⟩ x.tmpls i ⟨desc, img, 0⟩, err := mset 0 x.err (pdTmplKey i) 0 }, 0)
  | .guard d i ws =>
    (modPd s d fun x =>
      { x with
        guards := mset Guard.none x.guards i ⟨ws, ggBurst ⟨ws, 0, 0⟩ * tokenUnit, nowPs s⟩
        err := mset 0 x.err (pdGuardKey i) 0 }, 0)
  | .parse d i w => (modPd s d fun x => { x with store := mset 0 x.store i w, err := mset 0 x.err (pdParseKey i) 0 }, 0)
  | .wgx d i ws => (wgxInstall s d i ws, 0)
  | .seg i e => let s := keepSeg s; ({ s with seg := mset (0, 0) s.seg i e }, 0)
  | .dieFence m => ({ s with dieFence := m }, 0)
  | .lost m lo n => (modMsd s m fun x => { x with kept := x.kept.filter fun e => !(decide (lo ≤ e.1) && decide (e.1 < lo + n)) }, 0)
  | .colmap t v => (modTile s t fun x => { x with colmap := v }, 0)
  | .brk t v => (modTile s t fun x => { x with brk := v }, 0)
  | .restart _ | .start _ => (s, 0)
  | .unsuppress g => (liftSuppression s g, 0)

/-- The current phase of a waiting packet would cross a break span of its router (R314). -/
def crossesBreak (s : State) (p : Packet) : Bool :=
  match p.loc, targetOf p.dst with
  | .router t _, some (d, _) =>
    if p.fresh then false
    else if p.yph then (pathLinks 110 (tileY t) (tileY d) p.dir).any (yBroken s t)
    else if tileX t == tileX d then false
    else (pathLinks 100 (tileX t) (tileX d) p.dir).any (xBroken s t)
  | _, _ => false

/-- Each router refuses the waiting packets that a new break span stops (R314). -/
def breakRefuse (s : State) : State :=
  s.net.packets.foldl (fun s e => match e.2.loc with
    | .router t _ => if crossesBreak s e.2 then routerRefuse s t e.1 e.2 .refusedFenced none else s
    | _ => s) s

/-- A set of changes alters column maps or break spans. -/
def chgsTable (l : List Chg) : Bool := l.any fun c => (chgTile c).isSome

/-- Tiles that missed a wave keep their old state (R327, Table 9.12). -/
def keepTiles (old new : State) (miss : List Nat) : State :=
  if miss.isEmpty then new
  else { new with wicks := latchMap new.wicks old.wicks miss 48, flows := latchMap new.flows old.flows miss 6,
                  cus := latchMap new.cus old.cus miss 2, mus := latchMap new.mus old.mus miss 4,
                  tiles := latchMap new.tiles old.tiles miss 1 }

/-- The COMMIT wave of a transaction in every unit that takes it; the changes of satellites in `late` wait for their frames. -/
def commitTxn (s : State) (x : Txn) (miss late : List Nat) : State :=
  let go := x.chgs.filter fun c => match chgSat c with
    | some d => !late.contains d
    | none => true
  let a := go.foldl (fun (acc : State × Nat) c =>
    let r := applyChg acc.1 c
    (r.1, acc.2 + r.2)) (s, 0)
  let t := a.1
  let t := (x.groups.flatMap (groupRegions t)).foldl (fun t r => modRegion t r fun g => { g with epoch := (g.epoch + 1) % 16 }) t
  let rs := (x.regs ++ x.chgs.filterMap chgRuns).eraseDups
  let b := rs.foldl (fun (acc : State × Nat) r =>
    let y := commitRegion acc.1 r
    (y.1, acc.2 + y.2)) (t, a.2)
  let t := if chgsTable x.chgs then breakRefuse b.1 else b.1
  let t := keepTiles s t miss
  modTxn t x.tag fun y => { y with disc := b.2, staged := y.staged.map fun c => if c.opc == 0x10 then { c with det := c.det + min b.2 (2 ^ 32 - 1) } else c }

/-- The changes of a transaction for one satellite, when its first valid copy comes later (R602). -/
def commitSat (s : State) (tag : Nat) (die : Nat) (chgs : List Chg) : State :=
  let _ := tag
  (chgs.filter fun c => chgSat c == some die).foldl (fun s c => (applyChg s c).1) s

/-! ### FREEZE (R325) -/

/-- Freeze a region at the time in REFCLK_MOD periods. -/
def freezeRegion (s : State) (r : Nat) : State :=
  modRegion s r fun g => if g.st = .empty || g.frozenAt.isSome then g else { g with frozenAt := some s.time.ticks }

/-- A core's timers and timeouts after they stood still for `n` cycles and `dt` ticks. -/
def shiftWick (n dt : Nat) (w : Wick) : Wick :=
  { w with
    tickets := w.tickets.map (fun e => if e.2.pending then (e.1, { e.2 with deadline := e.2.deadline + n }) else e),
    tags := w.tags.map (fun e => match e.2 with
      | .live l rd d p => (e.1, .live l rd (d + n) p)
      | _ => e),
    sendb := w.sendb.map (fun b => { b with deadline := b.deadline + n, resume := b.resume + n, since := b.since + n }),
    recv := w.recv.map (fun r => { r with deadline := r.deadline + n, since := r.since + n }),
    tcnt0 := w.tcnt0 + n, dwell := w.dwell + n, relAt := w.relAt + dt, fullAt := w.fullAt.map fun x => (x.1, x.2 + dt) }

/-- The counts of a CU or MU after they stood still for `n` cycles and `dt` ticks. -/
def shiftFlow (n dt : Nat) (f : Flow) : Flow :=
  { f with
    dwell := f.dwell + n, idle := f.idle + n, relAt := f.relAt + dt,
    queues := mmap DQ.empty f.queues (fun _ => true) fun q => { q with fullAt := q.fullAt + dt } }

/-- Release a frozen region: its units go on where they stopped, and every deadline of it moves by the time it stood still. A fault raised in
it meanwhile now stops it (R325). -/
def thawRegion (s : State) (r : Nat) : State :=
  let g := getRegion s r
  match g.frozenAt with
  | none => s
  | some t0 =>
    let dt := s.time.ticks - t0
    let cyc (t : Nat) : Nat := (mget FieldClk.reset s.time.clk (fieldOf t)).rate * dt / 25
    let n := cyc (rgCtl g)
    let wicks := s.wicks.map fun e => if inRegion g (e.1 / 48) then (e.1, shiftWick (cyc (e.1 / 48)) dt e.2) else e
    let flows := mmap Flow.reset s.flows (fun k => inRegion g (k / 6)) (shiftFlow n dt)
    let cus := mmap Cu.reset s.cus (fun k => inRegion g (k / 2)) fun c =>
      { c with issued := c.issued.map fun u => { u with deadline := u.deadline.map (· + n) } }
    let s := { s with wicks := wicks, flows := flows, cus := cus }
    let s := modRegion s r fun g => { g with frozenAt := none, wd := g.wd + n, drain := g.drain.map fun d => (d.1 + n, d.2) }
    let s := modCmds s r fun l => l.map fun c => match c.ph with
      | .drain since => { c with ph := .drain (since + dt * 6400) }
      | _ => c
    let late (x : Txn) : Txn := if x.regs.contains r then { x with qdue := x.qdue.map (· + dt * 6400) } else x
    let s := modRegion { s with eng := { s.eng with txns := s.eng.txns.map late } } r fun x => { x with stopDue := false }
    if g.stopDue then stopRegion s r else s

/-- The regions of a mask. -/
def maskRegs (m : W64) : List Nat := (List.range 64).filter (bit m.toNat)

/-! ### SNAPSHOT (R170, R419, R529) -/

/-- The 16 bytes of a snapshot mark (Table 12.12). -/
def markRec (s : State) (wnum : Nat) : List Byte :=
  leBytes 8 (3 * 2 ^ 37 + 16) ++ leBytes 8 (wnum * 2 ^ 48 + nowNs s % 2 ^ 48)

/-- A port die takes a SNAPSHOT wave: it writes a mark (R419). -/
def snapPd (s : State) (d wnum : Nat) : State :=
  if (getPd s d).inReset then s else logAdd s d false (markRec s wnum) (some wnum) false

/-- The command of the maintenance engine or a region engine that a wave belongs to. -/
def cmdById (s : State) (id : Nat) : Option Cmd := (s.eng.engs.flatMap fun e => e.2.cmds).find? (·.id == id)

/-- The trace starts or stops at this wave. -/
def snapTrace (s : State) (w : Wave) : State :=
  let stop (s : State) : State :=
    (cornerTiles s.trace.t0 s.trace.t1).foldl (fun s t => traceFlush s t true 64) { s with trace := { s.trace with running := false, stopping := false } }
  match w.owner with
  | .traceStop => if s.trace.running then (let s := stop s; { s with trace := { s.trace with ended := true } }) else s
  | .cmd id => match cmdById s id with
    | some c =>
      if c.opc == 0x49 then { s with trace := { s.trace with running := true, starting := false } }
      else if c.opc == 0x4A && s.trace.running then stop s
      else s
    | none => s
  | .none => s

/-- The SNAPSHOT wave in every tile and satellite that takes it; the count is of MUs that skipped it. -/
def snapAll (s : State) (w : Wave) (miss late : List Nat) : State × Nat :=
  let s := snapSettle s
  let s := latchAll s w.wnum miss
  let ts := ((maskRegs w.warg).flatMap fun r => regionTiles (getRegion s r)).filter fun t => !miss.contains t
  let r := ts.foldl (fun acc t => (List.range 4).foldl (fun (acc : State × Nat) m =>
    let y := muSnapshot acc.1 t m w.wnum
    (y.1, acc.2 + ofBit y.2)) acc) (s, 0)
  let up := (List.range 6).filter fun d => logSize (getPd s d).replay != 0 && !(getPd s d).inReset && !dieFenced s (diePd d)
  let s := (List.range 6).foldl (fun s d => if late.contains (diePd d) then s else snapPd s d w.wnum) r.1
  let gs := (maskGroups s w.warg.toNat).filter fun g => !(groupMus s g).isEmpty
  let s := modMantle s fun m => { m with snap := { m.snap with out := m.snap.out ++ gs.map fun g => (w.wnum, g, up) } }
  (snapTrace s w, r.2)

/-! ### Reports (R326) -/

/-- A command that waits for a wave of its own ends: DONE with a detail, or FAULT when a report is missing (R325, R326). -/
def cmdWaved (s : State) (c : Cmd) (w : Wave) (missing : Bool) : State :=
  if missing then failCmd s c .fault 0xE 0
  else match c.opc with
    | 0x46 => finishCmd s c .done (w.wnum + c.det * 65536)
    | 0x4A => finishCmd s c .done (s.trace.written % 2 ^ 32 + s.trace.dropped % 2 ^ 32 * 2 ^ 32)
    | 0x12 => stopRegion (finishCmd s c .done 0) c.eng
    | _ => finishCmd s c .done w.wnum

/-- Every report of a wave is in, or one is missing: the operation that sent it ends. -/
def waveDone (s : State) (w : Wave) (missing : Bool) : State :=
  match w.owner with
  | .cmd id => match cmdById s id with
    | some c => cmdWaved s c w missing
    | none => s
  | _ =>
    if w.wtxn == 0 then s
    else match txnOf s w.wtxn with
      | some x =>
        let x := { x with miss := missing, wnum := w.wnum }
        let s := txnRecords s x
        if x.port == 2 then mantleResolved s x (w.wtype = .commit) else s
      | none => s

/-- The wave that a command concerns: the oldest sent, if it is of the type. -/
def nextWave (s : State) (t : WType) : Option Wave := match s.lamp.sent with
  | w :: _ => if w.wtype = t then some w else none
  | [] => none

/-- Bookkeeping of a wave's arrival: `LL_STAT` of the tiles, copies that were bad, and traced events (R327, Table 17.7). -/
def waveTiles (s : State) (w : Wave) (alt : List (Nat × Bool)) (miss : List Nat) : State :=
  let s := alt.foldl (fun s e => raiseInc (modTile s e.1 fun x => { x with llAlt := satAdd 8 x.llAlt (ofBit e.2) }) (mkInc 0x0611 utTile 0 e.1 0 w.wnum)) s
  let s := miss.foldl (fun s t => raiseInc (modTile s t fun x =>
    { x with llMiss := satAdd 8 x.llMiss 1, llOwn := true, llWnum := if x.llOwn then x.llWnum else s.lamp.lastWnum,
             llWtyp := if x.llOwn then x.llWtyp else s.lamp.lastWtyp }) (mkInc 0x0612 utTile 0 t 0 w.wnum)) s
  let s := { s with tiles := mmap Tile.reset s.tiles (fun t => !miss.contains t) fun x =>
    if x.llOwn then { x with llOwn := false, llWnum := 0, llWtyp := 0 } else x }
  let s := { s with lamp := { s.lamp with lastWnum := w.wnum, lastWtyp := wtypeCode w.wtype } }
  if s.trace.running then
    (cornerTiles s.trace.t0 s.trace.t1).foldl (fun s t => if miss.contains t then s
      else traceEv s t utTile 0 9 (w.wnum + wtypeCode w.wtype * 65536)) s
  else s

/-- A wave reaches the tiles 300 ns after it was sent (R321): `alt` lists those that raise 0x0611 and whether they take copy B,
A being bad, or A, both being valid and unlike (R327); `miss` those with no valid copy,
`quiet` those whose report does not come back, `late` the satellites that no valid copy has reached yet. `f` is its effect. -/
def takeWave (s : State) (t : WType) (alt : List (TileId × Bool)) (miss quiet : List TileId) (late : List (Fin 32)) (f : State → Wave → State) : State :=
  match nextWave s t with
  | none => s
  | some w =>
    let mi := (miss.map (·.val)).eraseDups
    let al := (alt.map fun e => (e.1.val, e.2)).filter fun x => !mi.contains x.1
    let la := ((late.map (·.val)).eraseDups).filter fun d => decide (d ≥ 2)
    let s := reachPs s (w.at_ + 300000)
    let s := { s with lamp := { s.lamp with sent := s.lamp.sent.drop 1 } }
    let s := waveTiles s w al mi
    let s := f s w
    let s := { s with lamp := { s.lamp with owed := s.lamp.owed ++ la.map fun d => OwedWave.mk d w } }
    let s := { s with dies := mmap Die.reset s.dies (fun d => !la.contains d) fun d => { d with lastWave := w.wnum } }
    let q := (mi ++ quiet.map (·.val)).eraseDups
    if q.isEmpty && la.isEmpty then waveDone s w false
    else { s with lamp := { s.lamp with reporting := s.lamp.reporting ++ [{ w with quiet := q }] } }

/-- Satellites that have still to take a wave. -/
def lateOf (late : List (Fin 32)) : List Nat := late.map (·.val)

/-- SNAPSHOT (R324). -/
def execSnapshot (alt : List (TileId × Bool)) (miss quiet : List TileId) (late : List (Fin 32)) (s : State) : Out :=
  .next (takeWave s .snapshot alt miss quiet late fun s w =>
    let r := snapAll s w (miss.map (·.val)) (lateOf late)
    match w.owner with
    | .cmd id =>
      let put (c : Cmd) : Cmd := if c.id == id then { c with det := r.2 } else c
      { r.1 with eng := { r.1.eng with engs := r.1.eng.engs.map fun e => (e.1, { e.2 with cmds := e.2.cmds.map put }) } }
    | _ => r.1)

/-- COMMIT (R324). -/
def execCommit (alt : List (TileId × Bool)) (miss quiet : List TileId) (late : List (Fin 32)) (s : State) : Out :=
  .next (takeWave s .commit alt miss quiet late fun s w =>
    match txnOf s w.wtxn with
    | some x => modTxn (commitTxn s x (miss.map (·.val)) (lateOf late)) w.wtxn fun y => { y with ph := .reporting true }
    | none => s)

/-- ABORT (R324, R282): what was staged is discarded, and the regions that were gated for it go on. -/
def execAbort (alt : List (TileId × Bool)) (miss quiet : List TileId) (late : List (Fin 32)) (s : State) : Out :=
  .next (takeWave s .abort alt miss quiet late fun s w =>
    match txnOf s w.wtxn with
    | some x =>
      let t := x.regs.foldl resumeRegion s
      modTxn (keepTiles s t ((miss.map (·.val)).eraseDups)) w.wtxn fun y => { y with ph := .reporting false }
    | none => s)

/-- FREEZE_WAVE (R324, R325). -/
def execFreezeWave (alt : List (TileId × Bool)) (miss quiet : List TileId) (late : List (Fin 32)) (s : State) : Out :=
  .next (takeWave s .freeze alt miss quiet late fun s w =>
    (maskRegs w.warg).foldl (fun s r => if w.wrel then thawRegion s r else freezeRegion s r) s)

/-- TIME_MARK (R324, R198, R199): the counters of the tiles that take it are aligned. -/
def execTimeMark (alt : List (TileId × Bool)) (miss quiet : List TileId) (late : List (Fin 32)) (s : State) : Out :=
  .next (takeWave s .timeMark alt miss quiet late fun s _ =>
    alignTiles { s with boot := { s.boot with lastMark := nowNs s } } ((miss.map (·.val)).eraseDups))

/-- The fields and dies whose reports of a wave are missing. -/
def quietFields (w : Wave) : List Nat := (w.quiet.map fieldOf).eraseDups

/-- WAVE_REPORT_MISSING (R326): 600 ns after the wave was sent a report is missing; 0x0613 names each field (or satellite), and the
operation that sent it completes FAULT. -/
def execWaveReportMissing (s : State) : Out :=
  match s.lamp.reporting with
  | [] => .next s
  | w :: rest =>
    let s := reachPs { s with lamp := { s.lamp with reporting := rest } } (w.at_ + 600000)
    let s := (quietFields w).foldl (fun s f => raiseInc s (mkInc 0x0613 utField 0 noTile 0 (w.wnum + f * 65536))) s
    let dies := (s.lamp.owed.filter fun o => o.wave.wnum == w.wnum).map (·.die)
    let s := dies.foldl (fun s d => raiseInc s (mkInc 0x0613 utBrobry d noTile 0 w.wnum)) s
    let s := if (quietFields w).isEmpty then s else modMantle s fun m => { m with probeAt := nowPs s }
    .next (waveDone s w true)

/-- WAVE_FRAME (R602): a copy of a wave arrives at a satellite on the sideband of an attach port; the first that passes its CRC is
applied, the others are ignored. With the last satellite the wave's reports may be complete. -/
def execWaveFrame (d : Fin 32) (p : Fin 8) (ok : Bool) (s : State) : Out :=
  if !ok then .next (modBb s d.val p.val fun b => { b with s0 := { b.s0 with bad := b.s0.bad + 1 } })
  else match s.lamp.owed.find? (·.die == d.val) with
  | none => .next s
  | some o =>
    let w := o.wave
    let s := { s with lamp := { s.lamp with owed := s.lamp.owed.filter (· != o) } }
    let s := modDie s d.val fun x => { x with lastWave := w.wnum }
    let s := match w.wtype with
      | .commit => match txnOf s w.wtxn with
        | some x => commitSat s w.wtxn d.val x.chgs
        | none => s
      | .snapshot => if dieIsPd d.val then snapPd s (d.val - 2) w.wnum else s
      | _ => s
    match s.lamp.reporting.find? fun r => r.wnum == w.wnum with
    | some r =>
      if r.quiet.isEmpty && !(s.lamp.owed.any fun z => z.wave.wnum == w.wnum) then
        .next (waveDone { s with lamp := { s.lamp with reporting := s.lamp.reporting.filter fun z => z.wnum != w.wnum } } r false)
      else .next s
    | none => .next s

end Sys2Proof.Machine
end

