-- ==== Sys2Proof/Machine/Engines.lean ====
section
/-!
DEFINITION. The engines (14.1 to 14.4): fetching and checking commands, NOP, the commands of the transaction manager (14.6), and those of
the maintenance engine that read counters, histograms and traces and send waves.
-/
namespace Sys2Proof.Machine
open Sys2Proof

/-! ### Fetching (R448, R451, R452) -/

/-- Bytes of a command ring. -/
def ringBytes (r : HRing) : Nat := r.rsize * 4096

/-- Records that a completion area holds. -/
def cplSlots (r : HRing) : Nat := r.csize * 128

/-- A ring has entries to fetch, and its completion area room for one record more than it owes (R437 to R439). -/
def ringReady (s : State) (p e : Nat) : Bool :=
  let h := getHost s p
  let r := getRing s p e
  r.en && !r.err && r.head != r.taila && h.linkUp && !h.perst && h.resetAt.isNone &&
    decide ((r.ctail + cplSlots r - r.chead) % cplSlots r + r.out + 1 < cplSlots r)

/-- The ring an engine fetches from next: by rotation, skipping one that has nothing to fetch (R448). -/
def fetchPort (s : State) (e : Nat) : Option Nat :=
  let l := (getEng s e).last
  if ringReady s (1 - l) e then some (1 - l) else if ringReady s l e then some l else none

/-- Bytes of entries that the host has written from `HEAD` on, up to the end of the ring. -/
def ringAvail (r : HRing) : Nat := if r.head ≤ r.taila then r.taila - r.head else ringBytes r - r.head

/-- The engines that an opcode belongs to (Table 14.4). -/
def opEngine (e opc : Nat) : Bool :=
  if opc == 0x01 then true
  else if e < 0x40 then decide (0x10 ≤ opc) && decide (opc ≤ 0x16)
  else if e < 0x48 then opc == 0x20
  else if e < 0x4E then decide (0x30 ≤ opc) && decide (opc ≤ 0x39)
  else decide (0x40 ≤ opc) && decide (opc ≤ 0x4B) && opc != 0x47

/-- Entries that hold `n` bytes of data behind entry 0. -/
def entriesFor (n : Nat) : Nat := 1 + (n + 63) / 64

/-- Bytes of data in entries 1 onward that the operands call for, where they are in range (Table 14.5). -/
def opData (ws : List W64) (opc : Nat) : Option Nat :=
  let w2 := (lget 0 ws 2).toNat
  let within (lo hi n k : Nat) : Option Nat := if lo ≤ n && n ≤ hi then some (n * k) else none
  match opc with
  | 0x20 | 0x37 => some 64
  | 0x31 => within 1 60 (bits w2 0 6) 16
  | 0x32 => within 1 120 (bits w2 0 7) 8
  | 0x33 => if bit w2 10 then some 0 else (within 60 256 (tdTlen ⟨(ws.drop 8).take 8, [], 0⟩) 1).map (· + 64)
  | 0x34 => some 72
  | 0x35 => within 1 240 (bits w2 8 8) 4
  | 0x43 => within 8 960 (bits w2 0 11) 1
  | _ => some 0

/-- The least and greatest entry counts of an opcode (Table 14.4). -/
def opEntries (opc : Nat) : Nat × Nat :=
  match opc with
  | 0x20 | 0x37 => (2, 2)
  | 0x31 | 0x32 | 0x35 | 0x43 => (2, 16)
  | 0x33 => (1, 6)
  | 0x34 => (3, 3)
  | _ => (1, 1)

/-- The entry count is the one that the opcode requires (row 5). -/
def entriesOk (ws : List W64) (opc n : Nat) : Bool :=
  let r := opEntries opc
  decide (r.1 ≤ n) && decide (n ≤ r.2) && (opc != 0x33 || bit (lget 0 ws 2).toNat 10 || decide (3 ≤ n)) && (match opData ws opc with
    | some k => n == entriesFor k
    | none => true)

/-- A mask of the bits from `lo`, `n` of them. -/
def span (lo n : Nat) : Nat := (2 ^ n - 1) * 2 ^ lo

/-- The named bits of words 2 to 5 of an opcode's operands (Table 14.5, R534, R535); every other bit of entry 0 is reserved (R454). -/
def opMask (ws : List W64) (opc : Nat) : List Nat :=
  let all := span 0 64
  let w2 := (lget 0 ws 2).toNat
  match opc with
  | 0x10 => [all, span 60 4 + span 0 32]
  | 0x15 => [span 0 32]
  | 0x16 => [span 7 1 + span 0 2]
  | 0x30 => [span 0 4, all]
  | 0x31 => [span 0 6]
  | 0x32 => [span 0 7]
  | 0x33 => [span 0 11]
  | 0x34 => [span 0 4]
  | 0x35 => [span 0 16]
  | 0x36 => [span 0 1, all]
  | 0x37 => [span 0 5]
  | 0x38 => [all, span 0 45, all, span 0 4]
  | 0x39 => [all, span 0 45, all]
  | 0x40 => [span 32 16 + span 0 11]
  | 0x41 => [span 16 12 + span 0 11]
  | 0x42 => [span 0 11]
  | 0x43 => if bit w2 63 then [span 63 1 + span 24 31 + span 0 11, span 0 9] else [span 63 1 + span 0 11, span 0 48]
  | 0x44 => [all, span 61 3 + span 48 8 + span 0 28]
  | 0x45 => [all, span 62 2 + span 13 15 + span 0 6]
  | 0x46 => [all]
  | 0x48 => [all, span 61 3 + span 0 24]
  | 0x49 => [span 0 48, span 38 26 + span 0 16, span 0 28]
  | 0x4B => [all, span 0 1]
  | _ => []

/-- The reserved bits of a command's operands and the unused bytes of its last entry are zero (R454). -/
def operandsClean (ws : List W64) (opc n : Nat) : Bool :=
  let m := opMask ws opc
  ((List.range 6).all fun i =>
    let w := (lget 0 ws (2 + i)).toNat
    w &&& (2 ^ 64 - 1 - lget 0 m i) == 0) &&
  (match opData ws opc with
    | some k => (((ws.take (8 * n)).drop 8).flatMap fun w => leBytes 8 w.toNat).drop k |>.all (· = 0)
    | none => true)

/-- Rows 3 to 6 of Table 14.3: the reason of the first that applies. -/
def headerCheck (s : State) (e p n : Nat) (ws : List W64) : Option Nat :=
  let w0 := (lget 0 ws 0).toNat
  let w1 := (lget 0 ws 1).toNat
  let opc := bits w0 0 8
  let txh := bits w0 20 11
  let open_ : Bool := match txnAt s p txh with
    | some x => x.ph = .open_ || x.ph = .closed
    | none => false
  if bits w1 56 8 != e || bits w1 0 56 != 0 || bit w0 31 || bits w0 9 7 != 0 then some 1
  else if !opEngine e opc then some 1
  else if !entriesOk ws opc n then some 1
  else if txh != 0 && (!stageable opc || !open_) then
    some (if (s.eng.past.lookup (p * 2048 + txh)).isSome || (!open_ && (txnAt s p txh).isSome) then 8 else 7)
  else none

/-- Row 1 of Table 14.3: fetch halts. -/
def ringHalt (s : State) (p e cls : Nat) : State :=
  let s := setRing s p e { getRing s p e with err := true }
  raiseInc (setCause s p cRing) { cdInc cls 0 with eng := e }

/-- COMMAND_FETCH (R449, R452): the engine reads the command at `HEAD` of the ring whose turn it is, `words` being its entries. A command
that the host has not yet written whole is not read. -/
def execCommandFetch (e : Fin 79) (words : List W64) (s : State) : Out :=
  if s.boot.mst != 5 || s.power.pilot != 0 then .next s
  else match fetchPort s e.val with
  | none => .next s
  | some p =>
    let r := getRing s p e.val
    let w0 := (lget 0 words 0).toNat
    let n := bits w0 16 4 + 1
    let opc := bits w0 0 8
    let stop := r.head + 64 * n
    let s := txnLapse (setEng s e.val { getEng s e.val with last := p })
    if stop > ringBytes r || (opc == 0 && stop != ringBytes r) then .next (ringHalt s p e.val 0x0A06)
    else if 64 * n > ringAvail r then .next s
    else if opc == 0 then .next (setRing s p e.val { r with head := 0 })
    else
      let s := setRing s p e.val { r with head := if stop == ringBytes r then 0 else stop, out := r.out + 1 }
      let bad := headerCheck s e.val p n words
      let txh := bits w0 20 11
      let c : Cmd := ⟨s.eng.nextId, p, e.val, opc, bits w0 32 32, txh, bit w0 8, stageable opc && bad.isNone, words.take (8 * n), nowNs s, 0, false,
        false, 0, .ready⟩
      let s := { s with eng := { s.eng with nextId := s.eng.nextId + 1 } }
      let member := (memberTxn s c).isSome
      match bad with
      | some why => .next (memberFail s { c with txm := member } .fault why 0)
      | none =>
        if !operandsClean words opc n then .next (memberFail s { c with txm := member } .fault 2 0)
        else .next (modCmds s e.val fun l => l ++ [c])

/-- NOP (R453). -/
def execCmdNop (e : Fin 79) (s : State) : Out :=
  .next (match (getEng s e.val).cmds.find? fun c => c.ph = .ready with
  | some c =>
    let first := ((getEng s e.val).cmds.takeWhile (·.id != c.id)).all fun b => if e.val < 0x40 then false else !(b.ph = .ready)
    if c.opc == 1 && first && waitOk s c && s.boot.mst == 5 then finishCmd s c .done 0 else s
  | none => s)

/-! ### Transactions (R458 to R464) -/

/-- A transaction command of the maintenance engine; up to 32 of them run beside one other command (Table 14.1). -/
def isTxn (opc : Nat) : Bool := opc == 0x40 || opc == 0x41 || opc == 0x42

/-- The next command that the maintenance engine starts, if it has the opcode asked for. -/
def maintNext (s : State) (opc : Nat) : Option Cmd :=
  let l := (getEng s 0x4E).cmds
  match l.find? fun c => c.ph = .ready with
  | some c =>
    if c.opc == opc && waitOk s c && s.boot.mst == 5 && (isTxn opc || (l.takeWhile (·.id != c.id)).isEmpty) then some c else none
  | none => none

/-- Start the maintenance engine's next command of an opcode. -/
def maintRun (s : State) (opc : Nat) (k : Cmd → State) : State := match maintNext s opc with
  | some c => k c
  | none => s

/-- A handle's transaction. -/
def thnd (c : Cmd) : Nat := bits (cmdWord c 0 2) 0 11

/-- TXN_BEGIN (R458): a transaction opens under a fresh tag. -/
def execTxnBegin (s : State) : Out :=
  .next (maintRun s 0x40 fun c =>
    let h := thnd c
    let to_ := bits (cmdWord c 0 2) 32 16
    if h == 0 || to_ == 0 || (txnAt s c.port h).isSome then failCmd s c .fault 2 0
    else if openTxns s c.port ≥ 16 then failCmd s c .refusedFull 0 0
    else
      let tag := freshTag s
      let s := addTxn s (Txn.fresh tag c.port h (some (nowPs s + to_ * 1000000000 - (nowNs s - c.atime) * 1000)))
      let s := { s with eng := { s.eng with past := mdel s.eng.past (c.port * 2048 + h) } }
      finishCmd s c .done tag)

/-- The record of a `TXN_COMMIT` or `TXN_ABORT` whose handle has no open transaction (R464). -/
def closedTxn (s : State) (c : Cmd) (timed : Bool) : State :=
  match s.eng.past.lookup (c.port * 2048 + thnd c) with
  | some (_, reason) => if timed && reason == 0xA then failCmd s c .timeout 0xA 0 else failCmd s c .fault 8 0
  | none => failCmd s c .fault 7 0

/-- The command that closes a transaction leaves its engine's list. -/
def takeCloser (s : State) (c : Cmd) (tag nmem : Nat) : State :=
  let s := modCmds s c.eng fun l => l.filter fun x => x.id != c.id
  modTxn s tag fun x => { x with closer := some c, nmem := nmem }

/-- TXN_COMMIT (R462): the transaction closes, and is decided once its members are in. -/
def execTxnCommit (s : State) : Out :=
  let s := txnLapse s
  .next (maintRun s 0x41 fun c =>
    let n := bits (cmdWord c 0 2) 16 12
    if thnd c == 0 || n == 0 then failCmd s c .fault 2 0
    else match txnAt s c.port (thnd c) with
    | none => closedTxn s c true
    | some x =>
      if x.ph = .open_ then txnDecide (modTxn (takeCloser s c x.tag n) x.tag fun x => { x with ph := .closed }) x.tag
      else if x.closer.isNone && x.reason == 0xA then failCmd s c .timeout 0xA 0
      else failCmd s c .fault 8 0)

/-- TXN_ABORT (R464): what an open transaction has staged is discarded by an ABORT wave. -/
def execTxnAbort (s : State) : Out :=
  let s := txnLapse s
  .next (maintRun s 0x42 fun c =>
    if thnd c == 0 then failCmd s c .fault 2 0
    else match txnAt s c.port (thnd c) with
    | none => closedTxn s c false
    | some x =>
      if x.ph = .open_ then waveTxn (takeCloser s c x.tag 0) x.tag false .aborted 0xB
      else failCmd s c .fault 8 0)

/-- TRANSACTION_DEADLINE (R462, R464): `TXTO` has passed before the members were in; incident 0x0A07 and an ABORT wave. -/
def execTransactionDeadline (tag : Fin 4096) (s : State) : Out :=
  match txnOf s tag.val with
  | none => .next s
  | some x =>
    match x.due with
    | some d =>
      if (x.ph = .open_ || x.ph = .closed && decide (x.count < x.nmem)) && x.handle != 0 then .next (txnTimeout (reachPs s d) x)
      else .next s
    | none => .next s

/-! ### Counters and histograms (17.1 to 17.4) -/

/-- Space selector of a destination (Table 14.5); `0b11` is reserved. -/
def dsp (c : Cmd) : Nat := bits (cmdWord c 0 3) 62 2

/-- Complete a read with its record written; the command waits while a write waits for a shadow granule (R172). -/
def putRecord (old s : State) (c : Cmd) (bs : List Byte) (short : Option (Nat × Nat)) : State :=
  match writeAt s (dsp c) (cmdWord c 0 2) bs with
  | none => modWait old (cmdWord c 0 2) bs.length
  | some (s, .done) => match short with
    | none => finishCmd s c .done bs.length
    | some (got, want) => failCmd s c .partly 0 (min got 65535 + min want 65535 * 65536)
  | some (s, o) => failCmd s c o 0 0

/-- CTR_READ (R524 to R530): the blocks of a set are written in ascending order; live ones are cleared, or latched ones armed, with `CLR`. -/
def execCtrRead (s : State) : Out :=
  .next (maintRun s 0x44 fun c =>
    let w := cmdWord c 0 3
    let k := bits w 48 7
    let lat := bit w 55
    let clr := bit w 61
    let t0 := bits w 14 14
    let t1 := bits w 0 14
    match setWords k with
    | none => failCmd s c .fault 2 0
    | some n =>
      if dsp c == 3 || ((isTileSet k || isRegionSet k) && (decide (t0 ≥ nTiles) || decide (t1 ≥ nTiles))) then failCmd s c .fault 2 0
      else
        let bs := ctrBlocks s k t0 t1
        let head := wordBytes [bs.length * 2 ^ 32 + n * 2 ^ 16 + bits w 48 8 * 2 ^ 8, nowNs s]
        let r := bs.foldl (fun (acc : State × List Byte × Nat) b =>
          let st := ctrStat acc.1 k b
          let ws := if st != 0 then List.replicate n 0 else if lat then latchBlock acc.1 k b else ctrBlock acc.1 k b
          let num := if lat && st == 0 then latchWnum acc.1 k b else 0
          let s' := if !clr || st != 0 then acc.1
            else if lat then { acc.1 with armed := mput acc.1.armed (k * 65536 + b) true }
            else ctrClear acc.1 k b
          (s', acc.2.1 ++ wordBytes ((num * 2 ^ 48 + st * 2 ^ 40 + b) :: ws), acc.2.2 + ofBit (st == 0))) (s, [], 0)
        putRecord s r.1 c (head ++ r.2.1) (if r.2.2 == bs.length then none else some (r.2.2, bs.length)))

/-- HIST_READ (R531, R77): the 36 bins of an output stream are written and cleared. -/
def execHistRead (s : State) : Out :=
  .next (maintRun s 0x45 fun c =>
    let w := cmdWord c 0 3
    let t := bits w 14 14
    let k := bits w 13 1
    let o := bits w 0 6
    if dsp c == 3 || decide (t ≥ nTiles) then failCmd s c .fault 2 0
    else if fenced s t then failCmd s c .refusedFenced 0 0
    else
      let u := getCu s t k
      let bin (i : Nat) : Nat := mget 0 u.hist (o * 36 + i)
      let base := (getStrm (getFlow s t (48 + k)) o).w1.toNat / 2 ^ 32 % 256
      let ws := [t * 2 ^ 18 + k * 2 ^ 17 + o * 2 ^ 11 + base, nowNs s] ++ (List.range 18).map fun i => bin (2 * i) + bin (2 * i + 1) * 2 ^ 32
      let s' := modCu s t k fun u => { u with hist := u.hist.filter fun e => e.1 / 36 != o }
      putRecord s s' c (wordBytes ws) none)

/-- The record of a guard group's latencies (Table 17.5). -/
def latRecord (s : State) (d g : Nat) : List Nat :=
  let v (i : Nat) : Nat := mget 0 (getPd s d).lat (latKey g i)
  let cfg := v 68
  [g * 2 ^ 60 + bits cfg 56 4 * 2 ^ 56 + bits cfg 0 32, nowNs s, v 66 % 2 ^ 32 * 2 ^ 32 + (0xFFFFFFFF - v 67), v 64, v 65] ++
    (List.range 32).map fun i => v (2 * i) + v (2 * i + 1) * 2 ^ 32

/-- LHIST_READ (R534): the records of the groups asked for, and with `CLR` their histograms cleared. -/
def execLhistRead (s : State) : Out :=
  .next (maintRun s 0x48 fun c =>
    let w := cmdWord c 0 3
    let die := bits w 16 8
    let gs := (List.range 16).filter (bit (bits w 0 16))
    if dsp c == 3 || !dieIsPd die || gs.isEmpty then failCmd s c .fault 2 0
    else if dieFenced s die || (getPd s (die - 2)).inReset then failCmd s c .refusedFenced 0 0
    else
      let bs := wordBytes (gs.flatMap (latRecord s (die - 2)))
      let s' := if bit w 61 then modPd s (die - 2) fun x => { x with lat := x.lat.filter fun e => e.1 % 128 == 68 || !gs.contains (e.1 / 128) } else s
      putRecord s s' c bs none)

/-! ### Waves that a command asks for -/

/-- A command waits for a wave of its own. -/
def waveFor (s : State) (c : Cmd) (t : WType) (rel : Bool) (arg : Nat) : State :=
  requestWave (setPh s c (.wave 0)) (Wave.ask t 0 rel (BitVec.ofNat 64 arg) (.cmd c.id))

/-- SNAP_NOW (R453): a SNAPSHOT wave with `SMASK`. -/
def execSnapNow (s : State) : Out := .next (maintRun s 0x46 fun c => waveFor s c .snapshot false (cmdWord c 0 2))

/-- TRACE_SET (R535): a trace is set up, and starts at a SNAPSHOT wave. -/
def execTraceSet (s : State) : Out :=
  .next (maintRun s 0x49 fun c =>
    let w := cmdWord c 0 3
    let a := bits (cmdWord c 0 2) 0 48
    let pg := bits w 40 24
    let t0 := bits (cmdWord c 0 4) 14 14
    let t1 := bits (cmdWord c 0 4) 0 14
    if s.trace.running || s.trace.starting || s.trace.stopping then failCmd s c .refusedFull 0 0
    else if a % 4096 != 0 || pg == 0 || !inHbm s (a + pg * 4096 - 1) || decide (t0 ≥ nTiles) || decide (t1 ≥ nTiles) then failCmd s c .fault 2 0
    else
      let s := { s with trace := { TraceSt.none with starting := true, addr := a, pages := pg, wrap := bit w 39, stopInc := bit w 38,
                                                     mask := bits w 0 16, t0 := t0, t1 := t1 } }
      waveFor s c .snapshot false 0)

/-- TRACE_STOP (R537): the trace stops at a SNAPSHOT wave; one that an incident stopped is reported. -/
def execTraceStop (s : State) : Out :=
  .next (maintRun s 0x4A fun c =>
    if s.trace.running && !s.trace.stopping then waveFor { s with trace := { s.trace with stopping := true } } c .snapshot false 0
    else if s.trace.running then s
    else if s.trace.ended then
      finishCmd { s with trace := { s.trace with ended := false } } c .done (s.trace.written % 2 ^ 32 + s.trace.dropped % 2 ^ 32 * 2 ^ 32)
    else failCmd s c .fault 3 0)

/-- FREEZE (R325): a FREEZE wave for `FMASK`. -/
def execFreeze (s : State) : Out :=
  .next (maintRun s 0x4B fun c => waveFor s c .freeze (bit (cmdWord c 0 3) 0) (cmdWord c 0 2))

end Sys2Proof.Machine
end

