-- ==== Sys2Proof/Machine/IncRing.lean ====
section
/-!
DEFINITION. The incident ring (16.2): the bytes of a record, writing the CD's store to the ring, and a ring that cannot be written.
-/
namespace Sys2Proof.Machine
open Sys2Proof

/-- The 64 bytes of an incident record (Table 16.2). -/
def incBytes (seq : Nat) (pass : Bool) (i : Inc) : List Byte :=
  let op := if i.opv then i.eng % 256 * 2 ^ 56 + i.fold % 4 * 2 ^ 48 + i.uop % 64 * 2 ^ 42 + i.opc % 256 * 2 ^ 34 + i.cseq % 2 ^ 32 else 0
  let rg := if i.rgv then i.reg % 64 * 2 ^ 50 + 2 ^ 33 else 0
  let bs := [i.itime,
    i.cls % 2 ^ 16 * 2 ^ 48 + i.sev % 4 * 2 ^ 46 + ofBit i.coal * 2 ^ 45 + ofBit i.opv * 2 ^ 44 + i.utyp % 16 * 2 ^ 40 +
      i.die % 256 * 2 ^ 32 + i.tile % 2 ^ 14 * 2 ^ 18 + i.uidx % 64 * 2 ^ 12,
    op + rg,
    i.temp % 2 ^ 16 * 2 ^ 48 + i.volt % 2 ^ 16 * 2 ^ 32 + min i.count (2 ^ 32 - 1),
    i.detail.toNat, i.ilast,
    seq % 2 ^ 32 * 2 ^ 32 + ofBit pass * 2 ^ 31 + min i.loss 65535].flatMap (leBytes 8)
  bs ++ leBytes 8 (crc32c bs)

/-- Write one record at the place that comes next, and set the cause bit of its severity in both ports; `none` when HBM refuses the
write, which is then retried (R503, R504). -/
def incWrite (s : State) (seq : Nat) (i : Inc) : Option State :=
  let r := s.inc.ring
  let bs := incBytes seq r.pass i
  let a := r.at_.addr + 64 * r.idx
  let next : IncRing := if r.idx + 1 ≥ r.size / 64 then { r with idx := 0, pass := !r.pass } else { r with idx := r.idx + 1 }
  let fin (s : State) : State := setCauses { s with inc := { s.inc with ring := next } } i.sev
  if r.at_.space == 0 then
    match modWrite s dieCd a (clean bs) with
    | some (s, .done) => some (fin s)
    | _ => none
  else some (fin (hostWrite s (r.at_.space - 1) a bs))

/-- A record as it is written: that of an unwritable ring then holds the number of records dropped (R504). -/
def incFinal (s : State) (i : Inc) : Inc :=
  if i.cls == 0x0A09 then { i with detail := BitVec.ofNat 64 (i.detail.toNat % 4 + s.inc.dropped % 2 ^ 32 * 2 ^ 32) } else i

/-- Write the CD's store to the ring, oldest first, while the ring takes it. -/
def incFlush (s : State) : Nat → State
  | 0 => s
  | n + 1 =>
    if !s.inc.ring.placed || s.inc.ring.bad then s
    else match s.inc.store with
      | [] => s
      | (q, i) :: rest => match incWrite s q (incFinal s i) with
        | some s => incFlush { s with inc := { s.inc with store := rest } } n
        | none => s

/-- The incident ring in host memory cannot be written (R504): records are kept, 0x0A09 goes to the head of the store, and `INC[2]` is set
in the other port, at once or when that port returns. -/
def incRingBad (s : State) : State :=
  let r := s.inc.ring
  if !r.placed || r.bad || r.at_.space == 0 then s
  else
    let p := r.at_.space - 1
    let q := s.inc.rseq + 1
    let i : Inc := { cdInc 0x0A09 p with itime := nowNs s, ilast := nowNs s }
    let s := { s with inc := { s.inc with ring := { r with bad := true }, rseq := q, dropped := 0, store := (q, i) :: s.inc.store } }
    if portTold s (1 - p) then setCause s (1 - p) 2 else { s with inc := { s.inc with pendInc2 := some (1 - p) } }

/-- The incident ring becomes unwritable with its host port (Table 13.5). -/
def incRingLost (s : State) (p : Nat) : State := if s.inc.ring.at_.space == p + 1 then incRingBad s else s

/-- A port has returned: `INC[2]` that waited for it is set, unless the ring has been placed again (R504). -/
def incRingTell (s : State) (p : Nat) : State :=
  if s.inc.pendInc2 == some p && portTold s p then setCause { s with inc := { s.inc with pendInc2 := none } } p 2 else s

/-- Place the incident ring; the records kept are written first (R485, R503, R504). -/
def incRingPlace (s : State) (at_ : MAddr) (size : Nat) : State :=
  let s := { s with inc := { s.inc with ring := ⟨true, at_, size, 0, true, false⟩, pendInc2 := none } }
  incFlush s (s.inc.store.length)

end Sys2Proof.Machine
end

