-- ==== Sys2Proof/Machine/RegionCmds.lean ====
section
/-!
DEFINITION. The commands of the region engines (8.4, 8.10, 8.11, 14.7), `STAGE_WR`, the rectangle writes that bring images and table writes
to the tiles (R307), staging (R460), and reads of host memory that complete.
-/
namespace Sys2Proof.Machine
open Sys2Proof

/-! ### Which command starts -/

/-- A command of an engine waits for the wave of a transaction of its own. -/
def ownOpen (s : State) (e : Nat) : Bool := s.eng.txns.any fun x => x.handle == 0 && x.staged.any (·.eng == e)

/-- A region command waits (R248, R325): its region is frozen or recovers, or the engine's last command still waits for its wave. -/
def regionWaits (s : State) (r : Nat) : Bool := (getRegion s r).frozenAt.isSome || recovering s (rgGrp (getRegion s r)) || ownOpen s r

/-- Start the next command of a region engine if it has the opcode and need not wait. -/
def regionRun (s : State) (r opc : Nat) (k : Cmd → Region → State) : State :=
  match nextCmd s r opc with
  | some c => if regionWaits s r then s else k c (getRegion s r)
  | none => s

/-! ### Loading (R245, R278, R283) -/

/-- Operands of `REGION_LOAD` (Table 14.5). -/
def ldIsp (c : Cmd) : Nat := bits (cmdWord c 0 3) 62 2
def ldStrict (c : Cmd) : Bool := bit (cmdWord c 0 3) 61
def ldReplace (c : Cmd) : Bool := bit (cmdWord c 0 3) 60
def ldIlen (c : Cmd) : Nat := bits (cmdWord c 0 3) 0 32

/-- A command's rectangle write: one packet to every tile between two corners. -/
def sendRect (s : State) (e unit skind fold t0 t1 soff : Nat) (data : List Byte) : State :=
  putPacket s (newPacket (edgeMake 1 0 e) 0 fold 0 (.rect unit skind fold t0 t1 soff data) (.die 1 0) 0)

/-- An image has been read: it is checked, and its sections are sent into the shadow of the tiles (R245, R307, R460). -/
def loadImage (s : State) (r : Nat) (c : Cmd) (bs : List Byte) : State :=
  match readImage (ldIlen c) bs with
  | none => memberFail s c .fault 9 0
  | some img =>
    if !imageOk s r img then memberFail s c .fault 9 0
    else
      let g := getRegion s r
      let s := toStage s c [.image r img ⟨ldIsp c, cmdWord c 0 2⟩ (ldIlen c) (decide (g.st = .running) || g.heatHeld)] (img.imgid.toNat * 2 ^ 32)
      img.sections.foldl (fun s x => sendRect s c.eng x.unit x.skind x.fold x.t0 x.t1 x.soff x.data) s

/-- REGION_LOAD (R247, R278, R283): the image is read, from host memory by a read of its own. -/
def execRegionLoad (r : Fin 64) (s : State) : Out :=
  .next (regionRun s r.val 0x10 fun c g =>
    let a := cmdWord c 0 2
    let n := ldIlen c
    if ldIsp c == 3 || a % 64 != 0 || (ldIsp c == 0 && !(n != 0 && inHbm s a && inHbm s (a + n - 1))) then memberFail s c .fault 2 0
    else if g.st = .quiescing && !g.heatHeld then memberFail s c .fault 3 0
    else if ldIsp c != 0 then setPh s c .image
    else
      let x := modRead s dieCd a n
      if x.2.1 ≠ .done then memberFail x.2.2 c x.2.1 0 0
      else if anyPoi x.1 then memberFail x.2.2 c .fault 9 0
      else loadImage x.2.2 r.val c (x.1.map (·.1)))

/-! ### The other region commands (Table 8.5) -/

/-- REGION_START (R247, R283): from LOADED a COMMIT wave of its own; from DRAINED the inputs open. -/
def execRegionStart (r : Fin 64) (s : State) : Out :=
  .next (regionRun s r.val 0x11 fun c g =>
    if g.heatHeld then failCmd s c .fault 3 0
    else if g.st = .drained then finishCmd (modRegion s r.val fun x => { x with st := .running, gated := false }) c .done 0
    else if g.st = .loaded then memberStage s c [.start r.val] false false
    else failCmd s c .fault 3 0)

/-- REGION_STOP (R276, R325, Table 16.8): a frozen region is released first; a recovery of its group is abandoned. -/
def execRegionStop (r : Fin 64) (s : State) : Out :=
  .next (match nextCmd s r.val 0x12 with
  | none => s
  | some c =>
    let g := getRegion s r.val
    if ownOpen s r.val && g.st ≠ .quiescing then s
    else if g.st = .empty || g.st = .loaded then failCmd s c .fault 3 0
    else if g.st = .stopped then finishCmd s c .done 0
    else if g.frozenAt.isSome then waveFor s c .freeze true (2 ^ r.val)
    else if recovering s (rgGrp g) then abandon (finishCmd s c .done 0) (rgGrp g) 5
    else stopRegion (finishCmd s c .done 0) r.val)

/-- REGION_DRAIN (R275): the region is gated and drains. -/
def execRegionDrain (r : Fin 64) (s : State) : Out :=
  .next (regionRun s r.val 0x13 fun c g =>
    if g.st = .drained then finishCmd s c .done 0
    else if g.st = .running then gateRegion (setPh s c (.drain (nowPs s))) r.val
    else failCmd s c .fault 3 0)

/-- REGION_RESTART (R277): a running region stops first; its tokens are discarded, and a COMMIT wave starts its image anew. -/
def execRegionRestart (r : Fin 64) (s : State) : Out :=
  .next (regionRun s r.val 0x14 fun c g =>
    if g.heatHeld || !(g.st = .running || g.st = .drained || g.st = .stopped) then failCmd s c .fault 3 0
    else if openTxns s c.port ≥ 16 then s
    else if conflicts s 0 (chgTargets s (.restart r.val)) then failCmd s c .refusedFull 4 0
    else
      let s := if g.st = .running then modRegion (stopCores s r.val) r.val fun x => { x with st := .stopped, gated := true, drain := none } else s
      let d := discardTokens s r.val
      memberStage d.1 { c with det := d.2 } [.restart r.val] false false)

/-- REGION_STEP (R248, R70): a new `STEP` is staged. -/
def execRegionStep (r : Fin 64) (s : State) : Out :=
  .next (regionRun s r.val 0x15 fun c g =>
    if g.st = .empty then memberFail s c .fault 3 0
    else if g.st = .quiescing && !g.heatHeld then s
    else toStage s c [.step r.val (BitVec.ofNat 32 (bits (cmdWord c 0 2) 0 32))] 0)

/-! ### PHASE (14.7) -/

/-- A region's preference (R466). -/
def prefOf (g : Region) : Nat := g.phasePref.getD 1

/-- The fields of a region. -/
def regionFields (g : Region) : List Nat := ((regionTiles g).map fieldOf).eraseDups

/-- The regions that have a tile in a field. -/
def fieldRegions (s : State) (f : Nat) : List Region := (s.regions.map (·.2)).filter fun g => (regionFields g).contains f

/-- A field's requested point (R466): the lowest-numbered preference among its regions, or OP1. -/
def fieldReq (s : State) (f : Nat) : Nat :=
  match (fieldRegions s f).map prefOf with
  | [] => 1
  | p :: ps => ps.foldl min p

/-- PHASE (R466): the preference is recorded at once, and the fields of the region get up to 20 ms to settle. -/
def execPhase (r : Fin 64) (s : State) : Out :=
  .next (regionRun s r.val 0x16 fun c g =>
    let w := cmdWord c 0 2
    if g.st = .empty then failCmd s c .fault 3 0
    else if g.st = .quiescing && !g.heatHeld then s
    else
      let s := modRegion s r.val fun x => { x with phasePref := some (bits w 0 2), phaseLat := bit w 7 }
      let s := (regionFields g).foldl (fun s f => modField s f fun x => { x with opreq := fieldReq s f, grant := none }) s
      setPh s c (.settle (nowPs s + 20000000000 - (nowNs s - c.atime) * 1000)))

/-- A field has settled at the point that the power controller granted it since the latest PHASE: no change of it is in progress. -/
def fieldSettled (s : State) (f : Nat) : Bool := (getField s f).chg == 0 && (getField s f).grant == some (getField s f).opcur

/-- PHASE_COMPLETE (R467): every field of the region has settled, or 20 ms have passed; the outcome says how many fields meet the preference. -/
def execPhaseComplete (r : Fin 64) (s : State) : Out :=
  .next (match curCmd s r.val with
  | none => s
  | some c => match c.ph with
    | .settle due =>
      let g := getRegion s r.val
      let fs := regionFields g
      let s := if fs.all (fieldSettled s) then s else reachPs s due
      let ops := fs.map fun f => (getField s f).opcur
      let good := (ops.filter fun o => decide (o ≤ prefOf g)).length
      let given := fs.map fun f => (getField s f).grant.getD (getField s f).opcur
      let det := given.foldl min 3 + given.foldl max 0 * 4 + good * 2 ^ 8 + fs.length * 2 ^ 24
      if good == fs.length then finishCmd s c .done det
      else failCmd s c (if good == 0 then .refusedQuota else .partly) 0 det
    | _ => s)

/-! ### STAGE_WR (R455) -/

/-- A die register that a staged write may name: its die, its offset, and the bits it holds (R377, R532). -/
def stageReg (a : Nat) : Option (Nat × Nat × Nat) :=
  let o := a - 0x300000000000
  let d := o / 2 ^ 40
  let x := o % 2 ^ 40 - 0x8000000000
  if a < 0x300000000000 || o % 2 ^ 40 < 0x8000000000 then none
  else if dieIsMsd d && x == 0xF00 then some (d, x, span 0 48)
  else if dieIsMsd d && decide (0x1000 ≤ x) && decide (x ≤ 0x1000 + 8 * 64) && x % 8 == 0 then some (d, x, span 16 16 + span 0 8)
  else if dieIsPd d && decide (0x500 ≤ x) && decide (x < 0x580) && x % 8 == 0 then some (d, x, span 63 1 + span 56 4 + span 0 32)
  else none

/-- The die registers that a write of some words names; `none` unless every word is one of them and all lie in one die, with a valid value
in each. -/
def stageRegs (a : Nat) (ws : List Nat) : Option (List Chg) :=
  ws.zipIdx.foldl (fun acc e => match acc, stageReg (a + 8 * e.2), stageReg a with
    | some l, some (d, x, m), some (d0, _, _) =>
      let bad := decide (d ≠ d0) || (e.1 &&& (2 ^ 64 - 1 - m)) != 0 || (dieIsPd d && decide (bits e.1 56 4 > 10))
      if bad then none else some (l ++ [Chg.dieReg d x (BitVec.ofNat 64 e.1)])
    | _, _, _ => none) (some [])

/-- A range of a core's local memory meets a code window of a running or staged context (R455). -/
def inCode (s : State) (t k a n : Nat) : Bool :=
  let meets (w : W64) : Bool := bit w.toNat 0 && decide (256 * bits w.toNat 20 6 < a + n) && decide (a < 256 * (bits w.toNat 26 6 + 1))
  ((getWick s t k).ctx.any fun e => meets e.2) ||
    s.eng.txns.any fun x => txnHolds x && x.chgs.any fun c => match c with
      | .image _ img .. => (List.range 4).any fun f => meets (BitVec.ofNat 64 (imgWord img t k 3 f 0))
      | _ => false

/-- STAGE_WR (R455): bytes are staged in an MU, a Wick local memory, die registers, or the constant registers of a rectangle of tiles. -/
def execStageWr (s : State) : Out :=
  .next (maintRun s 0x43 fun c =>
    let w2 := cmdWord c 0 2
    let n := bits w2 0 11
    let bs := ((c.words.drop 8).flatMap fun w => leBytes 8 w.toNat).take n
    if n == 0 || n % 8 != 0 || n > 960 then memberFail s c .fault 2 0
    else if bit w2 63 then
      let t0 := bits w2 41 14
      let t1 := bits w2 27 14
      let fold := bits w2 25 2
      let k := bits w2 24 1
      let o := bits (cmdWord c 0 3) 0 9
      if decide (t0 ≥ nTiles) || decide (t1 ≥ nTiles) || o % 8 != 0 || o + n > 512 then memberFail s c .fault 2 0
      else
        let s := toStage s c ((cornerTiles t0 t1).map fun t => .creg t k fold o bs) 0
        sendRect s c.eng (48 + k) 4 fold t0 t1 (1800 + o) bs
    else
      let a := bits (cmdWord c 0 3) 0 48
      if a % 8 != 0 then memberFail s c .fault 2 0
      else match onWafer a n with
      | some (t, u, o) =>
        if u < 48 && inCode s t u o n then memberFail s c .fault 2 0
        else if fenced s t then memberFail s c .refusedFenced 0 0
        else toStage s c [if u < 48 then .wickMem t u o bs else .sram t (u - 50) o bs] 0
      | none => match stageRegs a ((List.range (n / 8)).map (wordAt bs)) with
        | none => memberFail s c .fault 2 0
        | some l =>
          if dieFenced s ((a - 0x300000000000) / 2 ^ 40) then memberFail s c .refusedFenced 0 0 else toStage s c l 0)

/-! ### Rectangle writes and staging -/

/-- The rectangle writes of an engine that are under way. -/
def rectsOf (s : State) (e : Nat) : List Nat :=
  (s.net.packets.filter fun p => match p.2.body with
    | .rect .. => p.2.src == edgeMake 1 0 e
    | _ => false).map (·.1)

/-- The command of an engine whose changes are being staged. -/
def stagingCmd (s : State) (e : Nat) : Option (Cmd × List Chg) :=
  (getEng s e).cmds.findSome? fun c => match c.ph with
    | .stage l => some (c, l)
    | _ => none

/-- A rectangle write fell short: the command fails, a replacing load leaves its region STOPPED (R283, R307). -/
def rectShort (s : State) (e : Nat) (c : Cmd) (got want : Nat) : State :=
  let s := (rectsOf s e).foldl delPacket s
  let st := (getRegion s e).st
  let det := min got 65535 + min want 65535 * 65536
  if c.opc == 0x10 && c.txh == 0 && (st = .stopped || st = .drained) then
    failCmd (modRegion s e fun g => { g with st := .stopped, gated := true }) c .fault 0 det
  else memberFail s c .partly 0 det

/-- RECT (R307): a rectangle write reaches every tile of its rectangle; a fenced one refuses it, and the engine counts those delivered. A write whose
length is wrong is refused at the first router (R297), and one that must cross a field whose mesh is down waits (R314). -/
def execRect (pid : Nat) (s : State) : Out :=
  match getPacket s pid with
  | some p => match p.body with
    | .rect _ _ _ t0 t1 _ _ =>
      let e := edgeSub p.src
      let ts := cornerTiles t0 t1
      let bad := (firstCheck p).isSome
      if !bad && !(ts.all (meshUp s)) then .next s
      else
        let refuse := if bad then [] else ts.filter (fenced s)
        let got := if bad then 0 else ts.length - refuse.length
        let s := if bad then routerRefuse s (attachTile 1 0) pid p .fault (some 0x0606)
          else refuse.foldl (fun s t => answerFrom s t p .refusedFenced) (delPacket s pid)
        .next (match stagingCmd s e with
          | some (c, _) => if got == ts.length then s else rectShort s e c got ts.length
          | none => s)
    | _ => .next s
  | none => .next s

/-- MEMBER_STAGED (R460): every change of a command is in the shadow; it joins its transaction, or one of its own. A load without `TXH`
into a region that is stopped or drained takes effect at once (R283). -/
def execMemberStaged (e : Fin 79) (s : State) : Out :=
  if !(rectsOf s e.val).isEmpty then .next s
  else match stagingCmd s e.val with
  | none => .next s
  | some (c, l) =>
    let strict := c.opc == 0x10 && ldStrict c
    let replace := c.opc == 0x10 && ldReplace c
    let st := (getRegion s e.val).st
    match l with
    | [.image r img a n _] =>
      if c.txh == 0 && (st = .stopped || st = .drained) && !(getRegion s r).heatHeld then
        if conflicts s 0 (l.flatMap (chgTargets s)) then .next (memberFail s c .refusedFull 4 0)
        else
          let x := applyImage s r img a n false
          .next (finishCmd x.1 c .done (c.det + min x.2 (2 ^ 32 - 1)))
      else .next (memberStage s c l strict replace)
    | _ => .next (memberStage s c l strict replace)

/-! ### Reads of host memory (R438) -/

/-- The bytes of a read and whether they came poisoned. -/
def hostBytes : HostRes → Option (List Byte × Bool)
  | .data bs => some (bs, false)
  | .poisoned bs => some (bs, true)
  | .failed => none

/-- HOST_READ_COMPLETION (R438): a read of host memory through a port completes. A fetch that fails halts its ring; other reads go on with
the data or fail the work that asked for it. -/
def execHostReadCompletion (p : Fin 2) (what : HostRd) (res : HostRes) (s : State) : Out :=
  let res := if portTold s p.val then res else .failed
  .next (match what with
  | .fetch e => match res with
    | .data _ => s
    | _ => if s.boot.mst == 5 && ringReady s p.val e.val then ringHalt s p.val e.val 0x0A02 else s
  | .image r => match curCmd s r.val with
    | some c => match c.ph with
      | .image => if ldIsp c != p.val + 1 then s else match hostBytes res with
        | some (bs, false) => loadImage s r.val c bs
        | _ => memberFail s c .fault 9 0
      | _ => s
    | none => s
  | .page cmd i => match servedPage s cmd i with
    | some (j, g) =>
      if g.src.space != p.val + 1 || cdCop j.desc == 3 then s
      else match hostBytes res with
        | some (bs, poi) =>
          let n := if cdCop j.desc == 4 then 4112 else g.len
          let pad := (bs ++ List.replicate n 0).take n
          modJob s cmd fun j => { j with pages := lmod j.pages i fun g => { g with data := some (pad.map fun b => (b, poi)) } }
        | none => endPage (unserve s g.msd cmd i) cmd i .fault
    | none => s
  | .update => match hostBytes res with
    | some (bs, false) => { s with fw := { s.fw with staged := bs } }
    | _ => { s with fw := { s.fw with staged := [] } }
  | .incRing => match res with
    | .failed => incRingLost s p.val
    | _ => s)

end Sys2Proof.Machine
end

