-- ==== Sys2Proof/Machine/Replies.lean ====
section
/-!
DEFINITION. Replies (7.4, Table 7.5): what the sender of a message, a token, an event or a write does with the answer.
-/
namespace Sys2Proof.Machine
open Sys2Proof

/-- An answered write of a copy-out (R368, R507): one that was not DONE spoils the snapshot. -/
def snapReply (s : State) (t m : Nat) (o : Outc) : State :=
  let u := getMu s t m
  match u.snap with
  | some sn =>
    if sn.acked ≥ sn.sent then s
    else snapFinish (setMu s t m { u with snap := some { sn with acked := sn.acked + 1, failed := sn.failed || o ≠ .done } }) t m
  | none => s

/-- A refused message in the trace, with the address that it was sent to (Table 17.7). -/
def traceRefused (s : State) (t c dst : Nat) (o : Outc) : State :=
  if o = .done || o = .doneDeferred then s else traceEv s t utWick c 5 (dst + outcCode o * 2 ^ 23)

/-- A reply reaches a unit of a tile: `kind` is the kind of packet it answers and `ref` the ticket or stream entry. -/
def unitReply (s : State) (t u : Nat) (p : Packet) (o : Outc) (kind ref : Nat) : State :=
  if u < 48 then
    if kind == 1 || kind == 3 then
      let k := mget Ticket.fresh (getWick s t u).tickets ref
      traceRefused (ticketReply s t u ref o p.re) t u (if k.pid == p.re then k.dst else p.src) o
    else if kind == 2 then
      let d := match (getWick s t u).sendb with
        | some b => if b.pid == p.re then b.dst else p.src
        | none => p.src
      traceRefused (sendbReply s t u o p.re) t u d o
    else s
  else if kind == 13 then (if u ≥ 50 then snapReply s t (u - 50) o else s)
  else if kind == 6 || kind == 7 || kind == 9 then streamReply s t u ref p.re o
  else s

/-- A reply reaches a port die: the answer to an event, or to a write of its rings (R368, R401). -/
def pdReply (s : State) (d sub : Nat) (o : Outc) : State :=
  if sub == 0x801 then logReply s d false o
  else if sub == 0x802 then logReply s d true o
  else if sub < 0x800 then eventReply s d sub o
  else s

/-- REPLY (R217, R223, R225, R254, R401): a reply reaches the sender it names. -/
def execReply (pid : Nat) (s : State) : Out :=
  match getPacket s pid with
  | some p =>
    match p.body, p.loc with
    | .reply o kind ref, .deliver t =>
      let s := delPacket s pid
      let u := qaUnit p.dst
      if qaTile p.dst != t || u ≥ 54 || fenced s t then .next s else .next (unitReply s t u p o kind ref)
    | .reply o _ _, .die d _ =>
      let s := delPacket s pid
      if dieIsPd d && !(getPd s (d - 2)).inReset then .next (pdReply s (d - 2) (edgeSub p.dst) o) else .next s
    | _, _ => .next s
  | none => .next s

end Sys2Proof.Machine
end

