-- ==== Sys2Proof/Machine/Incidents.lean ====
section
/-!
DEFINITION. The incident path at the CD (16.2): accepting records, closing windows, probing tiles; and what Mantle does on an incident: fences,
break spans, repairs, recoveries and the stop of a trace (16.4, 16.6, 17.5).
-/
namespace Sys2Proof.Machine
open Sys2Proof

/-! ### Fences and recoveries (R506, R510, R520, R523) -/

/-- The numbers of the regions that have a tile in a field. -/
def fieldRegs (s : State) (f : Nat) : List Nat :=
  (s.regions.filter fun e => decide (e.2.st ≠ .empty) && (regionFields e.2).contains f).map (·.1)

/-- The groups that have a region with a tile in a field. -/
def fieldGroups (s : State) (f : Nat) : List Nat := ((fieldRegs s f).map fun r => rgGrp (getRegion s r)).eraseDups

/-- Mantle fences a field with break spans over its links; its regions stop and each eligible group is abandoned with cause 6 (Table 16.5,
Table 16.8, R520). -/
def fenceField (s : State) (f cause : Nat) : State :=
  let gs := (fieldGroups s f).filter (eligible s)
  let s := (fieldTiles f).foldl (fun s t => fenceTile s t true cause) s
  let s := (fieldRegs s f).foldl stopRegion s
  let s := gs.foldl (fun s g => abandon s g 6) s
  wantTable s (fieldBreak s f) none none

/-- The routers of a field's mesh domain stop: `MDOK` of its tiles falls (R314). -/
def meshDown (s : State) (f : Nat) : State :=
  let s := modField s f fun x => { x with meshOff := true }
  (fieldTiles f).foldl (fun s t => modTile s t fun x => { x with fence := BitVec.ofNat 32 (setBits x.fence.toNat 8 1 0) }) s

/-- MESH_DOMAIN_DOWN (R314, R506): the routers of a field forward nothing; Mantle fences its tiles and asks for break spans over
its links. -/
def execMeshDomainDown (f : Fin 100) (s : State) : Out :=
  if (getField s f.val).meshOff then .next s else .next (fenceField (meshDown s f.val) f.val 3)

/-- Two tiles lie in one row segment and share its spare (R315). -/
def sameRow (t u : Nat) : Bool := t / 10 == u / 10

/-- The spare of a tile's row is free: unused, and no repair under way will use it. -/
def spareOpen (s : State) (t : Nat) : Bool :=
  spareFree s t && !(s.mantle.tabs.any fun x => match x.failed with
    | some u => sameRow u t
    | none => false) && !(s.mantle.recov.any fun x => x.kind == 1 && sameRow x.tile t)

/-- A recovery restarts from step 2 for a second failed tile (R523): its replays are dropped, and a repair not yet asked for is asked for
without waiting for its own test. -/
def restartRecov (s : State) (g t : Nat) : State :=
  let old := s.mantle.recov.find? (·.group == g)
  let s := (List.range 6).foldl (fun s d => modPd s d fun x => { x with replays := x.replays.filter (·.group != g) }) s
  let s := modMantle s fun m => { m with tabs := m.tabs.map fun x => if x.group == some g then { x with group := none } else x }
  let s := match old with
    | some x => if x.kind == 1 && (x.step == 0 || x.step == 2) then wantTable s (repairChgs s x.tile) (some x.tile) none else s
    | none => s
  let s := (groupRegions s g).foldl stopRegion (fenceTile s t true 2)
  modRecov s g fun r => { r with kind := 1, tile := t, step := if r.step == 0 then 0 else 2, t0 := nowNs s, tcut := nowNs s, tries := 0, tag := 0 }

/-- A tile has failed (R499, Table 16.5, Table 16.6, Table 16.11). -/
def tileFailed (s : State) (t : Nat) : State :=
  let w := (getTile s t).fence.toNat
  if decide (t ≥ nTiles) || bit w 0 && (bits w 12 4 == 2 || bits w 12 4 == 3) || (s.mantle.recov.any fun x => x.kind == 1 && x.tile == t) then s
  else
    let cause := if (getField s (fieldOf t)).meshOff then 3 else 2
    let free := spareOpen s t
    match regionOf s t with
    | none =>
      let s := fenceTile s t true cause
      if free then wantTable s (repairChgs s t) (some t) none else s
    | some r =>
      let g := rgGrp (getRegion s r)
      if !eligible s g then
        let s := stopRegion (fenceTile s t true cause) r
        if free then wantTable s (repairChgs s t) (some t) none else s
      else if !free then abandon (fenceTile s t true cause) g 1
      else if recovering s g then restartRecov s g t
      else wantRecovery s g 1 t 0

/-- Groups recover in place (Table 16.6). -/
def inPlace (s : State) (gs : List Nat) (tag : Nat) : State := gs.foldl (fun s g => wantRecovery s g 2 noTile tag) s

/-! ### Probes (R499) -/

/-- The read of `RT_ID` of some tiles: those whose compute or mesh domain has failed while the field's mesh domain is up raise 0x0840, those
that do not answer three reads raise 0x0620. -/
def probeTiles (s : State) (cd md silent : List Nat) : State :=
  let dom (b : Nat) (s : State) (t : Nat) : State :=
    if (getField s (fieldOf t)).meshOff || !bit (getTile s t).fence.toNat b then s
    else raiseInc (modTile s t fun x => { x with fence := BitVec.ofNat 32 (setBits x.fence.toNat b 1 0) }) (mkInc 0x0840 utTile 0 t 0 0)
  let s := cd.foldl (dom 9) s
  let s := md.foldl (dom 8) s
  silent.foldl (fun s t => if fenced s t then s else raiseInc (modTile s t fun x => { x with down := true }) (mkInc 0x0620 utTile 0 t 0 0)) s

/-- TILE_HEALTH_PROBE (R499): every 100 ms Mantle probes each tile; `cd` and `md` are those whose `CDOK` or `MDOK` has fallen, `silent` those
that do not answer. -/
def execTileHealthProbe (cd md silent : List TileId) (s : State) : Out :=
  let s := reachPs s s.mantle.probeAt
  let s := modMantle s fun m => { m with probeAt := nowPs s + 100000000000 }
  .next (probeTiles s (cd.map (·.val)) (md.map (·.val)) (silent.map (·.val)))

/-! ### What Mantle does when an incident reaches the CD -/

/-- Stop a trace whose incident has come (R537). -/
def traceReact (s : State) (i : Inc) : State :=
  if s.trace.running && s.trace.stopInc && !s.trace.stopping && decide (2 ≤ i.sev) && i.die == 0 && decide (i.tile < nTiles) &&
      inCorners s.trace.t0 s.trace.t1 i.tile then
    requestWave { s with trace := { s.trace with stopping := true } } (Wave.ask .snapshot 0 false 0 .traceStop)
  else s

/-- The group of the region that a record names. -/
def incGroup (s : State) (i : Inc) : List Nat := if i.rgv then [rgGrp (getRegion s i.reg)] else []

/-- What Mantle does on an incident (Tables 16.5, 16.6, 9.11; R515, R520). -/
def mantleReact (s : State) (i : Inc) : State :=
  if i.cls == 0x0840 || i.cls == 0x0620 || i.cls == 0x0608 || i.cls == 0x0220 then tileFailed s i.tile
  else if i.cls == 0x0612 then
    (if fenced s i.tile && bits (getTile s i.tile).fence.toNat 12 4 == 3 then s else fenceField s (fieldOf i.tile) 2)
  else if i.cls == 0x0604 then wantTable s (linkBreak s i.tile i.uidx) none none
  else if i.cls == 0x0203 || i.cls == 0x0464 then inPlace s (incGroup s i) 0
  else if i.cls == 0x0613 && i.utyp == utField then
    let f := bits i.detail.toNat 16 8
    if (fieldTiles f).all (fenced s) then s else inPlace s (fieldGroups s f) 0
  else if i.cls == 0x0920 then
    (((List.range 6).flatMap fun d => ((getPd s d).replays.filter (·.diverged)).map (·.group)).eraseDups).foldl (fun s g => abandon s g 4) s
  else s

/-! ### Accepting (R501, R503, R504) -/

/-- The source whose turn it is. -/
def nextSource (s : State) : Option Nat :=
  let ks := s.inc.sources.map (·.1)
  match ks.find? fun k => decide (s.inc.turn < k) with
  | some k => some k
  | none => ks.head?

/-- The CD's store is full while its ring is in order: acceptance pauses. -/
def incPaused (s : State) : Bool := s.inc.store.length ≥ 256 && s.inc.ring.placed && !s.inc.ring.bad

/-- Number a record and put it in the CD's store, or drop it and count it (R485, R504). -/
def incKeep (s : State) (i : Inc) : State :=
  let q := s.inc.rseq + 1
  if s.inc.store.length < 256 then { s with inc := { s.inc with rseq := q, store := s.inc.store ++ [(q, i)] } }
  else { s with inc := { s.inc with rseq := q, dropped := s.inc.dropped + 1 } }

/-- A source's record, with what it lost before (R501). -/
def incTake (s : State) (k : Nat) (i : Inc) (rest : List Inc) : State × Inc :=
  ({ s with inc := { s.inc with sources := mset [] s.inc.sources k rest, losses := mset 0 s.inc.losses k 0, turn := k } },
    { i with loss := mget 0 s.inc.losses k })

/-- A word of a CD memory is read (R498): a correctable error is corrected and raised, an uncorrectable one is raised (assumption 98). -/
def cdMemRead (s : State) : State :=
  match s.cdErr with
  | 0 => s
  | 1 => raiseCoal { s with cdErr := 0 } (cdInc 0x0101 0)
  | _ => raiseInc { s with cdErr := 0 } (cdInc 0x0102 0)

/-- INCIDENT_ACCEPT (R501, R503): the CD takes the record of the source whose turn it is, numbers it, and writes its store to the ring. -/
def execIncidentAccept (s : State) : Out :=
  let s := incFlush (cdMemRead s) s.inc.store.length
  if incPaused s then .next s
  else match nextSource s with
  | none => .next s
  | some k => match mget [] s.inc.sources k with
    | [] => .next s
    | i :: rest =>
      let x := incTake s k i rest
      let s := incKeep x.1 x.2
      let s := incFlush s s.inc.store.length
      let s := if i.die == 0 && decide (i.tile < nTiles) then traceFlush s i.tile false 16 else s
      .next (mantleReact (traceReact s i) i)

/-- COALESCING_WINDOW_END (R502): the oldest window has lasted 10 ms; the occurrences counted in it make one record. -/
def execCoalescingWindowEnd (s : State) : Out :=
  match s.inc.windows with
  | [] => .next s
  | w :: rest =>
    let s := reachNs s (w.opened + 10000000)
    let s := { s with inc := { s.inc with windows := rest } }
    match w.first with
    | some i => .next (pushInc s { i with coal := true, count := w.count, ilast := w.last })
    | none => .next s

end Sys2Proof.Machine
end

