-- ==== Sys2Proof/Machine/Island.lean ====
section
/-!
DEFINITION. The Security Island's shared operations (chapter 21): the audit log, zeroising slot keys, and the error state.
-/
namespace Sys2Proof.Machine
open Sys2Proof

/-- Change the Island. -/
def modIsland (s : State) (f : Island → Island) : State := { s with island := f s.island }

/-- The 32 bytes of an audit record (Table 21.6). -/
def auditBytes (r : Audit) : List Byte :=
  leBytes 8 r.time ++ leBytes 8 (r.seq % 2 ^ 32 * 2 ^ 32 + r.boot % 2 ^ 16 * 2 ^ 16 + r.evt % 256 * 256 + r.src % 256) ++
    leBytes 8 r.data.toNat ++ leBytes 8 r.chain.toNat

/-- `ACHAIN` of the record that comes next (R627). -/
def auditChain (x : Island) : W64 := match x.audit.getLast? with
  | some r => BitVec.ofNat 64 (leNat ((Config.sha384 (auditBytes r)).take 8))
  | none => Config.auditFirst

/-- Write an audit record; each wrap of the ring of 4,096 raises 0x0B09 (R627). -/
def auditAdd (s : State) (evt src data : Nat) : State :=
  let x := s.island
  let r : Audit := ⟨nowNs s, x.aseq, x.boots % 65536, evt, src, BitVec.ofNat 64 data, auditChain x⟩
  let l := x.audit ++ [r]
  let s := modIsland s fun x => { x with audit := l.drop (l.length - 4096), aseq := x.aseq + 1 }
  if x.aseq != 0 && x.aseq % 4096 == 0 then raiseInc s (cdInc 0x0B09 0) else s

/-- Occupied slots as a mask. -/
def slotMask (x : Island) : Nat := (List.range 16).foldl (fun m i => if x.slots.any (·.1 == i) then m + 2 ^ i else m) 0

/-- Zeroise slots in the Island and in every MSD. -/
def dropSlots (s : State) (mask : Nat) : State :=
  let s := modIsland s fun x => { x with slots := x.slots.filter fun e => !bit mask e.1 }
  let s := { s with dies := mmap Die.reset s.dies (fun _ => true) fun d => { d with keyPiece := d.keyPiece.filter fun e => !bit mask (e.1 / 4) } }
  { s with msds := mmap Msd.reset s.msds (fun _ => true) fun m => { m with keys := m.keys.filter fun e => !bit mask e.1 } }

/-- Clear slots (R620): 0x0B02 and an audit record with the mask of those cleared and the cause. -/
def clearSlots (s : State) (mask cause src : Nat) : State :=
  let m := slotMask s.island &&& mask
  let d := m + cause * 65536
  auditAdd (raiseInc (dropSlots s mask) (cdInc 0x0B02 d)) 9 src d

/-- The Island enters its error state (R625). -/
def islandError (s : State) (test : Nat) : State :=
  if s.island.err then s
  else
    let s := clearSlots (modIsland s fun x => { x with err := true, drbg := x.drbg + 1, chal := none }) 0xFFFF 3 3
    auditAdd (raiseInc s (cdInc 0x0B06 0)) 16 3 test

end Sys2Proof.Machine
end

