-- ==== Sys2Proof/Machine/Reset.lean ====
section
/-!
DEFINITION. Resets of the module (19.6) and what switches it off: what is cleared and kept, firmware fallback (R495), and the shut-downs
for the input, heat and tamper.
-/
namespace Sys2Proof.Machine
open Sys2Proof

/-- Change the start-up part. -/
def modBoot (s : State) (f : Boot → Boot) : State := { s with boot := f s.boot }
/-- Change the firmware part. -/
def modFw (s : State) (f : Fw → Fw) : State := { s with fw := f s.fw }
/-- A bank (0 A, 1 B). -/
def getBank (s : State) (b : Nat) : Bank := mget Bank.empty s.fw.banks b
/-- Change a bank. -/
def modBank (s : State) (b : Nat) (f : Bank → Bank) : State :=
  modFw s fun w => { w with banks := mset Bank.empty w.banks b (f (mget Bank.empty w.banks b)) }
/-- Set the state of a bank (Table 15.7); `UTIME` is the time of the last change. -/
def bankSt (s : State) (b st : Nat) : State := modFw (modBank s b fun x => { x with st := st }) fun w => { w with utime := nowNs s }

/-- `MST` changes: its time, and `STATE` in both ports (R440). -/
def setMst (s : State) (m : Nat) : State :=
  if s.boot.mst == m then s else setCauses (modBoot s fun b => { b with mst := m, since := nowNs s }) cState

/-- A trial set falls back (R495): the trial bank is `FAILED`, the `PREVIOUS` bank `ACTIVE`; the always-on island keeps the cause. -/
def fallBack (s : State) (cause : Nat) : State :=
  let b := s.fw.sel
  let s := bankSt (bankSt s b 5) (1 - b) 3
  let s := modFw s fun w => { w with sel := 1 - b, trial := false, fbc := cause, fbEvent := some cause }
  auditAdd s 5 3 ((getBank s (1 - b)).setver * 2 ^ 32 + cause)

/-- A host port after a reset of the module: what the host's memory holds, the messages it has received and the level of `PERSTn_N` are not
the module's. -/
def portCleared (h : HostPort) : HostPort := { HostPort.reset with mem := h.mem, sent := h.sent, perst := h.perst, linkUp := false }

/-- A satellite after a reset of the module: its TAP is not reset with it (R610). -/
def dieCleared (d : Die) : Die :=
  { Die.reset with ir := d.ir, tapPort := d.tapPort, boundary := d.boundary, extest := d.extest }

/-- The clocks of the fields after a reset: OP1, and no cycle counted. -/
def clocksCleared (now : Nat) : SMap FieldClk := if now == 0 then [] else (List.range 100).map fun f => (f, FieldClk.mk 0 now 200)

/-- The Island after a reset (R617, R620, R622): slot keys, challenge and failures are gone, the DRBG is seeded anew. -/
def islandCleared (x : Island) : Island :=
  { x with err := false, slots := [], acks := none, unlocked := false, fails := 0, chal := none, drbg := x.drbg + 1, boots := x.boots + 1 }

/-- Everything that a power-on or module reset clears (Table 19.6): the wafer, the satellites, HBM and the CD but for the always-on island, the
flash and the OTP. -/
def cleared (s : State) : State :=
  let r := State.reset
  { r with
    pending := s.pending
    time := ⟨s.time.ticks, 0, clocksCleared s.time.ticks⟩
    part := s.part
    hosts := (List.range 2).map fun p => (p, portCleared (getHost s p))
    dies := mmap Die.reset s.dies (fun _ => true) dieCleared
    jsel := s.jsel
    ans := s.ans
    fw := { r.fw with banks := s.fw.banks, sel := s.fw.sel, rbank := s.fw.rbank, fbc := s.fw.fbc, fbEvent := s.fw.fbEvent, utime := s.fw.utime }
    snuff := { r.snuff with pin := s.snuff.pin }
    tc := { r.tc with ppsOk := s.tc.ppsOk, tenOk := s.tc.tenOk, pcie := s.tc.pcie }
    power := { r.power with blades := s.power.blades, bladeBad := s.power.bladeBad, dieTemp := s.power.dieTemp,
                            inletT := s.power.inletT, outletT := s.power.outletT }
    island := islandCleared s.island
    boot := { s.boot with
      step := 2
      mst := 0
      since := 0
      haltc := 0
      haltd := 0
      tries := []
      late := []
      moved := []
      newRep := 0 } }

/-- The order in which causes of one cycle are recorded (R585): least first. -/
def lrstRank (l : Nat) : Nat := match l with | 4 => 0 | 3 => 1 | 2 => 2 | 1 => 3 | 5 => 4 | _ => 5

/-- A reset of the module is still in progress (R585): the pin is low, the reference is invalid, or the module is off. -/
def inResetNow (s : State) : Bool := s.boot.held || !s.boot.refOk || s.boot.off != 0

/-- The present cycle of the always-on island's 32.768 kHz clock (Table 18.1). -/
def islandCycle (ps : Nat) : Nat := ps * 32768 / 1000000000000

/-- A module reset (R582 to R585): a trial set that has not confirmed its health falls back (R495), and the sequence restarts at step 2. One
that begins in the cycle of another, or during it, is the same reset. -/
def moduleReset (s : State) (lrst : Nat) : State :=
  if inResetNow s then s
  else if s.boot.resetAt.any fun t => islandCycle t == islandCycle (nowPs s) then
    modBoot s fun b => { b with lrst := if lrstRank lrst < lrstRank b.lrst then lrst else b.lrst }
  else
    let s := if s.fw.trial then fallBack s 2 else s
    let now := nowPs s
    modBoot (cleared s) fun b => { b with lrst := lrst, resetAt := some now }

/-- The module switches its rails off: 1 for the input, 2 for heat, 3 for a tamper event. A trial set falls back (R495). -/
def switchOff (s : State) (why : Nat) : State :=
  let s := if s.fw.trial then fallBack s 2 else s
  let now := nowPs s
  let keep := mmap FieldSt.reset s.fields (fun _ => true) fun f => { FieldSt.reset with tmax := f.tmax, tsen := f.tsen }
  let s := { cleared s with fields := if why == 2 then keep else [] }
  modBoot s fun b => { b with step := 0, off := why, offAt := now, pwrGood := false, lrst := if why == 2 then 4 else 0 }

/-- Start-up begins at step 1 of Table 19.1. -/
def startUp (s : State) (lrst : Nat) : State :=
  modBoot (cleared s) fun b => { b with step := 1, off := 0, lrst := lrst, resetAt := none }

/-- The hottest sensor of the module, in 1/8 °C. -/
def hottest (s : State) : Int :=
  let f := s.fields.foldl (fun (m : Option Int) e => some (match m with | some x => max x e.2.tmax | none => e.2.tmax)) none
  let d := s.power.dieTemp.foldl (fun (m : Option Int) e => some (match m with | some x => max x e.2 | none => e.2)) f
  d.getD 0

/-- Every sensor reads below 90 °C (R566). -/
def coolEnough (s : State) : Bool := decide (hottest s < 720)

end Sys2Proof.Machine
end

