-- ==== Sys2Proof/Machine/Startup.lean ====
section
/-!
DEFINITION. Start-up and the events that reset the module or switch it off (chapter 19): phases, the firmware set, birth map and self-test,
READY and HALTED; the pins, the reference and the tamper response.
-/
namespace Sys2Proof.Machine
open Sys2Proof

/-! ### Health of a trial set and the minimum SVN (R494, R621) -/

/-- Raise the minimum SVN to the lower of the `SVN` of the `ACTIVE` and `PREVIOUS` banks, at most 256 times (R621). -/
def raiseSvn (s : State) : State :=
  let l := ((List.range 2).map (getBank s)).filter fun b => b.st == 3 || b.st == 4
  match l.map (·.svn) with
  | [] => s
  | a :: rest =>
    let v := rest.foldl min a
    if v ≤ s.island.minsvn || s.island.raises ≥ 256 then s
    else auditAdd (raiseInc (modIsland s fun x => { x with minsvn := v, raises := x.raises + 1 }) (cdInc 0x0B08 v)) 6 3 v

/-- The maker code of a die's capability word (Table 20.6). -/
def capMake (d : Die) : Nat := bits d.cap.toNat 48 8

/-- The component version that the running set has for a die: MSD firmware or PD firmware (Table 15.8). -/
def dieCver (s : State) (d : Nat) : Nat := lget 0 (getBank s s.fw.rbank).cvers (if dieIsMsd d then 1 else if dieIsPd d then 2 else 0)

/-- Every die of maker 0x01 reports the version of its component (R494, R606). -/
def versionsOk (s : State) : Bool := (List.range 30).all fun i => let d := getDie s (2 + i); capMake d != 1 || d.fw == dieCver s (2 + i)

/-- A trial set confirms its health when everything holds (R494); in the deadline cycle it is on time and counted as a tie (R33). -/
def confirmTry (s : State) : State :=
  let b := getBank s s.fw.rbank
  if s.fw.trial && s.boot.mst == 5 && versionsOk s && (!b.hconf || s.fw.hostOk) && decide (nowPs s ≤ s.fw.trialDue) then
    let s := modFw (bankSt s s.fw.rbank 3) fun w =>
      { w with trial := false, tie := if atPs s s.fw.trialDue then satAdd 16 w.tie 1 else w.tie }
    let s := (s.mantle.cmds.filter fun c => c.opc == 0x0072 && c.ph = .work).foldl (fun s c => mailOk s c []) s
    raiseSvn (auditAdd (setCauses s cUpd) 4 3 (b.setver * 2 ^ 32))
  else s

/-! ### The phases -/

/-- The module enters HALTED (R575); a trial set falls back instead, and the module resets (R495). -/
def haltWith (s : State) (cause det : Nat) : State :=
  if s.fw.trial then moduleReset (fallBack s 3) 5
  else modBoot (setMst s 8) fun b => { b with step := 7, haltc := cause, haltd := det }

/-- The next phase begins. -/
def nextPhase (s : State) : State := modBoot (setMst s (s.boot.step - 1)) fun b => { b with step := b.step + 1, log := b.log + 1 }

/-- The boot ROM boots a bank (R576, R494). -/
def bootBank (s : State) (b : Nat) : State :=
  let x := getBank s b
  let t0 := s.boot.resetAt.getD (nowPs s)
  let s := modFw s fun w => { w with rbank := b, sel := b, trial := x.st == 2, trialDue := t0 + 120000000000000, hostOk := false }
  nextPhase (auditAdd s 1 3 (x.setver * 2 ^ 32 + b))

/-- What Mantle reports of the reset as soon as it runs (R521, R566). -/
def resetReport (s : State) : State :=
  if s.boot.lrst == 3 then pushInc s { cdInc 0x0820 0 with itime := s.boot.lastMark, ilast := s.boot.lastMark }
  else if s.boot.lrst == 4 then pushInc s { cdInc 0x0833 s.boot.hotIx with itime := s.boot.hotAt, ilast := s.boot.hotAt }
  else s

/-- The boot ROM chooses a bank (R576): those whose signature verifies and whose `SVN` is high enough authenticate (R621). -/
def chooseBank (s : State) (sigA sigB : Bool) : State :=
  let auth (b : Nat) : Bool := (getBank s b).st != 0 && (if b == 0 then sigA else sigB) && decide ((getBank s b).svn ≥ s.island.minsvn)
  let b := s.fw.sel
  if auth b then bootBank s b
  else if (getBank s b).st == 2 then moduleReset (fallBack s 3) 5
  else if (getBank s (1 - b)).st == 4 && auth (1 - b) then
    let s := bankSt (bankSt s b 0) (1 - b) 3
    bootBank (modFw (auditAdd s 5 3 ((getBank s (1 - b)).setver * 2 ^ 32 + 4)) fun w => { w with fbEvent := some 4 }) (1 - b)
  else haltWith s 1 0

/-- Step 2 ends (R576, R625). -/
def phaseBoot (s : State) (sigA sigB : Bool) (kat : Nat) : State :=
  if kat == 1 || kat == 2 then haltWith s 1 0
  else chooseBank (resetReport (if kat == 0 then s else islandError s kat)) sigA sigB

/-- Every attach port of every satellite has trained (R607). -/
def linksUp (s : State) : Bool := (List.range 31).all fun i => (getDie s (i + 1)).train == 7

/-- `SKIP` of the row segment of a tile becomes a physical column, there and in what the neighbouring rows hold of it (R315). -/
def setSkip (s : State) (t p : Nat) : State :=
  let put (lo : Nat) (s : State) (u : Nat) : State :=
    modTile s u fun x => { x with colmap := BitVec.ofNat 32 (setBits x.colmap.toNat lo 4 p) }
  let up := (tileY t + 109) % 110
  let dn := (tileY t + 1) % 110
  let s := (segTiles t).foldl (put 0) s
  let s := (segTiles t).foldl (fun s u => put 8 s (tileAt (tileX u) up)) s
  (segTiles t).foldl (fun s u => put 4 s (tileAt (tileX u) dn)) s

/-- The first tile of a row segment. -/
def rowTile (f row : Nat) : Nat := tileAt (f % 10 * 10) (f / 10 * 11 + row)

/-- The logical tile that a physical column serves now; the skipped one serves none (R315). -/
def servedBy (s : State) (t p : Nat) : Option Nat :=
  let sk := bits (getTile s t).colmap.toNat 0 4
  if p == sk then none else some (t + (if p < sk then p else p - 1))

/-- Apply a tile skip of the birth map, or count a record that names no place (R577). -/
def applySkip (s : State) (w : Nat) : State :=
  if bits w 60 4 != 1 then s
  else if bits w 53 7 < 100 && bits w 49 4 < 11 && bits w 45 4 < 11 then setSkip s (rowTile (bits w 53 7) (bits w 49 4)) (bits w 45 4)
  else modBoot s fun b => { b with birthBad := b.birthBad + 1 }

/-- Apply a repair of a link of the birth map (R577). -/
def applyLink (s : State) (w : Nat) : State :=
  let k := bits w 60 4
  if k == 1 then s
  else
    let bad := modBoot s fun b => { b with birthBad := b.birthBad + 1 }
    if !(k == 2 || k == 3) || bits w 53 7 ≥ 100 || bits w 49 4 ≥ 11 || bits w 45 4 ≥ 11 || (bit w 42 && bits w 37 5 ≥ 4) then bad
    else
      let net := ofBit (bit w 42)
      match servedBy s (rowTile (bits w 53 7) (bits w 49 4)) (bits w 45 4) with
      | none => s
      | some t => modLink s t (bits w 43 2) net fun l =>
          if k == 2 then { l with spares := mset false l.spares (bits w 37 5) true } else { l with seam := true, spares := [] }

/-- The birth map is read and applied (R577). -/
def birthApply (s : State) : State :=
  let s := if s.boot.birthOk0 || s.boot.birthOk1 then s else modBoot s fun b => { b with birth := [] }
  let ws := s.boot.birth.map (·.toNat)
  let s := ws.foldl applyLink (ws.foldl applySkip s)
  { s with tiles := (List.range nTiles).map fun t =>
      let x := getTile s t
      (t, { x with colmap := BitVec.ofNat 32 (setBits x.colmap.toNat 31 1 1) }) }

/-- A fault in a physical tile (Table 19.3). -/
def foundTile (s : State) (f row p : Nat) : State :=
  let t := rowTile f row
  let has := s.boot.birth.contains (skipRec t p) || s.boot.birth.contains (skipRec t p &&& ~~~0x80000000#64)
  match servedBy s t p with
  | none => if has then modBoot s fun b => { b with skipFaults := b.skipFaults + 1 } else addRepair s (skipRec t p)
  | some u =>
    if spareFree s t && !s.boot.moved.contains (f * 11 + row) then
      modBoot (addRepair (setSkip s t p) (skipRec t p)) fun b => { b with moved := (f * 11 + row) :: b.moved }
    else modBoot (fenceTile s u true 4) fun b => { b with late := b.late ++ [mkInc 0x0840 utTile 0 u 0 1] }

/-- A field's number stops the sequence: a fault beyond repair (Table 19.3). -/
def foundLanes (s : State) (t port net grp : Nat) (bad : List Nat) : State × Option Nat :=
  let l := getLink s t port net
  match bad with
  | [] => (s, none)
  | lane :: more =>
    if more.isEmpty && !mget false l.spares grp then
      (addRepair (modLink s t port net fun l => { l with spares := mset false l.spares grp true }) (repairRec s 2 t port net grp lane), none)
    else if atSeam t port && !l.seam then
      (addRepair (modLink s t port net fun l => { l with seam := true, spares := [] }) (repairRec s 3 t port net grp lane), none)
    else (s, some (fieldOf t))

/-- One finding; the answer names the field of a fault beyond repair. -/
def found (s : State) : Finding → State × Option Nat
  | .tile f row p => (foundTile s f.val row.val p.val, none)
  | .lanes t port ctl grp bad => foundLanes s t.val port.val (ofBit ctl) grp.val ((bad.map (·.val)).eraseDups)
  | .link t _ => (s, some (fieldOf t.val))
  | .field f => (s, some f.val)

/-- Step 5 ends (R578, R579): the findings are dealt with, SRAM is written to zero, and a birth map that was lost is written anew. -/
def phaseTested (s : State) (l : List Finding) : State :=
  let r := l.foldl (fun (acc : State × Option Nat) x => match acc.2 with
    | some _ => acc
    | none => found acc.1 x) (s, none)
  match r.2 with
  | some f => haltWith r.1 4 f
  | none =>
    let s := r.1
    let lost := !s.boot.birthOk0 && !s.boot.birthOk1
    let s := modBoot s fun b => { b with
      birthOk0 := true
      birthOk1 := true
      late := if lost then b.late ++ [cdInc 0x0B43 b.newRep] else b.late }
    let s := { s with
      wicks := []
      flows := []
      cus := []
      mus := []
      fields := (List.range 100).map fun f => (f, { FieldSt.reset with plA := true, plB := true, vcmp := 750, vmsh := 750 }) }
    nextPhase s

/-! ### READY (R580) -/

/-- The valid copy of a settings record written last (R487). -/
def settingsOf (b : Bank) : Option (List W64) :=
  if b.setNew then (if b.ok1 then some b.set1 else if b.ok0 then some b.set0 else none)
  else (if b.ok0 then some b.set0 else if b.ok1 then some b.set1 else none)

/-- A settings record is written: to the copy not written last. -/
def settingsPut (b : Bank) (r : List W64) : Bank :=
  if b.setNew then { b with set0 := r, ok0 := true, setNew := false } else { b with set1 := r, ok1 := true, setNew := true }

/-- Word `i` of the settings in effect. -/
def setWord (s : State) (i : Nat) : Nat := (lget 0 s.fw.set i).toNat

/-- Every field of a settings record takes effect (R486, R489). -/
def settingsApply (s : State) : State :=
  let w1 := setWord s 1
  let w3 := setWord s 3
  let s := { s with power := { s.power with pcap := bits w1 0 16, pord := bits w1 16 6, opmask := bits w1 24 4 } }
  let s := { s with tc := { s.tc with pref := bits w3 0 2, dom := bits w3 8 8 } }
  modMantle s fun m => { m with snap := { m.snap with snapp := bits (setWord s 2) 0 14 } }

/-- Mantle reads the settings record of the running bank and applies it (R486 to R488). -/
def settingsBoot (s : State) : State :=
  let b := getBank s s.fw.rbank
  let old : Nat := match settingsOf b with | some r => bits (lget 0 r 0).toNat 0 16 | none => 0
  let good := (settingsOf b).isSome && old == b.sfmt
  let r : List W64 := if good then (settingsOf b).getD [] else settingsDefault b.sfmt
  let s := modFw s fun w => { w with set := r, srst := !good }
  let s := if good then s
    else raiseInc (setCauses (modBank s s.fw.rbank fun b => settingsPut (settingsPut b r) r) cUpd) (cdInc 0x0B41 (old * 65536 + b.sfmt))
  settingsApply s

/-- The default segment (Table 19.4): every page over all 24 MSDs. -/
def defaultSeg (s : State) : W64 × W64 :=
  (BitVec.ofNat 64 (2 ^ 63 + (2 ^ 24 - 1) * 2 ^ 32 + s.part.gib * 2 ^ 18), 0)

/-- What Mantle reports at READY: incidents of this start-up, a fallback, a tamper event (R495, R576, R626). -/
def readyReport (s : State) : State :=
  let s := s.boot.late.foldl raiseInc (modBoot s fun b => { b with late := [] })
  let s := match s.fw.fbEvent with
    | some c => raiseInc (modFw (if c == 4 then s else setCauses s cUpd) fun w => { w with fbEvent := none }) (cdInc 0x0B40 c)
    | none => s
  if s.boot.tamperDue then
    let src := s.boot.tamperSrc % 2
    let mask := s.boot.tamperSrc / 2
    let d := s.boot.tamperAt * 256 + src
    let s := modIsland (modBoot s fun b => { b with tamperDue := false }) fun x => { x with tcount := x.tcount + 1 }
    let s := if mask == 0 then s else auditAdd (raiseInc s (cdInc 0x0B02 (mask + 4 * 65536))) 9 4 (mask + 4 * 65536)
    raiseInc (auditAdd s 14 4 d) (cdInc 0x0B03 d)
  else s

/-- Step 6 ends: READY (R580). -/
def phaseReady (s : State) : State :=
  let s := settingsBoot { s with seg := [(0, defaultSeg s)], dieFence := 0, lamp := { s.lamp with calib := s.lamp.calib + 1 } }
  let s := nextPhase (modBoot s fun b => { b with lastMark := nowNs s })
  let s := modMantle s fun m => { m with probeAt := nowPs s + 100000000000, snap := { m.snap with next := nowPs s + m.snap.snapp * 1000000000 } }
  confirmTry (raiseSvn (readyReport s))

/-- Attempts of a step (Table 19.2) and the `HALTC` of its last failure. -/
def stepTries (step : Nat) : Nat × Nat := match step with | 3 => (3, 2) | 4 => (2, 3) | 5 => (1, 4) | _ => (2, 5)

/-- An attempt of a step fails at a die or field: it is repeated, or the module halts (R575). -/
def phaseFailed (s : State) (obj : Nat) : State :=
  let k := s.boot.step * 1000 + obj
  let n := mget 0 s.boot.tries k + 1
  let s := modBoot s fun b => { b with tries := mset 0 b.tries k n }
  let s := if s.boot.step == 3 then modDie s obj fun d => { d with train := 0 } else s
  if n ≥ (stepTries s.boot.step).1 then haltWith s (stepTries s.boot.step).2 obj else s

/-- STARTUP_PHASE_END (R573, R575 to R580): a phase ends, and the next begins. Step 2 goes on only while no reset holds the module, step 3 ends
once every link is up. -/
def execStartupPhaseEnd (r : PhaseEnd) (s : State) : Out :=
  if inResetNow s then .next s
  else match s.boot.step, r with
  | 1, .ok => .next (modBoot s fun b => { b with step := 2, pwrGood := true })
  | 2, .boot a b k => .next (phaseBoot s a b k)
  | 3, .ok => if linksUp s then .next (nextPhase s) else .next s
  | 4, .ok => .next (birthApply (nextPhase s))
  | 5, .tested l => .next (phaseTested s l)
  | 6, .ok => .next (phaseReady s)
  | 3, .failed d | 4, .failed d | 5, .failed d | 6, .failed d => .next (phaseFailed s d)
  | _, _ => .next s

/-! ### Input, blades, pins -/

/-- A blade as measured; before any measurement, present at 54 V. -/
def getBlade (s : State) (i : Nat) : Blade := mget ⟨5400, 0⟩ s.power.blades i
/-- A blade is present while its voltage exceeds 20 V (R632). -/
def bladeOn (b : Blade) : Bool := decide (b.mv10 > 2000)
/-- Blades present. -/
def bladesOn (s : State) : Nat := ((List.range 8).filter fun i => bladeOn (getBlade s i)).length

/-- The module starts if nothing holds it off: the input in range, all blades present, no tamper (R573, R633, R626). -/
def tryStart (s : State) : State :=
  if !s.boot.input || bladesOn s < 8 then s
  else if s.boot.off == 1 then startUp s 0
  else s

/-- POWER_ON (R573): the input comes into range at the blades; start-up begins at step 1. After a thermal shutdown the supply has been cycled,
and the module starts if it is cool (R566). -/
def execPowerOn (s : State) : Out :=
  let was := s.boot.input
  let s := modBoot s fun b => { b with input := true }
  if s.boot.off == 2 then .next (if !was && coolEnough s && bladesOn s == 8 then startUp s 4 else s)
  else .next (tryStart s)

/-- INPUT_UNDERVOLTAGE (R574): the input has been below 46 V for more than 1 ms, or (`rail`) a rail of the CD or a satellite has left its
tolerance: `PWR_GOOD` falls and every rail is switched off. -/
def execInputUndervoltage (rail : Bool) (s : State) : Out :=
  let s := if s.boot.off == 0 then switchOff s 1 else s
  .next (modBoot s fun b => { b with input := b.input && rail })

/-- The condition of R634 holds: a blade absent, or two present ones more than 2 V apart. -/
def bladesBad (s : State) : Bool :=
  let l := (List.range 8).map (getBlade s)
  let v : List Nat := (l.filter bladeOn).map (·.mv10)
  l.any (fun b => !bladeOn b) || decide (v.foldl max 0 > v.foldl min (10000 : Nat) + 200)

/-- The alert of R634 begins or ends. -/
def bladeAlert (s : State) : State :=
  let bad := bladesBad s
  let s := if bad && !s.power.bladeAlert then setCauses s cAlert else s
  { s with power := { s.power with bladeAlert := bad } }

/-- BLADE_CHANGE (R633, R634): a blade's voltage (in 10 mV) has changed; `held` says that it has lasted for more than 1 ms. -/
def execBladeChange (i : Fin 8) (mv10 : Nat) (held : Bool) (s : State) : Out :=
  let s := { s with power := { s.power with blades := mput s.power.blades i.val { getBlade s i.val with mv10 := mv10 } } }
  if s.boot.off != 0 then .next (tryStart s)
  else if held && bladesOn s < 6 then .next (switchOff s 1)
  else if held || !bladesBad s then .next (bladeAlert s)
  else .next s

/-- MOD_RESET_N (R584): the pin has been low for at least 1 µs. Before `PWR_GOOD` it is ignored; a module switched off for heat notes it. -/
def execModResetN (s : State) : Out :=
  if s.boot.off == 2 then .next (modBoot s fun b => { b with held := true })
  else if !s.boot.pwrGood then .next s
  else .next (modBoot (moduleReset s 2) fun b => { b with held := true })

/-- MODULE_RESET_RELEASE (R584, R566): the pin rises; after a thermal shutdown the module restarts only while every sensor reads below
90 °C. -/
def execModuleResetRelease (s : State) : Out :=
  let was := s.boot.held
  let s := modBoot s fun b => { b with held := false }
  .next (if was && s.boot.off == 2 && coolEnough s && s.boot.input then startUp s 4 else s)

/-- MRST (R583): the holder of the semaphore writes 1; another port's write is ignored and counted (R431). -/
def execMrst (p : Fin 2) (s : State) : Out :=
  if !hostUp s p.val then .next s
  else if holdsSem s p.val then .next (moduleReset s 1) else .next (countIgnored s p.val)

/-- REFERENCE_CLOCK_LOSS (R521): the reference is absent or out of range. -/
def execReferenceClockLoss (s : State) : Out :=
  .next (modBoot (moduleReset s 3) fun b => { b with refOk := false, refAt := nowPs s })

/-- REFERENCE_CLOCK_VALID (R585): the reference has been valid for 10 ms. -/
def execReferenceClockValid (s : State) : Out := .next (modBoot s fun b => { b with refOk := true })

/-- TAMPER (R626): the lid opens, or (`pin`) `TAMPER_N` has been low for 1 µs. The Snuffer is engaged, keys are zeroised, and the rails are
switched off; the event is reported at READY. -/
def execTamper (pin : Bool) (s : State) : Out :=
  let mask := slotMask s.island
  let at_ := nowNs s / 1000
  let due := s.boot.tamperDue
  let s := dropSlots (snuffEngage s 4) 0xFFFF
  let s := switchOff s 3
  .next (modBoot s fun b => { b with
    lidOpen := b.lidOpen || !pin
    tamperLow := b.tamperLow || pin
    tamperDue := true
    tamperSrc := if due then b.tamperSrc else ofBit pin + 2 * mask
    tamperAt := if due then b.tamperAt else at_ })

/-- TAMPER_CLEARED (R626): lid and pin have been closed and high for 1 s; start-up begins from step 1. -/
def execTamperCleared (s : State) : Out :=
  let s := modBoot s fun b => { b with lidOpen := false, tamperLow := false, closedAt := nowPs s }
  .next (if s.boot.off == 3 then tryStart (modBoot s fun b => { b with off := 1 }) else s)

/-! ### Firmware resets (R493, R495) -/

/-- ACTIVATION_RESET (R493): 100 ms after the reply the module resets. -/
def execActivationReset (s : State) : Out :=
  match s.fw.resetDue with
  | some t => .next (moduleReset (modFw (reachPs s t) fun w => { w with resetDue := none }) 5)
  | none => .next s

/-- HEALTH_DEADLINE (R495): 120 s after its reset a trial set has not confirmed its health; it falls back. -/
def execHealthDeadline (s : State) : Out :=
  if s.fw.trial then .next (moduleReset (fallBack (reachPs s s.fw.trialDue) 1) 5) else .next s

end Sys2Proof.Machine
end

