-- ==== Sys2Proof/Machine/Dies.lean ====
section
/-!
DEFINITION. Satellites and their Brobry links (chapter 20, 16.7, R378): loss and return of a die, training, flits and their retry,
retraining, and the sideband.
-/
namespace Sys2Proof.Machine
open Sys2Proof

/-! ### Fences of dies -/

/-- Mantle fences a die: at once for what arrives, and by a COMMIT wave with other changes; the answer is the wave's tag. -/
def fenceDie (s : State) (d : Nat) (more : List Chg) : State × Nat :=
  let m := BitVec.ofNat 32 (setBits s.dieFence.toNat d 1 1)
  mantleTxn { s with dieFence := m } (.dieFence m :: more) []

/-- The unit type of a satellite (Table 0.11). -/
def dieUt (d : Nat) : Nat := if dieIsMsd d then utMsd else if dieIsPd d then utPd else utCd

/-- An incident of a satellite. -/
def dieInc (cls d detail : Nat) : Inc := mkInc cls (dieUt d) d noTile 0 detail

/-- A die is lost: fenced, and 0x0711 (R519, R599, R602). The CD cannot be fenced (R481). -/
def loseDie (s : State) (d : Nat) : State :=
  let s := raiseInc (modDie s d fun x => { x with lost := true }) (dieInc 0x0711 d 0)
  if d < 2 then s else (fenceDie s d []).1

/-! ### Acknowledged keys (R619) -/

/-- The dies of which a key import waits for no acknowledgement any more; with the last one the command completes. -/
def keyAck (s : State) (slot : Option Nat) (d : Nat) : State :=
  match s.island.acks with
  | none => s
  | some (cmd, k, ds) =>
    if slot.any (· != k) then s
    else
      let rest := ds.filter (· != d)
      if rest.isEmpty then
        let s := modIsland s fun x => { x with acks := none }
        match s.mantle.cmds.find? (·.id == cmd) with
        | some c => mailOk s c [(mget ⟨0, 0, 0⟩ s.island.slots k).fp.toNat]
        | none => s
      else modIsland s fun x => { x with acks := some (cmd, k, rest) }

/-! ### Loss of a satellite (R378, R519) -/

/-- An attach router answers for a die that has gone. -/
def answerGone (s : State) (d dst src : Nat) (b : Body) : State :=
  putPacket s (newPacket dst src 0 0 b (.router (attachTile d (edgePort dst)) 5) 0)

/-- The group of the region that owns the tile of a unit's address. -/
def srcGroup (s : State) (a : Nat) : List Nat :=
  if qaTileForm a then (match regionOf s (qaTile a) with
    | some r => [rgGrp (getRegion s r)]
    | none => [])
  else []

/-- A page of a copy in flight at a lost MSD: a read from it delivers poison, a write to it ends FAULT (R378). -/
def pageGone (s : State) (m cmd i : Nat) : State :=
  match jobOf s cmd with
  | none => s
  | some j => match j.pages[i]? with
    | none => s
    | some p =>
      let own := p.src.space == 0 && cdCop j.desc == 1 && inHbm s p.src.addr && (hbmAt s p.src.addr).any (·.msd == m)
      let back := p.dst.space == 0 && inHbm s p.dst.addr && (hbmAt s p.dst.addr).any (·.msd == m)
      if own && !back then
        match pageWrite s p (List.replicate p.len (0, true)) with
        | some (s, _) => endPage s cmd i .poisoned
        | none => endPage s cmd i .poisoned
      else endPage s cmd i .fault

/-- A request in flight at a lost MSD ends, and the groups it hurt (R378, Table 16.6). -/
def reqGone (m : Nat) (acc : State × List Nat) (r : MsdReq) : State × List Nat :=
  let s := acc.1
  let d := dieMsd m
  match r.what with
  | .write src dst _ _ _ => (answerGone s d dst src (.reply .fault 13 0), acc.2 ++ srcGroup s src)
  | .read src dst a len =>
    (answerGone s d dst src (.mwr a (r.req + r.cls * 128) true .poisoned (List.replicate len 0) [true]), acc.2 ++ srcGroup s src)
  | .page cmd i => (pageGone s m cmd i, acc.2)
  | .resilver _ => acc

/-- The segment entries that mirror a pair, marked degraded (Table 11.7 step 3). -/
def degChgs (s : State) (m : Nat) : List Chg :=
  (s.seg.filter fun e => sgSv e.2 && sgMir e.2 && (bit (sgSet e.2) m || bit (sgSet e.2) (mirrorOf m))).map fun e =>
    Chg.seg e.1 (BitVec.ofNat 64 (setBits e.2.1.toNat 60 1 1), e.2.2)

/-- An MSD resets (Table 11.7 steps 1 to 4). -/
def resetMsd (s : State) (m : Nat) : State :=
  let x := getMsd s m
  let s := setMsd s m { Msd.reset with inReset := true, resetAt := nowPs s }
  let r := (x.queue ++ x.serv).foldl (reqGone m) (s, [])
  let f := fenceDie r.1 (dieMsd m) (degChgs r.1 m)
  inPlace f.1 r.2.eraseDups f.2

/-- A port die resets (Table 16.9): the engine's commands in flight fail, its rings stop, and a recovery that replays from it is
abandoned. -/
def resetPd (s : State) (n : Nat) : State :=
  let x := getPd s n
  let marks := (x.replay.recs ++ x.replay.wait).filterMap (·.mark)
  let gone := (x.replays.filter fun _ => logSize x.replay != 0).map (·.group)
  let s := setPd s n { Pd.reset with inReset := true, resetAt := nowPs s, gateAt := nowPs s, marksLost := x.marksLost ++ marks }
  let s := { s with snuff := { s.snuff with frames := mset [] s.snuff.frames n [] } }
  let s := ((getEng s (0x48 + n)).cmds.filter fun c => c.ph ≠ .ready).foldl (fun s c => memberFail s c .fault 0 0) s
  let s := (gone.filter fun g => s.mantle.recov.any fun r => r.group == g && r.step == 8).foldl (fun s g => abandon s g 3) s
  (fenceDie s (diePd n) []).1

/-- A satellite's links drop. -/
def dropLinks (x : Die) (now : Nat) : Die :=
  { dieCleared x with down := true, downAt := now, lastWave := x.lastWave }

/-- SATELLITE_DIE_RESET (R519): a satellite resets alone; Mantle fences it, and 0x0710. -/
def execSatelliteDieReset (d : Fin 32) (s : State) : Out :=
  if d.val < 2 then .next s
  else if (getDie s d.val).down then .next (modDie s d.val fun x => { x with train := 0, downAt := nowPs s })
  else
    let s := modDie s d.val fun x => dropLinks x (nowPs s)
    let s := raiseInc s (dieInc 0x0710 d.val 0)
    let s := if dieIsMsd d.val then resetMsd s (d.val - 8) else resetPd s (d.val - 2)
    .next (keyAck s none d.val)

/-! ### Return of a satellite -/

/-- A group has snapshot images on an MSD that no mirror holds (Table 16.9). -/
def imagesOn (s : State) (m g : Nat) : Bool := (groupMus s g).any fun e => match copyOutProg s e.1 e.2 with
  | some p =>
    let base := bits (progWord s e.1 e.2 p 2) 0 48
    (cutPages base (2 * imageSlot (getMu s e.1 e.2).snapW)).any fun c => match hbmAt s (base + c.1) with
      | some h => h.msd == m && !sgMir h.seg
      | none => false
  | none => false

/-- The mailbox command that waits for a die's return. -/
def unfenceCmd (s : State) (d : Nat) : Option MbCmd :=
  s.mantle.cmds.find? fun c => c.opc == 0x0031 && c.ph = .work && bit (mbWord c 0) 63 && bits (mbWord c 0) 16 8 == d

/-- A die returns: its state is at reset values, keys come back to it, and Mantle commits its unfencing. -/
def returnDie (s : State) (d : Nat) : State :=
  let s := modDie s d fun x => { x with down := false, lost := false, hostFence := false }
  let s := if dieIsMsd d then
      let m := d - 8
      let s := snapSettle s
      let s := modMantle s fun k => { k with snap := { k.snap with best := k.snap.best.filter fun e => !imagesOn s m e.1 } }
      let keys := if capMake (getDie s d) == 1 then s.island.slots.map fun e => (e.1, e.2.key) else []
      if !(getMsd s m).inReset then modMsd s m fun x => { x with keys := keys }
      else setMsd s m { Msd.reset with keys := keys, resilver := if (mirrorRanges s m ++ mirrorRanges s (mirrorOf m)).isEmpty then none else some 0 }
    else
      let s := modPd s (d - 2) fun x => { x with inReset := false }
      { s with snuff := { s.snuff with frames := mset [] s.snuff.frames (d - 2) (mget [] s.snuff.frames (d - 2) ++ [s.snuff.snf]) } }
  let t := mantleTxn s [.dieFence (BitVec.ofNat 32 (setBits s.dieFence.toNat d 1 0))] []
  match unfenceCmd t.1 d with
  | some c => modMail t.1 c.id fun c => { c with ph := .wave t.2 }
  | none => t.1

/-- SATELLITE_RETRAIN_DONE (R519, Table 11.7): a die whose links are up returns; one that has not returned within 2 s stays fenced, with
0x0711. -/
def execSatelliteRetrainDone (d : Fin 32) (s : State) : Out :=
  let x := getDie s d.val
  if d.val < 2 || !x.down then .next s
  else if x.train == 7 then .next (returnDie s d.val)
  else if x.lost then .next s
  else
    let s := loseDie (reachPs s (x.downAt + 2000000000000)) d.val
    match unfenceCmd s d.val with
    | some c => .next (mailFail s c 0xB)
    | none => .next s

/-! ### Training (R603 to R607) -/

/-- The die class of a slot (Table 20.6). -/
def slotClass (d : Nat) : Nat := if dieIsMsd d then 3 else if dieIsPd d then 2 else 1

/-- The wafer accepts a die by its capability word (R604). -/
def capOk (d : Nat) (w : Nat) : Bool :=
  bits w 60 4 == 1 && bits w 36 4 == slotClass d && bits w 24 4 == diePorts d && bits w 28 4 == 12 && decide (bits w 8 8 ≥ 1) &&
    bit w 16 && bit w 17 && bit w 18 && bit w 20 && (slotClass d != 2 || bit w 21) && decide (bits w 32 3 ≠ 0)

/-- The highest rate of a capability word; the wafer supports all three (R605). -/
def capRate (w : Nat) : Nat := if bit w 34 then 2 else if bit w 33 then 1 else 0

/-- The version in use: the lower of the two minor versions (R605). -/
def capVer (w : Nat) : Nat := 0x10 + min 1 (bits w 56 4)

/-- Change every attach port of a die. -/
def modPorts (s : State) (d : Nat) (f : BbPort → BbPort) : State := (List.range (diePorts d)).foldl (fun s p => modBb s d p f) s

/-- One bad lane of a direction of a port (R599): the spare replaces it, or it is retired. -/
def badLane (x : BbDir) (spareBad : Bool) (lane : Nat) : BbDir × Bool :=
  let x := { x with gone := x.gone ++ [lane] }
  if lane ≥ 12 then (if x.spare then ({ x with lanes := x.lanes - 1 }, false) else (x, false))
  else if !x.spare && !spareBad then ({ x with spare := true }, true)
  else ({ x with lanes := x.lanes - 1 }, false)

/-- A direction of an attach port. -/
def bbDir (b : BbPort) (dir : Nat) : BbDir := if dir == 0 then b.d0 else b.d1
/-- Replace a direction. -/
def setBbDir (b : BbPort) (dir : Nat) (x : BbDir) : BbPort := if dir == 0 then { b with d0 := x } else { b with d1 := x }

/-- Lanes in use at a port: the lower of the two directions (`BLANES`). -/
def bbLanes (b : BbPort) : Nat := min b.d0.lanes b.d1.lanes

/-- The lane test of a port: `bad` lists (direction, lane) with an error; the answer lists what a spare replaced. -/
def laneTest (b : BbPort) (bad : List (Nat × Nat)) : BbPort × List (Nat × Nat) :=
  let bad := bad.filter fun e => !(bbDir b e.1).gone.contains e.2
  bad.foldl (fun acc e =>
    let b := acc.1
    let r := badLane (bbDir b e.1) ((bbDir b e.1).gone.contains 12) e.2
    ({ setBbDir b e.1 r.1 with fail := BitVec.ofNat 32 (setBits b.fail.toNat e.2 1 1) }, if r.2 then acc.2 ++ [e] else acc.2)) (b, [])

/-- A port's flits after alignment (Table 20.7 step 6): numbers start from 0, and what the peer has not yet received is sent again. -/
def realign (x : BbDir) : BbDir :=
  let keep := x.unacked.drop ((x.unacked.findIdx? (·.1 == x.expect)).getD x.unacked.length)
  { x with unacked := keep.zipIdx.map fun e => (e.2, e.1.2), next := keep.length, expect := 0, naked := false, retries := 0, window := 0, lane := 0 }

/-- Training of a die fails: an attempt of start-up (Table 19.2), or one of the 2 s of R519. -/
def trainFail (s : State) (d : Nat) : State :=
  if s.boot.step == 3 then phaseFailed s d else modDie s d fun x => { x with train := 0, accepted := false }

/-- A die's links come up (Table 20.7 step 7); one of maker 0x01 runs the firmware of the running bank (R606). -/
def linkUp (s : State) (d : Nat) : State :=
  let x := getDie s d
  let s := modPorts s d fun b => { b with st := 3, rate := x.rate, ver := x.ver }
  modDie s d fun x => { x with train := 7, test := false, fw := if capMake x == 1 then dieCver s d else x.fw }

/-- DIE_TRAINING (R607): the next step of Table 20.7 of a die released from reset; `bad` lists (port, direction, lane) that fail the lane
test. -/
def execDieTraining (d : Fin 32) (bad : List (Fin 8 × Fin 2 × Fin 13)) (s : State) : Out :=
  let x := getDie s d.val
  if d.val == 0 || !(s.boot.step == 3 || (x.down && s.boot.step == 7)) then .next s
  else match x.train with
  | 0 => .next (modDie s d.val fun x => { x with train := 1 })
  | 1 => .next (modDie (modPorts s d.val fun b => { BbPort.reset with st := 1, sbok := true, fail := b.fail }) d.val fun x => { x with train := 2, cap := 0 })
  | 2 =>
    if x.cap = 0 then .next s
    else
      let w := x.cap.toNat
      if capOk d.val w then .next (modDie s d.val fun x => { x with train := 3, accepted := true, rate := capRate w, ver := capVer w })
      else .next (trainFail s d.val)
  | 3 => .next (modDie (modPorts s d.val fun b => { b with st := 2 }) d.val fun x => { x with train := 4 })
  | 4 =>
    let s := (List.range (diePorts d.val)).foldl (fun s p =>
      modBb s d.val p fun b => (laneTest { b with fail := 0 } ((bad.filter (·.1.val == p)).map fun e => (e.2.1.val, e.2.2.val))).1) s
    if (List.range (diePorts d.val)).all fun p => decide (bbLanes (getBb s d.val p) ≥ 8) then
      .next (modDie s d.val fun x => { x with train := 5 })
    else .next (trainFail s d.val)
  | 5 => .next (modDie (modPorts s d.val fun b => { b with d0 := realign b.d0, d1 := realign b.d1 }) d.val fun x => { x with train := 6 })
  | 6 => .next (confirmTry (linkUp s d.val))
  | _ => .next s

/-! ### Flits (R593 to R599) -/

/-- The lanes of a direction in use, ascending: the data lanes that are good, and the spare lane 12 once it replaces one (R591, R599). -/
def lanesUsed (x : BbDir) : List Nat := (List.range 13).filter fun l => !x.gone.contains l && (decide (l < 12) || x.spare)

/-- The lane that carries byte `i` of the next flit of a direction: flits are striped byte by byte over the lanes in use, in ascending order,
going on across flit boundaries (R592). -/
def flitLane (x : BbDir) (i : Nat) : Nat := lget 0 (lanesUsed x) ((x.lane + i) % (lanesUsed x).length)

/-- The 256 bytes of a flit have gone over the lanes (R592). -/
def striped (x : BbDir) : BbDir := { x with lane := (x.lane + 256) % (lanesUsed x).length }

/-- The slots of a flit keep to R594, and how many slots of a data flit are still to come; `none` breaks it. -/
def slotsAfter (carry : Nat) : List (Fin 4) → Option Nat
  | [] => some carry
  | c :: rest =>
    if carry > 0 then (if c.val == 3 then slotsAfter (carry - 1) rest else none)
    else if c.val == 3 then none
    else slotsAfter (if c.val == 2 then 7 else 0) rest

/-- A flit in sequence is delivered; another one is discarded, with one NAK (R595, R596). -/
def takeFlit (x : BbDir) (n : Nat) (slots : List Nat) (ok : Bool) : BbDir :=
  let fit := slotsAfter x.carry ((slots.take 15).map fun c => Fin.ofNat 4 c)
  match fit with
  | some c => if ok && n == x.expect then { x with expect := (x.expect + 1) % 4096, naked := false, carry := c } else { x with naked := true }
  | none => { x with naked := true }

/-- A `FACK` acknowledges every flit before it (R597). -/
def ackFlits (x : BbDir) (f now : Nat) : BbDir :=
  let n := match x.unacked with
    | e :: _ => (f + 4096 - e.1) % 4096
    | [] => 0
  if n == 0 || n > x.unacked.length then x else { x with unacked := x.unacked.drop n, since := now }

/-- A sender puts a new flit under way; with 64 unacknowledged it sends none (R597). -/
def sendFlit (x : BbDir) (slots : List Nat) (now : Nat) : Option (BbDir × Nat) :=
  if x.unacked.length ≥ 64 then none
  else
    let w := x.window + 1
    let x := if w ≥ 2 ^ 20 then { x with window := 0, retries := 0 } else { x with window := w }
    some ({ x with unacked := x.unacked ++ [(x.next, slots)], since := if x.unacked.isEmpty then now else x.since, next := (x.next + 1) % 4096 },
      x.next)

/-- BROBRY_FLIT (R596, R597): a flit of an attach port is sent and arrives; direction 0 is toward the wafer. `slots` are the codes of a data
flit's slots, none an idle flit; `ok` says that its checks pass. A good flit's `FACK` acknowledges flits of the other direction. -/
def execBrobryFlit (d : Fin 32) (p : Fin 8) (dir : Fin 2) (slots : Option (List (Fin 4))) (ok : Bool) (s : State) : Out :=
  let b := getBb s d.val p.val
  if b.st != 3 then .next s
  else
    let x := bbDir b dir.val
    let b := match slots with
      | some l => match sendFlit x (l.map (·.val)) (nowPs s) with
        | some (y, n) => setBbDir b dir.val (striped (takeFlit y n (l.map (·.val)) ok))
        | none => b
      | none => setBbDir b dir.val (striped (if ok then x else { x with naked := true }))
    let o := 1 - dir.val
    let b := if ok then setBbDir b o (ackFlits (bbDir b o) (bbDir b o).expect (nowPs s)) else b
    .next (modBb s d.val p.val fun _ => b)

/-- Whether copy `i` of what is sent again passes its checks; unlisted ones do. -/
def okAt (oks : List Bool) (i : Nat) : Bool := oks[i]?.getD true

/-- A sender replays every unacknowledged flit; `oks` says which of them pass (R597, R598). -/
def replayFlits (s : State) (d p dir : Nat) (oks : List Bool) : State :=
  let b := getBb s d p
  let x := bbDir b dir
  let y := x.unacked.zipIdx.foldl (fun y e => striped (takeFlit y e.1.1 e.1.2 (okAt oks e.2))) { x with retries := x.retries + 1, since := nowPs s }
  let s := modBb s d p fun b => { setBbDir b dir y with retry := satAdd 16 b.retry 1 }
  let s := modLink s (attachTile d p) 5 0 fun l => { l with retries := satAdd 32 l.retries 1 }
  raiseCoal s (mkInc 0x0701 utBrobry d noTile p 0)

/-- BROBRY_NAK (R597): a NAK reaches the sender, which replays from the `FACK` it carries. -/
def execBrobryNak (d : Fin 32) (p : Fin 8) (dir : Fin 2) (oks : List Bool) (s : State) : Out :=
  let b := getBb s d.val p.val
  let x := bbDir b dir.val
  if b.st != 3 || !x.naked then .next s
  else
    let s := modBb s d.val p.val fun b =>
      let b := setBbDir b dir.val (ackFlits x x.expect (nowPs s))
      setBbDir b (1 - dir.val) (striped (bbDir b (1 - dir.val)))
    .next (replayFlits s d.val p.val dir.val oks)

/-- BROBRY_REPLAY_TIMEOUT (R597): 200 ns have passed with flits unacknowledged and no advance of `FACK`. -/
def execBrobryReplayTimeout (d : Fin 32) (p : Fin 8) (dir : Fin 2) (oks : List Bool) (s : State) : Out :=
  let b := getBb s d.val p.val
  let x := bbDir b dir.val
  if b.st != 3 || x.unacked.isEmpty then .next s
  else .next (replayFlits (reachPs s (x.since + 200000)) d.val p.val dir.val oks)

/-- Hold or release the attach port output of its router (`HATT`). -/
def holdAttach (s : State) (d p : Nat) (on : Bool) : State :=
  modTile s (attachTile d p) fun x => { x with hold := BitVec.ofNat 32 (setBits x.hold.toNat 4 1 (ofBit on)) }

/-- ATTACH_PORT_RETRAIN (R599): a port with more than 16 retries within 2^20 flits in a direction is held and retrained. -/
def execAttachPortRetrain (d : Fin 32) (p : Fin 8) (s : State) : Out :=
  let b := getBb s d.val p.val
  if b.st != 3 || (b.d0.retries ≤ 16 && b.d1.retries ≤ 16) then .next s
  else .next (modBb (holdAttach s d.val p.val true) d.val p.val fun b => { b with st := 4, trainAt := nowPs s })

/-- ATTACH_PORT_RETRAIN_DONE (R599): the retraining of a port ends; `bad` lists (direction, lane) that failed the lane test. -/
def execAttachPortRetrainDone (d : Fin 32) (p : Fin 8) (bad : List (Fin 2 × Fin 13)) (s : State) : Out :=
  let b := getBb s d.val p.val
  if b.st != 4 then .next s
  else
    let r := laneTest b (bad.map fun e => (e.1.val, e.2.val))
    let b := { r.1 with d0 := realign r.1.d0, d1 := realign r.1.d1 }
    let good := decide (bbLanes b ≥ 8)
    let s := modBb s d.val p.val fun _ => { b with st := if good then 3 else 0 }
    let s := r.2.foldl (fun s e => raiseInc s (mkInc 0x0702 utBrobry d.val noTile p.val (e.2 + e.1 * 16))) s
    let s := raiseInc s (mkInc 0x0703 utBrobry d.val noTile p.val (bbLanes b * 256))
    let s := holdAttach s d.val p.val false
    .next (if good then s else loseDie s d.val)

/-! ### The sideband (R601, R602) -/

/-- A direction of a sideband lane. -/
def sbDir (b : BbPort) (dir : Nat) : SbDir := if dir == 0 then b.s0 else b.s1
/-- Replace a direction. -/
def setSbDir (b : BbPort) (dir : Nat) (x : SbDir) : BbPort := if dir == 0 then { b with s0 := x } else { b with s1 := x }

/-- A numbered frame arrives: taken if it is good and the next expected; out of sequence it is answered at once (R601). -/
def takeFrame (x : SbDir) (n : Nat) (ok : Bool) : SbDir × Bool :=
  if !ok then ({ x with bad := x.bad + 1 }, false)
  else if n == x.expect then ({ x with expect := (x.expect + 1) % 16, ackDue := true }, true)
  else ({ x with ackDue := true }, false)

/-- The key pieces of a slot are complete at an MSD: it takes the key (R619). -/
def keyTake (s : State) (d slot : Nat) : State :=
  if [0, 1, 2].all fun i => ((getDie s d).keyPiece.lookup (slot * 4 + i)).isSome then
    match s.island.slots.lookup slot with
    | some k => modMsd s (d - 8) fun m => { m with keys := mput m.keys slot k.key }
    | none => s
  else s

/-- What a numbered frame that is taken does (Table 20.5): 3 CREDIT, 4 TRAIN, 5 KEY, 6 MGMT, 7 STATE. -/
def frameEffect (s : State) (d p dir typ sub : Nat) (body : List Byte) : State :=
  match typ with
  | 3 => modBb s d p fun b => { b with credit := (List.range 4).foldl (fun m i =>
      mset 0 m (dir * 4 + i) (mget 0 m (dir * 4 + i) + leNat ((body.drop (2 * i)).take 2))) b.credit }
  | 4 => if dir == 0 then modDie s d fun x => { x with cap := BitVec.ofNat 64 (leNat (body.take 8)) } else s
  | 5 =>
    if !dieIsMsd d then s
    else if sub % 4 == 3 then
      let mask := leNat (body.take 2)
      modMsd s (d - 8) fun m => { m with keys := m.keys.filter fun e => !bit mask e.1 }
    else keyTake (modDie s d fun x => { x with keyPiece := mput x.keyPiece (sub / 16 * 4 + sub % 4) body }) d (sub / 16)
  | 6 => if dir == 1 then modDie s d fun x => { x with mgmt := x.mgmt ++ body } else s
  | 7 =>
    let v := leNat (body.take 8)
    if dir != 0 then s
    else if sub == 0 then modDie s d fun x => { x with state := mset 0 x.state 0 v }
    else if sub == 1 then confirmTry (modDie s d fun x => { x with fw := v })
    else keyAck s (some v) d
  | _ => s

/-- A numbered frame is sent and arrives; with 8 unacknowledged none is sent (R601). -/
def sbFrame (s : State) (d p dir typ sub : Nat) (body : List Byte) (ok : Bool) : State :=
  let b := getBb s d p
  let x := sbDir b dir
  if !b.sbok || x.unacked.length ≥ 8 then s
  else
    let y := { x with unacked := x.unacked ++ [(x.next, typ, sub, body)], next := (x.next + 1) % 16,
                      since := if x.unacked.isEmpty then nowPs s else x.since, repeats := if x.unacked.isEmpty then 0 else x.repeats }
    let r := takeFrame y x.next ok
    let s := modBb s d p fun b => setSbDir b dir r.1
    if r.2 then frameEffect s d p dir typ sub body else s

/-- Sixteen bytes of a frame's body. -/
def body16 (bs : List Byte) : List Byte := (bs ++ List.replicate 16 0).take 16

/-- CREDIT (R601): credits freed for the four channels of an attach port. -/
def execCreditFrame (d : Fin 32) (p : Fin 8) (dir : Fin 2) (v : W64) (ok : Bool) (s : State) : Out :=
  .next (sbFrame s d.val p.val dir.val 3 0 (body16 (leBytes 8 v.toNat)) ok)

/-- TRAIN (R604): a capability word. -/
def execTrainFrame (d : Fin 32) (p : Fin 8) (dir : Fin 2) (w : W64) (ok : Bool) (s : State) : Out :=
  .next (sbFrame s d.val p.val dir.val 4 0 (body16 (leBytes 8 w.toNat)) ok)

/-- KEY (R619): a piece of an occupied slot's key, wrapped for the MSD, or with piece 3 a clear mask of the slots that are empty. -/
def execKeyFrame (d : Fin 32) (p : Fin 8) (slot : Fin 16) (piece : Fin 4) (ok : Bool) (s : State) : Out :=
  if !dieIsMsd d.val || capMake (getDie s d.val) != 1 then .next s
  else if piece.val == 3 then
    .next (sbFrame s d.val p.val 1 5 3 (body16 (leBytes 2 (65535 - slotMask s.island))) ok)
  else match s.island.slots.lookup slot.val with
  | some k => .next (sbFrame s d.val p.val 1 5 (slot.val * 16 + piece.val) (body16 (Config.keyWrap (d.val - 8) slot.val k.key piece.val)) ok)
  | none => .next s

/-- MGMT (R601): sixteen bytes of register access or firmware. -/
def execMgmtFrame (d : Fin 32) (p : Fin 8) (dir : Fin 2) (bs : List Byte) (ok : Bool) (s : State) : Out :=
  .next (sbFrame s d.val p.val dir.val 6 0 (body16 bs) ok)

/-- STATE (R601, R606, R619): a die reports its state, its firmware version, or a key slot it has taken. -/
def execStateFrame (d : Fin 32) (p : Fin 8) (rep : DieRep) (ok : Bool) (s : State) : Out :=
  let x : Nat × Nat := match rep with
    | .state c => (0, c.toNat)
    | .firmware v => (1, v.toNat)
    | .keyAck k => (2, k.val)
  .next (sbFrame s d.val p.val 0 7 x.1 (body16 (leBytes 8 x.2)) ok)

/-- SBACK (R601): the receiver acknowledges every frame before the one it expects. -/
def execSbackFrame (d : Fin 32) (p : Fin 8) (dir : Fin 2) (ok : Bool) (s : State) : Out :=
  let b := getBb s d.val p.val
  let x := sbDir b dir.val
  if !b.sbok then .next s
  else if !ok then .next (modBb s d.val p.val fun b => setSbDir b dir.val { x with ackDue := false, bad := x.bad + 1 })
  else
    let n := match x.unacked with
      | e :: _ => (x.expect + 16 - e.1) % 16
      | [] => 0
    let y := if n == 0 || n > x.unacked.length then { x with ackDue := false }
      else { x with ackDue := false, unacked := x.unacked.drop n, since := nowPs s, repeats := 0 }
    .next (modBb s d.val p.val fun b => setSbDir b dir.val y)

/-- A sideband lane has failed; a die whose lanes have all failed is lost (R601, R602). -/
def sbFail (s : State) (d p : Nat) : State :=
  let s := modBb s d p fun b => { b with sbok := false }
  if (List.range (diePorts d)).any fun q => (getBb s d q).sbok then s else loseDie s d

/-- SIDEBAND_REPEAT_TIMEOUT (R601): 1 µs has passed without an advance; every unacknowledged frame is repeated in order. The sixteenth
repeat fails the lane. -/
def execSidebandRepeatTimeout (d : Fin 32) (p : Fin 8) (dir : Fin 2) (oks : List Bool) (s : State) : Out :=
  let b := getBb s d.val p.val
  let x := sbDir b dir.val
  if !b.sbok || x.unacked.isEmpty then .next s
  else
    let s := reachPs s (x.since + 1000000)
    let s := modBb s d.val p.val fun b => setSbDir b dir.val { x with since := nowPs s, repeats := x.repeats + 1 }
    let s := x.unacked.zipIdx.foldl (fun s e =>
      let r := takeFrame (sbDir (getBb s d.val p.val) dir.val) e.1.1 (okAt oks e.2)
      let s := modBb s d.val p.val fun b => setSbDir b dir.val r.1
      if r.2 then frameEffect s d.val p.val dir.val e.1.2.1 e.1.2.2.1 e.1.2.2.2 else s) s
    .next (if x.repeats + 1 ≥ 16 then sbFail s d.val p.val else s)

end Sys2Proof.Machine
end

