-- ==== Sys2Proof/Machine/Hosts.lean ====
section
/-!
DEFINITION. The host ports (chapter 13): the semaphore, the registers of the command rings, interrupts, the time readback, register access,
and the resets of a port.
-/
namespace Sys2Proof.Machine
open Sys2Proof

/-! ### Requests -/

/-- Record how a request at a port completed. -/
def hostAns (s : State) (p : Nat) (a : HAns) : State := { s with ans := { s.ans with host := mset .none s.ans.host p a } }

/-- A read of BAR0: while memory requests are not answered it completes with Unsupported Request, and over a link that is down it does not
come (R445). -/
def hostRead (s : State) (p : Nat) (k : State) : State :=
  if hostUp s p then k
  else if (getHost s p).linkUp && !(getHost s p).perst then hostAns s p .unsupported
  else s

/-- A write to BAR0; while memory requests are not answered it is discarded (R445). -/
def hostWr (s : State) (p : Nat) (k : State) : State := if hostUp s p then k else s

/-! ### The semaphore (R430 to R434) -/

/-- The lease in ps. -/
def leasePs : Nat := 2000000000000

/-- The lease has ended: the semaphore is free, and its former holder and the CD are told (R434). -/
def semLapse (s : State) : State :=
  match s.sem.holder with
  | some h =>
    let s := setCause (setCauses { s with sem := { s.sem with holder := none } } cSemFree) h cSemLost
    raiseInc s (cdInc 0x0A03 h)
  | none => s

/-- The lease ends at the close of its last cycle (R432). -/
def semCheck (s : State) : State := if s.sem.holder.isSome && decide (nowPs s > s.sem.lease) then semLapse s else s

/-- The next token: plus 1 modulo 2^16, skipping 0. -/
def nextToken (t : Nat) : Nat := if (t + 1) % 65536 == 0 then 1 else (t + 1) % 65536

/-- A take (R430). -/
def semTake (s : State) (p : Nat) : State :=
  match s.sem.holder with
  | none =>
    let t := nextToken s.sem.token
    hostAns { s with sem := { s.sem with holder := some p, token := t, lease := nowPs s + leasePs } } p (.data (2 ^ 31 + p * 65536 + t))
  | some h =>
    if h == p then hostAns { s with sem := { s.sem with lease := nowPs s + leasePs } } p (.data (2 ^ 31 + p * 65536 + s.sem.token))
    else hostAns s p (.data (2 ^ 30 + h * 65536))

/-- SEM_TAKE (R430, R432, R433): port `p` reads it; with `both` the other port does so in the same cycle, and the port in `TIEW` wins a tie
for the free semaphore. -/
def execSemTake (p : Fin 2) (both : Bool) (s : State) : Out :=
  let s := semCheck s
  let o := 1 - p.val
  if both && hostUp s p.val && hostUp s o then
    if s.sem.holder.isNone then
      let w := s.sem.tiew
      .next (semTake (semTake { s with sem := { s.sem with tiew := 1 - w } } w) (1 - w))
    else .next (semTake (semTake s p.val) o)
  else
    let s := hostRead s p.val (semTake s p.val)
    .next (if both then hostRead s o (semTake s o) else s)

/-- A write to `SEM_HB` or `SEM_REL` that is not the holder's with the current token is ignored and counted (R431). -/
def semKey (s : State) (p : Nat) (v : W32) (k : State) : State :=
  if s.sem.holder == some p && bits v.toNat 0 16 == s.sem.token then k
  else { s with sem := { s.sem with hbign := satAdd 16 s.sem.hbign 1 } }

/-- SEM_HB (R431, R432): a heartbeat renews the lease; in the lease's last cycle it is on time and counted in `TIE`. -/
def execSemHb (p : Fin 2) (v : W32) (s : State) : Out :=
  let s := semCheck s
  .next (hostWr s p.val (semKey s p.val v
    { s with sem := { s.sem with lease := nowPs s + leasePs, tie := if nowPs s == s.sem.lease then satAdd 8 s.sem.tie 1 else s.sem.tie } }))

/-- SEM_REL (R431, R434): a release. -/
def execSemRel (p : Fin 2) (v : W32) (s : State) : Out :=
  let s := semCheck s
  .next (hostWr s p.val (semKey s p.val v (setCauses { s with sem := { s.sem with holder := none } } cSemFree)))

/-- SEMAPHORE_LEASE_END (R434): 2,000 ms have passed since the last grant, renewal or heartbeat. -/
def execSemaphoreLeaseEnd (s : State) : Out :=
  if s.sem.holder.isNone then .next s else .next (semLapse (reachPs s s.sem.lease))

/-! ### Ring registers (R435 to R439) -/

/-- The old value of a 64-bit register with what an access writes. -/
def mergeHalf (h : Half) (old v : Nat) : Nat :=
  match h with
  | .whole => v
  | .low => setBits old 0 32 v
  | .high => setBits old 32 32 v

/-- RING_CFG (R436): `RSIZE` changes only while `EN` = 0 and `BUSY` = 0; setting `EN` starts the ring from 0 unless a size is 0; clearing it
clears `ERR`. -/
def ringCfgWrite (r : HRing) (v : Nat) : HRing :=
  let size := if !r.en && r.out == 0 then bits v 0 16 else r.rsize
  if !bit v 31 then { r with en := false, err := false, rsize := size }
  else if r.en then r
  else if size == 0 || r.csize == 0 then r
  else { r with en := true, err := false, rsize := size, head := 0, taila := 0, chead := 0, ctail := 0, arm := false, pass := true, due := none }

/-- RING_CFG. -/
def execRingCfg (p : Fin 2) (e : Fin 79) (v : W32) (s : State) : Out :=
  .next (hostWr s p.val (setRing s p.val e.val (ringCfgWrite (getRing s p.val e.val) v.toNat)))

/-- RING_DB (R437, R438): a doorbell. -/
def execRingDb (p : Fin 2) (e : Fin 79) (tail : W32) (s : State) : Out :=
  let r := getRing s p.val e.val
  let t := tail.toNat
  .next (hostWr s p.val (
    if !r.en then s
    else if t % 64 != 0 || t ≥ ringBytes r then ringHalt s p.val e.val 0x0A01
    else setRing s p.val e.val { r with taila := t }))

/-- CPL_HEAD (R442): `CHEAD` moves, and writing 1 to `ARM` arms the completion interrupt, which is sent for unread records. -/
def execCplHead (p : Fin 2) (e : Fin 79) (v : W32) (s : State) : Out :=
  let r := getRing s p.val e.val
  let r := { r with chead := bits v.toNat 0 20, arm := r.arm || bit v.toNat 31 }
  let s' := setRing s p.val e.val r
  .next (hostWr s p.val (if bit v.toNat 31 && r.chead != r.ctail then cplSignal s' p.val e.val else s'))

/-- COMPLETION_INTERRUPT_DELAY (R442): `CDLY` has passed since the first record; the message is sent and clears `ARM`. -/
def execCompletionInterruptDelay (p : Fin 2) (e : Fin 79) (s : State) : Out :=
  let r := getRing s p.val e.val
  match r.due with
  | none => .next s
  | some t =>
    let s := setRing (reachPs s t) p.val e.val { r with due := none, arm := false }
    .next (if r.arm && r.cvec ≥ 16 then sendVec s p.val r.cvec else s)

/-! ### Interrupts (R440 to R443) -/

/-- INT_CAUSE: writing 1 clears a cause bit. -/
def execIntCause (p : Fin 2) (v : W32) (s : State) : Out :=
  .next (hostWr s p.val (modHost s p.val fun h => { h with cause := h.cause &&& (65535 - v.toNat % 65536) }))

/-- INT_MASK (R441): masks are set; a message goes out for every set cause bit that is unmasked. -/
def execIntMask (p : Fin 2) (v : W32) (s : State) : Out :=
  let h := getHost s p.val
  let m := v.toNat % 65536
  let open_ := (List.range 16).filter fun b => bit h.mask b && !bit m b && bit h.cause b
  .next (hostWr s p.val (open_.foldl (fun s b => sendVec s p.val (causeVec b)) (modHost s p.val fun h => { h with mask := m })))

/-- A cause bit of a vector is set and unmasked. -/
def causeOn (h : HostPort) (v : Nat) : Bool := (List.range 16).any fun b => causeVec b == v && bit h.cause b && !bit h.mask b

/-- A withheld message whose masks are clear is sent; a cause message only while its cause is still set and unmasked (R443). -/
def releaseVec (s : State) (p v : Nat) : State :=
  let h := getHost s p
  if !mget false h.pba v || vecHeld h v then s
  else if v < 6 && !causeOn h v then setHost s p { h with pba := mset false h.pba v false }
  else sendVec s p v

/-- Send what the masks no longer withhold, by ascending vector. -/
def releaseAll (s : State) (p : Nat) : State := (getHost s p).pba.foldl (fun s e => releaseVec s p e.1) s

/-- MSIX_MASK_CHANGE (R443): MSI-X Enable and the function mask (configuration space), or a vector's mask (its table entry), are written. -/
def execMsixMaskChange (p : Fin 2) (en fm : Option Bool) (vec : Option (Fin 1024 × Bool)) (s : State) : Out :=
  if !portTold s p.val || s.boot.mst == 0 then .next s
  else
    let s := modHost s p.val fun h => { h with msixEn := en.getD h.msixEn, msixFm := fm.getD h.msixFm }
    let s := match vec with
      | some (v, m) => hostWr s p.val (modHost s p.val fun h => { h with msix := mset Msix.reset h.msix v.val { mget Msix.reset h.msix v.val with mask := m } })
      | none => s
    .next (releaseAll s p.val)

/-! ### Reads and writes of registers (R16, R428, R444) -/

/-- Module time, whole or by halves; a read of the low half latches the high one for the next read of it (R444). -/
def timeNsRead (s : State) (p : Nat) (h : Half) : State :=
  let t := nowNs s % 2 ^ 64
  hostRead s p (match h with
    | .whole => hostAns s p (.data t)
    | .low => hostAns (modHost s p fun x => { x with latch := some (t / 2 ^ 32) }) p (.data (t % 2 ^ 32))
    | .high =>
      let v := (getHost s p).latch.getD (t / 2 ^ 32)
      hostAns (modHost s p fun x => { x with latch := none }) p (.data v))

/-- TIME_NS (R444). -/
def execTimeNs (p : Fin 2) (h : Half) (s : State) : Out := .next (timeNsRead s p.val h)

/-- BAR0_ACCESS_SIZE (R428): a read of another size or alignment completes with Completer Abort, such a write is discarded; 0x0A05. -/
def execBar0AccessSize (p : Fin 2) (write : Bool) (s : State) : Out :=
  let bad := raiseCoal s (cdInc 0x0A05 0)
  .next (if write then hostWr s p.val bad else hostRead s p.val (hostAns bad p.val .abort))

/-- Write bytes of the request area. -/
def putReq (m : SMap Byte) (ofs : Nat) (bs : List Byte) : SMap Byte :=
  bs.zipIdx.foldl (fun m e => if ofs + e.2 < 4080 then mset 0 m (ofs + e.2) e.1 else m) m

/-- A ring's registers can change (R436). -/
def hostRingFree (r : HRing) : Bool := !r.en && r.out == 0

/-- A write to a register with no behaviour of its own (R16, R436, R470); a location with no writable field ignores it. -/
def regWrite (s : State) (p : Nat) (w : RegW) : State :=
  match w with
  | .ringBase e h v =>
    let r := getRing s p e.val
    if hostRingFree r then setRing s p e.val { r with rbase := mergeHalf h r.rbase v.toNat / 4096 * 4096 } else s
  | .cplBase e h v =>
    let r := getRing s p e.val
    if hostRingFree r then setRing s p e.val { r with cbase := mergeHalf h r.cbase v.toNat / 4096 * 4096 } else s
  | .cplCfg e v =>
    let r := getRing s p e.val
    let r := { r with cvec := bits v.toNat 22 10, cdly := bits v.toNat 12 10 }
    setRing s p e.val (if hostRingFree r then { r with csize := bits v.toNat 0 12 } else r)
  | .mbhHdr h v =>
    let x := getMb s p
    if x.busy then s
    else setMb s p { x with hdr := BitVec.ofNat 64 (setBits (mergeHalf h x.hdr.toNat v.toNat) 28 4 0) }
  | .request ofs bs =>
    let x := getMb s p
    if x.busy || !(bs.length == 4 || bs.length == 8) || ofs.val % bs.length != 0 then s else setMb s p { x with req := putReq x.req ofs.val bs }
  | .msixAddr i h v => modHost s p fun x =>
    let e := mget Msix.reset x.msix i.val
    { x with msix := mset Msix.reset x.msix i.val { e with addr := BitVec.ofNat 64 (mergeHalf h e.addr.toNat v.toNat) } }
  | .fixed _ _ _ => s
  | .msixData i v => modHost s p fun x => { x with msix := mset Msix.reset x.msix i.val { mget Msix.reset x.msix i.val with data := v } }

/-- REGISTER_WRITE. -/
def execRegisterWrite (p : Fin 2) (r : RegW) (s : State) : Out := .next (hostWr s p.val (regWrite s p.val r))

/-! Registers with fields of access RC: their values. -/

/-- `LLOFS` of a tile: 0 until the Lamplighter has been calibrated, then what the last calibration measured (R328). -/
def llOffset (s : State) (t : Nat) : Nat := if s.lamp.calib == 0 then 0 else (Config.llOfs s.lamp.calib t).toNat % 65536

/-- `LL_STAT`. -/
def llStatWord (s : State) (t : Nat) : Nat :=
  let x := getTile s t
  let w := if x.llOwn then x.llWnum else s.lamp.lastWnum
  let y := if x.llOwn then x.llWtyp else s.lamp.lastWtyp
  w % 65536 * 2 ^ 48 + y % 16 * 2 ^ 44 + llOffset s t * 65536 + x.llMiss % 256 * 256 + x.llAlt % 256

/-- `FC_CLK`. -/
def fcClkWord (x : FieldSt) : Nat :=
  ofBit x.plA * 2 ^ 31 + ofBit x.plB * 2 ^ 30 + ofBit x.act * 2 ^ 29 + ofBit (x.chg != 0) * 2 ^ 28 + x.opcur % 4 * 2 ^ 26 + x.optgt % 4 * 2 ^ 24 +
    x.opreq % 4 * 2 ^ 22 + ofBit x.onepll * 2 ^ 21 + x.opcnt % 65536

/-- A tile's droop so far is counted (R547). -/
def settleDroop (x : Tile) (fc : Nat) : Tile :=
  match x.droop with
  | some d => { x with dstr := satAdd 32 x.dstr ((fc - d) / 2), lag := x.lag + ((fc - d) - (fc - d) / 2), droop := some fc }
  | none => x

/-- `TC_CLK`. -/
def tcClkWord (s : State) (t : Nat) : Nat :=
  let f := getField s (fieldOf t)
  let x := settleDroop (getTile s t) (fieldCycles s (fieldOf t))
  x.dstr * 2 ^ 32 + f.tapk % 256 * 2 ^ 16 + ofBit f.src * 2 ^ 15 + ofBit f.hold * 2 ^ 14 + (if f.tapk < 64 then f.optgt else f.opcur) % 4 * 2 ^ 12

/-- `BB_STAT` of an attach port. -/
def bbStatWord (b : BbPort) : Nat :=
  b.retry % 65536 * 2 ^ 48 + b.ver % 256 * 2 ^ 40 + b.rate % 4 * 2 ^ 38 + ofBit b.sbok * 2 ^ 37 + ofBit (b.d0.spare || b.d1.spare) * 2 ^ 36 +
    bbLanes b % 16 * 2 ^ 32 + b.st % 8 * 2 ^ 29 + b.fail.toNat % 8192

/-- `CD_SNF`. -/
def snfWord (x : Snuff) : Nat := x.relrej % 256 * 256 + x.cause % 16 * 16 + ofBit x.pin * 8 + ofBit x.snf

/-- `SEM_STAT` as a port reads it. -/
def semStatWord (s : State) (p : Nat) : Nat :=
  let x := s.sem
  let left := if x.holder.isSome then (x.lease - nowPs s) / 1000000000 else 0
  (getHost s p).rwsign * 2 ^ 48 + x.hbign * 2 ^ 32 + x.tie * 2 ^ 24 + min left 2000 * 2 ^ 12 + ofBit x.holder.isNone * 4 + x.holder.getD 0 * 2 + x.tiew

/-- `MBH_STAT`. -/
def mbhStatWord (x : MbPort) : Nat := ofBit x.busy * 2 ^ 31 + x.qout % 16 * 2 ^ 24 + x.mrej % 65536
/-- `MBM_STAT`. -/
def mbmStatWord (x : MbPort) : Nat := x.tie % 256 * 2 ^ 24 + x.queue.length % 32 * 65536 + x.tocnt % 65536

/-- The part of a 64-bit value that an access reads. -/
def halfOf (h : Half) (v : Nat) : Nat :=
  match h with
  | .whole => v
  | .low => v % 2 ^ 32
  | .high => v / 2 ^ 32

/-- An access reaches a half. -/
def hasLow (h : Half) : Bool := h ≠ .high
def hasHigh (h : Half) : Bool := h ≠ .low

/-- A register is read by a reader inside the module or the TAP chain. -/
def regAns (s : State) (v : Nat) : State := { s with ans := { s.ans with reg := BitVec.ofNat 64 v } }

/-- A read of `CD_SNF` through its alias (R429). -/
def snfRead (s : State) (p : Nat) (h : Half) : State :=
  let s' := if hasLow h then { s with snuff := { s.snuff with relrej := 0 } } else s
  hostRead s p (hostAns s' p (.data (halfOf h (snfWord s.snuff))))

/-- A read of `SEM_STAT`. -/
def semStatRead (s : State) (p : Nat) (h : Half) : State :=
  let s := semCheck s
  let s1 := if hasLow h then { s with sem := { s.sem with tie := 0 } } else s
  let s2 := if hasHigh h then modHost { s1 with sem := { s1.sem with hbign := 0 } } p fun x => { x with rwsign := 0 } else s1
  hostRead s p (hostAns s2 p (.data (halfOf h (semStatWord s p))))

/-- A read of `MBH_POST`, which reads 0, and `MBH_STAT`, which share a double word. -/
def mbhRead (s : State) (p : Nat) (h : Half) : State :=
  let s' := if hasHigh h then modMb s p fun x => { x with mrej := 0 } else s
  hostRead s p (hostAns s' p (.data (halfOf h (mbhStatWord (getMb s p) * 2 ^ 32))))

/-- A read of `MBM_ACK`, which reads 0, and `MBM_STAT`. -/
def mbmRead (s : State) (p : Nat) (h : Half) : State :=
  let s' := if hasHigh h then modMb s p fun x => { x with tie := 0, tocnt := 0 } else s
  hostRead s p (hostAns s' p (.data (halfOf h (mbmStatWord (getMb s p) * 2 ^ 32))))

/-- `MOD_STATE` as a port reads it (13.3.1). -/
def modStateWord (s : State) (p : Nat) : Nat :=
  p * 2 ^ 15 + ofBit s.snuff.snf * 2 ^ 14 + ofBit s.tc.lock * 2 ^ 13 + ofBit (holdsSem s p) * 2 ^ 12 + s.boot.lrst % 16 * 256 + s.boot.mst % 16

/-- `MBM_HDR`: the reply present, if any (R469). -/
def mbmHdrWord (x : MbPort) : Nat :=
  match x.reply with
  | some r => r.seq % 2 ^ 32 * 2 ^ 32 + 2 ^ 31 + ofBit r.late * 2 ^ 30 + r.data.length % 4096 * 65536 + outcCode r.outc * 4096 + r.stat % 256
  | none => 0

/-- `TIME_STAT` (13.7). -/
def timeStatWord (s : State) : Nat :=
  (s.tc.tofs % 65536).toNat * 65536 + ofBit s.tc.ptpOk * 128 + ofBit (s.tc.ppsOk && s.tc.tenOk) * 64 + ofBit s.boot.refOk * 32 +
    ofBit s.tc.lock * 16 + s.tc.src % 16

/-- A register of a ring's block, by its place in the block (Table 13.3); the doorbell reads zero. -/
def ringRegWord (r : HRing) (j : Nat) : Nat :=
  match j with
  | 0 => r.rbase
  | 1 => ofBit r.en * 2 ^ 31 + ofBit r.err * 2 ^ 30 + ofBit (r.out != 0) * 2 ^ 29 + r.rsize % 65536
  | 3 => r.head * 2 ^ 32 + r.taila
  | 4 => r.cbase
  | 5 => r.cvec * 2 ^ 22 + r.cdly * 4096 + r.csize
  | 6 => ofBit r.arm * 2 ^ 31 + r.chead
  | 7 => r.ctail
  | _ => 0

/-- The double word at BAR0 + 8 × `k`, of the locations that a read leaves as they are; one not listed reads zero (R428, Table 13.2). -/
def bar0Word (s : State) (p k : Nat) : Nat :=
  let h := getHost s p
  let m := getMb s p
  if k == 0 then modId s
  else if k == 1 then s.part.serial.toNat
  else if k == 2 then modStateWord s p
  else if k == 0x40 then h.cause
  else if k == 0x41 then h.mask
  else if 0x200 ≤ k && k < 0x200 + 8 * 79 then ringRegWord (getRing s p ((k - 0x200) / 8)) (k % 8)
  else if k == 0x800 then m.hdr.toNat
  else if 0x802 ≤ k && k < 0xA00 then leNat ((List.range 8).map fun i => mget 0 m.req (8 * (k - 0x802) + i))
  else if k == 0xA00 then mbmHdrWord m
  else if 0xA02 ≤ k && k < 0xC00 then match m.reply with
    | some r => wordAt r.data (k - 0xA02)
    | none => 0
  else if 0x1000 ≤ k && k < 0x1800 then
    let e := mget Msix.reset h.msix ((k - 0x1000) / 2)
    if k % 2 == 0 then e.addr.toNat else ofBit e.mask * 2 ^ 32 + e.data.toNat
  else if 0x1800 ≤ k && k < 0x1810 then
    (List.range 64).foldl (fun n b => n + ofBit (mget false h.pba (64 * (k - 0x1800) + b)) * 2 ^ b) 0
  else if k == 0x1C02 then timeStatWord s
  else 0

/-- A read of BAR0 + 8 × `k` by a port (R16, R428): fields of access RO, RW, W1C and W1S return their values, WO and RWS fields zero, RC
fields are cleared, and a read of `SEM_TAKE` is a take. -/
def bar0Read (s : State) (p k : Nat) (h : Half) : State :=
  if k == 4 then snfRead s p h
  else if k == 0x20 then
    if hasLow h then let s := semCheck s; hostRead s p (semTake s p) else hostRead s p (hostAns s p (.data 0))
  else if k == 0x23 then semStatRead s p h
  else if k == 0x801 then mbhRead s p h
  else if k == 0xA01 then mbmRead s p h
  else if k == 0x1C00 then timeNsRead s p h
  else hostRead s p (hostAns s p (.data (halfOf h (bar0Word s p k))))

/-- A read of a field with access RC returns it and clears it (R16); of BAR0, a read of any field. -/
def rcRead (s : State) (r : RegRc) : State :=
  match r with
  | .llStat t h =>
    let s' := regAns s (halfOf h (llStatWord s t.val))
    if hasLow h then modTile s' t.val fun x => { x with llMiss := 0, llAlt := 0 } else s'
  | .tcClk t h =>
    let s' := regAns s (halfOf h (tcClkWord s t.val))
    if hasHigh h then modTile s' t.val fun x => { settleDroop x (fieldCycles s (fieldOf t.val)) with dstr := 0 } else s'
  | .fcClk f h =>
    let s' := regAns s (halfOf h (fcClkWord (getField s f.val)))
    if hasLow h then modField s' f.val fun x => { x with opcnt := 0 } else s'
  | .bbStat d a h =>
    let s' := regAns s (halfOf h (bbStatWord (getBb s d.val a.val)))
    if hasHigh h then modBb s' d.val a.val fun b => { b with retry := 0 } else s'
  | .cdSnf p => snfRead s p.val .low
  | .semStat p h => semStatRead s p.val h
  | .mbhStat p => mbhRead s p.val .high
  | .mbmStat p => mbmRead s p.val .high
  | .bar0 p k h => bar0Read s p.val k.val h

/-- RC_REGISTER_READ. -/
def execRcRegisterRead (r : RegRc) (s : State) : Out := .next (rcRead s r)

/-! ### Configuration space (R424, R426, R445) -/

/-- A double word of configuration space (Table 13.1). -/
def cfgRead (s : State) (p dw : Nat) : Nat :=
  match dw with
  | 0 => 0x5702 * 65536 + Config.vendorId.toNat
  | 1 => setBits (Config.cfgDw 1).toNat 1 1 (ofBit (getHost s p).memEn)
  | 2 => 0x120000 * 256 + s.part.rev % 256
  | 3 => setBits (Config.cfgDw 3).toNat 16 8 0
  | 11 => (if s.part.gib == 576 then 0x0576 else 0x0864) * 65536 + Config.vendorId.toNat
  | 15 => setBits (Config.cfgDw 15).toNat 8 8 0
  | n => (Config.cfgDw n).toNat

/-- CONFIGURATION_REQUEST (R426, R445): answered with retry status until the host interface is up and while an FLR completes. -/
def execConfigurationRequest (p : Fin 2) (q : CfgReq) (s : State) : Out :=
  let h := getHost s p.val
  if !h.linkUp || h.perst then .next s
  else if s.boot.step == 0 || s.boot.mst == 0 || h.resetAt.isSome then .next (hostAns s p.val .retry)
  else match q with
  | .read dw => .next (hostAns s p.val (.data (cfgRead s p.val dw.val)))
  | .memEnable on => .next (modHost s p.val fun h => { h with memEn := on })

/-! ### Port resets (R445, R446, R465, R476, Table 13.5) -/

/-- A page of a copy reads or writes a port's host memory. -/
def pageUsesPort (p : Nat) (d : List W64) (g : CopyPage) : Bool :=
  g.dst.space == p + 1 || g.src.space == p + 1 && cdCop d != 3

/-- Pages of copies to or from a port's host memory end FAULT. -/
def failPages (s : State) (p : Nat) : State :=
  let l := s.copies.flatMap fun j => (j.pages.zipIdx.filter fun g => g.1.ended.isNone && pageUsesPort p j.desc g.1).map fun g => (j.cmd, g.1.msd, g.2)
  l.foldl (fun s e =>
    let s := modMsd s e.2.1 fun x => { x with queue := x.queue.filter fun r => r.what ≠ .page e.1 e.2.2 }
    endPage (unserve s e.2.1 e.1 e.2.2) e.1 e.2.2 .fault) s

/-- A command of a port writes no record any more. -/
def noRecord (p : Nat) (c : Cmd) : Cmd := if c.port == p then { c with norec := true } else c

/-- A reset of a port, on everything but its link (Table 13.5). -/
def portReset (s : State) (p : Nat) : State :=
  let s := semCheck s
  let s := if s.sem.holder == some p then setCauses { s with sem := { s.sem with holder := none } } cSemFree else s
  let fe (x : Nat × Eng) : Nat × Eng := (x.1, { x.2 with cmds := x.2.cmds.map (noRecord p) })
  let ft (x : Txn) : Txn := { x with staged := x.staged.map (noRecord p), closer := x.closer.map (noRecord p) }
  let fp (x : Nat × (Outc × Nat)) : Bool := x.1 / 2048 != p
  let s := { s with eng := { s.eng with engs := s.eng.engs.map fe, txns := s.eng.txns.map ft, past := s.eng.past.filter fp } }
  let closing (x : Txn) : Bool := (getEng s 0x4E).cmds.any fun c => c.port == p && c.opc == 0x41 && thnd c == x.handle
  let s := ((s.eng.txns.filter fun x => x.port == p && x.ph = .open_ && !closing x).map (·.tag)).foldl (fun s t => waveTxn s t false .aborted 0xB) s
  let s := failPages s p
  let s := setMb s p MbPort.reset
  let s := modMantle s fun m => { m with
    cmds := m.cmds.map fun c => if c.port == p then { c with discard := true } else c
    outbox := m.outbox.filter fun r => r.port != p }
  let s := modHost s p fun h => { HostPort.reset with mem := h.mem, sent := h.sent, linkUp := h.linkUp, perst := h.perst, resetAt := h.resetAt }
  let s := raiseInc (setCause s (1 - p) cPeer) (cdInc 0x0A04 p)
  incRingLost s p

/-- FLR (R445): a function level reset; configuration requests are answered with retry status until it completes. -/
def execFlr (p : Fin 2) (s : State) : Out :=
  if !portTold s p.val || s.boot.step == 0 || s.boot.mst == 0 then .next s
  else .next (portReset (modHost s p.val fun h => { h with resetAt := some (nowPs s) }) p.val)

/-- A port's link goes down (R445). -/
def linkLost (s : State) (p : Nat) (perst : Bool) : State :=
  portReset (modHost s p fun h => { h with linkUp := false, perst := h.perst || perst, resetAt := none }) p

/-- PERST_N (R445): `PERSTn_N` goes low, or the link is lost, which counts as a reset of the port. -/
def execPerstN (p : Fin 2) (pin : Bool) (s : State) : Out :=
  let h := getHost s p.val
  if if pin then h.perst else !h.linkUp then .next s else .next (linkLost s p.val pin)

/-- HOST_PORT_RESET_END (R445, R504): the pin is high and the link trains again, or the FLR completes. -/
def execHostPortResetEnd (p : Fin 2) (s : State) : Out :=
  let h := getHost s p.val
  if s.boot.step == 0 || !mget true s.tc.pcie p.val || portTold s p.val then .next s
  else .next (incRingTell (setHost s p.val { h with linkUp := true, perst := false, resetAt := none }) p.val)

/-- CLOCK_INPUT_VALIDITY_CHANGE (R541, R542): an input becomes valid or invalid. Without its PCIe reference a port's link goes down; the other
two affect only module time. -/
def execClockInputValidityChange (i : ClkIn) (valid : Bool) (s : State) : Out :=
  match i with
  | .pcie p =>
    let s := { s with tc := { s.tc with pcie := mput s.tc.pcie p.val valid } }
    .next (if !valid && (getHost s p.val).linkUp then linkLost s p.val false else s)
  | .ten => .next { s with tc := { s.tc with tenOk := valid } }
  | .pps => .next { s with tc := { s.tc with ppsOk := valid } }

end Sys2Proof.Machine
end

