-- ==== Sys2Proof/Machine/Services.lean ====
section
/-!
DEFINITION. The firmware services of the mailboxes (15.3 to 15.7) apart from Pilot and the frequency meters: versions and inventory, memory
map, incident ring, fences, policies, settings, the Snuffer, and firmware update.
-/
namespace Sys2Proof.Machine
open Sys2Proof

/-! ### Versions and inventory -/

/-- MB_NOP: echoes the payload. -/
def execMbNop (s : State) : Out := .next (mailRun s 0x0001 fun c => mailEnd s c .done 0 c.data)

/-- The running bank. -/
def runBank (s : State) : Bank := getBank s s.fw.rbank

/-- A component version of the running set, in the order of Table 15.8. -/
def cver (s : State) (i : Nat) : Nat := lget 0 (runBank s).cvers i

/-- MB_VERSION: the running set and its components. -/
def execMbVersion (s : State) : Out :=
  .next (mailRun s 0x0002 fun c =>
    let b := runBank s
    mailOk s c [ofBit s.fw.trial * 2 ^ 50 + ofBit s.fw.srst * 2 ^ 49 + s.fw.rbank * 2 ^ 48 + b.sfmt * 2 ^ 32 + b.setver,
      cver s 0 * 2 ^ 32 + Config.romVersion.toNat, cver s 2 * 2 ^ 32 + cver s 1, cver s 4 * 2 ^ 32 + cver s 3, cver s 5])

/-- MB_STATE: start-up phase and halt cause (R575). -/
def execMbState (s : State) : Out :=
  .next (mailRun s 0x0003 fun c => mailOk s c [s.boot.haltc * 256 + s.boot.mst, s.boot.since, s.boot.haltd])

/-- `DSTAT` of a die: 0 up, 1 fenced, 2 in reset. -/
def dieStat (s : State) (d : Nat) : Nat :=
  let x := getDie s d
  if d == 0 then 0 else if x.down || x.train != 7 then 2 else if dieFenced s d then 1 else 0

/-- Brobry lanes per direction over a die's ports. -/
def dieLanes (s : State) (d : Nat) : Nat := (List.range (diePorts d)).foldl (fun n p => n + bbLanes (getBb s d p)) 0

/-- The two words of a die in the inventory. -/
def dieWords (s : State) (d : Nat) : List Nat :=
  let x := getDie s d
  let w := x.cap.toNat
  if d == 0 then [0x11 * 2 ^ 24 + Config.waferGen.toNat * 2 ^ 16 + 256, cver s 4]
  else
    let mem := if dieIsMsd d then s.part.stkh * 2 ^ 40 + s.part.gib / 24 * 2 ^ 32 else 0
    [dieStat s d * 2 ^ 42 + x.rate % 4 * 2 ^ 40 + dieLanes s d % 256 * 2 ^ 32 + x.ver % 256 * 2 ^ 24 + bits w 40 8 * 2 ^ 16 + bits w 48 8 * 256 +
      slotClass d, mem + x.fw % 2 ^ 32]

/-- MB_INVENTORY: one record for each die ID. -/
def execMbInventory (s : State) : Out := .next (mailRun s 0x0010 fun c => mailOk s c ((List.range 32).flatMap (dieWords s)))

/-- MB_BIRTH_READ: repair records of the birth map. -/
def execMbBirthRead (s : State) : Out :=
  .next (mailRun s 0x0011 fun c =>
    let first := bits (mbWord c 0) 0 32
    mailOk s c ((s.boot.birth.length * 2 ^ 32 + first) :: ((s.boot.birth.drop first).take 509).map (·.toNat)))

/-! ### The memory map (R363, R480, R615) -/

/-- MB_MEMMAP_READ: the segment table and the die fence mask. -/
def execMbMemmapRead (s : State) : Out :=
  .next (mailRun s 0x0020 fun c =>
    mailOk s c (((List.range 32).flatMap fun i => let e := mget (0, 0) s.seg i; [e.1.toNat, e.2.toNat]) ++ [s.dieFence.toNat]))

/-- Local pages that a segment takes on each MSD of its set. -/
def sgLocal (e : W64 × W64) : Nat := sgNpg e / (sgPrims e).length

/-- A valid entry passes the checks that concern it alone (R363). -/
def segOk (s : State) (e : W64 × W64) : Bool :=
  let n := (sgPrims e).length
  !sgSv e || n != 0 && sgNpg e % n == 0 && decide (sgLbase e + sgLocal e ≤ s.part.gib / 24 * 2 ^ 18) &&
    (!sgMir e || (List.range 12).all fun k => bit (sgSet e) (2 * k) == bit (sgSet e) (2 * k + 1))

/-- The reserved fields of an entry are zero. -/
def segClean (e : W64 × W64) : Bool := bits e.1.toNat 56 4 == 0 && bits e.1.toNat 28 4 == 0 && bits e.2.toNat 60 4 == 0

/-- Two ranges overlap. -/
def overlap (a n b m : Nat) : Bool := decide (a < b + m) && decide (b < a + n)

/-- Two valid segments do not meet in module or local addresses (R363). -/
def segApart (x y : W64 × W64) : Bool :=
  !(sgSv x && sgSv y) ||
    !overlap (sgMbase x) (sgNpg x) (sgMbase y) (sgNpg y) &&
      !(sgSet x &&& sgSet y != 0 && overlap (sgLbase x) (sgLocal x) (sgLbase y) (sgLocal y))

/-- The table passes the checks of R363. -/
def tableOk (s : State) (t : List (W64 × W64)) : Bool :=
  t.all (segOk s) && (List.range t.length).all fun i => (List.range i).all fun j => segApart (lget (0, 0) t i) (lget (0, 0) t j)

/-- A protected range keeps its place, size and protection in a table (R615). -/
def protKept (t : List (W64 × W64)) (e : W64 × W64) : Bool :=
  t.any fun x => sgSv x && sgProt x && sgMir x == sgMir e && sgSet x == sgSet e && x.2 == e.2 && decide (sgNpg x ≥ sgNpg e)

/-- The pages of protected ranges that a table gives up, which are marked lost at its wave (R615). -/
def lostChgs (old new : List (W64 × W64)) : List Chg :=
  (old.filter fun e => sgSv e && sgProt e && !protKept new e).flatMap fun e =>
    ((List.range 24).filter (bit (sgSet e))).map fun m => Chg.lost m (sgLbase e) (sgLocal e)

/-- `DEG` is Mantle's: an entry keeps it while it stays mirrored. -/
def keepDeg (old new : W64 × W64) : W64 × W64 :=
  (BitVec.ofNat 64 (setBits new.1.toNat 60 1 (ofBit (sgDeg old && sgMir new))), new.2)

/-- MB_MEMMAP_SET (R480): entries are checked, staged, and applied by one COMMIT wave. -/
def execMbMemmapSet (s : State) : Out :=
  .next (mailRun s 0x0021 fun c =>
    let n := bits (mbWord c 0) 8 6
    let first := bits (mbWord c 0) 0 5
    if n == 0 || n > 32 || first + n > 32 then mailFail s c 5
    else if c.data.length != 8 + 16 * n then mailFail s c 2
    else
      let old := (List.range 32).map (mget (0, 0) s.seg)
      let ent (i : Nat) : W64 × W64 := (BitVec.ofNat 64 (mbWord c (1 + 2 * i)), BitVec.ofNat 64 (mbWord c (2 + 2 * i)))
      let new := (List.range 32).map fun i =>
        if first ≤ i && i < first + n then keepDeg (lget (0, 0) old i) (ent (i - first)) else lget (0, 0) old i
      if !((List.range n).all fun i => segClean (ent i)) || !tableOk s new then mailFail s c 5
      else
        let chgs := (List.range n).map fun i => Chg.seg (first + i) (lget (0, 0) new (first + i))
        let t := mantleTxn s (chgs ++ lostChgs old new) []
        modMail t.1 c.id fun c => { c with ph := .wave t.2 })

/-! ### The incident ring (R485) -/

/-- MB_INCRING_SET: the ring is placed, and the records kept are written first. -/
def execMbIncringSet (s : State) : Out :=
  .next (mailRun s 0x0028 fun c =>
    let sp := bits (mbWord c 0) 62 2
    let a := bits (mbWord c 0) 0 48
    let pg := bits (mbWord c 1) 0 32
    if sp == 3 || a % 4096 != 0 || pg == 0 || pg > 65536 || sp == 0 && a + pg * 4096 > s.part.gib * 2 ^ 30 then mailFail s c 5
    else if sp != 0 && !portTold s (sp - 1) then mailOk (incRingBad { s with inc := { s.inc with ring := ⟨true, ⟨sp, a⟩, pg * 4096, 0, true, false⟩ } }) c []
    else mailOk (incRingPlace s ⟨sp, a⟩ (pg * 4096)) c [])

/-! ### Fences (R481) -/

/-- A die being retrained by a running MB_UNFENCE (R472). -/
def retraining (s : State) (d : Nat) : Bool := (unfenceCmd s d).isSome

/-- Mantle commits a die fence mask for a mailbox command. -/
def commitFence (s : State) (c : MbCmd) (d on : Nat) : State :=
  let t := mantleTxn s [.dieFence (BitVec.ofNat 32 (setBits s.dieFence.toNat d 1 on))] []
  modDie (modMail t.1 c.id fun c => { c with ph := .wave t.2 }) d fun x => { x with hostFence := on == 1 }

/-- MB_FENCE: a tile at once, a die by a COMMIT wave. -/
def execMbFence (s : State) : Out :=
  .next (mailRun s 0x0030 fun c =>
    let w := mbWord c 0
    if bit w 63 then
      let d := bits w 16 8
      if d < 2 || d > 31 || dieFenced s d then mailFail s c 5
      else if retraining s d then mailFail s c 6
      else commitFence s c d 1
    else
      let t := bits w 0 14
      if t ≥ nTiles || fenced s t then mailFail s c 5
      else
        let s := fenceTile s t true 1
        mailOk (match regionOf s t with
          | some r => stopRegionAs s r .fault
          | none => s) c [0])

/-- MB_UNFENCE: a tile at once, unless its mesh domain is out of order; a die in reset is retrained first. -/
def execMbUnfence (s : State) : Out :=
  .next (mailRun s 0x0031 fun c =>
    let w := mbWord c 0
    if bit w 63 then
      let d := bits w 16 8
      if d < 2 || d > 31 then mailFail s c 5
      else if retraining s d then mailFail s c 6
      else if !dieFenced s d then mailFail s c 5
      else if (getDie s d).down || (getDie s d).test then
        modMail (modDie s d fun x => { x with down := true, train := 0, downAt := nowPs s, lost := false }) c.id fun c => { c with ph := .work }
      else commitFence s c d 0
    else
      let t := bits w 0 14
      if t ≥ nTiles || !fenced s t then mailFail s c 5
      else if !tileMdok s t then mailFail s c 0xA
      else mailOk (modTile (tileReset (fenceTile s t false 0) t) t fun x => { x with idle := true }) c [0])

/-! ### Policies (R482) -/

/-- A snapshot period is in range. -/
def snappOk (v : Nat) : Bool := v == 0 || decide (10 ≤ v) && decide (v ≤ 10000)

/-- The periodic SNAPSHOT waves run at a period from now on. -/
def snapEvery (s : State) (v : Nat) : State :=
  modMantle s fun m => { m with snap := { m.snap with snapp := v, next := nowPs s + v * 1000000000 } }

/-- MB_SNAP_SET: snapshot and recovery policy. -/
def execMbSnapSet (s : State) : Out :=
  .next (mailRun s 0x0038 fun c =>
    let v := bits (mbWord c 0) 0 14
    if !snappOk v then mailFail s c 5
    else
      let s := modMantle (snapEvery s v) fun m => { m with snap := { m.snap with srmask := BitVec.ofNat 64 (mbWord c 1), automask := BitVec.ofNat 64 (mbWord c 2) } }
      mailOk s c [])

/-- MB_SNAP_READ: the policy in effect. -/
def execMbSnapRead (s : State) : Out :=
  .next (mailRun s 0x0039 fun c => mailOk s c [s.mantle.snap.snapp, s.mantle.snap.srmask.toNat, s.mantle.snap.automask.toNat])

/-! ### Settings (R483, R486 to R489) -/

/-- The running bank's settings record (R487). -/
def record (s : State) : List W64 := (settingsOf (runBank s)).getD (settingsDefault (runBank s).sfmt)

/-- Write the running bank's settings record. -/
def putRecordFw (s : State) (r : List W64) : State := modBank s s.fw.rbank fun b => settingsPut b r

/-- A field of a word of the settings. -/
def setField1 (r : List W64) (w lo n v : Nat) : List W64 := lmod r w fun x => BitVec.ofNat 64 (setBits x.toNat lo n v)

/-- What `PERSIST` adds to a set command: the record is written before the command completes; `flash` says that the write succeeds (R483). -/
def persist (s : State) (on flash : Bool) (f : List W64 → List W64) : State × Bool :=
  if !on then (s, true) else if flash then (putRecordFw s (f (record s)), true) else (s, false)

/-- Average of the last `n` measurements of input power. -/
def powerAvg (s : State) (n : Nat) : Nat :=
  let l := s.power.samples.take n
  if l.isEmpty then 0 else l.foldl (· + ·) 0 / l.length

/-- `P10`, `P50` and the average over 1 ms (R554). -/
def power10 (s : State) : Nat := powerAvg s 10
def power50 (s : State) : Nat := powerAvg s 50
def power1ms (s : State) : Nat := powerAvg s 1000

/-- `PCAP` is in range. -/
def pcapOk (v : Nat) : Bool := decide (8000 ≤ v) && decide (v ≤ 33000)
/-- `PORD` is a permutation of links, memory and compute. -/
def pordOk (v : Nat) : Bool :=
  let l := [bits v 0 2, bits v 2 2, bits v 4 2]
  [0, 1, 2].all l.contains

/-- MB_PCAP_SET: the cap and the order take effect, and the reply gives the input power 10 ms later. -/
def execMbPcapSet (flash : Bool) (s : State) : Out :=
  match s.mantle.cmds.find? fun c => c.opc == 0x0040 && (match c.ph with | .until_ _ => true | _ => false) with
  | some c =>
    let s := match c.ph with | .until_ t => reachPs s t | _ => s
    if bit (mbWord c 0) 31 && !flash then .next (mailFail s c 0xB) else .next (mailOk s c [power1ms s % 65536])
  | none => .next (mailRun s 0x0040 fun c =>
    let w := mbWord c 0
    let pc := bits w 0 16
    let po := bits w 16 6
    if !pcapOk pc || !pordOk po then mailFail s c 5
    else
      let s := { s with power := { s.power with pcap := pc, pord := po } }
      let r := persist s (bit w 31) flash fun r => setField1 (setField1 r 1 0 16 pc) 1 16 6 po
      modMail r.1 c.id fun c => { c with ph := .until_ (nowPs s + 10000000000) })

/-- MB_OPMASK_SET: the operating points that the controller may use. -/
def execMbOpmaskSet (flash : Bool) (s : State) : Out :=
  .next (mailRun s 0x0042 fun c =>
    let m := bits (mbWord c 0) 0 4
    if m == 0 then mailFail s c 5
    else
      let s := { s with power := { s.power with opmask := m } }
      let r := persist s (bit (mbWord c 0) 31) flash fun r => setField1 r 1 24 4 m
      if r.2 then mailOk r.1 c [] else mailFail r.1 c 0xB)

/-- MB_TSRC_SET (R551): time-source preference and PTP domain. -/
def execMbTsrcSet (flash : Bool) (s : State) : Out :=
  .next (mailRun s 0x0052 fun c =>
    let pref := bits (mbWord c 0) 0 2
    let dom := bits (mbWord c 0) 8 8
    let s := { s with tc := { s.tc with pref := pref, dom := dom } }
    let r := persist s (bit (mbWord c 0) 31) flash fun r => setField1 (setField1 r 3 0 2 pref) 3 8 8 dom
    if r.2 then mailOk r.1 c [] else mailFail r.1 c 0xB)

/-- MB_SET_READ: the settings record. -/
def execMbSetRead (s : State) : Out := .next (mailRun s 0x0060 fun c => mailOk s c ((record s).map (·.toNat)))

/-- A settings record may be written (R489). -/
def recordOk (s : State) (r : List W64) : Bool :=
  let w (i : Nat) : Nat := (lget 0 r i).toNat
  bits (w 0) 0 16 == (runBank s).sfmt && bits (w 0) 16 48 == 0 &&
    bits (w 1) 24 4 != 0 && pordOk (bits (w 1) 16 6) && pcapOk (bits (w 1) 0 16) && bits (w 1) 22 2 == 0 && bits (w 1) 28 36 == 0 &&
    snappOk (bits (w 2) 0 14) && bits (w 2) 14 50 == 0 && bits (w 3) 2 6 == 0 && bits (w 3) 16 48 == 0 && [4, 5, 6, 7].all fun i => w i == 0

/-- A record is written and every field takes effect (R489). -/
def adopt (s : State) (r : List W64) : State :=
  let s := settingsApply (modFw (putRecordFw s r) fun w => { w with set := r })
  snapEvery s s.mantle.snap.snapp

/-- MB_SET_WRITE. -/
def execMbSetWrite (flash : Bool) (s : State) : Out :=
  .next (mailRun s 0x0061 fun c =>
    let r := (List.range 8).map fun i => BitVec.ofNat 64 (mbWord c i)
    if !recordOk s r then mailFail s c 5 else if !flash then mailFail s c 0xB else mailOk (adopt s r) c [])

/-- MB_SET_DEFAULT: every setting returns to its default. -/
def execMbSetDefault (flash : Bool) (s : State) : Out :=
  .next (mailRun s 0x0062 fun c =>
    if !flash then mailFail s c 0xB else mailOk (adopt s (settingsDefault (runBank s).sfmt)) c [])

/-! ### The Snuffer (R484) -/

/-- MB_SNUFF_ENG: engages it, from either port. -/
def execMbSnuffEng (s : State) : Out := .next (mailRun s 0x0058 fun c => mailOk (snuffEngage s 3) c [])

/-- MB_SNUFF_REL: releases it, unless the pin is low. -/
def execMbSnuffRel (s : State) : Out :=
  .next (mailRun s 0x0059 fun c =>
    let r := snuffRelease s
    if r.2 then mailFail r.1 c 8 else mailOk r.1 c [])

/-! ### Firmware update (R491 to R496) -/

/-- The bank that is not running. -/
def otherBank (s : State) : Nat := 1 - s.fw.rbank

/-- A word of a package. -/
def pkWord (bs : List Byte) (i : Nat) : Nat := leNat ((bs.drop (8 * i)).take 8)

/-- Entry `i` of a manifest. -/
def pkType (bs : List Byte) (i : Nat) : Nat := bits (pkWord bs (8 + 8 * i)) 56 8
def pkOfs (bs : List Byte) (i : Nat) : Nat := bits (pkWord bs (9 + 8 * i)) 0 32
def pkLen (bs : List Byte) (i : Nat) : Nat := bits (pkWord bs (9 + 8 * i)) 32 32

/-- The component version of a type that a manifest lists. -/
def pkCver (bs : List Byte) (k : Nat) : Nat := match (List.range 6).find? fun i => pkType bs i == k with
  | some i => bits (pkWord bs (8 + 8 * i)) 0 32
  | none => 0

/-- The root key signature of a manifest verifies (R491, R621). -/
def pkSigned (s : State) (bs : List Byte) : Bool :=
  let digest := Config.sha384 (bs.take 448)
  (List.range 4).any fun k => !bit s.island.revoked k && Config.rootSig k digest ((bs.drop 448).take 96)

/-- The check of a package that fails first, as a status (R492). -/
def pkCheck (s : State) (bs : List Byte) (len : Nat) : Option Nat :=
  let w0 := pkWord bs 0
  if len < 544 || bits w0 0 32 != 0x32575153 || bits w0 32 16 != 1 || bits w0 48 8 != 6 || bits (pkWord bs 1) 32 32 != len then some 5
  else if !([1, 2, 3, 4, 5, 6].all fun k => ((List.range 6).map (pkType bs)).contains k) ||
      (List.range 6).any fun i => decide (pkOfs bs i + pkLen bs i > len) then some 5
  else if !pkSigned s bs || bits (pkWord bs 2) 0 32 < s.island.minsvn then some 7
  else if bits (pkWord bs 2) 40 8 > s.part.rev then some 5
  else if (List.range 6).any fun i => Config.sha384 ((bs.drop (pkOfs bs i)).take (pkLen bs i)) != (bs.drop (64 + 64 * i + 16)).take 48 then some 7
  else none

/-- A bank as a package fills it. -/
def pkBank (bs : List Byte) (now : Nat) : Bank :=
  let w2 := pkWord bs 2
  { Bank.empty with
    st := 1
    setver := bits (pkWord bs 1) 0 32
    sfmt := bits w2 48 16
    minrev := bits w2 40 8
    svn := bits w2 0 32
    hconf := bit (pkWord bs 3) 0
    cvers := [1, 2, 3, 4, 5, 6].map (pkCver bs)
    utime := now }

/-- MB_UPD_STAGE (R492): the bank that is not running is erased and the package is copied into it. -/
def execMbUpdStage (s : State) : Out :=
  .next (mailRun s 0x0070 fun c =>
    let a := mbWord c 0
    let sp := bits (mbWord c 1) 62 2
    let len := bits (mbWord c 1) 0 32
    if a % 64 != 0 || sp == 3 || len > 2 ^ 26 then mailFail s c 5
    else if s.fw.trial || s.fw.stageCmd.isSome || s.fw.resetDue.isSome then mailFail s c 6
    else
      let s := modFw s fun w => { w with banks := mset Bank.empty w.banks (1 - w.rbank) Bank.empty, utime := nowNs s, stageCmd := some c.id, staged := [],
                                         sdone := 0 }
      modMail s c.id fun c => { c with ph := .work })

/-- What a staging has read: the package, from HBM or as the host sent it; `none` when it could not be read. -/
def stagedBytes (s : State) (c : MbCmd) : Option (List Byte) :=
  let len := bits (mbWord c 1) 0 32
  if bits (mbWord c 1) 62 2 == 0 then
    let r := modRead s dieCd (mbWord c 0) len
    if r.2.1 ≠ .done || r.1.any (·.2) then none else some (r.1.map (·.1))
  else if s.fw.staged.length != len then none
  else some s.fw.staged

/-- UPDATE_STAGING_COMPLETE (R492): the copy ends and the package is checked; `flash` says that the flash was written. -/
def execUpdateStagingComplete (flash : Bool) (s : State) : Out :=
  match s.mantle.cmds.find? fun c => s.fw.stageCmd == some c.id with
  | none => .next s
  | some c =>
    let len := bits (mbWord c 1) 0 32
    let s := modFw s fun w => { w with stageCmd := none, sdone := len }
    match if flash then stagedBytes s c else none with
    | none => .next (mailFail (auditAdd (modFw s fun w => { w with staged := [] }) 2 c.port 0xB) c 0xB)
    | some bs =>
      let v := bits (pkWord bs 1) 0 32
      let s := modFw s fun w => { w with staged := [] }
      match pkCheck s bs len with
      | some st => .next (mailFail (auditAdd (raiseInc s (cdInc 0x0B42 0)) 2 c.port (v * 2 ^ 32 + st)) c st)
      | none =>
        let b := pkBank bs (nowNs s)
        let s := modFw s fun w => { w with banks := mset Bank.empty w.banks (1 - w.rbank) b, utime := nowNs s }
        .next (mailOk (auditAdd s 2 c.port (v * 2 ^ 32)) c [b.sfmt * 2 ^ 32 + b.setver])

/-- MB_UPD_ACTIVATE (R493): the staged bank becomes `TRIAL` with the running bank's settings, and the module resets 100 ms after the reply. -/
def execMbUpdActivate (s : State) : Out :=
  .next (mailRun s 0x0071 fun c =>
    let o := otherBank s
    if s.fw.stageCmd.isSome then mailFail s c 6
    else if (getBank s o).st != 1 || (getBank s o).setver != bits (mbWord c 0) 0 32 || (runBank s).st != 3 then mailFail s c 5
    else
      let r := runBank s
      let s := modBank s o fun b => { b with set0 := r.set0, set1 := r.set1, ok0 := r.ok0, ok1 := r.ok1, setNew := r.setNew }
      let s := modFw (bankSt (bankSt s o 2) s.fw.rbank 4) fun w => { w with sel := o, resetDue := some (nowPs s + 100000000000) }
      mailOk (auditAdd s 3 c.port ((getBank s o).setver * 2 ^ 32)) c [])

/-- MB_UPD_CONFIRM (R494): the host confirms the trial set; one after the deadline is ignored. -/
def execMbUpdConfirm (s : State) : Out :=
  .next (mailRun s 0x0072 fun c =>
    if !s.fw.trial || (runBank s).setver != bits (mbWord c 0) 0 32 then mailFail s c 5
    else
      let on := decide (nowPs s ≤ s.fw.trialDue)
      let s := modMail s c.id fun c => { c with ph := .work }
      if on then confirmTry (modFw s fun w => { w with hostOk := true }) else s)

/-- MB_UPD_STATUS: bank states and update progress. -/
def execMbUpdStatus (s : State) : Out :=
  .next (mailRun s 0x0073 fun c =>
    let a := getBank s 0
    let b := getBank s 1
    let uph := if s.fw.stageCmd.isSome then 1 else if s.fw.resetDue.isSome then 2 else if s.fw.trial then 3 else 0
    let left := if s.fw.trial then (s.fw.trialDue - nowPs s) / 1000000000 else 0
    let ver (x : Bank) : Nat := if x.st == 0 then 0 else x.setver
    mailOk s c [left * 2 ^ 32 + s.fw.fbc % 256 * 2 ^ 16 + uph * 2 ^ 12 + s.fw.rbank * 256 + b.st * 16 + a.st, ver b * 2 ^ 32 + ver a, s.fw.sdone,
      s.fw.utime])

end Sys2Proof.Machine
end

