-- ==== Sys2Proof/Machine/Clocks.lean ====
section
/-!
DEFINITION. Operating points, PLLs, Taper and droop (18.3 to 18.5, R520), the module-time servo (18.6) and the frequency meters (17.6, 18.7).
-/
namespace Sys2Proof.Machine
open Sys2Proof

/-! ### PLLs and the change of an operating point (R543 to R546) -/

/-- Periods of the tile clock of a point in a period of REFCLK_MOD, in 25ths (R543). -/
def opRate (op : Nat) : Nat := match op with | 0 => 224 | 1 => 200 | 2 => 160 | _ => 128

/-- A PLL of a field is locked (false A, true B). -/
def pllLocked (x : FieldSt) (b : Bool) : Bool := if b then x.plB else x.plA
/-- Set whether a PLL is locked. -/
def setPll (x : FieldSt) (b v : Bool) : FieldSt := if b then { x with plB := v } else { x with plA := v }

/-- The time that rails take between two points at 10 mV/µs, in ps. -/
def railPs (a b : Nat) : Nat := (max (opMv a) (opMv b) - min (opMv a) (opMv b)) * 100000

/-- A field whose clocks run. -/
def fieldRuns (x : FieldSt) : Bool := !x.lost && !x.meshOff

/-- A change to another point begins (R544): the rails ramp first when the point rises, the standby PLL relocks first when it falls. -/
def startChange (s : State) (f tgt : Nat) : State :=
  let x := getField s f
  if x.chg != 0 || x.onepll || !fieldRuns x || tgt == x.opcur || tgt > 3 then s
  else
    let now := nowPs s
    let x := { x with chg := if tgt < x.opcur then 1 else 5, optgt := tgt, changedAt := some now, stepAt := now }
    setField s f (if tgt < x.opcur then x else setPll x (!x.src) false)

/-- The islands of a field Taper to the other PLL, which gives the point `optgt` (R546). -/
def startTaper (s : State) (f : Nat) : State :=
  let s := modField s f fun x => { x with src := !x.src, tapk := 0, tapAt := fieldCycles s f, hold := false }
  setRate s f (opRate (getField s f).optgt / 2)

/-- A change has ended. -/
def endChange (x : FieldSt) : FieldSt := { x with chg := 0, opcnt := satAdd 16 x.opcnt 1 }

/-- The former active PLL relocks, unless it has been lost. -/
def relockFormer (x : FieldSt) (step now : Nat) : FieldSt :=
  if x.onepll then endChange x else setPll { x with chg := step, stepAt := now } (!x.src) false

/-- Both rails have reached the point moved to. -/
def railsAt (x : FieldSt) : FieldSt := { x with vcmp := opMv x.optgt, vmsh := opMv x.optgt }

/-- An incident of a field (the CD raises it). -/
def fieldInc (cls f : Nat) : Inc := mkInc cls utField 0 noTile 0 f

/-- OP_CHANGE_STEP (R544, R545): a rail settles, a PLL locks, or a Taper has ended, and the next step begins. A standby that locks within 1 ms
of the failure of the active PLL takes the islands over. -/
def execOpChangeStep (f : Fin 100) (s : State) : Out :=
  let x := getField s f.val
  if !fieldRuns x then .next s
  else match x.unlockAt with
  | some t =>
    if nowPs s > t + 1000000000 then .next s
    else
      let s := setField s f.val { setPll x (!x.src) true with chg := 0, onepll := true, unlockAt := none }
      .next (startTaper (raiseInc s (fieldInc 0x0810 f.val)) f.val)
  | none =>
    let put (s : State) (y : FieldSt) : State := setField s f.val y
    match x.chg with
    | 1 =>
      let s := reachPs s (x.stepAt + railPs x.opcur x.optgt)
      .next (put s { setPll (railsAt x) (!x.src) false with chg := 2, stepAt := nowPs s })
    | 2 => .next (startTaper (put s { setPll x (!x.src) true with chg := 3 }) f.val)
    | 3 => if x.tapk == 64 then .next (put s (relockFormer x 4 (nowPs s))) else .next s
    | 4 => .next (put s (endChange (setPll x (!x.src) true)))
    | 5 => .next (startTaper (put s { setPll x (!x.src) true with chg := 6 }) f.val)
    | 6 => if x.tapk == 64 then .next (put s { x with chg := 7, stepAt := nowPs s }) else .next s
    | 7 =>
      let s := reachPs s (x.stepAt + (x.vcmp - opMv x.optgt) * 100000)
      .next (put s (relockFormer (railsAt x) 8 (nowPs s)))
    | 8 => .next (put s (endChange (setPll x (!x.src) true)))
    | _ => .next s

/-- TAPER_STEP (R546): 64 island cycles have passed and k rises by 1; at 64 the islands run at the new point. -/
def execTaperStep (f : Fin 100) (s : State) : Out :=
  let x := getField s f.val
  if x.tapk ≥ 64 || !fieldRuns x then .next s
  else
    let s := advance s (tickOfCycle s f.val (x.tapAt + 64) - s.time.ticks)
    let k := x.tapk + 1
    let s := setRate s f.val (opRate x.optgt * 64 / (128 - k))
    let x := { x with tapk := k, tapAt := x.tapAt + 64 }
    .next (setField s f.val (if k == 64 then { x with act := x.src, opcur := x.optgt } else x))

/-- A field has lost both PLLs: its clocks stop; 0x0811, and it is fenced (R520). -/
def fieldLost (s : State) (f : Nat) : State :=
  let s := modField s f fun x => { x with lost := true, hold := false, unlockAt := none, chg := 0, optgt := x.opcur }
  fenceField (meshDown (raiseInc (setRate s f 0) (fieldInc 0x0811 f)) f) f 2

/-- The standby PLL relocks to the point moved to (Table 18.3). -/
def relocking (x : FieldSt) : Bool := x.chg == 2 || x.chg == 4 || x.chg == 5 || x.chg == 7 || x.chg == 8

/-- FIELD_PLL_UNLOCK (R520, R545): a PLL of a field (`b`: B) unlocks. The islands Taper to the other PLL, hold frequency while it relocks, or
the field is lost. -/
def execFieldPllUnlock (f : Fin 100) (b : Bool) (s : State) : Out :=
  let x := getField s f.val
  if !pllLocked x b || !fieldRuns x then .next s
  else
    let y := setPll x b false
    if b != x.src then
      let y := if x.chg == 1 then { y with chg := 0, optgt := x.opcur } else y
      .next (raiseInc (setField s f.val { y with onepll := true }) (fieldInc 0x0810 f.val))
    else if x.onepll then .next (fieldLost (setField s f.val y) f.val)
    else if relocking x then
      .next (setField s f.val { setPll y (!b) false with hold := true, unlockAt := some (nowPs s) })
    else if pllLocked y (!b) then
      let s := setField s f.val { y with chg := 0, optgt := y.opcur, onepll := true }
      .next (startTaper (raiseInc s (fieldInc 0x0810 f.val)) f.val)
    else .next (fieldLost (setField s f.val y) f.val)

/-- STANDBY_PLL_TIMEOUT (R520): the second PLL has not locked within 1 ms. -/
def execStandbyPllTimeout (f : Fin 100) (s : State) : Out :=
  match (getField s f.val).unlockAt with
  | some t => .next (fieldLost (reachPs s (t + 1000000000)) f.val)
  | none => .next s

/-! ### Droop (R547) -/

/-- DROOP_DETECTED: a tile's compute rail falls more than 40 mV below the voltage of its point; its clock edges come at twice the period. -/
def execDroopDetected (t : TileId) (s : State) : Out :=
  let fc := fieldCycles s (fieldOf t.val)
  .next (modTile s t.val fun x => if x.droop.isSome then x else { x with droop := some fc })

/-- DROOP_RECOVERED: 16 cycles after the rail has come within 30 mV, the nominal period returns. -/
def execDroopRecovered (t : TileId) (s : State) : Out :=
  let fc := fieldCycles s (fieldOf t.val)
  .next (modTile s t.val fun x => { settleDroop x fc with droop := none })

/-! ### The module-time servo (R548 to R551) -/

/-- `TLOCK` changes: its cause bit, and 0x0821 when it falls (R550). -/
def setLock (s : State) (v : Bool) : State :=
  if s.tc.lock == v then s
  else
    let s := setCauses { s with tc := { s.tc with lock := v, good := 0 } } cTlock
    if v then s else raiseInc s (cdInc 0x0821 0)

/-- The preferred source and its fallback (Table 15.4): 1 PTP, 2 `PPS_IN`. -/
def srcPref (s : State) : Nat := if s.tc.pref == 0 || s.tc.pref == 2 then 1 else 2
def srcBack (s : State) : Option Nat := match s.tc.pref with | 0 => some 2 | 1 => some 1 | _ => none

/-- A source is valid (R551). -/
def srcValid (s : State) (k : Nat) : Bool := !bit s.tc.warned k && (if k == 1 then s.tc.ptpOk else s.tc.ppsOk && s.tc.tenOk)

/-- The offset saturated for `TOFS`. -/
def satOfs (o : Int) : Int := max (-32767) (min 32767 o)

/-- Count toward lock, or lose it (R550). -/
def lockCount (s : State) (o : Int) : State :=
  if o.natAbs > 100 then setLock s false
  else
    let s := { s with tc := { s.tc with good := if o.natAbs ≤ 20 then s.tc.good + 1 else 0 } }
    if s.tc.good ≥ 16 then setLock s true else s

/-- Module time steps forward; the tiles' counters follow at the next TIME_MARK (R549, R199). -/
def stepTime (s : State) (o : Int) : State :=
  { s with time := { s.time with modTime := s.time.modTime + o.toNat * (5 * 2 ^ 32) }, tc := { s.tc with tileOfs := s.tc.tileOfs - o, markNext := 0 } }

/-- Slew module time toward the source, within ±500 ppm (R549). -/
def slewTime (s : State) (o : Int) : State :=
  let r := Config.servo o s.tc.rate s.tc.integ
  { s with tc := { s.tc with rate := max (-500000) (min 500000 r.1), integ := r.2 } }

/-- A measurement of the source in use is applied by the first case that fits (R549). -/
def applyOffset (s : State) (k : Nat) (o : Int) : State :=
  let s := { s with tc := { s.tc with tofs := satOfs o, lastAt := nowPs s } }
  if o > 1000 then lockCount (stepTime s o) o
  else if o ≥ -1000000000 then lockCount (slewTime s o) o
  else
    let s := if s.tc.lock then setLock s false else raiseInc s (cdInc 0x0821 0)
    { s with tc := { s.tc with warned := s.tc.warned + 2 ^ k, src := 0 } }

/-- A measurement of a source (R551): of the one in use it is applied; of the preferred one it counts toward the return, or is taken up
while none is in use. -/
def measure (s : State) (k : Nat) (o : Int) : State :=
  if !srcValid s k then s
  else if s.tc.src == k then applyOffset s k o
  else if k != srcPref s then s
  else if s.tc.src == 0 then applyOffset { s with tc := { s.tc with src := k, back := 0 } } k o
  else
    let n := if o.natAbs ≤ 100 then s.tc.back + 1 else 0
    if n ≥ 16 then applyOffset { s with tc := { s.tc with src := k, back := 0 } } k o else { s with tc := { s.tc with back := n } }

/-- SERVO_MEASUREMENT (R549, R388): a Sync received by the active PTP port gives an offset in ns; a time transmitter is selected. -/
def execServoMeasurement (o : Int) (s : State) : Out := .next (measure { s with tc := { s.tc with ptpOk := true } } 1 o)

/-- The offset that a pulse gives: it marks a whole second (R548). -/
def ppsOffset (ns : Nat) : Int := if ns % 1000000000 < 500000000 then -((ns % 1000000000 : Nat) : Int) else (1000000000 - ns % 1000000000 : Nat)

/-- PPS_IN (R549): a pulse arrives. -/
def execPpsIn (s : State) : Out := .next (measure s 2 (ppsOffset (nowNs s)))

/-- TIME_SOURCE_TIMEOUT (R550, R551): 4 s without a measurement; `TLOCK` falls, and the servo moves to the fallback, if it is valid. -/
def execTimeSourceTimeout (s : State) : Out :=
  let s := setLock (reachPs s (s.tc.lastAt + 4000000000000)) false
  let s := { s with tc := { s.tc with ptpOk := s.tc.ptpOk && s.tc.src != 1, lastAt := nowPs s, back := 0 } }
  let next : Nat :=
    if s.tc.src == srcPref s || s.tc.src == 0 then (match srcBack s with
      | some k => if srcValid s k then k else 0
      | none => 0)
    else 0
  .next { s with tc := { s.tc with src := next } }

/-- `PPS_OUT` is high (R552). -/
def ppsOut (s : State) : Bool := s.tc.lock && decide (nowNs s % 1000000000 < 100000000)

/-! ### Clock status and frequency meters (R538, R553) -/

/-- The clock inputs that are valid (`INOK`). -/
def inputsOk (s : State) : Nat :=
  ofBit s.boot.refOk + ofBit (mget true s.tc.pcie 0) * 2 + ofBit (mget true s.tc.pcie 1) * 4 + ofBit s.tc.ppsOk * 8 + ofBit s.tc.tenOk * 16

/-- Lock bits of 32 fields from one on. -/
def pllWord (s : State) (f0 : Nat) : Nat :=
  (List.range 32).foldl (fun w i =>
    if f0 + i < 100 then
      let x := getField s (f0 + i)
      w + ofBit x.plA * 2 ^ (2 * i) + ofBit x.plB * 2 ^ (2 * i + 1)
    else w) 0

/-- MB_CLK_STATUS: clock inputs and field PLL lock. -/
def execMbClkStatus (s : State) : Out :=
  .next (mailRun s 0x0050 fun c => mailOk s c [inputsOk s, nowNs s, pllWord s 0, pllWord s 32, pllWord s 64, pllWord s 96])

/-- A clock that a meter can count (Table 18.5). -/
def meterClk (m code : Nat) : Bool :=
  if m == 127 then code ≤ 3 || code == 8 || decide (0x42 ≤ code) && decide (code ≤ 0x5F)
  else code == 0 || code == 8 || code == 9 || decide (0x80 ≤ code) && decide (code ≤ 0xF8)

/-- A clock that a meter can take as its reference (Table 18.5). -/
def meterRef (m code : Nat) : Bool := if m == 127 then code ≤ 3 else code == 0

/-- Fields of a request. -/
def fmMeter (c : MbCmd) : Nat := bits (mbWord c 0) 0 7
def fmClk (c : MbCmd) : Nat := bits (mbWord c 0) 8 8
def fmRef (c : MbCmd) : Nat := bits (mbWord c 0) 16 8
def fmK (c : MbCmd) : Nat := bits (mbWord c 0) 24 5

/-- A request is in range (R553, Table 15.4). -/
def meterOk (c : MbCmd) : Bool :=
  let m := fmMeter c
  (m < 100 || m == 127) && decide (10 ≤ fmK c) && decide (fmK c ≤ 26) && meterClk m (fmClk c) && meterRef m (fmRef c)

/-- Every tile of a field is fenced. -/
def fieldFenced (s : State) (f : Nat) : Bool := (fieldTiles f).all (fenced s)

/-- MB_FREQ_MEAS (R538): the first request whose meter is free opens its gate; one that fails a check completes. -/
def execMbFreqMeas (s : State) : Out :=
  let busy (c : MbCmd) : Bool := s.mantle.meters.any fun m => m.meter == fmMeter c
  match s.mantle.cmds.find? fun c => c.opc == 0x0051 && c.ph = .ready && (!meterOk c || !busy c) with
  | none => .next s
  | some c =>
    if !meterOk c then .next (mailFail s c 5)
    else if fmMeter c < 100 && fieldFenced s (fmMeter c) then .next (mailFail s c 0xA)
    else
      let s := modMail s c.id fun c => { c with ph := .work }
      .next (modMantle s fun m => { m with meters := m.meters ++ [⟨c.id, fmMeter c, fmRef c, fmClk c, fmK c, nowPs s⟩] })

/-- The period of a reference clock in ps. -/
def refPs (code : Nat) : Nat := match code with | 0 => 6400 | 3 => 100000 | _ => 10000

/-- FREQUENCY_METER_GATE_CLOSE (R538): the gate closes after 2^K reference cycles with what the meter counted, or has not closed within 30 s. -/
def execFrequencyMeterGateClose (m : Fin 128) (count : Option W32) (s : State) : Out :=
  match s.mantle.meters.find? (·.meter == m.val) with
  | none => .next s
  | some g =>
    let s := modMantle s fun k => { k with meters := k.meters.filter (·.meter != m.val) }
    match s.mantle.cmds.find? (·.id == g.cmd) with
    | none => .next s
    | some c => match count with
      | some n =>
        let s := reachPs s (g.openAt + 2 ^ g.k * refPs g.mref)
        .next (mailOk s c [n.toNat, nowNs s])
      | none => .next (mailFail (reachPs s (g.openAt + 30000000000000)) c 0xB)

end Sys2Proof.Machine
end

