-- ==== Sys2Proof/Machine/PowerCtl.lean ====
section
/-!
DEFINITION. The power cap (18.8): measurement, the control loop, issue budgets and points, and the fast halving.
-/
namespace Sys2Proof.Machine
open Sys2Proof

/-- Change the power part. -/
def modPower (s : State) (f : Power → Power) : State := { s with power := f s.power }

/-! ### Measurement and alerts (R554, R559) -/

/-- Input power of a reading of the blades (10 mV, 0.1 A), in W. -/
def inputPower (vs : List (Nat × Nat)) : Nat := (vs.take 8).foldl (fun n v => n + v.1 * v.2) 0 / 1000

/-- A point slower than another that `OPMASK` allows: the next one. -/
def nextSlower (mask op : Nat) : Option Nat := (List.range 4).find? fun p => decide (p > op) && bit mask p

/-- Every actuator is at its limit. -/
def atLimit (s : State) : Bool :=
  s.power.linkLim == 0 && s.power.memLim == 0 &&
    (List.range 100).all fun f => let x := getField s f; x.lost || x.powBud == 0 && (nextSlower s.power.opmask x.opcur).isNone

/-- P10 exceeds the cap by more than 5%. -/
def overFast (s : State) : Bool := decide (power10 s * 100 > s.power.pcap * 105)

/-- Halve the power budget of some fields at once (R559). -/
def halve (s : State) (p : FieldSt → Bool) : State :=
  (List.range 100).foldl (fun s f => modField s f fun x => if p x then { x with powBud := x.powBud / 2, fast := true } else x) s

/-- Input above the cap for 100 ms with every actuator at its limit (R559). -/
def overLong (s : State) : State :=
  let now := nowPs s
  let n := lget 0 s.power.samples 0
  if n ≤ s.power.pcap then modPower s fun p => { p with overAt := none, overAlert := p.overAlert && decide (n == s.power.pcap) }
  else if !atLimit s then modPower s fun p => { p with overAt := none }
  else match s.power.overAt with
  | none => modPower s fun p => { p with overAt := some now }
  | some t =>
    if s.power.overAlert || now < t + 100000000000 then s
    else setCauses (modPower s fun p => { p with overAlert := true }) cAlert

/-- BLADE_MEASUREMENT (R554, R559): every µs the CD measures each blade (voltage in 10 mV, current in 0.1 A). -/
def execBladeMeasurement (vs : List (BitVec 16 × BitVec 16)) (s : State) : Out :=
  let l := (vs.take 8).map fun v => (v.1.toNat, v.2.toNat)
  let s := modPower s fun p => { p with
    samples := (inputPower l :: p.samples).take 1000
    blades := l.zipIdx.foldl (fun m e => mput m e.2 ⟨e.1.1, e.1.2⟩) p.blades }
  let now := nowPs s
  let s := if overFast s && s.power.fastAt.isNone && !(s.fields.any fun e => e.2.fast) then
      modPower (halve s fun x => !x.platf) fun p => { p with fastAt := some now }
    else s
  .next (overLong s)

/-- FAST_HALVING_RECHECK (R559): 20 µs later P10 still exceeds the cap by more than 5%, and the PLAT fields are halved as well. -/
def execFastHalvingRecheck (s : State) : Out :=
  match s.power.fastAt with
  | none => .next s
  | some t =>
    let s := modPower (reachPs s (t + 20000000)) fun p => { p with fastAt := none }
    .next (if overFast s then halve s fun x => x.platf else s)

/-- Voltage and input, as `MB_POWER_READ` reports them: load, input, and the points usable now. -/
def opWord (s : State) (n : Nat) : Nat :=
  let ok := bit s.power.opmask n && (n != 0 || s.power.op0fits)
  let khz := match n with | 0 => 1400000 | 1 => 1250000 | 2 => 1000000 | _ => 800000
  ofBit ok * 2 ^ 48 + opMv n * 2 ^ 32 + khz

/-- MB_POWER_READ. -/
def execMbPowerRead (s : State) : Out :=
  .next (mailRun s 0x0041 fun c =>
    let pin := power1ms s
    mailOk s c ([s.power.opmask * 2 ^ 24 + s.power.pord * 2 ^ 16 + s.power.pcap,
      min (pin * Config.efficiency / 1000) 65535 * 65536 + min pin 65535] ++ (List.range 4).map (opWord s)))

/-! ### The control loop (R555 to R558, R634) -/

/-- A field's full matrix and MU demand at a point. -/
def demandAt (e : PowerEst) (f op : Nat) : Nat := lget 0 (lget [] e.full f) op

/-- A field holds a tile of a region whose latest PHASE asked for latency-class work. -/
def platField (s : State) (f : Nat) : Bool := (fieldRegions s f).any (·.phaseLat)

/-- The load that the cap allows: of `PCAP`, and of 100 A at the most heavily loaded present blade (R634). -/
def allowance (s : State) : Nat :=
  let cap := s.power.pcap * Config.efficiency / 1000
  let top := (((List.range 8).map (getBlade s)).filter bladeOn).foldl (fun m b => max m b.ma100) 0
  if top == 0 then cap else min cap (power10 s * Config.efficiency / 1000 * 1000 / top)

/-- Grants in priority order: demands of links, memory and compute, and what is allowed. -/
def grants (pord : Nat) (dem : List Nat) (allow : Nat) : List Nat × Nat :=
  [0, 1, 2].foldl (fun (acc : List Nat × Nat) i =>
    let cat := bits pord (2 * i) 2
    let g := min (lget 0 dem cat) acc.2
    (lmod acc.1 cat fun _ => g, acc.2 - g)) ([0, 0, 0], allow)

/-- An actuator's limit in 1/1,024 of the demand. -/
def limitOf (grant demand : Nat) : Nat := if demand == 0 || grant ≥ demand then 1024 else grant * 1024 / demand

/-- Budgets of PLAT fields and of the others: in full while the scalable power serves the former, else shared (R557). -/
def budgets (scal plat rest : Nat) : Nat × Nat :=
  if plat ≤ scal then (1024, if rest == 0 || rest ≤ scal - plat then 1024 else (scal - plat) * 1024 / rest)
  else (scal * 1024 / plat, 0)

/-- Demand of the fields of a kind, each at a point. -/
def sumDemand (s : State) (e : PowerEst) (op : FieldSt → Nat) (plat : Bool) : Nat :=
  (List.range 100).foldl (fun n f => let x := getField s f; if fieldRuns x && x.platf == plat then n + demandAt e f (op x) else n) 0

/-- Set the budgets of every field. -/
def setBudgets (s : State) (b : Nat × Nat) : State :=
  (List.range 100).foldl (fun s f => modField s f fun x => { x with powBud := if x.platf then b.1 else b.2, fast := false }) s

/-- The point that a field is moving to or runs at. -/
def pointOf (x : FieldSt) : Nat := if x.chg == 0 then x.opcur else x.optgt

/-- The granted point by request and `OPMASK` (R558). -/
def grantedPoint (mask req : Nat) : Nat :=
  if bit mask req then req
  else match nextSlower mask req with
  | some p => p
  | none => ((List.range 4).reverse.find? (bit mask)).getD req

/-- No change has begun in a field for 10 ms, and none is in progress (R544). -/
def mayChange (s : State) (x : FieldSt) : Bool :=
  x.chg == 0 && !x.onepll && fieldRuns x && (match x.changedAt with
    | some t => decide (nowPs s ≥ t + 10000000000)
    | none => true)

/-- The next faster allowed point, not beyond the granted one. -/
def nextFaster (mask cur want : Nat) : Option Nat := (List.range 4).reverse.find? fun p => decide (p < cur) && decide (want ≤ p) && bit mask p

/-- The budgets that a scalable power gives at the points that the fields are moving to or run at. -/
def budgetsNow (s : State) (e : PowerEst) (scal : Nat) : Nat × Nat := budgets scal (sumDemand s e pointOf true) (sumDemand s e pointOf false)

/-- Lower the point of each non-PLAT field while its budget is below 512, computing the budgets again after each (R557). -/
def lowerFields (s : State) (e : PowerEst) (scal : Nat) : State :=
  (List.range 100).foldl (fun s f =>
    let x := getField s f
    if (budgetsNow s e scal).2 ≥ 512 || x.platf || !mayChange s x then s
    else match nextSlower s.power.opmask x.opcur with
    | some p => startChange s f p
    | none => s) s

/-- The demand with field `f` at point `p` and every other at its own. -/
def demandWith (s : State) (e : PowerEst) (f p : Nat) : Nat :=
  sumDemand s e pointOf true + sumDemand s e pointOf false - demandAt e f (pointOf (getField s f)) + demandAt e f p

/-- A field's estimate at a point fits within what compute is granted; OP0 also asks that the measured power stays within the cap (R24, R558). -/
def pointFits (s : State) (e : PowerEst) (scal f p : Nat) : Bool :=
  decide (demandWith s e f p ≤ scal) && (p != 0 || decide (power10 s ≤ s.power.pcap))

/-- Fields that run faster than the request and `OPMASK` allow come down, and one at OP0 whose estimate there no longer fits (R24, R558). -/
def dropFields (s : State) (e : PowerEst) (scal : Nat) : State :=
  (List.range 100).foldl (fun s f =>
    let x := getField s f
    let want := grantedPoint s.power.opmask x.opreq
    if !mayChange s x then s
    else if x.opcur < want then startChange s f want
    else if x.opcur == 0 && !pointFits s e scal f 0 then (match nextSlower s.power.opmask 0 with
      | some p => startChange s f p
      | none => s)
    else s) s

/-- A field may rise to a point: its estimate there fits with 5% to spare, and it is not at thermal step 2 or above (R557, R562). -/
def mayRise (s : State) (e : PowerEst) (scal f p : Nat) : Bool :=
  decide (demandWith s e f p * 105 ≤ scal * 100) && pointFits s e scal f p && decide ((getField s f).tstep < 2)

/-- Fields slower than their granted point rise by one step where they may (R557, R558, R562). -/
def raiseFields (s : State) (e : PowerEst) (scal : Nat) : State :=
  (List.range 100).foldl (fun s f =>
    let x := getField s f
    let want := grantedPoint s.power.opmask x.opreq
    if !mayChange s x || x.opcur ≤ want then s
    else match nextFaster s.power.opmask x.opcur want with
    | none => s
    | some p => if mayRise s e scal f p then startChange s f p else s) s

/-- The point granted to a field (R558): the fastest allowed one from its request on that it moves to, runs at, or may rise to. -/
def grantOf (s : State) (e : PowerEst) (scal f : Nat) : Nat :=
  let x := getField s f
  let cur := pointOf x
  let want := grantedPoint s.power.opmask x.opreq
  if x.onepll || !fieldRuns x then x.opcur
  else if cur < want then want
  else ((List.range 4).find? fun p => decide (want ≤ p) && (p == cur || decide (p < cur) && bit s.power.opmask p && mayRise s e scal f p)).getD cur

/-- The power controller has decided for every field. -/
def grantFields (s : State) (e : PowerEst) (scal : Nat) : State :=
  (List.range 100).foldl (fun s f => let g := grantOf s e scal f; modField s f fun x => { x with grant := some g }) s

/-- POWER_LOOP_STEP (R557): every 50 µs the controller grants categories and sets budgets and points. -/
def execPowerLoopStep (e : PowerEst) (s : State) : Out :=
  if s.boot.mst != 5 || s.power.pilot != 0 then .next s
  else
    let s := (List.range 100).foldl (fun s f =>
      let p := platField s f
      modField s f fun x => { x with platf := p, opreq := fieldReq s f, pest := min (lget 0 e.pest f) 65535 }) s
    let comp := e.vec + sumDemand s e pointOf true + sumDemand s e pointOf false
    let g := (grants s.power.pord [e.links, e.memory, comp] (allowance s - e.fixed)).1
    let scal := lget 0 g 2 - e.vec
    let fits0 := decide (sumDemand s e (fun _ => 0) true + sumDemand s e (fun _ => 0) false ≤ scal)
    let s := modPower s fun p => { p with
      linkLim := limitOf (lget 0 g 0) e.links
      memLim := limitOf (lget 0 g 1) e.memory
      op0fits := fits0
      fastAt := none }
    let s := lowerFields (dropFields s e scal) e scal
    let s := setBudgets s (budgetsNow s e scal)
    .next (grantFields (raiseFields s e scal) e scal)

/-- ISSUE_BUDGET_CYCLE (R556): a change of a field's budget, the smaller of the power and the heat budget, takes effect at the next cycle 0
of the 1,024. -/
def execIssueBudgetCycle (f : Fin 100) (s : State) : Out :=
  let x := getField s f.val
  let b := min x.powBud x.heatBud
  if b == x.ibud then .next s
  else
    let c := fieldCycles s f.val
    let s := advance s (tickOfCycle s f.val ((c + 1023) / 1024 * 1024) - s.time.ticks)
    .next (modField s f.val fun x => { x with ibud := b })

end Sys2Proof.Machine
end

