-- ==== Sys2Proof/Machine/Heat.lean ====
section
/-!
DEFINITION. Thermal control (18.9): sensors and steps, the heat budget, regions held for heat, and the thermal shutdown.
-/
namespace Sys2Proof.Machine
open Sys2Proof

/-- The temperature in 1/8 °C at which a field enters a step (Table 18.7). -/
def fieldEnter (k : Nat) : Int := match k with | 1 => 760 | 2 => 840 | 3 => 880 | 4 => 920 | _ => 960

/-- The temperature in 1/8 °C at which a satellite enters a step, if it has that step. -/
def dieEnter (d k : Nat) : Option Int :=
  if dieIsMsd d then (match k with | 1 => some 680 | 2 => some 760 | 5 => some 840 | _ => none)
  else (match k with | 1 => some 760 | 5 => some 920 | _ => none)

/-! ### Regions held for heat (R563, R564) -/

/-- The incident of a region switched off for heat or on again. -/
def heatInc (r on : Nat) : Inc := { cdInc 0x0832 on with reg := r, rgv := true }

/-- A region is held: it is gated and drains, or its clocks are gated at once; one that quiesces for a transaction is released by an ABORT
wave first (R280). -/
def holdRegion (s : State) (r : Nat) : State :=
  let g := getRegion s r
  if g.heatHeld || recovering s (rgGrp g) then s
  else
    let open_ := s.eng.txns.filter fun x => x.ph = .quiesce && x.regs.contains r
    if !open_.isEmpty then open_.foldl (fun s x => waveTxn s x.tag false .aborted 0x0D) s
    else
      let run := decide (g.st = .running)
      let s := if run then gateRegion s r else s
      let now := nowPs s
      let s := modRegion s r fun g => { g with heatHeld := true, heatRun := run, heatAt := now, gated := true }
      let s := raiseInc s (heatInc r 0)
      if run || g.st = .quiescing then s else heatGate s r

/-- The regions that have a tile in a field at step 3 are held; one that has stopped since has its clocks gated. -/
def holdField (s : State) (f : Nat) : State :=
  (fieldRegs s f).foldl (fun s r =>
    let s := holdRegion s r
    if (getRegion s r).heatHeld && (getRegion s r).st ≠ .quiescing then heatGate s r else s) s

/-- A field that still has regions held for heat at step 4 shuts down its mesh domain; it is fenced, and its groups are abandoned (R565). -/
def heatOff (s : State) (f : Nat) : State :=
  if (getField s f).meshOff || !((fieldRegs s f).any fun r => (getRegion s r).heatHeld) then s
  else
    let s := fenceField s f 3
    let s := (fieldTiles f).foldl (fun s t => raiseInc s (mkInc 0x0840 utTile 0 t 0 0)) s
    setRate (modField (meshDown s f) f fun x => { x with lost := true }) f 0

/-- The regions of a field that are held no more: `HOTOFF` falls where no held region is left. -/
def clearHot (s : State) (f : Nat) : State :=
  if (fieldRegs s f).any fun r => (getRegion s r).heatGated then s else modField s f fun x => { x with hotoff := false }

/-- HEAT_RESUME (R564): every field of a held region has stayed at or below 100 °C for 100 ms; it runs again, unless it has stopped. -/
def execHeatResume (r : Fin 64) (s : State) : Out :=
  let g := getRegion s r.val
  let fs := regionFields g
  if !g.heatHeld || !g.heatGated || !(fs.all fun f => (getField s f).coolSince.isSome) then .next s
  else
    let t := fs.foldl (fun m f => max m ((getField s f).coolSince.getD 0)) 0
    let s := reachPs s (t + 100000000000)
    let back := g.heatRun && g.st = .drained
    let s := modRegion s r.val fun g => { g with
      heatHeld := false
      heatGated := false
      heatRun := false
      st := if back then .running else g.st
      gated := if back then false else g.gated
      wd := if back then cyclesOf s (rgCtl g) else g.wd }
    let s := fs.foldl clearHot s
    let s := raiseInc s (heatInc r.val 1)
    .next ((s.eng.txns.map (·.tag)).foldl txnDecide s)

/-! ### Steps (R561, R565, R566) -/

/-- Step 5: the Snuffer is engaged, the hottest sensor is recorded and the rails are switched off (R566). -/
def heatShutdown (s : State) (ix : Nat) : State :=
  let at_ := nowNs s
  modBoot (switchOff (snuffEngage s 4) 2) fun b => { b with hotIx := ix, hotAt := at_ }

/-- Entering steps 1 to 3 of a field. -/
def fieldStep (s : State) (f k : Nat) : State :=
  let s := modField s f fun x => { x with tstep := k }
  match k with
  | 1 => setCauses (raiseInc s (fieldInc 0x0830 f)) cAlert
  | 2 => setCauses (raiseInc s (fieldInc 0x0831 f)) cAlert
  | 3 => setCauses s cAlert
  | _ => s

/-- The step that a temperature leaves a field in: entered when reached, left 3 °C below. -/
def newStep (enter : Nat → Int) (cur : Nat) (t : Int) : Nat :=
  let up := (List.range 6).foldl (fun m k => if k ≥ 1 && enter k ≤ t then max m k else m) 0
  let down := (List.range 6).foldl (fun m k => if k ≥ 1 && enter k - 24 ≤ t then max m k else m) 0
  max up (min cur down)

/-- A field's reading. -/
def readField (s : State) (f : Nat) (t : Int) (sensor : Nat) : State :=
  let now := nowPs s
  let s := modField s f fun x => { x with
    tmax := t
    tsen := sensor
    heatNext := if t ≥ 840 && x.tmax < 840 then now + 1000000000 else if t < 816 && x.tmax ≥ 816 then now + 10000000000 else x.heatNext
    coolSince := if t ≤ 800 then some (x.coolSince.getD now) else none }
  if s.boot.step == 0 then s
  else
    let cur := (getField s f).tstep
    let k := newStep fieldEnter cur t
    if k ≥ 5 then heatShutdown s (f * 16 + sensor)
    else
      let s := ((List.range k).filter (cur ≤ ·)).foldl (fun s j => fieldStep s f (j + 1)) s
      let s := modField s f fun x => { x with tstep := k }
      let s := if k ≥ 3 then holdField s f else s
      if k ≥ 4 then heatOff s f else s

/-- A satellite's reading. -/
def readDie (s : State) (d : Nat) (t : Int) : State :=
  let s := modPower s fun p => { p with dieTemp := mset 0 p.dieTemp d t }
  if s.boot.step == 0 || d == 0 then s
  else
    let enter (k : Nat) : Int := (dieEnter d k).getD 8000
    let cur := mget 0 s.power.dieStep d
    let k := newStep enter cur t
    if k ≥ 5 then heatShutdown s (1600 + d)
    else
      let s := modPower s fun p => { p with dieStep := mset 0 p.dieStep d k }
      if k > cur then
        let s := if cur == 0 then setCauses (raiseInc s (dieInc 0x0830 d 0)) cAlert else s
        if k == 2 then setCauses (raiseInc s (dieInc 0x0831 d 0)) cAlert else s
      else s

/-- THERMAL_SENSOR_READ (R561): every 100 µs. -/
def execThermalSensorRead (x : Sensor) (s : State) : Out :=
  match x with
  | .field f t k => .next (readField s f.val t.toInt k.val)
  | .die d t => .next (readDie s d.val t.toInt)
  | .coolant a b => .next (modPower s fun p => { p with inletT := a.toInt, outletT := b.toInt })

/-- A field whose heat budget is 0 comes down by one point, past the spacing of R544 (R562). -/
def heatLower (s : State) (f : Nat) : State :=
  let x := getField s f
  if x.heatBud != 0 || x.chg != 0 then s
  else match nextSlower s.power.opmask x.opcur with
  | some p => startChange s f p
  | none => s

/-- HEAT_BUDGET_STEP (R562): the heat budget falls by 128 every 1 ms at 105 °C and above, and rises by 128 every 10 ms below 102 °C. -/
def execHeatBudgetStep (f : Fin 100) (s : State) : Out :=
  let x := getField s f.val
  if x.tmax ≥ 840 && x.tstep ≥ 2 then
    let s := reachPs s x.heatNext
    let s := modField s f.val fun x => { x with heatBud := x.heatBud - 128, heatNext := nowPs s + 1000000000 }
    .next (heatLower s f.val)
  else if x.tmax < 816 && x.heatBud < 1024 then
    let s := reachPs s x.heatNext
    .next (modField s f.val fun x => { x with heatBud := min 1024 (x.heatBud + 128), heatNext := nowPs s + 10000000000 })
  else .next s

/-- `ALERT_N` is low (R559, R561, R634). -/
def alertLow (s : State) : Bool :=
  s.power.overAlert || s.power.bladeAlert || s.fields.any (fun e => decide (e.2.tstep ≥ 1)) || s.power.dieStep.any fun e => decide (e.2 ≥ 1)

end Sys2Proof.Machine
end

