-- ==== Sys2Proof/Machine/Pilot.lean ====
section
/-!
DEFINITION. Pilot (18.11): entering, and waking.
-/
namespace Sys2Proof.Machine
open Sys2Proof

/-- Nothing keeps the module from Pilot (R568). -/
def idleForPilot (s : State) : Bool :=
  !(s.regions.any fun e => decide (e.2.st = .running) || decide (e.2.st = .quiescing)) && !(s.eng.engs.any fun e => !e.2.cmds.isEmpty) &&
    s.eng.txns.isEmpty && s.mantle.recov.isEmpty && s.fw.stageCmd.isNone && s.fw.resetDue.isNone && !s.trace.running

/-- MB_PILOT_ENTER (R568): the module goes to Pilot, unless something runs. -/
def execMbPilotEnter (s : State) : Out :=
  .next (mailRun s 0x0048 fun c =>
    if !idleForPilot s then mailFail s c 5
    else modMail (modPower s fun p => { p with pilot := 1, pilotAt := nowPs s }) c.id fun c => { c with ph := .work })

/-- The command of an opcode at work. -/
def workingMail (s : State) (opc : Nat) : Option MbCmd := s.mantle.cmds.find? fun c => c.opc == opc && c.ph = .work

/-- The clocks of every field stop. -/
def clocksOff (s : State) : State :=
  (List.range 100).foldl (fun s f => setRate (modField s f fun x => { x with plA := false, plB := false }) f 0) s

/-- Rails at the retention voltage. -/
def retention (s : State) : State := (List.range 100).foldl (fun s f => modField s f fun x => { x with vcmp := 500, vmsh := 500 }) s

/-- PILOT_ENTRY_STEP (Table 18.9): the next step is reached; with the last one `MST` reads PILOT and the command replies. -/
def execPilotEntryStep (s : State) : Out :=
  let at_ := s.power.pilotAt
  match s.power.pilot with
  | 1 => .next (modPower (reachPs s (at_ + 100000000)) fun p => { p with pilot := 2 })
  | 2 => .next (clocksOff (modPower (reachPs s (at_ + 2100000000)) fun p => { p with pilot := 3 }))
  | 3 =>
    let s := setMst (retention (modPower (reachPs s (at_ + 7100000000)) fun p => { p with pilot := 4 })) 6
    match workingMail s 0x0048 with
    | some c => .next (mailOk s c [])
    | none => .next s
  | _ => .next s

/-- MB_PILOT_WAKE (R571): `MST` becomes WAKING. -/
def execMbPilotWake (s : State) : Out :=
  .next (mailRun s 0x0049 fun c =>
    let s := setMst (modPower s fun p => { p with pilot := 5, pilotAt := nowPs s }) 7
    modMail s c.id fun c => { c with ph := .work })

/-- The PLLs of a field lock and its islands start; a failing field is lost (R572). -/
def wakeField (s : State) (bad : List Nat) (f : Nat) : State :=
  let x := getField s f
  if !fieldRuns x then s
  else if bad.contains f then fieldLost s f
  else setRate (setField s f { x with plA := true, plB := !x.onepll }) f (opRate x.opcur)

/-- The Lamplighter is calibrated: every tile counter is aligned; a failing field is fenced (R572). -/
def wakeLamp (s : State) (bad : List Nat) : State :=
  let s := alignTiles { s with lamp := { s.lamp with calib := s.lamp.calib + 1 } } []
  let s := { s with tc := { s.tc with markNext := 0 }, boot := { s.boot with lastMark := nowNs s } }
  bad.foldl (fun s f => if fieldRuns (getField s f) then fenceField (raiseInc s (fieldInc 0x0613 f)) f 2 else s) s

/-- A stack that does not leave self-refresh is handled as a lost MSD (Table 11.7). -/
def wakeMsd (s : State) (m : Nat) : State :=
  if (getDie s (8 + m)).down then s
  else
    let s := modDie s (8 + m) fun x => dropLinks x (nowPs s)
    resetMsd (raiseInc s (dieInc 0x0710 (8 + m) 0)) m

/-- WAKE_STEP (Table 18.11, R572): a window of the wake ends; `fields` and `msds` are those that failed in it. READY falls 15.0 ms after the
command was accepted. -/
def execWakeStep (fields : List (Fin 100)) (msds : List (Fin 24)) (s : State) : Out :=
  let at_ := s.power.pilotAt
  let bad := (fields.map (·.val)).eraseDups
  match s.power.pilot with
  | 5 =>
    let s := modPower (reachPs s (at_ + 5000000000)) fun p => { p with pilot := 6 }
    .next ((List.range 100).foldl (fun s f => modField s f fun x => { x with vcmp := opMv x.opcur, vmsh := opMv x.opcur }) s)
  | 6 =>
    let s := modPower (reachPs s (at_ + 7000000000)) fun p => { p with pilot := 7 }
    .next ((List.range 100).foldl (fun s f => wakeField s bad f) s)
  | 7 => .next (wakeLamp (modPower (reachPs s (at_ + 13000000000)) fun p => { p with pilot := 8 }) bad)
  | 8 =>
    let s := modPower (reachPs s (at_ + 15000000000)) fun p => { p with pilot := 0 }
    let s := ((msds.map (·.val)).eraseDups).foldl wakeMsd s
    let s := snapEvery (setMst s 5) s.mantle.snap.snapp
    match workingMail s 0x0049 with
    | some c => .next (mailOk s c [])
    | none => .next s
  | _ => .next s

end Sys2Proof.Machine
end

