-- ==== Sys2Proof/Machine/Security.lean ====
section
/-!
DEFINITION. The security commands of the mailbox (21.5) and the continuous tests of the entropy source.
-/
namespace Sys2Proof.Machine
open Sys2Proof

/-- Start the next security command of an opcode; in the Island's error state it completes FAULT (R623). -/
def secRun (s : State) (opc : Nat) (k : MbCmd → State) : State :=
  mailRun s opc fun c => if s.island.err then mailFail s c 0xB else k c

/-- `DSTATE` (Table 21.5). -/
def dState (x : Island) : Nat := if x.unlocked then 1 else if x.fails ≥ 3 then 2 else 0

/-- Root keys that are not revoked. -/
def rootsLeft (x : Island) : Nat := (List.range 4).foldl (fun m i => if bit x.revoked i then m else m + 2 ^ i) 0

/-- SEC_STATUS (Table 21.5), in the error state too. -/
def execSecStatus (s : State) : Out :=
  .next (mailRun s 0x0100 fun c =>
    let x := s.island
    mailOk s c [ofBit x.err * 2 ^ 56 + dState x * 2 ^ 48 + slotMask x * 2 ^ 32 + x.minsvn % 2 ^ 32,
      x.tcount % 2 ^ 32 * 2 ^ 32 + rootsLeft x * 2 ^ 28 + min 255 (256 - x.raises) * 2 ^ 20 + (x.aseq - 1) % 2 ^ 20])

/-- SEC_PUBKEYS: the DIK's and the DKA's public keys. -/
def execSecPubkeys (s : State) : Out := .next (secRun s 0x0101 fun c => mailEnd s c .done 0 ((List.range 192).map Config.pubKeyByte))

/-- The 128 bytes of an attestation report (R624). -/
def attestReport (s : State) (nonce : List Byte) : List Byte :=
  let x := s.island
  wordBytes [s.part.serial.toNat, (runBank s).setver % 2 ^ 32 * 2 ^ 32 + x.minsvn % 2 ^ 32,
    slotMask x * 2 ^ 48 + dState x * 2 ^ 40 + x.tcount % 2 ^ 32, (auditChain x).toNat, nowNs s] ++ nonce ++ List.replicate 40 0

/-- SEC_ATTEST (R624): a report signed with the DIK. -/
def execSecAttest (s : State) : Out :=
  .next (secRun s 0x0102 fun c =>
    let r := attestReport s c.data
    let digest := Config.sha384 r
    mailEnd s c .done 0 (r ++ (List.range 96).map (Config.dikSig digest)))

/-! ### Keys (R618 to R620) -/

/-- The fingerprint of a key: the first 8 bytes of SHA-384("SQW2-KFP" ‖ key). -/
def fingerprint (key : List Byte) : W64 :=
  BitVec.ofNat 64 (leNat ((Config.sha384 ([0x53, 0x51, 0x57, 0x32, 0x2D, 0x4B, 0x46, 0x50] ++ key)).take 8))

/-- An import is refused: 0x0B01 and an audit record. -/
def importRefused (s : State) (c : MbCmd) (slot st : Nat) : State :=
  mailFail (auditAdd (raiseInc s (cdInc 0x0B01 slot)) 8 c.port (slot * 2 ^ 60 + st)) c st

/-- The MSDs that must acknowledge a slot: those of maker 0x01 that are up (R619). -/
def keyDies (s : State) : List Nat :=
  ((List.range 24).map (8 + ·)).filter fun d => capMake (getDie s d) == 1 && !(getDie s d).down && !dieFenced s d

/-- SEC_KEY_IMPORT (R618, R619): the key is unwrapped into its slot; the command completes when every MSD that is up has acknowledged it. -/
def execSecKeyImport (s : State) : Out :=
  .next (mailRun s 0x0110 fun c =>
    let slot := bits (mbWord c 0) 0 4
    let x := s.island
    if x.err then importRefused s c slot 0xB
    else if (x.slots.lookup slot).isSome || x.unlocked then importRefused s c slot 5
    else match Config.keyUnwrap s.part.serial.toNat slot ((c.data.drop 8).take 96) ((c.data.drop 104).take 40) with
    | none => importRefused s c slot 7
    | some key =>
      let fp := fingerprint key
      let k : KeySlot := ⟨BitVec.ofNat 64 (mbWord c 18), fp, leNat key⟩
      let s := auditAdd (modIsland s fun x => { x with slots := mput x.slots slot k }) 7 c.port (slot * 2 ^ 60 + fp.toNat % 2 ^ 56)
      let ds := keyDies s
      if ds.isEmpty then mailOk s c [fp.toNat]
      else modMail (modIsland s fun x => { x with acks := some (c.id, slot, ds) }) c.id fun c => { c with ph := .work })

/-- SEC_KEY_CLEAR (R620). -/
def execSecKeyClear (s : State) : Out :=
  .next (secRun s 0x0111 fun c => mailOk (clearSlots s (bits (mbWord c 0) 0 16) 1 c.port) c [])

/-- SEC_KEY_LIST: label and fingerprint of each slot. -/
def execSecKeyList (s : State) : Out :=
  .next (secRun s 0x0112 fun c =>
    mailOk s c ((List.range 16).flatMap fun i => match s.island.slots.lookup i with
      | some k => [k.label.toNat, k.fp.toNat]
      | none => [0, 0]))

/-- The DRBG's next request. -/
def drawn (s : State) : State := modIsland s fun x => { x with drbg := x.drbg + 1 }

/-- SEC_RANDOM (R617). -/
def execSecRandom (s : State) : Out :=
  .next (secRun s 0x0120 fun c =>
    let n := bits (mbWord c 0) 0 12
    if n < 8 || n > 4080 || n % 8 != 0 then mailFail s c 5
    else mailEnd (drawn s) c .done 0 ((List.range n).map (Config.drbgByte s.island.drbg)))

/-- SEC_SELFTEST (R625): the known-answer tests are repeated; a failure puts the Island into its error state. -/
def execSecSelftest (s : State) : Out :=
  .next (secRun s 0x0121 fun c =>
    let k := Config.selfTest s.island.drbg
    if k == 0 then mailOk (drawn s) c [] else mailFail (islandError s k) c 0xB)

/-- ENTROPY_TEST_FAILURE (R617, R625): a continuous test fails, the repetition count test or the adaptive proportion test. -/
def execEntropyTestFailure (adaptive : Bool) (s : State) : Out :=
  if s.boot.step == 0 then .next s else .next (islandError s (if adaptive then 9 else 8))

/-! ### Debug (R622) -/

/-- SEC_DBG_CHAL: a challenge, valid for 60 s and one use. -/
def execSecDbgChal (s : State) : Out :=
  .next (secRun s 0x0130 fun c =>
    let b := (List.range 48).map (Config.drbgByte s.island.drbg)
    let s := modIsland (drawn s) fun x => { x with chal := some (b, nowPs s + 60000000000000) }
    mailEnd (auditAdd s 10 c.port 0) c .done 0 b)

/-- The debug key digest that a key matches and under which its signature over the challenge verifies. -/
def debugMatch (s : State) (c : MbCmd) : Option Nat :=
  let key := c.data.take 96
  let sig := (c.data.drop 96).take 96
  match s.island.chal with
  | some (b, due) =>
    let digest := Config.sha384 (b ++ leBytes 8 s.part.serial.toNat)
    if nowPs s > due || !Config.debugSig key digest sig then none
    else [0, 1].find? fun i => Config.sha384 key == Config.debugDigest i
  | none => none

/-- SEC_DBG_UNLOCK: every slot is zeroised and the TAPs are enabled, or the attempt has failed. -/
def execSecDbgUnlock (s : State) : Out :=
  .next (secRun s 0x0131 fun c =>
    if s.island.fails ≥ 3 then mailFail s c 5
    else
      let hit := debugMatch s c
      let s := modIsland s fun x => { x with chal := none }
      match hit with
      | some i =>
        let s := modIsland (clearSlots s 0xFFFF 2 c.port) fun x => { x with unlocked := true }
        mailOk (auditAdd (raiseInc s (cdInc 0x0B04 i)) 11 c.port i) c []
      | none =>
        let n := s.island.fails + 1
        let s := modIsland s fun x => { x with fails := n }
        mailFail (auditAdd (raiseInc s (cdInc 0x0B05 n)) 12 c.port n) c 7)

/-- SEC_DBG_LOCK: the TAPs are locked and imports allowed again. -/
def execSecDbgLock (s : State) : Out :=
  .next (secRun s 0x0132 fun c => mailOk (auditAdd (modIsland s fun x => { x with unlocked := false }) 13 c.port 0) c [])

/-! ### Audit log and root keys -/

/-- SEC_AUDIT_READ (R627): up to 127 records from a number on; those overwritten are skipped. -/
def execSecAuditRead (s : State) : Out :=
  .next (mailRun s 0x0140 fun c =>
    let first := bits (mbWord c 0) 0 32
    let l := (s.island.audit.filter fun r => decide (r.seq ≥ first)).take 127
    let from_ := match l with | r :: _ => r.seq | [] => first
    mailEnd s c .done 0 (leBytes 8 (from_ % 2 ^ 32 * 2 ^ 32 + l.length) ++ l.flatMap auditBytes))

/-- SEC_ROOT_REVOKE (R621). -/
def execSecRootRevoke (s : State) : Out :=
  .next (secRun s 0x0150 fun c =>
    let i := bits (mbWord c 0) 0 2
    let others := (List.range 4).filter fun k => k != i && !bit s.island.revoked k
    let digest := Config.sha384 ([0x53, 0x51, 0x57, 0x32, 0x2D, 0x52, 0x45, 0x56, 0x4F, 0x4B, 0x45] ++ leBytes 8 s.part.serial.toNat ++ leBytes 1 i)
    if others.isEmpty then mailFail s c 5
    else if !(others.any fun k => Config.rootSig k digest ((c.data.drop 8).take 96)) then mailFail s c 7
    else
      let s := modIsland s fun x => { x with revoked := setBits x.revoked i 1 1 }
      mailOk (auditAdd (raiseInc s (cdInc 0x0B07 i)) 15 c.port i) c [])

end Sys2Proof.Machine
end

