-- ==== Sys2Proof/Machine/Service.lean ====
section
/-!
DEFINITION. The service connector: the JTAG chain (20.9, 20.10), the SMBus interface and the UART (22.6).
-/
namespace Sys2Proof.Machine
open Sys2Proof

/-! ### TAPs (R608 to R611) -/

/-- Record what a die's data register captured, first bit out first, and the instruction selected. -/
def tapSet (s : State) (d ir : Nat) (dr : List Bool) : State :=
  let s := modDie s d fun x => { x with ir := ir, extest := ir == 3 }
  { s with ans := { s.ans with tap := mset [] s.ans.tap d dr } }

/-- Bits of a number, least first. -/
def bitsOf (n w : Nat) : List Bool := (List.range n).map (bit w)

/-- A die's TAP is in the chain: the CD's always, another while its bit of `JSEL` is set (R610). -/
def inChain (s : State) (d : Nat) : Bool := d == 1 || bit s.jsel.toNat d

/-- An instruction of a TAP in the chain: it has effect once debug is unlocked and, where it must be, the die is out of use; otherwise it acts
as BYPASS (R609, R611). -/
def tapDo (s : State) (d ir : Nat) (ok : Bool) (k : State) : State :=
  if !inChain s d then s
  else if s.island.unlocked && ok then k
  else tapSet s d ir [false]

/-- A die is not in use: `MST` is HALTED, or `MB_FENCE` has fenced the satellite (R609). -/
def testable (s : State) (d : Nat) : Bool := s.boot.mst == 8 || decide (d ≥ 2) && dieFenced s d && (getDie s d).hostFence

/-- BYPASS: 1 bit. -/
def execTapBypass (d : Fin 32) (s : State) : Out := if inChain s d.val then .next (tapSet s d.val 0xFF [false]) else .next s

/-- The part number of a die (R610). -/
def partNumber (d : Nat) : Nat := if d == 0 then 0x5720 else if d == 1 then 0x5721 else if dieIsPd d then 0x5722 else 0x5723

/-- The generation of a die. -/
def dieGen (s : State) (d : Nat) : Nat := if d == 0 then Config.waferGen.toNat else bits (getDie s d).cap.toNat 40 8

/-- IDCODE (R610). -/
def execTapIdcode (d : Fin 32) (s : State) : Out :=
  if inChain s d.val then
    .next (tapSet s d.val 1 (bitsOf 32 (dieGen s d.val % 16 * 2 ^ 28 + partNumber d.val * 2 ^ 12 + Config.makerCode.toNat * 2 + 1)))
  else .next s

/-- SAMPLE/PRELOAD: the boundary register captures the pins and is loaded. -/
def execTapSample (d : Fin 32) (pins preload : List Bool) (s : State) : Out :=
  .next (tapDo s d.val 2 true (modDie (tapSet s d.val 2 pins) d.val fun x => { x with boundary := preload }))

/-- EXTEST: pins are driven from the boundary register, which captures them and is loaded anew. -/
def execTapExtest (d : Fin 32) (pins next : List Bool) (s : State) : Out :=
  .next (tapDo s d.val 3 true (modDie (tapSet s d.val 3 pins) d.val fun x => { x with boundary := next }))

/-- JSEL (R610): the CD selects the dies of the chain at Update-DR; its own bit cannot be cleared. -/
def execTapJsel (v : W32) (s : State) : Out :=
  .next (tapDo s 1 0x10 true { tapSet s 1 0x10 (bitsOf 32 s.jsel.toNat) with jsel := BitVec.ofNat 32 (setBits v.toNat 1 1 1) })

/-- A port of a die in test shows `BST` = 5. -/
def inTest (s : State) (d p : Nat) (f : BbPort → BbPort) : State :=
  if p ≥ diePorts d then s else modDie (modBb s d p fun b => { f b with st := 5 }) d fun x => { x with test := true }

/-- LBNEAR (R608): near-end loopback of a port. -/
def execTapLbnear (d : Fin 32) (v : BitVec 8) (s : State) : Out :=
  let p := bits v.toNat 0 4
  .next (tapDo s d.val 0x21 (testable s d.val)
    (inTest (modDie (tapSet s d.val 0x21 (bitsOf 8 v.toNat)) d.val fun x => { x with tapPort := p }) d.val p fun b => { b with near := bit v.toNat 4 }))

/-- LBFAR (R608): far-end loopback of a port. -/
def execTapLbfar (d : Fin 32) (v : BitVec 8) (s : State) : Out :=
  let p := bits v.toNat 0 4
  .next (tapDo s d.val 0x22 (testable s d.val)
    (inTest (modDie (tapSet s d.val 0x22 (bitsOf 8 v.toNat)) d.val fun x => { x with tapPort := p }) d.val p fun b => { b with far := bit v.toNat 4 }))

/-- PRBSCFG (R608): pattern, rate and lanes of a port's generators and checkers. -/
def execTapPrbscfg (d : Fin 32) (v : W32) (s : State) : Out :=
  let w := v.toNat
  .next (tapDo s d.val 0x23 (testable s d.val)
    (inTest (tapSet s d.val 0x23 (bitsOf 32 w)) d.val (bits w 24 4) fun b => { b with pat := bits w 28 4, rate := bits w 22 2, mask := bits w 0 13 }))

/-- What the checkers have counted since the last read: errors by lane, saturating, and bits compared, in 48 bits. -/
def checked (b : BbPort) (errs : List (Nat × Nat)) (n : Nat) : BbPort :=
  { b with errs := errs.foldl (fun m e => mset 0 m e.1 (satAdd 32 (mget 0 m e.1) e.2)) b.errs, cmp := (b.cmp + n) % 2 ^ 48 }

/-- PRBSRD (R608): the error counters and the bits compared of the port named last. -/
def execTapPrbsrd (d : Fin 32) (errs : List (Fin 13 × W32)) (bits : Nat) (s : State) : Out :=
  let p := (getDie s d.val).tapPort
  let b0 := getBb s d.val p
  let on := b0.pat != 0 && b0.st == 5
  let b := if on then checked b0 (errs.map fun e => (e.1.val, e.2.toNat)) bits else b0
  let dr := ((List.range 13).flatMap fun i => bitsOf 32 (mget 0 b.errs i)) ++ bitsOf 48 b.cmp
  .next (tapDo s d.val 0x24 (testable s d.val) (if p ≥ diePorts d.val then tapSet s d.val 0x24 (List.replicate 464 false)
    else modBb (tapSet s d.val 0x24 dr) d.val p fun _ => b))

/-- BBSTAT: `BB_STAT` of the port named by the last LBNEAR or LBFAR. -/
def execTapBbstat (d : Fin 32) (s : State) : Out :=
  let p := (getDie s d.val).tapPort
  .next (tapDo s d.val 0x30 true (if p ≥ diePorts d.val then tapSet s d.val 0x30 (List.replicate 64 false)
    else modBb (tapSet s d.val 0x30 (bitsOf 64 (bbStatWord (getBb s d.val p)))) d.val p fun b => { b with retry := 0 }))

/-! ### SMBus (R644) -/

/-- One step of the packet error code: CRC-8 by x^8 + x^2 + x + 1. -/
def pecByte (c : Nat) (b : Byte) : Nat :=
  (List.range 8).foldl (fun c _ => if c ≥ 128 then (c * 2 ^^^ 0x107) % 256 else c * 2) (c ^^^ b.toNat)

/-- Address 0x5C as it goes out for a write and for a read. -/
def smbHead (cmd : Nat) : List Byte := [0xB8, BitVec.ofNat 8 cmd, 0xB9]

/-- The interface answers (R644). -/
def smbOn (s : State) : Bool := decide (s.boot.step ≥ 2) && !inResetNow s

/-- Answer a read: the bytes, after a count for a block, with their PEC; not acknowledged while the interface is silent. -/
def smbRead (s : State) (cmd : Nat) (block : Bool) (bs : List Byte) : State :=
  if !smbOn s then { s with ans := { s.ans with smb := [], smbAck := false } }
  else
    let body := if block then BitVec.ofNat 8 bs.length :: bs else bs
    { s with ans := { s.ans with smb := body ++ [BitVec.ofNat 8 ((smbHead cmd ++ body).foldl pecByte 0)], smbAck := true } }

/-- SB_ID. -/
def execSbId (s : State) : Out := .next (smbRead s 0 true (leBytes 8 (modId s) ++ leBytes 8 s.part.serial.toNat))

/-- SB_STATE. -/
def execSbState (s : State) : Out :=
  .next (smbRead s 1 false (leBytes 1 (s.boot.mst + ofBit s.boot.pwrGood * 16 + ofBit s.snuff.snf * 32 + ofBit (alertLow s) * 64)))

/-- SB_PIN: input power averaged over 1 ms, in 10 W. -/
def execSbPin (s : State) : Out := .next (smbRead s 2 false (leBytes 2 (power1ms s / 10)))

/-- The input voltage: the lowest of the present blades (R632). -/
def inputMv10 (s : State) : Nat :=
  match (((List.range 8).map (getBlade s)).filter bladeOn).map (·.mv10) with
  | [] => 0
  | v :: l => l.foldl min v

/-- SB_VMIN. -/
def execSbVmin (s : State) : Out := .next (smbRead s 3 false (leBytes 2 (inputMv10 s)))

/-- SB_IBLADE. -/
def execSbIblade (s : State) : Out := .next (smbRead s 4 true ((List.range 8).flatMap fun i => leBytes 2 (getBlade s i).ma100))

/-- SB_TMAX. -/
def execSbTmax (s : State) : Out := .next (smbRead s 5 false (leBytes 2 (unsigned 16 (hottest s))))

/-- SB_TCOOL. -/
def execSbTcool (s : State) : Out := .next (smbRead s 6 true (leBytes 2 (unsigned 16 s.power.inletT) ++ leBytes 2 (unsigned 16 s.power.outletT)))

/-- A field or satellite is at step 1 or above. -/
def hotStep (s : State) : Bool := s.fields.any (fun e => decide (e.2.tstep ≥ 1)) || s.power.dieStep.any fun e => decide (e.2 ≥ 1)

/-- SB_ALERT: the causes that hold `ALERT_N` low. -/
def execSbAlert (s : State) : Out :=
  .next (smbRead s 7 false (leBytes 1 (ofBit (hotStep s) + ofBit s.power.overAlert * 2 + ofBit s.power.bladeAlert * 4)))

/-! ### UART (R643) -/

/-- UART_RX: a character received is discarded. -/
def execUartRx (_ch : Byte) (s : State) : Out := .next s

end Sys2Proof.Machine
end

