-- ==== Sys2Proof/Machine/WickSys.lean ====
section
/-!
DEFINITION. Timer, module time, CSRs and system instructions of the Wick cores (R180, R197 to R200, R202, R207, R208).
-/
namespace Sys2Proof.Machine
open Sys2Proof

/-- TRD (R188). -/
def execTrd (t : TileId) (c : CoreIx) (gd : GReg) (s : State) : Out :=
  .next (wkIssue s t.val c.val [gd.val, gd.val + 1] fun w =>
    if pairOk gd then .ok (wrPair gd ((wkTcnt s t.val w).setWidth 64) false false) none else wkIllegal gd.val)

/-- TSET (R197). -/
def execTset (t : TileId) (c : CoreIx) (gs1 : GReg) (s : State) : Out :=
  .next (wkIssue s t.val c.val [gs1.val] fun w =>
    let a := wkReg w gs1.val
    if a.poi then wkPoisonUse a else .ok [.tset a.v.toNat] none)

/-- TWAIT (R197): stalls until `TPAST` is 1. -/
def execTwait (t : TileId) (c : CoreIx) (s : State) : Out :=
  .next (wkIssue s t.val c.val [] fun w => if w.tpast then .ok [] none else .stall stInput none)

/-- TCHK (R197). -/
def execTchk (t : TileId) (c : CoreIx) (gd : GReg) (s : State) : Out :=
  .next (wkIssue s t.val c.val [gd.val] fun w => wrReg gd ⟨BitVec.ofNat 32 (ofBit w.tpast), false, false⟩)

/-- TIMER_DEADLINE_REACHED (R197): `TCNT` comes to equal `TDL` and the core sets `TPAST`. Time moves on to that cycle;
the timer of a frozen region stands still (R325). -/
def execTimerDeadlineReached (t : TileId) (c : CoreIx) (s : State) : Out :=
  let w := getWick s t.val c.val
  if w.tpast || (regionAt s t.val).frozenAt.isSome then .next s
  else
    let left := (w.tdl - wkTcnt s t.val w).toNat
    let s := if left < 2 ^ 32 then reachCycle s t.val (cyclesOf s t.val + left) else s
    let f (x : Wick) : Wick := { x with tpast := true }
    let s := modWick s t.val c.val f
    .next (if wkEvenLocked w c.val then modWick s t.val (c.val + 1) f else s)

/-- The module-time counter of a tile in ns (R198): it lies on its line to within what R199 allows, ±4 ns with module time locked
(assumption 129), and never below a value already read. -/
def tileTime (s : State) (t : Nat) : Nat :=
  let d := Config.tileDev t s.time.ticks
  let d := if s.tc.lock then max (-4) (min 4 d) else d
  max (getTile s t).mtLast (tileLine s t + d).toNat

/-- MTIME (R200). -/
def execMtime (t : TileId) (c : CoreIx) (gd : GReg) (s : State) : Out :=
  .next (wkIssue s t.val c.val [gd.val, gd.val + 1] fun _ =>
    if pairOk gd then
      .ok (wrPair gd (BitVec.ofNat 64 (tileTime s t.val)) false false ++ [.mtime (tileTime s t.val)]) none
    else wkIllegal gd.val)

/-- The value of a CSR; a number that is not listed has none (R180, Table 6.2). -/
def csrVal (s : State) (t c : Nat) (w : Wick) (n : Nat) : Option W32 :=
  if n == 0 then some (BitVec.ofNat 32 (coreAddr t c))
  else if n == 1 then some (BitVec.ofNat 32 ((regionOf s t).getD 0))
  else if n == 2 then some (BitVec.ofNat 32 (w.fold * 16 + epochAt s t))
  else if n == 3 then some (BitVec.ofNat 32 w.ecause)
  else if n == 4 then some (BitVec.ofNat 32 w.epc)
  else if n == 5 then some w.eval
  else if n == 6 then some (BitVec.ofNat 32 (w.rlerrN * 65536 + w.rlerrO))
  else if n == 7 then some (BitVec.ofNat 32 w.tie)
  else if n == 8 then some (BitVec.ofNat 32 (wkRlto w))
  else if n == 9 then some (BitVec.ofNat 32 (wkSndto w))
  else if n == 10 then some w.instret
  else if 16 ≤ n && n < 24 then some (mget 0 w.scr (n - 16))
  else none

/-- CSRR (R180): the read-and-clear CSRs are cleared. -/
def execCsrr (t : TileId) (c : CoreIx) (gd : GReg) (csr : BitVec 12) (s : State) : Out :=
  .next (wkIssue s t.val c.val [gd.val] fun w =>
    match csrVal s t.val c.val w csr.toNat with
    | some v => .ok [.reg gd.val ⟨v, false, false⟩, .csrClear csr.toNat] none
    | none => wkIllegal csr.toNat)

/-- CSRW (R180): a field marked RO is unchanged. -/
def execCsrw (t : TileId) (c : CoreIx) (gs1 : GReg) (csr : BitVec 12) (s : State) : Out :=
  .next (wkIssue s t.val c.val [gs1.val] fun w =>
    let a := wkReg w gs1.val
    match csrVal s t.val c.val w csr.toNat with
    | some _ => if a.poi then wkPoisonUse a else .ok [.csrWrite csr.toNat a.v] none
    | none => wkIllegal csr.toNat)

/-- YIELD (R208): with a fold switch pending it is taken once every ticket and tag has resolved. -/
def execYield (t : TileId) (c : CoreIx) (s : State) : Out :=
  .next (wkIssue s t.val c.val [] fun w =>
    if w.foldReq.isNone then .ok [] none
    else if wkResolved w then .wait [.fold] else .stall stFold none)

/-- HALT (R207, R208). -/
def execWickHalt (t : TileId) (c : CoreIx) (s : State) : Out :=
  .next (wkIssue s t.val c.val [] fun w =>
    if w.foldReq.isSome && !wkResolved w then .stall stFold none else .wait [.halt])

/-- TRAP (R202): the immediate is in `EVAL`. An immediate of 0 is the encoding of HALT (Table 6.8), no TRAP. -/
def execTrap (t : TileId) (c : CoreIx) (imm : BitVec 14) (s : State) : Out :=
  if imm = 0 then execWickHalt t c s
  else .next (wkIssue s t.val c.val [] fun _ => .exc 6 (imm.setWidth 32))

end Sys2Proof.Machine
end

