-- ==== Sys2Proof/Machine/Dispatch.lean ====
section
/-!
DEFINITION. What each command does: one arm per row of the table, each a direct call of its meaning.
-/
namespace Sys2Proof.Machine
open Sys2Proof

def exec (i : Instr) (s : State) : Host.Outcome State Fault Refusal :=
  match i with
  | .powerOn => Sys2Proof.Machine.execPowerOn s
  | .startupPhaseEnd r => Sys2Proof.Machine.execStartupPhaseEnd r s
  | .inputUndervoltage rail => Sys2Proof.Machine.execInputUndervoltage rail s
  | .bladeChange ix mv10 held => Sys2Proof.Machine.execBladeChange ix mv10 held s
  | .modResetN => Sys2Proof.Machine.execModResetN s
  | .referenceClockLoss => Sys2Proof.Machine.execReferenceClockLoss s
  | .referenceClockValid => Sys2Proof.Machine.execReferenceClockValid s
  | .tamper pin => Sys2Proof.Machine.execTamper pin s
  | .tamperCleared => Sys2Proof.Machine.execTamperCleared s
  | .integerAlu t c ins => Sys2Proof.Machine.execIntegerAlu t c ins s
  | .multiplyDivide t c o gd gs1 gs2 => Sys2Proof.Machine.execMultiplyDivide t c o gd gs1 gs2 s
  | .loadStore t c o gd gs1 imm => Sys2Proof.Machine.execLoadStore t c o gd gs1 imm s
  | .ownTileLoadData t c => Sys2Proof.Machine.execOwnTileLoadData t c s
  | .branchJump t c ins => Sys2Proof.Machine.execBranchJump t c ins s
  | .scalarFloatingPoint t c ins => Sys2Proof.Machine.execScalarFloatingPoint t c ins s
  | .packedSimd t c ins => Sys2Proof.Machine.execPackedSimd t c ins s
  | .bitManipulation t c ins => Sys2Proof.Machine.execBitManipulation t c ins s
  | .crc32c t c gd gs1 gs2 w => Sys2Proof.Machine.execCrc32c t c gd gs1 gs2 w s
  | .hmix t c gd gs1 gs2 => Sys2Proof.Machine.execHmix t c gd gs1 gs2 s
  | .hfold t c gd gs1 gs2 => Sys2Proof.Machine.execHfold t c gd gs1 gs2 s
  | .pop t c gd q => Sys2Proof.Machine.execPop t c gd q s
  | .popl t c gd q => Sys2Proof.Machine.execPopl t c gd q s
  | .peek t c gd q => Sys2Proof.Machine.execPeek t c gd q s
  | .qcnt t c gd q => Sys2Proof.Machine.execQcnt t c gd q s
  | .qdrop t c gd q => Sys2Proof.Machine.execQdrop t c gd q s
  | .send t c gd gs1 gs2 n => Sys2Proof.Machine.execSend t c gd gs1 gs2 n s
  | .sendb t c gd gs1 gs2 n => Sys2Proof.Machine.execSendb t c gd gs1 gs2 n s
  | .sendbRetry t c => Sys2Proof.Machine.execSendbRetry t c s
  | .sendbDeadline t c => Sys2Proof.Machine.execSendbDeadline t c s
  | .sendbReplyLost t c => Sys2Proof.Machine.execSendbReplyLost t c s
  | .recv t c gd gs1 mask rot => Sys2Proof.Machine.execRecv t c gd gs1 mask rot s
  | .recvTimeout t c => Sys2Proof.Machine.execRecvTimeout t c s
  | .dsend t c gd gs1 gs2 => Sys2Proof.Machine.execDsend t c gd gs1 gs2 s
  | .tkwt t c gd gs1 => Sys2Proof.Machine.execTkwt t c gd gs1 s
  | .tkst t c gd gs1 => Sys2Proof.Machine.execTkst t c gd gs1 s
  | .wickFence t c => Sys2Proof.Machine.execWickFence t c s
  | .ldr t c gd gs1 gs2 => Sys2Proof.Machine.execLdr t c gd gs1 gs2 s
  | .str t c gd gs1 gs2 => Sys2Proof.Machine.execStr t c gd gs1 gs2 s
  | .trd t c gd => Sys2Proof.Machine.execTrd t c gd s
  | .tset t c gs1 => Sys2Proof.Machine.execTset t c gs1 s
  | .twait t c => Sys2Proof.Machine.execTwait t c s
  | .tchk t c gd => Sys2Proof.Machine.execTchk t c gd s
  | .mtime t c gd => Sys2Proof.Machine.execMtime t c gd s
  | .csrr t c gd csr => Sys2Proof.Machine.execCsrr t c gd csr s
  | .csrw t c gs1 csr => Sys2Proof.Machine.execCsrw t c gs1 csr s
  | .yield t c => Sys2Proof.Machine.execYield t c s
  | .wickHalt t c => Sys2Proof.Machine.execWickHalt t c s
  | .trap t c imm => Sys2Proof.Machine.execTrap t c imm s
  | .timerDeadlineReached t c => Sys2Proof.Machine.execTimerDeadlineReached t c s
  | .remoteAccessTimeout t c tag => Sys2Proof.Machine.execRemoteAccessTimeout t c tag s
  | .rrsp pid => Sys2Proof.Machine.execRrsp pid s
  | .racc pid => Sys2Proof.Machine.execRacc pid s
  | .reply pid => Sys2Proof.Machine.execReply pid s
  | .ticketTimeout t c tk => Sys2Proof.Machine.execTicketTimeout t c tk s
  | .probe pid => Sys2Proof.Machine.execProbe pid s
  | .msg pid => Sys2Proof.Machine.execMsg pid s
  | .msgb pid => Sys2Proof.Machine.execMsgb pid s
  | .desc pid => Sys2Proof.Machine.execDesc pid s
  | .descriptorRecordWritten t m => Sys2Proof.Machine.execDescriptorRecordWritten t m s
  | .matmul t k fl ep => Sys2Proof.Machine.execMatmul t k fl ep s
  | .vector t k sh ep => Sys2Proof.Machine.execVector t k sh ep s
  | .loadw t k => Sys2Proof.Machine.execLoadw t k s
  | .loadx t k => Sys2Proof.Machine.execLoadx t k s
  | .uopHalt t k => Sys2Proof.Machine.execUopHalt t k s
  | .cuContextStart t k => Sys2Proof.Machine.execCuContextStart t k s
  | .microOpIssue t k => Sys2Proof.Machine.execMicroOpIssue t k s
  | .outputTokenSend t u => Sys2Proof.Machine.execOutputTokenSend t u s
  | .maskDeadline t k => Sys2Proof.Machine.execMaskDeadline t k s
  | .steeringFire t k shadow ep => Sys2Proof.Machine.execSteeringFire t k shadow ep s
  | .generatorStart t m p cu => Sys2Proof.Machine.execGeneratorStart t m p cu s
  | .affineBeat t m g => Sys2Proof.Machine.execAffineBeat t m g s
  | .indirectAccess t m g => Sys2Proof.Machine.execIndirectAccess t m g s
  | .gatherPiece t m g => Sys2Proof.Machine.execGatherPiece t m g s
  | .treeWalkNode t m g => Sys2Proof.Machine.execTreeWalkNode t m g s
  | .ringProduce t m p => Sys2Proof.Machine.execRingProduce t m p s
  | .ringConsume t m p => Sys2Proof.Machine.execRingConsume t m p s
  | .copyOutGranule t m => Sys2Proof.Machine.execCopyOutGranule t m s
  | .snapshotShadowWait t m g => Sys2Proof.Machine.execSnapshotShadowWait t m g s
  | .shadowFoldBack t m => Sys2Proof.Machine.execShadowFoldBack t m s
  | .sramScrub t u => Sys2Proof.Machine.execSramScrub t u s
  | .tokd pid => Sys2Proof.Machine.execTokd pid s
  | .tokc pid => Sys2Proof.Machine.execTokc pid s
  | .cret pid => Sys2Proof.Machine.execCret pid s
  | .queueRelease t u q => Sys2Proof.Machine.execQueueRelease t u q s
  | .ackStreamResend t u o => Sys2Proof.Machine.execAckStreamResend t u o s
  | .foldSwitchRequest t u => Sys2Proof.Machine.execFoldSwitchRequest t u s
  | .foldSwitch t u => Sys2Proof.Machine.execFoldSwitch t u s
  | .spillReinjection t u => Sys2Proof.Machine.execSpillReinjection t u s
  | .drainEvaluation r => Sys2Proof.Machine.execDrainEvaluation r s
  | .drainTimeout r => Sys2Proof.Machine.execDrainTimeout r s
  | .quiesceDeadline tag => Sys2Proof.Machine.execQuiesceDeadline tag s
  | .watchdogWindow r => Sys2Proof.Machine.execWatchdogWindow r s
  | .regionLoad r => Sys2Proof.Machine.execRegionLoad r s
  | .regionStart r => Sys2Proof.Machine.execRegionStart r s
  | .regionStop r => Sys2Proof.Machine.execRegionStop r s
  | .regionDrain r => Sys2Proof.Machine.execRegionDrain r s
  | .regionRestart r => Sys2Proof.Machine.execRegionRestart r s
  | .regionStep r => Sys2Proof.Machine.execRegionStep r s
  | .phase r => Sys2Proof.Machine.execPhase r s
  | .phaseComplete r => Sys2Proof.Machine.execPhaseComplete r s
  | .packetHop pid => Sys2Proof.Machine.execPacketHop pid s
  | .linkRetry t port ctl => Sys2Proof.Machine.execLinkRetry t port ctl s
  | .linkRetrain t port ctl => Sys2Proof.Machine.execLinkRetrain t port ctl s
  | .linkRetrainDone t port ctl bad => Sys2Proof.Machine.execLinkRetrainDone t port ctl bad s
  | .groupPacket pid => Sys2Proof.Machine.execGroupPacket pid s
  | .red pid => Sys2Proof.Machine.execRed pid s
  | .cwaitExpiry t ix => Sys2Proof.Machine.execCwaitExpiry t ix s
  | .rect pid => Sys2Proof.Machine.execRect pid s
  | .meshDomainDown f => Sys2Proof.Machine.execMeshDomainDown f s
  | .liveTableChange => Sys2Proof.Machine.execLiveTableChange s
  | .tableChangeIdle => Sys2Proof.Machine.execTableChangeIdle s
  | .tableChangeDeadline => Sys2Proof.Machine.execTableChangeDeadline s
  | .waveSend => Sys2Proof.Machine.execWaveSend s
  | .timeMarkSchedule => Sys2Proof.Machine.execTimeMarkSchedule s
  | .snapshot alt miss quiet late => Sys2Proof.Machine.execSnapshot alt miss quiet late s
  | .commit alt miss quiet late => Sys2Proof.Machine.execCommit alt miss quiet late s
  | .abort alt miss quiet late => Sys2Proof.Machine.execAbort alt miss quiet late s
  | .freezeWave alt miss quiet late => Sys2Proof.Machine.execFreezeWave alt miss quiet late s
  | .timeMark alt miss quiet late => Sys2Proof.Machine.execTimeMark alt miss quiet late s
  | .waveReportMissing => Sys2Proof.Machine.execWaveReportMissing s
  | .commandFetch e words => Sys2Proof.Machine.execCommandFetch e words s
  | .cmdNop e => Sys2Proof.Machine.execCmdNop e s
  | .copy e => Sys2Proof.Machine.execCopy e s
  | .copyPageComplete cmd ix => Sys2Proof.Machine.execCopyPageComplete cmd ix s
  | .decryptChunk cmd ix => Sys2Proof.Machine.execDecryptChunk cmd ix s
  | .portCfg d => Sys2Proof.Machine.execPortCfg d s
  | .instPut d => Sys2Proof.Machine.execInstPut d s
  | .instDel d => Sys2Proof.Machine.execInstDel d s
  | .tmplWr d => Sys2Proof.Machine.execTmplWr d s
  | .guardWr d => Sys2Proof.Machine.execGuardWr d s
  | .parseWr d => Sys2Proof.Machine.execParseWr d s
  | .replayCfg d => Sys2Proof.Machine.execReplayCfg d s
  | .wgxSess d => Sys2Proof.Machine.execWgxSess d s
  | .wgxPush d => Sys2Proof.Machine.execWgxPush d s
  | .wgxPull d => Sys2Proof.Machine.execWgxPull d s
  | .txnBegin => Sys2Proof.Machine.execTxnBegin s
  | .txnCommit => Sys2Proof.Machine.execTxnCommit s
  | .txnAbort => Sys2Proof.Machine.execTxnAbort s
  | .stageWr => Sys2Proof.Machine.execStageWr s
  | .memberStaged e => Sys2Proof.Machine.execMemberStaged e s
  | .transactionDeadline tag => Sys2Proof.Machine.execTransactionDeadline tag s
  | .ctrRead => Sys2Proof.Machine.execCtrRead s
  | .histRead => Sys2Proof.Machine.execHistRead s
  | .snapNow => Sys2Proof.Machine.execSnapNow s
  | .lhistRead => Sys2Proof.Machine.execLhistRead s
  | .traceSet => Sys2Proof.Machine.execTraceSet s
  | .traceStop => Sys2Proof.Machine.execTraceStop s
  | .freeze => Sys2Proof.Machine.execFreeze s
  | .frameReceived d p data fcsOk dts => Sys2Proof.Machine.execFrameReceived d p data fcsOk dts s
  | .ptpFrame d p data => Sys2Proof.Machine.execPtpFrame d p data s
  | .parseNop d l => Sys2Proof.Machine.execParseNop d l s
  | .parseSetc d l => Sys2Proof.Machine.execParseSetc d l s
  | .parseLd d l => Sys2Proof.Machine.execParseLd d l s
  | .parseLdl d l => Sys2Proof.Machine.execParseLdl d l s
  | .parseLdi d l => Sys2Proof.Machine.execParseLdi d l s
  | .parseLui d l => Sys2Proof.Machine.execParseLui d l s
  | .parseAdd d l => Sys2Proof.Machine.execParseAdd d l s
  | .parseAddi d l => Sys2Proof.Machine.execParseAddi d l s
  | .parseAndi d l => Sys2Proof.Machine.execParseAndi d l s
  | .parseShri d l => Sys2Proof.Machine.execParseShri d l s
  | .parseAdv d l => Sys2Proof.Machine.execParseAdv d l s
  | .parseBr d l => Sys2Proof.Machine.execParseBr d l s
  | .parseJmp d l => Sys2Proof.Machine.execParseJmp d l s
  | .parseKey d l => Sys2Proof.Machine.execParseKey d l s
  | .parseKeyv d l => Sys2Proof.Machine.execParseKeyv d l s
  | .parseExt d l => Sys2Proof.Machine.execParseExt d l s
  | .parseFsq d l => Sys2Proof.Machine.execParseFsq d l s
  | .parseEmit d l => Sys2Proof.Machine.execParseEmit d l s
  | .parseDone d l => Sys2Proof.Machine.execParseDone d l s
  | .parseDrop d l => Sys2Proof.Machine.execParseDrop d l s
  | .frameEnd d n => Sys2Proof.Machine.execFrameEnd d n s
  | .eventSend d k => Sys2Proof.Machine.execEventSend d k s
  | .pendingIndexTimeout d n => Sys2Proof.Machine.execPendingIndexTimeout d n s
  | .eventReplyTimeout d n => Sys2Proof.Machine.execEventReplyTimeout d n s
  | .replayRecordWrite d journal => Sys2Proof.Machine.execReplayRecordWrite d journal s
  | .response pid => Sys2Proof.Machine.execResponse pid s
  | .macGrant d p dts => Sys2Proof.Machine.execMacGrant d p dts s
  | .frameTransmitted d p => Sys2Proof.Machine.execFrameTransmitted d p s
  | .snuffN low held => Sys2Proof.Machine.execSnuffN low held s
  | .cdSnfWrite p v => Sys2Proof.Machine.execCdSnfWrite p v s
  | .portLinkChange d p up => Sys2Proof.Machine.execPortLinkChange d p up s
  | .replaySend d g => Sys2Proof.Machine.execReplaySend d g s
  | .wgxData d p f => Sys2Proof.Machine.execWgxData d p f s
  | .wgxAck d p f => Sys2Proof.Machine.execWgxAck d p f s
  | .wgxPullFrame d p f => Sys2Proof.Machine.execWgxPullFrame d p f s
  | .wgxRst d p f => Sys2Proof.Machine.execWgxRst d p f s
  | .wgxFrameSend d ix => Sys2Proof.Machine.execWgxFrameSend d ix s
  | .wgxRtoExpiry d ix seq => Sys2Proof.Machine.execWgxRtoExpiry d ix seq s
  | .wgxAckTimer d ix => Sys2Proof.Machine.execWgxAckTimer d ix s
  | .mwr pid => Sys2Proof.Machine.execMwr pid s
  | .mrd pid => Sys2Proof.Machine.execMrd pid s
  | .msdServiceStart m => Sys2Proof.Machine.execMsdServiceStart m s
  | .hbmPatrolScrub m => Sys2Proof.Machine.execHbmPatrolScrub m s
  | .resilverPage m => Sys2Proof.Machine.execResilverPage m s
  | .satelliteDieReset d => Sys2Proof.Machine.execSatelliteDieReset d s
  | .satelliteRetrainDone d => Sys2Proof.Machine.execSatelliteRetrainDone d s
  | .brobryFlit d p dir slots ok => Sys2Proof.Machine.execBrobryFlit d p dir slots ok s
  | .brobryNak d p dir oks => Sys2Proof.Machine.execBrobryNak d p dir oks s
  | .brobryReplayTimeout d p dir oks => Sys2Proof.Machine.execBrobryReplayTimeout d p dir oks s
  | .attachPortRetrain d p => Sys2Proof.Machine.execAttachPortRetrain d p s
  | .waveFrame d p ok => Sys2Proof.Machine.execWaveFrame d p ok s
  | .snuffFrame d => Sys2Proof.Machine.execSnuffFrame d s
  | .sbackFrame d p dir ok => Sys2Proof.Machine.execSbackFrame d p dir ok s
  | .creditFrame d p dir v ok => Sys2Proof.Machine.execCreditFrame d p dir v ok s
  | .trainFrame d p dir w ok => Sys2Proof.Machine.execTrainFrame d p dir w ok s
  | .keyFrame d p slot piece ok => Sys2Proof.Machine.execKeyFrame d p slot piece ok s
  | .mgmtFrame d p dir bs ok => Sys2Proof.Machine.execMgmtFrame d p dir bs ok s
  | .stateFrame d p rep ok => Sys2Proof.Machine.execStateFrame d p rep ok s
  | .sidebandRepeatTimeout d p dir oks => Sys2Proof.Machine.execSidebandRepeatTimeout d p dir oks s
  | .dieTraining d bad => Sys2Proof.Machine.execDieTraining d bad s
  | .semTake p both => Sys2Proof.Machine.execSemTake p both s
  | .semHb p v => Sys2Proof.Machine.execSemHb p v s
  | .semRel p v => Sys2Proof.Machine.execSemRel p v s
  | .semaphoreLeaseEnd => Sys2Proof.Machine.execSemaphoreLeaseEnd s
  | .mrst p => Sys2Proof.Machine.execMrst p s
  | .ringCfg p e v => Sys2Proof.Machine.execRingCfg p e v s
  | .ringDb p e tail => Sys2Proof.Machine.execRingDb p e tail s
  | .cplHead p e v => Sys2Proof.Machine.execCplHead p e v s
  | .completionInterruptDelay p e => Sys2Proof.Machine.execCompletionInterruptDelay p e s
  | .intCause p v => Sys2Proof.Machine.execIntCause p v s
  | .intMask p v => Sys2Proof.Machine.execIntMask p v s
  | .msixMaskChange p en fm vec => Sys2Proof.Machine.execMsixMaskChange p en fm vec s
  | .timeNs p h => Sys2Proof.Machine.execTimeNs p h s
  | .bar0AccessSize p write => Sys2Proof.Machine.execBar0AccessSize p write s
  | .registerWrite p r => Sys2Proof.Machine.execRegisterWrite p r s
  | .flr p => Sys2Proof.Machine.execFlr p s
  | .perstN p pin => Sys2Proof.Machine.execPerstN p pin s
  | .mbhPost p w => Sys2Proof.Machine.execMbhPost p w s
  | .mailboxRequestCheck p => Sys2Proof.Machine.execMailboxRequestCheck p s
  | .mailboxReply => Sys2Proof.Machine.execMailboxReply s
  | .mbmAck p aseq => Sys2Proof.Machine.execMbmAck p aseq s
  | .mailboxReplyDeadline p => Sys2Proof.Machine.execMailboxReplyDeadline p s
  | .mbNop => Sys2Proof.Machine.execMbNop s
  | .mbVersion => Sys2Proof.Machine.execMbVersion s
  | .mbState => Sys2Proof.Machine.execMbState s
  | .mbInventory => Sys2Proof.Machine.execMbInventory s
  | .mbBirthRead => Sys2Proof.Machine.execMbBirthRead s
  | .mbMemmapRead => Sys2Proof.Machine.execMbMemmapRead s
  | .mbMemmapSet => Sys2Proof.Machine.execMbMemmapSet s
  | .mbIncringSet => Sys2Proof.Machine.execMbIncringSet s
  | .mbFence => Sys2Proof.Machine.execMbFence s
  | .mbUnfence => Sys2Proof.Machine.execMbUnfence s
  | .mbSnapSet => Sys2Proof.Machine.execMbSnapSet s
  | .mbSnapRead => Sys2Proof.Machine.execMbSnapRead s
  | .mbPcapSet flash => Sys2Proof.Machine.execMbPcapSet flash s
  | .mbPowerRead => Sys2Proof.Machine.execMbPowerRead s
  | .mbOpmaskSet flash => Sys2Proof.Machine.execMbOpmaskSet flash s
  | .mbPilotEnter => Sys2Proof.Machine.execMbPilotEnter s
  | .mbPilotWake => Sys2Proof.Machine.execMbPilotWake s
  | .wakeStep fields msds => Sys2Proof.Machine.execWakeStep fields msds s
  | .mbClkStatus => Sys2Proof.Machine.execMbClkStatus s
  | .mbFreqMeas => Sys2Proof.Machine.execMbFreqMeas s
  | .mbTsrcSet flash => Sys2Proof.Machine.execMbTsrcSet flash s
  | .mbSnuffEng => Sys2Proof.Machine.execMbSnuffEng s
  | .mbSnuffRel => Sys2Proof.Machine.execMbSnuffRel s
  | .mbSetRead => Sys2Proof.Machine.execMbSetRead s
  | .mbSetWrite flash => Sys2Proof.Machine.execMbSetWrite flash s
  | .mbSetDefault flash => Sys2Proof.Machine.execMbSetDefault flash s
  | .mbUpdStage => Sys2Proof.Machine.execMbUpdStage s
  | .mbUpdActivate => Sys2Proof.Machine.execMbUpdActivate s
  | .activationReset => Sys2Proof.Machine.execActivationReset s
  | .mbUpdConfirm => Sys2Proof.Machine.execMbUpdConfirm s
  | .mbUpdStatus => Sys2Proof.Machine.execMbUpdStatus s
  | .healthDeadline => Sys2Proof.Machine.execHealthDeadline s
  | .secStatus => Sys2Proof.Machine.execSecStatus s
  | .secPubkeys => Sys2Proof.Machine.execSecPubkeys s
  | .secAttest => Sys2Proof.Machine.execSecAttest s
  | .secKeyImport => Sys2Proof.Machine.execSecKeyImport s
  | .secKeyClear => Sys2Proof.Machine.execSecKeyClear s
  | .secKeyList => Sys2Proof.Machine.execSecKeyList s
  | .secRandom => Sys2Proof.Machine.execSecRandom s
  | .secSelftest => Sys2Proof.Machine.execSecSelftest s
  | .secDbgChal => Sys2Proof.Machine.execSecDbgChal s
  | .secDbgUnlock => Sys2Proof.Machine.execSecDbgUnlock s
  | .secDbgLock => Sys2Proof.Machine.execSecDbgLock s
  | .secAuditRead => Sys2Proof.Machine.execSecAuditRead s
  | .secRootRevoke => Sys2Proof.Machine.execSecRootRevoke s
  | .entropyTestFailure adaptive => Sys2Proof.Machine.execEntropyTestFailure adaptive s
  | .incidentAccept => Sys2Proof.Machine.execIncidentAccept s
  | .coalescingWindowEnd => Sys2Proof.Machine.execCoalescingWindowEnd s
  | .tileHealthProbe cd md silent => Sys2Proof.Machine.execTileHealthProbe cd md silent s
  | .periodicSnapshot => Sys2Proof.Machine.execPeriodicSnapshot s
  | .recoveryStart => Sys2Proof.Machine.execRecoveryStart s
  | .spareTestDone good => Sys2Proof.Machine.execSpareTestDone good s
  | .replayCaughtUp g => Sys2Proof.Machine.execReplayCaughtUp g s
  | .bladeMeasurement vs => Sys2Proof.Machine.execBladeMeasurement vs s
  | .fastHalvingRecheck => Sys2Proof.Machine.execFastHalvingRecheck s
  | .powerLoopStep e => Sys2Proof.Machine.execPowerLoopStep e s
  | .issueBudgetCycle f => Sys2Proof.Machine.execIssueBudgetCycle f s
  | .opChangeStep f => Sys2Proof.Machine.execOpChangeStep f s
  | .taperStep f => Sys2Proof.Machine.execTaperStep f s
  | .droopDetected t => Sys2Proof.Machine.execDroopDetected t s
  | .droopRecovered t => Sys2Proof.Machine.execDroopRecovered t s
  | .fieldPllUnlock f b => Sys2Proof.Machine.execFieldPllUnlock f b s
  | .standbyPllTimeout f => Sys2Proof.Machine.execStandbyPllTimeout f s
  | .thermalSensorRead x => Sys2Proof.Machine.execThermalSensorRead x s
  | .heatBudgetStep f => Sys2Proof.Machine.execHeatBudgetStep f s
  | .heatResume r => Sys2Proof.Machine.execHeatResume r s
  | .servoMeasurement o => Sys2Proof.Machine.execServoMeasurement o s
  | .ppsIn => Sys2Proof.Machine.execPpsIn s
  | .timeSourceTimeout => Sys2Proof.Machine.execTimeSourceTimeout s
  | .tapBypass d => Sys2Proof.Machine.execTapBypass d s
  | .tapIdcode d => Sys2Proof.Machine.execTapIdcode d s
  | .tapSample d pins preload => Sys2Proof.Machine.execTapSample d pins preload s
  | .tapExtest d pins next => Sys2Proof.Machine.execTapExtest d pins next s
  | .tapJsel v => Sys2Proof.Machine.execTapJsel v s
  | .tapLbnear d v => Sys2Proof.Machine.execTapLbnear d v s
  | .tapLbfar d v => Sys2Proof.Machine.execTapLbfar d v s
  | .tapPrbscfg d v => Sys2Proof.Machine.execTapPrbscfg d v s
  | .tapPrbsrd d errs bits => Sys2Proof.Machine.execTapPrbsrd d errs bits s
  | .tapBbstat d => Sys2Proof.Machine.execTapBbstat d s
  | .sbId => Sys2Proof.Machine.execSbId s
  | .sbState => Sys2Proof.Machine.execSbState s
  | .sbPin => Sys2Proof.Machine.execSbPin s
  | .sbVmin => Sys2Proof.Machine.execSbVmin s
  | .sbIblade => Sys2Proof.Machine.execSbIblade s
  | .sbTmax => Sys2Proof.Machine.execSbTmax s
  | .sbTcool => Sys2Proof.Machine.execSbTcool s
  | .sbAlert => Sys2Proof.Machine.execSbAlert s
  | .uartRx ch => Sys2Proof.Machine.execUartRx ch s
  | .pilotEntryStep => Sys2Proof.Machine.execPilotEntryStep s
  | .frequencyMeterGateClose m count => Sys2Proof.Machine.execFrequencyMeterGateClose m count s
  | .updateStagingComplete flash => Sys2Proof.Machine.execUpdateStagingComplete flash s
  | .hostPortResetEnd p => Sys2Proof.Machine.execHostPortResetEnd p s
  | .configurationRequest p q => Sys2Proof.Machine.execConfigurationRequest p q s
  | .rcRegisterRead r => Sys2Proof.Machine.execRcRegisterRead r s
  | .hostReadCompletion p what res => Sys2Proof.Machine.execHostReadCompletion p what res s
  | .attachPortRetrainDone d p bad => Sys2Proof.Machine.execAttachPortRetrainDone d p bad s
  | .clockInputValidityChange ix valid => Sys2Proof.Machine.execClockInputValidityChange ix valid s
  | .moduleResetRelease => Sys2Proof.Machine.execModuleResetRelease s

end Sys2Proof.Machine
end

