-- ==== Sys2Proof/Machine/Idle.lean ====
section
/-!
DEFINITION. What the block does while no command waits (assumption 1).
-/
namespace Sys2Proof.Machine
open Sys2Proof

/-- One period of REFCLK_MOD passes (1.5): 6.4 ns of module time, and the cycles of every field's clock. -/
def idleTick (s : State) : State := advance s 1

end Sys2Proof.Machine
end

