-- ==== Sys2Proof/WellFormed.lean ====
section
/-!
DEFINITION. Which commands the outside can send: what the types of the operands do not already say about them.
-/
namespace Sys2Proof

/-- A bit field begins inside the register and holds 1 to 32 bits (Table 6.6). -/
def bitWf : BitIns → Bool
  | .extract _ _ pos len => decide (pos < 32) && decide (1 ≤ len) && decide (len ≤ 32)
  | .insert _ _ pos len => decide (pos < 32) && decide (1 ≤ len) && decide (len ≤ 32)
  | .clz _ _ | .ctz _ _ | .popc _ _ | .bswap _ _ | .rotl _ _ _ | .rotr _ _ _ => true

/-- A 64-bit register of BAR0 with a writable field (Tables 13.2, 13.3): a ring or completion base, `MBH_HDR`, the request payload, the MSI-X
table. -/
def bar0Wide (k : Nat) : Bool :=
  decide (0x200 ≤ k) && decide (k < 0x478) && (k % 8 == 0 || k % 8 == 4) || k == 0x800 || decide (0x802 ≤ k) && decide (k < 0xA00) ||
    decide (0x1000 ≤ k) && decide (k < 0x1800)

/-- A 32-bit register of BAR0 at 8 × `k` with a writable field. -/
def bar0Narrow (k : Nat) : Bool :=
  decide (0x200 ≤ k) && decide (k < 0x478) && [1, 2, 5, 6].contains (k % 8) || [3, 4, 0x21, 0x22, 0x40, 0x41, 0x801, 0xA01].contains k

/-- A write of the request area stays inside its 4,080 bytes (R469); a `fixed` one touches no field that can be written. -/
def regWf : RegW → Bool
  | .request ofs bs => decide (1 ≤ bs.length) && decide (ofs.val + bs.length ≤ 4080)
  | .fixed k h _ => !bar0Wide k.val && (decide (h = .high) || !bar0Narrow k.val)
  | .ringBase _ _ _ | .cplBase _ _ _ | .cplCfg _ _ | .mbhHdr _ _ | .msixAddr _ _ _ | .msixData _ _ => true

/-- Data comes back in bytes; a read that fails brings none. -/
def resWf : HostRes → Bool
  | .data bs => decide (1 ≤ bs.length)
  | .poisoned bs => decide (1 ≤ bs.length)
  | .failed => true

/-- A tile finds the copies of a wave unlike, misses it, or does not report, at most once each; a tile that misses it is not among those that
take a copy (R326, R327). -/
def waveWf (alt : List (TileId × Bool)) (miss quiet : List TileId) (late : List (Fin 32)) : Bool :=
  decide (alt.map (·.1)).Nodup && decide miss.Nodup && decide quiet.Nodup && decide late.Nodup && miss.all fun t => !(alt.map (·.1)).contains t

/-- A word that a core meets as not listed spells no instruction that the spec lists bit for bit (R187, R188). -/
def aluWf : AluIns → Bool
  | .unlisted w => mayBeUnlisted w
  | .op _ _ _ _ | .lui _ _ => true

/-- The command is one that the outside can send. -/
def Instr.wf : Instr → Bool
  | .bladeChange _ mv10 _ => decide (mv10 < 65536)
  | .integerAlu _ _ ins => aluWf ins
  | .bitManipulation _ _ ins => bitWf ins
  | .matmul _ _ fl _ => fl.flips.all fun e => decide (e.2.1 ≤ 32) && decide (e.2.2 < 96)
  | .quiesceDeadline tag => decide (tag < 4096)
  | .linkRetrainDone _ _ ctl bad => bad.all fun e => decide (e.1 < if ctl then 4 else 32) && decide (e.2 < 32)
  | .snapshot alt miss quiet late => waveWf alt miss quiet late
  | .commit alt miss quiet late => waveWf alt miss quiet late
  | .abort alt miss quiet late => waveWf alt miss quiet late
  | .freezeWave alt miss quiet late => waveWf alt miss quiet late
  | .timeMark alt miss quiet late => waveWf alt miss quiet late
  | .commandFetch _ words => decide (8 ≤ words.length) && decide (words.length % 8 = 0) && decide (words.length ≤ 128)
  | .frameReceived _ _ data _ dts => decide (1 ≤ data.length) && decide (0 ≤ dts)
  | .ptpFrame _ _ data => decide (1 ≤ data.length)
  | .macGrant _ _ dts => decide (0 ≤ dts)
  | .mgmtFrame _ _ _ bs _ => decide (bs.length ≤ 16)
  | .registerWrite _ r => regWf r
  | .wakeStep fields msds => decide fields.Nodup && decide msds.Nodup
  | .bladeMeasurement vs => decide (vs.length = 8)
  | .powerLoopStep e => decide (e.pest.length = 100) && decide (e.full.length = 100) && e.full.all fun l => decide (l.length = 4)
  | .tapSample _ pins preload => decide (pins.length = preload.length)
  | .tapExtest _ pins next => decide (pins.length = next.length)
  | .hostReadCompletion _ _ res => resWf res
  | .powerOn | .startupPhaseEnd _ | .inputUndervoltage _ | .modResetN | .referenceClockLoss | .referenceClockValid | .tamper _ | .tamperCleared
  | .multiplyDivide _ _ _ _ _ _ | .loadStore _ _ _ _ _ _ | .ownTileLoadData _ _ | .branchJump _ _ _
  | .scalarFloatingPoint _ _ _ | .packedSimd _ _ _ | .crc32c _ _ _ _ _ _ | .hmix _ _ _ _ _ | .hfold _ _ _ _ _ | .pop _ _ _ _ | .popl _ _ _ _
  | .peek _ _ _ _ | .qcnt _ _ _ _ | .qdrop _ _ _ _ | .send _ _ _ _ _ _ | .sendb _ _ _ _ _ _ | .sendbRetry _ _ | .sendbDeadline _ _
  | .sendbReplyLost _ _ | .recv _ _ _ _ _ _ | .recvTimeout _ _ | .dsend _ _ _ _ _ | .tkwt _ _ _ _ | .tkst _ _ _ _ | .wickFence _ _
  | .ldr _ _ _ _ _ | .str _ _ _ _ _ | .trd _ _ _ | .tset _ _ _ | .twait _ _ | .tchk _ _ _ | .mtime _ _ _ | .csrr _ _ _ _ | .csrw _ _ _ _
  | .yield _ _ | .wickHalt _ _ | .trap _ _ _ | .timerDeadlineReached _ _ | .remoteAccessTimeout _ _ _ | .rrsp _ | .racc _ | .reply _
  | .ticketTimeout _ _ _ | .probe _ | .msg _ | .msgb _ | .desc _ | .descriptorRecordWritten _ _ | .vector _ _ _ _ | .loadw _ _ | .loadx _ _
  | .uopHalt _ _ | .cuContextStart _ _ | .microOpIssue _ _ | .outputTokenSend _ _ | .maskDeadline _ _ | .steeringFire _ _ _ _
  | .generatorStart _ _ _ _ | .affineBeat _ _ _ | .indirectAccess _ _ _ | .gatherPiece _ _ _ | .treeWalkNode _ _ _ | .ringProduce _ _ _
  | .ringConsume _ _ _ | .copyOutGranule _ _ | .snapshotShadowWait _ _ _ | .shadowFoldBack _ _ | .sramScrub _ _ | .tokd _ | .tokc _ | .cret _
  | .queueRelease _ _ _ | .ackStreamResend _ _ _ | .foldSwitchRequest _ _ | .foldSwitch _ _ | .spillReinjection _ _ | .drainEvaluation _
  | .drainTimeout _ | .watchdogWindow _ | .regionLoad _ | .regionStart _ | .regionStop _ | .regionDrain _ | .regionRestart _ | .regionStep _
  | .phase _ | .phaseComplete _ | .packetHop _ | .linkRetry _ _ _ | .linkRetrain _ _ _ | .groupPacket _ | .red _ | .cwaitExpiry _ _ | .rect _
  | .meshDomainDown _ | .liveTableChange | .tableChangeIdle | .tableChangeDeadline | .waveSend | .timeMarkSchedule | .waveReportMissing
  | .cmdNop _ | .copy _ | .copyPageComplete _ _ | .decryptChunk _ _ | .portCfg _ | .instPut _ | .instDel _ | .tmplWr _ | .guardWr _
  | .parseWr _ | .replayCfg _ | .wgxSess _ | .wgxPush _ | .wgxPull _ | .txnBegin | .txnCommit | .txnAbort | .stageWr | .memberStaged _
  | .transactionDeadline _ | .ctrRead | .histRead | .snapNow | .lhistRead | .traceSet | .traceStop | .freeze | .parseNop _ _ | .parseSetc _ _
  | .parseLd _ _ | .parseLdl _ _ | .parseLdi _ _ | .parseLui _ _ | .parseAdd _ _ | .parseAddi _ _ | .parseAndi _ _ | .parseShri _ _
  | .parseAdv _ _ | .parseBr _ _ | .parseJmp _ _ | .parseKey _ _ | .parseKeyv _ _ | .parseExt _ _ | .parseFsq _ _ | .parseEmit _ _
  | .parseDone _ _ | .parseDrop _ _ | .frameEnd _ _ | .eventSend _ _ | .pendingIndexTimeout _ _ | .eventReplyTimeout _ _
  | .replayRecordWrite _ _ | .response _ | .frameTransmitted _ _ | .snuffN _ _ | .cdSnfWrite _ _ | .portLinkChange _ _ _ | .replaySend _ _
  | .wgxData _ _ _ | .wgxAck _ _ _ | .wgxPullFrame _ _ _ | .wgxRst _ _ _ | .wgxFrameSend _ _ | .wgxRtoExpiry _ _ _ | .wgxAckTimer _ _ | .mwr _
  | .mrd _ | .msdServiceStart _ | .hbmPatrolScrub _ | .resilverPage _ | .satelliteDieReset _ | .satelliteRetrainDone _ | .brobryFlit _ _ _ _ _
  | .brobryNak _ _ _ _ | .brobryReplayTimeout _ _ _ _ | .attachPortRetrain _ _ | .waveFrame _ _ _ | .snuffFrame _ | .sbackFrame _ _ _ _
  | .creditFrame _ _ _ _ _ | .trainFrame _ _ _ _ _ | .keyFrame _ _ _ _ _ | .stateFrame _ _ _ _ | .sidebandRepeatTimeout _ _ _ _
  | .dieTraining _ _ | .semTake _ _ | .semHb _ _ | .semRel _ _ | .semaphoreLeaseEnd | .mrst _ | .ringCfg _ _ _ | .ringDb _ _ _ | .cplHead _ _ _
  | .completionInterruptDelay _ _ | .intCause _ _ | .intMask _ _ | .msixMaskChange _ _ _ _ | .timeNs _ _ | .bar0AccessSize _ _ | .flr _
  | .perstN _ _ | .mbhPost _ _ | .mailboxRequestCheck _ | .mailboxReply | .mbmAck _ _ | .mailboxReplyDeadline _ | .mbNop | .mbVersion
  | .mbState | .mbInventory | .mbBirthRead | .mbMemmapRead | .mbMemmapSet | .mbIncringSet | .mbFence | .mbUnfence | .mbSnapSet | .mbSnapRead
  | .mbPcapSet _ | .mbPowerRead | .mbOpmaskSet _ | .mbPilotEnter | .mbPilotWake | .mbClkStatus | .mbFreqMeas | .mbTsrcSet _ | .mbSnuffEng
  | .mbSnuffRel | .mbSetRead | .mbSetWrite _ | .mbSetDefault _ | .mbUpdStage | .mbUpdActivate | .activationReset | .mbUpdConfirm | .mbUpdStatus
  | .healthDeadline | .secStatus | .secPubkeys | .secAttest | .secKeyImport | .secKeyClear | .secKeyList | .secRandom | .secSelftest
  | .secDbgChal | .secDbgUnlock | .secDbgLock | .secAuditRead | .secRootRevoke | .entropyTestFailure _ | .incidentAccept | .coalescingWindowEnd
  | .tileHealthProbe _ _ _ | .periodicSnapshot | .recoveryStart | .spareTestDone _ | .replayCaughtUp _ | .fastHalvingRecheck
  | .issueBudgetCycle _ | .opChangeStep _ | .taperStep _ | .droopDetected _ | .droopRecovered _ | .fieldPllUnlock _ _ | .standbyPllTimeout _
  | .thermalSensorRead _ | .heatBudgetStep _ | .heatResume _ | .servoMeasurement _ | .ppsIn | .timeSourceTimeout | .tapBypass _ | .tapIdcode _
  | .tapJsel _ | .tapLbnear _ _ | .tapLbfar _ _ | .tapPrbscfg _ _ | .tapPrbsrd _ _ _ | .tapBbstat _ | .sbId | .sbState | .sbPin | .sbVmin
  | .sbIblade | .sbTmax | .sbTcool | .sbAlert | .uartRx _ | .pilotEntryStep | .frequencyMeterGateClose _ _ | .updateStagingComplete _
  | .hostPortResetEnd _ | .configurationRequest _ _ | .rcRegisterRead _ | .attachPortRetrainDone _ _ _ | .clockInputValidityChange _ _
  | .moduleResetRelease => true

end Sys2Proof
end

