-- ==== Sys2Proof/Safety.lean ====
section
/-!
DEFINITION. The words in which claims about the module are written: when a unit is free to act, what a command leaves unchanged, and the
invariants of the state.
-/
namespace Sys2Proof.Machine
open Sys2Proof

/-! ### Wick cores -/

/-- A core stands free to issue (6.3, R182, R183, R193): its context runs, no `SENDB` or `RECV` blocks it, its tile is neither fenced nor
frozen, the fetch raises no exception and meets no word to be corrected, no register that the instruction uses waits for a load, and the core is not the odd core of a
lockstep pair. -/
def coreFree (s : State) (t c : Nat) (uses : List Nat) : Prop :=
  let w := getWick s t c
  w.run = .running ∧ w.sendb = none ∧ w.recv = none ∧ unitsStill s t = false ∧ (wkFetch w = none ∧ mget 0 w.memErr (w.pc.toNat / 4) ≠ 1) ∧
    (∀ r ∈ uses, wkPending w r = false) ∧ wkOddLocked s t c = false

/-- A core that stands free to issue and is not in a lockstep pair. -/
def coreReady (s : State) (t c : Nat) (uses : List Nat) : Prop :=
  coreFree s t c uses ∧ wkEvenLocked (getWick s t c) c = false

/-- The core after an instruction that goes on to the next one: `pc` moves on by 4 and the instruction is counted. -/
def retired (w : Wick) : Wick := { w with pc := w.pc + 4, instret := w.instret + 1 }

/-- The core after an instruction that goes on at an address. -/
def goneTo (w : Wick) (a : BitVec 14) : Wick := { w with pc := a, instret := w.instret + 1 }

/-- Every core but one is as it was. -/
def otherCores (s u : State) (t c : Nat) : Prop :=
  ∀ t' c', c' < 48 → ¬(t' = t ∧ c' = c) → getWick u t' c' = getWick s t' c'

/-- One core has become `w`; every other core and everything else in the module is as it was. -/
def onlyCore (s u : State) (t c : Nat) (w : Wick) : Prop :=
  getWick u t c = w ∧ otherCores s u t c ∧ { u with wicks := s.wicks } = s

/-- One core has become `w`; otherwise packets may have been sent, traced events recorded and incidents raised, and nothing else has
changed. -/
def coreAndTraffic (s u : State) (t c : Nat) (w : Wick) : Prop :=
  getWick u t c = w ∧ otherCores s u t c ∧
    { u with wicks := s.wicks, net := s.net, trace := s.trace, inc := s.inc } = s

/-- A packet without the numbers and times that the model gives it under way (assumption 118): what the spec's header and body say of it,
and where it is. -/
def bare (p : Packet) : Packet := { p with id := 0, re := 0, arr := 0, cyc := 0 }

/-- Packet `p` has been put under way as the next packet, and the packets already under way are as they were. -/
def sent (s u : State) (p : Packet) : Prop :=
  (getPacket u s.net.next).map bare = some p ∧ ∀ k, k < s.net.next → getPacket u k = getPacket s k

/-- Packet `p` is among those put under way, in answer to number `pid`, and the packets already under way are as they were, less that one. -/
def answeredWith (s u : State) (pid : Nat) (p : Packet) : Prop :=
  (∃ k, s.net.next ≤ k ∧ (getPacket u k).map bare = some p ∧ (getPacket u k).map Packet.re = (getPacket s pid).map Packet.id) ∧
    getPacket u pid = none ∧ ∀ k, k < s.net.next → k ≠ pid → getPacket u k = getPacket s k

/-- Packet `p` is among those put under way, packet `pid` is gone, and the other packets already under way are as they were. -/
def passedOn (s u : State) (pid : Nat) (p : Packet) : Prop :=
  (∃ k, s.net.next ≤ k ∧ (getPacket u k).map bare = some p) ∧
    getPacket u pid = none ∧ ∀ k, k < s.net.next → k ≠ pid → getPacket u k = getPacket s k

/-- A packet as a unit of a tile injects it (R296). -/
def injected (t src dst fold epoch : Nat) (ctl : Bool) (b : Body) : Packet :=
  ⟨src, dst, fold, epoch, ctl, b, false, false, false, true, .router t 4, 0, 0, 0, 0, []⟩

/-- A packet as a satellite injects it at an attach port. -/
def fromDie (d k dst : Nat) (b : Body) : Packet := ⟨edgeMake d k 0, dst, 0, 0, bodyCtl b, b, false, false, false, true, .die d k, 0, 0, 0, 0, []⟩

/-! ### CUs and MUs -/

/-- One CU has become `c`; every other CU and everything else in the module is as it was. -/
def onlyCu (s u : State) (t k : Nat) (c : Cu) : Prop :=
  getCu u t k = c ∧ (∀ t' k', k' < 2 → ¬(t' = t ∧ k' = k) → getCu u t' k' = getCu s t' k') ∧ { u with cus := s.cus } = s

/-- One MU has become `m`; every other MU and everything else in the module is as it was. -/
def onlyMu (s u : State) (t k : Nat) (m : Mu) : Prop :=
  getMu u t k = m ∧ (∀ t' k', k' < 4 → ¬(t' = t ∧ k' = k) → getMu u t' k' = getMu s t' k') ∧ { u with mus := s.mus } = s

/-- One dataflow part has become `f`; every other and everything else in the module is as it was. `un` is the unit field, 48 to 53. -/
def onlyFlow (s u : State) (t un : Nat) (f : Flow) : Prop :=
  getFlow u t un = f ∧ (∀ t' n', 48 ≤ n' → n' < 54 → ¬(t' = t ∧ n' = un) → getFlow u t' n' = getFlow s t' n') ∧ { u with flows := s.flows } = s

/-! ### Incidents -/

/-- A source has raised one more incident (R501): its record joins the eight that the source holds, stamped with module time, or is dropped
and counted. `src` is the tile, or 20,000 + the die. -/
def raised (s u : State) (src cls uidx : Nat) (detail : W64) : Prop :=
  if (mget [] s.inc.sources src).length < 8 then
    ∃ i : Inc, i.cls = cls ∧ i.uidx = uidx ∧ i.detail = detail ∧ i.itime = nowNs s ∧
      mget [] u.inc.sources src = mget [] s.inc.sources src ++ [i]
  else mget [] u.inc.sources src = mget [] s.inc.sources src ∧
    mget 0 u.inc.losses src = satAdd 16 (mget 0 s.inc.losses src) 1

/-- As `raised`, where the same event may raise further incidents at the source after this one (R499). -/
def raisedFirst (s u : State) (src cls uidx : Nat) (detail : W64) : Prop :=
  if (mget [] s.inc.sources src).length < 8 then
    ∃ (i : Inc) (l : List Inc), i.cls = cls ∧ i.uidx = uidx ∧ i.detail = detail ∧ i.itime = nowNs s ∧
      mget [] u.inc.sources src = mget [] s.inc.sources src ++ i :: l
  else mget [] u.inc.sources src = mget [] s.inc.sources src

/-- As `raisedFirst`, where the rule does not state the detail. -/
def raisedAs (s u : State) (src cls uidx : Nat) : Prop :=
  (mget [] s.inc.sources src).length < 8 →
    ∃ (i : Inc) (l : List Inc), i.cls = cls ∧ i.uidx = uidx ∧ i.itime = nowNs s ∧
      mget [] u.inc.sources src = mget [] s.inc.sources src ++ i :: l

/-! ### Commands of the engines -/

/-- Command `c` stands with its engine in phase `ph`. -/
def inPhase (u : State) (c : Cmd) (ph : CPh) : Prop := ∃ x ∈ (getEng u c.eng).cmds, x.id = c.id ∧ x.ph = ph

/-- Command `c` has completed with an outcome and a detail (R439, R457, Table 14.6): its engine no longer holds it and, unless it makes no
record, the 32 bytes of its record stand at the tail of its ring's completion area in its host's memory, and the tail has moved on. -/
def completed (s u : State) (c : Cmd) (o : Outc) (detail : Nat) : Prop :=
  let r := getRing s c.port c.eng
  (∀ x ∈ (getEng u c.eng).cmds, x.id ≠ c.id) ∧
    (c.norec = false →
      (∀ i, i < 32 → mget 0 (getHost u c.port).mem (r.cbase + 32 * r.ctail + i) = lget 0 (recordBytes u c o detail r.pass) i) ∧
      (getRing u c.port c.eng).ctail = if r.ctail + 1 ≥ r.csize * 128 then 0 else r.ctail + 1)

/-- Mailbox command `c` has completed (R472, R476): Mantle's reply with an outcome, a status and data sets out after those already on their way;
after a reset of its port there is none, and the command is gone. -/
def replied (s u : State) (c : MbCmd) (o : Outc) (stat : Nat) (data : List Byte) : Prop :=
  (c.discard = false → u.mantle.outbox = s.mantle.outbox ++ [⟨c.port, c.seq, false, o, stat, data, false, some c.id⟩] ∧
    ∀ x ∈ u.mantle.cmds, x.id = c.id → x.ph = .done) ∧
  (c.discard = true → u.mantle.outbox = s.mantle.outbox ∧ ∀ x ∈ u.mantle.cmds, x.id ≠ c.id)

/-- Mailbox command `c` stands in phase `ph`. -/
def mailIn (u : State) (c : MbCmd) (ph : MbPh) : Prop := ∃ x ∈ u.mantle.cmds, x.id = c.id ∧ x.ph = ph

/-- Mantle has asked for one COMMIT wave, with the changes `l` under a tag of its own; the transactions that were open stay so. -/
def committing (s u : State) (tag : Nat) (l : List Chg) : Prop :=
  ∃ x w, x ∈ u.eng.txns ∧ x.tag = tag ∧ x.port = 2 ∧ x.chgs = l ∧ x.ph = .waved true ∧
    ((∀ y ∈ s.eng.txns, y.tag ≠ tag) → u.eng.txns = s.eng.txns ++ [x]) ∧ u.lamp.pending = s.lamp.pending ++ [w] ∧
    w.wtype = .commit ∧ w.wtxn = tag

/-- The Island has written one audit record (R627): it follows those kept, of which the last 4,095 stay, and takes the next number. -/
def audited (s u : State) (evt src : Nat) (data : Nat) : Prop :=
  u.island.audit = (s.island.audit ++ [(⟨nowNs s, s.island.aseq, s.island.boots % 65536, evt, src, BitVec.ofNat 64 data, auditChain s.island⟩ : Audit)]).drop
      (s.island.audit.length + 1 - 4096) ∧
    u.island.aseq = s.island.aseq + 1

/-- The audit record that the Island wrote last. -/
def lastAudit (u : State) (evt src data : Nat) : Prop :=
  (u.island.audit.getLast?.map fun r => (r.evt, r.src, r.data)) = some (evt, src, BitVec.ofNat 64 data)

end Sys2Proof.Machine
end

