-- ==== Sys2Proof/Certificates/Slice0/Obligations.lean ====
section
/-!
DEFINITION. The statements for the provers, by family of commands. Every statement cites the rules of the spec that it follows; where a
clause rests on a choice of the model it names the log entry.
-/
open Sys2Proof Sys2Proof.Machine

/-! ### Wick cores (chapters 6 and 7) -/

/-- INTEGER_ALU and BIT_MANIPULATION (Table 6.6): the result goes to `gd` with the markers of both sources (R201), writes to `g0` are
discarded, `pc` moves on by 4 and nothing else changes. A shift by 32 or more and a bit field beyond bit 31 write a free value (assumptions
10 and 14); an encoding that is not listed takes the exception ILLEGAL. -/
def Obligations.WickIntegerAndBitResults : Prop :=
  (∀ (s : State) (t : TileId) (c : CoreIx) (o : AluOp) (gd a : GReg) (src : WSrc), coreReady s t c (gd.val :: a.val :: srcUse src) →
    let w := getWick s t c
    let x := wkReg w a
    let y := srcVal w src
    let v : W32 := match o with
      | .add => x.v + y.v | .sub => x.v - y.v | .and => x.v &&& y.v | .or => x.v ||| y.v | .xor => x.v ^^^ y.v
      | .sll => if y.v.toNat < 32 then x.v <<< y.v.toNat else Config.wkShift 0 x.v y.v
      | .srl => if y.v.toNat < 32 then x.v >>> y.v.toNat else Config.wkShift 1 x.v y.v
      | .sra => if y.v.toNat < 32 then x.v.sshiftRight y.v.toNat else Config.wkShift 2 x.v y.v
      | .slt => if x.v.toInt < y.v.toInt then 1 else 0
      | .sltu => if x.v.toNat < y.v.toNat then 1 else 0
    ∃ u, exec (.integerAlu t c (.op o gd a src)) s = .next u ∧
      onlyCore s u t c (retired (wkSetReg w gd ⟨v, x.poi || y.poi, x.apx || y.apx⟩))) ∧
  (∀ (s : State) (t : TileId) (c : CoreIx) (gd : GReg) (imm : BitVec 16), coreReady s t c [gd.val] →
    ∃ u, exec (.integerAlu t c (.lui gd imm)) s = .next u ∧
      onlyCore s u t c (retired (wkSetReg (getWick s t c) gd ⟨BitVec.ofNat 32 (imm.toNat * 65536), false, false⟩))) ∧
  (∀ (s : State) (t : TileId) (c : CoreIx) (word : W32), coreReady s t c [] →
    ∃ u, exec (.integerAlu t c (.unlisted word)) s = .next u ∧
      (getWick u t c).ecause = 1 ∧ (getWick u t c).epc = (getWick s t c).pc.toNat ∧ (getWick u t c).eval = word ∧
      (getWick u t c).run = .stopped ∧ (getWick u t c).regs = (getWick s t c).regs) ∧
  (∀ (s : State) (t : TileId) (c : CoreIx) (ins : BitIns), coreReady s t c (bitUses ins) →
    let w := getWick s t c
    let r : GReg × Reg := match ins with
      | .clz gd a => (gd, { wkReg w a with v := BitVec.ofNat 32 (if (wkReg w a).v = 0 then 32 else 31 - Nat.log2 (wkReg w a).v.toNat) })
      | .ctz gd a => (gd, { wkReg w a with v := BitVec.ofNat 32 (((List.range 32).find? fun i => (wkReg w a).v.toNat.testBit i).getD 32) })
      | .popc gd a => (gd, { wkReg w a with v := BitVec.ofNat 32 ((List.range 32).countP fun i => (wkReg w a).v.toNat.testBit i) })
      | .bswap gd a => (gd, ⟨BitVec.extractLsb 7 0 (wkReg w a).v ++ BitVec.extractLsb 15 8 (wkReg w a).v ++ BitVec.extractLsb 23 16 (wkReg w a).v ++
          BitVec.extractLsb 31 24 (wkReg w a).v, (wkReg w a).poi, (wkReg w a).apx⟩)
      | .extract gd a pos len => (gd, ⟨if pos + len ≤ 32 then BitVec.ofNat 32 ((wkReg w a).v.toNat / 2 ^ pos % 2 ^ len)
          else Config.wkField 0 (wkReg w a).v pos len, (wkReg w a).poi, (wkReg w a).apx⟩)
      | .insert gd a pos len => (gd, wkJoin (if pos + len ≤ 32 then BitVec.ofNat 32 (setBits (wkReg w gd).v.toNat pos len (wkReg w a).v.toNat)
          else Config.wkField 1 (wkReg w a).v pos len) (wkReg w gd) (wkReg w a))
      | .rotl gd a src => (gd, wkJoin ((wkReg w a).v.rotateLeft ((srcVal w src).v.toNat % 32)) (wkReg w a) (srcVal w src))
      | .rotr gd a src => (gd, wkJoin ((wkReg w a).v.rotateRight ((srcVal w src).v.toNat % 32)) (wkReg w a) (srcVal w src))
    ∃ u, exec (.bitManipulation t c ins) s = .next u ∧ onlyCore s u t c (retired (wkSetReg w r.1 r.2)))

/-- MULTIPLY_DIVIDE (R185): the division corners as the rule states them, other quotients truncated toward zero, the product's halves. -/
def Obligations.WickMultiplyDivideResults : Prop :=
  ∀ (s : State) (t : TileId) (c : CoreIx) (o : MulOp) (gd a b : GReg), coreReady s t c [gd.val, a.val, b.val] →
    let w := getWick s t c
    let x := wkReg w a
    let y := wkReg w b
    let v : W32 := match o with
      | .mul => BitVec.ofNat 32 (x.v.toNat * y.v.toNat)
      | .mulh => BitVec.ofInt 32 (x.v.toInt * y.v.toInt / 2 ^ 32)
      | .mulhu => BitVec.ofNat 32 (x.v.toNat * y.v.toNat / 2 ^ 32)
      | .divu => if y.v = 0 then 0xFFFFFFFF#32 else BitVec.ofNat 32 (x.v.toNat / y.v.toNat)
      | .remu => if y.v = 0 then x.v else BitVec.ofNat 32 (x.v.toNat % y.v.toNat)
      | .div => if y.v = 0 then BitVec.ofInt 32 (-1) else if x.v.toInt = -2 ^ 31 ∧ y.v.toInt = -1 then x.v
        else BitVec.ofInt 32 (x.v.toInt.tdiv y.v.toInt)
      | .rem => if y.v = 0 then x.v else if x.v.toInt = -2 ^ 31 ∧ y.v.toInt = -1 then 0
        else BitVec.ofInt 32 (x.v.toInt.tmod y.v.toInt)
    ∃ u, exec (.multiplyDivide t c o gd a b) s = .next u ∧
      onlyCore s u t c (retired (wkSetReg w gd ⟨v, x.poi || y.poi, x.apx || y.apx⟩))

/-- CRC32C, HMIX and HFOLD (R190, R191, Table 6.8): each value as the rules compute it, and nothing else; the reserved width of CRC32C is
illegal. -/
def Obligations.WickHashResults : Prop :=
  (∀ (s : State) (t : TileId) (c : CoreIx) (gd a b : GReg) (k : BitVec 2), coreReady s t c [gd.val, a.val, b.val] → k ≠ 3 →
    let w := getWick s t c
    let step (r : Nat) : Nat := if r % 2 = 1 then (r / 2) ^^^ 0x82F63B78 else r / 2
    let byte (r i : Nat) : Nat := (List.range 8).foldl (fun r _ => step r) (r ^^^ ((wkReg w b).v.toNat / 2 ^ (8 * i) % 256))
    let v := (List.range (2 ^ k.toNat)).foldl byte (wkReg w a).v.toNat
    ∃ u, exec (.crc32c t c gd a b k) s = .next u ∧
      onlyCore s u t c (retired (wkSetReg w gd (wkJoin (BitVec.ofNat 32 v) (wkReg w a) (wkReg w b))))) ∧
  (∀ (s : State) (t : TileId) (c : CoreIx) (gd a b : GReg), coreReady s t c [gd.val, a.val, b.val] →
    ∃ u, exec (.crc32c t c gd a b 3) s = .next u ∧ (getWick u t c).ecause = 1 ∧ (getWick u t c).run = .stopped ∧
      (getWick u t c).regs = (getWick s t c).regs) ∧
  (∀ (s : State) (t : TileId) (c : CoreIx) (gd a b : GReg), coreReady s t c [gd.val, a.val, b.val] →
    let w := getWick s t c
    let h0 := (wkReg w a).v ^^^ (wkReg w b).v.rotateLeft 16
    let h1 := (h0 ^^^ (h0 >>> 16)) * 0x7FEB352D#32
    let h2 := (h1 ^^^ (h1 >>> 15)) * 0x846CA68B#32
    ∃ u, exec (.hmix t c gd a b) s = .next u ∧
      onlyCore s u t c (retired (wkSetReg w gd (wkJoin (h2 ^^^ (h2 >>> 16)) (wkReg w a) (wkReg w b))))) ∧
  (∀ (s : State) (t : TileId) (c : CoreIx) (gd a b : GReg), coreReady s t c [gd.val, a.val, b.val] →
    let w := getWick s t c
    ∃ u, exec (.hfold t c gd a b) s = .next u ∧
      onlyCore s u t c (retired (wkSetReg w gd
        (wkJoin (BitVec.ofNat 32 ((wkReg w a).v.toNat * (wkReg w b).v.toNat / 2 ^ 32)) (wkReg w a) (wkReg w b)))))

/-- SCALAR_FLOATING_POINT and PACKED_SIMD (R186): one result, or one register quad, is written with the markers of all sources; a rounding
mode that the core does not have, a format it does not convert and a quad that does not start at a multiple of 4 are illegal; nothing else
changes. Values in the corners that the manual leaves open are free (assumptions 11 to 13). -/
def Obligations.WickFloatAndPackedResults : Prop :=
  (∀ (s : State) (t : TileId) (c : CoreIx) (o : FpOp) (f : FpW) (rnd : BitVec 3) (gd a b : GReg), coreReady s t c [gd.val, a.val, b.val] →
    rnd.toNat < 4 →
    let w := getWick s t c
    let p := (wkReg w a).v
    let q := (wkReg w b).v
    let r := rndOf rnd.toNat 0
    let x := fpVal f p
    let y := fpVal f q
    let free (k : Nat) : Machine.Num := fpVal f (Config.wkMinMax k p q)
    let v : W32 := match o with
      | .add => fpRes 0 f r p q (numAdd x y)
      | .sub => fpRes 1 f r p q (numSub x y)
      | .mul => fpRes 2 f r p q (numMul x y)
      | .min => fpRes 20 f .rne p q (if numCmp x y = some .lt ∨ x = y ∧ numCmp x y = some .eq then x else if numCmp x y = some .gt then y else free 0)
      | .max => fpRes 21 f .rne p q (if numCmp x y = some .gt ∨ x = y ∧ numCmp x y = some .eq then x else if numCmp x y = some .lt then y else free 1)
      | .cmpEq => if numCmp x y = some .eq ∨ numCmp x y = none ∧ Config.wkCmpNan 0 p q = true then 1 else 0
      | .cmpLt => if numCmp x y = some .lt ∨ numCmp x y = none ∧ Config.wkCmpNan 1 p q = true then 1 else 0
      | .cmpLe => if numCmp x y = some .lt ∨ numCmp x y = some .eq ∨ numCmp x y = none ∧ Config.wkCmpNan 2 p q = true then 1 else 0
    ∃ u, exec (.scalarFloatingPoint t c (.op2 o f rnd gd a b)) s = .next u ∧ onlyCore s u t c (retired (wkSetReg w gd (wkJoin v (wkReg w a) (wkReg w b))))) ∧
  (∀ (s : State) (t : TileId) (c : CoreIx) (f : FpW) (rnd : BitVec 3) (gd a b d : GReg), coreReady s t c [gd.val, a.val, b.val, d.val] →
    rnd.toNat < 4 →
    let w := getWick s t c
    let v := fpRes 3 f (rndOf rnd.toNat 0) (wkReg w a).v (wkReg w b).v
      (numAdd (numMul (fpVal f (wkReg w a).v) (fpVal f (wkReg w b).v)) (fpVal f (wkReg w d).v))
    ∃ u, exec (.scalarFloatingPoint t c (.fma f rnd gd a b d)) s = .next u ∧
      onlyCore s u t c (retired (wkSetReg w gd ⟨v, (wkReg w a).poi || (wkReg w b).poi || (wkReg w d).poi,
        (wkReg w a).apx || (wkReg w b).apx || (wkReg w d).apx⟩))) ∧
  (∀ (s : State) (t : TileId) (c : CoreIx) (fmt : BitVec 4) (rnd : BitVec 3) (ovm ovf : Bool) (gd a : GReg), coreReady s t c [gd.val, a.val] →
    rnd.toNat < 4 → fpFmtOk (fmtOf fmt.toNat) = true →
    let w := getWick s t c
    let n := fmtBits (fmtOf fmt.toNat)
    ∃ u v, exec (.scalarFloatingPoint t c (.cvtTo fmt rnd ovm ovf gd a)) s = .next u ∧
      v.toNat % 2 ^ n = (conv (fmtOf fmt.toNat) (rndOf rnd.toNat 0) ovm false false (ofF32 (wkReg w a).v.toNat)).code % 2 ^ n ∧
      onlyCore s u t c (retired (wkSetReg w gd ⟨v, (wkReg w a).poi, (wkReg w a).apx⟩))) ∧
  (∀ (s : State) (t : TileId) (c : CoreIx) (fmt : BitVec 4) (rnd : BitVec 3) (gd a : GReg), coreReady s t c [gd.val, a.val] →
    rnd.toNat < 4 → fpFmtOk (fmtOf fmt.toNat) = true →
    let w := getWick s t c
    let x := decodeFmt (fmtOf fmt.toNat) ((wkReg w a).v.toNat % 2 ^ fmtBits (fmtOf fmt.toNat))
    ∃ u, exec (.scalarFloatingPoint t c (.cvtFrom fmt rnd gd a)) s = .next u ∧
      onlyCore s u t c (retired (wkSetReg w gd
        ⟨BitVec.ofNat 32 (conv .fp32 (rndOf rnd.toNat 0) false false false x).code, (wkReg w a).poi, (wkReg w a).apx⟩))) ∧
  (∀ (s : State) (t : TileId) (c : CoreIx) (ins : FpIns), coreReady s t c (fpUses ins) →
    (match ins with
      | .op2 _ _ rnd _ _ _ => 4 ≤ rnd.toNat
      | .fma _ rnd _ _ _ _ => 4 ≤ rnd.toNat
      | .cvtTo fmt rnd _ _ _ _ => 4 ≤ rnd.toNat ∨ fpFmtOk (fmtOf fmt.toNat) = false
      | .cvtFrom fmt rnd _ _ => 4 ≤ rnd.toNat ∨ fpFmtOk (fmtOf fmt.toNat) = false) →
    ∃ u, exec (.scalarFloatingPoint t c ins) s = .next u ∧ (getWick u t c).ecause = 1 ∧ (getWick u t c).run = .stopped ∧
      (getWick u t c).regs = (getWick s t c).regs) ∧
  (∀ (s : State) (t : TileId) (c : CoreIx) (ins : SimdIns), coreReady s t c (simdUses ins) →
    (match ins with
      | .f32x4 _ rnd gd a b => rnd.toNat < 4 ∧ gd.val % 4 = 0 ∧ a.val % 4 = 0 ∧ b.val % 4 = 0
      | .f32x4fma rnd gd a b d => rnd.toNat < 4 ∧ gd.val % 4 = 0 ∧ a.val % 4 = 0 ∧ b.val % 4 = 0 ∧ d.val % 4 = 0
      | .i8x16 _ _ gd a b => gd.val % 4 = 0 ∧ a.val % 4 = 0 ∧ b.val % 4 = 0
      | .dot8 _ a b => a.val % 4 = 0 ∧ b.val % 4 = 0) →
    let w := getWick s t c
    ∃ u w', exec (.packedSimd t c ins) s = .next u ∧ onlyCore s u t c (retired w') ∧ { w' with regs := w.regs } = w ∧
      (∀ r : GReg, ¬ (match ins with
        | .f32x4 _ _ gd _ _ => gd.val ≤ r.val ∧ r.val < gd.val + 4
        | .f32x4fma _ gd _ _ _ => gd.val ≤ r.val ∧ r.val < gd.val + 4
        | .i8x16 _ _ gd _ _ => gd.val ≤ r.val ∧ r.val < gd.val + 4
        | .dot8 gd _ _ => r = gd) → wkReg w' r = wkReg w r) ∧
      (match ins with
        | .f32x4 o rnd gd a b => ∀ i : Fin 4, gd.val + i.val ≠ 0 →
            (wkReg w' (gd.val + i)).v = fpOp2 o .fp32 (rndOf rnd.toNat 0) (wkReg w (a.val + i)).v (wkReg w (b.val + i)).v
        | .f32x4fma rnd gd a b d => ∀ i : Fin 4, gd.val + i.val ≠ 0 →
            (wkReg w' (gd.val + i)).v = fpRes 3 .fp32 (rndOf rnd.toNat 0) (wkReg w (a.val + i)).v (wkReg w (b.val + i)).v
              (numAdd (numMul (fpVal .fp32 (wkReg w (a.val + i)).v) (fpVal .fp32 (wkReg w (b.val + i)).v)) (fpVal .fp32 (wkReg w (d.val + i)).v))
        | .i8x16 sub ovf gd a b => ∀ i j : Fin 4, gd.val + i.val ≠ 0 →
            (wkReg w' (gd.val + i)).v.toNat / 2 ^ (8 * j.val) % 256 =
              i8Op sub ovf (signed 8 ((wkReg w (a.val + i)).v.toNat / 2 ^ (8 * j.val))) (signed 8 ((wkReg w (b.val + i)).v.toNat / 2 ^ (8 * j.val)))
        | .dot8 gd a b => gd.val ≠ 0 →
            let z := (wkReg w gd).v.toInt + ((List.range 4).flatMap fun i => (List.range 4).map fun j =>
              signed 8 ((wkReg w (a.val + i)).v.toNat / 2 ^ (8 * j)) * signed 8 ((wkReg w (b.val + i)).v.toNat / 2 ^ (8 * j))).sum
            (wkReg w' gd).v = if -2 ^ 31 ≤ z ∧ z < 2 ^ 31 then BitVec.ofInt 32 z else Config.wkDotOver z)) ∧
  (∀ (s : State) (t : TileId) (c : CoreIx) (ins : SimdIns), coreReady s t c (simdUses ins) →
    (match ins with
      | .f32x4 _ rnd gd a b => 4 ≤ rnd.toNat ∨ gd.val % 4 ≠ 0 ∨ a.val % 4 ≠ 0 ∨ b.val % 4 ≠ 0
      | .f32x4fma rnd gd a b d => 4 ≤ rnd.toNat ∨ gd.val % 4 ≠ 0 ∨ a.val % 4 ≠ 0 ∨ b.val % 4 ≠ 0 ∨ d.val % 4 ≠ 0
      | .i8x16 _ _ gd a b => gd.val % 4 ≠ 0 ∨ a.val % 4 ≠ 0 ∨ b.val % 4 ≠ 0
      | .dot8 _ a b => a.val % 4 ≠ 0 ∨ b.val % 4 ≠ 0) →
    ∃ u, exec (.packedSimd t c ins) s = .next u ∧ (getWick u t c).ecause = 1 ∧ (getWick u t c).run = .stopped ∧
      (getWick u t c).regs = (getWick s t c).regs)

/-- LOAD_STORE (R181 to R183, R192): every address of Table 6.3. A local load gives the little-endian value with its poison; a local store
changes exactly the bytes stored and the marker of their word; an own-tile store is performed on its MU, an own-tile load is issued while
fewer than four are out; a poisoned address, a misaligned one, a store into the code window and any other address raise their exceptions
(misalignment before the range: assumption 17). -/
def Obligations.WickLoadStoreByAddress : Prop :=
  ∀ (s : State) (t : TileId) (c : CoreIx) (o : LsOp) (gd gs1 : GReg) (imm : BitVec 16), coreReady s t c [gd.val, gs1.val] →
    let w := getWick s t c
    let a := ((wkReg w gs1).v + imm.signExtend 32).toNat
    let n := lsBytes o
    let d := wkReg w gd
    let stopped (u : State) (cause eval : Nat) : Prop := (getWick u t c).ecause = cause ∧ (getWick u t c).eval = BitVec.ofNat 32 eval ∧
      (getWick u t c).epc = w.pc.toNat ∧ (getWick u t c).run = .stopped ∧ (getWick u t c).regs = w.regs ∧ (getWick u t c).mem = w.mem
    ∃ u, exec (.loadStore t c o gd gs1 imm) s = .next u ∧
      ((wkReg w gs1).poi = true → stopped u 4 (wkReg w gs1).v.toNat) ∧
      ((wkReg w gs1).poi = false →
        (a % n ≠ 0 → stopped u 2 a) ∧
        (a % n = 0 → a < 0x4000 → lsStore o = false →
          let v := ((List.range n).map fun j => (mget 0 w.mem (a + j)).toNat * 256 ^ j).sum
          let x : W32 := if lsSigned o then BitVec.ofInt 32 (signed (8 * n) v) else BitVec.ofNat 32 v
          let e := mget 0 w.memErr (a / 4)
          let poi := mget false w.memPoi (a / 4) || decide (e = 2)
          getWick u t c = retired (wkSetReg (if e = 1 then { w with memErr := mset 0 w.memErr (a / 4) 0 } else w) gd ⟨x, poi, false⟩) ∧
            otherCores s u t c ∧ { u with wicks := s.wicks, inc := s.inc, tiles := s.tiles, trace := s.trace } = s ∧
            (e ≠ 1 → e ≠ 2 → u.inc = s.inc ∧ u.tiles = s.tiles ∧ u.trace = s.trace)) ∧
        (a % n = 0 → a < 0x4000 → lsStore o = true → inWindow w a = true → stopped u 3 a) ∧
        (a % n = 0 → a < 0x4000 → lsStore o = true → inWindow w a = false →
          ∃ w', onlyCore s u t c (retired w') ∧ { w' with mem := w.mem, memPoi := w.memPoi, memErr := w.memErr } = w ∧
            (∀ b, (mget 0 w'.mem b).toNat = if a ≤ b ∧ b < a + n then d.v.toNat / 256 ^ (b - a) % 256 else (mget 0 w.mem b).toNat) ∧
            (∀ i, mget false w'.memPoi i = if i = a / 4 then d.poi || (decide (n ≠ 4) && (mget false w.memPoi i || decide (mget 0 w.memErr i = 2)))
              else mget false w.memPoi i) ∧
            (∀ i, mget 0 w'.memErr i = if i = a / 4 then 0 else mget 0 w.memErr i)) ∧
        (a % n = 0 → 0x4000 ≤ a → (a < 0x100000 ∨ 0x500000 ≤ a) → stopped u 3 a) ∧
        (a % n = 0 → 0x100000 ≤ a → a < 0x500000 →
          let k := a / 0x100000 - 1
          let b := a % 0x100000
          (lsStore o = true → ∀ m, muWriteAll (getMu s t k) b (leBytes n d.v.toNat) d.poi = some m →
            getWick u t c = retired w ∧ otherCores s u t c ∧ getMu u t k = m ∧
              (∀ t' k', k' < 4 → ¬(t' = t.val ∧ k' = k) → getMu u t' k' = getMu s t' k') ∧
              { u with wicks := s.wicks, mus := s.mus, inc := s.inc, tiles := s.tiles, trace := s.trace } = s ∧
              ((∀ i, mget 0 (getMu s t k).err i = 0) → u.inc = s.inc ∧ u.tiles = s.tiles ∧ u.trace = s.trace)) ∧
          (lsStore o = false → w.own.length < 4 →
            let r := muRead s t k b n
            let v := leNat r.1
            let x : W32 := if lsSigned o then BitVec.ofInt 32 (signed (8 * n) v) else BitVec.ofNat 32 v
            getWick u t c = retired { w with own := w.own ++ [⟨gd.val, ⟨x, r.2.1, false⟩⟩] } ∧ otherCores s u t c ∧
              (∀ t' k' j, k' < 4 → muByte (getMu u t' k') j = muByte (getMu s t' k') j)) ∧
          (lsStore o = false → 4 ≤ w.own.length → getWick u t c = wkStall w stInput 1 ∧ otherCores s u t c)))

/-- OWN_TILE_LOAD_DATA and BRANCH_JUMP (R192, R182, R183, Table 6.6): the oldest load's data arrives in its register; a branch goes where its
condition says, decided on registers without poison; jump and link writes the return address (jump targets: assumption 18). An instruction
whose word holds a correctable error is fetched all the same: the word is written back and counted. -/
def Obligations.WickLoadDataAndJumps : Prop :=
  (∀ (s : State) (t : TileId) (c : CoreIx) (o : OwnLoad) (rest : List OwnLoad), (getWick s t c).own = o :: rest →
    wkEvenLocked (getWick s t c) c = false →
    ∃ u, exec (.ownTileLoadData t c) s = .next u ∧ onlyCore s u t c { wkSetReg (getWick s t c) o.rd o.v with own := rest }) ∧
  (∀ (s : State) (t : TileId) (c : CoreIx) (k : BrCond) (a b : GReg) (tgt : BitVec 14), coreReady s t c [a.val, b.val] →
    let w := getWick s t c
    let x := wkReg w a
    let y := wkReg w b
    let taken : Prop := match k with
      | .eq => x.v = y.v | .ne => x.v ≠ y.v | .lt => x.v.toInt < y.v.toInt | .ge => y.v.toInt ≤ x.v.toInt
      | .ltu => x.v.toNat < y.v.toNat | .geu => y.v.toNat ≤ x.v.toNat
    ∃ u, exec (.branchJump t c (.branch k a b tgt)) s = .next u ∧
      ((x.poi || y.poi) = true → (getWick u t c).ecause = 4 ∧ (getWick u t c).run = .stopped ∧ (getWick u t c).regs = w.regs) ∧
      ((x.poi || y.poi) = false → taken → onlyCore s u t c (goneTo w (BitVec.ofNat 14 (tgt.toNat / 4 * 4)))) ∧
      ((x.poi || y.poi) = false → ¬taken → onlyCore s u t c (retired w))) ∧
  (∀ (s : State) (t : TileId) (c : CoreIx) (gd : GReg) (tgt : BitVec 14), coreReady s t c [gd.val] →
    let w := getWick s t c
    ∃ u, exec (.branchJump t c (.jal gd tgt)) s = .next u ∧
      onlyCore s u t c (goneTo (wkSetReg w gd ⟨BitVec.ofNat 32 (w.pc.toNat + 4), false, false⟩) (BitVec.ofNat 14 (tgt.toNat / 4 * 4)))) ∧
  (∀ (s : State) (t : TileId) (c : CoreIx) (a : GReg), coreReady s t c [a.val] →
    let w := getWick s t c
    let x := wkReg w a
    ∃ u, exec (.branchJump t c (.jr a)) s = .next u ∧
      (x.poi = true → (getWick u t c).ecause = 4 ∧ (getWick u t c).run = .stopped) ∧
      (x.poi = false → x.v.toNat < 0x4000 → onlyCore s u t c (goneTo w (BitVec.ofNat 14 (x.v.toNat / 4 * 4)))) ∧
      (x.poi = false → 0x4000 ≤ x.v.toNat → (getWick u t c).ecause = 3 ∧ (getWick u t c).run = .stopped)) ∧
  (∀ (s : State) (t : TileId) (c : CoreIx) (gd : GReg) (tgt : BitVec 14),
    let w := getWick s t c
    w.run = .running → w.sendb = none → w.recv = none → unitsStill s t = false → wkOddLocked s t c = false → wkEvenLocked w c = false →
    inWindow w w.pc.toNat = true → mget false w.memPoi (w.pc.toNat / 4) = false → mget 0 w.memErr (w.pc.toNat / 4) = 1 → wkPending w gd = false →
    ∃ u, exec (.branchJump t c (.jal gd tgt)) s = .next u ∧
      getWick u t c = goneTo (wkSetReg { w with memErr := mset 0 w.memErr (w.pc.toNat / 4) 0 } gd ⟨BitVec.ofNat 32 (w.pc.toNat + 4), false, false⟩)
        (BitVec.ofNat 14 (tgt.toNat / 4 * 4)) ∧
      otherCores s u t c ∧ (getTile u t).corrW = satAdd 32 (getTile s t).corrW 1 ∧
      { u with wicks := s.wicks, tiles := s.tiles, inc := s.inc, trace := s.trace } = s)

/-- POP, POPL, PEEK, QCNT and QDROP (R188, R189, R201): the head entry goes to its register or pair with its markers and leaves the queue
or stays; an empty queue stalls without a limit, counted under input empty of the core and of the queue (R287), but QDROP does nothing on it; a pair named by an odd register is
illegal; nothing else changes. -/
def Obligations.WickQueueInstructions : Prop :=
  (∀ (s : State) (t : TileId) (c : CoreIx) (gd : GReg) (q : QIx) (e : QEnt) (l : List QEnt), coreReady s t c [gd.val, gd.val + 1] →
    mget [] (getWick s t c).queues q.val = e :: l → gd.val % 2 = 0 →
    let w := getWick s t c
    let w' := wkSetReg (wkSetReg w gd ⟨e.w.setWidth 32, e.poi, e.apx⟩) (gd.val + 1) ⟨BitVec.ofNat 32 (e.w.toNat / 2 ^ 32), e.poi, e.apx⟩
    (∃ u, exec (.pop t c gd q) s = .next u ∧ onlyCore s u t c (retired { w' with queues := mset [] w.queues q l, relAt := s.time.ticks })) ∧
    (∃ u, exec (.peek t c gd q) s = .next u ∧ onlyCore s u t c (retired w'))) ∧
  (∀ (s : State) (t : TileId) (c : CoreIx) (gd : GReg) (q : QIx) (e : QEnt) (l : List QEnt), coreReady s t c [gd.val] →
    mget [] (getWick s t c).queues q.val = e :: l →
    let w := getWick s t c
    ∃ u, exec (.popl t c gd q) s = .next u ∧
      onlyCore s u t c (retired { wkSetReg w gd ⟨e.w.setWidth 32, e.poi, e.apx⟩ with queues := mset [] w.queues q l, relAt := s.time.ticks })) ∧
  (∀ (s : State) (t : TileId) (c : CoreIx) (gd : GReg) (q : QIx), coreReady s t c [gd.val, gd.val + 1] →
    mget [] (getWick s t c).queues q.val = [] →
    let w := getWick s t c
    ∀ i ∈ ([.popl t c gd q] ++ if gd.val % 2 = 0 then [.pop t c gd q, .peek t c gd q] else [] : List Instr),
      ∃ u, exec i s = .next u ∧ otherCores s u t c ∧ getWick u t c = { w with stall := (getWick u t c).stall } ∧
        mget 0 (getWick u t c).stall stInput = satAdd 48 (mget 0 w.stall stInput) 1 ∧
        mget 0 (getWick u t c).stall (6 + q.val * 6 + stInput) = satAdd 48 (mget 0 w.stall (6 + q.val * 6 + stInput)) 1) ∧
  (∀ (s : State) (t : TileId) (c : CoreIx) (gd : GReg) (q : QIx), coreReady s t c [gd.val, gd.val + 1] → gd.val % 2 = 1 →
    ∀ i ∈ ([.pop t c gd q, .peek t c gd q] : List Instr),
      ∃ u, exec i s = .next u ∧ (getWick u t c).ecause = 1 ∧ (getWick u t c).run = .stopped ∧
        (getWick u t c).queues = (getWick s t c).queues ∧ (getWick u t c).regs = (getWick s t c).regs) ∧
  (∀ (s : State) (t : TileId) (c : CoreIx) (gd : GReg) (q : QIx), coreReady s t c [gd.val] →
    let w := getWick s t c
    ∃ u, exec (.qcnt t c gd q) s = .next u ∧
      onlyCore s u t c (retired (wkSetReg w gd ⟨BitVec.ofNat 32 (mget [] w.queues q.val).length, false, false⟩))) ∧
  (∀ (s : State) (t : TileId) (c : CoreIx) (gd : GReg) (q : QIx), coreReady s t c [] →
    let w := getWick s t c
    ∃ u, exec (.qdrop t c gd q) s = .next u ∧
      (gd = 0 → ∀ e l, mget [] w.queues q.val = e :: l → onlyCore s u t c (retired { w with queues := mset [] w.queues q l, relAt := s.time.ticks })) ∧
      (gd = 0 → mget [] w.queues q.val = [] → onlyCore s u t c (retired w)) ∧
      (gd ≠ 0 → (getWick u t c).ecause = 1 ∧ (getWick u t c).run = .stopped))

/-- SEND, DSEND, SENDB, TKWT, TKST, FENCE and RECV (R195, R222, R223, R225, R227, R233): tickets are taken in rotation and name the outcome
that a wait or a look returns; a send puts one packet under way with the words and markers of its registers; RECV names the first masked
queue that holds an entry, or blocks its core until its deadline. -/
def Obligations.WickMessagingInstructions : Prop :=
  (∀ (s : State) (t : TileId) (c : CoreIx) (gd gs1 gs2 : GReg) (n : Fin 4) (k : Nat),
    coreReady s t c (gd.val :: gs1.val :: msgUses gs2.val (n.val + 1)) → gs2.val % 2 = 0 → gs2.val + 2 * (n.val + 1) ≤ 32 →
    (wkReg (getWick s t c) gs1).poi = false →
    ((List.range 8).map fun i => ((getWick s t c).lastTk + 1 + i) % 8).find? (fun k => !(mget Ticket.fresh (getWick s t c).tickets k).pending) = some k →
    let w := getWick s t c
    let dst := (wkReg w gs1).v.toNat % 2 ^ 23
    let words := (List.range (n.val + 1)).map fun i => (⟨(wkReg w (gs2.val + 2 * i + 1)).v ++ (wkReg w (gs2.val + 2 * i)).v,
      (wkReg w (gs2.val + 2 * i)).poi || (wkReg w (gs2.val + 2 * i + 1)).poi,
      (wkReg w (gs2.val + 2 * i)).apx || (wkReg w (gs2.val + 2 * i + 1)).apx⟩ : QEnt)
    ∃ u, exec (.send t c gd gs1 gs2 n) s = .next u ∧
      coreAndTraffic s u t c (retired { wkSetReg w gd ⟨BitVec.ofNat 32 k, false, false⟩ with
        lastTk := k, tickets := mset Ticket.fresh w.tickets k ⟨true, true, .done, dst, cyclesOf s t + wkSndto w * 16, s.net.next⟩ }) ∧
      sent s u (injected t (qaMake t c k) dst w.fold (epochAt s t) (n.val == 0) (.msg false words))) ∧
  (∀ (s : State) (t : TileId) (c : CoreIx) (gd gs1 gs2 : GReg) (k : Nat),
    coreReady s t c (gd.val :: gs1.val :: msgUses gs2.val 1) → gs2.val % 2 = 0 → (wkReg (getWick s t c) gs1).poi = false →
    nextTicket (getWick s t c) = some k →
    let w := getWick s t c
    let dst := (wkReg w gs1).v.toNat % 2 ^ 23
    ∃ u, exec (.dsend t c gd gs1 gs2) s = .next u ∧
      coreAndTraffic s u t c (retired { wkSetReg w gd ⟨BitVec.ofNat 32 k, false, false⟩ with
        lastTk := k, tickets := mset Ticket.fresh w.tickets k ⟨true, true, .done, dst, cyclesOf s t + wkSndto w * 16, s.net.next⟩ }) ∧
      sent s u (injected t (qaMake t c k) dst w.fold (epochAt s t) true (.desc ⟨(wkReg w (gs2.val + 1)).v ++ (wkReg w gs2).v,
        (wkReg w gs2).poi || (wkReg w (gs2.val + 1)).poi, (wkReg w gs2).apx || (wkReg w (gs2.val + 1)).apx⟩))) ∧
  (∀ (s : State) (t : TileId) (c : CoreIx) (gd gs1 gs2 : GReg) (n : Fin 4),
    coreReady s t c (gd.val :: gs1.val :: msgUses gs2.val (n.val + 1)) → gs2.val % 2 = 0 → gs2.val + 2 * (n.val + 1) ≤ 32 →
    (wkReg (getWick s t c) gs1).poi = false →
    let w := getWick s t c
    let dst := (wkReg w gs1).v.toNat % 2 ^ 23
    ∃ u, exec (.sendb t c gd gs1 gs2 n) s = .next u ∧
      coreAndTraffic s u t c { w with sendb := some ⟨gd.val, dst, msgWords w gs2.val (n.val + 1), cyclesOf s t + wkSndto w * 16, 16, true, 0, none, false, cyclesOf s t, s.net.next⟩ } ∧
      sent s u (injected t (qaMake t c 0) dst w.fold (epochAt s t) (n.val == 0) (.msg true (msgWords w gs2.val (n.val + 1))))) ∧
  (∀ (s : State) (t : TileId) (c : CoreIx) (gd gs1 : GReg), coreReady s t c [gd.val, gs1.val] → (wkReg (getWick s t c) gs1).poi = false →
    let w := getWick s t c
    let k := mget Ticket.fresh w.tickets ((wkReg w gs1).v.toNat % 8)
    (∃ u, exec (.tkwt t c gd gs1) s = .next u ∧
      (k.pending = false → onlyCore s u t c (retired (wkSetReg w gd ⟨BitVec.ofNat 32 (outcCode k.outc), false, (wkReg w gs1).apx⟩))) ∧
      (k.pending = true → getWick u t c = wkStall w stCredit 1 ∧ otherCores s u t c)) ∧
    (∃ u, exec (.tkst t c gd gs1) s = .next u ∧
      onlyCore s u t c (retired (wkSetReg w gd ⟨if k.pending then 0x80000000#32 else BitVec.ofNat 32 (outcCode k.outc), false, (wkReg w gs1).apx⟩)))) ∧
  (∀ (s : State) (t : TileId) (c : CoreIx), coreReady s t c [] →
    ∃ u, exec (.wickFence t c) s = .next u ∧
      ((∀ e ∈ (getWick s t c).tickets, e.2.pending = false) → (∀ e ∈ (getWick s t c).tags, ∀ l r d p, e.2 ≠ .live l r d p) →
        onlyCore s u t c (retired (getWick s t c))) ∧
      ((∃ e ∈ (getWick s t c).tickets, e.2.pending = true) → getWick u t c = wkStall (getWick s t c) stCredit 1)) ∧
  (∀ (s : State) (t : TileId) (c : CoreIx) (gd gs1 : GReg) (mask : BitVec 8) (rot : Bool), coreReady s t c [gd.val, gs1.val] →
    (wkReg (getWick s t c) gs1).poi = false →
    let w := getWick s t c
    let x := wkReg w gs1
    let order := if rot then (List.range 8).map fun i => (w.rot + 1 + i) % 8 else List.range 8
    let first := order.find? fun q => mask.toNat.testBit q && w.core.toNat.testBit q && decide (mget [] w.queues q ≠ [])
    ∃ u, exec (.recv t c gd gs1 mask rot) s = .next u ∧
      (∀ q, first = some q →
        onlyCore s u t c (retired (wkSetReg (if rot then { w with rot := q } else w) gd ⟨BitVec.ofNat 32 (q * 16), false, x.apx⟩))) ∧
      (first = none → x.v = 0 → onlyCore s u t c (retired (wkSetReg w gd ⟨BitVec.ofNat 32 (outcCode .timeout), false, x.apx⟩))) ∧
      (first = none → x.v ≠ 0 → onlyCore s u t c { w with recv := some ⟨gd.val, mask.toNat, rot, x.apx, cyclesOf s t + x.v.toNat, cyclesOf s t⟩ })) ∧
  (∀ (s : State) (t : TileId) (c : CoreIx) (gd gs1 gs2 : GReg) (n : Fin 4),
    coreReady s t c (gd.val :: gs1.val :: msgUses gs2.val (n.val + 1)) →
    let w := getWick s t c
    ∀ i ∈ ([.send t c gd gs1 gs2 n, .sendb t c gd gs1 gs2 n] : List Instr), ∃ u, exec i s = .next u ∧
      ((gs2.val % 2 = 1 ∨ gs2.val + 2 * (n.val + 1) > 32) → (getWick u t c).ecause = 1 ∧ (getWick u t c).run = .stopped) ∧
      (gs2.val % 2 = 0 → gs2.val + 2 * (n.val + 1) ≤ 32 → (wkReg w gs1).poi = true → (getWick u t c).ecause = 4 ∧ (getWick u t c).run = .stopped))

/-- TRD, TSET, TWAIT, TCHK, MTIME, CSRR and CSRW (R180, R197, R199, R200, Table 6.2, Table 6.8): the timer, module time (within 4 ns of
the line of the tile's counter while module time is locked, and never below a value already read: R199) and the control and status registers
read and written as the tables say; reading RLERR, TIE or INSTRET clears it; writing a register marked RO has no effect;
a number that is not listed is illegal. Deadlines of a core (R33, R196, R197, R224 to R226, R228): when the deadline of a timer, a RECV, a SENDB, a ticket or a remote access has
come, time stands at it or after it, and the core goes on as its rule says; the cycles of a SENDB count under output full, those of a RECV under
input empty. Deadlines of a frozen tile stand still (R325). -/
def Obligations.WickTimerCsrAndDeadlines : Prop :=
  (
  (∀ (s : State) (t : TileId) (c : CoreIx) (gd : GReg), coreReady s t c [gd.val, gd.val + 1] → gd.val % 2 = 0 →
    let w := getWick s t c
    let n := (cyclesOf s t - w.tcnt0) % 2 ^ 48
    (∃ u, exec (.trd t c gd) s = .next u ∧ onlyCore s u t c (retired (wkSetReg (wkSetReg w gd ⟨BitVec.ofNat 32 n, false, false⟩)
      (gd.val + 1) ⟨BitVec.ofNat 32 (n / 2 ^ 32), false, false⟩))) ∧
    (∃ u v, exec (.mtime t c gd) s = .next u ∧ (getTile s t).mtLast ≤ v ∧
      (s.tc.lock = true → (getTile s t).mtLast < v → tileLine s t ≤ v + 4 ∧ v ≤ tileLine s t + 4) ∧
      getWick u t c = retired (wkSetReg (wkSetReg w gd ⟨BitVec.ofNat 32 (v % 2 ^ 64), false, false⟩)
        (gd.val + 1) ⟨BitVec.ofNat 32 (v % 2 ^ 64 / 2 ^ 32), false, false⟩) ∧ otherCores s u t c ∧
      getTile u t = { getTile s t with mtLast := v } ∧ (∀ k, k ≠ t.val → getTile u k = getTile s k) ∧
      { u with wicks := s.wicks, tiles := s.tiles } = s)) ∧
  (∀ (s : State) (t : TileId) (c : CoreIx) (gd : GReg), coreReady s t c [gd.val, gd.val + 1] → gd.val % 2 = 1 →
    ∀ i ∈ ([.trd t c gd, .mtime t c gd] : List Instr), ∃ u, exec i s = .next u ∧ (getWick u t c).ecause = 1 ∧ (getWick u t c).run = .stopped) ∧
  (∀ (s : State) (t : TileId) (c : CoreIx) (a : GReg), coreReady s t c [a.val] →
    let w := getWick s t c
    ∃ u, exec (.tset t c a) s = .next u ∧
      ((wkReg w a).poi = false → onlyCore s u t c (retired
        { w with tpast := decide ((wkReg w a).v = 0), tdl := BitVec.ofNat 48 ((cyclesOf s t - w.tcnt0) % 2 ^ 48 + (wkReg w a).v.toNat) })) ∧
      ((wkReg w a).poi = true → (getWick u t c).ecause = 4 ∧ (getWick u t c).run = .stopped ∧ (getWick u t c).tdl = w.tdl)) ∧
  (∀ (s : State) (t : TileId) (c : CoreIx), coreReady s t c [] →
    ∃ u, exec (.twait t c) s = .next u ∧ ((getWick s t c).tpast = true → onlyCore s u t c (retired (getWick s t c))) ∧
      ((getWick s t c).tpast = false → getWick u t c = wkStall (getWick s t c) stInput 1 ∧ otherCores s u t c)) ∧
  (∀ (s : State) (t : TileId) (c : CoreIx) (gd : GReg), coreReady s t c [gd.val] →
    ∃ u, exec (.tchk t c gd) s = .next u ∧
      onlyCore s u t c (retired (wkSetReg (getWick s t c) gd ⟨if (getWick s t c).tpast then 1 else 0, false, false⟩))) ∧
  (∀ (s : State) (t : TileId) (c : CoreIx) (gd a : GReg) (n : BitVec 12), coreReady s t c [gd.val, a.val] →
    let w := getWick s t c
    let table : List (Nat × W32) := [(0x000, BitVec.ofNat 32 (qaMake t c 0)), (0x001, BitVec.ofNat 32 ((regionOf s t).getD 0)),
      (0x002, BitVec.ofNat 32 (w.fold * 16 + (regionAt s t).epoch)), (0x003, BitVec.ofNat 32 w.ecause), (0x004, BitVec.ofNat 32 w.epc),
      (0x005, w.eval), (0x006, BitVec.ofNat 32 (w.rlerrN * 65536 + w.rlerrO)), (0x007, BitVec.ofNat 32 w.tie),
      (0x008, BitVec.ofNat 32 (bits (mget 0 w.ctx w.fold).toNat 32 16)), (0x009, BitVec.ofNat 32 (bits (mget 0 w.ctx w.fold).toNat 48 16)),
      (0x00A, w.instret)] ++ (List.range 8).map fun i => (0x010 + i, mget 0 w.scr i)
    (∃ u, exec (.csrr t c gd n) s = .next u ∧
      (∀ v, table.lookup n.toNat = some v →
        let w' := wkSetReg w gd ⟨v, false, false⟩
        onlyCore s u t c (if n.toNat = 6 then retired { w' with rlerrN := 0, rlerrO := 0 } else if n.toNat = 7 then retired { w' with tie := 0 }
          else if n.toNat = 10 then retired { w' with instret := 0 } else retired w')) ∧
      (table.lookup n.toNat = none → (getWick u t c).ecause = 1 ∧ (getWick u t c).run = .stopped)) ∧
    (∃ u, exec (.csrw t c a n) s = .next u ∧
      (table.lookup n.toNat ≠ none → (wkReg w a).poi = false →
        onlyCore s u t c (retired (if 0x010 ≤ n.toNat then { w with scr := mset 0 w.scr (n.toNat - 0x010) (wkReg w a).v } else w))) ∧
      (table.lookup n.toNat ≠ none → (wkReg w a).poi = true → (getWick u t c).ecause = 4 ∧ (getWick u t c).scr = w.scr) ∧
      (table.lookup n.toNat = none → (getWick u t c).ecause = 1 ∧ (getWick u t c).run = .stopped)))
  ) ∧ (
  (∀ (s : State) (t : TileId) (c : CoreIx), (regionAt s t).frozenAt = none → wkEvenLocked (getWick s t c) c = false →
    let w := getWick s t c
    (w.tpast = false → ∃ u s', exec (.timerDeadlineReached t c) s = .next u ∧ (∃ n, s' = advance s n) ∧ onlyCore s' u t c { w with tpast := true }) ∧
    (∀ r, w.recv = some r → w.sendb = none → ∃ u, exec (.recvTimeout t c) s = .next u ∧
      onlyCore (reachCycle s t r.deadline) u t c (wkStall { retired (wkSetReg w r.gd ⟨9, false, r.apx⟩) with sendb := none, recv := none } stInput
        (cyclesOf (reachCycle s t r.deadline) t - r.since))) ∧
    (∀ b, w.sendb = some b → b.awaiting = false → b.resume < b.deadline → ∃ u, exec (.sendbRetry t c) s = .next u ∧
      coreAndTraffic (reachCycle s t b.resume) u t c { w with sendb := some { b with awaiting := true, wait := min (2 * b.wait) 1024, blockedOn := none, pid := s.net.next } } ∧
      sent (reachCycle s t b.resume) u (injected t (qaMake t c 0) b.dst w.fold (epochAt s t) (b.words.length == 1) (.msg true b.words))) ∧
    (∀ b, w.sendb = some b → b.awaiting = false → b.deadline ≤ b.resume → ∃ u, exec (.sendbDeadline t c) s = .next u ∧
      onlyCore (reachCycle s t b.deadline) u t c (wkStall { retired (wkSetReg w b.gd ⟨3, false, false⟩) with sendb := none, recv := none } stOutput
        (cyclesOf (reachCycle s t b.deadline) t - b.since))) ∧
    (∀ b, w.sendb = some b → b.awaiting = true → ∃ u, exec (.sendbReplyLost t c) s = .next u ∧
      coreAndTraffic (reachCycle s t (b.deadline + 4096)) u t c (wkStall { retired (wkSetReg w b.gd ⟨9, false, false⟩) with sendb := none, recv := none }
        stOutput (cyclesOf (reachCycle s t (b.deadline + 4096)) t - b.since)) ∧
      raised (reachCycle s t (b.deadline + 4096)) u t 0x0504 c (BitVec.ofNat 64 (b.dst + 2 ^ 27))) ∧
    (∀ k : Fin 8, (mget Ticket.fresh w.tickets k).pending = true → ∃ u, exec (.ticketTimeout t c k) s = .next u ∧
      let x := mget Ticket.fresh w.tickets k
      coreAndTraffic (reachCycle s t x.deadline) u t c
        { w with tickets := mset Ticket.fresh w.tickets k { x with pending := false, outc := .timeout } } ∧
      raised (reachCycle s t x.deadline) u t 0x0504 c (BitVec.ofNat 64 (x.dst + k.val * 2 ^ 24))) ∧
    (∀ (g : Fin 4) l r d p, mget RTag.free w.tags g = .live l r d p → ∃ u, exec (.remoteAccessTimeout t c g) s = .next u ∧
      let w' := if l then wkSetReg w r ⟨0, true, false⟩ else w
      let w2 := { w' with tags := mset RTag.free w.tags g (.expired p), rlerrN := satAdd 16 w.rlerrN 1 }
      onlyCore (reachCycle s t d) u t c { w2 with rlerrO := if w.rlerrN = 0 then 9 else w.rlerrO })) ∧
  (∀ (s : State) (t n : Nat), (mget FieldClk.reset s.time.clk (fieldOf t)).rate ≠ 0 →
    n ≤ cyclesOf (reachCycle s t n) t)
  )
/-- YIELD, HALT and TRAP (R202, R207, R208): YIELD goes on while no fold switch is asked for, and otherwise takes it once every ticket and
tag has resolved; HALT stops the context, which stays stopped when its fold comes back; TRAP stops its core with cause 6, its immediate in EVAL, and its registers kept. The save block's
layout is assumption 15. A lockstep pair (R203, R204, R205): while the odd core of a pair is free to issue, an instruction of it changes nothing, for it executes
with its even core; an integer instruction of the even core whose result is the same in both cores writes and retires both; one whose
results differ stops both and raises incident 0x0203. -/
def Obligations.WickYieldHaltTrapAndPairs : Prop :=
  (
  (∀ (s : State) (t : TileId) (c : CoreIx), coreReady s t c [] →
    let w := getWick s t c
    (∃ u, exec (.yield t c) s = .next u ∧
      (w.foldReq = none → onlyCore s u t c (retired w)) ∧
      (∀ f, w.foldReq = some f → wkResolved w = true →
        coreAndTraffic s u t c (getWick u t c) ∧ (getWick u t c).fold = f ∧ (getWick u t c).foldReq = none ∧
          ((getWick u t c).run = if bit (mget 0 w.ctx f).toNat 0 && !mget false w.halted f then .running else .halted) ∧ (getWick u t c).queues = w.queues ∧
          (getWick u t c).ctx = w.ctx) ∧
      (∀ f, w.foldReq = some f → wkResolved w = false → getWick u t c = wkStall w stFold 1 ∧ otherCores s u t c)) ∧
    (∃ u, exec (.wickHalt t c) s = .next u ∧
      (w.foldReq = none → onlyCore s u t c { w with instret := w.instret + 1, run := .halted, halted := mset false w.halted w.fold true }) ∧
      (∀ f, w.foldReq = some f → wkResolved w = true → (getWick u t c).fold = f ∧ otherCores s u t c) ∧
      (∀ f, w.foldReq = some f → wkResolved w = false → getWick u t c = wkStall w stFold 1)) ∧
    (∀ imm : BitVec 14, imm ≠ 0 → ∃ u, exec (.trap t c imm) s = .next u ∧ (getWick u t c).ecause = 6 ∧ (getWick u t c).epc = w.pc.toNat ∧
      (getWick u t c).eval = BitVec.ofNat 32 imm.toNat ∧ (getWick u t c).run = .stopped ∧ (getWick u t c).regs = w.regs ∧
      (getWick u t c).pc = w.pc ∧ (getWick u t c).instret = w.instret) ∧
    exec (.trap t c 0) s = exec (.wickHalt t c) s)
  ) ∧ (
  (∀ (s : State) (t : TileId) (c : CoreIx) (ins : AluIns), wkOddLocked s t c = true → exec (.integerAlu t c ins) s = .next s) ∧
  (∀ (s : State) (t : TileId) (c : CoreIx) (o : AluOp) (gd a : GReg) (src : WSrc), coreFree s t c (gd.val :: a.val :: srcUse src) →
    wkEvenLocked (getWick s t c) c = true → wkFetch (wkPairView (getWick s t c) (getWick s t (c.val + 1))) = none →
    (∀ r ∈ gd.val :: a.val :: srcUse src, wkPending (wkPairView (getWick s t c) (getWick s t (c.val + 1))) r = false) →
    (getWick s t (c.val + 1)).sendb = none → mget 0 (getWick s t (c.val + 1)).memErr ((getWick s t (c.val + 1)).pc.toNat / 4) ≠ 1 →
    let w := getWick s t c
    let b := getWick s t (c.val + 1)
    let res (w : Wick) : Reg := wkJoin (aluVal o (wkReg w a).v (srcVal w src).v) (wkReg w a) (srcVal w src)
    ∃ u, exec (.integerAlu t c (.op o gd a src)) s = .next u ∧
      (res w = res b → getWick u t c = retired (wkSetReg w gd (res w)) ∧ 
        (getWick u t (c.val + 1)).regs = (wkSetReg b gd (res w)).regs ∧ (getWick u t (c.val + 1)).pc = b.pc + 4 ∧
        (getWick u t (c.val + 1)).instret = b.instret + 1 ∧ (getWick u t (c.val + 1)).mem = b.mem ∧ (getWick u t (c.val + 1)).queues = b.queues) ∧
      (res w ≠ res b → (getWick u t c).run = .stopped ∧ (getWick u t (c.val + 1)).run = .stopped ∧
        (getWick u t c).regs = w.regs ∧ (getWick u t (c.val + 1)).regs = b.regs ∧
        raisedFirst s u t 0x0203 c (BitVec.ofNat 64 (w.pc.toNat + (c.val + 1) * 2 ^ 16))))
  )

/-- LDR, STR, RRSP and RACC (R177, R193, R194, R196, Table 6.9): a remote access takes the lowest free tag and sends one packet; the target
MU serves it or refuses it by the table; a reply by the deadline writes its register and frees its tag, one in the deadline cycle counts a
tie, and one after it leaves a load poisoned; a reply to an earlier request of the tag is discarded. -/
def Obligations.WickRemoteAccess : Prop :=
  (∀ (s : State) (t : TileId) (c : CoreIx) (gd a b : GReg) (g : Nat), coreReady s t c [gd.val, a.val, b.val] →
    let w := getWick s t c
    let tile := (wkReg w a).v.toNat / 4 % 2 ^ 14
    let mu := (wkReg w a).v.toNat % 4
    let ofs := (wkReg w b).v.toNat % 2 ^ 20
    let due := cyclesOf s t + bits (mget 0 w.ctx w.fold).toNat 32 16 * 16
    (wkReg w a).poi = false → (wkReg w b).poi = false →
    (List.range 4).find? (fun i => mget RTag.free w.tags i = .free) = some g →
    ((tile ≠ t.val ∨ ofs % 4 ≠ 0) → ∃ u, exec (.ldr t c gd a b) s = .next u ∧
      coreAndTraffic s u t c (retired { w with tags := mset RTag.free w.tags g (.live true gd due s.net.next) }) ∧
      sent s u (injected t (qaMake t c 0) (qaMake tile (50 + mu) 0) w.fold (epochAt s t) true (.racc false g ofs Reg.zero))) ∧
    (tile = t.val → ofs % 4 = 0 → w.own.length < 4 → ∃ u, exec (.ldr t c gd a b) s = .next u ∧
      getWick u t c = retired { w with own := w.own ++ [⟨gd.val, ⟨BitVec.ofNat 32 (leNat (muRead s t mu ofs 4).1), (muRead s t mu ofs 4).2.1, false⟩⟩] } ∧
      otherCores s u t c) ∧
    (∃ u, exec (.str t c gd a b) s = .next u ∧
      coreAndTraffic s u t c (retired { w with tags := mset RTag.free w.tags g (.live false 0 due s.net.next) }) ∧
      sent s u (injected t (qaMake t c 0) (qaMake tile (50 + mu) 0) w.fold (epochAt s t) true (.racc true g ofs (wkReg w gd))))) ∧
  (∀ (s : State) (pid : Nat) (p : Packet) (t c tag rd dl : Nat) (l poi : Bool) (v : W32) (o : Outc), getPacket s pid = some p →
    p.body = .rrsp tag v poi o → p.loc = .deliver t → qaTile p.dst = t → qaUnit p.dst = c → c < 48 →
    mget RTag.free (getWick s t c).tags tag = .live l rd dl p.re → wkEvenLocked (getWick s t c) c = false →
    let w := getWick s t c
    let now := cyclesOf s t
    let o' := if now ≤ dl then o else .timeout
    let w1 := if l then wkSetReg w rd (if o' = .done then ⟨v, poi, false⟩ else ⟨0, true, false⟩) else w
    let w2 := { w1 with tags := mset RTag.free w.tags tag .free }
    let w3 := if o' = .done then w2 else { w2 with rlerrN := satAdd 16 w.rlerrN 1, rlerrO := if w.rlerrN = 0 then outcCode o' else w.rlerrO }
    ∃ u, exec (.rrsp pid) s = .next u ∧
      onlyCore (delPacket s pid) u t c (if now = dl then { w3 with tie := satAdd 16 w.tie 1 } else w3)) ∧
  (∀ (s : State) (pid : Nat) (p : Packet) (t c tag rd dl rq : Nat) (l poi : Bool) (v : W32) (o : Outc), getPacket s pid = some p →
    p.body = .rrsp tag v poi o → p.loc = .deliver t → qaTile p.dst = t → qaUnit p.dst = c → c < 48 →
    (mget RTag.free (getWick s t c).tags tag = .live l rd dl rq → p.re ≠ rq → exec (.rrsp pid) s = .next (delPacket s pid)) ∧
    (mget RTag.free (getWick s t c).tags tag = .expired p.re → ∃ u, exec (.rrsp pid) s = .next u ∧
      onlyCore (delPacket s pid) u t c { getWick s t c with tags := mset RTag.free (getWick s t c).tags tag .free })) ∧
  (∀ (s : State) (pid : Nat) (p : Packet) (t k tag ofs : Nat) (st : Bool) (d : Reg), getPacket s pid = some p → pid < s.net.next →
    p.body = .racc st tag ofs d → p.loc = .deliver t → qaTileForm p.dst = true → qaTile p.dst = t → qaUnit p.dst = 50 + k → k < 4 →
    let answer (v : W32) (poi : Bool) (o : Outc) : Packet :=
      injected t (qaMake t (50 + k) 0) p.src (getFlow s t (50 + k)).curFold (epochAt s t) true (.rrsp tag v poi o)
    ∃ u, exec (.racc pid) s = .next u ∧
      (fenced s t = true → answeredWith s u pid (answer 0 false .refusedFenced) ∧ u.mus = s.mus) ∧
      (fenced s t = false → groupRecovering s t = true → foreign s t p.src = true → answeredWith s u pid (answer 0 false .refusedFenced) ∧ u.mus = s.mus) ∧
      (fenced s t = false → groupRecovering s t = false → ofs % 4 ≠ 0 → answeredWith s u pid (answer 0 false .fault) ∧
        raised s u t 0x0103 k (BitVec.ofNat 64 ofs) ∧ u.mus = s.mus) ∧
      (fenced s t = false → groupRecovering s t = false → ofs % 4 = 0 → st = false →
        answeredWith s u pid (answer (BitVec.ofNat 32 (leNat (muRead s t k ofs 4).1)) (muRead s t k ofs 4).2.1 .done)) ∧
      (fenced s t = false → groupRecovering s t = false → ofs % 4 = 0 → st = true → ∀ m, muWriteAll (getMu s t k) ofs (leBytes 4 d.v.toNat) d.poi = some m →
        answeredWith s u pid (answer 0 false .done) ∧ getMu u t k = m))

/-- MSG, MSGB, REPLY and PROBE at a core (R217, R220, R223, R225, R231, Table 7.6): a message is stored whole or refused with the outcome of
the first row that fails, counted, and answered once; one of the data network that came in the same cycle as one of the control network for the same
queue waits a cycle (R218); the reply resolves the ticket it names, or ends or backs off the SENDB, and one to an earlier send is discarded (R224, R226); a probe goes on
to the core that its core is blocked on, or reports a mutual block at its originator. -/
def Obligations.MessagesAndRepliesAtCores : Prop :=
  (∀ (s : State) (pid : Nat) (p : Packet) (t c q : Nat) (b : Bool) (ws : List QEnt), getPacket s pid = some p → pid < s.net.next →
    p.body = .msg b ws → p.loc = .deliver t → portWait s t p = none → qaTileForm p.dst = true → qaTile p.dst = t → qaUnit p.dst = c → qaQueue p.dst = q → c < 48 →
    let w := getWick s t c
    let user := w.core.toNat.testBit (8 + q)
    let answer (o : Outc) : Packet := injected t (qaMake t c 0) p.src w.fold (epochAt s t) true (.reply o (if b then 2 else 1) (qaQueue p.src))
    let refusedAs (u : State) (o : Outc) : Prop := answeredWith s u pid (answer o) ∧ (getWick u t c).queues = w.queues ∧
      mget 0 (getWick u t c).qref q = satAdd 32 (mget 0 w.qref q) 1
    ∃ u, exec (if b then .msgb pid else .msg pid) s = .next u ∧
      (fenced s t = true → answeredWith s u pid (answer .refusedFenced) ∧ u.wicks = s.wicks) ∧
      (fenced s t = false →
        ((w.core.toNat.testBit q = false ∨ wkOddLocked s t c = true) → refusedAs u .refusedFull) ∧
        (w.core.toNat.testBit q = true → wkOddLocked s t c = false → gatedAt s t = true → user = true → foreign s t p.src = true → refusedAs u .refusedFull) ∧
        (w.core.toNat.testBit q = true → wkOddLocked s t c = false → user = false → p.epoch ≠ epochAt s t → refusedAs u .refusedEpoch) ∧
        (w.core.toNat.testBit q = true → wkOddLocked s t c = false → (gatedAt s t = false ∨ user = false ∨ foreign s t p.src = false) →
          (user = true ∨ p.epoch = epochAt s t) →
          ((mget [] w.queues q).length + ws.length > 16 → refusedAs u .refusedFull) ∧
          ((mget [] w.queues q).length + ws.length ≤ 16 → answeredWith s u pid (answer .done) ∧
            mget [] (getWick u t c).queues q = mget [] w.queues q ++ ws ∧
            mget 0 (getWick u t c).qacc q = satAdd 32 (mget 0 w.qacc q) 1)))) ∧
  (∀ (s s' : State) (pid : Nat) (p : Packet) (t : Nat) (b : Bool) (ws : List QEnt), getPacket s pid = some p → p.body = .msg b ws →
    p.loc = .deliver t → qaTile p.dst = t → qaUnit p.dst < 54 → portWait s t p = some s' →
    exec (if b then .msgb pid else .msg pid) s = .next s' ∧ s'.net = s.net ∧ (∀ k q, mget [] (getWick s' t k).queues q = mget [] (getWick s t k).queues q)) ∧
  (∀ (s : State) (pid : Nat) (p : Packet) (t c tk : Nat) (o : Outc) (d : Bool), getPacket s pid = some p →
    p.body = .reply o (if d then 3 else 1) tk → p.loc = .deliver t → qaTile p.dst = t → qaUnit p.dst = c → c < 48 → fenced s t = false →
    let w := getWick s t c
    let x := mget Ticket.fresh w.tickets tk
    x.pending = true → x.pid = p.re →
    ∃ u, exec (.reply pid) s = .next u ∧
      (cyclesOf s t ≤ x.deadline →
        let w1 := { w with tickets := mset Ticket.fresh w.tickets tk { x with pending := false, outc := o } }
        getWick u t c = { w1 with tie := if cyclesOf s t = x.deadline then satAdd 16 w.tie 1 else w.tie }) ∧
      (x.deadline < cyclesOf s t → getWick u t c = { w with tickets := mset Ticket.fresh w.tickets tk { x with pending := false, outc := .timeout } })) ∧
  (∀ (s : State) (pid : Nat) (p : Packet) (t c tk kind : Nat) (o : Outc), getPacket s pid = some p →
    p.body = .reply o kind tk → kind ∈ [1, 2, 3] → p.loc = .deliver t → qaTile p.dst = t → qaUnit p.dst = c → c < 48 → fenced s t = false →
    (kind ≠ 2 → (mget Ticket.fresh (getWick s t c).tickets tk).pid ≠ p.re) → (kind = 2 → ∀ b, (getWick s t c).sendb = some b → b.pid ≠ p.re) →
    ∃ u, exec (.reply pid) s = .next u ∧ u.wicks = s.wicks) ∧
  (∀ (s : State) (pid : Nat) (p : Packet) (t c ref : Nat) (o : Outc) (b : SendB), getPacket s pid = some p →
    p.body = .reply o 2 ref → p.loc = .deliver t → qaTile p.dst = t → qaUnit p.dst = c → c < 48 → fenced s t = false →
    (getWick s t c).sendb = some b → b.awaiting = true → b.pid = p.re → wkEvenLocked (getWick s t c) c = false →
    let w := getWick s t c
    let now := cyclesOf s t
    ∃ u, exec (.reply pid) s = .next u ∧ otherCores s u t c ∧
      (b.deadline + 4096 < now → (getWick u t c).sendb = none ∧ (getWick u t c).regs = (wkSetReg w b.gd ⟨9, false, false⟩).regs) ∧
      (o ≠ .refusedFull → now ≤ b.deadline + 4096 → (getWick u t c).sendb = none ∧ (getWick u t c).pc = w.pc + 4 ∧
        (getWick u t c).regs = (wkSetReg w b.gd ⟨BitVec.ofNat 32 (outcCode o), false, false⟩).regs) ∧
      (o = .refusedFull → now < b.deadline → ∃ b', (getWick u t c).sendb = some b' ∧ b'.awaiting = false ∧ b'.resume = now + b.wait ∧
        b'.wait = b.wait ∧ b'.deadline = b.deadline ∧ (getWick u t c).pc = w.pc ∧ (getWick u t c).regs = w.regs) ∧
      (o = .refusedFull → b.deadline ≤ now → now ≤ b.deadline + 4096 → (getWick u t c).sendb = none ∧ (getWick u t c).pc = w.pc + 4 ∧
        (getWick u t c).regs = (wkSetReg w b.gd ⟨3, false, false⟩).regs)) ∧
  (∀ (s : State) (pid : Nat) (p : Packet) (t c hops mina orig : Nat) (b : SendB) (d : Nat), getPacket s pid = some p → pid < s.net.next →
    p.body = .probe hops mina orig → p.loc = .deliver t → qaTile p.dst = t → qaUnit p.dst = c → c < 48 → fenced s t = false →
    (getWick s t c).sendb = some b → b.blockedOn = some d → sendbOver (cyclesOf s t) b = false →
    let me := qaMake t c 0
    ∃ u, exec (.probe pid) s = .next u ∧ u.wicks = s.wicks ∧
      (orig ≠ me → hops < 63 → passedOn s u pid (injected t me d (getWick s t c).fold (epochAt s t) true (.probe (hops + 1) (min mina me) orig))) ∧
      (orig = me → mina = me → b.probed = true → raised s u t 0x0501 c (BitVec.ofNat 64 (d + hops * 2 ^ 23)))) ∧
  (∀ (s : State) (pid : Nat) (p : Packet) (t c hops mina orig : Nat), getPacket s pid = some p → p.body = .probe hops mina orig → p.loc = .deliver t →
    (∀ b, (getWick s t c).sendb = some b → sendbOver (cyclesOf s t) b = true) → qaUnit p.dst = c →
    ∃ u, exec (.probe pid) s = .next u ∧ getPacket u pid = none ∧ { u with net := s.net } = s)

/-! ### CUs (chapters 3, 4 and 8) -/

/-- CU_CONTEXT_START, MICRO_OP_ISSUE, UOP_HALT, LOADX and LOADW (R83, R84, R86, R90 to R92, R136): a context starts at its entry with the tag of
the token that starts it; the next micro-op of a running context issues when its operands are there (a matrix micro-op in an issue cycle), unless
a waiting verification has the lower `PRIO`; a LOADW goes on beside what follows it; HALT ends the program; LOADX fills the vector hold buffer
from its queue; LOADW writes its last slot from the feed and takes those bytes from it (what LOADW's depth, K and K position are: assumption 110). -/
def Obligations.CuContextsIssueAndLoads : Prop :=
  (∀ (s : State) (t : TileId) (k : CuIx), unitRuns s t = true →
    let c := getCu s t k
    let f := getFlow s t (48 + k.val)
    let slot := curSlot f
    let entry := (mget 0 c.cfg slot).toNat / 2 ^ 30 % 64
    let w := uopAt c slot entry
    let head := (uopQueues c slot w).findSome? (headTok f)
    (cuCtx c slot).running = false → uOpc w ≠ 0 → c.old = none → (f.foldReq = false ∨ c.acc ≠ []) → (uopQueues c slot w ≠ [] → head ≠ none) →
    let x := { cuCtx c slot with running := true, next := entry, startTag := (head.map (·.tag)).getD 0, count := ((cuCtx c slot).count + 1) % 2 ^ 32 }
    ∃ u, exec (.cuContextStart t k) s = .next u ∧ onlyCu s u t k { c with ctxs := mset CuCtx.idle c.ctxs slot x }) ∧
  (∀ (s : State) (t : TileId) (k : CuIx), unitRuns s t = true →
    let c := getCu s t k
    let f := getFlow s t (48 + k.val)
    let slot := curSlot f
    let x := cuCtx c slot
    let w := uopAt c slot x.next
    c.issued = none → c.old = none → f.foldReq = false →
    (verWaiting s t k slot = none → x.running = true → uopReady c f slot w = true → slotsAwaited c w = false →
      ((uOpc w = 1 ∨ uOpc w = 3) → issueOpen s t = true) →
      ∃ u r, exec (.microOpIssue t k) s = .next u ∧ r.slot = slot ∧ r.uop = x.next ∧ r.row = 0 ∧ r.ver = none ∧ r.late = false ∧
        r.epoch = epochAt s t ∧ r.seed = (regionAt s t).seed ∧ r.step = (regionAt s t).step.toNat ∧
        (uOpc w ≠ 3 → getCu u t k = { c with issued := some r, rot := 0 }) ∧
        (uOpc w = 3 → getCu u t k = { c with loading := some r, rot := 0, ctxs := mset CuCtx.idle c.ctxs slot { x with next := uNext w } }) ∧
        { u with cus := s.cus, net := s.net, trace := s.trace, inc := s.inc } = s) ∧
    (∀ e, verWaiting s t k slot = some e → issueOpen s t = true → uOpc (uopAt c slot (prVuop e.2)) = 1 →
      (x.running = false ∨ uopReady c f slot w = false ∨ uPrio (uopAt c slot (prVuop e.2)) < uPrio w) →
      ∃ u r, exec (.microOpIssue t k) s = .next u ∧ (getCu u t k).issued = some r ∧ r.slot = slot ∧ r.uop = prVuop e.2 ∧ r.ver = some e.1)) ∧
  (∀ (s : State) (t : TileId) (k : CuIx) (run : URun), (getCu s t k).issued = some run → cuMoves s t = true → run.ver = none → run.late = false →
    uOpc (uopAt (getCu s t k) run.slot run.uop) = 15 →
    ∃ u, exec (.uopHalt t k) s = .next u ∧ (getCu u t k).issued = none ∧ (cuCtx (getCu u t k) run.slot).running = false) ∧
  (∀ (s s' : State) (t : TileId) (k : CuIx) (run : URun) (p : OpPart), (getCu s t k).issued = some run → cuMoves s t = true → run.late = false →
    (getCu s t k).old = none →
    let w := uopAt (getCu s t k) run.slot run.uop
    uOpc w = 4 → fillA s t (48 + k.val) w run.part = (p, s', true) →
    ∃ u, exec (.loadx t k) s = .next u ∧ (getCu u t k).issued = none ∧ (getCu u t k).vhb = p.el.take (uK w) ∧ (getCu u t k).vhbScl = p.scl ∧
      (getCu u t k).vhbPoi = p.poi ∧ (getCu u t k).vhbApx = p.apx ∧ (getCu u t k).slots = (getCu s t k).slots ∧
      (getCu u t k).acc = (getCu s t k).acc) ∧
  (∀ (s : State) (t : TileId) (k : CuIx) (run : URun) (b : Fed) (rest : List FeedBlk),
    (getCu s t k).loading = some run → cuMoves s t = true → run.late = false → (getCu s t k).old = none →
    let c := getCu s t k
    let w := uopAt c run.slot run.uop
    let i := uSlot w + run.row
    let use := slotUse c run w i
    let d := use.1
    uOpc w = 3 → run.row = w.2.toNat % 16 → slotRead c i = false →
    feedTake (cuFeed c (uAgp w)) (blkBytes (uWfmt w) d (uSpat w) (uSclw w)) Fed.none = some (b, rest) →
    ∃ u, exec (.loadw t k) s = .next u ∧ (getCu u t k).loading = none ∧ cuFeed (getCu u t k) (uAgp w) = rest ∧
      (let x := unpackBlock (uWfmt w) d (uSpat w) (uSclw w) use.2.1 use.2.2 (leNat b.bytes)
       mget WSlot.empty (getCu u t k).slots i = mkSlot (uWfmt w) d (uSpat w) (uSclw w) x.1 x.2.1 (b.poi || !x.2.2.isEmpty) b.pcols) ∧
      (∀ j, j ≠ i → mget WSlot.empty (getCu u t k).slots j = mget WSlot.empty c.slots j) ∧
      (getCu u t k).acc = c.acc ∧ (getCu u t k).vhb = c.vhb)

/-- MATMUL and VECTOR (R86, R87, R89, R91, R114, assumption 32): the last row of a weight-stationary MATMUL leaves in its accumulators the row
accumulated over the resident blocks; a MATMUL or VECTOR that has gone through its rows ends with the outcome of its markers, and its context goes
on at `NEXT`; one that runs out of operands keeps its place and counts the stall. -/
def Obligations.CuMatmulAndVector : Prop :=
  (∀ (s s1 : State) (t : TileId) (k : CuIx) (run : URun) (p : OpPart) (ep : EPlace), (getCu s t k).issued = some run → cuMoves s t = true →
    run.late = false → (getCu s t k).old = none →
    let w := uopAt (getCu s t k) run.slot run.uop
    uOpc w = 1 → uMode w = 0 → uAout w = false → run.row + 1 = uRows w → bit (cuCfg (getCu s t k) run.slot) 4 = false →
    (getFlow s t (48 + k.val)).out = [] → issueOpen s t = true → fillA s t (48 + k.val) w run.part = (p, s1, true) →
    let m := slotsRead s1 t k w
    ∃ u, exec (.matmul t k ⟨[], []⟩ ep) s = .next u ∧ (getCu u t k).issued = none ∧
      (getCu u t k).acc = mput (getCu s t k).acc run.row (accumulate m.1 t k { run with part := p, tag := p.tag.getD 0 } w (partRow w p) m.2).1 ∧
      (getCu u t k).slots = (getCu s t k).slots ∧ (getCu u t k).vhb = (getCu s t k).vhb) ∧
  (∀ (s : State) (t : TileId) (k : CuIx) (run : URun) (fl : MatFault) (ep : EPlace), (getCu s t k).issued = some run → cuMoves s t = true →
    let w := uopAt (getCu s t k) run.slot run.uop
    run.late = false → uOpc w = 1 → (getFlow s t (48 + k.val)).out = [] → issueOpen s t = true →
    let z := vhbLoad s t k run w
    let r := matLoop (uRows w + 70000) z.1 t k z.2.1 w fl ep
    ∃ u, exec (.matmul t k fl ep) s = .next u ∧
      (z.2.2 = false → (getCu u t k).issued = some z.2.1) ∧
      (z.2.2 = true → (uMode w ≠ 1 ∨ isGather z.1 t k z.2.1 w = false) →
        (r.2.2 = true → ∀ v, endUop r.1 t k r.2.1 w ep = some v → u = v ∧
          (run.ver = none → predOf (getCu s t k) run.slot run.uop = none → (getCu u t k).issued = none ∧
            (cuCtx (getCu u t k) run.slot).outc = (if r.2.1.poi then .poisoned else if r.2.1.apx then .approx else .done) ∧
            (cuCtx (getCu u t k) run.slot).next = uNext w)) ∧
        (r.2.2 = false → (getCu u t k).issued = some r.2.1))) ∧
  (∀ (s s1 : State) (t : TileId) (k : CuIx) (run : URun) (tok : Token) (ep : EPlace), (getCu s t k).issued = some run → cuMoves s t = true →
    let w := uopAt (getCu s t k) run.slot run.uop
    run.late = false → uOpc w = 2 → isSteer (getCu s t k) run.slot w = false → run.row + 1 = uRows w → (getFlow s t (48 + k.val)).out = [] →
    takeTok s t (48 + k.val) (uInq w) = some (tok, s1) →
    let run1 := { run with tag := tok.tag }
    let v := tokVec (uAfmt w) tok
    let sh := shadowRow s1 t k run1 w (if v.fmt = .pair then 2 else 1) []
    (tok.ctl = none → ∀ s2 r u, sendBeats [(0, headPass run1 v (tokPoi v tok || sh.2) tok.apx)] sh.1 t k run1 w ep = some (s2, r) →
      endUop s2 t k { r with row := run.row + 1 } w ep = some u → exec (.vector t k [] ep) s = .next u ∧ (getCu u t k).issued = none) ∧
    (∀ kind u, tok.ctl = some kind →
      endUop (emitCtl s1 (cuEmit s1 t k (uOstr w) run1 tok.poi tok.apx) kind tok.val) t k
        { run1 with row := run.row + 1, poi := run.poi || tok.poi, apx := run.apx || tok.apx } w ep = some u →
      exec (.vector t k [] ep) s = .next u ∧ (getCu u t k).issued = none)) ∧
  (∀ (s : State) (t : TileId) (k : CuIx) (run : URun) (sh : List Nat) (ep : EPlace), (getCu s t k).issued = some run → cuMoves s t = true →
    let w := uopAt (getCu s t k) run.slot run.uop
    run.late = false → uOpc w = 2 → isSteer (getCu s t k) run.slot w = false → run.row < uRows w → (getFlow s t (48 + k.val)).out = [] →
    takeTok s t (48 + k.val) (uInq w) = none → feederFenced s (qaMake t (48 + k.val) (uInq w)) = false →
    ∃ u, exec (.vector t k sh ep) s = .next u ∧ getCu u t k = { getCu s t k with issued := some run } ∧
      mget 0 (getFlow u t (48 + k.val)).stall stInput = satAdd 48 (mget 0 (getFlow s t (48 + k.val)).stall stInput) 1)

/-- STEERING_FIRE, MASK_DEADLINE and OUTPUT_TOKEN_SEND (R106, R134, R253, R254, R262, R263, R292): two heads with the tag of the steering base are
taken and the base rises; a filter with control value 0 drops the data token and counts it; a head with another tag is incident 0x0401 and
stops the region; a mask that is late gives way to the fallback, which also a gather that has begun takes; a unit's tokens enter the router as far
as credits and the router's local buffer go. -/
def Obligations.CuSteeringMaskAndOutput : Prop :=
  (∀ (s s1 s2 : State) (t : TileId) (k : CuIx) (run : URun) (ct dt : Token) (ep : EPlace), (getCu s t k).issued = some run → cuMoves s t = true →
    let c := getCu s t k
    let w := uopAt c run.slot run.uop
    let v0 := v0Of c run.slot w
    let x := cuCtx c run.slot
    run.late = false → isSteer c run.slot w = true → sVop v0 = 0x53 → (getFlow s t (48 + k.val)).out = [] → run.row + 1 < uRows w →
    headTok (getFlow s t (48 + k.val)) (uInq w) = some ct → headTok (getFlow s t (48 + k.val)) (uInq w ^^^ 1) = some dt →
    ct.tag = x.tbase → dt.tag = x.tbase → ct.val % 2 = 0 →
    takeTok s t (48 + k.val) (uInq w) = some (ct, s1) → takeTok s1 t (48 + k.val) (uInq w ^^^ 1) = some (dt, s2) →
    ∃ u, exec (.steeringFire t k [] ep) s = .next u ∧ (cuCtx (getCu u t k) run.slot).tbase = (x.tbase + 1) % 256 ∧
      (getCu u t k).filterDrop = satAdd 48 c.filterDrop 1 ∧ (getCu u t k).issued = some { run with row := run.row + 1 } ∧
      u.flows = s2.flows ∧ u.net = s2.net) ∧
  (∀ (s : State) (t : TileId) (k : CuIx) (run : URun) (ct : Token) (sh : List Nat) (ep : EPlace), (getCu s t k).issued = some run → cuMoves s t = true →
    let c := getCu s t k
    let w := uopAt c run.slot run.uop
    run.late = false → run.row < uRows w → isSteer c run.slot w = true → sVop (v0Of c run.slot w) ≠ 0x52 → (getFlow s t (48 + k.val)).out = [] →
    headTok (getFlow s t (48 + k.val)) (uInq w) = some ct → ct.tag ≠ (cuCtx c run.slot).tbase →
    ∃ u, exec (.steeringFire t k sh ep) s = .next u ∧ raised s u t 0x0401 k (BitVec.ofNat 64 (uInq w)) ∧
      (∀ r, regionOf s t = some r → (getRegion s r).st ≠ .stopped → (getRegion s r).st ≠ .empty → (getRegion u r).st = .stopped)) ∧
  (∀ (s : State) (t : TileId) (k : CuIx) (run : URun) (i dl : Nat) (pw : W64), (getCu s t k).issued = some run → cuMoves s t = true →
    let c := getCu s t k
    let w := uopAt c run.slot run.uop
    let lo := muLow k w
    let q := bits (progWord s t lo (uAgp w) 0) 55 3
    run.late = false → predOf c run.slot run.uop = some (i, pw) → run.deadline = some dl → run.fallback = false →
    (∀ g ∈ (getMu s t lo).gens, g.2.prog = uAgp w → g.2.cu = some k.val → g.2.mask = [] ∧ g.2.maskEnd = false) →
    headTok (getFlow s t (50 + lo)) q = none → gatherEnd c (uAgp w) = none →
    ∃ u, exec (.maskDeadline t k) s = .next u ∧ (getCu u t k).issued = some { run with deadline := none, fallback := true } ∧
      mget 0 (getCu u t k).pc ((run.slot * 4 + i) * 9 + 3) = satAdd 48 (mget 0 c.pc ((run.slot * 4 + i) * 9 + 3)) 1 ∧
      mget 0 (getMu u t lo).maskDrop q = mget 0 (getMu s t lo).maskDrop q + 1 ∧
      (∀ g ∈ (getMu u t lo).gens, g.2.prog = uAgp w → g.2.cu = some k.val → g.2.direct = true)) ∧
  (∀ (s : State) (t : TileId) (u : Fin 6) (o : OutPend) (rest : List OutPend), (getFlow s t (48 + u.val)).out = o :: rest → unitsStill s t = false →
    let f := getFlow s t (48 + u.val)
    let x := getStrm f o.ostr
    let room := if stMode x = 0 then x.cred else if stMode x = 1 then (if x.inflight = none then 1 else 0) else 15
    let n := min room (packRun x o.toks)
    let b := tokBody x o.ostr (o.toks.take n)
    let epoch := (o.toks.head?.map (·.epoch)).getD (epochAt s t)
    o.old = none →
    ∃ v, exec (.outputTokenSend t u) s = .next v ∧
      (n = 0 → v = outStall s t (48 + u.val) ∧ v.cus = s.cus ∧ v.mus = s.mus ∧ (getFlow v t (48 + u.val)).out = f.out) ∧
      (n ≠ 0 → localRoom s t b = false →
        getFlow v t (48 + u.val) = flStall f stCredit 1 ∧ v.cus = s.cus ∧ v.mus = s.mus) ∧
      (n ≠ 0 → localRoom s t b = true →
        sent s v (injected t (qaMake t (48 + u.val) 0) (strmDst x) (stDfold x) epoch (bodyCtl b) b) ∧
        (getStrm (getFlow v t (48 + u.val)) o.ostr).cred = (if stMode x = 0 then x.cred - n else x.cred) ∧
        (getFlow v t (48 + u.val)).out = (if o.toks.drop n = [] then rest else ⟨o.ostr, o.toks.drop n, none⟩ :: rest) ∧
        { v with flows := s.flows, net := s.net } = s))

/-! ### Descriptors and MUs (chapters 5 and 7) -/

/-- DESC, DESCRIPTOR_RECORD_WRITTEN, RING_PRODUCE and RING_CONSUME (R155, R168, R233, R236 to R238, Table 7.9): a descriptor is refused or faulted by
the first row of Table 7.9 that fails, else its record is reserved in its ring, after a PAD where one is due; the record is filled from the buffer,
written and answered; a producer program turns a token into a record, or refuses it, or raises 0x0103 where its ring leaves the MU (R155; a
refused token has left QDAT: assumption 115); a consumer program takes the oldest complete record as it reads from the ring. -/
def Obligations.DescriptorsAndRings : Prop :=
  (∀ (s : State) (pid : Nat) (p : Packet) (t k : Nat) (d : QEnt), getPacket s pid = some p → pid < s.net.next → p.body = .desc d →
    p.loc = .deliver t → qaTileForm p.dst = true → qaTile p.dst = t → qaUnit p.dst = 50 + k → k < 4 →
    let len := bits d.w.toNat 48 16
    let a := bits d.w.toNat 0 48
    let answer (o : Outc) : Packet :=
      injected t (qaMake t (50 + k) 0) p.src (getFlow s t (50 + k)).curFold (epochAt s t) true (.reply o 3 (qaQueue p.src))
    ∃ u, exec (.desc pid) s = .next u ∧
      (fenced s t = true → answeredWith s u pid (answer .refusedFenced) ∧ u.mus = s.mus) ∧
      (fenced s t = false → producerOf s t k (qaQueue p.dst) = none → answeredWith s u pid (answer .fault) ∧
        raised s u t 0x0505 k (BitVec.ofNat 64 p.dst) ∧ u.mus = s.mus) ∧
      (fenced s t = false → ∀ g, producerOf s t k (qaQueue p.dst) = some g →
        (4088 < len → answeredWith s u pid (answer .fault) ∧ raised s u t 0x0503 k (BitVec.ofNat 64 len) ∧ u.mus = s.mus) ∧
        (len ≤ 4088 → (a % 8 ≠ 0 ∨ onWafer a len = none) →
          answeredWith s u pid (answer .fault) ∧ raised s u t 0x0506 k (BitVec.ofNat 64 a) ∧ u.mus = s.mus) ∧
        (len ≤ 4088 → a % 8 = 0 → onWafer a len ≠ none →
          let ra := progRing s t k g
          let rg0 := mget RingRt.empty (getMu s t k).rings g
          let rl := 8 + (len + 7) / 8 * 8
          let rec0 : RingRec := ⟨0, rl, false, false, qaMake (qaTile p.src) (qaUnit p.src) 0, 1, false, false, [], none⟩
          (ringPut ra.size ra.ovSize rg0 rec0 = none → answeredWith s u pid (answer .refusedFull) ∧ u.mus = s.mus) ∧
          (∀ rg, ringPut ra.size ra.ovSize rg0 rec0 = some rg →
            u.net.next = s.net.next ∧ getPacket u pid = none ∧ mget RingRt.empty (getMu u t k).rings g = rg ∧
            (getMu u t k).jobs = (getMu s t k).jobs ++ [⟨p.src, p.id, g, rl, a, len⟩] ∧
            ((∀ pad o, ringPlace ra.size rg0 rl ≠ some (some pad, o)) →
              (getMu u t k).mem = (getMu s t k).mem ∧ { u with mus := s.mus, net := s.net } = s) ∧
            (∀ at_ n o, ringPlace ra.size rg0 rl = some (some (at_, n), o) → (getMu s t k).waitW = [] →
              ∀ m', muWriteAll (getMu s t k) (ra.base + at_) (leBytes 8 (recHeader 0 15 n false false)) false = some m' →
                (getMu u t k).mem = m'.mem))))) ∧
  (∀ (s : State) (t : TileId) (m : MuIx) (j : DescJob) (rest : List DescJob) (st su o : Nat) (pre post : List RingRec) (x : RingRec),
    (getMu s t m).jobs = j :: rest → unitsStill s t = false → onWafer j.addr j.len = some (st, su, o) →
    (mget RingRt.empty (getMu s t m).rings j.prog).recs = pre ++ x :: post → x.done = false → (∀ y ∈ pre, y.done = true) →
    let r := if fenced s st then (List.replicate j.len (0 : Byte), true, s) else if su < 48 then wickRead s st su o j.len else muRead s st (su - 50) o j.len
    let x' := { x with done := true, poi := r.2.1, data := r.1 ++ List.replicate (j.rlen - 8 - j.len) 0 }
    let ra := progRing s t m j.prog
    ∃ u, exec (.descriptorRecordWritten t m) s = .next u ∧ (getMu u t m).jobs = rest ∧
      (mget RingRt.empty (getMu u t m).rings j.prog).recs = pre ++ x' :: post ∧
      (x.ov = false → (getMu s t m).waitW = [] → ∀ m', muWriteAll { getMu r.2.2 t m with jobs := rest } (ra.base + x.ofs) (recBytes x') x'.poi = some m' →
        (getMu u t m).mem = m'.mem ∧ (getMu u t m).poi = m'.poi) ∧
      ∃ n, s.net.next ≤ n ∧ (getPacket u n).map Packet.re = some j.re ∧ (getPacket u n).map bare =
        some (injected t (qaMake t (50 + m) 0) j.src (getFlow s t (50 + m)).curFold (epochAt s t) true (.reply .done 3 (qaQueue j.src)))) ∧
  (∀ (s s1 : State) (t : TileId) (m : MuIx) (p : Fin 8) (tok : Token), muMoves s t = true →
    let w0 := progWord s t m p 0
    gMode w0 = 4 → bit (progWord s t m p 1) 63 = false → takeTok s t (50 + m) (gQdat w0) = some (tok, s1) →
    let ra := progRing s t m p
    let data := leBytes ((tok.len * 4 + 7) / 8 * 8) tok.val
    let rg0 := mget RingRt.empty (getMu s1 t m).rings p
    let put := ringPut ra.size ra.ovSize rg0 ⟨0, 8 + data.length, false, true, qaMake t (50 + m) 0, 2, tok.poi, tok.apx, data, none⟩
    ∃ u, exec (.ringProduce t m p) s = .next u ∧ u.flows = s1.flows ∧
      (2 ^ 20 < gBase w0 + ra.size → raisedAs s1 u t 0x0103 m ∧ (getMu u t m).mem = (getMu s1 t m).mem ∧
        mget RingRt.empty (getMu u t m).rings p = { rg0 with outc := .poisoned }) ∧
      (gBase w0 + ra.size ≤ 2 ^ 20 → put = none → (getMu u t m).mem = (getMu s1 t m).mem ∧
        mget RingRt.empty (getMu u t m).rings p = { rg0 with outc := .refusedFull }) ∧
      (gBase w0 + ra.size ≤ 2 ^ 20 → ∀ rg, put = some rg → mget RingRt.empty (getMu u t m).rings p = { rg with outc := .done } ∧
        (∀ r l m', rg.recs = l ++ [r] → r.ov = false → (∀ pad o, ringPlace ra.size rg0 (8 + data.length) ≠ some (some pad, o)) →
          (getMu s1 t m).waitW = [] → muWriteAll (getMu s1 t m) (gBase w0 + r.ofs) (recBytes r) tok.poi = some m' →
          getMu u t m = { m' with rings := mset RingRt.empty m'.rings p { rg with outc := .done } }))) ∧
  (∀ (s : State) (t : TileId) (m : MuIx) (p h : Fin 8) (r : RingRec) (rest : List RingRec), muMoves s t = true →
    let w0 := progWord s t m p 0
    let feeds (q : Nat) : Prop := gMode (progWord s t m q 0) = 4 ∧ bit (progWord s t m q 1) 63 = false ∧ gBase (progWord s t m q 0) = gBase w0
    gMode w0 = 4 → bit (progWord s t m p 1) 63 = true → genCanEmit s t m (freshGen s t m p none) = true →
    h ≠ p → feeds h → (∀ q : Nat, q < h → q ≠ p → ¬ feeds q) →
    let rg := mget RingRt.empty (getMu s t m).rings h
    let ra := progRing s t m h
    ∀ data poi s1, rg.recs = r :: rest → r.done = true → ringFetch s t ra r = some (data, poi, s1) →
    let s2 := setMu s1 t m { getMu s1 t m with rings := mset RingRt.empty (getMu s1 t m).rings h (ringTake ra.size ra.ovSize rg) }
    ∃ u, exec (.ringConsume t m p) s = .next u ∧ mget RingRt.empty (getMu u t m).rings h = ringTake ra.size ra.ovSize rg ∧
      u = genEmit s2 t m { freshGen s t m p none with apx := r.apx } none data poi)

/-- GENERATOR_START (R153): a micro-op of a CU whose feed a program is, or a token of `QIN`, puts the program on the lower idle generator, on
both MUs of a pair for a paired feed; the start token of a list program is consumed, of another stays (log entry 34). AFFINE_BEAT and INDIRECT_ACCESS (R155, R158, R159, R160): a beat at the address that the loop nest or the index gives is read and
delivered, written from `QDAT`, or added to; the loop counters or the index move on; an address beyond the MU is incident 0x0103. -/
def Obligations.GeneratorStartsAndBeats : Prop :=
  (
  (∀ (s : State) (t : TileId) (m : MuIx) (p : Fin 8) (tok : Token) (g : Nat),
    let x := freshGen s t m p none
    let w0 := x.w0.toNat
    muMoves s t = true → (getFlow s t (50 + m)).foldReq = false → genFor (getMu s t m) p none = none → 0 < gMode w0 → gMode w0 < 4 → 1 < gDest w0 →
    headTok (getFlow s t (50 + m)) (gQin w0) = some tok → freeGen (getMu s t m) = some g →
    let y := { x with tag := tok.tag, poi := tok.poi, apx := tok.apx }
    ∃ u, exec (.generatorStart t m p none) s = .next u ∧
      (¬(gMode w0 = 1 ∧ bit x.w1.toNat 61 = true) →
        onlyMu s u t m { getMu s t m with starts := (getMu s t m).starts + 1, gens := mput (getMu s t m).gens g y }) ∧
      (gMode w0 = 1 → bit x.w1.toNat 61 = true → ∀ z s1, takeTok s t (50 + m) (gQin w0) = some (z, s1) →
        onlyMu s1 u t m { getMu s1 t m with starts := (getMu s1 t m).starts + 1, gens := mput (getMu s1 t m).gens g y })) ∧
  (∀ (s : State) (t : TileId) (m : MuIx) (p : Fin 8) (k : CuIx) (run : URun) (g : Nat),
    let x := freshGen s t m p (some k)
    let w0 := x.w0.toNat
    muMoves s t = true → (getFlow s t (50 + m)).foldReq = false → genFor (getMu s t m) p (some k) = none → gMode w0 < 4 →
    consumerUop s t k p = some run →
    let lo := muLow k (runUop (getCu s t k) run)
    let y := if gMode w0 ≠ 2 then x else match maskFrom s t k run with
      | .fbagp => { x with direct := true }
      | .given l => { x with mask := l, maskEnd := true, direct := true }
      | .queue => x
    freeGen (getMu s t m) = some g →
    ∃ u, exec (.generatorStart t m p (some k)) s = .next u ∧
      (0 < gDest w0 → gDest w0 ≤ 3 → m.val / 2 = lo / 2 → onlyMu s u t m { getMu s t m with gens := mput (getMu s t m).gens g y }) ∧
      (gDest w0 = 0 → m.val = lo → ∀ h, freeGen (getMu s t (m + 1)) = some h →
        getMu u t m = { getMu s t m with gens := mput (getMu s t m).gens g y } ∧
        getMu u t (m + 1) = { getMu s t (m + 1) with gens := mput (getMu s t (m + 1)).gens h (freshGen s t (m + 1) p (some k)) } ∧
        { u with mus := s.mus } = s))
  ) ∧ (
  (∀ (s : State) (t : TileId) (m : MuIx) (g : Fin 2) (x : Gen), genReady s t m g 0 = some x → x.failed = false →
    let n := gBytes x.w0.toNat
    let a := affineAddr x
    let r := genRead s t m (isPaired x.w0.toNat m) a.toNat n
    ∃ u, exec (.affineBeat t m g) s = .next u ∧
      (inMu a n = false → raisedAs s u t 0x0103 m) ∧
      (inMu a n = true → gDest x.w0.toNat ≠ 3 → genCanEmit s t m x = true → (gDest x.w0.toNat ≤ 1 → issueOpen s t = true) →
        (∀ y, affineNext x = some y → genOf u t m g = some y) ∧ (affineNext x = none → genOf u t m g = none) ∧
        (gDest x.w0.toNat ≤ 1 → ∀ k, x.cu = some k →
          cuFeed (getCu u t k) x.prog = cuFeed (getCu s t k) x.prog ++ [⟨r.1, none, r.2.1 || x.poi, [], x.apx, false, 0⟩] ∧
            (affineNext x ≠ none → u.flows = s.flows)) ∧
        (gDest x.w0.toNat = 2 → u.cus = s.cus ∧ (affineNext x ≠ none →
          u.flows = (emitToks r.2.2 ⟨t, 50 + m, gOstr x.w0.toNat, false, epochAt s t, x.tag, (getMu s t m).starts, r.2.1 || x.poi, x.apx⟩ (byteToks 40 r.1)).flows))) ∧
      (inMu a n = true → gDest x.w0.toNat = 3 → ∀ bs poi s1 m', popBytes 40 s t (50 + m) (gQdat x.w0.toNat) n [] false = some (bs, poi, s1) →
        muWriteAll (getMu s1 t m) a.toNat (bs.take n) poi = some m' →
        (getMu u t m).mem = m'.mem ∧ (getMu u t m).poi = m'.poi ∧ (affineNext x ≠ none → u.flows = s1.flows) ∧
        (∀ y, affineNext x = some y → genOf u t m g = some y) ∧ (affineNext x = none → genOf u t m g = none))) ∧
  (∀ (s s1 : State) (t : TileId) (m : MuIx) (g : Fin 2) (x y : Gen) (i : Nat), genReady s t m g 1 = some x → genCanEmit s t m x = true →
    nextIndex s t m x = some (.at i, y, s1) → y.failed = false →
    let n := gBytes y.w0.toNat
    let tagged := bits y.w1.toNat 59 2 = 2
    let len := if bits y.w1.toNat 62 2 = 2 then 4 else if bits y.w1.toNat 62 2 = 0 ∧ tagged then (if bit i 14 then 0 else max n (bits y.w1.toNat 0 24)) else n
    inMu (ixAddr y i) len = true →
    let a := (ixAddr y i).toNat
    let s2 := setGen s1 t m g y
    ∃ u, exec (.indirectAccess t m g) s = .next u ∧
      (bits y.w1.toNat 62 2 = 0 → genOf u t m g = some y ∧
        (gDest y.w0.toNat ≤ 1 → ∀ k, y.cu = some k →
          let r := genRead s2 t m (isPaired y.w0.toNat m) a n
          let added : List FeedBlk := if tagged ∧ bit i 14 = true then [⟨[], some (i % 65536), y.poi, [], y.apx, false, 0⟩]
            else [⟨r.1, if tagged then some (i % 65536) else none, r.2.1 || y.poi, [], y.apx, false, 0⟩]
          (len ≤ n → cuFeed (getCu u t k) y.prog = cuFeed (getCu s1 t k) y.prog ++ added) ∧
          (n < len → u = tagFeed s2 t m y (isPaired y.w0.toNat m) (i % 65536) a n))) ∧
      (bits y.w1.toNat 62 2 = 1 → ∀ bs poi s3 m', popBytes 40 s2 t (50 + m) (gQdat y.w0.toNat) n [] false = some (bs, poi, s3) →
        muWriteAll (getMu s3 t m) a (bs.take n) (poi || y.poi) = some m' → getMu u t m = m' ∧ u.flows = s3.flows) ∧
      (bits y.w1.toNat 62 2 = 2 → ∀ d poi z s3, nextAddend s2 t m y = some (d, poi, z, s3) → z.failed = false →
        let s4 := setGen s3 t m g z
        let r := muRead s4 t m a 4
        ∀ m', muWriteAll (getMu r.2.2 t m) a (leBytes 4 ((leNat r.1 + d) % 2 ^ 32)) (r.2.1 || poi || z.poi) = some m' →
          getMu u t m = m' ∧ genOf u t m g = some z)) ∧
  (∀ (s s1 : State) (t : TileId) (m : MuIx) (g : Fin 2) (x y : Gen) (i : Nat), genReady s t m g 1 = some x → genCanEmit s t m x = true →
    nextIndex s t m x = some (.at i, y, s1) → y.failed = false → bits y.w1.toNat 62 2 = 0 → (bits y.w1.toNat 59 2 ≠ 2 ∨ bit i 14 = false) →
    inMu (ixAddr y i) (gBytes y.w0.toNat) = false → ∃ u z, exec (.indirectAccess t m g) s = .next u ∧ raisedAs s1 u t 0x0103 m ∧ genOf u t m g = some z ∧ z.failed = true)
  )

/-- GATHER_PIECE and TREE_WALK_NODE (R134, R155, R162, R163, R165, R166): a mask token joins the mask, or the mask of FBAGP is
read; with every active neuron of the mask
delivered the end-of-gather marker follows and the program ends; a column's piece is read, and its poison is the
column's (R178); a tree takes its sample, looks its root up, reads
one node and goes left or right; a leaf ends the tree with its record; a walk deeper than its limit is incident 0x0104. -/
def Obligations.GatherAndTreeWalk : Prop :=
  (∀ (s : State) (t : TileId) (m : MuIx) (g : Fin 2) (x : Gen), genReady s t m g 2 = some x → genCanEmit s t m x = true → x.failed = false →
    let w0 := x.w0.toNat
    let inv := bit x.w1.toNat 63
    let act := (activeOf inv x.mask).drop x.n
    ∃ u, exec (.gatherPiece t m g) s = .next u ∧
      (act.length < 32 → x.maskEnd = false → x.direct = false → mget 0 (getMu s t m).maskDrop (gQin w0) = 0 → ∀ tok s1, takeTok s t (50 + m) (gQin w0) = some (tok, s1) →
        onlyMu s1 u t m { getMu s1 t m with gens := mput (getMu s1 t m).gens g (if tok.ctl = some 2 then { x with maskEnd := true } else
          { x with mask := x.mask ++ leBytes (tok.len * 4) tok.val, poi := x.poi || tok.poi, apx := x.apx || tok.apx }) }) ∧
      (x.direct = true → x.maskEnd = false → ∀ k run e l poi s1, x.cu = some k → (getCu s t k).issued = some run → run.late = false →
        predOf (getCu s t k) run.slot run.uop = some e → freeGen (getMu s t m) ≠ none → maskBytes s t m (prFbagp e.2) = (l, poi, none, s1) →
        genOf u t m g = some { x with mask := l, maskEnd := true, poi := x.poi || poi }) ∧
      (act = [] → x.maskEnd = true → genOf u t m g = none ∧ (gDest w0 ≤ 1 → ∀ k, x.cu = some k →
        cuFeed (getCu u t k) x.prog = cuFeed (getCu s t k) x.prog ++ [⟨x.mask, none, x.poi, [], x.apx, true, x.mask.length - (activeOf inv x.mask).length⟩])) ∧
      (act ≠ [] → x.maskEnd = true → x.i0 < 31 → x.i0 < act.length →
        let pw := (bits x.w1.toNat 61 2 + 1) * 32
        let a := gBase w0 + lget 0 act x.i0 * bits x.w1.toNat 0 24 + x.i1 * bits x.w1.toNat 24 24
        let r := muRead s t (if isPaired w0 m && decide (16 ≤ x.i0) then m + 1 else m) a pw
        a + pw ≤ 2 ^ 20 → genOf u t m g = some { x with out := x.out ++ r.1, idx := if r.2.1 then x.idx ++ [x.i0] else x.idx, i0 := x.i0 + 1 } ∧ u.flows = s.flows)) ∧
  (∀ (s : State) (t : TileId) (m : MuIx) (g : Fin 2) (x : Gen), genReady s t m g 3 = some x → genCanEmit s t m x = true → x.failed = false →
    let w0 := x.w0.toNat
    ∃ u, exec (.treeWalkNode t m g) s = .next u ∧
      (x.i0 = 0 → ∀ tok s1, takeTok s t (50 + m) (gQin w0) = some (tok, s1) →
        (tok.ctl = some 2 → getMu u t m = { getMu s1 t m with gens := mdel (getMu s1 t m).gens g }) ∧
        (tok.ctl ≠ some 2 → ∃ y, onlyMu s1 u t m { getMu s1 t m with gens := mput (getMu s1 t m).gens g y } ∧
          y.i0 = 1 ∧ y.i1 = 0 ∧ y.n = 0 ∧ y.depth = 0 ∧ y.feat = bits tok.val 0 20 ∧ y.tag = bits tok.val 20 16)) ∧
      (x.i0 ≠ 0 → x.i1 = 0 →
        let a := bits x.w1.toNat 0 20 + 4 * x.n
        (2 ^ 20 < a + 4 → raisedAs s u t 0x0103 m) ∧
        (a + 4 ≤ 2 ^ 20 → genOf u t m g = some { x with i1 := 1, node := leNat (muRead s t m a 4).1, poi := x.poi || (muRead s t m a 4).2.1 })) ∧
      (x.i0 ≠ 0 → x.i1 ≠ 0 →
        let a := gBase w0 + 8 * x.node
        a + 8 ≤ 2 ^ 20 →
        let r := muRead s t m a 8
        let nd := leNat r.1
        (bit nd 63 = false → 1 < bits nd 49 2 → raisedAs r.2.2 u t 0x0104 m) ∧
        (bit nd 63 = false → bits x.w1.toNat 40 8 ≤ x.depth + 1 → raisedAs r.2.2 u t 0x0104 m) ∧
        (bit nd 63 = false → bits nd 49 2 = 1 → x.depth + 1 < bits x.w1.toNat 40 8 → x.feat + 4 * bits nd 51 11 + 4 ≤ 2 ^ 20 →
          let fr := muRead r.2.2 t m (x.feat + 4 * bits nd 51 11) 4
          ∃ y, genOf u t m g = some y ∧ y.depth = x.depth + 1 ∧ y.n = x.n ∧
            y.node = if signed 32 (leNat fr.1) < signed 32 (bits nd 0 32) then x.node + 1 else bits nd 32 17)))

/-- COPY_OUT_GRANULE, SNAPSHOT_SHADOW_WAIT, SHADOW_FOLD_BACK and SRAM_SCRUB (R149, R151, R183, R170 to R172, R175): the copy-out takes the granule
that a write waits for, or else the next one, and marks it copied; a write that finds no shadow waits and is counted; fold-back copies the
shadow back and frees it; scrub visits the next word, of an MU or of a core's local memory, and turns an uncorrectable one into stored poison. -/
def Obligations.MuSnapshotsAndScrub : Prop :=
  (∀ (s : State) (t : TileId) (m : MuIx) (sn : Snap) (gen : Nat), (getMu s t m).snap = some sn → unitsStill s t = false →
    (sn.gen = some gen ∨ (sn.gen = none ∧ freeGen (getMu s t m) = some gen)) → sn.next < snWb sn.word + snWnm1 sn.word → sn.done = [] → (getMu s t m).waitW = [] →
    let g := match sn.urgent with | some g => if muFrozen (getMu s t m) g then g else sn.next | none => sn.next
    ∃ u sn', exec (.copyOutGranule t m) s = .next u ∧ (getMu u t m).snap = some sn' ∧ sn'.gen = some gen ∧ sn'.word = sn.word ∧ sn'.map = sn.map ∧
      (g = sn.next → sn'.next = sn.next + 1 ∧ sn'.done = []) ∧ (g ≠ sn.next → sn'.next = sn.next ∧ sn'.done = [g]) ∧
      sn'.fold = (if (sn.map.lookup g).isSome then sn.fold ++ [g] else sn.fold) ∧
      (sn'.bad = if muPoison (getMu s t m) ((List.range 32).map (g * 32 + ·)) then sn.bad ++ [g] else sn.bad) ∧
      (∀ b, muByte (getMu u t m) b = muByte (getMu s t m) b)) ∧
  (∀ (s : State) (t : TileId) (m : MuIx) (g : Fin 4096) (sn : Snap), (getMu s t m).snap = some sn → muFrozen (getMu s t m) g = true →
    sn.map.lookup g.val = none → muFreeShadow (getMu s t m) = none →
    ∃ u, exec (.snapshotShadowWait t m g) s = .next u ∧
      getMu u t m = { getMu s t m with snap := some { sn with urgent := some g.val }, snapWait := satAdd 48 (getMu s t m).snapWait 1 } ∧
      getFlow u t (50 + m) = flStall (getFlow s t (50 + m)) stOutput 1) ∧
  (∀ (s : State) (t : TileId) (m : MuIx) (sn : Snap) (g h : Nat) (rest : List Nat), (getMu s t m).snap = some sn → unitsStill s t = false →
    sn.fold = g :: rest → sn.map.lookup g = some h → h ≠ g → (getMu s t m).waitW = [] →
    ∃ u, exec (.shadowFoldBack t m) s = .next u ∧ (∀ sn', (getMu u t m).snap = some sn' → sn'.map = mdel sn.map g ∧ sn'.fold = rest) ∧
      (∀ i, i < 256 → muByte (getMu u t m) (g * 256 + i) = muByte (getMu s t m) (h * 256 + i)) ∧
      (∀ b, b / 256 ≠ g → muByte (getMu u t m) b = muByte (getMu s t m) b)) ∧
  (∀ (s : State) (t : TileId) (m : MuIx), ((regionAt s t).frozenAt = none ∨ fenced s t = true) →
    let v := getMu s t m
    ∃ u, exec (.sramScrub t (.mu m)) s = .next u ∧ (getMu u t m).scrub = (v.scrub + 1) % 32768 ∧
      (∀ b, muByte (getMu u t m) b = muByte v b) ∧
      (∀ i, i < 4 → mget 0 (getMu u t m).err (v.scrub * 4 + i) = (if mget 0 v.err (v.scrub * 4 + i) = 1 ∨ mget 0 v.err (v.scrub * 4 + i) = 2 then 0
        else mget 0 v.err (v.scrub * 4 + i))) ∧
      (∀ i, i < 4 → mget 0 v.err (v.scrub * 4 + i) = 2 → mget false (getMu u t m).poi (v.scrub * 4 + i) = true) ∧
      (∀ i, i < 4 → mget 0 v.err (v.scrub * 4 + i) = 2 → (∀ j, j < 4 → mget 0 v.err (v.scrub * 4 + j) ≠ 1) →
        (∀ j, j < i → mget 0 v.err (v.scrub * 4 + j) ≠ 2) → raisedFirst s u t 0x0102 m (BitVec.ofNat 64 ((v.scrub * 4 + i) * 8)))) ∧
  (∀ (s : State) (t : TileId) (c : CoreIx), ((regionAt s t).frozenAt = none ∨ fenced s t = true) →
    let w := getWick s t c
    let i := w.scrub
    let e := mget 0 w.memErr i
    ∃ u, exec (.sramScrub t (.wick c)) s = .next u ∧
      getWick u t c = { w with scrub := (i + 1) % 4096, memErr := mset 0 w.memErr i 0, memPoi := if e = 2 then mset false w.memPoi i true else w.memPoi } ∧
      otherCores s u t c ∧ (e = 1 → (getTile u t).corrW = satAdd 32 (getTile s t).corrW 1) ∧
      (e = 2 → raisedFirst s u t 0x0102 c (BitVec.ofNat 64 (4 * i))) ∧
      (e ≠ 1 → e ≠ 2 → onlyCore s u t c (getWick u t c)))

/-! ### Tokens, folds, draining and region commands (chapter 8) -/

/-- TOKD, TOKC, CRET, QUEUE_RELEASE and ACK_STREAM_RESEND (R249, R254, R257 to R260, R265): a token takes its place in a sequenced queue, or
is refused where the queue has no entry for it, discarded for its epoch, or faults beyond the window; credits return up to the stream's limit; the entry at the release pointer
is released and its credits go back; the refused token of an acknowledged stream goes out again. -/
def Obligations.TokensAndCredits : Prop :=
  (∀ (s : State) (pid : Nat) (p : Packet) (t u q o : Nat) (ctl : Bool) (k : Token), getPacket s pid = some p → pid < s.net.next →
    p.body = (if ctl then .tokc o k else .tokd o [k]) → p.loc = .deliver t → portWait s t p = none → qaTileForm p.dst = true → qaTile p.dst = t →
    qaUnit p.dst = u → qaQueue p.dst = q → 48 ≤ u → u < 54 →
    let f := getFlow s t u
    let x := getQ f q
    let back (o' : Outc) : Packet := injected t (qaMake t u 0) (replyTo p) f.curFold (epochAt s t) true (.reply o' (bodyKind p.body) o)
    ∃ v, exec (if ctl then .tokc pid else .tokd pid) s = .next v ∧
      (fenced s t = true → v.flows = s.flows ∧ answeredWith s v pid (back .refusedFenced)) ∧
      (fenced s t = false → qDepth f q = 0 → v.flows = s.flows ∧ answeredWith s v pid (back .refusedFull)) ∧
      (fenced s t = false → qDepth f q ≠ 0 → gatedAt s t = false → k.epoch ≠ epochAt s t →
        v.flows = s.flows ∧ v.net = (delPacket s pid).net) ∧
      (fenced s t = false → qDepth f q ≠ 0 → gatedAt s t = false → k.epoch = epochAt s t → k.fold ≤ rgNfm1 (regionAt s t) → k.fold = f.curFold →
        f.reinject = [] → x.spill = false → qdSeqd (qDesc f q) = true →
        let dist := (k.seq + 65536 - mget 0 x.ptrs f.curFold) % 65536
        (qDepth f q ≤ qUsed x → (∀ y ∈ x.slots, y.seq ≠ k.seq) → v.flows = s.flows ∧ answeredWith s v pid (back .refusedFull)) ∧
        (qUsed x < qDepth f q → qCap f q ≤ dist → v.flows = s.flows ∧ raisedFirst s v t 0x0403 (unitIx u) (BitVec.ofNat 64 (q + k.seq * 2 ^ 16))) ∧
        (qUsed x < qDepth f q → dist < qCap f q → isSteerQ s t u q = false → (∀ y ∈ x.slots, y.seq ≠ k.seq) →
          getFlow v t u = setQ f q { x with slots := x.slots ++ [⟨k.seq, [k], 1, owedFor s p.src o⟩], qarr := (x.qarr + 1) % 2 ^ 48,
                                             fullAt := if qDepth f q ≤ qUsed x + 1 then s.time.ticks else x.fullAt } ∧
          { v with flows := s.flows, net := s.net, trace := s.trace, inc := s.inc } = s))) ∧
  (∀ (s : State) (pid : Nat) (p : Packet) (t u o n : Nat), getPacket s pid = some p → p.body = .cret o n → p.loc = .deliver t → qaTile p.dst = t →
    qaUnit p.dst = u → 48 ≤ u → u < 54 → fenced s t = false →
    let x := getStrm (getFlow s t u) o
    ∃ v, exec (.cret pid) s = .next v ∧
      (p.epoch ≠ epochAt s t → v = delPacket s pid) ∧
      (p.epoch = epochAt s t → stMode x = 0 →
        onlyFlow (delPacket s pid) v t u (setStrm (getFlow s t u) o { x with cred := min (x.cred + n) (stCred x) })) ∧
      (p.epoch = epochAt s t → stMode x ≠ 0 → getFlow v t u = getFlow s t u)) ∧
  (∀ (s : State) (t : TileId) (u : Fin 6) (q : QIx), unitsStill s t = false → (getQ (getFlow s t (48 + u.val)) q).spill = false →
    let f := getFlow s t (48 + u.val)
    let x := getQ f q
    (headSlot f q = none → exec (.queueRelease t u q) s = .next s) ∧
    (∀ e, headSlot f q = some e → ∃ v, exec (.queueRelease t u q) s = .next v ∧
      (let y := getQ (getFlow v t (48 + u.val)) q
       y.slots = x.slots.filter (fun y => y.seq != e.seq) ∧ y.ready = x.ready ++ slotTokens (qdComb (qDesc f q) == 3) e ∧
       y.ptrs = mset 0 x.ptrs f.curFold ((mget 0 x.ptrs f.curFold + 1) % 65536) ∧ y.stall = x.stall ∧ y.qarr = x.qarr ∧
       y.fullAt = x.fullAt ∧ y.spill = false ∧ getFlow v t (48 + u.val) = { setQ f q y with relAt := s.time.ticks }) ∧
      { v with flows := s.flows, net := s.net } = s ∧ (e.owed = [] → v.net = s.net) ∧
      (∀ w, e.owed = [w] → sent s v (injected t (qaMake t (48 + u.val) 0) w.src 0 (epochAt s t) true (.cret w.ostr 1))))) ∧
  (∀ (s : State) (t : TileId) (u : Fin 6) (o : QIx) (k : Token), unitsStill s t = false →
    let f := getFlow s t (48 + u.val)
    let x := getStrm f o
    x.inflight = some k → x.resend = true →
    let b : Body := if k.ctl.isSome then .tokc o k else .tokd o [k]
    ∃ v, exec (.ackStreamResend t u o) s = .next v ∧ getFlow v t (48 + u.val) = setStrm f o { x with resend := false, pid := s.net.next } ∧
      sent s v (injected t (qaMake t (48 + u.val) 0) (stDst x) (stDfold x) (epochAt s t) (bodyCtl b) b) ∧
      { v with flows := s.flows, net := s.net } = s)

/-- FOLD_SWITCH_REQUEST, FOLD_SWITCH and SPILL_REINJECTION (R208, R268, R269, R271): a unit with another fold to serve asks for a switch
after 16 cycles without ready work, or at its FDWELL limit if it has one; a halted core
whose operations have resolved changes context; a CU or MU between micro-ops and programs parks its queues and turns to the next fold, and
one that is busy waits, counted; the oldest parked record comes back to its queue. DRAIN_EVALUATION, DRAIN_TIMEOUT, QUIESCE_DEADLINE and WATCHDOG_WINDOW (R274, R275, R280, R284): two evaluations in a row that find the region
drained with the same counters complete its drain, if its time has not passed (R33); a drain that is not over at its time stops the region with incident 0x0404; at its
quiesce deadline a transaction commits anyway, or aborts if it is strict; a window without a release is incident 0x0406. -/
def Obligations.FoldsDrainsAndWatchdog : Prop :=
  (
  (∀ (s : State) (t : TileId) (u : Fin 54), unitsStill s t = false →
    let limit := rgFdwell (regionAt s t) * 64
    (u.val < 48 → ∀ k, nextWickFold s t u = some k →
      let w := getWick s t u
      (w.run = .halted → ∃ v, exec (.foldSwitchRequest t u) s = .next v ∧
        onlyCore (reachCycle s t (w.dwell + 16)) v t u { w with foldReq := some k }) ∧
      (w.run ≠ .halted → limit ≠ 0 → ∃ v, exec (.foldSwitchRequest t u) s = .next v ∧
        onlyCore (reachCycle s t (w.dwell + limit)) v t u { w with foldReq := some k }) ∧
      (w.run ≠ .halted → limit = 0 → exec (.foldSwitchRequest t u) s = .next s)) ∧
    (48 ≤ u.val → nextFold s t u ≠ none →
      let f := getFlow s t u
      let idle := otherRecs s t u && !workNow s t u
      (idle = true → ∃ v, exec (.foldSwitchRequest t u) s = .next v ∧
        onlyFlow (reachCycle s t (max f.idle f.dwell + 16)) v t u { f with foldReq := true }) ∧
      (idle = false → limit ≠ 0 → ∃ v, exec (.foldSwitchRequest t u) s = .next v ∧
        onlyFlow (reachCycle s t (f.dwell + limit)) v t u { f with foldReq := true }) ∧
      (idle = false → limit = 0 → exec (.foldSwitchRequest t u) s = .next s))) ∧
  (∀ (s : State) (t : TileId) (u : Fin 54), unitsStill s t = false → u.val < 48 →
    let w := getWick s t u
    w.foldReq ≠ none → w.run = .halted → wkResolved w = true → wkEvenLocked w u = false →
    ∃ v, exec (.foldSwitch t u) s = .next v ∧ coreAndTraffic s v t u { wkSwitch w with dwell := cyclesOf s t }) ∧
  (∀ (s : State) (t : TileId) (u : Fin 54) (k : Nat), unitsStill s t = false → 48 ≤ u.val → nextFold s t u = some k →
    let f := getFlow s t u
    f.foldReq = true → f.reinject = [] →
    ∃ v, exec (.foldSwitch t u) s = .next v ∧
      (foldFree s t u = false → getFlow v t u = flStall f stFold 1) ∧
      (foldFree s t u = true → parkUnit s t u f.curFold = none → v.flows = s.flows ∧
        raisedFirst s v t 0x0407 (unitIx u) (BitVec.ofNat 64 f.curFold)) ∧
      (foldFree s t u = true → parkUnit s t u f.curFold ≠ none → (getFlow v t u).curFold = k ∧ (getFlow v t u).foldReq = false ∧ (getFlow v t u).dwell = cyclesOf s t ∧
        (∀ q, q < 8 → (getQ (getFlow v t u) q).slots = [] ∧ (getQ (getFlow v t u) q).ready = []))) ∧
  (∀ (s : State) (t : TileId) (u : Fin 6) (k : Nat) (l : List Nat), unitsStill s t = false → (getFlow s t (48 + u.val)).reinject = k :: l →
    let f := getFlow s t (48 + u.val)
    let rg := mget RingRt.empty f.rings k
    ∃ v, exec (.spillReinjection t u) s = .next v ∧
      (rg.recs = [] → onlyFlow s v t (48 + u.val) { f with reinject := [] }) ∧
      (∀ r rest q tok owed bs poi s1, rg.recs = r :: rest → r.tok = some (q, tok, owed) → ringFetch s t (spillAt f k) r = some (bs, poi, s1) →
        qdSeqd (qDesc f q) = false →
        (getQ (getFlow v t (48 + u.val)) q).ready = (getQ f q).ready ++
          [{ tok with val := if tok.ctl.isSome then tok.val else leNat (bs.drop 8), poi := tok.poi || poi }] ∧
        (getQ (getFlow v t (48 + u.val)) q).slots = (getQ f q).slots ∧
        mget RingRt.empty (getFlow v t (48 + u.val)).rings k = ringTake (spillSize f k) (spillOvf f k) rg))
  ) ∧ (
  (∀ (s : State) (r : Fin 64), let g := getRegion s r
    g.st = .quiescing → g.frozenAt = none → g.waiting = false →
    ∃ v, exec (.drainEvaluation r) s = .next v ∧
      (drainedNow s r = false → getRegion v r = { g with drain := none } ∧ { v with regions := s.regions } = s) ∧
      (drainedNow s r = true → g.drain = none →
        getRegion v r = { g with drain := some (cyclesOf s (rgCtl g), (drainSums s r).1, (drainSums s r).2) } ∧ { v with regions := s.regions } = s) ∧
      (drainedNow s r = true → ∀ c, g.drain = some (c, (drainSums s r).1, (drainSums s r).2) → g.heatHeld = false →
        let s1 := reachCycle s (rgCtl g) (c + 256)
        (getRegion v r).drain = none ∧
        (∀ x since, curCmd s r = some x → x.ph = .drain since →
          (nowPs s1 ≤ since + rgDrto g * 1000000 → (getRegion v r).st = .drained) ∧
          (since + rgDrto g * 1000000 < nowPs s1 → (getRegion v r).st = .stopped)) ∧
        (curCmd s r = none → (getRegion v r).st = .quiescing ∧ (getRegion v r).waiting = true)) ∧
      (drainedNow s r = true → ∀ c a b, g.drain = some (c, a, b) → (a, b) ≠ drainSums s r →
        ∃ c', (getRegion v r).drain = some (c', (drainSums s r).1, (drainSums s r).2) ∧ (getRegion v r).st = .quiescing)) ∧
  (∀ (s : State) (r : Fin 64) (c : Cmd) (since : Nat), let g := getRegion s r
    g.heatHeld = false → g.frozenAt = none → curCmd s r = some c → c.ph = .drain since → g.st ≠ .empty → g.st ≠ .stopped →
    let s1 := reachPs s (since + rgDrto g * 1000000)
    ∃ v, exec (.drainTimeout r) s = .next v ∧ (getRegion v r).st = .stopped ∧ (getRegion v r).gated = true ∧
      since + rgDrto g * 1000000 ≤ nowPs v ∧ raisedFirst s1 v (rgCtl g) 0x0404 0 0) ∧
  (∀ (s : State) (tag d : Nat) (x : Txn), txnOf s tag = some x → x.ph = .quiesce → x.qdue = some d → (∀ r ∈ x.regs, (getRegion s r).frozenAt = none) →
    ∃ v y, exec (.quiesceDeadline tag) s = .next v ∧ d ≤ nowPs v ∧ txnOf v tag = some y ∧ y.ph = .waved (!x.strict) ∧
      y.outc = (if x.strict then .aborted else .done) ∧ y.reason = (if x.strict then 0x0D else 0) ∧ y.chgs = x.chgs ∧ y.staged = x.staged ∧
      v.regions = s.regions ∧ ∃ w, v.lamp.pending = s.lamp.pending ++ [w]) ∧
  (∀ (s : State) (r : Fin 64), let g := getRegion s r
    (g.st = .running ∨ g.st = .quiescing) → g.frozenAt = none → rgWdwin g ≠ 0 → (fullQueues s r ≠ [] ∨ fullWicks s r ≠ []) →
    let since := cyclesOf s (rgCtl g) - cyclesSince s (rgCtl g) (idleSince s r)
    let s1 := reachCycle s (rgCtl g) (max g.wd since + rgWdwin g * 64)
    ∃ v, exec (.watchdogWindow r) s = .next v ∧ (getRegion v r).wdN = satAdd 48 g.wdN 1 ∧
      (rgWdspill g = false → getRegion v r = { g with wd := cyclesOf s1 (rgCtl g), wdN := satAdd 48 g.wdN 1, wdSpilled := satAdd 48 g.wdSpilled 0 } ∧
        raised s1 v (rgCtl g) 0x0406 0 0 ∧ v.flows = s.flows))
  )

/-- The commands of a region engine (R247, R248, R275 to R278, R283, R466, R467, Table 8.5, Table 14.7): each that may start does what the
state of its region allows and otherwise completes with FAULT and reason 3. -/
def Obligations.RegionCommands : Prop :=
  (∀ (s : State) (r : Fin 64) (c : Cmd), nextCmd s r 0x10 = some c → c.eng = r → regionWaits s r = false → c.txh = 0 →
    let g := getRegion s r
    let a := cmdWord c 0 2
    let n := ldIlen c
    ∃ v, exec (.regionLoad r) s = .next v ∧
      ((ldIsp c = 3 ∨ a % 64 ≠ 0) → completed s v c .fault (2 * 2 ^ 56) ∧ v.regions = s.regions) ∧
      (ldIsp c < 3 → a % 64 = 0 → (ldIsp c = 0 → n ≠ 0 ∧ inHbm s a = true ∧ inHbm s (a + n - 1) = true) →
        (g.st = .quiescing → g.heatHeld = false → completed s v c .fault (3 * 2 ^ 56) ∧ v.regions = s.regions) ∧
        ((g.st ≠ .quiescing ∨ g.heatHeld = true) → 0 < ldIsp c → inPhase v c .image ∧ { v with eng := s.eng } = s) ∧
        ((g.st ≠ .quiescing ∨ g.heatHeld = true) → ldIsp c = 0 → ∀ bs s1 img, modRead s dieCd a n = (bs, .done, s1) → anyPoi bs = false →
          readImage n (bs.map (·.1)) = some img → imageOk s1 r img = true →
          inPhase v c (.stage [.image r img ⟨0, a⟩ n (decide (g.st = .running) || g.heatHeld)]) ∧ v.regions = s1.regions))) ∧
  (∀ (s : State) (r : Fin 64) (c : Cmd), nextCmd s r 0x11 = some c → c.eng = r → regionWaits s r = false →
    let g := getRegion s r
    ∃ v, exec (.regionStart r) s = .next v ∧
      ((g.heatHeld = true ∨ (g.st ≠ .drained ∧ g.st ≠ .loaded)) → completed s v c .fault (3 * 2 ^ 56) ∧ v.regions = s.regions) ∧
      (g.heatHeld = false → g.st = .drained → completed s v c .done 0 ∧ getRegion v r = { g with st := .running, gated := false }) ∧
      (g.heatHeld = false → g.st = .loaded → v = memberStage s c [.start r] false false)) ∧
  (∀ (s : State) (r : Fin 64) (c : Cmd), nextCmd s r 0x12 = some c → c.eng = r → (getEng s r).cmds = [c] →
    let g := getRegion s r
    (ownOpen s r = false ∨ g.st = .quiescing) →
    ∃ v, exec (.regionStop r) s = .next v ∧
      ((g.st = .empty ∨ g.st = .loaded) → completed s v c .fault (3 * 2 ^ 56) ∧ v.regions = s.regions) ∧
      (g.st = .stopped → completed s v c .done 0 ∧ v.regions = s.regions) ∧
      ((g.st = .running ∨ g.st = .quiescing ∨ g.st = .drained) → g.frozenAt = none → recovering s (rgGrp g) = false →
        completed s v c .done 0 ∧ getRegion v r = { g with st := .stopped, gated := true, drain := none } ∧ v.flows = s.flows ∧
        (mwf Wick.reset s.wicks = true → ∀ t k, k < 48 → (k % 2 = 0 ∨ wkLock (getWick s t (k - 1)) = false ∨ (getWick s t (k - 1)).sendb = none) →
          getWick v t k = if inRegion g t then stopWick (cyclesOf s t) (getWick s t k) else getWick s t k)) ∧
      ((g.st = .running ∨ g.st = .quiescing ∨ g.st = .drained) → g.frozenAt ≠ none →
        inPhase v c (.wave 0) ∧ v.regions = s.regions ∧ ∃ w, v.lamp.pending = s.lamp.pending ++ [w])) ∧
  (∀ (s : State) (r : Fin 64) (c : Cmd), nextCmd s r 0x13 = some c → c.eng = r → regionWaits s r = false →
    let g := getRegion s r
    ∃ v, exec (.regionDrain r) s = .next v ∧
      (g.st = .drained → completed s v c .done 0 ∧ v.regions = s.regions) ∧
      (g.st = .running → inPhase v c (.drain (nowPs s)) ∧
        getRegion v r = { g with st := .quiescing, gated := true, waiting := false, drain := none } ∧ { v with regions := s.regions, eng := s.eng } = s) ∧
      (g.st ≠ .drained → g.st ≠ .running → completed s v c .fault (3 * 2 ^ 56) ∧ v.regions = s.regions)) ∧
  (∀ (s : State) (r : Fin 64) (c : Cmd), nextCmd s r 0x14 = some c → c.eng = r → regionWaits s r = false →
    let g := getRegion s r
    ∃ v, exec (.regionRestart r) s = .next v ∧
      ((g.heatHeld = true ∨ (g.st ≠ .running ∧ g.st ≠ .drained ∧ g.st ≠ .stopped)) → completed s v c .fault (3 * 2 ^ 56) ∧ v.regions = s.regions) ∧
      (g.heatHeld = false → (g.st = .running ∨ g.st = .drained ∨ g.st = .stopped) → openTxns s c.port < 16 →
        conflicts s 0 (chgTargets s (.restart r)) = false → ∀ t u q, inRegion g t = true → 48 ≤ u → u < 54 →
        (getQ (getFlow v t u) q).slots = [] ∧ (getQ (getFlow v t u) q).ready = [] ∧ (getFlow v t u).rings = [])) ∧
  (∀ (s : State) (r : Fin 64) (c : Cmd), nextCmd s r 0x15 = some c → c.eng = r → regionWaits s r = false → c.txh = 0 →
    let g := getRegion s r
    ∃ v, exec (.regionStep r) s = .next v ∧
      (g.st = .empty → completed s v c .fault (3 * 2 ^ 56) ∧ v.regions = s.regions) ∧
      (g.st ≠ .empty → (g.st ≠ .quiescing ∨ g.heatHeld = true) → (∃ x ∈ (getEng s r).cmds, x.id = c.id) →
        inPhase v c (.stage [.step r (BitVec.ofNat 32 (bits (cmdWord c 0 2) 0 32))]) ∧ { v with eng := s.eng } = s)) ∧
  (∀ (s : State) (r : Fin 64) (c : Cmd), nextCmd s r 0x16 = some c → c.eng = r → regionWaits s r = false →
    let g := getRegion s r
    let w := cmdWord c 0 2
    ∃ v, exec (.phase r) s = .next v ∧
      (g.st = .empty → completed s v c .fault (3 * 2 ^ 56) ∧ v.regions = s.regions) ∧
      (g.st ≠ .empty → (g.st ≠ .quiescing ∨ g.heatHeld = true) → (∃ x ∈ (getEng s r).cmds, x.id = c.id) →
        getRegion v r = { g with phasePref := some (bits w 0 2), phaseLat := bit w 7 } ∧
        (∀ f ∈ regionFields g, (getField v f).opreq = fieldReq v f ∧ (getField v f).grant = none) ∧
        inPhase v c (.settle (nowPs s + 20000000000 - (nowNs s - c.atime) * 1000)))) ∧
  (∀ (s : State) (r : Fin 64) (c : Cmd) (due : Nat), curCmd s r = some c → c.ph = .settle due → c.eng = r →
    let g := getRegion s r
    let fs := regionFields g
    let s1 := if fs.all (fieldSettled s) then s else reachPs s due
    let ops := fs.map fun f => (getField s f).opcur
    let good := (ops.filter fun o => decide (o ≤ prefOf g)).length
    let given := fs.map fun f => (getField s f).grant.getD (getField s f).opcur
    let det := given.foldl min 3 + given.foldl max 0 * 4 + good * 2 ^ 8 + fs.length * 2 ^ 24
    ∃ v, exec (.phaseComplete r) s = .next v ∧ v.regions = s.regions ∧ v.fields = s.fields ∧
      (good = fs.length → completed s1 v c .done det) ∧
      (good = 0 → fs.length ≠ 0 → completed s1 v c .refusedQuota (det % 2 ^ 56)) ∧
      (good ≠ 0 → good ≠ fs.length → completed s1 v c .partly (det % 2 ^ 56)))

/-! ### The mesh (chapter 9) -/

/-- PACKET_HOP (R292, R296 to R303, R305, Table 9.4): the packet at the head of its channel is granted the output of its route when the output is free,
the channel beyond has credit for the whole packet and the rotation among the input channels comes to it; its flits are counted and it moves on,
or it waits and a cycle is counted; the x phase begins in the direction that is shorter and unbroken; a packet at its tile is delivered, or leaves by the
attach port of its die; one with no way or that fails the first router's check is refused; one whose header cannot be read is discarded. -/
def Obligations.PacketsCrossTheMesh : Prop :=
  (∀ (s : State) (pid : Nat) (p : Packet) (t pt d : Nat) (att : Option (Nat × Nat)), getPacket s pid = some p → pid < s.net.next →
    p.loc = .router t pt → meshUp s t = true → isHead s pid p = true → mget 0 (getTile s t).err (2 * (chanIx p + 12 * netOf p)) = 0 →
    mget 0 (getTile s t).err (2 * (chanIx p + 12 * netOf p) + 1) = 0 → (p.fresh = true → firstCheck p = none) → qaGroupForm p.dst = false →
    (∀ a b c e f g h, p.body ≠ .rect a b c e f g h) → (∀ a b, p.body ≠ .raw a b) → targetOf p.dst = some (d, att) →
    let net := netOf p
    let n := flitsOf p.body
    let back : Packet := injected t (qaMake t (answerUnit t p) 0) p.src (unitFold s t (answerUnit t p)) (epochAt s t) true
      (.reply .refusedFenced (bodyKind p.body) (qaQueue p.src))
    let moves (u : State) (out : Nat) (q : Packet) : Prop :=
      (canGo s t net out q = true → nextChan s t net out = some (chanIx p) →
        getPacket u pid = some { q with arr := s.net.seq, cyc := locCycle s q.loc } ∧
        mget 0 (getTile u t).grants (out + 8 * net) = satAdd 48 (mget 0 (getTile s t).grants (out + 8 * net)) n ∧
        mget 0 (getTile u t).turn (out + 8 * net) = chanIx p) ∧
      (¬(canGo s t net out q = true ∧ nextChan s t net out = some (chanIx p)) → getPacket u pid = some p ∧
        mget 0 (getTile u t).stalls (out + 8 * net) = satAdd 48 (mget 0 (getTile s t).stalls (out + 8 * net)) 1) ∧
      (∀ k, k ≠ pid → getPacket u k = getPacket s k) ∧ (∀ t', t' ≠ t → getTile u t' = getTile s t') ∧ { u with net := s.net, tiles := s.tiles } = s
    ∃ u, exec (.packetHop pid) s = .next u ∧
      (∀ port q, routeAt s t d p = .go port q → moves u port (crossLink t port q)) ∧
      (p.yph = false → tileX t ≠ tileX d → p.fresh = true → ∀ neg, chooseDir 100 (tileX t) (tileX d) (xBroken s t) = some neg →
        let port := if neg then 1 else 0
        moves u port { p with vch := dateLine t port, dir := neg, fresh := false, loc := .router (neighbour t port) (enters port) }) ∧
      (p.yph = false → tileX t = tileX d → tileY t ≠ tileY d → ∀ neg, chooseDir 110 (tileY t) (tileY d) (yBroken s t) = some neg →
        let port := if neg then 3 else 2
        moves u port { p with vch := dateLine t port, yph := true, dir := neg, fresh := false, loc := .router (neighbour t port) (enters port) }) ∧
      (tileX t = tileX d → tileY t = tileY d → att = none → moves u 4 { p with loc := .deliver t, fresh := false }) ∧
      (tileX t = tileX d → tileY t = tileY d → ∀ die k, att = some (die, k) → dieRefuses s die k p.body = false →
        moves u 5 { p with loc := .die die k, fresh := false }) ∧
      ((routeAt s t d p = .refused ∨ (tileX t = tileX d ∧ tileY t = tileY d ∧ ∃ die k, att = some (die, k) ∧ dieRefuses s die k p.body = true)) →
        getPacket u pid = none ∧ (∀ b ws, p.body = .msg b ws → answeredWith s u pid back))) ∧
  (∀ (s : State) (pid : Nat) (p : Packet) (t pt : Nat), getPacket s pid = some p → pid < s.net.next → p.loc = .router t pt →
    meshUp s t = true → isHead s pid p = true →
    let key := 2 * (chanIx p + 12 * netOf p)
    ∃ u, exec (.packetHop pid) s = .next u ∧
      (mget 0 (getTile s t).err key = 2 → getPacket u pid = none ∧ u.net.next = s.net.next ∧ raised s u t 0x0608 0 0) ∧
      (mget 0 (getTile s t).err key = 0 → mget 0 (getTile s t).err (key + 1) = 2 → raisedFirst s u t 0x0102 0 (BitVec.ofNat 64 (key + 1))) ∧
      (mget 0 (getTile s t).err key = 0 → mget 0 (getTile s t).err (key + 1) = 0 → p.fresh = true → ∀ c, firstCheck p = some c →
        getPacket u pid = none ∧
        raised s u t c 0 (BitVec.ofNat 64 (if c = 0x0502 then p.dst + p.src * 2 ^ 23 + bodyKind p.body * 2 ^ 48 else p.dst)) ∧
        (∀ b ws, p.body = .msg b ws → answeredWith s u pid (injected t (qaMake t (answerUnit t p) 0) p.src (unitFold s t (answerUnit t p))
          (epochAt s t) true (.reply .fault (bodyKind p.body) (qaQueue p.src)))))) ∧
  (∀ (s : State) (pid : Nat) (p : Packet) (d k : Nat), getPacket s pid = some p → p.loc = .die d k →
    ¬(qaEdgeForm p.dst = true ∧ edgeDie p.dst = d) → attachUp s d k = true →
    ∃ u, exec (.packetHop pid) s = .next u ∧
      (chanRoom s (attachTile d k) 5 false p.ctl p.body = false → u = s) ∧
      (chanRoom s (attachTile d k) 5 false p.ctl p.body = true →
        getPacket u pid = some { p with loc := .router (attachTile d k) 5, fresh := true, yph := false, vch := false, arr := s.net.seq,
                                        cyc := cyclesOf s (attachTile d k) } ∧
        (∀ k', k' ≠ pid → getPacket u k' = getPacket s k') ∧ { u with net := s.net } = s))

/-- LINK_RETRY, LINK_RETRAIN and LINK_RETRAIN_DONE (R294, R295, R316, Table 9.7): a retry is counted and raises 0x0601; more than 16 within the
window hold both ends of the link for training; a lane that fails takes its group's spare, with 0x0602 and a repair record; a second
failing lane of a group fails the link with 0x0604, where it has no seam spares; training ends with both ends released. MESH_DOMAIN_DOWN, LIVE_TABLE_CHANGE, TABLE_CHANGE_IDLE and TABLE_CHANGE_DEADLINE (R314, R320, R506, Table 9.8): a field whose mesh domain
fails forwards nothing, its tiles are fenced with cause 3; a table change stages its values, holds the links into its routers, and commits
once they are idle, or aborts with 0x0607 after 1 ms. -/
def Obligations.MeshRepairsDomainsAndTables : Prop :=
  (
  (∀ (s : State) (t : TileId) (port : Fin 4) (ctl : Bool),
    let net := if ctl then 1 else 0
    let l := getLink s t port net
    let far := neighbour t port
    l.training = false → l.failed = false →
    (∀ w ∈ s.inc.windows, ¬(w.cls = 0x0601 ∧ w.die = 0 ∧ w.utyp = utRouter ∧ w.tile = far ∧ w.uidx = enters port)) →
    ∃ u, exec (.linkRetry t port ctl) s = .next u ∧ getLink u t port net = { l with retries := satAdd 48 l.retries 1, window := l.window + 1 } ∧
      (∀ t' p' n', p' < 8 → ¬(t' = t.val ∧ p' = port.val ∧ n' = net) → getLink u t' p' n' = getLink s t' p' n') ∧
      raised s u far 0x0601 (enters port) (BitVec.ofNat 64 (port + 8 * net))) ∧
  (∀ (s : State) (t : TileId) (port : Fin 4) (ctl : Bool),
    let net := if ctl then 1 else 0
    let l := getLink s t port net
    16 < l.window → l.training = false → l.failed = false →
    ∃ u, exec (.linkRetrain t port ctl) s = .next u ∧ getLink u t port net = { l with training := true } ∧
      bit (getTile u t).hold.toNat port = true ∧ bit (getTile u (neighbour t port)).hold.toNat (enters port) = true ∧
      { u with tiles := s.tiles } = s) ∧
  (∀ (s : State) (t : TileId) (port : Fin 4) (ctl : Bool),
    let net := if ctl then 1 else 0
    let l := getLink s t port net
    l.training = false → ∀ bad, exec (.linkRetrainDone t port ctl bad) s = .next s) ∧
  (∀ (s : State) (t : TileId) (port : Fin 4) (ctl : Bool) (g a b : Nat),
    let net := if ctl then 1 else 0
    let l := getLink s t port net
    l.training = true → l.failed = false → g < (if ctl then 4 else 32) → a < 32 → b < 32 → a ≠ b →
    let past (u : State) : Prop := (getLink u t port net).training = false ∧ (getLink u t port net).window = 0 ∧
      bit (getTile u t).hold.toNat port = false ∧ bit (getTile u (neighbour t port)).hold.toNat (enters port) = false
    (∃ u, exec (.linkRetrainDone t port ctl []) s = .next u ∧ past u ∧ (getLink u t port net).failed = false ∧ u.boot = s.boot ∧ u.inc = s.inc) ∧
    (mget false l.spares g = false → ∃ u, exec (.linkRetrainDone t port ctl [(g, a)]) s = .next u ∧ past u ∧
      (getLink u t port net).failed = false ∧ mget false (getLink u t port net).spares g = true ∧
      raised s u t 0x0602 port (BitVec.ofNat 64 (g * 32 + a)) ∧
      (∃ w, u.boot.birth = s.boot.birth ++ [w] ∧ bits w.toNat 60 4 = 2 ∧ bits w.toNat 37 5 = g ∧ bits w.toNat 32 5 = a)) ∧
    ((atSeam t port = false ∨ l.seam = true) → ∃ u, exec (.linkRetrainDone t port ctl [(g, a), (g, b)]) s = .next u ∧ past u ∧
      (getLink u t port net).failed = true ∧ raised s u t 0x0604 port (BitVec.ofNat 64 (g * 32 + a)) ∧ u.boot = s.boot))
  ) ∧ (
  (∀ (s : State) (f : Fin 100), (getField s f).meshOff = false →
    ∃ u, exec (.meshDomainDown f) s = .next u ∧ (getField u f).meshOff = true ∧
      ∀ t ∈ fieldTiles f, fenced u t = true ∧ bits (getTile u t).fence.toNat 12 4 = 3 ∧ tileMdok u t = false ∧ meshUp u t = false) ∧
  (∀ (s : State) (x : TabChg) (rest : List TabChg), s.mantle.tabs = x :: rest → (∀ y ∈ s.mantle.tabs, y.ph = 0) →
    ∃ u y z, exec .liveTableChange s = .next u ∧ u.mantle.tabs = y :: rest ∧ y.ph = 1 ∧ y.t0 = nowPs s ∧ y.tiles = x.tiles ∧ y.chgs = x.chgs ∧
      z ∈ u.eng.txns ∧ z.tag = y.tag ∧ z.chgs = x.chgs ∧ z.ph = .closed ∧
      (∀ t ∈ x.tiles, ∀ p, p < 4 → neighbour t p ∉ x.tiles → bit (getTile u (neighbour t p)).hold.toNat (enters p) = true)) ∧
  (∀ (s : State) (x : TabChg) (y : Txn), s.mantle.tabs.find? (·.ph == 1) = some x → txnOf s x.tag = some y →
    (∃ u z, exec .tableChangeDeadline s = .next u ∧ x.t0 + 1000000000 ≤ nowPs u ∧ txnOf u x.tag = some z ∧ z.ph = .waved false ∧ z.chgs = y.chgs ∧
      raised (reachPs s (x.t0 + 1000000000)) u 20001 0x0607 0 0) ∧
    (∃ u, exec .tableChangeIdle s = .next u ∧
      (((∃ t ∈ x.tiles, routerIdle s t = false) ∨ x.t0 + 1000000000 < nowPs s) → u = s) ∧
      ((∀ t ∈ x.tiles, routerIdle s t = true) → nowPs s ≤ x.t0 + 1000000000 →
        ∃ z w, txnOf u x.tag = some z ∧ z.ph = .waved true ∧ z.chgs = y.chgs ∧ u.lamp.pending = s.lamp.pending ++ [w] ∧ w.wtype = .commit ∧ w.wtxn = x.tag)))
  )
/-- GROUP_PACKET, RED, CWAIT_EXPIRY and RECT (R297, R305 to R312, Table 9.5): each output of the entry of a group packet sends its copy when it grants
one, independently of the others, and the buffer is freed with the last copy; a packet that its entry does not expect is refused with 0x0606, one of another format with
0x0605; a first contribution is stored, a further one combined, the last sends the entry on once its outputs take it; one that finds no place passes through; a
hold timer sends an incomplete entry on; a rectangle write reaches its tiles or is reported short, and fenced tiles answer it. -/
def Obligations.GroupsAndReduction : Prop :=
  (∀ (s : State) (pid : Nat) (p : Packet) (t port : Nat), getPacket s pid = some p → pid < s.net.next → p.loc = .router t port →
    ((∃ o ks, p.body = .tokd o ks) ∨ ∃ o k, p.body = .tokc o k) → qaGroupForm p.dst = true → meshUp s t = true → isHead s pid p = true →
    mget 0 (getTile s t).err (2 * (chanIx p + 12 * netOf p)) = 0 → mget 0 (getTile s t).err (2 * (chanIx p + 12 * netOf p) + 1) = 0 →
    (p.fresh = true → firstCheck p = none) →
    let e := groupEntry s t (p.dst % 4096)
    let net := netOf p
    let copy (o : Nat) : Packet := if o = 4 then { p with dst := geLq t e, loc := .deliver t, fresh := false, sent := [] }
      else crossLink t o { p with fresh := false, sent := [] }
    let left := (geOuts e).filter fun o => !p.sent.contains o
    let now := left.filter fun o => canGo s t net o (copy o) && nextChan s t net o == some (chanIx p)
    ∃ u, exec (.groupPacket pid) s = .next u ∧
      ((bit e 63 = false ∨ 4 < port ∨ geInp e port = false) → getPacket u pid = none ∧ raised s u t 0x0606 0 (BitVec.ofNat 64 p.dst)) ∧
      (bit e 63 = true → port ≤ 4 → geInp e port = true →
        u.net.next = s.net.next + now.length ∧
        (∀ i, i < now.length → (getPacket u (s.net.next + i)).map bare = some (bare (copy (lget 0 now i)))) ∧
        (∀ o ∈ left, (o ∈ now → mget 0 (getTile u t).grants (o + 8 * net) = satAdd 48 (mget 0 (getTile s t).grants (o + 8 * net)) (flitsOf p.body)) ∧
          (o ∉ now → mget 0 (getTile u t).stalls (o + 8 * net) = satAdd 48 (mget 0 (getTile s t).stalls (o + 8 * net)) 1)) ∧
        (now = left → getPacket u pid = none) ∧
        (now ≠ left → getPacket u pid = some { p with fresh := false, sent := p.sent ++ now }) ∧
        { u with net := s.net, tiles := s.tiles } = s)) ∧
  (∀ (s : State) (pid : Nat) (p : Packet) (t port o n : Nat) (k : Token), getPacket s pid = some p → pid < s.net.next → p.loc = .router t port →
    p.body = .red o n k → meshUp s t = true → isHead s pid p = true → mget 0 (getTile s t).err (2 * (chanIx p + 12 * netOf p)) = 0 →
    mget 0 (getTile s t).err (2 * (chanIx p + 12 * netOf p) + 1) = 0 → (p.fresh = true → firstCheck p = none) →
    let g := p.dst % 4096
    let e := groupEntry s t g
    let old := (getTile s t).store
    let same (c : Comb) : Prop := c.group = g ∧ ∃ o' n' k', c.pkt.body = .red o' n' k' ∧ k'.seq = k.seq ∧ k'.epoch = k.epoch
    let leaves (u : State) (q : Packet) : Prop := u.net.next = s.net.next + (geOuts e).length ∧
      ∀ i, i < (geOuts e).length → (getPacket u (s.net.next + i)).map bare = some (bare (copyAt t e q (lget 0 (geOuts e) i)))
    ∃ u, exec (.red pid) s = .next u ∧
      ((bit e 63 = false ∨ 4 < port ∨ geInp e port = false ∨ bit e 62 = false) →
        getPacket u pid = none ∧ raised s u t 0x0606 0 (BitVec.ofNat 64 p.dst)) ∧
      (bit e 63 = true → port ≤ 4 → geInp e port = true → bit e 62 = true →
        (ropFmt (geRop e) k.fmt = false → getPacket u pid = none ∧ raised s u t 0x0605 0 (BitVec.ofNat 64 p.dst)) ∧
        (ropFmt (geRop e) k.fmt = true → (∀ c ∈ old, ¬ same c) → n < geNexm1 e → 0 < geCwait e → old.length < 32 →
          getPacket u pid = none ∧ (getTile u t).store = old ++ [⟨g, { p with fresh := false }, n + 1, cyclesOf s t⟩]) ∧
        (ropFmt (geRop e) k.fmt = true → (∀ c ∈ old, ¬ same c) → (geNexm1 e ≤ n ∨ geCwait e = 0 ∨ 32 ≤ old.length) →
          (getTile u t).store = old ∧
          ((∀ out ∈ geOuts e, canGo s t 0 out (copyAt t e p out) = true ∧ nextChan s t 0 out = some (chanIx p)) → netOf p = 0 →
            getPacket u pid = none ∧ mget 0 (getTile u t).fwd 1 = satAdd 48 (mget 0 (getTile s t).fwd 1) 1 ∧ leaves u p) ∧
          ((∃ out ∈ geOuts e, ¬(canGo s t 0 out (copyAt t e p out) = true ∧ nextChan s t 0 out = some (chanIx p))) → netOf p = 0 →
            getPacket u pid = some p ∧
            ∀ out ∈ geOuts e, mget 0 (getTile u t).stalls out = satAdd 48 (mget 0 (getTile s t).stalls out) 1)) ∧
        (ropFmt (geRop e) k.fmt = true → ∀ c rest o' n' k', old = c :: rest → c.group = g → c.pkt.body = .red o' n' k' →
          k'.seq = k.seq → k'.epoch = k.epoch → mget 0 (getTile s t).err 64 = 0 →
          let sum := (addToken (if geRop e = 2 then 1 else 2) (geRop e == 1) k' k).1
          let c' : Comb := { c with pkt := { c.pkt with body := .red o' n' sum }, count := c.count + n + 1 }
          let q : Packet := { c.pkt with body := .red o' (c.count + n) sum }
          getPacket u pid = none ∧ mget 0 (getTile u t).fwd 0 = satAdd 48 (mget 0 (getTile s t).fwd 0) 1 ∧
          (c.count + n + 1 < geNexm1 e + 1 → (getTile u t).store = c' :: rest) ∧
          (geNexm1 e + 1 ≤ c.count + n + 1 →
            ((∀ out ∈ geOuts e, canGo (delPacket s pid) t 0 out (copyAt t e q out) = true) → (getTile u t).store = rest ∧ leaves u q) ∧
            ((∃ out ∈ geOuts e, canGo (delPacket s pid) t 0 out (copyAt t e q out) = false) → (getTile u t).store = c' :: rest ∧
              u.net = (delPacket s pid).net))))) ∧
  (∀ (s : State) (pid : Nat) (p : Packet) (t o n : Nat) (k : Token), getPacket s pid = some p → pid < s.net.next → p.loc = .deliver t →
    p.body = .red o n k → qaTileForm p.dst = true → qaTile p.dst = t → 48 ≤ qaUnit p.dst → qaUnit p.dst < 54 → fenced s t = true →
    ∃ u, exec (.red pid) s = .next u ∧ answeredWith s u pid
      (injected t (qaMake t (qaUnit p.dst) 0) p.src (getFlow s t (qaUnit p.dst)).curFold (epochAt s t) true (.reply .refusedFenced 9 o))) ∧
  (∀ (s : State) (t : TileId) (i : Fin 32) (c : Comb) (o n : Nat) (k : Token), (getTile s t).store[i.val]? = some c →
    c.pkt.body = .red o n k →
    let e := groupEntry s t c.group
    let whole := decide (geNexm1 e + 1 ≤ c.count)
    let s1 := if whole then s else reachCycle s t (c.opened + geCwait e)
    let go (out : Nat) : Bool := canGo s1 t 0 out (copyAt t e { c.pkt with body := .red o (c.count - 1) k } out)
    ∃ u, exec (.cwaitExpiry t i) s = .next u ∧
      ((geOuts e).all go = false → (getTile u t).store = (getTile s t).store ∧ u.net = s.net ∧ (getTile u t).fwd = (getTile s t).fwd ∧
        ∀ out ∈ geOuts e, mget 0 (getTile u t).stalls out = satAdd 48 (mget 0 (getTile s t).stalls out) 1) ∧
      ((geOuts e).all go = true → (getTile u t).store = ldel (getTile s t).store i ∧ u.net.next = s.net.next + (geOuts e).length ∧
        mget 0 (getTile u t).fwd 2 = (if whole then mget 0 (getTile s t).fwd 2 else satAdd 48 (mget 0 (getTile s t).fwd 2) 1))) ∧
  (∀ (s : State) (pid : Nat) (p : Packet) (a b c t0 t1 o : Nat) (data : List Byte), getPacket s pid = some p → pid < s.net.next → p.body = .rect a b c t0 t1 o data →
    let e := edgeSub p.src
    let ts := cornerTiles t0 t1
    ∃ u, exec (.rect pid) s = .next u ∧
      (firstCheck p ≠ none → getPacket u pid = none ∧ raisedFirst s u (attachTile 1 0) 0x0606 0 (BitVec.ofNat 64 p.dst)) ∧
      (firstCheck p = none → (∃ t ∈ ts, meshUp s t = false) → u = s) ∧
      (firstCheck p = none → (∀ t ∈ ts, meshUp s t = true) →
        ((∀ t ∈ ts, fenced s t = false) → u = delPacket s pid) ∧
        (∀ t ∈ ts, fenced s t = true → getPacket u pid = none ∧ ∃ k, s.net.next ≤ k ∧ (getPacket u k).map bare =
          some (injected t (qaMake t (answerUnit t p) 0) p.src (unitFold s t (answerUnit t p)) (epochAt s t) true (.reply .refusedFenced 12 0))) ∧
        (∀ x chgs, stagingCmd s e = some (x, chgs) → x.opc ≠ 0x10 → x.txh = 0 → txnLapse s = s → (∃ t ∈ ts, fenced s t = true) →
          completed s u x .partly (min (ts.filter fun t => !fenced s t).length 65535 + min ts.length 65535 * 65536))))

/-! ### Waves and engines (chapters 9, 14 and 17) -/

/-- WAVE_SEND, TIME_MARK_SCHEDULE and WAVE_REPORT_MISSING (R321, R323, R326): the waiting wave of the highest order goes first, the oldest of its
type before the others, at least 32 ns after the last wave, with the next number; a TIME_MARK names a multiple of 1,000 ns; a report that is
missing 600 ns after its wave was sent raises 0x0613 for each field and satellite, and fails the command that asked. -/
def Obligations.WavesAreSentAndReported : Prop :=
  (∀ (s : State) (pre post : List Wave) (w : Wave), lampOn s = true → s.lamp.pending = pre ++ w :: post →
    (∀ y ∈ pre, waveRank w.wtype < waveRank y.wtype) → (∀ y ∈ post, waveRank w.wtype ≤ waveRank y.wtype) →
    ∃ u, exec .waveSend s = .next u ∧ u.lamp.pending = pre ++ post ∧ u.lamp.sent = s.lamp.sent ++ [{ w with wnum := s.lamp.wnum, at_ := nowPs u }] ∧
      u.lamp.wnum = (s.lamp.wnum + 1) % 65536 ∧ u.lamp.lastAt = some (nowPs u) ∧ (∀ t, s.lamp.lastAt = some t → t + 32000 ≤ nowPs u) ∧
      { u with lamp := s.lamp, time := s.time } = s) ∧
  (∀ (s : State), lampOn s = true → s.tc.markNext % 1000 = 0 →
    ∃ u w m, exec .timeMarkSchedule s = .next u ∧ m % 1000 = 0 ∧ s.tc.markNext ≤ m ∧ nowNs s + 300 ≤ m ∧
      (s.tc.markNext ≤ nowNs s + 300 → m < nowNs s + 1300) ∧ u.tc.markNext = m + 1000 ∧ u.lamp.pending = s.lamp.pending ∧
      u.lamp.sent = s.lamp.sent ++ [w] ∧ w.wtype = .timeMark ∧ w.warg = BitVec.ofNat 64 m ∧ w.wnum = s.lamp.wnum ∧ w.owner = .none ∧
      { u with lamp := s.lamp, time := s.time, tc := s.tc } = s) ∧
  (∀ (s : State) (w : Wave) (rest : List Wave), s.lamp.reporting = w :: rest →
    let s1 := reachPs s (w.at_ + 600000)
    ∃ u, exec .waveReportMissing s = .next u ∧ w.at_ + 600000 ≤ nowPs u ∧
      (∀ f l, quietFields w = f :: l → raisedFirst s1 u noTile 0x0613 0 (BitVec.ofNat 64 (w.wnum + f * 65536))) ∧
      (∀ o ∈ s.lamp.owed, o.wave.wnum = w.wnum → 2 ≤ o.die → raisedFirst s1 u (20000 + o.die) 0x0613 0 (BitVec.ofNat 64 w.wnum)) ∧
      (∀ id c, w.owner = .cmd id → cmdById s id = some c → completed s u c .fault (0xE * 2 ^ 56)) ∧
      (w.owner = .none → w.wtxn = 0 → u.lamp = { s.lamp with reporting := rest }))

/-- SNAPSHOT, COMMIT, ABORT, FREEZE_WAVE and TIME_MARK (R170, R265, R281, R282, R321, R324, R325, R327, R529): 300 ns after it was sent a wave takes
effect in the tiles that have a valid copy: counters are latched and MUs freeze their windows; a transaction's changes apply, epochs rise
and its regions start anew, what is at work keeping its old configuration; gated regions go on; regions freeze or go on; the tiles' time is aligned,
a counter that is behind at once and one that is ahead by slowing. A tile that misses a COMMIT keeps
what it holds. -/
def Obligations.WavesTakeEffect : Prop :=
  (∀ (s : State) (w : Wave) (alt : List (TileId × Bool)) (miss quiet : List TileId) (late : List (Fin 32)), nextWave s .snapshot = some w → w.owner = .none → w.wtxn = 0 →
    ∃ u, exec (.snapshot alt miss quiet late) s = .next u ∧ u.lamp.sent = s.lamp.sent.drop 1 ∧ w.at_ + 300000 ≤ nowPs u ∧ u.latch.wnum = w.wnum ∧
      (miss = [] → u.latch.wicks = s.wicks ∧ u.latch.flows = s.flows ∧ u.latch.cus = s.cus) ∧
      (∀ r (t : TileId) (m : MuIx) p, r < 64 → bit w.warg.toNat r = true → t.val ∈ regionTiles (getRegion s r) → t ∉ miss →
        snSen (getMu s t m).snapW = true → (getMu s t m).snap = none → copyOutProg s t m = some p →
        ∃ sn, (getMu u t m).snap = some sn ∧ sn.wnum = w.wnum ∧ sn.next = snWb (getMu s t m).snapW ∧ sn.prog = p ∧ sn.done = [])) ∧
  (∀ (s : State) (w : Wave) (x : Txn), nextWave s .commit = some w → w.owner = .none → w.wtxn ≠ 0 → txnOf s w.wtxn = some x → x.port ≠ 2 →
    ∃ u, exec (.commit [] [] [] []) s = .next u ∧ w.at_ + 300000 ≤ nowPs u ∧ txnOf u w.wtxn = none ∧
      (∀ r v, x.chgs = [.step r v] → x.regs = [] → x.groups = [] → (getRegion u r).step = v ∧ ∀ k, k ≠ r → getRegion u k = getRegion s k) ∧
      (∀ g, x.chgs = [] → x.regs = [] → x.groups = [g] → mwf Region.none s.regions = true → ∀ r,
        (getRegion u r).epoch = if (getRegion s r).st ≠ .empty ∧ rgGrp (getRegion s r) = g then ((getRegion s r).epoch + 1) % 16 else (getRegion s r).epoch) ∧
      (∀ r, x.chgs = [] → x.regs = [r] → x.groups = [] → (getRegion s r).st ≠ .empty →
        (getRegion u r).st = .running ∧ (getRegion u r).gated = false ∧ (∀ k, k ≠ r → getRegion u k = getRegion s k) ∧
        ∀ t un, inRegion (getRegion s r) t = true → 48 ≤ un → un < 54 → (getFlow u t un).rings = [] ∧ (∀ o ∈ (getFlow u t un).out, o.old ≠ none) ∧
          (getFlow u t un).curFold = 0 ∧ (∀ q, (getQ (getFlow u t un) q).slots = [] ∧ (getQ (getFlow u t un) q).ready = [] ∧ (getQ (getFlow u t un) q).ptrs = []) ∧
          (∀ o, (getStrm (getFlow u t un) o).seq = 0) ∧
          ∀ k, k < 2 → (getCu u t k).ctxs = [] ∧ ((getCu u t k).old = none → (getCu u t k).issued = none ∧ (getCu u t k).acc = []))) ∧
  (∀ (s : State) (w : Wave) (x : Txn) (miss : List TileId), nextWave s .commit = some w → txnOf s w.wtxn = some x → miss ≠ [] →
    mwf Wick.reset s.wicks = true →
    ∃ u v, exec (.commit [] miss [] []) s = .next u ∧ u.lamp.reporting = s.lamp.reporting ++ [v] ∧ v.wnum = w.wnum ∧
      (∀ t ∈ miss, ∀ c, c < 48 → getWick u t c = getWick s t c) ∧ 
      (∀ t ∈ miss, (mget [] s.inc.sources t).length < 8 → ∃ i ∈ mget [] u.inc.sources t, i.cls = 0x0612 ∧ i.detail = BitVec.ofNat 64 w.wnum)) ∧
  (∀ (s : State) (w : Wave) (x : Txn) (r : Nat), nextWave s .abort = some w → w.owner = .none → w.wtxn ≠ 0 → txnOf s w.wtxn = some x → x.port ≠ 2 →
    x.regs = [r] →
    ∃ u, exec (.abort [] [] [] []) s = .next u ∧ txnOf u w.wtxn = none ∧ u.wicks = s.wicks ∧ u.flows = s.flows ∧ u.mus = s.mus ∧
      ((getRegion s r).st = .quiescing → (getRegion u r).st = .running ∧ (getRegion u r).gated = false) ∧
      ((getRegion s r).st = .stopped → (getRegion u r).st = .stopped) ∧ (getRegion u r).epoch = (getRegion s r).epoch ∧
      (∀ k, k ≠ r → getRegion u k = getRegion s k)) ∧
  (∀ (s : State) (w : Wave) (alt : List (TileId × Bool)) (miss quiet : List TileId) (late : List (Fin 32)), nextWave s .freeze = some w → w.wtxn = 0 →
    ∃ u, exec (.freezeWave alt miss quiet late) s = .next u ∧
      (∀ r, r < 64 → bit w.warg.toNat r = true → w.wrel = false → (getRegion s r).st ≠ .empty → (getRegion s r).frozenAt = none →
        (getRegion u r).frozenAt = some u.time.ticks) ∧
      (∀ r, r < 64 → bit w.warg.toNat r = true → w.wrel = true → (getRegion u r).frozenAt = none) ∧
      (∀ r, r < 64 → bit w.warg.toNat r = false → (getRegion u r).frozenAt = (getRegion s r).frozenAt)) ∧
  (∀ (s : State) (w : Wave) (alt : List (TileId × Bool)) (miss quiet : List TileId) (late : List (Fin 32)), nextWave s .timeMark = some w → w.owner = .none → w.wtxn = 0 →
    mwf Tile.reset s.tiles = true →
    let s1 := reachPs s (w.at_ + 300000)
    ∃ u, exec (.timeMark alt miss quiet late) s = .next u ∧ u.time = s1.time ∧ u.tc.tileOfs = 0 ∧ u.boot.lastMark = nowNs u ∧ u.wicks = s.wicks ∧
      (∀ t : TileId, t ∉ miss → (getTile u t).mtOfs = 0 ∧
        (tileOff s1 (getTile s1 t) ≤ 0 → tileLine u t = nowNs u) ∧ (0 < tileOff s1 (getTile s1 t) → tileLine u t = tileLine s1 t)) ∧
      (∀ t ∈ miss, tileLine u t = tileLine s1 t))

/-- COMMAND_FETCH, NOP, STAGE_WR, MEMBER_STAGED and HOST_READ_COMPLETION (R438, R448, R449, R451 to R453, R455, R460, Table 14.3): an engine takes the
whole command at the head of its ring, checks it in the order of Table 14.3, and keeps it or completes it with the reason; a ring that a
command overruns halts with 0x0A06; a staged write waits with its change; image, update and fetch reads of host memory go on or fail. -/
def Obligations.CommandsAreFetchedAndStaged : Prop :=
  (∀ (s : State) (e : Fin 79) (words : List W64) (p : Nat), s.boot.mst = 5 → s.power.pilot = 0 → fetchPort s e = some p → txnLapse s = s →
    let r := getRing s p e
    let w0 := (lget 0 words 0).toNat
    let n := bits w0 16 4 + 1
    let opc := bits w0 0 8
    let stop := r.head + 64 * n
    ∃ u, exec (.commandFetch e words) s = .next u ∧ (getEng u e).last = p ∧
      ((ringBytes r < stop ∨ (opc = 0 ∧ stop ≠ ringBytes r)) → (getRing u p e).err = true ∧ (getRing u p e).head = r.head ∧
        (getEng u e).cmds = (getEng s e).cmds ∧ raised s u 20001 0x0A06 0 0) ∧
      (stop ≤ ringBytes r → (opc = 0 → stop = ringBytes r) → ringAvail r < 64 * n → getRing u p e = r ∧ (getEng u e).cmds = (getEng s e).cmds) ∧
      (stop ≤ ringBytes r → 64 * n ≤ ringAvail r → opc = 0 → stop = ringBytes r → (getRing u p e).head = 0 ∧ (getEng u e).cmds = (getEng s e).cmds) ∧
      (stop ≤ ringBytes r → 64 * n ≤ ringAvail r → opc ≠ 0 →
        (headerCheck s e p n words = none → operandsClean words opc n = true →
          (getRing u p e).head = (if stop = ringBytes r then 0 else stop) ∧ (getRing u p e).out = r.out + 1 ∧
          (∃ c, (getEng u e).cmds = (getEng s e).cmds ++ [c] ∧ c.id = s.eng.nextId ∧ c.port = p ∧ c.eng = e.val ∧ c.opc = opc ∧ c.seq = bits w0 32 32 ∧
            c.txh = bits w0 20 11 ∧ c.wait = bit w0 8 ∧ c.words = words.take (8 * n) ∧ c.atime = nowNs s ∧ c.ph = .ready)) ∧
        (bits w0 20 11 = 0 → ∀ why, (headerCheck s e p n words = some why ∨ (headerCheck s e p n words = none ∧ operandsClean words opc n = false ∧ why = 2)) →
          ∃ c, c.opc = opc ∧ c.seq = bits w0 32 32 ∧ c.port = p ∧ c.eng = e.val ∧ c.norec = false ∧ completed s u c .fault (why * 2 ^ 56)))) ∧
  (∀ (s : State) (e : Fin 79) (c : Cmd) (rest : List Cmd), (getEng s e).cmds = c :: rest → c.ph = .ready → c.opc = 1 → c.eng = e.val → waitOk s c = true →
    s.boot.mst = 5 → ∃ u, exec (.cmdNop e) s = .next u ∧ completed s u c .done 0 ∧ { u with eng := s.eng, hosts := s.hosts } = s) ∧
  (∀ (s : State) (c : Cmd), maintNext s 0x43 = some c → c.eng = 0x4E → c.txh = 0 → txnLapse s = s →
    let w2 := cmdWord c 0 2
    let n := bits w2 0 11
    let a := bits (cmdWord c 0 3) 0 48
    let bs := ((c.words.drop 8).flatMap fun w => leBytes 8 w.toNat).take n
    ∃ u, exec .stageWr s = .next u ∧
      ((n = 0 ∨ n % 8 ≠ 0 ∨ 960 < n) → completed s u c .fault (2 * 2 ^ 56)) ∧
      (n ≠ 0 → n % 8 = 0 → n ≤ 960 → bit w2 63 = false →
        (a % 8 ≠ 0 → completed s u c .fault (2 * 2 ^ 56)) ∧
        (a % 8 = 0 → ∀ t un o, onWafer a n = some (t, un, o) →
          (un < 48 → inCode s t un o n = true → completed s u c .fault (2 * 2 ^ 56)) ∧
          ((48 ≤ un ∨ inCode s t un o n = false) → fenced s t = true → completed s u c .refusedFenced 0) ∧
          ((48 ≤ un ∨ inCode s t un o n = false) → fenced s t = false →
            inPhase u c (.stage [if un < 48 then .wickMem t un o bs else .sram t (un - 50) o bs]) ∧ { u with eng := s.eng } = s)) ∧
        (a % 8 = 0 → onWafer a n = none →
          (stageRegs a ((List.range (n / 8)).map (wordAt bs)) = none → completed s u c .fault (2 * 2 ^ 56)) ∧
          (∀ l, stageRegs a ((List.range (n / 8)).map (wordAt bs)) = some l →
            (dieFenced s ((a - 0x300000000000) / 2 ^ 40) = true → completed s u c .refusedFenced 0) ∧
            (dieFenced s ((a - 0x300000000000) / 2 ^ 40) = false → inPhase u c (.stage l) ∧ { u with eng := s.eng } = s)))) ∧
      (n ≠ 0 → n % 8 = 0 → n ≤ 960 → bit w2 63 = true → bits w2 41 14 < nTiles → bits w2 27 14 < nTiles → bits (cmdWord c 0 3) 0 9 % 8 = 0 →
        bits (cmdWord c 0 3) 0 9 + n ≤ 512 →
        inPhase u c (.stage ((cornerTiles (bits w2 41 14) (bits w2 27 14)).map fun t => .creg t (bits w2 24 1) (bits w2 25 2) (bits (cmdWord c 0 3) 0 9) bs)) ∧
        u.net.next = s.net.next + 1 ∧ { u with eng := s.eng, net := s.net } = s)) ∧
  (∀ (s : State) (e : Fin 79), (rectsOf s e ≠ [] → exec (.memberStaged e) s = .next s) ∧
    (rectsOf s e = [] → ∀ c r img a n run, stagingCmd s e = some (c, [.image r img a n run]) → c.txh = 0 → (getRegion s e).st = .stopped →
      (getRegion s r).heatHeld = false → conflicts s 0 (chgTargets s (.image r img a n run)) = false → (getRegion s r).st = .stopped →
      ∃ u, exec (.memberStaged e) s = .next u ∧ (getRegion u r).st = .loaded ∧ ∀ x ∈ (getEng u c.eng).cmds, x.id ≠ c.id) ∧
    (rectsOf s e = [] → ∀ c l, stagingCmd s e = some (c, l) → (∀ r img a n run, l ≠ [.image r img a n run]) → c.opc ≠ 0x10 →
      exec (.memberStaged e) s = .next (memberStage s c l false false))) ∧
  (∀ (s : State) (p : Fin 2) (res : HostRes), portTold s p = true → txnLapse s = s →
    (∀ (r : Fin 64) c, curCmd s r = some c → c.ph = .image → ldIsp c = p.val + 1 → c.txh = 0 →
      ∃ u, exec (.hostReadCompletion p (.image r) res) s = .next u ∧
        ((∀ bs, res ≠ .data bs) → completed s u c .fault (9 * 2 ^ 56)) ∧
        (∀ bs, res = .data bs → (readImage (ldIlen c) bs = none → completed s u c .fault (9 * 2 ^ 56)) ∧
          (∀ img, readImage (ldIlen c) bs = some img → imageOk s r img = true → c.eng = r →
            inPhase u c (.stage [.image r img ⟨ldIsp c, cmdWord c 0 2⟩ (ldIlen c) (decide ((getRegion s r).st = .running) || (getRegion s r).heatHeld)])))) ∧
    (∃ u, exec (.hostReadCompletion p .update res) s = .next u ∧ { u with fw := s.fw } = s ∧
      (∀ bs, res = .data bs → u.fw.staged = bs) ∧ ((∀ bs, res ≠ .data bs) → u.fw.staged = [])) ∧
    (∀ e : Fin 79, s.boot.mst = 5 → ringReady s p e = true → (∀ bs, res ≠ .data bs) →
      ∃ u, exec (.hostReadCompletion p (.fetch e) res) s = .next u ∧ (getRing u p e).err = true ∧ raised s u 20001 0x0A02 0 0))

/-- TXN_BEGIN, TXN_COMMIT, TXN_ABORT and TRANSACTION_DEADLINE (R33, R458, R462, R464, Table 14.10): a transaction opens under a fresh tag, closes, waits
for its members, and is told to commit or abort; a handle with none completes with its reason; one whose members are not in at its deadline ends TIMEOUT before anything
later reaches it. -/
def Obligations.Transactions : Prop :=
  (∀ (s : State) (c : Cmd), maintNext s 0x40 = some c →
    let h := thnd c
    let limit := bits (cmdWord c 0 2) 32 16
    ∃ u, exec .txnBegin s = .next u ∧
      ((h = 0 ∨ limit = 0 ∨ txnAt s c.port h ≠ none) → completed s u c .fault (2 * 2 ^ 56) ∧ u.eng.txns = s.eng.txns) ∧
      (h ≠ 0 → limit ≠ 0 → txnAt s c.port h = none →
        (16 ≤ openTxns s c.port → completed s u c .refusedFull 0 ∧ u.eng.txns = s.eng.txns) ∧
        (openTxns s c.port < 16 → completed s u c .done (freshTag s) ∧ ∃ x, u.eng.txns = s.eng.txns ++ [x] ∧ txnAt u c.port h = some x ∧
          x.tag = freshTag s ∧ x.ph = .open_ ∧ x.chgs = [] ∧ x.staged = [] ∧
          x.due = some (nowPs s + limit * 1000000000 - (nowNs s - c.atime) * 1000)))) ∧
  (∀ (s : State) (c : Cmd), maintNext s 0x41 = some c → txnLapse s = s →
    let n := bits (cmdWord c 0 2) 16 12
    ∃ u, exec .txnCommit s = .next u ∧
      ((thnd c = 0 ∨ n = 0) → completed s u c .fault (2 * 2 ^ 56)) ∧
      (thnd c ≠ 0 → n ≠ 0 → txnAt s c.port (thnd c) = none → s.eng.past.lookup (c.port * 2048 + thnd c) = none → completed s u c .fault (7 * 2 ^ 56)) ∧
      (thnd c ≠ 0 → n ≠ 0 → txnAt s c.port (thnd c) = none → ∀ o why, s.eng.past.lookup (c.port * 2048 + thnd c) = some (o, why) →
        if why = 0xA then completed s u c .timeout (0xA * 2 ^ 56) else completed s u c .fault (8 * 2 ^ 56)) ∧
      (thnd c ≠ 0 → n ≠ 0 → ∀ x, txnAt s c.port (thnd c) = some x → txnOf s x.tag = some x → x.ph = .open_ →
        (∀ y ∈ (getEng u c.eng).cmds, y.id ≠ c.id) ∧
        (x.count < n → ∃ z, txnOf u x.tag = some z ∧ z.ph = .closed ∧ z.nmem = n ∧ z.closer = some c ∧ z.staged = x.staged ∧ z.chgs = x.chgs) ∧
        (n ≤ x.count → x.failSeq ≠ none → ∃ z, txnOf u x.tag = some z ∧ z.ph = .waved false ∧ z.outc = .aborted ∧ z.reason = 0xC ∧ z.closer = some c) ∧
        (n ≤ x.count → x.failSeq = none → x.chgs = [] → ∃ z, txnOf u x.tag = some z ∧ z.ph = .waved true ∧ z.outc = .done ∧ z.closer = some c))) ∧
  (∀ (s : State) (c : Cmd), maintNext s 0x42 = some c → thnd c ≠ 0 → txnLapse s = s →
    ∃ u, exec .txnAbort s = .next u ∧
      (txnAt s c.port (thnd c) = none → s.eng.past.lookup (c.port * 2048 + thnd c) = none → completed s u c .fault (7 * 2 ^ 56)) ∧
      (∀ x, txnAt s c.port (thnd c) = some x → x.ph ≠ .open_ → completed s u c .fault (8 * 2 ^ 56) ∧ u.eng.txns = s.eng.txns) ∧
      (∀ x, txnAt s c.port (thnd c) = some x → txnOf s x.tag = some x → x.ph = .open_ →
        (∀ y ∈ (getEng u c.eng).cmds, y.id ≠ c.id) ∧ ∃ z w, txnOf u x.tag = some z ∧ z.ph = .waved false ∧ z.outc = .aborted ∧ z.reason = 0xB ∧
          u.lamp.pending = s.lamp.pending ++ [w] ∧ w.wtype = .abort ∧ w.wtxn = x.tag)) ∧
  (∀ (s : State) (c : Cmd) (x : Txn), maintNext s 0x41 = some c → thnd c ≠ 0 → bits (cmdWord c 0 2) 16 12 ≠ 0 →
    txnAt s c.port (thnd c) = some x → txnOf s x.tag = some x → x.closer = none → s.eng.txns.filter (txnLate s) = [x] →
    ∃ u z, exec .txnCommit s = .next u ∧ raised s u 20001 0x0A07 0 0 ∧ completed s u c .timeout (0xA * 2 ^ 56) ∧ txnOf u x.tag = some z ∧
      z.ph = .waved false ∧ z.outc = .timeout ∧ z.reason = 0xA) ∧
  (∀ (s : State) (tag : Fin 4096) (x : Txn), txnOf s tag = some x → (x.due = none ∨ x.handle = 0 ∨ ¬(x.ph = .open_ ∨ (x.ph = .closed ∧ x.count < x.nmem))) →
    exec (.transactionDeadline tag) s = .next s) ∧
  (∀ (s : State) (tag : Fin 4096) (x : Txn) (d : Nat), txnOf s tag = some x → x.due = some d → (x.ph = .open_ ∨ (x.ph = .closed ∧ x.count < x.nmem)) → x.handle ≠ 0 →
    ∃ u z w, exec (.transactionDeadline tag) s = .next u ∧ d ≤ nowPs u ∧ raised (reachPs s d) u 20001 0x0A07 0 0 ∧ txnOf u tag = some z ∧
      z.ph = .waved false ∧ z.outc = .timeout ∧ z.reason = 0xA ∧ u.lamp.pending = s.lamp.pending ++ [w] ∧ w.wtype = .abort ∧ w.wtxn = tag.val)

/-- CTR_READ, HIST_READ, LHIST_READ, SNAP_NOW, FREEZE, TRACE_SET and TRACE_STOP (R77, R325, R453, R524 to R537, Tables 17.1 and 17.3): a read writes
its record where its operand points, clears what it reads where asked, and completes with the length; the others ask for their wave and
wait for it. A record written to host memory stands there but where the completion record itself is written after it. -/
def Obligations.CounterReadsAndWaveCommands : Prop :=
  let spared (s : State) (c : Cmd) (p i : Nat) : Prop :=
    c.port ≠ p ∨ c.norec = true ∨ i < (getRing s c.port c.eng).cbase + 32 * (getRing s c.port c.eng).ctail ∨
      (getRing s c.port c.eng).cbase + 32 * (getRing s c.port c.eng).ctail + 32 ≤ i
  (∀ (s : State) (c : Cmd) (p n : Nat), maintNext s 0x44 = some c →
    let w := cmdWord c 0 3
    let k := bits w 48 7
    let bs := ctrBlocks s k (bits w 14 14) (bits w 0 14)
    let rec_ := wordBytes [bs.length * 2 ^ 32 + n * 2 ^ 16 + bits w 48 8 * 2 ^ 8, nowNs s] ++ bs.flatMap fun b => wordBytes (b :: ctrBlock s k b)
    setWords k = some n → dsp c = p + 1 → p < 2 → bits w 14 14 < nTiles → bits w 0 14 < nTiles → bit w 55 = false → bit w 61 = false →
    (∀ b ∈ bs, ctrStat s k b = 0) →
    ∃ u, exec .ctrRead s = .next u ∧ completed s u c .done rec_.length ∧ { u with eng := s.eng, hosts := s.hosts } = s ∧
      (∀ i, i < rec_.length → spared s c p (cmdWord c 0 2 + i) → mget 0 (getHost u p).mem (cmdWord c 0 2 + i) = lget 0 rec_ i)) ∧
  (∀ (s : State) (c : Cmd), maintNext s 0x44 = some c → (setWords (bits (cmdWord c 0 3) 48 7) = none ∨ dsp c = 3) →
    ∃ u, exec .ctrRead s = .next u ∧ completed s u c .fault (2 * 2 ^ 56)) ∧
  (∀ (s : State) (c : Cmd) (p : Nat), maintNext s 0x45 = some c → dsp c = p + 1 → p < 2 →
    let w := cmdWord c 0 3
    let t := bits w 14 14
    let k := bits w 13 1
    let o := bits w 0 6
    t < nTiles →
    ∃ u, exec .histRead s = .next u ∧ (fenced s t = true → completed s u c .refusedFenced 0 ∧ u.cus = s.cus) ∧
      (fenced s t = false → completed s u c .done 160 ∧ (∀ j, mget 0 (getCu u t k).hist j = if j / 36 = o then 0 else mget 0 (getCu s t k).hist j) ∧
        (∀ i, i < 18 → (∀ b, b < 8 → spared s c p (cmdWord c 0 2 + 16 + 8 * i + b)) →
          leNat ((List.range 8).map fun b => mget 0 (getHost u p).mem (cmdWord c 0 2 + 16 + 8 * i + b)) =
            (mget 0 (getCu s t k).hist (o * 36 + 2 * i) + mget 0 (getCu s t k).hist (o * 36 + 2 * i + 1) * 2 ^ 32) % 2 ^ 64))) ∧
  (∀ (s : State) (c : Cmd) (p : Nat), maintNext s 0x48 = some c → dsp c = p + 1 → p < 2 →
    let w := cmdWord c 0 3
    let die := bits w 16 8
    let gs := (List.range 16).filter (bit (bits w 0 16))
    dieIsPd die = true → gs ≠ [] →
    ∃ u, exec .lhistRead s = .next u ∧
      ((dieFenced s die = true ∨ (getPd s (die - 2)).inReset = true) → completed s u c .refusedFenced 0 ∧ u.pds = s.pds) ∧
      (dieFenced s die = false → (getPd s (die - 2)).inReset = false → completed s u c .done (gs.length * 296) ∧
        (bit w 61 = false → u.pds = s.pds) ∧
        (bit w 61 = true → ∀ g ∈ gs, ∀ i, i < 64 → mget 0 (getPd u (die - 2)).lat (latKey g i) = 0))) ∧
  (∀ (s : State) (c : Cmd), maintNext s 0x46 = some c → c.eng = 0x4E →
    ∃ u, exec .snapNow s = .next u ∧ u.lamp.pending = s.lamp.pending ++ [Wave.ask .snapshot 0 false (BitVec.ofNat 64 (cmdWord c 0 2)) (.cmd c.id)] ∧
      inPhase u c (.wave 0) ∧ { u with eng := s.eng, lamp := s.lamp } = s) ∧
  (∀ (s : State) (c : Cmd), maintNext s 0x4B = some c → c.eng = 0x4E →
    ∃ u, exec .freeze s = .next u ∧
      u.lamp.pending = s.lamp.pending ++ [Wave.ask .freeze 0 (bit (cmdWord c 0 3) 0) (BitVec.ofNat 64 (cmdWord c 0 2)) (.cmd c.id)] ∧
      inPhase u c (.wave 0) ∧ { u with eng := s.eng, lamp := s.lamp } = s) ∧
  (∀ (s : State) (c : Cmd), maintNext s 0x49 = some c → c.eng = 0x4E →
    let w := cmdWord c 0 3
    let a := bits (cmdWord c 0 2) 0 48
    let pg := bits w 40 24
    ∃ u, exec .traceSet s = .next u ∧
      ((s.trace.running = true ∨ s.trace.starting = true ∨ s.trace.stopping = true) → completed s u c .refusedFull 0 ∧ u.trace = s.trace) ∧
      (s.trace.running = false → s.trace.starting = false → s.trace.stopping = false →
        ((a % 4096 ≠ 0 ∨ pg = 0) → completed s u c .fault (2 * 2 ^ 56) ∧ u.trace = s.trace) ∧
        (a % 4096 = 0 → pg ≠ 0 → inHbm s (a + pg * 4096 - 1) = true → bits (cmdWord c 0 4) 14 14 < nTiles → bits (cmdWord c 0 4) 0 14 < nTiles →
          u.trace.starting = true ∧ u.trace.running = false ∧ u.trace.addr = a ∧ u.trace.pages = pg ∧ u.trace.mask = bits w 0 16 ∧
          u.trace.wrap = bit w 39 ∧ u.trace.stopInc = bit w 38 ∧ inPhase u c (.wave 0) ∧ ∃ x, u.lamp.pending = s.lamp.pending ++ [x] ∧ x.wtype = .snapshot))) ∧
  (∀ (s : State) (c : Cmd), maintNext s 0x4A = some c → c.eng = 0x4E →
    ∃ u, exec .traceStop s = .next u ∧
      (s.trace.running = true → s.trace.stopping = false → u.trace = { s.trace with stopping := true } ∧ inPhase u c (.wave 0)) ∧
      (s.trace.running = false → s.trace.ended = true → u.trace = { s.trace with ended := false } ∧
        completed s u c .done (s.trace.written % 2 ^ 32 + s.trace.dropped % 2 ^ 32 * 2 ^ 32)) ∧
      (s.trace.running = false → s.trace.ended = false → completed s u c .fault (3 * 2 ^ 56) ∧ u.trace = s.trace))

/-! ### Memory-side dies and copies (chapter 11) -/

/-- MWR, MRD, MSD_SERVICE_START, HBM_PATROL_SCRUB and RESILVER_PAGE (R362, R365 to R368, R376 to R378, R498, R555, Tables 11.2, 11.7 and 11.8): a request
joins the queue of its MSD with the segment table that it was translated under, or is refused as fenced or over its quota; the latency class goes before the
system class and that before bulk, whose requesters take turns and wait while the memory actuator holds them back; a write changes exactly its
bytes on every member that takes it; errors of the request's buffer and command are reported; the scrub corrects, repairs or reports one word; resilvering
copies a page. -/
def Obligations.MemorySideDies : Prop :=
  (∀ (s : State) (pid : Nat) (p : Packet) (d k a rq : Nat) (o : Outc) (data : List Byte) (poi : List Bool) (len cls : Nat) (wr : Bool),
    getPacket s pid = some p → pid < s.net.next → p.body = (if wr then .mwr a rq false o data poi else .mrd a len rq cls) → p.loc = .die d k →
    8 ≤ d → d < 32 →
    let m := d - 8
    let x := getMsd s m
    let g := s.segKept.lookup pid
    let r : MsdReq := if wr then ⟨rq / 128, rq % 128, data.length, 0, .write p.src p.dst a data poi, g, false⟩
      else ⟨cls, rq, len, 0, .read p.src p.dst a len, g, false⟩
    let back (o' : Outc) : Packet := fromDie d k p.src (if wr then .reply o' (bodyKind p.body) 0 else .mwr a (rq + cls * 128) true o' [] [])
    ∃ u, exec (if wr then .mwr pid else .mrd pid) s = .next u ∧ getPacket u pid = none ∧
      ((dieFenced s d = true ∨ x.inReset = true) → (getPacket u s.net.next).map bare = some (back .refusedFenced) ∧ u.msds = s.msds) ∧
      (dieFenced s d = false → x.inReset = false → overQuota s.time.ticks x r = true → (getPacket u s.net.next).map bare = some (back .refusedQuota) ∧
        getMsd u m = { x with refused := mset 0 x.refused r.cls (satAdd 48 (mget 0 x.refused r.cls) 1) }) ∧
      (dieFenced s d = false → x.inReset = false → overQuota s.time.ticks x r = false → u.net = (delPacket s pid).net ∧
        getMsd u m = { x with queue := x.queue ++ [{ r with arrive := nowPs s }] } ∧ (g = none → u.segKept = s.segKept) ∧
        { u with msds := s.msds, net := s.net, segKept := s.segKept } = s)) ∧
  (∀ (s : State) (pid : Nat) (p : Packet) (a rq : Nat) (o : Outc) (data : List Byte) (poi : List Bool), getPacket s pid = some p →
    p.body = .mwr a rq true o data poi → ((∃ t, p.loc = .deliver t) ∨ ∃ d k, p.loc = .die d k) → exec (.mwr pid) s = .next (delPacket s pid)) ∧
  (∀ (s : State) (m : Fin 24) (pre post : List MsdReq) (r : MsdReq), (getMsd s m).inReset = false → (getMsd s m).queue = pre ++ r :: post →
    ((r.cls = 0 ∧ ∀ y ∈ pre, y.cls ≠ 0) ∨ (r.cls = 2 ∧ (∀ y ∈ pre ++ r :: post, y.cls ≠ 0) ∧ ∀ y ∈ pre, y.cls ≠ 2) ∨
      (r.cls = 1 ∧ bulkOpen s m = true ∧ (∀ y ∈ pre ++ r :: post, y.cls = 1) ∧ bulkTurn (getMsd s m) = some r.req ∧ ∀ y ∈ pre, y.req ≠ r.req)) →
    r.seg = none → (getMsd s m).bufErr = 0 → (getMsd s m).parErr = 0 →
    let x := getMsd s m
    let late := tooLate x r.cls (nowPs s - r.arrive)
    ∃ u, exec (.msdServiceStart m) s = .next u ∧ (getMsd u m).queue = pre ++ post ∧
      mget 0 (getMsd u m).served r.cls = satAdd 48 (mget 0 x.served r.cls) 1 ∧
      (∀ c i, r.what = .page c i → (getMsd u m).serv = x.serv ++ [{ r with bad := false }] ∧ (getMsd u m).mem = x.mem ∧ u.net = s.net) ∧
      (∀ src dst a data poi h, r.what = .write src dst a data poi → hbmAt s a = some h → writeTo s h ≠ [] →
        (getPacket u s.net.next).map bare = some (fromDie (dieMsd m) (edgePort dst) src (.reply (if late then .doneDeferred else .done) 13 0)) ∧
        (∀ k ∈ writeTo s h, ∀ b, mget 0 (getMsd u k).mem b = if h.lo ≤ b ∧ b < h.lo + data.length then lget 0 data (b - h.lo) else mget 0 (getMsd s k).mem b) ∧
        (∀ k, k ∉ writeTo s h → (getMsd u k).mem = (getMsd s k).mem)) ∧
      (∀ src dst a len h, r.what = .read src dst a len → hbmAt s a = some h → badWords (getMsd s (hbmTarget s h)) h.lo len = [] →
        let bs := (msdRead (getMsd s (hbmTarget s h)) h.lo len).1
        (getPacket u s.net.next).map bare = some (fromDie (dieMsd m) (edgePort dst) src
          (.mwr a (r.req + r.cls * 128) true (if late then .doneDeferred else .done) (bs.map (·.1)) [anyPoi bs])) ∧
        (∀ k, (getMsd u k).mem = (getMsd s k).mem))) ∧
  (∀ (s : State) (m : Fin 24), (getMsd s m).inReset = false → (∀ y ∈ (getMsd s m).queue, y.cls = 1) → bulkOpen s m = false →
    exec (.msdServiceStart m) s = .next s) ∧
  (∀ (s : State) (m : Fin 24) (i : Nat), (getMsd s m).inReset = false → nextReq (getMsd s m) (bulkOpen s m) = some i →
    i < (getMsd s m).queue.length →
    ∃ u, exec (.msdServiceStart m) s = .next u ∧
      (2 ≤ (getMsd s m).parErr → raisedFirst s u (20000 + dieMsd m) 0x0123 0 0) ∧
      ((getMsd s m).parErr = 0 → (getMsd s m).bufErr = 2 → raisedFirst s u (20000 + dieMsd m) 0x0102 0 0)) ∧
  (∀ (s : State) (m : Fin 24), (getMsd s m).inReset = false →
    let x := getMsd s m
    let w := x.scrub
    ∃ u, exec (.hbmPatrolScrub m) s = .next u ∧ (getMsd u m).scrub = (if w + 1 ≥ stackWords s then 0 else w + 1) ∧
      (mget 0 x.err w ≠ 2 → (getMsd u m).mem = x.mem ∧ (getMsd u m).poi = x.poi ∧
        (∀ v, mget 0 (getMsd u m).err v = if v = w ∧ mget 0 x.err w = 1 then 0 else mget 0 x.err v) ∧
        (getMsd u m).corrected = satAdd 48 x.corrected (if mget 0 x.err w = 1 then 1 else 0)) ∧
      (mget 0 x.err w = 2 → mirroredPage s m (w / 512) = false → (getMsd u m).mem = x.mem ∧ (getMsd u m).uncorr = satAdd 48 x.uncorr 1 ∧
        raised s u (20000 + dieMsd m) 0x0121 0 (BitVec.ofNat 64 (8 * w))) ∧
      (let y := getMsd s (mirrorOf m)
       mget 0 x.err w = 2 → mirroredPage s m (w / 512) = true → dieFenced s (dieMsd (mirrorOf m)) = false → mget 0 y.err w ≠ 2 → mget false y.poi w = false →
        pageLost y (w / 512) = false → (getMsd u m).repaired = satAdd 48 x.repaired 1 ∧ mget 0 (getMsd u m).err w = 0 ∧
          (∀ b, mget 0 (getMsd u m).mem b = if b / 8 = w then mget 0 y.mem b else mget 0 x.mem b) ∧
          raised s u (20000 + dieMsd m) 0x0122 0 (BitVec.ofNat 64 (8 * w)))) ∧
  (∀ (s : State) (m : Fin 24) (k : Nat), (getMsd s m).resilver = some k → (getMsd s m).inReset = false → (getMsd s (mirrorOf m)).inReset = false →
    dieFenced s (dieMsd (mirrorOf m)) = false →
    ∃ u, exec (.resilverPage m) s = .next u ∧
      (∀ p, rangePage (mirrorRanges s m) k = some p → (getMsd u m).resilver = some (k + 1) ∧ u.seg = s.seg ∧
        (∀ b, mget 0 (getMsd u m).mem b = if b / 4096 = p then mget 0 (getMsd s (mirrorOf m)).mem b else mget 0 (getMsd s m).mem b)) ∧
      (rangePage (mirrorRanges s m) k = none → (getMsd u m).resilver = none ∧ (getMsd u m).mem = (getMsd s m).mem ∧ u.seg = s.seg ∧
        ∃ x w, u.eng.txns = s.eng.txns ++ [x] ∧ x.port = 2 ∧ x.ph = .waved true ∧ u.lamp.pending = s.lamp.pending ++ [w] ∧ w.wtype = .commit ∧ w.wtxn = x.tag ∧
          x.chgs = (s.seg.filter fun e => sgMir e.2 && bit (sgSet e.2) m && sgDeg e.2).map fun e => .seg e.1 (clearDeg m e.2)))

/-- COPY, COPY_PAGE_COMPLETE and DECRYPT_CHUNK (R360, R369 to R375, R377, R498, R555, Table 11.5): a copy's descriptor is checked, data of protected segments does
not leave them, a copy that touches an unmapped address moves nothing, and its page requests go to their MSDs; a page in service moves its bytes, through the data
network only when the links actuator lets it; the last ends the command with the worst outcome and
the number of pages that were not DONE; a chunk whose tag fails is written as poison and raises 0x0B20. -/
def Obligations.Copies : Prop :=
  (∀ (s : State) (e : Fin 8) (c : Cmd), (getEng s (0x40 + e.val)).cmds.find? (fun c => c.ph = .ready) = some c → c.opc = 0x20 → c.eng = 0x40 + e.val →
    ((getEng s (0x40 + e.val)).cmds.filter fun c => c.ph = .work).length < 4 → waitOk s c = true → s.boot.mst = 5 →
    (∀ x ∈ (getEng s c.eng).cmds, x.id = c.id → x = c) → (∀ j ∈ s.copies, j.cmd ≠ c.id) →
    let d := (List.range 8).map fun i => lget 0 c.words (8 + i)
    ∃ u, exec (.copy e) s = .next u ∧
      (copyOk s d = false → completed s u c .fault (2 * 2 ^ 56) ∧ u.copies = s.copies ∧ u.msds = s.msds) ∧
      (copyOk s d = true → copyLeaks s d = true → completed s u c .fault (2 * 2 ^ 56) ∧ raised s u 20001 0x0B21 0 (BitVec.ofNat 64 c.seq) ∧
        u.copies = s.copies ∧ u.msds = s.msds) ∧
      (copyOk s d = true → copyLeaks s d = false → cdCop d = 4 → s.island.slots.find? (·.1 == cdKslot d) = none → completed s u c .fault 0 ∧
        u.copies = s.copies ∧ u.msds = s.msds) ∧
      (copyOk s d = true → copyLeaks s d = false → cdCop d ≠ 4 → ∀ a, copyUnmapped s d = some a → completed s u c .fault 0 ∧
        raised s u 20001 0x0110 0 (BitVec.ofNat 64 a) ∧ u.copies = s.copies ∧ u.msds = s.msds) ∧
      (copyOk s d = true → copyLeaks s d = false → cdCop d ≠ 4 → copyUnmapped s d = none → ∀ pg, copyPages s e d = [pg] →
        let q : MsdReq := ⟨cdCls d, cdReq d, pg.len, 0, .page c.id 0, none, false⟩
        let x := getMsd s pg.msd
        ((dieFenced s (dieMsd pg.msd) = true ∨ x.inReset = true) → completed s u c .refusedFenced 1 ∧ u.copies = s.copies ∧ u.msds = s.msds) ∧
        (dieFenced s (dieMsd pg.msd) = false → x.inReset = false → overQuota s.time.ticks x q = true → completed s u c .refusedQuota 1 ∧ u.copies = s.copies) ∧
        (dieFenced s (dieMsd pg.msd) = false → x.inReset = false → overQuota s.time.ticks x q = false → inPhase u c .work ∧
          u.copies = s.copies ++ [⟨c.id, c.eng, c.port, d, [{ pg with arrive := some (nowPs s) }], none⟩] ∧
          getMsd u pg.msd = { x with queue := x.queue ++ [{ q with arrive := nowPs s }] }))) ∧
  (∀ (s s1 s2 : State) (cmd : Nat) (j : CopyJob) (p : CopyPage) (c : Cmd) (bs : List PByte) (a b : Nat), servedPage s cmd 0 = some (j, p) → j.pages = [p] →
    cdCop j.desc ≠ 4 → (p.dst.space = 0 ∨ portTold s (p.dst.space - 1) = true) → (getEng s j.eng).cmds.find? (·.id == cmd) = some c → c.eng = j.eng →
    p.arrive = some a → p.started = some b → pageData s j p = some (bs, .done, s1) → j.seg = none →
    (pageOnWafer s j p = true → linkOpen s = true) →
    let wr := if pageBad s p.msd cmd 0 then bs.map fun b => (b.1, true) else bs
    pageWrite s1 p wr = some (s2, .done) →
    ∃ u, exec (.copyPageComplete cmd 0) s = .next u ∧ (∀ k ∈ u.copies, k.cmd ≠ cmd) ∧
      (∀ k, (getMsd u k).mem = (getMsd s2 k).mem) ∧ u.mus = s2.mus ∧ u.wicks = s2.wicks ∧
      (anyPoi wr = true → completed s u c .poisoned 1) ∧
      (anyPoi wr = false → tooLate (getMsd s2 p.msd) (cdCls j.desc) (b - a) = false → completed s u c .done 0)) ∧
  (∀ (s : State) (cmd i : Nat) (j : CopyJob) (p : CopyPage), servedPage s cmd i = some (j, p) →
    (cdCop j.desc = 4 ∨ (pageOnWafer s j p = true ∧ linkOpen s = false)) → exec (.copyPageComplete cmd i) s = .next s) ∧
  (∀ (s s1 s2 : State) (cmd : Nat) (j : CopyJob) (p : CopyPage) (c : Cmd) (bs : List PByte) (a b : Nat), servedPage s cmd 0 = some (j, p) → j.pages = [p] →
    cdCop j.desc = 4 → (getEng s j.eng).cmds.find? (·.id == cmd) = some c → c.eng = j.eng → p.arrive = some a → p.started = some b →
    pageData s j p = some (bs, .done, s1) → anyPoi bs = false → j.seg = none → pageBad s p.msd cmd 0 = false →
    let d := j.desc
    let key := (mget ⟨0, 0, 0⟩ s1.island.slots (cdKslot d)).key
    (getMsd s1 p.msd).keys.lookup (cdKslot d) = some key →
    let plain := Config.gcmOpen key (leBytes 8 (cdW d 5) ++ leBytes 4 p.chunk) (leBytes 4 (bits (cdW d 6) 0 32) ++ leBytes 4 p.chunk ++ leBytes 8 (cdLen d))
      ((bs.map (·.1)).take 4096) ((bs.map (·.1)).drop 4096)
    ∃ u, exec (.decryptChunk cmd 0) s = .next u ∧
      (∀ t, plain = some t → pageWrite s1 p (clean ((t ++ List.replicate 4096 0).take 4096)) = some (s2, .done) →
        (∀ k, (getMsd u k).mem = (getMsd s2 k).mem) ∧ (∀ k ∈ u.copies, k.cmd ≠ cmd) ∧
        (tooLate (getMsd s2 p.msd) (cdCls d) (b - a) = false → completed s u c .done 0)) ∧
      (plain = none → ∀ o, pageWrite (raiseInc s1 (mkInc 0x0B20 utMsd (dieMsd p.msd) noTile 0 p.chunk)) p (List.replicate 4096 (0, true)) = some (s2, o) →
        (∀ k, (getMsd u k).poi = (getMsd s2 k).poi) ∧ completed s u c .fault 1 ∧ raisedFirst s1 u (20000 + dieMsd p.msd) 0x0B20 0 (BitVec.ofNat 64 p.chunk)))

/-! ### Port dies (chapter 12) -/

/-- PORT_CFG, REPLAY_CFG, INST_PUT, INST_DEL, TMPL_WR, GUARD_WR and PARSE_WR (R384, R394, R398, R408, R411, R418, R456, R519): on a die fenced or
in reset each completes REFUSED_FENCED; a write that breaks its rule completes FAULT with reason 2; a port or ring is configured at once; a
table change is staged, an instrument going to a free place of its two buckets, and a deleted one's place going to an entry of the stash. -/
def Obligations.WireEngineCommands : Prop :=
  let runs (s : State) (d : Fin 6) (opc : Nat) (c : Cmd) : Prop := wireNext s d.val opc = some c ∧ c.eng = 0x48 + d.val ∧ c.txh = 0 ∧ txnLapse s = s
  let free (s : State) (d : Fin 6) : Prop := dieFenced s (diePd d.val) = false ∧ (getPd s d.val).inReset = false
  let bad (s u : State) (c : Cmd) : Prop := completed s u c .fault (2 * 2 ^ 56) ∧ u.pds = s.pds
  let staged (s u : State) (c : Cmd) (l : List Chg) : Prop := inPhase u c (.stage l) ∧ { u with eng := s.eng } = s
  (∀ (s : State) (d : Fin 6) (c : Cmd) (i : Instr) (opc : Nat), runs s d opc c →
    (i, opc) ∈ [(Instr.portCfg d, 0x30), (.replayCfg d, 0x36), (.instPut d, 0x31), (.instDel d, 0x32), (.tmplWr d, 0x33), (.guardWr d, 0x34),
      (.parseWr d, 0x35)] → (dieFenced s (diePd d.val) = true ∨ (getPd s d.val).inReset = true) →
    ∃ u, exec i s = .next u ∧ completed s u c .refusedFenced 0 ∧ u.pds = s.pds) ∧
  (∀ (s : State) (d : Fin 6) (c : Cmd), runs s d 0x30 c → free s d →
    let p := bits (cmdWord c 0 2) 0 4
    let w : W64 := BitVec.ofNat 64 (cmdWord c 0 3)
    let q := getPort s d.val p
    ∃ u, exec (.portCfg d) s = .next u ∧ (pcfgOk (getPd s d.val) p w = false → bad s u c) ∧
      (pcfgOk (getPd s d.val) p w = true → completed s u c .done 0 ∧ (getPort u d.val p).cfg = w ∧
        (bits q.cfg.toNat 12 10 = bits w.toNat 12 10 → getPort u d.val p = { q with cfg := w } ∧ { u with eng := s.eng, hosts := s.hosts, pds := s.pds } = s) ∧
        (bits q.cfg.toNat 12 10 ≠ bits w.toNat 12 10 → (getPort u d.val p).up = false))) ∧
  (∀ (s : State) (d : Fin 6) (c : Cmd), runs s d 0x36 c → free s d →
    let jn := bit (cmdWord c 0 2) 0
    let w := cmdWord c 0 3
    ∃ u, exec (.replayCfg d) s = .next u ∧ (bits w 36 4 ≠ 0 → bad s u c) ∧
      (bits w 36 4 = 0 → completed s u c .done 0 ∧ (getLog u d.val jn).cfg = BitVec.ofNat 64 w ∧ (getLog u d.val jn).head = 0 ∧
        (getLog u d.val jn).tail = 0 ∧ (getLog u d.val jn).used = 0 ∧ (getLog u d.val jn).recs = [] ∧ getLog u d.val (!jn) = getLog s d.val (!jn))) ∧
  (∀ (s : State) (d : Fin 6) (c : Cmd), runs s d 0x31 c → free s d → bits (cmdWord c 0 2) 0 6 = 1 → instHeld s 0 d.val = [] →
    let k := lget 0 c.words 8
    let w := lget 0 c.words 9
    let x := (getPd s d.val).insts
    ∃ u, exec (.instPut d) s = .next u ∧
      ((ieApt w ≠ 0 ∨ bits w.toNat 43 11 ≠ 0 ∨ qaTileForm (ieDq w) = false) → bad s u c) ∧
      (ieApt w = 0 → bits w.toNat 43 11 = 0 → qaTileForm (ieDq w) = true →
        (∀ l e, instFind x k = some (l, e) → staged s u c [.inst d.val l k (some (withApt d.val w))]) ∧
        (instFind x k = none →
          (∀ l, ((instPlaces k).take 8).find? (fun l => (instAt x l).isNone) = some l → staged s u c [.inst d.val l k (some (withApt d.val w))]) ∧
          ((∀ l ∈ (instPlaces k).take 8, (instAt x l).isSome = true) → chainFind x [] 16 (((instPlaces k).take 8).map fun l => [l]) ((instPlaces k).take 8) = none →
            (∀ l, ((List.range 64).map (stash0 + ·)).find? (fun l => (instAt x l).isNone) = some l → staged s u c [.inst d.val l k (some (withApt d.val w))]) ∧
            ((∀ j, j < 64 → (instAt x (stash0 + j)).isSome = true) → completed s u c .refusedFull (5 * 2 ^ 56) ∧ u.pds = s.pds))))) ∧
  (∀ (s : State) (d : Fin 6) (c : Cmd), runs s d 0x32 c → free s d → bits (cmdWord c 0 2) 0 7 = 1 → instHeld s 0 d.val = [] →
    let k := lget 0 c.words 8
    let x := (getPd s d.val).insts
    ∃ u, exec (.instDel d) s = .next u ∧ (instFind x k = none → staged s u c []) ∧
      (∀ l e, instFind x k = some (l, e) →
        ((stash0 ≤ l ∨ ∀ j, j < 64 → instAt x (stash0 + j) = none) → staged s u c [.inst d.val l k none]) ∧
        (∀ j f, l < stash0 → j < 64 → (∀ i, i < j → instAt x (stash0 + i) = none) → instAt x (stash0 + j) = some f →
          ((instBuckets f.1).1 = l / 4 ∨ (instBuckets f.1).2 = l / 4) →
          staged s u c [.inst d.val l k none, .inst d.val l f.1 (some f.2), .inst d.val (stash0 + j) f.1 none]))) ∧
  (∀ (s : State) (d : Fin 6) (c : Cmd), runs s d 0x33 c → free s d →
    let i := bits (cmdWord c 0 2) 0 10
    let t : Tmpl := ⟨(c.words.drop 8).take 8, entryBytes c 2, 0⟩
    ∃ u, exec (.tmplWr d) s = .next u ∧ (bit (cmdWord c 0 2) 10 = true → staged s u c [.tmpl d.val i [] []]) ∧
      (bit (cmdWord c 0 2) 10 = false → tmplOk t = true → tdTlen t ≤ t.img.length → staged s u c [.tmpl d.val i t.desc (t.img.take (tdTlen t))]) ∧
      (bit (cmdWord c 0 2) 10 = false → (tmplOk t = false ∨ t.img.length < tdTlen t) → bad s u c)) ∧
  (∀ (s : State) (d : Fin 6) (c : Cmd), runs s d 0x34 c → free s d →
    let ws := (c.words.drop 8).take 9
    let good := bits (wordOf ws 0) 48 15 = 0 ∧ bits (wordOf ws 0) 0 20 = 0
    ∃ u, exec (.guardWr d) s = .next u ∧ (good → staged s u c [.guard d.val (bits (cmdWord c 0 2) 0 4) ws]) ∧ (¬good → bad s u c)) ∧
  (∀ (s : State) (d : Fin 6) (c : Cmd), runs s d 0x35 c → free s d →
    let n := bits (cmdWord c 0 2) 8 8
    let f := bits (cmdWord c 0 2) 0 8
    let word (i : Nat) : Nat := bits (wordOf c.words (8 + i / 2)) (i % 2 * 32) 32
    let good := 0 < n ∧ n ≤ 240 ∧ f + n ≤ 256 ∧ ∀ i, i < n → parseOk (word i) = true
    ∃ u, exec (.parseWr d) s = .next u ∧ (¬good → bad s u c) ∧
      (good → ∃ l : List Chg, staged s u c l ∧ l.length = n ∧ ∀ i, i < n → l[i]? = some (.parse d.val (f + i) (BitVec.ofNat 32 (word i)))))

/-- FRAME_RECEIVED, PTP_FRAME and FRAME_END (R381, R387, R389, R391, R393, R394, R404): a frame of a live port is counted and given to its parse
engine, which begins it or holds it as the one that waits, or is dropped with 0x0903; MAC Control and PTP frames never reach the program. At
its end a frame that fails forms no event without `CUT` and is noted in the events it formed with `CUT`. -/
def Obligations.FramesReceivedAndEnded : Prop :=
  let ctr (s : State) (d : Fin 6) (p i : Nat) : Nat := mget 0 (getPort s d.val p).ctr i
  let up1 (s u : State) (d : Fin 6) (p i : Nat) : Prop := ctr u d p i = satAdd 48 (ctr s d p i) 1
  (∀ (s : State) (d : Fin 6) (p : Fin 16) (data : List Byte) (fcsOk : Bool) (dts : Int),
    (portLive s d.val p.val = false ∨ laneTaken (getPd s d.val) p.val = true) → exec (.frameReceived d p data fcsOk dts) s = .next s) ∧
  (∀ (s : State) (d : Fin 6) (p : Fin 16) (data : List Byte) (fcsOk : Bool) (dts : Int), portLive s d.val p.val = true →
    laneTaken (getPd s d.val) p.val = false → modeLanes (pcMode (getPort s d.val p.val).cfg) ≠ 4 →
    let x := getPd s d.val
    let e := getEngine x p.val
    let ptp := pcPtp (getPort s d.val p.val).cfg && isPtp data
    let stays (u : State) : Prop := (getPd u d.val).frames = x.frames ∧ (getPd u d.val).parsers = x.parsers
    ∃ u, exec (.frameReceived d p data fcsOk dts) s = .next u ∧ up1 s u d p.val 0 ∧
      (isMacCtl data = true → up1 s u d p.val 10 ∧ stays u ∧ { u with pds := s.pds } = s) ∧
      (isMacCtl data = false → ptp = true → stays u ∧ { u with pds := s.pds } = s) ∧
      (isMacCtl data = false → ptp = false → s.power.pilot ≠ 0 → up1 s u d p.val 4 ∧ stays u ∧ { u with pds := s.pds } = s) ∧
      (isMacCtl data = false → ptp = false → s.power.pilot = 0 → e.wait.isSome = true → up1 s u d p.val 4 ∧ stays u ∧
        ((∀ w ∈ s.inc.windows, w.cls ≠ 0x0903) → raised s u (20002 + d.val) 0x0903 p.val 0)) ∧
      (isMacCtl data = false → ptp = false → s.power.pilot = 0 → e.wait = none → ∃ f : OutFrame, (getPd u d.val).frames = x.frames ++ [f] ∧
        f.n = x.nextFrame ∧ f.port = p.val ∧ f.data = data ∧ f.fcsOk = fcsOk ∧ f.ended = false ∧ f.cfg = (getPort s d.val p.val).cfg ∧
        (s.tc.lock = true → 12 ≤ nowQuarter s → nowQuarter s + 12 < 2 ^ 64 → nowQuarter s ≤ f.ts + 12 ∧ f.ts ≤ nowQuarter s + 12) ∧
        (e.frame = none → getEngine (getPd u d.val) p.val = beginFrame f) ∧
        (e.frame.isSome = true → getEngine (getPd u d.val) p.val = { e with wait := some f.n }) ∧
        (∀ l, l ≠ p.val → getEngine (getPd u d.val) l = getEngine x l) ∧ { u with pds := s.pds } = s)) ∧
  (∀ (s : State) (d : Fin 6) (p : Fin 16) (data : List Byte),
    let takes := portLive s d.val p.val && pcPtp (getPort s d.val p.val).cfg && isPtp data && !isMacCtl data
    ∃ u, exec (.ptpFrame d p data) s = .next u ∧ (takes = false → u = s) ∧
      (takes = true → up1 s u d p.val 0 ∧ (getPd u d.val).frames = (getPd s d.val).frames ∧ (getPd u d.val).parsers = (getPd s d.val).parsers ∧
        { u with pds := s.pds } = s)) ∧
  (∀ (s : State) (d : Fin 6) (n : Nat) (f : OutFrame), getFrame (getPd s d.val) n = some f → f.ended = false →
    let x := getPd s d.val
    let bad := !f.fcsOk || decide (f.data.length + 4 > pcMtu f.cfg)
    ∃ u, exec (.frameEnd d n) s = .next u ∧ (∀ g, getFrame (getPd u d.val) n = some g → g.ended = true ∧ g.bad = bad) ∧
      (bad = true → pcCut f.cfg = false → ∀ e ∈ (getPd u d.val).evs, e.frame = n → e.replayOf = true) ∧
      (bad = true → pcCut f.cfg = true → (∀ w ∈ s.inc.windows, w.cls ≠ 0x0901) → raised s u (20002 + d.val) 0x0901 f.port 0) ∧
      ((bad = false ∨ pcCut f.cfg = true) → x.supps = [] → ∀ e ∈ x.evs, e.frame = n → e.replayOf = false → e.outc = none →
        { e with ready := true, checked := true, fcse := bad } ∈ (getPd u d.val).evs) ∧
      ((bad = false ∨ pcCut f.cfg = true) → logSize x.replay ≠ 0 → ∀ e ∈ x.evs, ∀ o, e.frame = n → e.replayOf = false → e.outc = some o →
        ∃ r ∈ (getPd u d.val).replay.wait, r.data = evRecord { e with ready := true, checked := true, fcse := bad } o))

/-- The parse instructions (R391, R393, R397, R498, Table 12.4): what each leaves in the engine's registers, where the program goes on, the event an
`EMIT` forms from an enabled entry, a miss where the entry cannot be read, and the ends of a program: `DONE`, `DROP` and the faults, an instruction that cannot be read
among them, after which the frame that waits begins. -/
def Obligations.ParseInstructions : Prop :=
  let at_ (s : State) (d : Fin 6) (l : Fin 16) (op : Nat) (f : OutFrame) (e : ParseEng) (w : Nat) : Prop :=
    e = getEngine (getPd s d.val) l.val ∧ e.frame.bind (getFrame (getPd s d.val)) = some f ∧ w = (mget 0 (getPd s d.val).store e.pc).toNat ∧
      piOp w = op ∧ e.count < 128 ∧ mget 0 (getPd s d.val).err (pdParseKey e.pc) = 0
  let ran (s u : State) (d : Fin 6) (l : Fin 16) (e : ParseEng) : Prop :=
    getPd u d.val = putEngine (getPd s d.val) l.val e ∧ (∀ k, k ≠ d.val → getPd u k = getPd s k) ∧ { u with pds := s.pds } = s
  let goes (s u : State) (d : Fin 6) (l : Fin 16) (pc : Nat) (e : ParseEng) : Prop := ran s u d l { e with pc := pc + 1, count := e.count + 1 }
  let isOver (s u : State) (d : Fin 6) (l : Fin 16) (e : ParseEng) : Prop :=
    (e.wait.bind (getFrame (getPd s d.val)) = none → getEngine (getPd u d.val) l.val = ParseEng.idle) ∧
      (∀ g, e.wait.bind (getFrame (getPd s d.val)) = some g → getEngine (getPd u d.val) l.val = beginFrame g)
  let faulted (s u : State) (d : Fin 6) (l : Fin 16) (f : OutFrame) (e : ParseEng) : Prop :=
    isOver s u d l e ∧ mget 0 (getPort u d.val f.port).ctr 3 = satAdd 48 (mget 0 (getPort s d.val f.port).ctr 3) 1 ∧
      (getPd u d.val).evs = (getPd s d.val).evs ∧
      ((∀ x ∈ s.inc.windows, x.cls ≠ 0x0902) → raised s u (20002 + d.val) 0x0902 l.val 0)
  let set (e : ParseEng) (i v : Nat) : ParseEng := { e with v := mset 0 e.v i (BitVec.ofNat 32 v) }
  (∀ (s : State) (d : Fin 6) (l : Fin 16) (f : OutFrame) (e : ParseEng) (w op v : Nat) (i : Instr), at_ s d l op f e w → e.pc ≠ 255 →
    (i, op, v) ∈ [(Instr.parseLdi d l, 4, piImm w), (.parseLui d l, 5, piImm w * 65536 + peReg e (piA w) % 65536),
      (.parseAdd d l, 6, peReg e (piA w) + peReg e (piB w)), (.parseAddi d l, 7, peReg e (piA w) + piImm w),
      (.parseAndi d l, 8, peReg e (piA w) &&& piImm w), (.parseShri d l, 9, peReg e (piA w) / 2 ^ piN w)] →
    ∃ u, exec i s = .next u ∧ goes s u d l e.pc (set e (piA w) v)) ∧
  (∀ (s : State) (d : Fin 6) (l : Fin 16) (f : OutFrame) (e : ParseEng) (w : Nat), e.pc ≠ 255 →
    (at_ s d l 0 f e w → ∃ u, exec (.parseNop d l) s = .next u ∧ goes s u d l e.pc e) ∧
    (at_ s d l 1 f e w → ∃ u, exec (.parseSetc d l) s = .next u ∧
      (∀ b, decBase (decodeFrame f.data) (piImm w % 8) = some b → goes s u d l e.pc { e with cur := b }) ∧
      (decBase (decodeFrame f.data) (piImm w % 8) = none → faulted s u d l f e)) ∧
    (at_ s d l 10 f e w → ∃ u, exec (.parseAdv d l) s = .next u ∧ goes s u d l e.pc { e with cur := e.cur + peReg e (piA w) + piImm w }) ∧
    (at_ s d l 14 f e w → ∃ u, exec (.parseKeyv d l) s = .next u ∧
      goes s u d l e.pc { e with key := BitVec.ofNat 64 (e.key.toNat * 2 ^ 32 + peReg e (piA w)) })) ∧
  (∀ (s : State) (d : Fin 6) (l : Fin 16) (f : OutFrame) (e : ParseEng) (w : Nat), e.pc ≠ 255 →
    let a := e.cur + piImm w
    let n := piN w
    let bs := (f.data.drop a).take n
    let reach := a + n ≤ 256 ∧ a + n ≤ f.data.length
    (at_ s d l 2 f e w → ∃ u, exec (.parseLd d l) s = .next u ∧ (reach → goes s u d l e.pc (set e (piA w) (beNat bs))) ∧ (¬reach → faulted s u d l f e)) ∧
    (at_ s d l 3 f e w → ∃ u, exec (.parseLdl d l) s = .next u ∧ (reach → goes s u d l e.pc (set e (piA w) (leNat bs))) ∧ (¬reach → faulted s u d l f e)) ∧
    (at_ s d l 13 f e w → ∃ u, exec (.parseKey d l) s = .next u ∧ (¬reach → faulted s u d l f e) ∧
      (reach → goes s u d l e.pc { e with key := BitVec.ofNat 64 (e.key.toNat * 2 ^ (8 * n) + beNat bs) })) ∧
    (at_ s d l 15 f e w → ∃ u, exec (.parseExt d l) s = .next u ∧ (¬reach → faulted s u d l f e) ∧
      (reach → (e.area.length + n > 40 ∨ e.exts ≥ 16) → faulted s u d l f e) ∧
      (reach → e.area.length + n ≤ 40 → e.exts < 16 → goes s u d l e.pc { e with area := e.area ++ bs, exts := e.exts + 1 })) ∧
    (at_ s d l 16 f e w → ∃ u, exec (.parseFsq d l) s = .next u ∧ (¬reach → faulted s u d l f e) ∧
      (reach → goes s u d l e.pc { e with fseq := beNat bs % 2 ^ 24 }))) ∧
  (∀ (s : State) (d : Fin 6) (l : Fin 16) (f : OutFrame) (e : ParseEng) (w : Nat),
    (at_ s d l 12 f e w → ∃ u, exec (.parseJmp d l) s = .next u ∧ ran s u d l { e with pc := piImm w % 256, count := e.count + 1 }) ∧
    (at_ s d l 11 f e w → e.pc ≠ 255 →
      let a := peReg e (piA w)
      let b := peReg e (piB w)
      let n := piN w % 4
      let taken := (n = 0 ∧ a = b) ∨ (n = 1 ∧ a ≠ b) ∨ (n = 2 ∧ a < b) ∨ (n = 3 ∧ b ≤ a)
      ∃ u, exec (.parseBr d l) s = .next u ∧ (taken → ran s u d l { e with pc := piImm w % 256, count := e.count + 1 }) ∧ (¬taken → goes s u d l e.pc e)) ∧
    (at_ s d l 18 f e w → ∃ u, exec (.parseDone d l) s = .next u ∧ isOver s u d l e ∧ (getPd u d.val).evs = (getPd s d.val).evs ∧ { u with pds := s.pds } = s) ∧
    (at_ s d l 19 f e w → ∃ u, exec (.parseDrop d l) s = .next u ∧ isOver s u d l e ∧ (getPd u d.val).evs = (getPd s d.val).evs ∧
      mget 0 (getPort u d.val f.port).ctr 2 = satAdd 48 (mget 0 (getPort s d.val f.port).ctr 2) 1 ∧ { u with pds := s.pds } = s)) ∧
  (∀ (s : State) (d : Fin 6) (l : Fin 16) (f : OutFrame) (e : ParseEng) (w : Nat), at_ s d l 17 f e w → e.pc ≠ 255 →
    (∀ i ∈ instPlaces e.key, mget 0 (getPd s d.val).err i = 0) →
    let x := getPd s d.val
    let ctr (s : State) (i : Nat) : Nat := mget 0 (getPort s d.val f.port).ctr i
    ∃ u, exec (.parseEmit d l) s = .next u ∧ (8 ≤ e.emits → faulted s u d l f e) ∧
      (e.emits < 8 →
        getEngine (getPd u d.val) l.val = { e with key := 0, area := [], exts := 0, emits := e.emits + 1, pc := e.pc + 1, count := e.count + 1 } ∧
        (instFind x.insts e.key = none → ctr u 5 = satAdd 48 (ctr s 5) 1 ∧ (getPd u d.val).evs = x.evs) ∧
        (∀ k v, instFind x.insts e.key = some (k, v) → ieEn v.2 = false → ctr u 6 = satAdd 48 (ctr s 6) 1 ∧ (getPd u d.val).evs = x.evs) ∧
        (∀ k v, instFind x.insts e.key = some (k, v) → ieEn v.2 = true → f.ended = false → x.supps = [] → ctr u 7 = satAdd 48 (ctr s 7) 1 ∧
          ∃ ev ∈ (getPd u d.val).evs, ev.id = x.nextEv ∧ ev.frame = f.n ∧ ev.ts = f.ts ∧ ev.key = e.key ∧ ev.fseq = e.fseq ∧ ev.fields = e.area ∧
            ev.midx = e.emits ∧ ev.slot = ieSlot v.2 ∧ ev.dq = ieDq v.2 ∧ ev.port = 16 * d.val + f.port ∧ ev.ready = pcCut f.cfg ∧ ev.outc = none))) ∧
  (∀ (s : State) (d : Fin 6) (l : Fin 16) (f : OutFrame) (e : ParseEng) (w k : Nat) (v : W64 × W64), at_ s d l 17 f e w → e.pc ≠ 255 → e.emits < 8 →
    instFind (getPd s d.val).insts e.key = some (k, v) → mget 0 (getPd s d.val).err k = 2 →
    (∀ i ∈ instPlaces e.key, i ≠ k → mget 0 (getPd s d.val).err i = 0) →
    ∃ u, exec (.parseEmit d l) s = .next u ∧ (getPd u d.val).evs = (getPd s d.val).evs ∧
      mget 0 (getPort u d.val f.port).ctr 5 = satAdd 48 (mget 0 (getPort s d.val f.port).ctr 5) 1 ∧ raised s u (20002 + d.val) 0x0907 0 (BitVec.ofNat 64 k)) ∧
  (∀ (s : State) (d : Fin 6) (l : Fin 16) (f : OutFrame), let x := getPd s d.val
    let e := getEngine x l.val
    let w := (mget 0 x.store e.pc).toNat
    e.frame.bind (getFrame x) = some f → (128 ≤ e.count ∨ mget 0 x.err (pdParseKey e.pc) = 2) → ∀ i op, (i, op) ∈ [(Instr.parseNop d l, 0), (.parseSetc d l, 1), (.parseLd d l, 2), (.parseLdl d l, 3),
      (.parseLdi d l, 4), (.parseLui d l, 5), (.parseAdd d l, 6), (.parseAddi d l, 7), (.parseAndi d l, 8), (.parseShri d l, 9), (.parseAdv d l, 10),
      (.parseBr d l, 11), (.parseJmp d l, 12), (.parseKey d l, 13), (.parseKeyv d l, 14), (.parseExt d l, 15), (.parseFsq d l, 16), (.parseEmit d l, 17),
      (.parseDone d l, 18), (.parseDrop d l, 19)] → piOp w = op → ∃ u, exec i s = .next u ∧ faulted s u d l f e)

/-- EVENT_SEND, PENDING_INDEX_TIMEOUT, EVENT_REPLY_TIMEOUT, REPLAY_RECORD_WRITE and REPLAY_SEND (R401 to R403, R418 to R420): the next event of an
attach port leaves under the lowest free index, or it and all that could leave there begin to wait; one that waited 1 µs, or has no reply after 10 µs, is TIMEOUT and raises
0x0905; a record takes its place in the ring and its blocks go out as writes; a replay passes records it does not re-send and re-sends the others. -/
def Obligations.EventsAndReplay : Prop :=
  let packet (d k i : Nat) (e : Ev) : Packet :=
    ⟨edgeMake (diePd d) k i, e.dq, 0, 0, false, .event (evEntries e), false, false, false, true, .die (diePd d) k, 0, 0, 0, 0, []⟩
  (∀ (s : State) (d : Fin 6) (k : Fin 4) (pre post : List Ev) (e : Ev), let x := getPd s d.val
    x.inReset = false → attachUp s (diePd d.val) k.val = true → x.evs = pre ++ e :: post → e.apt = k.val → evSendable x e = true →
    ((e.lat = true ∧ ∀ y ∈ pre, y.apt = k.val → evSendable x y = true → y.lat = false) ∨
      (e.lat = false ∧ (∀ y ∈ x.evs, y.apt = k.val → evSendable x y = true → y.lat = false) ∧ ∀ y ∈ pre, y.apt = k.val → evSendable x y = false)) →
    (∀ y ∈ pre ++ post, y.id ≠ e.id) →
    ∃ u, exec (.eventSend d k) s = .next u ∧
      (∀ i, freeIndex x = some i → (getPacket u s.net.next).map bare = some (packet d.val k.val i e) ∧
        getPd u d.val = { x with evs := pre ++ { e with idx := some i, sentAt := nowPs s, since := none } :: post } ∧
        { u with pds := s.pds, net := s.net } = s) ∧
      (freeIndex x = none → { u with pds := s.pds } = s ∧ getPd u d.val = { x with
        evs := x.evs.map fun y => if y.apt = k.val ∧ evSendable x y = true ∧ y.since = none then { y with since := some (nowPs s) } else y })) ∧
  (∀ (x : Pd) (i : Nat), freeIndex x = some i → i < 2048 ∧ (∀ e ∈ x.evs, e.idx ≠ some i) ∧ ∀ j, j < i → ∃ e ∈ x.evs, e.idx = some j) ∧
  (∀ (s : State) (d : Fin 6) (n : Nat) (e : Ev) (t : Nat), waitingEvent (getPd s d.val) n = some e → e.since = some t →
    let r := reachPs s (t + 1000000)
    ∃ u, exec (.pendingIndexTimeout d n) s = .next u ∧ t + 1000000 ≤ nowPs u ∧ (∀ y ∈ (getPd u d.val).evs, y.id = n → y.outc = some .timeout) ∧
      ((∀ w ∈ s.inc.windows, w.cls ≠ 0x0905) → raised r u (20002 + d.val) 0x0905 0 0) ∧
      ((e.fcsx = false ∨ e.checked = true) → e.replayOf = false → logSize (getPd s d.val).replay ≠ 0 →
        ∃ q ∈ (getPd u d.val).replay.wait, q.data = evRecord { e with outc := some .timeout, since := none } .timeout)) ∧
  (∀ (s : State) (d : Fin 6) (n : Nat) (e : Ev), (getPd s d.val).evs.find? (fun e => e.id == n && e.idx.isSome && e.outc.isNone) = some e →
    let r := reachPs s (e.sentAt + 10000000)
    ∃ u, exec (.eventReplyTimeout d n) s = .next u ∧ e.sentAt + 10000000 ≤ nowPs u ∧
      (∀ y ∈ (getPd u d.val).evs, y.id = n → y.outc = some .timeout ∧ y.idx = none) ∧
      ((∀ w ∈ s.inc.windows, w.cls ≠ 0x0905) → raised r u (20002 + d.val) 0x0905 0 0) ∧
      ((e.fcsx = false ∨ e.checked = true) → e.replayOf = false → logSize (getPd s d.val).replay ≠ 0 →
        ∃ q ∈ (getPd u d.val).replay.wait, q.data = evRecord { e with outc := some .timeout, byTimer := true, idx := none } .timeout)) ∧
  (∀ (s : State) (d : Fin 6) (jn : Bool) (r : LogRec) (o : Nat), let l := getLog s d.val jn
    let sz := logSize l
    let len := r.data.length
    let cuts := blockCuts o len
    (getPd s d.val).inReset = false → l.out = 0 → sz ≠ 0 →
    ((l.outage = true ∧ r = ⟨0, gapRec jn l.lost, none, false, false, nowPs s⟩) ∨ (l.outage = false ∧ l.wait.head? = some r)) →
    logPlace sz l len = some (none, o) → (∀ c ∈ cuts, ∃ h, hbmAt s (logBase l + c.1) = some h) →
    ∃ u, exec (.replayRecordWrite d jn) s = .next u ∧
      (let m := getLog u d.val jn
       m.recs = l.recs ++ [{ r with ofs := o }] ∧ m.tail = (if o + len ≥ sz then 0 else o + len) ∧ m.used = l.used + len ∧
       m.head = (if l.used = 0 then 0 else l.head) ∧ m.out = cuts.length ∧ m.wait = (if l.outage then l.wait else l.wait.tail) ∧
       (∀ i, mget 0 m.img i = if o ≤ i ∧ i < o + len then lget 0 r.data (i - o) else mget 0 l.img i) ∧
       u.net.next = s.net.next + cuts.length ∧
       (∀ i c h, cuts[i]? = some c → hbmAt s (logBase l + c.1) = some h →
         (getPacket u (s.net.next + i)).map bare = some ⟨edgeMake (diePd d.val) 0 (if jn then 0x802 else 0x801), hbmEdge s h, 0, 0, false,
           .mwr (logBase l + c.1) (65 + 2 * 128) false .done ((List.range c.2).map fun b => mget 0 m.img (c.1 + b)) [], false, false, false, true,
           .die (diePd d.val) 0, 0, 0, 0, 0, []⟩)) ∧
      getLog u d.val (!jn) = getLog s d.val (!jn)) ∧
  (∀ (s : State) (d : Fin 6) (g : Fin 64) (r : Replay) (c : LogRec), let x := getPd s d.val
    replayOf x g.val = some r → x.inReset = false → r.diverged = false → x.replay.base ≤ r.next → x.replay.recs[r.next - x.replay.base]? = some c →
    ∃ u, exec (.replaySend d g) s = .next u ∧
      (rrSend x g.val c = false → replayOf (getPd u d.val) g.val = some { r with next := r.next + 1 } ∧ (getPd u d.val).evs = x.evs ∧
        { u with pds := s.pds } = s) ∧
      (rrSend x g.val c = true → freeIndex x = none → u = s) ∧
      (rrSend x g.val c = true → ∀ i, freeIndex x = some i →
        let e := rrEvent d.val x c
        evSendable { x with evs := x.evs ++ [e] } e = true → attachUp s (diePd d.val) e.apt = true →
        (getPacket u s.net.next).map bare = some (packet d.val e.apt i e) ∧ replayOf (getPd u d.val) g.val = some { r with next := r.next + 1, sent := r.sent + 1 } ∧
          (∃ y ∈ (getPd u d.val).evs, y.id = x.nextEv ∧ y.idx = some i ∧ y.replayOf = true ∧ y.dq = rrDq c ∧ y.sentAt = nowPs s) ∧
          { u with pds := s.pds, net := s.net } = s))

/-- RESPONSE (R406, R407, R412, R413, R498, Table 12.8): a response is decided by the first row that applies; one whose template or guard group cannot be read is
FAULT with 0x0907; one that passes takes a token and waits for its MAC grant with the frame of its template; every other is counted, journalled and
answered at once. -/
def Obligations.ResponsesAreDecided : Prop :=
  ∀ (s : State) (pid : Nat) (p : Packet) (b : Bool) (ws : List QEnt) (d k : Nat), getPacket s pid = some p → pid < s.net.next → p.body = .msg b ws →
    p.loc = .die (diePd d) k → d < 6 → (getPd s d).inReset = false →
    let x := getPd s d
    let w := (lget ⟨0, false, false⟩ ws 0).w.toNat
    let lane := rwPort w % 16
    let t := mget ⟨[], [], 0⟩ x.tmpls (rwTmpl w)
    let te := mget 0 x.err (pdTmplKey (rwTmpl w))
    let ge := mget 0 x.err (pdGuardKey (rwGgrp w))
    te ≠ 1 → ge ≠ 1 →
    let back (o : Outc) : Packet := fromDie (diePd d) k p.src (.reply o (bodyKind p.body) (qaQueue p.src))
    let queued := x.ports.foldl (fun n e => n + (e.2.txq.filter (·.attach == k)).length) 0
    let g := getGuard s d (rwGgrp w)
    let tok := min (g.tok + ggRate g * (nowPs s - g.at_)) (ggBurst g * 256000000)
    let bad := tdTv t = false ∨ rwPort w / 16 ≠ d ∨ bit (tdGmsk t) (rwGgrp w) = false ∨ ws.length > 4 ∨
      ∃ i ∈ tdInserts t, inSoff i + inLen i > 8 * (ws.length - 1)
    ∃ u, exec (.response pid) s = .next u ∧ getPacket u pid = none ∧
      (let decided (o : Outc) : Prop := (getPacket u s.net.next).map bare = some (back o) ∧
         mget 0 (getPd u d).ctr (outcCode o) = satAdd 48 (mget 0 x.ctr (outcCode o)) 1 ∧
         (getPd u d).journal.wait = x.journal.wait ++ (if logSize x.journal = 0 then [] else [⟨0, journalBytes ws o 0 0, none, false, false, nowPs s⟩]) ∧
         (getPd u d).ports = x.ports ∧ (getPd u d).guards = x.guards
       (edgeSub p.dst ≠ 0x800 → (getPacket u s.net.next).map bare = some (back .fault) ∧ u.pds = s.pds) ∧
       (edgeSub p.dst = 0x800 → 64 ≤ queued → decided .refusedFull) ∧
       (edgeSub p.dst = 0x800 → queued < 64 →
         ((∃ q ∈ ws.drop 1, q.poi = true) → decided .poisoned ∧ raised s u (20002 + d) 0x0914 lane (BitVec.ofNat 64 (rwKey w))) ∧
         ((∀ q ∈ ws.drop 1, q.poi = false) → te ≠ 0 → decided .fault ∧
           raised s u (20002 + d) 0x0907 0 (BitVec.ofNat 64 (pdTmplKey (rwTmpl w)))) ∧
         ((∀ q ∈ ws.drop 1, q.poi = false) → te = 0 →
           (bad → decided .fault ∧ raised s u (20002 + d) 0x0910 lane (BitVec.ofNat 64 (rwTmpl w))) ∧
           (¬bad → ∀ gr, suppGroup x (qaTile p.src) = some gr → (getPacket u s.net.next).map bare = some (back .done) ∧ (getPd u d).ports = x.ports ∧
             (getPd u d).guards = x.guards ∧ (getPd u d).journal.wait = x.journal.wait) ∧
           (¬bad → suppGroup x (qaTile p.src) = none →
             ((x.gate = true ∨ portLive s d lane = false) → decided .refusedFenced ∧ u.inc = s.inc) ∧
             (x.gate = false → portLive s d lane = true → ge ≠ 0 → decided .fault ∧
               raised s u (20002 + d) 0x0907 0 (BitVec.ofNat 64 (pdGuardKey (rwGgrp w)))) ∧
             (x.gate = false → portLive s d lane = true → ge = 0 →
               ((∃ i ∈ tdInserts t, boundOk g ws i = false) → decided .refusedQuota ∧
                 raised s u (20002 + d) 0x0911 lane (BitVec.ofNat 64 (rwKey w))) ∧
               ((∀ i ∈ tdInserts t, boundOk g ws i = true) →
                 ((ggEn g = false ∨ ggRate g = 0 ∨ tok < 256000000) → decided .refusedQuota ∧
                   ((∀ y ∈ s.inc.windows, y.cls ≠ 0x0912) → raised s u (20002 + d) 0x0912 lane (BitVec.ofNat 64 (rwGgrp w)))) ∧
                 (ggEn g = true → ggRate g ≠ 0 → 256000000 ≤ tok → u.net = (delPacket s pid).net ∧ u.inc = s.inc ∧
                   getGuard u d (rwGgrp w) = { g with tok := tok - 256000000, at_ := nowPs s } ∧
                   (∀ j, j ≠ rwGgrp w → getGuard u d j = getGuard s d j) ∧
                   (getPort u d lane).txq = (getPort s d lane).txq ++ [⟨p.src, k, bodyKind p.body, pid, ws, rwTmpl w, t, composeFrame t ws, 0, 0⟩] ∧
                   (∀ l, l ≠ lane → getPort u d l = getPort s d l) ∧ (getPd u d).journal = x.journal)))))))

/-- MAC_GRANT, FRAME_TRANSMITTED, PORT_LINK_CHANGE, SNUFF_N, CD_SNF_WRITE and SNUFF_FRAME (R383, R407, R409, R410, R414 to R417, R431, R533): the next
response of a port begins to leave with its sequence number and timestamp; one that has left in full is answered DONE, counted and journalled,
and its template's counter rises; a link that goes down refuses what is on its way out; the Snuffer is engaged by its pin and by either host,
released by the holder of the semaphore alone while its lease lasts, and closes a die's gates. -/
def Obligations.ThePortsAndTheSnuffer : Prop :=
  (∀ (s : State) (d : Fin 6) (p : Fin 16) (dts : Int) (f : OutFrm) (rest : List OutFrm), let q := getPort s d.val p.val
    let t := mget ⟨[], [], 0⟩ (getPd s d.val).tmpls f.tmpl
    q.txq = f :: rest →
    ∃ u, exec (.macGrant d p dts) s = .next u ∧
      ((q.tx.isSome = true ∨ q.wgxTx.isSome = true ∨ (getPd s d.val).gate = true ∨ portLive s d.val p.val = false) → u = s) ∧
      (q.tx = none → q.wgxTx = none → (getPd s d.val).gate = false → portLive s d.val p.val = true →
        ∃ ts, getPort u d.val p.val = { q with txq := rest, tx := some { f with data := grantFrame f.form f.data t.seq ts, seqn := t.seq, ts := ts } } ∧
          (let m := nowQuarter s + txDelay (pcMode q.cfg) (pcFec q.cfg) * 4 / 10
           s.tc.lock = true → 12 ≤ m → m + 12 < 2 ^ 64 → m ≤ ts + 12 ∧ ts ≤ m + 12) ∧
          (∀ l, l ≠ p.val → getPort u d.val l = getPort s d.val l) ∧ (getPd u d.val).tmpls = (getPd s d.val).tmpls ∧ { u with pds := s.pds } = s)) ∧
  (∀ (s : State) (d : Fin 6) (p : Fin 16) (f : OutFrm), let q := getPort s d.val p.val
    q.tx = some f →
    let x := getPd s d.val
    let t := mget ⟨[], [], 0⟩ x.tmpls f.tmpl
    let w := (lget ⟨0, false, false⟩ f.words 0).w.toNat
    ∃ u, exec (.frameTransmitted d p) s = .next u ∧ (getPort u d.val p.val).tx = none ∧ (getPort u d.val p.val).txq = q.txq ∧
      mget 0 (getPort u d.val p.val).ctr 11 = satAdd 48 (mget 0 q.ctr 11) 1 ∧
      mget ⟨[], [], 0⟩ (getPd u d.val).tmpls f.tmpl = { t with seq := (t.seq + 1) % 2 ^ 64 } ∧ mget 0 (getPd u d.val).ctr (outcCode .done) = satAdd 48 (mget 0 x.ctr (outcCode .done)) 1 ∧
      (getPacket u s.net.next).map bare = some (fromDie (diePd d.val) f.attach f.src (.reply .done f.kind (qaQueue f.src))) ∧
      (logSize x.journal ≠ 0 → (getPd u d.val).journal.wait = x.journal.wait ++ [⟨0, journalBytes f.words .done f.ts f.seqn, none, false, false, nowPs s⟩]) ∧
      (bit (mget 0 x.lat (latKey (rwGgrp w) 68)) 63 = true →
        mget 0 (getPd u d.val).lat (latKey (rwGgrp w) 64) = satAdd 32 (mget 0 x.lat (latKey (rwGgrp w) 64)) 1 ∧
        mget 0 (getPd u d.val).lat (latKey (rwGgrp w) 65) = (mget 0 x.lat (latKey (rwGgrp w) 65) + (f.ts / 4 + 2 ^ 30 - rwIts w) % 2 ^ 30) % 2 ^ 64) ∧
      (bit (mget 0 x.lat (latKey (rwGgrp w) 68)) 63 = false → (getPd u d.val).lat = x.lat)) ∧
  (∀ (s : State) (d : Fin 6) (p : Fin 16) (up : Bool), let q := getPort s d.val p.val
    let x := getPd s d.val
    ∃ u, exec (.portLinkChange d p up) s = .next u ∧ ((q.up = up ∨ (up = true ∧ (x.inReset = true ∨ portOn x p.val = false ∨ laneTaken x p.val = true))) → u = s) ∧
      (up = true → q.up = false → x.inReset = false → portOn x p.val = true → laneTaken x p.val = false →
        getPort u d.val p.val = { q with up := true } ∧ raised s u (20002 + d.val) 0x0930 p.val 1) ∧
      (up = false → q.up = true → getPort u d.val p.val = { q with up := false, tx := none, txq := [], wgxTx := none } ∧ raised s u (20002 + d.val) 0x0930 p.val 0 ∧
        (∀ f, q.txq = [] → q.tx = some f →
          (getPacket u s.net.next).map bare = some (fromDie (diePd d.val) f.attach f.src (.reply .refusedFenced f.kind (qaQueue f.src)))))) ∧
  (∀ (s : State) (low held : Bool),
    ∃ u, exec (.snuffN low held) s = .next u ∧ u.snuff.pin = low ∧ u.snuff.relrej = s.snuff.relrej ∧
      (low = true → held = true → u.snuff.snf = true ∧ u.snuff.cause = 1 ∧ ∀ d, d < 6 → mget [] u.snuff.frames d = mget [] s.snuff.frames d ++ [true]) ∧
      ((low = false ∨ held = false) → u.snuff = { s.snuff with pin := low } ∧ { u with snuff := s.snuff } = s)) ∧
  (∀ (s : State) (p : Fin 2) (v : W32), hostUp s p.val = true →
    ∃ u, exec (.cdSnfWrite p v) s = .next u ∧
      (bit v.toNat 1 = false → bit v.toNat 2 = false → u = s) ∧
      (bit v.toNat 1 = true → u.snuff.snf = true ∧ u.snuff.cause = 2 ∧ ∀ d, d < 6 → mget [] u.snuff.frames d = mget [] s.snuff.frames d ++ [true]) ∧
      (bit v.toNat 1 = false → bit v.toNat 2 = true → ¬(s.sem.holder = some p.val ∧ nowPs s ≤ s.sem.lease) → u.snuff = s.snuff ∧
        (getHost u p.val).rwsign = satAdd 16 (getHost s p.val).rwsign 1) ∧
      (bit v.toNat 1 = false → bit v.toNat 2 = true → s.sem.holder = some p.val → nowPs s ≤ s.sem.lease →
        (s.snuff.pin = true → u.snuff = { s.snuff with relrej := satAdd 8 s.snuff.relrej 1 }) ∧
        (s.snuff.pin = false → s.snuff.snf = true → u.snuff.snf = false ∧ ∀ d, d < 6 → mget [] u.snuff.frames d = mget [] s.snuff.frames d ++ [false]) ∧
        (s.snuff.pin = false → s.snuff.snf = false → u = s))) ∧
  (∀ (s : State) (d : Fin 6) (on : Bool) (rest : List Bool), mget [] s.snuff.frames d.val = on :: rest → (getPd s d.val).inReset = false →
    ∃ u, exec (.snuffFrame d) s = .next u ∧ mget [] u.snuff.frames d.val = rest ∧ (getPd u d.val).gate = on ∧
      (on = true → ∀ p, p < 16 → (getPort u d.val p).tx = none ∧ (getPort u d.val p).txq = [] ∧ (getPort u d.val p).wgxTx = none) ∧
      (on = true → (getPd u d.val).evs = (getPd s d.val).evs ∧ (getPd u d.val).replay = (getPd s d.val).replay) ∧
      (on = false → u.net = s.net ∧ (getPd u d.val).ports = (getPd s d.val).ports))

/-- WGX_SESS, WGX_PUSH, WGX_PULL, WGX_FRAME_SEND, WGX_RTO_EXPIRY and WGX_ACK_TIMER (R350, R352, R354 to R358, R417): a session is staged; a push or
pull starts on an idle direction of a live session while fewer than 32 run; frames leave in the order restart, retransmission, PULL, ACK, new DATA within the window;
a lost frame is sent again until it has been lost more than `RMAX` times, when the session fails and its transfers end TIMEOUT. -/
def Obligations.WgxSending : Prop :=
  let runs (s : State) (d : Fin 6) (opc : Nat) (c : Cmd) : Prop := wireNext s d.val opc = some c ∧ c.eng = 0x48 + d.val ∧ c.txh = 0 ∧ txnLapse s = s
  let free (s : State) (d : Fin 6) : Prop := dieFenced s (diePd d.val) = false ∧ (getPd s d.val).inReset = false
  let leaves (u : State) (d i : Nat) (w : Wgx) (f : List Byte) : Prop :=
    (getPort u d (wsPort w.ws % 16)).wgxTx = some (i, wgxWire w.ws (Config.wgxHead (wsPort w.ws) u.time.ticks) f)
  (∀ (s : State) (d : Fin 6) (c : Cmd) (i : Instr) (opc : Nat), runs s d opc c → (i, opc) ∈ [(Instr.wgxSess d, 0x37), (.wgxPush d, 0x38), (.wgxPull d, 0x39)] →
    (dieFenced s (diePd d.val) = true ∨ (getPd s d.val).inReset = true) → ∃ u, exec i s = .next u ∧ completed s u c .refusedFenced 0 ∧ u.pds = s.pds) ∧
  (∀ (s : State) (d : Fin 6) (c : Cmd), runs s d 0x37 c → free s d →
    let ws := (c.words.drop 8).take 8
    ∃ u, exec (.wgxSess d) s = .next u ∧ (wgxOk d.val ws = false → completed s u c .fault (2 * 2 ^ 56) ∧ u.pds = s.pds) ∧
      (wgxOk d.val ws = true → inPhase u c (.stage [.wgx d.val (bits (cmdWord c 0 2) 0 5) ws]) ∧ { u with eng := s.eng } = s)) ∧
  (∀ (s : State) (d : Fin 6) (c : Cmd) (pull : Bool), runs s d (if pull then 0x39 else 0x38) c → free s d →
    let i := bits (cmdWord c 0 3) 40 5
    let w := getWgx s d.val i
    let len := bits (cmdWord c 0 3) 0 40
    let a := cmdWord c 0 2
    let t : WgxXfer := ⟨c.id, a, len, bits (cmdWord c 0 4) 32 32, bits (cmdWord c 0 4) 0 32, bits (cmdWord c 0 5) 0 4, 0, 0, [], false, none, false, none, pull, 0⟩
    let bad := w.live = false ∨ w.failed = true ∨ len = 0 ∨ a + len > s.part.gib * 2 ^ 30
    ∃ u, exec (if pull then .wgxPull d else .wgxPush d) s = .next u ∧ (bad → completed s u c .fault (2 * 2 ^ 56) ∧ u.pds = s.pds) ∧
      (¬bad → ((if pull then w.pull else w.push).isSome = true ∨ 32 ≤ wgxRunning s d.val) → u = s) ∧
      (¬bad → (if pull then w.pull else w.push) = none → wgxRunning s d.val < 32 → inPhase u c .work ∧
        getWgx u d.val i = (if pull then { w with pull := some t } else { w with push := some t }) ∧ (∀ j, j ≠ i → getWgx u d.val j = getWgx s d.val j) ∧
        { u with eng := s.eng, pds := s.pds } = s)) ∧
  (∀ (s : State) (d : Fin 6) (i : Fin 32), let w := getWgx s d.val i.val
    ∃ u, exec (.wgxFrameSend d i) s = .next u ∧
      ((w.live = false ∨ w.failed = true ∨ wgxFree s d.val i.val = false) → u = s) ∧
      (w.live = true → w.failed = false → wgxFree s d.val i.val = true →
        (w.rstNow = true → leaves u d.val i.val w (wgxFrame w 4 0 false false false w.seqTx 0 0 0 []) ∧
          getWgx u d.val i.val = { w with rstNow := false } ∧ { u with pds := s.pds } = s) ∧
        (w.rstNow = false → ∀ o, w.outs.find? (·.again) = some o →
          leaves u d.val i.val w (wgxFrame w 1 o.fmt o.poi true o.last o.seq o.tensor o.step o.ofs o.data) ∧ (getWgx u d.val i.val).seqTx = w.seqTx ∧
          (∀ x ∈ (getWgx u d.val i.val).outs, x.seq = o.seq → x.again = false ∧ x.sentAt = nowPs s) ∧ { u with pds := s.pds } = s) ∧
        (w.rstNow = false → w.outs.find? (·.again) = none →
          (∀ t, w.pull = some t → t.again = true →
            leaves u d.val i.val w (wgxFrame w 3 0 false t.sentAt.isSome false w.seqTx t.tensor t.step 0 (leBytes 8 t.len)) ∧
            (getWgx u d.val i.val).pull = some { t with again := false, sentAt := some (nowPs s) } ∧ { u with pds := s.pds } = s) ∧
          ((∀ t, w.pull = some t → t.again = false) →
            (w.ackNow = true → leaves u d.val i.val w (wgxFrame w 2 0 false false false w.seqTx 0 0 0 (leBytes 8 (wgxBitmap w))) ∧
              getWgx u d.val i.val = { w with ackNow := false, inOrder := 0, due := none } ∧ { u with pds := s.pds } = s) ∧
            (w.ackNow = false →
              (w.push = none → u = s) ∧ (∀ t, w.push = some t → (t.len ≤ t.next ∨ wgxRoom w = false ∨ linkOpen s = false) → u = s) ∧
              (∀ t bs s1, w.push = some t → t.next < t.len → wgxRoom w = true → linkOpen s = true →
                modRead s (diePd d.val) (t.addr + t.next) (min (wsSeg w.ws) (t.len - t.next)) = (bs, .done, s1) →
                let n := min (wsSeg w.ws) (t.len - t.next)
                leaves u d.val i.val w (wgxFrame w 1 t.fmt (anyPoi bs) false (decide (t.next + n = t.len)) w.seqTx t.tensor t.step t.next (bs.map (·.1))) ∧
                (getWgx u d.val i.val).seqTx = (w.seqTx + 1) % 2 ^ 32 ∧
                (getWgx u d.val i.val).push = some { t with next := t.next + n, poi := t.poi || anyPoi bs })))))) ∧
  (∀ (s : State) (d : Fin 6) (i : Fin 32) (q : Nat) (o : WgxOut), let w := getWgx s d.val i.val
    w.live = true → w.failed = false → (getPd s d.val).gate = false → w.outs.find? (fun o => o.seq == q && !o.again && !o.held) = some o →
    (∀ x ∈ w.outs, x.seq = q → x = o) →
    ∃ u, exec (.wgxRtoExpiry d i (some q)) s = .next u ∧ o.sentAt + wsRto w.ws * 1000000 ≤ nowPs u ∧
      (o.losses < wsRmax w.ws → getWgx u d.val i.val = { w with outs := w.outs.map fun x => if x.seq == q then { o with losses := o.losses + 1, again := true } else x }) ∧
      (wsRmax w.ws ≤ o.losses → (getWgx u d.val i.val).failed = true ∧ (getWgx u d.val i.val).push = none ∧ (getWgx u d.val i.val).pull = none ∧
        (getWgx u d.val i.val).outs = [] ∧ raised (reachPs s (o.sentAt + wsRto w.ws * 1000000)) u (20002 + d.val) 0x0940 (wsPort w.ws % 16) (BitVec.ofNat 64 i.val) ∧
        (∀ t c, w.push = some t → w.pull = none → (getEng s (0x48 + d.val)).cmds.find? (·.id == t.cmd) = some c → c.eng = 0x48 + d.val →
          completed s u c .timeout 0))) ∧
  (∀ (s : State) (d : Fin 6) (i : Fin 32) (t : WgxXfer) (a : Nat), let w := getWgx s d.val i.val
    w.live = true → w.failed = false → (getPd s d.val).gate = false → w.pull = some t → t.first = false → t.again = false → t.sentAt = some a →
    t.losses < wsRmax w.ws →
    ∃ u, exec (.wgxRtoExpiry d i none) s = .next u ∧ a + wsRto w.ws * 1000000 ≤ nowPs u ∧
      getWgx u d.val i.val = { w with pull := some { t with again := true, losses := t.losses + 1 } }) ∧
  (∀ (s : State) (d : Fin 6) (i : Fin 32) (q : Option Nat), (getPd s d.val).gate = true → exec (.wgxRtoExpiry d i q) s = .next s) ∧
  (∀ (s : State) (d : Fin 6) (i : Fin 32) (t : Nat), (getWgx s d.val i.val).due = some t →
    ∃ u, exec (.wgxAckTimer d i) s = .next u ∧ t ≤ nowPs u ∧ getWgx u d.val i.val = { getWgx s d.val i.val with ackNow := true, due := none })

/-- WGX_DATA, WGX_ACK, WGX_PULL_FRAME and WGX_RST (R353 to R355, R357, Table 10.6): a frame that is malformed or of no session is counted and raises
0x0941; DATA is a duplicate, beyond the window, without a transfer, or written to its place and held as received; an acknowledgement drops
the frames it covers and marks those the bitmap shows held, and three held beyond a frame make it lost; a restart numbers both directions
from 0 and ends the transfers FAULT; a frame whose `RTO` ended before counts as lost first (R33, R356). `s1` is the state after the acknowledgement that every frame carries. -/
def Obligations.WgxReceiving : Prop :=
  let ctr (s : State) (d i k : Nat) : Nat := mget 0 (getWgx s d i).ctr k
  let reaches (s : State) (d : Fin 6) (p : Fin 16) (f : List Byte) (h : WHdr) (i : Nat) : Prop :=
    portLive s d.val p.val = true ∧ wgxParse f = some h ∧ sidOf s d.val h.sid = some i ∧
      ((getPd s d.val).gate = true ∨ ∀ o ∈ (getWgx s d.val i).outs, o.again = true ∨ o.held = true ∨
        pastPs s (o.sentAt + wsRto (getWgx s d.val i).ws * 1000000) = false)
  let acked (s : State) (d : Fin 6) (p : Fin 16) (h : WHdr) (i : Nat) : State := wgxAcked (portCount s d.val p.val 0) d.val i h.ack h.win
  (∀ (s : State) (d : Fin 6) (p : Fin 16) (f : List Byte) (c : Instr), c ∈ [Instr.wgxData d p f, .wgxAck d p f, .wgxPullFrame d p f, .wgxRst d p f] →
    ∃ u, exec c s = .next u ∧ (portLive s d.val p.val = false → u = s) ∧
      (portLive s d.val p.val = true → (wgxParse f = none ∨ ∃ h, wgxParse f = some h ∧ sidOf s d.val h.sid = none) →
        ((∀ w ∈ s.inc.windows, w.cls ≠ 0x0941) → raised s u (20002 + d.val) 0x0941 p.val (BitVec.ofNat 64 (bits (wordAt f 0) 32 16))) ∧
        (∀ i, sidOf s d.val (bits (wordAt f 0) 32 16) = some i → ctr u d.val i 0 = satAdd 48 (ctr s d.val i 0) 1) ∧
        (∀ i, (getWgx u d.val i).outs = (getWgx s d.val i).outs ∧ (getWgx u d.val i).ackRx = (getWgx s d.val i).ackRx))) ∧
  (∀ (s : State) (d : Fin 6) (p : Fin 16) (f : List Byte) (h : WHdr) (i : Nat), reaches s d p f h i → h.typ = 1 →
    let s1 := acked s d p h i
    let w := getWgx s1 d.val i
    let n := (h.seq + 2 ^ 32 - w.ackRx) % 2 ^ 32
    let dup := n ≥ 2 ^ 31 ∨ w.heldRx.contains h.seq = true
    ∃ u, exec (.wgxData d p f) s = .next u ∧
      (dup → ctr u d.val i 3 = satAdd 48 (ctr s1 d.val i 3) 1 ∧ (getWgx u d.val i).ackNow = true ∧ (getWgx u d.val i).ackRx = w.ackRx ∧
        (getWgx u d.val i).heldRx = w.heldRx ∧ u.msds = s1.msds) ∧
      (¬dup → n > 64 → ctr u d.val i 4 = satAdd 48 (ctr s1 d.val i 4) 1 ∧ (getWgx u d.val i).ackRx = w.ackRx ∧ (getWgx u d.val i).heldRx = w.heldRx ∧
        u.msds = s1.msds) ∧
      (¬dup → n ≤ 64 → w.pull = none → ctr u d.val i 5 = satAdd 48 (ctr s1 d.val i 5) 1 ∧ u.msds = s1.msds ∧
        (n ≠ 0 → (getWgx u d.val i).ackRx = w.ackRx ∧ (getWgx u d.val i).heldRx = w.heldRx ++ [h.seq]) ∧
        (h.seq = w.ackRx → w.heldRx = [] → (getWgx u d.val i).ackRx = (h.seq + 1) % 2 ^ 32 ∧ (getWgx u d.val i).heldRx = [])) ∧
      (¬dup → n ≤ 64 → ∀ t s2, w.pull = some t → t.tensor = h.tensor → t.step = h.step → h.ofs + h.pay.length ≤ t.len →
        modWrite s1 (diePd d.val) (t.addr + h.ofs) (h.pay.map fun b => (b, h.poi)) = some (s2, .done) →
        u.msds = s2.msds ∧ ctr u d.val i 6 = satAdd 48 (ctr s1 d.val i 6) 1 ∧
        (n ≠ 0 → (getWgx u d.val i).heldRx = w.heldRx ++ [h.seq] ∧ (getWgx u d.val i).ackNow = true) ∧
        (h.seq = w.ackRx → w.heldRx = [] → (getWgx u d.val i).ackRx = (h.seq + 1) % 2 ^ 32) ∧
        (h.last = false → t.seqLast = none → (getWgx u d.val i).pull =
          some { t with first := true, again := false, poi := t.poi || h.poi, got := t.got ++ [(h.ofs, h.ofs + h.pay.length)] }) ∧
        (∀ c, h.last = true → h.ofs = 0 → h.pay.length = t.len → t.got = [] → h.seq = w.ackRx → h.seq < 2 ^ 32 - 1 → w.heldRx = [] →
          (getEng s2 (0x48 + d.val)).cmds.find? (·.id == t.cmd) = some c → c.eng = 0x48 + d.val →
          (getWgx u d.val i).pull = none ∧ completed s2 u c (if t.poi || h.poi then .poisoned else .done) (if t.poi || h.poi then 0 else t.count)))) ∧
  (∀ (s : State) (d : Fin 6) (p : Fin 16) (f : List Byte) (h : WHdr) (i : Nat), reaches s d p f h i → h.typ = 2 →
    let w := getWgx (acked s d p h i) d.val i
    let bm := leNat (h.pay.take 8)
    let pos (q : Nat) : Nat := (q + 2 ^ 32 - w.ackTx) % 2 ^ 32
    let shown (o : WgxOut) : Bool := decide ((o.seq + 2 ^ 32 - (h.ack + 1)) % 2 ^ 32 < 64) && bit bm ((o.seq + 2 ^ 32 - (h.ack + 1)) % 2 ^ 32)
    (w.outs.map (·.seq)).Nodup → (∀ o ∈ w.outs, o.losses < wsRmax w.ws) →
    ∃ u, exec (.wgxAck d p f) s = .next u ∧ ctr u d.val i 2 = satAdd 48 (mget 0 w.ctr 2) 1 ∧
      (∀ o ∈ w.outs, shown o = true → { o with held := true, again := false } ∈ (getWgx u d.val i).outs) ∧
      (∀ o ∈ w.outs, shown o = false → o.held = false → o.again = false → o.fast = false →
        let above := (w.outs.filter fun x => (x.held || shown x) && decide (pos x.seq > pos o.seq)).length
        (3 ≤ above → { o with losses := o.losses + 1, again := true, fast := true } ∈ (getWgx u d.val i).outs) ∧
        (above < 3 → o ∈ (getWgx u d.val i).outs))) ∧
  (∀ (s : State) (d : Fin 6) (p : Fin 16) (f : List Byte) (h : WHdr) (i : Nat), reaches s d p f h i → h.typ = 3 →
    let w := getWgx s d.val i
    let n := (h.ack + 2 ^ 32 - w.ackTx) % 2 ^ 32
    let left := w.outs.filter fun o => decide ((o.seq + 2 ^ 32 - w.ackTx) % 2 ^ 32 ≥ n)
    ∃ u, exec (.wgxPullFrame d p f) s = .next u ∧ (getWgx u d.val i).ackRx = w.ackRx ∧ (getWgx u d.val i).pull = w.pull ∧ u.msds = s.msds ∧
      (n > (w.seqTx + 2 ^ 32 - w.ackTx) % 2 ^ 32 → (getWgx u d.val i).ackTx = w.ackTx ∧ (getWgx u d.val i).outs = w.outs) ∧
      (n ≤ (w.seqTx + 2 ^ 32 - w.ackTx) % 2 ^ 32 → (getWgx u d.val i).ackTx = h.ack ∧ (getWgx u d.val i).winTx = h.win ∧ (getWgx u d.val i).outs = left ∧
        (∀ t c, w.push = some t → t.next = t.len → left = [] → (getEng s (0x48 + d.val)).cmds.find? (·.id == t.cmd) = some c → c.eng = 0x48 + d.val →
          (getWgx u d.val i).push = none ∧ completed s u c (if t.poi then .poisoned else .done) (if t.poi then 0 else t.count)))) ∧
  (∀ (s : State) (d : Fin 6) (p : Fin 16) (f : List Byte) (h : WHdr) (i : Nat) (o : WgxOut), let w := getWgx s d.val i
    portLive s d.val p.val = true → wgxParse f = some h → sidOf s d.val h.sid = some i → h.typ = 3 → (getPd s d.val).gate = false → w.failed = false →
    w.outs = [o] → o.again = false → o.held = false → pastPs s (o.sentAt + wsRto w.ws * 1000000) = true → wsRmax w.ws ≤ o.losses →
    ∃ u, exec (.wgxPullFrame d p f) s = .next u ∧ (getWgx u d.val i).failed = true ∧ (getWgx u d.val i).push = none ∧ (getWgx u d.val i).pull = none ∧
      raised s u (20002 + d.val) 0x0940 (wsPort w.ws % 16) (BitVec.ofNat 64 i)) ∧
  (∀ (s : State) (d : Fin 6) (p : Fin 16) (f : List Byte) (h : WHdr) (i : Nat), reaches s d p f h i → h.typ = 4 →
    let w := getWgx s d.val i
    ∃ u, exec (.wgxRst d p f) s = .next u ∧ ctr u d.val i 1 = satAdd 48 (ctr s d.val i 1) 1 ∧ raised s u (20002 + d.val) 0x0942 p.val (BitVec.ofNat 64 i) ∧
      (let v := getWgx u d.val i
       v.live = true ∧ v.failed = w.failed ∧ v.seqTx = 0 ∧ v.ackTx = 0 ∧ v.outs = [] ∧ v.ackRx = 0 ∧ v.heldRx = [] ∧ v.push = none ∧ v.pull = none ∧ v.ws = w.ws) ∧
      (∀ t c, w.push = some t → w.pull = none → (getEng s (0x48 + d.val)).cmds.find? (·.id == t.cmd) = some c → c.eng = 0x48 + d.val →
        completed s u c .fault 0))

/-! ### Satellites and Brobry links (chapter 20, 16.7) -/

/-- SATELLITE_DIE_RESET, SATELLITE_RETRAIN_DONE and DIE_TRAINING (R378, R519, R603 to R607, Tables 16.9 and 20.7): a die that resets alone is fenced
at once and raises 0x0710; one whose links are up returns with its state at reset values and, if an MSD, its keys; one that does not
return within 2 s raises 0x0711; training goes step by step, accepts a die by its capability word and needs 8 lanes at every port. -/
def Obligations.SatellitesResetTrainAndReturn : Prop :=
  (∀ (s : State) (d : Fin 32), d.val < 2 → exec (.satelliteDieReset d) s = .next s ∧ exec (.satelliteRetrainDone d) s = .next s) ∧
  (∀ (s : State) (d : Fin 32), 2 ≤ d.val → (getDie s d.val).down = false →
    ∃ u, exec (.satelliteDieReset d) s = .next u ∧ (getDie u d.val).down = true ∧ (getDie u d.val).downAt = nowPs s ∧ (getDie u d.val).train = 0 ∧
      bit u.dieFence.toNat d.val = true ∧ (∀ k, k < 32 → k ≠ d.val → bit u.dieFence.toNat k = bit s.dieFence.toNat k) ∧
      raisedFirst s u (20000 + d.val) 0x0710 0 0 ∧
      (dieIsMsd d.val = true → (getMsd u (d.val - 8)).inReset = true) ∧ (dieIsPd d.val = true → (getPd u (d.val - 2)).inReset = true)) ∧
  (∀ (s : State) (d : Fin 32), 2 ≤ d.val → (getDie s d.val).down = true → (getDie s d.val).train = 7 →
    ∃ u, exec (.satelliteRetrainDone d) s = .next u ∧ (getDie u d.val).down = false ∧ (getDie u d.val).lost = false ∧ u.dieFence = s.dieFence ∧
      (dieIsPd d.val = true → (getPd u (d.val - 2)).inReset = false ∧
        mget [] u.snuff.frames (d.val - 2) = mget [] s.snuff.frames (d.val - 2) ++ [s.snuff.snf] ∧
        ∃ x w, u.eng.txns = s.eng.txns ++ [x] ∧ x.chgs = [.dieFence (BitVec.ofNat 32 (setBits s.dieFence.toNat d.val 1 0))] ∧ x.ph = .waved true ∧
          u.lamp.pending = s.lamp.pending ++ [w] ∧ w.wtype = .commit ∧ w.wtxn = x.tag) ∧
      (dieIsMsd d.val = true → (getMsd s (d.val - 8)).inReset = true →
        (getMsd u (d.val - 8)).inReset = false ∧ (getMsd u (d.val - 8)).mem = [] ∧
        (getMsd u (d.val - 8)).keys = (if capMake (getDie s d.val) = 1 then s.island.slots.map fun e => (e.1, e.2.key) else []) ∧
        (getMsd u (d.val - 8)).resilver = if (mirrorRanges s (d.val - 8) ++ mirrorRanges s (mirrorOf (d.val - 8))).isEmpty then none else some 0)) ∧
  (∀ (s : State) (d : Fin 32), 2 ≤ d.val → (getDie s d.val).down = true → (getDie s d.val).train ≠ 7 → (getDie s d.val).lost = false →
    let t := (getDie s d.val).downAt + 2000000000000
    ∃ u, exec (.satelliteRetrainDone d) s = .next u ∧ t ≤ nowPs u ∧ (getDie u d.val).lost = true ∧ (getDie u d.val).down = true ∧
      bit u.dieFence.toNat d.val = true ∧ raised (reachPs s t) u (20000 + d.val) 0x0711 0 0) ∧
  (∀ (s : State) (d : Fin 32) (bad : List (Fin 8 × Fin 2 × Fin 13)), let x := getDie s d.val
    d.val ≠ 0 → (s.boot.step = 3 ∨ (x.down = true ∧ s.boot.step = 7)) →
    let w := x.cap.toNat
    ∃ u, exec (.dieTraining d bad) s = .next u ∧
      (x.train = 0 → getDie u d.val = { x with train := 1 }) ∧
      (x.train = 1 → (getDie u d.val).train = 2 ∧ (getDie u d.val).cap = 0 ∧ ∀ p, p < diePorts d.val → (getBb u d.val p).st = 1 ∧ (getBb u d.val p).sbok = true) ∧
      (x.train = 2 → x.cap = 0 → u = s) ∧
      (x.train = 2 → x.cap ≠ 0 → capOk d.val w = true → getDie u d.val = { x with train := 3, accepted := true, rate := capRate w, ver := capVer w }) ∧
      (x.train = 2 → x.cap ≠ 0 → capOk d.val w = false → s.boot.step = 7 → getDie u d.val = { x with train := 0, accepted := false }) ∧
      (x.train = 3 → (getDie u d.val).train = 4 ∧ ∀ p, p < diePorts d.val → (getBb u d.val p).st = 2) ∧
      (x.train = 4 → bad = [] → (∀ p, p < diePorts d.val → 8 ≤ bbLanes (getBb s d.val p)) → (getDie u d.val).train = 5) ∧
      (x.train = 4 → bad = [] → s.boot.step = 7 → (∃ p, p < diePorts d.val ∧ bbLanes (getBb s d.val p) < 8) → (getDie u d.val).train = 0) ∧
      (x.train = 5 → (getDie u d.val).train = 6) ∧
      (x.train = 6 → (getDie u d.val).train = 7 ∧ (getDie u d.val).test = false ∧
        ∀ p, p < diePorts d.val → (getBb u d.val p).st = 3 ∧ (getBb u d.val p).rate = x.rate ∧ (getBb u d.val p).ver = x.ver))

/-- BROBRY_FLIT, BROBRY_NAK, BROBRY_REPLAY_TIMEOUT, ATTACH_PORT_RETRAIN and ATTACH_PORT_RETRAIN_DONE (R592, R596 to R599): the bytes of flits go over the
lanes in use in ascending order, on across flits; a good flit in sequence is delivered and acknowledges; a bad one is discarded and the receiver waits for the replay; a sender with 64 unacknowledged sends none; a NAK
or 200 ns without an advance replays them, counted with 0x0701; a port with more than 16 retries is held and retrained, a bad lane is
replaced by the spare, and fewer than 8 lanes lose the die. -/
def Obligations.FlitsAndRetraining : Prop :=
  (∀ (s : State) (d : Fin 32) (p : Fin 8) (dir : Fin 2) (l : List (Fin 4)) (ok : Bool), (getBb s d.val p.val).st = 3 →
    let b := getBb s d.val p.val
    let x := bbDir b dir.val
    let y := bbDir b (1 - dir.val)
    ∃ u, exec (.brobryFlit d p dir (some l) ok) s = .next u ∧ { u with dies := s.dies } = s ∧
      (let v := getBb u d.val p.val
       let z := bbDir v dir.val
       (64 ≤ x.unacked.length → z = x) ∧
       (x.unacked.length < 64 → z.next = (x.next + 1) % 4096 ∧ z.unacked = x.unacked ++ [(x.next, l.map (·.val))] ∧
         z.lane = (x.lane + 256) % (lanesUsed x).length) ∧
       (x.unacked.length < 64 → ok = true → x.next = x.expect → ∀ k, slotsAfter x.carry (l.take 15) = some k →
         z.expect = (x.expect + 1) % 4096 ∧ z.naked = false ∧ z.carry = k) ∧
       (x.unacked.length < 64 → (ok = false ∨ x.next ≠ x.expect ∨ slotsAfter x.carry (l.take 15) = none) → z.expect = x.expect ∧ z.naked = true) ∧
       (ok = false → bbDir v (1 - dir.val) = y) ∧
       (ok = true → ∀ e t, y.unacked = e :: t →
         let n := (y.expect + 4096 - e.1) % 4096
         0 < n → n ≤ y.unacked.length → bbDir v (1 - dir.val) = { y with unacked := y.unacked.drop n, since := nowPs s }))) ∧
  (∀ (s : State) (d : Fin 32) (p : Fin 8) (dir : Fin 2) (ok : Bool), (getBb s d.val p.val).st = 3 →
    let x := bbDir (getBb s d.val p.val) dir.val
    ∃ u, exec (.brobryFlit d p dir none ok) s = .next u ∧
      bbDir (getBb u d.val p.val) dir.val = { x with lane := (x.lane + 256) % (lanesUsed x).length, naked := x.naked || !ok }) ∧
  (∀ (x : BbDir) (i : Nat), x.gone = [] → x.spare = false → flitLane x i = (x.lane + i) % 12) ∧
  (∀ (x : BbDir) (k i : Nat), k < 12 → x.gone = [k] → x.spare = true →
    flitLane x i = (if (x.lane + i) % 12 < k then (x.lane + i) % 12 else (x.lane + i) % 12 + 1)) ∧
  (∀ (s : State) (d : Fin 32) (p : Fin 8) (dir : Fin 2) (timer : Bool) (oks : List Bool), let b := getBb s d.val p.val
    let x := bbDir b dir.val
    let goes := if timer then x.unacked ≠ [] else x.naked = true
    let x1 := if timer then x else ackFlits x x.expect (nowPs s)
    let r := if timer then reachPs s (x.since + 200000) else s
    b.st = 3 →
    ∃ u, exec (if timer then .brobryReplayTimeout d p dir oks else .brobryNak d p dir oks) s = .next u ∧ (¬goes → u = s) ∧
      (goes → (timer = true → x.since + 200000 ≤ nowPs u) ∧ (getBb u d.val p.val).retry = satAdd 16 b.retry 1 ∧
        (let z := bbDir (getBb u d.val p.val) dir.val
         z.unacked = x1.unacked ∧ z.next = x1.next ∧ z.retries = x1.retries + 1 ∧ z.since = nowPs r ∧
         (∀ e k, x1.unacked = [e] → e.1 = x1.expect → okAt oks 0 = true →
           slotsAfter x1.carry ((e.2.take 15).map fun c => Fin.ofNat 4 c) = some k → z.expect = (x1.expect + 1) % 4096 ∧ z.naked = false) ∧
         (∀ e, x1.unacked = [e] → okAt oks 0 = false → z.expect = x1.expect ∧ z.naked = true)) ∧
        ((∀ w ∈ s.inc.windows, w.cls ≠ 0x0701) → d.val ≠ 0 → raised r u (20000 + d.val) 0x0701 p.val 0))) ∧
  (∀ (s : State) (d : Fin 32) (p : Fin 8), let b := getBb s d.val p.val
    let t := attachTile d.val p.val
    b.st = 3 →
    ∃ u, exec (.attachPortRetrain d p) s = .next u ∧ (b.d0.retries ≤ 16 → b.d1.retries ≤ 16 → u = s) ∧
      ((16 < b.d0.retries ∨ 16 < b.d1.retries) → getBb u d.val p.val = { b with st := 4, trainAt := nowPs s } ∧ bit (getTile u t).hold.toNat 4 = true ∧
        { u with dies := s.dies, tiles := s.tiles } = s)) ∧
  (∀ (s : State) (d : Fin 32) (p : Fin 8), let b := getBb s d.val p.val
    let t := attachTile d.val p.val
    d.val ≠ 0 → b.st = 4 →
    ∃ u, exec (.attachPortRetrainDone d p []) s = .next u ∧ bit (getTile u t).hold.toNat 4 = false ∧
      raisedFirst s u (20000 + d.val) 0x0703 p.val (BitVec.ofNat 64 (bbLanes b * 256)) ∧
      (8 ≤ bbLanes b → getBb u d.val p.val = { b with st := 3, d0 := realign b.d0, d1 := realign b.d1 } ∧ u.dieFence = s.dieFence) ∧
      (bbLanes b < 8 → (getBb u d.val p.val).st = 0 ∧ (getDie u d.val).lost = true ∧ (2 ≤ d.val → bit u.dieFence.toNat d.val = true))) ∧
  (∀ (s : State) (d : Fin 32) (p : Fin 8) (dir : Fin 2) (lane : Fin 13), let b := getBb s d.val p.val
    let x := bbDir b dir.val
    d.val ≠ 0 → b.st = 4 → lane.val < 12 → lane.val ∉ x.gone → 8 < bbLanes b →
    ∃ u, exec (.attachPortRetrainDone d p [(dir, lane)]) s = .next u ∧ (getBb u d.val p.val).st = 3 ∧ bit (getBb u d.val p.val).fail.toNat lane.val = true ∧
      (x.spare = false → 12 ∉ x.gone → (bbDir (getBb u d.val p.val) dir.val).spare = true ∧
        (bbDir (getBb u d.val p.val) dir.val).lanes = x.lanes ∧ raisedFirst s u (20000 + d.val) 0x0702 p.val (BitVec.ofNat 64 (lane.val + dir.val * 16))) ∧
      ((x.spare = true ∨ 12 ∈ x.gone) → (bbDir (getBb u d.val p.val) dir.val).lanes = x.lanes - 1))

/-- CREDIT, TRAIN, KEY, MGMT and STATE frames, SBACK_FRAME, SIDEBAND_REPEAT_TIMEOUT and WAVE_FRAME (R601, R602, R604, R606, R619): a numbered frame
goes out unless 8 are unacknowledged, and is taken once, in sequence; each has the effect of its type; an acknowledgement drops what it
covers; after 1 µs the rest is repeated, and the sixteenth repeat fails the lane; the first good copy of a wave is applied at a die. -/
def Obligations.SidebandFrames : Prop :=
  let numbered (d : Fin 32) (p : Fin 8) (dir : Fin 2) (v : W64) (bs : List Byte) (rep : DieRep) (ok : Bool) : List (Instr × Nat) :=
    [(.creditFrame d p dir v ok, dir.val), (.trainFrame d p dir v ok, dir.val), (.mgmtFrame d p dir bs ok, dir.val), (.stateFrame d p rep ok, 0)]
  let taken (s : State) (d : Fin 32) (p : Fin 8) (dir : Nat) : Prop := (getBb s d.val p.val).sbok = true ∧
    (sbDir (getBb s d.val p.val) dir).unacked.length < 8 ∧ (sbDir (getBb s d.val p.val) dir).next = (sbDir (getBb s d.val p.val) dir).expect
  (∀ (s : State) (d : Fin 32) (p : Fin 8) (dir : Fin 2) (v : W64) (bs : List Byte) (rep : DieRep) (ok : Bool) (i : Instr) (k : Nat),
    (i, k) ∈ numbered d p dir v bs rep ok →
    let b := getBb s d.val p.val
    let x := sbDir b k
    ∃ u, exec i s = .next u ∧ ((b.sbok = false ∨ 8 ≤ x.unacked.length) → u = s) ∧
      (b.sbok = true → x.unacked.length < 8 →
        (let y := sbDir (getBb u d.val p.val) k
         y.next = (x.next + 1) % 16 ∧ (y.unacked.map (·.1)) = x.unacked.map (·.1) ++ [x.next] ∧
         (ok = true → x.next = x.expect → y.expect = (x.expect + 1) % 16 ∧ y.ackDue = true) ∧
         (ok = true → x.next ≠ x.expect → y.expect = x.expect ∧ y.ackDue = true) ∧
         (ok = false → y.expect = x.expect ∧ y.bad = x.bad + 1)) ∧
        ((ok = false ∨ x.next ≠ x.expect) → { getDie u d.val with ports := (getDie s d.val).ports } = getDie s d.val ∧ { u with dies := s.dies } = s))) ∧
  (∀ (s : State) (d : Fin 32) (p : Fin 8) (dir : Fin 2) (v : W64) (bs : List Byte),
    (taken s d p dir.val → ∃ u, exec (.creditFrame d p dir v true) s = .next u ∧ ∀ i, i < 4 →
      mget 0 (getBb u d.val p.val).credit (dir.val * 4 + i) = mget 0 (getBb s d.val p.val).credit (dir.val * 4 + i) + bits v.toNat (16 * i) 16) ∧
    (taken s d p 0 → ∃ u, exec (.trainFrame d p 0 v true) s = .next u ∧ (getDie u d.val).cap = v) ∧
    (taken s d p 1 → ∃ u, exec (.mgmtFrame d p 1 bs true) s = .next u ∧ (getDie u d.val).mgmt = (getDie s d.val).mgmt ++ body16 bs)) ∧
  (∀ (s : State) (d : Fin 32) (p : Fin 8), taken s d p 0 →
    (∀ c, ∃ u, exec (.stateFrame d p (.state c) true) s = .next u ∧ mget 0 (getDie u d.val).state 0 = c.toNat) ∧
    (∀ v, ∃ u, exec (.stateFrame d p (.firmware v) true) s = .next u ∧ (getDie u d.val).fw = v.toNat) ∧
    (∀ (k : Fin 16) cmd ds, s.island.acks = some (cmd, k.val, ds) →
      ∃ u, exec (.stateFrame d p (.keyAck k) true) s = .next u ∧
        (ds.filter (· != d.val) ≠ [] → u.island.acks = some (cmd, k.val, ds.filter (· != d.val))) ∧
        (ds.filter (· != d.val) = [] → u.island.acks = none))) ∧
  (∀ (s : State) (d : Fin 32) (p : Fin 8) (slot : Fin 16) (piece : Fin 4), taken s d p 1 → dieIsMsd d.val = true → capMake (getDie s d.val) = 1 →
    ∃ u, exec (.keyFrame d p slot piece true) s = .next u ∧
      (piece.val = 3 → ∀ k, k < 16 → (getMsd u (d.val - 8)).keys.lookup k =
        if (s.island.slots.any fun e => e.1 == k) then (getMsd s (d.val - 8)).keys.lookup k else none) ∧
      (piece.val < 3 → s.island.slots.lookup slot.val = none → u = s) ∧
      (∀ e, piece.val < 3 → s.island.slots.lookup slot.val = some e →
        (getDie u d.val).keyPiece.lookup (slot.val * 4 + piece.val) = some (body16 (Config.keyWrap (d.val - 8) slot.val e.key piece.val)) ∧
        ((∀ i, i < 3 → i ≠ piece.val → ((getDie s d.val).keyPiece.lookup (slot.val * 4 + i)).isSome = true) →
          (getMsd u (d.val - 8)).keys.lookup slot.val = some e.key))) ∧
  (∀ (s : State) (d : Fin 32) (p : Fin 8) (dir : Fin 2) (ok : Bool), (getBb s d.val p.val).sbok = true →
    let x := sbDir (getBb s d.val p.val) dir.val
    ∃ u, exec (.sbackFrame d p dir ok) s = .next u ∧
      (let y := sbDir (getBb u d.val p.val) dir.val
       y.ackDue = false ∧ y.expect = x.expect ∧ y.next = x.next ∧ (ok = false → y.unacked = x.unacked ∧ y.bad = x.bad + 1) ∧
       (ok = true → ∀ e t, x.unacked = e :: t →
         let n := (x.expect + 16 - e.1) % 16
         0 < n → n ≤ x.unacked.length → y.unacked = x.unacked.drop n ∧ y.since = nowPs s ∧ y.repeats = 0))) ∧
  (∀ (s : State) (d : Fin 32) (p : Fin 8) (dir : Fin 2) (oks : List Bool), (getBb s d.val p.val).sbok = true →
    let x := sbDir (getBb s d.val p.val) dir.val
    (x.unacked = [] → exec (.sidebandRepeatTimeout d p dir oks) s = .next s) ∧
    (x.unacked ≠ [] → ∃ u, exec (.sidebandRepeatTimeout d p dir oks) s = .next u ∧ x.since + 1000000 ≤ nowPs u ∧
      (let y := sbDir (getBb u d.val p.val) dir.val
       y.repeats = x.repeats + 1 ∧ y.unacked = x.unacked ∧
       (∀ e, x.unacked = [e] → okAt oks 0 = true → e.1 = x.expect → y.expect = (x.expect + 1) % 16)) ∧
      (x.repeats + 1 < 16 → (getBb u d.val p.val).sbok = true) ∧
      (16 ≤ x.repeats + 1 → (getBb u d.val p.val).sbok = false))) ∧
  (∀ (s : State) (d : Fin 32) (p : Fin 8),
    (∃ u, exec (.waveFrame d p false) s = .next u ∧ (getBb u d.val p.val).s0 = { (getBb s d.val p.val).s0 with bad := (getBb s d.val p.val).s0.bad + 1 } ∧
      u.lamp = s.lamp) ∧
    (s.lamp.owed.find? (·.die == d.val) = none → exec (.waveFrame d p true) s = .next s) ∧
    (∀ o, s.lamp.owed.find? (·.die == d.val) = some o → ∃ u, exec (.waveFrame d p true) s = .next u ∧ (getDie u d.val).lastWave = o.wave.wnum ∧
      (∀ z ∈ u.lamp.owed, z ≠ o) ∧ (∀ z ∈ s.lamp.owed, z ≠ o → z ∈ u.lamp.owed) ∧
      (o.wave.wtype = .commit → ∀ x, txnOf s o.wave.wtxn = some x → dieIsPd d.val = true → ∀ g ws, x.chgs = [.guard (d.val - 2) g ws] → g < 16 →
        (getGuard u (d.val - 2) g).ws = ws)))

/-! ### Host ports (chapter 13) -/

/-- SEM_TAKE, SEM_HB, SEM_REL and SEMAPHORE_LEASE_END (R430 to R434): a read of the free semaphore grants it under the next token with a lease of
2,000 ms, the holder's read renews it, another port's read answers busy; a heartbeat or release is the holder's with the current token or is
counted; a lease that has ended frees it with 0x0A03. -/
def Obligations.TheSemaphore : Prop :=
  let inLease (s : State) : Prop := s.sem.holder = none ∨ nowPs s ≤ s.sem.lease
  let next (t : Nat) : Nat := if (t + 1) % 65536 = 0 then 1 else (t + 1) % 65536
  let told (u : State) (p v : Nat) : Prop := mget .none u.ans.host p = .data v
  (∀ (s : State) (p : Fin 2), hostUp s p.val = true → inLease s →
    ∃ u, exec (.semTake p false) s = .next u ∧ { u with sem := s.sem, ans := s.ans } = s ∧
      (s.sem.holder = none → u.sem = { s.sem with holder := some p.val, token := next s.sem.token, lease := nowPs s + 2000000000000 } ∧
        told u p.val (2 ^ 31 + p.val * 65536 + next s.sem.token)) ∧
      (s.sem.holder = some p.val → u.sem = { s.sem with lease := nowPs s + 2000000000000 } ∧ told u p.val (2 ^ 31 + p.val * 65536 + s.sem.token)) ∧
      (∀ h, s.sem.holder = some h → h ≠ p.val → u.sem = s.sem ∧ told u p.val (2 ^ 30 + h * 65536))) ∧
  (∀ (s : State) (p : Fin 2), hostUp s 0 = true → hostUp s 1 = true → s.sem.holder = none → s.sem.tiew < 2 →
    ∃ u, exec (.semTake p true) s = .next u ∧ u.sem.holder = some s.sem.tiew ∧ u.sem.tiew = 1 - s.sem.tiew ∧ u.sem.token = next s.sem.token ∧
      told u s.sem.tiew (2 ^ 31 + s.sem.tiew * 65536 + next s.sem.token) ∧ told u (1 - s.sem.tiew) (2 ^ 30 + s.sem.tiew * 65536)) ∧
  (∀ (s : State) (p : Fin 2), hostUp s p.val = false → inLease s →
    ∃ u, exec (.semTake p false) s = .next u ∧ u.sem = s.sem ∧
      ((getHost s p.val).linkUp = true → (getHost s p.val).perst = false → mget .none u.ans.host p.val = .unsupported)) ∧
  (∀ (s : State) (p : Fin 2) (v : W32), hostUp s p.val = true → inLease s →
    let mine := s.sem.holder = some p.val ∧ bits v.toNat 0 16 = s.sem.token
    ∃ u, exec (.semHb p v) s = .next u ∧ { u with sem := s.sem } = s ∧ (¬mine → u.sem = { s.sem with hbign := satAdd 16 s.sem.hbign 1 }) ∧
      (mine → u.sem = { s.sem with lease := nowPs s + 2000000000000, tie := if nowPs s = s.sem.lease then satAdd 8 s.sem.tie 1 else s.sem.tie })) ∧
  (∀ (s : State) (p : Fin 2) (v : W32), hostUp s p.val = true → inLease s →
    let mine := s.sem.holder = some p.val ∧ bits v.toNat 0 16 = s.sem.token
    ∃ u, exec (.semRel p v) s = .next u ∧ (¬mine → u.sem = { s.sem with hbign := satAdd 16 s.sem.hbign 1 } ∧ { u with sem := s.sem } = s) ∧
      (mine → u.sem = { s.sem with holder := none } ∧ { u with sem := s.sem, hosts := s.hosts } = s ∧
        (∀ q, q < 2 → bit (getHost s q).cause 8 = false → bit (getHost u q).cause 8 = true))) ∧
  (∀ (s : State), (s.sem.holder = none → exec .semaphoreLeaseEnd s = .next s) ∧
    (∀ h, s.sem.holder = some h → h < 2 →
      ∃ u, exec .semaphoreLeaseEnd s = .next u ∧ s.sem.lease ≤ nowPs u ∧ u.sem = { s.sem with holder := none } ∧
        raised (reachPs s s.sem.lease) u 20001 0x0A03 0 (BitVec.ofNat 64 h) ∧ (∀ q, q < 2 → bit (getHost s q).cause 8 = false → bit (getHost u q).cause 8 = true) ∧
        (bit (getHost s h).cause 9 = false → bit (getHost u h).cause 9 = true))) ∧
  (∀ (s : State) (p : Fin 2) (h : Nat), hostUp s p.val = true → s.sem.holder = some h → s.sem.lease < nowPs s →
    ∃ u, exec (.semTake p false) s = .next u ∧ u.sem.holder = some p.val ∧ u.sem.token = next s.sem.token ∧ raised s u 20001 0x0A03 0 (BitVec.ofNat 64 h))

/-- RING_CFG, RING_DB, CPL_HEAD, COMPLETION_INTERRUPT_DELAY, INT_CAUSE, INT_MASK and MSIX_MASK_CHANGE (R436 to R443): a ring is enabled from
offset 0 and keeps its size while in use; a doorbell moves `TAIL` or halts the ring with 0x0A01; an armed ring with unread records sends its
message once, after `CDLY`; a cause bit is cleared by writing 1; a message withheld by a mask is sent when the masks are clear. -/
def Obligations.RingsAndInterrupts : Prop :=
  let sentOn (s u : State) (p v : Nat) : Prop := if vecHeld (getHost s p) v then mget false (getHost u p).pba v = true ∧ (getHost u p).sent = (getHost s p).sent
    else mget 0 (getHost u p).sent v = mget 0 (getHost s p).sent v + 1
  (∀ (s : State) (p : Fin 2) (e : Fin 79) (v : W32), hostUp s p.val = true →
    let r := getRing s p.val e.val
    let size := if r.en = false ∧ r.out = 0 then bits v.toNat 0 16 else r.rsize
    ∃ u, exec (.ringCfg p e v) s = .next u ∧ { u with hosts := s.hosts } = s ∧
      (bit v.toNat 31 = false → getRing u p.val e.val = { r with en := false, err := false, rsize := size }) ∧
      (bit v.toNat 31 = true → (r.en = true ∨ size = 0 ∨ r.csize = 0) → getRing u p.val e.val = r) ∧
      (bit v.toNat 31 = true → r.en = false → size ≠ 0 → r.csize ≠ 0 → getRing u p.val e.val =
        { r with en := true, err := false, rsize := size, head := 0, taila := 0, chead := 0, ctail := 0, arm := false, pass := true, due := none })) ∧
  (∀ (s : State) (p : Fin 2) (e : Fin 79) (t : W32), hostUp s p.val = true →
    let r := getRing s p.val e.val
    let bad := t.toNat % 64 ≠ 0 ∨ t.toNat ≥ r.rsize * 4096
    ∃ u, exec (.ringDb p e t) s = .next u ∧ (r.en = false → u = s) ∧
      (r.en = true → bad → getRing u p.val e.val = { r with err := true } ∧ raised s u 20001 0x0A01 0 0 ∧
        (bit (getHost s p.val).cause 7 = false → bit (getHost u p.val).cause 7 = true)) ∧
      (r.en = true → ¬bad → getRing u p.val e.val = { r with taila := t.toNat } ∧ { u with hosts := s.hosts } = s)) ∧
  (∀ (s : State) (p : Fin 2) (e : Fin 79) (v : W32), hostUp s p.val = true →
    let r := getRing s p.val e.val
    let h := bits v.toNat 0 20
    let arm := r.arm || bit v.toNat 31
    ∃ u, exec (.cplHead p e v) s = .next u ∧ { u with hosts := s.hosts } = s ∧ (getRing u p.val e.val).chead = h ∧
      ((bit v.toNat 31 = false ∨ h = r.ctail) → getRing u p.val e.val = { r with chead := h, arm := arm } ∧ (getHost u p.val).sent = (getHost s p.val).sent) ∧
      (bit v.toNat 31 = true → h ≠ r.ctail → r.cdly = 0 → (getRing u p.val e.val).arm = false ∧ (16 ≤ r.cvec → sentOn s u p.val r.cvec)) ∧
      (bit v.toNat 31 = true → h ≠ r.ctail → r.cdly ≠ 0 → (getRing u p.val e.val).arm = true ∧ (getHost u p.val).sent = (getHost s p.val).sent ∧
        (r.due = none → (getRing u p.val e.val).due = some (nowPs s + r.cdly * 1000000)))) ∧
  (∀ (s : State) (p : Fin 2) (e : Fin 79), let r := getRing s p.val e.val
    (r.due = none → exec (.completionInterruptDelay p e) s = .next s) ∧
    (∀ t, r.due = some t → ∃ u, exec (.completionInterruptDelay p e) s = .next u ∧ t ≤ nowPs u ∧ getRing u p.val e.val = { r with due := none, arm := false } ∧
      (r.arm = true → 16 ≤ r.cvec → sentOn s u p.val r.cvec) ∧ ((r.arm = false ∨ r.cvec < 16) → (getHost u p.val).sent = (getHost s p.val).sent))) ∧
  (∀ (s : State) (p : Fin 2) (v : W32), hostUp s p.val = true →
    ∃ u, exec (.intCause p v) s = .next u ∧ (∀ b, b < 16 → bit (getHost u p.val).cause b = (bit (getHost s p.val).cause b && !bit v.toNat b)) ∧
      { getHost u p.val with cause := (getHost s p.val).cause } = getHost s p.val ∧ { u with hosts := s.hosts } = s) ∧
  (∀ (s : State) (p : Fin 2) (v : W32), hostUp s p.val = true →
    let h := getHost s p.val
    ∃ u, exec (.intMask p v) s = .next u ∧ (getHost u p.val).mask = v.toNat % 65536 ∧ (getHost u p.val).cause = h.cause ∧ { u with hosts := s.hosts } = s ∧
      ((∀ b, b < 16 → bit h.mask b = true → bit v.toNat b = false → bit h.cause b = false) → (getHost u p.val).sent = h.sent ∧ (getHost u p.val).pba = h.pba) ∧
      (∀ b, b < 16 → bit h.mask b = true → bit v.toNat b = false → bit h.cause b = true → vecHeld h (causeVec b) = false →
        mget 0 h.sent (causeVec b) < mget 0 (getHost u p.val).sent (causeVec b)) ∧
      (∀ b, b < 16 → bit h.mask b = true → bit v.toNat b = false → bit h.cause b = true → vecHeld h (causeVec b) = true →
        mget false (getHost u p.val).pba (causeVec b) = true)) ∧
  (∀ (s : State) (p : Fin 2) (k : Nat), portTold s p.val = true → s.boot.mst ≠ 0 → (getHost s p.val).pba = [(k, true)] → k < 1024 →
    let h := getHost s p.val
    let on (en fm : Option Bool) : Bool := en.getD h.msixEn && !(fm.getD h.msixFm) && !(mget Msix.reset h.msix k).mask
    ∀ en fm, ∃ u, exec (.msixMaskChange p en fm none) s = .next u ∧ (getHost u p.val).msixEn = en.getD h.msixEn ∧ (getHost u p.val).msixFm = fm.getD h.msixFm ∧
      (on en fm = false → (getHost u p.val).pba = h.pba ∧ (getHost u p.val).sent = h.sent) ∧
      (on en fm = true → (6 ≤ k ∨ causeOn h k = true) → mget false (getHost u p.val).pba k = false ∧ mget 0 (getHost u p.val).sent k = mget 0 h.sent k + 1) ∧
      (on en fm = true → k < 6 → causeOn h k = false → mget false (getHost u p.val).pba k = false ∧ (getHost u p.val).sent = h.sent)) ∧
  (∀ (s : State) (p : Fin 2) (k : Fin 1024) (m : Bool), hostUp s p.val = true → s.boot.mst ≠ 0 → (getHost s p.val).pba = [] →
    ∃ u, exec (.msixMaskChange p none none (some (k, m))) s = .next u ∧
      mget Msix.reset (getHost u p.val).msix k.val = { mget Msix.reset (getHost s p.val).msix k.val with mask := m } ∧ (getHost u p.val).sent = (getHost s p.val).sent) ∧
  (∀ (s : State) (p : Fin 2) (e : Fin 79) (v : W32) (r : RegW), hostUp s p.val = false → exec (.ringCfg p e v) s = .next s ∧ exec (.ringDb p e v) s = .next s ∧
    exec (.cplHead p e v) s = .next s ∧ exec (.intCause p v) s = .next s ∧ exec (.intMask p v) s = .next s ∧ exec (.registerWrite p r) s = .next s ∧
    exec (.bar0AccessSize p true) s = .next s ∧ exec (.cdSnfWrite p v) s = .next s ∧ exec (.mbhPost p v) s = .next s ∧ exec (.mbmAck p v) s = .next s)

/-- TIME_NS, BAR0_ACCESS_SIZE, REGISTER_WRITE, RC_REGISTER_READ and CONFIGURATION_REQUEST (R16, R424, R426, R428, R436, R444, R445): module time is
read whole or by halves that belong together; an access of another size changes nothing but raises 0x0A05; a register takes what is written
unless its ring is in use, and a location with no writable field takes nothing; a field of access RC is returned and cleared by the access that
reaches it, other fields are returned and stay as they are, and the doorbell reads zero; configuration requests are answered. -/
def Obligations.RegisterAccess : Prop :=
  let told (u : State) (p : Nat) (a : HAns) : Prop := mget .none u.ans.host p = a
  (∀ (s : State) (p : Fin 2), hostUp s p.val = true →
    let t := nowNs s % 2 ^ 64
    (∃ u, exec (.timeNs p .whole) s = .next u ∧ told u p.val (.data t) ∧ { u with ans := s.ans } = s) ∧
    (∃ u, exec (.timeNs p .low) s = .next u ∧ told u p.val (.data (t % 2 ^ 32)) ∧ (getHost u p.val).latch = some (t / 2 ^ 32)) ∧
    (∃ u, exec (.timeNs p .high) s = .next u ∧ told u p.val (.data ((getHost s p.val).latch.getD (t / 2 ^ 32))) ∧ (getHost u p.val).latch = none)) ∧
  (∀ (s : State) (p : Fin 2) (w : Bool), hostUp s p.val = true → (∀ x ∈ s.inc.windows, x.cls ≠ 0x0A05) →
    ∃ u, exec (.bar0AccessSize p w) s = .next u ∧ raised s u 20001 0x0A05 0 0 ∧ { u with inc := s.inc, ans := s.ans } = s ∧ (w = false → told u p.val .abort)) ∧
  (∀ (s : State) (p : Fin 2) (e : Fin 79) (v : W64) (c : W32), hostUp s p.val = true →
    let r := getRing s p.val e.val
    let free := r.en = false ∧ r.out = 0
    (∃ u, exec (.registerWrite p (.ringBase e .whole v)) s = .next u ∧ getRing u p.val e.val = (if free then { r with rbase := v.toNat / 4096 * 4096 } else r)) ∧
    (∃ u, exec (.registerWrite p (.cplBase e .whole v)) s = .next u ∧ getRing u p.val e.val = (if free then { r with cbase := v.toNat / 4096 * 4096 } else r)) ∧
    (∃ u, exec (.registerWrite p (.ringBase e .high v)) s = .next u ∧
      (free → r.rbase % 4096 = 0 → (getRing u p.val e.val).rbase % 2 ^ 32 = r.rbase % 2 ^ 32 ∧ bits (getRing u p.val e.val).rbase 32 32 = v.toNat % 2 ^ 32)) ∧
    (∃ u, exec (.registerWrite p (.cplCfg e c)) s = .next u ∧
      getRing u p.val e.val = { r with cvec := bits c.toNat 22 10, cdly := bits c.toNat 12 10, csize := if free then bits c.toNat 0 12 else r.csize })) ∧
  (∀ (s : State) (p : Fin 2) (v : W64) (ofs : Fin 4080) (bs : List Byte) (i : Fin 1024) (c : W32), hostUp s p.val = true →
    let x := getMb s p.val
    (∃ u, exec (.registerWrite p (.mbhHdr .whole v)) s = .next u ∧ (x.busy = true → u = s) ∧
      (x.busy = false → ∀ b, b < 64 → bit (getMb u p.val).hdr.toNat b = (bit v.toNat b && !(28 ≤ b && b < 32)))) ∧
    (∃ u, exec (.registerWrite p (.request ofs bs)) s = .next u ∧ (x.busy = true → u = s) ∧
      (x.busy = false → (bs.length = 4 ∨ bs.length = 8) → ofs.val % bs.length = 0 → ofs.val + bs.length ≤ 4080 →
        ∀ a, mget 0 (getMb u p.val).req a = if ofs.val ≤ a ∧ a < ofs.val + bs.length then lget 0 bs (a - ofs.val) else mget 0 x.req a)) ∧
    (∃ u, exec (.registerWrite p (.msixAddr i .whole v)) s = .next u ∧
      mget Msix.reset (getHost u p.val).msix i.val = { mget Msix.reset (getHost s p.val).msix i.val with addr := v }) ∧
    (∃ u, exec (.registerWrite p (.msixData i c)) s = .next u ∧
      mget Msix.reset (getHost u p.val).msix i.val = { mget Msix.reset (getHost s p.val).msix i.val with data := c })) ∧
  (∀ (s : State) (t : TileId) (h : Half), ∃ u, exec (.rcRegisterRead (.llStat t h)) s = .next u ∧ u.ans.reg = BitVec.ofNat 64 (halfOf h (llStatWord s t)) ∧
    getTile u t = (if h = .high then getTile s t else { getTile s t with llMiss := 0, llAlt := 0 }) ∧ { u with tiles := s.tiles, ans := s.ans } = s) ∧
  (∀ (s : State) (t : TileId) (h : Half), ∃ u, exec (.rcRegisterRead (.tcClk t h)) s = .next u ∧ u.ans.reg = BitVec.ofNat 64 (halfOf h (tcClkWord s t)) ∧
    (h = .low → getTile u t = getTile s t) ∧ (h ≠ .low → (getTile u t).dstr = 0 ∧ (getTile u t).fence = (getTile s t).fence) ∧ { u with tiles := s.tiles, ans := s.ans } = s) ∧
  (∀ (s : State) (f : Fin 100) (h : Half), ∃ u, exec (.rcRegisterRead (.fcClk f h)) s = .next u ∧ u.ans.reg = BitVec.ofNat 64 (halfOf h (fcClkWord (getField s f.val))) ∧
    getField u f.val = (if h = .high then getField s f.val else { getField s f.val with opcnt := 0 }) ∧ { u with fields := s.fields, ans := s.ans } = s) ∧
  (∀ (s : State) (d : Fin 32) (a : Fin 8) (h : Half), ∃ u, exec (.rcRegisterRead (.bbStat d a h)) s = .next u ∧
    u.ans.reg = BitVec.ofNat 64 (halfOf h (bbStatWord (getBb s d.val a.val))) ∧
    getBb u d.val a.val = (if h = .low then getBb s d.val a.val else { getBb s d.val a.val with retry := 0 }) ∧ { u with dies := s.dies, ans := s.ans } = s) ∧
  (∀ (s : State) (p : Fin 2) (h : Half), hostUp s p.val = true →
    (∃ u, exec (.rcRegisterRead (.cdSnf p)) s = .next u ∧ told u p.val (.data (snfWord s.snuff % 2 ^ 32)) ∧ u.snuff = { s.snuff with relrej := 0 }) ∧
    (∃ u, exec (.rcRegisterRead (.mbhStat p)) s = .next u ∧ told u p.val (.data (halfOf .high (mbhStatWord (getMb s p.val) * 2 ^ 32))) ∧ getMb u p.val = { getMb s p.val with mrej := 0 }) ∧
    (∃ u, exec (.rcRegisterRead (.mbmStat p)) s = .next u ∧ told u p.val (.data (halfOf .high (mbmStatWord (getMb s p.val) * 2 ^ 32))) ∧
      getMb u p.val = { getMb s p.val with tie := 0, tocnt := 0 }) ∧
    ((s.sem.holder = none ∨ nowPs s ≤ s.sem.lease) → ∃ u, exec (.rcRegisterRead (.semStat p h)) s = .next u ∧ told u p.val (.data (halfOf h (semStatWord s p.val))) ∧
      u.sem = { s.sem with tie := if h = .high then s.sem.tie else 0, hbign := if h = .low then s.sem.hbign else 0 } ∧
      (getHost u p.val).rwsign = if h = .low then (getHost s p.val).rwsign else 0)) ∧
  (∀ (s : State) (p : Fin 2) (k : Fin 8192) (h : Half) (v : W64), exec (.registerWrite p (.fixed k h v)) s = .next s) ∧
  (∀ (s : State) (p : Fin 2) (k : Fin 8192) (h : Half), hostUp s p.val = true →
    k.val ∉ [4, 0x20, 0x23, 0x801, 0xA01, 0x1C00] →
    ∃ u n, exec (.rcRegisterRead (.bar0 p k h)) s = .next u ∧ { u with ans := s.ans } = s ∧ told u p.val (.data (halfOf h n)) ∧
      (k.val = 0x40 → n = (getHost s p.val).cause) ∧ (k.val = 0x41 → n = (getHost s p.val).mask) ∧
      (k.val = 2 → bits n 0 4 = s.boot.mst % 16 ∧ bits n 8 4 = s.boot.lrst % 16 ∧ bit n 12 = holdsSem s p.val ∧ bit n 14 = s.snuff.snf ∧ bit n 15 = (p.val == 1)) ∧
      (∀ e j, e < 79 → j < 8 → k.val = 0x200 + 8 * e + j →
        let r := getRing s p.val e
        (j = 0 → n = r.rbase) ∧ (j = 1 → bit n 31 = r.en ∧ bit n 29 = (r.out != 0) ∧ bits n 0 16 = r.rsize % 65536) ∧ (j = 2 → n = 0) ∧ (j = 4 → n = r.cbase))) ∧
  (∀ (s : State) (p : Fin 2), hostUp s p.val = true →
    exec (.rcRegisterRead (.bar0 p 0x20 .whole)) s = exec (.semTake p false) s ∧ exec (.rcRegisterRead (.bar0 p 0x23 .whole)) s = exec (.rcRegisterRead (.semStat p .whole)) s ∧
    exec (.rcRegisterRead (.bar0 p 4 .low)) s = exec (.rcRegisterRead (.cdSnf p)) s ∧ exec (.rcRegisterRead (.bar0 p 0x801 .high)) s = exec (.rcRegisterRead (.mbhStat p)) s ∧
    exec (.rcRegisterRead (.bar0 p 0xA01 .high)) s = exec (.rcRegisterRead (.mbmStat p)) s ∧
    ∀ h, exec (.rcRegisterRead (.bar0 p 0x1C00 h)) s = exec (.timeNs p h) s) ∧
  (∀ (s : State) (p : Fin 2) (q : CfgReq), let h := getHost s p.val
    let early := s.boot.step = 0 ∨ s.boot.mst = 0 ∨ h.resetAt.isSome = true
    ((h.linkUp = false ∨ h.perst = true) → exec (.configurationRequest p q) s = .next s) ∧
    (h.linkUp = true → h.perst = false → ∃ u, exec (.configurationRequest p q) s = .next u ∧
      (early → told u p.val .retry ∧ { u with ans := s.ans } = s) ∧
      (¬early → (∀ d, q = .read d → { u with ans := s.ans } = s ∧ ∃ n, told u p.val (.data n) ∧ (d.val = 0 → n / 65536 = 0x5702) ∧
          (d.val = 2 → n / 256 = 0x120000 ∧ n % 256 = s.part.rev % 256)) ∧
        (∀ on, q = .memEnable on → (getHost u p.val).memEn = on)))) ∧
  (∀ (s : State) (p : Fin 2), (getHost s p.val).linkUp = true → (getHost s p.val).perst = false → hostUp s p.val = false →
    ∀ i, i ∈ [Instr.timeNs p .whole, .timeNs p .low, .timeNs p .high, .bar0AccessSize p false] → ∃ u, exec i s = .next u ∧ told u p.val .unsupported ∧
      { u with ans := s.ans } = s)

/-- FLR, PERST_N, HOST_PORT_RESET_END and CLOCK_INPUT_VALIDITY_CHANGE (R445, R446, R465, R476, R504, R541, Table 13.5): a reset of a port frees its
semaphore, returns its registers and mailbox to reset, makes its commands write no records and tells the other port with 0x0A04; it ends when
the port is up again; an invalid PCIe reference takes the port down, the other inputs change nothing but their validity. -/
def Obligations.PortResets : Prop :=
  let resets (s u : State) (p : Nat) : Prop :=
    (getHost u p).rings = [] ∧ (getHost u p).cause = 0x40 ∧ (getHost u p).mask = 0xFFFF ∧ (getHost u p).msix = [] ∧ (getHost u p).memEn = false ∧
      getMb u p = MbPort.reset ∧ u.sem.holder ≠ some p ∧
      (∀ h, s.sem.holder = some h → h ≠ p → nowPs s ≤ s.sem.lease → u.sem = s.sem) ∧
      (∀ e, ∀ c ∈ (getEng u e).cmds, c.port = p → c.norec = true) ∧ (∀ c ∈ u.mantle.cmds, c.port = p → c.discard = true) ∧
      (∀ r ∈ u.mantle.outbox, r.port ≠ p) ∧ (bit (getHost s (1 - p)).cause 14 = false → bit (getHost u (1 - p)).cause 14 = true) ∧
      (s.copies = [] → (s.sem.holder = none ∨ nowPs s ≤ s.sem.lease) → raised s u 20001 0x0A04 0 (BitVec.ofNat 64 p))
  (∀ (s : State) (p : Fin 2), portTold s p.val = true → s.boot.step ≠ 0 → s.boot.mst ≠ 0 →
    ∃ u, exec (.flr p) s = .next u ∧ resets s u p.val ∧ (getHost u p.val).resetAt = some (nowPs s) ∧ (getHost u p.val).linkUp = true) ∧
  (∀ (s : State) (p : Fin 2), (portTold s p.val = false ∨ s.boot.step = 0 ∨ s.boot.mst = 0) → exec (.flr p) s = .next s) ∧
  (∀ (s : State) (p : Fin 2) (pin : Bool), let h := getHost s p.val
    ((if pin then h.perst = true else h.linkUp = false) → exec (.perstN p pin) s = .next s) ∧
    ((if pin then h.perst = false else h.linkUp = true) →
      ∃ u, exec (.perstN p pin) s = .next u ∧ resets s u p.val ∧ (getHost u p.val).linkUp = false ∧ (getHost u p.val).perst = (h.perst || pin) ∧
        (getHost u p.val).resetAt = none)) ∧
  (∀ (s : State) (p : Fin 2), let h := getHost s p.val
    ∃ u, exec (.hostPortResetEnd p) s = .next u ∧ ((s.boot.step = 0 ∨ mget true s.tc.pcie p.val = false ∨ portTold s p.val = true) → u = s) ∧
      (s.boot.step ≠ 0 → mget true s.tc.pcie p.val = true → portTold s p.val = false →
        (getHost u p.val).linkUp = true ∧ (getHost u p.val).perst = false ∧ (getHost u p.val).resetAt = none ∧ (getHost u p.val).mem = h.mem ∧
          (s.inc.pendInc2 ≠ some p.val → (getHost u p.val).cause = h.cause) ∧
          (s.inc.pendInc2 = some p.val → u.inc.pendInc2 = none ∧ (bit h.cause 2 = false → bit (getHost u p.val).cause 2 = true)))) ∧
  (∀ (s : State) (p : Fin 2) (ok : Bool), ∃ u, exec (.clockInputValidityChange (.pcie p) ok) s = .next u ∧ mget true u.tc.pcie p.val = ok ∧
    ((ok = true ∨ (getHost s p.val).linkUp = false) → { u with tc := s.tc } = s) ∧
    (ok = false → (getHost s p.val).linkUp = true → resets s u p.val ∧ (getHost u p.val).linkUp = false)) ∧
  (∀ (s : State) (ok : Bool), exec (.clockInputValidityChange .ten ok) s = .next { s with tc := { s.tc with tenOk := ok } } ∧
    exec (.clockInputValidityChange .pps ok) s = .next { s with tc := { s.tc with ppsOk := ok } })

/-! ### Mailboxes (chapter 15) -/

/-- MBH_POST, MAILBOX_REQUEST_CHECK, MAILBOX_REPLY, MBM_ACK, MAILBOX_REPLY_DEADLINE and the commands that only read (R470 to R475, Table 15.3): a
post is taken within 8 held, a request is refused by the first check that fails, a reply reaches its port's area in order and is late once its deadline has
passed, an acknowledgement releases it, a deadline answers TIMEOUT while the command runs on; a read replies with what it reads and changes nothing. -/
def Obligations.MailboxRequestsAndReads : Prop :=
  (∀ (s : State) (p : Fin 2) (w : W32), hostUp s p.val = true →
    let x := getMb s p.val
    let full := x.busy = true ∨ 8 ≤ x.qout + (if x.reply.isSome then 1 else 0) + x.queue.length
    ∃ u, exec (.mbhPost p w) s = .next u ∧ (bit w.toNat 0 = false → u = s) ∧
      (bit w.toNat 0 = true → full → getMb u p.val = { x with mrej := satAdd 16 x.mrej 1 }) ∧
      (bit w.toNat 0 = true → ¬full → getMb u p.val = { x with busy := true, mto := bits w.toNat 16 16, qout := x.qout + 1 })) ∧
  (∀ (s : State) (p : Fin 2), let x := getMb s p.val
    let opc := bits x.hdr.toNat 0 16
    let len := bits x.hdr.toNat 16 12
    let seq := bits x.hdr.toNat 32 32
    ∃ u, exec (.mailboxRequestCheck p) s = .next u ∧ (x.busy = false → u = s) ∧
      (x.busy = true → getMb u p.val = { x with busy := false } ∧
        (let refused (n : Nat) : Prop := u.mantle.outbox = s.mantle.outbox ++ [⟨p.val, seq, false, .fault, n, [], false, none⟩] ∧ u.mantle.cmds = s.mantle.cmds
         (mbLen opc = none → refused 1) ∧
         (∀ lo hi, mbLen opc = some (lo, hi) → ((len < lo ∨ hi < len ∨ len % 8 ≠ 0) → refused 2) ∧
           (lo ≤ len → len ≤ hi → len % 8 = 0 → (mbState opc s.boot.mst = false → refused 4) ∧
             (mbState opc s.boot.mst = true → mbSem opc = true → ¬(s.sem.holder = some p.val ∧ nowPs s ≤ s.sem.lease) → refused 3 ∧
               (getHost u p.val).rwsign = satAdd 16 (getHost s p.val).rwsign 1) ∧
             (mbState opc s.boot.mst = true → (mbSem opc = false ∨ (s.sem.holder = some p.val ∧ nowPs s ≤ s.sem.lease)) → u.mantle.outbox = s.mantle.outbox ∧
               u.mantle.cmds = s.mantle.cmds ++ [⟨s.mantle.nextId, p.val, seq, opc, mbSem opc, (List.range len).map (mget 0 x.req),
                 nowPs s + (if x.mto = 0 then 200 else x.mto) * 10000000000, false, false, .ready⟩])))))) ∧
  (∀ (s : State) (r : MbReply) (rest : List MbReply), s.mantle.outbox = r :: rest →
    let x := getMb s r.port
    let c := s.mantle.cmds.find? fun c => r.cmd == some c.id
    let late := c.any (·.timedOut)
    let tie := c.any fun c => !c.timedOut && (c.due + 6399) / 6400 == s.time.ticks
    (∀ x, c = some x → x.timedOut = false → x.discard = false → s.time.ticks ≤ (x.due + 6399) / 6400) →
    let y : MbPort := { x with qout := x.qout - 1, tie := if tie then satAdd 8 x.tie 1 else x.tie }
    ∃ u, exec .mailboxReply s = .next u ∧ u.mantle.outbox = rest ∧ (∀ z ∈ u.mantle.cmds, r.cmd ≠ some z.id) ∧
      (x.reply.isSome = true → getMb u r.port = { y with queue := x.queue ++ [{ r with late := late }] }) ∧
      (x.reply = none → x.queue = [] → getMb u r.port = { y with reply := some { r with late := late } } ∧
        (bit (getHost s r.port).cause 5 = false → bit (getHost u r.port).cause 5 = true))) ∧
  (∀ (s : State) (r : MbReply) (rest : List MbReply) (c : MbCmd), s.mantle.outbox = r :: rest →
    s.mantle.cmds.find? (fun c => r.cmd == some c.id) = some c → c.port = r.port → c.timedOut = false → c.discard = false → (c.due + 6399) / 6400 < s.time.ticks →
    let x := getMb s r.port
    ∃ u, exec .mailboxReply s = .next u ∧ u.mantle.outbox = rest ∧ (∀ z ∈ u.mantle.cmds, r.cmd ≠ some z.id) ∧ raised s u 20001 0x0A08 0 0 ∧
      (x.reply = none → x.queue = [] → getMb u r.port = { x with
        qout := x.qout - 1, tocnt := satAdd 16 x.tocnt 1
        reply := some ⟨r.port, c.seq, false, .timeout, 9, [], true, none⟩, queue := [{ r with late := true }] })) ∧
  (∀ (s : State) (p : Fin 2) (a : W32) (r : MbReply), hostUp s p.val = true → (getMb s p.val).reply = some r →
    ∃ u, exec (.mbmAck p a) s = .next u ∧ (r.seq ≠ a.toNat → u = s) ∧
      (r.seq = a.toNat → ((getMb s p.val).queue = [] → getMb u p.val = { getMb s p.val with reply := none }) ∧
        (∀ q rest, (getMb s p.val).queue = q :: rest → getMb u p.val = { getMb s p.val with reply := some q, queue := rest }))) ∧
  (∀ (s : State) (p : Fin 2) (pre post : List MbCmd) (c : MbCmd), s.mantle.cmds = pre ++ c :: post → c.port = p.val → c.timedOut = false → c.discard = false →
    c.due < 2 ^ 80 → (∀ y ∈ pre, y.port = p.val → y.timedOut = false → y.discard = false → c.due < y.due) →
    (∀ y ∈ post, y.port = p.val → y.timedOut = false → y.discard = false → c.due ≤ y.due) → (∀ y ∈ pre ++ post, y.id ≠ c.id) →
    ∃ u, exec (.mailboxReplyDeadline p) s = .next u ∧ c.due ≤ nowPs u ∧ u.mantle.cmds = pre ++ { c with timedOut := true } :: post ∧
      u.mantle.outbox = s.mantle.outbox ∧ (getMb u p.val).tocnt = satAdd 16 (getMb s p.val).tocnt 1 ∧ raised (reachPs s c.due) u 20001 0x0A08 0 0 ∧
      ((getMb s p.val).reply = none → (getMb s p.val).queue = [] → (getMb u p.val).reply = some ⟨p.val, c.seq, false, .timeout, 9, [], true, none⟩)) ∧
  (∀ (s : State) (c : MbCmd), mailNext s 0x0001 = some c →
    ∃ u, exec .mbNop s = .next u ∧ replied s u c .done 0 c.data ∧ { u with mantle := s.mantle } = s) ∧
  (∀ (s : State) (c : MbCmd), mailNext s 0x0011 = some c →
    let k := bits (mbWord c 0) 0 32
    ∃ u, exec .mbBirthRead s = .next u ∧ { u with mantle := s.mantle } = s ∧
      replied s u c .done 0 (wordBytes ((s.boot.birth.length * 2 ^ 32 + k) :: ((s.boot.birth.drop k).take 509).map (·.toNat)))) ∧
  (∀ (s : State) (c : MbCmd) (i : Instr) (opc : Nat) (ws : List Nat), (i, opc, ws) ∈ [
      (Instr.mbVersion, 0x0002, [ofBit s.fw.trial * 2 ^ 50 + ofBit s.fw.srst * 2 ^ 49 + s.fw.rbank * 2 ^ 48 + (runBank s).sfmt * 2 ^ 32 + (runBank s).setver,
        cver s 0 * 2 ^ 32 + Config.romVersion.toNat, cver s 2 * 2 ^ 32 + cver s 1, cver s 4 * 2 ^ 32 + cver s 3, cver s 5]),
      (.mbState, 0x0003, [s.boot.haltc * 256 + s.boot.mst, s.boot.since, s.boot.haltd]),
      (.mbInventory, 0x0010, (List.range 32).flatMap (dieWords s)),
      (.mbMemmapRead, 0x0020, ((List.range 32).flatMap fun k => [(mget (0, 0) s.seg k).1.toNat, (mget (0, 0) s.seg k).2.toNat]) ++ [s.dieFence.toNat]),
      (.mbSnapRead, 0x0039, [s.mantle.snap.snapp, s.mantle.snap.srmask.toNat, s.mantle.snap.automask.toNat]),
      (.mbPowerRead, 0x0041, [s.power.opmask * 2 ^ 24 + s.power.pord * 2 ^ 16 + s.power.pcap,
        min (power1ms s * Config.efficiency / 1000) 65535 * 65536 + min (power1ms s) 65535] ++ (List.range 4).map (opWord s)),
      (.mbClkStatus, 0x0050, [inputsOk s, nowNs s, pllWord s 0, pllWord s 32, pllWord s 64, pllWord s 96]),
      (.mbSetRead, 0x0060, (record s).map (·.toNat)),
      (.mbUpdStatus, 0x0073, let ver (x : Bank) : Nat := if x.st = 0 then 0 else x.setver
        let uph := if s.fw.stageCmd.isSome then 1 else if s.fw.resetDue.isSome then 2 else if s.fw.trial then 3 else 0
        [(if s.fw.trial then (s.fw.trialDue - nowPs s) / 1000000000 else 0) * 2 ^ 32 + s.fw.fbc % 256 * 2 ^ 16 + uph * 2 ^ 12 + s.fw.rbank * 256 +
          (getBank s 1).st * 16 + (getBank s 0).st, ver (getBank s 1) * 2 ^ 32 + ver (getBank s 0), s.fw.sdone, s.fw.utime])] → mailNext s opc = some c →
    ∃ u, exec i s = .next u ∧ replied s u c .done 0 (wordBytes ws) ∧ { u with mantle := s.mantle } = s)

/-- The mailbox commands that set (R363, R480 to R489, R551, R615): each refuses operands out of range with its status and changes nothing, and
otherwise has its effect, replies once, and with `PERSIST` writes the settings record; what a wave must apply waits for it. -/
def Obligations.MailboxSettings : Prop :=
  let refused (s u : State) (c : MbCmd) (n : Nat) : Prop := replied s u c (if n = 6 then .refusedFull else if n = 0xA then .refusedFenced else .fault) n [] ∧
    { u with mantle := s.mantle } = s
  let done (s u : State) (c : MbCmd) (ws : List Nat) : Prop := replied s u c .done 0 (wordBytes ws)
  (∀ (s : State) (c : MbCmd), mailNext s 0x0021 = some c →
    let n := bits (mbWord c 0) 8 6
    let k := bits (mbWord c 0) 0 5
    let old := (List.range 32).map (mget (0, 0) s.seg)
    let ent (i : Nat) : W64 × W64 := (BitVec.ofNat 64 (mbWord c (1 + 2 * i)), BitVec.ofNat 64 (mbWord c (2 + 2 * i)))
    let new := (List.range 32).map fun i => if k ≤ i ∧ i < k + n then keepDeg (lget (0, 0) old i) (ent (i - k)) else lget (0, 0) old i
    ∃ u, exec .mbMemmapSet s = .next u ∧ ((n = 0 ∨ 32 < k + n) → refused s u c 5) ∧
      (0 < n → k + n ≤ 32 → (c.data.length ≠ 8 + 16 * n → refused s u c 2) ∧
        (c.data.length = 8 + 16 * n → ((∃ i, i < n ∧ segClean (ent i) = false) ∨ tableOk s new = false) → refused s u c 5) ∧
        (c.data.length = 8 + 16 * n → (∀ i, i < n → segClean (ent i) = true) → tableOk s new = true → ∃ tag, mailIn u c (.wave tag) ∧ u.seg = s.seg ∧
          committing s u tag ((List.range n).map (fun i => .seg (k + i) (lget (0, 0) new (k + i))) ++ lostChgs old new)))) ∧
  (∀ (s : State) (c : MbCmd), mailNext s 0x0028 = some c →
    let sp := bits (mbWord c 0) 62 2
    let a := bits (mbWord c 0) 0 48
    let pg := bits (mbWord c 1) 0 32
    let bad := sp = 3 ∨ a % 4096 ≠ 0 ∨ pg = 0 ∨ 65536 < pg ∨ (sp = 0 ∧ s.part.gib * 2 ^ 30 < a + pg * 4096)
    ∃ u, exec .mbIncringSet s = .next u ∧ (bad → refused s u c 5) ∧
      (¬bad → done s u c [] ∧ u.inc.ring.placed = true ∧ u.inc.ring.at_ = ⟨sp, a⟩ ∧ u.inc.ring.size = pg * 4096 ∧
        (s.inc.store = [] → (sp = 0 ∨ portTold s (sp - 1) = true) → u.inc.ring.idx = 0 ∧ u.inc.ring.pass = true ∧ u.inc.ring.bad = false) ∧
        ((sp = 1 ∨ sp = 2) → portTold s (sp - 1) = false → u.inc.ring.bad = true))) ∧
  (∀ (s : State) (c : MbCmd) (on : Bool), mailNext s (if on then 0x0030 else 0x0031) = some c → bit (mbWord c 0) 63 = false →
    let t := bits (mbWord c 0) 0 14
    ∃ u, exec (if on then .mbFence else .mbUnfence) s = .next u ∧ ((nTiles ≤ t ∨ fenced s t = on) → refused s u c 5) ∧
      (t < nTiles → fenced s t = !on → (on = false → tileMdok s t = false → refused s u c 0xA) ∧
        ((on = true ∨ tileMdok s t = true) → fenced u t = on ∧ done s u c [0] ∧ (∀ k, k ≠ t → fenced u k = fenced s k) ∧
          (on = true → ∀ r, regionOf s t = some r → (getRegion s r).st ≠ .empty → (getRegion u r).st = .stopped)))) ∧
  (∀ (s : State) (c : MbCmd) (on : Bool), mailNext s (if on then 0x0030 else 0x0031) = some c → bit (mbWord c 0) 63 = true →
    let d := bits (mbWord c 0) 16 8
    ∃ u, exec (if on then .mbFence else .mbUnfence) s = .next u ∧ ((d < 2 ∨ 31 < d) → refused s u c 5) ∧
      (2 ≤ d → d ≤ 31 → unfenceCmd s d = none → dieFenced s d = on → refused s u c 5) ∧
      (2 ≤ d → d ≤ 31 → (unfenceCmd s d).isSome = true → (on = false ∨ dieFenced s d = false) → refused s u c 6) ∧
      (2 ≤ d → d ≤ 31 → unfenceCmd s d = none → dieFenced s d = !on →
        ((on = true ∨ ((getDie s d).down = false ∧ (getDie s d).test = false)) → ∃ tag, mailIn u c (.wave tag) ∧
          committing s u tag [.dieFence (BitVec.ofNat 32 (setBits s.dieFence.toNat d 1 (ofBit on)))] ∧ (getDie u d).hostFence = on) ∧
        (on = false → ((getDie s d).down = true ∨ (getDie s d).test = true) → mailIn u c .work ∧ (getDie u d).down = true ∧ (getDie u d).train = 0 ∧
          (getDie u d).downAt = nowPs s ∧ u.dieFence = s.dieFence))) ∧
  (∀ (s : State) (c : MbCmd), mailNext s 0x0038 = some c →
    let v := bits (mbWord c 0) 0 14
    let good := v = 0 ∨ (10 ≤ v ∧ v ≤ 10000)
    ∃ u, exec .mbSnapSet s = .next u ∧ (¬good → refused s u c 5) ∧
      (good → done s u c [] ∧ { u with mantle := s.mantle } = s ∧ u.mantle.snap = { s.mantle.snap with
        snapp := v, next := nowPs s + v * 1000000000, srmask := BitVec.ofNat 64 (mbWord c 1), automask := BitVec.ofNat 64 (mbWord c 2) })) ∧
  (∀ (s : State) (c : MbCmd) (fl : Bool), (∀ x ∈ s.mantle.cmds, x.opc = 0x0040 → x.ph = .ready ∨ x.ph = .done) → mailNext s 0x0040 = some c →
    let pc := bits (mbWord c 0) 0 16
    let po := bits (mbWord c 0) 16 6
    let good := 8000 ≤ pc ∧ pc ≤ 33000 ∧ ∀ k, k < 3 → bits po 0 2 = k ∨ bits po 2 2 = k ∨ bits po 4 2 = k
    ∃ u, exec (.mbPcapSet fl) s = .next u ∧ (¬good → refused s u c 5) ∧
      (good → u.power = { s.power with pcap := pc, pord := po } ∧ mailIn u c (.until_ (nowPs s + 10000000000)) ∧
        (bit (mbWord c 0) 31 = false → u.fw = s.fw) ∧
        (bit (mbWord c 0) 31 = true → fl = true → settingsOf (runBank u) = some (setField1 (setField1 (record s) 1 0 16 pc) 1 16 6 po)))) ∧
  (∀ (s : State) (c : MbCmd) (fl : Bool) (t : Nat), (s.mantle.cmds.find? fun x => x.opc == 0x0040 && (match x.ph with | .until_ _ => true | _ => false)) = some c →
    c.ph = .until_ t →
    ∃ u, exec (.mbPcapSet fl) s = .next u ∧ t ≤ nowPs u ∧ (bit (mbWord c 0) 31 = true → fl = false → replied s u c .fault 0xB []) ∧
      ((bit (mbWord c 0) 31 = false ∨ fl = true) → done s u c [power1ms s % 65536])) ∧
  (∀ (s : State) (c : MbCmd) (fl : Bool), mailNext s 0x0042 = some c →
    let m := bits (mbWord c 0) 0 4
    let keep := bit (mbWord c 0) 31
    ∃ u, exec (.mbOpmaskSet fl) s = .next u ∧ (m = 0 → refused s u c 5) ∧
      (m ≠ 0 → u.power = { s.power with opmask := m } ∧ (keep = true → fl = false → replied s u c .fault 0xB [] ∧ u.fw = s.fw) ∧
        ((keep = false ∨ fl = true) → done s u c []) ∧ (keep = true → fl = true → settingsOf (runBank u) = some (setField1 (record s) 1 24 4 m)))) ∧
  (∀ (s : State) (c : MbCmd) (fl : Bool), mailNext s 0x0052 = some c →
    let keep := bit (mbWord c 0) 31
    ∃ u, exec (.mbTsrcSet fl) s = .next u ∧ u.tc = { s.tc with pref := bits (mbWord c 0) 0 2, dom := bits (mbWord c 0) 8 8 } ∧
      (keep = true → fl = false → replied s u c .fault 0xB [] ∧ u.fw = s.fw) ∧ ((keep = false ∨ fl = true) → done s u c [])) ∧
  (∀ (s : State) (c : MbCmd) (fl dflt : Bool), mailNext s (if dflt then 0x0062 else 0x0061) = some c →
    let r : List W64 := if dflt then settingsDefault (runBank s).sfmt else (List.range 8).map fun i => BitVec.ofNat 64 (mbWord c i)
    let bad := dflt = false ∧ recordOk s r = false
    ∃ u, exec (if dflt then .mbSetDefault fl else .mbSetWrite fl) s = .next u ∧ (bad → refused s u c 5) ∧ (¬bad → fl = false → refused s u c 0xB) ∧
      (¬bad → fl = true → done s u c [] ∧ settingsOf (runBank u) = some r ∧ u.power.pcap = bits (wordOf r 1) 0 16 ∧ u.power.pord = bits (wordOf r 1) 16 6 ∧
        u.power.opmask = bits (wordOf r 1) 24 4 ∧ u.mantle.snap.snapp = bits (wordOf r 2) 0 14 ∧ u.tc.pref = bits (wordOf r 3) 0 2 ∧ u.tc.dom = bits (wordOf r 3) 8 8)) ∧
  (∀ (s : State) (c : MbCmd), mailNext s 0x0058 = some c →
    ∃ u, exec .mbSnuffEng s = .next u ∧ done s u c [] ∧ u.snuff.snf = true ∧ u.snuff.cause = 3 ∧ ∀ d, d < 6 → mget [] u.snuff.frames d = mget [] s.snuff.frames d ++ [true]) ∧
  (∀ (s : State) (c : MbCmd), mailNext s 0x0059 = some c →
    ∃ u, exec .mbSnuffRel s = .next u ∧ (s.snuff.pin = true → replied s u c .fault 8 [] ∧ u.snuff = { s.snuff with relrej := satAdd 8 s.snuff.relrej 1 }) ∧
      (s.snuff.pin = false → done s u c [] ∧ u.snuff.snf = false))

/-- MB_UPD_STAGE, UPDATE_STAGING_COMPLETE, MB_UPD_ACTIVATE, ACTIVATION_RESET, MB_UPD_CONFIRM and HEALTH_DEADLINE (R491 to R495, Table 15.7): the bank
that is not running is erased and filled with a package that passes every check; it becomes `TRIAL` and the module resets 100 ms later;
a trial set that has not confirmed its health in time falls back. -/
def Obligations.FirmwareUpdate : Prop :=
  let bank (s : State) (b : Nat) : Bank := getBank s b
  let failed (s u : State) (c : MbCmd) (n : Nat) : Prop := replied s u c (if n = 6 then .refusedFull else .fault) n []
  (∀ (s : State) (c : MbCmd), mailNext s 0x0070 = some c → s.fw.rbank < 2 →
    let bad := mbWord c 0 % 64 ≠ 0 ∨ bits (mbWord c 1) 62 2 = 3 ∨ 2 ^ 26 < bits (mbWord c 1) 0 32
    let busy := s.fw.trial = true ∨ s.fw.stageCmd.isSome = true ∨ s.fw.resetDue.isSome = true
    ∃ u, exec .mbUpdStage s = .next u ∧ (bad → failed s u c 5 ∧ u.fw = s.fw) ∧ (¬bad → busy → failed s u c 6 ∧ u.fw = s.fw) ∧
      (¬bad → ¬busy → mailIn u c .work ∧ u.fw.stageCmd = some c.id ∧ bank u (1 - s.fw.rbank) = Bank.empty ∧ bank u s.fw.rbank = bank s s.fw.rbank)) ∧
  (∀ (s : State) (c : MbCmd) (fl : Bool), s.mantle.cmds.find? (fun c => s.fw.stageCmd == some c.id) = some c → s.fw.rbank < 2 →
    let len := bits (mbWord c 1) 0 32
    let s0 : State := { s with fw := { s.fw with stageCmd := none, sdone := len } }
    ∃ u, exec (.updateStagingComplete fl) s = .next u ∧ u.fw.stageCmd = none ∧ u.fw.sdone = len ∧ bank u s.fw.rbank = bank s s.fw.rbank ∧
      ((fl = false ∨ stagedBytes s0 c = none) → failed s u c 0xB ∧ bank u (1 - s.fw.rbank) = bank s (1 - s.fw.rbank)) ∧
      (fl = true → ∀ bs, stagedBytes s0 c = some bs →
        (∀ n, pkCheck s bs len = some n → failed s u c n ∧ raisedFirst s u 20001 0x0B42 0 0 ∧ bank u (1 - s.fw.rbank) = bank s (1 - s.fw.rbank)) ∧
        (pkCheck s bs len = none → bank u (1 - s.fw.rbank) = pkBank bs (nowNs s) ∧
          replied s u c .done 0 (wordBytes [(pkBank bs 0).sfmt * 2 ^ 32 + (pkBank bs 0).setver])))) ∧
  (∀ (s : State) (bs : List Byte) (len : Nat), pkCheck s bs len = none → 544 ≤ len ∧ bits (pkWord bs 1) 32 32 = len ∧ pkSigned s bs = true ∧
    s.island.minsvn ≤ (pkBank bs 0).svn ∧ (pkBank bs 0).minrev ≤ s.part.rev ∧
    ∀ i, i < 6 → pkOfs bs i + pkLen bs i ≤ len ∧ Config.sha384 ((bs.drop (pkOfs bs i)).take (pkLen bs i)) = (bs.drop (80 + 64 * i)).take 48) ∧
  (∀ (s : State) (c : MbCmd), mailNext s 0x0071 = some c → s.fw.rbank < 2 →
    let r := s.fw.rbank
    let o := 1 - r
    let bad := (bank s o).st ≠ 1 ∨ (bank s o).setver ≠ bits (mbWord c 0) 0 32 ∨ (bank s r).st ≠ 3
    ∃ u, exec .mbUpdActivate s = .next u ∧ (s.fw.stageCmd.isSome = true → failed s u c 6 ∧ u.fw = s.fw) ∧
      (s.fw.stageCmd = none → bad → failed s u c 5 ∧ u.fw = s.fw) ∧
      (s.fw.stageCmd = none → ¬bad → replied s u c .done 0 [] ∧ (bank u o).st = 2 ∧ (bank u r).st = 4 ∧ settingsOf (bank u o) = settingsOf (bank s r) ∧
        u.fw.sel = o ∧ u.fw.resetDue = some (nowPs s + 100000000000))) ∧
  (∀ (s : State), (s.fw.resetDue = none → exec .activationReset s = .next s) ∧
    (∀ t, s.fw.resetDue = some t → ∃ u, exec .activationReset s = .next u ∧ t ≤ nowPs u ∧
      (inResetNow s = false → (∀ a, s.boot.resetAt = some a → islandCycle a ≠ islandCycle (nowPs u)) → u.boot.lrst = 5 ∧ u.boot.step = 2 ∧
        u.boot.mst = 0 ∧ u.fw.resetDue = none))) ∧
  (∀ (s : State) (c : MbCmd), mailNext s 0x0072 = some c →
    let bad := s.fw.trial = false ∨ (runBank s).setver ≠ bits (mbWord c 0) 0 32
    ∃ u, exec .mbUpdConfirm s = .next u ∧ (bad → failed s u c 5 ∧ u.fw = s.fw) ∧
      (¬bad → nowPs s ≤ s.fw.trialDue → u.fw.hostOk = true) ∧ (¬bad → s.fw.trialDue < nowPs s → u.fw = s.fw ∧ mailIn u c .work) ∧
      (¬bad → nowPs s ≤ s.fw.trialDue → s.boot.mst = 5 → versionsOk s = true → s.fw.rbank < 2 → u.fw.trial = false ∧ (bank u s.fw.rbank).st = 3 ∧
        (∀ pre post, s.mantle.cmds = pre ++ c :: post → (∀ x ∈ pre ++ post, x.id ≠ c.id ∧ (x.opc = 0x0072 → x.ph ≠ .work)) → replied s u c .done 0 []))) ∧
  (∀ (s : State), (s.fw.trial = false → exec .healthDeadline s = .next s) ∧
    (s.fw.trial = true → s.fw.sel < 2 → ∃ u, exec .healthDeadline s = .next u ∧ s.fw.trialDue ≤ nowPs u ∧ (bank u s.fw.sel).st = 5 ∧ (bank u (1 - s.fw.sel)).st = 3 ∧
      u.fw.sel = 1 - s.fw.sel ∧ u.fw.fbc = 1 ∧ u.fw.trial = false ∧ (inResetNow s = false →
        (∀ a, s.boot.resetAt = some a → islandCycle a ≠ islandCycle (nowPs u)) → u.boot.lrst = 5 ∧ u.boot.step = 2)))

/-! ### The Security Island (chapter 21) -/

/-- The security commands of the mailbox, ENTROPY_TEST_FAILURE, TAMPER and TAMPER_CLEARED (R617 to R627, Table 21.4): in the error state every
command but the two that read status completes FAULT; keys are imported once per slot and cleared everywhere; debug opens only to a signature over a
fresh challenge and clears every key; a root key is revoked only by another; a tamper event leaves no key and switches the module off. -/
def Obligations.SecurityCommands : Prop :=
  let noSlot (u : State) : Prop := ∀ i, i < 16 → u.island.slots.lookup i = none
  let broken (s u : State) (test : Nat) : Prop := u.island.err = true ∧ noSlot u ∧ u.island.chal = none ∧ lastAudit u 16 3 test ∧
    raisedFirst s u 20001 0x0B02 0 (BitVec.ofNat 64 ((slotMask s.island &&& 0xFFFF) + 3 * 65536)) ∧
    ((mget [] s.inc.sources 20001).length < 6 → ∃ i ∈ mget [] u.inc.sources 20001, i.cls = 0x0B06 ∧ i.itime = nowNs s)
  let quiet (s u : State) (c : MbCmd) (n : Nat) : Prop := replied s u c .fault n [] ∧ { u with mantle := s.mantle } = s
  (∀ (s : State) (c : MbCmd) (i : Instr) (opc : Nat), s.island.err = true → (i, opc) ∈ [(Instr.secPubkeys, 0x0101), (.secAttest, 0x0102),
      (.secKeyClear, 0x0111), (.secKeyList, 0x0112), (.secRandom, 0x0120), (.secSelftest, 0x0121), (.secDbgChal, 0x0130), (.secDbgUnlock, 0x0131),
      (.secDbgLock, 0x0132), (.secRootRevoke, 0x0150)] → mailNext s opc = some c →
    ∃ u, exec i s = .next u ∧ quiet s u c 0xB) ∧
  (∀ (s : State) (c : MbCmd), mailNext s 0x0100 = some c → let x := s.island
    ∃ u, exec .secStatus s = .next u ∧ { u with mantle := s.mantle } = s ∧
      replied s u c .done 0 (wordBytes [ofBit x.err * 2 ^ 56 + dState x * 2 ^ 48 + slotMask x * 2 ^ 32 + x.minsvn % 2 ^ 32,
        x.tcount % 2 ^ 32 * 2 ^ 32 + rootsLeft x * 2 ^ 28 + min 255 (256 - x.raises) * 2 ^ 20 + (x.aseq - 1) % 2 ^ 20])) ∧
  (∀ (s : State) (c : MbCmd), mailNext s 0x0140 = some c →
    let k := bits (mbWord c 0) 0 32
    let l := (s.island.audit.filter fun r => decide (k ≤ r.seq)).take 127
    ∃ u, exec .secAuditRead s = .next u ∧ { u with mantle := s.mantle } = s ∧
      replied s u c .done 0 (leBytes 8 ((l.head?.elim k (·.seq)) % 2 ^ 32 * 2 ^ 32 + l.length) ++ l.flatMap auditBytes)) ∧
  (∀ (s : State) (c : MbCmd) (i : Instr) (opc : Nat) (bs : List Byte), s.island.err = false → (i, opc, bs) ∈ [
      (Instr.secPubkeys, 0x0101, (List.range 192).map Config.pubKeyByte),
      (.secAttest, 0x0102, attestReport s c.data ++ (List.range 96).map (Config.dikSig (Config.sha384 (attestReport s c.data)))),
      (.secKeyList, 0x0112, wordBytes ((List.range 16).flatMap fun i => (s.island.slots.lookup i).elim [0, 0] fun k => [k.label.toNat, k.fp.toNat]))] →
    mailNext s opc = some c → ∃ u, exec i s = .next u ∧ { u with mantle := s.mantle } = s ∧ replied s u c .done 0 bs) ∧
  (∀ (s : State) (c : MbCmd), mailNext s 0x0110 = some c →
    let slot := bits (mbWord c 0) 0 4
    let x := s.island
    let key := Config.keyUnwrap s.part.serial.toNat slot ((c.data.drop 8).take 96) ((c.data.drop 104).take 40)
    ∃ u, exec .secKeyImport s = .next u ∧
      (let refused (n : Nat) : Prop := replied s u c .fault n [] ∧ raisedFirst s u 20001 0x0B01 0 (BitVec.ofNat 64 slot) ∧
         audited s u 8 c.port (slot * 2 ^ 60 + n) ∧ u.island.slots = x.slots
       (x.err = true → refused 0xB) ∧ (x.err = false → ((x.slots.lookup slot).isSome = true ∨ x.unlocked = true) → refused 5) ∧
       (x.err = false → x.slots.lookup slot = none → x.unlocked = false → key = none → refused 7)) ∧
      (x.err = false → x.slots.lookup slot = none → x.unlocked = false → ∀ k, key = some k →
        let fp := BitVec.ofNat 64 (leNat ((Config.sha384 ([0x53, 0x51, 0x57, 0x32, 0x2D, 0x4B, 0x46, 0x50] ++ k)).take 8))
        u.island.slots.lookup slot = some ⟨BitVec.ofNat 64 (mbWord c 18), fp, leNat k⟩ ∧ (∀ i, i ≠ slot → u.island.slots.lookup i = x.slots.lookup i) ∧
          audited s u 7 c.port (slot * 2 ^ 60 + fp.toNat % 2 ^ 56) ∧ (keyDies s = [] → replied s u c .done 0 (wordBytes [fp.toNat])) ∧
          (keyDies s ≠ [] → mailIn u c .work ∧ u.mantle.outbox = s.mantle.outbox ∧ u.island.acks = some (c.id, slot, keyDies s)))) ∧
  (∀ (s : State) (c : MbCmd), mailNext s 0x0111 = some c → s.island.err = false →
    let mask := bits (mbWord c 0) 0 16
    let d := (slotMask s.island &&& mask) + 65536
    ∃ u, exec .secKeyClear s = .next u ∧ replied s u c .done 0 [] ∧ raisedFirst s u 20001 0x0B02 0 (BitVec.ofNat 64 d) ∧ audited s u 9 c.port d ∧
      (∀ i, u.island.slots.lookup i = if bit mask i then none else s.island.slots.lookup i) ∧
      (mwf Msd.reset s.msds = true → ∀ m, (getMsd u m).keys = (getMsd s m).keys.filter fun e => !bit mask e.1)) ∧
  (∀ (s : State) (c : MbCmd), mailNext s 0x0120 = some c → s.island.err = false →
    let n := bits (mbWord c 0) 0 12
    let bad := n < 8 ∨ 4080 < n ∨ n % 8 ≠ 0
    ∃ u, exec .secRandom s = .next u ∧ (bad → quiet s u c 5) ∧
      (¬bad → replied s u c .done 0 ((List.range n).map (Config.drbgByte s.island.drbg)) ∧ u.island = { s.island with drbg := s.island.drbg + 1 })) ∧
  (∀ (s : State) (c : MbCmd), mailNext s 0x0121 = some c → s.island.err = false →
    let k := Config.selfTest s.island.drbg
    ∃ u, exec .secSelftest s = .next u ∧ (k = 0 → replied s u c .done 0 [] ∧ u.island = { s.island with drbg := s.island.drbg + 1 }) ∧
      (k ≠ 0 → replied s u c .fault 0xB [] ∧ broken s u k)) ∧
  (∀ (s : State) (a : Bool), ∃ u, exec (.entropyTestFailure a) s = .next u ∧ ((s.boot.step = 0 ∨ s.island.err = true) → u = s) ∧
    (s.boot.step ≠ 0 → s.island.err = false → broken s u (if a then 9 else 8))) ∧
  (∀ (s : State) (c : MbCmd), mailNext s 0x0130 = some c → s.island.err = false →
    let b := (List.range 48).map (Config.drbgByte s.island.drbg)
    ∃ u, exec .secDbgChal s = .next u ∧ replied s u c .done 0 b ∧ u.island.chal = some (b, nowPs s + 60000000000000) ∧
      u.island.drbg = s.island.drbg + 1 ∧ audited s u 10 c.port 0) ∧
  (∀ (s : State) (c : MbCmd) (i : Nat), debugMatch s c = some i → i < 2 ∧ Config.sha384 (c.data.take 96) = Config.debugDigest i ∧
    ∃ b due, s.island.chal = some (b, due) ∧ nowPs s ≤ due ∧
      Config.debugSig (c.data.take 96) (Config.sha384 (b ++ leBytes 8 s.part.serial.toNat)) ((c.data.drop 96).take 96) = true) ∧
  (∀ (s : State) (c : MbCmd), mailNext s 0x0131 = some c → s.island.err = false →
    ∃ u, exec .secDbgUnlock s = .next u ∧ (3 ≤ s.island.fails → quiet s u c 5) ∧
      (s.island.fails < 3 → u.island.chal = none ∧
        (∀ i, debugMatch s c = some i → replied s u c .done 0 [] ∧ u.island.unlocked = true ∧ noSlot u ∧ u.island.fails = s.island.fails ∧ lastAudit u 11 c.port i ∧
          raisedFirst s u 20001 0x0B02 0 (BitVec.ofNat 64 ((slotMask s.island &&& 0xFFFF) + 2 * 65536))) ∧
        (debugMatch s c = none → replied s u c .fault 7 [] ∧ u.island.unlocked = s.island.unlocked ∧ u.island.slots = s.island.slots ∧
          u.island.fails = s.island.fails + 1 ∧ audited s u 12 c.port (s.island.fails + 1) ∧
          raisedFirst s u 20001 0x0B05 0 (BitVec.ofNat 64 (s.island.fails + 1))))) ∧
  (∀ (s : State) (c : MbCmd), mailNext s 0x0132 = some c → s.island.err = false →
    ∃ u, exec .secDbgLock s = .next u ∧ replied s u c .done 0 [] ∧ u.island.unlocked = false ∧ audited s u 13 c.port 0) ∧
  (∀ (s : State) (c : MbCmd), mailNext s 0x0150 = some c → s.island.err = false →
    let i := bits (mbWord c 0) 0 2
    let left (k : Nat) : Prop := k < 4 ∧ k ≠ i ∧ bit s.island.revoked k = false
    let digest := Config.sha384 ([0x53, 0x51, 0x57, 0x32, 0x2D, 0x52, 0x45, 0x56, 0x4F, 0x4B, 0x45] ++ leBytes 8 s.part.serial.toNat ++ leBytes 1 i)
    let good := ∃ k, left k ∧ Config.rootSig k digest ((c.data.drop 8).take 96) = true
    ∃ u, exec .secRootRevoke s = .next u ∧ ((∀ k, ¬left k) → quiet s u c 5) ∧ ((∃ k, left k) → ¬good → quiet s u c 7) ∧
      (good → replied s u c .done 0 [] ∧ bit u.island.revoked i = true ∧ (∀ k, k ≠ i → bit u.island.revoked k = bit s.island.revoked k) ∧
        audited s u 15 c.port i ∧ raisedFirst s u 20001 0x0B07 0 (BitVec.ofNat 64 i))) ∧
  (∀ (s : State) (pin : Bool), ∃ u, exec (.tamper pin) s = .next u ∧ u.boot.off = 3 ∧ u.boot.step = 0 ∧ u.boot.pwrGood = false ∧ u.snuff.snf = true ∧
    u.island.slots = [] ∧ u.msds = [] ∧ u.mus = [] ∧ u.wicks = [] ∧ u.mantle.cmds = [] ∧ u.eng.txns = [] ∧ s.island.drbg < u.island.drbg ∧
    u.boot.tamperDue = true ∧ u.boot.lidOpen = (s.boot.lidOpen || !pin) ∧ u.boot.tamperLow = (s.boot.tamperLow || pin) ∧
    (s.boot.tamperDue = false → u.boot.tamperSrc % 2 = ofBit pin ∧ u.boot.tamperAt = nowNs s / 1000)) ∧
  (∀ (s : State), ∃ u, exec .tamperCleared s = .next u ∧ u.boot.lidOpen = false ∧ u.boot.tamperLow = false ∧
    (s.boot.off = 3 → s.boot.input = true → bladesOn s = 8 → u.boot.step = 1 ∧ u.boot.off = 0 ∧ u.boot.lrst = 0) ∧
    (s.boot.off = 3 → (s.boot.input = false ∨ bladesOn s < 8) → u.boot.off = 1 ∧ u.boot.step = s.boot.step) ∧ (s.boot.off ≠ 3 → u.boot.off = s.boot.off))

/-! ### Incidents and recovery (chapter 16) -/

/-- INCIDENT_ACCEPT, COALESCING_WINDOW_END, TILE_HEALTH_PROBE, PERIODIC_SNAPSHOT, RECOVERY_START, SPARE_TEST_DONE and REPLAY_CAUGHT_UP (R482, R498 to
R504, R511 to R517, R520): an error of a CD memory is raised when the memory is read; records are taken source by source, numbered, and written to the ring; Mantle fences, asks for repairs and recoveries; a
recovery stops its group, tests the spare, and at the end is lifted by one wave or abandoned with the cause stated. -/
def Obligations.IncidentsAndRecovery : Prop :=
  let plain (s : State) (i : Inc) : Prop := s.trace.running = false ∧ s.trace.held = [] ∧ s.cdErr = 0 ∧
    i.cls ∉ [0x0840, 0x0620, 0x0608, 0x0220, 0x0612, 0x0604, 0x0203, 0x0464, 0x0613, 0x0920]
  let abandoned (u : State) (g cause : Nat) : Prop := (∀ y ∈ u.mantle.recov, y.group ≠ g) ∧
    ((∃ i, (mget [] u.inc.sources 20001).getLast? = some i ∧ i.cls = 0x0412 ∧ i.detail = BitVec.ofNat 64 (cause + g * 256)) ∨
      8 ≤ (mget [] u.inc.sources 20001).length)
  let held (s : State) : Prop := (s.inc.ring.placed = false ∨ s.inc.ring.bad = true) ∧ s.cdErr = 0
  (∀ (s : State), (s.inc.ring.placed = false ∨ s.inc.ring.bad = true) → s.inc.sources = [] → s.inc.windows = [] → s.inc.store.length < 256 →
    (s.cdErr = 1 ∨ s.cdErr = 2) → ∃ u i, exec .incidentAccept s = .next u ∧ u.cdErr = 0 ∧ u.inc.store = s.inc.store ++ [(s.inc.rseq + 1, i)] ∧
      i.cls = (if s.cdErr = 1 then 0x0101 else 0x0102) ∧ i.die = 1 ∧ i.itime = nowNs s) ∧
  (∀ (s : State), held s → nextSource s = none → exec .incidentAccept s = .next s) ∧
  (∀ (s : State) (k : Nat) (i : Inc) (rest : List Inc), held s → nextSource s = some k → mget [] s.inc.sources k = i :: rest → plain s i →
    ∃ u, exec .incidentAccept s = .next u ∧ { u with inc := s.inc } = s ∧ u.inc.turn = k ∧ u.inc.rseq = s.inc.rseq + 1 ∧
      mget [] u.inc.sources k = rest ∧ mget 0 u.inc.losses k = 0 ∧
      (∀ j, j ≠ k → mget [] u.inc.sources j = mget [] s.inc.sources j ∧ mget 0 u.inc.losses j = mget 0 s.inc.losses j) ∧
      (s.inc.store.length < 256 → u.inc.store = s.inc.store ++ [(s.inc.rseq + 1, { i with loss := mget 0 s.inc.losses k })] ∧ u.inc.dropped = s.inc.dropped) ∧
      (256 ≤ s.inc.store.length → u.inc.store = s.inc.store ∧ u.inc.dropped = s.inc.dropped + 1)) ∧
  (∀ (s : State) (p k : Nat) (i : Inc) (rest : List Inc), s.inc.ring.placed = true → s.inc.ring.bad = false → s.inc.ring.at_.space = p + 1 → s.inc.store = [] →
    nextSource s = some k → mget [] s.inc.sources k = i :: rest → plain s i → i.cls ≠ 0x0A09 →
    let r := s.inc.ring
    let bs := incBytes (s.inc.rseq + 1) r.pass { i with loss := mget 0 s.inc.losses k }
    ∃ u, exec .incidentAccept s = .next u ∧ u.inc.store = [] ∧ u.inc.rseq = s.inc.rseq + 1 ∧
      (∀ j, j < 64 → mget 0 (getHost u p).mem (r.at_.addr + 64 * r.idx + j) = lget 0 bs j) ∧ (∀ q, q < 2 → bit (getHost u q).cause i.sev = true) ∧
      u.inc.ring = (if r.idx + 1 ≥ r.size / 64 then { r with idx := 0, pass := !r.pass } else { r with idx := r.idx + 1 })) ∧
  (∀ (s : State) (k : Nat) (i : Inc) (rest : List Inc), held s → s.trace.running = false → nextSource s = some k → mget [] s.inc.sources k = i :: rest →
    ∃ u, exec .incidentAccept s = .next u ∧
      (i.cls = 0x0604 → ∃ x, u.mantle.tabs = s.mantle.tabs ++ [x] ∧ x.chgs = linkBreak s i.tile i.uidx ∧ x.ph = 0 ∧ x.failed = none ∧ x.group = none) ∧
      (i.cls ∈ [0x0203, 0x0464] → i.rgv = true → let g := rgGrp (getRegion s i.reg)
        (eligible s g = true → recovering s g = false → u.mantle.recov = s.mantle.recov ++ [⟨g, 2, noTile, 0, nowNs s, 0, 0, 0, 0⟩]) ∧
        ((eligible s g = false ∨ recovering s g = true) → u.mantle = s.mantle)) ∧
      (i.cls ∈ [0x0840, 0x0620, 0x0608, 0x0220] → i.tile < nTiles → fenced s i.tile = false → (∀ x ∈ s.mantle.recov, x.tile ≠ i.tile) →
        let t := i.tile
        (regionOf s t = none → fenced u t = true ∧ bits (getTile u t).fence.toNat 12 4 = (if (getField s (fieldOf t)).meshOff then 3 else 2) ∧
          (spareOpen s t = true → ∃ x, u.mantle.tabs = s.mantle.tabs ++ [x] ∧ x.failed = some t ∧ x.chgs = repairChgs s t ∧ x.ph = 0) ∧
          (spareOpen s t = false → u.mantle.tabs = s.mantle.tabs)) ∧
        (∀ r, regionOf s t = some r → let g := rgGrp (getRegion s r)
          (eligible s g = true → spareOpen s t = true → recovering s g = false →
            u.mantle.recov = s.mantle.recov ++ [⟨g, 1, t, 0, nowNs s, 0, 0, 0, 0⟩]) ∧
          (eligible s g = true → spareOpen s t = false → fenced u t = true ∧ abandoned u g 1)))) ∧
  (∀ (s : State), (s.inc.windows = [] → exec .coalescingWindowEnd s = .next s) ∧
    (∀ w rest, s.inc.windows = w :: rest → ∃ u, exec .coalescingWindowEnd s = .next u ∧ u.inc.windows = rest ∧
      (0 < perTick s → w.opened + 10000000 ≤ nowNs u) ∧ (w.first = none → u.inc.sources = s.inc.sources) ∧
      (∀ i, w.first = some i → let q := mget [] s.inc.sources (incSource i)
        mget [] u.inc.sources (incSource i) = if q.length < 8 then q ++ [{ i with coal := true, count := w.count, ilast := w.last }] else q))) ∧
  (∀ (s : State) (cd md silent : List TileId), ∃ u, exec (.tileHealthProbe cd md silent) s = .next u ∧ s.mantle.probeAt ≤ nowPs u ∧
    u.mantle.probeAt = nowPs u + 100000000000 ∧
    (∀ t, t ∈ cd → bit (getTile s t.val).fence.toNat 9 = true → (getField s (fieldOf t.val)).meshOff = false →
      bit (getTile u t.val).fence.toNat 9 = false ∧ raisedFirst (reachPs s s.mantle.probeAt) u t.val 0x0840 0 0) ∧
    (∀ t, t ∈ md → bit (getTile s t.val).fence.toNat 8 = true → (getField s (fieldOf t.val)).meshOff = false → bit (getTile u t.val).fence.toNat 8 = false) ∧
    (∀ t, t ∈ silent → fenced s t.val = false → (getTile u t.val).down = true ∧
      (t ∉ cd → t ∉ md → raisedFirst (reachPs s s.mantle.probeAt) u t.val 0x0620 0 0)) ∧
    (∀ t : TileId, t ∉ cd → t ∉ md → t ∉ silent → getTile u t.val = getTile s t.val)) ∧
  (∀ (s : State), let p := s.mantle.snap
    ((p.snapp = 0 ∨ s.boot.mst ≠ 5 ∨ s.power.pilot ≠ 0) → exec .periodicSnapshot s = .next s) ∧
    (p.snapp ≠ 0 → s.boot.mst = 5 → s.power.pilot = 0 → ∃ u w, exec .periodicSnapshot s = .next u ∧ p.next ≤ nowPs u ∧
      u.mantle.snap.next = p.next + p.snapp * 1000000000 ∧ u.lamp.pending = s.lamp.pending ++ [w] ∧ w.wtype = .snapshot ∧
      ∀ r, r < 64 → (bit w.warg.toNat r = true ↔ bit p.srmask.toNat r = true ∧ ∀ x ∈ s.mantle.recov, r ∉ groupRegions s x.group))) ∧
  (∀ (s : State), (∀ x ∈ s.mantle.recov, x.step ≠ 0) → exec .recoveryStart s = .next s) ∧
  (∀ (s : State) (pre post : List Recov) (x : Recov), s.mantle.recov = pre ++ x :: post → (∀ y ∈ pre, y.step ≠ 0) → x.step = 0 → x.tag = 0 →
    (∀ r ∈ groupRegions s x.group, (getRegion s r).frozenAt = none) → s.mantle.snap.out = [] →
    ∃ u, exec .recoveryStart s = .next u ∧ (s.mantle.snap.best.lookup x.group = none → abandoned u x.group 2) ∧
      (x.kind = 1 → fenced u x.tile = true) ∧
      (x.kind = 1 → ∀ n, s.mantle.snap.best.lookup x.group = some n →
        (∀ y ∈ u.mantle.recov, y.group = x.group → y.step = 2 ∧ y.wnum = n ∧ y.tcut = nowNs s) ∧
        (∀ r ∈ groupRegions s x.group, (getRegion s r).st ≠ .empty → (getRegion u r).st = .stopped))) ∧
  (∀ (s : State) (good : Bool), (∀ x ∈ s.mantle.recov, ¬(x.step = 2 ∧ x.kind = 1)) → exec (.spareTestDone good) s = .next s) ∧
  (∀ (s : State) (good : Bool) (pre post : List Recov) (x : Recov), s.mantle.recov = pre ++ x :: post → (∀ y ∈ pre, ¬(y.step = 2 ∧ y.kind = 1)) →
    x.step = 2 → x.kind = 1 →
    ∃ u, exec (.spareTestDone good) s = .next u ∧
      (good = true → (∀ y ∈ u.mantle.recov, y.group = x.group → y.step = 4) ∧
        ∃ z, u.mantle.tabs = s.mantle.tabs ++ [z] ∧ z.chgs = repairChgs s x.tile ∧ z.failed = some x.tile ∧ z.group = some x.group ∧ z.ph = 0) ∧
      (good = false → abandoned u x.group 8)) ∧
  (∀ (s : State) (g : Fin 64), (∀ x ∈ s.mantle.recov, ¬(x.group = g.val ∧ x.step = 8)) → exec (.replayCaughtUp g) s = .next s) ∧
  (∀ (s : State) (g : Fin 64), (∃ x ∈ s.mantle.recov, x.group = g.val ∧ x.step = 8) →
    let pd (d : Nat) : Pd := getPd s d
    let lost := ∃ d, d < 6 ∧ ((∃ r, replayOf (pd d) g.val = some r ∧ logSize (pd d).replay ≠ 0 ∧ (pd d).replay.outage = true) ∨
      (replayOf (pd d) g.val = none ∧ dieFenced s (diePd d) = false))
    let odd := ∃ d r, d < 6 ∧ replayOf (pd d) g.val = some r ∧ (logSize (pd d).replay = 0 ∨ spanWhole (pd d).replay r.start = true) ∧ (unmatched (pd d) r).isSome = true
    ∃ u, exec (.replayCaughtUp g) s = .next u ∧ ((∃ d, d < 6 ∧ replayAtTail (pd d) g.val = false) → u = s) ∧
      ((∀ d, d < 6 → replayAtTail (pd d) g.val = true) → (lost → abandoned u g.val 3) ∧ (¬lost → odd → abandoned u g.val 4) ∧
        (¬lost → ¬odd → ∃ tag, committing s u tag [.unsuppress g.val] ∧ ∀ y ∈ u.mantle.recov, y.group = g.val → y.step = 9 ∧ y.tag = tag)))

/-! ### Power, points, heat (chapter 18) -/

/-- BLADE_MEASUREMENT, FAST_HALVING_RECHECK, POWER_LOOP_STEP, ISSUE_BUDGET_CYCLE, THERMAL_SENSOR_READ, HEAT_BUDGET_STEP and HEAT_RESUME (R554 to R566):
input power is measured and, far above the cap, budgets are halved; the loop sets limits, budgets and points that `OPMASK` allows; a budget
takes effect as the smaller of two; a step is entered when reached and left 3 °C below; a field at step 3 holds its regions, a module at step 5
switches off. -/
def Obligations.PowerAndHeat : Prop :=
  let alerted (u : State) : Prop := ∀ p, p < 2 → bit (getHost u p).cause cAlert = true
  (∀ (s : State) (vs : List (BitVec 16 × BitVec 16)),
    let l := (vs.take 8).map fun v => (v.1.toNat, v.2.toNat)
    ∃ u, exec (.bladeMeasurement vs) s = .next u ∧ u.power.samples = ((l.foldl (fun n v => n + v.1 * v.2) 0 / 1000) :: s.power.samples).take 1000 ∧
      (∀ j v, l[j]? = some v → getBlade u j = ⟨v.1, v.2⟩) ∧
      (overFast u = true → s.power.fastAt = none → (∀ e ∈ s.fields, e.2.fast = false) → u.power.fastAt = some (nowPs s) ∧ ∀ f, f < 100 →
        getField u f = (let x := getField s f; if x.platf then x else { x with powBud := x.powBud / 2, fast := true })) ∧
      ((overFast u = false ∨ s.power.fastAt ≠ none ∨ ∃ e ∈ s.fields, e.2.fast = true) → u.fields = s.fields ∧ u.power.fastAt = s.power.fastAt) ∧
      (let now := l.foldl (fun n v => n + v.1 * v.2) 0 / 1000
       (now < s.power.pcap → u.power.overAlert = false ∧ u.power.overAt = none) ∧
       (now = s.power.pcap → u.power.overAlert = s.power.overAlert ∧ u.power.overAt = none) ∧
       (s.power.pcap < now → atLimit u = false → u.power.overAlert = s.power.overAlert ∧ u.power.overAt = none) ∧
       (s.power.pcap < now → atLimit u = true → (s.power.overAt = none → u.power.overAt = some (nowPs s)) ∧
        (∀ t, s.power.overAt = some t → s.power.overAlert = false → (nowPs s < t + 100000000000 → u.power.overAlert = false) ∧
          (t + 100000000000 ≤ nowPs s → u.power.overAlert = true ∧ alerted u))))) ∧
  (∀ (s : State), (s.power.fastAt = none → exec .fastHalvingRecheck s = .next s) ∧
    (∀ t, s.power.fastAt = some t → ∃ u, exec .fastHalvingRecheck s = .next u ∧ t + 20000000 ≤ nowPs u ∧ u.power.fastAt = none ∧
      ∀ f, f < 100 → getField u f = (let x := getField s f; if overFast s && x.platf then { x with powBud := x.powBud / 2, fast := true } else x))) ∧
  (∀ (pord a : Nat) (dem : List Nat), (grants pord dem a).1.foldl (· + ·) 0 + (grants pord dem a).2 ≤ a ∧
    (pordOk pord = true → lget 0 (grants pord dem a).1 (bits pord 0 2) = min (lget 0 dem (bits pord 0 2)) a)) ∧
  (∀ (s : State) (e : PowerEst), ((s.boot.mst ≠ 5 ∨ s.power.pilot ≠ 0) → exec (.powerLoopStep e) s = .next s) ∧
    (s.boot.mst = 5 → s.power.pilot = 0 → (∃ p, p < 4 ∧ bit s.power.opmask p = true) → ∃ u, exec (.powerLoopStep e) s = .next u ∧
      u.power.linkLim ≤ 1024 ∧ u.power.memLim ≤ 1024 ∧ u.power.fastAt = none ∧ u.power.pcap = s.power.pcap ∧
      ∀ f, f < 100 → let x := getField s f
        let y := getField u f
        y.powBud ≤ 1024 ∧ y.fast = false ∧ y.platf = platField s f ∧ y.opreq = fieldReq s f ∧ y.pest = min (lget 0 e.pest f) 65535 ∧
          y.heatBud = x.heatBud ∧ y.opcur = x.opcur ∧ (x.chg ≠ 0 → y.chg = x.chg ∧ y.optgt = x.optgt) ∧
          (∃ k, y.grant = some k ∧ (x.onepll = true → k = x.opcur) ∧ (fieldRuns x = true → k = (if y.chg = 0 then y.opcur else y.optgt) ∨ bit s.power.opmask k = true ∨ x.onepll = true)) ∧
          (x.chg = 0 → y.chg ≠ 0 → (y.optgt = 0 → power10 s ≤ s.power.pcap) ∧ bit s.power.opmask y.optgt = true ∧ y.optgt ≠ x.opcur ∧ ∀ t, x.changedAt = some t → t + 10000000000 ≤ nowPs s))) ∧
  (∀ (s : State) (f : Fin 100), let x := getField s f.val
    (min x.powBud x.heatBud = x.ibud → exec (.issueBudgetCycle f) s = .next s) ∧
    (min x.powBud x.heatBud ≠ x.ibud → ∃ u, exec (.issueBudgetCycle f) s = .next u ∧ nowPs s ≤ nowPs u ∧
      getField u f.val = { x with ibud := min x.powBud x.heatBud } ∧ ∀ g, g ≠ f.val → getField u g = getField s g)) ∧
  (∀ (enter : Nat → Int) (cur : Nat) (t : Int), (∀ i j, 1 ≤ i → i ≤ j → j ≤ 5 → enter i ≤ enter j) → cur ≤ 5 → let k := newStep enter cur t
    k ≤ 5 ∧ (∀ j, 1 ≤ j → j ≤ 5 → enter j ≤ t → j ≤ k) ∧ (∀ j, 1 ≤ j → j ≤ cur → enter j - 24 ≤ t → j ≤ k) ∧
      (cur < k → enter k ≤ t) ∧ (k ≠ 0 → enter k - 24 ≤ t)) ∧
  (∀ (s : State) (f : Fin 100) (t : BitVec 16) (n : Fin 16), s.boot.step ≠ 0 →
    let x := getField s f.val
    let k := newStep fieldEnter x.tstep t.toInt
    let cool := if t.toInt ≤ 800 then some (x.coolSince.getD (nowPs s)) else none
    ∃ u, exec (.thermalSensorRead (.field f t n)) s = .next u ∧
      (k ≤ 2 → (getField u f.val).tstep = k ∧ (getField u f.val).tmax = t.toInt ∧ (getField u f.val).tsen = n.val ∧ (getField u f.val).coolSince = cool ∧
        (getField u f.val).heatNext = (if 840 ≤ t.toInt ∧ x.tmax < 840 then nowPs s + 1000000000
          else if t.toInt < 816 ∧ 816 ≤ x.tmax then nowPs s + 10000000000 else x.heatNext) ∧
        (∀ g, g ≠ f.val → getField u g = getField s g) ∧ (k ≤ x.tstep → u.inc = s.inc) ∧ (x.tstep < k → alerted u) ∧
        (x.tstep = 0 → 1 ≤ k → raisedFirst s u noTile 0x0830 0 (BitVec.ofNat 64 f.val)) ∧
        (x.tstep = 1 → k = 2 → raised s u noTile 0x0831 0 (BitVec.ofNat 64 f.val))) ∧
      (k = 3 → ∀ r ∈ fieldRegs s f.val, let g := getRegion s r
        g.heatHeld = false → recovering s (rgGrp g) = false → (∀ y ∈ s.eng.txns, ¬(y.ph = .quiesce ∧ y.regs.contains r = true)) →
          (getRegion u r).heatHeld = true ∧ (getRegion u r).gated = true ∧ (getRegion u r).heatRun = decide (g.st = .running)) ∧
      (5 ≤ k → u.boot.off = 2 ∧ u.boot.step = 0 ∧ u.boot.pwrGood = false ∧ u.boot.lrst = 4 ∧ u.boot.hotIx = f.val * 16 + n.val ∧ u.boot.hotAt = nowNs s)) ∧
  (∀ (s : State) (d : Fin 32) (t : BitVec 16), s.boot.step ≠ 0 → d.val ≠ 0 →
    let cur := mget 0 s.power.dieStep d.val
    let k := newStep (fun j => (dieEnter d.val j).getD 8000) cur t.toInt
    ∃ u, exec (.thermalSensorRead (.die d t)) s = .next u ∧ mget 0 u.power.dieTemp d.val = t.toInt ∧ (5 ≤ k → u.boot.off = 2 ∧ u.boot.step = 0 ∧ u.boot.hotIx = 1600 + d.val) ∧
      (k < 5 → mget 0 u.power.dieStep d.val = k ∧ (k ≤ cur → u.inc = s.inc) ∧ (cur = 0 → 1 ≤ k → alerted u ∧ raisedFirst s u (20000 + d.val) 0x0830 0 0) ∧
        (cur = 1 → k = 2 → alerted u ∧ raised s u (20000 + d.val) 0x0831 0 0))) ∧
  (∀ (s : State) (a b : BitVec 16), ∃ u, exec (.thermalSensorRead (.coolant a b)) s = .next u ∧ u.power.inletT = a.toInt ∧ u.power.outletT = b.toInt ∧
    { u with power := s.power } = s) ∧
  (∀ (s : State) (f : Fin 100), let x := getField s f.val
    ∃ u, exec (.heatBudgetStep f) s = .next u ∧ (∀ g, g ≠ f.val → getField u g = getField s g) ∧
      (840 ≤ x.tmax → 2 ≤ x.tstep → x.heatNext ≤ nowPs u ∧ (getField u f.val).heatBud = x.heatBud - 128 ∧ (getField u f.val).heatNext = nowPs u + 1000000000 ∧
        (∀ p, x.heatBud ≤ 128 → x.chg = 0 → x.onepll = false → fieldRuns x = true → nextSlower s.power.opmask x.opcur = some p →
          (getField u f.val).chg = 5 ∧ (getField u f.val).optgt = p)) ∧
      (x.tmax < 816 → x.heatBud < 1024 → x.heatNext ≤ nowPs u ∧
        getField u f.val = { x with heatBud := min 1024 (x.heatBud + 128), heatNext := nowPs u + 10000000000 }) ∧
      (816 ≤ x.tmax → (x.tmax < 840 ∨ x.tstep < 2) → u = s) ∧ (x.tmax < 816 → 1024 ≤ x.heatBud → u = s)) ∧
  (∀ (s : State) (r : Fin 64), let g := getRegion s r.val
    ((g.heatHeld = false ∨ g.heatGated = false ∨ ∃ f ∈ regionFields g, (getField s f).coolSince = none) → exec (.heatResume r) s = .next s) ∧
    (g.heatHeld = true → g.heatGated = true → (∀ f ∈ regionFields g, (getField s f).coolSince ≠ none) → s.eng.txns = [] →
      ∃ u, exec (.heatResume r) s = .next u ∧ (∀ f ∈ regionFields g, ∀ t, (getField s f).coolSince = some t → t + 100000000000 ≤ nowPs u) ∧
        (getRegion u r.val).heatHeld = false ∧ (getRegion u r.val).heatGated = false ∧ raised { s with time := u.time } u 20001 0x0832 0 1 ∧
        (g.heatRun = true → g.st = .drained → (getRegion u r.val).st = .running ∧ (getRegion u r.val).gated = false) ∧
        ((g.heatRun = false ∨ g.st ≠ .drained) → (getRegion u r.val).st = g.st ∧ (getRegion u r.val).gated = g.gated)))

/-! ### Clocks, module time, Pilot (chapter 18) -/

/-- OP_CHANGE_STEP, TAPER_STEP, FIELD_PLL_UNLOCK, STANDBY_PLL_TIMEOUT, DROOP_DETECTED and DROOP_RECOVERED (R520, R543 to R547): a change of point ramps
rails, locks the standby PLL, tapers over, and relocks the other, in the order of its direction; a PLL that unlocks hands over, holds, or loses its
field; a droop halves a tile's clock and loses no counted cycle. -/
def Obligations.OperatingPointsAndPlls : Prop :=
  let rateOf (u : State) (f : Nat) : Nat := (mget FieldClk.reset u.time.clk f).rate
  let tapering (u : State) (f tgt : Nat) (was : Bool) : Prop := (getField u f).src = !was ∧ (getField u f).tapk = 0 ∧ (getField u f).hold = false ∧
    rateOf u f = opRate tgt / 2
  let gone (s u : State) (f : Nat) : Prop := (getField u f).lost = true ∧ (∀ t ∈ fieldTiles f, fenced u t = true) ∧ rateOf u f = 0 ∧
    (fieldRegs s f = [] → raised { s with time := u.time } u noTile 0x0811 0 (BitVec.ofNat 64 f))
  (∀ (s : State) (f : Fin 100), let x := getField s f.val
    let other (y : FieldSt) : Bool := pllLocked y (!x.src)
    (fieldRuns x = false → exec (.opChangeStep f) s = .next s) ∧
    (fieldRuns x = true → ∃ u, exec (.opChangeStep f) s = .next u ∧ (∀ g, g ≠ f.val → getField u g = getField s g) ∧
      (let y := getField u f.val
       (∀ t, x.unlockAt = some t → (t + 1000000000 < nowPs s → u = s) ∧ (nowPs s ≤ t + 1000000000 → y.onepll = true ∧ y.chg = 0 ∧ y.unlockAt = none ∧
          other y = true ∧ tapering u f.val x.optgt x.src ∧ raised s u noTile 0x0810 0 (BitVec.ofNat 64 f.val))) ∧
       (x.unlockAt = none →
        (x.chg = 1 → x.stepAt + railPs x.opcur x.optgt ≤ nowPs u ∧ y.chg = 2 ∧ y.vcmp = opMv x.optgt ∧ y.vmsh = opMv x.optgt ∧ other y = false) ∧
        (x.chg = 2 ∨ x.chg = 5 → y.chg = x.chg + 1 ∧ other y = true ∧ tapering u f.val x.optgt x.src) ∧
        (x.chg = 3 ∨ x.chg = 6 → x.tapk ≠ 64 → u = s) ∧
        (x.chg = 3 → x.tapk = 64 → (x.onepll = true → y.chg = 0 ∧ y.opcnt = satAdd 16 x.opcnt 1) ∧ (x.onepll = false → y.chg = 4 ∧ other y = false)) ∧
        (x.chg = 4 ∨ x.chg = 8 → y.chg = 0 ∧ y.opcnt = satAdd 16 x.opcnt 1 ∧ other y = true) ∧
        (x.chg = 6 → x.tapk = 64 → y = { x with chg := 7, stepAt := nowPs s }) ∧
        (x.chg = 7 → x.stepAt + (x.vcmp - opMv x.optgt) * 100000 ≤ nowPs u ∧ y.vcmp = opMv x.optgt ∧ y.vmsh = opMv x.optgt ∧
          (x.onepll = true → y.chg = 0) ∧ (x.onepll = false → y.chg = 8 ∧ other y = false)) ∧
        ((x.chg = 0 ∨ 8 < x.chg) → u = s))))) ∧
  (∀ (s : State) (f : Fin 100), let x := getField s f.val
    ((64 ≤ x.tapk ∨ fieldRuns x = false) → exec (.taperStep f) s = .next s) ∧
    (x.tapk < 64 → fieldRuns x = true → ∃ u, exec (.taperStep f) s = .next u ∧ rateOf u f.val = opRate x.optgt * 64 / (127 - x.tapk) ∧
      (∀ g, g ≠ f.val → getField u g = getField s g ∧ rateOf u g = rateOf s g) ∧
      getField u f.val = (let y := { x with tapk := x.tapk + 1, tapAt := x.tapAt + 64 }; if x.tapk = 63 then { y with act := x.src, opcur := x.optgt } else y))) ∧
  (∀ (s : State) (f : Fin 100) (b : Bool), let x := getField s f.val
    ((pllLocked x b = false ∨ fieldRuns x = false) → exec (.fieldPllUnlock f b) s = .next s) ∧
    (pllLocked x b = true → fieldRuns x = true → ∃ u, exec (.fieldPllUnlock f b) s = .next u ∧ (let y := getField u f.val
      pllLocked y b = false ∧
      (b ≠ x.src → y = (let z := { setPll x b false with onepll := true }; if x.chg = 1 then { z with chg := 0, optgt := x.opcur } else z) ∧ raised s u noTile 0x0810 0 (BitVec.ofNat 64 f.val)) ∧
      (b = x.src → x.onepll = false → relocking x = true → y.hold = true ∧ y.unlockAt = some (nowPs s) ∧ pllLocked y (!b) = false ∧ y.lost = false) ∧
      (b = x.src → x.onepll = false → relocking x = false → pllLocked x (!b) = true → y.chg = 0 ∧ y.onepll = true ∧ y.lost = false ∧
        tapering u f.val x.opcur x.src ∧ raised s u noTile 0x0810 0 (BitVec.ofNat 64 f.val)) ∧
      (b = x.src → (x.onepll = true ∨ (relocking x = false ∧ pllLocked x (!b) = false)) → gone s u f.val)))) ∧
  (∀ (s : State) (f : Fin 100), ((getField s f.val).unlockAt = none → exec (.standbyPllTimeout f) s = .next s) ∧
    (∀ t, (getField s f.val).unlockAt = some t → ∃ u, exec (.standbyPllTimeout f) s = .next u ∧ t + 1000000000 ≤ nowPs u ∧ gone s u f.val)) ∧
  (∀ (s : State) (t : TileId), let x := getTile s t.val
    let fc := fieldCycles s (fieldOf t.val)
    (∃ u, exec (.droopDetected t) s = .next u ∧ (∀ k, k ≠ t.val → getTile u k = getTile s k) ∧
      getTile u t.val = if x.droop.isSome then x else { x with droop := some fc }) ∧
    (∃ u, exec (.droopRecovered t) s = .next u ∧ (∀ k, k ≠ t.val → getTile u k = getTile s k) ∧ (getTile u t.val).droop = none ∧
      (∀ d, x.droop = some d → x.lag ≤ d → d ≤ fc → tileCycles (getTile u t.val) fc = tileCycles x fc ∧ (getTile u t.val).dstr = satAdd 32 x.dstr ((fc - d) / 2))))

/-- SERVO_MEASUREMENT, PPS_IN, TIME_SOURCE_TIMEOUT, MB_FREQ_MEAS, FREQUENCY_METER_GATE_CLOSE, MB_PILOT_ENTER, PILOT_ENTRY_STEP, MB_PILOT_WAKE and
WAKE_STEP (R538, R548 to R551, R568 to R572): module time steps forward, slews within 500 ppm or bars its source, and never goes back; lock follows the
offsets; the fallback takes over after 4 s; a meter counts for its gate; Pilot is entered and left step by step. -/
def Obligations.TimeMetersAndPilot : Prop :=
  (∀ (s : State) (o : Int) (k : Nat) (i : Instr), (i = .servoMeasurement o ∧ k = 1) ∨ (i = .ppsIn ∧ k = 2 ∧ o = ppsOffset (nowNs s)) →
    let tc := if k = 1 then { s.tc with ptpOk := true } else s.tc
    let valid := bit s.tc.warned k = false ∧ (k = 1 ∨ (s.tc.ppsOk = true ∧ s.tc.tenOk = true))
    let applied := s.tc.src = k ∨ (k = srcPref s ∧ (s.tc.src = 0 ∨ (o.natAbs ≤ 100 ∧ 15 ≤ s.tc.back)))
    ∃ u, exec i s = .next u ∧ s.time.modTime ≤ u.time.modTime ∧ u.time.ticks = s.time.ticks ∧ (¬valid → u = { s with tc := tc }) ∧
      (valid → applied → u.tc.tofs = max (-32767) (min 32767 o) ∧ u.tc.lastAt = nowPs s ∧
        (1000 < o → u.time.modTime = s.time.modTime + o.toNat * (5 * 2 ^ 32) ∧ u.tc.lock = false ∧ u.tc.src = k ∧ u.tc.rate = s.tc.rate) ∧
        (-1000000000 ≤ o → o ≤ 1000 → u.time = s.time ∧ u.tc.src = k ∧ -500000 ≤ u.tc.rate ∧ u.tc.rate ≤ 500000 ∧ (100 < o.natAbs → u.tc.lock = false) ∧
          (o.natAbs ≤ 100 → s.tc.lock = true → u.tc.lock = true) ∧ (o.natAbs ≤ 20 → 15 ≤ s.tc.good → u.tc.lock = true) ∧
          (20 < o.natAbs → s.tc.lock = false → u.tc.lock = false)) ∧
        (o < -1000000000 → u.time = s.time ∧ u.tc.src = 0 ∧ u.tc.lock = false ∧ bit u.tc.warned k = true) ∧
        ((o < -1000000000 ∨ (s.tc.lock = true ∧ 100 < o.natAbs)) → raised { s with time := u.time } u 20001 0x0821 0 0)) ∧
      (valid → ¬applied → u.time = s.time ∧ u.tc.lock = s.tc.lock ∧ u.tc.src = s.tc.src ∧ u.tc.rate = s.tc.rate ∧ u.tc.tofs = s.tc.tofs ∧
        (k = srcPref s → u.tc.back = if o.natAbs ≤ 100 then s.tc.back + 1 else 0))) ∧
  (∀ (s : State), let valid (k : Nat) : Prop := bit s.tc.warned k = false ∧ (if k = 1 then s.tc.ptpOk = true ∧ s.tc.src ≠ 1 else s.tc.ppsOk = true ∧ s.tc.tenOk = true)
    ∃ u, exec .timeSourceTimeout s = .next u ∧ s.tc.lastAt + 4000000000000 ≤ nowPs u ∧ u.tc.lock = false ∧ u.tc.lastAt = nowPs u ∧
      (s.tc.lock = true → raised { s with time := u.time } u 20001 0x0821 0 0) ∧
      ((s.tc.src = srcPref s ∨ s.tc.src = 0) → ∀ k, srcBack s = some k → (valid k → u.tc.src = k) ∧ (¬valid k → u.tc.src = 0)) ∧
      ((s.tc.src ≠ srcPref s ∧ s.tc.src ≠ 0) ∨ srcBack s = none → u.tc.src = 0)) ∧
  (∀ (s : State) (c : MbCmd), let busy (c : MbCmd) : Bool := s.mantle.meters.any fun m => m.meter == fmMeter c
    (s.mantle.cmds.find? fun c => c.opc == 0x0051 && c.ph = .ready && (!meterOk c || !busy c)) = some c →
    ∃ u, exec .mbFreqMeas s = .next u ∧ (meterOk c = false → replied s u c .fault 5 [] ∧ u.mantle.meters = s.mantle.meters) ∧
      (meterOk c = true → fmMeter c < 100 → fieldFenced s (fmMeter c) = true → replied s u c .refusedFenced 0xA [] ∧ u.mantle.meters = s.mantle.meters) ∧
      (meterOk c = true → (100 ≤ fmMeter c ∨ fieldFenced s (fmMeter c) = false) → mailIn u c .work ∧ u.mantle.outbox = s.mantle.outbox ∧
        u.mantle.meters = s.mantle.meters ++ [⟨c.id, fmMeter c, fmRef c, fmClk c, fmK c, nowPs s⟩])) ∧
  (∀ (s : State) (m : Fin 128) (count : Option W32), (∀ g ∈ s.mantle.meters, g.meter ≠ m.val) → exec (.frequencyMeterGateClose m count) s = .next s) ∧
  (∀ (s : State) (m : Fin 128) (count : Option W32) (g : Meter) (c : MbCmd), s.mantle.meters.find? (·.meter == m.val) = some g →
    s.mantle.cmds.find? (·.id == g.cmd) = some c →
    ∃ u, exec (.frequencyMeterGateClose m count) s = .next u ∧ (∀ y ∈ u.mantle.meters, y.meter ≠ m.val) ∧
      (∀ n, count = some n → g.openAt + 2 ^ g.k * refPs g.mref ≤ nowPs u ∧ replied s u c .done 0 (wordBytes [n.toNat, nowNs u])) ∧
      (count = none → g.openAt + 30000000000000 ≤ nowPs u ∧ replied s u c .fault 0xB [])) ∧
  (∀ (s : State) (c : MbCmd), mailNext s 0x0048 = some c →
    ∃ u, exec .mbPilotEnter s = .next u ∧ (idleForPilot s = false → replied s u c .fault 5 [] ∧ u.power = s.power) ∧
      (idleForPilot s = true → u.power = { s.power with pilot := 1, pilotAt := nowPs s } ∧ mailIn u c .work ∧ u.boot.mst = s.boot.mst)) ∧
  (∀ (s : State), let a := s.power.pilotAt
    ∃ u, exec .pilotEntryStep s = .next u ∧ ((s.power.pilot = 0 ∨ 3 < s.power.pilot) → u = s) ∧
      (s.power.pilot = 1 → u.power.pilot = 2 ∧ a + 100000000 ≤ nowPs u) ∧
      (s.power.pilot = 2 → u.power.pilot = 3 ∧ a + 2100000000 ≤ nowPs u ∧ ∀ f, f < 100 → (getField u f).plA = false ∧ (getField u f).plB = false ∧
        (mget FieldClk.reset u.time.clk f).rate = 0) ∧
      (s.power.pilot = 3 → u.power.pilot = 4 ∧ a + 7100000000 ≤ nowPs u ∧ u.boot.mst = 6 ∧ (∀ f, f < 100 → (getField u f).vcmp = 500 ∧ (getField u f).vmsh = 500) ∧
        ∀ c, workingMail s 0x0048 = some c → replied s u c .done 0 [])) ∧
  (∀ (s : State) (c : MbCmd), mailNext s 0x0049 = some c →
    ∃ u, exec .mbPilotWake s = .next u ∧ u.power = { s.power with pilot := 5, pilotAt := nowPs s } ∧ mailIn u c .work ∧ u.boot.mst = 7) ∧
  (∀ (s : State) (fs : List (Fin 100)) (ms : List (Fin 24)), let a := s.power.pilotAt
    ∃ u, exec (.wakeStep fs ms) s = .next u ∧ ((s.power.pilot < 5 ∨ 8 < s.power.pilot) → u = s) ∧
      (s.power.pilot = 5 → u.power.pilot = 6 ∧ a + 5000000000 ≤ nowPs u ∧ ∀ f, f < 100 → (getField u f).vcmp = opMv (getField s f).opcur ∧
        (getField u f).vmsh = opMv (getField s f).opcur) ∧
      (s.power.pilot = 6 → u.power.pilot = 7 ∧ a + 7000000000 ≤ nowPs u ∧ ∀ f : Fin 100, let x := getField s f.val
        fieldRuns x = true → (f ∈ fs → (getField u f.val).lost = true) ∧
          (f ∉ fs → getField u f.val = { x with plA := true, plB := !x.onepll } ∧ (mget FieldClk.reset u.time.clk f.val).rate = opRate x.opcur)) ∧
      (s.power.pilot = 7 → u.power.pilot = 8 ∧ a + 13000000000 ≤ nowPs u ∧ u.lamp.calib = s.lamp.calib + 1 ∧ u.tc.tileOfs = 0 ∧
        (mwf Tile.reset s.tiles = true → ∀ t, (getTile u t).mtOfs = 0) ∧
        ∀ f ∈ fs, fieldRuns (getField s f.val) = true → ∀ t ∈ fieldTiles f.val, fenced u t = true) ∧
      (s.power.pilot = 8 → ms = [] → u.power.pilot = 0 ∧ a + 15000000000 ≤ nowPs u ∧ u.boot.mst = 5 ∧
        ∀ c, workingMail s 0x0049 = some c → replied s u c .done 0 []) ∧
      (s.power.pilot = 8 → u.power.pilot = 0 ∧ u.boot.mst = 5 ∧ ∀ m ∈ ms, (getDie u (8 + m.val)).down = true))

/-! ### The service connector (20.10, 22.6) -/

/-- The TAP instructions, the SMBus reads and UART_RX (R608 to R611, R643, R644, Table 20.8, Table 22.10): a TAP acts only in the chain; until debug is
unlocked, and on a die in use, an instruction acts as BYPASS; an SMBus read answers with its value and its PEC, or not at all while the interface
is silent; a character received is discarded. -/
def Obligations.ServicePorts : Prop :=
  let held (s u : State) (d ir : Nat) (dr : List Bool) : Prop := (getDie u d).ir = ir ∧ ((getDie u d).extest = true ↔ ir = 3) ∧ mget [] u.ans.tap d = dr ∧
    (∀ k, k ≠ d → getDie u k = getDie s k)
  let bypass (s u : State) (d ir : Nat) : Prop := held s u d ir [false] ∧ getDie u d = { getDie s d with ir := ir, extest := decide (ir = 3) } ∧
    { u with dies := s.dies, ans := s.ans } = s
  let code (d : Fin 32) (v : BitVec 8) (w : W32) (l m : List Bool) (e : List (Fin 13 × W32)) (n : Nat) : List (Instr × Nat) := [(.tapBypass d, 0xFF),
    (.tapSample d l m, 2), (.tapExtest d l m, 3), (.tapLbnear d v, 0x21), (.tapLbfar d v, 0x22), (.tapPrbscfg d w, 0x23), (.tapPrbsrd d e n, 0x24),
    (.tapBbstat d, 0x30)]
  (∀ (s : State) (d : Fin 32) (v : BitVec 8) (w : W32) (l m : List Bool) (e : List (Fin 13 × W32)) (n ir : Nat) (i : Instr), inChain s d.val = false →
    ((i, ir) ∈ code d v w l m e n ∨ i = .tapIdcode d) → exec i s = .next s) ∧
  (∀ (s : State) (d : Fin 32) (v : BitVec 8) (w : W32) (l m : List Bool) (e : List (Fin 13 × W32)) (n ir : Nat) (i : Instr), inChain s d.val = true →
    (i, ir) ∈ code d v w l m e n → (ir = 0xFF ∨ s.island.unlocked = false ∨ (ir ∈ [0x21, 0x22, 0x23, 0x24] ∧ testable s d.val = false)) →
    ∃ u, exec i s = .next u ∧ bypass s u d.val ir) ∧
  (∀ (s : State) (d : Fin 32), inChain s d.val = true → ∃ u, exec (.tapIdcode d) s = .next u ∧
    held s u d.val 1 (bitsOf 32 (dieGen s d.val % 16 * 2 ^ 28 +
      (if d.val = 0 then 0x5720 else if d.val = 1 then 0x5721 else if d.val ≤ 7 then 0x5722 else 0x5723) * 2 ^ 12 + Config.makerCode.toNat * 2 + 1))) ∧
  (∀ (s : State) (d : Fin 32) (pins next : List Bool) (ext : Bool), inChain s d.val = true → s.island.unlocked = true →
    ∃ u, exec (if ext then .tapExtest d pins next else .tapSample d pins next) s = .next u ∧ held s u d.val (if ext then 3 else 2) pins ∧
      (getDie u d.val).boundary = next) ∧
  (∀ (s : State) (v : W32), ∃ u, exec (.tapJsel v) s = .next u ∧ (s.island.unlocked = false → bypass s u 1 0x10) ∧
    (s.island.unlocked = true → held s u 1 0x10 (bitsOf 32 s.jsel.toNat) ∧ ∀ k, k < 32 → bit u.jsel.toNat k = (decide (k = 1) || bit v.toNat k))) ∧
  (∀ (s : State) (d : Fin 32) (v : BitVec 8) (far : Bool), inChain s d.val = true → s.island.unlocked = true → testable s d.val = true →
    let p := bits v.toNat 0 4
    ∃ u, exec (if far then .tapLbfar d v else .tapLbnear d v) s = .next u ∧ held s u d.val (if far then 0x22 else 0x21) (bitsOf 8 v.toNat) ∧
      (getDie u d.val).tapPort = p ∧ (∀ q, q ≠ p → getBb u d.val q = getBb s d.val q) ∧ (diePorts d.val ≤ p → getBb u d.val p = getBb s d.val p) ∧
      (p < diePorts d.val → (getDie u d.val).test = true ∧ getBb u d.val p = (let b := getBb s d.val p
        if far then { b with st := 5, far := bit v.toNat 4 } else { b with st := 5, near := bit v.toNat 4 }))) ∧
  (∀ (s : State) (d : Fin 32) (w : W32), inChain s d.val = true → s.island.unlocked = true → testable s d.val = true →
    let p := bits w.toNat 24 4
    ∃ u, exec (.tapPrbscfg d w) s = .next u ∧ held s u d.val 0x23 (bitsOf 32 w.toNat) ∧ (∀ q, q ≠ p → getBb u d.val q = getBb s d.val q) ∧
      (p < diePorts d.val → (getDie u d.val).test = true ∧
        getBb u d.val p = { getBb s d.val p with st := 5, pat := bits w.toNat 28 4, rate := bits w.toNat 22 2, mask := bits w.toNat 0 13 })) ∧
  (∀ (s : State) (d : Fin 32) (e : List (Fin 13 × W32)) (n : Nat), inChain s d.val = true → s.island.unlocked = true → testable s d.val = true →
    let p := (getDie s d.val).tapPort
    let b0 := getBb s d.val p
    ∃ u, exec (.tapPrbsrd d e n) s = .next u ∧ (let b := getBb u d.val p
      (diePorts d.val ≤ p → held s u d.val 0x24 (List.replicate 464 false)) ∧
      (p < diePorts d.val → held s u d.val 0x24 (((List.range 13).flatMap fun i => bitsOf 32 (mget 0 b.errs i)) ++ bitsOf 48 b.cmp)) ∧
      (p < diePorts d.val → (b0.pat = 0 ∨ b0.st ≠ 5) → b = b0) ∧
      (p < diePorts d.val → b0.pat ≠ 0 → b0.st = 5 → b.cmp = (b0.cmp + n) % 2 ^ 48 ∧ (∀ k : Fin 13, (∀ x ∈ e, x.1 ≠ k) → mget 0 b.errs k.val = mget 0 b0.errs k.val) ∧
        (∀ k c, e = [(k, c)] → mget 0 b.errs k.val = satAdd 32 (mget 0 b0.errs k.val) c.toNat)))) ∧
  (∀ (s : State) (d : Fin 32), inChain s d.val = true → s.island.unlocked = true → let p := (getDie s d.val).tapPort
    ∃ u, exec (.tapBbstat d) s = .next u ∧ (diePorts d.val ≤ p → held s u d.val 0x30 (List.replicate 64 false)) ∧
      (p < diePorts d.val → held s u d.val 0x30 (bitsOf 64 (bbStatWord (getBb s d.val p))) ∧ getBb u d.val p = { getBb s d.val p with retry := 0 })) ∧
  (∀ (s : State) (i : Instr) (cmd : Nat) (blk : Bool) (bs : List Byte), (i, cmd, blk, bs) ∈ [
      (Instr.sbId, 0, true, leBytes 8 (s.part.gib * 2 ^ 32 + s.part.stkh * 2 ^ 24 + s.part.rev * 2 ^ 16 + ofBit s.part.es * 2 ^ 8 + 2) ++ leBytes 8 s.part.serial.toNat),
      (.sbState, 1, false, leBytes 1 (s.boot.mst + ofBit s.boot.pwrGood * 16 + ofBit s.snuff.snf * 32 + ofBit (alertLow s) * 64)),
      (.sbPin, 2, false, leBytes 2 (power1ms s / 10)), (.sbVmin, 3, false, leBytes 2 (inputMv10 s)),
      (.sbIblade, 4, true, (List.range 8).flatMap fun i => leBytes 2 (getBlade s i).ma100), (.sbTmax, 5, false, leBytes 2 (unsigned 16 (hottest s))),
      (.sbTcool, 6, true, leBytes 2 (unsigned 16 s.power.inletT) ++ leBytes 2 (unsigned 16 s.power.outletT)),
      (.sbAlert, 7, false, leBytes 1 (ofBit (hotStep s) + ofBit s.power.overAlert * 2 + ofBit s.power.bladeAlert * 4))] →
    let body := if blk then BitVec.ofNat 8 bs.length :: bs else bs
    ∃ u, exec i s = .next u ∧ { u with ans := s.ans } = s ∧ (smbOn s = false → u.ans.smbAck = false ∧ u.ans.smb = []) ∧
      (smbOn s = true → u.ans.smbAck = true ∧
        u.ans.smb = body ++ [BitVec.ofNat 8 (([0xB8, BitVec.ofNat 8 cmd, 0xB9] ++ body).foldl pecByte 0)])) ∧
  (∀ (s : State), bladesOn s ≠ 0 → (∃ i, i < 8 ∧ 2000 < (getBlade s i).mv10 ∧ inputMv10 s = (getBlade s i).mv10) ∧
    ∀ i, i < 8 → 2000 < (getBlade s i).mv10 → inputMv10 s ≤ (getBlade s i).mv10) ∧
  (∀ (s : State) (ch : Byte), exec (.uartRx ch) s = .next s)

/-! ### Start-up, resets, pins (chapter 19) -/

/-- POWER_ON, STARTUP_PHASE_END, INPUT_UNDERVOLTAGE, BLADE_CHANGE, MOD_RESET_N, MODULE_RESET_RELEASE, MRST, REFERENCE_CLOCK_LOSS and
REFERENCE_CLOCK_VALID (R521, R573 to R585, R621, R633, R634): start-up goes through its steps in order and halts where it cannot; a reset clears what
Table 19.6 says and keeps the flash, the fuses and the log; one that begins during another is the same reset. -/
def Obligations.StartUpAndPins : Prop :=
  let alone (s : State) : Prop := inResetNow s = false ∧ ∀ a, s.boot.resetAt = some a → islandCycle a ≠ islandCycle (nowPs s)
  let wiped (s u : State) : Prop := u.wicks = [] ∧ u.flows = [] ∧ u.cus = [] ∧ u.mus = [] ∧ u.regions = [] ∧ u.tiles = [] ∧ u.net = ⟨[], 0, 0⟩ ∧ u.copies = [] ∧
    u.msds = [] ∧ u.pds = [] ∧ u.eng.txns = [] ∧ u.eng.engs = [] ∧ u.mantle.cmds = [] ∧ u.mantle.outbox = [] ∧ u.sem.holder = none ∧ u.island.slots = [] ∧
    u.island.unlocked = false ∧ u.snuff.snf = true ∧ u.time.ticks = s.time.ticks ∧ u.time.modTime = 0 ∧ u.part = s.part ∧
    u.island.minsvn = s.island.minsvn ∧ u.island.revoked = s.island.revoked ∧ u.boot.birth = s.boot.birth ∧ u.power.blades = s.power.blades ∧
    (s.fw.trial = false → u.fw.banks = s.fw.banks ∧ u.fw.sel = s.fw.sel ∧ u.island.audit = s.island.audit)
  let restarted (s u : State) (lrst : Nat) : Prop := alone s → wiped s u ∧ u.boot.lrst = lrst ∧ u.boot.step = 2 ∧ u.boot.mst = 0 ∧ u.boot.resetAt = some (nowPs s)
  let off (s u : State) : Prop := wiped s u ∧ u.boot.off = 1 ∧ u.boot.step = 0 ∧ u.boot.pwrGood = false ∧ u.boot.lrst = 0
  let started (s u : State) (lrst : Nat) : Prop := wiped s u ∧ u.boot.step = 1 ∧ u.boot.off = 0 ∧ u.boot.lrst = lrst
  let halted (u : State) (c d : Nat) : Prop := u.boot.step = 7 ∧ u.boot.mst = 8 ∧ u.boot.haltc = c ∧ u.boot.haltd = d
  let went (s u : State) : Prop := u.boot.step = s.boot.step + 1 ∧ u.boot.mst = s.boot.step - 1
  (∀ (s : State), ∃ u, exec .powerOn s = .next u ∧ u.boot.input = true ∧ (s.boot.off = 1 → bladesOn s = 8 → started s u 0) ∧
    (s.boot.off = 2 → s.boot.input = false → coolEnough s = true → bladesOn s = 8 → started s u 4) ∧
    ((s.boot.off = 0 ∨ 2 < s.boot.off ∨ bladesOn s < 8 ∨ (s.boot.off = 2 ∧ (s.boot.input = true ∨ coolEnough s = false))) → { u with boot := s.boot } = s)) ∧
  (∀ (s : State) (rail : Bool), ∃ u, exec (.inputUndervoltage rail) s = .next u ∧ u.boot.input = (s.boot.input && rail) ∧ (s.boot.off = 0 → off s u) ∧
    (s.boot.off ≠ 0 → { u with boot := s.boot } = s)) ∧
  (∀ (s : State) (i : Fin 8) (mv : Nat) (held : Bool), let s0 : State := { s with power := { s.power with
      blades := mput s.power.blades i.val { getBlade s i.val with mv10 := mv } } }
    ∃ u, exec (.bladeChange i mv held) s = .next u ∧ getBlade u i.val = { getBlade s i.val with mv10 := mv } ∧
      (∀ j, j ≠ i.val → getBlade u j = getBlade s j) ∧
      (s.boot.off = 1 → s.boot.input = true → bladesOn u = 8 → started s0 u 0) ∧ (s.boot.off = 0 → held = true → bladesOn u < 6 → off s0 u) ∧
      (s.boot.off = 0 → (held = false ∨ 6 ≤ bladesOn u) → { u with power := s.power, hosts := s.hosts } = s ∧
        u.power.bladeAlert = (if held = true ∨ bladesBad u = false then bladesBad u else s.power.bladeAlert) ∧
        (held = true → bladesBad u = true → s.power.bladeAlert = false → ∀ p, p < 2 → bit (getHost u p).cause cAlert = true))) ∧
  (∀ (s : State), ∃ u, exec .modResetN s = .next u ∧ (s.boot.off ≠ 2 → s.boot.pwrGood = false → u = s) ∧
    ((s.boot.off = 2 ∨ s.boot.pwrGood = true) → u.boot.held = true) ∧ (s.boot.off = 2 → { u with boot := s.boot } = s) ∧
    (s.boot.off ≠ 2 → s.boot.pwrGood = true → restarted s u 2 ∧ (inResetNow s = true → { u with boot := s.boot } = s))) ∧
  (∀ (s : State), ∃ u, exec .moduleResetRelease s = .next u ∧ u.boot.held = false ∧
    (s.boot.held = true → s.boot.off = 2 → coolEnough s = true → s.boot.input = true → started s u 4) ∧
    ((s.boot.held = false ∨ s.boot.off ≠ 2 ∨ coolEnough s = false ∨ s.boot.input = false) → { u with boot := s.boot } = s ∧ u.boot.step = s.boot.step)) ∧
  (∀ (s : State) (p : Fin 2), ∃ u, exec (.mrst p) s = .next u ∧ (hostUp s p.val = false → u = s) ∧
    (hostUp s p.val = true → s.sem.holder = some p.val → nowPs s ≤ s.sem.lease → restarted s u 1) ∧
    (hostUp s p.val = true → ¬(s.sem.holder = some p.val ∧ nowPs s ≤ s.sem.lease) → (getHost u p.val).rwsign = satAdd 16 (getHost s p.val).rwsign 1 ∧ { u with hosts := s.hosts } = s)) ∧
  (∀ (s : State), (∃ u, exec .referenceClockLoss s = .next u ∧ u.boot.refOk = false ∧ u.boot.refAt = nowPs s ∧ restarted s u 3) ∧
    (∃ u, exec .referenceClockValid s = .next u ∧ u = { s with boot := { s.boot with refOk := true } })) ∧
  (∀ (s : State) (a b l : Nat) (t : Nat), inResetNow s = false → s.fw.trial = false → s.boot.resetAt = some t → islandCycle t = islandCycle (nowPs s) →
    s.boot.lrst = a → (a, b, l) ∈ [(2, 1, 2), (1, 2, 2), (3, 2, 3), (2, 3, 3), (1, 3, 3), (3, 1, 3), (5, 1, 1), (1, 5, 1), (5, 2, 2)] →
    { moduleReset s b with boot := s.boot } = s ∧ (moduleReset s b).boot.lrst = l) ∧
  (∀ (s : State) (r : PhaseEnd), inResetNow s = true → exec (.startupPhaseEnd r) s = .next s) ∧
  (∀ (s : State), inResetNow s = false → ∃ u, exec (.startupPhaseEnd .ok) s = .next u ∧
    (s.boot.step = 1 → u.boot.step = 2 ∧ u.boot.pwrGood = true) ∧ (s.boot.step = 3 → (linksUp s = false → u = s) ∧ (linksUp s = true → went s u)) ∧
    (s.boot.step = 4 → went s u) ∧
    (s.boot.step = 6 → s.fw.trial = false → u.boot.step = 7 ∧ u.boot.mst = 5 ∧ u.boot.lastMark = nowNs s ∧ u.dieFence = 0 ∧
      u.seg = [(0, (BitVec.ofNat 64 (2 ^ 63 + (2 ^ 24 - 1) * 2 ^ 32 + s.part.gib * 2 ^ 18), 0))] ∧
      ∀ r, settingsOf (getBank s s.fw.rbank) = some r → bits (wordOf r 0) 0 16 = (getBank s s.fw.rbank).sfmt →
        u.power.pcap = bits (wordOf r 1) 0 16 ∧ u.power.pord = bits (wordOf r 1) 16 6 ∧ u.power.opmask = bits (wordOf r 1) 24 4 ∧ u.fw.srst = false ∧
          u.mantle.snap.snapp = bits (wordOf r 2) 0 14)) ∧
  (∀ (s : State) (a b : Bool), inResetNow s = false → s.boot.step = 2 → s.fw.trial = false → s.fw.sel < 2 →
    let sig (k : Nat) : Bool := if k = 0 then a else b
    let auth (k : Nat) : Prop := (getBank s k).st ≠ 0 ∧ sig k = true ∧ s.island.minsvn ≤ (getBank s k).svn
    let k := s.fw.sel
    ∃ u, exec (.startupPhaseEnd (.boot a b 0)) s = .next u ∧
      (auth k → went s u ∧ u.fw.rbank = k ∧ u.fw.trial = decide ((getBank s k).st = 2) ∧ u.fw.trialDue = s.boot.resetAt.getD (nowPs s) + 120000000000000 ∧
        lastAudit u 1 3 ((getBank s k).setver * 2 ^ 32 + k)) ∧
      (¬auth k → (getBank s k).st ≠ 2 → (getBank s (1 - k)).st = 4 → auth (1 - k) → went s u ∧ u.fw.rbank = 1 - k ∧ u.fw.sel = 1 - k ∧
        (getBank u k).st = 0 ∧ (getBank u (1 - k)).st = 3 ∧ u.fw.fbEvent = some 4) ∧
      (¬auth k → (getBank s k).st ≠ 2 → ((getBank s (1 - k)).st ≠ 4 ∨ ¬auth (1 - k)) → halted u 1 0) ∧
      (¬auth k → (getBank s k).st = 2 → (getBank u k).st = 5 ∧ (getBank u (1 - k)).st = 3 ∧ u.fw.sel = 1 - k ∧ (alone s → u.boot.lrst = 5 ∧ u.boot.step = 2))) ∧
  (∀ (s : State) (a b : Bool) (n : Nat), inResetNow s = false → s.boot.step = 2 → s.fw.trial = false →
    ∃ u, exec (.startupPhaseEnd (.boot a b n)) s = .next u ∧ ((n = 1 ∨ n = 2) → halted u 1 0) ∧ (3 ≤ n → s.island.err = false → s.fw.sel = 0 → a = true →
      (getBank s 0).st ≠ 0 → s.island.minsvn ≤ (getBank s 0).svn → went s u ∧ u.island.err = true)) ∧
  (∀ (s : State) (l : List Finding), inResetNow s = false → s.boot.step = 5 → s.fw.trial = false →
    ∃ u, exec (.startupPhaseEnd (.tested l)) s = .next u ∧ (l = [] → went s u ∧ u.wicks = [] ∧ u.flows = [] ∧ u.cus = [] ∧ u.mus = [] ∧ u.boot.birth = s.boot.birth) ∧
      (∀ f rest, l = .field f :: rest → halted u 4 f.val) ∧
      (∀ f r p t, l = [.tile f r p] → servedBy s (rowTile f.val r.val) p.val = some t → t < nTiles →
        (spareFree s (rowTile f.val r.val) = true → s.boot.moved.contains (f.val * 11 + r.val) = false →
          bits (getTile u (rowTile f.val r.val)).colmap.toNat 0 4 = p.val ∧ u.boot.birth.contains (skipRec (rowTile f.val r.val) p.val) = true) ∧
        (spareFree s (rowTile f.val r.val) = false → fenced u t = true ∧ bits (getTile u t).fence.toNat 12 4 = 4))) ∧
  (∀ (s : State) (d k c : Nat), inResetNow s = false → s.fw.trial = false → (s.boot.step, k, c) ∈ [(3, 3, 2), (4, 2, 3), (5, 1, 4), (6, 2, 5)] →
    let n := mget 0 s.boot.tries (s.boot.step * 1000 + d) + 1
    ∃ u, exec (.startupPhaseEnd (.failed d)) s = .next u ∧ (k ≤ n → halted u c d) ∧
      (n < k → u.boot.step = s.boot.step ∧ u.boot.mst = s.boot.mst ∧ mget 0 u.boot.tries (s.boot.step * 1000 + d) = n)) ∧
  (∀ (s : State) (d : Nat), (7 ≤ s.boot.step ∨ s.boot.step ≤ 2) → exec (.startupPhaseEnd (.failed d)) s = .next s)

/-! ### The step, reset, and what every step keeps -/

/-- One step runs the command at the front of the queue; with none waiting one period of the reference clock passes (log entry 1). -/
def Obligations.StepTakesTheFrontCommand : Prop :=
  (∀ (s : State) (c : Instr) (rest : List Instr), s.pending = c :: rest → step s = exec c { s with pending := rest }) ∧
  (∀ (s : State), s.pending = [] → ∃ u, step s = .next u ∧ u.time.ticks = s.time.ticks + 1 ∧ u.time.modTime = s.time.modTime + perTick s ∧
    { u with time := s.time } = s)

/-- What reset leaves (R414, R558, R610, Table 15.6, Table 18.3; the values of log entries 2, 3 and 5 are the model's): the Snuffer engaged, every field at
OP1 with a full budget, the chain with the CD alone, nothing held, nothing waiting, in start-up step 2; the state is in canonical form. -/
def Obligations.ResetState : Prop :=
  let s := State.reset
  s.pending = [] ∧ s.snuff.snf = true ∧ s.jsel = 2 ∧ s.boot.step = 2 ∧ s.boot.mst = 0 ∧ s.boot.pwrGood = true ∧ inResetNow s = false ∧ s.sem.holder = none ∧
    s.island.slots = [] ∧ s.island.unlocked = false ∧ s.tc.lock = false ∧ s.power.pcap = 33000 ∧ s.power.opmask = 15 ∧ pordOk s.power.pord = true ∧
    (∀ f, (getField s f).opcur = 1 ∧ (getField s f).chg = 0 ∧ (getField s f).powBud = 1024 ∧ (getField s f).heatBud = 1024 ∧ (getField s f).ibud = 1024) ∧
    (∀ r, (getRegion s r).st = .empty) ∧ (∀ p, p < 2 → hostUp s p = false) ∧ recordOk s (record s) = true ∧
    mwf Wick.reset s.wicks = true ∧ mwf Tile.reset s.tiles = true ∧ mwf Msd.reset s.msds = true

/-- Whatever the command, a step takes just the front command from the queue and adds none; the module's identity is never changed; fuses and counts of the
always-on island only rise: the minimum SVN, the revoked root keys, the boot count, the audit record number; time never goes back (R10, R549, R621,
R627). -/
def Obligations.EveryStepKeeps : Prop :=
  ∀ (s u : State), step s = .next u → u.pending = s.pending.tail ∧ u.part = s.part ∧ s.island.minsvn ≤ u.island.minsvn ∧
    (∀ k, bit s.island.revoked k = true → bit u.island.revoked k = true) ∧ s.island.boots ≤ u.island.boots ∧ s.island.aseq ≤ u.island.aseq ∧
    (s.island.raises ≤ 256 → u.island.raises ≤ 256) ∧ s.time.ticks ≤ u.time.ticks
end

