-- ==== Sys2Proof/Laws/Sparse.lean ====
section
/-!
SUPPORT. Laws of the sparse maps and of lists by index: a read after a write, a write elsewhere, and that every operation keeps the canonical
form. Every memory, register file and buffer of the state is such a map, so these are the memory laws of the model.
-/
namespace Sys2Proof.Machine
open Sys2Proof

variable {α : Type}

/-! ### A read after a write -/

@[simp] theorem mget_nil (d : α) (k : Nat) : mget d [] k = d := rfl

theorem mget_mdel_same (d : α) (m : SMap α) (k : Nat) : mget d (mdel m k) k = d := by
  induction m with
  | nil => rfl
  | cons e m ih =>
    obtain ⟨j, v⟩ := e
    by_cases h : j = k <;> simp [mdel, mget, h, ih]

theorem mget_mdel_other (d : α) (m : SMap α) (k i : Nat) (h : i ≠ k) : mget d (mdel m k) i = mget d m i := by
  induction m with
  | nil => rfl
  | cons e m ih =>
    obtain ⟨j, v⟩ := e
    by_cases hj : j = k
    · have : j ≠ i := by omega
      simp [mdel, mget, hj, ih]
      intro hk
      omega
    · simp [mdel, mget, hj, ih]

theorem mget_mput_same (d : α) (m : SMap α) (k : Nat) (v : α) : mget d (mput m k v) k = v := by
  induction m with
  | nil => simp [mput, mget]
  | cons e m ih =>
    obtain ⟨j, w⟩ := e
    unfold mput
    split
    · simp [mget]
    · split
      · simp [mget]
      · rename_i hj _
        simp [mget, hj, ih]

theorem mget_mput_other (d : α) (m : SMap α) (k i : Nat) (v : α) (h : i ≠ k) : mget d (mput m k v) i = mget d m i := by
  induction m with
  | nil => simp [mput, mget]; intro hk; omega
  | cons e m ih =>
    obtain ⟨j, w⟩ := e
    unfold mput
    split
    · rename_i hj
      subst hj
      have : j ≠ i := by omega
      simp [mget, this]
    · split
      · have : k ≠ i := by omega
        simp [mget, this]
      · simp [mget, ih]

@[simp] theorem mget_mset_same [DecidableEq α] (d : α) (m : SMap α) (k : Nat) (v : α) : mget d (mset d m k v) k = v := by
  unfold mset
  split
  · rename_i h
    rw [mget_mdel_same, h]
  · exact mget_mput_same d m k v

theorem mget_mset_other [DecidableEq α] (d : α) (m : SMap α) (k i : Nat) (v : α) (h : i ≠ k) :
    mget d (mset d m k v) i = mget d m i := by
  unfold mset
  split
  · exact mget_mdel_other d m k i h
  · exact mget_mput_other d m k i v h

theorem mget_mset [DecidableEq α] (d : α) (m : SMap α) (k i : Nat) (v : α) :
    mget d (mset d m k v) i = if i = k then v else mget d m i := by
  split
  · rename_i h
    rw [h, mget_mset_same]
  · rename_i h
    exact mget_mset_other d m k i v h

theorem mget_mput (d : α) (m : SMap α) (k i : Nat) (v : α) : mget d (mput m k v) i = if i = k then v else mget d m i := by
  split
  · rename_i h
    rw [h, mget_mput_same]
  · rename_i h
    exact mget_mput_other d m k i v h

@[simp] theorem mget_mmod_same [DecidableEq α] (d : α) (m : SMap α) (k : Nat) (f : α → α) :
    mget d (mmod d m k f) k = f (mget d m k) := mget_mset_same d m k _

theorem mget_mmod_other [DecidableEq α] (d : α) (m : SMap α) (k i : Nat) (f : α → α) (h : i ≠ k) :
    mget d (mmod d m k f) i = mget d m i := mget_mset_other d m k i _ h

/-! ### The canonical form -/

theorem mrise_weaken (lo lo' : Nat) (m : SMap α) (h : lo' ≤ lo) (hm : mrise lo m = true) : mrise lo' m = true := by
  cases m with
  | nil => rfl
  | cons e m =>
    obtain ⟨j, v⟩ := e
    simp only [mrise, Bool.and_eq_true, decide_eq_true_eq] at hm ⊢
    exact ⟨by omega, hm.2⟩

theorem mrise_mdel (lo : Nat) (m : SMap α) (k : Nat) (h : mrise lo m = true) : mrise lo (mdel m k) = true := by
  induction m generalizing lo with
  | nil => rfl
  | cons e m ih =>
    obtain ⟨j, v⟩ := e
    simp only [mrise, Bool.and_eq_true, decide_eq_true_eq] at h
    unfold mdel
    split
    · exact mrise_weaken _ _ _ (by omega) (ih _ h.2)
    · simp only [mrise, Bool.and_eq_true, decide_eq_true_eq]
      exact ⟨h.1, ih _ h.2⟩

theorem mrise_mput (lo : Nat) (m : SMap α) (k : Nat) (v : α) (hk : lo ≤ k) (h : mrise lo m = true) : mrise lo (mput m k v) = true := by
  induction m generalizing lo with
  | nil => simp [mput, mrise, hk]
  | cons e m ih =>
    obtain ⟨j, w⟩ := e
    simp only [mrise, Bool.and_eq_true, decide_eq_true_eq] at h
    unfold mput
    split
    · rename_i hj
      subst hj
      simp only [mrise, Bool.and_eq_true, decide_eq_true_eq]
      exact ⟨hk, h.2⟩
    · split
      · rename_i hlt
        simp only [mrise, Bool.and_eq_true, decide_eq_true_eq]
        exact ⟨hk, by omega, h.2⟩
      · simp only [mrise, Bool.and_eq_true, decide_eq_true_eq]
        exact ⟨h.1, ih _ (by omega) h.2⟩

theorem mnodef_mdel [DecidableEq α] (d : α) (m : SMap α) (k : Nat) (h : mnodef d m = true) : mnodef d (mdel m k) = true := by
  induction m with
  | nil => rfl
  | cons e m ih =>
    obtain ⟨j, v⟩ := e
    simp only [mnodef, List.all_cons, Bool.and_eq_true] at h ih
    unfold mdel
    split
    · exact ih h.2
    · simp only [mnodef, List.all_cons, Bool.and_eq_true]
      exact ⟨h.1, ih h.2⟩

theorem mnodef_mput [DecidableEq α] (d : α) (m : SMap α) (k : Nat) (v : α) (hv : v ≠ d) (h : mnodef d m = true) :
    mnodef d (mput m k v) = true := by
  induction m with
  | nil => simp [mput, mnodef, hv]
  | cons e m ih =>
    obtain ⟨j, w⟩ := e
    simp only [mnodef, List.all_cons, Bool.and_eq_true, decide_eq_true_eq] at h ih
    unfold mput
    split
    · simp only [mnodef, List.all_cons, Bool.and_eq_true, decide_eq_true_eq]
      exact ⟨hv, h.2⟩
    · split
      · simp only [mnodef, List.all_cons, Bool.and_eq_true, decide_eq_true_eq]
        exact ⟨hv, h.1, h.2⟩
      · simp only [mnodef, List.all_cons, Bool.and_eq_true, decide_eq_true_eq]
        exact ⟨h.1, ih h.2⟩

@[simp] theorem mwf_nil [DecidableEq α] (d : α) : mwf d ([] : SMap α) = true := rfl

/-- Removing a key keeps the canonical form. -/
theorem mwf_mdel [DecidableEq α] (d : α) (m : SMap α) (k : Nat) (h : mwf d m = true) : mwf d (mdel m k) = true := by
  simp only [mwf, Bool.and_eq_true] at h ⊢
  exact ⟨mrise_mdel _ _ _ h.1, mnodef_mdel _ _ _ h.2⟩

/-- A write keeps the canonical form: writing the default removes the entry. -/
theorem mwf_mset [DecidableEq α] (d : α) (m : SMap α) (k : Nat) (v : α) (h : mwf d m = true) : mwf d (mset d m k v) = true := by
  unfold mset
  split
  · exact mwf_mdel d m k h
  · rename_i hv
    simp only [mwf, Bool.and_eq_true] at h ⊢
    exact ⟨mrise_mput _ _ _ _ (Nat.zero_le _) h.1, mnodef_mput _ _ _ _ hv h.2⟩

theorem mwf_mmod [DecidableEq α] (d : α) (m : SMap α) (k : Nat) (f : α → α) (h : mwf d m = true) : mwf d (mmod d m k f) = true :=
  mwf_mset d m k _ h

theorem mget_of_mrise (d : α) (lo : Nat) (m : SMap α) (k : Nat) (h : mrise lo m = true) (hk : k < lo) : mget d m k = d := by
  induction m generalizing lo with
  | nil => rfl
  | cons e m ih =>
    obtain ⟨j, v⟩ := e
    simp only [mrise, Bool.and_eq_true, decide_eq_true_eq] at h
    have : j ≠ k := by omega
    simp only [mget, this, if_false]
    exact ih (j + 1) h.2 (by omega)

/-- In canonical form equal contents are equal data. -/
theorem mwf_ext [DecidableEq α] (d : α) (m n : SMap α) (hm : mwf d m = true) (hn : mwf d n = true)
    (h : ∀ k, mget d m k = mget d n k) : m = n := by
  have key : ∀ (lo : Nat) (m n : SMap α), mrise lo m = true → mnodef d m = true → mrise lo n = true → mnodef d n = true →
      (∀ k, mget d m k = mget d n k) → m = n := by
    intro lo m
    induction m generalizing lo with
    | nil =>
      intro n _ _ hr hd he
      cases n with
      | nil => rfl
      | cons f n =>
        obtain ⟨j, w⟩ := f
        have := he j
        simp only [mget, if_true] at this
        simp only [mnodef, List.all_cons, Bool.and_eq_true, decide_eq_true_eq] at hd
        exact absurd this.symm hd.1
    | cons e m ih =>
      obtain ⟨i, v⟩ := e
      intro n hr hd hr2 hd2 he
      simp only [mrise, Bool.and_eq_true, decide_eq_true_eq] at hr
      simp only [mnodef, List.all_cons, Bool.and_eq_true, decide_eq_true_eq] at hd
      cases n with
      | nil =>
        have := he i
        simp only [mget, if_true] at this
        exact absurd this hd.1
      | cons f n =>
        obtain ⟨j, w⟩ := f
        simp only [mrise, Bool.and_eq_true, decide_eq_true_eq] at hr2
        simp only [mnodef, List.all_cons, Bool.and_eq_true, decide_eq_true_eq] at hd2
        have hij : i = j := by
          by_contra hne
          rcases Nat.lt_or_gt_of_ne hne with hlt | hgt
          · have h1 := he i
            have h2 : mget d n i = d := mget_of_mrise d (j + 1) n i hr2.2 (by omega)
            have h3 : ¬ j = i := by omega
            simp only [mget, if_true, h3, if_false, h2] at h1
            exact hd.1 h1
          · have h1 := he j
            have h2 : mget d m j = d := mget_of_mrise d (i + 1) m j hr.2 (by omega)
            have h3 : ¬ i = j := by omega
            simp only [mget, if_true, h3, if_false, h2] at h1
            exact hd2.1 h1.symm
        subst hij
        have hv : v = w := by
          have := he i
          simpa only [mget, if_true] using this
        subst hv
        have ht : m = n := by
          apply ih (i + 1) n hr.2 hd.2 hr2.2 hd2.2
          intro k
          by_cases hk : i = k
          · subst hk
            rw [mget_of_mrise d (i + 1) m i hr.2 (by omega), mget_of_mrise d (i + 1) n i hr2.2 (by omega)]
          · have := he k
            simpa only [mget, hk, if_false] using this
        rw [ht]
  simp only [mwf, Bool.and_eq_true] at hm hn
  exact key 0 m n hm.1 hm.2 hn.1 hn.2 h

/-! ### Lists by index -/

@[simp] theorem lmod_length (l : List α) (i : Nat) (f : α → α) : (lmod l i f).length = l.length := by
  induction l generalizing i with
  | nil => rfl
  | cons a l ih => cases i <;> simp [lmod, ih]

theorem lget_lmod_same (d : α) (l : List α) (i : Nat) (f : α → α) (h : i < l.length) : lget d (lmod l i f) i = f (lget d l i) := by
  induction l generalizing i with
  | nil => simp at h
  | cons a l ih =>
    cases i with
    | zero => rfl
    | succ i =>
      simp only [List.length_cons] at h
      simp only [lmod, lget]
      exact ih i (by omega)

theorem lget_lmod_other (d : α) (l : List α) (i j : Nat) (f : α → α) (h : j ≠ i) : lget d (lmod l i f) j = lget d l j := by
  induction l generalizing i j with
  | nil => rfl
  | cons a l ih =>
    cases i with
    | zero =>
      cases j with
      | zero => omega
      | succ j => rfl
    | succ i =>
      cases j with
      | zero => rfl
      | succ j =>
        simp only [lmod, lget]
        exact ih i j (by omega)

theorem lget_append_left (d : α) (l m : List α) (i : Nat) (h : i < l.length) : lget d (l ++ m) i = lget d l i := by
  induction l generalizing i with
  | nil => simp at h
  | cons a l ih =>
    cases i with
    | zero => rfl
    | succ i =>
      simp only [List.length_cons] at h
      simp only [List.cons_append, lget]
      exact ih i (by omega)

theorem lget_eq_getD (d : α) (l : List α) (i : Nat) : lget d l i = l.getD i d := by
  induction l generalizing i with
  | nil => simp [lget]
  | cons a l ih =>
    cases i with
    | zero => rfl
    | succ i => simp [lget, ih]

end Sys2Proof.Machine
end

