-- ==== Sys2Proof/Laws/State.lean ====
section
/-!
SUPPORT. The state record: for every operation that changes one field, each other field and what is read through it are as before. Every
lemma holds by computation.
-/
namespace Sys2Proof.Machine
open Sys2Proof

/-! ### setWick -/

@[simp] theorem setWick_pending (s : State) (t c : Nat) (w : Wick) : (setWick s t c w).pending = s.pending := rfl
@[simp] theorem setWick_time (s : State) (t c : Nat) (w : Wick) : (setWick s t c w).time = s.time := rfl
@[simp] theorem setWick_flows (s : State) (t c : Nat) (w : Wick) : (setWick s t c w).flows = s.flows := rfl
@[simp] theorem setWick_cus (s : State) (t c : Nat) (w : Wick) : (setWick s t c w).cus = s.cus := rfl
@[simp] theorem setWick_mus (s : State) (t c : Nat) (w : Wick) : (setWick s t c w).mus = s.mus := rfl
@[simp] theorem setWick_tiles (s : State) (t c : Nat) (w : Wick) : (setWick s t c w).tiles = s.tiles := rfl
@[simp] theorem setWick_regions (s : State) (t c : Nat) (w : Wick) : (setWick s t c w).regions = s.regions := rfl
@[simp] theorem setWick_net (s : State) (t c : Nat) (w : Wick) : (setWick s t c w).net = s.net := rfl
@[simp] theorem setWick_lamp (s : State) (t c : Nat) (w : Wick) : (setWick s t c w).lamp = s.lamp := rfl
@[simp] theorem setWick_inc (s : State) (t c : Nat) (w : Wick) : (setWick s t c w).inc = s.inc := rfl
@[simp] theorem setWick_fields (s : State) (t c : Nat) (w : Wick) : (setWick s t c w).fields = s.fields := rfl
@[simp] theorem setWick_trace (s : State) (t c : Nat) (w : Wick) : (setWick s t c w).trace = s.trace := rfl
@[simp] theorem setWick_latch (s : State) (t c : Nat) (w : Wick) : (setWick s t c w).latch = s.latch := rfl
@[simp] theorem setWick_armed (s : State) (t c : Nat) (w : Wick) : (setWick s t c w).armed = s.armed := rfl
@[simp] theorem setWick_seg (s : State) (t c : Nat) (w : Wick) : (setWick s t c w).seg = s.seg := rfl
@[simp] theorem setWick_segKept (s : State) (t c : Nat) (w : Wick) : (setWick s t c w).segKept = s.segKept := rfl
@[simp] theorem setWick_dieFence (s : State) (t c : Nat) (w : Wick) : (setWick s t c w).dieFence = s.dieFence := rfl
@[simp] theorem setWick_hosts (s : State) (t c : Nat) (w : Wick) : (setWick s t c w).hosts = s.hosts := rfl
@[simp] theorem setWick_sem (s : State) (t c : Nat) (w : Wick) : (setWick s t c w).sem = s.sem := rfl
@[simp] theorem setWick_eng (s : State) (t c : Nat) (w : Wick) : (setWick s t c w).eng = s.eng := rfl
@[simp] theorem setWick_copies (s : State) (t c : Nat) (w : Wick) : (setWick s t c w).copies = s.copies := rfl
@[simp] theorem setWick_msds (s : State) (t c : Nat) (w : Wick) : (setWick s t c w).msds = s.msds := rfl
@[simp] theorem setWick_pds (s : State) (t c : Nat) (w : Wick) : (setWick s t c w).pds = s.pds := rfl
@[simp] theorem setWick_part (s : State) (t c : Nat) (w : Wick) : (setWick s t c w).part = s.part := rfl
@[simp] theorem setWick_boot (s : State) (t c : Nat) (w : Wick) : (setWick s t c w).boot = s.boot := rfl
@[simp] theorem setWick_fw (s : State) (t c : Nat) (w : Wick) : (setWick s t c w).fw = s.fw := rfl
@[simp] theorem setWick_snuff (s : State) (t c : Nat) (w : Wick) : (setWick s t c w).snuff = s.snuff := rfl
@[simp] theorem setWick_tc (s : State) (t c : Nat) (w : Wick) : (setWick s t c w).tc = s.tc := rfl
@[simp] theorem setWick_power (s : State) (t c : Nat) (w : Wick) : (setWick s t c w).power = s.power := rfl
@[simp] theorem setWick_mantle (s : State) (t c : Nat) (w : Wick) : (setWick s t c w).mantle = s.mantle := rfl
@[simp] theorem setWick_dies (s : State) (t c : Nat) (w : Wick) : (setWick s t c w).dies = s.dies := rfl
@[simp] theorem setWick_jsel (s : State) (t c : Nat) (w : Wick) : (setWick s t c w).jsel = s.jsel := rfl
@[simp] theorem setWick_island (s : State) (t c : Nat) (w : Wick) : (setWick s t c w).island = s.island := rfl
@[simp] theorem setWick_ans (s : State) (t c : Nat) (w : Wick) : (setWick s t c w).ans = s.ans := rfl
@[simp] theorem setWick_cdErr (s : State) (t c : Nat) (w : Wick) : (setWick s t c w).cdErr = s.cdErr := rfl
@[simp] theorem setWick_getFlow (s : State) (t c : Nat) (w : Wick) (i0 i1 : Nat) : getFlow (setWick s t c w) i0 i1 = getFlow s i0 i1 := rfl
@[simp] theorem setWick_getCu (s : State) (t c : Nat) (w : Wick) (i0 i1 : Nat) : getCu (setWick s t c w) i0 i1 = getCu s i0 i1 := rfl
@[simp] theorem setWick_getMu (s : State) (t c : Nat) (w : Wick) (i0 i1 : Nat) : getMu (setWick s t c w) i0 i1 = getMu s i0 i1 := rfl
@[simp] theorem setWick_getTile (s : State) (t c : Nat) (w : Wick) (i0 : Nat) : getTile (setWick s t c w) i0 = getTile s i0 := rfl
@[simp] theorem setWick_getRegion (s : State) (t c : Nat) (w : Wick) (i0 : Nat) : getRegion (setWick s t c w) i0 = getRegion s i0 := rfl
@[simp] theorem setWick_getField (s : State) (t c : Nat) (w : Wick) (i0 : Nat) : getField (setWick s t c w) i0 = getField s i0 := rfl
@[simp] theorem setWick_getDie (s : State) (t c : Nat) (w : Wick) (i0 : Nat) : getDie (setWick s t c w) i0 = getDie s i0 := rfl
@[simp] theorem setWick_getHost (s : State) (t c : Nat) (w : Wick) (i0 : Nat) : getHost (setWick s t c w) i0 = getHost s i0 := rfl
@[simp] theorem setWick_getEng (s : State) (t c : Nat) (w : Wick) (i0 : Nat) : getEng (setWick s t c w) i0 = getEng s i0 := rfl
@[simp] theorem setWick_getMsd (s : State) (t c : Nat) (w : Wick) (i0 : Nat) : getMsd (setWick s t c w) i0 = getMsd s i0 := rfl
@[simp] theorem setWick_getPd (s : State) (t c : Nat) (w : Wick) (i0 : Nat) : getPd (setWick s t c w) i0 = getPd s i0 := rfl
@[simp] theorem setWick_getPacket (s : State) (t c : Nat) (w : Wick) (i0 : Nat) : getPacket (setWick s t c w) i0 = getPacket s i0 := rfl
@[simp] theorem setWick_getMb (s : State) (t c : Nat) (w : Wick) (i0 : Nat) : getMb (setWick s t c w) i0 = getMb s i0 := rfl
@[simp] theorem setWick_nowNs (s : State) (t c : Nat) (w : Wick) : nowNs (setWick s t c w) = nowNs s := rfl
@[simp] theorem setWick_nowPs (s : State) (t c : Nat) (w : Wick) : nowPs (setWick s t c w) = nowPs s := rfl
@[simp] theorem setWick_fenced (s : State) (t c : Nat) (w : Wick) (i0 : Nat) : fenced (setWick s t c w) i0 = fenced s i0 := rfl
@[simp] theorem setWick_getBank (s : State) (t c : Nat) (w : Wick) (i0 : Nat) : getBank (setWick s t c w) i0 = getBank s i0 := rfl
@[simp] theorem setWick_getBlade (s : State) (t c : Nat) (w : Wick) (i0 : Nat) : getBlade (setWick s t c w) i0 = getBlade s i0 := rfl

@[simp] theorem modWick_eq (s : State) (t c : Nat) (f : Wick → Wick) : modWick s t c f = setWick s t c (f (getWick s t c)) := rfl

/-! ### setFlow -/

@[simp] theorem setFlow_pending (s : State) (t u : Nat) (f : Flow) : (setFlow s t u f).pending = s.pending := rfl
@[simp] theorem setFlow_time (s : State) (t u : Nat) (f : Flow) : (setFlow s t u f).time = s.time := rfl
@[simp] theorem setFlow_wicks (s : State) (t u : Nat) (f : Flow) : (setFlow s t u f).wicks = s.wicks := rfl
@[simp] theorem setFlow_cus (s : State) (t u : Nat) (f : Flow) : (setFlow s t u f).cus = s.cus := rfl
@[simp] theorem setFlow_mus (s : State) (t u : Nat) (f : Flow) : (setFlow s t u f).mus = s.mus := rfl
@[simp] theorem setFlow_tiles (s : State) (t u : Nat) (f : Flow) : (setFlow s t u f).tiles = s.tiles := rfl
@[simp] theorem setFlow_regions (s : State) (t u : Nat) (f : Flow) : (setFlow s t u f).regions = s.regions := rfl
@[simp] theorem setFlow_net (s : State) (t u : Nat) (f : Flow) : (setFlow s t u f).net = s.net := rfl
@[simp] theorem setFlow_lamp (s : State) (t u : Nat) (f : Flow) : (setFlow s t u f).lamp = s.lamp := rfl
@[simp] theorem setFlow_inc (s : State) (t u : Nat) (f : Flow) : (setFlow s t u f).inc = s.inc := rfl
@[simp] theorem setFlow_fields (s : State) (t u : Nat) (f : Flow) : (setFlow s t u f).fields = s.fields := rfl
@[simp] theorem setFlow_trace (s : State) (t u : Nat) (f : Flow) : (setFlow s t u f).trace = s.trace := rfl
@[simp] theorem setFlow_latch (s : State) (t u : Nat) (f : Flow) : (setFlow s t u f).latch = s.latch := rfl
@[simp] theorem setFlow_armed (s : State) (t u : Nat) (f : Flow) : (setFlow s t u f).armed = s.armed := rfl
@[simp] theorem setFlow_seg (s : State) (t u : Nat) (f : Flow) : (setFlow s t u f).seg = s.seg := rfl
@[simp] theorem setFlow_segKept (s : State) (t u : Nat) (f : Flow) : (setFlow s t u f).segKept = s.segKept := rfl
@[simp] theorem setFlow_dieFence (s : State) (t u : Nat) (f : Flow) : (setFlow s t u f).dieFence = s.dieFence := rfl
@[simp] theorem setFlow_hosts (s : State) (t u : Nat) (f : Flow) : (setFlow s t u f).hosts = s.hosts := rfl
@[simp] theorem setFlow_sem (s : State) (t u : Nat) (f : Flow) : (setFlow s t u f).sem = s.sem := rfl
@[simp] theorem setFlow_eng (s : State) (t u : Nat) (f : Flow) : (setFlow s t u f).eng = s.eng := rfl
@[simp] theorem setFlow_copies (s : State) (t u : Nat) (f : Flow) : (setFlow s t u f).copies = s.copies := rfl
@[simp] theorem setFlow_msds (s : State) (t u : Nat) (f : Flow) : (setFlow s t u f).msds = s.msds := rfl
@[simp] theorem setFlow_pds (s : State) (t u : Nat) (f : Flow) : (setFlow s t u f).pds = s.pds := rfl
@[simp] theorem setFlow_part (s : State) (t u : Nat) (f : Flow) : (setFlow s t u f).part = s.part := rfl
@[simp] theorem setFlow_boot (s : State) (t u : Nat) (f : Flow) : (setFlow s t u f).boot = s.boot := rfl
@[simp] theorem setFlow_fw (s : State) (t u : Nat) (f : Flow) : (setFlow s t u f).fw = s.fw := rfl
@[simp] theorem setFlow_snuff (s : State) (t u : Nat) (f : Flow) : (setFlow s t u f).snuff = s.snuff := rfl
@[simp] theorem setFlow_tc (s : State) (t u : Nat) (f : Flow) : (setFlow s t u f).tc = s.tc := rfl
@[simp] theorem setFlow_power (s : State) (t u : Nat) (f : Flow) : (setFlow s t u f).power = s.power := rfl
@[simp] theorem setFlow_mantle (s : State) (t u : Nat) (f : Flow) : (setFlow s t u f).mantle = s.mantle := rfl
@[simp] theorem setFlow_dies (s : State) (t u : Nat) (f : Flow) : (setFlow s t u f).dies = s.dies := rfl
@[simp] theorem setFlow_jsel (s : State) (t u : Nat) (f : Flow) : (setFlow s t u f).jsel = s.jsel := rfl
@[simp] theorem setFlow_island (s : State) (t u : Nat) (f : Flow) : (setFlow s t u f).island = s.island := rfl
@[simp] theorem setFlow_ans (s : State) (t u : Nat) (f : Flow) : (setFlow s t u f).ans = s.ans := rfl
@[simp] theorem setFlow_cdErr (s : State) (t u : Nat) (f : Flow) : (setFlow s t u f).cdErr = s.cdErr := rfl
@[simp] theorem setFlow_getWick (s : State) (t u : Nat) (f : Flow) (i0 i1 : Nat) : getWick (setFlow s t u f) i0 i1 = getWick s i0 i1 := rfl
@[simp] theorem setFlow_getCu (s : State) (t u : Nat) (f : Flow) (i0 i1 : Nat) : getCu (setFlow s t u f) i0 i1 = getCu s i0 i1 := rfl
@[simp] theorem setFlow_getMu (s : State) (t u : Nat) (f : Flow) (i0 i1 : Nat) : getMu (setFlow s t u f) i0 i1 = getMu s i0 i1 := rfl
@[simp] theorem setFlow_getTile (s : State) (t u : Nat) (f : Flow) (i0 : Nat) : getTile (setFlow s t u f) i0 = getTile s i0 := rfl
@[simp] theorem setFlow_getRegion (s : State) (t u : Nat) (f : Flow) (i0 : Nat) : getRegion (setFlow s t u f) i0 = getRegion s i0 := rfl
@[simp] theorem setFlow_getField (s : State) (t u : Nat) (f : Flow) (i0 : Nat) : getField (setFlow s t u f) i0 = getField s i0 := rfl
@[simp] theorem setFlow_getDie (s : State) (t u : Nat) (f : Flow) (i0 : Nat) : getDie (setFlow s t u f) i0 = getDie s i0 := rfl
@[simp] theorem setFlow_getHost (s : State) (t u : Nat) (f : Flow) (i0 : Nat) : getHost (setFlow s t u f) i0 = getHost s i0 := rfl
@[simp] theorem setFlow_getEng (s : State) (t u : Nat) (f : Flow) (i0 : Nat) : getEng (setFlow s t u f) i0 = getEng s i0 := rfl
@[simp] theorem setFlow_getMsd (s : State) (t u : Nat) (f : Flow) (i0 : Nat) : getMsd (setFlow s t u f) i0 = getMsd s i0 := rfl
@[simp] theorem setFlow_getPd (s : State) (t u : Nat) (f : Flow) (i0 : Nat) : getPd (setFlow s t u f) i0 = getPd s i0 := rfl
@[simp] theorem setFlow_getPacket (s : State) (t u : Nat) (f : Flow) (i0 : Nat) : getPacket (setFlow s t u f) i0 = getPacket s i0 := rfl
@[simp] theorem setFlow_getMb (s : State) (t u : Nat) (f : Flow) (i0 : Nat) : getMb (setFlow s t u f) i0 = getMb s i0 := rfl
@[simp] theorem setFlow_nowNs (s : State) (t u : Nat) (f : Flow) : nowNs (setFlow s t u f) = nowNs s := rfl
@[simp] theorem setFlow_nowPs (s : State) (t u : Nat) (f : Flow) : nowPs (setFlow s t u f) = nowPs s := rfl
@[simp] theorem setFlow_fenced (s : State) (t u : Nat) (f : Flow) (i0 : Nat) : fenced (setFlow s t u f) i0 = fenced s i0 := rfl
@[simp] theorem setFlow_getBank (s : State) (t u : Nat) (f : Flow) (i0 : Nat) : getBank (setFlow s t u f) i0 = getBank s i0 := rfl
@[simp] theorem setFlow_getBlade (s : State) (t u : Nat) (f : Flow) (i0 : Nat) : getBlade (setFlow s t u f) i0 = getBlade s i0 := rfl

@[simp] theorem modFlow_eq (s : State) (t u : Nat) (g : Flow → Flow) : modFlow s t u g = setFlow s t u (g (getFlow s t u)) := rfl

/-! ### setCu -/

@[simp] theorem setCu_pending (s : State) (t k : Nat) (c : Cu) : (setCu s t k c).pending = s.pending := rfl
@[simp] theorem setCu_time (s : State) (t k : Nat) (c : Cu) : (setCu s t k c).time = s.time := rfl
@[simp] theorem setCu_wicks (s : State) (t k : Nat) (c : Cu) : (setCu s t k c).wicks = s.wicks := rfl
@[simp] theorem setCu_flows (s : State) (t k : Nat) (c : Cu) : (setCu s t k c).flows = s.flows := rfl
@[simp] theorem setCu_mus (s : State) (t k : Nat) (c : Cu) : (setCu s t k c).mus = s.mus := rfl
@[simp] theorem setCu_tiles (s : State) (t k : Nat) (c : Cu) : (setCu s t k c).tiles = s.tiles := rfl
@[simp] theorem setCu_regions (s : State) (t k : Nat) (c : Cu) : (setCu s t k c).regions = s.regions := rfl
@[simp] theorem setCu_net (s : State) (t k : Nat) (c : Cu) : (setCu s t k c).net = s.net := rfl
@[simp] theorem setCu_lamp (s : State) (t k : Nat) (c : Cu) : (setCu s t k c).lamp = s.lamp := rfl
@[simp] theorem setCu_inc (s : State) (t k : Nat) (c : Cu) : (setCu s t k c).inc = s.inc := rfl
@[simp] theorem setCu_fields (s : State) (t k : Nat) (c : Cu) : (setCu s t k c).fields = s.fields := rfl
@[simp] theorem setCu_trace (s : State) (t k : Nat) (c : Cu) : (setCu s t k c).trace = s.trace := rfl
@[simp] theorem setCu_latch (s : State) (t k : Nat) (c : Cu) : (setCu s t k c).latch = s.latch := rfl
@[simp] theorem setCu_armed (s : State) (t k : Nat) (c : Cu) : (setCu s t k c).armed = s.armed := rfl
@[simp] theorem setCu_seg (s : State) (t k : Nat) (c : Cu) : (setCu s t k c).seg = s.seg := rfl
@[simp] theorem setCu_segKept (s : State) (t k : Nat) (c : Cu) : (setCu s t k c).segKept = s.segKept := rfl
@[simp] theorem setCu_dieFence (s : State) (t k : Nat) (c : Cu) : (setCu s t k c).dieFence = s.dieFence := rfl
@[simp] theorem setCu_hosts (s : State) (t k : Nat) (c : Cu) : (setCu s t k c).hosts = s.hosts := rfl
@[simp] theorem setCu_sem (s : State) (t k : Nat) (c : Cu) : (setCu s t k c).sem = s.sem := rfl
@[simp] theorem setCu_eng (s : State) (t k : Nat) (c : Cu) : (setCu s t k c).eng = s.eng := rfl
@[simp] theorem setCu_copies (s : State) (t k : Nat) (c : Cu) : (setCu s t k c).copies = s.copies := rfl
@[simp] theorem setCu_msds (s : State) (t k : Nat) (c : Cu) : (setCu s t k c).msds = s.msds := rfl
@[simp] theorem setCu_pds (s : State) (t k : Nat) (c : Cu) : (setCu s t k c).pds = s.pds := rfl
@[simp] theorem setCu_part (s : State) (t k : Nat) (c : Cu) : (setCu s t k c).part = s.part := rfl
@[simp] theorem setCu_boot (s : State) (t k : Nat) (c : Cu) : (setCu s t k c).boot = s.boot := rfl
@[simp] theorem setCu_fw (s : State) (t k : Nat) (c : Cu) : (setCu s t k c).fw = s.fw := rfl
@[simp] theorem setCu_snuff (s : State) (t k : Nat) (c : Cu) : (setCu s t k c).snuff = s.snuff := rfl
@[simp] theorem setCu_tc (s : State) (t k : Nat) (c : Cu) : (setCu s t k c).tc = s.tc := rfl
@[simp] theorem setCu_power (s : State) (t k : Nat) (c : Cu) : (setCu s t k c).power = s.power := rfl
@[simp] theorem setCu_mantle (s : State) (t k : Nat) (c : Cu) : (setCu s t k c).mantle = s.mantle := rfl
@[simp] theorem setCu_dies (s : State) (t k : Nat) (c : Cu) : (setCu s t k c).dies = s.dies := rfl
@[simp] theorem setCu_jsel (s : State) (t k : Nat) (c : Cu) : (setCu s t k c).jsel = s.jsel := rfl
@[simp] theorem setCu_island (s : State) (t k : Nat) (c : Cu) : (setCu s t k c).island = s.island := rfl
@[simp] theorem setCu_ans (s : State) (t k : Nat) (c : Cu) : (setCu s t k c).ans = s.ans := rfl
@[simp] theorem setCu_cdErr (s : State) (t k : Nat) (c : Cu) : (setCu s t k c).cdErr = s.cdErr := rfl
@[simp] theorem setCu_getWick (s : State) (t k : Nat) (c : Cu) (i0 i1 : Nat) : getWick (setCu s t k c) i0 i1 = getWick s i0 i1 := rfl
@[simp] theorem setCu_getFlow (s : State) (t k : Nat) (c : Cu) (i0 i1 : Nat) : getFlow (setCu s t k c) i0 i1 = getFlow s i0 i1 := rfl
@[simp] theorem setCu_getMu (s : State) (t k : Nat) (c : Cu) (i0 i1 : Nat) : getMu (setCu s t k c) i0 i1 = getMu s i0 i1 := rfl
@[simp] theorem setCu_getTile (s : State) (t k : Nat) (c : Cu) (i0 : Nat) : getTile (setCu s t k c) i0 = getTile s i0 := rfl
@[simp] theorem setCu_getRegion (s : State) (t k : Nat) (c : Cu) (i0 : Nat) : getRegion (setCu s t k c) i0 = getRegion s i0 := rfl
@[simp] theorem setCu_getField (s : State) (t k : Nat) (c : Cu) (i0 : Nat) : getField (setCu s t k c) i0 = getField s i0 := rfl
@[simp] theorem setCu_getDie (s : State) (t k : Nat) (c : Cu) (i0 : Nat) : getDie (setCu s t k c) i0 = getDie s i0 := rfl
@[simp] theorem setCu_getHost (s : State) (t k : Nat) (c : Cu) (i0 : Nat) : getHost (setCu s t k c) i0 = getHost s i0 := rfl
@[simp] theorem setCu_getEng (s : State) (t k : Nat) (c : Cu) (i0 : Nat) : getEng (setCu s t k c) i0 = getEng s i0 := rfl
@[simp] theorem setCu_getMsd (s : State) (t k : Nat) (c : Cu) (i0 : Nat) : getMsd (setCu s t k c) i0 = getMsd s i0 := rfl
@[simp] theorem setCu_getPd (s : State) (t k : Nat) (c : Cu) (i0 : Nat) : getPd (setCu s t k c) i0 = getPd s i0 := rfl
@[simp] theorem setCu_getPacket (s : State) (t k : Nat) (c : Cu) (i0 : Nat) : getPacket (setCu s t k c) i0 = getPacket s i0 := rfl
@[simp] theorem setCu_getMb (s : State) (t k : Nat) (c : Cu) (i0 : Nat) : getMb (setCu s t k c) i0 = getMb s i0 := rfl
@[simp] theorem setCu_nowNs (s : State) (t k : Nat) (c : Cu) : nowNs (setCu s t k c) = nowNs s := rfl
@[simp] theorem setCu_nowPs (s : State) (t k : Nat) (c : Cu) : nowPs (setCu s t k c) = nowPs s := rfl
@[simp] theorem setCu_fenced (s : State) (t k : Nat) (c : Cu) (i0 : Nat) : fenced (setCu s t k c) i0 = fenced s i0 := rfl
@[simp] theorem setCu_getBank (s : State) (t k : Nat) (c : Cu) (i0 : Nat) : getBank (setCu s t k c) i0 = getBank s i0 := rfl
@[simp] theorem setCu_getBlade (s : State) (t k : Nat) (c : Cu) (i0 : Nat) : getBlade (setCu s t k c) i0 = getBlade s i0 := rfl

@[simp] theorem modCu_eq (s : State) (t k : Nat) (f : Cu → Cu) : modCu s t k f = setCu s t k (f (getCu s t k)) := rfl

/-! ### setMu -/

@[simp] theorem setMu_pending (s : State) (t k : Nat) (m : Mu) : (setMu s t k m).pending = s.pending := rfl
@[simp] theorem setMu_time (s : State) (t k : Nat) (m : Mu) : (setMu s t k m).time = s.time := rfl
@[simp] theorem setMu_wicks (s : State) (t k : Nat) (m : Mu) : (setMu s t k m).wicks = s.wicks := rfl
@[simp] theorem setMu_flows (s : State) (t k : Nat) (m : Mu) : (setMu s t k m).flows = s.flows := rfl
@[simp] theorem setMu_cus (s : State) (t k : Nat) (m : Mu) : (setMu s t k m).cus = s.cus := rfl
@[simp] theorem setMu_tiles (s : State) (t k : Nat) (m : Mu) : (setMu s t k m).tiles = s.tiles := rfl
@[simp] theorem setMu_regions (s : State) (t k : Nat) (m : Mu) : (setMu s t k m).regions = s.regions := rfl
@[simp] theorem setMu_net (s : State) (t k : Nat) (m : Mu) : (setMu s t k m).net = s.net := rfl
@[simp] theorem setMu_lamp (s : State) (t k : Nat) (m : Mu) : (setMu s t k m).lamp = s.lamp := rfl
@[simp] theorem setMu_inc (s : State) (t k : Nat) (m : Mu) : (setMu s t k m).inc = s.inc := rfl
@[simp] theorem setMu_fields (s : State) (t k : Nat) (m : Mu) : (setMu s t k m).fields = s.fields := rfl
@[simp] theorem setMu_trace (s : State) (t k : Nat) (m : Mu) : (setMu s t k m).trace = s.trace := rfl
@[simp] theorem setMu_latch (s : State) (t k : Nat) (m : Mu) : (setMu s t k m).latch = s.latch := rfl
@[simp] theorem setMu_armed (s : State) (t k : Nat) (m : Mu) : (setMu s t k m).armed = s.armed := rfl
@[simp] theorem setMu_seg (s : State) (t k : Nat) (m : Mu) : (setMu s t k m).seg = s.seg := rfl
@[simp] theorem setMu_segKept (s : State) (t k : Nat) (m : Mu) : (setMu s t k m).segKept = s.segKept := rfl
@[simp] theorem setMu_dieFence (s : State) (t k : Nat) (m : Mu) : (setMu s t k m).dieFence = s.dieFence := rfl
@[simp] theorem setMu_hosts (s : State) (t k : Nat) (m : Mu) : (setMu s t k m).hosts = s.hosts := rfl
@[simp] theorem setMu_sem (s : State) (t k : Nat) (m : Mu) : (setMu s t k m).sem = s.sem := rfl
@[simp] theorem setMu_eng (s : State) (t k : Nat) (m : Mu) : (setMu s t k m).eng = s.eng := rfl
@[simp] theorem setMu_copies (s : State) (t k : Nat) (m : Mu) : (setMu s t k m).copies = s.copies := rfl
@[simp] theorem setMu_msds (s : State) (t k : Nat) (m : Mu) : (setMu s t k m).msds = s.msds := rfl
@[simp] theorem setMu_pds (s : State) (t k : Nat) (m : Mu) : (setMu s t k m).pds = s.pds := rfl
@[simp] theorem setMu_part (s : State) (t k : Nat) (m : Mu) : (setMu s t k m).part = s.part := rfl
@[simp] theorem setMu_boot (s : State) (t k : Nat) (m : Mu) : (setMu s t k m).boot = s.boot := rfl
@[simp] theorem setMu_fw (s : State) (t k : Nat) (m : Mu) : (setMu s t k m).fw = s.fw := rfl
@[simp] theorem setMu_snuff (s : State) (t k : Nat) (m : Mu) : (setMu s t k m).snuff = s.snuff := rfl
@[simp] theorem setMu_tc (s : State) (t k : Nat) (m : Mu) : (setMu s t k m).tc = s.tc := rfl
@[simp] theorem setMu_power (s : State) (t k : Nat) (m : Mu) : (setMu s t k m).power = s.power := rfl
@[simp] theorem setMu_mantle (s : State) (t k : Nat) (m : Mu) : (setMu s t k m).mantle = s.mantle := rfl
@[simp] theorem setMu_dies (s : State) (t k : Nat) (m : Mu) : (setMu s t k m).dies = s.dies := rfl
@[simp] theorem setMu_jsel (s : State) (t k : Nat) (m : Mu) : (setMu s t k m).jsel = s.jsel := rfl
@[simp] theorem setMu_island (s : State) (t k : Nat) (m : Mu) : (setMu s t k m).island = s.island := rfl
@[simp] theorem setMu_ans (s : State) (t k : Nat) (m : Mu) : (setMu s t k m).ans = s.ans := rfl
@[simp] theorem setMu_cdErr (s : State) (t k : Nat) (m : Mu) : (setMu s t k m).cdErr = s.cdErr := rfl
@[simp] theorem setMu_getWick (s : State) (t k : Nat) (m : Mu) (i0 i1 : Nat) : getWick (setMu s t k m) i0 i1 = getWick s i0 i1 := rfl
@[simp] theorem setMu_getFlow (s : State) (t k : Nat) (m : Mu) (i0 i1 : Nat) : getFlow (setMu s t k m) i0 i1 = getFlow s i0 i1 := rfl
@[simp] theorem setMu_getCu (s : State) (t k : Nat) (m : Mu) (i0 i1 : Nat) : getCu (setMu s t k m) i0 i1 = getCu s i0 i1 := rfl
@[simp] theorem setMu_getTile (s : State) (t k : Nat) (m : Mu) (i0 : Nat) : getTile (setMu s t k m) i0 = getTile s i0 := rfl
@[simp] theorem setMu_getRegion (s : State) (t k : Nat) (m : Mu) (i0 : Nat) : getRegion (setMu s t k m) i0 = getRegion s i0 := rfl
@[simp] theorem setMu_getField (s : State) (t k : Nat) (m : Mu) (i0 : Nat) : getField (setMu s t k m) i0 = getField s i0 := rfl
@[simp] theorem setMu_getDie (s : State) (t k : Nat) (m : Mu) (i0 : Nat) : getDie (setMu s t k m) i0 = getDie s i0 := rfl
@[simp] theorem setMu_getHost (s : State) (t k : Nat) (m : Mu) (i0 : Nat) : getHost (setMu s t k m) i0 = getHost s i0 := rfl
@[simp] theorem setMu_getEng (s : State) (t k : Nat) (m : Mu) (i0 : Nat) : getEng (setMu s t k m) i0 = getEng s i0 := rfl
@[simp] theorem setMu_getMsd (s : State) (t k : Nat) (m : Mu) (i0 : Nat) : getMsd (setMu s t k m) i0 = getMsd s i0 := rfl
@[simp] theorem setMu_getPd (s : State) (t k : Nat) (m : Mu) (i0 : Nat) : getPd (setMu s t k m) i0 = getPd s i0 := rfl
@[simp] theorem setMu_getPacket (s : State) (t k : Nat) (m : Mu) (i0 : Nat) : getPacket (setMu s t k m) i0 = getPacket s i0 := rfl
@[simp] theorem setMu_getMb (s : State) (t k : Nat) (m : Mu) (i0 : Nat) : getMb (setMu s t k m) i0 = getMb s i0 := rfl
@[simp] theorem setMu_nowNs (s : State) (t k : Nat) (m : Mu) : nowNs (setMu s t k m) = nowNs s := rfl
@[simp] theorem setMu_nowPs (s : State) (t k : Nat) (m : Mu) : nowPs (setMu s t k m) = nowPs s := rfl
@[simp] theorem setMu_fenced (s : State) (t k : Nat) (m : Mu) (i0 : Nat) : fenced (setMu s t k m) i0 = fenced s i0 := rfl
@[simp] theorem setMu_getBank (s : State) (t k : Nat) (m : Mu) (i0 : Nat) : getBank (setMu s t k m) i0 = getBank s i0 := rfl
@[simp] theorem setMu_getBlade (s : State) (t k : Nat) (m : Mu) (i0 : Nat) : getBlade (setMu s t k m) i0 = getBlade s i0 := rfl

@[simp] theorem modMu_eq (s : State) (t k : Nat) (f : Mu → Mu) : modMu s t k f = setMu s t k (f (getMu s t k)) := rfl

/-! ### setTile -/

@[simp] theorem setTile_pending (s : State) (t : Nat) (x : Tile) : (setTile s t x).pending = s.pending := rfl
@[simp] theorem setTile_time (s : State) (t : Nat) (x : Tile) : (setTile s t x).time = s.time := rfl
@[simp] theorem setTile_wicks (s : State) (t : Nat) (x : Tile) : (setTile s t x).wicks = s.wicks := rfl
@[simp] theorem setTile_flows (s : State) (t : Nat) (x : Tile) : (setTile s t x).flows = s.flows := rfl
@[simp] theorem setTile_cus (s : State) (t : Nat) (x : Tile) : (setTile s t x).cus = s.cus := rfl
@[simp] theorem setTile_mus (s : State) (t : Nat) (x : Tile) : (setTile s t x).mus = s.mus := rfl
@[simp] theorem setTile_regions (s : State) (t : Nat) (x : Tile) : (setTile s t x).regions = s.regions := rfl
@[simp] theorem setTile_net (s : State) (t : Nat) (x : Tile) : (setTile s t x).net = s.net := rfl
@[simp] theorem setTile_lamp (s : State) (t : Nat) (x : Tile) : (setTile s t x).lamp = s.lamp := rfl
@[simp] theorem setTile_inc (s : State) (t : Nat) (x : Tile) : (setTile s t x).inc = s.inc := rfl
@[simp] theorem setTile_fields (s : State) (t : Nat) (x : Tile) : (setTile s t x).fields = s.fields := rfl
@[simp] theorem setTile_trace (s : State) (t : Nat) (x : Tile) : (setTile s t x).trace = s.trace := rfl
@[simp] theorem setTile_latch (s : State) (t : Nat) (x : Tile) : (setTile s t x).latch = s.latch := rfl
@[simp] theorem setTile_armed (s : State) (t : Nat) (x : Tile) : (setTile s t x).armed = s.armed := rfl
@[simp] theorem setTile_seg (s : State) (t : Nat) (x : Tile) : (setTile s t x).seg = s.seg := rfl
@[simp] theorem setTile_segKept (s : State) (t : Nat) (x : Tile) : (setTile s t x).segKept = s.segKept := rfl
@[simp] theorem setTile_dieFence (s : State) (t : Nat) (x : Tile) : (setTile s t x).dieFence = s.dieFence := rfl
@[simp] theorem setTile_hosts (s : State) (t : Nat) (x : Tile) : (setTile s t x).hosts = s.hosts := rfl
@[simp] theorem setTile_sem (s : State) (t : Nat) (x : Tile) : (setTile s t x).sem = s.sem := rfl
@[simp] theorem setTile_eng (s : State) (t : Nat) (x : Tile) : (setTile s t x).eng = s.eng := rfl
@[simp] theorem setTile_copies (s : State) (t : Nat) (x : Tile) : (setTile s t x).copies = s.copies := rfl
@[simp] theorem setTile_msds (s : State) (t : Nat) (x : Tile) : (setTile s t x).msds = s.msds := rfl
@[simp] theorem setTile_pds (s : State) (t : Nat) (x : Tile) : (setTile s t x).pds = s.pds := rfl
@[simp] theorem setTile_part (s : State) (t : Nat) (x : Tile) : (setTile s t x).part = s.part := rfl
@[simp] theorem setTile_boot (s : State) (t : Nat) (x : Tile) : (setTile s t x).boot = s.boot := rfl
@[simp] theorem setTile_fw (s : State) (t : Nat) (x : Tile) : (setTile s t x).fw = s.fw := rfl
@[simp] theorem setTile_snuff (s : State) (t : Nat) (x : Tile) : (setTile s t x).snuff = s.snuff := rfl
@[simp] theorem setTile_tc (s : State) (t : Nat) (x : Tile) : (setTile s t x).tc = s.tc := rfl
@[simp] theorem setTile_power (s : State) (t : Nat) (x : Tile) : (setTile s t x).power = s.power := rfl
@[simp] theorem setTile_mantle (s : State) (t : Nat) (x : Tile) : (setTile s t x).mantle = s.mantle := rfl
@[simp] theorem setTile_dies (s : State) (t : Nat) (x : Tile) : (setTile s t x).dies = s.dies := rfl
@[simp] theorem setTile_jsel (s : State) (t : Nat) (x : Tile) : (setTile s t x).jsel = s.jsel := rfl
@[simp] theorem setTile_island (s : State) (t : Nat) (x : Tile) : (setTile s t x).island = s.island := rfl
@[simp] theorem setTile_ans (s : State) (t : Nat) (x : Tile) : (setTile s t x).ans = s.ans := rfl
@[simp] theorem setTile_cdErr (s : State) (t : Nat) (x : Tile) : (setTile s t x).cdErr = s.cdErr := rfl
@[simp] theorem setTile_getWick (s : State) (t : Nat) (x : Tile) (i0 i1 : Nat) : getWick (setTile s t x) i0 i1 = getWick s i0 i1 := rfl
@[simp] theorem setTile_getFlow (s : State) (t : Nat) (x : Tile) (i0 i1 : Nat) : getFlow (setTile s t x) i0 i1 = getFlow s i0 i1 := rfl
@[simp] theorem setTile_getCu (s : State) (t : Nat) (x : Tile) (i0 i1 : Nat) : getCu (setTile s t x) i0 i1 = getCu s i0 i1 := rfl
@[simp] theorem setTile_getMu (s : State) (t : Nat) (x : Tile) (i0 i1 : Nat) : getMu (setTile s t x) i0 i1 = getMu s i0 i1 := rfl
@[simp] theorem setTile_getRegion (s : State) (t : Nat) (x : Tile) (i0 : Nat) : getRegion (setTile s t x) i0 = getRegion s i0 := rfl
@[simp] theorem setTile_getField (s : State) (t : Nat) (x : Tile) (i0 : Nat) : getField (setTile s t x) i0 = getField s i0 := rfl
@[simp] theorem setTile_getDie (s : State) (t : Nat) (x : Tile) (i0 : Nat) : getDie (setTile s t x) i0 = getDie s i0 := rfl
@[simp] theorem setTile_getHost (s : State) (t : Nat) (x : Tile) (i0 : Nat) : getHost (setTile s t x) i0 = getHost s i0 := rfl
@[simp] theorem setTile_getEng (s : State) (t : Nat) (x : Tile) (i0 : Nat) : getEng (setTile s t x) i0 = getEng s i0 := rfl
@[simp] theorem setTile_getMsd (s : State) (t : Nat) (x : Tile) (i0 : Nat) : getMsd (setTile s t x) i0 = getMsd s i0 := rfl
@[simp] theorem setTile_getPd (s : State) (t : Nat) (x : Tile) (i0 : Nat) : getPd (setTile s t x) i0 = getPd s i0 := rfl
@[simp] theorem setTile_getPacket (s : State) (t : Nat) (x : Tile) (i0 : Nat) : getPacket (setTile s t x) i0 = getPacket s i0 := rfl
@[simp] theorem setTile_getMb (s : State) (t : Nat) (x : Tile) (i0 : Nat) : getMb (setTile s t x) i0 = getMb s i0 := rfl
@[simp] theorem setTile_nowNs (s : State) (t : Nat) (x : Tile) : nowNs (setTile s t x) = nowNs s := rfl
@[simp] theorem setTile_nowPs (s : State) (t : Nat) (x : Tile) : nowPs (setTile s t x) = nowPs s := rfl
@[simp] theorem setTile_getBank (s : State) (t : Nat) (x : Tile) (i0 : Nat) : getBank (setTile s t x) i0 = getBank s i0 := rfl
@[simp] theorem setTile_getBlade (s : State) (t : Nat) (x : Tile) (i0 : Nat) : getBlade (setTile s t x) i0 = getBlade s i0 := rfl

@[simp] theorem modTile_eq (s : State) (t : Nat) (f : Tile → Tile) : modTile s t f = setTile s t (f (getTile s t)) := rfl

/-! ### fenceTile -/

@[simp] theorem fenceTile_pending (s : State) (t : Nat) (on : Bool) (cause : Nat) : (fenceTile s t on cause).pending = s.pending := rfl
@[simp] theorem fenceTile_time (s : State) (t : Nat) (on : Bool) (cause : Nat) : (fenceTile s t on cause).time = s.time := rfl
@[simp] theorem fenceTile_wicks (s : State) (t : Nat) (on : Bool) (cause : Nat) : (fenceTile s t on cause).wicks = s.wicks := rfl
@[simp] theorem fenceTile_flows (s : State) (t : Nat) (on : Bool) (cause : Nat) : (fenceTile s t on cause).flows = s.flows := rfl
@[simp] theorem fenceTile_cus (s : State) (t : Nat) (on : Bool) (cause : Nat) : (fenceTile s t on cause).cus = s.cus := rfl
@[simp] theorem fenceTile_mus (s : State) (t : Nat) (on : Bool) (cause : Nat) : (fenceTile s t on cause).mus = s.mus := rfl
@[simp] theorem fenceTile_regions (s : State) (t : Nat) (on : Bool) (cause : Nat) : (fenceTile s t on cause).regions = s.regions := rfl
@[simp] theorem fenceTile_net (s : State) (t : Nat) (on : Bool) (cause : Nat) : (fenceTile s t on cause).net = s.net := rfl
@[simp] theorem fenceTile_lamp (s : State) (t : Nat) (on : Bool) (cause : Nat) : (fenceTile s t on cause).lamp = s.lamp := rfl
@[simp] theorem fenceTile_inc (s : State) (t : Nat) (on : Bool) (cause : Nat) : (fenceTile s t on cause).inc = s.inc := rfl
@[simp] theorem fenceTile_fields (s : State) (t : Nat) (on : Bool) (cause : Nat) : (fenceTile s t on cause).fields = s.fields := rfl
@[simp] theorem fenceTile_trace (s : State) (t : Nat) (on : Bool) (cause : Nat) : (fenceTile s t on cause).trace = s.trace := rfl
@[simp] theorem fenceTile_latch (s : State) (t : Nat) (on : Bool) (cause : Nat) : (fenceTile s t on cause).latch = s.latch := rfl
@[simp] theorem fenceTile_armed (s : State) (t : Nat) (on : Bool) (cause : Nat) : (fenceTile s t on cause).armed = s.armed := rfl
@[simp] theorem fenceTile_seg (s : State) (t : Nat) (on : Bool) (cause : Nat) : (fenceTile s t on cause).seg = s.seg := rfl
@[simp] theorem fenceTile_segKept (s : State) (t : Nat) (on : Bool) (cause : Nat) : (fenceTile s t on cause).segKept = s.segKept := rfl
@[simp] theorem fenceTile_dieFence (s : State) (t : Nat) (on : Bool) (cause : Nat) : (fenceTile s t on cause).dieFence = s.dieFence := rfl
@[simp] theorem fenceTile_hosts (s : State) (t : Nat) (on : Bool) (cause : Nat) : (fenceTile s t on cause).hosts = s.hosts := rfl
@[simp] theorem fenceTile_sem (s : State) (t : Nat) (on : Bool) (cause : Nat) : (fenceTile s t on cause).sem = s.sem := rfl
@[simp] theorem fenceTile_eng (s : State) (t : Nat) (on : Bool) (cause : Nat) : (fenceTile s t on cause).eng = s.eng := rfl
@[simp] theorem fenceTile_copies (s : State) (t : Nat) (on : Bool) (cause : Nat) : (fenceTile s t on cause).copies = s.copies := rfl
@[simp] theorem fenceTile_msds (s : State) (t : Nat) (on : Bool) (cause : Nat) : (fenceTile s t on cause).msds = s.msds := rfl
@[simp] theorem fenceTile_pds (s : State) (t : Nat) (on : Bool) (cause : Nat) : (fenceTile s t on cause).pds = s.pds := rfl
@[simp] theorem fenceTile_part (s : State) (t : Nat) (on : Bool) (cause : Nat) : (fenceTile s t on cause).part = s.part := rfl
@[simp] theorem fenceTile_boot (s : State) (t : Nat) (on : Bool) (cause : Nat) : (fenceTile s t on cause).boot = s.boot := rfl
@[simp] theorem fenceTile_fw (s : State) (t : Nat) (on : Bool) (cause : Nat) : (fenceTile s t on cause).fw = s.fw := rfl
@[simp] theorem fenceTile_snuff (s : State) (t : Nat) (on : Bool) (cause : Nat) : (fenceTile s t on cause).snuff = s.snuff := rfl
@[simp] theorem fenceTile_tc (s : State) (t : Nat) (on : Bool) (cause : Nat) : (fenceTile s t on cause).tc = s.tc := rfl
@[simp] theorem fenceTile_power (s : State) (t : Nat) (on : Bool) (cause : Nat) : (fenceTile s t on cause).power = s.power := rfl
@[simp] theorem fenceTile_mantle (s : State) (t : Nat) (on : Bool) (cause : Nat) : (fenceTile s t on cause).mantle = s.mantle := rfl
@[simp] theorem fenceTile_dies (s : State) (t : Nat) (on : Bool) (cause : Nat) : (fenceTile s t on cause).dies = s.dies := rfl
@[simp] theorem fenceTile_jsel (s : State) (t : Nat) (on : Bool) (cause : Nat) : (fenceTile s t on cause).jsel = s.jsel := rfl
@[simp] theorem fenceTile_island (s : State) (t : Nat) (on : Bool) (cause : Nat) : (fenceTile s t on cause).island = s.island := rfl
@[simp] theorem fenceTile_ans (s : State) (t : Nat) (on : Bool) (cause : Nat) : (fenceTile s t on cause).ans = s.ans := rfl
@[simp] theorem fenceTile_cdErr (s : State) (t : Nat) (on : Bool) (cause : Nat) : (fenceTile s t on cause).cdErr = s.cdErr := rfl
@[simp] theorem fenceTile_getWick (s : State) (t : Nat) (on : Bool) (cause : Nat) (i0 i1 : Nat) : getWick (fenceTile s t on cause) i0 i1 = getWick s i0 i1 := rfl
@[simp] theorem fenceTile_getFlow (s : State) (t : Nat) (on : Bool) (cause : Nat) (i0 i1 : Nat) : getFlow (fenceTile s t on cause) i0 i1 = getFlow s i0 i1 := rfl
@[simp] theorem fenceTile_getCu (s : State) (t : Nat) (on : Bool) (cause : Nat) (i0 i1 : Nat) : getCu (fenceTile s t on cause) i0 i1 = getCu s i0 i1 := rfl
@[simp] theorem fenceTile_getMu (s : State) (t : Nat) (on : Bool) (cause : Nat) (i0 i1 : Nat) : getMu (fenceTile s t on cause) i0 i1 = getMu s i0 i1 := rfl
@[simp] theorem fenceTile_getRegion (s : State) (t : Nat) (on : Bool) (cause : Nat) (i0 : Nat) : getRegion (fenceTile s t on cause) i0 = getRegion s i0 := rfl
@[simp] theorem fenceTile_getField (s : State) (t : Nat) (on : Bool) (cause : Nat) (i0 : Nat) : getField (fenceTile s t on cause) i0 = getField s i0 := rfl
@[simp] theorem fenceTile_getDie (s : State) (t : Nat) (on : Bool) (cause : Nat) (i0 : Nat) : getDie (fenceTile s t on cause) i0 = getDie s i0 := rfl
@[simp] theorem fenceTile_getHost (s : State) (t : Nat) (on : Bool) (cause : Nat) (i0 : Nat) : getHost (fenceTile s t on cause) i0 = getHost s i0 := rfl
@[simp] theorem fenceTile_getEng (s : State) (t : Nat) (on : Bool) (cause : Nat) (i0 : Nat) : getEng (fenceTile s t on cause) i0 = getEng s i0 := rfl
@[simp] theorem fenceTile_getMsd (s : State) (t : Nat) (on : Bool) (cause : Nat) (i0 : Nat) : getMsd (fenceTile s t on cause) i0 = getMsd s i0 := rfl
@[simp] theorem fenceTile_getPd (s : State) (t : Nat) (on : Bool) (cause : Nat) (i0 : Nat) : getPd (fenceTile s t on cause) i0 = getPd s i0 := rfl
@[simp] theorem fenceTile_getPacket (s : State) (t : Nat) (on : Bool) (cause : Nat) (i0 : Nat) : getPacket (fenceTile s t on cause) i0 = getPacket s i0 := rfl
@[simp] theorem fenceTile_getMb (s : State) (t : Nat) (on : Bool) (cause : Nat) (i0 : Nat) : getMb (fenceTile s t on cause) i0 = getMb s i0 := rfl
@[simp] theorem fenceTile_nowNs (s : State) (t : Nat) (on : Bool) (cause : Nat) : nowNs (fenceTile s t on cause) = nowNs s := rfl
@[simp] theorem fenceTile_nowPs (s : State) (t : Nat) (on : Bool) (cause : Nat) : nowPs (fenceTile s t on cause) = nowPs s := rfl
@[simp] theorem fenceTile_getBank (s : State) (t : Nat) (on : Bool) (cause : Nat) (i0 : Nat) : getBank (fenceTile s t on cause) i0 = getBank s i0 := rfl
@[simp] theorem fenceTile_getBlade (s : State) (t : Nat) (on : Bool) (cause : Nat) (i0 : Nat) : getBlade (fenceTile s t on cause) i0 = getBlade s i0 := rfl

/-! ### setRegion -/

@[simp] theorem setRegion_pending (s : State) (r : Nat) (x : Region) : (setRegion s r x).pending = s.pending := rfl
@[simp] theorem setRegion_time (s : State) (r : Nat) (x : Region) : (setRegion s r x).time = s.time := rfl
@[simp] theorem setRegion_wicks (s : State) (r : Nat) (x : Region) : (setRegion s r x).wicks = s.wicks := rfl
@[simp] theorem setRegion_flows (s : State) (r : Nat) (x : Region) : (setRegion s r x).flows = s.flows := rfl
@[simp] theorem setRegion_cus (s : State) (r : Nat) (x : Region) : (setRegion s r x).cus = s.cus := rfl
@[simp] theorem setRegion_mus (s : State) (r : Nat) (x : Region) : (setRegion s r x).mus = s.mus := rfl
@[simp] theorem setRegion_tiles (s : State) (r : Nat) (x : Region) : (setRegion s r x).tiles = s.tiles := rfl
@[simp] theorem setRegion_net (s : State) (r : Nat) (x : Region) : (setRegion s r x).net = s.net := rfl
@[simp] theorem setRegion_lamp (s : State) (r : Nat) (x : Region) : (setRegion s r x).lamp = s.lamp := rfl
@[simp] theorem setRegion_inc (s : State) (r : Nat) (x : Region) : (setRegion s r x).inc = s.inc := rfl
@[simp] theorem setRegion_fields (s : State) (r : Nat) (x : Region) : (setRegion s r x).fields = s.fields := rfl
@[simp] theorem setRegion_trace (s : State) (r : Nat) (x : Region) : (setRegion s r x).trace = s.trace := rfl
@[simp] theorem setRegion_latch (s : State) (r : Nat) (x : Region) : (setRegion s r x).latch = s.latch := rfl
@[simp] theorem setRegion_armed (s : State) (r : Nat) (x : Region) : (setRegion s r x).armed = s.armed := rfl
@[simp] theorem setRegion_seg (s : State) (r : Nat) (x : Region) : (setRegion s r x).seg = s.seg := rfl
@[simp] theorem setRegion_segKept (s : State) (r : Nat) (x : Region) : (setRegion s r x).segKept = s.segKept := rfl
@[simp] theorem setRegion_dieFence (s : State) (r : Nat) (x : Region) : (setRegion s r x).dieFence = s.dieFence := rfl
@[simp] theorem setRegion_hosts (s : State) (r : Nat) (x : Region) : (setRegion s r x).hosts = s.hosts := rfl
@[simp] theorem setRegion_sem (s : State) (r : Nat) (x : Region) : (setRegion s r x).sem = s.sem := rfl
@[simp] theorem setRegion_eng (s : State) (r : Nat) (x : Region) : (setRegion s r x).eng = s.eng := rfl
@[simp] theorem setRegion_copies (s : State) (r : Nat) (x : Region) : (setRegion s r x).copies = s.copies := rfl
@[simp] theorem setRegion_msds (s : State) (r : Nat) (x : Region) : (setRegion s r x).msds = s.msds := rfl
@[simp] theorem setRegion_pds (s : State) (r : Nat) (x : Region) : (setRegion s r x).pds = s.pds := rfl
@[simp] theorem setRegion_part (s : State) (r : Nat) (x : Region) : (setRegion s r x).part = s.part := rfl
@[simp] theorem setRegion_boot (s : State) (r : Nat) (x : Region) : (setRegion s r x).boot = s.boot := rfl
@[simp] theorem setRegion_fw (s : State) (r : Nat) (x : Region) : (setRegion s r x).fw = s.fw := rfl
@[simp] theorem setRegion_snuff (s : State) (r : Nat) (x : Region) : (setRegion s r x).snuff = s.snuff := rfl
@[simp] theorem setRegion_tc (s : State) (r : Nat) (x : Region) : (setRegion s r x).tc = s.tc := rfl
@[simp] theorem setRegion_power (s : State) (r : Nat) (x : Region) : (setRegion s r x).power = s.power := rfl
@[simp] theorem setRegion_mantle (s : State) (r : Nat) (x : Region) : (setRegion s r x).mantle = s.mantle := rfl
@[simp] theorem setRegion_dies (s : State) (r : Nat) (x : Region) : (setRegion s r x).dies = s.dies := rfl
@[simp] theorem setRegion_jsel (s : State) (r : Nat) (x : Region) : (setRegion s r x).jsel = s.jsel := rfl
@[simp] theorem setRegion_island (s : State) (r : Nat) (x : Region) : (setRegion s r x).island = s.island := rfl
@[simp] theorem setRegion_ans (s : State) (r : Nat) (x : Region) : (setRegion s r x).ans = s.ans := rfl
@[simp] theorem setRegion_cdErr (s : State) (r : Nat) (x : Region) : (setRegion s r x).cdErr = s.cdErr := rfl
@[simp] theorem setRegion_getWick (s : State) (r : Nat) (x : Region) (i0 i1 : Nat) : getWick (setRegion s r x) i0 i1 = getWick s i0 i1 := rfl
@[simp] theorem setRegion_getFlow (s : State) (r : Nat) (x : Region) (i0 i1 : Nat) : getFlow (setRegion s r x) i0 i1 = getFlow s i0 i1 := rfl
@[simp] theorem setRegion_getCu (s : State) (r : Nat) (x : Region) (i0 i1 : Nat) : getCu (setRegion s r x) i0 i1 = getCu s i0 i1 := rfl
@[simp] theorem setRegion_getMu (s : State) (r : Nat) (x : Region) (i0 i1 : Nat) : getMu (setRegion s r x) i0 i1 = getMu s i0 i1 := rfl
@[simp] theorem setRegion_getTile (s : State) (r : Nat) (x : Region) (i0 : Nat) : getTile (setRegion s r x) i0 = getTile s i0 := rfl
@[simp] theorem setRegion_getField (s : State) (r : Nat) (x : Region) (i0 : Nat) : getField (setRegion s r x) i0 = getField s i0 := rfl
@[simp] theorem setRegion_getDie (s : State) (r : Nat) (x : Region) (i0 : Nat) : getDie (setRegion s r x) i0 = getDie s i0 := rfl
@[simp] theorem setRegion_getHost (s : State) (r : Nat) (x : Region) (i0 : Nat) : getHost (setRegion s r x) i0 = getHost s i0 := rfl
@[simp] theorem setRegion_getEng (s : State) (r : Nat) (x : Region) (i0 : Nat) : getEng (setRegion s r x) i0 = getEng s i0 := rfl
@[simp] theorem setRegion_getMsd (s : State) (r : Nat) (x : Region) (i0 : Nat) : getMsd (setRegion s r x) i0 = getMsd s i0 := rfl
@[simp] theorem setRegion_getPd (s : State) (r : Nat) (x : Region) (i0 : Nat) : getPd (setRegion s r x) i0 = getPd s i0 := rfl
@[simp] theorem setRegion_getPacket (s : State) (r : Nat) (x : Region) (i0 : Nat) : getPacket (setRegion s r x) i0 = getPacket s i0 := rfl
@[simp] theorem setRegion_getMb (s : State) (r : Nat) (x : Region) (i0 : Nat) : getMb (setRegion s r x) i0 = getMb s i0 := rfl
@[simp] theorem setRegion_nowNs (s : State) (r : Nat) (x : Region) : nowNs (setRegion s r x) = nowNs s := rfl
@[simp] theorem setRegion_nowPs (s : State) (r : Nat) (x : Region) : nowPs (setRegion s r x) = nowPs s := rfl
@[simp] theorem setRegion_fenced (s : State) (r : Nat) (x : Region) (i0 : Nat) : fenced (setRegion s r x) i0 = fenced s i0 := rfl
@[simp] theorem setRegion_getBank (s : State) (r : Nat) (x : Region) (i0 : Nat) : getBank (setRegion s r x) i0 = getBank s i0 := rfl
@[simp] theorem setRegion_getBlade (s : State) (r : Nat) (x : Region) (i0 : Nat) : getBlade (setRegion s r x) i0 = getBlade s i0 := rfl

@[simp] theorem modRegion_eq (s : State) (r : Nat) (f : Region → Region) : modRegion s r f = setRegion s r (f (getRegion s r)) := rfl

/-! ### setField -/

@[simp] theorem setField_pending (s : State) (f : Nat) (x : FieldSt) : (setField s f x).pending = s.pending := rfl
@[simp] theorem setField_time (s : State) (f : Nat) (x : FieldSt) : (setField s f x).time = s.time := rfl
@[simp] theorem setField_wicks (s : State) (f : Nat) (x : FieldSt) : (setField s f x).wicks = s.wicks := rfl
@[simp] theorem setField_flows (s : State) (f : Nat) (x : FieldSt) : (setField s f x).flows = s.flows := rfl
@[simp] theorem setField_cus (s : State) (f : Nat) (x : FieldSt) : (setField s f x).cus = s.cus := rfl
@[simp] theorem setField_mus (s : State) (f : Nat) (x : FieldSt) : (setField s f x).mus = s.mus := rfl
@[simp] theorem setField_tiles (s : State) (f : Nat) (x : FieldSt) : (setField s f x).tiles = s.tiles := rfl
@[simp] theorem setField_regions (s : State) (f : Nat) (x : FieldSt) : (setField s f x).regions = s.regions := rfl
@[simp] theorem setField_net (s : State) (f : Nat) (x : FieldSt) : (setField s f x).net = s.net := rfl
@[simp] theorem setField_lamp (s : State) (f : Nat) (x : FieldSt) : (setField s f x).lamp = s.lamp := rfl
@[simp] theorem setField_inc (s : State) (f : Nat) (x : FieldSt) : (setField s f x).inc = s.inc := rfl
@[simp] theorem setField_trace (s : State) (f : Nat) (x : FieldSt) : (setField s f x).trace = s.trace := rfl
@[simp] theorem setField_latch (s : State) (f : Nat) (x : FieldSt) : (setField s f x).latch = s.latch := rfl
@[simp] theorem setField_armed (s : State) (f : Nat) (x : FieldSt) : (setField s f x).armed = s.armed := rfl
@[simp] theorem setField_seg (s : State) (f : Nat) (x : FieldSt) : (setField s f x).seg = s.seg := rfl
@[simp] theorem setField_segKept (s : State) (f : Nat) (x : FieldSt) : (setField s f x).segKept = s.segKept := rfl
@[simp] theorem setField_dieFence (s : State) (f : Nat) (x : FieldSt) : (setField s f x).dieFence = s.dieFence := rfl
@[simp] theorem setField_hosts (s : State) (f : Nat) (x : FieldSt) : (setField s f x).hosts = s.hosts := rfl
@[simp] theorem setField_sem (s : State) (f : Nat) (x : FieldSt) : (setField s f x).sem = s.sem := rfl
@[simp] theorem setField_eng (s : State) (f : Nat) (x : FieldSt) : (setField s f x).eng = s.eng := rfl
@[simp] theorem setField_copies (s : State) (f : Nat) (x : FieldSt) : (setField s f x).copies = s.copies := rfl
@[simp] theorem setField_msds (s : State) (f : Nat) (x : FieldSt) : (setField s f x).msds = s.msds := rfl
@[simp] theorem setField_pds (s : State) (f : Nat) (x : FieldSt) : (setField s f x).pds = s.pds := rfl
@[simp] theorem setField_part (s : State) (f : Nat) (x : FieldSt) : (setField s f x).part = s.part := rfl
@[simp] theorem setField_boot (s : State) (f : Nat) (x : FieldSt) : (setField s f x).boot = s.boot := rfl
@[simp] theorem setField_fw (s : State) (f : Nat) (x : FieldSt) : (setField s f x).fw = s.fw := rfl
@[simp] theorem setField_snuff (s : State) (f : Nat) (x : FieldSt) : (setField s f x).snuff = s.snuff := rfl
@[simp] theorem setField_tc (s : State) (f : Nat) (x : FieldSt) : (setField s f x).tc = s.tc := rfl
@[simp] theorem setField_power (s : State) (f : Nat) (x : FieldSt) : (setField s f x).power = s.power := rfl
@[simp] theorem setField_mantle (s : State) (f : Nat) (x : FieldSt) : (setField s f x).mantle = s.mantle := rfl
@[simp] theorem setField_dies (s : State) (f : Nat) (x : FieldSt) : (setField s f x).dies = s.dies := rfl
@[simp] theorem setField_jsel (s : State) (f : Nat) (x : FieldSt) : (setField s f x).jsel = s.jsel := rfl
@[simp] theorem setField_island (s : State) (f : Nat) (x : FieldSt) : (setField s f x).island = s.island := rfl
@[simp] theorem setField_ans (s : State) (f : Nat) (x : FieldSt) : (setField s f x).ans = s.ans := rfl
@[simp] theorem setField_cdErr (s : State) (f : Nat) (x : FieldSt) : (setField s f x).cdErr = s.cdErr := rfl
@[simp] theorem setField_getWick (s : State) (f : Nat) (x : FieldSt) (i0 i1 : Nat) : getWick (setField s f x) i0 i1 = getWick s i0 i1 := rfl
@[simp] theorem setField_getFlow (s : State) (f : Nat) (x : FieldSt) (i0 i1 : Nat) : getFlow (setField s f x) i0 i1 = getFlow s i0 i1 := rfl
@[simp] theorem setField_getCu (s : State) (f : Nat) (x : FieldSt) (i0 i1 : Nat) : getCu (setField s f x) i0 i1 = getCu s i0 i1 := rfl
@[simp] theorem setField_getMu (s : State) (f : Nat) (x : FieldSt) (i0 i1 : Nat) : getMu (setField s f x) i0 i1 = getMu s i0 i1 := rfl
@[simp] theorem setField_getTile (s : State) (f : Nat) (x : FieldSt) (i0 : Nat) : getTile (setField s f x) i0 = getTile s i0 := rfl
@[simp] theorem setField_getRegion (s : State) (f : Nat) (x : FieldSt) (i0 : Nat) : getRegion (setField s f x) i0 = getRegion s i0 := rfl
@[simp] theorem setField_getDie (s : State) (f : Nat) (x : FieldSt) (i0 : Nat) : getDie (setField s f x) i0 = getDie s i0 := rfl
@[simp] theorem setField_getHost (s : State) (f : Nat) (x : FieldSt) (i0 : Nat) : getHost (setField s f x) i0 = getHost s i0 := rfl
@[simp] theorem setField_getEng (s : State) (f : Nat) (x : FieldSt) (i0 : Nat) : getEng (setField s f x) i0 = getEng s i0 := rfl
@[simp] theorem setField_getMsd (s : State) (f : Nat) (x : FieldSt) (i0 : Nat) : getMsd (setField s f x) i0 = getMsd s i0 := rfl
@[simp] theorem setField_getPd (s : State) (f : Nat) (x : FieldSt) (i0 : Nat) : getPd (setField s f x) i0 = getPd s i0 := rfl
@[simp] theorem setField_getPacket (s : State) (f : Nat) (x : FieldSt) (i0 : Nat) : getPacket (setField s f x) i0 = getPacket s i0 := rfl
@[simp] theorem setField_getMb (s : State) (f : Nat) (x : FieldSt) (i0 : Nat) : getMb (setField s f x) i0 = getMb s i0 := rfl
@[simp] theorem setField_nowNs (s : State) (f : Nat) (x : FieldSt) : nowNs (setField s f x) = nowNs s := rfl
@[simp] theorem setField_nowPs (s : State) (f : Nat) (x : FieldSt) : nowPs (setField s f x) = nowPs s := rfl
@[simp] theorem setField_fenced (s : State) (f : Nat) (x : FieldSt) (i0 : Nat) : fenced (setField s f x) i0 = fenced s i0 := rfl
@[simp] theorem setField_getBank (s : State) (f : Nat) (x : FieldSt) (i0 : Nat) : getBank (setField s f x) i0 = getBank s i0 := rfl
@[simp] theorem setField_getBlade (s : State) (f : Nat) (x : FieldSt) (i0 : Nat) : getBlade (setField s f x) i0 = getBlade s i0 := rfl

@[simp] theorem modField_eq (s : State) (f : Nat) (g : FieldSt → FieldSt) : modField s f g = setField s f (g (getField s f)) := rfl

/-! ### setDie -/

@[simp] theorem setDie_pending (s : State) (d : Nat) (x : Die) : (setDie s d x).pending = s.pending := rfl
@[simp] theorem setDie_time (s : State) (d : Nat) (x : Die) : (setDie s d x).time = s.time := rfl
@[simp] theorem setDie_wicks (s : State) (d : Nat) (x : Die) : (setDie s d x).wicks = s.wicks := rfl
@[simp] theorem setDie_flows (s : State) (d : Nat) (x : Die) : (setDie s d x).flows = s.flows := rfl
@[simp] theorem setDie_cus (s : State) (d : Nat) (x : Die) : (setDie s d x).cus = s.cus := rfl
@[simp] theorem setDie_mus (s : State) (d : Nat) (x : Die) : (setDie s d x).mus = s.mus := rfl
@[simp] theorem setDie_tiles (s : State) (d : Nat) (x : Die) : (setDie s d x).tiles = s.tiles := rfl
@[simp] theorem setDie_regions (s : State) (d : Nat) (x : Die) : (setDie s d x).regions = s.regions := rfl
@[simp] theorem setDie_net (s : State) (d : Nat) (x : Die) : (setDie s d x).net = s.net := rfl
@[simp] theorem setDie_lamp (s : State) (d : Nat) (x : Die) : (setDie s d x).lamp = s.lamp := rfl
@[simp] theorem setDie_inc (s : State) (d : Nat) (x : Die) : (setDie s d x).inc = s.inc := rfl
@[simp] theorem setDie_fields (s : State) (d : Nat) (x : Die) : (setDie s d x).fields = s.fields := rfl
@[simp] theorem setDie_trace (s : State) (d : Nat) (x : Die) : (setDie s d x).trace = s.trace := rfl
@[simp] theorem setDie_latch (s : State) (d : Nat) (x : Die) : (setDie s d x).latch = s.latch := rfl
@[simp] theorem setDie_armed (s : State) (d : Nat) (x : Die) : (setDie s d x).armed = s.armed := rfl
@[simp] theorem setDie_seg (s : State) (d : Nat) (x : Die) : (setDie s d x).seg = s.seg := rfl
@[simp] theorem setDie_segKept (s : State) (d : Nat) (x : Die) : (setDie s d x).segKept = s.segKept := rfl
@[simp] theorem setDie_dieFence (s : State) (d : Nat) (x : Die) : (setDie s d x).dieFence = s.dieFence := rfl
@[simp] theorem setDie_hosts (s : State) (d : Nat) (x : Die) : (setDie s d x).hosts = s.hosts := rfl
@[simp] theorem setDie_sem (s : State) (d : Nat) (x : Die) : (setDie s d x).sem = s.sem := rfl
@[simp] theorem setDie_eng (s : State) (d : Nat) (x : Die) : (setDie s d x).eng = s.eng := rfl
@[simp] theorem setDie_copies (s : State) (d : Nat) (x : Die) : (setDie s d x).copies = s.copies := rfl
@[simp] theorem setDie_msds (s : State) (d : Nat) (x : Die) : (setDie s d x).msds = s.msds := rfl
@[simp] theorem setDie_pds (s : State) (d : Nat) (x : Die) : (setDie s d x).pds = s.pds := rfl
@[simp] theorem setDie_part (s : State) (d : Nat) (x : Die) : (setDie s d x).part = s.part := rfl
@[simp] theorem setDie_boot (s : State) (d : Nat) (x : Die) : (setDie s d x).boot = s.boot := rfl
@[simp] theorem setDie_fw (s : State) (d : Nat) (x : Die) : (setDie s d x).fw = s.fw := rfl
@[simp] theorem setDie_snuff (s : State) (d : Nat) (x : Die) : (setDie s d x).snuff = s.snuff := rfl
@[simp] theorem setDie_tc (s : State) (d : Nat) (x : Die) : (setDie s d x).tc = s.tc := rfl
@[simp] theorem setDie_power (s : State) (d : Nat) (x : Die) : (setDie s d x).power = s.power := rfl
@[simp] theorem setDie_mantle (s : State) (d : Nat) (x : Die) : (setDie s d x).mantle = s.mantle := rfl
@[simp] theorem setDie_jsel (s : State) (d : Nat) (x : Die) : (setDie s d x).jsel = s.jsel := rfl
@[simp] theorem setDie_island (s : State) (d : Nat) (x : Die) : (setDie s d x).island = s.island := rfl
@[simp] theorem setDie_ans (s : State) (d : Nat) (x : Die) : (setDie s d x).ans = s.ans := rfl
@[simp] theorem setDie_cdErr (s : State) (d : Nat) (x : Die) : (setDie s d x).cdErr = s.cdErr := rfl
@[simp] theorem setDie_getWick (s : State) (d : Nat) (x : Die) (i0 i1 : Nat) : getWick (setDie s d x) i0 i1 = getWick s i0 i1 := rfl
@[simp] theorem setDie_getFlow (s : State) (d : Nat) (x : Die) (i0 i1 : Nat) : getFlow (setDie s d x) i0 i1 = getFlow s i0 i1 := rfl
@[simp] theorem setDie_getCu (s : State) (d : Nat) (x : Die) (i0 i1 : Nat) : getCu (setDie s d x) i0 i1 = getCu s i0 i1 := rfl
@[simp] theorem setDie_getMu (s : State) (d : Nat) (x : Die) (i0 i1 : Nat) : getMu (setDie s d x) i0 i1 = getMu s i0 i1 := rfl
@[simp] theorem setDie_getTile (s : State) (d : Nat) (x : Die) (i0 : Nat) : getTile (setDie s d x) i0 = getTile s i0 := rfl
@[simp] theorem setDie_getRegion (s : State) (d : Nat) (x : Die) (i0 : Nat) : getRegion (setDie s d x) i0 = getRegion s i0 := rfl
@[simp] theorem setDie_getField (s : State) (d : Nat) (x : Die) (i0 : Nat) : getField (setDie s d x) i0 = getField s i0 := rfl
@[simp] theorem setDie_getHost (s : State) (d : Nat) (x : Die) (i0 : Nat) : getHost (setDie s d x) i0 = getHost s i0 := rfl
@[simp] theorem setDie_getEng (s : State) (d : Nat) (x : Die) (i0 : Nat) : getEng (setDie s d x) i0 = getEng s i0 := rfl
@[simp] theorem setDie_getMsd (s : State) (d : Nat) (x : Die) (i0 : Nat) : getMsd (setDie s d x) i0 = getMsd s i0 := rfl
@[simp] theorem setDie_getPd (s : State) (d : Nat) (x : Die) (i0 : Nat) : getPd (setDie s d x) i0 = getPd s i0 := rfl
@[simp] theorem setDie_getPacket (s : State) (d : Nat) (x : Die) (i0 : Nat) : getPacket (setDie s d x) i0 = getPacket s i0 := rfl
@[simp] theorem setDie_getMb (s : State) (d : Nat) (x : Die) (i0 : Nat) : getMb (setDie s d x) i0 = getMb s i0 := rfl
@[simp] theorem setDie_nowNs (s : State) (d : Nat) (x : Die) : nowNs (setDie s d x) = nowNs s := rfl
@[simp] theorem setDie_nowPs (s : State) (d : Nat) (x : Die) : nowPs (setDie s d x) = nowPs s := rfl
@[simp] theorem setDie_fenced (s : State) (d : Nat) (x : Die) (i0 : Nat) : fenced (setDie s d x) i0 = fenced s i0 := rfl
@[simp] theorem setDie_getBank (s : State) (d : Nat) (x : Die) (i0 : Nat) : getBank (setDie s d x) i0 = getBank s i0 := rfl
@[simp] theorem setDie_getBlade (s : State) (d : Nat) (x : Die) (i0 : Nat) : getBlade (setDie s d x) i0 = getBlade s i0 := rfl

@[simp] theorem modDie_eq (s : State) (d : Nat) (f : Die → Die) : modDie s d f = setDie s d (f (getDie s d)) := rfl

/-! ### modBb -/

@[simp] theorem modBb_pending (s : State) (d p : Nat) (f : BbPort → BbPort) : (modBb s d p f).pending = s.pending := rfl
@[simp] theorem modBb_time (s : State) (d p : Nat) (f : BbPort → BbPort) : (modBb s d p f).time = s.time := rfl
@[simp] theorem modBb_wicks (s : State) (d p : Nat) (f : BbPort → BbPort) : (modBb s d p f).wicks = s.wicks := rfl
@[simp] theorem modBb_flows (s : State) (d p : Nat) (f : BbPort → BbPort) : (modBb s d p f).flows = s.flows := rfl
@[simp] theorem modBb_cus (s : State) (d p : Nat) (f : BbPort → BbPort) : (modBb s d p f).cus = s.cus := rfl
@[simp] theorem modBb_mus (s : State) (d p : Nat) (f : BbPort → BbPort) : (modBb s d p f).mus = s.mus := rfl
@[simp] theorem modBb_tiles (s : State) (d p : Nat) (f : BbPort → BbPort) : (modBb s d p f).tiles = s.tiles := rfl
@[simp] theorem modBb_regions (s : State) (d p : Nat) (f : BbPort → BbPort) : (modBb s d p f).regions = s.regions := rfl
@[simp] theorem modBb_net (s : State) (d p : Nat) (f : BbPort → BbPort) : (modBb s d p f).net = s.net := rfl
@[simp] theorem modBb_lamp (s : State) (d p : Nat) (f : BbPort → BbPort) : (modBb s d p f).lamp = s.lamp := rfl
@[simp] theorem modBb_inc (s : State) (d p : Nat) (f : BbPort → BbPort) : (modBb s d p f).inc = s.inc := rfl
@[simp] theorem modBb_fields (s : State) (d p : Nat) (f : BbPort → BbPort) : (modBb s d p f).fields = s.fields := rfl
@[simp] theorem modBb_trace (s : State) (d p : Nat) (f : BbPort → BbPort) : (modBb s d p f).trace = s.trace := rfl
@[simp] theorem modBb_latch (s : State) (d p : Nat) (f : BbPort → BbPort) : (modBb s d p f).latch = s.latch := rfl
@[simp] theorem modBb_armed (s : State) (d p : Nat) (f : BbPort → BbPort) : (modBb s d p f).armed = s.armed := rfl
@[simp] theorem modBb_seg (s : State) (d p : Nat) (f : BbPort → BbPort) : (modBb s d p f).seg = s.seg := rfl
@[simp] theorem modBb_segKept (s : State) (d p : Nat) (f : BbPort → BbPort) : (modBb s d p f).segKept = s.segKept := rfl
@[simp] theorem modBb_dieFence (s : State) (d p : Nat) (f : BbPort → BbPort) : (modBb s d p f).dieFence = s.dieFence := rfl
@[simp] theorem modBb_hosts (s : State) (d p : Nat) (f : BbPort → BbPort) : (modBb s d p f).hosts = s.hosts := rfl
@[simp] theorem modBb_sem (s : State) (d p : Nat) (f : BbPort → BbPort) : (modBb s d p f).sem = s.sem := rfl
@[simp] theorem modBb_eng (s : State) (d p : Nat) (f : BbPort → BbPort) : (modBb s d p f).eng = s.eng := rfl
@[simp] theorem modBb_copies (s : State) (d p : Nat) (f : BbPort → BbPort) : (modBb s d p f).copies = s.copies := rfl
@[simp] theorem modBb_msds (s : State) (d p : Nat) (f : BbPort → BbPort) : (modBb s d p f).msds = s.msds := rfl
@[simp] theorem modBb_pds (s : State) (d p : Nat) (f : BbPort → BbPort) : (modBb s d p f).pds = s.pds := rfl
@[simp] theorem modBb_part (s : State) (d p : Nat) (f : BbPort → BbPort) : (modBb s d p f).part = s.part := rfl
@[simp] theorem modBb_boot (s : State) (d p : Nat) (f : BbPort → BbPort) : (modBb s d p f).boot = s.boot := rfl
@[simp] theorem modBb_fw (s : State) (d p : Nat) (f : BbPort → BbPort) : (modBb s d p f).fw = s.fw := rfl
@[simp] theorem modBb_snuff (s : State) (d p : Nat) (f : BbPort → BbPort) : (modBb s d p f).snuff = s.snuff := rfl
@[simp] theorem modBb_tc (s : State) (d p : Nat) (f : BbPort → BbPort) : (modBb s d p f).tc = s.tc := rfl
@[simp] theorem modBb_power (s : State) (d p : Nat) (f : BbPort → BbPort) : (modBb s d p f).power = s.power := rfl
@[simp] theorem modBb_mantle (s : State) (d p : Nat) (f : BbPort → BbPort) : (modBb s d p f).mantle = s.mantle := rfl
@[simp] theorem modBb_jsel (s : State) (d p : Nat) (f : BbPort → BbPort) : (modBb s d p f).jsel = s.jsel := rfl
@[simp] theorem modBb_island (s : State) (d p : Nat) (f : BbPort → BbPort) : (modBb s d p f).island = s.island := rfl
@[simp] theorem modBb_ans (s : State) (d p : Nat) (f : BbPort → BbPort) : (modBb s d p f).ans = s.ans := rfl
@[simp] theorem modBb_cdErr (s : State) (d p : Nat) (f : BbPort → BbPort) : (modBb s d p f).cdErr = s.cdErr := rfl
@[simp] theorem modBb_getWick (s : State) (d p : Nat) (f : BbPort → BbPort) (i0 i1 : Nat) : getWick (modBb s d p f) i0 i1 = getWick s i0 i1 := rfl
@[simp] theorem modBb_getFlow (s : State) (d p : Nat) (f : BbPort → BbPort) (i0 i1 : Nat) : getFlow (modBb s d p f) i0 i1 = getFlow s i0 i1 := rfl
@[simp] theorem modBb_getCu (s : State) (d p : Nat) (f : BbPort → BbPort) (i0 i1 : Nat) : getCu (modBb s d p f) i0 i1 = getCu s i0 i1 := rfl
@[simp] theorem modBb_getMu (s : State) (d p : Nat) (f : BbPort → BbPort) (i0 i1 : Nat) : getMu (modBb s d p f) i0 i1 = getMu s i0 i1 := rfl
@[simp] theorem modBb_getTile (s : State) (d p : Nat) (f : BbPort → BbPort) (i0 : Nat) : getTile (modBb s d p f) i0 = getTile s i0 := rfl
@[simp] theorem modBb_getRegion (s : State) (d p : Nat) (f : BbPort → BbPort) (i0 : Nat) : getRegion (modBb s d p f) i0 = getRegion s i0 := rfl
@[simp] theorem modBb_getField (s : State) (d p : Nat) (f : BbPort → BbPort) (i0 : Nat) : getField (modBb s d p f) i0 = getField s i0 := rfl
@[simp] theorem modBb_getHost (s : State) (d p : Nat) (f : BbPort → BbPort) (i0 : Nat) : getHost (modBb s d p f) i0 = getHost s i0 := rfl
@[simp] theorem modBb_getEng (s : State) (d p : Nat) (f : BbPort → BbPort) (i0 : Nat) : getEng (modBb s d p f) i0 = getEng s i0 := rfl
@[simp] theorem modBb_getMsd (s : State) (d p : Nat) (f : BbPort → BbPort) (i0 : Nat) : getMsd (modBb s d p f) i0 = getMsd s i0 := rfl
@[simp] theorem modBb_getPd (s : State) (d p : Nat) (f : BbPort → BbPort) (i0 : Nat) : getPd (modBb s d p f) i0 = getPd s i0 := rfl
@[simp] theorem modBb_getPacket (s : State) (d p : Nat) (f : BbPort → BbPort) (i0 : Nat) : getPacket (modBb s d p f) i0 = getPacket s i0 := rfl
@[simp] theorem modBb_getMb (s : State) (d p : Nat) (f : BbPort → BbPort) (i0 : Nat) : getMb (modBb s d p f) i0 = getMb s i0 := rfl
@[simp] theorem modBb_nowNs (s : State) (d p : Nat) (f : BbPort → BbPort) : nowNs (modBb s d p f) = nowNs s := rfl
@[simp] theorem modBb_nowPs (s : State) (d p : Nat) (f : BbPort → BbPort) : nowPs (modBb s d p f) = nowPs s := rfl
@[simp] theorem modBb_fenced (s : State) (d p : Nat) (f : BbPort → BbPort) (i0 : Nat) : fenced (modBb s d p f) i0 = fenced s i0 := rfl
@[simp] theorem modBb_getBank (s : State) (d p : Nat) (f : BbPort → BbPort) (i0 : Nat) : getBank (modBb s d p f) i0 = getBank s i0 := rfl
@[simp] theorem modBb_getBlade (s : State) (d p : Nat) (f : BbPort → BbPort) (i0 : Nat) : getBlade (modBb s d p f) i0 = getBlade s i0 := rfl

/-! ### putPacket -/

@[simp] theorem putPacket_pending (s : State) (p : Packet) : (putPacket s p).pending = s.pending := rfl
@[simp] theorem putPacket_time (s : State) (p : Packet) : (putPacket s p).time = s.time := rfl
@[simp] theorem putPacket_wicks (s : State) (p : Packet) : (putPacket s p).wicks = s.wicks := rfl
@[simp] theorem putPacket_flows (s : State) (p : Packet) : (putPacket s p).flows = s.flows := rfl
@[simp] theorem putPacket_cus (s : State) (p : Packet) : (putPacket s p).cus = s.cus := rfl
@[simp] theorem putPacket_mus (s : State) (p : Packet) : (putPacket s p).mus = s.mus := rfl
@[simp] theorem putPacket_tiles (s : State) (p : Packet) : (putPacket s p).tiles = s.tiles := rfl
@[simp] theorem putPacket_regions (s : State) (p : Packet) : (putPacket s p).regions = s.regions := rfl
@[simp] theorem putPacket_lamp (s : State) (p : Packet) : (putPacket s p).lamp = s.lamp := rfl
@[simp] theorem putPacket_inc (s : State) (p : Packet) : (putPacket s p).inc = s.inc := rfl
@[simp] theorem putPacket_fields (s : State) (p : Packet) : (putPacket s p).fields = s.fields := rfl
@[simp] theorem putPacket_trace (s : State) (p : Packet) : (putPacket s p).trace = s.trace := rfl
@[simp] theorem putPacket_latch (s : State) (p : Packet) : (putPacket s p).latch = s.latch := rfl
@[simp] theorem putPacket_armed (s : State) (p : Packet) : (putPacket s p).armed = s.armed := rfl
@[simp] theorem putPacket_seg (s : State) (p : Packet) : (putPacket s p).seg = s.seg := rfl
@[simp] theorem putPacket_segKept (s : State) (p : Packet) : (putPacket s p).segKept = s.segKept := rfl
@[simp] theorem putPacket_dieFence (s : State) (p : Packet) : (putPacket s p).dieFence = s.dieFence := rfl
@[simp] theorem putPacket_hosts (s : State) (p : Packet) : (putPacket s p).hosts = s.hosts := rfl
@[simp] theorem putPacket_sem (s : State) (p : Packet) : (putPacket s p).sem = s.sem := rfl
@[simp] theorem putPacket_eng (s : State) (p : Packet) : (putPacket s p).eng = s.eng := rfl
@[simp] theorem putPacket_copies (s : State) (p : Packet) : (putPacket s p).copies = s.copies := rfl
@[simp] theorem putPacket_msds (s : State) (p : Packet) : (putPacket s p).msds = s.msds := rfl
@[simp] theorem putPacket_pds (s : State) (p : Packet) : (putPacket s p).pds = s.pds := rfl
@[simp] theorem putPacket_part (s : State) (p : Packet) : (putPacket s p).part = s.part := rfl
@[simp] theorem putPacket_boot (s : State) (p : Packet) : (putPacket s p).boot = s.boot := rfl
@[simp] theorem putPacket_fw (s : State) (p : Packet) : (putPacket s p).fw = s.fw := rfl
@[simp] theorem putPacket_snuff (s : State) (p : Packet) : (putPacket s p).snuff = s.snuff := rfl
@[simp] theorem putPacket_tc (s : State) (p : Packet) : (putPacket s p).tc = s.tc := rfl
@[simp] theorem putPacket_power (s : State) (p : Packet) : (putPacket s p).power = s.power := rfl
@[simp] theorem putPacket_mantle (s : State) (p : Packet) : (putPacket s p).mantle = s.mantle := rfl
@[simp] theorem putPacket_dies (s : State) (p : Packet) : (putPacket s p).dies = s.dies := rfl
@[simp] theorem putPacket_jsel (s : State) (p : Packet) : (putPacket s p).jsel = s.jsel := rfl
@[simp] theorem putPacket_island (s : State) (p : Packet) : (putPacket s p).island = s.island := rfl
@[simp] theorem putPacket_ans (s : State) (p : Packet) : (putPacket s p).ans = s.ans := rfl
@[simp] theorem putPacket_cdErr (s : State) (p : Packet) : (putPacket s p).cdErr = s.cdErr := rfl
@[simp] theorem putPacket_getWick (s : State) (p : Packet) (i0 i1 : Nat) : getWick (putPacket s p) i0 i1 = getWick s i0 i1 := rfl
@[simp] theorem putPacket_getFlow (s : State) (p : Packet) (i0 i1 : Nat) : getFlow (putPacket s p) i0 i1 = getFlow s i0 i1 := rfl
@[simp] theorem putPacket_getCu (s : State) (p : Packet) (i0 i1 : Nat) : getCu (putPacket s p) i0 i1 = getCu s i0 i1 := rfl
@[simp] theorem putPacket_getMu (s : State) (p : Packet) (i0 i1 : Nat) : getMu (putPacket s p) i0 i1 = getMu s i0 i1 := rfl
@[simp] theorem putPacket_getTile (s : State) (p : Packet) (i0 : Nat) : getTile (putPacket s p) i0 = getTile s i0 := rfl
@[simp] theorem putPacket_getRegion (s : State) (p : Packet) (i0 : Nat) : getRegion (putPacket s p) i0 = getRegion s i0 := rfl
@[simp] theorem putPacket_getField (s : State) (p : Packet) (i0 : Nat) : getField (putPacket s p) i0 = getField s i0 := rfl
@[simp] theorem putPacket_getDie (s : State) (p : Packet) (i0 : Nat) : getDie (putPacket s p) i0 = getDie s i0 := rfl
@[simp] theorem putPacket_getHost (s : State) (p : Packet) (i0 : Nat) : getHost (putPacket s p) i0 = getHost s i0 := rfl
@[simp] theorem putPacket_getEng (s : State) (p : Packet) (i0 : Nat) : getEng (putPacket s p) i0 = getEng s i0 := rfl
@[simp] theorem putPacket_getMsd (s : State) (p : Packet) (i0 : Nat) : getMsd (putPacket s p) i0 = getMsd s i0 := rfl
@[simp] theorem putPacket_getPd (s : State) (p : Packet) (i0 : Nat) : getPd (putPacket s p) i0 = getPd s i0 := rfl
@[simp] theorem putPacket_getMb (s : State) (p : Packet) (i0 : Nat) : getMb (putPacket s p) i0 = getMb s i0 := rfl
@[simp] theorem putPacket_nowNs (s : State) (p : Packet) : nowNs (putPacket s p) = nowNs s := rfl
@[simp] theorem putPacket_nowPs (s : State) (p : Packet) : nowPs (putPacket s p) = nowPs s := rfl
@[simp] theorem putPacket_fenced (s : State) (p : Packet) (i0 : Nat) : fenced (putPacket s p) i0 = fenced s i0 := rfl
@[simp] theorem putPacket_getBank (s : State) (p : Packet) (i0 : Nat) : getBank (putPacket s p) i0 = getBank s i0 := rfl
@[simp] theorem putPacket_getBlade (s : State) (p : Packet) (i0 : Nat) : getBlade (putPacket s p) i0 = getBlade s i0 := rfl

/-! ### delPacket -/

@[simp] theorem delPacket_pending (s : State) (pid : Nat) : (delPacket s pid).pending = s.pending := rfl
@[simp] theorem delPacket_time (s : State) (pid : Nat) : (delPacket s pid).time = s.time := rfl
@[simp] theorem delPacket_wicks (s : State) (pid : Nat) : (delPacket s pid).wicks = s.wicks := rfl
@[simp] theorem delPacket_flows (s : State) (pid : Nat) : (delPacket s pid).flows = s.flows := rfl
@[simp] theorem delPacket_cus (s : State) (pid : Nat) : (delPacket s pid).cus = s.cus := rfl
@[simp] theorem delPacket_mus (s : State) (pid : Nat) : (delPacket s pid).mus = s.mus := rfl
@[simp] theorem delPacket_tiles (s : State) (pid : Nat) : (delPacket s pid).tiles = s.tiles := rfl
@[simp] theorem delPacket_regions (s : State) (pid : Nat) : (delPacket s pid).regions = s.regions := rfl
@[simp] theorem delPacket_lamp (s : State) (pid : Nat) : (delPacket s pid).lamp = s.lamp := rfl
@[simp] theorem delPacket_inc (s : State) (pid : Nat) : (delPacket s pid).inc = s.inc := rfl
@[simp] theorem delPacket_fields (s : State) (pid : Nat) : (delPacket s pid).fields = s.fields := rfl
@[simp] theorem delPacket_trace (s : State) (pid : Nat) : (delPacket s pid).trace = s.trace := rfl
@[simp] theorem delPacket_latch (s : State) (pid : Nat) : (delPacket s pid).latch = s.latch := rfl
@[simp] theorem delPacket_armed (s : State) (pid : Nat) : (delPacket s pid).armed = s.armed := rfl
@[simp] theorem delPacket_seg (s : State) (pid : Nat) : (delPacket s pid).seg = s.seg := rfl
@[simp] theorem delPacket_segKept (s : State) (pid : Nat) : (delPacket s pid).segKept = s.segKept := rfl
@[simp] theorem delPacket_dieFence (s : State) (pid : Nat) : (delPacket s pid).dieFence = s.dieFence := rfl
@[simp] theorem delPacket_hosts (s : State) (pid : Nat) : (delPacket s pid).hosts = s.hosts := rfl
@[simp] theorem delPacket_sem (s : State) (pid : Nat) : (delPacket s pid).sem = s.sem := rfl
@[simp] theorem delPacket_eng (s : State) (pid : Nat) : (delPacket s pid).eng = s.eng := rfl
@[simp] theorem delPacket_copies (s : State) (pid : Nat) : (delPacket s pid).copies = s.copies := rfl
@[simp] theorem delPacket_msds (s : State) (pid : Nat) : (delPacket s pid).msds = s.msds := rfl
@[simp] theorem delPacket_pds (s : State) (pid : Nat) : (delPacket s pid).pds = s.pds := rfl
@[simp] theorem delPacket_part (s : State) (pid : Nat) : (delPacket s pid).part = s.part := rfl
@[simp] theorem delPacket_boot (s : State) (pid : Nat) : (delPacket s pid).boot = s.boot := rfl
@[simp] theorem delPacket_fw (s : State) (pid : Nat) : (delPacket s pid).fw = s.fw := rfl
@[simp] theorem delPacket_snuff (s : State) (pid : Nat) : (delPacket s pid).snuff = s.snuff := rfl
@[simp] theorem delPacket_tc (s : State) (pid : Nat) : (delPacket s pid).tc = s.tc := rfl
@[simp] theorem delPacket_power (s : State) (pid : Nat) : (delPacket s pid).power = s.power := rfl
@[simp] theorem delPacket_mantle (s : State) (pid : Nat) : (delPacket s pid).mantle = s.mantle := rfl
@[simp] theorem delPacket_dies (s : State) (pid : Nat) : (delPacket s pid).dies = s.dies := rfl
@[simp] theorem delPacket_jsel (s : State) (pid : Nat) : (delPacket s pid).jsel = s.jsel := rfl
@[simp] theorem delPacket_island (s : State) (pid : Nat) : (delPacket s pid).island = s.island := rfl
@[simp] theorem delPacket_ans (s : State) (pid : Nat) : (delPacket s pid).ans = s.ans := rfl
@[simp] theorem delPacket_cdErr (s : State) (pid : Nat) : (delPacket s pid).cdErr = s.cdErr := rfl
@[simp] theorem delPacket_getWick (s : State) (pid : Nat) (i0 i1 : Nat) : getWick (delPacket s pid) i0 i1 = getWick s i0 i1 := rfl
@[simp] theorem delPacket_getFlow (s : State) (pid : Nat) (i0 i1 : Nat) : getFlow (delPacket s pid) i0 i1 = getFlow s i0 i1 := rfl
@[simp] theorem delPacket_getCu (s : State) (pid : Nat) (i0 i1 : Nat) : getCu (delPacket s pid) i0 i1 = getCu s i0 i1 := rfl
@[simp] theorem delPacket_getMu (s : State) (pid : Nat) (i0 i1 : Nat) : getMu (delPacket s pid) i0 i1 = getMu s i0 i1 := rfl
@[simp] theorem delPacket_getTile (s : State) (pid : Nat) (i0 : Nat) : getTile (delPacket s pid) i0 = getTile s i0 := rfl
@[simp] theorem delPacket_getRegion (s : State) (pid : Nat) (i0 : Nat) : getRegion (delPacket s pid) i0 = getRegion s i0 := rfl
@[simp] theorem delPacket_getField (s : State) (pid : Nat) (i0 : Nat) : getField (delPacket s pid) i0 = getField s i0 := rfl
@[simp] theorem delPacket_getDie (s : State) (pid : Nat) (i0 : Nat) : getDie (delPacket s pid) i0 = getDie s i0 := rfl
@[simp] theorem delPacket_getHost (s : State) (pid : Nat) (i0 : Nat) : getHost (delPacket s pid) i0 = getHost s i0 := rfl
@[simp] theorem delPacket_getEng (s : State) (pid : Nat) (i0 : Nat) : getEng (delPacket s pid) i0 = getEng s i0 := rfl
@[simp] theorem delPacket_getMsd (s : State) (pid : Nat) (i0 : Nat) : getMsd (delPacket s pid) i0 = getMsd s i0 := rfl
@[simp] theorem delPacket_getPd (s : State) (pid : Nat) (i0 : Nat) : getPd (delPacket s pid) i0 = getPd s i0 := rfl
@[simp] theorem delPacket_getMb (s : State) (pid : Nat) (i0 : Nat) : getMb (delPacket s pid) i0 = getMb s i0 := rfl
@[simp] theorem delPacket_nowNs (s : State) (pid : Nat) : nowNs (delPacket s pid) = nowNs s := rfl
@[simp] theorem delPacket_nowPs (s : State) (pid : Nat) : nowPs (delPacket s pid) = nowPs s := rfl
@[simp] theorem delPacket_fenced (s : State) (pid : Nat) (i0 : Nat) : fenced (delPacket s pid) i0 = fenced s i0 := rfl
@[simp] theorem delPacket_getBank (s : State) (pid : Nat) (i0 : Nat) : getBank (delPacket s pid) i0 = getBank s i0 := rfl
@[simp] theorem delPacket_getBlade (s : State) (pid : Nat) (i0 : Nat) : getBlade (delPacket s pid) i0 = getBlade s i0 := rfl

/-! ### setPacket -/

@[simp] theorem setPacket_pending (s : State) (pid : Nat) (p : Packet) : (setPacket s pid p).pending = s.pending := rfl
@[simp] theorem setPacket_time (s : State) (pid : Nat) (p : Packet) : (setPacket s pid p).time = s.time := rfl
@[simp] theorem setPacket_wicks (s : State) (pid : Nat) (p : Packet) : (setPacket s pid p).wicks = s.wicks := rfl
@[simp] theorem setPacket_flows (s : State) (pid : Nat) (p : Packet) : (setPacket s pid p).flows = s.flows := rfl
@[simp] theorem setPacket_cus (s : State) (pid : Nat) (p : Packet) : (setPacket s pid p).cus = s.cus := rfl
@[simp] theorem setPacket_mus (s : State) (pid : Nat) (p : Packet) : (setPacket s pid p).mus = s.mus := rfl
@[simp] theorem setPacket_tiles (s : State) (pid : Nat) (p : Packet) : (setPacket s pid p).tiles = s.tiles := rfl
@[simp] theorem setPacket_regions (s : State) (pid : Nat) (p : Packet) : (setPacket s pid p).regions = s.regions := rfl
@[simp] theorem setPacket_lamp (s : State) (pid : Nat) (p : Packet) : (setPacket s pid p).lamp = s.lamp := rfl
@[simp] theorem setPacket_inc (s : State) (pid : Nat) (p : Packet) : (setPacket s pid p).inc = s.inc := rfl
@[simp] theorem setPacket_fields (s : State) (pid : Nat) (p : Packet) : (setPacket s pid p).fields = s.fields := rfl
@[simp] theorem setPacket_trace (s : State) (pid : Nat) (p : Packet) : (setPacket s pid p).trace = s.trace := rfl
@[simp] theorem setPacket_latch (s : State) (pid : Nat) (p : Packet) : (setPacket s pid p).latch = s.latch := rfl
@[simp] theorem setPacket_armed (s : State) (pid : Nat) (p : Packet) : (setPacket s pid p).armed = s.armed := rfl
@[simp] theorem setPacket_seg (s : State) (pid : Nat) (p : Packet) : (setPacket s pid p).seg = s.seg := rfl
@[simp] theorem setPacket_segKept (s : State) (pid : Nat) (p : Packet) : (setPacket s pid p).segKept = s.segKept := rfl
@[simp] theorem setPacket_dieFence (s : State) (pid : Nat) (p : Packet) : (setPacket s pid p).dieFence = s.dieFence := rfl
@[simp] theorem setPacket_hosts (s : State) (pid : Nat) (p : Packet) : (setPacket s pid p).hosts = s.hosts := rfl
@[simp] theorem setPacket_sem (s : State) (pid : Nat) (p : Packet) : (setPacket s pid p).sem = s.sem := rfl
@[simp] theorem setPacket_eng (s : State) (pid : Nat) (p : Packet) : (setPacket s pid p).eng = s.eng := rfl
@[simp] theorem setPacket_copies (s : State) (pid : Nat) (p : Packet) : (setPacket s pid p).copies = s.copies := rfl
@[simp] theorem setPacket_msds (s : State) (pid : Nat) (p : Packet) : (setPacket s pid p).msds = s.msds := rfl
@[simp] theorem setPacket_pds (s : State) (pid : Nat) (p : Packet) : (setPacket s pid p).pds = s.pds := rfl
@[simp] theorem setPacket_part (s : State) (pid : Nat) (p : Packet) : (setPacket s pid p).part = s.part := rfl
@[simp] theorem setPacket_boot (s : State) (pid : Nat) (p : Packet) : (setPacket s pid p).boot = s.boot := rfl
@[simp] theorem setPacket_fw (s : State) (pid : Nat) (p : Packet) : (setPacket s pid p).fw = s.fw := rfl
@[simp] theorem setPacket_snuff (s : State) (pid : Nat) (p : Packet) : (setPacket s pid p).snuff = s.snuff := rfl
@[simp] theorem setPacket_tc (s : State) (pid : Nat) (p : Packet) : (setPacket s pid p).tc = s.tc := rfl
@[simp] theorem setPacket_power (s : State) (pid : Nat) (p : Packet) : (setPacket s pid p).power = s.power := rfl
@[simp] theorem setPacket_mantle (s : State) (pid : Nat) (p : Packet) : (setPacket s pid p).mantle = s.mantle := rfl
@[simp] theorem setPacket_dies (s : State) (pid : Nat) (p : Packet) : (setPacket s pid p).dies = s.dies := rfl
@[simp] theorem setPacket_jsel (s : State) (pid : Nat) (p : Packet) : (setPacket s pid p).jsel = s.jsel := rfl
@[simp] theorem setPacket_island (s : State) (pid : Nat) (p : Packet) : (setPacket s pid p).island = s.island := rfl
@[simp] theorem setPacket_ans (s : State) (pid : Nat) (p : Packet) : (setPacket s pid p).ans = s.ans := rfl
@[simp] theorem setPacket_cdErr (s : State) (pid : Nat) (p : Packet) : (setPacket s pid p).cdErr = s.cdErr := rfl
@[simp] theorem setPacket_getWick (s : State) (pid : Nat) (p : Packet) (i0 i1 : Nat) : getWick (setPacket s pid p) i0 i1 = getWick s i0 i1 := rfl
@[simp] theorem setPacket_getFlow (s : State) (pid : Nat) (p : Packet) (i0 i1 : Nat) : getFlow (setPacket s pid p) i0 i1 = getFlow s i0 i1 := rfl
@[simp] theorem setPacket_getCu (s : State) (pid : Nat) (p : Packet) (i0 i1 : Nat) : getCu (setPacket s pid p) i0 i1 = getCu s i0 i1 := rfl
@[simp] theorem setPacket_getMu (s : State) (pid : Nat) (p : Packet) (i0 i1 : Nat) : getMu (setPacket s pid p) i0 i1 = getMu s i0 i1 := rfl
@[simp] theorem setPacket_getTile (s : State) (pid : Nat) (p : Packet) (i0 : Nat) : getTile (setPacket s pid p) i0 = getTile s i0 := rfl
@[simp] theorem setPacket_getRegion (s : State) (pid : Nat) (p : Packet) (i0 : Nat) : getRegion (setPacket s pid p) i0 = getRegion s i0 := rfl
@[simp] theorem setPacket_getField (s : State) (pid : Nat) (p : Packet) (i0 : Nat) : getField (setPacket s pid p) i0 = getField s i0 := rfl
@[simp] theorem setPacket_getDie (s : State) (pid : Nat) (p : Packet) (i0 : Nat) : getDie (setPacket s pid p) i0 = getDie s i0 := rfl
@[simp] theorem setPacket_getHost (s : State) (pid : Nat) (p : Packet) (i0 : Nat) : getHost (setPacket s pid p) i0 = getHost s i0 := rfl
@[simp] theorem setPacket_getEng (s : State) (pid : Nat) (p : Packet) (i0 : Nat) : getEng (setPacket s pid p) i0 = getEng s i0 := rfl
@[simp] theorem setPacket_getMsd (s : State) (pid : Nat) (p : Packet) (i0 : Nat) : getMsd (setPacket s pid p) i0 = getMsd s i0 := rfl
@[simp] theorem setPacket_getPd (s : State) (pid : Nat) (p : Packet) (i0 : Nat) : getPd (setPacket s pid p) i0 = getPd s i0 := rfl
@[simp] theorem setPacket_getMb (s : State) (pid : Nat) (p : Packet) (i0 : Nat) : getMb (setPacket s pid p) i0 = getMb s i0 := rfl
@[simp] theorem setPacket_nowNs (s : State) (pid : Nat) (p : Packet) : nowNs (setPacket s pid p) = nowNs s := rfl
@[simp] theorem setPacket_nowPs (s : State) (pid : Nat) (p : Packet) : nowPs (setPacket s pid p) = nowPs s := rfl
@[simp] theorem setPacket_fenced (s : State) (pid : Nat) (p : Packet) (i0 : Nat) : fenced (setPacket s pid p) i0 = fenced s i0 := rfl
@[simp] theorem setPacket_getBank (s : State) (pid : Nat) (p : Packet) (i0 : Nat) : getBank (setPacket s pid p) i0 = getBank s i0 := rfl
@[simp] theorem setPacket_getBlade (s : State) (pid : Nat) (p : Packet) (i0 : Nat) : getBlade (setPacket s pid p) i0 = getBlade s i0 := rfl

/-! ### inject -/

@[simp] theorem inject_pending (s : State) (t src dst fold epoch : Nat) (b : Body) : (inject s t src dst fold epoch b).pending = s.pending := rfl
@[simp] theorem inject_time (s : State) (t src dst fold epoch : Nat) (b : Body) : (inject s t src dst fold epoch b).time = s.time := rfl
@[simp] theorem inject_wicks (s : State) (t src dst fold epoch : Nat) (b : Body) : (inject s t src dst fold epoch b).wicks = s.wicks := rfl
@[simp] theorem inject_flows (s : State) (t src dst fold epoch : Nat) (b : Body) : (inject s t src dst fold epoch b).flows = s.flows := rfl
@[simp] theorem inject_cus (s : State) (t src dst fold epoch : Nat) (b : Body) : (inject s t src dst fold epoch b).cus = s.cus := rfl
@[simp] theorem inject_mus (s : State) (t src dst fold epoch : Nat) (b : Body) : (inject s t src dst fold epoch b).mus = s.mus := rfl
@[simp] theorem inject_tiles (s : State) (t src dst fold epoch : Nat) (b : Body) : (inject s t src dst fold epoch b).tiles = s.tiles := rfl
@[simp] theorem inject_regions (s : State) (t src dst fold epoch : Nat) (b : Body) : (inject s t src dst fold epoch b).regions = s.regions := rfl
@[simp] theorem inject_lamp (s : State) (t src dst fold epoch : Nat) (b : Body) : (inject s t src dst fold epoch b).lamp = s.lamp := rfl
@[simp] theorem inject_inc (s : State) (t src dst fold epoch : Nat) (b : Body) : (inject s t src dst fold epoch b).inc = s.inc := rfl
@[simp] theorem inject_fields (s : State) (t src dst fold epoch : Nat) (b : Body) : (inject s t src dst fold epoch b).fields = s.fields := rfl
@[simp] theorem inject_trace (s : State) (t src dst fold epoch : Nat) (b : Body) : (inject s t src dst fold epoch b).trace = s.trace := rfl
@[simp] theorem inject_latch (s : State) (t src dst fold epoch : Nat) (b : Body) : (inject s t src dst fold epoch b).latch = s.latch := rfl
@[simp] theorem inject_armed (s : State) (t src dst fold epoch : Nat) (b : Body) : (inject s t src dst fold epoch b).armed = s.armed := rfl
@[simp] theorem inject_seg (s : State) (t src dst fold epoch : Nat) (b : Body) : (inject s t src dst fold epoch b).seg = s.seg := rfl
@[simp] theorem inject_segKept (s : State) (t src dst fold epoch : Nat) (b : Body) : (inject s t src dst fold epoch b).segKept = s.segKept := rfl
@[simp] theorem inject_dieFence (s : State) (t src dst fold epoch : Nat) (b : Body) : (inject s t src dst fold epoch b).dieFence = s.dieFence := rfl
@[simp] theorem inject_hosts (s : State) (t src dst fold epoch : Nat) (b : Body) : (inject s t src dst fold epoch b).hosts = s.hosts := rfl
@[simp] theorem inject_sem (s : State) (t src dst fold epoch : Nat) (b : Body) : (inject s t src dst fold epoch b).sem = s.sem := rfl
@[simp] theorem inject_eng (s : State) (t src dst fold epoch : Nat) (b : Body) : (inject s t src dst fold epoch b).eng = s.eng := rfl
@[simp] theorem inject_copies (s : State) (t src dst fold epoch : Nat) (b : Body) : (inject s t src dst fold epoch b).copies = s.copies := rfl
@[simp] theorem inject_msds (s : State) (t src dst fold epoch : Nat) (b : Body) : (inject s t src dst fold epoch b).msds = s.msds := rfl
@[simp] theorem inject_pds (s : State) (t src dst fold epoch : Nat) (b : Body) : (inject s t src dst fold epoch b).pds = s.pds := rfl
@[simp] theorem inject_part (s : State) (t src dst fold epoch : Nat) (b : Body) : (inject s t src dst fold epoch b).part = s.part := rfl
@[simp] theorem inject_boot (s : State) (t src dst fold epoch : Nat) (b : Body) : (inject s t src dst fold epoch b).boot = s.boot := rfl
@[simp] theorem inject_fw (s : State) (t src dst fold epoch : Nat) (b : Body) : (inject s t src dst fold epoch b).fw = s.fw := rfl
@[simp] theorem inject_snuff (s : State) (t src dst fold epoch : Nat) (b : Body) : (inject s t src dst fold epoch b).snuff = s.snuff := rfl
@[simp] theorem inject_tc (s : State) (t src dst fold epoch : Nat) (b : Body) : (inject s t src dst fold epoch b).tc = s.tc := rfl
@[simp] theorem inject_power (s : State) (t src dst fold epoch : Nat) (b : Body) : (inject s t src dst fold epoch b).power = s.power := rfl
@[simp] theorem inject_mantle (s : State) (t src dst fold epoch : Nat) (b : Body) : (inject s t src dst fold epoch b).mantle = s.mantle := rfl
@[simp] theorem inject_dies (s : State) (t src dst fold epoch : Nat) (b : Body) : (inject s t src dst fold epoch b).dies = s.dies := rfl
@[simp] theorem inject_jsel (s : State) (t src dst fold epoch : Nat) (b : Body) : (inject s t src dst fold epoch b).jsel = s.jsel := rfl
@[simp] theorem inject_island (s : State) (t src dst fold epoch : Nat) (b : Body) : (inject s t src dst fold epoch b).island = s.island := rfl
@[simp] theorem inject_ans (s : State) (t src dst fold epoch : Nat) (b : Body) : (inject s t src dst fold epoch b).ans = s.ans := rfl
@[simp] theorem inject_cdErr (s : State) (t src dst fold epoch : Nat) (b : Body) : (inject s t src dst fold epoch b).cdErr = s.cdErr := rfl
@[simp] theorem inject_getWick (s : State) (t src dst fold epoch : Nat) (b : Body) (i0 i1 : Nat) : getWick (inject s t src dst fold epoch b) i0 i1 = getWick s i0 i1 := rfl
@[simp] theorem inject_getFlow (s : State) (t src dst fold epoch : Nat) (b : Body) (i0 i1 : Nat) : getFlow (inject s t src dst fold epoch b) i0 i1 = getFlow s i0 i1 := rfl
@[simp] theorem inject_getCu (s : State) (t src dst fold epoch : Nat) (b : Body) (i0 i1 : Nat) : getCu (inject s t src dst fold epoch b) i0 i1 = getCu s i0 i1 := rfl
@[simp] theorem inject_getMu (s : State) (t src dst fold epoch : Nat) (b : Body) (i0 i1 : Nat) : getMu (inject s t src dst fold epoch b) i0 i1 = getMu s i0 i1 := rfl
@[simp] theorem inject_getTile (s : State) (t src dst fold epoch : Nat) (b : Body) (i0 : Nat) : getTile (inject s t src dst fold epoch b) i0 = getTile s i0 := rfl
@[simp] theorem inject_getRegion (s : State) (t src dst fold epoch : Nat) (b : Body) (i0 : Nat) : getRegion (inject s t src dst fold epoch b) i0 = getRegion s i0 := rfl
@[simp] theorem inject_getField (s : State) (t src dst fold epoch : Nat) (b : Body) (i0 : Nat) : getField (inject s t src dst fold epoch b) i0 = getField s i0 := rfl
@[simp] theorem inject_getDie (s : State) (t src dst fold epoch : Nat) (b : Body) (i0 : Nat) : getDie (inject s t src dst fold epoch b) i0 = getDie s i0 := rfl
@[simp] theorem inject_getHost (s : State) (t src dst fold epoch : Nat) (b : Body) (i0 : Nat) : getHost (inject s t src dst fold epoch b) i0 = getHost s i0 := rfl
@[simp] theorem inject_getEng (s : State) (t src dst fold epoch : Nat) (b : Body) (i0 : Nat) : getEng (inject s t src dst fold epoch b) i0 = getEng s i0 := rfl
@[simp] theorem inject_getMsd (s : State) (t src dst fold epoch : Nat) (b : Body) (i0 : Nat) : getMsd (inject s t src dst fold epoch b) i0 = getMsd s i0 := rfl
@[simp] theorem inject_getPd (s : State) (t src dst fold epoch : Nat) (b : Body) (i0 : Nat) : getPd (inject s t src dst fold epoch b) i0 = getPd s i0 := rfl
@[simp] theorem inject_getMb (s : State) (t src dst fold epoch : Nat) (b : Body) (i0 : Nat) : getMb (inject s t src dst fold epoch b) i0 = getMb s i0 := rfl
@[simp] theorem inject_nowNs (s : State) (t src dst fold epoch : Nat) (b : Body) : nowNs (inject s t src dst fold epoch b) = nowNs s := rfl
@[simp] theorem inject_nowPs (s : State) (t src dst fold epoch : Nat) (b : Body) : nowPs (inject s t src dst fold epoch b) = nowPs s := rfl
@[simp] theorem inject_fenced (s : State) (t src dst fold epoch : Nat) (b : Body) (i0 : Nat) : fenced (inject s t src dst fold epoch b) i0 = fenced s i0 := rfl
@[simp] theorem inject_getBank (s : State) (t src dst fold epoch : Nat) (b : Body) (i0 : Nat) : getBank (inject s t src dst fold epoch b) i0 = getBank s i0 := rfl
@[simp] theorem inject_getBlade (s : State) (t src dst fold epoch : Nat) (b : Body) (i0 : Nat) : getBlade (inject s t src dst fold epoch b) i0 = getBlade s i0 := rfl

/-! ### advance -/

@[simp] theorem advance_pending (s : State) (n : Nat) : (advance s n).pending = s.pending := rfl
@[simp] theorem advance_wicks (s : State) (n : Nat) : (advance s n).wicks = s.wicks := rfl
@[simp] theorem advance_flows (s : State) (n : Nat) : (advance s n).flows = s.flows := rfl
@[simp] theorem advance_cus (s : State) (n : Nat) : (advance s n).cus = s.cus := rfl
@[simp] theorem advance_mus (s : State) (n : Nat) : (advance s n).mus = s.mus := rfl
@[simp] theorem advance_tiles (s : State) (n : Nat) : (advance s n).tiles = s.tiles := rfl
@[simp] theorem advance_regions (s : State) (n : Nat) : (advance s n).regions = s.regions := rfl
@[simp] theorem advance_net (s : State) (n : Nat) : (advance s n).net = s.net := rfl
@[simp] theorem advance_lamp (s : State) (n : Nat) : (advance s n).lamp = s.lamp := rfl
@[simp] theorem advance_inc (s : State) (n : Nat) : (advance s n).inc = s.inc := rfl
@[simp] theorem advance_fields (s : State) (n : Nat) : (advance s n).fields = s.fields := rfl
@[simp] theorem advance_trace (s : State) (n : Nat) : (advance s n).trace = s.trace := rfl
@[simp] theorem advance_latch (s : State) (n : Nat) : (advance s n).latch = s.latch := rfl
@[simp] theorem advance_armed (s : State) (n : Nat) : (advance s n).armed = s.armed := rfl
@[simp] theorem advance_seg (s : State) (n : Nat) : (advance s n).seg = s.seg := rfl
@[simp] theorem advance_segKept (s : State) (n : Nat) : (advance s n).segKept = s.segKept := rfl
@[simp] theorem advance_dieFence (s : State) (n : Nat) : (advance s n).dieFence = s.dieFence := rfl
@[simp] theorem advance_hosts (s : State) (n : Nat) : (advance s n).hosts = s.hosts := rfl
@[simp] theorem advance_sem (s : State) (n : Nat) : (advance s n).sem = s.sem := rfl
@[simp] theorem advance_eng (s : State) (n : Nat) : (advance s n).eng = s.eng := rfl
@[simp] theorem advance_copies (s : State) (n : Nat) : (advance s n).copies = s.copies := rfl
@[simp] theorem advance_msds (s : State) (n : Nat) : (advance s n).msds = s.msds := rfl
@[simp] theorem advance_pds (s : State) (n : Nat) : (advance s n).pds = s.pds := rfl
@[simp] theorem advance_part (s : State) (n : Nat) : (advance s n).part = s.part := rfl
@[simp] theorem advance_boot (s : State) (n : Nat) : (advance s n).boot = s.boot := rfl
@[simp] theorem advance_fw (s : State) (n : Nat) : (advance s n).fw = s.fw := rfl
@[simp] theorem advance_snuff (s : State) (n : Nat) : (advance s n).snuff = s.snuff := rfl
@[simp] theorem advance_tc (s : State) (n : Nat) : (advance s n).tc = s.tc := rfl
@[simp] theorem advance_power (s : State) (n : Nat) : (advance s n).power = s.power := rfl
@[simp] theorem advance_mantle (s : State) (n : Nat) : (advance s n).mantle = s.mantle := rfl
@[simp] theorem advance_dies (s : State) (n : Nat) : (advance s n).dies = s.dies := rfl
@[simp] theorem advance_jsel (s : State) (n : Nat) : (advance s n).jsel = s.jsel := rfl
@[simp] theorem advance_island (s : State) (n : Nat) : (advance s n).island = s.island := rfl
@[simp] theorem advance_ans (s : State) (n : Nat) : (advance s n).ans = s.ans := rfl
@[simp] theorem advance_cdErr (s : State) (n : Nat) : (advance s n).cdErr = s.cdErr := rfl
@[simp] theorem advance_getWick (s : State) (n : Nat) (i0 i1 : Nat) : getWick (advance s n) i0 i1 = getWick s i0 i1 := rfl
@[simp] theorem advance_getFlow (s : State) (n : Nat) (i0 i1 : Nat) : getFlow (advance s n) i0 i1 = getFlow s i0 i1 := rfl
@[simp] theorem advance_getCu (s : State) (n : Nat) (i0 i1 : Nat) : getCu (advance s n) i0 i1 = getCu s i0 i1 := rfl
@[simp] theorem advance_getMu (s : State) (n : Nat) (i0 i1 : Nat) : getMu (advance s n) i0 i1 = getMu s i0 i1 := rfl
@[simp] theorem advance_getTile (s : State) (n : Nat) (i0 : Nat) : getTile (advance s n) i0 = getTile s i0 := rfl
@[simp] theorem advance_getRegion (s : State) (n : Nat) (i0 : Nat) : getRegion (advance s n) i0 = getRegion s i0 := rfl
@[simp] theorem advance_getField (s : State) (n : Nat) (i0 : Nat) : getField (advance s n) i0 = getField s i0 := rfl
@[simp] theorem advance_getDie (s : State) (n : Nat) (i0 : Nat) : getDie (advance s n) i0 = getDie s i0 := rfl
@[simp] theorem advance_getHost (s : State) (n : Nat) (i0 : Nat) : getHost (advance s n) i0 = getHost s i0 := rfl
@[simp] theorem advance_getEng (s : State) (n : Nat) (i0 : Nat) : getEng (advance s n) i0 = getEng s i0 := rfl
@[simp] theorem advance_getMsd (s : State) (n : Nat) (i0 : Nat) : getMsd (advance s n) i0 = getMsd s i0 := rfl
@[simp] theorem advance_getPd (s : State) (n : Nat) (i0 : Nat) : getPd (advance s n) i0 = getPd s i0 := rfl
@[simp] theorem advance_getPacket (s : State) (n : Nat) (i0 : Nat) : getPacket (advance s n) i0 = getPacket s i0 := rfl
@[simp] theorem advance_getMb (s : State) (n : Nat) (i0 : Nat) : getMb (advance s n) i0 = getMb s i0 := rfl
@[simp] theorem advance_fenced (s : State) (n : Nat) (i0 : Nat) : fenced (advance s n) i0 = fenced s i0 := rfl
@[simp] theorem advance_getBank (s : State) (n : Nat) (i0 : Nat) : getBank (advance s n) i0 = getBank s i0 := rfl
@[simp] theorem advance_getBlade (s : State) (n : Nat) (i0 : Nat) : getBlade (advance s n) i0 = getBlade s i0 := rfl

/-! ### reachPs -/

@[simp] theorem reachPs_pending (s : State) (ps : Nat) : (reachPs s ps).pending = s.pending := rfl
@[simp] theorem reachPs_wicks (s : State) (ps : Nat) : (reachPs s ps).wicks = s.wicks := rfl
@[simp] theorem reachPs_flows (s : State) (ps : Nat) : (reachPs s ps).flows = s.flows := rfl
@[simp] theorem reachPs_cus (s : State) (ps : Nat) : (reachPs s ps).cus = s.cus := rfl
@[simp] theorem reachPs_mus (s : State) (ps : Nat) : (reachPs s ps).mus = s.mus := rfl
@[simp] theorem reachPs_tiles (s : State) (ps : Nat) : (reachPs s ps).tiles = s.tiles := rfl
@[simp] theorem reachPs_regions (s : State) (ps : Nat) : (reachPs s ps).regions = s.regions := rfl
@[simp] theorem reachPs_net (s : State) (ps : Nat) : (reachPs s ps).net = s.net := rfl
@[simp] theorem reachPs_lamp (s : State) (ps : Nat) : (reachPs s ps).lamp = s.lamp := rfl
@[simp] theorem reachPs_inc (s : State) (ps : Nat) : (reachPs s ps).inc = s.inc := rfl
@[simp] theorem reachPs_fields (s : State) (ps : Nat) : (reachPs s ps).fields = s.fields := rfl
@[simp] theorem reachPs_trace (s : State) (ps : Nat) : (reachPs s ps).trace = s.trace := rfl
@[simp] theorem reachPs_latch (s : State) (ps : Nat) : (reachPs s ps).latch = s.latch := rfl
@[simp] theorem reachPs_armed (s : State) (ps : Nat) : (reachPs s ps).armed = s.armed := rfl
@[simp] theorem reachPs_seg (s : State) (ps : Nat) : (reachPs s ps).seg = s.seg := rfl
@[simp] theorem reachPs_segKept (s : State) (ps : Nat) : (reachPs s ps).segKept = s.segKept := rfl
@[simp] theorem reachPs_dieFence (s : State) (ps : Nat) : (reachPs s ps).dieFence = s.dieFence := rfl
@[simp] theorem reachPs_hosts (s : State) (ps : Nat) : (reachPs s ps).hosts = s.hosts := rfl
@[simp] theorem reachPs_sem (s : State) (ps : Nat) : (reachPs s ps).sem = s.sem := rfl
@[simp] theorem reachPs_eng (s : State) (ps : Nat) : (reachPs s ps).eng = s.eng := rfl
@[simp] theorem reachPs_copies (s : State) (ps : Nat) : (reachPs s ps).copies = s.copies := rfl
@[simp] theorem reachPs_msds (s : State) (ps : Nat) : (reachPs s ps).msds = s.msds := rfl
@[simp] theorem reachPs_pds (s : State) (ps : Nat) : (reachPs s ps).pds = s.pds := rfl
@[simp] theorem reachPs_part (s : State) (ps : Nat) : (reachPs s ps).part = s.part := rfl
@[simp] theorem reachPs_boot (s : State) (ps : Nat) : (reachPs s ps).boot = s.boot := rfl
@[simp] theorem reachPs_fw (s : State) (ps : Nat) : (reachPs s ps).fw = s.fw := rfl
@[simp] theorem reachPs_snuff (s : State) (ps : Nat) : (reachPs s ps).snuff = s.snuff := rfl
@[simp] theorem reachPs_tc (s : State) (ps : Nat) : (reachPs s ps).tc = s.tc := rfl
@[simp] theorem reachPs_power (s : State) (ps : Nat) : (reachPs s ps).power = s.power := rfl
@[simp] theorem reachPs_mantle (s : State) (ps : Nat) : (reachPs s ps).mantle = s.mantle := rfl
@[simp] theorem reachPs_dies (s : State) (ps : Nat) : (reachPs s ps).dies = s.dies := rfl
@[simp] theorem reachPs_jsel (s : State) (ps : Nat) : (reachPs s ps).jsel = s.jsel := rfl
@[simp] theorem reachPs_island (s : State) (ps : Nat) : (reachPs s ps).island = s.island := rfl
@[simp] theorem reachPs_ans (s : State) (ps : Nat) : (reachPs s ps).ans = s.ans := rfl
@[simp] theorem reachPs_cdErr (s : State) (ps : Nat) : (reachPs s ps).cdErr = s.cdErr := rfl
@[simp] theorem reachPs_getWick (s : State) (ps : Nat) (i0 i1 : Nat) : getWick (reachPs s ps) i0 i1 = getWick s i0 i1 := rfl
@[simp] theorem reachPs_getFlow (s : State) (ps : Nat) (i0 i1 : Nat) : getFlow (reachPs s ps) i0 i1 = getFlow s i0 i1 := rfl
@[simp] theorem reachPs_getCu (s : State) (ps : Nat) (i0 i1 : Nat) : getCu (reachPs s ps) i0 i1 = getCu s i0 i1 := rfl
@[simp] theorem reachPs_getMu (s : State) (ps : Nat) (i0 i1 : Nat) : getMu (reachPs s ps) i0 i1 = getMu s i0 i1 := rfl
@[simp] theorem reachPs_getTile (s : State) (ps : Nat) (i0 : Nat) : getTile (reachPs s ps) i0 = getTile s i0 := rfl
@[simp] theorem reachPs_getRegion (s : State) (ps : Nat) (i0 : Nat) : getRegion (reachPs s ps) i0 = getRegion s i0 := rfl
@[simp] theorem reachPs_getField (s : State) (ps : Nat) (i0 : Nat) : getField (reachPs s ps) i0 = getField s i0 := rfl
@[simp] theorem reachPs_getDie (s : State) (ps : Nat) (i0 : Nat) : getDie (reachPs s ps) i0 = getDie s i0 := rfl
@[simp] theorem reachPs_getHost (s : State) (ps : Nat) (i0 : Nat) : getHost (reachPs s ps) i0 = getHost s i0 := rfl
@[simp] theorem reachPs_getEng (s : State) (ps : Nat) (i0 : Nat) : getEng (reachPs s ps) i0 = getEng s i0 := rfl
@[simp] theorem reachPs_getMsd (s : State) (ps : Nat) (i0 : Nat) : getMsd (reachPs s ps) i0 = getMsd s i0 := rfl
@[simp] theorem reachPs_getPd (s : State) (ps : Nat) (i0 : Nat) : getPd (reachPs s ps) i0 = getPd s i0 := rfl
@[simp] theorem reachPs_getPacket (s : State) (ps : Nat) (i0 : Nat) : getPacket (reachPs s ps) i0 = getPacket s i0 := rfl
@[simp] theorem reachPs_getMb (s : State) (ps : Nat) (i0 : Nat) : getMb (reachPs s ps) i0 = getMb s i0 := rfl
@[simp] theorem reachPs_fenced (s : State) (ps : Nat) (i0 : Nat) : fenced (reachPs s ps) i0 = fenced s i0 := rfl
@[simp] theorem reachPs_getBank (s : State) (ps : Nat) (i0 : Nat) : getBank (reachPs s ps) i0 = getBank s i0 := rfl
@[simp] theorem reachPs_getBlade (s : State) (ps : Nat) (i0 : Nat) : getBlade (reachPs s ps) i0 = getBlade s i0 := rfl

/-! ### reachCycle -/

@[simp] theorem reachCycle_pending (s : State) (t c : Nat) : (reachCycle s t c).pending = s.pending := rfl
@[simp] theorem reachCycle_wicks (s : State) (t c : Nat) : (reachCycle s t c).wicks = s.wicks := rfl
@[simp] theorem reachCycle_flows (s : State) (t c : Nat) : (reachCycle s t c).flows = s.flows := rfl
@[simp] theorem reachCycle_cus (s : State) (t c : Nat) : (reachCycle s t c).cus = s.cus := rfl
@[simp] theorem reachCycle_mus (s : State) (t c : Nat) : (reachCycle s t c).mus = s.mus := rfl
@[simp] theorem reachCycle_tiles (s : State) (t c : Nat) : (reachCycle s t c).tiles = s.tiles := rfl
@[simp] theorem reachCycle_regions (s : State) (t c : Nat) : (reachCycle s t c).regions = s.regions := rfl
@[simp] theorem reachCycle_net (s : State) (t c : Nat) : (reachCycle s t c).net = s.net := rfl
@[simp] theorem reachCycle_lamp (s : State) (t c : Nat) : (reachCycle s t c).lamp = s.lamp := rfl
@[simp] theorem reachCycle_inc (s : State) (t c : Nat) : (reachCycle s t c).inc = s.inc := rfl
@[simp] theorem reachCycle_fields (s : State) (t c : Nat) : (reachCycle s t c).fields = s.fields := rfl
@[simp] theorem reachCycle_trace (s : State) (t c : Nat) : (reachCycle s t c).trace = s.trace := rfl
@[simp] theorem reachCycle_latch (s : State) (t c : Nat) : (reachCycle s t c).latch = s.latch := rfl
@[simp] theorem reachCycle_armed (s : State) (t c : Nat) : (reachCycle s t c).armed = s.armed := rfl
@[simp] theorem reachCycle_seg (s : State) (t c : Nat) : (reachCycle s t c).seg = s.seg := rfl
@[simp] theorem reachCycle_segKept (s : State) (t c : Nat) : (reachCycle s t c).segKept = s.segKept := rfl
@[simp] theorem reachCycle_dieFence (s : State) (t c : Nat) : (reachCycle s t c).dieFence = s.dieFence := rfl
@[simp] theorem reachCycle_hosts (s : State) (t c : Nat) : (reachCycle s t c).hosts = s.hosts := rfl
@[simp] theorem reachCycle_sem (s : State) (t c : Nat) : (reachCycle s t c).sem = s.sem := rfl
@[simp] theorem reachCycle_eng (s : State) (t c : Nat) : (reachCycle s t c).eng = s.eng := rfl
@[simp] theorem reachCycle_copies (s : State) (t c : Nat) : (reachCycle s t c).copies = s.copies := rfl
@[simp] theorem reachCycle_msds (s : State) (t c : Nat) : (reachCycle s t c).msds = s.msds := rfl
@[simp] theorem reachCycle_pds (s : State) (t c : Nat) : (reachCycle s t c).pds = s.pds := rfl
@[simp] theorem reachCycle_part (s : State) (t c : Nat) : (reachCycle s t c).part = s.part := rfl
@[simp] theorem reachCycle_boot (s : State) (t c : Nat) : (reachCycle s t c).boot = s.boot := rfl
@[simp] theorem reachCycle_fw (s : State) (t c : Nat) : (reachCycle s t c).fw = s.fw := rfl
@[simp] theorem reachCycle_snuff (s : State) (t c : Nat) : (reachCycle s t c).snuff = s.snuff := rfl
@[simp] theorem reachCycle_tc (s : State) (t c : Nat) : (reachCycle s t c).tc = s.tc := rfl
@[simp] theorem reachCycle_power (s : State) (t c : Nat) : (reachCycle s t c).power = s.power := rfl
@[simp] theorem reachCycle_mantle (s : State) (t c : Nat) : (reachCycle s t c).mantle = s.mantle := rfl
@[simp] theorem reachCycle_dies (s : State) (t c : Nat) : (reachCycle s t c).dies = s.dies := rfl
@[simp] theorem reachCycle_jsel (s : State) (t c : Nat) : (reachCycle s t c).jsel = s.jsel := rfl
@[simp] theorem reachCycle_island (s : State) (t c : Nat) : (reachCycle s t c).island = s.island := rfl
@[simp] theorem reachCycle_ans (s : State) (t c : Nat) : (reachCycle s t c).ans = s.ans := rfl
@[simp] theorem reachCycle_cdErr (s : State) (t c : Nat) : (reachCycle s t c).cdErr = s.cdErr := rfl
@[simp] theorem reachCycle_getWick (s : State) (t c : Nat) (i0 i1 : Nat) : getWick (reachCycle s t c) i0 i1 = getWick s i0 i1 := rfl
@[simp] theorem reachCycle_getFlow (s : State) (t c : Nat) (i0 i1 : Nat) : getFlow (reachCycle s t c) i0 i1 = getFlow s i0 i1 := rfl
@[simp] theorem reachCycle_getCu (s : State) (t c : Nat) (i0 i1 : Nat) : getCu (reachCycle s t c) i0 i1 = getCu s i0 i1 := rfl
@[simp] theorem reachCycle_getMu (s : State) (t c : Nat) (i0 i1 : Nat) : getMu (reachCycle s t c) i0 i1 = getMu s i0 i1 := rfl
@[simp] theorem reachCycle_getTile (s : State) (t c : Nat) (i0 : Nat) : getTile (reachCycle s t c) i0 = getTile s i0 := rfl
@[simp] theorem reachCycle_getRegion (s : State) (t c : Nat) (i0 : Nat) : getRegion (reachCycle s t c) i0 = getRegion s i0 := rfl
@[simp] theorem reachCycle_getField (s : State) (t c : Nat) (i0 : Nat) : getField (reachCycle s t c) i0 = getField s i0 := rfl
@[simp] theorem reachCycle_getDie (s : State) (t c : Nat) (i0 : Nat) : getDie (reachCycle s t c) i0 = getDie s i0 := rfl
@[simp] theorem reachCycle_getHost (s : State) (t c : Nat) (i0 : Nat) : getHost (reachCycle s t c) i0 = getHost s i0 := rfl
@[simp] theorem reachCycle_getEng (s : State) (t c : Nat) (i0 : Nat) : getEng (reachCycle s t c) i0 = getEng s i0 := rfl
@[simp] theorem reachCycle_getMsd (s : State) (t c : Nat) (i0 : Nat) : getMsd (reachCycle s t c) i0 = getMsd s i0 := rfl
@[simp] theorem reachCycle_getPd (s : State) (t c : Nat) (i0 : Nat) : getPd (reachCycle s t c) i0 = getPd s i0 := rfl
@[simp] theorem reachCycle_getPacket (s : State) (t c : Nat) (i0 : Nat) : getPacket (reachCycle s t c) i0 = getPacket s i0 := rfl
@[simp] theorem reachCycle_getMb (s : State) (t c : Nat) (i0 : Nat) : getMb (reachCycle s t c) i0 = getMb s i0 := rfl
@[simp] theorem reachCycle_fenced (s : State) (t c : Nat) (i0 : Nat) : fenced (reachCycle s t c) i0 = fenced s i0 := rfl
@[simp] theorem reachCycle_getBank (s : State) (t c : Nat) (i0 : Nat) : getBank (reachCycle s t c) i0 = getBank s i0 := rfl
@[simp] theorem reachCycle_getBlade (s : State) (t c : Nat) (i0 : Nat) : getBlade (reachCycle s t c) i0 = getBlade s i0 := rfl

/-! ### setRate -/

@[simp] theorem setRate_pending (s : State) (f rate : Nat) : (setRate s f rate).pending = s.pending := rfl
@[simp] theorem setRate_wicks (s : State) (f rate : Nat) : (setRate s f rate).wicks = s.wicks := rfl
@[simp] theorem setRate_flows (s : State) (f rate : Nat) : (setRate s f rate).flows = s.flows := rfl
@[simp] theorem setRate_cus (s : State) (f rate : Nat) : (setRate s f rate).cus = s.cus := rfl
@[simp] theorem setRate_mus (s : State) (f rate : Nat) : (setRate s f rate).mus = s.mus := rfl
@[simp] theorem setRate_tiles (s : State) (f rate : Nat) : (setRate s f rate).tiles = s.tiles := rfl
@[simp] theorem setRate_regions (s : State) (f rate : Nat) : (setRate s f rate).regions = s.regions := rfl
@[simp] theorem setRate_net (s : State) (f rate : Nat) : (setRate s f rate).net = s.net := rfl
@[simp] theorem setRate_lamp (s : State) (f rate : Nat) : (setRate s f rate).lamp = s.lamp := rfl
@[simp] theorem setRate_inc (s : State) (f rate : Nat) : (setRate s f rate).inc = s.inc := rfl
@[simp] theorem setRate_fields (s : State) (f rate : Nat) : (setRate s f rate).fields = s.fields := rfl
@[simp] theorem setRate_trace (s : State) (f rate : Nat) : (setRate s f rate).trace = s.trace := rfl
@[simp] theorem setRate_latch (s : State) (f rate : Nat) : (setRate s f rate).latch = s.latch := rfl
@[simp] theorem setRate_armed (s : State) (f rate : Nat) : (setRate s f rate).armed = s.armed := rfl
@[simp] theorem setRate_seg (s : State) (f rate : Nat) : (setRate s f rate).seg = s.seg := rfl
@[simp] theorem setRate_segKept (s : State) (f rate : Nat) : (setRate s f rate).segKept = s.segKept := rfl
@[simp] theorem setRate_dieFence (s : State) (f rate : Nat) : (setRate s f rate).dieFence = s.dieFence := rfl
@[simp] theorem setRate_hosts (s : State) (f rate : Nat) : (setRate s f rate).hosts = s.hosts := rfl
@[simp] theorem setRate_sem (s : State) (f rate : Nat) : (setRate s f rate).sem = s.sem := rfl
@[simp] theorem setRate_eng (s : State) (f rate : Nat) : (setRate s f rate).eng = s.eng := rfl
@[simp] theorem setRate_copies (s : State) (f rate : Nat) : (setRate s f rate).copies = s.copies := rfl
@[simp] theorem setRate_msds (s : State) (f rate : Nat) : (setRate s f rate).msds = s.msds := rfl
@[simp] theorem setRate_pds (s : State) (f rate : Nat) : (setRate s f rate).pds = s.pds := rfl
@[simp] theorem setRate_part (s : State) (f rate : Nat) : (setRate s f rate).part = s.part := rfl
@[simp] theorem setRate_boot (s : State) (f rate : Nat) : (setRate s f rate).boot = s.boot := rfl
@[simp] theorem setRate_fw (s : State) (f rate : Nat) : (setRate s f rate).fw = s.fw := rfl
@[simp] theorem setRate_snuff (s : State) (f rate : Nat) : (setRate s f rate).snuff = s.snuff := rfl
@[simp] theorem setRate_tc (s : State) (f rate : Nat) : (setRate s f rate).tc = s.tc := rfl
@[simp] theorem setRate_power (s : State) (f rate : Nat) : (setRate s f rate).power = s.power := rfl
@[simp] theorem setRate_mantle (s : State) (f rate : Nat) : (setRate s f rate).mantle = s.mantle := rfl
@[simp] theorem setRate_dies (s : State) (f rate : Nat) : (setRate s f rate).dies = s.dies := rfl
@[simp] theorem setRate_jsel (s : State) (f rate : Nat) : (setRate s f rate).jsel = s.jsel := rfl
@[simp] theorem setRate_island (s : State) (f rate : Nat) : (setRate s f rate).island = s.island := rfl
@[simp] theorem setRate_ans (s : State) (f rate : Nat) : (setRate s f rate).ans = s.ans := rfl
@[simp] theorem setRate_cdErr (s : State) (f rate : Nat) : (setRate s f rate).cdErr = s.cdErr := rfl
@[simp] theorem setRate_getWick (s : State) (f rate : Nat) (i0 i1 : Nat) : getWick (setRate s f rate) i0 i1 = getWick s i0 i1 := rfl
@[simp] theorem setRate_getFlow (s : State) (f rate : Nat) (i0 i1 : Nat) : getFlow (setRate s f rate) i0 i1 = getFlow s i0 i1 := rfl
@[simp] theorem setRate_getCu (s : State) (f rate : Nat) (i0 i1 : Nat) : getCu (setRate s f rate) i0 i1 = getCu s i0 i1 := rfl
@[simp] theorem setRate_getMu (s : State) (f rate : Nat) (i0 i1 : Nat) : getMu (setRate s f rate) i0 i1 = getMu s i0 i1 := rfl
@[simp] theorem setRate_getTile (s : State) (f rate : Nat) (i0 : Nat) : getTile (setRate s f rate) i0 = getTile s i0 := rfl
@[simp] theorem setRate_getRegion (s : State) (f rate : Nat) (i0 : Nat) : getRegion (setRate s f rate) i0 = getRegion s i0 := rfl
@[simp] theorem setRate_getField (s : State) (f rate : Nat) (i0 : Nat) : getField (setRate s f rate) i0 = getField s i0 := rfl
@[simp] theorem setRate_getDie (s : State) (f rate : Nat) (i0 : Nat) : getDie (setRate s f rate) i0 = getDie s i0 := rfl
@[simp] theorem setRate_getHost (s : State) (f rate : Nat) (i0 : Nat) : getHost (setRate s f rate) i0 = getHost s i0 := rfl
@[simp] theorem setRate_getEng (s : State) (f rate : Nat) (i0 : Nat) : getEng (setRate s f rate) i0 = getEng s i0 := rfl
@[simp] theorem setRate_getMsd (s : State) (f rate : Nat) (i0 : Nat) : getMsd (setRate s f rate) i0 = getMsd s i0 := rfl
@[simp] theorem setRate_getPd (s : State) (f rate : Nat) (i0 : Nat) : getPd (setRate s f rate) i0 = getPd s i0 := rfl
@[simp] theorem setRate_getPacket (s : State) (f rate : Nat) (i0 : Nat) : getPacket (setRate s f rate) i0 = getPacket s i0 := rfl
@[simp] theorem setRate_getMb (s : State) (f rate : Nat) (i0 : Nat) : getMb (setRate s f rate) i0 = getMb s i0 := rfl
@[simp] theorem setRate_fenced (s : State) (f rate : Nat) (i0 : Nat) : fenced (setRate s f rate) i0 = fenced s i0 := rfl
@[simp] theorem setRate_getBank (s : State) (f rate : Nat) (i0 : Nat) : getBank (setRate s f rate) i0 = getBank s i0 := rfl
@[simp] theorem setRate_getBlade (s : State) (f rate : Nat) (i0 : Nat) : getBlade (setRate s f rate) i0 = getBlade s i0 := rfl

/-! ### setHost -/

@[simp] theorem setHost_pending (s : State) (p : Nat) (h : HostPort) : (setHost s p h).pending = s.pending := rfl
@[simp] theorem setHost_time (s : State) (p : Nat) (h : HostPort) : (setHost s p h).time = s.time := rfl
@[simp] theorem setHost_wicks (s : State) (p : Nat) (h : HostPort) : (setHost s p h).wicks = s.wicks := rfl
@[simp] theorem setHost_flows (s : State) (p : Nat) (h : HostPort) : (setHost s p h).flows = s.flows := rfl
@[simp] theorem setHost_cus (s : State) (p : Nat) (h : HostPort) : (setHost s p h).cus = s.cus := rfl
@[simp] theorem setHost_mus (s : State) (p : Nat) (h : HostPort) : (setHost s p h).mus = s.mus := rfl
@[simp] theorem setHost_tiles (s : State) (p : Nat) (h : HostPort) : (setHost s p h).tiles = s.tiles := rfl
@[simp] theorem setHost_regions (s : State) (p : Nat) (h : HostPort) : (setHost s p h).regions = s.regions := rfl
@[simp] theorem setHost_net (s : State) (p : Nat) (h : HostPort) : (setHost s p h).net = s.net := rfl
@[simp] theorem setHost_lamp (s : State) (p : Nat) (h : HostPort) : (setHost s p h).lamp = s.lamp := rfl
@[simp] theorem setHost_inc (s : State) (p : Nat) (h : HostPort) : (setHost s p h).inc = s.inc := rfl
@[simp] theorem setHost_fields (s : State) (p : Nat) (h : HostPort) : (setHost s p h).fields = s.fields := rfl
@[simp] theorem setHost_trace (s : State) (p : Nat) (h : HostPort) : (setHost s p h).trace = s.trace := rfl
@[simp] theorem setHost_latch (s : State) (p : Nat) (h : HostPort) : (setHost s p h).latch = s.latch := rfl
@[simp] theorem setHost_armed (s : State) (p : Nat) (h : HostPort) : (setHost s p h).armed = s.armed := rfl
@[simp] theorem setHost_seg (s : State) (p : Nat) (h : HostPort) : (setHost s p h).seg = s.seg := rfl
@[simp] theorem setHost_segKept (s : State) (p : Nat) (h : HostPort) : (setHost s p h).segKept = s.segKept := rfl
@[simp] theorem setHost_dieFence (s : State) (p : Nat) (h : HostPort) : (setHost s p h).dieFence = s.dieFence := rfl
@[simp] theorem setHost_sem (s : State) (p : Nat) (h : HostPort) : (setHost s p h).sem = s.sem := rfl
@[simp] theorem setHost_eng (s : State) (p : Nat) (h : HostPort) : (setHost s p h).eng = s.eng := rfl
@[simp] theorem setHost_copies (s : State) (p : Nat) (h : HostPort) : (setHost s p h).copies = s.copies := rfl
@[simp] theorem setHost_msds (s : State) (p : Nat) (h : HostPort) : (setHost s p h).msds = s.msds := rfl
@[simp] theorem setHost_pds (s : State) (p : Nat) (h : HostPort) : (setHost s p h).pds = s.pds := rfl
@[simp] theorem setHost_part (s : State) (p : Nat) (h : HostPort) : (setHost s p h).part = s.part := rfl
@[simp] theorem setHost_boot (s : State) (p : Nat) (h : HostPort) : (setHost s p h).boot = s.boot := rfl
@[simp] theorem setHost_fw (s : State) (p : Nat) (h : HostPort) : (setHost s p h).fw = s.fw := rfl
@[simp] theorem setHost_snuff (s : State) (p : Nat) (h : HostPort) : (setHost s p h).snuff = s.snuff := rfl
@[simp] theorem setHost_tc (s : State) (p : Nat) (h : HostPort) : (setHost s p h).tc = s.tc := rfl
@[simp] theorem setHost_power (s : State) (p : Nat) (h : HostPort) : (setHost s p h).power = s.power := rfl
@[simp] theorem setHost_mantle (s : State) (p : Nat) (h : HostPort) : (setHost s p h).mantle = s.mantle := rfl
@[simp] theorem setHost_dies (s : State) (p : Nat) (h : HostPort) : (setHost s p h).dies = s.dies := rfl
@[simp] theorem setHost_jsel (s : State) (p : Nat) (h : HostPort) : (setHost s p h).jsel = s.jsel := rfl
@[simp] theorem setHost_island (s : State) (p : Nat) (h : HostPort) : (setHost s p h).island = s.island := rfl
@[simp] theorem setHost_ans (s : State) (p : Nat) (h : HostPort) : (setHost s p h).ans = s.ans := rfl
@[simp] theorem setHost_cdErr (s : State) (p : Nat) (h : HostPort) : (setHost s p h).cdErr = s.cdErr := rfl
@[simp] theorem setHost_getWick (s : State) (p : Nat) (h : HostPort) (i0 i1 : Nat) : getWick (setHost s p h) i0 i1 = getWick s i0 i1 := rfl
@[simp] theorem setHost_getFlow (s : State) (p : Nat) (h : HostPort) (i0 i1 : Nat) : getFlow (setHost s p h) i0 i1 = getFlow s i0 i1 := rfl
@[simp] theorem setHost_getCu (s : State) (p : Nat) (h : HostPort) (i0 i1 : Nat) : getCu (setHost s p h) i0 i1 = getCu s i0 i1 := rfl
@[simp] theorem setHost_getMu (s : State) (p : Nat) (h : HostPort) (i0 i1 : Nat) : getMu (setHost s p h) i0 i1 = getMu s i0 i1 := rfl
@[simp] theorem setHost_getTile (s : State) (p : Nat) (h : HostPort) (i0 : Nat) : getTile (setHost s p h) i0 = getTile s i0 := rfl
@[simp] theorem setHost_getRegion (s : State) (p : Nat) (h : HostPort) (i0 : Nat) : getRegion (setHost s p h) i0 = getRegion s i0 := rfl
@[simp] theorem setHost_getField (s : State) (p : Nat) (h : HostPort) (i0 : Nat) : getField (setHost s p h) i0 = getField s i0 := rfl
@[simp] theorem setHost_getDie (s : State) (p : Nat) (h : HostPort) (i0 : Nat) : getDie (setHost s p h) i0 = getDie s i0 := rfl
@[simp] theorem setHost_getEng (s : State) (p : Nat) (h : HostPort) (i0 : Nat) : getEng (setHost s p h) i0 = getEng s i0 := rfl
@[simp] theorem setHost_getMsd (s : State) (p : Nat) (h : HostPort) (i0 : Nat) : getMsd (setHost s p h) i0 = getMsd s i0 := rfl
@[simp] theorem setHost_getPd (s : State) (p : Nat) (h : HostPort) (i0 : Nat) : getPd (setHost s p h) i0 = getPd s i0 := rfl
@[simp] theorem setHost_getPacket (s : State) (p : Nat) (h : HostPort) (i0 : Nat) : getPacket (setHost s p h) i0 = getPacket s i0 := rfl
@[simp] theorem setHost_getMb (s : State) (p : Nat) (h : HostPort) (i0 : Nat) : getMb (setHost s p h) i0 = getMb s i0 := rfl
@[simp] theorem setHost_nowNs (s : State) (p : Nat) (h : HostPort) : nowNs (setHost s p h) = nowNs s := rfl
@[simp] theorem setHost_nowPs (s : State) (p : Nat) (h : HostPort) : nowPs (setHost s p h) = nowPs s := rfl
@[simp] theorem setHost_fenced (s : State) (p : Nat) (h : HostPort) (i0 : Nat) : fenced (setHost s p h) i0 = fenced s i0 := rfl
@[simp] theorem setHost_getBank (s : State) (p : Nat) (h : HostPort) (i0 : Nat) : getBank (setHost s p h) i0 = getBank s i0 := rfl
@[simp] theorem setHost_getBlade (s : State) (p : Nat) (h : HostPort) (i0 : Nat) : getBlade (setHost s p h) i0 = getBlade s i0 := rfl

@[simp] theorem modHost_eq (s : State) (p : Nat) (f : HostPort → HostPort) : modHost s p f = setHost s p (f (getHost s p)) := rfl

/-! ### setRing -/

@[simp] theorem setRing_pending (s : State) (p e : Nat) (r : HRing) : (setRing s p e r).pending = s.pending := rfl
@[simp] theorem setRing_time (s : State) (p e : Nat) (r : HRing) : (setRing s p e r).time = s.time := rfl
@[simp] theorem setRing_wicks (s : State) (p e : Nat) (r : HRing) : (setRing s p e r).wicks = s.wicks := rfl
@[simp] theorem setRing_flows (s : State) (p e : Nat) (r : HRing) : (setRing s p e r).flows = s.flows := rfl
@[simp] theorem setRing_cus (s : State) (p e : Nat) (r : HRing) : (setRing s p e r).cus = s.cus := rfl
@[simp] theorem setRing_mus (s : State) (p e : Nat) (r : HRing) : (setRing s p e r).mus = s.mus := rfl
@[simp] theorem setRing_tiles (s : State) (p e : Nat) (r : HRing) : (setRing s p e r).tiles = s.tiles := rfl
@[simp] theorem setRing_regions (s : State) (p e : Nat) (r : HRing) : (setRing s p e r).regions = s.regions := rfl
@[simp] theorem setRing_net (s : State) (p e : Nat) (r : HRing) : (setRing s p e r).net = s.net := rfl
@[simp] theorem setRing_lamp (s : State) (p e : Nat) (r : HRing) : (setRing s p e r).lamp = s.lamp := rfl
@[simp] theorem setRing_inc (s : State) (p e : Nat) (r : HRing) : (setRing s p e r).inc = s.inc := rfl
@[simp] theorem setRing_fields (s : State) (p e : Nat) (r : HRing) : (setRing s p e r).fields = s.fields := rfl
@[simp] theorem setRing_trace (s : State) (p e : Nat) (r : HRing) : (setRing s p e r).trace = s.trace := rfl
@[simp] theorem setRing_latch (s : State) (p e : Nat) (r : HRing) : (setRing s p e r).latch = s.latch := rfl
@[simp] theorem setRing_armed (s : State) (p e : Nat) (r : HRing) : (setRing s p e r).armed = s.armed := rfl
@[simp] theorem setRing_seg (s : State) (p e : Nat) (r : HRing) : (setRing s p e r).seg = s.seg := rfl
@[simp] theorem setRing_segKept (s : State) (p e : Nat) (r : HRing) : (setRing s p e r).segKept = s.segKept := rfl
@[simp] theorem setRing_dieFence (s : State) (p e : Nat) (r : HRing) : (setRing s p e r).dieFence = s.dieFence := rfl
@[simp] theorem setRing_sem (s : State) (p e : Nat) (r : HRing) : (setRing s p e r).sem = s.sem := rfl
@[simp] theorem setRing_eng (s : State) (p e : Nat) (r : HRing) : (setRing s p e r).eng = s.eng := rfl
@[simp] theorem setRing_copies (s : State) (p e : Nat) (r : HRing) : (setRing s p e r).copies = s.copies := rfl
@[simp] theorem setRing_msds (s : State) (p e : Nat) (r : HRing) : (setRing s p e r).msds = s.msds := rfl
@[simp] theorem setRing_pds (s : State) (p e : Nat) (r : HRing) : (setRing s p e r).pds = s.pds := rfl
@[simp] theorem setRing_part (s : State) (p e : Nat) (r : HRing) : (setRing s p e r).part = s.part := rfl
@[simp] theorem setRing_boot (s : State) (p e : Nat) (r : HRing) : (setRing s p e r).boot = s.boot := rfl
@[simp] theorem setRing_fw (s : State) (p e : Nat) (r : HRing) : (setRing s p e r).fw = s.fw := rfl
@[simp] theorem setRing_snuff (s : State) (p e : Nat) (r : HRing) : (setRing s p e r).snuff = s.snuff := rfl
@[simp] theorem setRing_tc (s : State) (p e : Nat) (r : HRing) : (setRing s p e r).tc = s.tc := rfl
@[simp] theorem setRing_power (s : State) (p e : Nat) (r : HRing) : (setRing s p e r).power = s.power := rfl
@[simp] theorem setRing_mantle (s : State) (p e : Nat) (r : HRing) : (setRing s p e r).mantle = s.mantle := rfl
@[simp] theorem setRing_dies (s : State) (p e : Nat) (r : HRing) : (setRing s p e r).dies = s.dies := rfl
@[simp] theorem setRing_jsel (s : State) (p e : Nat) (r : HRing) : (setRing s p e r).jsel = s.jsel := rfl
@[simp] theorem setRing_island (s : State) (p e : Nat) (r : HRing) : (setRing s p e r).island = s.island := rfl
@[simp] theorem setRing_ans (s : State) (p e : Nat) (r : HRing) : (setRing s p e r).ans = s.ans := rfl
@[simp] theorem setRing_cdErr (s : State) (p e : Nat) (r : HRing) : (setRing s p e r).cdErr = s.cdErr := rfl
@[simp] theorem setRing_getWick (s : State) (p e : Nat) (r : HRing) (i0 i1 : Nat) : getWick (setRing s p e r) i0 i1 = getWick s i0 i1 := rfl
@[simp] theorem setRing_getFlow (s : State) (p e : Nat) (r : HRing) (i0 i1 : Nat) : getFlow (setRing s p e r) i0 i1 = getFlow s i0 i1 := rfl
@[simp] theorem setRing_getCu (s : State) (p e : Nat) (r : HRing) (i0 i1 : Nat) : getCu (setRing s p e r) i0 i1 = getCu s i0 i1 := rfl
@[simp] theorem setRing_getMu (s : State) (p e : Nat) (r : HRing) (i0 i1 : Nat) : getMu (setRing s p e r) i0 i1 = getMu s i0 i1 := rfl
@[simp] theorem setRing_getTile (s : State) (p e : Nat) (r : HRing) (i0 : Nat) : getTile (setRing s p e r) i0 = getTile s i0 := rfl
@[simp] theorem setRing_getRegion (s : State) (p e : Nat) (r : HRing) (i0 : Nat) : getRegion (setRing s p e r) i0 = getRegion s i0 := rfl
@[simp] theorem setRing_getField (s : State) (p e : Nat) (r : HRing) (i0 : Nat) : getField (setRing s p e r) i0 = getField s i0 := rfl
@[simp] theorem setRing_getDie (s : State) (p e : Nat) (r : HRing) (i0 : Nat) : getDie (setRing s p e r) i0 = getDie s i0 := rfl
@[simp] theorem setRing_getEng (s : State) (p e : Nat) (r : HRing) (i0 : Nat) : getEng (setRing s p e r) i0 = getEng s i0 := rfl
@[simp] theorem setRing_getMsd (s : State) (p e : Nat) (r : HRing) (i0 : Nat) : getMsd (setRing s p e r) i0 = getMsd s i0 := rfl
@[simp] theorem setRing_getPd (s : State) (p e : Nat) (r : HRing) (i0 : Nat) : getPd (setRing s p e r) i0 = getPd s i0 := rfl
@[simp] theorem setRing_getPacket (s : State) (p e : Nat) (r : HRing) (i0 : Nat) : getPacket (setRing s p e r) i0 = getPacket s i0 := rfl
@[simp] theorem setRing_getMb (s : State) (p e : Nat) (r : HRing) (i0 : Nat) : getMb (setRing s p e r) i0 = getMb s i0 := rfl
@[simp] theorem setRing_nowNs (s : State) (p e : Nat) (r : HRing) : nowNs (setRing s p e r) = nowNs s := rfl
@[simp] theorem setRing_nowPs (s : State) (p e : Nat) (r : HRing) : nowPs (setRing s p e r) = nowPs s := rfl
@[simp] theorem setRing_fenced (s : State) (p e : Nat) (r : HRing) (i0 : Nat) : fenced (setRing s p e r) i0 = fenced s i0 := rfl
@[simp] theorem setRing_getBank (s : State) (p e : Nat) (r : HRing) (i0 : Nat) : getBank (setRing s p e r) i0 = getBank s i0 := rfl
@[simp] theorem setRing_getBlade (s : State) (p e : Nat) (r : HRing) (i0 : Nat) : getBlade (setRing s p e r) i0 = getBlade s i0 := rfl

/-! ### hostWrite -/

@[simp] theorem hostWrite_pending (s : State) (p a : Nat) (bs : List Byte) : (hostWrite s p a bs).pending = s.pending := rfl
@[simp] theorem hostWrite_time (s : State) (p a : Nat) (bs : List Byte) : (hostWrite s p a bs).time = s.time := rfl
@[simp] theorem hostWrite_wicks (s : State) (p a : Nat) (bs : List Byte) : (hostWrite s p a bs).wicks = s.wicks := rfl
@[simp] theorem hostWrite_flows (s : State) (p a : Nat) (bs : List Byte) : (hostWrite s p a bs).flows = s.flows := rfl
@[simp] theorem hostWrite_cus (s : State) (p a : Nat) (bs : List Byte) : (hostWrite s p a bs).cus = s.cus := rfl
@[simp] theorem hostWrite_mus (s : State) (p a : Nat) (bs : List Byte) : (hostWrite s p a bs).mus = s.mus := rfl
@[simp] theorem hostWrite_tiles (s : State) (p a : Nat) (bs : List Byte) : (hostWrite s p a bs).tiles = s.tiles := rfl
@[simp] theorem hostWrite_regions (s : State) (p a : Nat) (bs : List Byte) : (hostWrite s p a bs).regions = s.regions := rfl
@[simp] theorem hostWrite_net (s : State) (p a : Nat) (bs : List Byte) : (hostWrite s p a bs).net = s.net := rfl
@[simp] theorem hostWrite_lamp (s : State) (p a : Nat) (bs : List Byte) : (hostWrite s p a bs).lamp = s.lamp := rfl
@[simp] theorem hostWrite_inc (s : State) (p a : Nat) (bs : List Byte) : (hostWrite s p a bs).inc = s.inc := rfl
@[simp] theorem hostWrite_fields (s : State) (p a : Nat) (bs : List Byte) : (hostWrite s p a bs).fields = s.fields := rfl
@[simp] theorem hostWrite_trace (s : State) (p a : Nat) (bs : List Byte) : (hostWrite s p a bs).trace = s.trace := rfl
@[simp] theorem hostWrite_latch (s : State) (p a : Nat) (bs : List Byte) : (hostWrite s p a bs).latch = s.latch := rfl
@[simp] theorem hostWrite_armed (s : State) (p a : Nat) (bs : List Byte) : (hostWrite s p a bs).armed = s.armed := rfl
@[simp] theorem hostWrite_seg (s : State) (p a : Nat) (bs : List Byte) : (hostWrite s p a bs).seg = s.seg := rfl
@[simp] theorem hostWrite_segKept (s : State) (p a : Nat) (bs : List Byte) : (hostWrite s p a bs).segKept = s.segKept := rfl
@[simp] theorem hostWrite_dieFence (s : State) (p a : Nat) (bs : List Byte) : (hostWrite s p a bs).dieFence = s.dieFence := rfl
@[simp] theorem hostWrite_sem (s : State) (p a : Nat) (bs : List Byte) : (hostWrite s p a bs).sem = s.sem := rfl
@[simp] theorem hostWrite_eng (s : State) (p a : Nat) (bs : List Byte) : (hostWrite s p a bs).eng = s.eng := rfl
@[simp] theorem hostWrite_copies (s : State) (p a : Nat) (bs : List Byte) : (hostWrite s p a bs).copies = s.copies := rfl
@[simp] theorem hostWrite_msds (s : State) (p a : Nat) (bs : List Byte) : (hostWrite s p a bs).msds = s.msds := rfl
@[simp] theorem hostWrite_pds (s : State) (p a : Nat) (bs : List Byte) : (hostWrite s p a bs).pds = s.pds := rfl
@[simp] theorem hostWrite_part (s : State) (p a : Nat) (bs : List Byte) : (hostWrite s p a bs).part = s.part := rfl
@[simp] theorem hostWrite_boot (s : State) (p a : Nat) (bs : List Byte) : (hostWrite s p a bs).boot = s.boot := rfl
@[simp] theorem hostWrite_fw (s : State) (p a : Nat) (bs : List Byte) : (hostWrite s p a bs).fw = s.fw := rfl
@[simp] theorem hostWrite_snuff (s : State) (p a : Nat) (bs : List Byte) : (hostWrite s p a bs).snuff = s.snuff := rfl
@[simp] theorem hostWrite_tc (s : State) (p a : Nat) (bs : List Byte) : (hostWrite s p a bs).tc = s.tc := rfl
@[simp] theorem hostWrite_power (s : State) (p a : Nat) (bs : List Byte) : (hostWrite s p a bs).power = s.power := rfl
@[simp] theorem hostWrite_mantle (s : State) (p a : Nat) (bs : List Byte) : (hostWrite s p a bs).mantle = s.mantle := rfl
@[simp] theorem hostWrite_dies (s : State) (p a : Nat) (bs : List Byte) : (hostWrite s p a bs).dies = s.dies := rfl
@[simp] theorem hostWrite_jsel (s : State) (p a : Nat) (bs : List Byte) : (hostWrite s p a bs).jsel = s.jsel := rfl
@[simp] theorem hostWrite_island (s : State) (p a : Nat) (bs : List Byte) : (hostWrite s p a bs).island = s.island := rfl
@[simp] theorem hostWrite_ans (s : State) (p a : Nat) (bs : List Byte) : (hostWrite s p a bs).ans = s.ans := rfl
@[simp] theorem hostWrite_cdErr (s : State) (p a : Nat) (bs : List Byte) : (hostWrite s p a bs).cdErr = s.cdErr := rfl
@[simp] theorem hostWrite_getWick (s : State) (p a : Nat) (bs : List Byte) (i0 i1 : Nat) : getWick (hostWrite s p a bs) i0 i1 = getWick s i0 i1 := rfl
@[simp] theorem hostWrite_getFlow (s : State) (p a : Nat) (bs : List Byte) (i0 i1 : Nat) : getFlow (hostWrite s p a bs) i0 i1 = getFlow s i0 i1 := rfl
@[simp] theorem hostWrite_getCu (s : State) (p a : Nat) (bs : List Byte) (i0 i1 : Nat) : getCu (hostWrite s p a bs) i0 i1 = getCu s i0 i1 := rfl
@[simp] theorem hostWrite_getMu (s : State) (p a : Nat) (bs : List Byte) (i0 i1 : Nat) : getMu (hostWrite s p a bs) i0 i1 = getMu s i0 i1 := rfl
@[simp] theorem hostWrite_getTile (s : State) (p a : Nat) (bs : List Byte) (i0 : Nat) : getTile (hostWrite s p a bs) i0 = getTile s i0 := rfl
@[simp] theorem hostWrite_getRegion (s : State) (p a : Nat) (bs : List Byte) (i0 : Nat) : getRegion (hostWrite s p a bs) i0 = getRegion s i0 := rfl
@[simp] theorem hostWrite_getField (s : State) (p a : Nat) (bs : List Byte) (i0 : Nat) : getField (hostWrite s p a bs) i0 = getField s i0 := rfl
@[simp] theorem hostWrite_getDie (s : State) (p a : Nat) (bs : List Byte) (i0 : Nat) : getDie (hostWrite s p a bs) i0 = getDie s i0 := rfl
@[simp] theorem hostWrite_getEng (s : State) (p a : Nat) (bs : List Byte) (i0 : Nat) : getEng (hostWrite s p a bs) i0 = getEng s i0 := rfl
@[simp] theorem hostWrite_getMsd (s : State) (p a : Nat) (bs : List Byte) (i0 : Nat) : getMsd (hostWrite s p a bs) i0 = getMsd s i0 := rfl
@[simp] theorem hostWrite_getPd (s : State) (p a : Nat) (bs : List Byte) (i0 : Nat) : getPd (hostWrite s p a bs) i0 = getPd s i0 := rfl
@[simp] theorem hostWrite_getPacket (s : State) (p a : Nat) (bs : List Byte) (i0 : Nat) : getPacket (hostWrite s p a bs) i0 = getPacket s i0 := rfl
@[simp] theorem hostWrite_getMb (s : State) (p a : Nat) (bs : List Byte) (i0 : Nat) : getMb (hostWrite s p a bs) i0 = getMb s i0 := rfl
@[simp] theorem hostWrite_nowNs (s : State) (p a : Nat) (bs : List Byte) : nowNs (hostWrite s p a bs) = nowNs s := rfl
@[simp] theorem hostWrite_nowPs (s : State) (p a : Nat) (bs : List Byte) : nowPs (hostWrite s p a bs) = nowPs s := rfl
@[simp] theorem hostWrite_fenced (s : State) (p a : Nat) (bs : List Byte) (i0 : Nat) : fenced (hostWrite s p a bs) i0 = fenced s i0 := rfl
@[simp] theorem hostWrite_getBank (s : State) (p a : Nat) (bs : List Byte) (i0 : Nat) : getBank (hostWrite s p a bs) i0 = getBank s i0 := rfl
@[simp] theorem hostWrite_getBlade (s : State) (p a : Nat) (bs : List Byte) (i0 : Nat) : getBlade (hostWrite s p a bs) i0 = getBlade s i0 := rfl

/-! ### sendVec -/

@[simp] theorem sendVec_pending (s : State) (p v : Nat) : (sendVec s p v).pending = s.pending := rfl
@[simp] theorem sendVec_time (s : State) (p v : Nat) : (sendVec s p v).time = s.time := rfl
@[simp] theorem sendVec_wicks (s : State) (p v : Nat) : (sendVec s p v).wicks = s.wicks := rfl
@[simp] theorem sendVec_flows (s : State) (p v : Nat) : (sendVec s p v).flows = s.flows := rfl
@[simp] theorem sendVec_cus (s : State) (p v : Nat) : (sendVec s p v).cus = s.cus := rfl
@[simp] theorem sendVec_mus (s : State) (p v : Nat) : (sendVec s p v).mus = s.mus := rfl
@[simp] theorem sendVec_tiles (s : State) (p v : Nat) : (sendVec s p v).tiles = s.tiles := rfl
@[simp] theorem sendVec_regions (s : State) (p v : Nat) : (sendVec s p v).regions = s.regions := rfl
@[simp] theorem sendVec_net (s : State) (p v : Nat) : (sendVec s p v).net = s.net := rfl
@[simp] theorem sendVec_lamp (s : State) (p v : Nat) : (sendVec s p v).lamp = s.lamp := rfl
@[simp] theorem sendVec_inc (s : State) (p v : Nat) : (sendVec s p v).inc = s.inc := rfl
@[simp] theorem sendVec_fields (s : State) (p v : Nat) : (sendVec s p v).fields = s.fields := rfl
@[simp] theorem sendVec_trace (s : State) (p v : Nat) : (sendVec s p v).trace = s.trace := rfl
@[simp] theorem sendVec_latch (s : State) (p v : Nat) : (sendVec s p v).latch = s.latch := rfl
@[simp] theorem sendVec_armed (s : State) (p v : Nat) : (sendVec s p v).armed = s.armed := rfl
@[simp] theorem sendVec_seg (s : State) (p v : Nat) : (sendVec s p v).seg = s.seg := rfl
@[simp] theorem sendVec_segKept (s : State) (p v : Nat) : (sendVec s p v).segKept = s.segKept := rfl
@[simp] theorem sendVec_dieFence (s : State) (p v : Nat) : (sendVec s p v).dieFence = s.dieFence := rfl
@[simp] theorem sendVec_sem (s : State) (p v : Nat) : (sendVec s p v).sem = s.sem := rfl
@[simp] theorem sendVec_eng (s : State) (p v : Nat) : (sendVec s p v).eng = s.eng := rfl
@[simp] theorem sendVec_copies (s : State) (p v : Nat) : (sendVec s p v).copies = s.copies := rfl
@[simp] theorem sendVec_msds (s : State) (p v : Nat) : (sendVec s p v).msds = s.msds := rfl
@[simp] theorem sendVec_pds (s : State) (p v : Nat) : (sendVec s p v).pds = s.pds := rfl
@[simp] theorem sendVec_part (s : State) (p v : Nat) : (sendVec s p v).part = s.part := rfl
@[simp] theorem sendVec_boot (s : State) (p v : Nat) : (sendVec s p v).boot = s.boot := rfl
@[simp] theorem sendVec_fw (s : State) (p v : Nat) : (sendVec s p v).fw = s.fw := rfl
@[simp] theorem sendVec_snuff (s : State) (p v : Nat) : (sendVec s p v).snuff = s.snuff := rfl
@[simp] theorem sendVec_tc (s : State) (p v : Nat) : (sendVec s p v).tc = s.tc := rfl
@[simp] theorem sendVec_power (s : State) (p v : Nat) : (sendVec s p v).power = s.power := rfl
@[simp] theorem sendVec_mantle (s : State) (p v : Nat) : (sendVec s p v).mantle = s.mantle := rfl
@[simp] theorem sendVec_dies (s : State) (p v : Nat) : (sendVec s p v).dies = s.dies := rfl
@[simp] theorem sendVec_jsel (s : State) (p v : Nat) : (sendVec s p v).jsel = s.jsel := rfl
@[simp] theorem sendVec_island (s : State) (p v : Nat) : (sendVec s p v).island = s.island := rfl
@[simp] theorem sendVec_ans (s : State) (p v : Nat) : (sendVec s p v).ans = s.ans := rfl
@[simp] theorem sendVec_cdErr (s : State) (p v : Nat) : (sendVec s p v).cdErr = s.cdErr := rfl
@[simp] theorem sendVec_getWick (s : State) (p v : Nat) (i0 i1 : Nat) : getWick (sendVec s p v) i0 i1 = getWick s i0 i1 := rfl
@[simp] theorem sendVec_getFlow (s : State) (p v : Nat) (i0 i1 : Nat) : getFlow (sendVec s p v) i0 i1 = getFlow s i0 i1 := rfl
@[simp] theorem sendVec_getCu (s : State) (p v : Nat) (i0 i1 : Nat) : getCu (sendVec s p v) i0 i1 = getCu s i0 i1 := rfl
@[simp] theorem sendVec_getMu (s : State) (p v : Nat) (i0 i1 : Nat) : getMu (sendVec s p v) i0 i1 = getMu s i0 i1 := rfl
@[simp] theorem sendVec_getTile (s : State) (p v : Nat) (i0 : Nat) : getTile (sendVec s p v) i0 = getTile s i0 := rfl
@[simp] theorem sendVec_getRegion (s : State) (p v : Nat) (i0 : Nat) : getRegion (sendVec s p v) i0 = getRegion s i0 := rfl
@[simp] theorem sendVec_getField (s : State) (p v : Nat) (i0 : Nat) : getField (sendVec s p v) i0 = getField s i0 := rfl
@[simp] theorem sendVec_getDie (s : State) (p v : Nat) (i0 : Nat) : getDie (sendVec s p v) i0 = getDie s i0 := rfl
@[simp] theorem sendVec_getEng (s : State) (p v : Nat) (i0 : Nat) : getEng (sendVec s p v) i0 = getEng s i0 := rfl
@[simp] theorem sendVec_getMsd (s : State) (p v : Nat) (i0 : Nat) : getMsd (sendVec s p v) i0 = getMsd s i0 := rfl
@[simp] theorem sendVec_getPd (s : State) (p v : Nat) (i0 : Nat) : getPd (sendVec s p v) i0 = getPd s i0 := rfl
@[simp] theorem sendVec_getPacket (s : State) (p v : Nat) (i0 : Nat) : getPacket (sendVec s p v) i0 = getPacket s i0 := rfl
@[simp] theorem sendVec_getMb (s : State) (p v : Nat) (i0 : Nat) : getMb (sendVec s p v) i0 = getMb s i0 := rfl
@[simp] theorem sendVec_nowNs (s : State) (p v : Nat) : nowNs (sendVec s p v) = nowNs s := rfl
@[simp] theorem sendVec_nowPs (s : State) (p v : Nat) : nowPs (sendVec s p v) = nowPs s := rfl
@[simp] theorem sendVec_fenced (s : State) (p v : Nat) (i0 : Nat) : fenced (sendVec s p v) i0 = fenced s i0 := rfl
@[simp] theorem sendVec_getBank (s : State) (p v : Nat) (i0 : Nat) : getBank (sendVec s p v) i0 = getBank s i0 := rfl
@[simp] theorem sendVec_getBlade (s : State) (p v : Nat) (i0 : Nat) : getBlade (sendVec s p v) i0 = getBlade s i0 := rfl

/-! ### setEng -/

@[simp] theorem setEng_pending (s : State) (e : Nat) (x : Eng) : (setEng s e x).pending = s.pending := rfl
@[simp] theorem setEng_time (s : State) (e : Nat) (x : Eng) : (setEng s e x).time = s.time := rfl
@[simp] theorem setEng_wicks (s : State) (e : Nat) (x : Eng) : (setEng s e x).wicks = s.wicks := rfl
@[simp] theorem setEng_flows (s : State) (e : Nat) (x : Eng) : (setEng s e x).flows = s.flows := rfl
@[simp] theorem setEng_cus (s : State) (e : Nat) (x : Eng) : (setEng s e x).cus = s.cus := rfl
@[simp] theorem setEng_mus (s : State) (e : Nat) (x : Eng) : (setEng s e x).mus = s.mus := rfl
@[simp] theorem setEng_tiles (s : State) (e : Nat) (x : Eng) : (setEng s e x).tiles = s.tiles := rfl
@[simp] theorem setEng_regions (s : State) (e : Nat) (x : Eng) : (setEng s e x).regions = s.regions := rfl
@[simp] theorem setEng_net (s : State) (e : Nat) (x : Eng) : (setEng s e x).net = s.net := rfl
@[simp] theorem setEng_lamp (s : State) (e : Nat) (x : Eng) : (setEng s e x).lamp = s.lamp := rfl
@[simp] theorem setEng_inc (s : State) (e : Nat) (x : Eng) : (setEng s e x).inc = s.inc := rfl
@[simp] theorem setEng_fields (s : State) (e : Nat) (x : Eng) : (setEng s e x).fields = s.fields := rfl
@[simp] theorem setEng_trace (s : State) (e : Nat) (x : Eng) : (setEng s e x).trace = s.trace := rfl
@[simp] theorem setEng_latch (s : State) (e : Nat) (x : Eng) : (setEng s e x).latch = s.latch := rfl
@[simp] theorem setEng_armed (s : State) (e : Nat) (x : Eng) : (setEng s e x).armed = s.armed := rfl
@[simp] theorem setEng_seg (s : State) (e : Nat) (x : Eng) : (setEng s e x).seg = s.seg := rfl
@[simp] theorem setEng_segKept (s : State) (e : Nat) (x : Eng) : (setEng s e x).segKept = s.segKept := rfl
@[simp] theorem setEng_dieFence (s : State) (e : Nat) (x : Eng) : (setEng s e x).dieFence = s.dieFence := rfl
@[simp] theorem setEng_hosts (s : State) (e : Nat) (x : Eng) : (setEng s e x).hosts = s.hosts := rfl
@[simp] theorem setEng_sem (s : State) (e : Nat) (x : Eng) : (setEng s e x).sem = s.sem := rfl
@[simp] theorem setEng_copies (s : State) (e : Nat) (x : Eng) : (setEng s e x).copies = s.copies := rfl
@[simp] theorem setEng_msds (s : State) (e : Nat) (x : Eng) : (setEng s e x).msds = s.msds := rfl
@[simp] theorem setEng_pds (s : State) (e : Nat) (x : Eng) : (setEng s e x).pds = s.pds := rfl
@[simp] theorem setEng_part (s : State) (e : Nat) (x : Eng) : (setEng s e x).part = s.part := rfl
@[simp] theorem setEng_boot (s : State) (e : Nat) (x : Eng) : (setEng s e x).boot = s.boot := rfl
@[simp] theorem setEng_fw (s : State) (e : Nat) (x : Eng) : (setEng s e x).fw = s.fw := rfl
@[simp] theorem setEng_snuff (s : State) (e : Nat) (x : Eng) : (setEng s e x).snuff = s.snuff := rfl
@[simp] theorem setEng_tc (s : State) (e : Nat) (x : Eng) : (setEng s e x).tc = s.tc := rfl
@[simp] theorem setEng_power (s : State) (e : Nat) (x : Eng) : (setEng s e x).power = s.power := rfl
@[simp] theorem setEng_mantle (s : State) (e : Nat) (x : Eng) : (setEng s e x).mantle = s.mantle := rfl
@[simp] theorem setEng_dies (s : State) (e : Nat) (x : Eng) : (setEng s e x).dies = s.dies := rfl
@[simp] theorem setEng_jsel (s : State) (e : Nat) (x : Eng) : (setEng s e x).jsel = s.jsel := rfl
@[simp] theorem setEng_island (s : State) (e : Nat) (x : Eng) : (setEng s e x).island = s.island := rfl
@[simp] theorem setEng_ans (s : State) (e : Nat) (x : Eng) : (setEng s e x).ans = s.ans := rfl
@[simp] theorem setEng_cdErr (s : State) (e : Nat) (x : Eng) : (setEng s e x).cdErr = s.cdErr := rfl
@[simp] theorem setEng_getWick (s : State) (e : Nat) (x : Eng) (i0 i1 : Nat) : getWick (setEng s e x) i0 i1 = getWick s i0 i1 := rfl
@[simp] theorem setEng_getFlow (s : State) (e : Nat) (x : Eng) (i0 i1 : Nat) : getFlow (setEng s e x) i0 i1 = getFlow s i0 i1 := rfl
@[simp] theorem setEng_getCu (s : State) (e : Nat) (x : Eng) (i0 i1 : Nat) : getCu (setEng s e x) i0 i1 = getCu s i0 i1 := rfl
@[simp] theorem setEng_getMu (s : State) (e : Nat) (x : Eng) (i0 i1 : Nat) : getMu (setEng s e x) i0 i1 = getMu s i0 i1 := rfl
@[simp] theorem setEng_getTile (s : State) (e : Nat) (x : Eng) (i0 : Nat) : getTile (setEng s e x) i0 = getTile s i0 := rfl
@[simp] theorem setEng_getRegion (s : State) (e : Nat) (x : Eng) (i0 : Nat) : getRegion (setEng s e x) i0 = getRegion s i0 := rfl
@[simp] theorem setEng_getField (s : State) (e : Nat) (x : Eng) (i0 : Nat) : getField (setEng s e x) i0 = getField s i0 := rfl
@[simp] theorem setEng_getDie (s : State) (e : Nat) (x : Eng) (i0 : Nat) : getDie (setEng s e x) i0 = getDie s i0 := rfl
@[simp] theorem setEng_getHost (s : State) (e : Nat) (x : Eng) (i0 : Nat) : getHost (setEng s e x) i0 = getHost s i0 := rfl
@[simp] theorem setEng_getMsd (s : State) (e : Nat) (x : Eng) (i0 : Nat) : getMsd (setEng s e x) i0 = getMsd s i0 := rfl
@[simp] theorem setEng_getPd (s : State) (e : Nat) (x : Eng) (i0 : Nat) : getPd (setEng s e x) i0 = getPd s i0 := rfl
@[simp] theorem setEng_getPacket (s : State) (e : Nat) (x : Eng) (i0 : Nat) : getPacket (setEng s e x) i0 = getPacket s i0 := rfl
@[simp] theorem setEng_getMb (s : State) (e : Nat) (x : Eng) (i0 : Nat) : getMb (setEng s e x) i0 = getMb s i0 := rfl
@[simp] theorem setEng_nowNs (s : State) (e : Nat) (x : Eng) : nowNs (setEng s e x) = nowNs s := rfl
@[simp] theorem setEng_nowPs (s : State) (e : Nat) (x : Eng) : nowPs (setEng s e x) = nowPs s := rfl
@[simp] theorem setEng_fenced (s : State) (e : Nat) (x : Eng) (i0 : Nat) : fenced (setEng s e x) i0 = fenced s i0 := rfl
@[simp] theorem setEng_getBank (s : State) (e : Nat) (x : Eng) (i0 : Nat) : getBank (setEng s e x) i0 = getBank s i0 := rfl
@[simp] theorem setEng_getBlade (s : State) (e : Nat) (x : Eng) (i0 : Nat) : getBlade (setEng s e x) i0 = getBlade s i0 := rfl

/-! ### modCmds -/

@[simp] theorem modCmds_pending (s : State) (e : Nat) (f : List Cmd → List Cmd) : (modCmds s e f).pending = s.pending := rfl
@[simp] theorem modCmds_time (s : State) (e : Nat) (f : List Cmd → List Cmd) : (modCmds s e f).time = s.time := rfl
@[simp] theorem modCmds_wicks (s : State) (e : Nat) (f : List Cmd → List Cmd) : (modCmds s e f).wicks = s.wicks := rfl
@[simp] theorem modCmds_flows (s : State) (e : Nat) (f : List Cmd → List Cmd) : (modCmds s e f).flows = s.flows := rfl
@[simp] theorem modCmds_cus (s : State) (e : Nat) (f : List Cmd → List Cmd) : (modCmds s e f).cus = s.cus := rfl
@[simp] theorem modCmds_mus (s : State) (e : Nat) (f : List Cmd → List Cmd) : (modCmds s e f).mus = s.mus := rfl
@[simp] theorem modCmds_tiles (s : State) (e : Nat) (f : List Cmd → List Cmd) : (modCmds s e f).tiles = s.tiles := rfl
@[simp] theorem modCmds_regions (s : State) (e : Nat) (f : List Cmd → List Cmd) : (modCmds s e f).regions = s.regions := rfl
@[simp] theorem modCmds_net (s : State) (e : Nat) (f : List Cmd → List Cmd) : (modCmds s e f).net = s.net := rfl
@[simp] theorem modCmds_lamp (s : State) (e : Nat) (f : List Cmd → List Cmd) : (modCmds s e f).lamp = s.lamp := rfl
@[simp] theorem modCmds_inc (s : State) (e : Nat) (f : List Cmd → List Cmd) : (modCmds s e f).inc = s.inc := rfl
@[simp] theorem modCmds_fields (s : State) (e : Nat) (f : List Cmd → List Cmd) : (modCmds s e f).fields = s.fields := rfl
@[simp] theorem modCmds_trace (s : State) (e : Nat) (f : List Cmd → List Cmd) : (modCmds s e f).trace = s.trace := rfl
@[simp] theorem modCmds_latch (s : State) (e : Nat) (f : List Cmd → List Cmd) : (modCmds s e f).latch = s.latch := rfl
@[simp] theorem modCmds_armed (s : State) (e : Nat) (f : List Cmd → List Cmd) : (modCmds s e f).armed = s.armed := rfl
@[simp] theorem modCmds_seg (s : State) (e : Nat) (f : List Cmd → List Cmd) : (modCmds s e f).seg = s.seg := rfl
@[simp] theorem modCmds_segKept (s : State) (e : Nat) (f : List Cmd → List Cmd) : (modCmds s e f).segKept = s.segKept := rfl
@[simp] theorem modCmds_dieFence (s : State) (e : Nat) (f : List Cmd → List Cmd) : (modCmds s e f).dieFence = s.dieFence := rfl
@[simp] theorem modCmds_hosts (s : State) (e : Nat) (f : List Cmd → List Cmd) : (modCmds s e f).hosts = s.hosts := rfl
@[simp] theorem modCmds_sem (s : State) (e : Nat) (f : List Cmd → List Cmd) : (modCmds s e f).sem = s.sem := rfl
@[simp] theorem modCmds_copies (s : State) (e : Nat) (f : List Cmd → List Cmd) : (modCmds s e f).copies = s.copies := rfl
@[simp] theorem modCmds_msds (s : State) (e : Nat) (f : List Cmd → List Cmd) : (modCmds s e f).msds = s.msds := rfl
@[simp] theorem modCmds_pds (s : State) (e : Nat) (f : List Cmd → List Cmd) : (modCmds s e f).pds = s.pds := rfl
@[simp] theorem modCmds_part (s : State) (e : Nat) (f : List Cmd → List Cmd) : (modCmds s e f).part = s.part := rfl
@[simp] theorem modCmds_boot (s : State) (e : Nat) (f : List Cmd → List Cmd) : (modCmds s e f).boot = s.boot := rfl
@[simp] theorem modCmds_fw (s : State) (e : Nat) (f : List Cmd → List Cmd) : (modCmds s e f).fw = s.fw := rfl
@[simp] theorem modCmds_snuff (s : State) (e : Nat) (f : List Cmd → List Cmd) : (modCmds s e f).snuff = s.snuff := rfl
@[simp] theorem modCmds_tc (s : State) (e : Nat) (f : List Cmd → List Cmd) : (modCmds s e f).tc = s.tc := rfl
@[simp] theorem modCmds_power (s : State) (e : Nat) (f : List Cmd → List Cmd) : (modCmds s e f).power = s.power := rfl
@[simp] theorem modCmds_mantle (s : State) (e : Nat) (f : List Cmd → List Cmd) : (modCmds s e f).mantle = s.mantle := rfl
@[simp] theorem modCmds_dies (s : State) (e : Nat) (f : List Cmd → List Cmd) : (modCmds s e f).dies = s.dies := rfl
@[simp] theorem modCmds_jsel (s : State) (e : Nat) (f : List Cmd → List Cmd) : (modCmds s e f).jsel = s.jsel := rfl
@[simp] theorem modCmds_island (s : State) (e : Nat) (f : List Cmd → List Cmd) : (modCmds s e f).island = s.island := rfl
@[simp] theorem modCmds_ans (s : State) (e : Nat) (f : List Cmd → List Cmd) : (modCmds s e f).ans = s.ans := rfl
@[simp] theorem modCmds_cdErr (s : State) (e : Nat) (f : List Cmd → List Cmd) : (modCmds s e f).cdErr = s.cdErr := rfl
@[simp] theorem modCmds_getWick (s : State) (e : Nat) (f : List Cmd → List Cmd) (i0 i1 : Nat) : getWick (modCmds s e f) i0 i1 = getWick s i0 i1 := rfl
@[simp] theorem modCmds_getFlow (s : State) (e : Nat) (f : List Cmd → List Cmd) (i0 i1 : Nat) : getFlow (modCmds s e f) i0 i1 = getFlow s i0 i1 := rfl
@[simp] theorem modCmds_getCu (s : State) (e : Nat) (f : List Cmd → List Cmd) (i0 i1 : Nat) : getCu (modCmds s e f) i0 i1 = getCu s i0 i1 := rfl
@[simp] theorem modCmds_getMu (s : State) (e : Nat) (f : List Cmd → List Cmd) (i0 i1 : Nat) : getMu (modCmds s e f) i0 i1 = getMu s i0 i1 := rfl
@[simp] theorem modCmds_getTile (s : State) (e : Nat) (f : List Cmd → List Cmd) (i0 : Nat) : getTile (modCmds s e f) i0 = getTile s i0 := rfl
@[simp] theorem modCmds_getRegion (s : State) (e : Nat) (f : List Cmd → List Cmd) (i0 : Nat) : getRegion (modCmds s e f) i0 = getRegion s i0 := rfl
@[simp] theorem modCmds_getField (s : State) (e : Nat) (f : List Cmd → List Cmd) (i0 : Nat) : getField (modCmds s e f) i0 = getField s i0 := rfl
@[simp] theorem modCmds_getDie (s : State) (e : Nat) (f : List Cmd → List Cmd) (i0 : Nat) : getDie (modCmds s e f) i0 = getDie s i0 := rfl
@[simp] theorem modCmds_getHost (s : State) (e : Nat) (f : List Cmd → List Cmd) (i0 : Nat) : getHost (modCmds s e f) i0 = getHost s i0 := rfl
@[simp] theorem modCmds_getMsd (s : State) (e : Nat) (f : List Cmd → List Cmd) (i0 : Nat) : getMsd (modCmds s e f) i0 = getMsd s i0 := rfl
@[simp] theorem modCmds_getPd (s : State) (e : Nat) (f : List Cmd → List Cmd) (i0 : Nat) : getPd (modCmds s e f) i0 = getPd s i0 := rfl
@[simp] theorem modCmds_getPacket (s : State) (e : Nat) (f : List Cmd → List Cmd) (i0 : Nat) : getPacket (modCmds s e f) i0 = getPacket s i0 := rfl
@[simp] theorem modCmds_getMb (s : State) (e : Nat) (f : List Cmd → List Cmd) (i0 : Nat) : getMb (modCmds s e f) i0 = getMb s i0 := rfl
@[simp] theorem modCmds_nowNs (s : State) (e : Nat) (f : List Cmd → List Cmd) : nowNs (modCmds s e f) = nowNs s := rfl
@[simp] theorem modCmds_nowPs (s : State) (e : Nat) (f : List Cmd → List Cmd) : nowPs (modCmds s e f) = nowPs s := rfl
@[simp] theorem modCmds_fenced (s : State) (e : Nat) (f : List Cmd → List Cmd) (i0 : Nat) : fenced (modCmds s e f) i0 = fenced s i0 := rfl
@[simp] theorem modCmds_getBank (s : State) (e : Nat) (f : List Cmd → List Cmd) (i0 : Nat) : getBank (modCmds s e f) i0 = getBank s i0 := rfl
@[simp] theorem modCmds_getBlade (s : State) (e : Nat) (f : List Cmd → List Cmd) (i0 : Nat) : getBlade (modCmds s e f) i0 = getBlade s i0 := rfl

/-! ### setPh -/

@[simp] theorem setPh_pending (s : State) (c : Cmd) (ph : CPh) : (setPh s c ph).pending = s.pending := rfl
@[simp] theorem setPh_time (s : State) (c : Cmd) (ph : CPh) : (setPh s c ph).time = s.time := rfl
@[simp] theorem setPh_wicks (s : State) (c : Cmd) (ph : CPh) : (setPh s c ph).wicks = s.wicks := rfl
@[simp] theorem setPh_flows (s : State) (c : Cmd) (ph : CPh) : (setPh s c ph).flows = s.flows := rfl
@[simp] theorem setPh_cus (s : State) (c : Cmd) (ph : CPh) : (setPh s c ph).cus = s.cus := rfl
@[simp] theorem setPh_mus (s : State) (c : Cmd) (ph : CPh) : (setPh s c ph).mus = s.mus := rfl
@[simp] theorem setPh_tiles (s : State) (c : Cmd) (ph : CPh) : (setPh s c ph).tiles = s.tiles := rfl
@[simp] theorem setPh_regions (s : State) (c : Cmd) (ph : CPh) : (setPh s c ph).regions = s.regions := rfl
@[simp] theorem setPh_net (s : State) (c : Cmd) (ph : CPh) : (setPh s c ph).net = s.net := rfl
@[simp] theorem setPh_lamp (s : State) (c : Cmd) (ph : CPh) : (setPh s c ph).lamp = s.lamp := rfl
@[simp] theorem setPh_inc (s : State) (c : Cmd) (ph : CPh) : (setPh s c ph).inc = s.inc := rfl
@[simp] theorem setPh_fields (s : State) (c : Cmd) (ph : CPh) : (setPh s c ph).fields = s.fields := rfl
@[simp] theorem setPh_trace (s : State) (c : Cmd) (ph : CPh) : (setPh s c ph).trace = s.trace := rfl
@[simp] theorem setPh_latch (s : State) (c : Cmd) (ph : CPh) : (setPh s c ph).latch = s.latch := rfl
@[simp] theorem setPh_armed (s : State) (c : Cmd) (ph : CPh) : (setPh s c ph).armed = s.armed := rfl
@[simp] theorem setPh_seg (s : State) (c : Cmd) (ph : CPh) : (setPh s c ph).seg = s.seg := rfl
@[simp] theorem setPh_segKept (s : State) (c : Cmd) (ph : CPh) : (setPh s c ph).segKept = s.segKept := rfl
@[simp] theorem setPh_dieFence (s : State) (c : Cmd) (ph : CPh) : (setPh s c ph).dieFence = s.dieFence := rfl
@[simp] theorem setPh_hosts (s : State) (c : Cmd) (ph : CPh) : (setPh s c ph).hosts = s.hosts := rfl
@[simp] theorem setPh_sem (s : State) (c : Cmd) (ph : CPh) : (setPh s c ph).sem = s.sem := rfl
@[simp] theorem setPh_copies (s : State) (c : Cmd) (ph : CPh) : (setPh s c ph).copies = s.copies := rfl
@[simp] theorem setPh_msds (s : State) (c : Cmd) (ph : CPh) : (setPh s c ph).msds = s.msds := rfl
@[simp] theorem setPh_pds (s : State) (c : Cmd) (ph : CPh) : (setPh s c ph).pds = s.pds := rfl
@[simp] theorem setPh_part (s : State) (c : Cmd) (ph : CPh) : (setPh s c ph).part = s.part := rfl
@[simp] theorem setPh_boot (s : State) (c : Cmd) (ph : CPh) : (setPh s c ph).boot = s.boot := rfl
@[simp] theorem setPh_fw (s : State) (c : Cmd) (ph : CPh) : (setPh s c ph).fw = s.fw := rfl
@[simp] theorem setPh_snuff (s : State) (c : Cmd) (ph : CPh) : (setPh s c ph).snuff = s.snuff := rfl
@[simp] theorem setPh_tc (s : State) (c : Cmd) (ph : CPh) : (setPh s c ph).tc = s.tc := rfl
@[simp] theorem setPh_power (s : State) (c : Cmd) (ph : CPh) : (setPh s c ph).power = s.power := rfl
@[simp] theorem setPh_mantle (s : State) (c : Cmd) (ph : CPh) : (setPh s c ph).mantle = s.mantle := rfl
@[simp] theorem setPh_dies (s : State) (c : Cmd) (ph : CPh) : (setPh s c ph).dies = s.dies := rfl
@[simp] theorem setPh_jsel (s : State) (c : Cmd) (ph : CPh) : (setPh s c ph).jsel = s.jsel := rfl
@[simp] theorem setPh_island (s : State) (c : Cmd) (ph : CPh) : (setPh s c ph).island = s.island := rfl
@[simp] theorem setPh_ans (s : State) (c : Cmd) (ph : CPh) : (setPh s c ph).ans = s.ans := rfl
@[simp] theorem setPh_cdErr (s : State) (c : Cmd) (ph : CPh) : (setPh s c ph).cdErr = s.cdErr := rfl
@[simp] theorem setPh_getWick (s : State) (c : Cmd) (ph : CPh) (i0 i1 : Nat) : getWick (setPh s c ph) i0 i1 = getWick s i0 i1 := rfl
@[simp] theorem setPh_getFlow (s : State) (c : Cmd) (ph : CPh) (i0 i1 : Nat) : getFlow (setPh s c ph) i0 i1 = getFlow s i0 i1 := rfl
@[simp] theorem setPh_getCu (s : State) (c : Cmd) (ph : CPh) (i0 i1 : Nat) : getCu (setPh s c ph) i0 i1 = getCu s i0 i1 := rfl
@[simp] theorem setPh_getMu (s : State) (c : Cmd) (ph : CPh) (i0 i1 : Nat) : getMu (setPh s c ph) i0 i1 = getMu s i0 i1 := rfl
@[simp] theorem setPh_getTile (s : State) (c : Cmd) (ph : CPh) (i0 : Nat) : getTile (setPh s c ph) i0 = getTile s i0 := rfl
@[simp] theorem setPh_getRegion (s : State) (c : Cmd) (ph : CPh) (i0 : Nat) : getRegion (setPh s c ph) i0 = getRegion s i0 := rfl
@[simp] theorem setPh_getField (s : State) (c : Cmd) (ph : CPh) (i0 : Nat) : getField (setPh s c ph) i0 = getField s i0 := rfl
@[simp] theorem setPh_getDie (s : State) (c : Cmd) (ph : CPh) (i0 : Nat) : getDie (setPh s c ph) i0 = getDie s i0 := rfl
@[simp] theorem setPh_getHost (s : State) (c : Cmd) (ph : CPh) (i0 : Nat) : getHost (setPh s c ph) i0 = getHost s i0 := rfl
@[simp] theorem setPh_getMsd (s : State) (c : Cmd) (ph : CPh) (i0 : Nat) : getMsd (setPh s c ph) i0 = getMsd s i0 := rfl
@[simp] theorem setPh_getPd (s : State) (c : Cmd) (ph : CPh) (i0 : Nat) : getPd (setPh s c ph) i0 = getPd s i0 := rfl
@[simp] theorem setPh_getPacket (s : State) (c : Cmd) (ph : CPh) (i0 : Nat) : getPacket (setPh s c ph) i0 = getPacket s i0 := rfl
@[simp] theorem setPh_getMb (s : State) (c : Cmd) (ph : CPh) (i0 : Nat) : getMb (setPh s c ph) i0 = getMb s i0 := rfl
@[simp] theorem setPh_nowNs (s : State) (c : Cmd) (ph : CPh) : nowNs (setPh s c ph) = nowNs s := rfl
@[simp] theorem setPh_nowPs (s : State) (c : Cmd) (ph : CPh) : nowPs (setPh s c ph) = nowPs s := rfl
@[simp] theorem setPh_fenced (s : State) (c : Cmd) (ph : CPh) (i0 : Nat) : fenced (setPh s c ph) i0 = fenced s i0 := rfl
@[simp] theorem setPh_getBank (s : State) (c : Cmd) (ph : CPh) (i0 : Nat) : getBank (setPh s c ph) i0 = getBank s i0 := rfl
@[simp] theorem setPh_getBlade (s : State) (c : Cmd) (ph : CPh) (i0 : Nat) : getBlade (setPh s c ph) i0 = getBlade s i0 := rfl

/-! ### modTxn -/

@[simp] theorem modTxn_pending (s : State) (tag : Nat) (f : Txn → Txn) : (modTxn s tag f).pending = s.pending := rfl
@[simp] theorem modTxn_time (s : State) (tag : Nat) (f : Txn → Txn) : (modTxn s tag f).time = s.time := rfl
@[simp] theorem modTxn_wicks (s : State) (tag : Nat) (f : Txn → Txn) : (modTxn s tag f).wicks = s.wicks := rfl
@[simp] theorem modTxn_flows (s : State) (tag : Nat) (f : Txn → Txn) : (modTxn s tag f).flows = s.flows := rfl
@[simp] theorem modTxn_cus (s : State) (tag : Nat) (f : Txn → Txn) : (modTxn s tag f).cus = s.cus := rfl
@[simp] theorem modTxn_mus (s : State) (tag : Nat) (f : Txn → Txn) : (modTxn s tag f).mus = s.mus := rfl
@[simp] theorem modTxn_tiles (s : State) (tag : Nat) (f : Txn → Txn) : (modTxn s tag f).tiles = s.tiles := rfl
@[simp] theorem modTxn_regions (s : State) (tag : Nat) (f : Txn → Txn) : (modTxn s tag f).regions = s.regions := rfl
@[simp] theorem modTxn_net (s : State) (tag : Nat) (f : Txn → Txn) : (modTxn s tag f).net = s.net := rfl
@[simp] theorem modTxn_lamp (s : State) (tag : Nat) (f : Txn → Txn) : (modTxn s tag f).lamp = s.lamp := rfl
@[simp] theorem modTxn_inc (s : State) (tag : Nat) (f : Txn → Txn) : (modTxn s tag f).inc = s.inc := rfl
@[simp] theorem modTxn_fields (s : State) (tag : Nat) (f : Txn → Txn) : (modTxn s tag f).fields = s.fields := rfl
@[simp] theorem modTxn_trace (s : State) (tag : Nat) (f : Txn → Txn) : (modTxn s tag f).trace = s.trace := rfl
@[simp] theorem modTxn_latch (s : State) (tag : Nat) (f : Txn → Txn) : (modTxn s tag f).latch = s.latch := rfl
@[simp] theorem modTxn_armed (s : State) (tag : Nat) (f : Txn → Txn) : (modTxn s tag f).armed = s.armed := rfl
@[simp] theorem modTxn_seg (s : State) (tag : Nat) (f : Txn → Txn) : (modTxn s tag f).seg = s.seg := rfl
@[simp] theorem modTxn_segKept (s : State) (tag : Nat) (f : Txn → Txn) : (modTxn s tag f).segKept = s.segKept := rfl
@[simp] theorem modTxn_dieFence (s : State) (tag : Nat) (f : Txn → Txn) : (modTxn s tag f).dieFence = s.dieFence := rfl
@[simp] theorem modTxn_hosts (s : State) (tag : Nat) (f : Txn → Txn) : (modTxn s tag f).hosts = s.hosts := rfl
@[simp] theorem modTxn_sem (s : State) (tag : Nat) (f : Txn → Txn) : (modTxn s tag f).sem = s.sem := rfl
@[simp] theorem modTxn_copies (s : State) (tag : Nat) (f : Txn → Txn) : (modTxn s tag f).copies = s.copies := rfl
@[simp] theorem modTxn_msds (s : State) (tag : Nat) (f : Txn → Txn) : (modTxn s tag f).msds = s.msds := rfl
@[simp] theorem modTxn_pds (s : State) (tag : Nat) (f : Txn → Txn) : (modTxn s tag f).pds = s.pds := rfl
@[simp] theorem modTxn_part (s : State) (tag : Nat) (f : Txn → Txn) : (modTxn s tag f).part = s.part := rfl
@[simp] theorem modTxn_boot (s : State) (tag : Nat) (f : Txn → Txn) : (modTxn s tag f).boot = s.boot := rfl
@[simp] theorem modTxn_fw (s : State) (tag : Nat) (f : Txn → Txn) : (modTxn s tag f).fw = s.fw := rfl
@[simp] theorem modTxn_snuff (s : State) (tag : Nat) (f : Txn → Txn) : (modTxn s tag f).snuff = s.snuff := rfl
@[simp] theorem modTxn_tc (s : State) (tag : Nat) (f : Txn → Txn) : (modTxn s tag f).tc = s.tc := rfl
@[simp] theorem modTxn_power (s : State) (tag : Nat) (f : Txn → Txn) : (modTxn s tag f).power = s.power := rfl
@[simp] theorem modTxn_mantle (s : State) (tag : Nat) (f : Txn → Txn) : (modTxn s tag f).mantle = s.mantle := rfl
@[simp] theorem modTxn_dies (s : State) (tag : Nat) (f : Txn → Txn) : (modTxn s tag f).dies = s.dies := rfl
@[simp] theorem modTxn_jsel (s : State) (tag : Nat) (f : Txn → Txn) : (modTxn s tag f).jsel = s.jsel := rfl
@[simp] theorem modTxn_island (s : State) (tag : Nat) (f : Txn → Txn) : (modTxn s tag f).island = s.island := rfl
@[simp] theorem modTxn_ans (s : State) (tag : Nat) (f : Txn → Txn) : (modTxn s tag f).ans = s.ans := rfl
@[simp] theorem modTxn_cdErr (s : State) (tag : Nat) (f : Txn → Txn) : (modTxn s tag f).cdErr = s.cdErr := rfl
@[simp] theorem modTxn_getWick (s : State) (tag : Nat) (f : Txn → Txn) (i0 i1 : Nat) : getWick (modTxn s tag f) i0 i1 = getWick s i0 i1 := rfl
@[simp] theorem modTxn_getFlow (s : State) (tag : Nat) (f : Txn → Txn) (i0 i1 : Nat) : getFlow (modTxn s tag f) i0 i1 = getFlow s i0 i1 := rfl
@[simp] theorem modTxn_getCu (s : State) (tag : Nat) (f : Txn → Txn) (i0 i1 : Nat) : getCu (modTxn s tag f) i0 i1 = getCu s i0 i1 := rfl
@[simp] theorem modTxn_getMu (s : State) (tag : Nat) (f : Txn → Txn) (i0 i1 : Nat) : getMu (modTxn s tag f) i0 i1 = getMu s i0 i1 := rfl
@[simp] theorem modTxn_getTile (s : State) (tag : Nat) (f : Txn → Txn) (i0 : Nat) : getTile (modTxn s tag f) i0 = getTile s i0 := rfl
@[simp] theorem modTxn_getRegion (s : State) (tag : Nat) (f : Txn → Txn) (i0 : Nat) : getRegion (modTxn s tag f) i0 = getRegion s i0 := rfl
@[simp] theorem modTxn_getField (s : State) (tag : Nat) (f : Txn → Txn) (i0 : Nat) : getField (modTxn s tag f) i0 = getField s i0 := rfl
@[simp] theorem modTxn_getDie (s : State) (tag : Nat) (f : Txn → Txn) (i0 : Nat) : getDie (modTxn s tag f) i0 = getDie s i0 := rfl
@[simp] theorem modTxn_getHost (s : State) (tag : Nat) (f : Txn → Txn) (i0 : Nat) : getHost (modTxn s tag f) i0 = getHost s i0 := rfl
@[simp] theorem modTxn_getMsd (s : State) (tag : Nat) (f : Txn → Txn) (i0 : Nat) : getMsd (modTxn s tag f) i0 = getMsd s i0 := rfl
@[simp] theorem modTxn_getPd (s : State) (tag : Nat) (f : Txn → Txn) (i0 : Nat) : getPd (modTxn s tag f) i0 = getPd s i0 := rfl
@[simp] theorem modTxn_getPacket (s : State) (tag : Nat) (f : Txn → Txn) (i0 : Nat) : getPacket (modTxn s tag f) i0 = getPacket s i0 := rfl
@[simp] theorem modTxn_getMb (s : State) (tag : Nat) (f : Txn → Txn) (i0 : Nat) : getMb (modTxn s tag f) i0 = getMb s i0 := rfl
@[simp] theorem modTxn_nowNs (s : State) (tag : Nat) (f : Txn → Txn) : nowNs (modTxn s tag f) = nowNs s := rfl
@[simp] theorem modTxn_nowPs (s : State) (tag : Nat) (f : Txn → Txn) : nowPs (modTxn s tag f) = nowPs s := rfl
@[simp] theorem modTxn_fenced (s : State) (tag : Nat) (f : Txn → Txn) (i0 : Nat) : fenced (modTxn s tag f) i0 = fenced s i0 := rfl
@[simp] theorem modTxn_getBank (s : State) (tag : Nat) (f : Txn → Txn) (i0 : Nat) : getBank (modTxn s tag f) i0 = getBank s i0 := rfl
@[simp] theorem modTxn_getBlade (s : State) (tag : Nat) (f : Txn → Txn) (i0 : Nat) : getBlade (modTxn s tag f) i0 = getBlade s i0 := rfl

/-! ### delTxn -/

@[simp] theorem delTxn_pending (s : State) (tag : Nat) : (delTxn s tag).pending = s.pending := rfl
@[simp] theorem delTxn_time (s : State) (tag : Nat) : (delTxn s tag).time = s.time := rfl
@[simp] theorem delTxn_wicks (s : State) (tag : Nat) : (delTxn s tag).wicks = s.wicks := rfl
@[simp] theorem delTxn_flows (s : State) (tag : Nat) : (delTxn s tag).flows = s.flows := rfl
@[simp] theorem delTxn_cus (s : State) (tag : Nat) : (delTxn s tag).cus = s.cus := rfl
@[simp] theorem delTxn_mus (s : State) (tag : Nat) : (delTxn s tag).mus = s.mus := rfl
@[simp] theorem delTxn_tiles (s : State) (tag : Nat) : (delTxn s tag).tiles = s.tiles := rfl
@[simp] theorem delTxn_regions (s : State) (tag : Nat) : (delTxn s tag).regions = s.regions := rfl
@[simp] theorem delTxn_net (s : State) (tag : Nat) : (delTxn s tag).net = s.net := rfl
@[simp] theorem delTxn_lamp (s : State) (tag : Nat) : (delTxn s tag).lamp = s.lamp := rfl
@[simp] theorem delTxn_inc (s : State) (tag : Nat) : (delTxn s tag).inc = s.inc := rfl
@[simp] theorem delTxn_fields (s : State) (tag : Nat) : (delTxn s tag).fields = s.fields := rfl
@[simp] theorem delTxn_trace (s : State) (tag : Nat) : (delTxn s tag).trace = s.trace := rfl
@[simp] theorem delTxn_latch (s : State) (tag : Nat) : (delTxn s tag).latch = s.latch := rfl
@[simp] theorem delTxn_armed (s : State) (tag : Nat) : (delTxn s tag).armed = s.armed := rfl
@[simp] theorem delTxn_seg (s : State) (tag : Nat) : (delTxn s tag).seg = s.seg := rfl
@[simp] theorem delTxn_segKept (s : State) (tag : Nat) : (delTxn s tag).segKept = s.segKept := rfl
@[simp] theorem delTxn_dieFence (s : State) (tag : Nat) : (delTxn s tag).dieFence = s.dieFence := rfl
@[simp] theorem delTxn_hosts (s : State) (tag : Nat) : (delTxn s tag).hosts = s.hosts := rfl
@[simp] theorem delTxn_sem (s : State) (tag : Nat) : (delTxn s tag).sem = s.sem := rfl
@[simp] theorem delTxn_copies (s : State) (tag : Nat) : (delTxn s tag).copies = s.copies := rfl
@[simp] theorem delTxn_msds (s : State) (tag : Nat) : (delTxn s tag).msds = s.msds := rfl
@[simp] theorem delTxn_pds (s : State) (tag : Nat) : (delTxn s tag).pds = s.pds := rfl
@[simp] theorem delTxn_part (s : State) (tag : Nat) : (delTxn s tag).part = s.part := rfl
@[simp] theorem delTxn_boot (s : State) (tag : Nat) : (delTxn s tag).boot = s.boot := rfl
@[simp] theorem delTxn_fw (s : State) (tag : Nat) : (delTxn s tag).fw = s.fw := rfl
@[simp] theorem delTxn_snuff (s : State) (tag : Nat) : (delTxn s tag).snuff = s.snuff := rfl
@[simp] theorem delTxn_tc (s : State) (tag : Nat) : (delTxn s tag).tc = s.tc := rfl
@[simp] theorem delTxn_power (s : State) (tag : Nat) : (delTxn s tag).power = s.power := rfl
@[simp] theorem delTxn_mantle (s : State) (tag : Nat) : (delTxn s tag).mantle = s.mantle := rfl
@[simp] theorem delTxn_dies (s : State) (tag : Nat) : (delTxn s tag).dies = s.dies := rfl
@[simp] theorem delTxn_jsel (s : State) (tag : Nat) : (delTxn s tag).jsel = s.jsel := rfl
@[simp] theorem delTxn_island (s : State) (tag : Nat) : (delTxn s tag).island = s.island := rfl
@[simp] theorem delTxn_ans (s : State) (tag : Nat) : (delTxn s tag).ans = s.ans := rfl
@[simp] theorem delTxn_cdErr (s : State) (tag : Nat) : (delTxn s tag).cdErr = s.cdErr := rfl
@[simp] theorem delTxn_getWick (s : State) (tag : Nat) (i0 i1 : Nat) : getWick (delTxn s tag) i0 i1 = getWick s i0 i1 := rfl
@[simp] theorem delTxn_getFlow (s : State) (tag : Nat) (i0 i1 : Nat) : getFlow (delTxn s tag) i0 i1 = getFlow s i0 i1 := rfl
@[simp] theorem delTxn_getCu (s : State) (tag : Nat) (i0 i1 : Nat) : getCu (delTxn s tag) i0 i1 = getCu s i0 i1 := rfl
@[simp] theorem delTxn_getMu (s : State) (tag : Nat) (i0 i1 : Nat) : getMu (delTxn s tag) i0 i1 = getMu s i0 i1 := rfl
@[simp] theorem delTxn_getTile (s : State) (tag : Nat) (i0 : Nat) : getTile (delTxn s tag) i0 = getTile s i0 := rfl
@[simp] theorem delTxn_getRegion (s : State) (tag : Nat) (i0 : Nat) : getRegion (delTxn s tag) i0 = getRegion s i0 := rfl
@[simp] theorem delTxn_getField (s : State) (tag : Nat) (i0 : Nat) : getField (delTxn s tag) i0 = getField s i0 := rfl
@[simp] theorem delTxn_getDie (s : State) (tag : Nat) (i0 : Nat) : getDie (delTxn s tag) i0 = getDie s i0 := rfl
@[simp] theorem delTxn_getHost (s : State) (tag : Nat) (i0 : Nat) : getHost (delTxn s tag) i0 = getHost s i0 := rfl
@[simp] theorem delTxn_getMsd (s : State) (tag : Nat) (i0 : Nat) : getMsd (delTxn s tag) i0 = getMsd s i0 := rfl
@[simp] theorem delTxn_getPd (s : State) (tag : Nat) (i0 : Nat) : getPd (delTxn s tag) i0 = getPd s i0 := rfl
@[simp] theorem delTxn_getPacket (s : State) (tag : Nat) (i0 : Nat) : getPacket (delTxn s tag) i0 = getPacket s i0 := rfl
@[simp] theorem delTxn_getMb (s : State) (tag : Nat) (i0 : Nat) : getMb (delTxn s tag) i0 = getMb s i0 := rfl
@[simp] theorem delTxn_nowNs (s : State) (tag : Nat) : nowNs (delTxn s tag) = nowNs s := rfl
@[simp] theorem delTxn_nowPs (s : State) (tag : Nat) : nowPs (delTxn s tag) = nowPs s := rfl
@[simp] theorem delTxn_fenced (s : State) (tag : Nat) (i0 : Nat) : fenced (delTxn s tag) i0 = fenced s i0 := rfl
@[simp] theorem delTxn_getBank (s : State) (tag : Nat) (i0 : Nat) : getBank (delTxn s tag) i0 = getBank s i0 := rfl
@[simp] theorem delTxn_getBlade (s : State) (tag : Nat) (i0 : Nat) : getBlade (delTxn s tag) i0 = getBlade s i0 := rfl

/-! ### addTxn -/

@[simp] theorem addTxn_pending (s : State) (x : Txn) : (addTxn s x).pending = s.pending := rfl
@[simp] theorem addTxn_time (s : State) (x : Txn) : (addTxn s x).time = s.time := rfl
@[simp] theorem addTxn_wicks (s : State) (x : Txn) : (addTxn s x).wicks = s.wicks := rfl
@[simp] theorem addTxn_flows (s : State) (x : Txn) : (addTxn s x).flows = s.flows := rfl
@[simp] theorem addTxn_cus (s : State) (x : Txn) : (addTxn s x).cus = s.cus := rfl
@[simp] theorem addTxn_mus (s : State) (x : Txn) : (addTxn s x).mus = s.mus := rfl
@[simp] theorem addTxn_tiles (s : State) (x : Txn) : (addTxn s x).tiles = s.tiles := rfl
@[simp] theorem addTxn_regions (s : State) (x : Txn) : (addTxn s x).regions = s.regions := rfl
@[simp] theorem addTxn_net (s : State) (x : Txn) : (addTxn s x).net = s.net := rfl
@[simp] theorem addTxn_lamp (s : State) (x : Txn) : (addTxn s x).lamp = s.lamp := rfl
@[simp] theorem addTxn_inc (s : State) (x : Txn) : (addTxn s x).inc = s.inc := rfl
@[simp] theorem addTxn_fields (s : State) (x : Txn) : (addTxn s x).fields = s.fields := rfl
@[simp] theorem addTxn_trace (s : State) (x : Txn) : (addTxn s x).trace = s.trace := rfl
@[simp] theorem addTxn_latch (s : State) (x : Txn) : (addTxn s x).latch = s.latch := rfl
@[simp] theorem addTxn_armed (s : State) (x : Txn) : (addTxn s x).armed = s.armed := rfl
@[simp] theorem addTxn_seg (s : State) (x : Txn) : (addTxn s x).seg = s.seg := rfl
@[simp] theorem addTxn_segKept (s : State) (x : Txn) : (addTxn s x).segKept = s.segKept := rfl
@[simp] theorem addTxn_dieFence (s : State) (x : Txn) : (addTxn s x).dieFence = s.dieFence := rfl
@[simp] theorem addTxn_hosts (s : State) (x : Txn) : (addTxn s x).hosts = s.hosts := rfl
@[simp] theorem addTxn_sem (s : State) (x : Txn) : (addTxn s x).sem = s.sem := rfl
@[simp] theorem addTxn_copies (s : State) (x : Txn) : (addTxn s x).copies = s.copies := rfl
@[simp] theorem addTxn_msds (s : State) (x : Txn) : (addTxn s x).msds = s.msds := rfl
@[simp] theorem addTxn_pds (s : State) (x : Txn) : (addTxn s x).pds = s.pds := rfl
@[simp] theorem addTxn_part (s : State) (x : Txn) : (addTxn s x).part = s.part := rfl
@[simp] theorem addTxn_boot (s : State) (x : Txn) : (addTxn s x).boot = s.boot := rfl
@[simp] theorem addTxn_fw (s : State) (x : Txn) : (addTxn s x).fw = s.fw := rfl
@[simp] theorem addTxn_snuff (s : State) (x : Txn) : (addTxn s x).snuff = s.snuff := rfl
@[simp] theorem addTxn_tc (s : State) (x : Txn) : (addTxn s x).tc = s.tc := rfl
@[simp] theorem addTxn_power (s : State) (x : Txn) : (addTxn s x).power = s.power := rfl
@[simp] theorem addTxn_mantle (s : State) (x : Txn) : (addTxn s x).mantle = s.mantle := rfl
@[simp] theorem addTxn_dies (s : State) (x : Txn) : (addTxn s x).dies = s.dies := rfl
@[simp] theorem addTxn_jsel (s : State) (x : Txn) : (addTxn s x).jsel = s.jsel := rfl
@[simp] theorem addTxn_island (s : State) (x : Txn) : (addTxn s x).island = s.island := rfl
@[simp] theorem addTxn_ans (s : State) (x : Txn) : (addTxn s x).ans = s.ans := rfl
@[simp] theorem addTxn_cdErr (s : State) (x : Txn) : (addTxn s x).cdErr = s.cdErr := rfl
@[simp] theorem addTxn_getWick (s : State) (x : Txn) (i0 i1 : Nat) : getWick (addTxn s x) i0 i1 = getWick s i0 i1 := rfl
@[simp] theorem addTxn_getFlow (s : State) (x : Txn) (i0 i1 : Nat) : getFlow (addTxn s x) i0 i1 = getFlow s i0 i1 := rfl
@[simp] theorem addTxn_getCu (s : State) (x : Txn) (i0 i1 : Nat) : getCu (addTxn s x) i0 i1 = getCu s i0 i1 := rfl
@[simp] theorem addTxn_getMu (s : State) (x : Txn) (i0 i1 : Nat) : getMu (addTxn s x) i0 i1 = getMu s i0 i1 := rfl
@[simp] theorem addTxn_getTile (s : State) (x : Txn) (i0 : Nat) : getTile (addTxn s x) i0 = getTile s i0 := rfl
@[simp] theorem addTxn_getRegion (s : State) (x : Txn) (i0 : Nat) : getRegion (addTxn s x) i0 = getRegion s i0 := rfl
@[simp] theorem addTxn_getField (s : State) (x : Txn) (i0 : Nat) : getField (addTxn s x) i0 = getField s i0 := rfl
@[simp] theorem addTxn_getDie (s : State) (x : Txn) (i0 : Nat) : getDie (addTxn s x) i0 = getDie s i0 := rfl
@[simp] theorem addTxn_getHost (s : State) (x : Txn) (i0 : Nat) : getHost (addTxn s x) i0 = getHost s i0 := rfl
@[simp] theorem addTxn_getMsd (s : State) (x : Txn) (i0 : Nat) : getMsd (addTxn s x) i0 = getMsd s i0 := rfl
@[simp] theorem addTxn_getPd (s : State) (x : Txn) (i0 : Nat) : getPd (addTxn s x) i0 = getPd s i0 := rfl
@[simp] theorem addTxn_getPacket (s : State) (x : Txn) (i0 : Nat) : getPacket (addTxn s x) i0 = getPacket s i0 := rfl
@[simp] theorem addTxn_getMb (s : State) (x : Txn) (i0 : Nat) : getMb (addTxn s x) i0 = getMb s i0 := rfl
@[simp] theorem addTxn_nowNs (s : State) (x : Txn) : nowNs (addTxn s x) = nowNs s := rfl
@[simp] theorem addTxn_nowPs (s : State) (x : Txn) : nowPs (addTxn s x) = nowPs s := rfl
@[simp] theorem addTxn_fenced (s : State) (x : Txn) (i0 : Nat) : fenced (addTxn s x) i0 = fenced s i0 := rfl
@[simp] theorem addTxn_getBank (s : State) (x : Txn) (i0 : Nat) : getBank (addTxn s x) i0 = getBank s i0 := rfl
@[simp] theorem addTxn_getBlade (s : State) (x : Txn) (i0 : Nat) : getBlade (addTxn s x) i0 = getBlade s i0 := rfl

/-! ### requestWave -/

@[simp] theorem requestWave_pending (s : State) (w : Wave) : (requestWave s w).pending = s.pending := rfl
@[simp] theorem requestWave_time (s : State) (w : Wave) : (requestWave s w).time = s.time := rfl
@[simp] theorem requestWave_wicks (s : State) (w : Wave) : (requestWave s w).wicks = s.wicks := rfl
@[simp] theorem requestWave_flows (s : State) (w : Wave) : (requestWave s w).flows = s.flows := rfl
@[simp] theorem requestWave_cus (s : State) (w : Wave) : (requestWave s w).cus = s.cus := rfl
@[simp] theorem requestWave_mus (s : State) (w : Wave) : (requestWave s w).mus = s.mus := rfl
@[simp] theorem requestWave_tiles (s : State) (w : Wave) : (requestWave s w).tiles = s.tiles := rfl
@[simp] theorem requestWave_regions (s : State) (w : Wave) : (requestWave s w).regions = s.regions := rfl
@[simp] theorem requestWave_net (s : State) (w : Wave) : (requestWave s w).net = s.net := rfl
@[simp] theorem requestWave_inc (s : State) (w : Wave) : (requestWave s w).inc = s.inc := rfl
@[simp] theorem requestWave_fields (s : State) (w : Wave) : (requestWave s w).fields = s.fields := rfl
@[simp] theorem requestWave_trace (s : State) (w : Wave) : (requestWave s w).trace = s.trace := rfl
@[simp] theorem requestWave_latch (s : State) (w : Wave) : (requestWave s w).latch = s.latch := rfl
@[simp] theorem requestWave_armed (s : State) (w : Wave) : (requestWave s w).armed = s.armed := rfl
@[simp] theorem requestWave_seg (s : State) (w : Wave) : (requestWave s w).seg = s.seg := rfl
@[simp] theorem requestWave_segKept (s : State) (w : Wave) : (requestWave s w).segKept = s.segKept := rfl
@[simp] theorem requestWave_dieFence (s : State) (w : Wave) : (requestWave s w).dieFence = s.dieFence := rfl
@[simp] theorem requestWave_hosts (s : State) (w : Wave) : (requestWave s w).hosts = s.hosts := rfl
@[simp] theorem requestWave_sem (s : State) (w : Wave) : (requestWave s w).sem = s.sem := rfl
@[simp] theorem requestWave_eng (s : State) (w : Wave) : (requestWave s w).eng = s.eng := rfl
@[simp] theorem requestWave_copies (s : State) (w : Wave) : (requestWave s w).copies = s.copies := rfl
@[simp] theorem requestWave_msds (s : State) (w : Wave) : (requestWave s w).msds = s.msds := rfl
@[simp] theorem requestWave_pds (s : State) (w : Wave) : (requestWave s w).pds = s.pds := rfl
@[simp] theorem requestWave_part (s : State) (w : Wave) : (requestWave s w).part = s.part := rfl
@[simp] theorem requestWave_boot (s : State) (w : Wave) : (requestWave s w).boot = s.boot := rfl
@[simp] theorem requestWave_fw (s : State) (w : Wave) : (requestWave s w).fw = s.fw := rfl
@[simp] theorem requestWave_snuff (s : State) (w : Wave) : (requestWave s w).snuff = s.snuff := rfl
@[simp] theorem requestWave_tc (s : State) (w : Wave) : (requestWave s w).tc = s.tc := rfl
@[simp] theorem requestWave_power (s : State) (w : Wave) : (requestWave s w).power = s.power := rfl
@[simp] theorem requestWave_mantle (s : State) (w : Wave) : (requestWave s w).mantle = s.mantle := rfl
@[simp] theorem requestWave_dies (s : State) (w : Wave) : (requestWave s w).dies = s.dies := rfl
@[simp] theorem requestWave_jsel (s : State) (w : Wave) : (requestWave s w).jsel = s.jsel := rfl
@[simp] theorem requestWave_island (s : State) (w : Wave) : (requestWave s w).island = s.island := rfl
@[simp] theorem requestWave_ans (s : State) (w : Wave) : (requestWave s w).ans = s.ans := rfl
@[simp] theorem requestWave_cdErr (s : State) (w : Wave) : (requestWave s w).cdErr = s.cdErr := rfl
@[simp] theorem requestWave_getWick (s : State) (w : Wave) (i0 i1 : Nat) : getWick (requestWave s w) i0 i1 = getWick s i0 i1 := rfl
@[simp] theorem requestWave_getFlow (s : State) (w : Wave) (i0 i1 : Nat) : getFlow (requestWave s w) i0 i1 = getFlow s i0 i1 := rfl
@[simp] theorem requestWave_getCu (s : State) (w : Wave) (i0 i1 : Nat) : getCu (requestWave s w) i0 i1 = getCu s i0 i1 := rfl
@[simp] theorem requestWave_getMu (s : State) (w : Wave) (i0 i1 : Nat) : getMu (requestWave s w) i0 i1 = getMu s i0 i1 := rfl
@[simp] theorem requestWave_getTile (s : State) (w : Wave) (i0 : Nat) : getTile (requestWave s w) i0 = getTile s i0 := rfl
@[simp] theorem requestWave_getRegion (s : State) (w : Wave) (i0 : Nat) : getRegion (requestWave s w) i0 = getRegion s i0 := rfl
@[simp] theorem requestWave_getField (s : State) (w : Wave) (i0 : Nat) : getField (requestWave s w) i0 = getField s i0 := rfl
@[simp] theorem requestWave_getDie (s : State) (w : Wave) (i0 : Nat) : getDie (requestWave s w) i0 = getDie s i0 := rfl
@[simp] theorem requestWave_getHost (s : State) (w : Wave) (i0 : Nat) : getHost (requestWave s w) i0 = getHost s i0 := rfl
@[simp] theorem requestWave_getEng (s : State) (w : Wave) (i0 : Nat) : getEng (requestWave s w) i0 = getEng s i0 := rfl
@[simp] theorem requestWave_getMsd (s : State) (w : Wave) (i0 : Nat) : getMsd (requestWave s w) i0 = getMsd s i0 := rfl
@[simp] theorem requestWave_getPd (s : State) (w : Wave) (i0 : Nat) : getPd (requestWave s w) i0 = getPd s i0 := rfl
@[simp] theorem requestWave_getPacket (s : State) (w : Wave) (i0 : Nat) : getPacket (requestWave s w) i0 = getPacket s i0 := rfl
@[simp] theorem requestWave_getMb (s : State) (w : Wave) (i0 : Nat) : getMb (requestWave s w) i0 = getMb s i0 := rfl
@[simp] theorem requestWave_nowNs (s : State) (w : Wave) : nowNs (requestWave s w) = nowNs s := rfl
@[simp] theorem requestWave_nowPs (s : State) (w : Wave) : nowPs (requestWave s w) = nowPs s := rfl
@[simp] theorem requestWave_fenced (s : State) (w : Wave) (i0 : Nat) : fenced (requestWave s w) i0 = fenced s i0 := rfl
@[simp] theorem requestWave_getBank (s : State) (w : Wave) (i0 : Nat) : getBank (requestWave s w) i0 = getBank s i0 := rfl
@[simp] theorem requestWave_getBlade (s : State) (w : Wave) (i0 : Nat) : getBlade (requestWave s w) i0 = getBlade s i0 := rfl

/-! ### setMsd -/

@[simp] theorem setMsd_pending (s : State) (m : Nat) (x : Msd) : (setMsd s m x).pending = s.pending := rfl
@[simp] theorem setMsd_time (s : State) (m : Nat) (x : Msd) : (setMsd s m x).time = s.time := rfl
@[simp] theorem setMsd_wicks (s : State) (m : Nat) (x : Msd) : (setMsd s m x).wicks = s.wicks := rfl
@[simp] theorem setMsd_flows (s : State) (m : Nat) (x : Msd) : (setMsd s m x).flows = s.flows := rfl
@[simp] theorem setMsd_cus (s : State) (m : Nat) (x : Msd) : (setMsd s m x).cus = s.cus := rfl
@[simp] theorem setMsd_mus (s : State) (m : Nat) (x : Msd) : (setMsd s m x).mus = s.mus := rfl
@[simp] theorem setMsd_tiles (s : State) (m : Nat) (x : Msd) : (setMsd s m x).tiles = s.tiles := rfl
@[simp] theorem setMsd_regions (s : State) (m : Nat) (x : Msd) : (setMsd s m x).regions = s.regions := rfl
@[simp] theorem setMsd_net (s : State) (m : Nat) (x : Msd) : (setMsd s m x).net = s.net := rfl
@[simp] theorem setMsd_lamp (s : State) (m : Nat) (x : Msd) : (setMsd s m x).lamp = s.lamp := rfl
@[simp] theorem setMsd_inc (s : State) (m : Nat) (x : Msd) : (setMsd s m x).inc = s.inc := rfl
@[simp] theorem setMsd_fields (s : State) (m : Nat) (x : Msd) : (setMsd s m x).fields = s.fields := rfl
@[simp] theorem setMsd_trace (s : State) (m : Nat) (x : Msd) : (setMsd s m x).trace = s.trace := rfl
@[simp] theorem setMsd_latch (s : State) (m : Nat) (x : Msd) : (setMsd s m x).latch = s.latch := rfl
@[simp] theorem setMsd_armed (s : State) (m : Nat) (x : Msd) : (setMsd s m x).armed = s.armed := rfl
@[simp] theorem setMsd_seg (s : State) (m : Nat) (x : Msd) : (setMsd s m x).seg = s.seg := rfl
@[simp] theorem setMsd_segKept (s : State) (m : Nat) (x : Msd) : (setMsd s m x).segKept = s.segKept := rfl
@[simp] theorem setMsd_dieFence (s : State) (m : Nat) (x : Msd) : (setMsd s m x).dieFence = s.dieFence := rfl
@[simp] theorem setMsd_hosts (s : State) (m : Nat) (x : Msd) : (setMsd s m x).hosts = s.hosts := rfl
@[simp] theorem setMsd_sem (s : State) (m : Nat) (x : Msd) : (setMsd s m x).sem = s.sem := rfl
@[simp] theorem setMsd_eng (s : State) (m : Nat) (x : Msd) : (setMsd s m x).eng = s.eng := rfl
@[simp] theorem setMsd_copies (s : State) (m : Nat) (x : Msd) : (setMsd s m x).copies = s.copies := rfl
@[simp] theorem setMsd_pds (s : State) (m : Nat) (x : Msd) : (setMsd s m x).pds = s.pds := rfl
@[simp] theorem setMsd_part (s : State) (m : Nat) (x : Msd) : (setMsd s m x).part = s.part := rfl
@[simp] theorem setMsd_boot (s : State) (m : Nat) (x : Msd) : (setMsd s m x).boot = s.boot := rfl
@[simp] theorem setMsd_fw (s : State) (m : Nat) (x : Msd) : (setMsd s m x).fw = s.fw := rfl
@[simp] theorem setMsd_snuff (s : State) (m : Nat) (x : Msd) : (setMsd s m x).snuff = s.snuff := rfl
@[simp] theorem setMsd_tc (s : State) (m : Nat) (x : Msd) : (setMsd s m x).tc = s.tc := rfl
@[simp] theorem setMsd_power (s : State) (m : Nat) (x : Msd) : (setMsd s m x).power = s.power := rfl
@[simp] theorem setMsd_mantle (s : State) (m : Nat) (x : Msd) : (setMsd s m x).mantle = s.mantle := rfl
@[simp] theorem setMsd_dies (s : State) (m : Nat) (x : Msd) : (setMsd s m x).dies = s.dies := rfl
@[simp] theorem setMsd_jsel (s : State) (m : Nat) (x : Msd) : (setMsd s m x).jsel = s.jsel := rfl
@[simp] theorem setMsd_island (s : State) (m : Nat) (x : Msd) : (setMsd s m x).island = s.island := rfl
@[simp] theorem setMsd_ans (s : State) (m : Nat) (x : Msd) : (setMsd s m x).ans = s.ans := rfl
@[simp] theorem setMsd_cdErr (s : State) (m : Nat) (x : Msd) : (setMsd s m x).cdErr = s.cdErr := rfl
@[simp] theorem setMsd_getWick (s : State) (m : Nat) (x : Msd) (i0 i1 : Nat) : getWick (setMsd s m x) i0 i1 = getWick s i0 i1 := rfl
@[simp] theorem setMsd_getFlow (s : State) (m : Nat) (x : Msd) (i0 i1 : Nat) : getFlow (setMsd s m x) i0 i1 = getFlow s i0 i1 := rfl
@[simp] theorem setMsd_getCu (s : State) (m : Nat) (x : Msd) (i0 i1 : Nat) : getCu (setMsd s m x) i0 i1 = getCu s i0 i1 := rfl
@[simp] theorem setMsd_getMu (s : State) (m : Nat) (x : Msd) (i0 i1 : Nat) : getMu (setMsd s m x) i0 i1 = getMu s i0 i1 := rfl
@[simp] theorem setMsd_getTile (s : State) (m : Nat) (x : Msd) (i0 : Nat) : getTile (setMsd s m x) i0 = getTile s i0 := rfl
@[simp] theorem setMsd_getRegion (s : State) (m : Nat) (x : Msd) (i0 : Nat) : getRegion (setMsd s m x) i0 = getRegion s i0 := rfl
@[simp] theorem setMsd_getField (s : State) (m : Nat) (x : Msd) (i0 : Nat) : getField (setMsd s m x) i0 = getField s i0 := rfl
@[simp] theorem setMsd_getDie (s : State) (m : Nat) (x : Msd) (i0 : Nat) : getDie (setMsd s m x) i0 = getDie s i0 := rfl
@[simp] theorem setMsd_getHost (s : State) (m : Nat) (x : Msd) (i0 : Nat) : getHost (setMsd s m x) i0 = getHost s i0 := rfl
@[simp] theorem setMsd_getEng (s : State) (m : Nat) (x : Msd) (i0 : Nat) : getEng (setMsd s m x) i0 = getEng s i0 := rfl
@[simp] theorem setMsd_getPd (s : State) (m : Nat) (x : Msd) (i0 : Nat) : getPd (setMsd s m x) i0 = getPd s i0 := rfl
@[simp] theorem setMsd_getPacket (s : State) (m : Nat) (x : Msd) (i0 : Nat) : getPacket (setMsd s m x) i0 = getPacket s i0 := rfl
@[simp] theorem setMsd_getMb (s : State) (m : Nat) (x : Msd) (i0 : Nat) : getMb (setMsd s m x) i0 = getMb s i0 := rfl
@[simp] theorem setMsd_nowNs (s : State) (m : Nat) (x : Msd) : nowNs (setMsd s m x) = nowNs s := rfl
@[simp] theorem setMsd_nowPs (s : State) (m : Nat) (x : Msd) : nowPs (setMsd s m x) = nowPs s := rfl
@[simp] theorem setMsd_fenced (s : State) (m : Nat) (x : Msd) (i0 : Nat) : fenced (setMsd s m x) i0 = fenced s i0 := rfl
@[simp] theorem setMsd_getBank (s : State) (m : Nat) (x : Msd) (i0 : Nat) : getBank (setMsd s m x) i0 = getBank s i0 := rfl
@[simp] theorem setMsd_getBlade (s : State) (m : Nat) (x : Msd) (i0 : Nat) : getBlade (setMsd s m x) i0 = getBlade s i0 := rfl

@[simp] theorem modMsd_eq (s : State) (m : Nat) (f : Msd → Msd) : modMsd s m f = setMsd s m (f (getMsd s m)) := rfl

/-! ### setPd -/

@[simp] theorem setPd_pending (s : State) (d : Nat) (x : Pd) : (setPd s d x).pending = s.pending := rfl
@[simp] theorem setPd_time (s : State) (d : Nat) (x : Pd) : (setPd s d x).time = s.time := rfl
@[simp] theorem setPd_wicks (s : State) (d : Nat) (x : Pd) : (setPd s d x).wicks = s.wicks := rfl
@[simp] theorem setPd_flows (s : State) (d : Nat) (x : Pd) : (setPd s d x).flows = s.flows := rfl
@[simp] theorem setPd_cus (s : State) (d : Nat) (x : Pd) : (setPd s d x).cus = s.cus := rfl
@[simp] theorem setPd_mus (s : State) (d : Nat) (x : Pd) : (setPd s d x).mus = s.mus := rfl
@[simp] theorem setPd_tiles (s : State) (d : Nat) (x : Pd) : (setPd s d x).tiles = s.tiles := rfl
@[simp] theorem setPd_regions (s : State) (d : Nat) (x : Pd) : (setPd s d x).regions = s.regions := rfl
@[simp] theorem setPd_net (s : State) (d : Nat) (x : Pd) : (setPd s d x).net = s.net := rfl
@[simp] theorem setPd_lamp (s : State) (d : Nat) (x : Pd) : (setPd s d x).lamp = s.lamp := rfl
@[simp] theorem setPd_inc (s : State) (d : Nat) (x : Pd) : (setPd s d x).inc = s.inc := rfl
@[simp] theorem setPd_fields (s : State) (d : Nat) (x : Pd) : (setPd s d x).fields = s.fields := rfl
@[simp] theorem setPd_trace (s : State) (d : Nat) (x : Pd) : (setPd s d x).trace = s.trace := rfl
@[simp] theorem setPd_latch (s : State) (d : Nat) (x : Pd) : (setPd s d x).latch = s.latch := rfl
@[simp] theorem setPd_armed (s : State) (d : Nat) (x : Pd) : (setPd s d x).armed = s.armed := rfl
@[simp] theorem setPd_seg (s : State) (d : Nat) (x : Pd) : (setPd s d x).seg = s.seg := rfl
@[simp] theorem setPd_segKept (s : State) (d : Nat) (x : Pd) : (setPd s d x).segKept = s.segKept := rfl
@[simp] theorem setPd_dieFence (s : State) (d : Nat) (x : Pd) : (setPd s d x).dieFence = s.dieFence := rfl
@[simp] theorem setPd_hosts (s : State) (d : Nat) (x : Pd) : (setPd s d x).hosts = s.hosts := rfl
@[simp] theorem setPd_sem (s : State) (d : Nat) (x : Pd) : (setPd s d x).sem = s.sem := rfl
@[simp] theorem setPd_eng (s : State) (d : Nat) (x : Pd) : (setPd s d x).eng = s.eng := rfl
@[simp] theorem setPd_copies (s : State) (d : Nat) (x : Pd) : (setPd s d x).copies = s.copies := rfl
@[simp] theorem setPd_msds (s : State) (d : Nat) (x : Pd) : (setPd s d x).msds = s.msds := rfl
@[simp] theorem setPd_part (s : State) (d : Nat) (x : Pd) : (setPd s d x).part = s.part := rfl
@[simp] theorem setPd_boot (s : State) (d : Nat) (x : Pd) : (setPd s d x).boot = s.boot := rfl
@[simp] theorem setPd_fw (s : State) (d : Nat) (x : Pd) : (setPd s d x).fw = s.fw := rfl
@[simp] theorem setPd_snuff (s : State) (d : Nat) (x : Pd) : (setPd s d x).snuff = s.snuff := rfl
@[simp] theorem setPd_tc (s : State) (d : Nat) (x : Pd) : (setPd s d x).tc = s.tc := rfl
@[simp] theorem setPd_power (s : State) (d : Nat) (x : Pd) : (setPd s d x).power = s.power := rfl
@[simp] theorem setPd_mantle (s : State) (d : Nat) (x : Pd) : (setPd s d x).mantle = s.mantle := rfl
@[simp] theorem setPd_dies (s : State) (d : Nat) (x : Pd) : (setPd s d x).dies = s.dies := rfl
@[simp] theorem setPd_jsel (s : State) (d : Nat) (x : Pd) : (setPd s d x).jsel = s.jsel := rfl
@[simp] theorem setPd_island (s : State) (d : Nat) (x : Pd) : (setPd s d x).island = s.island := rfl
@[simp] theorem setPd_ans (s : State) (d : Nat) (x : Pd) : (setPd s d x).ans = s.ans := rfl
@[simp] theorem setPd_cdErr (s : State) (d : Nat) (x : Pd) : (setPd s d x).cdErr = s.cdErr := rfl
@[simp] theorem setPd_getWick (s : State) (d : Nat) (x : Pd) (i0 i1 : Nat) : getWick (setPd s d x) i0 i1 = getWick s i0 i1 := rfl
@[simp] theorem setPd_getFlow (s : State) (d : Nat) (x : Pd) (i0 i1 : Nat) : getFlow (setPd s d x) i0 i1 = getFlow s i0 i1 := rfl
@[simp] theorem setPd_getCu (s : State) (d : Nat) (x : Pd) (i0 i1 : Nat) : getCu (setPd s d x) i0 i1 = getCu s i0 i1 := rfl
@[simp] theorem setPd_getMu (s : State) (d : Nat) (x : Pd) (i0 i1 : Nat) : getMu (setPd s d x) i0 i1 = getMu s i0 i1 := rfl
@[simp] theorem setPd_getTile (s : State) (d : Nat) (x : Pd) (i0 : Nat) : getTile (setPd s d x) i0 = getTile s i0 := rfl
@[simp] theorem setPd_getRegion (s : State) (d : Nat) (x : Pd) (i0 : Nat) : getRegion (setPd s d x) i0 = getRegion s i0 := rfl
@[simp] theorem setPd_getField (s : State) (d : Nat) (x : Pd) (i0 : Nat) : getField (setPd s d x) i0 = getField s i0 := rfl
@[simp] theorem setPd_getDie (s : State) (d : Nat) (x : Pd) (i0 : Nat) : getDie (setPd s d x) i0 = getDie s i0 := rfl
@[simp] theorem setPd_getHost (s : State) (d : Nat) (x : Pd) (i0 : Nat) : getHost (setPd s d x) i0 = getHost s i0 := rfl
@[simp] theorem setPd_getEng (s : State) (d : Nat) (x : Pd) (i0 : Nat) : getEng (setPd s d x) i0 = getEng s i0 := rfl
@[simp] theorem setPd_getMsd (s : State) (d : Nat) (x : Pd) (i0 : Nat) : getMsd (setPd s d x) i0 = getMsd s i0 := rfl
@[simp] theorem setPd_getPacket (s : State) (d : Nat) (x : Pd) (i0 : Nat) : getPacket (setPd s d x) i0 = getPacket s i0 := rfl
@[simp] theorem setPd_getMb (s : State) (d : Nat) (x : Pd) (i0 : Nat) : getMb (setPd s d x) i0 = getMb s i0 := rfl
@[simp] theorem setPd_nowNs (s : State) (d : Nat) (x : Pd) : nowNs (setPd s d x) = nowNs s := rfl
@[simp] theorem setPd_nowPs (s : State) (d : Nat) (x : Pd) : nowPs (setPd s d x) = nowPs s := rfl
@[simp] theorem setPd_fenced (s : State) (d : Nat) (x : Pd) (i0 : Nat) : fenced (setPd s d x) i0 = fenced s i0 := rfl
@[simp] theorem setPd_getBank (s : State) (d : Nat) (x : Pd) (i0 : Nat) : getBank (setPd s d x) i0 = getBank s i0 := rfl
@[simp] theorem setPd_getBlade (s : State) (d : Nat) (x : Pd) (i0 : Nat) : getBlade (setPd s d x) i0 = getBlade s i0 := rfl

@[simp] theorem modPd_eq (s : State) (d : Nat) (f : Pd → Pd) : modPd s d f = setPd s d (f (getPd s d)) := rfl

/-! ### modMantle -/

@[simp] theorem modMantle_pending (s : State) (f : Mantle → Mantle) : (modMantle s f).pending = s.pending := rfl
@[simp] theorem modMantle_time (s : State) (f : Mantle → Mantle) : (modMantle s f).time = s.time := rfl
@[simp] theorem modMantle_wicks (s : State) (f : Mantle → Mantle) : (modMantle s f).wicks = s.wicks := rfl
@[simp] theorem modMantle_flows (s : State) (f : Mantle → Mantle) : (modMantle s f).flows = s.flows := rfl
@[simp] theorem modMantle_cus (s : State) (f : Mantle → Mantle) : (modMantle s f).cus = s.cus := rfl
@[simp] theorem modMantle_mus (s : State) (f : Mantle → Mantle) : (modMantle s f).mus = s.mus := rfl
@[simp] theorem modMantle_tiles (s : State) (f : Mantle → Mantle) : (modMantle s f).tiles = s.tiles := rfl
@[simp] theorem modMantle_regions (s : State) (f : Mantle → Mantle) : (modMantle s f).regions = s.regions := rfl
@[simp] theorem modMantle_net (s : State) (f : Mantle → Mantle) : (modMantle s f).net = s.net := rfl
@[simp] theorem modMantle_lamp (s : State) (f : Mantle → Mantle) : (modMantle s f).lamp = s.lamp := rfl
@[simp] theorem modMantle_inc (s : State) (f : Mantle → Mantle) : (modMantle s f).inc = s.inc := rfl
@[simp] theorem modMantle_fields (s : State) (f : Mantle → Mantle) : (modMantle s f).fields = s.fields := rfl
@[simp] theorem modMantle_trace (s : State) (f : Mantle → Mantle) : (modMantle s f).trace = s.trace := rfl
@[simp] theorem modMantle_latch (s : State) (f : Mantle → Mantle) : (modMantle s f).latch = s.latch := rfl
@[simp] theorem modMantle_armed (s : State) (f : Mantle → Mantle) : (modMantle s f).armed = s.armed := rfl
@[simp] theorem modMantle_seg (s : State) (f : Mantle → Mantle) : (modMantle s f).seg = s.seg := rfl
@[simp] theorem modMantle_segKept (s : State) (f : Mantle → Mantle) : (modMantle s f).segKept = s.segKept := rfl
@[simp] theorem modMantle_dieFence (s : State) (f : Mantle → Mantle) : (modMantle s f).dieFence = s.dieFence := rfl
@[simp] theorem modMantle_hosts (s : State) (f : Mantle → Mantle) : (modMantle s f).hosts = s.hosts := rfl
@[simp] theorem modMantle_sem (s : State) (f : Mantle → Mantle) : (modMantle s f).sem = s.sem := rfl
@[simp] theorem modMantle_eng (s : State) (f : Mantle → Mantle) : (modMantle s f).eng = s.eng := rfl
@[simp] theorem modMantle_copies (s : State) (f : Mantle → Mantle) : (modMantle s f).copies = s.copies := rfl
@[simp] theorem modMantle_msds (s : State) (f : Mantle → Mantle) : (modMantle s f).msds = s.msds := rfl
@[simp] theorem modMantle_pds (s : State) (f : Mantle → Mantle) : (modMantle s f).pds = s.pds := rfl
@[simp] theorem modMantle_part (s : State) (f : Mantle → Mantle) : (modMantle s f).part = s.part := rfl
@[simp] theorem modMantle_boot (s : State) (f : Mantle → Mantle) : (modMantle s f).boot = s.boot := rfl
@[simp] theorem modMantle_fw (s : State) (f : Mantle → Mantle) : (modMantle s f).fw = s.fw := rfl
@[simp] theorem modMantle_snuff (s : State) (f : Mantle → Mantle) : (modMantle s f).snuff = s.snuff := rfl
@[simp] theorem modMantle_tc (s : State) (f : Mantle → Mantle) : (modMantle s f).tc = s.tc := rfl
@[simp] theorem modMantle_power (s : State) (f : Mantle → Mantle) : (modMantle s f).power = s.power := rfl
@[simp] theorem modMantle_dies (s : State) (f : Mantle → Mantle) : (modMantle s f).dies = s.dies := rfl
@[simp] theorem modMantle_jsel (s : State) (f : Mantle → Mantle) : (modMantle s f).jsel = s.jsel := rfl
@[simp] theorem modMantle_island (s : State) (f : Mantle → Mantle) : (modMantle s f).island = s.island := rfl
@[simp] theorem modMantle_ans (s : State) (f : Mantle → Mantle) : (modMantle s f).ans = s.ans := rfl
@[simp] theorem modMantle_cdErr (s : State) (f : Mantle → Mantle) : (modMantle s f).cdErr = s.cdErr := rfl
@[simp] theorem modMantle_getWick (s : State) (f : Mantle → Mantle) (i0 i1 : Nat) : getWick (modMantle s f) i0 i1 = getWick s i0 i1 := rfl
@[simp] theorem modMantle_getFlow (s : State) (f : Mantle → Mantle) (i0 i1 : Nat) : getFlow (modMantle s f) i0 i1 = getFlow s i0 i1 := rfl
@[simp] theorem modMantle_getCu (s : State) (f : Mantle → Mantle) (i0 i1 : Nat) : getCu (modMantle s f) i0 i1 = getCu s i0 i1 := rfl
@[simp] theorem modMantle_getMu (s : State) (f : Mantle → Mantle) (i0 i1 : Nat) : getMu (modMantle s f) i0 i1 = getMu s i0 i1 := rfl
@[simp] theorem modMantle_getTile (s : State) (f : Mantle → Mantle) (i0 : Nat) : getTile (modMantle s f) i0 = getTile s i0 := rfl
@[simp] theorem modMantle_getRegion (s : State) (f : Mantle → Mantle) (i0 : Nat) : getRegion (modMantle s f) i0 = getRegion s i0 := rfl
@[simp] theorem modMantle_getField (s : State) (f : Mantle → Mantle) (i0 : Nat) : getField (modMantle s f) i0 = getField s i0 := rfl
@[simp] theorem modMantle_getDie (s : State) (f : Mantle → Mantle) (i0 : Nat) : getDie (modMantle s f) i0 = getDie s i0 := rfl
@[simp] theorem modMantle_getHost (s : State) (f : Mantle → Mantle) (i0 : Nat) : getHost (modMantle s f) i0 = getHost s i0 := rfl
@[simp] theorem modMantle_getEng (s : State) (f : Mantle → Mantle) (i0 : Nat) : getEng (modMantle s f) i0 = getEng s i0 := rfl
@[simp] theorem modMantle_getMsd (s : State) (f : Mantle → Mantle) (i0 : Nat) : getMsd (modMantle s f) i0 = getMsd s i0 := rfl
@[simp] theorem modMantle_getPd (s : State) (f : Mantle → Mantle) (i0 : Nat) : getPd (modMantle s f) i0 = getPd s i0 := rfl
@[simp] theorem modMantle_getPacket (s : State) (f : Mantle → Mantle) (i0 : Nat) : getPacket (modMantle s f) i0 = getPacket s i0 := rfl
@[simp] theorem modMantle_nowNs (s : State) (f : Mantle → Mantle) : nowNs (modMantle s f) = nowNs s := rfl
@[simp] theorem modMantle_nowPs (s : State) (f : Mantle → Mantle) : nowPs (modMantle s f) = nowPs s := rfl
@[simp] theorem modMantle_fenced (s : State) (f : Mantle → Mantle) (i0 : Nat) : fenced (modMantle s f) i0 = fenced s i0 := rfl
@[simp] theorem modMantle_getBank (s : State) (f : Mantle → Mantle) (i0 : Nat) : getBank (modMantle s f) i0 = getBank s i0 := rfl
@[simp] theorem modMantle_getBlade (s : State) (f : Mantle → Mantle) (i0 : Nat) : getBlade (modMantle s f) i0 = getBlade s i0 := rfl

/-! ### setMb -/

@[simp] theorem setMb_pending (s : State) (p : Nat) (x : MbPort) : (setMb s p x).pending = s.pending := rfl
@[simp] theorem setMb_time (s : State) (p : Nat) (x : MbPort) : (setMb s p x).time = s.time := rfl
@[simp] theorem setMb_wicks (s : State) (p : Nat) (x : MbPort) : (setMb s p x).wicks = s.wicks := rfl
@[simp] theorem setMb_flows (s : State) (p : Nat) (x : MbPort) : (setMb s p x).flows = s.flows := rfl
@[simp] theorem setMb_cus (s : State) (p : Nat) (x : MbPort) : (setMb s p x).cus = s.cus := rfl
@[simp] theorem setMb_mus (s : State) (p : Nat) (x : MbPort) : (setMb s p x).mus = s.mus := rfl
@[simp] theorem setMb_tiles (s : State) (p : Nat) (x : MbPort) : (setMb s p x).tiles = s.tiles := rfl
@[simp] theorem setMb_regions (s : State) (p : Nat) (x : MbPort) : (setMb s p x).regions = s.regions := rfl
@[simp] theorem setMb_net (s : State) (p : Nat) (x : MbPort) : (setMb s p x).net = s.net := rfl
@[simp] theorem setMb_lamp (s : State) (p : Nat) (x : MbPort) : (setMb s p x).lamp = s.lamp := rfl
@[simp] theorem setMb_inc (s : State) (p : Nat) (x : MbPort) : (setMb s p x).inc = s.inc := rfl
@[simp] theorem setMb_fields (s : State) (p : Nat) (x : MbPort) : (setMb s p x).fields = s.fields := rfl
@[simp] theorem setMb_trace (s : State) (p : Nat) (x : MbPort) : (setMb s p x).trace = s.trace := rfl
@[simp] theorem setMb_latch (s : State) (p : Nat) (x : MbPort) : (setMb s p x).latch = s.latch := rfl
@[simp] theorem setMb_armed (s : State) (p : Nat) (x : MbPort) : (setMb s p x).armed = s.armed := rfl
@[simp] theorem setMb_seg (s : State) (p : Nat) (x : MbPort) : (setMb s p x).seg = s.seg := rfl
@[simp] theorem setMb_segKept (s : State) (p : Nat) (x : MbPort) : (setMb s p x).segKept = s.segKept := rfl
@[simp] theorem setMb_dieFence (s : State) (p : Nat) (x : MbPort) : (setMb s p x).dieFence = s.dieFence := rfl
@[simp] theorem setMb_hosts (s : State) (p : Nat) (x : MbPort) : (setMb s p x).hosts = s.hosts := rfl
@[simp] theorem setMb_sem (s : State) (p : Nat) (x : MbPort) : (setMb s p x).sem = s.sem := rfl
@[simp] theorem setMb_eng (s : State) (p : Nat) (x : MbPort) : (setMb s p x).eng = s.eng := rfl
@[simp] theorem setMb_copies (s : State) (p : Nat) (x : MbPort) : (setMb s p x).copies = s.copies := rfl
@[simp] theorem setMb_msds (s : State) (p : Nat) (x : MbPort) : (setMb s p x).msds = s.msds := rfl
@[simp] theorem setMb_pds (s : State) (p : Nat) (x : MbPort) : (setMb s p x).pds = s.pds := rfl
@[simp] theorem setMb_part (s : State) (p : Nat) (x : MbPort) : (setMb s p x).part = s.part := rfl
@[simp] theorem setMb_boot (s : State) (p : Nat) (x : MbPort) : (setMb s p x).boot = s.boot := rfl
@[simp] theorem setMb_fw (s : State) (p : Nat) (x : MbPort) : (setMb s p x).fw = s.fw := rfl
@[simp] theorem setMb_snuff (s : State) (p : Nat) (x : MbPort) : (setMb s p x).snuff = s.snuff := rfl
@[simp] theorem setMb_tc (s : State) (p : Nat) (x : MbPort) : (setMb s p x).tc = s.tc := rfl
@[simp] theorem setMb_power (s : State) (p : Nat) (x : MbPort) : (setMb s p x).power = s.power := rfl
@[simp] theorem setMb_dies (s : State) (p : Nat) (x : MbPort) : (setMb s p x).dies = s.dies := rfl
@[simp] theorem setMb_jsel (s : State) (p : Nat) (x : MbPort) : (setMb s p x).jsel = s.jsel := rfl
@[simp] theorem setMb_island (s : State) (p : Nat) (x : MbPort) : (setMb s p x).island = s.island := rfl
@[simp] theorem setMb_ans (s : State) (p : Nat) (x : MbPort) : (setMb s p x).ans = s.ans := rfl
@[simp] theorem setMb_cdErr (s : State) (p : Nat) (x : MbPort) : (setMb s p x).cdErr = s.cdErr := rfl
@[simp] theorem setMb_getWick (s : State) (p : Nat) (x : MbPort) (i0 i1 : Nat) : getWick (setMb s p x) i0 i1 = getWick s i0 i1 := rfl
@[simp] theorem setMb_getFlow (s : State) (p : Nat) (x : MbPort) (i0 i1 : Nat) : getFlow (setMb s p x) i0 i1 = getFlow s i0 i1 := rfl
@[simp] theorem setMb_getCu (s : State) (p : Nat) (x : MbPort) (i0 i1 : Nat) : getCu (setMb s p x) i0 i1 = getCu s i0 i1 := rfl
@[simp] theorem setMb_getMu (s : State) (p : Nat) (x : MbPort) (i0 i1 : Nat) : getMu (setMb s p x) i0 i1 = getMu s i0 i1 := rfl
@[simp] theorem setMb_getTile (s : State) (p : Nat) (x : MbPort) (i0 : Nat) : getTile (setMb s p x) i0 = getTile s i0 := rfl
@[simp] theorem setMb_getRegion (s : State) (p : Nat) (x : MbPort) (i0 : Nat) : getRegion (setMb s p x) i0 = getRegion s i0 := rfl
@[simp] theorem setMb_getField (s : State) (p : Nat) (x : MbPort) (i0 : Nat) : getField (setMb s p x) i0 = getField s i0 := rfl
@[simp] theorem setMb_getDie (s : State) (p : Nat) (x : MbPort) (i0 : Nat) : getDie (setMb s p x) i0 = getDie s i0 := rfl
@[simp] theorem setMb_getHost (s : State) (p : Nat) (x : MbPort) (i0 : Nat) : getHost (setMb s p x) i0 = getHost s i0 := rfl
@[simp] theorem setMb_getEng (s : State) (p : Nat) (x : MbPort) (i0 : Nat) : getEng (setMb s p x) i0 = getEng s i0 := rfl
@[simp] theorem setMb_getMsd (s : State) (p : Nat) (x : MbPort) (i0 : Nat) : getMsd (setMb s p x) i0 = getMsd s i0 := rfl
@[simp] theorem setMb_getPd (s : State) (p : Nat) (x : MbPort) (i0 : Nat) : getPd (setMb s p x) i0 = getPd s i0 := rfl
@[simp] theorem setMb_getPacket (s : State) (p : Nat) (x : MbPort) (i0 : Nat) : getPacket (setMb s p x) i0 = getPacket s i0 := rfl
@[simp] theorem setMb_nowNs (s : State) (p : Nat) (x : MbPort) : nowNs (setMb s p x) = nowNs s := rfl
@[simp] theorem setMb_nowPs (s : State) (p : Nat) (x : MbPort) : nowPs (setMb s p x) = nowPs s := rfl
@[simp] theorem setMb_fenced (s : State) (p : Nat) (x : MbPort) (i0 : Nat) : fenced (setMb s p x) i0 = fenced s i0 := rfl
@[simp] theorem setMb_getBank (s : State) (p : Nat) (x : MbPort) (i0 : Nat) : getBank (setMb s p x) i0 = getBank s i0 := rfl
@[simp] theorem setMb_getBlade (s : State) (p : Nat) (x : MbPort) (i0 : Nat) : getBlade (setMb s p x) i0 = getBlade s i0 := rfl

@[simp] theorem modMb_eq (s : State) (p : Nat) (f : MbPort → MbPort) : modMb s p f = setMb s p (f (getMb s p)) := rfl

/-! ### modMail -/

@[simp] theorem modMail_pending (s : State) (id : Nat) (f : MbCmd → MbCmd) : (modMail s id f).pending = s.pending := rfl
@[simp] theorem modMail_time (s : State) (id : Nat) (f : MbCmd → MbCmd) : (modMail s id f).time = s.time := rfl
@[simp] theorem modMail_wicks (s : State) (id : Nat) (f : MbCmd → MbCmd) : (modMail s id f).wicks = s.wicks := rfl
@[simp] theorem modMail_flows (s : State) (id : Nat) (f : MbCmd → MbCmd) : (modMail s id f).flows = s.flows := rfl
@[simp] theorem modMail_cus (s : State) (id : Nat) (f : MbCmd → MbCmd) : (modMail s id f).cus = s.cus := rfl
@[simp] theorem modMail_mus (s : State) (id : Nat) (f : MbCmd → MbCmd) : (modMail s id f).mus = s.mus := rfl
@[simp] theorem modMail_tiles (s : State) (id : Nat) (f : MbCmd → MbCmd) : (modMail s id f).tiles = s.tiles := rfl
@[simp] theorem modMail_regions (s : State) (id : Nat) (f : MbCmd → MbCmd) : (modMail s id f).regions = s.regions := rfl
@[simp] theorem modMail_net (s : State) (id : Nat) (f : MbCmd → MbCmd) : (modMail s id f).net = s.net := rfl
@[simp] theorem modMail_lamp (s : State) (id : Nat) (f : MbCmd → MbCmd) : (modMail s id f).lamp = s.lamp := rfl
@[simp] theorem modMail_inc (s : State) (id : Nat) (f : MbCmd → MbCmd) : (modMail s id f).inc = s.inc := rfl
@[simp] theorem modMail_fields (s : State) (id : Nat) (f : MbCmd → MbCmd) : (modMail s id f).fields = s.fields := rfl
@[simp] theorem modMail_trace (s : State) (id : Nat) (f : MbCmd → MbCmd) : (modMail s id f).trace = s.trace := rfl
@[simp] theorem modMail_latch (s : State) (id : Nat) (f : MbCmd → MbCmd) : (modMail s id f).latch = s.latch := rfl
@[simp] theorem modMail_armed (s : State) (id : Nat) (f : MbCmd → MbCmd) : (modMail s id f).armed = s.armed := rfl
@[simp] theorem modMail_seg (s : State) (id : Nat) (f : MbCmd → MbCmd) : (modMail s id f).seg = s.seg := rfl
@[simp] theorem modMail_segKept (s : State) (id : Nat) (f : MbCmd → MbCmd) : (modMail s id f).segKept = s.segKept := rfl
@[simp] theorem modMail_dieFence (s : State) (id : Nat) (f : MbCmd → MbCmd) : (modMail s id f).dieFence = s.dieFence := rfl
@[simp] theorem modMail_hosts (s : State) (id : Nat) (f : MbCmd → MbCmd) : (modMail s id f).hosts = s.hosts := rfl
@[simp] theorem modMail_sem (s : State) (id : Nat) (f : MbCmd → MbCmd) : (modMail s id f).sem = s.sem := rfl
@[simp] theorem modMail_eng (s : State) (id : Nat) (f : MbCmd → MbCmd) : (modMail s id f).eng = s.eng := rfl
@[simp] theorem modMail_copies (s : State) (id : Nat) (f : MbCmd → MbCmd) : (modMail s id f).copies = s.copies := rfl
@[simp] theorem modMail_msds (s : State) (id : Nat) (f : MbCmd → MbCmd) : (modMail s id f).msds = s.msds := rfl
@[simp] theorem modMail_pds (s : State) (id : Nat) (f : MbCmd → MbCmd) : (modMail s id f).pds = s.pds := rfl
@[simp] theorem modMail_part (s : State) (id : Nat) (f : MbCmd → MbCmd) : (modMail s id f).part = s.part := rfl
@[simp] theorem modMail_boot (s : State) (id : Nat) (f : MbCmd → MbCmd) : (modMail s id f).boot = s.boot := rfl
@[simp] theorem modMail_fw (s : State) (id : Nat) (f : MbCmd → MbCmd) : (modMail s id f).fw = s.fw := rfl
@[simp] theorem modMail_snuff (s : State) (id : Nat) (f : MbCmd → MbCmd) : (modMail s id f).snuff = s.snuff := rfl
@[simp] theorem modMail_tc (s : State) (id : Nat) (f : MbCmd → MbCmd) : (modMail s id f).tc = s.tc := rfl
@[simp] theorem modMail_power (s : State) (id : Nat) (f : MbCmd → MbCmd) : (modMail s id f).power = s.power := rfl
@[simp] theorem modMail_dies (s : State) (id : Nat) (f : MbCmd → MbCmd) : (modMail s id f).dies = s.dies := rfl
@[simp] theorem modMail_jsel (s : State) (id : Nat) (f : MbCmd → MbCmd) : (modMail s id f).jsel = s.jsel := rfl
@[simp] theorem modMail_island (s : State) (id : Nat) (f : MbCmd → MbCmd) : (modMail s id f).island = s.island := rfl
@[simp] theorem modMail_ans (s : State) (id : Nat) (f : MbCmd → MbCmd) : (modMail s id f).ans = s.ans := rfl
@[simp] theorem modMail_cdErr (s : State) (id : Nat) (f : MbCmd → MbCmd) : (modMail s id f).cdErr = s.cdErr := rfl
@[simp] theorem modMail_getWick (s : State) (id : Nat) (f : MbCmd → MbCmd) (i0 i1 : Nat) : getWick (modMail s id f) i0 i1 = getWick s i0 i1 := rfl
@[simp] theorem modMail_getFlow (s : State) (id : Nat) (f : MbCmd → MbCmd) (i0 i1 : Nat) : getFlow (modMail s id f) i0 i1 = getFlow s i0 i1 := rfl
@[simp] theorem modMail_getCu (s : State) (id : Nat) (f : MbCmd → MbCmd) (i0 i1 : Nat) : getCu (modMail s id f) i0 i1 = getCu s i0 i1 := rfl
@[simp] theorem modMail_getMu (s : State) (id : Nat) (f : MbCmd → MbCmd) (i0 i1 : Nat) : getMu (modMail s id f) i0 i1 = getMu s i0 i1 := rfl
@[simp] theorem modMail_getTile (s : State) (id : Nat) (f : MbCmd → MbCmd) (i0 : Nat) : getTile (modMail s id f) i0 = getTile s i0 := rfl
@[simp] theorem modMail_getRegion (s : State) (id : Nat) (f : MbCmd → MbCmd) (i0 : Nat) : getRegion (modMail s id f) i0 = getRegion s i0 := rfl
@[simp] theorem modMail_getField (s : State) (id : Nat) (f : MbCmd → MbCmd) (i0 : Nat) : getField (modMail s id f) i0 = getField s i0 := rfl
@[simp] theorem modMail_getDie (s : State) (id : Nat) (f : MbCmd → MbCmd) (i0 : Nat) : getDie (modMail s id f) i0 = getDie s i0 := rfl
@[simp] theorem modMail_getHost (s : State) (id : Nat) (f : MbCmd → MbCmd) (i0 : Nat) : getHost (modMail s id f) i0 = getHost s i0 := rfl
@[simp] theorem modMail_getEng (s : State) (id : Nat) (f : MbCmd → MbCmd) (i0 : Nat) : getEng (modMail s id f) i0 = getEng s i0 := rfl
@[simp] theorem modMail_getMsd (s : State) (id : Nat) (f : MbCmd → MbCmd) (i0 : Nat) : getMsd (modMail s id f) i0 = getMsd s i0 := rfl
@[simp] theorem modMail_getPd (s : State) (id : Nat) (f : MbCmd → MbCmd) (i0 : Nat) : getPd (modMail s id f) i0 = getPd s i0 := rfl
@[simp] theorem modMail_getPacket (s : State) (id : Nat) (f : MbCmd → MbCmd) (i0 : Nat) : getPacket (modMail s id f) i0 = getPacket s i0 := rfl
@[simp] theorem modMail_nowNs (s : State) (id : Nat) (f : MbCmd → MbCmd) : nowNs (modMail s id f) = nowNs s := rfl
@[simp] theorem modMail_nowPs (s : State) (id : Nat) (f : MbCmd → MbCmd) : nowPs (modMail s id f) = nowPs s := rfl
@[simp] theorem modMail_fenced (s : State) (id : Nat) (f : MbCmd → MbCmd) (i0 : Nat) : fenced (modMail s id f) i0 = fenced s i0 := rfl
@[simp] theorem modMail_getBank (s : State) (id : Nat) (f : MbCmd → MbCmd) (i0 : Nat) : getBank (modMail s id f) i0 = getBank s i0 := rfl
@[simp] theorem modMail_getBlade (s : State) (id : Nat) (f : MbCmd → MbCmd) (i0 : Nat) : getBlade (modMail s id f) i0 = getBlade s i0 := rfl

/-! ### delMail -/

@[simp] theorem delMail_pending (s : State) (id : Nat) : (delMail s id).pending = s.pending := rfl
@[simp] theorem delMail_time (s : State) (id : Nat) : (delMail s id).time = s.time := rfl
@[simp] theorem delMail_wicks (s : State) (id : Nat) : (delMail s id).wicks = s.wicks := rfl
@[simp] theorem delMail_flows (s : State) (id : Nat) : (delMail s id).flows = s.flows := rfl
@[simp] theorem delMail_cus (s : State) (id : Nat) : (delMail s id).cus = s.cus := rfl
@[simp] theorem delMail_mus (s : State) (id : Nat) : (delMail s id).mus = s.mus := rfl
@[simp] theorem delMail_tiles (s : State) (id : Nat) : (delMail s id).tiles = s.tiles := rfl
@[simp] theorem delMail_regions (s : State) (id : Nat) : (delMail s id).regions = s.regions := rfl
@[simp] theorem delMail_net (s : State) (id : Nat) : (delMail s id).net = s.net := rfl
@[simp] theorem delMail_lamp (s : State) (id : Nat) : (delMail s id).lamp = s.lamp := rfl
@[simp] theorem delMail_inc (s : State) (id : Nat) : (delMail s id).inc = s.inc := rfl
@[simp] theorem delMail_fields (s : State) (id : Nat) : (delMail s id).fields = s.fields := rfl
@[simp] theorem delMail_trace (s : State) (id : Nat) : (delMail s id).trace = s.trace := rfl
@[simp] theorem delMail_latch (s : State) (id : Nat) : (delMail s id).latch = s.latch := rfl
@[simp] theorem delMail_armed (s : State) (id : Nat) : (delMail s id).armed = s.armed := rfl
@[simp] theorem delMail_seg (s : State) (id : Nat) : (delMail s id).seg = s.seg := rfl
@[simp] theorem delMail_segKept (s : State) (id : Nat) : (delMail s id).segKept = s.segKept := rfl
@[simp] theorem delMail_dieFence (s : State) (id : Nat) : (delMail s id).dieFence = s.dieFence := rfl
@[simp] theorem delMail_hosts (s : State) (id : Nat) : (delMail s id).hosts = s.hosts := rfl
@[simp] theorem delMail_sem (s : State) (id : Nat) : (delMail s id).sem = s.sem := rfl
@[simp] theorem delMail_eng (s : State) (id : Nat) : (delMail s id).eng = s.eng := rfl
@[simp] theorem delMail_copies (s : State) (id : Nat) : (delMail s id).copies = s.copies := rfl
@[simp] theorem delMail_msds (s : State) (id : Nat) : (delMail s id).msds = s.msds := rfl
@[simp] theorem delMail_pds (s : State) (id : Nat) : (delMail s id).pds = s.pds := rfl
@[simp] theorem delMail_part (s : State) (id : Nat) : (delMail s id).part = s.part := rfl
@[simp] theorem delMail_boot (s : State) (id : Nat) : (delMail s id).boot = s.boot := rfl
@[simp] theorem delMail_fw (s : State) (id : Nat) : (delMail s id).fw = s.fw := rfl
@[simp] theorem delMail_snuff (s : State) (id : Nat) : (delMail s id).snuff = s.snuff := rfl
@[simp] theorem delMail_tc (s : State) (id : Nat) : (delMail s id).tc = s.tc := rfl
@[simp] theorem delMail_power (s : State) (id : Nat) : (delMail s id).power = s.power := rfl
@[simp] theorem delMail_dies (s : State) (id : Nat) : (delMail s id).dies = s.dies := rfl
@[simp] theorem delMail_jsel (s : State) (id : Nat) : (delMail s id).jsel = s.jsel := rfl
@[simp] theorem delMail_island (s : State) (id : Nat) : (delMail s id).island = s.island := rfl
@[simp] theorem delMail_ans (s : State) (id : Nat) : (delMail s id).ans = s.ans := rfl
@[simp] theorem delMail_cdErr (s : State) (id : Nat) : (delMail s id).cdErr = s.cdErr := rfl
@[simp] theorem delMail_getWick (s : State) (id : Nat) (i0 i1 : Nat) : getWick (delMail s id) i0 i1 = getWick s i0 i1 := rfl
@[simp] theorem delMail_getFlow (s : State) (id : Nat) (i0 i1 : Nat) : getFlow (delMail s id) i0 i1 = getFlow s i0 i1 := rfl
@[simp] theorem delMail_getCu (s : State) (id : Nat) (i0 i1 : Nat) : getCu (delMail s id) i0 i1 = getCu s i0 i1 := rfl
@[simp] theorem delMail_getMu (s : State) (id : Nat) (i0 i1 : Nat) : getMu (delMail s id) i0 i1 = getMu s i0 i1 := rfl
@[simp] theorem delMail_getTile (s : State) (id : Nat) (i0 : Nat) : getTile (delMail s id) i0 = getTile s i0 := rfl
@[simp] theorem delMail_getRegion (s : State) (id : Nat) (i0 : Nat) : getRegion (delMail s id) i0 = getRegion s i0 := rfl
@[simp] theorem delMail_getField (s : State) (id : Nat) (i0 : Nat) : getField (delMail s id) i0 = getField s i0 := rfl
@[simp] theorem delMail_getDie (s : State) (id : Nat) (i0 : Nat) : getDie (delMail s id) i0 = getDie s i0 := rfl
@[simp] theorem delMail_getHost (s : State) (id : Nat) (i0 : Nat) : getHost (delMail s id) i0 = getHost s i0 := rfl
@[simp] theorem delMail_getEng (s : State) (id : Nat) (i0 : Nat) : getEng (delMail s id) i0 = getEng s i0 := rfl
@[simp] theorem delMail_getMsd (s : State) (id : Nat) (i0 : Nat) : getMsd (delMail s id) i0 = getMsd s i0 := rfl
@[simp] theorem delMail_getPd (s : State) (id : Nat) (i0 : Nat) : getPd (delMail s id) i0 = getPd s i0 := rfl
@[simp] theorem delMail_getPacket (s : State) (id : Nat) (i0 : Nat) : getPacket (delMail s id) i0 = getPacket s i0 := rfl
@[simp] theorem delMail_nowNs (s : State) (id : Nat) : nowNs (delMail s id) = nowNs s := rfl
@[simp] theorem delMail_nowPs (s : State) (id : Nat) : nowPs (delMail s id) = nowPs s := rfl
@[simp] theorem delMail_fenced (s : State) (id : Nat) (i0 : Nat) : fenced (delMail s id) i0 = fenced s i0 := rfl
@[simp] theorem delMail_getBank (s : State) (id : Nat) (i0 : Nat) : getBank (delMail s id) i0 = getBank s i0 := rfl
@[simp] theorem delMail_getBlade (s : State) (id : Nat) (i0 : Nat) : getBlade (delMail s id) i0 = getBlade s i0 := rfl

/-! ### modPower -/

@[simp] theorem modPower_pending (s : State) (f : Power → Power) : (modPower s f).pending = s.pending := rfl
@[simp] theorem modPower_time (s : State) (f : Power → Power) : (modPower s f).time = s.time := rfl
@[simp] theorem modPower_wicks (s : State) (f : Power → Power) : (modPower s f).wicks = s.wicks := rfl
@[simp] theorem modPower_flows (s : State) (f : Power → Power) : (modPower s f).flows = s.flows := rfl
@[simp] theorem modPower_cus (s : State) (f : Power → Power) : (modPower s f).cus = s.cus := rfl
@[simp] theorem modPower_mus (s : State) (f : Power → Power) : (modPower s f).mus = s.mus := rfl
@[simp] theorem modPower_tiles (s : State) (f : Power → Power) : (modPower s f).tiles = s.tiles := rfl
@[simp] theorem modPower_regions (s : State) (f : Power → Power) : (modPower s f).regions = s.regions := rfl
@[simp] theorem modPower_net (s : State) (f : Power → Power) : (modPower s f).net = s.net := rfl
@[simp] theorem modPower_lamp (s : State) (f : Power → Power) : (modPower s f).lamp = s.lamp := rfl
@[simp] theorem modPower_inc (s : State) (f : Power → Power) : (modPower s f).inc = s.inc := rfl
@[simp] theorem modPower_fields (s : State) (f : Power → Power) : (modPower s f).fields = s.fields := rfl
@[simp] theorem modPower_trace (s : State) (f : Power → Power) : (modPower s f).trace = s.trace := rfl
@[simp] theorem modPower_latch (s : State) (f : Power → Power) : (modPower s f).latch = s.latch := rfl
@[simp] theorem modPower_armed (s : State) (f : Power → Power) : (modPower s f).armed = s.armed := rfl
@[simp] theorem modPower_seg (s : State) (f : Power → Power) : (modPower s f).seg = s.seg := rfl
@[simp] theorem modPower_segKept (s : State) (f : Power → Power) : (modPower s f).segKept = s.segKept := rfl
@[simp] theorem modPower_dieFence (s : State) (f : Power → Power) : (modPower s f).dieFence = s.dieFence := rfl
@[simp] theorem modPower_hosts (s : State) (f : Power → Power) : (modPower s f).hosts = s.hosts := rfl
@[simp] theorem modPower_sem (s : State) (f : Power → Power) : (modPower s f).sem = s.sem := rfl
@[simp] theorem modPower_eng (s : State) (f : Power → Power) : (modPower s f).eng = s.eng := rfl
@[simp] theorem modPower_copies (s : State) (f : Power → Power) : (modPower s f).copies = s.copies := rfl
@[simp] theorem modPower_msds (s : State) (f : Power → Power) : (modPower s f).msds = s.msds := rfl
@[simp] theorem modPower_pds (s : State) (f : Power → Power) : (modPower s f).pds = s.pds := rfl
@[simp] theorem modPower_part (s : State) (f : Power → Power) : (modPower s f).part = s.part := rfl
@[simp] theorem modPower_boot (s : State) (f : Power → Power) : (modPower s f).boot = s.boot := rfl
@[simp] theorem modPower_fw (s : State) (f : Power → Power) : (modPower s f).fw = s.fw := rfl
@[simp] theorem modPower_snuff (s : State) (f : Power → Power) : (modPower s f).snuff = s.snuff := rfl
@[simp] theorem modPower_tc (s : State) (f : Power → Power) : (modPower s f).tc = s.tc := rfl
@[simp] theorem modPower_mantle (s : State) (f : Power → Power) : (modPower s f).mantle = s.mantle := rfl
@[simp] theorem modPower_dies (s : State) (f : Power → Power) : (modPower s f).dies = s.dies := rfl
@[simp] theorem modPower_jsel (s : State) (f : Power → Power) : (modPower s f).jsel = s.jsel := rfl
@[simp] theorem modPower_island (s : State) (f : Power → Power) : (modPower s f).island = s.island := rfl
@[simp] theorem modPower_ans (s : State) (f : Power → Power) : (modPower s f).ans = s.ans := rfl
@[simp] theorem modPower_cdErr (s : State) (f : Power → Power) : (modPower s f).cdErr = s.cdErr := rfl
@[simp] theorem modPower_getWick (s : State) (f : Power → Power) (i0 i1 : Nat) : getWick (modPower s f) i0 i1 = getWick s i0 i1 := rfl
@[simp] theorem modPower_getFlow (s : State) (f : Power → Power) (i0 i1 : Nat) : getFlow (modPower s f) i0 i1 = getFlow s i0 i1 := rfl
@[simp] theorem modPower_getCu (s : State) (f : Power → Power) (i0 i1 : Nat) : getCu (modPower s f) i0 i1 = getCu s i0 i1 := rfl
@[simp] theorem modPower_getMu (s : State) (f : Power → Power) (i0 i1 : Nat) : getMu (modPower s f) i0 i1 = getMu s i0 i1 := rfl
@[simp] theorem modPower_getTile (s : State) (f : Power → Power) (i0 : Nat) : getTile (modPower s f) i0 = getTile s i0 := rfl
@[simp] theorem modPower_getRegion (s : State) (f : Power → Power) (i0 : Nat) : getRegion (modPower s f) i0 = getRegion s i0 := rfl
@[simp] theorem modPower_getField (s : State) (f : Power → Power) (i0 : Nat) : getField (modPower s f) i0 = getField s i0 := rfl
@[simp] theorem modPower_getDie (s : State) (f : Power → Power) (i0 : Nat) : getDie (modPower s f) i0 = getDie s i0 := rfl
@[simp] theorem modPower_getHost (s : State) (f : Power → Power) (i0 : Nat) : getHost (modPower s f) i0 = getHost s i0 := rfl
@[simp] theorem modPower_getEng (s : State) (f : Power → Power) (i0 : Nat) : getEng (modPower s f) i0 = getEng s i0 := rfl
@[simp] theorem modPower_getMsd (s : State) (f : Power → Power) (i0 : Nat) : getMsd (modPower s f) i0 = getMsd s i0 := rfl
@[simp] theorem modPower_getPd (s : State) (f : Power → Power) (i0 : Nat) : getPd (modPower s f) i0 = getPd s i0 := rfl
@[simp] theorem modPower_getPacket (s : State) (f : Power → Power) (i0 : Nat) : getPacket (modPower s f) i0 = getPacket s i0 := rfl
@[simp] theorem modPower_getMb (s : State) (f : Power → Power) (i0 : Nat) : getMb (modPower s f) i0 = getMb s i0 := rfl
@[simp] theorem modPower_nowNs (s : State) (f : Power → Power) : nowNs (modPower s f) = nowNs s := rfl
@[simp] theorem modPower_nowPs (s : State) (f : Power → Power) : nowPs (modPower s f) = nowPs s := rfl
@[simp] theorem modPower_fenced (s : State) (f : Power → Power) (i0 : Nat) : fenced (modPower s f) i0 = fenced s i0 := rfl
@[simp] theorem modPower_getBank (s : State) (f : Power → Power) (i0 : Nat) : getBank (modPower s f) i0 = getBank s i0 := rfl

/-! ### modBoot -/

@[simp] theorem modBoot_pending (s : State) (f : Boot → Boot) : (modBoot s f).pending = s.pending := rfl
@[simp] theorem modBoot_time (s : State) (f : Boot → Boot) : (modBoot s f).time = s.time := rfl
@[simp] theorem modBoot_wicks (s : State) (f : Boot → Boot) : (modBoot s f).wicks = s.wicks := rfl
@[simp] theorem modBoot_flows (s : State) (f : Boot → Boot) : (modBoot s f).flows = s.flows := rfl
@[simp] theorem modBoot_cus (s : State) (f : Boot → Boot) : (modBoot s f).cus = s.cus := rfl
@[simp] theorem modBoot_mus (s : State) (f : Boot → Boot) : (modBoot s f).mus = s.mus := rfl
@[simp] theorem modBoot_tiles (s : State) (f : Boot → Boot) : (modBoot s f).tiles = s.tiles := rfl
@[simp] theorem modBoot_regions (s : State) (f : Boot → Boot) : (modBoot s f).regions = s.regions := rfl
@[simp] theorem modBoot_net (s : State) (f : Boot → Boot) : (modBoot s f).net = s.net := rfl
@[simp] theorem modBoot_lamp (s : State) (f : Boot → Boot) : (modBoot s f).lamp = s.lamp := rfl
@[simp] theorem modBoot_inc (s : State) (f : Boot → Boot) : (modBoot s f).inc = s.inc := rfl
@[simp] theorem modBoot_fields (s : State) (f : Boot → Boot) : (modBoot s f).fields = s.fields := rfl
@[simp] theorem modBoot_trace (s : State) (f : Boot → Boot) : (modBoot s f).trace = s.trace := rfl
@[simp] theorem modBoot_latch (s : State) (f : Boot → Boot) : (modBoot s f).latch = s.latch := rfl
@[simp] theorem modBoot_armed (s : State) (f : Boot → Boot) : (modBoot s f).armed = s.armed := rfl
@[simp] theorem modBoot_seg (s : State) (f : Boot → Boot) : (modBoot s f).seg = s.seg := rfl
@[simp] theorem modBoot_segKept (s : State) (f : Boot → Boot) : (modBoot s f).segKept = s.segKept := rfl
@[simp] theorem modBoot_dieFence (s : State) (f : Boot → Boot) : (modBoot s f).dieFence = s.dieFence := rfl
@[simp] theorem modBoot_hosts (s : State) (f : Boot → Boot) : (modBoot s f).hosts = s.hosts := rfl
@[simp] theorem modBoot_sem (s : State) (f : Boot → Boot) : (modBoot s f).sem = s.sem := rfl
@[simp] theorem modBoot_eng (s : State) (f : Boot → Boot) : (modBoot s f).eng = s.eng := rfl
@[simp] theorem modBoot_copies (s : State) (f : Boot → Boot) : (modBoot s f).copies = s.copies := rfl
@[simp] theorem modBoot_msds (s : State) (f : Boot → Boot) : (modBoot s f).msds = s.msds := rfl
@[simp] theorem modBoot_pds (s : State) (f : Boot → Boot) : (modBoot s f).pds = s.pds := rfl
@[simp] theorem modBoot_part (s : State) (f : Boot → Boot) : (modBoot s f).part = s.part := rfl
@[simp] theorem modBoot_fw (s : State) (f : Boot → Boot) : (modBoot s f).fw = s.fw := rfl
@[simp] theorem modBoot_snuff (s : State) (f : Boot → Boot) : (modBoot s f).snuff = s.snuff := rfl
@[simp] theorem modBoot_tc (s : State) (f : Boot → Boot) : (modBoot s f).tc = s.tc := rfl
@[simp] theorem modBoot_power (s : State) (f : Boot → Boot) : (modBoot s f).power = s.power := rfl
@[simp] theorem modBoot_mantle (s : State) (f : Boot → Boot) : (modBoot s f).mantle = s.mantle := rfl
@[simp] theorem modBoot_dies (s : State) (f : Boot → Boot) : (modBoot s f).dies = s.dies := rfl
@[simp] theorem modBoot_jsel (s : State) (f : Boot → Boot) : (modBoot s f).jsel = s.jsel := rfl
@[simp] theorem modBoot_island (s : State) (f : Boot → Boot) : (modBoot s f).island = s.island := rfl
@[simp] theorem modBoot_ans (s : State) (f : Boot → Boot) : (modBoot s f).ans = s.ans := rfl
@[simp] theorem modBoot_cdErr (s : State) (f : Boot → Boot) : (modBoot s f).cdErr = s.cdErr := rfl
@[simp] theorem modBoot_getWick (s : State) (f : Boot → Boot) (i0 i1 : Nat) : getWick (modBoot s f) i0 i1 = getWick s i0 i1 := rfl
@[simp] theorem modBoot_getFlow (s : State) (f : Boot → Boot) (i0 i1 : Nat) : getFlow (modBoot s f) i0 i1 = getFlow s i0 i1 := rfl
@[simp] theorem modBoot_getCu (s : State) (f : Boot → Boot) (i0 i1 : Nat) : getCu (modBoot s f) i0 i1 = getCu s i0 i1 := rfl
@[simp] theorem modBoot_getMu (s : State) (f : Boot → Boot) (i0 i1 : Nat) : getMu (modBoot s f) i0 i1 = getMu s i0 i1 := rfl
@[simp] theorem modBoot_getTile (s : State) (f : Boot → Boot) (i0 : Nat) : getTile (modBoot s f) i0 = getTile s i0 := rfl
@[simp] theorem modBoot_getRegion (s : State) (f : Boot → Boot) (i0 : Nat) : getRegion (modBoot s f) i0 = getRegion s i0 := rfl
@[simp] theorem modBoot_getField (s : State) (f : Boot → Boot) (i0 : Nat) : getField (modBoot s f) i0 = getField s i0 := rfl
@[simp] theorem modBoot_getDie (s : State) (f : Boot → Boot) (i0 : Nat) : getDie (modBoot s f) i0 = getDie s i0 := rfl
@[simp] theorem modBoot_getHost (s : State) (f : Boot → Boot) (i0 : Nat) : getHost (modBoot s f) i0 = getHost s i0 := rfl
@[simp] theorem modBoot_getEng (s : State) (f : Boot → Boot) (i0 : Nat) : getEng (modBoot s f) i0 = getEng s i0 := rfl
@[simp] theorem modBoot_getMsd (s : State) (f : Boot → Boot) (i0 : Nat) : getMsd (modBoot s f) i0 = getMsd s i0 := rfl
@[simp] theorem modBoot_getPd (s : State) (f : Boot → Boot) (i0 : Nat) : getPd (modBoot s f) i0 = getPd s i0 := rfl
@[simp] theorem modBoot_getPacket (s : State) (f : Boot → Boot) (i0 : Nat) : getPacket (modBoot s f) i0 = getPacket s i0 := rfl
@[simp] theorem modBoot_getMb (s : State) (f : Boot → Boot) (i0 : Nat) : getMb (modBoot s f) i0 = getMb s i0 := rfl
@[simp] theorem modBoot_nowNs (s : State) (f : Boot → Boot) : nowNs (modBoot s f) = nowNs s := rfl
@[simp] theorem modBoot_nowPs (s : State) (f : Boot → Boot) : nowPs (modBoot s f) = nowPs s := rfl
@[simp] theorem modBoot_fenced (s : State) (f : Boot → Boot) (i0 : Nat) : fenced (modBoot s f) i0 = fenced s i0 := rfl
@[simp] theorem modBoot_getBank (s : State) (f : Boot → Boot) (i0 : Nat) : getBank (modBoot s f) i0 = getBank s i0 := rfl
@[simp] theorem modBoot_getBlade (s : State) (f : Boot → Boot) (i0 : Nat) : getBlade (modBoot s f) i0 = getBlade s i0 := rfl

/-! ### modFw -/

@[simp] theorem modFw_pending (s : State) (f : Fw → Fw) : (modFw s f).pending = s.pending := rfl
@[simp] theorem modFw_time (s : State) (f : Fw → Fw) : (modFw s f).time = s.time := rfl
@[simp] theorem modFw_wicks (s : State) (f : Fw → Fw) : (modFw s f).wicks = s.wicks := rfl
@[simp] theorem modFw_flows (s : State) (f : Fw → Fw) : (modFw s f).flows = s.flows := rfl
@[simp] theorem modFw_cus (s : State) (f : Fw → Fw) : (modFw s f).cus = s.cus := rfl
@[simp] theorem modFw_mus (s : State) (f : Fw → Fw) : (modFw s f).mus = s.mus := rfl
@[simp] theorem modFw_tiles (s : State) (f : Fw → Fw) : (modFw s f).tiles = s.tiles := rfl
@[simp] theorem modFw_regions (s : State) (f : Fw → Fw) : (modFw s f).regions = s.regions := rfl
@[simp] theorem modFw_net (s : State) (f : Fw → Fw) : (modFw s f).net = s.net := rfl
@[simp] theorem modFw_lamp (s : State) (f : Fw → Fw) : (modFw s f).lamp = s.lamp := rfl
@[simp] theorem modFw_inc (s : State) (f : Fw → Fw) : (modFw s f).inc = s.inc := rfl
@[simp] theorem modFw_fields (s : State) (f : Fw → Fw) : (modFw s f).fields = s.fields := rfl
@[simp] theorem modFw_trace (s : State) (f : Fw → Fw) : (modFw s f).trace = s.trace := rfl
@[simp] theorem modFw_latch (s : State) (f : Fw → Fw) : (modFw s f).latch = s.latch := rfl
@[simp] theorem modFw_armed (s : State) (f : Fw → Fw) : (modFw s f).armed = s.armed := rfl
@[simp] theorem modFw_seg (s : State) (f : Fw → Fw) : (modFw s f).seg = s.seg := rfl
@[simp] theorem modFw_segKept (s : State) (f : Fw → Fw) : (modFw s f).segKept = s.segKept := rfl
@[simp] theorem modFw_dieFence (s : State) (f : Fw → Fw) : (modFw s f).dieFence = s.dieFence := rfl
@[simp] theorem modFw_hosts (s : State) (f : Fw → Fw) : (modFw s f).hosts = s.hosts := rfl
@[simp] theorem modFw_sem (s : State) (f : Fw → Fw) : (modFw s f).sem = s.sem := rfl
@[simp] theorem modFw_eng (s : State) (f : Fw → Fw) : (modFw s f).eng = s.eng := rfl
@[simp] theorem modFw_copies (s : State) (f : Fw → Fw) : (modFw s f).copies = s.copies := rfl
@[simp] theorem modFw_msds (s : State) (f : Fw → Fw) : (modFw s f).msds = s.msds := rfl
@[simp] theorem modFw_pds (s : State) (f : Fw → Fw) : (modFw s f).pds = s.pds := rfl
@[simp] theorem modFw_part (s : State) (f : Fw → Fw) : (modFw s f).part = s.part := rfl
@[simp] theorem modFw_boot (s : State) (f : Fw → Fw) : (modFw s f).boot = s.boot := rfl
@[simp] theorem modFw_snuff (s : State) (f : Fw → Fw) : (modFw s f).snuff = s.snuff := rfl
@[simp] theorem modFw_tc (s : State) (f : Fw → Fw) : (modFw s f).tc = s.tc := rfl
@[simp] theorem modFw_power (s : State) (f : Fw → Fw) : (modFw s f).power = s.power := rfl
@[simp] theorem modFw_mantle (s : State) (f : Fw → Fw) : (modFw s f).mantle = s.mantle := rfl
@[simp] theorem modFw_dies (s : State) (f : Fw → Fw) : (modFw s f).dies = s.dies := rfl
@[simp] theorem modFw_jsel (s : State) (f : Fw → Fw) : (modFw s f).jsel = s.jsel := rfl
@[simp] theorem modFw_island (s : State) (f : Fw → Fw) : (modFw s f).island = s.island := rfl
@[simp] theorem modFw_ans (s : State) (f : Fw → Fw) : (modFw s f).ans = s.ans := rfl
@[simp] theorem modFw_cdErr (s : State) (f : Fw → Fw) : (modFw s f).cdErr = s.cdErr := rfl
@[simp] theorem modFw_getWick (s : State) (f : Fw → Fw) (i0 i1 : Nat) : getWick (modFw s f) i0 i1 = getWick s i0 i1 := rfl
@[simp] theorem modFw_getFlow (s : State) (f : Fw → Fw) (i0 i1 : Nat) : getFlow (modFw s f) i0 i1 = getFlow s i0 i1 := rfl
@[simp] theorem modFw_getCu (s : State) (f : Fw → Fw) (i0 i1 : Nat) : getCu (modFw s f) i0 i1 = getCu s i0 i1 := rfl
@[simp] theorem modFw_getMu (s : State) (f : Fw → Fw) (i0 i1 : Nat) : getMu (modFw s f) i0 i1 = getMu s i0 i1 := rfl
@[simp] theorem modFw_getTile (s : State) (f : Fw → Fw) (i0 : Nat) : getTile (modFw s f) i0 = getTile s i0 := rfl
@[simp] theorem modFw_getRegion (s : State) (f : Fw → Fw) (i0 : Nat) : getRegion (modFw s f) i0 = getRegion s i0 := rfl
@[simp] theorem modFw_getField (s : State) (f : Fw → Fw) (i0 : Nat) : getField (modFw s f) i0 = getField s i0 := rfl
@[simp] theorem modFw_getDie (s : State) (f : Fw → Fw) (i0 : Nat) : getDie (modFw s f) i0 = getDie s i0 := rfl
@[simp] theorem modFw_getHost (s : State) (f : Fw → Fw) (i0 : Nat) : getHost (modFw s f) i0 = getHost s i0 := rfl
@[simp] theorem modFw_getEng (s : State) (f : Fw → Fw) (i0 : Nat) : getEng (modFw s f) i0 = getEng s i0 := rfl
@[simp] theorem modFw_getMsd (s : State) (f : Fw → Fw) (i0 : Nat) : getMsd (modFw s f) i0 = getMsd s i0 := rfl
@[simp] theorem modFw_getPd (s : State) (f : Fw → Fw) (i0 : Nat) : getPd (modFw s f) i0 = getPd s i0 := rfl
@[simp] theorem modFw_getPacket (s : State) (f : Fw → Fw) (i0 : Nat) : getPacket (modFw s f) i0 = getPacket s i0 := rfl
@[simp] theorem modFw_getMb (s : State) (f : Fw → Fw) (i0 : Nat) : getMb (modFw s f) i0 = getMb s i0 := rfl
@[simp] theorem modFw_nowNs (s : State) (f : Fw → Fw) : nowNs (modFw s f) = nowNs s := rfl
@[simp] theorem modFw_nowPs (s : State) (f : Fw → Fw) : nowPs (modFw s f) = nowPs s := rfl
@[simp] theorem modFw_fenced (s : State) (f : Fw → Fw) (i0 : Nat) : fenced (modFw s f) i0 = fenced s i0 := rfl
@[simp] theorem modFw_getBlade (s : State) (f : Fw → Fw) (i0 : Nat) : getBlade (modFw s f) i0 = getBlade s i0 := rfl

/-! ### modIsland -/

@[simp] theorem modIsland_pending (s : State) (f : Island → Island) : (modIsland s f).pending = s.pending := rfl
@[simp] theorem modIsland_time (s : State) (f : Island → Island) : (modIsland s f).time = s.time := rfl
@[simp] theorem modIsland_wicks (s : State) (f : Island → Island) : (modIsland s f).wicks = s.wicks := rfl
@[simp] theorem modIsland_flows (s : State) (f : Island → Island) : (modIsland s f).flows = s.flows := rfl
@[simp] theorem modIsland_cus (s : State) (f : Island → Island) : (modIsland s f).cus = s.cus := rfl
@[simp] theorem modIsland_mus (s : State) (f : Island → Island) : (modIsland s f).mus = s.mus := rfl
@[simp] theorem modIsland_tiles (s : State) (f : Island → Island) : (modIsland s f).tiles = s.tiles := rfl
@[simp] theorem modIsland_regions (s : State) (f : Island → Island) : (modIsland s f).regions = s.regions := rfl
@[simp] theorem modIsland_net (s : State) (f : Island → Island) : (modIsland s f).net = s.net := rfl
@[simp] theorem modIsland_lamp (s : State) (f : Island → Island) : (modIsland s f).lamp = s.lamp := rfl
@[simp] theorem modIsland_inc (s : State) (f : Island → Island) : (modIsland s f).inc = s.inc := rfl
@[simp] theorem modIsland_fields (s : State) (f : Island → Island) : (modIsland s f).fields = s.fields := rfl
@[simp] theorem modIsland_trace (s : State) (f : Island → Island) : (modIsland s f).trace = s.trace := rfl
@[simp] theorem modIsland_latch (s : State) (f : Island → Island) : (modIsland s f).latch = s.latch := rfl
@[simp] theorem modIsland_armed (s : State) (f : Island → Island) : (modIsland s f).armed = s.armed := rfl
@[simp] theorem modIsland_seg (s : State) (f : Island → Island) : (modIsland s f).seg = s.seg := rfl
@[simp] theorem modIsland_segKept (s : State) (f : Island → Island) : (modIsland s f).segKept = s.segKept := rfl
@[simp] theorem modIsland_dieFence (s : State) (f : Island → Island) : (modIsland s f).dieFence = s.dieFence := rfl
@[simp] theorem modIsland_hosts (s : State) (f : Island → Island) : (modIsland s f).hosts = s.hosts := rfl
@[simp] theorem modIsland_sem (s : State) (f : Island → Island) : (modIsland s f).sem = s.sem := rfl
@[simp] theorem modIsland_eng (s : State) (f : Island → Island) : (modIsland s f).eng = s.eng := rfl
@[simp] theorem modIsland_copies (s : State) (f : Island → Island) : (modIsland s f).copies = s.copies := rfl
@[simp] theorem modIsland_msds (s : State) (f : Island → Island) : (modIsland s f).msds = s.msds := rfl
@[simp] theorem modIsland_pds (s : State) (f : Island → Island) : (modIsland s f).pds = s.pds := rfl
@[simp] theorem modIsland_part (s : State) (f : Island → Island) : (modIsland s f).part = s.part := rfl
@[simp] theorem modIsland_boot (s : State) (f : Island → Island) : (modIsland s f).boot = s.boot := rfl
@[simp] theorem modIsland_fw (s : State) (f : Island → Island) : (modIsland s f).fw = s.fw := rfl
@[simp] theorem modIsland_snuff (s : State) (f : Island → Island) : (modIsland s f).snuff = s.snuff := rfl
@[simp] theorem modIsland_tc (s : State) (f : Island → Island) : (modIsland s f).tc = s.tc := rfl
@[simp] theorem modIsland_power (s : State) (f : Island → Island) : (modIsland s f).power = s.power := rfl
@[simp] theorem modIsland_mantle (s : State) (f : Island → Island) : (modIsland s f).mantle = s.mantle := rfl
@[simp] theorem modIsland_dies (s : State) (f : Island → Island) : (modIsland s f).dies = s.dies := rfl
@[simp] theorem modIsland_jsel (s : State) (f : Island → Island) : (modIsland s f).jsel = s.jsel := rfl
@[simp] theorem modIsland_ans (s : State) (f : Island → Island) : (modIsland s f).ans = s.ans := rfl
@[simp] theorem modIsland_cdErr (s : State) (f : Island → Island) : (modIsland s f).cdErr = s.cdErr := rfl
@[simp] theorem modIsland_getWick (s : State) (f : Island → Island) (i0 i1 : Nat) : getWick (modIsland s f) i0 i1 = getWick s i0 i1 := rfl
@[simp] theorem modIsland_getFlow (s : State) (f : Island → Island) (i0 i1 : Nat) : getFlow (modIsland s f) i0 i1 = getFlow s i0 i1 := rfl
@[simp] theorem modIsland_getCu (s : State) (f : Island → Island) (i0 i1 : Nat) : getCu (modIsland s f) i0 i1 = getCu s i0 i1 := rfl
@[simp] theorem modIsland_getMu (s : State) (f : Island → Island) (i0 i1 : Nat) : getMu (modIsland s f) i0 i1 = getMu s i0 i1 := rfl
@[simp] theorem modIsland_getTile (s : State) (f : Island → Island) (i0 : Nat) : getTile (modIsland s f) i0 = getTile s i0 := rfl
@[simp] theorem modIsland_getRegion (s : State) (f : Island → Island) (i0 : Nat) : getRegion (modIsland s f) i0 = getRegion s i0 := rfl
@[simp] theorem modIsland_getField (s : State) (f : Island → Island) (i0 : Nat) : getField (modIsland s f) i0 = getField s i0 := rfl
@[simp] theorem modIsland_getDie (s : State) (f : Island → Island) (i0 : Nat) : getDie (modIsland s f) i0 = getDie s i0 := rfl
@[simp] theorem modIsland_getHost (s : State) (f : Island → Island) (i0 : Nat) : getHost (modIsland s f) i0 = getHost s i0 := rfl
@[simp] theorem modIsland_getEng (s : State) (f : Island → Island) (i0 : Nat) : getEng (modIsland s f) i0 = getEng s i0 := rfl
@[simp] theorem modIsland_getMsd (s : State) (f : Island → Island) (i0 : Nat) : getMsd (modIsland s f) i0 = getMsd s i0 := rfl
@[simp] theorem modIsland_getPd (s : State) (f : Island → Island) (i0 : Nat) : getPd (modIsland s f) i0 = getPd s i0 := rfl
@[simp] theorem modIsland_getPacket (s : State) (f : Island → Island) (i0 : Nat) : getPacket (modIsland s f) i0 = getPacket s i0 := rfl
@[simp] theorem modIsland_getMb (s : State) (f : Island → Island) (i0 : Nat) : getMb (modIsland s f) i0 = getMb s i0 := rfl
@[simp] theorem modIsland_nowNs (s : State) (f : Island → Island) : nowNs (modIsland s f) = nowNs s := rfl
@[simp] theorem modIsland_nowPs (s : State) (f : Island → Island) : nowPs (modIsland s f) = nowPs s := rfl
@[simp] theorem modIsland_fenced (s : State) (f : Island → Island) (i0 : Nat) : fenced (modIsland s f) i0 = fenced s i0 := rfl
@[simp] theorem modIsland_getBank (s : State) (f : Island → Island) (i0 : Nat) : getBank (modIsland s f) i0 = getBank s i0 := rfl
@[simp] theorem modIsland_getBlade (s : State) (f : Island → Island) (i0 : Nat) : getBlade (modIsland s f) i0 = getBlade s i0 := rfl

end Sys2Proof.Machine
end

