-- ==== Sys2Proof/Laws/Word.lean ====
section
/-!
SUPPORT. Laws of bit fields, saturating counters and little-endian bytes.
-/
namespace Sys2Proof

theorem bit_eq_testBit (w i : Nat) : bit w i = w.testBit i := by
  simp [bit, Nat.testBit, Nat.and_comm 1, Nat.and_one_is_mod, bne, beq_eq_decide]

@[simp] theorem bit_zero (i : Nat) : bit 0 i = false := by simp [bit_eq_testBit]

theorem bits_lt (w lo len : Nat) : bits w lo len < 2 ^ len := Nat.mod_lt _ (Nat.two_pow_pos len)

theorem bits_testBit (w lo len i : Nat) : (bits w lo len).testBit i = (decide (i < len) && w.testBit (lo + i)) := by
  simp [bits, Nat.testBit_mod_two_pow, Nat.testBit_shiftRight]

theorem bits_one (w i : Nat) : bits w i 1 = ofBit (bit w i) := by
  unfold bits bit ofBit
  rcases Nat.mod_two_eq_zero_or_one (w >>> i) with h | h <;> simp [h]

/-- A word is what lies above a field, the field, and what lies below it. -/
theorem split_bits (w lo len : Nat) : w = w >>> (lo + len) * 2 ^ (lo + len) + bits w lo len * 2 ^ lo + w % 2 ^ lo := by
  have h1 := Nat.div_add_mod w (2 ^ lo)
  have h2 := Nat.div_add_mod (w / 2 ^ lo) (2 ^ len)
  rw [Nat.shiftRight_eq_div_pow, bits, Nat.shiftRight_eq_div_pow, pow_add, ← Nat.div_div_eq_div_mul]
  calc w = 2 ^ lo * (w / 2 ^ lo) + w % 2 ^ lo := h1.symm
    _ = 2 ^ lo * (2 ^ len * (w / 2 ^ lo / 2 ^ len) + w / 2 ^ lo % 2 ^ len) + w % 2 ^ lo := by rw [h2]
    _ = _ := by ring

/-- `setBits` puts the low bits of `v` into the field and keeps the rest. -/
theorem setBits_eq (w lo len v : Nat) :
    setBits w lo len v = w >>> (lo + len) * 2 ^ (lo + len) + (v % 2 ^ len) * 2 ^ lo + w % 2 ^ lo := by
  have h := split_bits w lo len
  unfold setBits
  omega

theorem setBits_testBit (w lo len v i : Nat) :
    (setBits w lo len v).testBit i =
      if i < lo then w.testBit i else if i < lo + len then v.testBit (i - lo) else w.testBit i := by
  rw [setBits_eq]
  have hlt : w % 2 ^ lo < 2 ^ lo := Nat.mod_lt _ (Nat.two_pow_pos lo)
  have hv : v % 2 ^ len < 2 ^ len := Nat.mod_lt _ (Nat.two_pow_pos len)
  have e : w >>> (lo + len) * 2 ^ (lo + len) + v % 2 ^ len * 2 ^ lo + w % 2 ^ lo =
      2 ^ lo * (2 ^ len * (w >>> (lo + len)) + v % 2 ^ len) + w % 2 ^ lo := by rw [pow_add]; ring
  rw [e, Nat.testBit_two_pow_mul_add _ hlt]
  by_cases h : i < lo
  · simp [h, Nat.testBit_mod_two_pow]
  · simp only [h, if_false]
    rw [Nat.testBit_two_pow_mul_add _ hv]
    by_cases h2 : i < lo + len
    · have : i - lo < len := by omega
      simp [h2, this, Nat.testBit_mod_two_pow]
    · have h3 : ¬ i - lo < len := by omega
      simp only [h2, h3, if_false]
      rw [Nat.testBit_shiftRight]
      congr 1
      omega

theorem bit_setBits (w lo len v i : Nat) :
    bit (setBits w lo len v) i = if i < lo then bit w i else if i < lo + len then bit v (i - lo) else bit w i := by
  simp only [bit_eq_testBit, setBits_testBit]

/-- A field that was set reads as the low bits of what was put there. -/
theorem bits_setBits_same (w lo len v : Nat) : bits (setBits w lo len v) lo len = v % 2 ^ len := by
  apply Nat.eq_of_testBit_eq
  intro i
  rw [bits_testBit, setBits_testBit, Nat.testBit_mod_two_pow]
  by_cases h : i < len
  · simp [h]
  · simp [h]

/-- A field that lies apart from the one set reads as before. -/
theorem bits_setBits_apart (w lo len v l2 n2 : Nat) (h : l2 + n2 ≤ lo ∨ lo + len ≤ l2) :
    bits (setBits w lo len v) l2 n2 = bits w l2 n2 := by
  apply Nat.eq_of_testBit_eq
  intro i
  rw [bits_testBit, bits_testBit, setBits_testBit]
  by_cases hi : i < n2
  · rcases h with h | h
    · have : l2 + i < lo := by omega
      simp [hi, this]
    · have h1 : ¬ l2 + i < lo := by omega
      have h2 : ¬ l2 + i < lo + len := by omega
      simp [hi, h1, h2]
  · simp [hi]

/-- `setBits` within `n` bits stays within them. -/
theorem setBits_lt (w lo len v n : Nat) (hw : w < 2 ^ n) (h : lo + len ≤ n) : setBits w lo len v < 2 ^ n := by
  apply Nat.lt_pow_two_of_testBit
  intro i hi
  rw [setBits_testBit]
  have h1 : ¬ i < lo := by omega
  have h2 : ¬ i < lo + len := by omega
  simp only [h1, h2, if_false]
  exact Nat.testBit_lt_two_pow (lt_of_lt_of_le hw (Nat.pow_le_pow_right (by decide) hi))

theorem satAdd_le (n a b : Nat) : satAdd n a b ≤ 2 ^ n - 1 := Nat.min_le_right _ _

theorem le_satAdd (n a b : Nat) (h : a ≤ 2 ^ n - 1) : a ≤ satAdd n a b := by
  unfold satAdd
  omega

@[simp] theorem leBytes_length (n w : Nat) : (leBytes n w).length = n := by
  induction n generalizing w with
  | zero => rfl
  | succ n ih => simp [leBytes, ih]

theorem leNat_lt (bs : List Byte) : leNat bs < 256 ^ bs.length := by
  induction bs with
  | nil => simp [leNat]
  | cons b bs ih =>
    have := b.isLt
    simp only [leNat, List.length_cons, pow_succ]
    omega

/-- Bytes spell the number they were made from (R14). -/
theorem leNat_leBytes (n w : Nat) : leNat (leBytes n w) = w % 256 ^ n := by
  induction n generalizing w with
  | zero => simp [leBytes, leNat, Nat.mod_one]
  | succ n ih =>
    have h : 256 ^ (n + 1) = 256 * 256 ^ n := by rw [pow_succ, Nat.mul_comm]
    rw [leBytes, leNat, ih, BitVec.toNat_ofNat, h, Nat.mod_mul]

end Sys2Proof
end

