-- ==== Sys2Proof/Laws/Ops.lean ====
section
/-!
SUPPORT. What the shared operations can do, said once: reads after writes of every unit, time, packets, incidents, interrupt causes, host
memory, changes of every entry of a map, and lists in order.
-/
namespace Sys2Proof.Machine
set_option Elab.async false
open Sys2Proof

/-! ### Changing every entry of a map -/

theorem mmap_cons {α : Type} [DecidableEq α] (d : α) (p : Nat → Bool) (f : α → α) (j : Nat) (v : α) (m : SMap α) :
    mmap d ((j, v) :: m) p f = if (if p j then f v else v) = d then mmap d m p f else (j, if p j then f v else v) :: mmap d m p f := by
  unfold mmap
  by_cases hp : p j = true
  · by_cases hd : f v = d <;> simp [hp, hd]
  · by_cases hd : v = d <;> simp [hp, hd]

theorem mrise_mmap {α : Type} [DecidableEq α] (d : α) (p : Nat → Bool) (f : α → α) (lo : Nat) (m : SMap α) (h : mrise lo m = true) :
    mrise lo (mmap d m p f) = true := by
  induction m generalizing lo with
  | nil => rfl
  | cons e m ih =>
    obtain ⟨j, v⟩ := e
    simp only [mrise, Bool.and_eq_true, decide_eq_true_eq] at h
    have := ih (j + 1) h.2
    rw [mmap_cons]
    by_cases hv : (if p j then f v else v) = d
    · rw [if_pos hv]
      exact mrise_weaken (j + 1) lo _ (by omega) this
    · rw [if_neg hv]
      simp only [mrise, Bool.and_eq_true, decide_eq_true_eq]
      exact ⟨h.1, this⟩

/-- A change of every entry keeps the canonical form. -/
theorem mwf_mmap {α : Type} [DecidableEq α] (d : α) (p : Nat → Bool) (f : α → α) (m : SMap α) (h : mwf d m = true) :
    mwf d (mmap d m p f) = true := by
  simp only [mwf, Bool.and_eq_true] at h ⊢
  refine ⟨mrise_mmap d p f 0 m h.1, ?_⟩
  unfold mnodef mmap
  rw [List.all_filter]
  simp

theorem mget_mmap_rise {α : Type} [DecidableEq α] (d : α) (p : Nat → Bool) (f : α → α) (lo : Nat) (m : SMap α) (k : Nat)
    (h : mrise lo m = true) (hd : f d = d) : mget d (mmap d m p f) k = if p k then f (mget d m k) else mget d m k := by
  induction m generalizing lo with
  | nil => simp [mmap, mget, hd]
  | cons e m ih =>
    obtain ⟨j, v⟩ := e
    simp only [mrise, Bool.and_eq_true, decide_eq_true_eq] at h
    have ih' := ih (j + 1) h.2
    have rest : mget d m j = d := mget_of_mrise d (j + 1) m j h.2 (by omega)
    rw [mmap_cons]
    by_cases hk : j = k
    · subst hk
      rw [rest, hd] at ih'
      have hz : mget d (mmap d m p f) j = d := by rw [ih']; simp
      by_cases hv : (if p j then f v else v) = d
      · rw [if_pos hv, hz]
        simp [mget, hv]
      · rw [if_neg hv]
        simp [mget]
    · by_cases hv : (if p j then f v else v) = d
      · rw [if_pos hv, ih']
        simp [mget, hk]
      · rw [if_neg hv]
        simp [mget, hk, ih']

/-- A read after a change of every entry, in a map in canonical form. -/
theorem mget_mmap {α : Type} [DecidableEq α] (d : α) (p : Nat → Bool) (f : α → α) (m : SMap α) (k : Nat) (h : mwf d m = true) (hd : f d = d) :
    mget d (mmap d m p f) k = if p k then f (mget d m k) else mget d m k := by
  simp only [mwf, Bool.and_eq_true] at h
  exact mget_mmap_rise d p f 0 m k h.1 hd

/-! ### Units: a read after a write -/

@[simp] theorem getTile_setTile_same (s : State) (t : Nat) (x : Tile) : getTile (setTile s t x) t = x := mget_mset_same _ _ _ _
theorem getTile_setTile_other (s : State) (t i : Nat) (x : Tile) (h : i ≠ t) : getTile (setTile s t x) i = getTile s i := mget_mset_other _ _ _ _ _ h
@[simp] theorem getRegion_setRegion_same (s : State) (r : Nat) (x : Region) : getRegion (setRegion s r x) r = x := mget_mset_same _ _ _ _
theorem getRegion_setRegion_other (s : State) (r i : Nat) (x : Region) (h : i ≠ r) : getRegion (setRegion s r x) i = getRegion s i :=
  mget_mset_other _ _ _ _ _ h
@[simp] theorem getField_setField_same (s : State) (f : Nat) (x : FieldSt) : getField (setField s f x) f = x := mget_mset_same _ _ _ _
theorem getField_setField_other (s : State) (f i : Nat) (x : FieldSt) (h : i ≠ f) : getField (setField s f x) i = getField s i :=
  mget_mset_other _ _ _ _ _ h
@[simp] theorem getDie_setDie_same (s : State) (d : Nat) (x : Die) : getDie (setDie s d x) d = x := mget_mset_same _ _ _ _
theorem getDie_setDie_other (s : State) (d i : Nat) (x : Die) (h : i ≠ d) : getDie (setDie s d x) i = getDie s i := mget_mset_other _ _ _ _ _ h
@[simp] theorem getHost_setHost_same (s : State) (p : Nat) (x : HostPort) : getHost (setHost s p x) p = x := mget_mset_same _ _ _ _
theorem getHost_setHost_other (s : State) (p i : Nat) (x : HostPort) (h : i ≠ p) : getHost (setHost s p x) i = getHost s i :=
  mget_mset_other _ _ _ _ _ h
@[simp] theorem getEng_setEng_same (s : State) (e : Nat) (x : Eng) : getEng (setEng s e x) e = x := mget_mset_same _ _ _ _
theorem getEng_setEng_other (s : State) (e i : Nat) (x : Eng) (h : i ≠ e) : getEng (setEng s e x) i = getEng s i := mget_mset_other _ _ _ _ _ h
@[simp] theorem getMsd_setMsd_same (s : State) (m : Nat) (x : Msd) : getMsd (setMsd s m x) m = x := mget_mset_same _ _ _ _
theorem getMsd_setMsd_other (s : State) (m i : Nat) (x : Msd) (h : i ≠ m) : getMsd (setMsd s m x) i = getMsd s i := mget_mset_other _ _ _ _ _ h
@[simp] theorem getPd_setPd_same (s : State) (d : Nat) (x : Pd) : getPd (setPd s d x) d = x := mget_mset_same _ _ _ _
theorem getPd_setPd_other (s : State) (d i : Nat) (x : Pd) (h : i ≠ d) : getPd (setPd s d x) i = getPd s i := mget_mset_other _ _ _ _ _ h
@[simp] theorem getMb_setMb_same (s : State) (p : Nat) (x : MbPort) : getMb (setMb s p x) p = x := mget_mset_same _ _ _ _
theorem getMb_setMb_other (s : State) (p i : Nat) (x : MbPort) (h : i ≠ p) : getMb (setMb s p x) i = getMb s i := mget_mset_other _ _ _ _ _ h
@[simp] theorem getWick_setWick_same (s : State) (t c : Nat) (w : Wick) : getWick (setWick s t c w) t c = w := mget_mset_same _ _ _ _
@[simp] theorem getCu_setCu_same (s : State) (t k : Nat) (c : Cu) : getCu (setCu s t k c) t k = c := mget_mset_same _ _ _ _
@[simp] theorem getMu_setMu_same (s : State) (t k : Nat) (m : Mu) : getMu (setMu s t k m) t k = m := mget_mset_same _ _ _ _
@[simp] theorem getFlow_setFlow_same (s : State) (t u : Nat) (f : Flow) : getFlow (setFlow s t u f) t u = f := mget_mset_same _ _ _ _

theorem wkey_inj (t c t' c' : Nat) (h : c < 48) (h' : c' < 48) (e : wkey t c = wkey t' c') : t = t' ∧ c = c' := by
  unfold wkey at e
  omega

theorem getWick_setWick_other (s : State) (t c t' c' : Nat) (w : Wick) (h : c < 48) (h' : c' < 48) (hne : ¬(t' = t ∧ c' = c)) :
    getWick (setWick s t c w) t' c' = getWick s t' c' := by
  apply mget_mset_other
  intro e
  exact hne (by have := wkey_inj t' c' t c h' h e; exact this)

theorem getCu_setCu_other (s : State) (t k t' k' : Nat) (c : Cu) (h : k < 2) (h' : k' < 2) (hne : ¬(t' = t ∧ k' = k)) :
    getCu (setCu s t k c) t' k' = getCu s t' k' := by
  apply mget_mset_other
  omega

theorem getMu_setMu_other (s : State) (t k t' k' : Nat) (m : Mu) (h : k < 4) (h' : k' < 4) (hne : ¬(t' = t ∧ k' = k)) :
    getMu (setMu s t k m) t' k' = getMu s t' k' := by
  apply mget_mset_other
  omega

theorem getFlow_setFlow_other (s : State) (t u t' u' : Nat) (f : Flow) (h : 48 ≤ u ∧ u < 54) (h' : 48 ≤ u' ∧ u' < 54)
    (hne : ¬(t' = t ∧ u' = u)) : getFlow (setFlow s t u f) t' u' = getFlow s t' u' := by
  apply mget_mset_other
  unfold ukey
  omega

/-- A write to one core is what `onlyCore` says. -/
theorem onlyCore_setWick (s : State) (t c : Nat) (w : Wick) (h : c < 48) : onlyCore s (setWick s t c w) t c w :=
  ⟨getWick_setWick_same s t c w, fun t' c' h' hne => (getWick_setWick_other s t c t' c' w h h' hne).symm ▸ rfl, rfl⟩

theorem onlyCu_setCu (s : State) (t k : Nat) (c : Cu) (h : k < 2) : onlyCu s (setCu s t k c) t k c :=
  ⟨getCu_setCu_same s t k c, fun t' k' h' hne => getCu_setCu_other s t k t' k' c h h' hne, rfl⟩

theorem onlyMu_setMu (s : State) (t k : Nat) (m : Mu) (h : k < 4) : onlyMu s (setMu s t k m) t k m :=
  ⟨getMu_setMu_same s t k m, fun t' k' h' hne => getMu_setMu_other s t k t' k' m h h' hne, rfl⟩

theorem onlyFlow_setFlow (s : State) (t u : Nat) (f : Flow) (h : 48 ≤ u ∧ u < 54) : onlyFlow s (setFlow s t u f) t u f :=
  ⟨getFlow_setFlow_same s t u f, fun t' n' h1 h2 hne => getFlow_setFlow_other s t u t' n' f h ⟨h1, h2⟩ hne, rfl⟩

/-! ### Time -/

theorem le_nowPs_reachPs (s : State) (ps : Nat) : ps ≤ nowPs (reachPs s ps) := by
  unfold reachPs advance nowPs
  simp only
  omega

theorem nowPs_le_reachPs (s : State) (ps : Nat) : nowPs s ≤ nowPs (reachPs s ps) := by
  unfold reachPs advance nowPs
  simp only
  omega

/-- Module time comes at least to `ns`, if it passes at all. -/
theorem le_nowNs_reachNs (s : State) (ns : Nat) (h : 0 < perTick s) : ns ≤ nowNs (reachNs s ns) := by
  have hp : max 1 (perTick s) = perTick s := by omega
  unfold reachNs advance nowNs
  simp only [hp]
  rw [Nat.le_div_iff_mul_le (by decide)]
  generalize s.time.modTime = m
  generalize perTick s = p at *
  have hd := Nat.div_add_mod (ns * 5 * 2 ^ 32 + p - 1 - m) p
  have hm := Nat.mod_lt (ns * 5 * 2 ^ 32 + p - 1 - m) h
  have e : (ns * 5 * 2 ^ 32 + p - 1 - m) / p * p = p * ((ns * 5 * 2 ^ 32 + p - 1 - m) / p) := Nat.mul_comm _ _
  omega

/-! ### Packets -/

theorem getPacket_delPacket_same (s : State) (pid : Nat) : getPacket (delPacket s pid) pid = none := by
  simp [getPacket, delPacket, mget_mdel_same]

theorem getPacket_delPacket_other (s : State) (pid k : Nat) (h : k ≠ pid) : getPacket (delPacket s pid) k = getPacket s k := by
  simp [getPacket, delPacket, mget_mdel_other _ _ _ _ h]

theorem getPacket_putPacket_other (s : State) (p : Packet) (k : Nat) (h : k ≠ s.net.next) : getPacket (putPacket s p) k = getPacket s k := by
  simp [getPacket, putPacket, mget_mset_other _ _ _ _ _ h]

theorem getPacket_putPacket_same (s : State) (p : Packet) (h : bare p ≠ Packet.none) :
    (getPacket (putPacket s p) s.net.next).map bare = some (bare p) := by
  have hb : ∀ (i a c : Nat), bare { p with id := i, arr := a, cyc := c } = bare p := fun _ _ _ => rfl
  have hn : ∀ (i a c : Nat), ({ p with id := i, arr := a, cyc := c } : Packet) ≠ Packet.none := by
    intro i a c e
    apply h
    rw [← hb i a c, e]
    rfl
  simp only [getPacket, putPacket, mget_mset_same, hn, if_false, Option.map_some, hb]

/-- A packet put under way is the next one, and no other has changed. -/
theorem sent_putPacket (s : State) (p : Packet) (hb : bare p = p) (h : p ≠ Packet.none) : sent s (putPacket s p) p :=
  ⟨by rw [getPacket_putPacket_same s p (by rw [hb]; exact h), hb], fun k hk => getPacket_putPacket_other s p k (by omega)⟩

theorem sent_inject (s : State) (t src dst fold epoch : Nat) (b : Body)
    (h : injected t src dst fold epoch (bodyCtl b) b ≠ Packet.none) :
    sent s (inject s t src dst fold epoch b) (injected t src dst fold epoch (bodyCtl b) b) := sent_putPacket s _ rfl h

/-! ### Incidents (R501) -/

theorem pushInc_full (s : State) (i : Inc) (h : ¬ (mget [] s.inc.sources (incSource i)).length < 8) :
    pushInc s i = { s with inc := { s.inc with losses := mset 0 s.inc.losses (incSource i) (satAdd 16 (mget 0 s.inc.losses (incSource i)) 1) } } := by
  unfold pushInc
  simp only [h, if_false]

theorem pushInc_room (s : State) (i : Inc) (h : (mget [] s.inc.sources (incSource i)).length < 8) :
    pushInc s i = { s with inc := { s.inc with sources := mset [] s.inc.sources (incSource i) (mget [] s.inc.sources (incSource i) ++ [i]) } } := by
  unfold pushInc
  simp only [h, if_true]

/-- Holding a trace record changes the trace and nothing else (R536). -/
theorem traceHold_frame (s : State) (t utyp uidx ev det : Nat) : { traceHold s t utyp uidx ev det with trace := s.trace } = s := by
  unfold traceHold
  simp only
  split
  · rfl
  · split <;> rfl

/-- What a state with another trace shares with the state. -/
theorem of_trace_frame {s u : State} (h : { u with trace := s.trace } = s) : u.inc = s.inc ∧ u.time = s.time := by
  have hi := congrArg State.inc h
  have ht := congrArg State.time h
  exact ⟨hi, ht⟩

/-- The state in which an incident is pushed: an incident of a tile is first held for the trace (Table 17.7). -/
def traceInc (s : State) (i : Inc) : State :=
  if i.die == 0 && decide (i.tile < nTiles) then traceHold s i.tile i.utyp i.uidx 8 i.cls else s

theorem traceInc_frame (s : State) (i : Inc) : { traceInc s i with trace := s.trace } = s := by
  unfold traceInc
  split
  · exact traceHold_frame s _ _ _ _ _
  · rfl

/-- An incident as it is stamped. -/
def stamped (s : State) (i : Inc) : Inc := { i with itime := nowNs s, ilast := nowNs s, temp := (incSense s i).1, volt := (incSense s i).2 }

theorem raiseInc_eq (s : State) (i : Inc) : raiseInc s i = pushInc (traceInc s i) (stamped s i) := by
  have ht : nowNs (traceInc s i) = nowNs s := by
    unfold nowNs
    rw [(of_trace_frame (traceInc_frame s i)).2]
  unfold raiseInc stamped
  simp only
  rw [← ht]
  rfl

/-- `raiseInc` puts one record in its source's store, or drops and counts it. -/
theorem raised_raiseInc (s : State) (i : Inc) : raised s (raiseInc s i) (incSource i) i.cls i.uidx i.detail := by
  rw [raiseInc_eq]
  have hi := (of_trace_frame (traceInc_frame s i)).1
  have hs : incSource (stamped s i) = incSource i := rfl
  unfold raised
  split
  · rename_i h
    rw [pushInc_room _ _ (by rw [hs, hi]; exact h)]
    refine ⟨stamped s i, rfl, rfl, rfl, rfl, ?_⟩
    simp only [hs, hi, mget_mset_same]
  · rename_i h
    rw [pushInc_full _ _ (by rw [hs, hi]; exact h)]
    exact ⟨by rw [hi], by simp only [hs, hi, mget_mset_same]⟩

theorem pushInc_other (s : State) (i : Inc) (k : Nat) (h : k ≠ incSource i) :
    mget [] (pushInc s i).inc.sources k = mget [] s.inc.sources k ∧ mget 0 (pushInc s i).inc.losses k = mget 0 s.inc.losses k := by
  unfold pushInc
  simp only
  split
  · exact ⟨mget_mset_other _ _ _ _ _ h, rfl⟩
  · exact ⟨rfl, mget_mset_other _ _ _ _ _ h⟩

/-- A record that is pushed changes the incident path and nothing else. -/
theorem pushInc_frame (s : State) (i : Inc) : { pushInc s i with inc := s.inc } = s := by
  unfold pushInc
  simp only
  split <;> rfl

/-- An incident changes the incident path and what the trace holds, and nothing else. -/
theorem raiseInc_frame (s : State) (i : Inc) : { raiseInc s i with inc := s.inc, trace := s.trace } = s := by
  have h := pushInc_frame (traceInc s i) (stamped s i)
  have hi := (of_trace_frame (traceInc_frame s i)).1
  have ht := traceInc_frame s i
  rw [raiseInc_eq]
  rw [hi] at h
  calc { pushInc (traceInc s i) (stamped s i) with inc := s.inc, trace := s.trace }
      = { { pushInc (traceInc s i) (stamped s i) with inc := s.inc } with trace := s.trace } := rfl
    _ = { traceInc s i with trace := s.trace } := by rw [h]
    _ = s := ht

/-! ### Interrupt causes and host memory -/

theorem bit_add_two_pow (c b : Nat) (h : bit c b = false) : bit (c + 2 ^ b) b = true := by
  rw [bit_eq_testBit] at h ⊢
  rw [Nat.add_comm, Nat.testBit_two_pow_add_eq, h]
  rfl

/-- A cause bit that was set is set. -/
theorem setCause_cause (s : State) (p b : Nat) : bit (getHost (setCause s p b) p).cause b = true := by
  unfold setCause
  simp only
  split
  · assumption
  · rename_i h
    have hb := bit_add_two_pow (getHost s p).cause b (by simpa using h)
    split
    · simpa using hb
    · unfold sendVec
      simp only [modHost_eq, getHost_setHost_same]
      split <;> simpa using hb

theorem setCause_frame (s : State) (p b : Nat) : { setCause s p b with hosts := s.hosts } = s := by
  unfold setCause
  simp only
  split
  · rfl
  · split
    · rfl
    · unfold sendVec
      simp only [modHost_eq]
      split <;> rfl

theorem setCause_other (s : State) (p b q : Nat) (h : q ≠ p) : getHost (setCause s p b) q = getHost s q := by
  unfold setCause
  simp only
  split
  · rfl
  · split
    · exact getHost_setHost_other _ _ _ _ h
    · unfold sendVec
      rw [modHost_eq, getHost_setHost_other _ _ _ _ h, getHost_setHost_other _ _ _ _ h]

theorem mem_hostWrite_aux (m : SMap Byte) (a n : Nat) (bs : List Byte) (k : Nat) :
    mget 0 ((bs.zipIdx n).foldl (fun m e => mput m (a + e.2) e.1) m) k =
      if a + n ≤ k ∧ k < a + n + bs.length then lget 0 bs (k - (a + n)) else mget 0 m k := by
  induction bs generalizing m n with
  | nil =>
    simp
  | cons b bs ih =>
    rw [List.zipIdx_cons, List.foldl_cons, ih, mget_mput]
    simp only [List.length_cons]
    by_cases h : k = a + n
    · subst h
      simp [lget]
    · by_cases h2 : a + (n + 1) ≤ k ∧ k < a + (n + 1) + bs.length
      · have h3 : a + n ≤ k ∧ k < a + n + (bs.length + 1) := by omega
        rw [if_pos h2, if_pos h3]
        obtain ⟨j, hj⟩ : ∃ j, k - (a + n) = j + 1 := ⟨k - (a + n) - 1, by omega⟩
        rw [hj]
        have : k - (a + (n + 1)) = j := by omega
        rw [this]
        rfl
      · have h3 : ¬(a + n ≤ k ∧ k < a + n + (bs.length + 1)) := by omega
        rw [if_neg h2, if_neg h3, if_neg h]

/-- Bytes written to a host's memory stand there in order, and no other byte has changed. -/
theorem mem_hostWrite (s : State) (p a : Nat) (bs : List Byte) (k : Nat) :
    mget 0 (getHost (hostWrite s p a bs) p).mem k = if a ≤ k ∧ k < a + bs.length then lget 0 bs (k - a) else mget 0 (getHost s p).mem k := by
  unfold hostWrite
  simp only [modHost_eq, getHost_setHost_same]
  simpa using mem_hostWrite_aux (getHost s p).mem a 0 bs k

/-! ### Mailbox commands -/

theorem mailNext_mem (s : State) (opc : Nat) (c : MbCmd) (h : mailNext s opc = some c) :
    c ∈ s.mantle.cmds ∧ c.opc = opc ∧ mbMayStart s c = true := by
  have hm := List.mem_of_find?_eq_some h
  have hp := List.find?_some h
  simp only [Bool.and_eq_true, beq_iff_eq] at hp
  exact ⟨hm, hp.1, hp.2⟩

@[simp] theorem mailRun_some (s : State) (opc : Nat) (k : MbCmd → State) (c : MbCmd) (h : mailNext s opc = some c) : mailRun s opc k = k c := by
  unfold mailRun
  rw [h]

/-- A command that ends replies once, or is gone when its port was reset. -/
theorem replied_mailEnd (s : State) (c : MbCmd) (o : Outc) (stat : Nat) (data : List Byte) : replied s (mailEnd s c o stat data) c o stat data := by
  unfold replied mailEnd
  constructor
  · intro h
    simp only [h]
    refine ⟨rfl, ?_⟩
    intro x hx hid
    simp only [modMail, Bool.false_eq_true, if_false, List.mem_map] at hx
    obtain ⟨y, hy, rfl⟩ := hx
    by_cases hyc : y.id = c.id
    · simp [hyc]
    · simp [hyc] at hid
  · intro h
    simp only [h, if_true]
    refine ⟨rfl, ?_⟩
    intro x hx
    simp only [delMail, List.mem_filter] at hx
    simpa using hx.2

/-- A command that ends changes Mantle's part and nothing else. -/
theorem mailEnd_frame (s : State) (c : MbCmd) (o : Outc) (stat : Nat) (data : List Byte) : { mailEnd s c o stat data with mantle := s.mantle } = s := by
  unfold mailEnd
  split <;> rfl

/-! ### Lists in order -/

theorem mem_insertBy {α : Type} (key : α → Nat) (x y : α) (l : List α) : y ∈ insertBy key x l ↔ y = x ∨ y ∈ l := by
  induction l with
  | nil => simp [insertBy]
  | cons z l ih =>
    unfold insertBy
    split
    · simp
    · simp [ih, or_left_comm]

/-- Sorting keeps the members. -/
@[simp] theorem mem_sortBy {α : Type} (key : α → Nat) (y : α) (l : List α) : y ∈ sortBy key l ↔ y ∈ l := by
  induction l with
  | nil => simp [sortBy]
  | cons z l ih => rw [show sortBy key (z :: l) = insertBy key z (sortBy key l) from rfl, mem_insertBy, ih, List.mem_cons]

theorem insertBy_sorted {α : Type} (key : α → Nat) (x : α) (l : List α) (h : l.Pairwise fun a b => key a ≤ key b) :
    (insertBy key x l).Pairwise fun a b => key a ≤ key b := by
  induction l with
  | nil => simp [insertBy]
  | cons z l ih =>
    rw [List.pairwise_cons] at h
    unfold insertBy
    split
    · next hx => exact List.pairwise_cons.2 ⟨fun y hy => by
        rcases List.mem_cons.1 hy with rfl | hy
        · exact hx
        · exact le_trans hx (h.1 y hy), List.pairwise_cons.2 h⟩
    · next hx => exact List.pairwise_cons.2 ⟨fun y hy => by
        rcases (mem_insertBy key x y l).1 hy with rfl | hy
        · omega
        · exact h.1 y hy, ih h.2⟩

/-- A sorted list ascends in its key. -/
theorem sortBy_sorted {α : Type} (key : α → Nat) (l : List α) : (sortBy key l).Pairwise fun a b => key a ≤ key b := by
  induction l with
  | nil => simp [sortBy]
  | cons z l ih => exact insertBy_sorted key z _ ih

/-! ### Wick cores -/

/-- A word that needs no correction is fetched and nothing changes. -/
theorem fetchFix_clean (s : State) (t c : Nat) (w : Wick) (h : mget 0 w.memErr (w.pc.toNat / 4) ≠ 1) : fetchFix s t c w = s := by
  unfold fetchFix
  simp only [beq_iff_eq, h, Bool.and_eq_true, and_false, if_false]

/-- An instruction of a core that stands ready is tried on the core alone. -/
theorem wkIssue_ready (s : State) (t c : Nat) (uses : List Nat) (dec : Wick → WRes) (h : coreReady s t c uses) :
    wkIssue s t c uses dec = wkEnd s t c (wkTry (getWick s t c) uses dec) := by
  obtain ⟨⟨h1, h2, h3, h4, ⟨h5, h0⟩, h6, h7⟩, h8⟩ := h
  have hc : wkCanIssue s t (getWick s t c) = true := by
    unfold wkCanIssue
    simp [h1, h2, h3, h4]
  unfold wkIssue
  simp only [hc, h7, h8, fetchFix_clean s t c _ h0]
  simp

/-- With the fetch in order and no source waiting for a load, the instruction itself decides. -/
theorem wkTry_ready (s : State) (t c : Nat) (uses : List Nat) (dec : Wick → WRes) (h : coreReady s t c uses) :
    wkTry (getWick s t c) uses dec = dec (getWick s t c) := by
  obtain ⟨⟨h1, h2, h3, h4, ⟨h5, h0⟩, h6, h7⟩, h8⟩ := h
  unfold wkTry
  rw [h5]
  have : uses.any (wkPending (getWick s t c)) = false := by
    rw [List.any_eq_false]
    intro r hr
    simp [h6 r hr]
  simp only [this]
  cases dec (getWick s t c) <;> simp

/-- An instruction that only writes a register leaves its core with that value, `pc` + 4 and one more instruction counted, and nothing
else changed. -/
theorem wkIssue_reg (s : State) (t c r : Nat) (v : Reg) (uses : List Nat) (dec : Wick → WRes) (h : coreReady s t c uses) (hc : c < 48)
    (hd : dec (getWick s t c) = .ok [.reg r v] none) : onlyCore s (wkIssue s t c uses dec) t c (retired (wkSetReg (getWick s t c) r v)) := by
  have h8 : wkEvenLocked (getWick s t c) c = false := h.2
  have h9 : wkEvenLocked (wkSetReg (getWick s t c) r v) c = false := by
    unfold wkSetReg
    split
    · exact h8
    · exact h8
  rw [wkIssue_ready s t c uses dec h, wkTry_ready s t c uses dec h, hd]
  unfold wkEnd wkApply wkRetire wkActOne
  simp only [List.foldl_cons, List.foldl_nil, wkActCore, wkActOut, modWick_eq, getWick_setWick_same, h8, h9, Bool.false_and, Bool.false_eq_true, if_false]
  refine ⟨getWick_setWick_same _ _ _ _, ?_, rfl⟩
  intro t' c' h' hne
  rw [getWick_setWick_other _ _ _ _ _ _ hc h' hne, getWick_setWick_other _ _ _ _ _ _ hc h' hne]

end Sys2Proof.Machine
end

