-- ==== Sys2Proof/Tests/Slice0.lean ====
section
/-!
SUPPORT. Tests: ill-formed terms that the checks refuse, words of a few small steps whose results the spec states, and for every
statement of the obligations states and operands that meet the hypotheses of its clauses.
-/
namespace Sys2Proof.Slice0Tests
set_option Elab.async false
open Sys2Proof Sys2Proof.Machine

/-! ### States to stand on -/

/-- Tile 0's core 0 runs, with a change. -/
def core0 (f : Wick → Wick) : State := setWick State.reset 0 0 (f { Wick.reset with run := .running })
/-- A register with a value and no marker. -/
def rv (v : Nat) : Reg := ⟨BitVec.ofNat 32 v, false, false⟩
/-- A packet as the first one under way. -/
def withPacket (s : State) (p : Packet) : State := putPacket s p
/-- A packet at the delivery port of tile 0. -/
def at0 (src dst : Nat) (b : Body) : Packet := ⟨src, dst, 0, 0, bodyCtl b, b, false, false, false, false, .deliver 0, 0, 0, 0, 0, []⟩
/-- A word that holds fields (position, value). -/
def word (l : List (Nat × Nat)) : W64 := BitVec.ofNat 64 (l.foldl (fun a e => a + e.2 * 2 ^ e.1) 0)

/-! ### Well-formed commands -/

theorem test_wf_refuses_blade : Instr.wf (.bladeChange 0 65536 false) = false := by decide
theorem test_wf_refuses_bit_position : Instr.wf (.bitManipulation 0 0 (.extract 1 2 32 1)) = false := by decide
theorem test_wf_refuses_bit_length : Instr.wf (.bitManipulation 0 0 (.insert 1 2 0 0)) = false := by decide
theorem test_wf_refuses_bit_length33 : Instr.wf (.bitManipulation 0 0 (.extract 1 2 0 33)) = false := by decide
theorem test_wf_refuses_flip : Instr.wf (.matmul 0 0 ⟨[(0, 33, 0)], []⟩ ⟨0, 0⟩) = false := by decide
theorem test_wf_refuses_tag : Instr.wf (.quiesceDeadline 4096) = false := by decide
theorem test_wf_refuses_lane_group : Instr.wf (.linkRetrainDone 0 0 true [(4, 0)]) = false := by decide
theorem test_wf_refuses_double_miss : Instr.wf (.snapshot [] [1, 1] [] []) = false := by decide
theorem test_wf_refuses_double_alt : Instr.wf (.commit [(1, true), (1, false)] [] [] []) = false := by decide
theorem test_wf_refuses_double_quiet : Instr.wf (.abort [] [] [2, 2] []) = false := by decide
theorem test_wf_refuses_double_late : Instr.wf (.timeMark [] [] [] [3, 3]) = false := by decide
theorem test_wf_refuses_alt_of_missing : Instr.wf (.freezeWave [(1, true)] [1] [] []) = false := by decide
theorem test_wf_refuses_short_command : Instr.wf (.commandFetch 0 []) = false := by decide
theorem test_wf_refuses_odd_command : Instr.wf (.commandFetch 0 (List.replicate 9 0)) = false := by decide
theorem test_wf_refuses_empty_frame : Instr.wf (.frameReceived 0 0 [] true 0) = false := by decide
theorem test_wf_refuses_past_frame : Instr.wf (.frameReceived 0 0 [1] true (-1)) = false := by decide
theorem test_wf_refuses_empty_ptp : Instr.wf (.ptpFrame 0 0 []) = false := by decide
theorem test_wf_refuses_past_grant : Instr.wf (.macGrant 0 0 (-1)) = false := by decide
theorem test_wf_refuses_long_mgmt : Instr.wf (.mgmtFrame 0 0 0 (List.replicate 17 0) true) = false := by decide
theorem test_wf_refuses_empty_request : Instr.wf (.registerWrite 0 (.request 0 [])) = false := by decide
theorem test_wf_refuses_request_over : Instr.wf (.registerWrite 0 (.request 4079 [1, 2])) = false := by decide
theorem test_wf_refuses_double_wake : Instr.wf (.wakeStep [1, 1] []) = false := by decide
theorem test_wf_refuses_seven_blades : Instr.wf (.bladeMeasurement (List.replicate 7 (0, 0))) = false := by decide
theorem test_wf_refuses_short_estimate : Instr.wf (.powerLoopStep ⟨0, 0, 0, 0, [], []⟩) = false := by decide
theorem test_wf_refuses_sample : Instr.wf (.tapSample 0 [true] []) = false := by decide
theorem test_wf_refuses_extest : Instr.wf (.tapExtest 0 [true] []) = false := by decide
theorem test_wf_refuses_empty_read : Instr.wf (.hostReadCompletion 0 .update (.data [])) = false := by decide
theorem test_wf_refuses_empty_poison : Instr.wf (.hostReadCompletion 0 .update (.poisoned [])) = false := by decide
theorem test_wf_accepts_edges : (Instr.wf (.bitManipulation 0 0 (.extract 1 2 31 32)) && Instr.wf (.matmul 0 0 ⟨[(0, 32, 95)], [0]⟩ ⟨0, 0⟩) &&
    Instr.wf (.quiesceDeadline 4095) && Instr.wf (.linkRetrainDone 0 0 false [(31, 31)]) && Instr.wf (.commandFetch 0 (List.replicate 8 0)) &&
    Instr.wf (.registerWrite 0 (.request 4079 [1]))) = true := by decide

/-! ### Wick cores -/

theorem test_wickInteger_hyps : coreReady (core0 id) 0 0 (List.range 32) ∧ coreReady (setWick State.reset 10999 47 { Wick.reset with run := .running }) 10999 47 [31] := by
  unfold coreReady coreFree
  decide

/-- R185: the quotient by zero is all ones and its remainder the dividend. -/
theorem test_divide_by_zero : (match exec (.multiplyDivide 0 0 .divu 3 1 2) (core0 fun w => { w with regs := [(1, rv 7)] }) with
    | .next s => wkReg (getWick s 0 0) 3 == rv 0xFFFFFFFF && (getWick s 0 0).pc == 4
    | _ => false) = true := by decide
theorem test_divide_overflow : (match exec (.multiplyDivide 0 0 .div 3 1 2) (core0 fun w => { w with regs := [(1, rv 0x80000000), (2, rv 0xFFFFFFFF)] }) with
    | .next s => wkReg (getWick s 0 0) 3 == rv 0x80000000
    | _ => false) = true := by decide
theorem test_add_wraps_into_source : (match exec (.integerAlu 0 0 (.op .add 1 1 (.imm 1))) (core0 fun w => { w with regs := [(1, rv 0xFFFFFFFF)] }) with
    | .next s => (getWick s 0 0).regs == [] && (getWick s 0 0).instret == 1
    | _ => false) = true := by decide
theorem test_g0_discards : (match exec (.integerAlu 0 0 (.op .add 0 0 (.imm 5))) (core0 id) with
    | .next s => wkReg (getWick s 0 0) 0 == rv 0
    | _ => false) = true := by decide

theorem test_wickHash_hyps : coreReady (core0 id) 0 0 [1, 2, 3] ∧ (0 : BitVec 2) ≠ 3 ∧ (2 : BitVec 2) ≠ 3 := by
  unfold coreReady coreFree
  decide

theorem test_wickFloat_hyps : coreReady (core0 id) 0 0 [1, 2, 3, 4] ∧ (3 : BitVec 3).toNat < 4 ∧ fpFmtOk (fmtOf 10) = true ∧
    4 ≤ (4 : BitVec 3).toNat ∧ fpFmtOk (fmtOf 15) = true ∧ fpFmtOk (fmtOf 12) = false ∧ coreReady (core0 id) 0 0 (fpUses (.cvtTo 15 0 false false 1 2)) := by
  unfold coreReady coreFree
  decide

theorem test_wickPacked_hyps : coreReady (core0 id) 0 0 (simdUses (.f32x4 .add 0 4 8 28)) ∧
    coreReady (core0 id) 0 0 (simdUses (.f32x4fma 3 0 8 28 4)) ∧ coreReady (core0 id) 0 0 (simdUses (.i8x16 true true 0 4 28)) := by
  unfold coreReady coreFree
  decide

theorem test_wickDot_hyps : coreReady (core0 id) 0 0 (simdUses (.dot8 0 0 28)) ∧ coreReady (core0 id) 0 0 (simdUses (.dot8 1 2 4)) := by
  unfold coreReady coreFree
  decide

/-- Addresses at the edges of Table 6.3: the last word of the local memory, the first and last byte of the own MUs, and around them. -/
theorem test_wickLoadStore_hyps : let s := core0 fun w => { w with core := word [(40, 0)], regs := [(1, rv 0x3FFC), (2, ⟨0, true, false⟩), (3, rv 0x4000),
      (4, rv 0xFFFFF), (5, rv 0x100000), (6, rv 0x4FFFFF), (7, rv 0x500000), (8, rv 1)] }
    coreReady s 0 0 (List.range 32) ∧ (wkReg (getWick s 0 0) 2).poi = true ∧ (wkReg (getWick s 0 0) 1).poi = false ∧
    inWindow (getWick s 0 0) 0 = true ∧ inWindow (getWick s 0 0) 0x3FFC = false ∧ (getWick s 0 0).own.length < 4 ∧
    (muWriteAll (getMu s 0 0) 0 (leBytes 4 1) false).isSome = true ∧ (muWriteAll (getMu s 0 3) 0xFFFFF (leBytes 1 1) true).isSome = true ∧
    ((wkReg (getWick s 0 0) 8).v + (0 : BitVec 16).signExtend 32).toNat % lsBytes .lw ≠ 0 := by
  unfold coreReady coreFree
  decide

theorem test_wickLoads_full_hyps : let s := core0 fun w => { w with own := List.replicate 4 ⟨9, rv 1⟩ }
    coreReady s 0 0 [1, 2] ∧ 4 ≤ (getWick s 0 0).own.length ∧ (getWick s 0 0).own ≠ [] ∧ wkEvenLocked (getWick s 0 0) 0 = false := by
  unfold coreReady coreFree
  decide

theorem test_wickQueues_hyps : let s := core0 fun w => { w with queues := [(7, [⟨1, false, false⟩])] }
    coreReady s 0 0 [30, 31] ∧ mget [] (getWick s 0 0).queues 7 ≠ [] ∧ mget [] (getWick s 0 0).queues 0 = [] ∧ (30 : GReg).val % 2 = 0 ∧
    coreReady s 0 0 [31, 32] := by
  unfold coreReady coreFree
  decide

theorem test_wickMessaging_hyps : let s := core0 fun w => { w with regs := [(1, rv 0x123456)] }
    coreReady s 0 0 ((31 : Nat) :: 1 :: msgUses 24 4) ∧ 24 + 2 * 4 ≤ 32 ∧ (wkReg (getWick s 0 0) 1).poi = false ∧
    ((List.range 8).map fun i => ((getWick s 0 0).lastTk + 1 + i) % 8).find? (fun k => !(mget Ticket.fresh (getWick s 0 0).tickets k).pending) = some 0 ∧
    nextTicket (getWick s 0 0) = some 0 := by
  unfold coreReady coreFree
  decide

theorem test_wickTimers_hyps : let s := core0 fun w => { w with tpast := false, sendb := some ⟨1, 2, [], 100, 16, false, 50, none, false, 0, 0⟩ }
    (regionAt s 0).frozenAt = none ∧ wkEvenLocked (getWick s 0 0) 0 = false ∧ (getWick s 0 0).tpast = false ∧
    (getWick s 0 0).sendb = some ⟨1, 2, [], 100, 16, false, 50, none, false, 0, 0⟩ ∧ (mget FieldClk.reset s.time.clk (fieldOf 0)).rate ≠ 0 ∧
    (mget FieldClk.reset s.time.clk (fieldOf 10999)).rate ≠ 0 := by decide

theorem test_wickDeadlines_hyps : let s := core0 fun w => { w with recv := some ⟨1, 255, true, false, 9, 0⟩, sendb := some ⟨1, 2, [], 50, 16, false, 50, none, false, 0, 0⟩, tickets := [(7, ⟨true, true, .done, 0, 9, 0⟩)], tags := [(3, .live true 31 5 0)] }
    (regionAt s 0).frozenAt = none ∧ (getWick s 0 0).recv ≠ none ∧ (mget Ticket.fresh (getWick s 0 0).tickets 7).pending = true ∧
    mget RTag.free (getWick s 0 0).tags 3 = .live true 31 5 0 := by decide

theorem test_wickSendb_waits_hyps : let s := core0 fun w => { w with sendb := some ⟨1, 2, [], 50, 16, true, 0, none, false, 0, 0⟩ }
    (regionAt s 0).frozenAt = none ∧ (getWick s 0 0).sendb = some ⟨1, 2, [], 50, 16, true, 0, none, false, 0, 0⟩ := by decide

theorem test_wickCsr_hyps : let s := core0 fun w => { w with regs := [(1, rv 3), (2, ⟨0, true, false⟩)] }
    coreReady s 0 0 [0, 1, 2, 30, 31] ∧ (wkReg (getWick s 0 0) 1).poi = false ∧ (wkReg (getWick s 0 0) 2).poi = true := by
  unfold coreReady coreFree
  decide

/-- A lockstep pair. -/
def pair0 : State := setWick (core0 fun w => { w with core := word [(16, 1)] }) 0 1 Wick.reset
theorem test_wickYieldPairs_hyps : coreReady (core0 fun w => { w with foldReq := some 2 }) 0 0 [] ∧ wkResolved (getWick (core0 fun w => { w with foldReq := some 2 }) 0 0) = true ∧
    wkResolved (getWick (core0 fun w => { w with foldReq := some 2, tags := [(0, .live true 1 2 0)] }) 0 0) = false ∧
    coreReady (core0 fun w => { w with foldReq := some 2, tags := [(0, .live true 1 2 0)] }) 0 0 [] ∧ (1 : BitVec 14) ≠ 0 ∧
    wkOddLocked pair0 0 1 = true ∧ coreFree pair0 0 0 [1, 2, 3] ∧ wkEvenLocked (getWick pair0 0 0) 0 = true ∧
    wkFetch (wkPairView (getWick pair0 0 0) (getWick pair0 0 1)) = none ∧ wkPending (wkPairView (getWick pair0 0 0) (getWick pair0 0 1)) 1 = false ∧
    (getWick pair0 0 1).sendb = none := by
  unfold coreReady coreFree
  decide

theorem test_wickRemote_hyps : let s := core0 fun w => { w with regs := [(1, rv (10999 * 4 + 3)), (2, rv 0xFFFFC)], tags := [(0, .live true 9 5 0), (3, .expired 0)] }
    coreReady s 0 0 [1, 2, 3] ∧ (wkReg (getWick s 0 0) 1).poi = false ∧ (wkReg (getWick s 0 0) 2).poi = false ∧
    (List.range 4).find? (fun i => mget RTag.free (getWick s 0 0).tags i = .free) = some 1 ∧ (getWick s 0 0).own.length < 4 := by
  unfold coreReady coreFree
  decide

theorem test_wickRrsp_hyps : let s := withPacket (core0 fun w => { w with tags := [(3, .live true 9 5 0)] }) (at0 0 (qaMake 0 0 0) (.rrsp 3 7 false .done))
    getPacket s 0 = some (at0 0 (qaMake 0 0 0) (.rrsp 3 7 false .done)) ∧ qaTile (qaMake 0 0 0) = 0 ∧ qaUnit (qaMake 0 0 0) = 0 ∧
    mget RTag.free (getWick s 0 0).tags 3 = .live true 9 5 0 := by decide

theorem test_wickRacc_hyps : let p := at0 0 (qaMake 0 53 0) (.racc true 3 0xFFFFC (rv 1))
    let s := withPacket State.reset p
    getPacket s 0 = some p ∧ (0 : Nat) < s.net.next ∧ qaTile p.dst = 0 ∧ qaUnit p.dst = 53 ∧ fenced s 0 = false ∧ groupRecovering s 0 = false ∧
    (muWriteAll (getMu s 0 3) 0xFFFFC (leBytes 4 1) false).isSome = true ∧ fenced (fenceTile s 0 true 1) 0 = true := by decide

/-- A message of two words for queue 7, which a core accepts while 14 entries stand there and refuses at 15. -/
def msgTo (n : Nat) (b : Bool) : State := withPacket (core0 fun w => { w with core := word [(7, 1), (15, 1)], queues := [(7, List.replicate n ⟨1, false, false⟩)] })
  (at0 (qaMake 1 0 5) (qaMake 0 0 7) (.msg b [⟨1, false, false⟩, ⟨2, false, false⟩]))
theorem test_messages_hyps : (getPacket (msgTo 14 true) 0).isSome = true ∧ (0 : Nat) < (msgTo 14 true).net.next ∧ qaQueue (qaMake 0 0 7) = 7 ∧
    (getWick (msgTo 14 true) 0 0).core.toNat.testBit 7 = true ∧ (getWick (msgTo 14 true) 0 0).core.toNat.testBit (8 + 7) = true ∧
    wkOddLocked (msgTo 14 true) 0 0 = false ∧ gatedAt (msgTo 14 true) 0 = false ∧ (mget [] (getWick (msgTo 14 true) 0 0).queues 7).length + 2 ≤ 16 ∧
    (mget [] (getWick (msgTo 15 true) 0 0).queues 7).length + 2 > 16 := by decide

theorem test_replies_hyps : let s := withPacket (core0 fun w => { w with tickets := [(7, ⟨true, true, .done, 0, 0, 0⟩)] }) (at0 0 (qaMake 0 0 0) (.reply .refusedFull 1 7))
    (getPacket s 0).isSome = true ∧ fenced s 0 = false ∧ (mget Ticket.fresh (getWick s 0 0).tickets 7).pending = true ∧
    cyclesOf s 0 = (mget Ticket.fresh (getWick s 0 0).tickets 7).deadline := by decide

theorem test_sendbReply_hyps : let s := withPacket (core0 fun w => { w with sendb := some ⟨1, 2, [], 1, 16, true, 0, some 5, true, 0, 0⟩ }) (at0 0 (qaMake 0 0 0) (.reply .refusedFull 2 0))
    (getPacket s 0).isSome = true ∧ fenced s 0 = false ∧ (getWick s 0 0).sendb = some ⟨1, 2, [], 1, 16, true, 0, some 5, true, 0, 0⟩ ∧
    wkEvenLocked (getWick s 0 0) 0 = false ∧ cyclesOf s 0 < 1 := by decide

theorem test_probe_hyps : let s := withPacket (core0 fun w => { w with sendb := some ⟨1, 2, [], 1, 16, true, 0, some 5, true, 0, 0⟩ }) (at0 0 (qaMake 0 0 0) (.probe 62 0 9))
    (getPacket s 0).isSome = true ∧ (0 : Nat) < s.net.next ∧ fenced s 0 = false ∧ (9 : Nat) ≠ qaMake 0 0 0 ∧ qaMake 0 0 0 = 0 := by decide

/-- A word that holds a correctable error at the pc; a reply to an earlier request of a tag, and one to an access that has ended. -/
theorem test_wickFetch_hyps : let w := getWick (core0 fun w => { w with memErr := [(0, 1)] }) 0 0
    w.run = .running ∧ w.sendb = none ∧ w.recv = none ∧ inWindow w w.pc.toNat = true ∧ mget false w.memPoi (w.pc.toNat / 4) = false ∧
    mget 0 w.memErr (w.pc.toNat / 4) = 1 ∧ wkPending w 5 = false ∧ wkEvenLocked w 0 = false ∧
    mget RTag.free (getWick (core0 fun w => { w with tags := [(3, .live true 9 5 8)] }) 0 0).tags 3 = .live true 9 5 8 ∧
    mget RTag.free (getWick (core0 fun w => { w with tags := [(3, .expired 0)] }) 0 0).tags 3 = .expired 0 := by decide

/-- A message of the data network waits for a control message that came to the same queue in the same cycle. -/
theorem test_portWait_hyps : let p := at0 (qaMake 1 0 5) (qaMake 0 0 7) (.msg true [⟨1, false, false⟩])
    let s := withPacket (withPacket (core0 id) { p with ctl := true }) { p with ctl := false }
    ((getPacket s 1).map fun x => (portWait s 0 x).isSome) = some true ∧ ((getPacket s 0).map fun x => (portWait s 0 x).isSome) = some false ∧
    qaTileForm p.dst = true := by decide

/-- A late reply finds its send over; a probe finds its core no longer waiting. -/
theorem test_stale_hyps : let b : SendB := ⟨1, 2, [], 0, 16, false, 5, some 5, true, 0, 7⟩
    let s := core0 fun w => { w with tickets := [(7, ⟨true, true, .done, 0, 0, 7⟩)], sendb := some b }
    (mget Ticket.fresh (getWick s 0 0).tickets 7).pid ≠ 0 ∧ b.pid ≠ 0 ∧ sendbOver (cyclesOf s 0) b = true ∧
    sendbOver (cyclesOf s 0) { b with awaiting := true } = false := by decide

/-! ### Words of module-specific instructions, bit by bit from Tables 6.5 and 6.8 -/

/-- The example of 6.5: `SEND g6, g22, g10, 1` is 0xA8D65000. -/
theorem test_word_send : wickDecode 0 0 0b10101000110101100101000000000000#32 = some (.send 0 0 6 22 10 0) ∧
    0b10101000110101100101000000000000#32 = 0xA8D65000#32 := by decide
theorem test_word_crc32c : wickDecode 0 0 0b10100000011000010001000000000010#32 = some (.crc32c 0 0 3 1 2 2) ∧
    wickDecode 0 0 0b10100000011000010001000000000011#32 = none := by decide
theorem test_word_pop : wickDecode 0 0 0b10100111110000000000000000000111#32 = some (.pop 0 0 30 7) ∧
    wickDecode 0 0 0b10100111110000000000000000001111#32 = none := by decide
theorem test_word_qdrop : wickDecode 0 0 0b10100100000000000000010000000101#32 = some (.qdrop 0 0 0 5) ∧
    wickDecode 0 0 0b10100100001000000000010000000101#32 = none := by decide
theorem test_word_recv : wickDecode 0 0 0b10101000100000110000101010000001#32 = some (.recv 0 0 4 3 0x81 true) ∧
    wickDecode 0 0 0b10101000100000110001001010000001#32 = none := by decide
theorem test_word_fence : wickDecode 0 0 0b10101000000000000000011000000000#32 = some (.wickFence 0 0) := by decide
theorem test_word_ldr : wickDecode 0 0 0b10101101001000010001000000000000#32 = some (.ldr 0 0 9 1 2) := by decide
theorem test_word_tset : wickDecode 0 0 0b10110000000001000000000100000000#32 = some (.tset 0 0 4) := by decide
theorem test_word_csrr : wickDecode 0 0 0b10110100101000000000000000010000#32 = some (.csrr 0 0 5 0x010) := by decide
theorem test_word_trap : wickDecode 0 0 0b10110100000000001100000000000001#32 = some (.trap 0 0 1) ∧
    wickDecode 0 0 0b10110100000000001100000000000000#32 = some (.wickHalt 0 0) := by decide
theorem test_word_reserved : wickDecode 0 0 0b10111000000000000000000000000000#32 = none ∧ mayBeUnlisted 0b10111000000000000000000000000000#32 = true := by decide
/-! ### CUs -/

/-- Region 0 runs and owns tile 0. -/
def reg0 (f : Region → Region) : State := setRegion State.reset 0 (f { Region.none with st := .running })
/-- CU 0 of tile 0 in that region: micro-op 0 of slot 0, changes of the CU and of its queues. -/
def cu0 (u : W64 × W64) (f : Cu → Cu) (g : Flow → Flow) : State := modFlow (setCu (reg0 id) 0 0 (f { Cu.reset with uops := [(0, u)] })) 0 48 g
/-- A token of one 32-bit word. -/
def tok1 (v : Nat) : Token := ⟨0, 0, 0, false, false, 0, 0, 1, 0, none, v⟩
/-- Queue `q` holds released tokens. -/
def holds (q : Nat) (l : List Token) (f : Flow) : Flow := { f with queues := mset DQ.empty f.queues q { DQ.empty with ready := l } }
/-- The micro-op at work. -/
def run0 : URun := URun.fresh
/-- A micro-op at work in CU 0. -/
def cuRun (u : W64 × W64) (r : URun) (f : Cu → Cu) (g : Flow → Flow) : State := cu0 u (fun c => f { c with issued := some r }) g

theorem test_contextStart_hyps : let s := cu0 (word [(0, 4)], 0) id (holds 0 [tok1 5])
    unitRuns s 0 = true ∧ (cuCtx (getCu s 0 0) 0).running = false ∧ uOpc (uopAt (getCu s 0 0) 0 0) ≠ 0 ∧ (getCu s 0 0).old = none ∧ (getFlow s 0 48).foldReq = false ∧
    uopQueues (getCu s 0 0) 0 (uopAt (getCu s 0 0) 0 0) ≠ [] ∧ ((uopQueues (getCu s 0 0) 0 (uopAt (getCu s 0 0) 0 0)).findSome? (headTok (getFlow s 0 48))) ≠ none := by decide

theorem test_issue_hyps : let s := cu0 (word [(0, 1)], 0) (fun c => { c with ctxs := [(0, { CuCtx.idle with running := true })] }) (holds 0 [tok1 5])
    unitRuns s 0 = true ∧ (getCu s 0 0).issued = none ∧ (getCu s 0 0).old = none ∧ (getFlow s 0 48).foldReq = false ∧ (cuCtx (getCu s 0 0) 0).running = true ∧
    verWaiting s 0 0 0 = none ∧ slotsAwaited (getCu s 0 0) (uopAt (getCu s 0 0) 0 0) = false ∧
    uopReady (getCu s 0 0) (getFlow s 0 48) 0 (uopAt (getCu s 0 0) 0 0) = true ∧ issueOpen s 0 = true := by decide
/-- An entry of a latency-policy verification waits: micro-op 0 is measured, and micro-op 1 is the verification. -/
def verS : State := modMu (cu0 (word [(0, 1)], 0) (fun c => { c with
    uops := [(0, (word [(0, 1)], 0)), (1, (word [(0, 1)], 0))], pred := [(0, word [(11, 1), (20, 1)])] }) id) 0 0 fun m =>
      { m with rings := [(0, { RingRt.empty with recs := [⟨0, 16, false, true, 0, 4, false, false, [], none⟩] })] }
theorem test_issue_ver_hyps : issueOpen verS 0 = true ∧ (cuCtx (getCu verS 0 0) 0).running = false ∧ unitRuns verS 0 = true ∧
    (verWaiting verS 0 0 0).map (fun e => uOpc (uopAt (getCu verS 0 0) 0 (prVuop e.2))) = some 1 := by decide

theorem test_halt_hyps : let s := cuRun (word [(0, 15)], 0) run0 id id
    (getCu s 0 0).issued = some run0 ∧ cuMoves s 0 = true ∧ run0.ver = none ∧ run0.late = false ∧ uOpc (uopAt (getCu s 0 0) 0 0) = 15 := by decide

theorem test_loadx_hyps : let s := cuRun (word [(0, 4), (6, 7)], 0) run0 id (holds 0 [tok1 5])
    (getCu s 0 0).issued = some run0 ∧ cuMoves s 0 = true ∧ run0.late = false ∧ (getCu s 0 0).old = none ∧ uOpc (uopAt (getCu s 0 0) 0 0) = 4 ∧
    (fillA s 0 48 (uopAt (getCu s 0 0) 0 0) run0.part).2.2 = true := by decide

theorem test_loadw_hyps : let w : W64 × W64 := (word [(0, 3), (6, 7), (10, 7)], 0)
    let s := cu0 w (fun c => { c with loading := some run0, feed := [(0, [⟨List.replicate (blkBytes .int8 (fmtDepth .int8) 0 0) 1, none, false, [], false, false, 0⟩])] }) id
    (getCu s 0 0).loading = some run0 ∧ cuMoves s 0 = true ∧ run0.late = false ∧ (getCu s 0 0).old = none ∧ uOpc w = 3 ∧ run0.row = w.2.toNat % 16 ∧
    slotRead (getCu s 0 0) (uSlot w) = false ∧
    (feedTake (cuFeed (getCu s 0 0) (uAgp w)) (blkBytes (uWfmt w) (slotUse (getCu s 0 0) run0 w (uSlot w)).1 (uSpat w) (uSclw w)) Fed.none).isSome = true := by decide +kernel

theorem test_matmul_hyps : let w : W64 × W64 := (word [(0, 1), (6, 7), (10, 7)], 0)
    let s := cuRun w run0 id (holds 0 [tok1 5])
    (getCu s 0 0).issued = some run0 ∧ cuMoves s 0 = true ∧ uOpc w = 1 ∧ uMode w = 0 ∧ uAout w = false ∧ run0.row + 1 = uRows w ∧
    bit (cuCfg (getCu s 0 0) 0) 4 = false ∧ (getFlow s 0 48).out = [] ∧ run0.late = false ∧ (getCu s 0 0).old = none ∧ issueOpen s 0 = true ∧
    (fillA s 0 48 w run0.part).2.2 = true := by decide
/-- One whose rows are all there ends with its outcome. -/
theorem test_matmul_end_hyps : let w : W64 × W64 := (word [(0, 1), (6, 7), (10, 7)], 0)
    let s := cuRun w run0 id (holds 0 [tok1 5])
    let z := vhbLoad s 0 0 run0 w
    let r := matLoop (uRows w + 70000) z.1 0 0 z.2.1 w ⟨[], []⟩ ⟨0, 0⟩
    z.2.2 = true ∧ uMode w ≠ 1 ∧ r.2.2 = true ∧ (endUop r.1 0 0 r.2.1 w ⟨0, 0⟩).isSome = true ∧ predOf (getCu s 0 0) 0 0 = none := by decide +kernel

theorem test_matmul_stall_hyps : let w : W64 × W64 := (word [(0, 1), (4, 1), (6, 7), (10, 7)], word [(45, 1)])
    let s := cuRun w run0 id id
    let z := vhbLoad s 0 0 run0 w
    (getCu s 0 0).issued = some run0 ∧ cuMoves s 0 = true ∧ uOpc w = 1 ∧ uMode w = 1 ∧ z.2.2 = true ∧ isGather z.1 0 0 z.2.1 w = false ∧
    (getFlow s 0 48).out = [] ∧ issueOpen s 0 = true ∧ (matLoop (uRows w + 70000) z.1 0 0 z.2.1 w ⟨[], []⟩ ⟨0, 0⟩).2.2 = false := by decide +kernel
/-- One whose vector hold buffer is still to be filled. -/
theorem test_matmul_load_hyps : let w : W64 × W64 := (word [(0, 1), (4, 1), (6, 7), (10, 7)], 0)
    let s := cuRun w run0 id id
    uOpc w = 1 ∧ issueOpen s 0 = true ∧ (vhbLoad s 0 0 run0 w).2.2 = false := by decide

theorem test_vector_hyps : let w : W64 × W64 := (word [(0, 2), (6, 7), (14, 7)], 0)
    let s := cuRun w run0 id (holds 0 [tok1 5])
    (getCu s 0 0).issued = some run0 ∧ cuMoves s 0 = true ∧ run0.late = false ∧ uOpc w = 2 ∧ isSteer (getCu s 0 0) 0 w = false ∧ run0.row + 1 = uRows w ∧
    (getFlow s 0 48).out = [] ∧
    (match takeTok s 0 48 (uInq w) with
      | some (t, s1) =>
        let run1 := { run0 with tag := t.tag }
        let v := tokVec (uAfmt w) t
        let sh := shadowRow s1 0 0 run1 w (if v.fmt = .pair then 2 else 1) []
        match sendBeats [(0, headPass run1 v (tokPoi v t || sh.2) t.apx)] sh.1 0 0 run1 w ⟨0, 0⟩ with
        | some (s2, r) => t.ctl.isNone && (endUop s2 0 0 { r with row := run0.row + 1 } w ⟨0, 0⟩).isSome
        | none => false
      | none => false) = true := by decide
theorem test_vector_control_hyps : let w : W64 × W64 := (word [(0, 2), (6, 7), (14, 7)], 0)
    let s := cuRun w run0 id (holds 0 [{ tok1 5 with ctl := some 3 }])
    (match takeTok s 0 48 (uInq w) with
      | some (t, s1) =>
        let run1 := { run0 with tag := t.tag }
        t.ctl == some 3 && (endUop (emitCtl s1 (cuEmit s1 0 0 (uOstr w) run1 t.poi t.apx) 3 t.val) 0 0
          { run1 with row := run0.row + 1, poi := run0.poi || t.poi, apx := run0.apx || t.apx } w ⟨0, 0⟩).isSome
      | none => false) = true := by decide

theorem test_vector_waits_hyps : let w : W64 × W64 := (word [(0, 2), (6, 7)], 0)
    let s := cuRun w run0 id id
    (getCu s 0 0).issued = some run0 ∧ cuMoves s 0 = true ∧ run0.late = false ∧ uOpc w = 2 ∧ isSteer (getCu s 0 0) 0 w = false ∧ run0.row < uRows w ∧
    (getFlow s 0 48).out = [] ∧ takeTok s 0 48 (uInq w) = none ∧ feederFenced s (qaMake 0 48 (uInq w)) = false := by decide

/-- A filter: V0 steers with operation 0x53 by queue 0 and its neighbour. -/
def steerS (tag v : Nat) : State := cuRun (word [(0, 2)], word [(24, 1), (44, 1)]) run0 (fun c => { c with vprog := [(0, word [(0, 0x53)])] })
  (fun f => holds 1 [{ tok1 9 with tag := tag }] (holds 0 [{ tok1 v with tag := tag }] f))
theorem test_steer_hyps : let s := steerS 0 2
    let w := uopAt (getCu s 0 0) 0 0
    run0.late = false ∧ isSteer (getCu s 0 0) 0 w = true ∧ sVop (v0Of (getCu s 0 0) 0 w) = 0x53 ∧ (getFlow s 0 48).out = [] ∧ run0.row + 1 < uRows w ∧
    (headTok (getFlow s 0 48) (uInq w)).map (·.tag) = some (cuCtx (getCu s 0 0) 0).tbase ∧ (headTok (getFlow s 0 48) (uInq w ^^^ 1)).map (·.tag) = some 0 ∧
    (headTok (getFlow s 0 48) (uInq w)).map (·.val % 2) = some 0 ∧
    (match takeTok s 0 48 (uInq w) with | some (_, s1) => (takeTok s1 0 48 (uInq w ^^^ 1)).isSome | none => false) = true := by decide
theorem test_steer_mismatch_hyps : let s := steerS 255 2
    (getCu s 0 0).issued = some run0 ∧ cuMoves s 0 = true ∧ run0.late = false ∧ run0.row < uRows (uopAt (getCu s 0 0) 0 0) ∧ isSteer (getCu s 0 0) 0 (uopAt (getCu s 0 0) 0 0) = true ∧
    sVop (v0Of (getCu s 0 0) 0 (uopAt (getCu s 0 0) 0 0)) ≠ 0x52 ∧ (getFlow s 0 48).out = [] ∧
    (headTok (getFlow s 0 48) 0).map (·.tag) = some 255 ∧ (cuCtx (getCu s 0 0) 0).tbase = 0 ∧ regionOf s 0 = some 0 ∧ (getRegion s 0).st = .running := by decide

theorem test_maskDeadline_hyps : let s := cuRun (word [(0, 1)], 0) { run0 with deadline := some 7 } (fun c => { c with pred := [(0, word [(32, 5)])] }) id
    (predOf (getCu s 0 0) 0 0).isSome = true ∧ cuMoves s 0 = true ∧ (getCu s 0 0).issued = some { run0 with deadline := some 7 } ∧ run0.late = false ∧ run0.fallback = false ∧ (getMu s 0 0).gens = [] ∧
    headTok (getFlow s 0 50) 0 = none ∧ gatherEnd (getCu s 0 0) 0 = none := by decide

/-- A stream of CU 5 with a token to send and one credit. -/
def outS (credit : Nat) : State := modFlow (reg0 id) 0 53 fun f => { f with out := [⟨63, [tok1 1], none⟩], streams := [(63, { Strm.none with cred := credit })] }
theorem test_outputSend_hyps : (getFlow (outS 1) 0 53).out = [⟨63, [tok1 1], none⟩] ∧ unitsStill (outS 1) 0 = false ∧
    min (getStrm (getFlow (outS 1) 0 53) 63).cred (packRun (getStrm (getFlow (outS 1) 0 53) 63) [tok1 1]) = 1 ∧
    min (getStrm (getFlow (outS 0) 0 53) 63).cred (packRun (getStrm (getFlow (outS 0) 0 53) 63) [tok1 1]) = 0 ∧
    localRoom (outS 1) 0 (.tokd 63 [tok1 1]) = true := by decide
/-- The router's local buffer is full. -/
theorem test_outputSend_full_hyps : localRoom { outS 1 with net := { (outS 1).net with packets := (List.range 64).map fun i =>
    (i, { at0 0 0 (.tokd 63 [tok1 1]) with loc := .router 0 4 }) } } 0 (.tokd 63 [tok1 1]) = false := by decide

/-! ### Descriptors and MUs -/

/-- MU 0 of tile 0 with program 0's words. -/
def mu0 (p : List W64) (f : Mu → Mu) (g : Flow → Flow) : State :=
  modFlow (setMu (reg0 id) 0 0 (f { Mu.reset with progs := ((List.range 4).zip p).filter fun e => e.2 ≠ 0 })) 0 50 g
/-- A producer program of queue 0 with a ring of 4,096 bytes at 0x1000. -/
def producer : List W64 := [word [(61, 4), (0, 0x1000)], word [(0, 4096)]]
/-- A descriptor for it: length and address. -/
def descFor (len a : Nat) : QEnt := ⟨word [(48, len), (0, a)], false, false⟩
theorem test_desc_hyps : let s := withPacket (mu0 producer id id) (at0 5 (qaMake 0 50 0) (.desc (descFor 4088 0x1000007FF000)))
    (getPacket s 0).isSome = true ∧ (0 : Nat) < s.net.next ∧ qaTileForm (qaMake 0 50 0) = true ∧ qaTile (qaMake 0 50 0) = 0 ∧ qaUnit (qaMake 0 50 0) = 50 ∧ fenced s 0 = false ∧ producerOf s 0 0 0 = some 0 ∧
    producerOf s 0 0 1 = none ∧ bits (descFor 4088 0x1000000FF000).w.toNat 48 16 = 4088 ∧ onWafer 0x1000000FF000 4088 ≠ none ∧ onWafer 0x1000000FF008 4089 = none ∧
    (ringPut (ringSizes s 0 0 0).1 (ringSizes s 0 0 0).2 RingRt.empty ⟨0, 4096, false, false, 0, 1, false, false, [], none⟩).isSome = true ∧
    ringPut 4088 0 RingRt.empty ⟨0, 4096, false, false, 0, 1, false, false, [], none⟩ = none := by decide

/-- One whose record goes behind a PAD, in a ring that holds 4,080 bytes from 8 on. -/
theorem test_desc_pad_hyps : let x : RingRec := ⟨0, 24, false, false, 0, 1, false, false, [], none⟩
    let rg : RingRt := { RingRt.empty with head := 64, tail := 4080, used := 4016, recs := [{ x with ofs := 64, len := 4016 }] }
    ringPlace 4096 rg 24 = some (some (4080, 16), 0) ∧ (ringPut 4096 0 rg x).isSome = true ∧
    (muWriteAll (getMu (mu0 producer id id) 0 0) (0x1000 + 4080) (leBytes 8 (recHeader 0 15 16 false false)) false).isSome = true ∧
    (getMu (mu0 producer id id) 0 0).waitW = [] := by decide

theorem test_descRecord_hyps : let x : RingRec := ⟨0, 16, false, false, 5, 1, false, false, [], none⟩
    let s := mu0 producer (fun u => { u with jobs := [⟨5, 0, 0, 16, 0x100000000000, 8⟩], rings := [(0, { RingRt.empty with recs := [x] })] }) id
    (getMu s 0 0).jobs ≠ [] ∧ unitsStill s 0 = false ∧ onWafer 0x100000000000 8 = some (0, 50, 0) ∧ fenced s 0 = false ∧
    (mget RingRt.empty (getMu s 0 0).rings 0).recs = [] ++ x :: [] ∧ x.done = false ∧ x.len = 16 ∧ x.ov = false ∧ (getMu s 0 0).waitW = [] ∧
    (muWriteAll (getMu s 0 0) 0x1000 (recBytes { x with done := true, data := List.replicate 8 0 }) false).isSome = true := by decide

theorem test_ringProduce_hyps : let s := mu0 producer id (holds 0 [tok1 5])
    muMoves s 0 = true ∧ gMode (progWord s 0 0 0 0) = 4 ∧ bit (progWord s 0 0 0 1) 63 = false ∧ (takeTok s 0 50 (gQdat (progWord s 0 0 0 0))).isSome = true ∧
    gBase (progWord s 0 0 0 0) + (progRing s 0 0 0).size ≤ 2 ^ 20 ∧
    (match ringPut 4096 0 RingRt.empty ⟨0, 16, false, true, qaMake 0 50 0, 2, false, false, leBytes 8 5, none⟩ with
      | some rg => rg.recs.map (·.ov) == [false] && (muWriteAll (getMu s 0 0) 0x1000 (recBytes (rg.recs.headD ⟨0, 0, false, false, 0, 0, false, false, [], none⟩)) false).isSome
      | none => false) = true := by decide
/-- A ring that its record does not fit, and one that leaves the MU. -/
theorem test_ringProduce_stop_hyps : ringPut 8 0 RingRt.empty ⟨0, 16, false, true, 0, 2, false, false, leBytes 8 5, none⟩ = none ∧
    (let s := mu0 [word [(61, 4), (0, 0xFFFF8)], word [(0, 4096)]] id (holds 0 [tok1 5])
     2 ^ 20 < gBase (progWord s 0 0 0 0) + (progRing s 0 0 0).size ∧ (takeTok s 0 50 (gQdat (progWord s 0 0 0 0))).isSome = true) := by decide

/-- A producer of queue 0 and, as program 1, a consumer of the same ring. -/
def rings0 : State := setMu (reg0 id) 0 0 { Mu.reset with
  progs := [(0, word [(61, 4)]), (1, word [(0, 4096)]), (4, word [(61, 4)]), (5, word [(0, 4096), (63, 1)])],
  rings := [(0, { RingRt.empty with recs := [⟨0, 8, false, true, 0, 2, false, false, [], none⟩], used := 8, tail := 8 })] }
theorem test_ringConsume_hyps : muMoves rings0 0 = true ∧ gMode (progWord rings0 0 0 1 0) = 4 ∧ bit (progWord rings0 0 0 1 1) 63 = true ∧
    genCanEmit rings0 0 0 (freshGen rings0 0 0 1 none) = true ∧ (0 : Fin 8) ≠ 1 ∧ gMode (progWord rings0 0 0 0 0) = 4 ∧ bit (progWord rings0 0 0 0 1) 63 = false ∧
    gBase (progWord rings0 0 0 0 0) = gBase (progWord rings0 0 0 1 0) ∧ (mget RingRt.empty (getMu rings0 0 0).rings 0).recs.map (fun r => r.done && (ringFetch rings0 0 (progRing rings0 0 0 0) r).isSome) = [true] := by decide

theorem test_generatorToken_hyps : let s := mu0 [word [(61, 2), (58, 2)]] id (holds 0 [tok1 5])
    let x := freshGen s 0 0 0 none
    muMoves s 0 = true ∧ (getFlow s 0 50).foldReq = false ∧ genFor (getMu s 0 0) 0 none = none ∧ 0 < gMode x.w0.toNat ∧ gMode x.w0.toNat < 4 ∧
    1 < gDest x.w0.toNat ∧ (headTok (getFlow s 0 50) (gQin x.w0.toNat)).isSome = true ∧ freeGen (getMu s 0 0) = some 0 := by decide

theorem test_generatorList_hyps : let s := mu0 [word [(61, 1), (58, 2)], word [(61, 1)]] id (holds 0 [tok1 5])
    let x := freshGen s 0 0 0 none
    muMoves s 0 = true ∧ gMode x.w0.toNat = 1 ∧ bit x.w1.toNat 61 = true ∧ freeGen (getMu s 0 0) = some 0 ∧ (takeTok s 0 50 (gQin x.w0.toNat)).isSome = true := by decide

theorem test_generatorFeed_hyps : let s := cuRun (word [(0, 1)], 0) run0 id id
    let x := freshGen s 0 0 0 (some 0)
    muMoves s 0 = true ∧ (getFlow s 0 50).foldReq = false ∧ genFor (getMu s 0 0) 0 (some 0) = none ∧ gMode x.w0.toNat < 4 ∧
    (consumerUop s 0 0 0).map (runUop (getCu s 0 0)) = some (uopAt (getCu s 0 0) 0 0) ∧ muLow 0 (uopAt (getCu s 0 0) 0 0) = 0 ∧ freeGen (getMu s 0 0) = some 0 ∧ freeGen (getMu s 0 1) = some 0 ∧
    gDest x.w0.toNat = 0 := by decide
theorem test_generatorFeed_single_hyps : let s := setMu (cuRun (word [(0, 1)], 0) run0 id id) 0 1 { Mu.reset with progs := [(0, word [(58, 1)])] }
    let x := freshGen s 0 1 0 (some 0)
    gDest x.w0.toNat = 1 ∧ 1 / 2 = muLow 0 (uopAt (getCu s 0 0) 0 0) / 2 ∧ freeGen (getMu s 0 1) = some 0 ∧ (consumerUop s 0 0 0).map (runUop (getCu s 0 0)) = some (uopAt (getCu s 0 0) 0 0) := by decide

/-- A generator at work in MU 0. -/
def genS (x : Gen) (f : Mu → Mu) (g : Flow → Flow) : State := mu0 [] (fun u => f { u with gens := [(0, x)] }) g
/-- The last beat of 32 bytes that an MU holds, and the one after it. -/
theorem test_affine_hyps : let x (a : Nat) : Gen := { Gen.idle with w0 := word [(58, 2), (0, a)] }
    genReady (genS (x 0xFFFE0) id id) 0 0 0 0 = some (x 0xFFFE0) ∧ (x 0).failed = false ∧ inMu (affineAddr (x 0xFFFE0)) 32 = true ∧ inMu (affineAddr (x 0xFFFE1)) 32 = false ∧
    genReady (genS (x 0xFFFE1) id id) 0 0 0 0 = some (x 0xFFFE1) ∧ genCanEmit (genS (x 0xFFFE0) id id) 0 0 (x 0xFFFE0) = true ∧
    affineNext (x 0) = none ∧ (affineNext { x 0 with w1 := word [(48, 1)] }).isSome = true := by decide
theorem test_affine_feed_hyps : let x : Gen := { Gen.idle with w0 := word [(58, 1)], cu := some 0 }
    genReady (genS x id id) 0 0 0 0 = some x ∧ issueOpen (genS x id id) 0 = true ∧ gDest x.w0.toNat ≤ 1 := by decide
theorem test_affine_write_hyps : let x : Gen := { Gen.idle with w0 := word [(58, 3)] }
    let s := genS x id (holds 0 (List.replicate 8 (tok1 7)))
    genReady s 0 0 0 0 = some x ∧ (match popBytes 40 s 0 50 0 32 [] false with
      | some (bs, poi, s1) => (muWriteAll (getMu s1 0 0) 0 (bs.take 32) poi).isSome
      | none => false) = true := by decide

/-- An indirect list program: count 2 from address 0, with its access (0 read, 1 write, 2 add). -/
def ixGen (acc : Nat) : Gen := { Gen.idle with w0 := word [(61, 1), (58, 2), (0, 0x1000)], w1 := word [(61, 1), (62, acc), (0, 32)], w2 := word [(0, 2)] }
theorem test_indirect_hyps : genReady (genS (ixGen 0) id id) 0 0 0 1 = some (ixGen 0) ∧ genCanEmit (genS (ixGen 0) id id) 0 0 (ixGen 0) = true ∧
    (match nextIndex (genS (ixGen 0) id id) 0 0 (ixGen 0) with | some (.at i, y, _) => !y.failed && inMu (ixAddr y i) 32 | _ => false) = true ∧
    (match nextIndex (genS { ixGen 0 with w0 := word [(61, 1), (58, 2), (0, 0xFFFE1)] } id id) 0 0 { ixGen 0 with w0 := word [(61, 1), (58, 2), (0, 0xFFFE1)] } with | some (.at i, y, _) => !y.failed && !inMu (ixAddr y i) 32 | _ => false) = true := by decide
/-- A tag whose block is longer than a beat, and a tag without one. -/
theorem test_indirect_tag_hyps : let x : Gen := { Gen.idle with w0 := word [(61, 1), (58, 1), (0, 0x1000)], w1 := word [(61, 1), (59, 2), (0, 64)], w2 := word [(0, 2)], cu := some 0 }
    let s := genS x (fun u => { u with mem := [(2, 0x40)] }) id
    genReady s 0 0 0 1 = some x ∧ genCanEmit s 0 0 x = true ∧ gBytes x.w0.toNat < 64 ∧ bit 2 14 = false ∧ bit 0x4000 14 = true ∧
    (match nextIndex s 0 0 x with | some (.at i, y, _) => !y.failed && !bit i 14 && inMu (ixAddr y i) 64 | _ => false) = true := by decide
theorem test_indirect_write_hyps : let s := genS (ixGen 1) id (holds 0 (List.replicate 8 (tok1 7)))
    genReady s 0 0 0 1 = some (ixGen 1) ∧ bits (ixGen 1).w1.toNat 62 2 = 1 ∧
    (match nextIndex s 0 0 (ixGen 1) with
      | some (.at _, y, s1) => (popBytes 40 (setGen s1 0 0 0 y) 0 50 0 32 [] false).isSome
      | _ => false) = true := by decide
theorem test_indirect_add_hyps : let s := genS (ixGen 2) id id
    genReady s 0 0 0 1 = some (ixGen 2) ∧ bits (ixGen 2).w1.toNat 62 2 = 2 ∧
    (match nextIndex s 0 0 (ixGen 2) with
      | some (.at _, y, s1) => (nextAddend (setGen s1 0 0 0 y) 0 0 y).isSome
      | _ => false) = true := by decide

theorem test_gather_hyps : let x : Gen := { Gen.idle with w0 := word [(61, 2), (58, 1)], cu := some 0, mask := [1], maskEnd := true }
    genReady (genS x id id) 0 0 0 2 = some x ∧ genCanEmit (genS x id id) 0 0 x = true ∧ x.failed = false ∧
    (activeOf false x.mask).drop 0 ≠ [] ∧ x.i0 < ((activeOf false x.mask).drop 0).length ∧
    (activeOf false [0]).drop 0 = [] ∧ gBase x.w0.toNat + 0 + 32 ≤ 2 ^ 20 := by decide
theorem test_gather_direct_hyps : let x : Gen := { Gen.idle with w0 := word [(61, 2), (58, 1)], cu := some 0, direct := true }
    let s := setGen (setCu (mu0 [] id id) 0 0 { Cu.reset with uops := [(0, (word [(0, 1)], 0))], issued := some run0, pred := [(0, word [(8, 1)])] }) 0 0 0 x
    genReady s 0 0 0 2 = some x ∧ genCanEmit s 0 0 x = true ∧ run0.late = false ∧ freeGen (getMu s 0 0) ≠ none ∧
    (match predOf (getCu s 0 0) 0 0 with | some e => (maskBytes s 0 0 (prFbagp e.2)).2.2.1.isNone | none => false) = true := by decide
theorem test_gather_mask_hyps : let x : Gen := { Gen.idle with w0 := word [(61, 2), (58, 1)], cu := some 0 }
    let s := genS x id (holds 0 [{ tok1 0 with ctl := some 2 }])
    genReady s 0 0 0 2 = some x ∧ ((activeOf false x.mask).drop 0).length < 32 ∧ mget 0 (getMu s 0 0).maskDrop 0 = 0 ∧ genCanEmit s 0 0 x = true ∧ (takeTok s 0 50 0).isSome = true := by decide

theorem test_tree_hyps : let x : Gen := { Gen.idle with w0 := word [(61, 3), (58, 2)] }
    genReady (genS x id (holds 0 [tok1 5])) 0 0 0 3 = some x ∧ genCanEmit (genS x id id) 0 0 x = true ∧ x.i0 = 0 ∧ (takeTok (genS x id (holds 0 [tok1 5])) 0 50 0).isSome = true ∧
    genReady (genS { x with i0 := 1 } id id) 0 0 0 3 = some { x with i0 := 1 } ∧ bits x.w1.toNat 0 20 + 4 * 0 + 4 ≤ 2 ^ 20 ∧
    2 ^ 20 < bits (word [(0, 0xFFFFD)]).toNat 0 20 + 4 := by decide
/-- A node that compares, at the depth before the limit. -/
theorem test_tree_node_hyps : let x : Gen := { Gen.idle with w0 := word [(61, 3), (58, 2)], w1 := word [(40, 3)], i0 := 1, i1 := 1, depth := 1 }
    let s := genS x (fun u => { u with mem := [(6, 2)] }) id
    let nd := leNat (muRead s 0 0 0 8).1
    genReady s 0 0 0 3 = some x ∧ bit nd 63 = false ∧ bits nd 49 2 = 1 ∧ x.depth + 1 < bits x.w1.toNat 40 8 ∧ x.feat + 4 * bits nd 51 11 + 4 ≤ 2 ^ 20 := by decide

/-- A tree that its control token ends, and a node that compares with what the model does not know. -/
theorem test_tree_end_hyps : let x : Gen := { Gen.idle with w0 := word [(61, 3), (58, 2)] }
    let s := genS x id (holds 0 [{ tok1 0 with ctl := some 2 }])
    (match takeTok s 0 50 0 with | some (k, _) => decide (k.ctl = some 2) | none => false) = true ∧
    (let s := genS { x with i0 := 1, i1 := 1 } (fun u => { u with mem := [(6, 4)] }) id
     1 < bits (leNat (muRead s 0 0 0 8).1) 49 2 ∧ bit (leNat (muRead s 0 0 0 8).1) 63 = false) := by decide

/-! ### Snapshots of MUs -/

/-- A copy-out of the window of granule 1, with shadow granules 8 on. -/
def snap0 (shn : Nat) (f : Snap → Snap) : State := mu0 [] (fun u => { u with snap := some (f ⟨1, word [(16, 1), (28, 1), (40, 8), (52, shn)], 1, [], [], [], [], none, none, 0, 0, [], false, 0, 0⟩) }) id
theorem test_copyOut_hyps : let s := snap0 1 id
    (match (getMu s 0 0).snap with | some sn => decide (sn.gen = none) && decide (sn.next < snWb sn.word + snWnm1 sn.word) && decide (sn.done = []) | none => false) = true ∧ (getMu s 0 0).waitW = [] ∧
    freeGen (getMu s 0 0) = some 0 ∧ unitsStill s 0 = false := by decide
theorem test_shadowWait_hyps : let s := snap0 0 id
    muFrozen (getMu s 0 0) 1 = true ∧ muFrozen (getMu s 0 0) 2 = true ∧ muFrozen (getMu s 0 0) 3 = false ∧ muFreeShadow (getMu s 0 0) = none ∧
    (match (getMu s 0 0).snap with | some sn => (sn.map.lookup 1).isNone | none => false) = true := by decide
theorem test_foldBack_hyps : let s := snap0 1 fun sn => { sn with fold := [1], map := [(1, 8)] }
    (match (getMu s 0 0).snap with | some sn => decide (sn.fold = [1]) && decide (sn.map.lookup 1 = some 8) | none => false) = true ∧ unitsStill s 0 = false := by decide
theorem test_scrub_hyps : let s := mu0 [] (fun u => { u with err := [(3, 2)] }) id
    (regionAt s 0).frozenAt = none ∧ mget 0 (getMu s 0 0).err 3 = 2 ∧ mget 0 (getMu s 0 0).err 2 = 0 ∧ (getMu s 0 0).scrub = 0 := by decide

theorem test_scrub_wick_hyps : (let s := core0 fun w => { w with memErr := [(0, 1)] }
     (regionAt s 0).frozenAt = none ∧ mget 0 (getWick s 0 0).memErr (getWick s 0 0).scrub = 1) ∧
    mget 0 (getWick (core0 fun w => { w with memErr := [(0, 2)] }) 0 0).memErr 0 = 2 := by decide

/-! ### Tokens, folds and draining -/

/-- Queue 7 of CU 0: sequenced, one entry deep. -/
def seqQ (f : DQ → DQ) : State := modFlow (reg0 id) 0 48 fun x => { x with qgeom := word [(56, 1)], qdesc := [(7, word [(49, 1)])], queues := mset DQ.empty [] 7 (f DQ.empty) }
theorem test_token_hyps : let p := at0 (qaMake 1 48 0) (qaMake 0 48 7) (.tokd 3 [tok1 5])
    let s := withPacket (seqQ id) p
    (getPacket s 0).map (fun x => (x.body, portWait s 0 x)) = some (p.body, none) ∧ (0 : Nat) < s.net.next ∧ qaTileForm p.dst = true ∧ qaUnit p.dst = 48 ∧ qaQueue p.dst = 7 ∧ fenced s 0 = false ∧ qDepth (getFlow s 0 48) 7 = 1 ∧
    gatedAt s 0 = false ∧ (tok1 5).epoch = epochAt s 0 ∧ (tok1 5).fold ≤ rgNfm1 (regionAt s 0) ∧ (getFlow s 0 48).reinject = [] ∧
    (getQ (getFlow s 0 48) 7).spill = false ∧ qdSeqd (qDesc (getFlow s 0 48) 7) = true ∧ qUsed (getQ (getFlow s 0 48) 7) = 0 ∧
    qUsed (getQ (getFlow (seqQ fun x => { x with slots := [⟨3, [tok1 5], 1, []⟩] }) 0 48) 7) = 1 ∧ qCap (getFlow s 0 48) 7 = 1 ∧ isSteerQ s 0 48 7 = false ∧
    qDepth (getFlow s 0 48) 0 = 0 ∧ ({ tok1 5 with seq := 1 } : Token).seq % 65536 = qCap (getFlow s 0 48) 7 ∧ ({ tok1 5 with epoch := 15 } : Token).epoch ≠ epochAt s 0 := by decide
theorem test_credit_hyps : let p := at0 (qaMake 1 48 0) (qaMake 0 53 0) (.cret 3 255)
    let s := withPacket (modFlow (reg0 id) 0 53 fun f => { f with streams := [(3, { Strm.none with w0 := word [(39, 5)], cred := 1 })] }) p
    (getPacket s 0).map (·.body) = some p.body ∧ qaUnit p.dst = 53 ∧ fenced s 0 = false ∧ p.epoch = epochAt s 0 ∧ stMode (getStrm (getFlow s 0 53) 3) = 0 := by decide
theorem test_release_hyps : let s := seqQ fun x => { x with slots := [⟨0, [tok1 5], 1, [⟨9, 3⟩]⟩] }
    unitsStill s 0 = false ∧ (getQ (getFlow s 0 48) 7).spill = false ∧ ((headSlot (getFlow s 0 48) 7).map (·.owed.length)) = some 1 ∧ headSlot (getFlow s 0 48) 6 = none := by decide
theorem test_resend_hyps : let s := modFlow (reg0 id) 0 48 fun f => { f with streams := [(7, { Strm.none with inflight := some (tok1 1), resend := true })] }
    unitsStill s 0 = false ∧ (getStrm (getFlow s 0 48) 7).inflight = some (tok1 1) ∧ (getStrm (getFlow s 0 48) 7).resend = true := by decide

theorem test_foldRequest_hyps : let s := setWick (reg0 fun r => { r with desc0 := word [(6, 3)] }) 0 47 { Wick.reset with ctx := [(3, word [(0, 1)])] }
    unitsStill s 0 = false ∧ nextWickFold s 0 47 = some 3 ∧ (getWick s 0 47).run ≠ .halted ∧ rgFdwell (regionAt s 0) = 0 ∧
    rgFdwell { Region.none with desc1 := word [(48, 65535)] } ≠ 0 := by decide
theorem test_foldRequestUnit_hyps : let r0 : RingRec := ⟨0, 16, false, true, 0, 3, false, false, [], some (0, tok1 1, [])⟩
    let s := modFlow (reg0 fun r => { r with desc0 := word [(6, 1)] }) 0 53 fun f => { f with rings := [(1, { RingRt.empty with recs := [r0] })], foldReq := true }
    unitsStill s 0 = false ∧ nextFold s 0 53 = some 1 ∧ foldFree s 0 53 = true ∧ (getFlow s 0 53).foldReq = true ∧ (getFlow s 0 53).reinject = [] ∧
    (parkUnit s 0 53 0).isSome = true ∧ (otherRecs s 0 53 && !workNow s 0 53) = true := by decide
/-- A generator at work is ready work; and a token that no ring has room for. -/
theorem test_foldWorkNow_hyps : let s := modFlow (setMu (reg0 fun r => { r with desc0 := word [(6, 1)] }) 0 3 { Mu.reset with gens := [(0, Gen.idle)] }) 0 53 (holds 0 [tok1 5])
    workNow s 0 53 = true ∧ parkUnit s 0 53 0 = none := by decide
theorem test_foldWork_hyps : let c : Cu := { Cu.reset with ctxs := [(1, { CuCtx.idle with running := true })], issued := some run0 }
    let s := modFlow (setCu (reg0 fun r => { r with desc0 := word [(6, 1)] }) 0 0 c) 0 48 fun f => { f with foldMap := [(1, 1)], foldReq := true }
    unitsStill s 0 = false ∧ nextFold s 0 48 = some 1 ∧ foldRecs (getFlow s 0 48) 1 = [] ∧ foldFree s 0 48 = false := by decide
theorem test_foldSwitchCore_hyps : let s := core0 fun w => { w with run := .halted, foldReq := some 1 }
    unitsStill s 0 = false ∧ (getWick s 0 0).foldReq ≠ none ∧ (getWick s 0 0).run = .halted ∧ wkResolved (getWick s 0 0) = true ∧ wkEvenLocked (getWick s 0 0) 0 = false := by decide
theorem test_reinject_hyps : let r0 : RingRec := ⟨0, 16, false, true, 0, 3, false, false, [], some (0, tok1 1, [])⟩
    let s := modFlow (reg0 id) 0 53 fun f => { f with rings := [(1, { RingRt.empty with recs := [r0] })], reinject := [1, 2] }
    (ringFetch s 0 (spillAt (getFlow s 0 53) 1) r0).isSome = true ∧
    unitsStill s 0 = false ∧ (getFlow s 0 53).reinject = [1, 2] ∧ (mget RingRt.empty (getFlow s 0 53).rings 1).recs = [r0] ∧
    (mget RingRt.empty (getFlow s 0 53).rings 2).recs = [] ∧ qdSeqd (qDesc (getFlow s 0 53) 0) = false := by decide

/-- A command that stands with its engine, and the module is READY. -/
def cmd (eng opc : Nat) (w : List W64) (ph : CPh) : Cmd := ⟨0, 0, eng, opc, 0, 0, false, false, w, 0, 0, false, false, 0, ph⟩
def ready (s : State) : State := { s with boot := { s.boot with mst := 5 } }
def withCmd (s : State) (c : Cmd) : State := setEng (ready s) c.eng ⟨[c], 1⟩

theorem test_drain_hyps : let s := reg0 fun r => { r with st := .quiescing, gated := true, drain := some (0, 0, 0) }
    (getRegion s 0).st = .quiescing ∧ (getRegion s 0).frozenAt = none ∧ (getRegion s 0).waiting = false ∧ drainedNow s 0 = true ∧
    (getRegion s 0).drain = some (0, (drainSums s 0).1, (drainSums s 0).2) ∧ (getRegion s 0).heatHeld = false ∧ curCmd s 0 = none ∧
    (1, 0) ≠ drainSums s 0 ∧ drainedNow (reg0 fun r => { r with st := .quiescing }) 0 = false := by decide
theorem test_drainTimeout_hyps : let s := withCmd (reg0 fun r => { r with st := .quiescing, desc1 := word [(16, 1)] }) (cmd 0 0x13 [] (.drain 5))
    (getRegion s 0).heatHeld = false ∧ (getRegion s 0).frozenAt = none ∧ curCmd s 0 = some (cmd 0 0x13 [] (.drain 5)) ∧ (getRegion s 0).st ≠ .empty ∧
    (getRegion s 0).st ≠ .stopped := by decide
/-- A transaction. -/
def txn (tag port : Nat) (ph : TxPh) (f : Txn → Txn) : Txn := f { Txn.fresh tag port 0 none with ph := ph }
def withTxn (s : State) (x : Txn) : State := addTxn (ready s) x
theorem test_quiesceDeadline_hyps : let x := txn 4095 0 .quiesce fun x => { x with qdue := some 9, regs := [0], strict := true }
    let s := withTxn (reg0 id) x
    txnOf s 4095 = some x ∧ x.ph = .quiesce ∧ x.qdue = some 9 ∧ (∀ r ∈ x.regs, (getRegion s r).frozenAt = none) := by decide
/-- Its drain evaluated past the time that it has: the command stands in its drain. -/
theorem test_drain_late_hyps : let s := withCmd (reg0 fun r => { r with st := .quiescing, gated := true, drain := some (0, 0, 0) }) (cmd 0 0x13 [] (.drain 0))
    curCmd s 0 = some (cmd 0 0x13 [] (.drain 0)) ∧ drainedNow s 0 = true ∧ (getRegion s 0).drain = some (0, (drainSums s 0).1, (drainSums s 0).2) ∧
    (0 : Nat) + rgDrto (getRegion s 0) * 1000000 < nowPs (reachCycle s (rgCtl (getRegion s 0)) (0 + 256)) ∧
    nowPs (reachCycle s (rgCtl (getRegion s 0)) (0 + 256)) ≤ 0 + rgDrto { Region.none with desc1 := word [(16, 1)] } * 1000000 := by decide +kernel
theorem test_watchdog_hyps : let s := modFlow (reg0 fun r => { r with desc1 := word [(1, 1)] }) 0 48 fun f => holds 0 [tok1 1] { f with qgeom := word [(0, 1)] }
    (getRegion s 0).st = .running ∧ (getRegion s 0).frozenAt = none ∧ rgWdwin (getRegion s 0) ≠ 0 ∧ fullQueues s 0 ≠ [] ∧ rgWdspill (getRegion s 0) = false := by decide

/-! ### Region commands -/

theorem test_regionLoad_hyps : let c (isp a : Nat) : Cmd := cmd 63 0x10 [0, 0, word [(0, a)], word [(62, isp), (0, 64)]] .ready
    let s := withCmd State.reset (c 0 64)
    nextCmd s 63 0x10 = some (c 0 64) ∧ regionWaits s 63 = false ∧ ldIsp (c 0 64) = 0 ∧ ldIlen (c 0 64) = 64 ∧ inHbm s 64 = true ∧
    inHbm s (64 + 64 - 1) = true ∧ ldIsp (c 3 64) = 3 ∧ ldIsp (c 2 64) = 2 ∧ (cmdWord (c 0 65) 0 2) % 64 ≠ 0 ∧ (getRegion s 63).st ≠ .quiescing := by decide
/-- The smallest image: a header of 64 bytes and no section, for region 63 on tile 0. -/
def imageBytes : List Byte := leBytes 8 (64 * 2 ^ 32 + 256) ++ leBytes 8 63 ++ leBytes 8 (2 ^ 32 + 2 ^ 16 + 2) ++ List.replicate 40 0
theorem test_image_hyps : (match readImage 64 imageBytes with | some img => imageOk State.reset 63 img | none => false) = true := by decide +kernel
/-- Segment 0 lies on MSD 0, whose stack holds its contents. -/
def hbmS (s : State) : State := setMsd { s with seg := [(0, word [(63, 1), (32, 1), (0, 16)], 0)] } 0 { Msd.reset with allLost := false }
theorem test_regionLoad_hbm_hyps :
    let s := hbmS State.reset
    (modRead s dieCd 0 64).2.1 = .done ∧ anyPoi (modRead s dieCd 0 64).1 = false := by decide +kernel
theorem test_regionStart_hyps : let s (st : RSt) := withCmd (reg0 fun r => { r with st := st }) (cmd 0 0x11 [] .ready)
    nextCmd (s .drained) 0 0x11 = some (cmd 0 0x11 [] .ready) ∧ regionWaits (s .drained) 0 = false ∧ (getRegion (s .drained) 0).heatHeld = false ∧
    (getRegion (s .loaded) 0).st = .loaded ∧ regionWaits (s .loaded) 0 = false ∧ (getRegion (s .running) 0).st ≠ .drained := by decide
theorem test_regionStop_hyps : let s (f : Region → Region) := withCmd (reg0 f) (cmd 0 0x12 [] .ready)
    nextCmd (s id) 0 0x12 = some (cmd 0 0x12 [] .ready) ∧ (getEng (s id) 0).cmds = [cmd 0 0x12 [] .ready] ∧ ownOpen (s id) 0 = false ∧ recovering (s id) 0 = false ∧
    (getRegion (s id) 0).frozenAt = none ∧ mwf Wick.reset (s id).wicks = true ∧ (getRegion (s fun r => { r with frozenAt := some 3 }) 0).frozenAt ≠ none ∧
    (getRegion (s fun r => { r with st := .stopped }) 0).st = .stopped := by decide
theorem test_regionDrain_hyps : let s (f : Region → Region) := withCmd (reg0 f) (cmd 0 0x13 [] .ready)
    nextCmd (s id) 0 0x13 = some (cmd 0 0x13 [] .ready) ∧ regionWaits (s id) 0 = false ∧ (getRegion (s id) 0).st = .running ∧
    (getRegion (s fun r => { r with st := .drained }) 0).st = .drained := by decide
theorem test_regionRestart_hyps : let s := withCmd (reg0 id) (cmd 0 0x14 [] .ready)
    nextCmd s 0 0x14 = some (cmd 0 0x14 [] .ready) ∧ regionWaits s 0 = false ∧ (getRegion s 0).heatHeld = false ∧ openTxns s 0 < 16 ∧
    conflicts s 0 (chgTargets s (.restart 0)) = false ∧ inRegion (getRegion s 0) 0 = true := by decide
theorem test_regionStep_hyps : let s := withCmd (reg0 id) (cmd 0 0x15 [] .ready)
    nextCmd s 0 0x15 = some (cmd 0 0x15 [] .ready) ∧ regionWaits s 0 = false ∧ (getRegion s 0).st ≠ .quiescing ∧ (∃ x ∈ (getEng s 0).cmds, x.id = 0) := by decide
theorem test_phase_hyps : let s := withCmd (reg0 id) (cmd 0 0x16 [0, 0, 2] .ready)
    nextCmd s 0 0x16 = some (cmd 0 0x16 [0, 0, 2] .ready) ∧ regionWaits s 0 = false ∧ (getRegion s 0).st ≠ .empty ∧ regionFields (getRegion s 0) = [0] := by decide
theorem test_phaseComplete_hyps : let s (o : Nat) := setField (withCmd (reg0 id) (cmd 0 0x16 [] (.settle 7))) 0 { FieldSt.reset with opcur := o }
    curCmd (s 1) 0 = some (cmd 0 0x16 [] (.settle 7)) ∧ ((regionFields (getRegion (s 1) 0)).filter fun f => decide ((getField (s 1) f).opcur ≤ prefOf (getRegion (s 1) 0))).length = 1 ∧
    ((regionFields (getRegion (s 2) 0)).filter fun f => decide ((getField (s 2) f).opcur ≤ prefOf (getRegion (s 2) 0))).length = 0 := by decide

/-! ### The mesh -/

/-- A message at the first router. -/
def atRouter (t port dst : Nat) (b : Body) (fresh : Bool) : Packet := ⟨qaMake t 0 0, dst, 0, 0, bodyCtl b, b, false, false, false, fresh, .router t port, 0, 0, 0, 0, []⟩
def m1 : Body := .msg false [⟨1, false, false⟩]
theorem test_hop_hyps : let p (d : Nat) := atRouter 0 4 (qaMake d 0 0) m1 true
    let s := withPacket State.reset (p 50)
    getPacket s 0 = some (p 50) ∧ (0 : Nat) < s.net.next ∧ meshUp s 0 = true ∧ isHead s 0 (p 50) = true ∧ mget 0 (getTile s 0).err (2 * (chanIx (p 50) + 12 * netOf (p 50))) = 0 ∧
    mget 0 (getTile s 0).err (2 * (chanIx (p 50) + 12 * netOf (p 50)) + 1) = 0 ∧ firstCheck (p 50) = none ∧ qaGroupForm (p 50).dst = false ∧
    targetOf (p 50).dst = some (50, none) ∧ chooseDir 100 0 50 (xBroken s 0) = some false ∧ chooseDir 100 0 51 (xBroken s 0) = some true ∧
    chooseDir 110 0 55 (yBroken s 0) = some false ∧ canGo s 0 (netOf (p 50)) 0 (crossLink 0 0 { p 50 with fresh := false }) = true ∧
    nextChan s 0 (netOf (p 50)) 0 = some (chanIx (p 50)) ∧ targetOf (p 0).dst = some (0, none) ∧
    targetOf (edgeMake 2 0 0) = some (attachTile 2 0, some (2, 0)) := by decide
theorem test_hop_held_hyps : let s := setTile State.reset 0 { Tile.reset with hold := 1 }
    meshUp s 0 = true ∧ canGo s 0 0 0 (atRouter 1 1 0 m1 false) = false := by decide
theorem test_hop_die_hyps : let s := modBb State.reset 2 0 fun x => { x with st := 3 }
    linkFree s (attachTile 2 0) 4 1 = true ∧ dieRefuses s 2 0 m1 = false ∧ attachUp s 2 0 = true ∧ qaEdgeForm (qaMake 0 0 0) = false ∧
    chanRoom s (attachTile 2 0) 5 false true m1 = true ∧ dieRefuses { s with dieFence := 4 } 2 0 m1 = true := by decide
theorem test_hop_refused_hyps : let s := withPacket (setTile State.reset 0 { Tile.reset with brk := word [(31, 1), (24, 99), (17, 0)] }) (atRouter 0 4 (qaMake 50 0 0) m1 true)
    (match routeAt s 0 50 (atRouter 0 4 (qaMake 50 0 0) m1 true) with | .refused => true | _ => false) = true := by decide
theorem test_hop_first_hyps : let p := atRouter 0 4 (qaMake 0 0 0) (.msg false []) true
    let s := withPacket State.reset p
    getPacket s 0 = some p ∧ firstCheck p = some 0x0606 ∧ isHead s 0 p = true ∧ meshUp s 0 = true ∧
    firstCheck (atRouter 0 4 (qaMake 16383 0 0) m1 true) = some 0x0502 := by decide
/-- Its buffer holds a header, or a body, that cannot be read. -/
theorem test_hop_unread_hyps : let p := atRouter 0 4 (qaMake 0 0 0) m1 true
    let s (i : Nat) := setTile (withPacket State.reset p) 0 { Tile.reset with err := [(2 * (chanIx p + 12 * netOf p) + i, 2)] }
    isHead (s 0) 0 p = true ∧ mget 0 (getTile (s 0) 0).err (2 * (chanIx p + 12 * netOf p)) = 2 ∧ meshUp (s 0) 0 = true ∧
    mget 0 (getTile (s 1) 0).err (2 * (chanIx p + 12 * netOf p)) = 0 ∧ mget 0 (getTile (s 1) 0).err (2 * (chanIx p + 12 * netOf p) + 1) = 2 := by decide

theorem test_links_hyps : let s := modLink State.reset 0 0 0 fun l => { l with window := 17 }
    (getLink s 0 0 0).training = false ∧ (getLink s 0 0 0).failed = false ∧ 16 < (getLink s 0 0 0).window ∧ s.inc.windows = [] := by decide
theorem test_training_hyps : let s := modLink State.reset 0 0 1 fun l => { l with training := true }
    (getLink s 0 0 1).training = true ∧ (getLink s 0 0 1).failed = false ∧ mget false (getLink s 0 0 1).spares 3 = false ∧ atSeam 0 0 = false ∧ (3 : Nat) < 4 := by decide
theorem test_domain_hyps : (getField State.reset 99).meshOff = false ∧ 10999 ∈ fieldTiles 99 := by decide +kernel
/-- A table change that waits. -/
def tabChg (ph : Nat) : TabChg := ⟨7, [.colmap 0 0], [0], none, none, 0, ph⟩
theorem test_tables_hyps : let s : State := { State.reset with mantle := { State.reset.mantle with tabs := [tabChg 0] } }
    s.mantle.tabs = [tabChg 0] ∧ (∀ y ∈ s.mantle.tabs, y.ph = 0) ∧ neighbour 0 0 ∉ (tabChg 0).tiles := by decide
theorem test_tables_staged_hyps : let s : State := addTxn { State.reset with mantle := { State.reset.mantle with tabs := [tabChg 1] } } (txn 7 2 .closed id)
    s.mantle.tabs.find? (·.ph == 1) = some (tabChg 1) ∧ (txnOf s 7).isSome = true ∧ (∀ t ∈ (tabChg 1).tiles, routerIdle s t = true) ∧
    nowPs s ≤ (tabChg 1).t0 + 1000000000 ∧ routerIdle (withPacket s (atRouter 0 4 0 m1 false)) 0 = false := by decide

/-! ### Groups -/

/-- Group 4,095 at tile 0: valid, input 4, outputs 0 and 4, combining integers of 2 contributions with a hold timer. -/
def groupS (c : Nat) : State := setTile State.reset 0 { Tile.reset with groups := [(4095, word [(63, 1), (62, c), (55, 1), (51, 1), (46, 1), (24, 1), (14, 1)])] }
def groupTok (b : Body) : Packet := atRouter 0 4 (7 * 2 ^ 20 + 4095) b true
theorem test_group_hyps : let p := groupTok (.tokd 0 [tok1 1])
    let s := withPacket (groupS 0) p
    let e := groupEntry s 0 4095
    getPacket s 0 = some p ∧ qaGroupForm p.dst = true ∧ meshUp s 0 = true ∧ isHead s 0 p = true ∧ mget 0 (getTile s 0).err (2 * (chanIx p + 12 * netOf p)) = 0 ∧
    mget 0 (getTile s 0).err (2 * (chanIx p + 12 * netOf p) + 1) = 0 ∧ firstCheck p = none ∧ bit e 63 = true ∧
    geInp e 4 = true ∧ geOuts e = [0, 4] ∧ (∀ o ∈ [0, 4], canGo s 0 0 o (copyAt 0 e p o) = true ∧ nextChan s 0 0 o = some (chanIx p)) ∧
    geInp e 3 = false ∧ bit (groupEntry s 1 4095) 63 = false := by decide
theorem test_red_hyps : let k : Token := { tok1 1 with fmt := 0xD }
    let p := groupTok (.red 0 0 k)
    let s := withPacket (groupS 1) p
    getPacket s 0 = some p ∧ firstCheck p = none ∧ isHead s 0 p = true ∧ bit (groupEntry s 0 4095) 62 = true ∧ ropFmt (geRop (groupEntry s 0 4095)) k.fmt = true ∧
    (0 : Nat) < geNexm1 (groupEntry s 0 4095) ∧ 0 < geCwait (groupEntry s 0 4095) ∧ (getTile s 0).store = [] ∧ ropFmt 0 0 = false ∧ netOf p = 0 := by decide
/-- One that no place is kept for passes through: every output takes it, or one is held. -/
theorem test_red_passes_hyps : let p := groupTok (.red 0 1 { tok1 1 with fmt := 0xD })
    let s := withPacket (groupS 1) p
    let e := groupEntry s 0 4095
    geNexm1 e ≤ 1 ∧ (∀ out ∈ geOuts e, canGo s 0 0 out (copyAt 0 e p out) = true ∧ nextChan s 0 0 out = some (chanIx p)) ∧
    (let s := modTile s 0 fun x => { x with hold := 1 }
     0 ∈ geOuts e ∧ canGo s 0 0 0 (copyAt 0 e p 0) = false) := by decide
theorem test_red_second_hyps : let k : Token := { tok1 1 with fmt := 0xD }
    let p := groupTok (.red 0 0 k)
    let s := modTile (withPacket (groupS 1) p) 0 fun x => { x with store := [⟨4095, p, 1, 0⟩] }
    let e := groupEntry s 0 4095
    (getTile s 0).store = [⟨4095, p, 1, 0⟩] ∧ geNexm1 e + 1 ≤ 1 + 0 + 1 ∧ mget 0 (getTile s 0).err 64 = 0 ∧
    (∀ out ∈ geOuts e, canGo (delPacket s 0) 0 0 out (copyAt 0 e p out) = true) ∧ p.dst % 4096 = 4095 ∧
    canGo (delPacket (modTile s 0 fun x => { x with hold := 1 }) 0) 0 0 0 (copyAt 0 e p 0) = false ∧
    (1 : Nat) + 0 + 1 < geNexm1 (word [(16, 5), (24, 5)]).toNat + 2 := by decide
/-- A reduction that a fenced unit answers. -/
theorem test_red_fenced_hyps : let p : Packet := { atRouter 0 4 (qaMake 0 48 0) (.red 0 0 (tok1 1)) false with loc := .deliver 0 }
    let s := fenceTile (withPacket State.reset p) 0 true 1
    (getPacket s 0).map (·.body) = some p.body ∧ qaTileForm p.dst = true ∧ qaTile p.dst = 0 ∧ qaUnit p.dst = 48 ∧ fenced s 0 = true := by decide
theorem test_cwait_hyps : let p := groupTok (.red 0 0 (tok1 1))
    let s := modTile (groupS 1) 0 fun x => { x with store := [⟨4095, p, 1, 0⟩] }
    let e := groupEntry s 0 4095
    let s1 := reachCycle s 0 (0 + geCwait e)
    (getTile s 0).store[0]? = some ⟨4095, p, 1, 0⟩ ∧ decide (geNexm1 e + 1 ≤ 1) = false ∧
    (geOuts e).all (fun o => canGo s1 0 0 o (copyAt 0 e p o)) = true ∧
    (geOuts e).all (fun o => canGo (modTile s1 0 fun x => { x with hold := 1 }) 0 0 o (copyAt 0 e p o)) = false := by decide +kernel
theorem test_rect_hyps : let p : Packet := ⟨edgeMake 1 0 0x4E, 0, 0, 0, false, .rect 0 0 0 0 0 0 [1], false, false, false, true, .die 1 0, 0, 0, 0, 0, []⟩
    let c := cmd 0x4E 0x43 [] (.stage [.creg 0 0 0 0 []])
    let s := fenceTile (withPacket (withCmd State.reset c) p) 0 true 1
    (getPacket s 0).map (·.body) = some p.body ∧ edgeSub p.src = 0x4E ∧ stagingCmd s 0x4E = some (c, [.creg 0 0 0 0 []]) ∧ firstCheck p = none ∧
    (∃ t ∈ cornerTiles 0 0, fenced s t = true) ∧ (∀ t ∈ cornerTiles 0 0, meshUp s t = true) ∧ s.eng.txns.filter (txnLate s) = [] ∧
    (∀ t ∈ cornerTiles 0 0, fenced (withPacket State.reset p) t = false) ∧
    (∃ t ∈ cornerTiles 0 0, meshUp (setField State.reset 0 { FieldSt.reset with meshOff := true }) t = false) ∧
    firstCheck { p with body := .rect 7 9 9 0 0 0 [] } ≠ none := by decide
/-- No transaction is late. -/
theorem txnLapse_none (s : State) (h : s.eng.txns.filter (txnLate s) = []) : txnLapse s = s := by simp [txnLapse, h]

/-! ### Waves and engines -/

/-- A wave that waits, was sent, or whose reports are out. -/
def wave (t : WType) (tag : Nat) (arg : W64) : Wave := { Wave.ask t tag false arg .none with wnum := 5 }
def sentWave (s : State) (w : Wave) : State := { ready s with lamp := { s.lamp with sent := [w] } }
theorem test_waveSend_hyps : let s : State := { ready State.reset with lamp := { State.reset.lamp with pending := [wave .snapshot 0 1, wave .freeze 0 2, wave .freeze 0 3], lastAt := some 5 } }
    lampOn s = true ∧ s.lamp.pending = [wave .snapshot 0 1] ++ wave .freeze 0 2 :: [wave .freeze 0 3] ∧
    (∀ y ∈ [wave .snapshot 0 1], waveRank .freeze < waveRank y.wtype) ∧ (∀ y ∈ [wave .freeze 0 3], waveRank .freeze ≤ waveRank y.wtype) ∧
    s.tc.markNext % 1000 = 0 ∧ s.lamp.lastAt = some 5 := by decide
theorem test_waveReport_hyps : let w : Wave := { wave .snapshot 0 1 with quiet := [3] }
    let v : Wave := { wave .freeze 0 1 with owner := .cmd 0 }
    let s : State := { withCmd State.reset (cmd 0x4E 0x56 [] .work) with lamp := { State.reset.lamp with reporting := [v, w] } }
    s.lamp.reporting = v :: [w] ∧ cmdById s 0 ≠ none ∧ quietFields w = 0 :: [] ∧ w.owner = .none ∧ w.wtxn = 0 := by decide
theorem test_snapshotWave_hyps : let s := sentWave (mu0 [word [(61, 5)]] (fun u => { u with snapW := 1 }) id) (wave .snapshot 0 1)
    nextWave s .snapshot = some (wave .snapshot 0 1) ∧ bit (wave .snapshot 0 1).warg.toNat 0 = true ∧ 0 ∈ regionTiles (getRegion s 0) ∧
    snSen (getMu s 0 0).snapW = true ∧ (getMu s 0 0).snap = none ∧ copyOutProg s 0 0 = some 0 := by decide
theorem test_commitWave_hyps : let x (f : Txn → Txn) := txn 9 0 (.waved true) f
    let s (f : Txn → Txn) := sentWave (withTxn (reg0 id) (x f)) (wave .commit 9 0)
    nextWave (s id) .commit = some (wave .commit 9 0) ∧ txnOf (s id) 9 = some (x id) ∧ (x id).port ≠ 2 ∧ mwf Region.none (s id).regions = true ∧
    txnOf (s fun x => { x with chgs := [.step 0 7] }) 9 = some (x fun x => { x with chgs := [.step 0 7] }) ∧
    txnOf (s fun x => { x with regs := [0] }) 9 = some (x fun x => { x with regs := [0] }) ∧ (getRegion (s fun x => { x with regs := [0] }) 0).st ≠ .empty ∧
    txnOf (s fun x => { x with groups := [0] }) 9 = some (x fun x => { x with groups := [0] }) ∧ rgGrp (getRegion (s id) 0) = 0 ∧
    mwf Wick.reset (s id).wicks = true ∧ (mget [] (s id).inc.sources 10999).length < 8 := by decide
theorem test_abortWave_hyps : let x := txn 9 0 (.waved false) fun x => { x with regs := [0] }
    let s (st : RSt) := sentWave (withTxn (reg0 fun r => { r with st := st }) x) (wave .abort 9 0)
    nextWave (s .quiescing) .abort = some (wave .abort 9 0) ∧ txnOf (s .quiescing) 9 = some x ∧ x.port ≠ 2 ∧ (getRegion (s .quiescing) 0).st = .quiescing ∧
    (getRegion (s .stopped) 0).st = .stopped := by decide
theorem test_freezeWave_hyps : let s := sentWave (reg0 id) (wave .freeze 0 1)
    nextWave s .freeze = some (wave .freeze 0 1) ∧ bit (wave .freeze 0 1).warg.toNat 0 = true ∧ bit (wave .freeze 0 1).warg.toNat 63 = false ∧
    (getRegion s 0).st ≠ .empty ∧ (getRegion s 0).frozenAt = none ∧ ({ wave .freeze 0 1 with wrel := true } : Wave).wrel = true := by decide
theorem test_markWave_hyps : nextWave (sentWave State.reset (wave .timeMark 0 1000)) .timeMark = some (wave .timeMark 0 1000) := by decide

/-- Engine 0x4E's ring of port 0 with entries to fetch: the port is up, the ring enabled, completion area present. -/
def ringS (f : HRing → HRing) : State := setHost (ready State.reset) 0 { HostPort.reset with memEn := true, rings := [(0x4E, f { HRing.reset with en := true, rsize := 1, csize := 1, taila := 64 })] }
theorem test_fetch_hyps : let s := ringS id
    let w0 (opc : Nat) : W64 := word [(0, opc), (32, 7)]
    s.boot.mst = 5 ∧ s.power.pilot = 0 ∧ s.eng.txns.filter (txnLate s) = [] ∧ fetchPort s 0x4E = some 0 ∧ ringBytes (getRing s 0 0x4E) = 4096 ∧ ringAvail (getRing s 0 0x4E) = 64 ∧
    headerCheck s 0x4E 0 1 [w0 1, word [(56, 0x4E)], 0, 0, 0, 0, 0, 0] = none ∧ operandsClean [w0 1, word [(56, 0x4E)], 0, 0, 0, 0, 0, 0] 1 1 = true ∧
    headerCheck s 0x4E 0 1 [w0 0x99, word [(56, 0x4E)], 0, 0, 0, 0, 0, 0] = some 1 ∧ operandsClean [w0 1, 0, 1, 0, 0, 0, 0, 0] 1 1 = false ∧
    ringBytes (getRing s 0 0x4E) < (getRing (ringS fun r => { r with head := 4032 }) 0 0x4E).head + 64 * 2 := by decide
theorem test_fetch_wrap_hyps : let s := ringS fun r => { r with head := 4032, taila := 0 }
    fetchPort s 0x4E = some 0 ∧ 4032 + 64 * 1 = ringBytes (getRing s 0 0x4E) ∧ 64 * 1 ≤ ringAvail (getRing s 0 0x4E) := by decide
theorem test_nop_hyps : let s := withCmd State.reset (cmd 78 1 [] .ready)
    (getEng s 78).cmds = cmd 78 1 [] .ready :: [] ∧ waitOk s (cmd 78 1 [] .ready) = true ∧ s.boot.mst = 5 := by decide
theorem test_stageWr_hyps : let c (n a : Nat) : Cmd := cmd 0x4E 0x43 [0, 0, word [(0, n)], word [(0, a)]] .ready
    let s := withCmd State.reset (c 960 0x100000000000)
    maintNext s 0x43 = some (c 960 0x100000000000) ∧ s.eng.txns.filter (txnLate s) = [] ∧ bits (cmdWord (c 960 0) 0 2) 0 11 = 960 ∧ onWafer 0x100000000000 960 = some (0, 50, 0) ∧
    onWafer 0x200000000000 8 = some (0, 0, 0) ∧ inCode (setWick State.reset 0 0 { Wick.reset with ctx := [(0, word [(0, 1), (26, 63)])] }) 0 0 0x3FFF 1 = true ∧ fenced s 0 = false ∧ bits (cmdWord (c 968 0) 0 2) 0 11 = 968 := by decide
theorem test_stageCreg_hyps : let c : Cmd := cmd 0x4E 0x43 [0, 0, word [(0, 8), (63, 1), (41, 10999), (27, 10999)], word [(0, 504)]] .ready
    maintNext (withCmd State.reset c) 0x43 = some c ∧ bits (cmdWord c 0 2) 41 14 < nTiles ∧ bits (cmdWord c 0 3) 0 9 + 8 ≤ 512 ∧ bits (cmdWord c 0 3) 0 9 % 8 = 0 := by decide
theorem test_memberStaged_hyps : let img : Image := ⟨0, 0, 0, 0, []⟩
    let c := cmd 0 0x10 [] (.stage [.image 0 img ⟨0, 0⟩ 64 false])
    let s := withCmd (reg0 fun r => { r with st := .stopped }) c
    rectsOf s 0 = [] ∧ stagingCmd s 0 = some (c, [.image 0 img ⟨0, 0⟩ 64 false]) ∧ (getRegion s 0).st = .stopped ∧
    conflicts s 0 (chgTargets s (.image 0 img ⟨0, 0⟩ 64 false)) = false ∧ (getRegion s 0).heatHeld = false := by decide
theorem test_memberStaged_other_hyps : let c := cmd 0 0x15 [] (.stage [.step 0 7])
    rectsOf (withCmd (reg0 id) c) 0 = [] ∧ stagingCmd (withCmd (reg0 id) c) 0 = some (c, [.step 0 7]) := by decide

theorem test_hostRead_hyps : let c := cmd 0 0x10 [0, 0, 0, word [(62, 1), (0, 64)]] .image
    let s := withCmd State.reset c
    portTold s 0 = true ∧ s.eng.txns.filter (txnLate s) = [] ∧ curCmd s 0 = some c ∧ ldIsp c = 0 + 1 ∧ ldIlen c = 64 ∧ readImage 64 [] = none ∧ ringReady (ringS id) 0 0x4E = true := by decide

/-! ### Transactions -/

theorem test_txnBegin_hyps : let c (h limit : Nat) : Cmd := cmd 0x4E 0x40 [0, 0, word [(0, h), (32, limit)]] .ready
    let s := withCmd State.reset (c 2047 65535)
    maintNext s 0x40 = some (c 2047 65535) ∧ thnd (c 2047 65535) = 2047 ∧ txnAt s 0 2047 = none ∧ openTxns s 0 < 16 ∧ thnd (c 0 1) = 0 ∧
    16 ≤ openTxns { s with eng := { s.eng with txns := (List.range 16).map fun i => txn (i + 1) 0 .open_ fun x => { x with handle := i + 1 } } } 0 := by decide
/-- A transaction of handle 7 with a command on it. -/
def txnCmd (opc nmem : Nat) (f : Txn → Txn) : State :=
  addTxn (withCmd State.reset (cmd 0x4E opc [0, 0, word [(0, 7), (16, nmem)]] .ready)) (txn 9 0 .open_ fun x => f { x with handle := 7 })
theorem test_txnCommit_hyps : let s (n : Nat) (f : Txn → Txn) := txnCmd 0x41 n f
    (maintNext (s 1 id) 0x41).isSome = true ∧ (s 1 id).eng.txns.filter (txnLate (s 1 id)) = [] ∧ (txnAt (s 1 id) 0 7).map (·.tag) = some 9 ∧ (txnOf (s 1 id) 9).map (·.ph) = some .open_ ∧
    (txnOf (s 1 id) 9).map (·.count) = some 0 ∧ (txnOf (s 1 fun x => { x with count := 1 }) 9).map (fun x => (x.count, x.failSeq, x.chgs)) = some (1, none, []) ∧
    (txnOf (s 1 fun x => { x with count := 1, failSeq := some 3 }) 9).map (·.failSeq) = some (some 3) ∧
    txnAt (withCmd State.reset (cmd 0x4E 0x41 [0, 0, word [(0, 7), (16, 1)]] .ready)) 0 7 = none ∧ (s 1 id).eng.past.lookup 7 = none ∧
    ({ s 1 id with eng := { (s 1 id).eng with past := [(7, (.timeout, 0xA))] } } : State).eng.past.lookup 7 = some (.timeout, 0xA) := by decide
/-- Its time is past, and it is still open. -/
theorem test_txnCommit_late_hyps : let x := txn 9 0 .open_ fun x => { x with handle := 7, due := some 0 }
    let s := { txnCmd 0x41 1 fun x => { x with due := some 0 } with time := { State.reset.time with ticks := 9 } }
    (maintNext s 0x41).isSome = true ∧ txnAt s 0 7 = some x ∧ txnOf s 9 = some x ∧ x.closer = none ∧ s.eng.txns.filter (txnLate s) = [x] := by decide
theorem test_txnAbort_hyps : (maintNext (txnCmd 0x42 0 id) 0x42).isSome = true ∧ (txnCmd 0x42 0 id).eng.txns.filter (txnLate (txnCmd 0x42 0 id)) = [] ∧ (txnAt (txnCmd 0x42 0 id) 0 7).map (·.ph) = some .open_ ∧
    (txnAt (txnCmd 0x42 0 fun x => { x with ph := .closed }) 0 7).map (·.ph) = some .closed := by decide
theorem test_txnDeadline_hyps : let x := txn 4095 0 .closed fun x => { x with handle := 7, due := some 5, nmem := 1 }
    txnOf (withTxn State.reset x) 4095 = some x ∧ x.due = some 5 ∧ x.count < x.nmem ∧ x.handle ≠ 0 := by decide

/-! ### Counters -/

theorem test_ctrRead_hyps : let c : Cmd := cmd 0x4E 0x44 [0, 0, 0x1000, word [(62, 1), (48, 5), (14, 0), (0, 0)]] .ready
    let s := withCmd State.reset c
    maintNext s 0x44 = some c ∧ setWords 5 = some 17 ∧ dsp c = 0 + 1 ∧ bits (cmdWord c 0 3) 14 14 < nTiles ∧ bit (cmdWord c 0 3) 55 = false ∧
    bit (cmdWord c 0 3) 61 = false ∧ (∀ b ∈ ctrBlocks s 5 0 0, ctrStat s 5 b = 0) ∧ setWords 0 = none := by decide
theorem test_histRead_hyps : let c : Cmd := cmd 0x4E 0x45 [0, 0, 0x1000, word [(62, 2), (14, 10999), (13, 1), (0, 63)]] .ready
    let s := withCmd State.reset c
    maintNext s 0x45 = some c ∧ dsp c = 1 + 1 ∧ bits (cmdWord c 0 3) 14 14 < nTiles ∧ fenced s 10999 = false ∧
    c.port ≠ 1 := by decide
theorem test_lhistRead_hyps : let c : Cmd := cmd 0x4E 0x48 [0, 0, 0x1000, word [(62, 1), (61, 1), (16, 7), (0, 0x8001)]] .ready
    let s := withCmd State.reset c
    maintNext s 0x48 = some c ∧ dsp c = 0 + 1 ∧ dieIsPd 7 = true ∧ (List.range 16).filter (bit 0x8001) = [0, 15] ∧ dieFenced s 7 = false ∧
    (getPd s 5).inReset = false := by decide
theorem test_waveCommands_hyps : maintNext (withCmd State.reset (cmd 0x4E 0x46 [0, 0, 1] .ready)) 0x46 = some (cmd 0x4E 0x46 [0, 0, 1] .ready) ∧
    maintNext (withCmd State.reset (cmd 0x4E 0x4B [0, 0, 1] .ready)) 0x4B = some (cmd 0x4E 0x4B [0, 0, 1] .ready) ∧
    maintNext (withCmd State.reset (cmd 0x4E 0x4A [] .ready)) 0x4A = some (cmd 0x4E 0x4A [] .ready) := by decide
theorem test_traceSet_hyps : let c : Cmd := cmd 0x4E 0x49 [0, 0, 0x1000, word [(40, 1), (0, 1)], word [(14, 10999), (0, 0)]] .ready
    let s := withCmd State.reset c
    maintNext s 0x49 = some c ∧ s.trace.running = false ∧ s.trace.starting = false ∧ s.trace.stopping = false ∧ (0x1000 : Nat) % 4096 = 0 ∧
    inHbm s (0x1000 + 4096 - 1) = true ∧ bits (cmdWord c 0 4) 14 14 < nTiles := by decide
theorem test_traceStop_hyps : ({ State.reset with trace := { TraceSt.none with running := true } } : State).trace.stopping = false ∧
    ({ State.reset with trace := { TraceSt.none with ended := true } } : State).trace.running = false := by decide

/-! ### Memory-side dies and copies -/

/-- A request packet at MSD 23's attach port 7. -/
def atDie (d k : Nat) (b : Body) : Packet := ⟨qaMake 0 50 0, edgeMake d k 0, 0, 0, bodyCtl b, b, false, false, false, false, .die d k, 0, 0, 0, 0, []⟩
theorem test_msdRequest_hyps : let b : Body := .mwr 0 0 false .done [1] [false]
    let s := withPacket State.reset (atDie 31 7 b)
    (getPacket s 0).map (·.body) = some b ∧ (0 : Nat) < s.net.next ∧ dieFenced s 31 = false ∧ (getMsd s 23).inReset = false ∧
    overQuota 0 (getMsd s 23) ⟨0, 0, 1, 0, .write 0 0 0 [1] [false], none, false⟩ = false ∧
    overQuota 0 { Msd.reset with qw := [(5, word [(16, 1)])] } ⟨1, 5, 1025, 0, .read 0 0 0 1025, none, false⟩ = true ∧
    overQuota 0 { Msd.reset with qw := [(5, word [(16, 1)])] } ⟨1, 5, 1024, 0, .read 0 0 0 1024, none, false⟩ = false ∧ s.segKept.lookup 0 = none := by decide
/-- Requests in a queue. -/
def rq (cls : Nat) (w : MReq) : MsdReq := ⟨cls, 0, 32, 0, w, none, false⟩
theorem test_msdService_hyps : let r := rq 0 (.write 0 (edgeMake 8 0 0) 64 [1] [false])
    let s := modMsd (hbmS State.reset) 0 fun x => { x with queue := [rq 1 (.resilver 0), r, rq 2 (.resilver 0)] }
    (getMsd s 0).inReset = false ∧ (getMsd s 0).queue = [rq 1 (.resilver 0)] ++ r :: [rq 2 (.resilver 0)] ∧ r.cls = 0 ∧
    (∀ y ∈ [rq 1 (.resilver 0)], y.cls ≠ 0) ∧ (hbmAt s 64).isSome = true ∧ (match hbmAt s 64 with | some h => decide (writeTo s h = [0]) | none => false) = true ∧
    badWords (getMsd s 0) 64 32 = [] ∧ (getMsd s 0).bufErr = 0 ∧ (getMsd s 0).parErr = 0 ∧ nextReq (getMsd s 0) (bulkOpen s 0) = some 1 := by decide
theorem test_msdService_other_hyps : let r := rq 2 (.read 0 (edgeMake 8 0 0) 64 32)
    let q := rq 1 (.page 3 0)
    (∀ y ∈ [rq 1 (.resilver 0)] ++ r :: [], y.cls ≠ 0) ∧ (∀ y ∈ [rq 1 (.resilver 0)], y.cls ≠ 2) ∧ q.cls = 1 ∧ q.req < 128 ∧
    (let s := modMsd State.reset 0 fun x => { x with queue := [q], parErr := 2, bufErr := 2 }
     bulkOpen s 0 = true ∧ bulkTurn (getMsd s 0) = some 0 ∧ (∀ y ∈ (getMsd s 0).queue, y.cls = 1) ∧ nextReq (getMsd s 0) (bulkOpen s 0) = some 0) ∧
    bulkOpen { State.reset with power := { State.reset.power with memLim := 0 } } 0 = false := by decide
theorem test_hbmScrub_hyps : let s := setMsd State.reset 0 { Msd.reset with err := [(0, 2)], scrub := 0 }
    (getMsd s 0).inReset = false ∧ mget 0 (getMsd s 0).err 0 = 2 ∧ mirroredPage s 0 0 = false ∧
    stackWords s - 1 + 1 ≥ stackWords s := by decide
/-- A mirrored pair, MSDs 0 and 1, whose first member is being filled. -/
def pairS (k : Nat) : State := setMsd { State.reset with seg := [(0, word [(63, 1), (62, 1), (60, 1), (32, 3), (0, 2)], 0)] } 0 { Msd.reset with resilver := some k }
theorem test_resilver_hyps : (getMsd (pairS 0) 0).resilver = some 0 ∧ (getMsd (pairS 0) 0).inReset = false ∧ mirrorOf 0 = 1 ∧ (getMsd (pairS 0) 1).inReset = false ∧
    dieFenced (pairS 0) (dieMsd 1) = false ∧ rangePage (mirrorRanges (pairS 0) 0) 0 = some 0 ∧ rangePage (mirrorRanges (pairS 0) 0) 1 = some 1 ∧
    rangePage (mirrorRanges (pairS 0) 0) 2 = none := by decide

/-- A copy command with its descriptor, and an HBM fill of 32 bytes. -/
def copyCmd (d : List W64) (ph : CPh) : Cmd := cmd 0x40 0x20 (List.replicate 8 0 ++ d) ph
def fillDesc : List W64 := [word [(60, 3)], 0, 64, 32, 0, 0, 0, 0]
theorem test_copy_hyps : let c := copyCmd fillDesc .ready
    let s := withCmd (hbmS State.reset) c
    (getEng s 0x40).cmds.find? (fun c => c.ph = .ready) = some c ∧ ((getEng s 0x40).cmds.filter fun c => c.ph = .work).length < 4 ∧ waitOk s c = true ∧
    s.boot.mst = 5 ∧ s.copies = [] ∧ copyOk s fillDesc = true ∧ copyLeaks s fillDesc = false ∧ cdCop fillDesc ≠ 4 ∧ copyUnmapped s fillDesc = none ∧ copyUnmapped (withCmd State.reset c) fillDesc ≠ none ∧ (copyPages s 0 fillDesc).length = 1 ∧
    dieFenced s (dieMsd 0) = false ∧ overQuota 0 (getMsd s 0) ⟨0, 0, 32, 0, .page 0 0, none, false⟩ = false ∧ copyOk s [] = false := by decide
theorem test_copyLeak_hyps : let d : List W64 := [word [(60, 1), (47, 1)], 0, 0, 32, 0, 0, 0, 0]
    let s : State := { hbmS State.reset with seg := [(0, word [(63, 1), (61, 1), (32, 1), (0, 16)], 0)] }
    copyOk s d = true ∧ copyLeaks s d = true := by decide
/-- A page in service. -/
def pageS (d : List W64) (src dst : MAddr) (n : Nat) (data : Option (List (Byte × Bool))) : State :=
  { withCmd (hbmS State.reset) (copyCmd d .work) with copies := [⟨0, 0x40, 0, d, [⟨src, dst, n, 0, 0, data, some 1, some 2, none⟩], none⟩] }
theorem test_copyPage_hyps : let s := pageS fillDesc ⟨0, 0⟩ ⟨0, 64⟩ 32 none
    (match servedPage s 0 0 with
      | some (j, p) => decide (j.pages = [p]) && decide (cdCop j.desc ≠ 4) && decide (p.dst.space = 0) && decide (j.seg = none) && linkOpen s && !pageBad s p.msd 0 0 && ((getEng s j.eng).cmds.find? (·.id == 0)).isSome &&
        (match pageData s j p with
          | some (bs, o, s1) => decide (o = .done) && !anyPoi bs && (match pageWrite s1 p bs with | some (_, o) => decide (o = .done) | none => false)
          | none => false)
      | none => false) = true := by decide
def decDesc : List W64 := [word [(60, 4), (49, 1)], 0, 0, 4096, 0, 0, 0, 0]
/-- A page of the wafer waits while the links actuator holds it back. -/
theorem test_copyPage_held_hyps : let s := pageS fillDesc ⟨0, 0⟩ ⟨0, 0x100000000000⟩ 32 none
    (match servedPage s 0 0 with
      | some (j, p) => pageOnWafer s j p && !linkOpen { s with power := { s.power with linkLim := 0 } }
      | none => false) = true := by decide
theorem test_decrypt_hyps : let s := setMsd { pageS decDesc ⟨1, 0⟩ ⟨0, 0⟩ 4096 (some []) with island := { State.reset.island with slots := [(0, ⟨0, 0, 5⟩)] } } 0 { Msd.reset with keys := [(0, 5)] }
    (match servedPage s 0 0 with
      | some (j, p) => decide (j.pages = [p]) && decide (cdCop j.desc = 4) && decide (j.seg = none) && !pageBad s p.msd 0 0 && (match pageData s j p with
        | some (bs, o, s1) => decide (o = .done) && !anyPoi bs && decide ((getMsd s1 p.msd).keys.lookup 0 = some 5)
        | none => false)
      | none => false) = true := by decide

/-! ### Port dies -/

/-- A command of port die 0's engine. -/
def pdCmd (opc : Nat) (ws : List W64) : State := withCmd State.reset (cmd 0x48 opc ws .ready)
theorem test_wireFenced_hyps : let s : State := { pdCmd 0x30 [] with dieFence := 4 }
    (wireNext s 0 0x30).isSome = true ∧ dieFenced s (diePd 0) = true := by decide
theorem test_portCfg_hyps : let s := pdCmd 0x30 [0, 0, 15, word [(40, 1), (26, 9216), (16, 3), (12, 6)]]
    (wireNext s 0 0x30).isSome = true ∧ dieFenced s (diePd 0) = false ∧ (getPd s 0).inReset = false ∧
    pcfgOk (getPd s 0) 15 (word [(40, 1), (26, 9216), (16, 3), (12, 6)]) = true ∧ pcfgOk (getPd s 0) 15 (word [(26, 9217), (16, 3), (12, 6)]) = false ∧
    pcfgOk (getPd s 0) 0 (word [(26, 64), (16, 3), (12, 7)]) = true ∧ pcfgOk (getPd s 0) 1 (word [(26, 64), (16, 3), (12, 7)]) = false := by decide
theorem test_replayCfg_hyps : (wireNext (pdCmd 0x36 [0, 0, 1, word [(40, 1)]]) 0 0x36).isSome = true ∧ bits (word [(40, 1)]).toNat 36 4 = 0 := by decide
theorem test_instPut_hyps : let k : W64 := 0x1234
    let w : W64 := word [(63, 1), (0, qaMake 10999 0 7)]
    let s := pdCmd 0x31 [0, 0, 1, 0, 0, 0, 0, 0, k, w]
    (wireNext s 0 0x31).isSome = true ∧ instHeld s 0 0 = [] ∧ ieApt w = 0 ∧ bits w.toNat 43 11 = 0 ∧ qaTileForm (ieDq w) = true ∧
    instFind (getPd s 0).insts k = none ∧ ((instPlaces k).take 8).find? (fun l => (instAt (getPd s 0).insts l).isNone) ≠ none := by decide
/-- The two buckets of a key are full of its own candidates, so that only the stash is free. -/
theorem test_instFull_hyps : let k : W64 := 0x1234
    let x : SMap (W64 × W64) := ((instPlaces k).take 8).map fun l => (l, (k ^^^ 1, 0))
    (∀ l ∈ (instPlaces k).take 8, (instAt x l).isSome = true) ∧ ((List.range 64).map (stash0 + ·)).find? (fun l => (instAt x l).isNone) = some stash0 := by decide
theorem test_instDel_hyps : let k : W64 := 0x1234
    let x : SMap (W64 × W64) := [(stash0, (k, 0))]
    instFind x k = some (stash0, (k, 0)) ∧ (wireNext (pdCmd 0x32 [0, 0, 1, 0, 0, 0, 0, 0, k]) 0 0x32).isSome = true := by decide
/-- An entry of the stash moves to the place that a deleted one leaves. -/
theorem test_instDel_move_hyps : let k : W64 := 0x1234
    let l := 4 * (instBuckets k).1
    let x : SMap (W64 × W64) := [(l, (k, 0)), (stash0 + 63, (k ^^^ 0, 1))]
    instFind x k = some (l, (k, 0)) ∧ l < stash0 ∧ instAt x (stash0 + 63) = some (k, 1) ∧ instAt x stash0 = none ∧ (instBuckets k).1 = l / 4 := by decide
theorem test_tmpl_hyps : let img : List Byte := List.replicate 14 0 ++ [0x45, 0, 0, 0, 0, 0, 0, 0, 0, 17] ++ List.replicate 40 0
    let t : Tmpl := ⟨[word [(63, 1), (52, 60), (44, 14), (36, 34)], 0, 0, 0, 0, 0, 0, 0], img, 0⟩
    tmplOk t = true ∧ tmplOk { t with desc := [word [(63, 1), (52, 59), (44, 14), (36, 34)]] } = false ∧ tdTlen t ≤ t.img.length ∧ (wireNext (pdCmd 0x33 [0, 0, 1023]) 0 0x33).isSome = true ∧
    bit (cmdWord (cmd 0x48 0x33 [0, 0, word [(10, 1)]] .ready) 0 2) 10 = true := by decide
theorem test_guardParse_hyps : (wireNext (pdCmd 0x34 [0, 0, 15]) 0 0x34).isSome = true ∧ bits (wordOf [] 0) 48 15 = 0 ∧ bits (wordOf [] 0) 0 20 = 0 ∧
    (wireNext (pdCmd 0x35 [0, 0, word [(8, 1), (0, 255)]]) 0 0x35).isSome = true ∧ parseOk 0 = true ∧ 255 + 1 ≤ 256 := by decide

/-- Port 0 of port die 0: one lane, live, MTU 9,216. -/
def portS (w : W64) (f : Pd → Pd) : State := setPd (ready State.reset) 0 (f { Pd.reset with ports := [(0, { PdPort.reset with cfg := w, up := true })] })
def pcfg0 : W64 := word [(40, 1), (26, 9216), (22, 1), (16, 3), (12, 6)]
theorem test_frame_hyps : let s := portS pcfg0 id
    let data : List Byte := List.replicate 60 0
    portLive s 0 0 = true ∧ laneTaken (getPd s 0) 0 = false ∧ modeLanes (pcMode (getPort s 0 0).cfg) ≠ 4 ∧ isMacCtl data = false ∧ isPtp data = false ∧
    s.power.pilot = 0 ∧ (getEngine (getPd s 0) 0).wait = none ∧ (getEngine (getPd s 0) 0).frame = none ∧ portLive s 0 1 = false ∧
    isMacCtl (List.replicate 12 0 ++ [0x88, 0x08]) = true ∧ isPtp (List.replicate 12 0 ++ [0x88, 0xF7]) = true ∧ pcPtp (getPort s 0 0).cfg = true := by decide
/-- A frame under way. -/
def frm (w : W64) (n : Nat) (ok : Bool) : OutFrame := ⟨0, 0, w, List.replicate n 0, ok, 0, false, false⟩
theorem test_frameEnd_hyps : let s := portS pcfg0 fun x => { x with frames := [frm pcfg0 60 true], nextFrame := 1 }
    getFrame (getPd s 0) 0 = some (frm pcfg0 60 true) ∧ (frm pcfg0 60 true).ended = false ∧ pcCut pcfg0 = false ∧ pcCut (word [(23, 1)]) = true ∧
    60 + 4 ≤ pcMtu pcfg0 ∧ 60 + 4 > pcMtu (word [(26, 63)]) ∧ (getPd s 0).supps = [] ∧ logSize { LogRing.reset with cfg := word [(40, 1)] } ≠ 0 := by decide

/-- Parse engine 0 of port die 0 stands before a word; its frame has 60 bytes, and the engine has run `n` instructions. -/
def peS (w : W32) (e : ParseEng → ParseEng) : State :=
  portS pcfg0 fun x => { x with frames := [frm pcfg0 60 true], nextFrame := 1, store := [(0, w)], parsers := mset ParseEng.idle [] 0 (e { ParseEng.idle with frame := some 0 }) }
/-- A parse instruction word. -/
def piW (op a b n imm : Nat) : W32 := BitVec.ofNat 32 (op * 2 ^ 27 + a * 2 ^ 24 + b * 2 ^ 21 + n * 2 ^ 16 + imm)
theorem test_parse_hyps : ∀ op, op < 20 → let s := peS (piW op 7 7 4 56) fun e => { e with count := 127 }
    let e := getEngine (getPd s 0) 0
    e.frame.bind (getFrame (getPd s 0)) = some (frm pcfg0 60 true) ∧ piOp (mget 0 (getPd s 0).store e.pc).toNat = op ∧ e.count < 128 ∧ e.pc ≠ 255 ∧
    e.cur + piImm (piW op 7 7 4 56).toNat + piN (piW op 7 7 4 56).toNat ≤ 60 ∧ e.emits < 8 ∧ e.area.length + 4 ≤ 40 ∧ e.wait = none ∧ mget 0 (getPd s 0).err (pdParseKey e.pc) = 0 := by decide +kernel
/-- The store, or the entry that an event needs, cannot be read. -/
theorem test_parse_unread_hyps : let s := setPd (peS (piW 17 0 0 0 0) id) 0 { getPd (peS (piW 17 0 0 0 0) id) 0 with err := [(pdParseKey 0, 2)] }
    mget 0 (getPd s 0).err (pdParseKey 0) = 2 ∧
    (let x : Pd := { Pd.reset with insts := [(stash0, (0, word [(63, 1)]))], err := [(stash0, 2)] }
     instFind x.insts 0 = some (stash0, (0, word [(63, 1)])) ∧ mget 0 x.err stash0 = 2 ∧ (∀ i ∈ instPlaces 0, i ≠ stash0 → mget 0 x.err i = 0)) := by decide +kernel
theorem test_parse_limit_hyps : ∀ op, op < 20 → let s := peS (piW op 0 0 1 0) fun e => { e with count := 128 }
    let e := getEngine (getPd s 0) 0
    e.frame.bind (getFrame (getPd s 0)) = some (frm pcfg0 60 true) ∧ e.count ≥ 128 ∧ piOp (mget 0 (getPd s 0).store e.pc).toNat = op := by decide +kernel
theorem test_parse_edges_hyps : ¬ (57 + 4 ≤ 60) ∧ decBase (decodeFrame (List.replicate 60 0)) 3 = none ∧ decBase (decodeFrame (List.replicate 60 0)) 1 = some 12 ∧
    (getEngine (getPd (peS 0 fun e => { e with emits := 8, exts := 16, wait := some 0 }) 0) 0).emits = 8 ∧
    (getEngine (getPd (peS 0 fun e => { e with wait := some 0 }) 0) 0).wait.bind (getFrame (getPd (peS 0 id) 0)) = some (frm pcfg0 60 true) := by decide
theorem test_emit_hyps : let x : Pd := { Pd.reset with insts := [(stash0, (0, word [(63, 1)])), (stash0 + 1, (5, 0))] }
    instFind x.insts 0 = some (stash0, (0, word [(63, 1)])) ∧ ieEn (word [(63, 1)]) = true ∧ instFind x.insts 5 = some (stash0 + 1, (5, 0)) ∧ ieEn 0 = false ∧
    instFind x.insts 6 = none ∧ x.supps = [] ∧ (frm pcfg0 60 true).ended = false := by decide
/-- R391: `LD` of two bytes is big-endian. -/
theorem test_ld_big_endian : (match exec (.parseLd 0 0) (setPd (peS (piW 2 1 0 2 0) id) 0
      { getPd (peS (piW 2 1 0 2 0) id) 0 with frames := [{ frm pcfg0 60 true with data := [0x12, 0x34] }] }) with
    | .next s => peReg (getEngine (getPd s 0) 0) 1 == 0x1234
    | _ => false) = true := by decide

/-- An event. -/
def ev0 (id : Nat) : Ev := ⟨id, 0, 0, 0, 0, 0, 0, 0, false, false, 0, [], qaMake 0 0 0, 0, false, false, true, none, 0, none, none, false, true, false, false, false⟩
def evS (l : List Ev) : State := modBb (portS pcfg0 fun x => { x with evs := l, nextEv := 9, replay := { LogRing.reset with cfg := word [(40, 1)] } }) 2 0 fun x => { x with st := 3 }
theorem test_eventSend_hyps : let s := evS [ev0 1, { ev0 2 with lat := true }]
    (getPd s 0).inReset = false ∧ attachUp s (diePd 0) 0 = true ∧ (getPd s 0).evs = [ev0 1] ++ { ev0 2 with lat := true } :: [] ∧
    evSendable (getPd s 0) { ev0 2 with lat := true } = true ∧ (∀ y ∈ [ev0 1], y.lat = false) ∧ (∀ y ∈ [ev0 1], y.id ≠ 2) ∧ freeIndex (getPd s 0) = some 0 := by decide +kernel
theorem test_eventSend_plain_hyps : let s := evS [ev0 1]
    freeIndex (getPd s 0) = some 0 ∧ evSendable (getPd s 0) (ev0 1) = true ∧ (ev0 1).lat = false ∧ (∀ y ∈ (getPd s 0).evs, y.lat = false) := by decide +kernel
theorem test_eventTimeout_hyps : let s := evS [{ ev0 1 with since := some 7 }, { ev0 2 with idx := some 0, sentAt := 5 }]
    waitingEvent (getPd s 0) 1 = some { ev0 1 with since := some 7 } ∧
    (getPd s 0).evs.find? (fun e => e.id == 2 && e.idx.isSome && e.outc.isNone) = some { ev0 2 with idx := some 0, sentAt := 5 } ∧
    s.inc.windows = [] ∧ (ev0 1).replayOf = false ∧ logSize (getPd s 0).replay ≠ 0 := by decide
/-- A record that waits for its place in the replay ring of one page. -/
def rec0 : LogRec := ⟨0, List.replicate 32 1, none, false, false, 0⟩
theorem test_recordWrite_hyps : let s := hbmS (portS pcfg0 fun x => { x with replay := { LogRing.reset with cfg := word [(40, 1)], wait := [rec0] } })
    (getLog s 0 false).out = 0 ∧ logSize (getLog s 0 false) = 4096 ∧ (getLog s 0 false).wait.head? = some rec0 ∧ (getLog s 0 false).outage = false ∧
    logPlace 4096 (getLog s 0 false) 32 = some (none, 0) ∧ (∀ c ∈ blockCuts 0 32, (hbmAt s (logBase (getLog s 0 false) + c.1)).isSome = true) := by decide
theorem test_recordGap_hyps : let s := hbmS (portS pcfg0 fun x => { x with journal := { LogRing.reset with cfg := word [(40, 1)], outage := true, lost := 3 } })
    (getLog s 0 true).outage = true ∧ logPlace 4096 (getLog s 0 true) (gapRec true 3).length = some (none, 0) ∧ (getLog s 0 true).out = 0 := by decide
/-- A replay that has come to a record: an event record for tile 0. -/
def replayS (hdr : Nat) : State := modBb (portS pcfg0 fun x => { x with
  replay := { LogRing.reset with cfg := word [(40, 1)], recs := [⟨0, leBytes 8 hdr ++ List.replicate 24 0, none, false, false, 0⟩] },
  replays := [⟨63, 0, 0, 0, 0, 0, 0, false⟩], supps := [⟨63, 0, 10999⟩] }) 2 0 fun x => { x with st := 3 }
theorem test_replaySend_hyps : let s := replayS (2 ^ 37 + 2 ^ 32)
    let x := getPd s 0
    (replayOf x 63).map (·.next) = some 0 ∧ x.inReset = false ∧ (x.replay.recs[0 - x.replay.base]?).map (rrSend x 63) = some true ∧ freeIndex x = some 0 ∧
    (match x.replay.recs[0]? with | some c => evSendable { x with evs := x.evs ++ [rrEvent 0 x c] } (rrEvent 0 x c) && attachUp s (diePd 0) (rrEvent 0 x c).apt | none => false) = true ∧
    ((getPd (replayS (2 ^ 37)) 0).replay.recs[0]?).map (rrSend (getPd (replayS (2 ^ 37)) 0) 63) = some false := by decide +kernel

/-- A response of one word and the template it names: every row of Table 12.8 in turn. -/
def rspS (gate : Bool) (g : Guard) (f : Pd → Pd) (ws : List QEnt) : State :=
  withPacket (portS pcfg0 fun x => f { x with gate := gate, tmpls := [(0, ⟨[word [(63, 1), (20, 1)]], [], 0⟩)], guards := [(0, g)] })
    ⟨qaMake 0 0 0, edgeMake 2 0 0x800, 0, 0, true, .msg false ws, false, false, false, false, .die 2 0, 0, 0, 0, 0, []⟩
def guard1 : Guard := ⟨[word [(63, 1), (32, 1), (20, 1)]], 256000000, 0⟩
def rw0 : List QEnt := [⟨0, false, false⟩]
theorem test_response_hyps : let s := rspS false guard1 id rw0
    let x := getPd s 0
    let t := mget ⟨[], [], 0⟩ x.tmpls 0
    (getPacket s 0).isSome = true ∧ (0 : Nat) < s.net.next ∧ x.inReset = false ∧ edgeSub (edgeMake 2 0 0x800) = 0x800 ∧ tdTv t = true ∧
    mget 0 x.err (pdTmplKey 0) = 0 ∧ mget 0 x.err (pdGuardKey 0) = 0 ∧ bit (tdGmsk t) 0 = true ∧ tdInserts t = [] ∧ suppGroup x 0 = none ∧ x.gate = false ∧ portLive s 0 0 = true ∧ ggEn guard1 = true ∧ ggRate guard1 ≠ 0 ∧
    256000000 ≤ min (guard1.tok + ggRate guard1 * (nowPs s - guard1.at_)) (ggBurst guard1 * 256000000) := by decide
theorem test_response_rows_hyps : edgeSub (edgeMake 2 0 0x801) ≠ 0x800 ∧ (∃ q ∈ ([⟨0, false, false⟩, ⟨0, true, false⟩] : List QEnt).drop 1, q.poi = true) ∧
    bit (tdGmsk ⟨[word [(63, 1), (20, 1)]], [], 0⟩) (rwGgrp (word [(43, 15)]).toNat) = false ∧
    suppGroup (getPd (rspS false guard1 (fun x => { x with supps := [⟨3, 0, 0⟩] }) rw0) 0) 0 = some 3 ∧ (getPd (rspS true guard1 id rw0) 0).gate = true ∧
    (getPd (rspS false guard1 id rw0) 0).journal.wait = [] ∧ ¬ 256000000 ≤ min (255999999 + 0) (1 * 256000000) := by decide
theorem test_response_unread_hyps : let s (k : Nat) := rspS false guard1 (fun x => { x with err := [(k, 2)] }) rw0
    mget 0 (getPd (s (pdTmplKey 0)) 0).err (pdTmplKey 0) = 2 ∧ mget 0 (getPd (s (pdGuardKey 0)) 0).err (pdGuardKey 0) = 2 ∧
    mget 0 (getPd (s (pdGuardKey 0)) 0).err (pdTmplKey 0) = 0 := by decide
theorem test_response_bound_hyps : let g : Guard := ⟨[0, 5, 9], 0, 0⟩
    let w := 2 ^ 19 * 7 + 2 ^ 11 + 2 ^ 10
    boundOk g [⟨0, false, false⟩, ⟨9 * 2 ^ 56, false, false⟩] w = true ∧ boundOk g [⟨0, false, false⟩, ⟨10 * 2 ^ 56, false, false⟩] w = false := by decide +kernel

def outF : OutFrm := ⟨0, 0, 1, 0, rw0, 0, ⟨[], [], 0⟩, List.replicate 60 0, 0, 0⟩
/-- Port 0 with a response that waits, or one in transmission. -/
def txS (q : List OutFrm) (tx : Option OutFrm) (f : Pd → Pd) : State := setPd (ready State.reset) 0 (f { Pd.reset with gate := false, ports := [(0, { PdPort.reset with cfg := pcfg0, up := true, txq := q, tx := tx })] })
theorem test_grant_hyps : let s := txS [outF] none id
    (getPort s 0 0).txq = outF :: [] ∧ (getPort s 0 0).tx = none ∧ (getPort s 0 0).wgxTx = none ∧ (getPd s 0).gate = false ∧ portLive s 0 0 = true := by decide
theorem test_transmitted_hyps : let s := txS [] (some outF) fun x => { x with lat := [(68, 2 ^ 63)], journal := { LogRing.reset with cfg := word [(40, 1)] } }
    (getPort s 0 0).tx = some outF ∧ logSize (getPd s 0).journal ≠ 0 ∧ bit (mget 0 (getPd s 0).lat (latKey 0 68)) 63 = true := by decide
theorem test_portLink_hyps : let s := txS [] (some outF) id
    (getPort s 0 0).up = true ∧ (getPort s 0 0).txq = [] ∧ (getPort s 0 1).up = false ∧ portOn (getPd s 0) 1 = false ∧
    portOn (getPd s 0) 0 = true ∧ laneTaken (getPd s 0) 0 = false := by decide
/-- Port 0 of the host answers, and holds the semaphore when `h` is set. -/
def hostS (h : Bool) : State :=
  let s := setHost (ready State.reset) 0 { HostPort.reset with memEn := true }
  { s with sem := { s.sem with holder := if h then some 0 else none, token := 5 } }
theorem test_cdSnf_hyps : hostUp (hostS true) 0 = true ∧ (hostS true).sem.holder = some 0 ∧ nowPs (hostS true) ≤ (hostS true).sem.lease ∧ (hostS true).snuff.pin = false ∧ (hostS true).snuff.snf = true ∧
    (hostS false).sem.holder ≠ some 0 ∧ bit (4 : W32).toNat 1 = false ∧ bit (4 : W32).toNat 2 = true ∧ bit (2 : W32).toNat 1 = true := by decide
theorem test_snuffFrame_hyps : let s : State := { State.reset with snuff := { State.reset.snuff with frames := [(5, [false, true])] } }
    mget [] s.snuff.frames 5 = false :: [true] ∧ (getPd s 5).inReset = false := by decide

/-! ### WGX -/

def sess : List W64 := [word [(63, 1)], 0, word [(32, 256), (16, 64), (8, 1), (0, 1)], word [(48, 7), (0, 10)]]
/-- Session 31 of port die 0 is live. -/
def wgxS (f : Wgx → Wgx) (g : Pd → Pd) : State := modWgx (txS [] none g) 0 31 fun w => f { w with ws := sess, live := true }
def xfer (len : Nat) : WgxXfer := ⟨0, 0, len, 0, 0, 0, 0, 0, [], false, none, false, none, false, 0⟩
def wout (q : Nat) : WgxOut := ⟨q, 0, [1], false, 0, 0, 0, false, 3, 0, false, false, false⟩
theorem test_wgxSess_hyps : let c : Cmd := cmd 0x48 0x37 (List.replicate 8 0 ++ sess) .ready
    wireNext (withCmd State.reset c) 0 0x37 = some c ∧ (withCmd State.reset c).eng.txns.filter (txnLate (withCmd State.reset c)) = [] ∧ c.txh = 0 ∧ wgxOk 0 sess = true ∧ wgxOk 0 [] = false ∧ dieFenced (withCmd State.reset c) (diePd 0) = false := by decide
theorem test_wgxPush_hyps : let c : Cmd := cmd 0x48 0x38 [0, 0, 0, word [(40, 31), (0, 1)]] .ready
    let s := withCmd (wgxS id id) c
    wireNext s 0 0x38 = some c ∧ (getWgx s 0 31).live = true ∧ (getWgx s 0 31).failed = false ∧ bits (cmdWord c 0 3) 0 40 ≠ 0 ∧
    0 + 1 ≤ s.part.gib * 2 ^ 30 ∧ (getWgx s 0 31).push = none ∧ (getWgx (wgxS (fun w => { w with push := some (xfer 1) }) id) 0 31).push.isSome = true := by decide
theorem test_wgxSend_hyps : let s := hbmS (wgxS (fun w => { w with push := some (xfer 256) }) id)
    let w := getWgx s 0 31
    w.live = true ∧ w.failed = false ∧ wgxFree s 0 31 = true ∧ w.rstNow = false ∧ w.outs.find? (·.again) = none ∧ w.pull = none ∧ w.ackNow = false ∧
    w.push = some (xfer 256) ∧ (xfer 256).next < (xfer 256).len ∧ wgxRoom w = true ∧ linkOpen s = true ∧ linkOpen { s with power := { s.power with linkLim := 0 } } = false ∧ wsSeg w.ws = 256 := by decide
theorem test_wgxSend_read_hyps : (modRead (hbmS State.reset) (diePd 0) 0 256).2.1 = .done := by decide +kernel
theorem test_wgxSend_other_hyps : let s := wgxS (fun w => { w with outs := [{ wout 0 with again := true }], pull := some { xfer 8 with again := true }, ackNow := true }) id
    wgxFree s 0 31 = true ∧ (getWgx s 0 31).outs.find? (·.again) = some { wout 0 with again := true } ∧
    wgxRoom { Wgx.none with ws := sess, seqTx := 64 } = false ∧ wgxRoom { Wgx.none with ws := sess, seqTx := 63 } = true := by decide
theorem test_wgxRto_hyps : let s := wgxS (fun w => { w with outs := [wout 9], push := some (xfer 256) }) id
    let w := getWgx s 0 31
    w.live = true ∧ w.failed = false ∧ (getPd s 0).gate = false ∧ w.outs.find? (fun o => o.seq == 9 && !o.again && !o.held) = some (wout 9) ∧
    (wout 9).losses < wsRmax w.ws ∧ wsRmax w.ws ≤ 1 := by decide
theorem test_wgxRtoPull_hyps : let t : WgxXfer := { xfer 8 with sentAt := some 5 }
    let w := getWgx (wgxS (fun w => { w with pull := some t, due := some 6 }) id) 0 31
    w.pull = some t ∧ t.first = false ∧ t.again = false ∧ t.losses < wsRmax w.ws ∧ w.due = some 6 := by decide


/-! ### WGX receiving -/

/-- A frame of the session that `wgxS` holds. -/
def wFrm (typ seq ack ofs : Nat) (last : Bool) (pay : List Byte) : List Byte :=
  wgxFrame { Wgx.none with ws := sess, ackRx := ack } typ 0 false false last seq 0 0 ofs pay
/-- The state after the acknowledgement that every frame carries. -/
def ackedS (f : Wgx → Wgx) (ack : Nat) : State := wgxAcked (portCount (hbmS (wgxS f id)) 0 0 0) 0 31 ack 64
theorem test_wgxReaches_hyps : ∀ t ∈ [1, 2, 3, 4],
    portLive (wgxS id id) 0 0 = true ∧ (wgxParse (wFrm t 0 0 0 true [1, 2])).map (fun h => [h.typ, h.sid, h.seq, h.ofs]) = some [t, 7, 0, 0] ∧
    (wgxParse (wFrm t 0 0 0 true [1, 2])).map (·.pay) = some [1, 2] ∧ (wgxParse (wFrm t 0 0 0 true [1, 2])).map (·.last) = some true ∧
    sidOf (wgxS id id) 0 7 = some 31 := by decide +kernel
theorem test_wgxRefused_hyps : wgxParse [] = none ∧ wgxParse ((wFrm 1 0 0 0 true [1]).set 5 9) = none ∧ sidOf State.reset 0 7 = none ∧
    portLive State.reset 0 0 = false ∧ State.reset.inc.windows = [] := by decide +kernel
theorem test_wgxData_none_hyps : let w := getWgx (ackedS id 0) 0 31
    ¬ ((0 + 2 ^ 32 - w.ackRx) % 2 ^ 32 ≥ 2 ^ 31 ∨ w.heldRx.contains 0 = true) ∧ (64 + 2 ^ 32 - w.ackRx) % 2 ^ 32 ≤ 64 ∧
    (65 + 2 ^ 32 - w.ackRx) % 2 ^ 32 > 64 ∧ w.pull = none ∧ w.heldRx = [] ∧ w.ackRx = 0 := by decide +kernel
theorem test_wgxData_dup_hyps : let w := getWgx (ackedS (fun w => { w with ackRx := 1, heldRx := [3] }) 0) 0 31
    (0 + 2 ^ 32 - w.ackRx) % 2 ^ 32 ≥ 2 ^ 31 ∧ w.heldRx.contains 3 = true := by decide +kernel
theorem test_wgxData_written_hyps : let s := setEng (ackedS (fun w => { w with pull := some (xfer 2) }) 0) 0x48 ⟨[cmd 0x48 0x39 [] .work], 1⟩
    (getWgx s 0 31).pull = some (xfer 2) ∧ (xfer 2).tensor = 0 ∧ (xfer 2).step = 0 ∧ 0 + [(1 : Byte), 2].length ≤ (xfer 2).len ∧
    (modWrite s (diePd 0) ((xfer 2).addr + 0) ([(1 : Byte), 2].map fun b => (b, false))).map (·.2) = some .done ∧
    (getEng s (0x48 + 0)).cmds.find? (·.id == (xfer 2).cmd) = some (cmd 0x48 0x39 [] .work) ∧ (cmd 0x48 0x39 [] .work).eng = 0x48 + 0 := by decide +kernel
theorem test_wgxAck_hyps : let w := getWgx (ackedS (fun w => { w with seqTx := 5, outs := [wout 0, wout 1, wout 2, wout 3, wout 4] }) 0) 0 31
    let shown (o : WgxOut) : Bool := decide ((o.seq + 2 ^ 32 - (0 + 1)) % 2 ^ 32 < 64) && bit 7 ((o.seq + 2 ^ 32 - (0 + 1)) % 2 ^ 32)
    w.outs = [wout 0, wout 1, wout 2, wout 3, wout 4] ∧ (w.outs.map (·.seq)).Nodup ∧ (∀ o ∈ w.outs, o.losses < wsRmax w.ws) ∧
    shown (wout 1) = true ∧ shown (wout 0) = false ∧ shown (wout 4) = false ∧
    3 ≤ (w.outs.filter fun x => (x.held || shown x) && decide ((x.seq + 2 ^ 32 - w.ackTx) % 2 ^ 32 > 0)).length := by decide +kernel
theorem test_wgxPullFrame_hyps : let w := getWgx (wgxS (fun w => { w with seqTx := 1, outs := [wout 0], push := some { xfer 1 with next := 1 } }) id) 0 31
    (1 + 2 ^ 32 - w.ackTx) % 2 ^ 32 ≤ (w.seqTx + 2 ^ 32 - w.ackTx) % 2 ^ 32 ∧ (2 + 2 ^ 32 - w.ackTx) % 2 ^ 32 > (w.seqTx + 2 ^ 32 - w.ackTx) % 2 ^ 32 ∧
    (w.outs.filter fun o => decide ((o.seq + 2 ^ 32 - w.ackTx) % 2 ^ 32 ≥ 1)) = [] ∧ w.push = some { xfer 1 with next := 1 } ∧ w.pull = none := by decide +kernel

/-! ### Satellites and Brobry links -/

/-- Die `d` stands at a step of its training. -/
def dieS (d : Nat) (f : Die → Die) : State := setDie State.reset d (f Die.reset)
/-- The capability word of a die that is accepted. -/
def capW (d : Nat) : W64 := word [(60, 1), (48, 1), (36, slotClass d), (32, 7), (28, 12), (24, diePorts d), (20, 3), (16, 7), (8, 1)]
theorem test_dieReset_hyps : (2 : Nat) ≤ 31 ∧ (getDie State.reset 31).down = false ∧ dieIsMsd 31 = true ∧ dieIsPd 2 = true ∧ State.reset.inc.windows = [] := by decide
theorem test_dieReturn_hyps : (∀ d, d < 32 → 2 ≤ d → let s := dieS d fun x => { x with down := true, train := 7, cap := capW d }
    (getDie s d).down = true ∧ (getDie s d).train = 7 ∧ capMake (getDie s d) = 1) ∧
    (getMsd (setMsd State.reset 23 { Msd.reset with inReset := true }) 23).inReset = true := by decide +kernel
theorem test_dieLost_hyps : let s := dieS 31 fun x => { x with down := true, train := 6, downAt := 9 }
    (getDie s 31).down = true ∧ (getDie s 31).train ≠ 7 ∧ (getDie s 31).lost = false := by decide
theorem test_dieTraining_hyps : (∀ d, d < 32 → d ≠ 0 → capOk d (capW d).toNat = true ∧ capW d ≠ 0) ∧ capOk 8 (capW 2).toNat = false ∧
    (∀ k, k < 7 → (getDie (dieS 8 fun x => { x with train := k, down := true, cap := capW 8 }) 8).train = k) ∧
    (∀ p, p < diePorts 8 → 8 ≤ bbLanes (getBb State.reset 8 p)) ∧ 0 < diePorts 8 ∧
    bbLanes (getBb (modBb State.reset 8 0 fun b => { b with d0 := { b.d0 with lanes := 7 } }) 8 0) < 8 ∧
    ({ State.reset with boot := { State.reset.boot with step := 7 } } : State).boot.step = 7 ∧
    ({ State.reset with boot := { State.reset.boot with step := 3 } } : State).boot.step = 3 := by decide +kernel
/-- Port 7 of die 31 in a state. -/
def bbS (f : BbPort → BbPort) : State := modBb State.reset 31 7 f
theorem test_flit_hyps : let s := bbS fun b => { b with st := 3, d1 := { b.d1 with unacked := [(4095, []), (0, [])], expect := 1 } }
    let b := getBb s 31 7
    let y := bbDir b (1 - 0)
    b.st = 3 ∧ (bbDir b 0).unacked.length < 64 ∧ (bbDir b 0).next = (bbDir b 0).expect ∧
    slotsAfter (bbDir b 0).carry (([2, 3, 3, 3, 3, 3, 3, 3, 1] : List (Fin 4)).take 15) = some 0 ∧ slotsAfter (bbDir b 0).carry ([3] : List (Fin 4)) = none ∧
    y.unacked = (4095, []) :: [(0, [])] ∧ 0 < (y.expect + 4096 - 4095) % 4096 ∧ (y.expect + 4096 - 4095) % 4096 ≤ y.unacked.length := by decide +kernel
theorem test_flit_full_hyps : (bbDir (getBb (bbS fun b => { b with st := 3, d0 := { b.d0 with unacked := List.replicate 64 (0, []) } }) 31 7) 0).unacked.length = 64 := by
  decide +kernel
theorem test_replay_hyps : let x := bbDir (getBb (bbS fun b => { b with st := 3, d0 := { b.d0 with next := 1, unacked := [(0, [1])], since := 5, naked := true } }) 31 7) 0
    x.unacked ≠ [] ∧ x.naked = true ∧ (ackFlits x x.expect 5).unacked = [(0, [1])] ∧ (0 : Nat) = (ackFlits x x.expect 5).expect ∧ okAt [true] 0 = true ∧
    okAt [false] 0 = false ∧ slotsAfter x.carry ((([1] : List Nat).take 15).map fun c => Fin.ofNat 4 c) = some 0 := by decide +kernel
theorem test_retrain_hyps : (16 < (getBb (bbS fun b => { b with st := 3, d1 := { b.d1 with retries := 17 } }) 31 7).d1.retries) ∧
    (getBb (bbS fun b => { b with st := 4 }) 31 7).st = 4 ∧ 8 ≤ bbLanes (getBb (bbS fun b => { b with st := 4 }) 31 7) ∧
    bbLanes (getBb (bbS fun b => { b with st := 4, d0 := { b.d0 with lanes := 7 } }) 31 7) < 8 ∧
    (let b := getBb (bbS fun b => { b with st := 4 }) 31 7
     11 ∉ (bbDir b 0).gone ∧ 8 < bbLanes b ∧ (bbDir b 0).spare = false ∧ 12 ∉ (bbDir b 0).gone) ∧
    12 ∈ (bbDir (getBb (bbS fun b => { b with st := 4, d0 := { b.d0 with gone := [12] } }) 31 7) 0).gone ∧
    (bbDir (getBb (bbS id) 31 7) 0).gone = [] ∧ (bbDir (getBb (bbS id) 31 7) 0).spare = false ∧
    (bbDir (getBb (bbS fun b => { b with d0 := { b.d0 with spare := true, gone := [11] } }) 31 7) 0).gone = [11] ∧
    (bbDir (getBb (bbS fun b => { b with st := 4, d0 := { b.d0 with spare := true } }) 31 7) 0).spare = true := by decide +kernel

/-! ### Sideband -/

def sbS (f : SbDir → SbDir) (g : State → State) : State := g (modBb State.reset 31 7 fun b => { b with sbok := true, s0 := f b.s0, s1 := f b.s1 })
theorem test_numbered_hyps : let b := getBb (sbS id id) 31 7
    b.sbok = true ∧ (sbDir b 0).unacked.length < 8 ∧ (sbDir b 0).next = (sbDir b 0).expect ∧ (sbDir b 1).unacked.length < 8 ∧ (sbDir b 1).next = (sbDir b 1).expect ∧
    (sbDir (getBb (sbS (fun x => { x with next := 15 }) id) 31 7) 1).next ≠ (sbDir (getBb (sbS (fun x => { x with next := 15 }) id) 31 7) 1).expect ∧
    8 ≤ (sbDir (getBb (sbS (fun x => { x with unacked := List.replicate 8 (0, 0, 0, []) }) id) 31 7) 0).unacked.length ∧
    (getBb State.reset 31 7).sbok = false := by decide +kernel
/-- The Island holds a key in slot 15, and two MSDs owe an acknowledgement. -/
def keyS : State := sbS id fun s => { (modDie s 31 fun x => { x with cap := capW 31, keyPiece := [(61, []), (62, [])] }) with
  island := { s.island with slots := [(15, ⟨1, 2, 3⟩)], acks := some (4, 15, [30, 31]) } }
theorem test_key_hyps : keyS.island.acks = some (4, 15, [30, 31]) ∧ [30, 31].filter (· != 31) ≠ [] ∧ [31].filter (· != 31) = [] ∧ dieIsMsd 31 = true ∧
    capMake (getDie keyS 31) = 1 ∧ keyS.island.slots.lookup 15 = some ⟨1, 2, 3⟩ ∧ keyS.island.slots.lookup 0 = none ∧
    (∀ i, i < 3 → i ≠ 0 → ((getDie keyS 31).keyPiece.lookup (15 * 4 + i)).isSome = true) := by decide +kernel
theorem test_sback_hyps : let x := sbDir (getBb (sbS (fun x => { x with unacked := [(15, 0, 0, []), (0, 0, 0, [])], expect := 1 }) id) 31 7) 0
    x.unacked = (15, 0, 0, []) :: [(0, 0, 0, [])] ∧ 0 < (x.expect + 16 - 15) % 16 ∧ (x.expect + 16 - 15) % 16 ≤ x.unacked.length := by decide +kernel
theorem test_sbRepeat_hyps : let x := sbDir (getBb (sbS (fun x => { x with unacked := [(0, 0, 0, [])], repeats := 15 }) id) 31 7) 0
    x.unacked = [(0, 0, 0, [])] ∧ x.unacked ≠ [] ∧ okAt [true] 0 = true ∧ (0 : Nat) = x.expect ∧ 16 ≤ x.repeats + 1 ∧
    (sbDir (getBb (sbS id id) 31 7) 0).unacked = [] ∧ (sbDir (getBb (sbS id id) 31 7) 0).repeats + 1 < 16 := by decide +kernel
theorem test_waveFrame_hyps : let s := withTxn State.reset (txn 9 0 (.waved true) fun x => { x with chgs := [.guard 0 15 [7]] })
    let s : State := { s with lamp := { s.lamp with owed := [⟨2, wave .commit 9 0⟩] } }
    s.lamp.owed.find? (·.die == 2) = some ⟨2, wave .commit 9 0⟩ ∧ s.lamp.owed.find? (·.die == 3) = none ∧ (wave .commit 9 0).wtype = .commit ∧
    (txnOf s 9).map (·.chgs) = some [.guard (2 - 2) 15 [7]] ∧ dieIsPd 2 = true := by decide

/-! ### Host ports -/

def semS (f : Sem → Sem) : State :=
  let s := setHost (setHost (ready State.reset) 0 { HostPort.reset with memEn := true }) 1 { HostPort.reset with memEn := true }
  { s with sem := f s.sem }
theorem test_sem_hyps : hostUp (semS id) 0 = true ∧ hostUp (semS id) 1 = true ∧ (semS id).sem.holder = none ∧ (semS id).sem.tiew < 2 ∧
    hostUp State.reset 1 = false ∧ (getHost State.reset 1).linkUp = true ∧ (getHost State.reset 1).perst = false := by decide
theorem test_sem_held_hyps : let s := semS fun x => { x with holder := some 1, token := 65535, lease := 0 }
    nowPs s ≤ s.sem.lease ∧ s.sem.holder = some 1 ∧ (1 : Nat) ≠ 0 ∧ bits (65535#32).toNat 0 16 = s.sem.token ∧ nowPs s = s.sem.lease ∧
    bit (getHost s 0).cause 8 = false ∧ bit (getHost s 1).cause 9 = false := by decide
theorem test_sem_late_hyps : let s := advance (semS fun x => { x with holder := some 1, lease := 0 }) 1
    s.sem.holder = some 1 ∧ hostUp s 0 = true ∧ s.sem.lease < nowPs s := by decide +kernel
theorem test_ring_hyps : let s := ringS fun r => { r with cdly := 3, ctail := 32, cvec := 16, due := some 9, arm := true }
    let r := getRing s 0 0x4E
    hostUp s 0 = true ∧ r.en = true ∧ ¬ ((64#32).toNat % 64 ≠ 0 ∨ (64#32).toNat ≥ r.rsize * 4096) ∧ (4096#32).toNat ≥ r.rsize * 4096 ∧
    bits (0x80000000#32).toNat 0 20 ≠ r.ctail ∧ bit (0x80000000#32).toNat 31 = true ∧ r.cdly ≠ 0 ∧ r.due = some 9 ∧ r.arm = true ∧ 16 ≤ r.cvec ∧
    bit (getHost s 0).cause 7 = false := by decide
theorem test_ring_off_hyps : let s := ringS fun r => { r with en := false, rsize := 0 }
    let r := getRing s 0 0x4E
    r.en = false ∧ r.out = 0 ∧ bits (0x80000001#32).toNat 0 16 ≠ 0 ∧ r.csize ≠ 0 ∧ bits (0x80000000#32).toNat 0 16 = 0 ∧ r.cdly = 0 ∧ r.due = none := by decide
def vecS (cause mask : Nat) (l : List (Nat × Msix)) (p : SMap Bool) : State :=
  setHost (ready State.reset) 0 { HostPort.reset with memEn := true, msixEn := true, cause := cause, mask := mask, msix := l, pba := p }
theorem test_intMask_hyps : let h := getHost (vecS 1 0xFFFF [(2, ⟨0, 0, false⟩)] []) 0
    bit h.mask 0 = true ∧ bit (0xFFFE#32).toNat 0 = false ∧ bit h.cause 0 = true ∧ vecHeld h (causeVec 0) = false ∧
    bit h.cause 1 = false ∧ vecHeld (getHost (vecS 1 0xFFFF [] []) 0) (causeVec 0) = true := by decide
theorem test_msix_hyps : let s := vecS 1 0 [(2, ⟨0, 0, false⟩), (1023, ⟨0, 0, false⟩)] [(1023, true)]
    portTold s 0 = true ∧ s.boot.mst ≠ 0 ∧ (getHost s 0).pba = [(1023, true)] ∧ 6 ≤ 1023 ∧ causeOn (getHost s 0) 2 = true ∧ causeOn (getHost s 0) 3 = false ∧
    (getHost (vecS 1 0 [] [(2, true)]) 0).pba = [(2, true)] := by decide

/-! ### Registers, port resets -/

theorem test_registers_hyps : let s := ringS fun r => { r with en := false }
    hostUp s 0 = true ∧ s.inc.windows = [] ∧ (getRing s 0 0x4E).en = false ∧ (getRing s 0 0x4E).out = 0 ∧ (getRing s 0 0x4E).rbase % 4096 = 0 ∧
    (getMb s 0).busy = false ∧ ([1, 2, 3, 4] : List Byte).length = 4 ∧ 4076 % ([1, 2, 3, 4] : List Byte).length = 0 ∧
    4076 + ([1, 2, 3, 4] : List Byte).length ≤ 4080 ∧ s.sem.holder = none := by decide
theorem test_config_hyps : (getHost (ready State.reset) 1).linkUp = true ∧ (getHost (ready State.reset) 1).perst = false ∧
    ¬ ((ready State.reset).boot.step = 0 ∨ (ready State.reset).boot.mst = 0 ∨ (getHost (ready State.reset) 1).resetAt.isSome = true) ∧
    State.reset.boot.mst = 0 ∧ hostUp (ready State.reset) 1 = false := by decide
theorem test_flr_hyps : let s := semS fun x => { x with holder := some 0 }
    portTold s 1 = true ∧ s.boot.step ≠ 0 ∧ s.boot.mst ≠ 0 ∧ s.copies = [] ∧ s.sem.holder = some 0 ∧ (0 : Nat) ≠ 1 ∧ bit (getHost s 0).cause 14 = false ∧ nowPs s ≤ s.sem.lease := by decide
theorem test_portEnd_hyps : let s := setHost State.reset 1 { HostPort.reset with linkUp := false, perst := true }
    let s : State := { s with inc := { s.inc with pendInc2 := some 1 } }
    s.boot.step ≠ 0 ∧ mget true s.tc.pcie 1 = true ∧ portTold s 1 = false ∧ s.inc.pendInc2 = some 1 ∧ bit (getHost s 1).cause 2 = false ∧
    State.reset.inc.pendInc2 ≠ some 1 ∧ (getHost s 1).perst = true := by decide

/-! ### Mailboxes -/

def mbS (x : MbPort) (f : Mantle → Mantle) : State := { (semS id) with mantle := f { State.reset.mantle with mb := [(0, x)] } }
/-- A command that Mantle accepted, with its operand words. -/
def mbc (opc : Nat) (ws : List Nat) (ph : MbPh) : MbCmd := ⟨3, 0, 7, opc, mbSem opc, ws.flatMap (leBytes 8), 5, false, false, ph⟩
def mbR (opc : Nat) (ws : List Nat) : State := mbS MbPort.reset fun m => { m with cmds := [mbc opc ws .ready] }
theorem test_mbPost_hyps : let x := { MbPort.reset with qout := 7 }
    hostUp (mbS x id) 0 = true ∧ ¬ ((getMb (mbS x id) 0).busy = true ∨
      8 ≤ (getMb (mbS x id) 0).qout + (if (getMb (mbS x id) 0).reply.isSome then 1 else 0) + (getMb (mbS x id) 0).queue.length) ∧
    8 ≤ (getMb (mbS { x with qout := 8 } id) 0).qout ∧ bit (1#32).toNat 0 = true := by decide
def hdrFor (opc len : Nat) : MbPort := { MbPort.reset with busy := true, hdr := word [(32, 7), (16, len), (0, opc)] }
theorem test_mbCheck_hyps : (∀ x ∈ [hdrFor 0x21 520, hdrFor 0x21 528, hdrFor 0x21 12, hdrFor 4 0, hdrFor 0x49 0], (getMb (mbS x id) 0).busy = true) ∧
    mbLen 4 = none ∧ mbLen 0x21 = some (8, 520) ∧ mbState 0x49 (mbS (hdrFor 0x49 0) id).boot.mst = false ∧ mbLen 0x49 = some (0, 0) ∧
    mbState 0x21 5 = true ∧ mbSem 0x21 = true ∧ (mbS (hdrFor 0x21 520) id).sem.holder ≠ some 0 ∧ mbSem 2 = false ∧ mbState 2 5 = true ∧ mbLen 2 = some (0, 0) ∧
    (let s : State := { mbS (hdrFor 0x21 520) id with sem := { State.reset.sem with holder := some 0 } }
     s.sem.holder = some 0 ∧ nowPs s ≤ s.sem.lease) := by decide
def rep0 : MbReply := ⟨0, 7, false, .done, 0, [], false, some 3⟩
theorem test_mbReply_hyps : let s := mbS MbPort.reset fun m => { m with outbox := [rep0], cmds := [mbc 1 [] .done] }
    s.mantle.outbox = rep0 :: [] ∧ (getMb s 0).reply = none ∧ (getMb s 0).queue = [] ∧ bit (getHost s 0).cause 5 = false ∧
    (getMb (mbS { MbPort.reset with reply := some rep0 } id) 0).reply.isSome = true := by decide
/-- The deadline of the command that it answers is past. -/
theorem test_mbReply_late_hyps : let c : MbCmd := { mbc 1 [] .done with due := 0 }
    let s : State := { (mbS MbPort.reset fun m => { m with outbox := [rep0], cmds := [c] }) with time := { State.reset.time with ticks := 1 } }
    s.mantle.outbox = rep0 :: [] ∧ s.mantle.cmds.find? (fun c => rep0.cmd == some c.id) = some c ∧ c.port = rep0.port ∧ c.timedOut = false ∧
    c.discard = false ∧ (c.due + 6399) / 6400 < s.time.ticks ∧ (getMb s 0).reply = none ∧ (getMb s 0).queue = [] := by decide
theorem test_mbAck_hyps : (let s := mbS { MbPort.reset with reply := some rep0, queue := [rep0] } id
     hostUp s 0 = true ∧ (getMb s 0).reply = some rep0 ∧ (getMb s 0).queue = rep0 :: [] ∧ rep0.seq = (7#32).toNat) ∧
    (getMb (mbS { MbPort.reset with reply := some rep0 } id) 0).queue = [] := by decide
theorem test_mbReads_hyps : (∀ o ∈ [1, 2, 3, 0x10, 0x20, 0x39, 0x41, 0x50, 0x60, 0x73, 0x48, 0x58, 0x59, 0x62], mailNext (mbR o []) o = some (mbc o [] .ready)) ∧
    mailNext (mbR 0x11 [5]) 0x11 = some (mbc 0x11 [5] .ready) := by decide +kernel
theorem test_mbDeadline_hyps : let s := mbR 1 []
    s.mantle.cmds = [] ++ mbc 1 [] .ready :: [] ∧ (mbc 1 [] .ready).port = 0 ∧ (mbc 1 [] .ready).timedOut = false ∧ (mbc 1 [] .ready).discard = false ∧
    s.inc.windows = [] ∧ (getMb s 0).reply = none ∧ (getMb s 0).queue = [] := by decide
/-- One segment of 16 GiB at 0. -/
def segW : List Nat := [(word [(63, 1), (32, 1), (0, 16)]).toNat, 0]
theorem test_memmap_hyps : let c := mbc 0x21 ((2 ^ 8 + 31) :: segW) .ready
    let s := mbR 0x21 ((2 ^ 8 + 31) :: segW)
    let e : W64 × W64 := (BitVec.ofNat 64 (mbWord c 1), BitVec.ofNat 64 (mbWord c 2))
    mailNext s 0x21 = some c ∧ 0 < bits (mbWord c 0) 8 6 ∧ bits (mbWord c 0) 0 5 + bits (mbWord c 0) 8 6 ≤ 32 ∧ c.data.length = 8 + 16 * 1 ∧ segClean e = true ∧
    tableOk s ((List.range 32).map fun i => if i = 31 then keepDeg (0, 0) e else (0, 0)) = true ∧ segClean (word [(56, 1)], 0) = false ∧
    tableOk s [(word [(63, 1), (32, 1), (0, 16)], 0), (word [(63, 1), (32, 1), (0, 16)], 0)] = false ∧
    32 < bits (mbWord (mbc 0x21 [2 ^ 9 + 31] .ready) 0) 0 5 + bits (mbWord (mbc 0x21 [2 ^ 9 + 31] .ready) 0) 8 6 ∧ (mbc 0x21 [2 ^ 8] .ready).data.length ≠ 8 + 16 * 1 := by
  decide +kernel
theorem test_incring_hyps : let c := mbc 0x28 [2 ^ 62 * 2 + 4096, 65536] .ready
    let s := mbR 0x28 [2 ^ 62 * 2 + 4096, 65536]
    mailNext s 0x28 = some c ∧ ¬ (bits (mbWord c 0) 62 2 = 3 ∨ bits (mbWord c 0) 0 48 % 4096 ≠ 0 ∨ bits (mbWord c 1) 0 32 = 0 ∨ 65536 < bits (mbWord c 1) 0 32 ∨
      (bits (mbWord c 0) 62 2 = 0 ∧ s.part.gib * 2 ^ 30 < bits (mbWord c 0) 0 48 + bits (mbWord c 1) 0 32 * 4096)) ∧
    s.inc.store = [] ∧ portTold s 1 = true ∧ portTold (setHost s 1 { HostPort.reset with linkUp := false }) 1 = false ∧
    bits (mbWord (mbc 0x28 [0, 65537] .ready) 1) 0 32 = 65537 := by decide +kernel
theorem test_mbFence_hyps : (let c := mbc 0x30 [10999] .ready
     let s := mbR 0x30 [10999]
     mailNext s 0x30 = some c ∧ bit (mbWord c 0) 63 = false ∧ bits (mbWord c 0) 0 14 < nTiles ∧ fenced s (bits (mbWord c 0) 0 14) = false ∧
     ¬ nTiles ≤ 10999 ∧ nTiles ≤ 11000) ∧
    (let s := modTile (mbR 0x31 [5]) 5 fun x => { x with fence := 1 }
     mailNext s 0x31 = some (mbc 0x31 [5] .ready) ∧ fenced s 5 = true ∧ tileMdok s 5 = false ∧ tileMdok (modTile s 5 fun x => { x with fence := 257 }) 5 = true) := by decide +kernel
theorem test_mbFenceRegion_hyps : regionOf (reg0 id) 0 = some 0 ∧ (getRegion (reg0 id) 0).st ≠ .empty := by decide +kernel
theorem test_mbFenceDie_hyps : (let c := mbc 0x30 [2 ^ 63 + 31 * 2 ^ 16] .ready
     let s := mbR 0x30 [2 ^ 63 + 31 * 2 ^ 16]
     mailNext s 0x30 = some c ∧ bit (mbWord c 0) 63 = true ∧ bits (mbWord c 0) 16 8 = 31 ∧ unfenceCmd s 31 = none ∧ dieFenced s 31 = false ∧
     bits (mbWord (mbc 0x30 [2 ^ 63 + 32 * 2 ^ 16] .ready) 0) 16 8 = 32) ∧
    (let c := mbc 0x31 [2 ^ 63 + 2 * 2 ^ 16] .ready
     let s : State := { (mbR 0x31 [2 ^ 63 + 2 * 2 ^ 16]) with dieFence := 4 }
     mailNext s 0x31 = some c ∧ dieFenced s 2 = true ∧ unfenceCmd s 2 = none ∧ (getDie s 2).down = false ∧ (getDie s 2).test = false ∧
     (getDie (modDie s 2 fun x => { x with down := true }) 2).down = true) ∧
    (unfenceCmd (mbS MbPort.reset fun m => { m with cmds := [mbc 0x31 [2 ^ 63 + 2 * 2 ^ 16] .work] }) 2).isSome = true := by decide +kernel
theorem test_mbSnapSet_hyps : (∀ v ∈ [0, 10, 10000], mailNext (mbR 0x38 [v, 1, 2]) 0x38 = some (mbc 0x38 [v, 1, 2] .ready) ∧
     (bits (mbWord (mbc 0x38 [v, 1, 2] .ready) 0) 0 14 = 0 ∨
      (10 ≤ bits (mbWord (mbc 0x38 [v, 1, 2] .ready) 0) 0 14 ∧ bits (mbWord (mbc 0x38 [v, 1, 2] .ready) 0) 0 14 ≤ 10000))) ∧
    bits (mbWord (mbc 0x38 [9, 1, 2] .ready) 0) 0 14 = 9 ∧ bits (mbWord (mbc 0x38 [10001, 1, 2] .ready) 0) 0 14 = 10001 := by decide +kernel
theorem test_mbPcap_hyps : (∀ v ∈ [8000, 33000], let w := 2 ^ 31 + 0x24 * 2 ^ 16 + v
     let s := mbR 0x40 [w]
     mailNext s 0x40 = some (mbc 0x40 [w] .ready) ∧ (∀ x ∈ s.mantle.cmds, x.opc = 0x40 → x.ph = .ready ∨ x.ph = .done) ∧
     8000 ≤ bits (mbWord (mbc 0x40 [w] .ready) 0) 0 16 ∧ bits (mbWord (mbc 0x40 [w] .ready) 0) 0 16 ≤ 33000 ∧ bit (mbWord (mbc 0x40 [w] .ready) 0) 31 = true ∧
     (∀ k, k < 3 → bits 0x24 0 2 = k ∨ bits 0x24 2 2 = k ∨ bits 0x24 4 2 = k)) ∧ bits (mbWord (mbc 0x40 [33001] .ready) 0) 0 16 = 33001 := by decide +kernel
theorem test_mbPcap2_hyps : let c := mbc 0x40 [2 ^ 31] (.until_ 9)
    let s := mbS MbPort.reset fun m => { m with cmds := [c] }
    (s.mantle.cmds.find? fun x => x.opc == 0x0040 && (match x.ph with | .until_ _ => true | _ => false)) = some c ∧ c.ph = .until_ 9 ∧ bit (mbWord c 0) 31 = true := by decide
theorem test_mbSets_hyps : (∀ o ∈ [0x42, 0x52], mailNext (mbR o [2 ^ 31 + 1]) o = some (mbc o [2 ^ 31 + 1] .ready) ∧ bit (mbWord (mbc o [2 ^ 31 + 1] .ready) 0) 31 = true ∧
     bits (mbWord (mbc o [2 ^ 31 + 1] .ready) 0) 0 4 ≠ 0) ∧ bits (mbWord (mbc 0x42 [2 ^ 31] .ready) 0) 0 4 = 0 ∧
    (let ws := (settingsDefault 1).map (·.toNat)
     let c := mbc 0x61 ws .ready
     mailNext (mbR 0x61 ws) 0x61 = some c ∧ recordOk (mbR 0x61 ws) ((List.range 8).map fun i => BitVec.ofNat 64 (mbWord c i)) = true ∧
     recordOk (mbR 0x61 ws) [] = false) := by decide +kernel
theorem test_mbSnuff_hyps : (mbR 0x59 []).snuff.pin = false ∧ ({ (mbR 0x59 []) with snuff := ⟨true, 0, true, 0, []⟩ } : State).snuff.pin = true := by decide

/-! ### Firmware update -/

theorem test_updStage_hyps : let c := mbc 0x70 [64, 2 ^ 26] .ready
    let s := mbR 0x70 [64, 2 ^ 26]
    mailNext s 0x70 = some c ∧ s.fw.rbank < 2 ∧ ¬ (mbWord c 0 % 64 ≠ 0 ∨ bits (mbWord c 1) 62 2 = 3 ∨ 2 ^ 26 < bits (mbWord c 1) 0 32) ∧
    ¬ (s.fw.trial = true ∨ s.fw.stageCmd.isSome = true ∨ s.fw.resetDue.isSome = true) ∧
    2 ^ 26 < bits (mbWord (mbc 0x70 [64, 2 ^ 26 + 1] .ready) 1) 0 32 := by decide +kernel
/-- A package of 544 bytes whose six components are empty. -/
def pkg : List Byte :=
  [2 ^ 48 * 6 + 2 ^ 32 + 0x32575153, 544 * 2 ^ 32 + 9, 0, 0, 0, 0, 0, 0].flatMap (leBytes 8) ++
  ((List.range 6).flatMap fun i => leBytes 8 ((i + 1) * 2 ^ 56) ++ leBytes 8 0 ++ List.replicate 48 0) ++ List.replicate 96 0
def updS (bs : List Byte) : State :=
  let s := mbS MbPort.reset fun m => { m with cmds := [mbc 0x70 [0, 2 ^ 62 + bs.length] .work] }
  { s with fw := { s.fw with stageCmd := some 3, staged := bs } }
theorem test_updDone_hyps : let s := updS [1]
    let c := mbc 0x70 [0, 2 ^ 62 + 1] .work
    s.mantle.cmds.find? (fun c => s.fw.stageCmd == some c.id) = some c ∧ s.fw.rbank < 2 ∧ stagedBytes s c = some [1] ∧ stagedBytes State.reset c = none ∧
    pkCheck s [1] 1 = some 5 := by decide +kernel
/-- Where the root key's signature verifies and the digests are those of the manifest, the package passes. -/
theorem test_pkCheck_hyps : (∀ l, Config.sha384 l = List.replicate 48 0) → (∀ k a b, Config.rootSig k a b = true) → pkCheck (updS pkg) pkg 544 = none := by
  intro h g
  unfold pkCheck pkSigned
  simp only [h, g]
  decide +kernel
def bankS (a b : Nat) (f : Fw → Fw) (opc : Nat) : State :=
  let s := mbR opc [9]
  { s with fw := f { s.fw with banks := [(0, { Bank.active with st := a }), (1, { Bank.active with st := b, setver := 9 })] } }
theorem test_updActivate_hyps : let s := bankS 3 1 id 0x71
    let c := mbc 0x71 [9] .ready
    mailNext s 0x71 = some c ∧ s.fw.rbank < 2 ∧ s.fw.stageCmd = none ∧
    ¬ ((getBank s 1).st ≠ 1 ∨ (getBank s 1).setver ≠ bits (mbWord c 0) 0 32 ∨ (getBank s 0).st ≠ 3) ∧ (getBank (mbR 0x71 [9]) 1).st ≠ 1 := by decide +kernel
theorem test_resetDue_hyps : let s := bankS 4 2 (fun f => { f with resetDue := some 7, trial := true, sel := 1 }) 0x72
    s.fw.resetDue = some 7 ∧ inResetNow s = false ∧ s.boot.resetAt = none ∧ s.fw.trial = true ∧ s.fw.sel < 2 := by decide
theorem test_updConfirm_hyps : let s := bankS 4 2 (fun f => { f with rbank := 1, trial := true }) 0x72
    let c := mbc 0x72 [9] .ready
    mailNext s 0x72 = some c ∧ ¬ (s.fw.trial = false ∨ (runBank s).setver ≠ bits (mbWord c 0) 0 32) ∧ nowPs s ≤ s.fw.trialDue ∧ s.boot.mst = 5 ∧
    versionsOk s = true ∧ s.fw.rbank < 2 ∧ s.mantle.cmds = [] ++ c :: [] ∧ s.fw.trialDue < nowPs (advance s 1) := by decide +kernel

/-! ### The Security Island -/

def isl (opc : Nat) (ws : List Nat) (f : Island → Island) : State := { (mbR opc ws) with island := f State.reset.island }
theorem test_sec_hyps : ∀ o ∈ [0x100, 0x101, 0x102, 0x111, 0x112, 0x120, 0x121, 0x130, 0x131, 0x132, 0x140, 0x150],
    mailNext (isl o [8] id) o = some (mbc o [8] .ready) ∧ (isl o [8] id).island.err = false ∧
    (isl o [8] fun x => { x with err := true }).island.err = true := by decide +kernel
def importW : List Nat := 15 :: List.replicate 18 0
/-- What the key unwraps to is a free value: both clauses of the statement have one of these operands. -/
theorem test_keyImport_hyps : mailNext (isl 0x110 importW id) 0x110 = some (mbc 0x110 importW .ready) ∧ (isl 0x110 importW id).island.err = false ∧
    (isl 0x110 importW id).island.slots.lookup 15 = none ∧ (isl 0x110 importW id).island.unlocked = false ∧ keyDies (isl 0x110 importW id) = [] ∧
    keyDies (setDie (isl 0x110 importW id) 31 { Die.reset with cap := capW 31 }) ≠ [] ∧
    ((isl 0x110 importW fun x => { x with slots := [(15, ⟨1, 2, 3⟩)] }).island.slots.lookup 15).isSome = true ∧
    (isl 0x110 importW fun x => { x with unlocked := true }).island.unlocked = true := by decide +kernel
theorem test_keyImport_cases (a b : Nat) (x y : List Byte) : Config.keyUnwrap a b x y = none ∨ ∃ k, Config.keyUnwrap a b x y = some k := by
  cases Config.keyUnwrap a b x y with
  | none => exact .inl rfl
  | some k => exact .inr ⟨k, rfl⟩
theorem test_random_hyps : (∀ n ∈ [8, 4080], bits (mbWord (mbc 0x120 [n] .ready) 0) 0 12 = n ∧ n % 8 = 0) ∧ bits (mbWord (mbc 0x120 [4088] .ready) 0) 0 12 = 4088 ∧
    mwf Msd.reset State.reset.msds = true ∧ State.reset.boot.step ≠ 0 := by decide +kernel
def unlockS (f : Island → Island) : State := isl 0x131 (List.replicate 24 0) fun x => f { x with chal := some ([1], 0) }
theorem test_debugMatch_hyps : (∀ l, Config.sha384 l = Config.debugDigest 1) → (∀ a b c, Config.debugSig a b c = true) → Config.debugDigest 1 ≠ Config.debugDigest 0 →
    debugMatch (unlockS id) (mbc 0x131 (List.replicate 24 0) .ready) = some 1 := by
  intro h g n
  have h2 : (Config.debugDigest 1 == Config.debugDigest 0) = false := by simp [n]
  have h1 : ¬ nowPs (unlockS id) > 0 := by decide
  simp [debugMatch, unlockS, isl, h, g, h2, List.find?] at h1 ⊢
  exact h1
theorem test_debugFails_hyps : (∀ a b c, Config.debugSig a b c = false) → debugMatch (unlockS id) (mbc 0x131 (List.replicate 24 0) .ready) = none ∧
    (unlockS id).island.fails < 3 ∧ 3 ≤ (unlockS fun x => { x with fails := 3 }).island.fails := by
  intro g
  refine ⟨?_, by decide, by decide⟩
  simp [debugMatch, unlockS, isl, g]
theorem test_debugNone_hyps : debugMatch (isl 0x131 (List.replicate 24 0) id) (mbc 0x131 (List.replicate 24 0) .ready) = none := by decide
theorem test_revoke_hyps : (3 < 4 ∧ 3 ≠ bits (mbWord (mbc 0x150 [0] .ready) 0) 0 2 ∧ bit (isl 0x150 [0] id).island.revoked 3 = false) ∧
    (∀ k, k < 4 → ¬ (k < 4 ∧ k ≠ bits (mbWord (mbc 0x150 [0] .ready) 0) 0 2 ∧ bit (isl 0x150 [0] fun x => { x with revoked := 14 }).island.revoked k = false)) := by decide +kernel
theorem test_revoke_cases (d b : List Byte) : Config.rootSig 3 d b = true ∨ Config.rootSig 3 d b = false := by cases Config.rootSig 3 d b <;> simp
theorem test_tamper_hyps : State.reset.boot.tamperDue = false ∧ bladesOn State.reset = 8 ∧ State.reset.boot.input = true ∧
    bladesOn ({ State.reset with power := { State.reset.power with blades := [(7, ⟨2000, 0⟩)] } } : State) < 8 := by decide

/-! ### Incidents and recovery -/

def incS (k : Nat) (i : Inc) (f : IncPath → IncPath) (m : Mantle → Mantle) : State :=
  { (ready State.reset) with inc := f { State.reset.inc with sources := [(k, [i])] }, mantle := m State.reset.mantle }
def inc0 (cls tile : Nat) : Inc := mkInc cls 1 0 tile 0 0
theorem test_accept_hyps : let s := incS 5 (inc0 0x0301 5) id id
    (s.inc.ring.placed = false ∨ s.inc.ring.bad = true) ∧ nextSource s = some 5 ∧ mget [] s.inc.sources 5 = inc0 0x0301 5 :: [] ∧ s.trace.running = false ∧
    (inc0 0x0301 5).cls ∉ [0x0840, 0x0620, 0x0608, 0x0220, 0x0612, 0x0604, 0x0203, 0x0464, 0x0613, 0x0920] ∧ s.inc.store.length < 256 ∧
    nextSource State.reset = none ∧ s.cdErr = 0 ∧ s.trace.held = [] := by decide
theorem test_cdErr_hyps : ∀ e : Fin 3, let s : State := { State.reset with cdErr := e }
    s.inc.ring.placed = false ∧ s.inc.sources = [] ∧ s.inc.windows = [] ∧ s.inc.store.length < 256 ∧ (e ≠ 0 → s.cdErr = 1 ∨ s.cdErr = 2) := by decide
theorem test_accept_full_hyps : 256 ≤ (incS 5 (inc0 0x0301 5) (fun x => { x with store := List.replicate 256 (1, inc0 0x0301 5) }) id).inc.store.length := by decide +kernel
theorem test_accept_ring_hyps : let s := incS 5 (inc0 0x0301 5) (fun x => { x with ring := ⟨true, ⟨1, 4096⟩, 4096, 63, true, false⟩ }) id
    s.inc.ring.placed = true ∧ s.inc.ring.bad = false ∧ s.inc.ring.at_.space = 0 + 1 ∧ s.inc.store = [] ∧ nextSource s = some 5 ∧
    s.inc.ring.idx + 1 ≥ s.inc.ring.size / 64 ∧ (inc0 0x0301 5).cls ≠ 0x0A09 := by decide
/-- Region 0, at tile 0, has its group in `AUTOMASK`. -/
def autoS (i : Inc) (r : List Recov) : State :=
  { (incS 0 i id fun m => { m with snap := { m.snap with automask := 1 }, recov := r }) with regions := [(0, { Region.none with st := .running })] }
theorem test_accept_group_hyps : let i := { inc0 0x0203 0 with rgv := true }
    let s := autoS i []
    mget [] s.inc.sources 0 = i :: [] ∧ eligible s (rgGrp (getRegion s 0)) = true ∧ recovering s (rgGrp (getRegion s 0)) = false ∧ eligible (incS 0 i id id) 0 = false ∧
    recovering (autoS i [⟨0, 2, noTile, 4, 0, 0, 0, 0, 0⟩]) 0 = true ∧ (inc0 0x0604 0).cls = 0x0604 := by decide +kernel
theorem test_accept_tile_hyps : let i := inc0 0x0840 0
    let s := autoS i []
    i.tile < nTiles ∧ fenced s i.tile = false ∧ (∀ x ∈ s.mantle.recov, x.tile ≠ i.tile) ∧ regionOf s i.tile = some 0 ∧ spareOpen s i.tile = true ∧
    eligible s (rgGrp (getRegion s 0)) = true ∧ regionOf (incS 0 i id id) i.tile = none ∧
    spareOpen (modTile s 0 fun x => { x with colmap := 0 }) 0 = false := by decide +kernel
theorem test_window_hyps : let s := incS 5 (inc0 0x0701 5) (fun x => { x with windows := [⟨0, 0x0701, 0, 1, 5, 0, some (inc0 0x0701 5), 2, 0⟩] }) id
    s.inc.windows = ⟨0, 0x0701, 0, 1, 5, 0, some (inc0 0x0701 5), 2, 0⟩ :: [] ∧ 0 < perTick s ∧ (mget [] s.inc.sources (incSource (inc0 0x0701 5))).length < 8 := by decide +kernel
theorem test_tileProbe_hyps : bit (getTile (modTile State.reset 10999 fun x => { x with fence := 0x300 }) 10999).fence.toNat 9 = true ∧
    bit (getTile (modTile State.reset 10999 fun x => { x with fence := 0x300 }) 10999).fence.toNat 8 = true ∧ (getField State.reset (fieldOf 10999)).meshOff = false ∧
    fenced State.reset 10999 = false := by decide +kernel
theorem test_snapshots_hyps : let s := ready State.reset
    s.mantle.snap.snapp ≠ 0 ∧ s.boot.mst = 5 ∧ s.power.pilot = 0 ∧ State.reset.boot.mst ≠ 5 := by decide
def recS (step kind : Nat) (f : SnapPol → SnapPol) : State :=
  { (ready (reg0 id)) with mantle := { State.reset.mantle with recov := [⟨0, kind, 0, step, 0, 0, 0, 0, 0⟩], snap := f State.reset.mantle.snap } }
theorem test_recoveryStart_hyps : let s := recS 0 1 fun m => { m with best := [(0, 4)] }
    s.mantle.recov = [] ++ ⟨0, 1, 0, 0, 0, 0, 0, 0, 0⟩ :: [] ∧ (∀ r ∈ groupRegions s 0, (getRegion s r).frozenAt = none) ∧ s.mantle.snap.out = [] ∧
    s.mantle.snap.best.lookup 0 = some 4 ∧ groupRegions s 0 = [0] ∧ (getRegion s 0).st ≠ .empty ∧ (recS 0 2 id).mantle.snap.best.lookup 0 = none := by decide
theorem test_spareTest_hyps : let s := recS 2 1 id
    s.mantle.recov = [] ++ ⟨0, 1, 0, 2, 0, 0, 0, 0, 0⟩ :: [] ∧ (∀ x ∈ (recS 2 2 id).mantle.recov, ¬ (x.step = 2 ∧ x.kind = 1)) ∧
    (∀ x ∈ (recS 1 1 id).mantle.recov, x.step ≠ 0) := by decide
def rp0 : Replay := ⟨0, 0, 0, 0, 0, 0, 0, false⟩
/-- Every port die replays for group 0, its ring off. -/
def caughtS (f : Nat → Pd → Pd) : State := (List.range 6).foldl (fun s d => setPd s d (f d { Pd.reset with replays := [rp0] })) (recS 8 1 id)
theorem test_caught_hyps : let s := caughtS fun _ x => x
    (∃ x ∈ s.mantle.recov, x.group = 0 ∧ x.step = 8) ∧ (∀ d, d < 6 → replayAtTail (getPd s d) 0 = true) ∧
    ¬ (∃ d, d < 6 ∧ ((replayOf (getPd s d) 0 = some rp0 ∧ logSize (getPd s d).replay ≠ 0 ∧ (getPd s d).replay.outage = true) ∨
      (replayOf (getPd s d) 0 = none ∧ dieFenced s (diePd d) = false))) ∧ (∀ d, d < 6 → unmatched (getPd s d) rp0 = none) := by decide +kernel
theorem test_caught_lost_hyps : let s := caughtS fun d x => if d = 5 then { x with replays := [] } else x
    replayOf (getPd s 5) 0 = none ∧ dieFenced s (diePd 5) = false ∧ replayAtTail (getPd s 5) 0 = true ∧
    replayAtTail { Pd.reset with replays := [rp0], replay := { LogRing.reset with wait := [rec0] } } 0 = false := by decide +kernel
/-- An event record of the ring, and a journal record of a response to its delivery that nothing matched. -/
def rec1 : LogRec := ⟨0, leBytes 8 (2 ^ 37 + 2 ^ 32) ++ List.replicate 24 0, none, false, false, 0⟩
def jrn : Pd :=
  { Pd.reset with
    replays := [rp0], supps := [⟨0, 0, 10999⟩],
    journal := { LogRing.reset with recs := [⟨0, List.replicate 32 0, none, false, false, 0⟩] },
    replay := { LogRing.reset with recs := [rec1] } }
theorem test_caught_odd_hyps : logSize jrn.replay = 0 ∧ replayOf jrn 0 = some rp0 ∧ (unmatched jrn rp0).isSome = true := by decide +kernel

/-! ### Power, points, heat -/

def fieldS (f : FieldSt → FieldSt) : State := setField (ready State.reset) 99 (f { FieldSt.reset with plA := true, plB := true, vcmp := 900, vmsh := 900 })
theorem test_bladeMeasurement_hyps : let s : State := { (fieldS id) with power := { State.reset.power with samples := List.replicate 9 40000 } }
    overFast { s with power := { s.power with samples := 40000 :: s.power.samples } } = true ∧ s.power.fastAt = none ∧ (∀ e ∈ s.fields, e.2.fast = false) ∧
    overFast State.reset = false := by decide +kernel
/-- The average of a measurement below, at and above the cap. -/
theorem test_bladeMeasurement_cap_hyps : let now (l : List (Nat × Nat)) := l.foldl (fun n v => n + v.1 * v.2) 0 / 1000
    now [] < State.reset.power.pcap ∧ now [] = ({ State.reset with power := { State.reset.power with pcap := 0 } } : State).power.pcap ∧
    State.reset.power.pcap < now (List.replicate 8 (65535, 65535)) ∧ atLimit State.reset = false := by decide +kernel
theorem test_overAlert_hyps : let s : State := 
      { State.reset with
        power := { State.reset.power with linkLim := 0, memLim := 0, opmask := 2, overAt := some 0 }
        fields := (List.range 100).map fun f => (f, { FieldSt.reset with powBud := 0 }) }
    atLimit s = true ∧ s.power.overAt = some 0 ∧ s.power.overAlert = false ∧ nowPs s < 0 + 100000000000 ∧ 0 + 100000000000 ≤ nowPs (advance s 15625000) := by decide +kernel
theorem test_recheck_hyps : let s : State := { State.reset with power := { State.reset.power with fastAt := some 3 } }
    s.power.fastAt = some 3 ∧ State.reset.power.fastAt = none := by decide
theorem test_loop_hyps : (ready State.reset).boot.mst = 5 ∧ (ready State.reset).power.pilot = 0 ∧ bit (ready State.reset).power.opmask 3 = true ∧ State.reset.boot.mst ≠ 5 ∧
    pordOk 0x24 = true := by decide
theorem test_budget_hyps : min (getField (fieldS fun x => { x with powBud := 512 }) 99).powBud (getField (fieldS fun x => { x with powBud := 512 }) 99).heatBud ≠
    (getField (fieldS fun x => { x with powBud := 512 }) 99).ibud ∧ min (getField (fieldS id) 99).powBud (getField (fieldS id) 99).heatBud = (getField (fieldS id) 99).ibud := by decide
/-- The thresholds of Table 18.8 rise; a field, an MSD and a port die take each step at its boundary. -/
theorem test_steps_hyps : (∀ i j : Fin 6, 1 ≤ i.val → i.val ≤ j.val → fieldEnter i.val ≤ fieldEnter j.val) ∧
    newStep fieldEnter 0 759 = 0 ∧ newStep fieldEnter 0 760 = 1 ∧ newStep fieldEnter 1 840 = 2 ∧ newStep fieldEnter 2 816 = 2 ∧ newStep fieldEnter 2 815 = 1 ∧
    newStep fieldEnter 0 880 = 3 ∧ newStep fieldEnter 0 960 = 5 ∧ newStep (fun j => (dieEnter 8 j).getD 8000) 1 760 = 2 ∧
    newStep (fun j => (dieEnter 8 j).getD 8000) 0 680 = 1 ∧ newStep (fun j => (dieEnter 2 j).getD 8000) 0 920 = 5 := by decide +kernel
theorem test_sensor_hyps : let s := setField (reg0 id) 0 { FieldSt.reset with tstep := 1 }
    s.boot.step ≠ 0 ∧ fieldRegs s 0 = [0] ∧ (getRegion s 0).heatHeld = false ∧ recovering s (rgGrp (getRegion s 0)) = false ∧ s.eng.txns = [] := by decide +kernel
theorem test_heatStep_hyps : let x := getField (fieldS fun x => { x with tmax := 840, tstep := 2, heatBud := 128 }) 99
    (840 ≤ x.tmax ∧ 2 ≤ x.tstep ∧ x.heatBud ≤ 128 ∧ x.chg = 0 ∧ x.onepll = false ∧ fieldRuns x = true ∧ nextSlower 15 x.opcur = some 2) ∧
    (getField (fieldS fun x => { x with tmax := 815, heatBud := 1023 }) 99).tmax < 816 ∧ (getField (fieldS fun x => { x with tmax := 815, heatBud := 1023 }) 99).heatBud < 1024 ∧
    816 ≤ (getField (fieldS fun x => { x with tmax := 839 }) 99).tmax ∧ (getField (fieldS fun x => { x with tmax := 839 }) 99).tmax < 840 := by decide
theorem test_heatResume_hyps : let s := setField (reg0 fun g => { g with st := .drained, gated := true, heatHeld := true, heatGated := true, heatRun := true }) 0 { FieldSt.reset with coolSince := some 7 }
    let g := getRegion s 0
    g.heatHeld = true ∧ g.heatGated = true ∧ regionFields g = [0] ∧ (∀ f ∈ regionFields g, (getField s f).coolSince ≠ none) ∧ s.eng.txns = [] ∧ g.heatRun = true ∧ g.st = .drained := by decide +kernel
theorem test_opChange_hyps : (∀ k, k < 9 → (getField (fieldS fun x => { x with chg := k }) 99).chg = k ∧ fieldRuns (getField (fieldS fun x => { x with chg := k }) 99) = true) ∧
    (getField (fieldS id) 99).tapk = 64 ∧ (getField (fieldS id) 99).unlockAt = none ∧ (getField (fieldS fun x => { x with unlockAt := some 0 }) 99).unlockAt = some 0 ∧
    nowPs (fieldS id) ≤ 0 + 1000000000 ∧ 0 + 1000000000 < nowPs (advance (fieldS id) 156251) ∧ fieldRuns (getField (fieldS fun x => { x with lost := true }) 99) = false := by decide +kernel
theorem test_taper_hyps : (getField (fieldS fun x => { x with tapk := 63 }) 99).tapk < 64 ∧ fieldRuns (getField (fieldS fun x => { x with tapk := 63 }) 99) = true ∧
    64 ≤ (getField (fieldS id) 99).tapk := by decide
theorem test_unlock_hyps : let x := getField (fieldS id) 99
    pllLocked x true = true ∧ pllLocked x false = true ∧ fieldRuns x = true ∧ true ≠ x.src ∧ false = x.src ∧ x.onepll = false ∧ relocking x = false ∧
    relocking { x with chg := 4 } = true ∧ fieldRegs (fieldS id) 99 = [] ∧ pllLocked { x with plB := false } true = false := by decide
theorem test_droop_hyps : let x := getTile (modTile State.reset 10999 fun x => { x with droop := some 0 }) 10999
    x.droop = some 0 ∧ x.lag ≤ 0 ∧ 0 ≤ fieldCycles State.reset (fieldOf 10999) ∧ (getTile State.reset 0).droop = none := by decide

/-! ### Module time, meters, Pilot -/

def tcS (f : TimeCtl → TimeCtl) : State := { (ready State.reset) with tc := f State.reset.tc }
theorem test_servo_hyps : (bit (tcS id).tc.warned 1 = false ∧ (tcS id).tc.src = 0 ∧ 1 = srcPref (tcS id)) ∧
    (let s := tcS fun x => { x with src := 1, lock := true, good := 15 }
     s.tc.src = 1 ∧ s.tc.lock = true ∧ 15 ≤ s.tc.good) ∧
    (let s := tcS fun x => { x with pref := 1, src := 1, ppsOk := true, tenOk := true, back := 15 }
     bit s.tc.warned 2 = false ∧ s.tc.ppsOk = true ∧ s.tc.tenOk = true ∧ 2 = srcPref s ∧ ¬ s.tc.src = 2 ∧ 15 ≤ s.tc.back ∧ (ppsOffset (nowNs s)).natAbs ≤ 100) ∧
    (let s := tcS fun x => { x with src := 2, back := 14 }
     ¬ (s.tc.src = 1 ∨ (1 = srcPref s ∧ (s.tc.src = 0 ∨ ((5 : Int).natAbs ≤ 100 ∧ 15 ≤ s.tc.back)))) ∧ 1 = srcPref s) ∧
    bit (tcS fun x => { x with warned := 2 }).tc.warned 1 = true := by decide
theorem test_timeout_hyps : (let s := tcS fun x => { x with src := 1, ppsOk := true, tenOk := true, lock := true }
     s.tc.lock = true ∧ s.tc.src = srcPref s ∧ srcBack s = some 2 ∧ bit s.tc.warned 2 = false ∧ s.tc.ppsOk = true ∧ s.tc.tenOk = true) ∧
    (let s := tcS fun x => { x with src := 2 }
     s.tc.src ≠ srcPref s ∧ s.tc.src ≠ 0) ∧ srcBack (tcS fun x => { x with pref := 2 }) = none ∧ (tcS id).tc.ppsOk = false := by decide
theorem test_meter_hyps : (let c := mbc 0x51 [2 ^ 24 * 10 + 99] .ready
     let s := mbR 0x51 [2 ^ 24 * 10 + 99]
     (s.mantle.cmds.find? fun c => c.opc == 0x0051 && c.ph = .ready && (!meterOk c || !(s.mantle.meters.any fun m => m.meter == fmMeter c))) = some c ∧
     meterOk c = true ∧ fmMeter c < 100 ∧ fieldFenced s (fmMeter c) = false) ∧
    meterOk (mbc 0x51 [2 ^ 24 * 26 + 127] .ready) = true ∧ meterOk (mbc 0x51 [2 ^ 24 * 27 + 127] .ready) = false ∧
    fieldFenced ({ State.reset with tiles := (fieldTiles 0).map fun t => (t, { Tile.reset with fence := 1 }) } : State) 0 = true := by decide +kernel
theorem test_gate_hyps : let s := mbS MbPort.reset fun m => { m with cmds := [mbc 0x51 [0] .work], meters := [⟨3, 127, 0, 0, 10, 0⟩] }
    s.mantle.meters.find? (·.meter == 127) = some ⟨3, 127, 0, 0, 10, 0⟩ ∧ s.mantle.cmds.find? (·.id == 3) = some (mbc 0x51 [0] .work) ∧
    (∀ g ∈ s.mantle.meters, g.meter ≠ 0) := by decide
theorem test_pilot_hyps : mailNext (mbR 0x48 []) 0x48 = some (mbc 0x48 [] .ready) ∧ idleForPilot (mbR 0x48 []) = true ∧ idleForPilot (reg0 id) = false ∧
    (let s : State := { (mbR 0x49 []) with boot := { (mbR 0x49 []).boot with mst := 6 } }
     mailNext s 0x49 = some (mbc 0x49 [] .ready)) ∧
    (∀ k, k < 9 → ({ State.reset with power := { State.reset.power with pilot := k } } : State).power.pilot = k) ∧
    workingMail (mbS MbPort.reset fun m => { m with cmds := [mbc 0x48 [] .work] }) 0x48 = some (mbc 0x48 [] .work) ∧ mwf Tile.reset State.reset.tiles = true ∧
    fieldRuns FieldSt.reset = true := by decide +kernel

/-! ### The service connector -/

def tapS (d : Nat) (f : Die → Die) (g : BbPort → BbPort) : State :=
  let s := setDie State.reset d (f { Die.reset with hostFence := true })
  let s := modBb s d 7 g
  { s with jsel := BitVec.ofNat 32 (2 ^ d + 2), island := { s.island with unlocked := true }, dieFence := BitVec.ofNat 32 (2 ^ d) }
theorem test_tap_hyps : inChain (tapS 31 id id) 31 = true ∧ (tapS 31 id id).island.unlocked = true ∧ testable (tapS 31 id id) 31 = true ∧ 7 < diePorts 31 ∧
    diePorts 31 ≤ 8 ∧ inChain State.reset 31 = false ∧ State.reset.island.unlocked = false ∧ testable State.reset 31 = false ∧ inChain State.reset 1 = true ∧
    (getDie (tapS 31 (fun x => { x with tapPort := 7 }) id) 31).tapPort = 7 ∧ (getBb (tapS 31 id fun b => { b with st := 5, pat := 1 }) 31 7).st = 5 ∧
    (getBb (tapS 31 id fun b => { b with st := 5, pat := 1 }) 31 7).pat ≠ 0 ∧ (getBb (tapS 31 id id) 31 7).pat = 0 := by decide +kernel
theorem test_smb_hyps : smbOn State.reset = true ∧ smbOn ({ State.reset with boot := { State.reset.boot with step := 1 } } : State) = false ∧
    bladesOn State.reset ≠ 0 := by decide
/-- R643: the PEC of the packet is the SMBus CRC-8: `0xB8, 0x01, 0xB9, 0x10` gives the byte of polynomial 0x07. -/
theorem test_smb_pec : (List.foldl pecByte 0 ([1] : List Byte)) = 7 := by decide

/-! ### Start-up, resets, pins -/

def bootS (f : Boot → Boot) : State := { State.reset with boot := f State.reset.boot }
theorem test_powerOn_hyps : bladesOn State.reset = 8 ∧ (bootS fun b => { b with off := 1 }).boot.off = 1 ∧
    (let s := bootS fun b => { b with off := 2, input := false }
     s.boot.off = 2 ∧ s.boot.input = false ∧ coolEnough s = true) ∧ State.reset.boot.off = 0 ∧
    coolEnough (setField State.reset 99 { FieldSt.reset with tmax := 720 }) = false := by decide +kernel
theorem test_reset_hyps : inResetNow State.reset = false ∧ State.reset.boot.resetAt = none ∧ State.reset.boot.pwrGood = true ∧ State.reset.fw.trial = false ∧
    inResetNow (bootS fun b => { b with held := true }) = true ∧ hostUp (semS fun x => { x with holder := some 1 }) 1 = true ∧
    (semS fun x => { x with holder := some 1 }).sem.holder = some 1 ∧ nowPs (semS fun x => { x with holder := some 1 }) ≤ (semS fun x => { x with holder := some 1 }).sem.lease := by decide
theorem test_bladeChange_hyps : let s (n : Nat) : State := { State.reset with power := { State.reset.power with blades := (List.range n).map fun i => (i, ⟨0, 0⟩) } }
    bladesOn (s 3) < 6 ∧ 6 ≤ bladesOn (s 2) ∧ bladesBad (s 2) = true ∧ bladesBad (s 0) = false ∧ bladesOn (s 0) = 8 := by decide
theorem test_sameReset_hyps : let s := bootS fun b => { b with resetAt := some 0, lrst := 1 }
    inResetNow s = false ∧ s.boot.resetAt = some 0 ∧ islandCycle 0 = islandCycle (nowPs s) ∧ s.boot.lrst = 1 ∧
    islandCycle 0 ≠ islandCycle (nowPs (advance s 4769)) := by decide +kernel
theorem test_startPhase_hyps : (∀ k, k < 8 → inResetNow (bootS fun b => { b with step := k }) = false ∧ (bootS fun b => { b with step := k }).boot.step = k) ∧
    linksUp State.reset = false ∧ linksUp ({ State.reset with dies := (List.range 31).map fun i => (i + 1, { Die.reset with train := 7 }) } : State) = true ∧
    settingsOf (getBank State.reset State.reset.fw.rbank) = some (settingsDefault 1) ∧
    bits (wordOf (settingsDefault 1) 0) 0 16 = (getBank State.reset State.reset.fw.rbank).sfmt := by decide +kernel
theorem test_boot_hyps : (let s := State.reset
     s.boot.step = 2 ∧ s.fw.trial = false ∧ s.fw.sel < 2 ∧ (getBank s s.fw.sel).st ≠ 0 ∧ s.island.minsvn ≤ (getBank s s.fw.sel).svn ∧ (getBank s s.fw.sel).st ≠ 2 ∧
     s.island.err = false ∧ s.fw.sel = 0 ∧ ((getBank s 1).st ≠ 4)) ∧
    (let s := bankS 3 4 id 0
     (getBank s s.fw.sel).st ≠ 2 ∧ (getBank s (1 - s.fw.sel)).st = 4 ∧ (getBank s (1 - s.fw.sel)).st ≠ 0 ∧ s.island.minsvn ≤ (getBank s 1).svn) ∧
    (getBank (bankS 2 4 id 0) 0).st = 2 := by decide
theorem test_tested_hyps : servedBy State.reset (rowTile 99 10) 0 = some 10990 ∧ 10990 < nTiles ∧ spareFree State.reset (rowTile 99 10) = true ∧
    State.reset.boot.moved.contains (99 * 11 + 10) = false ∧
    (let s := modTile State.reset (rowTile 99 10) fun x => { x with colmap := 5 }
     spareFree s (rowTile 99 10) = false ∧ servedBy s (rowTile 99 10) 6 = some 10995) := by decide +kernel
theorem test_failed_hyps : let s := bootS fun b => { b with step := 3, tries := [(3031, 2)] }
    inResetNow s = false ∧ s.fw.trial = false ∧ 3 ≤ mget 0 s.boot.tries (s.boot.step * 1000 + 31) + 1 ∧
    mget 0 (bootS fun b => { b with step := 3 }).boot.tries (3 * 1000 + 31) + 1 < 3 ∧ State.reset.boot.step ≤ 2 := by decide

/-! ### The step -/

theorem test_step_front_hyps : let s : State := { State.reset with pending := [.semaphoreLeaseEnd, .powerOn] }
    s.pending = .semaphoreLeaseEnd :: [.powerOn] ∧ State.reset.pending = [] := by decide
/-- A step runs the front command and leaves the rest: the blade's new voltage, and the command that waited behind. -/
theorem test_step_runs : (match step { State.reset with pending := [.bladeChange 7 1999 false, .powerOn] } with
    | .next u => decide (u.pending = [.powerOn]) && decide (getBlade u 7 = ⟨1999, 0⟩) && decide (u.time = State.reset.time)
    | _ => false) = true := by decide +kernel
/-- One idle step is one period of the reference clock. -/
theorem test_step_idle : (match step State.reset with
    | .next u => decide (u.time.ticks = 1) && decide (nowPs u = 6400)
    | _ => false) = true := by decide +kernel
/-- A run of `EveryStepKeeps`: a step that answers a next state. -/
theorem test_keeps_hyps : ∃ u, step { State.reset with pending := [.inputUndervoltage true] } = .next u := ⟨_, rfl⟩
end Sys2Proof.Slice0Tests
end

section
/-!
PROOFS. What most of the model leaves as it is: the queue, the identity, the Island and the count of ticks. One frame lemma for each operation
of the model that answers a state, in the order of their definitions, each from the lemmas of the operations it calls.
-/
namespace Sys2Proof.Machine
open Sys2Proof

/-! ### What lasts -/

/-- The parts of the state that only a few commands touch: the queue, the part's identity, the Security Island and the ticks since power-on. -/
structure Lasting where
  pending : List Instr
  part : Part
  island : Island
  ticks : Nat

/-- The lasting parts of a state. -/
def lasting (s : State) : Lasting := ⟨s.pending, s.part, s.island, s.time.ticks⟩

@[simp ↓] theorem lasting_ite (c : Prop) [Decidable c] (a b : State) :
    lasting (if c then a else b) = if c then lasting a else lasting b :=
  apply_ite lasting c a b

@[simp ↓] theorem lasting_fst_ite {α : Type} (c : Prop) [Decidable c] (p q : State × α) :
    lasting (if c then p else q).1 = if c then lasting p.1 else lasting q.1 :=
  apply_ite (fun p => lasting p.1) c p q

/-- An update of any other field, or of the time with the same ticks. -/
@[simp ↓] theorem lasting_with (s : State) (time wicks flows cus mus tiles regions net lamp inc fields trace latch armed seg segKept dieFence
      hosts sem eng copies msds pds boot fw snuff tc power mantle dies jsel ans cdErr) (h : time.ticks = s.time.ticks) :
    lasting ⟨s.pending, time, wicks, flows, cus, mus, tiles, regions, net, lamp, inc, fields, trace, latch, armed, seg, segKept, dieFence,
      hosts, sem, eng, copies, msds, pds, s.part, boot, fw, snuff, tc, power, mantle, dies, jsel, s.island, ans, cdErr⟩ = lasting s := by
  rw [lasting, lasting, h]

@[simp ↓] theorem lasting_foldl {α : Type} (f : State → α → State) (l : List α) (s : State) (h : ∀ s x, lasting (f s x) = lasting s) :
    lasting (l.foldl f s) = lasting s :=
  List.foldlRecOn (motive := fun u => lasting u = lasting s) l f rfl fun u hu x _ => (h u x).trans hu

@[simp ↓] theorem lasting_foldl_fst {α β : Type} (f : State × β → α → State × β) (l : List α) (p : State × β)
    (h : ∀ p x, lasting (f p x).1 = lasting p.1) : lasting (l.foldl f p).1 = lasting p.1 :=
  List.foldlRecOn (motive := fun u => lasting u.1 = lasting p.1) l f rfl fun u hu x _ => (h u x).trans hu

theorem lasting_foldl_option {α β : Type} {f : Option (State × β) → α → Option (State × β)} {l : List α} {s s' : State} {b b' : β}
    (hf : ∀ acc x s' b', f acc x = some (s', b') → ∃ s1 b1, acc = some (s1, b1) ∧ lasting s' = lasting s1)
    (h : l.foldl f (some (s, b)) = some (s', b')) : lasting s' = lasting s := by
  suffices ∀ u c, l.foldl f (some (s, b)) = some (u, c) → lasting u = lasting s from this s' b' h
  refine List.foldlRecOn (motive := fun acc : Option (State × β) => ∀ u c, acc = some (u, c) → lasting u = lasting s) l f ?_ ?_
  · rintro _ _ ⟨⟩
    rfl
  · intro acc ha x _ u c hu
    obtain ⟨s1, b1, h1, h2⟩ := hf acc x u c hu
    exact h2.trans (ha s1 b1 h1)

/-! ### The operations that leave it -/

/-! #### The named operations over the state that every family of commands shares -/

@[simp ↓] theorem lasting_setWick (s : State) (t c : Nat) (w : Wick) : lasting (setWick s t c w) = lasting s := by simp [setWick]
@[simp ↓] theorem lasting_modWick (s : State) (t c : Nat) (f : Wick → Wick) : lasting (modWick s t c f) = lasting s := by simp [modWick]
@[simp ↓] theorem lasting_setFlow (s : State) (t u : Nat) (f : Flow) : lasting (setFlow s t u f) = lasting s := by simp [setFlow]
@[simp ↓] theorem lasting_modFlow (s : State) (t u : Nat) (g : Flow → Flow) : lasting (modFlow s t u g) = lasting s := by simp [modFlow]
@[simp ↓] theorem lasting_setCu (s : State) (t k : Nat) (c : Cu) : lasting (setCu s t k c) = lasting s := by simp [setCu]
@[simp ↓] theorem lasting_modCu (s : State) (t k : Nat) (f : Cu → Cu) : lasting (modCu s t k f) = lasting s := by simp [modCu]
@[simp ↓] theorem lasting_setMu (s : State) (t k : Nat) (m : Mu) : lasting (setMu s t k m) = lasting s := by simp [setMu]
@[simp ↓] theorem lasting_modMu (s : State) (t k : Nat) (f : Mu → Mu) : lasting (modMu s t k f) = lasting s := by simp [modMu]
@[simp ↓] theorem lasting_setTile (s : State) (t : Nat) (x : Tile) : lasting (setTile s t x) = lasting s := by simp [setTile]
@[simp ↓] theorem lasting_modTile (s : State) (t : Nat) (f : Tile → Tile) : lasting (modTile s t f) = lasting s := by simp [modTile]
@[simp ↓] theorem lasting_setRegion (s : State) (r : Nat) (x : Region) : lasting (setRegion s r x) = lasting s := by simp [setRegion]
@[simp ↓] theorem lasting_modRegion (s : State) (r : Nat) (f : Region → Region) : lasting (modRegion s r f) = lasting s := by simp [modRegion]
@[simp ↓] theorem lasting_alignTiles (s : State) (miss : List Nat) : lasting (alignTiles s miss) = lasting s := by simp [alignTiles]
@[simp ↓] theorem lasting_setRate (s : State) (f rate : Nat) : lasting (setRate s f rate) = lasting s := rfl

@[simp ↓] theorem lasting_fenceTile (s : State) (t : Nat) (on : Bool) (cause : Nat) :
    lasting (fenceTile s t on cause) = lasting s := by simp [fenceTile]

@[simp ↓] theorem lasting_tileReset (s : State) (t : Nat) : lasting (tileReset s t) = lasting s := by simp [tileReset]
@[simp ↓] theorem lasting_setField (s : State) (f : Nat) (x : FieldSt) : lasting (setField s f x) = lasting s := by simp [setField]
@[simp ↓] theorem lasting_modField (s : State) (f : Nat) (g : FieldSt → FieldSt) : lasting (modField s f g) = lasting s := by simp [modField]
@[simp ↓] theorem lasting_setDie (s : State) (d : Nat) (x : Die) : lasting (setDie s d x) = lasting s := by simp [setDie]
@[simp ↓] theorem lasting_modDie (s : State) (d : Nat) (f : Die → Die) : lasting (modDie s d f) = lasting s := by simp [modDie]
@[simp ↓] theorem lasting_modBb (s : State) (d p : Nat) (f : BbPort → BbPort) : lasting (modBb s d p f) = lasting s := by simp [modBb]
@[simp ↓] theorem lasting_putPacket (s : State) (p : Packet) : lasting (putPacket s p) = lasting s := by simp [putPacket]
@[simp ↓] theorem lasting_delPacket (s : State) (pid : Nat) : lasting (delPacket s pid) = lasting s := by simp [delPacket]
@[simp ↓] theorem lasting_setPacket (s : State) (pid : Nat) (p : Packet) : lasting (setPacket s pid p) = lasting s := by simp [setPacket]
@[simp ↓] theorem lasting_movePacket (s : State) (pid : Nat) (p : Packet) : lasting (movePacket s pid p) = lasting s := by simp [movePacket]

@[simp ↓] theorem lasting_inject (s : State) (t src dst fold epoch : Nat) (b : Body) :
    lasting (inject s t src dst fold epoch b) = lasting s := by simp [inject]

@[simp ↓] theorem lasting_answerWith (s : State) (t : Nat) (p : Packet) (dst : Nat) (b : Body) :
    lasting (answerWith s t p dst b) = lasting s := by simp [answerWith]

@[simp ↓] theorem lasting_answerFrom (s : State) (t : Nat) (p : Packet) (o : Outc) : lasting (answerFrom s t p o) = lasting s := by
  unfold answerFrom
  split <;> simp

@[simp ↓] theorem lasting_pushInc (s : State) (i : Inc) : lasting (pushInc s i) = lasting s := by simp [pushInc]

@[simp ↓] theorem lasting_traceHold (s : State) (t utyp uidx ev det : Nat) :
    lasting (traceHold s t utyp uidx ev det) = lasting s := by simp [traceHold]

@[simp ↓] theorem lasting_raiseInc (s : State) (i : Inc) : lasting (raiseInc s i) = lasting s := by simp [raiseInc]
@[simp ↓] theorem lasting_raiseUnit (s : State) (i : Inc) : lasting (raiseUnit s i) = lasting s := by simp [raiseUnit]
@[simp ↓] theorem lasting_raiseCoal (s : State) (i : Inc) : lasting (raiseCoal s i) = lasting s := by simp [raiseCoal]

@[simp ↓] theorem lasting_muRaise (s : State) (t k corrected : Nat) (bad : List Nat) :
    lasting (muRaise s t k corrected bad) = lasting s := by simp [muRaise]

@[simp ↓] theorem lasting_muRead (s : State) (t k a n : Nat) : lasting (muRead s t k a n).2.2 = lasting s := by simp [muRead]

@[simp ↓] theorem lasting_muWrite (s : State) (t k a : Nat) (bs : List Byte) (poi : Bool) : lasting (muWrite s t k a bs poi).1 = lasting s := by
  simp only [muWrite]
  split <;> simp

@[simp ↓] theorem lasting_muWriteQ (s : State) (t k a : Nat) (bs : List Byte) (poi : Bool) :
    lasting (muWriteQ s t k a bs poi) = lasting s := by simp [muWriteQ]

@[simp ↓] theorem lasting_muFlush (n : Nat) (s : State) (t k : Nat) : lasting (muFlush n s t k) = lasting s := by
  induction n generalizing s with
  | zero => rfl
  | succ n ih =>
    unfold muFlush
    split <;> simp [ih]

@[simp ↓] theorem lasting_wkCorrected (s : State) (t n : Nat) : lasting (wkCorrected s t n) = lasting s := by simp [wkCorrected]

/-! #### The module address map -/

@[simp ↓] theorem lasting_tileMwr (s : State) (t src a req cls : Nat) (data : List Byte) (poi : List Bool) :
    lasting (tileMwr s t src a req cls data poi) = lasting s := by
  unfold tileMwr
  split <;> simp

/-! #### What the module does toward its hosts -/

@[simp ↓] theorem lasting_setHost (s : State) (p : Nat) (h : HostPort) : lasting (setHost s p h) = lasting s := by simp [setHost]
@[simp ↓] theorem lasting_modHost (s : State) (p : Nat) (f : HostPort → HostPort) : lasting (modHost s p f) = lasting s := by simp [modHost]
@[simp ↓] theorem lasting_setRing (s : State) (p e : Nat) (r : HRing) : lasting (setRing s p e r) = lasting s := by simp [setRing]
@[simp ↓] theorem lasting_sendVec (s : State) (p v : Nat) : lasting (sendVec s p v) = lasting s := by simp [sendVec]
@[simp ↓] theorem lasting_setCause (s : State) (p b : Nat) : lasting (setCause s p b) = lasting s := by simp [setCause]
@[simp ↓] theorem lasting_setCauses (s : State) (b : Nat) : lasting (setCauses s b) = lasting s := by simp [setCauses]
@[simp ↓] theorem lasting_hostWrite (s : State) (p a : Nat) (bs : List Byte) : lasting (hostWrite s p a bs) = lasting s := by simp [hostWrite]
@[simp ↓] theorem lasting_setEng (s : State) (e : Nat) (x : Eng) : lasting (setEng s e x) = lasting s := by simp [setEng]
@[simp ↓] theorem lasting_modCmds (s : State) (e : Nat) (f : List Cmd → List Cmd) : lasting (modCmds s e f) = lasting s := by simp [modCmds]
@[simp ↓] theorem lasting_setPh (s : State) (c : Cmd) (ph : CPh) : lasting (setPh s c ph) = lasting s := by simp [setPh]
@[simp ↓] theorem lasting_cplSignal (s : State) (p e : Nat) : lasting (cplSignal s p e) = lasting s := by simp [cplSignal]

@[simp ↓] theorem lasting_writeRecord (s : State) (c : Cmd) (o : Outc) (detail : Nat) :
    lasting (writeRecord s c o detail) = lasting s := by simp [writeRecord]

@[simp ↓] theorem lasting_finishCmd (s : State) (c : Cmd) (o : Outc) (detail : Nat) :
    lasting (finishCmd s c o detail) = lasting s := by simp [finishCmd]

@[simp ↓] theorem lasting_failCmd (s : State) (c : Cmd) (o : Outc) (reason low : Nat) :
    lasting (failCmd s c o reason low) = lasting s := by simp [failCmd]

@[simp ↓] theorem lasting_modTxn (s : State) (tag : Nat) (f : Txn → Txn) : lasting (modTxn s tag f) = lasting s := by simp [modTxn]
@[simp ↓] theorem lasting_delTxn (s : State) (tag : Nat) : lasting (delTxn s tag) = lasting s := by simp [delTxn]
@[simp ↓] theorem lasting_requestWave (s : State) (w : Wave) : lasting (requestWave s w) = lasting s := by simp [requestWave]

@[simp ↓] theorem lasting_waveTxn (s : State) (tag : Nat) (commit : Bool) (o : Outc) (reason : Nat) :
    lasting (waveTxn s tag commit o reason) = lasting s := by
  unfold waveTxn
  split <;> simp

/-! #### Stopping a region -/

@[simp ↓] theorem lasting_stopCores (s : State) (r : Nat) : lasting (stopCores s r) = lasting s := by simp [stopCores]

@[simp ↓] theorem lasting_engStopped (s : State) (r : Nat) (o : Outc) : lasting (engStopped s r o) = lasting s := by
  simp only [engStopped]
  repeat' split
  all_goals simp

@[simp ↓] theorem lasting_stopRegionAs (s : State) (r : Nat) (o : Outc) : lasting (stopRegionAs s r o) = lasting s := by simp [stopRegionAs]
@[simp ↓] theorem lasting_stopRegion (s : State) (r : Nat) : lasting (stopRegion s r) = lasting s := by simp [stopRegion]

@[simp ↓] theorem lasting_stopTileRegion (s : State) (t : Nat) : lasting (stopTileRegion s t) = lasting s := by
  unfold stopTileRegion
  split <;> simp

/-! #### The trace -/

@[simp ↓] theorem lasting_traceFlush (s : State) (t : Nat) (all : Bool) (n : Nat) : lasting (traceFlush s t all n) = lasting s := by
  induction n generalizing s with
  | zero => rfl
  | succ n ih =>
    simp only [traceFlush]
    split
    · rfl
    · next b rest _ => cases rest <;> simp [ih]

@[simp ↓] theorem lasting_traceEv (s : State) (t utyp uidx ev det : Nat) : lasting (traceEv s t utyp uidx ev det) = lasting s := by simp [traceEv]

/-! #### How a Wick core issues an instruction -/

@[simp ↓] theorem lasting_fetchFix (s : State) (t c : Nat) (w : Wick) : lasting (fetchFix s t c w) = lasting s := by simp [fetchFix]

@[simp ↓] theorem lasting_wkInject (s : State) (t c : Nat) (low : Nat) (dst : Nat) (b : Body) :
    lasting (wkInject s t c low dst b) = lasting s := by simp [wkInject]

@[simp ↓] theorem lasting_wkActOut (s : State) (t c : Nat) (a : WAct) : lasting (wkActOut s t c a) = lasting s := by
  unfold wkActOut
  split <;> simp

@[simp ↓] theorem lasting_wkActOne (s : State) (t c : Nat) (a : WAct) : lasting (wkActOne s t c a) = lasting s := by simp [wkActOne]
@[simp ↓] theorem lasting_wkApply (s : State) (t c : Nat) (acts : List WAct) : lasting (wkApply s t c acts) = lasting s := by simp [wkApply]

@[simp ↓] theorem lasting_wkRetire (s : State) (t c : Nat) (next : Option (BitVec 14)) :
    lasting (wkRetire s t c next) = lasting s := by simp [wkRetire]

@[simp ↓] theorem lasting_wickException (s : State) (t c cause : Nat) (eval : W32) :
    lasting (wickException s t c cause eval) = lasting s := by simp [wickException]

@[simp ↓] theorem lasting_wickMismatch (s : State) (t c : Nat) : lasting (wickMismatch s t c) = lasting s := by simp [wickMismatch]

@[simp ↓] theorem lasting_wkEnd (s : State) (t c : Nat) (r : WRes) : lasting (wkEnd s t c r) = lasting s := by
  simp only [wkEnd]
  repeat' split
  all_goals simp

@[simp ↓] theorem lasting_wkExcOf (s : State) (t c : Nat) (x1 : WRes) : lasting (wkExcOf s t c x1) = lasting s := by
  unfold wkExcOf
  split <;> simp

@[simp ↓] theorem lasting_wkIssue (s : State) (t c : Nat) (uses : List Nat) (dec : Wick → WRes) :
    lasting (wkIssue s t c uses dec) = lasting s := by simp [wkIssue]

@[simp ↓] theorem lasting_wkFinish (s : State) (t c gd : Nat) (v : Reg) : lasting (wkFinish s t c gd v) = lasting s := by simp [wkFinish]

/-! #### Queues, streams and folds -/

@[simp ↓] theorem lasting_countEpdisc (s : State) (t n : Nat) : lasting (countEpdisc s t n) = lasting s := by
  unfold countEpdisc
  split <;> simp

@[simp ↓] theorem lasting_flowFault (s : State) (cls t u detail : Nat) : lasting (flowFault s cls t u detail) = lasting s := by simp [flowFault]

@[simp ↓] theorem lasting_ringWrite (s : State) (t : Nat) (ra : RingAt) (r : RingRec) :
    lasting (ringWrite s t ra r) = lasting s := by simp [ringWrite]

theorem lasting_ringAdd {s s' : State} {t : Nat} {ra : RingAt} {rg rg' : RingRt} {x : RingRec} (h : ringAdd s t ra rg x = some (s', rg')) :
    lasting s' = lasting s := by
  obtain ⟨rg1, -, h⟩ := Option.map_eq_some_iff.1 h
  obtain ⟨rfl, -⟩ := Prod.mk.inj h
  clear h
  split
  · simp only [lasting_ite, lasting_ringWrite, ite_self]
    split <;> simp
  · split <;> simp

theorem lasting_ringFetch {s s' : State} {t : Nat} {ra : RingAt} {r : RingRec} {bs : List Byte} {poi : Bool}
    (h : ringFetch s t ra r = some (bs, poi, s')) :
    lasting s' = lasting s := by
  unfold ringFetch at h
  split at h
  · simp_all
  · split at h
    · cases h
    · cases h
      simp

@[simp ↓] theorem lasting_spillTo (s : State) (t u e q : Nat) (tok : Token) (owed : List Owed) (src : Nat) :
    lasting (spillTo s t u e q tok owed src) = lasting s := by
  simp only [spillTo]
  split
  · next h => simp [lasting_ringAdd h]
  · simp

theorem lasting_spillTake {s s' : State} {t u e q : Nat} {tok : Token} {owed : List Owed} (h : spillTake s t u e = some (q, tok, owed, s')) :
    lasting s' = lasting s := by
  simp only [spillTake] at h
  split at h
  · cases h
  · split at h
    · cases h
    · obtain ⟨z, hz, h⟩ := Option.map_eq_some_iff.1 h
      cases h
      simp [lasting_ringFetch hz]

@[simp ↓] theorem lasting_returnCredits (s : State) (t u : Nat) (owed : List Owed) :
    lasting (returnCredits s t u owed) = lasting s := by simp [returnCredits]

@[simp ↓] theorem lasting_placeSeq (s : State) (t u q : Nat) (tok : Token) (n : Nat) (owed : List Owed) (fresh : Bool) :
    lasting (placeSeq s t u q tok n owed fresh).1 = lasting s := by
  simp only [placeSeq]
  repeat' split
  all_goals simp

@[simp ↓] theorem lasting_decideUnit (s : State) (t u q : Nat) (src : Nat) (msg : Bool) (tok : Token) (n : Nat) (owed : List Owed) :
    lasting (decideUnit s t u q src msg tok n owed).1 = lasting s := by simp [decideUnit]

@[simp ↓] theorem lasting_arriveUnit (s : State) (t u q : Nat) (src : Nat) (msg : Bool) (tok : Token) (n : Nat) (owed : List Owed) :
    lasting (arriveUnit s t u q src msg tok n owed).1 = lasting s := by simp [arriveUnit]

@[simp ↓] theorem lasting_reinjectQ (s : State) (t u q : Nat) : lasting (reinjectQ s t u q) = lasting s := by
  simp only [reinjectQ]
  split
  · rfl
  · split
    · next h => simp [lasting_spillTake h]
    · simp

@[simp ↓] theorem lasting_releaseQ (s : State) (t u q : Nat) : lasting (releaseQ s t u q) = lasting s := by
  simp only [releaseQ]
  split <;> simp

@[simp ↓] theorem lasting_cuMemRead (s : State) (t k key : Nat) : lasting (cuMemRead s t k key).1 = lasting s := by
  unfold cuMemRead
  split <;> simp

@[simp ↓] theorem lasting_bufRead (s : State) (t u q : Nat) (k : Token) : lasting (bufRead s t u q k).2 = lasting s := by
  unfold bufRead
  split <;> simp

theorem lasting_takeTok {s s' : State} {t u q : Nat} {k : Token} (h : takeTok s t u q = some (k, s')) : lasting s' = lasting s := by
  simp only [takeTok] at h
  split at h
  · next k1 rest _ =>
    have hs := congrArg (fun r => lasting r.2) (Option.some.inj h)
    simp only at hs
    rw [← hs, lasting_bufRead, lasting_setFlow]
    split <;> simp
  · cases h

@[simp ↓] theorem lasting_unitStall (s : State) (t u cause : Nat) : lasting (unitStall s t u cause) = lasting s := by simp [unitStall]
@[simp ↓] theorem lasting_qStall (s : State) (a cause : Nat) : lasting (qStall s a cause) = lasting s := by simp [qStall]
@[simp ↓] theorem lasting_inStall (s : State) (t u q : Nat) : lasting (inStall s t u q) = lasting s := by simp [inStall]
@[simp ↓] theorem lasting_powerStall (s : State) (t u q : Nat) : lasting (powerStall s t u q) = lasting s := by simp [powerStall]

@[simp ↓] theorem lasting_outStall (s : State) (t u : Nat) : lasting (outStall s t u) = lasting s := by
  unfold outStall
  split <;> simp

@[simp ↓] theorem lasting_countWait (s : State) (t port net : Nat) : lasting (countWait s t port net) = lasting s := by simp [countWait]

theorem lasting_portWait {s s' : State} {t : Nat} {p : Packet} (h : portWait s t p = some s') : lasting s' = lasting s := by
  simp only [portWait, Option.ite_none_right_eq_some, Option.some.injEq] at h
  obtain ⟨-, rfl⟩ := h
  simp

@[simp ↓] theorem lasting_portWait_getD {s u : State} (t : Nat) (p : Packet) (hu : lasting u = lasting s) :
    lasting ((portWait s t p).getD u) = lasting s := by
  cases h : portWait s t p with
  | none => exact hu
  | some s' => exact lasting_portWait h

@[simp ↓] theorem lasting_wakeRecv (s : State) (t c : Nat) : lasting (wakeRecv s t c) = lasting s := by
  simp only [wakeRecv]
  repeat' split
  all_goals simp

@[simp ↓] theorem lasting_wkStore (s : State) (t c q : Nat) (ents : List QEnt) (o : Outc) : lasting (wkStore s t c q ents o) = lasting s := by
  unfold wkStore
  split <;> simp

/-! #### How a CU takes its operands and forms its tokens -/

@[simp ↓] theorem lasting_fillPart (n : Nat) (s : State) (t u q : Nat) (f : Fmt) (k : Nat) (scl : Bool) (p : OpPart) :
    lasting (fillPart n s t u q f k scl p).2 = lasting s := by
  fun_induction fillPart n s t u q f k scl p with
  | case1 | case2 | case3 => rfl
  | case4 => next ht _ _ ih => rw [ih, lasting_takeTok ht]

@[simp ↓] theorem lasting_fillA (s : State) (t u : Nat) (w : W64 × W64) (p : OpPart) : lasting (fillA s t u w p).2.1 = lasting s := by simp [fillA]

@[simp ↓] theorem lasting_raiseSp (s : State) (t k : Nat) (run : URun) (w : W64 × W64) (errs : List SpErr) :
    lasting (raiseSp s t k run w errs) = lasting s := by
  unfold raiseSp
  split <;> simp

@[simp ↓] theorem lasting_verCopy (s : State) (t k : Nat) (w : W64 × W64) (p : W64) (mask : List Byte) :
    lasting (verCopy s t k w p mask).1 = lasting s := by
  simp only [verCopy]
  split
  · next h => simp [lasting_ringAdd h]
  · rfl

theorem lasting_srcVec {s s' : State} {t k : Nat} {run : URun} {w code : Nat} {p : Pass} {v : Vec} {poi apx : Bool}
    (h : srcVec s t k run w code p = some (v, poi, apx, s')) : lasting s' = lasting s := by
  unfold srcVec at h
  split at h
  · obtain ⟨r, hr, h⟩ := Option.map_eq_some_iff.1 h
    cases h
    exact lasting_takeTok hr
  all_goals cases h; rfl

theorem lasting_runStages {ws : List Nat} {s s' : State} {t k : Nat} {run : URun} {e : RndEnv} {osh : Int} {st : Nat} {taken : Bool} {p p' : Pass}
    (h : runStages ws s t k run e osh st taken p = some (p', s')) : lasting s' = lasting s := by
  induction ws generalizing s st taken p with
  | nil => cases h; rfl
  | cons w rest ih =>
    simp only [runStages] at h
    split at h
    · cases h; rfl
    · split at h
      · exact ih h
      · split at h
        · exact ih h
        · split at h
          · cases h
          · next ha =>
            split at h
            · cases h
            · next hb =>
              have hab := lasting_srcVec ha
              split at hb
              · exact (ih h).trans ((lasting_srcVec hb).trans hab)
              · cases hb
                exact (ih h).trans hab

@[simp ↓] theorem lasting_putStrm (s : State) (e : Emit) (x : Strm) : lasting (putStrm s e x) = lasting s := by
  unfold putStrm
  split <;> simp

@[simp ↓] theorem lasting_stampTok (s : State) (e : Emit) (len val : Nat) (ctl : Option Nat) :
    lasting (stampTok s e len val ctl).1 = lasting s := by simp [stampTok]

@[simp ↓] theorem lasting_pushOut (s : State) (e : Emit) (ks : List Token) : lasting (pushOut s e ks) = lasting s := by simp [pushOut]
@[simp ↓] theorem lasting_emitToks (s : State) (e : Emit) (ps : List (Nat × Nat)) : lasting (emitToks s e ps) = lasting s := by simp [emitToks]
@[simp ↓] theorem lasting_emitCtl (s : State) (e : Emit) (kind val : Nat) : lasting (emitCtl s e kind val) = lasting s := by simp [emitCtl]

@[simp ↓] theorem lasting_outputPass (s : State) (t k ostr : Nat) (run : URun) (w : W64 × W64) (e : RndEnv) (p : Pass) :
    lasting (outputPass s t k ostr run w e p) = lasting s := by simp [outputPass]

/-! #### The commands of the CUs -/

@[simp ↓] theorem lasting_throttle (s : State) (t : Nat) : lasting (throttle s t) = lasting s := by
  unfold throttle
  split <;> simp

@[simp ↓] theorem lasting_issueUop (s : State) (t k : Nat) (run : URun) : lasting (issueUop s t k run) = lasting s := by simp [issueUop]
@[simp ↓] theorem lasting_dropVers (s : State) (t k : Nat) : lasting (dropVers s t k) = lasting s := by simp [dropVers]

@[simp ↓] theorem lasting_takeVer (s : State) (t k slot : Nat) (e : Nat × W64) : lasting (takeVer s t k slot e) = lasting s := by
  simp only [takeVer]
  split
  · rfl
  · split
    · rfl
    · next h => simp [lasting_ringFetch h]

@[simp ↓] theorem lasting_raiseWin (s : State) (t k : Nat) (run : URun) (w : W64 × W64) (cls n detail : Nat) :
    lasting (raiseWin s t k run w cls n detail) = lasting s := by simp [raiseWin]

theorem lasting_emitTopk {s s' : State} {t k : Nat} {run : URun} {w : W64 × W64} {ep : EPlace} {st : Nat} {fmt : Fmt} {kk : Nat}
    (h : emitTopk s t k run w ep st fmt kk = some s') : lasting s' = lasting s := by
  obtain ⟨⟨p, s1⟩, hr, h⟩ := Option.map_eq_some_iff.1 h
  subst h
  simp [lasting_runStages hr]

@[simp ↓] theorem lasting_maskEnd (s : State) (t k : Nat) (run : URun) (w : W64 × W64) (e : Nat × W64) :
    lasting (maskEnd s t k run w e) = lasting s := by simp [maskEnd]

theorem lasting_endUop {s s' : State} {t k : Nat} {run : URun} {w : W64 × W64} {ep : EPlace} (h : endUop s t k run w ep = some s') :
    lasting s' = lasting s := by
  simp only [endUop] at h
  obtain ⟨s1, hs, h⟩ := Option.map_eq_some_iff.1 h
  have h1 : lasting s1 = lasting s := by
    split at hs
    · exact lasting_emitTopk hs
    · cases hs; rfl
  rw [← h, ← h1]
  simp only [lasting_traceEv, lasting_modFlow, lasting_modCu]
  split
  · simp only [lasting_ite, lasting_modCu, ite_self]
    split <;> simp
  · split <;> simp

@[simp ↓] theorem lasting_cuStall (s : State) (t k cause : Nat) : lasting (cuStall s t k cause) = lasting s := by simp [cuStall]
@[simp ↓] theorem lasting_putRun (s : State) (t k : Nat) (run : URun) : lasting (putRun s t k run) = lasting s := by simp [putRun]

@[simp ↓] theorem lasting_endOr (s : State) (t k : Nat) (run : URun) (w : W64 × W64) (ep : EPlace) : lasting (endOr s t k run w ep) = lasting s := by
  unfold endOr
  split
  · next h => exact lasting_endUop h
  · simp

@[simp ↓] theorem lasting_unpackTo (s : State) (t k : Nat) (run : URun) (w : W64 × W64) (kbase : Nat) (b : Fed) :
    lasting (unpackTo s t k run w kbase b).2 = lasting s := by simp [unpackTo]

theorem lasting_streamBlocks {n : Nat} {s s' : State} {t k : Nat} {run : URun} {w : W64 × W64} {kb : Nat} {acc bs : List (WSlot × Nat)}
    {apx apx' : Bool}
    (h : streamBlocks n s t k run w kb acc apx = some (bs, apx', s')) : lasting s' = lasting s := by
  induction n generalizing s kb acc apx with
  | zero => cases h; rfl
  | succ n ih =>
    simp only [streamBlocks] at h
    split at h
    · cases h; rfl
    · split at h
      · cases h
      · simpa using ih h

theorem lasting_tagBlocks {n : Nat} {s s' : State} {t k : Nat} {run : URun} {w : W64 × W64} {prev : Option Nat} {acc bs : List (WSlot × Nat)}
    {bad apx : Bool} (h : tagBlocks n s t k run w prev acc = some (bs, bad, apx, s')) : lasting s' = lasting s := by
  induction n generalizing s prev acc bs bad apx with
  | zero => cases h
  | succ n ih =>
    unfold tagBlocks at h
    split at h
    · cases h
    · extract_lets d tg fin nil kb err wrong at h
      split at h
      · cases h
      · extract_lets s1 s2 r acc' at h
        have h2 : lasting s2 = lasting s := by
          clear_value err wrong
          cases err <;> simp [s2, s1]
        split at h
        · simp only [Option.some.injEq, Prod.mk.injEq] at h
          exact h.2.2.2 ▸ h2
        · obtain ⟨z, hz, h⟩ := Option.map_eq_some_iff.1 h
          cases h
          exact (ih hz).trans h2

theorem lasting_sendBeats {l : List (Nat × Pass)} {s s' : State} {t k : Nat} {run run' : URun} {w : W64 × W64} {ep : EPlace}
    (h : sendBeats l s t k run w ep = some (s', run')) : lasting s' = lasting s := by
  induction l generalizing s run with
  | nil => cases h; rfl
  | cons x rest ih =>
    simp only [sendBeats] at h
    split at h
    · cases h
    · next hr =>
      rw [ih h, ← lasting_runStages hr]
      simp only [lasting_ite]
      split
      · rfl
      · split <;> simp

@[simp ↓] theorem lasting_shadowRow (s : State) (t k : Nat) (run : URun) (w : W64 × W64) (cyc : Nat) (shadow : List Nat) :
    lasting (shadowRow s t k run w cyc shadow).1 = lasting s := by simp [shadowRow]

theorem lasting_finishRow {s s' : State} {t k : Nat} {run run' : URun} {w : W64 × W64} {r : AccRow} {nb : Nat} {fl : MatFault} {ep : EPlace}
    {valid : Option Nat} (h : finishRow s t k run w r nb fl ep valid = some (s', run')) : lasting s' = lasting s := by
  simp only [finishRow] at h
  split at h
  · obtain ⟨z, hz, h⟩ := Option.map_eq_some_iff.1 h
    cases h
    rw [lasting_sendBeats hz]
    simp
  · cases h
    simp

@[simp ↓] theorem lasting_accumulate (s : State) (t k : Nat) (run : URun) (w : W64 × W64) (a : ARow) (bs : List (WSlot × Nat)) :
    lasting (accumulate s t k run w a bs).2.2 = lasting s := by
  unfold accumulate
  split <;> simp

@[simp ↓] theorem lasting_slotsRead (s : State) (t k : Nat) (w : W64 × W64) : lasting (slotsRead s t k w).1 = lasting s := by simp [slotsRead]

@[simp ↓] theorem lasting_wsRow (s : State) (t k : Nat) (run : URun) (w : W64 × W64) (fl : MatFault) (ep : EPlace) :
    lasting (wsRow s t k run w fl ep).1 = lasting s := by
  simp only [wsRow]
  split
  · simp
  · split
    · next h => simp [lasting_finishRow h]
    · simp

theorem lasting_streamRow {s s' : State} {t k : Nat} {run run' : URun} {w : W64 × W64} {fl : MatFault} {ep : EPlace} {b : Bool}
    (h : streamRow s t k run w fl ep = some (s', run', b)) : lasting s' = lasting s := by
  simp only [streamRow] at h
  split at h
  · cases h
    simp
  · obtain ⟨⟨bs, bad, apx, s1⟩, hb, h⟩ := Option.bind_eq_some_iff.1 h
    obtain ⟨z, hz, h⟩ := Option.map_eq_some_iff.1 h
    cases h
    have h1 : lasting s1 = lasting s := by
      split at hb
      · simp [lasting_tagBlocks hb]
      · obtain ⟨⟨bs1, apx1, s2⟩, hy, h⟩ := Option.map_eq_some_iff.1 hb
        cases h
        simp [lasting_streamBlocks hy]
    simp [lasting_finishRow hz, h1]

@[simp ↓] theorem lasting_putVhb (s : State) (t k : Nat) (w : W64 × W64) (p : OpPart) : lasting (putVhb s t k w p) = lasting s := by simp [putVhb]

@[simp ↓] theorem lasting_matLoop (n : Nat) (s : State) (t k : Nat) (run : URun) (w : W64 × W64) (fl : MatFault) (ep : EPlace) :
    lasting (matLoop n s t k run w fl ep).1 = lasting s := by
  induction n generalizing s run with
  | zero => rfl
  | succ n ih =>
    simp only [matLoop]
    have hw := lasting_wsRow s t k run w fl ep
    split
    · rfl
    · split
      · split
        · rfl
        · next h => exact lasting_streamRow h
        · next h => exact (ih _ _).trans (lasting_streamRow h)
      · split
        · next h => rw [ih, ← hw, h]
        · next h => rw [← hw, h]

@[simp ↓] theorem lasting_maskBegin (s : State) (t k : Nat) (run : URun) (w : W64 × W64) : lasting (maskBegin s t k run w).1 = lasting s := by
  unfold maskBegin
  split <;> simp

@[simp ↓] theorem lasting_vhbLoad (s : State) (t k : Nat) (run : URun) (w : W64 × W64) :
    lasting (vhbLoad s t k run w).1 = lasting s := by simp [vhbLoad]

@[simp ↓] theorem lasting_runWait (s : State) (t k : Nat) (run : URun) (w : W64 × W64) (ep : EPlace) :
    lasting (runWait s t k run w ep) = lasting s := by simp [runWait]

@[simp ↓] theorem lasting_vecLoop (n : Nat) (s : State) (t k : Nat) (run : URun) (w : W64 × W64) (shadow : List Nat) (ep : EPlace) :
    lasting (vecLoop n s t k run w shadow ep).1 = lasting s := by
  induction n generalizing s run with
  | zero => rfl
  | succ n ih =>
    simp only [vecLoop]
    split
    · rfl
    · split
      · rfl
      · next ht =>
        split
        · simp [ih, lasting_takeTok ht]
        · split
          · rfl
          · next hb => simp [ih, lasting_sendBeats hb, lasting_takeTok ht]

@[simp ↓] theorem lasting_loadSlots (n : Nat) (s : State) (t k : Nat) (run : URun) (w : W64 × W64) :
    lasting (loadSlots n s t k run w).1 = lasting s := by
  induction n generalizing s run with
  | zero => rfl
  | succ n ih =>
    simp only [loadSlots]
    split
    · rfl
    · split
      · rfl
      · simp [ih]

theorem lasting_sendSteered {s s' : State} {t k ostr : Nat} {run run' : URun} {w : W64 × W64} {tok : Token} {ep : EPlace}
    (h : sendSteered s t k ostr run w tok ep = some (s', run')) : lasting s' = lasting s := by
  simp only [sendSteered] at h
  split at h
  · cases h
    simp
  · split at h
    · cases h
      simp
    · obtain ⟨⟨q, s1⟩, hr, h⟩ := Option.map_eq_some_iff.1 h
      cases h
      simp [lasting_runStages hr]

/-! #### The commands of the MUs -/

@[simp ↓] theorem lasting_setGen (s : State) (t m g : Nat) (x : Gen) : lasting (setGen s t m g x) = lasting s := by simp [setGen]
@[simp ↓] theorem lasting_endGen (s : State) (t m g : Nat) : lasting (endGen s t m g) = lasting s := by simp [endGen]
@[simp ↓] theorem lasting_muStall (s : State) (t m : Nat) (cause : Nat) : lasting (muStall s t m cause) = lasting s := by simp [muStall]
@[simp ↓] theorem lasting_genFail (s : State) (t m g : Nat) (x : Gen) (a : Nat) : lasting (genFail s t m g x a) = lasting s := by simp [genFail]

@[simp ↓] theorem lasting_genRead (s : State) (t m : Nat) (paired : Bool) (a n : Nat) : lasting (genRead s t m paired a n).2.2 = lasting s := by
  unfold genRead
  split <;> simp

@[simp ↓] theorem lasting_genFeed (s : State) (t : Nat) (x : Gen) (l : List FeedBlk) : lasting (genFeed s t x l) = lasting s := by
  unfold genFeed
  split <;> simp

@[simp ↓] theorem lasting_genEmit (s : State) (t m : Nat) (x : Gen) (tag : Option Nat) (bs : List Byte) (poi : Bool) :
    lasting (genEmit s t m x tag bs poi) = lasting s := by
  unfold genEmit
  split <;> simp

theorem lasting_popBytes {n : Nat} {s s' : State} {t u q k : Nat} {acc bs : List Byte} {poi poi' : Bool}
    (h : popBytes n s t u q k acc poi = some (bs, poi', s')) : lasting s' = lasting s := by
  induction n generalizing s acc poi with
  | zero => cases h
  | succ n ih =>
    unfold popBytes at h
    split at h
    · cases h; rfl
    · split at h
      · cases h
      · next ht => exact (ih h).trans (lasting_takeTok ht)

@[simp ↓] theorem lasting_finishGen (s : State) (t m g : Nat) (x : Gen) : lasting (finishGen s t m g x) = lasting s := by
  simp only [finishGen]
  repeat' split
  all_goals simp

@[simp ↓] theorem lasting_maskBytes (s : State) (t m p : Nat) : lasting (maskBytes s t m p).2.2.2 = lasting s := by
  refine List.foldlRecOn (motive := fun acc : List Byte × Bool × Option Int × State => lasting acc.2.2.2 = lasting s) _ _ rfl fun acc h a _ => ?_
  simp only
  split
  · exact h
  · split
    · exact h
    · simpa using h

theorem lasting_nextIndex {s s' : State} {t m : Nat} {x x' : Gen} {i : Ix} (h : nextIndex s t m x = some (i, x', s')) : lasting s' = lasting s := by
  unfold nextIndex at h
  split at h
  · split at h
    · cases h; rfl
    · simp only at h
      split at h
      · cases h; rfl
      · cases h
        simp
  · split at h
    · cases h; rfl
    · split at h
      · cases h
      · next ht =>
        rw [← lasting_takeTok ht]
        split at h
        · cases h; rfl
        · simp only at h
          split at h <;> cases h <;> rfl

theorem lasting_nextAddend {s s' : State} {t m n : Nat} {x x' : Gen} {b : Bool} (h : nextAddend s t m x = some (n, b, x', s')) :
    lasting s' = lasting s := by
  simp only [nextAddend] at h
  split at h
  · cases h; rfl
  · split at h
    · cases h; rfl
    · split at h
      · cases h
      · next ht =>
        cases h
        exact lasting_takeTok ht

@[simp ↓] theorem lasting_tagFeed (s : State) (t m : Nat) (x : Gen) (paired : Bool) (tag a n : Nat) :
    lasting (tagFeed s t m x paired tag a n) = lasting s := by simp [tagFeed]

@[simp ↓] theorem lasting_dropMask (s : State) (t m q n : Nat) : lasting (dropMask s t m q n) = lasting s := by
  induction n generalizing s with
  | zero => rfl
  | succ n ih =>
    unfold dropMask
    split
    · rfl
    · split
      · rfl
      · next h => simp [ih, lasting_takeTok h]

@[simp ↓] theorem lasting_gatherMask (s : State) (t m g : Nat) (x : Gen) : lasting (gatherMask s t m g x) = lasting s := by
  simp only [gatherMask]
  repeat' split
  all_goals simp

@[simp ↓] theorem lasting_treeFlush (s : State) (t m : Nat) (x : Gen) : lasting (treeFlush s t m x) = lasting s := by simp [treeFlush]

@[simp ↓] theorem lasting_treeRecord (s : State) (t m g : Nat) (x : Gen) (rec_ : Nat) (poi : Bool) :
    lasting (treeRecord s t m g x rec_ poi) = lasting s := by simp [treeRecord]

@[simp ↓] theorem lasting_muSnapshot (s : State) (t m wnum : Nat) : lasting (muSnapshot s t m wnum).1 = lasting s := by
  simp only [muSnapshot]
  repeat' split
  all_goals simp

@[simp ↓] theorem lasting_imageWrite (s : State) (t m a : Nat) (data : List Byte) (poi : List Bool) :
    lasting (imageWrite s t m a data poi) = lasting s := by
  simp only [imageWrite]
  split <;> simp

@[simp ↓] theorem lasting_snapFinish (s : State) (t m : Nat) : lasting (snapFinish s t m) = lasting s := by
  simp only [snapFinish]
  split <;> simp

@[simp ↓] theorem lasting_scrubMu (s : State) (t m : Nat) : lasting (scrubMu s t m) = lasting s := by simp [scrubMu]
@[simp ↓] theorem lasting_scrubWick (s : State) (t c : Nat) : lasting (scrubWick s t c) = lasting s := by simp [scrubWick]

/-! #### Memory accesses of the Wick cores -/

@[simp ↓] theorem lasting_endRemote (s : State) (t c tag : Nat) (after : RTag) (o : Outc) (v : Reg) :
    lasting (endRemote s t c tag after o v) = lasting s := by
  simp only [endRemote]
  split <;> simp

/-! #### Queue and messaging instructions of the Wick cores and the arrivals that answer them -/

@[simp ↓] theorem lasting_sendbLost (s : State) (t c : Nat) (b : SendB) : lasting (sendbLost s t c b) = lasting s := by simp [sendbLost]

@[simp ↓] theorem lasting_sendbReply (s : State) (t c : Nat) (o : Outc) (re : Nat) : lasting (sendbReply s t c o re) = lasting s := by
  simp only [sendbReply]
  repeat' split
  all_goals simp

@[simp ↓] theorem lasting_ticketReply (s : State) (t c tk : Nat) (o : Outc) (re : Nat) :
    lasting (ticketReply s t c tk o re) = lasting s := by simp [ticketReply]

@[simp ↓] theorem lasting_msgArrive (s : State) (pid : Nat) (blocking : Bool) : lasting (msgArrive s pid blocking) = lasting s := by
  unfold msgArrive
  split
  · next p _ =>
    split
    · simp only
      split
      · rfl
      · split
        · rfl
        · split
          · exact lasting_portWait_getD _ p rfl
          · split
            · simp
            · split
              · simp
              · split <;> simp
    · rfl
  · rfl

/-! #### Arrivals and events of the dataflow machinery -/

@[simp ↓] theorem lasting_tokAtWick (s : State) (t c q src : Nat) (k : Token) : lasting (tokAtWick s t c q src k).1 = lasting s := by simp [tokAtWick]

@[simp ↓] theorem lasting_tokAtUnit (t u q src o n : Nat) (ks : List Token) (s : State) (r : Option Outc) :
    lasting (tokAtUnit t u q src o n ks s r).1 = lasting s := by
  induction ks generalizing s r with
  | nil => rfl
  | cons k rest ih =>
    simp only [tokAtUnit]
    split <;> simp [ih]

@[simp ↓] theorem lasting_tokPlaced (s : State) (pid : Nat) (p : Packet) (t o n : Nat) (ks : List Token) (keep : List Token → Body) :
    lasting (tokPlaced s pid p t o n ks keep) = lasting s := by
  simp only [tokPlaced]
  split <;> simp

@[simp ↓] theorem lasting_tokDeliver (s : State) (pid : Nat) (p : Packet) (t o : Nat) (ks : List Token) (keep : List Token → Body) :
    lasting (tokDeliver s pid p t o ks keep) = lasting s := by
  simp only [tokDeliver]
  repeat' split
  all_goals simp

@[simp ↓] theorem lasting_eventDeliver (s : State) (p : Packet) (t : Nat) (ws : List QEnt) :
    lasting (eventDeliver s p t ws) = lasting s := by simp [eventDeliver]

@[simp ↓] theorem lasting_streamReply (s : State) (t u o re : Nat) (r : Outc) : lasting (streamReply s t u o re r) = lasting s := by
  unfold streamReply
  split <;> simp

theorem lasting_spillAll {t u e q : Nat} {l : List (Token × List Owed)} {s s' : State} (h : spillAll t u e q l s = some s') :
    lasting s' = lasting s := by
  induction l generalizing s with
  | nil => cases h; rfl
  | cons k rest ih =>
    simp only [spillAll, Option.ite_none_right_eq_some] at h
    simpa using ih h.2

theorem lasting_parkQueue {t u fold q : Nat} {s s' : State} (h : parkQueue t u fold q s = some s') : lasting s' = lasting s := by
  simpa using lasting_spillAll h

theorem lasting_parkUnit {t u fold : Nat} {s s' : State} (h : parkUnit s t u fold = some s') : lasting s' = lasting s := by
  have hall : ∀ u', parkUnit s t u fold = some u' → lasting u' = lasting s := by
    unfold parkUnit
    refine List.foldlRecOn (motive := fun a : Option State => ∀ u', a = some u' → lasting u' = lasting s) _ _ ?_ ?_
    · rintro _ ⟨⟩
      rfl
    · intro a ha q _ u' hu
      obtain ⟨s1, h1, h2⟩ := Option.bind_eq_some_iff.1 hu
      exact (lasting_parkQueue h2).trans (ha s1 h1)
  exact hall s' h

@[simp ↓] theorem lasting_traceFold (old s : State) (t c : Nat) : lasting (traceFold old s t c) = lasting s := by simp [traceFold]

theorem lasting_unpark {s s' : State} {t u q : Nat} {tok : Token} {owed : List Owed} (h : unpark s t u q tok owed = some s') :
    lasting s' = lasting s := by
  simp only [unpark] at h
  split at h
  · cases h
    simp
  · split at h
    · cases h
    · cases h
      simp

@[simp ↓] theorem lasting_ctlTie (s : State) (r : Nat) : lasting (ctlTie s r) = lasting s := by simp [ctlTie]
@[simp ↓] theorem lasting_heatGate (s : State) (r : Nat) : lasting (heatGate s r) = lasting s := by simp [heatGate]
@[simp ↓] theorem lasting_quiesceOver (s : State) (x : Txn) : lasting (quiesceOver s x) = lasting s := by simp [quiesceOver]

@[simp ↓] theorem lasting_drainDone (s : State) (r : Nat) : lasting (drainDone s r) = lasting s := by
  simp only [drainDone]
  rw [lasting_foldl]
  · split
    · split <;> simp
    · simp
  · intro s x
    split
    · rfl
    · split <;> simp

@[simp ↓] theorem lasting_spillQueue (s : State) (t u q : Nat) : lasting (spillQueue s t u q) = lasting s := by
  simp only [spillQueue]
  split
  · next h => simp [lasting_spillAll h]
  · simp

@[simp ↓] theorem lasting_wickRead (s : State) (t c a n : Nat) : lasting (wickRead s t c a n).2.2 = lasting s := by simp [wickRead]

@[simp ↓] theorem lasting_readBuffer (s : State) (a n : Nat) : lasting (readBuffer s a n).2.2 = lasting s := by
  simp only [readBuffer]
  repeat' split
  all_goals simp

/-! #### The mesh -/

@[simp ↓] theorem lasting_modLink (s : State) (t port net : Nat) (f : Link → Link) : lasting (modLink s t port net f) = lasting s := by simp [modLink]
@[simp ↓] theorem lasting_countGrant (s : State) (t port net n : Nat) : lasting (countGrant s t port net n) = lasting s := by simp [countGrant]

@[simp ↓] theorem lasting_routerRefuse (s : State) (t pid : Nat) (p : Packet) (o : Outc) (cls : Option Nat) :
    lasting (routerRefuse s t pid p o cls) = lasting s := by
  simp only [routerRefuse]
  repeat' split
  all_goals simp

@[simp ↓] theorem lasting_granted (s : State) (t out : Nat) (p : Packet) : lasting (granted s t out p) = lasting s := by simp [granted]

@[simp ↓] theorem lasting_sendCopies (s : State) (t : Nat) (outs : List Nat) (e : Nat) (p : Packet) :
    lasting (sendCopies s t outs e p) = lasting s := by simp [sendCopies]

@[simp ↓] theorem lasting_headRead (s : State) (t pid : Nat) (p : Packet) : lasting (headRead s t pid p).1 = lasting s := by simp [headRead]

@[simp ↓] theorem lasting_storeRead (s : State) (t i : Nat) : lasting (storeRead s t i) = lasting s := by
  simp only [storeRead]
  split <;> simp

@[simp ↓] theorem lasting_hopAt (s : State) (t pid : Nat) (p : Packet) : lasting (hopAt s t pid p) = lasting s := by
  simp only [hopAt]
  repeat' split
  all_goals simp

@[simp ↓] theorem lasting_holdLink (s : State) (t port : Nat) (on : Bool) : lasting (holdLink s t port on) = lasting s := by simp [holdLink]
@[simp ↓] theorem lasting_addRepair (s : State) (w : W64) : lasting (addRepair s w) = lasting s := by simp [addRepair]

@[simp ↓] theorem lasting_repairGroup (s : State) (t port net grp : Nat) (lanes : List Nat) :
    lasting (repairGroup s t port net grp lanes) = lasting s := by
  unfold repairGroup
  split <;> simp

@[simp ↓] theorem lasting_copiesAt (s : State) (t port pid : Nat) (p : Packet) : lasting (copiesAt s t port pid p) = lasting s := by
  unfold copiesAt
  split <;> simp

@[simp ↓] theorem lasting_countStore (s : State) (t k : Nat) : lasting (countStore s t k) = lasting s := by simp [countStore]

@[simp ↓] theorem lasting_sendStored (s : State) (t i e : Nat) (c : Comb) : lasting (sendStored s t i e c) = lasting s := by
  simp only [sendStored]
  repeat' split
  all_goals simp

@[simp ↓] theorem lasting_redJoin (s : State) (t i g ncm1 : Nat) (k : Token) : lasting (redJoin s t i g ncm1 k) = lasting s := by
  simp only [redJoin]
  split <;> simp

@[simp ↓] theorem lasting_redAtRouter (s : State) (pid t port : Nat) (p : Packet) (o ncm1 : Nat) (k : Token) :
    lasting (redAtRouter s pid t port p o ncm1 k) = lasting s := by
  simp only [redAtRouter]
  split <;> simp

/-! #### Region images -/

@[simp ↓] theorem lasting_putWord (s : State) (k t u fold slot : Nat) (w : Nat × Nat × Nat) : lasting (putWord s k t u fold slot w) = lasting s := by
  unfold putWord
  split <;> simp

@[simp ↓] theorem lasting_putSection (slotBase : Nat) (s : State) (x : Section) : lasting (putSection slotBase s x) = lasting s := by
  refine lasting_foldl _ _ _ fun s t => lasting_foldl _ _ _ fun s u => ?_
  split <;> simp

@[simp ↓] theorem lasting_cuLate (s : State) (t k : Nat) : lasting (cuLate s t k) = lasting s := by simp [cuLate]
@[simp ↓] theorem lasting_cuLeave (s : State) (t k : Nat) : lasting (cuLeave s t k) = lasting s := by simp [cuLeave]
@[simp ↓] theorem lasting_clearTile (r : Nat) (s : State) (t : Nat) : lasting (clearTile r s t) = lasting s := by simp [clearTile]
@[simp ↓] theorem lasting_dropDisabled (s : State) (t : Nat) : lasting (dropDisabled s t) = lasting s := by simp [dropDisabled]
@[simp ↓] theorem lasting_pairImage (img : Image) (s : State) (t : Nat) : lasting (pairImage img s t) = lasting s := by simp [pairImage]

@[simp ↓] theorem lasting_installImage (s : State) (r : Nat) (img : Image) (from_ : MAddr) (len : Nat) :
    lasting (installImage s r img from_ len) = lasting s := by simp [installImage]

@[simp ↓] theorem lasting_discardTokens (s : State) (r : Nat) : lasting (discardTokens s r).1 = lasting s := by simp [discardTokens]
@[simp ↓] theorem lasting_startOdd (s : State) (t c now : Nat) : lasting (startOdd s t c now) = lasting s := by simp [startOdd]
@[simp ↓] theorem lasting_commitRegion (s : State) (r : Nat) : lasting (commitRegion s r).1 = lasting s := by simp [commitRegion]
@[simp ↓] theorem lasting_resumeRegion (s : State) (r : Nat) : lasting (resumeRegion s r) = lasting s := by simp [resumeRegion]

/-! #### The contents of the HBM stacks -/

@[simp ↓] theorem lasting_setMsd (s : State) (m : Nat) (x : Msd) : lasting (setMsd s m x) = lasting s := by simp [setMsd]
@[simp ↓] theorem lasting_modMsd (s : State) (m : Nat) (f : Msd → Msd) : lasting (modMsd s m f) = lasting s := by simp [modMsd]
@[simp ↓] theorem lasting_hbmInc (s : State) (cls m detail : Nat) : lasting (hbmInc s cls m detail) = lasting s := by simp [hbmInc]
@[simp ↓] theorem lasting_hbmRaise (s : State) (m corrected : Nat) : lasting (hbmRaise s m corrected) = lasting s := by simp [hbmRaise]
@[simp ↓] theorem lasting_mirrorFix (s : State) (m w : Nat) : lasting (mirrorFix s m w).1 = lasting s := by simp [mirrorFix]
@[simp ↓] theorem lasting_memberRead (s : State) (mir : Bool) (m a n : Nat) : lasting (memberRead s mir m a n).2 = lasting s := by simp [memberRead]
@[simp ↓] theorem lasting_hbmRead (s : State) (h : HbmAt) (n : Nat) : lasting (hbmRead s h n).2 = lasting s := by simp [hbmRead]

@[simp ↓] theorem lasting_hbmWrite (s : State) (h : HbmAt) (bs : List PByte) : lasting (hbmWrite s h bs).1 = lasting s := by
  unfold hbmWrite
  split <;> simp

@[simp ↓] theorem lasting_withSeg {α : Type} (tab : Option (SMap (W64 × W64))) (s : State) (f : State → State × α)
    (h : ∀ s, lasting (f s).1 = lasting s) : lasting (withSeg tab s f).1 = lasting s := by
  unfold withSeg
  split <;> simp [h]

@[simp ↓] theorem lasting_keepSeg (s : State) : lasting (keepSeg s) = lasting s := by simp [keepSeg]
@[simp ↓] theorem lasting_unmapped (s : State) (die a : Nat) : lasting (unmapped s die a) = lasting s := by simp [unmapped]

@[simp ↓] theorem lasting_modReadPiece (s : State) (die a n : Nat) : lasting (modReadPiece s die a n).2.2 = lasting s := by
  simp only [modReadPiece]
  repeat' split
  all_goals simp

@[simp ↓] theorem lasting_modRead (s : State) (die a n : Nat) : lasting (modRead s die a n).2.2 = lasting s := by
  have step (acc r : List PByte × Outc × State) (h : lasting acc.2.2 = lasting s) (hr : lasting r.2.2 = lasting acc.2.2) :
      lasting (if acc.2.1 ≠ .done then acc else (acc.1 ++ r.1, r.2.1, r.2.2)).2.2 = lasting s := by
    split
    · exact h
    · exact hr.trans h
  exact List.foldlRecOn (motive := fun acc : List PByte × Outc × State => lasting acc.2.2 = lasting s) _ _ rfl fun acc h p _ =>
    step acc _ h (lasting_modReadPiece ..)

theorem lasting_modWritePiece {s s' : State} {die a : Nat} {bs : List PByte} {o : Outc} (h : modWritePiece s die a bs = some (s', o)) :
    lasting s' = lasting s := by
  unfold modWritePiece at h
  split at h
  · split at h
    · next hb _ =>
      rw [← lasting_hbmWrite s hb bs, Option.some.inj h]
    · cases h
      simp
  · split at h
    · split at h
      · cases h; rfl
      · split at h
        · cases h
          simp
        · refine lasting_foldl_option (fun acc y s' o' hy => ?_) h
          split at hy
          · next s1 _ =>
            dsimp only at hy
            split at hy
            · cases hy
              exact ⟨s1, _, rfl, lasting_muWrite ..⟩
            · cases hy
          · cases hy
    · cases h
      simp

@[simp ↓] theorem lasting_modWait (s : State) (a n : Nat) : lasting (modWait s a n) = lasting s := by
  refine lasting_foldl _ _ _ fun s p => ?_
  simp only
  split
  · rfl
  · split <;> simp

theorem lasting_modWrite {s s' : State} {die a : Nat} {bs : List PByte} {o : Outc} (h : modWrite s die a bs = some (s', o)) :
    lasting s' = lasting s := by
  refine lasting_foldl_option (fun acc p s' o' hp => ?_) h
  split at hp
  · exact ⟨_, _, rfl, lasting_modWritePiece hp⟩
  · exact ⟨_, _, hp, rfl⟩

/-! #### The memory-side dies at work -/

@[simp ↓] theorem lasting_injectDie (s : State) (d k dst : Nat) (b : Body) (re : Nat) :
    lasting (injectDie s d k dst b re) = lasting s := by simp [injectDie]

@[simp ↓] theorem lasting_replyDie (s : State) (d k : Nat) (p : Packet) (o : Outc) : lasting (replyDie s d k p o) = lasting s := by simp [replyDie]
@[simp ↓] theorem lasting_msdArrive (s : State) (m : Nat) (r : MsdReq) : lasting (msdArrive s m r).1 = lasting s := by simp [msdArrive]

@[simp ↓] theorem lasting_takeKept (s : State) (pid : Nat) : lasting (takeKept s pid).1 = lasting s := by
  unfold takeKept
  split <;> simp

@[simp ↓] theorem lasting_servePacket (s : State) (m : Nat) (late : Bool) (r : MsdReq) : lasting (servePacket s m late r) = lasting s := by
  unfold servePacket
  cases r.what with
  | write | read =>
    refine (lasting_injectDie ..).trans (lasting_withSeg _ _ _ fun s => ?_)
    split <;> simp
  | page | resilver => rfl

@[simp ↓] theorem lasting_startPage (s : State) (cmd page : Nat) : lasting (startPage s cmd page) = lasting s := by simp [startPage]

@[simp ↓] theorem lasting_bufServe (s : State) (m : Nat) : lasting (bufServe s m).1 = lasting s := by
  unfold bufServe
  split <;> simp

@[simp ↓] theorem lasting_parityServe (s : State) (m : Nat) : lasting (parityServe s m) = lasting s := by
  unfold parityServe
  split <;> simp

@[simp ↓] theorem lasting_mantleCommit (s : State) (chgs : List Chg) : lasting (mantleCommit s chgs).1 = lasting s := by simp [mantleCommit]
@[simp ↓] theorem lasting_modJob (s : State) (cmd : Nat) (f : CopyJob → CopyJob) : lasting (modJob s cmd f) = lasting s := by simp [modJob]

@[simp ↓] theorem lasting_copyFinish (s : State) (cmd : Nat) : lasting (copyFinish s cmd) = lasting s := by
  simp only [copyFinish]
  repeat' split
  all_goals simp

@[simp ↓] theorem lasting_endPage (s : State) (cmd i : Nat) (o : Outc) : lasting (endPage s cmd i o) = lasting s := by simp [endPage]

@[simp ↓] theorem lasting_readRows (s : State) (die : Nat) (d : List W64) : lasting (readRows s die d).2.2.2 = lasting s := by
  have hr := lasting_modRead
  unfold readRows
  generalize modRead = read at hr ⊢
  refine List.foldlRecOn (motive := fun acc : List (List Nat) × Bool × Outc × State => lasting acc.2.2.2 = lasting s) _ _ rfl fun acc h r _ => ?_
  dsimp only
  split
  · exact h
  · exact (hr ..).trans h

theorem lasting_pageData {s s' : State} {j : CopyJob} {p : CopyPage} {bs : List PByte} {o : Outc} (h : pageData s j p = some (bs, o, s')) :
    lasting s' = lasting s := by
  simp only [pageData] at h
  split at h
  · cases h
    simp
  · cases h; rfl
  · split at h
    · have hs := congrArg (fun r => lasting r.2.2) (Option.some.inj h)
      simpa using hs.symm
    · obtain ⟨x, -, h⟩ := Option.map_eq_some_iff.1 h
      cases h; rfl

theorem lasting_pageWrite {s s' : State} {p : CopyPage} {bs : List PByte} {o : Outc} (h : pageWrite s p bs = some (s', o)) :
    lasting s' = lasting s := by
  unfold pageWrite at h
  split at h
  · exact lasting_modWrite h
  · cases h
    simp

@[simp ↓] theorem lasting_unserve (s : State) (m cmd page : Nat) : lasting (unserve s m cmd page) = lasting s := by simp [unserve]

@[simp ↓] theorem lasting_copyPageEnd (cmd i : Nat) (s : State) : lasting (copyPageEnd cmd i s) = lasting s := by
  unfold copyPageEnd
  split
  · rfl
  · split
    · rfl
    · split
      · simp
      · split
        · rfl
        · next hd =>
          simp only
          split
          · simp [lasting_pageData hd]
          · split
            · simp
            · next hw => simp [lasting_pageWrite hw, lasting_pageData hd]

@[simp ↓] theorem lasting_decryptEnd (cmd i : Nat) (s : State) : lasting (decryptEnd cmd i s) = lasting s := by
  simp only [decryptEnd]
  split
  · rfl
  · split
    · rfl
    · split
      · rfl
      · next hd =>
        split
        · simp [lasting_pageData hd]
        · split
          · split
            · next hw => simp [lasting_pageWrite hw, lasting_pageData hd]
            · simp
          · split
            · next hw => simp [lasting_pageWrite hw, lasting_pageData hd]
            · simp

/-! #### The port dies -/

@[simp ↓] theorem lasting_setPd (s : State) (d : Nat) (x : Pd) : lasting (setPd s d x) = lasting s := by simp [setPd]
@[simp ↓] theorem lasting_modPd (s : State) (d : Nat) (f : Pd → Pd) : lasting (modPd s d f) = lasting s := by simp [modPd]
@[simp ↓] theorem lasting_modPort (s : State) (d p : Nat) (f : PdPort → PdPort) : lasting (modPort s d p f) = lasting s := by simp [modPort]
@[simp ↓] theorem lasting_portCount (s : State) (d p i : Nat) : lasting (portCount s d p i) = lasting s := by simp [portCount]

@[simp ↓] theorem lasting_pdMemRead (s : State) (d key : Nat) : lasting (pdMemRead s d key).1 = lasting s := by
  unfold pdMemRead
  split <;> simp

@[simp ↓] theorem lasting_pdTableBad (s : State) (d key : Nat) : lasting (pdTableBad s d key) = lasting s := by simp [pdTableBad]

@[simp ↓] theorem lasting_instRead (s : State) (d : Nat) (k : W64) : lasting (instRead s d k).1 = lasting s := by
  unfold instRead
  dsimp only
  split
  · split <;> simp
  · simp

@[simp ↓] theorem lasting_pdMwr (s : State) (d sub a : Nat) (data : List Byte) : lasting (pdMwr s d sub a data).1 = lasting s := by
  unfold pdMwr
  split <;> simp

@[simp ↓] theorem lasting_setLog (s : State) (d : Nat) (jn : Bool) (l : LogRing) : lasting (setLog s d jn l) = lasting s := by simp [setLog]

@[simp ↓] theorem lasting_logAdd (s : State) (d : Nat) (jn : Bool) (data : List Byte) (mark : Option Nat) (supp : Bool) :
    lasting (logAdd s d jn data mark supp) = lasting s := by simp [logAdd]

@[simp ↓] theorem lasting_logRefused (s : State) (d : Nat) (jn : Bool) : lasting (logRefused s d jn) = lasting s := by simp [logRefused]
@[simp ↓] theorem lasting_logWritten (s : State) (d : Nat) (jn : Bool) : lasting (logWritten s d jn) = lasting s := by simp [logWritten]

@[simp ↓] theorem lasting_logWrite (s : State) (d : Nat) (jn : Bool) (r : LogRec) : lasting (logWrite s d jn r) = lasting s := by
  simp only [logWrite]
  split
  · rfl
  · simp

@[simp ↓] theorem lasting_logReply (s : State) (d : Nat) (jn : Bool) (o : Outc) : lasting (logReply s d jn o) = lasting s := by simp [logReply]

@[simp ↓] theorem lasting_pdLogEvents (s : State) (d : Nat) : lasting (pdLogEvents s d) = lasting s := by
  simp only [pdLogEvents]
  rw [lasting_foldl]
  · simp
  · intro s e
    split <;> simp

@[simp ↓] theorem lasting_pdSuppress (s : State) (d : Nat) : lasting (pdSuppress s d) = lasting s := by simp [pdSuppress]
@[simp ↓] theorem lasting_pdSettle (s : State) (d : Nat) : lasting (pdSettle s d) = lasting s := by simp [pdSettle]

@[simp ↓] theorem lasting_eventReply (s : State) (d ix : Nat) (o : Outc) : lasting (eventReply s d ix o) = lasting s := by
  simp only [eventReply]
  split <;> simp

/-! #### Frames and parse programs -/

@[simp ↓] theorem lasting_parseFault (s : State) (d l : Nat) (f : OutFrame) : lasting (parseFault s d l f) = lasting s := by simp [parseFault]

@[simp ↓] theorem lasting_parseInstr (s : State) (d l op : Nat) (g : OutFrame → Nat → ParseEng → PRes) :
    lasting (parseInstr s d l op g) = lasting s := by
  simp only [parseInstr]
  repeat' split
  all_goals simp

@[simp ↓] theorem lasting_lookupEvent (s : State) (d : Nat) (f : OutFrame) (e : ParseEng) : lasting (lookupEvent s d f e) = lasting s := by
  unfold lookupEvent
  dsimp only
  split
  · simp
  · simp

@[simp ↓] theorem lasting_parseEnd (s : State) (d l op : Nat) (k : OutFrame → State → State) (hk : ∀ f s, lasting (k f s) = lasting s) :
    lasting (parseEnd s d l op k) = lasting s := by
  simp only [parseEnd]
  split <;> simp [hk]

/-! #### Events on their way to the wafer -/

@[simp ↓] theorem lasting_sendEvent (s : State) (d : Nat) (e : Ev) (i : Nat) : lasting (sendEvent s d e i) = lasting s := by simp [sendEvent]
@[simp ↓] theorem lasting_modReplay (s : State) (d g : Nat) (f : Replay → Replay) : lasting (modReplay s d g f) = lasting s := by simp [modReplay]

/-! #### The way out of a port die -/

@[simp ↓] theorem lasting_respReply (s : State) (d k kind src re : Nat) (o : Outc) :
    lasting (respReply s d k kind src re o) = lasting s := by simp [respReply]

@[simp ↓] theorem lasting_respCount (s : State) (d : Nat) (o : Outc) : lasting (respCount s d o) = lasting s := by simp [respCount]

@[simp ↓] theorem lasting_respDecide (s : State) (d k kind src re : Nat) (ws : List QEnt) (o : Outc) (ts seqn : Nat) :
    lasting (respDecide s d k kind src re ws o ts seqn) = lasting s := by simp [respDecide]

@[simp ↓] theorem lasting_diverge (s : State) (d g key : Nat) : lasting (diverge s d g key) = lasting s := by simp [diverge]

@[simp ↓] theorem lasting_journalCheck (s : State) (d g : Nat) (ws : List QEnt) : lasting (journalCheck s d g ws) = lasting s := by
  simp only [journalCheck]
  repeat' split
  all_goals simp

@[simp ↓] theorem lasting_flushPort (s : State) (d p : Nat) : lasting (flushPort s d p) = lasting s := by
  simp only [flushPort]
  split <;> simp

@[simp ↓] theorem lasting_setLink (s : State) (d p : Nat) (up : Bool) : lasting (setLink s d p up) = lasting s := by simp [setLink]
@[simp ↓] theorem lasting_sendSnuff (s : State) (on : Bool) : lasting (sendSnuff s on) = lasting s := by simp [sendSnuff]
@[simp ↓] theorem lasting_snuffEngage (s : State) (cause : Nat) : lasting (snuffEngage s cause) = lasting s := by simp [snuffEngage]
@[simp ↓] theorem lasting_snuffRelease (s : State) : lasting (snuffRelease s).1 = lasting s := by simp [snuffRelease]
@[simp ↓] theorem lasting_countIgnored (s : State) (p : Nat) : lasting (countIgnored s p) = lasting s := by simp [countIgnored]

/-! #### The transaction manager -/

@[simp ↓] theorem lasting_recordOf (s : State) (c : Cmd) (o : Outc) (reason low detail : Nat) :
    lasting (recordOf s c o reason low detail) = lasting s := by simp [recordOf]

@[simp ↓] theorem lasting_closerRecord (s : State) (x : Txn) (c : Cmd) : lasting (closerRecord s x c) = lasting s := by
  simp only [closerRecord]
  repeat' split
  all_goals simp

@[simp ↓] theorem lasting_txnRecords (s : State) (x : Txn) : lasting (txnRecords s x) = lasting s := by
  simp only [txnRecords]
  repeat' split
  all_goals simp

@[simp ↓] theorem lasting_txnTimeout (s : State) (x : Txn) : lasting (txnTimeout s x) = lasting s := by simp [txnTimeout]
@[simp ↓] theorem lasting_txnLapse (s : State) : lasting (txnLapse s) = lasting s := by simp [txnLapse]
@[simp ↓] theorem lasting_gateRegion (s : State) (r : Nat) : lasting (gateRegion s r) = lasting s := by simp [gateRegion]
@[simp ↓] theorem lasting_txnGo (s : State) (x : Txn) : lasting (txnGo s x) = lasting s := by simp [txnGo]

@[simp ↓] theorem lasting_txnDecide (s : State) (tag : Nat) : lasting (txnDecide s tag) = lasting s := by
  unfold txnDecide
  split <;> simp

@[simp ↓] theorem lasting_addTxn (s : State) (x : Txn) : lasting (addTxn s x) = lasting s := by simp [addTxn]

@[simp ↓] theorem lasting_ownTxn (s : State) (c : Cmd) (chgs : List Chg) (strict : Bool) :
    lasting (ownTxn s c chgs strict).1 = lasting s := by simp [ownTxn]

@[simp ↓] theorem lasting_joinTxn (s : State) (c : Cmd) (tag : Nat) : lasting (joinTxn s c tag) = lasting s := by simp [joinTxn]

@[simp ↓] theorem lasting_memberFail (s : State) (c : Cmd) (o : Outc) (reason low : Nat) : lasting (memberFail s c o reason low) = lasting s := by
  simp only [memberFail]
  repeat' split
  all_goals simp

@[simp ↓] theorem lasting_memberStage (s : State) (c : Cmd) (chgs : List Chg) (strict replace : Bool) :
    lasting (memberStage s c chgs strict replace) = lasting s := by
  simp only [memberStage]
  repeat' split
  all_goals simp

@[simp ↓] theorem lasting_toStage (s : State) (c : Cmd) (chgs : List Chg) (det : Nat) :
    lasting (toStage s c chgs det) = lasting s := by simp [toStage]

@[simp ↓] theorem lasting_wireCmd (s : State) (d opc : Nat) (k : Cmd → State) (hk : ∀ c, lasting (k c) = lasting s) :
    lasting (wireCmd s d opc k) = lasting s := by
  unfold wireCmd
  split <;> simp [hk]

/-! #### WGX -/

@[simp ↓] theorem lasting_modWgx (s : State) (d i : Nat) (f : Wgx → Wgx) : lasting (modWgx s d i f) = lasting s := by simp [modWgx]

@[simp ↓] theorem lasting_wgxEnd (s : State) (d cmd : Nat) (o : Outc) (detail : Nat) : lasting (wgxEnd s d cmd o detail) = lasting s := by
  unfold wgxEnd
  split <;> simp

@[simp ↓] theorem lasting_wgxEndBoth (s : State) (d i : Nat) (o : Outc) : lasting (wgxEndBoth s d i o) = lasting s := by
  simp only [wgxEndBoth]
  repeat' split
  all_goals simp

@[simp ↓] theorem lasting_wgxInstall (s : State) (d i : Nat) (ws : List W64) : lasting (wgxInstall s d i ws) = lasting s := by simp [wgxInstall]
@[simp ↓] theorem lasting_wgxFail (s : State) (d i : Nat) : lasting (wgxFail s d i) = lasting s := by simp [wgxFail]

@[simp ↓] theorem lasting_wgxStart (s : State) (d opc : Nat) (busy : Wgx → Bool) (put : Wgx → WgxXfer → Wgx) :
    lasting (wgxStart s d opc busy put) = lasting s := by simp [wgxStart]

@[simp ↓] theorem lasting_wgxOut (s : State) (d i : Nat) (f : List Byte) : lasting (wgxOut s d i f) = lasting s := by simp [wgxOut]
@[simp ↓] theorem lasting_wgxCount (s : State) (d i k : Nat) : lasting (wgxCount s d i k) = lasting s := by simp [wgxCount]

@[simp ↓] theorem lasting_wgxSendData (s : State) (d i : Nat) (o : WgxOut) (retx : Bool) :
    lasting (wgxSendData s d i o retx) = lasting s := by simp [wgxSendData]

@[simp ↓] theorem lasting_wgxSendNew (s : State) (d i : Nat) (t : WgxXfer) : lasting (wgxSendNew s d i t) = lasting s := by simp [wgxSendNew]

@[simp ↓] theorem lasting_wgxLost (s : State) (d i seq : Nat) (fast : Bool) : lasting (wgxLost s d i seq fast) = lasting s := by
  simp only [wgxLost]
  split <;> simp

@[simp ↓] theorem lasting_wgxBad (s : State) (d p : Nat) (f : List Byte) : lasting (wgxBad s d p f) = lasting s := by
  unfold wgxBad
  split <;> simp

@[simp ↓] theorem lasting_wgxPushDone (s : State) (d i : Nat) : lasting (wgxPushDone s d i) = lasting s := by
  simp only [wgxPushDone]
  split <;> simp

@[simp ↓] theorem lasting_wgxLapse (s : State) (d i : Nat) : lasting (wgxLapse s d i) = lasting s := by simp [wgxLapse]
@[simp ↓] theorem lasting_wgxTies (s : State) (d i : Nat) (gone : WgxOut → Bool) : lasting (wgxTies s d i gone) = lasting s := by simp [wgxTies]
@[simp ↓] theorem lasting_wgxAcked (s : State) (d i ack win : Nat) : lasting (wgxAcked s d i ack win) = lasting s := by simp [wgxAcked]

@[simp ↓] theorem lasting_wgxReceive (s : State) (d p typ : Nat) (f : List Byte) (k : State → Nat → WHdr → State)
    (hk : ∀ s i h, lasting (k s i h) = lasting s) : lasting (wgxReceive s d p typ f k) = lasting s := by
  simp only [wgxReceive]
  split
  · rfl
  · split
    · simp
    · split <;> simp [hk]

@[simp ↓] theorem lasting_wgxPullDone (s : State) (d i : Nat) : lasting (wgxPullDone s d i) = lasting s := by
  simp only [wgxPullDone]
  repeat' split
  all_goals simp

/-! #### The counter sets -/

@[simp ↓] theorem lasting_clearTileSet (s : State) (k t : Nat) : lasting (clearTileSet s k t) = lasting s := by
  unfold clearTileSet
  split <;> simp

@[simp ↓] theorem lasting_ctrClear (s : State) (k b : Nat) : lasting (ctrClear s k b) = lasting s := by
  simp only [ctrClear]
  repeat' split
  all_goals simp

@[simp ↓] theorem lasting_latchAll (s : State) (wnum : Nat) (miss : List Nat) : lasting (latchAll s wnum miss) = lasting s := by simp [latchAll]

theorem lasting_writeAt {s s' : State} {sp a : Nat} {bs : List Byte} {o : Outc} (h : writeAt s sp a bs = some (s', o)) : lasting s' = lasting s := by
  unfold writeAt at h
  split at h
  · exact lasting_modWrite h
  · cases h
    simp

/-! #### The mailboxes -/

@[simp ↓] theorem lasting_setMb (s : State) (p : Nat) (x : MbPort) : lasting (setMb s p x) = lasting s := by simp [setMb]
@[simp ↓] theorem lasting_modMb (s : State) (p : Nat) (f : MbPort → MbPort) : lasting (modMb s p f) = lasting s := by simp [modMb]
@[simp ↓] theorem lasting_modMail (s : State) (id : Nat) (f : MbCmd → MbCmd) : lasting (modMail s id f) = lasting s := by simp [modMail]
@[simp ↓] theorem lasting_delMail (s : State) (id : Nat) : lasting (delMail s id) = lasting s := by simp [delMail]

@[simp ↓] theorem lasting_mailEnd (s : State) (c : MbCmd) (o : Outc) (stat : Nat) (data : List Byte) :
    lasting (mailEnd s c o stat data) = lasting s := by simp [mailEnd]

@[simp ↓] theorem lasting_mailOk (s : State) (c : MbCmd) (ws : List Nat) : lasting (mailOk s c ws) = lasting s := by simp [mailOk]
@[simp ↓] theorem lasting_mailFail (s : State) (c : MbCmd) (stat : Nat) : lasting (mailFail s c stat) = lasting s := by simp [mailFail]

@[simp ↓] theorem lasting_mbDeliver (s : State) (p : Nat) : lasting (mbDeliver s p) = lasting s := by
  simp only [mbDeliver]
  split <;> simp

@[simp ↓] theorem lasting_mbQueue (s : State) (r : MbReply) : lasting (mbQueue s r) = lasting s := by simp [mbQueue]
@[simp ↓] theorem lasting_mbTimeOut (s : State) (c : MbCmd) : lasting (mbTimeOut s c) = lasting s := by simp [mbTimeOut]

@[simp ↓] theorem lasting_mbLapse (s : State) (id : Option Nat) : lasting (mbLapse s id) = lasting s := by
  unfold mbLapse
  split <;> simp

/-! #### Live table changes -/

@[simp ↓] theorem lasting_modMantle (s : State) (f : Mantle → Mantle) : lasting (modMantle s f) = lasting s := by simp [modMantle]

@[simp ↓] theorem lasting_mantleTxn (s : State) (chgs : List Chg) (groups : List Nat) :
    lasting (mantleTxn s chgs groups).1 = lasting s := by simp [mantleTxn]

@[simp ↓] theorem lasting_wantTable (s : State) (chgs : List Chg) (failed group : Option Nat) :
    lasting (wantTable s chgs failed group) = lasting s := by simp [wantTable]

@[simp ↓] theorem lasting_holdInto (s : State) (ts : List Nat) (on : Bool) : lasting (holdInto s ts on) = lasting s := by simp [holdInto]
@[simp ↓] theorem lasting_stopOwners (s : State) (ts : List Nat) : lasting (stopOwners s ts) = lasting s := by simp [stopOwners]

@[simp ↓] theorem lasting_modTab (s : State) (p : TabChg → Bool) (f : TabChg → TabChg) : lasting (modTab s p f) = lasting s := by
  unfold modTab
  split <;> simp

@[simp ↓] theorem lasting_snapBack (s : State) (e : Nat × Nat) : lasting (snapBack s e) = lasting s := by simp [snapBack]

@[simp ↓] theorem lasting_snapSettle (s : State) : lasting (snapSettle s) = lasting s := by
  refine lasting_foldl _ _ _ fun s o => ?_
  simp only
  split <;> simp

@[simp ↓] theorem lasting_modRecov (s : State) (g : Nat) (f : Recov → Recov) : lasting (modRecov s g f) = lasting s := by simp [modRecov]

@[simp ↓] theorem lasting_wantRecovery (s : State) (g kind tile tag : Nat) :
    lasting (wantRecovery s g kind tile tag) = lasting s := by simp [wantRecovery]

@[simp ↓] theorem lasting_suppress (s : State) (g : Nat) : lasting (suppress s g) = lasting s := by simp [suppress]
@[simp ↓] theorem lasting_unsuppress (s : State) (g : Nat) : lasting (unsuppress s g) = lasting s := by simp [unsuppress]
@[simp ↓] theorem lasting_abandon (s : State) (g cause : Nat) : lasting (abandon s g cause) = lasting s := by simp [abandon]

@[simp ↓] theorem lasting_liftSuppression (s : State) (g : Nat) : lasting (liftSuppression s g) = lasting s := by
  unfold liftSuppression
  split <;> simp

@[simp ↓] theorem lasting_imageAgain (s : State) (r : Nat) : lasting (imageAgain s r).2 = lasting s := by
  simp only [imageAgain]
  split
  · split
    · simp
    · split <;> simp
  · rfl

@[simp ↓] theorem lasting_reloadRegion (s : State) (r : Nat) : lasting (reloadRegion s r).1 = lasting s := by
  have hi := lasting_imageAgain s r
  unfold reloadRegion
  dsimp only
  split
  all_goals
    next h =>
      rw [h] at hi
      simpa using hi

@[simp ↓] theorem lasting_restoreState (s : State) (t m : Nat) (blk : List Byte) :
    lasting (restoreState s t m blk) = lasting s := by simp [restoreState]

@[simp ↓] theorem lasting_restoreMu (s : State) (w : Nat) (e : Nat × Nat) : lasting (restoreMu s w e).1 = lasting s := by
  have pair (c : Prop) [Decidable c] (u v : State) (hu : lasting u = lasting s) (hv : lasting v = lasting s) :
      lasting (if c then (u, false) else (v, true)).1 = lasting s := by
    split
    · exact hu
    · exact hv
  unfold restoreMu
  dsimp only
  split
  · exact pair _ _ _ (lasting_modRead ..) (by simp)
  · rfl

@[simp ↓] theorem lasting_reloadGroup (s : State) (g : Nat) : lasting (reloadGroup s g) = lasting s := by
  unfold reloadGroup
  split <;> simp

@[simp ↓] theorem lasting_startReplay (s : State) (g : Nat) : lasting (startReplay s g) = lasting s := by
  unfold startReplay
  split
  · rfl
  · simp only [lasting_ite, lasting_modRecov, lasting_abandon, ite_self]
    refine lasting_foldl_fst _ _ _ fun p d => ?_
    split
    · rfl
    · split <;> simp

@[simp ↓] theorem lasting_movedTile (s : State) (t : Nat) : lasting (movedTile s t) = lasting s := by simp [movedTile]

@[simp ↓] theorem lasting_servedAnew (s : State) (t : Nat) (u : Option Nat) : lasting (servedAnew s t u) = lasting s := by
  simp only [servedAnew, lasting_modTile, lasting_tileReset]
  rw [lasting_foldl, lasting_foldl, lasting_with _ (h := rfl)]
  · intro s m
    split <;> simp
  · intro s c
    split <;> simp

@[simp ↓] theorem lasting_tabResolved (s : State) (x : TabChg) (commit : Bool) : lasting (tabResolved s x commit) = lasting s := by
  simp only [tabResolved]
  repeat' split
  all_goals simp

@[simp ↓] theorem lasting_mantleResolved (s : State) (x : Txn) (commit : Bool) : lasting (mantleResolved s x commit) = lasting s := by
  simp only [mantleResolved]
  repeat' split
  all_goals simp

/-! #### The Lamplighter -/

@[simp ↓] theorem lasting_applyCreg (s : State) (t k fold a : Nat) (bs : List Byte) :
    lasting (applyCreg s t k fold a bs) = lasting s := by simp [applyCreg]

@[simp ↓] theorem lasting_applyDieReg (s : State) (die a : Nat) (v : W64) : lasting (applyDieReg s die a v) = lasting s := by simp [applyDieReg]

@[simp ↓] theorem lasting_applyImage (s : State) (r : Nat) (img : Image) (from_ : MAddr) (len : Nat) (run : Bool) :
    lasting (applyImage s r img from_ len run).1 = lasting s := by simp [applyImage]

@[simp ↓] theorem lasting_applyChg (s : State) (x1 : Chg) : lasting (applyChg s x1).1 = lasting s := by
  unfold applyChg
  split <;> simp

@[simp ↓] theorem lasting_breakRefuse (s : State) : lasting (breakRefuse s) = lasting s := by
  refine lasting_foldl _ _ _ fun s e => ?_
  split <;> simp

@[simp ↓] theorem lasting_keepTiles (old new : State) (miss : List Nat) : lasting (keepTiles old new miss) = lasting new := by simp [keepTiles]

@[simp ↓] theorem lasting_commitTxn (s : State) (x : Txn) (miss late : List Nat) :
    lasting (commitTxn s x miss late) = lasting s := by simp [commitTxn]

@[simp ↓] theorem lasting_commitSat (s : State) (tag : Nat) (die : Nat) (chgs : List Chg) :
    lasting (commitSat s tag die chgs) = lasting s := by simp [commitSat]

@[simp ↓] theorem lasting_freezeRegion (s : State) (r : Nat) : lasting (freezeRegion s r) = lasting s := by simp [freezeRegion]

@[simp ↓] theorem lasting_thawRegion (s : State) (r : Nat) : lasting (thawRegion s r) = lasting s := by
  simp only [thawRegion]
  split <;> simp

@[simp ↓] theorem lasting_snapPd (s : State) (d wnum : Nat) : lasting (snapPd s d wnum) = lasting s := by simp [snapPd]

@[simp ↓] theorem lasting_snapTrace (s : State) (w : Wave) : lasting (snapTrace s w) = lasting s := by
  simp only [snapTrace]
  repeat' split
  all_goals simp

@[simp ↓] theorem lasting_snapAll (s : State) (w : Wave) (miss late : List Nat) : lasting (snapAll s w miss late).1 = lasting s := by simp [snapAll]

@[simp ↓] theorem lasting_cmdWaved (s : State) (c : Cmd) (w : Wave) (missing : Bool) : lasting (cmdWaved s c w missing) = lasting s := by
  simp only [cmdWaved]
  repeat' split
  all_goals simp

@[simp ↓] theorem lasting_waveDone (s : State) (w : Wave) (missing : Bool) : lasting (waveDone s w missing) = lasting s := by
  simp only [waveDone]
  repeat' split
  all_goals simp

@[simp ↓] theorem lasting_waveTiles (s : State) (w : Wave) (alt : List (Nat × Bool)) (miss : List Nat) :
    lasting (waveTiles s w alt miss) = lasting s := by simp [waveTiles]

/-! #### The engines -/

@[simp ↓] theorem lasting_ringHalt (s : State) (p e cls : Nat) : lasting (ringHalt s p e cls) = lasting s := by simp [ringHalt]

@[simp ↓] theorem lasting_maintRun (s : State) (opc : Nat) (k : Cmd → State) (hk : ∀ c, lasting (k c) = lasting s) :
    lasting (maintRun s opc k) = lasting s := by
  unfold maintRun
  split <;> simp [hk]

@[simp ↓] theorem lasting_closedTxn (s : State) (c : Cmd) (timed : Bool) : lasting (closedTxn s c timed) = lasting s := by
  unfold closedTxn
  split <;> simp

@[simp ↓] theorem lasting_takeCloser (s : State) (c : Cmd) (tag nmem : Nat) : lasting (takeCloser s c tag nmem) = lasting s := by simp [takeCloser]

@[simp ↓] theorem lasting_putRecord (old s : State) (c : Cmd) (bs : List Byte) (short : Option (Nat × Nat)) (ho : lasting old = lasting s) :
    lasting (putRecord old s c bs short) = lasting s := by
  unfold putRecord
  split
  · simp [ho]
  · next h =>
    split <;> simp [lasting_writeAt h]
  · next h => simp [lasting_writeAt h]

@[simp ↓] theorem lasting_waveFor (s : State) (c : Cmd) (t : WType) (rel : Bool) (arg : Nat) :
    lasting (waveFor s c t rel arg) = lasting s := by simp [waveFor]

/-! #### The incident ring -/

theorem lasting_incWrite {s s' : State} {seq : Nat} {i : Inc} (h : incWrite s seq i = some s') : lasting s' = lasting s := by
  unfold incWrite at h
  extract_lets r bs a next fin at h
  have hf (s : State) : lasting (fin s) = lasting s := by simp [fin]
  split at h
  · split at h
    · next h1 =>
      cases h
      exact (hf _).trans (lasting_modWrite h1)
    · cases h
  · cases h
    exact (hf _).trans (lasting_hostWrite ..)

@[simp ↓] theorem lasting_incFlush (s : State) (n : Nat) : lasting (incFlush s n) = lasting s := by
  induction n generalizing s with
  | zero => rfl
  | succ n ih =>
    unfold incFlush
    split
    · rfl
    · split
      · rfl
      · split
        · next h => simp [ih, lasting_incWrite h]
        · rfl

@[simp ↓] theorem lasting_incRingBad (s : State) : lasting (incRingBad s) = lasting s := by simp [incRingBad]
@[simp ↓] theorem lasting_incRingLost (s : State) (p : Nat) : lasting (incRingLost s p) = lasting s := by simp [incRingLost]
@[simp ↓] theorem lasting_incRingTell (s : State) (p : Nat) : lasting (incRingTell s p) = lasting s := by simp [incRingTell]

@[simp ↓] theorem lasting_incRingPlace (s : State) (at_ : MAddr) (size : Nat) :
    lasting (incRingPlace s at_ size) = lasting s := by simp [incRingPlace]

/-! #### The commands of the region engines -/

@[simp ↓] theorem lasting_regionRun (s : State) (r opc : Nat) (k : Cmd → Region → State) (hk : ∀ c g, lasting (k c g) = lasting s) :
    lasting (regionRun s r opc k) = lasting s := by
  unfold regionRun
  split <;> simp [hk]

@[simp ↓] theorem lasting_sendRect (s : State) (e unit skind fold t0 t1 soff : Nat) (data : List Byte) :
    lasting (sendRect s e unit skind fold t0 t1 soff data) = lasting s := by simp [sendRect]

@[simp ↓] theorem lasting_loadImage (s : State) (r : Nat) (c : Cmd) (bs : List Byte) : lasting (loadImage s r c bs) = lasting s := by
  unfold loadImage
  split <;> simp

@[simp ↓] theorem lasting_rectShort (s : State) (e : Nat) (c : Cmd) (got want : Nat) :
    lasting (rectShort s e c got want) = lasting s := by simp [rectShort]

/-! #### Replies -/

@[simp ↓] theorem lasting_snapReply (s : State) (t m : Nat) (o : Outc) : lasting (snapReply s t m o) = lasting s := by
  simp only [snapReply]
  split <;> simp

@[simp ↓] theorem lasting_traceRefused (s : State) (t c dst : Nat) (o : Outc) :
    lasting (traceRefused s t c dst o) = lasting s := by simp [traceRefused]

@[simp ↓] theorem lasting_unitReply (s : State) (t u : Nat) (p : Packet) (o : Outc) (kind ref : Nat) :
    lasting (unitReply s t u p o kind ref) = lasting s := by simp [unitReply]

@[simp ↓] theorem lasting_pdReply (s : State) (d sub : Nat) (o : Outc) : lasting (pdReply s d sub o) = lasting s := by simp [pdReply]

/-! #### The incident path at the CD -/

@[simp ↓] theorem lasting_fenceField (s : State) (f cause : Nat) : lasting (fenceField s f cause) = lasting s := by simp [fenceField]
@[simp ↓] theorem lasting_meshDown (s : State) (f : Nat) : lasting (meshDown s f) = lasting s := by simp [meshDown]

@[simp ↓] theorem lasting_restartRecov (s : State) (g t : Nat) : lasting (restartRecov s g t) = lasting s := by
  simp only [restartRecov]
  split <;> simp

@[simp ↓] theorem lasting_tileFailed (s : State) (t : Nat) : lasting (tileFailed s t) = lasting s := by
  simp only [tileFailed]
  repeat' split
  all_goals simp

@[simp ↓] theorem lasting_inPlace (s : State) (gs : List Nat) (tag : Nat) : lasting (inPlace s gs tag) = lasting s := by simp [inPlace]
@[simp ↓] theorem lasting_probeTiles (s : State) (cd md silent : List Nat) : lasting (probeTiles s cd md silent) = lasting s := by simp [probeTiles]
@[simp ↓] theorem lasting_traceReact (s : State) (i : Inc) : lasting (traceReact s i) = lasting s := by simp [traceReact]
@[simp ↓] theorem lasting_mantleReact (s : State) (i : Inc) : lasting (mantleReact s i) = lasting s := by simp [mantleReact]
@[simp ↓] theorem lasting_incKeep (s : State) (i : Inc) : lasting (incKeep s i) = lasting s := by simp [incKeep]
@[simp ↓] theorem lasting_incTake (s : State) (k : Nat) (i : Inc) (rest : List Inc) : lasting (incTake s k i rest).1 = lasting s := by simp [incTake]

@[simp ↓] theorem lasting_cdMemRead (s : State) : lasting (cdMemRead s) = lasting s := by
  unfold cdMemRead
  split <;> simp

/-! #### Resets of the module -/

@[simp ↓] theorem lasting_modBoot (s : State) (f : Boot → Boot) : lasting (modBoot s f) = lasting s := by simp [modBoot]
@[simp ↓] theorem lasting_modFw (s : State) (f : Fw → Fw) : lasting (modFw s f) = lasting s := by simp [modFw]
@[simp ↓] theorem lasting_modBank (s : State) (b : Nat) (f : Bank → Bank) : lasting (modBank s b f) = lasting s := by simp [modBank]
@[simp ↓] theorem lasting_bankSt (s : State) (b st : Nat) : lasting (bankSt s b st) = lasting s := by simp [bankSt]
@[simp ↓] theorem lasting_setMst (s : State) (m : Nat) : lasting (setMst s m) = lasting s := by simp [setMst]

/-! #### Start-up and the events that reset the module or switch it off -/

@[simp ↓] theorem lasting_nextPhase (s : State) : lasting (nextPhase s) = lasting s := by simp [nextPhase]
@[simp ↓] theorem lasting_resetReport (s : State) : lasting (resetReport s) = lasting s := by simp [resetReport]
@[simp ↓] theorem lasting_setSkip (s : State) (t p : Nat) : lasting (setSkip s t p) = lasting s := by simp [setSkip]
@[simp ↓] theorem lasting_applySkip (s : State) (w : Nat) : lasting (applySkip s w) = lasting s := by simp [applySkip]

@[simp ↓] theorem lasting_applyLink (s : State) (w : Nat) : lasting (applyLink s w) = lasting s := by
  unfold applyLink
  split <;> simp

@[simp ↓] theorem lasting_birthApply (s : State) : lasting (birthApply s) = lasting s := by simp [birthApply]

@[simp ↓] theorem lasting_foundTile (s : State) (f row p : Nat) : lasting (foundTile s f row p) = lasting s := by
  simp only [foundTile]
  split <;> simp

@[simp ↓] theorem lasting_foundLanes (s : State) (t port net grp : Nat) (bad : List Nat) :
    lasting (foundLanes s t port net grp bad).1 = lasting s := by
  simp only [foundLanes]
  repeat' split
  all_goals simp

@[simp ↓] theorem lasting_found (s : State) (x1 : Finding) : lasting (found s x1).1 = lasting s := by
  unfold found
  split <;> simp

@[simp ↓] theorem lasting_settingsApply (s : State) : lasting (settingsApply s) = lasting s := by simp [settingsApply]
@[simp ↓] theorem lasting_settingsBoot (s : State) : lasting (settingsBoot s) = lasting s := by simp [settingsBoot]
@[simp ↓] theorem lasting_bladeAlert (s : State) : lasting (bladeAlert s) = lasting s := by simp [bladeAlert]

/-! #### Satellites and their Brobry links -/

@[simp ↓] theorem lasting_fenceDie (s : State) (d : Nat) (more : List Chg) : lasting (fenceDie s d more).1 = lasting s := by simp [fenceDie]
@[simp ↓] theorem lasting_loseDie (s : State) (d : Nat) : lasting (loseDie s d) = lasting s := by simp [loseDie]
@[simp ↓] theorem lasting_answerGone (s : State) (d dst src : Nat) (b : Body) : lasting (answerGone s d dst src b) = lasting s := by simp [answerGone]

@[simp ↓] theorem lasting_pageGone (s : State) (m cmd i : Nat) : lasting (pageGone s m cmd i) = lasting s := by
  unfold pageGone
  split
  · rfl
  · split
    · rfl
    · simp only
      split
      · split
        · next h => simp [lasting_pageWrite h]
        · simp
      · simp

@[simp ↓] theorem lasting_reqGone (m : Nat) (acc : State × List Nat) (r : MsdReq) : lasting (reqGone m acc r).1 = lasting acc.1 := by
  unfold reqGone
  split <;> simp

@[simp ↓] theorem lasting_resetMsd (s : State) (m : Nat) : lasting (resetMsd s m) = lasting s := by simp [resetMsd]
@[simp ↓] theorem lasting_resetPd (s : State) (n : Nat) : lasting (resetPd s n) = lasting s := by simp [resetPd]

@[simp ↓] theorem lasting_returnDie (s : State) (d : Nat) : lasting (returnDie s d) = lasting s := by
  simp only [returnDie]
  split <;> simp

@[simp ↓] theorem lasting_modPorts (s : State) (d : Nat) (f : BbPort → BbPort) : lasting (modPorts s d f) = lasting s := by simp [modPorts]
@[simp ↓] theorem lasting_linkUp (s : State) (d : Nat) : lasting (linkUp s d) = lasting s := by simp [linkUp]

@[simp ↓] theorem lasting_replayFlits (s : State) (d p dir : Nat) (oks : List Bool) :
    lasting (replayFlits s d p dir oks) = lasting s := by simp [replayFlits]

@[simp ↓] theorem lasting_holdAttach (s : State) (d p : Nat) (on : Bool) : lasting (holdAttach s d p on) = lasting s := by simp [holdAttach]

@[simp ↓] theorem lasting_keyTake (s : State) (d slot : Nat) : lasting (keyTake s d slot) = lasting s := by
  simp only [keyTake]
  repeat' split
  all_goals simp

@[simp ↓] theorem lasting_sbFail (s : State) (d p : Nat) : lasting (sbFail s d p) = lasting s := by simp [sbFail]

/-! #### The host ports -/

@[simp ↓] theorem lasting_hostAns (s : State) (p : Nat) (a : HAns) : lasting (hostAns s p a) = lasting s := by simp [hostAns]

@[simp ↓] theorem lasting_hostRead (s : State) (p : Nat) (k : State) (hk : lasting k = lasting s) : lasting (hostRead s p k) = lasting s := by
  simp [hostRead, hk]

@[simp ↓] theorem lasting_hostWr (s : State) (p : Nat) (k : State) (hk : lasting k = lasting s) : lasting (hostWr s p k) = lasting s := by
  simp [hostWr, hk]

@[simp ↓] theorem lasting_semLapse (s : State) : lasting (semLapse s) = lasting s := by
  unfold semLapse
  split <;> simp

@[simp ↓] theorem lasting_semCheck (s : State) : lasting (semCheck s) = lasting s := by simp [semCheck]

@[simp ↓] theorem lasting_semTake (s : State) (p : Nat) : lasting (semTake s p) = lasting s := by
  unfold semTake
  split <;> simp

@[simp ↓] theorem lasting_semKey (s : State) (p : Nat) (v : W32) (k : State) (hk : lasting k = lasting s) : lasting (semKey s p v k) = lasting s := by
  simp [semKey, hk]

@[simp ↓] theorem lasting_releaseVec (s : State) (p v : Nat) : lasting (releaseVec s p v) = lasting s := by simp [releaseVec]
@[simp ↓] theorem lasting_releaseAll (s : State) (p : Nat) : lasting (releaseAll s p) = lasting s := by simp [releaseAll]

@[simp ↓] theorem lasting_timeNsRead (s : State) (p : Nat) (h : Half) : lasting (timeNsRead s p h) = lasting s := by
  refine lasting_hostRead _ _ _ ?_
  cases h <;> simp

@[simp ↓] theorem lasting_regWrite (s : State) (p : Nat) (w : RegW) : lasting (regWrite s p w) = lasting s := by
  unfold regWrite
  split <;> simp

@[simp ↓] theorem lasting_regAns (s : State) (v : Nat) : lasting (regAns s v) = lasting s := by simp [regAns]
@[simp ↓] theorem lasting_snfRead (s : State) (p : Nat) (h : Half) : lasting (snfRead s p h) = lasting s := by simp [snfRead]
@[simp ↓] theorem lasting_semStatRead (s : State) (p : Nat) (h : Half) : lasting (semStatRead s p h) = lasting s := by simp [semStatRead]
@[simp ↓] theorem lasting_mbhRead (s : State) (p : Nat) (h : Half) : lasting (mbhRead s p h) = lasting s := by simp [mbhRead]
@[simp ↓] theorem lasting_mbmRead (s : State) (p : Nat) (h : Half) : lasting (mbmRead s p h) = lasting s := by simp [mbmRead]
@[simp ↓] theorem lasting_bar0Read (s : State) (p k : Nat) (h : Half) : lasting (bar0Read s p k h) = lasting s := by simp [bar0Read]

@[simp ↓] theorem lasting_rcRead (s : State) (r : RegRc) : lasting (rcRead s r) = lasting s := by
  unfold rcRead
  split <;> simp

@[simp ↓] theorem lasting_failPages (s : State) (p : Nat) : lasting (failPages s p) = lasting s := by simp [failPages]
@[simp ↓] theorem lasting_portReset (s : State) (p : Nat) : lasting (portReset s p) = lasting s := by simp [portReset]
@[simp ↓] theorem lasting_linkLost (s : State) (p : Nat) (perst : Bool) : lasting (linkLost s p perst) = lasting s := by simp [linkLost]

/-! #### The firmware services of the mailboxes -/

@[simp ↓] theorem lasting_commitFence (s : State) (c : MbCmd) (d on : Nat) : lasting (commitFence s c d on) = lasting s := by simp [commitFence]
@[simp ↓] theorem lasting_snapEvery (s : State) (v : Nat) : lasting (snapEvery s v) = lasting s := by simp [snapEvery]
@[simp ↓] theorem lasting_putRecordFw (s : State) (r : List W64) : lasting (putRecordFw s r) = lasting s := by simp [putRecordFw]

@[simp ↓] theorem lasting_persist (s : State) (on flash : Bool) (f : List W64 → List W64) :
    lasting (persist s on flash f).1 = lasting s := by simp [persist]

@[simp ↓] theorem lasting_adopt (s : State) (r : List W64) : lasting (adopt s r) = lasting s := by simp [adopt]

/-! #### Operating points, PLLs, Taper and droop -/

@[simp ↓] theorem lasting_startChange (s : State) (f tgt : Nat) : lasting (startChange s f tgt) = lasting s := by simp [startChange]
@[simp ↓] theorem lasting_startTaper (s : State) (f : Nat) : lasting (startTaper s f) = lasting s := by simp [startTaper]
@[simp ↓] theorem lasting_fieldLost (s : State) (f : Nat) : lasting (fieldLost s f) = lasting s := by simp [fieldLost]
@[simp ↓] theorem lasting_setLock (s : State) (v : Bool) : lasting (setLock s v) = lasting s := by simp [setLock]
@[simp ↓] theorem lasting_lockCount (s : State) (o : Int) : lasting (lockCount s o) = lasting s := by simp [lockCount]

@[simp ↓] theorem lasting_stepTime (s : State) (o : Int) : lasting (stepTime s o) = lasting s := by
  unfold stepTime
  simp

@[simp ↓] theorem lasting_slewTime (s : State) (o : Int) : lasting (slewTime s o) = lasting s := by simp [slewTime]
@[simp ↓] theorem lasting_applyOffset (s : State) (k : Nat) (o : Int) : lasting (applyOffset s k o) = lasting s := by simp [applyOffset]
@[simp ↓] theorem lasting_measure (s : State) (k : Nat) (o : Int) : lasting (measure s k o) = lasting s := by simp [measure]

/-! #### The power cap -/

@[simp ↓] theorem lasting_modPower (s : State) (f : Power → Power) : lasting (modPower s f) = lasting s := by simp [modPower]
@[simp ↓] theorem lasting_halve (s : State) (p : FieldSt → Bool) : lasting (halve s p) = lasting s := by simp [halve]

@[simp ↓] theorem lasting_overLong (s : State) : lasting (overLong s) = lasting s := by
  simp only [overLong]
  repeat' split
  all_goals simp

@[simp ↓] theorem lasting_setBudgets (s : State) (b : Nat × Nat) : lasting (setBudgets s b) = lasting s := by simp [setBudgets]

@[simp ↓] theorem lasting_lowerFields (s : State) (e : PowerEst) (scal : Nat) : lasting (lowerFields s e scal) = lasting s := by
  refine lasting_foldl _ _ _ fun s f => ?_
  simp only
  split
  · rfl
  · split <;> simp

@[simp ↓] theorem lasting_dropFields (s : State) (e : PowerEst) (scal : Nat) : lasting (dropFields s e scal) = lasting s := by
  refine lasting_foldl _ _ _ fun s f => ?_
  simp only
  split
  · rfl
  · split
    · simp
    · split
      · split <;> simp
      · rfl

@[simp ↓] theorem lasting_raiseFields (s : State) (e : PowerEst) (scal : Nat) : lasting (raiseFields s e scal) = lasting s := by
  refine lasting_foldl _ _ _ fun s f => ?_
  simp only
  split
  · rfl
  · split <;> simp

@[simp ↓] theorem lasting_grantFields (s : State) (e : PowerEst) (scal : Nat) : lasting (grantFields s e scal) = lasting s := by simp [grantFields]

/-! #### Thermal control -/

@[simp ↓] theorem lasting_holdRegion (s : State) (r : Nat) : lasting (holdRegion s r) = lasting s := by simp [holdRegion]
@[simp ↓] theorem lasting_holdField (s : State) (f : Nat) : lasting (holdField s f) = lasting s := by simp [holdField]
@[simp ↓] theorem lasting_heatOff (s : State) (f : Nat) : lasting (heatOff s f) = lasting s := by simp [heatOff]
@[simp ↓] theorem lasting_clearHot (s : State) (f : Nat) : lasting (clearHot s f) = lasting s := by simp [clearHot]

@[simp ↓] theorem lasting_fieldStep (s : State) (f k : Nat) : lasting (fieldStep s f k) = lasting s := by
  unfold fieldStep
  split <;> simp

@[simp ↓] theorem lasting_heatLower (s : State) (f : Nat) : lasting (heatLower s f) = lasting s := by
  simp only [heatLower]
  repeat' split
  all_goals simp

/-! #### Pilot -/

@[simp ↓] theorem lasting_clocksOff (s : State) : lasting (clocksOff s) = lasting s := by simp [clocksOff]
@[simp ↓] theorem lasting_retention (s : State) : lasting (retention s) = lasting s := by simp [retention]
@[simp ↓] theorem lasting_wakeField (s : State) (bad : List Nat) (f : Nat) : lasting (wakeField s bad f) = lasting s := by simp [wakeField]
@[simp ↓] theorem lasting_wakeLamp (s : State) (bad : List Nat) : lasting (wakeLamp s bad) = lasting s := by simp [wakeLamp]
@[simp ↓] theorem lasting_wakeMsd (s : State) (m : Nat) : lasting (wakeMsd s m) = lasting s := by simp [wakeMsd]

/-! #### The service connector -/

@[simp ↓] theorem lasting_tapSet (s : State) (d ir : Nat) (dr : List Bool) : lasting (tapSet s d ir dr) = lasting s := by simp [tapSet]

@[simp ↓] theorem lasting_tapDo (s : State) (d ir : Nat) (ok : Bool) (k : State) (hk : lasting k = lasting s) :
    lasting (tapDo s d ir ok k) = lasting s := by
  simp [tapDo, hk]

@[simp ↓] theorem lasting_inTest (s : State) (d p : Nat) (f : BbPort → BbPort) : lasting (inTest s d p f) = lasting s := by simp [inTest]

@[simp ↓] theorem lasting_smbRead (s : State) (cmd : Nat) (block : Bool) (bs : List Byte) :
    lasting (smbRead s cmd block bs) = lasting s := by simp [smbRead]

end Sys2Proof.Machine
end

section
/-!
PROOFS. The operations that move time or the Island, and the one way in which they do: time goes on, and the fuses and counts only rise.
-/
namespace Sys2Proof.Machine
open Sys2Proof

/-! ### How the lasting parts may change -/

/-- From `a` to `b` no fuse is unblown and no count falls; the raises stay within the 256 the fuses hold (Table 19.6). -/
structure Island.Rises (a b : Island) : Prop where
  minsvn : a.minsvn ≤ b.minsvn
  revoked : ∀ k, bit a.revoked k = true → bit b.revoked k = true
  boots : a.boots ≤ b.boots
  aseq : a.aseq ≤ b.aseq
  raises : a.raises ≤ 256 → b.raises ≤ 256

/-- From `a` to `b` nothing that lasts is lost and time does not go back. -/
structure Lasting.le (a b : Lasting) : Prop where
  pending : b.pending = a.pending
  part : b.part = a.part
  island : a.island.Rises b.island
  ticks : a.ticks ≤ b.ticks

/-- If the outcome `o` is a next state, that state is as `Lasting.le` allows after `s`. -/
def Keeps (s : State) (o : Out) : Prop := ∀ u, o = .next u → (lasting s).le (lasting u)

theorem Island.Rises.trans {a b c : Island} (h : a.Rises b) (k : b.Rises c) : a.Rises c :=
  ⟨h.minsvn.trans k.minsvn, fun i hi => k.revoked i (h.revoked i hi), h.boots.trans k.boots, h.aseq.trans k.aseq,
    fun hr => k.raises (h.raises hr)⟩

/-- An update of the Island that leaves the fuses as they are, and the two counts no lower. -/
@[simp] theorem Island.rises_with (x : Island) (err slots acks unlocked fails chal drbg tcount boots audit aseq)
    (hb : x.boots ≤ boots) (ha : x.aseq ≤ aseq) :
    x.Rises ⟨err, slots, acks, x.revoked, x.minsvn, x.raises, unlocked, fails, chal, drbg, tcount, boots, audit, aseq⟩ :=
  ⟨le_rfl, fun _ h => h, hb, ha, id⟩

@[simp] theorem Lasting.le_refl (l : Lasting) : l.le l := ⟨rfl, rfl, ⟨le_rfl, fun _ h => h, le_rfl, le_rfl, id⟩, le_rfl⟩

theorem Lasting.le.trans {a b c : Lasting} (h : a.le b) (k : b.le c) : a.le c :=
  ⟨k.pending.trans h.pending, k.part.trans h.part, h.island.trans k.island, h.ticks.trans k.ticks⟩

@[simp ↓] theorem keeps_next (s u : State) : Keeps s (.next u) ↔ (lasting s).le (lasting u) :=
  ⟨fun h => h u rfl, fun h v hv => by cases hv; exact h⟩

@[simp ↓] theorem keeps_ite (s : State) (c : Prop) [Decidable c] (a b : Out) :
    Keeps s (if c then a else b) ↔ (c → Keeps s a) ∧ (¬c → Keeps s b) := by
  split <;> simp [*]

theorem keeps_else {s : State} {c : Prop} [Decidable c] {a b : Out} (ha : Keeps s a) (hb : Keeps s b) : Keeps s (if c then a else b) :=
  (keeps_ite s c a b).2 ⟨fun _ => ha, fun _ => hb⟩

section
variable {l : Lasting} {s : State}

@[simp ↓] theorem le_lasting_ite (c : Prop) [Decidable c] (a b : State) :
    l.le (lasting (if c then a else b)) ↔ (c → l.le (lasting a)) ∧ (¬c → l.le (lasting b)) := by
  split <;> simp [*]

@[simp] theorem le_ite (c : Prop) [Decidable c] (a b : Lasting) : l.le (if c then a else b) ↔ (c → l.le a) ∧ (¬c → l.le b) := by
  split <;> simp [*]

theorem le_foldl {α : Type} {f : State → α → State} (hf : ∀ s x, l.le (lasting s) → l.le (lasting (f s x))) (xs : List α)
    (h : l.le (lasting s)) : l.le (lasting (xs.foldl f s)) :=
  List.foldlRecOn (motive := fun u => l.le (lasting u)) xs f h fun u hu x _ => hf u x hu

/-! ### Time passes -/

@[simp ↓] theorem le_advance (n : Nat) (h : l.le (lasting s)) : l.le (lasting (advance s n)) :=
  h.trans ⟨rfl, rfl, ⟨le_rfl, fun _ h => h, le_rfl, le_rfl, id⟩, Nat.le_add_right _ n⟩

@[simp ↓] theorem le_reachCycle (t c : Nat) (h : l.le (lasting s)) : l.le (lasting (reachCycle s t c)) := le_advance _ h
@[simp ↓] theorem le_reachPs (ps : Nat) (h : l.le (lasting s)) : l.le (lasting (reachPs s ps)) := le_advance _ h
@[simp ↓] theorem le_reachNs (ns : Nat) (h : l.le (lasting s)) : l.le (lasting (reachNs s ns)) := le_advance _ h

@[simp ↓] theorem le_heatTimeout (r : Nat) (h : l.le (lasting s)) : l.le (lasting (heatTimeout s r)) := by
  simp [heatTimeout, h]

@[simp ↓] theorem le_drainTimeout (r : Nat) (c : Cmd) (since : Nat) (h : l.le (lasting s)) : l.le (lasting (drainTimeout s r c since)) := by
  simp [drainTimeout, h]

@[simp ↓] theorem le_drainEnds (r : Nat) (h : l.le (lasting s)) : l.le (lasting (drainEnds s r)) := by
  unfold drainEnds
  split
  · simpa using h
  · next since c _ => cases c <;> simp [h]

@[simp ↓] theorem le_sendWave (w : Wave) (h : l.le (lasting s)) : l.le (lasting (sendWave s w)) := by
  simp only [sendWave, lasting_with]
  split <;> simp [h]

@[simp ↓] theorem le_takeWave (t : WType) (alt : List (TileId × Bool)) (miss quiet : List TileId) (late : List (Fin 32))
    (f : State → Wave → State) (h : l.le (lasting s)) (hf : ∀ s w, lasting (f s w) = lasting s) : l.le (lasting (takeWave s t alt miss quiet late f)) := by
  unfold takeWave
  split
  · exact h
  · simp only [lasting_ite, lasting_waveDone, lasting_with, ite_self, hf, lasting_waveTiles]
    exact le_reachPs _ h

/-! ### The Security Island -/

@[simp ↓] theorem le_modIsland (f : Island → Island) (hf : s.island.Rises (f s.island)) (h : l.le (lasting s)) : l.le (lasting (modIsland s f)) :=
  h.trans ⟨rfl, rfl, hf, le_rfl⟩

@[simp ↓] theorem le_auditAdd (evt src data : Nat) (h : l.le (lasting s)) : l.le (lasting (auditAdd s evt src data)) := by
  simp [auditAdd, h]

@[simp ↓] theorem le_dropSlots (mask : Nat) (h : l.le (lasting s)) : l.le (lasting (dropSlots s mask)) := by
  exact le_modIsland (fun x => { x with slots := x.slots.filter fun e => !bit mask e.1 }) (by simp) h

@[simp ↓] theorem le_clearSlots (mask cause src : Nat) (h : l.le (lasting s)) : l.le (lasting (clearSlots s mask cause src)) := by
  simp [clearSlots, h]

@[simp ↓] theorem le_islandError (test : Nat) (h : l.le (lasting s)) : l.le (lasting (islandError s test)) := by
  unfold islandError
  split
  · exact h
  · refine le_auditAdd _ _ _ ?_
    rw [lasting_raiseInc]
    exact le_clearSlots _ _ _ (le_modIsland _ (by simp) h)

@[simp ↓] theorem le_drawn (h : l.le (lasting s)) : l.le (lasting (drawn s)) := by
  simp [drawn, h]

@[simp ↓] theorem le_importRefused (c : MbCmd) (slot st : Nat) (h : l.le (lasting s)) : l.le (lasting (importRefused s c slot st)) := by
  simp [importRefused, h]

@[simp ↓] theorem le_keyAck (slot : Option Nat) (d : Nat) (h : l.le (lasting s)) : l.le (lasting (keyAck s slot d)) := by
  unfold keyAck
  split
  · exact h
  · simp only
    split
    · exact h
    · split
      · split <;> simp [h]
      · simp [h]

/-! ### Resets -/

@[simp ↓] theorem le_fallBack (cause : Nat) (h : l.le (lasting s)) : l.le (lasting (fallBack s cause)) := by
  simp [fallBack, h]

@[simp ↓] theorem le_cleared (h : l.le (lasting s)) : l.le (lasting (cleared s)) :=
  h.trans ⟨rfl, rfl, Island.rises_with s.island _ _ _ _ _ _ _ _ _ _ _ (Nat.le_succ _) le_rfl, le_rfl⟩

@[simp ↓] theorem le_moduleReset (lrst : Nat) (h : l.le (lasting s)) : l.le (lasting (moduleReset s lrst)) := by
  simp [moduleReset, h]

@[simp ↓] theorem le_switchOff (why : Nat) (h : l.le (lasting s)) : l.le (lasting (switchOff s why)) := by
  simp [switchOff, h]

@[simp ↓] theorem le_startUp (lrst : Nat) (h : l.le (lasting s)) : l.le (lasting (startUp s lrst)) := by
  simp [startUp, h]

@[simp ↓] theorem le_tryStart (h : l.le (lasting s)) : l.le (lasting (tryStart s)) := by
  simp [tryStart, h]

@[simp ↓] theorem le_heatShutdown (ix : Nat) (h : l.le (lasting s)) : l.le (lasting (heatShutdown s ix)) := by
  simp [heatShutdown, h]

@[simp ↓] theorem le_readField (f : Nat) (t : Int) (sensor : Nat) (h : l.le (lasting s)) : l.le (lasting (readField s f t sensor)) := by
  simp [readField, h]

@[simp ↓] theorem le_readDie (d : Nat) (t : Int) (h : l.le (lasting s)) : l.le (lasting (readDie s d t)) := by
  simp [readDie, h]

/-! ### Firmware -/

@[simp ↓] theorem le_raiseSvn (h : l.le (lasting s)) : l.le (lasting (raiseSvn s)) := by
  simp only [raiseSvn]
  split
  · exact h
  · next a rest _ =>
    split
    · exact h
    · next hv =>
      simp only [ge_iff_le, Bool.or_eq_true, decide_eq_true_eq, not_or, not_le] at hv
      exact le_auditAdd _ _ _ ((lasting_raiseInc ..).symm ▸ le_modIsland _ ⟨hv.1.le, fun _ h => h, le_rfl, le_rfl, fun _ => hv.2⟩ h)

@[simp ↓] theorem le_confirmTry (h : l.le (lasting s)) : l.le (lasting (confirmTry s)) := by
  simp only [confirmTry]
  split
  · refine le_raiseSvn (le_auditAdd _ _ _ ?_)
    simpa using h
  · exact h

@[simp ↓] theorem le_haltWith (cause det : Nat) (h : l.le (lasting s)) : l.le (lasting (haltWith s cause det)) := by
  simp [haltWith, h]

@[simp ↓] theorem le_bootBank (b : Nat) (h : l.le (lasting s)) : l.le (lasting (bootBank s b)) := by
  simp [bootBank, h]

@[simp ↓] theorem le_chooseBank (sigA sigB : Bool) (h : l.le (lasting s)) : l.le (lasting (chooseBank s sigA sigB)) := by
  simp [chooseBank, h]

@[simp ↓] theorem le_phaseBoot (sigA sigB : Bool) (kat : Nat) (h : l.le (lasting s)) : l.le (lasting (phaseBoot s sigA sigB kat)) := by
  simp [phaseBoot, h]

@[simp ↓] theorem le_phaseTested (xs : List Finding) (h : l.le (lasting s)) : l.le (lasting (phaseTested s xs)) := by
  unfold phaseTested
  extract_lets r s1 lost s2 field s3
  have hr : lasting r.1 = lasting s := by
    refine lasting_foldl_fst _ _ _ fun p x => ?_
    split <;> simp
  rw [← hr] at h
  split
  · exact le_haltWith _ _ h
  · simpa [s3, s2, s1] using h

@[simp ↓] theorem le_readyReport (h : l.le (lasting s)) : l.le (lasting (readyReport s)) := by
  unfold readyReport
  extract_lets s1 s2 src mask d s3 s4
  have h2 : l.le (lasting s2) := by
    unfold s2
    split <;> simp [s1, h]
  have h3 : l.le (lasting s3) := le_modIsland _ (by simp) (by simpa using h2)
  have h4 : l.le (lasting s4) := by simp [s4, h3]
  split
  · simp [h4]
  · exact h2

@[simp ↓] theorem le_phaseReady (h : l.le (lasting s)) : l.le (lasting (phaseReady s)) := by
  refine le_confirmTry (le_raiseSvn (le_readyReport ?_))
  simpa using h

@[simp ↓] theorem le_phaseFailed (obj : Nat) (h : l.le (lasting s)) : l.le (lasting (phaseFailed s obj)) := by
  simp [phaseFailed, h]

@[simp ↓] theorem le_trainFail (d : Nat) (h : l.le (lasting s)) : l.le (lasting (trainFail s d)) := by
  simp [trainFail, h]

@[simp ↓] theorem le_frameEffect (d p dir typ sub : Nat) (body : List Byte) (h : l.le (lasting s)) :
    l.le (lasting (frameEffect s d p dir typ sub body)) := by
  unfold frameEffect
  split <;> simp [h]

@[simp ↓] theorem le_sbFrame (d p dir typ sub : Nat) (body : List Byte) (ok : Bool) (h : l.le (lasting s)) :
    l.le (lasting (sbFrame s d p dir typ sub body ok)) := by
  simp [sbFrame, h]

@[simp ↓] theorem le_mailRun (opc : Nat) (k : MbCmd → State) (h : l.le (lasting s)) (hk : ∀ c, l.le (lasting (k c))) :
    l.le (lasting (mailRun s opc k)) := by
  unfold mailRun
  split <;> simp [h, hk]

@[simp ↓] theorem le_secRun (opc : Nat) (k : MbCmd → State) (h : l.le (lasting s)) (hk : ∀ c, l.le (lasting (k c))) :
    l.le (lasting (secRun s opc k)) := by
  simp [secRun, h, hk]
end

end Sys2Proof.Machine
end

section
/-!
PROOFS. What each command keeps (`Keeps`), one lemma for each meaning, in the order of their definitions.
-/
namespace Sys2Proof.Machine
open Sys2Proof

/-! #### The commands of the CUs -/

theorem keeps_execCuContextStart (t : TileId) (k : CuIx) (s : State) : Keeps s (execCuContextStart t k s) := by
  simp [execCuContextStart]

theorem keeps_execMicroOpIssue (t : TileId) (k : CuIx) (s : State) : Keeps s (execMicroOpIssue t k s) := by
  simp only [execMicroOpIssue]
  repeat' split
  all_goals simp

theorem keeps_execMatmul (t : TileId) (k : CuIx) (fl : MatFault) (ep : EPlace) (s : State) : Keeps s (execMatmul t k fl ep s) := by
  simp only [execMatmul]
  split <;> simp

theorem keeps_execVector (t : TileId) (k : CuIx) (shadow : List Nat) (ep : EPlace) (s : State) : Keeps s (execVector t k shadow ep s) := by
  simp only [execVector]
  split <;> simp

theorem keeps_execLoadw (t : TileId) (k : CuIx) (s : State) : Keeps s (execLoadw t k s) := by
  simp only [execLoadw]
  split <;> simp

theorem keeps_execLoadx (t : TileId) (k : CuIx) (s : State) : Keeps s (execLoadx t k s) := by
  simp only [execLoadx]
  split <;> simp

theorem keeps_execUopHalt (t : TileId) (k : CuIx) (s : State) : Keeps s (execUopHalt t k s) := by
  simp only [execUopHalt]
  split <;> simp

theorem keeps_execSteeringFire (t : TileId) (k : CuIx) (shadow : List Nat) (ep : EPlace) (s : State) :
    Keeps s (execSteeringFire t k shadow ep s) := by
  unfold execSteeringFire
  extract_lets c u f
  split
  · simp
  · extract_lets w v0 x cq s1
    refine keeps_else (by simp) (keeps_else (by simp) (keeps_else (by simp) ?_))
    split
    · simp
    · extract_lets dq s2 sh s3 drop ostr
      refine keeps_else (by simp) ?_
      split
      · simp
      · refine keeps_else (by simp) ?_
        have h1 : lasting s1 = lasting s := by
          unfold s1
          split
          · next h => exact lasting_takeTok h
          · rfl
        have h2 : lasting s2 = lasting s := by
          unfold s2
          split
          · next h => exact (lasting_takeTok h).trans h1
          · rfl
        have h3 : lasting s3 = lasting s := (lasting_shadowRow ..).trans h2
        clear_value s3
        extract_lets dt r
        have hr {p : State × URun} (h : r = some p) : lasting p.1 = lasting s := by
          unfold r at h
          split at h
          · cases h
            simpa using h3
          · exact (lasting_sendSteered h).trans h3
        clear_value r
        split
        · simp
        · simp [hr rfl]

theorem keeps_execOutputTokenSend (t : TileId) (u : Fin 6) (s : State) : Keeps s (execOutputTokenSend t u s) := by
  simp only [execOutputTokenSend]
  split <;> simp

/-! #### The commands of the MUs -/

theorem keeps_execGeneratorStart (t : TileId) (m : MuIx) (p : Fin 8) (cu : Option CuIx) (s : State) : Keeps s (execGeneratorStart t m p cu s) := by
  simp only [execGeneratorStart]
  refine keeps_else (by simp) ?_
  split
  · split
    · simp
    · refine keeps_else (by simp) ?_
      split
      · simp
      · refine keeps_else ?_ (by simp)
        split <;> simp
  · split
    · simp
    · refine keeps_else (by simp) ?_
      split
      · simp
      · rw [keeps_next, lasting_setGen, lasting_modMu, lasting_ite]
        split
        · split
          · next h => simp [lasting_takeTok h]
          · simp
        · simp

theorem keeps_execAffineBeat (t : TileId) (m : MuIx) (g : Fin 2) (s : State) : Keeps s (execAffineBeat t m g s) := by
  unfold execAffineBeat
  split
  · simp
  · extract_lets n a go u y r
    have hgo (s : State) (x : Gen) : lasting (go s x) = lasting s := by
      unfold go
      split <;> simp
    have hu : lasting u = lasting s := by simp [u]
    split
    · split
      · simp [hu]
      · next h => simp [hgo, lasting_popBytes h, hu]
    · simp [r, hgo, hu]

theorem keeps_execIndirectAccess (t : TileId) (m : MuIx) (g : Fin 2) (s : State) : Keeps s (execIndirectAccess t m g s) := by
  unfold execIndirectAccess
  split
  · simp
  · refine keeps_else (by simp) ?_
    split
    · simp
    · next h => simp [lasting_nextIndex h]
    · next h => simp [lasting_nextIndex h]
    · next h =>
      extract_lets iop n a tag paired s2 n0 u y r
      have hu : lasting u = lasting s := by simp [u, s2, lasting_nextIndex h]
      have hr : lasting r.2.2 = lasting s := (lasting_genRead ..).trans hu
      clear_value tag u r
      split
      · refine keeps_else (by simp [hu]) ?_
        split <;> simp [hu, hr]
      · split
        · split
          · simp
          · next hp => simp [lasting_popBytes hp, hu]
        · split
          · simp
          · next hp => simp [lasting_nextAddend hp, hu]

theorem keeps_execGatherPiece (t : TileId) (m : MuIx) (g : Fin 2) (s : State) : Keeps s (execGatherPiece t m g s) := by
  unfold execGatherPiece
  split
  · simp
  · next x _ =>
    extract_lets w0 inv act s1 skipped s2 nw pw col mu a dead s3 y r out cols s4 as extra s5 lastJ
    have h1 : lasting s1 = lasting s := by simp [s1]
    have h2 : lasting s2 = lasting s := by simp [s2]
    have h3 : lasting s3 = lasting s := by simp [s3]
    have hr : lasting r.2.2 = lasting s := by
      unfold r
      split
      · exact h3
      · split
        · exact h3
        · exact (lasting_muRead ..).trans h3
    have h4 : lasting s4 = lasting s := by simp [s4, hr]
    have h5 : lasting s5 = lasting s := by
      unfold s5
      split <;> simp [h4]
    refine keeps_else (by simp) (keeps_else (by simp) (keeps_else ?_ (by simp [h2, hr, h5])))
    split
    · simp [h1]
    · next h => simp [lasting_takeTok h, h1]

theorem keeps_execTreeWalkNode (t : TileId) (m : MuIx) (g : Fin 2) (s : State) : Keeps s (execTreeWalkNode t m g s) := by
  simp only [execTreeWalkNode]
  split
  · simp
  · refine keeps_else (by simp) (keeps_else ?_ (by simp))
    split
    · simp
    · next h => simp [lasting_takeTok h]

theorem keeps_execRingProduce (t : TileId) (m : MuIx) (p : Fin 8) (s : State) : Keeps s (execRingProduce t m p s) := by
  simp only [execRingProduce]
  split
  · simp
  · split
    · simp
    · next h =>
      refine keeps_else (by simp [lasting_takeTok h]) ?_
      split
      · simp [lasting_takeTok h]
      · next hr => simp [lasting_ringAdd hr, lasting_takeTok h]

theorem keeps_execRingConsume (t : TileId) (m : MuIx) (p : Fin 8) (s : State) : Keeps s (execRingConsume t m p s) := by
  simp only [execRingConsume]
  refine keeps_else (by simp) (keeps_else (by simp) ?_)
  split
  · simp
  · split
    · simp
    · next h =>
      obtain ⟨-, h⟩ := Option.ite_none_right_eq_some.1 h
      simp [lasting_ringFetch h]

theorem keeps_execCopyOutGranule (t : TileId) (m : MuIx) (s : State) : Keeps s (execCopyOutGranule t m s) := by
  simp only [execCopyOutGranule]
  repeat' split
  all_goals simp

theorem keeps_execSnapshotShadowWait (t : TileId) (m : MuIx) (g : Fin 4096) (s : State) : Keeps s (execSnapshotShadowWait t m g s) := by
  simp [execSnapshotShadowWait]

theorem keeps_execShadowFoldBack (t : TileId) (m : MuIx) (s : State) : Keeps s (execShadowFoldBack t m s) := by
  simp only [execShadowFoldBack]
  repeat' split
  all_goals simp

theorem keeps_execSramScrub (t : TileId) (u : ScrubAt) (s : State) : Keeps s (execSramScrub t u s) := by
  simp only [execSramScrub]
  repeat' split
  all_goals simp

theorem keeps_execMaskDeadline (t : TileId) (k : CuIx) (s : State) : Keeps s (execMaskDeadline t k s) := by
  simp only [execMaskDeadline]
  repeat' split
  all_goals simp

/-! #### The ordinary groups of WK32 -/

theorem keeps_execIntegerAlu (t : TileId) (c : CoreIx) (ins : AluIns) (s : State) : Keeps s (execIntegerAlu t c ins s) := by
  simp [execIntegerAlu]

theorem keeps_execMultiplyDivide (t : TileId) (c : CoreIx) (o : MulOp) (gd gs1 gs2 : GReg) (s : State) :
    Keeps s (execMultiplyDivide t c o gd gs1 gs2 s) := by
  simp [execMultiplyDivide]

theorem keeps_execScalarFloatingPoint (t : TileId) (c : CoreIx) (ins : FpIns) (s : State) : Keeps s (execScalarFloatingPoint t c ins s) := by
  simp [execScalarFloatingPoint]

theorem keeps_execPackedSimd (t : TileId) (c : CoreIx) (ins : SimdIns) (s : State) : Keeps s (execPackedSimd t c ins s) := by
  simp [execPackedSimd]

theorem keeps_execBitManipulation (t : TileId) (c : CoreIx) (ins : BitIns) (s : State) : Keeps s (execBitManipulation t c ins s) := by
  simp [execBitManipulation]

theorem keeps_execCrc32c (t : TileId) (c : CoreIx) (gd gs1 gs2 : GReg) (wd : BitVec 2) (s : State) : Keeps s (execCrc32c t c gd gs1 gs2 wd s) := by
  simp [execCrc32c]

theorem keeps_execHmix (t : TileId) (c : CoreIx) (gd gs1 gs2 : GReg) (s : State) : Keeps s (execHmix t c gd gs1 gs2 s) := by
  simp [execHmix]

theorem keeps_execHfold (t : TileId) (c : CoreIx) (gd gs1 gs2 : GReg) (s : State) : Keeps s (execHfold t c gd gs1 gs2 s) := by
  simp [execHfold]

/-! #### Memory accesses of the Wick cores -/

theorem keeps_execLoadStore (t : TileId) (c : CoreIx) (o : LsOp) (gd gs1 : GReg) (imm : BitVec 16) (s : State) :
    Keeps s (execLoadStore t c o gd gs1 imm s) := by
  simp [execLoadStore]

theorem keeps_execOwnTileLoadData (t : TileId) (c : CoreIx) (s : State) : Keeps s (execOwnTileLoadData t c s) := by
  simp only [execOwnTileLoadData]
  split <;> simp

theorem keeps_execBranchJump (t : TileId) (c : CoreIx) (ins : CtlIns) (s : State) : Keeps s (execBranchJump t c ins s) := by
  simp [execBranchJump]

theorem keeps_execLdr (t : TileId) (c : CoreIx) (gd gs1 gs2 : GReg) (s : State) : Keeps s (execLdr t c gd gs1 gs2 s) := by
  simp [execLdr]

theorem keeps_execStr (t : TileId) (c : CoreIx) (gd gs1 gs2 : GReg) (s : State) : Keeps s (execStr t c gd gs1 gs2 s) := by
  simp [execStr]

theorem keeps_execRemoteAccessTimeout (t : TileId) (c : CoreIx) (tag : Fin 4) (s : State) : Keeps s (execRemoteAccessTimeout t c tag s) := by
  unfold execRemoteAccessTimeout
  split <;> simp

theorem keeps_execRrsp (pid : Nat) (s : State) : Keeps s (execRrsp pid s) := by
  simp only [execRrsp]
  repeat' split
  all_goals simp

theorem keeps_execRacc (pid : Nat) (s : State) : Keeps s (execRacc pid s) := by
  simp only [execRacc]
  repeat' split
  all_goals simp

/-! #### Queue and messaging instructions of the Wick cores and the arrivals that answer them -/

theorem keeps_execPop (t : TileId) (c : CoreIx) (gd : GReg) (q : QIx) (s : State) : Keeps s (execPop t c gd q s) := by
  simp [execPop]

theorem keeps_execPopl (t : TileId) (c : CoreIx) (gd : GReg) (q : QIx) (s : State) : Keeps s (execPopl t c gd q s) := by
  simp [execPopl]

theorem keeps_execPeek (t : TileId) (c : CoreIx) (gd : GReg) (q : QIx) (s : State) : Keeps s (execPeek t c gd q s) := by
  simp [execPeek]

theorem keeps_execQcnt (t : TileId) (c : CoreIx) (gd : GReg) (q : QIx) (s : State) : Keeps s (execQcnt t c gd q s) := by
  simp [execQcnt]

theorem keeps_execQdrop (t : TileId) (c : CoreIx) (gd : GReg) (q : QIx) (s : State) : Keeps s (execQdrop t c gd q s) := by
  simp [execQdrop]

theorem keeps_execSend (t : TileId) (c : CoreIx) (gd gs1 gs2 : GReg) (n : Fin 4) (s : State) : Keeps s (execSend t c gd gs1 gs2 n s) := by
  simp [execSend]

theorem keeps_execSendb (t : TileId) (c : CoreIx) (gd gs1 gs2 : GReg) (n : Fin 4) (s : State) : Keeps s (execSendb t c gd gs1 gs2 n s) := by
  simp [execSendb]

theorem keeps_execDsend (t : TileId) (c : CoreIx) (gd gs1 gs2 : GReg) (s : State) : Keeps s (execDsend t c gd gs1 gs2 s) := by
  simp [execDsend]

theorem keeps_execTkwt (t : TileId) (c : CoreIx) (gd gs1 : GReg) (s : State) : Keeps s (execTkwt t c gd gs1 s) := by
  simp [execTkwt]

theorem keeps_execTkst (t : TileId) (c : CoreIx) (gd gs1 : GReg) (s : State) : Keeps s (execTkst t c gd gs1 s) := by
  simp [execTkst]

theorem keeps_execWickFence (t : TileId) (c : CoreIx) (s : State) : Keeps s (execWickFence t c s) := by
  simp [execWickFence]

theorem keeps_execTicketTimeout (t : TileId) (c : CoreIx) (tk : Fin 8) (s : State) : Keeps s (execTicketTimeout t c tk s) := by
  simp [execTicketTimeout]

theorem keeps_execSendbRetry (t : TileId) (c : CoreIx) (s : State) : Keeps s (execSendbRetry t c s) := by
  unfold execSendbRetry
  split <;> simp

theorem keeps_execSendbDeadline (t : TileId) (c : CoreIx) (s : State) : Keeps s (execSendbDeadline t c s) := by
  unfold execSendbDeadline
  split <;> simp

theorem keeps_execSendbReplyLost (t : TileId) (c : CoreIx) (s : State) : Keeps s (execSendbReplyLost t c s) := by
  unfold execSendbReplyLost
  split <;> simp

theorem keeps_execRecv (t : TileId) (c : CoreIx) (gd gs1 : GReg) (mask : BitVec 8) (rot : Bool) (s : State) :
    Keeps s (execRecv t c gd gs1 mask rot s) := by
  simp [execRecv]

theorem keeps_execRecvTimeout (t : TileId) (c : CoreIx) (s : State) : Keeps s (execRecvTimeout t c s) := by
  unfold execRecvTimeout
  split <;> simp

theorem keeps_execMsg (pid : Nat) (s : State) : Keeps s (execMsg pid s) := by
  simp [execMsg]

theorem keeps_execMsgb (pid : Nat) (s : State) : Keeps s (execMsgb pid s) := by
  simp [execMsgb]

theorem keeps_execProbe (pid : Nat) (s : State) : Keeps s (execProbe pid s) := by
  simp only [execProbe]
  repeat' split
  all_goals simp

/-! #### Arrivals and events of the dataflow machinery -/

theorem keeps_execTokd (pid : Nat) (s : State) : Keeps s (execTokd pid s) := by
  simp only [execTokd]
  split
  · split <;> simp
  · simp

theorem keeps_execTokc (pid : Nat) (s : State) : Keeps s (execTokc pid s) := by
  simp only [execTokc]
  repeat' split
  all_goals simp

theorem keeps_execCret (pid : Nat) (s : State) : Keeps s (execCret pid s) := by
  simp only [execCret]
  repeat' split
  all_goals simp

theorem keeps_execAckStreamResend (t : TileId) (u : Fin 6) (o : QIx) (s : State) : Keeps s (execAckStreamResend t u o s) := by
  simp only [execAckStreamResend]
  split <;> simp

theorem keeps_execQueueRelease (t : TileId) (u : Fin 6) (q : QIx) (s : State) : Keeps s (execQueueRelease t u q s) := by
  simp [execQueueRelease]

theorem keeps_execFoldSwitchRequest (t : TileId) (u : Fin 54) (s : State) : Keeps s (execFoldSwitchRequest t u s) := by
  simp only [execFoldSwitchRequest]
  repeat' split
  all_goals simp

theorem keeps_execFoldSwitch (t : TileId) (u : Fin 54) (s : State) : Keeps s (execFoldSwitch t u s) := by
  simp only [execFoldSwitch]
  refine keeps_else (by simp) (keeps_else (by simp) ?_)
  split
  · simp
  · refine keeps_else (by simp) (keeps_else (by simp) ?_)
    split
    · simp
    · next h => simp [lasting_parkUnit h]

theorem keeps_execSpillReinjection (t : TileId) (u : Fin 6) (s : State) : Keeps s (execSpillReinjection t u s) := by
  simp only [execSpillReinjection]
  split
  · simp
  · refine keeps_else (by simp) (keeps_else (by simp) ?_)
    split
    · next h =>
      split
      · next hu => simp [lasting_unpark hu, lasting_spillTake h]
      · simp
    · simp

theorem keeps_execDrainEvaluation (r : Fin 64) (s : State) : Keeps s (execDrainEvaluation r s) := by
  simp only [execDrainEvaluation]
  repeat' split
  all_goals simp

theorem keeps_execDrainTimeout (r : Fin 64) (s : State) : Keeps s (execDrainTimeout r s) := by
  unfold execDrainTimeout
  split <;> simp

theorem keeps_execQuiesceDeadline (tag : Nat) (s : State) : Keeps s (execQuiesceDeadline tag s) := by
  simp only [execQuiesceDeadline]
  repeat' split
  all_goals simp

theorem keeps_execWatchdogWindow (r : Fin 64) (s : State) : Keeps s (execWatchdogWindow r s) := by
  simp [execWatchdogWindow]

theorem keeps_execDesc (pid : Nat) (s : State) : Keeps s (execDesc pid s) := by
  simp only [execDesc]
  split
  · split
    · refine keeps_else (by simp) (keeps_else (by simp) ?_)
      split
      · simp
      · refine keeps_else (by simp) (keeps_else (by simp) ?_)
        split
        · simp
        · next h => simp [lasting_ringAdd h]
    · simp
  · simp

theorem keeps_execDescriptorRecordWritten (t : TileId) (m : MuIx) (s : State) : Keeps s (execDescriptorRecordWritten t m s) := by
  simp only [execDescriptorRecordWritten]
  repeat' split
  all_goals simp

/-! #### The mesh -/

theorem keeps_execPacketHop (pid : Nat) (s : State) : Keeps s (execPacketHop pid s) := by
  simp only [execPacketHop]
  repeat' split
  all_goals simp

theorem keeps_execLinkRetry (t : TileId) (port : Fin 4) (ctl : Bool) (s : State) : Keeps s (execLinkRetry t port ctl s) := by
  simp [execLinkRetry]

theorem keeps_execLinkRetrain (t : TileId) (port : Fin 4) (ctl : Bool) (s : State) : Keeps s (execLinkRetrain t port ctl s) := by
  simp [execLinkRetrain]

theorem keeps_execLinkRetrainDone (t : TileId) (port : Fin 4) (ctl : Bool) (bad : List (Nat × Nat)) (s : State) :
    Keeps s (execLinkRetrainDone t port ctl bad s) := by
  simp [execLinkRetrainDone]

theorem keeps_execGroupPacket (pid : Nat) (s : State) : Keeps s (execGroupPacket pid s) := by
  simp only [execGroupPacket]
  repeat' split
  all_goals simp

theorem keeps_execRed (pid : Nat) (s : State) : Keeps s (execRed pid s) := by
  simp only [execRed]
  split
  · simp
  · split
    · refine keeps_else (by simp) ?_
      split
      · simp
      · split <;> simp
    · simp
    · simp

theorem keeps_execCwaitExpiry (t : TileId) (i : Fin 32) (s : State) : Keeps s (execCwaitExpiry t i s) := by
  simp [execCwaitExpiry]

/-! #### The memory-side dies at work -/

theorem keeps_execMwr (pid : Nat) (s : State) : Keeps s (execMwr pid s) := by
  simp only [execMwr]
  split
  · simp
  · split
    · simp
    · refine keeps_else (by simp) ?_
      split
      · refine keeps_else (by simp) ?_
        split
        · next h => simp [lasting_modWritePiece h]
        · simp
      · simp
    · simp
    · simp
    · simp

theorem keeps_execMrd (pid : Nat) (s : State) : Keeps s (execMrd pid s) := by
  simp only [execMrd]
  repeat' split
  all_goals simp

theorem keeps_execMsdServiceStart (m : Fin 24) (s : State) : Keeps s (execMsdServiceStart m s) := by
  simp only [execMsdServiceStart]
  repeat' split
  all_goals simp

theorem keeps_execHbmPatrolScrub (m : Fin 24) (s : State) : Keeps s (execHbmPatrolScrub m s) := by
  simp [execHbmPatrolScrub]

theorem keeps_execResilverPage (m : Fin 24) (s : State) : Keeps s (execResilverPage m s) := by
  simp only [execResilverPage]
  repeat' split
  all_goals simp

theorem keeps_execCopy (e : Fin 8) (s : State) : Keeps s (execCopy e s) := by
  simp only [execCopy]
  repeat' split
  all_goals simp

theorem keeps_execCopyPageComplete (cmd i : Nat) (s : State) : Keeps s (execCopyPageComplete cmd i s) := by
  simp [execCopyPageComplete]

theorem keeps_execDecryptChunk (cmd i : Nat) (s : State) : Keeps s (execDecryptChunk cmd i s) := by
  simp [execDecryptChunk]

/-! #### The port dies -/

theorem keeps_execReplayRecordWrite (d : Fin 6) (journal : Bool) (s : State) : Keeps s (execReplayRecordWrite d journal s) := by
  simp only [execReplayRecordWrite]
  repeat' split
  all_goals simp

/-! #### Frames and parse programs -/

theorem keeps_execFrameReceived (d : Fin 6) (p : Fin 16) (data : List Byte) (fcsOk : Bool) (dts : Int) (s : State) :
    Keeps s (execFrameReceived d p data fcsOk dts s) := by
  simp only [execFrameReceived]
  repeat' split
  all_goals simp

theorem keeps_execPtpFrame (d : Fin 6) (p : Fin 16) (data : List Byte) (s : State) : Keeps s (execPtpFrame d p data s) := by
  simp [execPtpFrame]

theorem keeps_execParseNop (d : Fin 6) (l : Fin 16) (s : State) : Keeps s (execParseNop d l s) := by
  simp [execParseNop]

theorem keeps_execParseSetc (d : Fin 6) (l : Fin 16) (s : State) : Keeps s (execParseSetc d l s) := by
  simp [execParseSetc]

theorem keeps_execParseLd (d : Fin 6) (l : Fin 16) (s : State) : Keeps s (execParseLd d l s) := by
  simp [execParseLd]

theorem keeps_execParseLdl (d : Fin 6) (l : Fin 16) (s : State) : Keeps s (execParseLdl d l s) := by
  simp [execParseLdl]

theorem keeps_execParseLdi (d : Fin 6) (l : Fin 16) (s : State) : Keeps s (execParseLdi d l s) := by
  simp [execParseLdi]

theorem keeps_execParseLui (d : Fin 6) (l : Fin 16) (s : State) : Keeps s (execParseLui d l s) := by
  simp [execParseLui]

theorem keeps_execParseAdd (d : Fin 6) (l : Fin 16) (s : State) : Keeps s (execParseAdd d l s) := by
  simp [execParseAdd]

theorem keeps_execParseAddi (d : Fin 6) (l : Fin 16) (s : State) : Keeps s (execParseAddi d l s) := by
  simp [execParseAddi]

theorem keeps_execParseAndi (d : Fin 6) (l : Fin 16) (s : State) : Keeps s (execParseAndi d l s) := by
  simp [execParseAndi]

theorem keeps_execParseShri (d : Fin 6) (l : Fin 16) (s : State) : Keeps s (execParseShri d l s) := by
  simp [execParseShri]

theorem keeps_execParseAdv (d : Fin 6) (l : Fin 16) (s : State) : Keeps s (execParseAdv d l s) := by
  simp [execParseAdv]

theorem keeps_execParseBr (d : Fin 6) (l : Fin 16) (s : State) : Keeps s (execParseBr d l s) := by
  simp [execParseBr]

theorem keeps_execParseJmp (d : Fin 6) (l : Fin 16) (s : State) : Keeps s (execParseJmp d l s) := by
  simp [execParseJmp]

theorem keeps_execParseKey (d : Fin 6) (l : Fin 16) (s : State) : Keeps s (execParseKey d l s) := by
  simp [execParseKey]

theorem keeps_execParseKeyv (d : Fin 6) (l : Fin 16) (s : State) : Keeps s (execParseKeyv d l s) := by
  simp [execParseKeyv]

theorem keeps_execParseExt (d : Fin 6) (l : Fin 16) (s : State) : Keeps s (execParseExt d l s) := by
  simp [execParseExt]

theorem keeps_execParseFsq (d : Fin 6) (l : Fin 16) (s : State) : Keeps s (execParseFsq d l s) := by
  simp [execParseFsq]

theorem keeps_execParseEmit (d : Fin 6) (l : Fin 16) (s : State) : Keeps s (execParseEmit d l s) := by
  simp only [execParseEmit]
  split <;> simp

theorem keeps_execParseDone (d : Fin 6) (l : Fin 16) (s : State) : Keeps s (execParseDone d l s) := by
  simp [execParseDone]

theorem keeps_execParseDrop (d : Fin 6) (l : Fin 16) (s : State) : Keeps s (execParseDrop d l s) := by
  simp [execParseDrop]

theorem keeps_execFrameEnd (d : Fin 6) (n : Nat) (s : State) : Keeps s (execFrameEnd d n s) := by
  simp only [execFrameEnd]
  split <;> simp

/-! #### Events on their way to the wafer -/

theorem keeps_execEventSend (d : Fin 6) (k : Fin 4) (s : State) : Keeps s (execEventSend d k s) := by
  simp only [execEventSend]
  repeat' split
  all_goals simp

theorem keeps_execPendingIndexTimeout (d : Fin 6) (n : Nat) (s : State) : Keeps s (execPendingIndexTimeout d n s) := by
  unfold execPendingIndexTimeout
  split <;> simp

theorem keeps_execEventReplyTimeout (d : Fin 6) (n : Nat) (s : State) : Keeps s (execEventReplyTimeout d n s) := by
  simp only [execEventReplyTimeout]
  split <;> simp

theorem keeps_execReplaySend (d : Fin 6) (g : Fin 64) (s : State) : Keeps s (execReplaySend d g s) := by
  simp only [execReplaySend]
  repeat' split
  all_goals simp

/-! #### The way out of a port die -/

theorem keeps_execResponse (pid : Nat) (s : State) : Keeps s (execResponse pid s) := by
  simp only [execResponse]
  split
  · simp
  · split
    · refine keeps_else (by simp) (keeps_else (by simp) (keeps_else (by simp) ?_))
      refine keeps_else (by simp) (keeps_else (by simp) (keeps_else (by simp) ?_))
      split <;> simp
    · simp

theorem keeps_execMacGrant (d : Fin 6) (p : Fin 16) (dts : Int) (s : State) : Keeps s (execMacGrant d p dts s) := by
  simp only [execMacGrant]
  split <;> simp

theorem keeps_execFrameTransmitted (d : Fin 6) (p : Fin 16) (s : State) : Keeps s (execFrameTransmitted d p s) := by
  simp only [execFrameTransmitted]
  repeat' split
  all_goals simp

theorem keeps_execPortLinkChange (d : Fin 6) (p : Fin 16) (up : Bool) (s : State) : Keeps s (execPortLinkChange d p up s) := by
  simp [execPortLinkChange]

theorem keeps_execSnuffN (low held : Bool) (s : State) : Keeps s (execSnuffN low held s) := by
  simp [execSnuffN]

theorem keeps_execCdSnfWrite (p : Fin 2) (v : W32) (s : State) : Keeps s (execCdSnfWrite p v s) := by
  simp [execCdSnfWrite]

theorem keeps_execSnuffFrame (d : Fin 6) (s : State) : Keeps s (execSnuffFrame d s) := by
  unfold execSnuffFrame
  split <;> simp

/-! #### The commands of the wire engines on ports, tables, templates, guards, programs and rings -/

theorem keeps_execPortCfg (d : Fin 6) (s : State) : Keeps s (execPortCfg d s) := by
  simp [execPortCfg]

theorem keeps_execReplayCfg (d : Fin 6) (s : State) : Keeps s (execReplayCfg d s) := by
  simp [execReplayCfg]

theorem keeps_execInstPut (d : Fin 6) (s : State) : Keeps s (execInstPut d s) := by
  rw [execInstPut, keeps_next, lasting_wireCmd]
  · exact Lasting.le_refl _
  · intro c
    simp only [lasting_ite]
    split
    · simp
    · split <;> simp

theorem keeps_execInstDel (d : Fin 6) (s : State) : Keeps s (execInstDel d s) := by
  rw [execInstDel, keeps_next, lasting_wireCmd]
  · exact Lasting.le_refl _
  · intro c
    simp only [lasting_ite]
    split
    · simp
    · split <;> simp

theorem keeps_execTmplWr (d : Fin 6) (s : State) : Keeps s (execTmplWr d s) := by
  simp [execTmplWr]

theorem keeps_execGuardWr (d : Fin 6) (s : State) : Keeps s (execGuardWr d s) := by
  simp [execGuardWr]

theorem keeps_execParseWr (d : Fin 6) (s : State) : Keeps s (execParseWr d s) := by
  simp [execParseWr]

/-! #### WGX -/

theorem keeps_execWgxSess (d : Fin 6) (s : State) : Keeps s (execWgxSess d s) := by
  simp [execWgxSess]

theorem keeps_execWgxPush (d : Fin 6) (s : State) : Keeps s (execWgxPush d s) := by
  simp [execWgxPush]

theorem keeps_execWgxPull (d : Fin 6) (s : State) : Keeps s (execWgxPull d s) := by
  simp [execWgxPull]

theorem keeps_execWgxFrameSend (d : Fin 6) (i : Fin 32) (s : State) : Keeps s (execWgxFrameSend d i s) := by
  simp only [execWgxFrameSend]
  repeat' split
  all_goals simp

theorem keeps_execWgxRtoExpiry (d : Fin 6) (i : Fin 32) (seq : Option Nat) (s : State) : Keeps s (execWgxRtoExpiry d i seq s) := by
  simp only [execWgxRtoExpiry]
  repeat' split
  all_goals simp

theorem keeps_execWgxAckTimer (d : Fin 6) (i : Fin 32) (s : State) : Keeps s (execWgxAckTimer d i s) := by
  unfold execWgxAckTimer
  split <;> simp

theorem keeps_execWgxData (d : Fin 6) (p : Fin 16) (f : List Byte) (s : State) : Keeps s (execWgxData d p f s) := by
  rw [execWgxData, keeps_next, lasting_wgxReceive]
  · exact Lasting.le_refl _
  · intro s i h
    simp only [lasting_ite]
    split
    · simp
    · split
      · simp
      · split
        · simp
        · split
          · simp
          · next h => simp [lasting_modWrite h]

theorem keeps_execWgxAck (d : Fin 6) (p : Fin 16) (f : List Byte) (s : State) : Keeps s (execWgxAck d p f s) := by
  simp [execWgxAck]

theorem keeps_execWgxPullFrame (d : Fin 6) (p : Fin 16) (f : List Byte) (s : State) : Keeps s (execWgxPullFrame d p f s) := by
  simp [execWgxPullFrame]

theorem keeps_execWgxRst (d : Fin 6) (p : Fin 16) (f : List Byte) (s : State) : Keeps s (execWgxRst d p f s) := by
  simp [execWgxRst]

/-! #### The mailboxes -/

theorem keeps_execMbhPost (p : Fin 2) (w : W32) (s : State) : Keeps s (execMbhPost p w s) := by
  simp [execMbhPost]

theorem keeps_execMailboxRequestCheck (p : Fin 2) (s : State) : Keeps s (execMailboxRequestCheck p s) := by
  simp only [execMailboxRequestCheck]
  repeat' split
  all_goals simp

theorem keeps_execMailboxReply (s : State) : Keeps s (execMailboxReply s) := by
  simp only [execMailboxReply]
  repeat' split
  all_goals simp

theorem keeps_execMbmAck (p : Fin 2) (aseq : W32) (s : State) : Keeps s (execMbmAck p aseq s) := by
  simp only [execMbmAck]
  repeat' split
  all_goals simp

theorem keeps_execMailboxReplyDeadline (p : Fin 2) (s : State) : Keeps s (execMailboxReplyDeadline p s) := by
  simp only [execMailboxReplyDeadline]
  split <;> simp

/-! #### Live table changes -/

theorem keeps_execLiveTableChange (s : State) : Keeps s (execLiveTableChange s) := by
  simp only [execLiveTableChange]
  repeat' split
  all_goals simp

theorem keeps_execTableChangeIdle (s : State) : Keeps s (execTableChangeIdle s) := by
  unfold execTableChangeIdle
  split <;> simp

theorem keeps_execTableChangeDeadline (s : State) : Keeps s (execTableChangeDeadline s) := by
  unfold execTableChangeDeadline
  split <;> simp

theorem keeps_execPeriodicSnapshot (s : State) : Keeps s (execPeriodicSnapshot s) := by
  simp [execPeriodicSnapshot]

theorem keeps_execRecoveryStart (s : State) : Keeps s (execRecoveryStart s) := by
  simp only [execRecoveryStart]
  repeat' split
  all_goals simp

theorem keeps_execSpareTestDone (good : Bool) (s : State) : Keeps s (execSpareTestDone good s) := by
  unfold execSpareTestDone
  split <;> simp

theorem keeps_execReplayCaughtUp (g : Fin 64) (s : State) : Keeps s (execReplayCaughtUp g s) := by
  simp only [execReplayCaughtUp]
  repeat' split
  all_goals simp

/-! #### The Lamplighter -/

theorem keeps_execWaveSend (s : State) : Keeps s (execWaveSend s) := by
  simp only [execWaveSend]
  repeat' split
  all_goals simp

theorem keeps_execTimeMarkSchedule (s : State) : Keeps s (execTimeMarkSchedule s) := by
  simp [execTimeMarkSchedule]

theorem keeps_execSnapshot (alt : List (TileId × Bool)) (miss quiet : List TileId) (late : List (Fin 32)) (s : State) :
    Keeps s (execSnapshot alt miss quiet late s) := by
  rw [execSnapshot, keeps_next]
  refine le_takeWave _ _ _ _ _ _ (Lasting.le_refl _) fun s w => ?_
  dsimp only
  split <;> simp

theorem keeps_execCommit (alt : List (TileId × Bool)) (miss quiet : List TileId) (late : List (Fin 32)) (s : State) :
    Keeps s (execCommit alt miss quiet late s) := by
  rw [execCommit, keeps_next]
  refine le_takeWave _ _ _ _ _ _ (Lasting.le_refl _) fun s w => ?_
  split <;> simp

theorem keeps_execAbort (alt : List (TileId × Bool)) (miss quiet : List TileId) (late : List (Fin 32)) (s : State) :
    Keeps s (execAbort alt miss quiet late s) := by
  rw [execAbort, keeps_next]
  refine le_takeWave _ _ _ _ _ _ (Lasting.le_refl _) fun s w => ?_
  split <;> simp

theorem keeps_execFreezeWave (alt : List (TileId × Bool)) (miss quiet : List TileId) (late : List (Fin 32)) (s : State) :
    Keeps s (execFreezeWave alt miss quiet late s) := by
  simp [execFreezeWave]

theorem keeps_execTimeMark (alt : List (TileId × Bool)) (miss quiet : List TileId) (late : List (Fin 32)) (s : State) :
    Keeps s (execTimeMark alt miss quiet late s) := by
  simp [execTimeMark]

theorem keeps_execWaveReportMissing (s : State) : Keeps s (execWaveReportMissing s) := by
  unfold execWaveReportMissing
  split <;> simp

theorem keeps_execWaveFrame (d : Fin 32) (p : Fin 8) (ok : Bool) (s : State) : Keeps s (execWaveFrame d p ok s) := by
  simp only [execWaveFrame]
  repeat' split
  all_goals simp

/-! #### The engines -/

theorem keeps_execCommandFetch (e : Fin 79) (words : List W64) (s : State) : Keeps s (execCommandFetch e words s) := by
  simp only [execCommandFetch]
  repeat' split
  all_goals simp

theorem keeps_execCmdNop (e : Fin 79) (s : State) : Keeps s (execCmdNop e s) := by
  unfold execCmdNop
  split <;> simp

theorem keeps_execTxnBegin (s : State) : Keeps s (execTxnBegin s) := by
  simp [execTxnBegin]

theorem keeps_execTxnCommit (s : State) : Keeps s (execTxnCommit s) := by
  rw [execTxnCommit, keeps_next, lasting_maintRun, lasting_txnLapse]
  · exact Lasting.le_refl _
  · intro c
    simp only [lasting_ite]
    split
    · simp
    · split <;> simp

theorem keeps_execTxnAbort (s : State) : Keeps s (execTxnAbort s) := by
  rw [execTxnAbort, keeps_next, lasting_maintRun, lasting_txnLapse]
  · exact Lasting.le_refl _
  · intro c
    simp only [lasting_ite]
    split
    · simp
    · split <;> simp

theorem keeps_execTransactionDeadline (tag : Fin 4096) (s : State) : Keeps s (execTransactionDeadline tag s) := by
  simp only [execTransactionDeadline]
  repeat' split
  all_goals simp

theorem keeps_execCtrRead (s : State) : Keeps s (execCtrRead s) := by
  rw [execCtrRead, keeps_next, lasting_maintRun]
  · exact Lasting.le_refl _
  · intro c
    extract_lets w k lat clr t0 t1 bs
    split
    · simp
    · extract_lets head r
      have hr : lasting r.1 = lasting s := by
        refine lasting_foldl_fst _ _ _ fun p b => ?_
        simp
      rw [lasting_ite, lasting_failCmd]
      split
      · rfl
      · exact (lasting_putRecord _ _ _ _ _ hr.symm).trans hr

theorem keeps_execHistRead (s : State) : Keeps s (execHistRead s) := by
  simp [execHistRead]

theorem keeps_execLhistRead (s : State) : Keeps s (execLhistRead s) := by
  simp [execLhistRead]

theorem keeps_execSnapNow (s : State) : Keeps s (execSnapNow s) := by
  simp [execSnapNow]

theorem keeps_execTraceSet (s : State) : Keeps s (execTraceSet s) := by
  simp [execTraceSet]

theorem keeps_execTraceStop (s : State) : Keeps s (execTraceStop s) := by
  simp [execTraceStop]

theorem keeps_execFreeze (s : State) : Keeps s (execFreeze s) := by
  simp [execFreeze]

/-! #### The commands of the region engines -/

theorem keeps_execRegionLoad (r : Fin 64) (s : State) : Keeps s (execRegionLoad r s) := by
  simp [execRegionLoad]

theorem keeps_execRegionStart (r : Fin 64) (s : State) : Keeps s (execRegionStart r s) := by
  simp [execRegionStart]

theorem keeps_execRegionStop (r : Fin 64) (s : State) : Keeps s (execRegionStop r s) := by
  unfold execRegionStop
  split <;> simp

theorem keeps_execRegionDrain (r : Fin 64) (s : State) : Keeps s (execRegionDrain r s) := by
  simp [execRegionDrain]

theorem keeps_execRegionRestart (r : Fin 64) (s : State) : Keeps s (execRegionRestart r s) := by
  simp [execRegionRestart]

theorem keeps_execRegionStep (r : Fin 64) (s : State) : Keeps s (execRegionStep r s) := by
  simp [execRegionStep]

theorem keeps_execPhase (r : Fin 64) (s : State) : Keeps s (execPhase r s) := by
  simp [execPhase]

theorem keeps_execPhaseComplete (r : Fin 64) (s : State) : Keeps s (execPhaseComplete r s) := by
  simp only [execPhaseComplete]
  repeat' split
  all_goals simp

theorem keeps_execStageWr (s : State) : Keeps s (execStageWr s) := by
  rw [execStageWr, keeps_next, lasting_maintRun]
  · exact Lasting.le_refl _
  · intro c
    simp only [lasting_ite]
    split
    · simp
    · split
      · simp
      · split
        · simp
        · split
          · simp
          · split <;> simp

theorem keeps_execRect (pid : Nat) (s : State) : Keeps s (execRect pid s) := by
  simp only [execRect]
  repeat' split
  all_goals simp

theorem keeps_execMemberStaged (e : Fin 79) (s : State) : Keeps s (execMemberStaged e s) := by
  simp only [execMemberStaged]
  repeat' split
  all_goals simp

theorem keeps_execHostReadCompletion (p : Fin 2) (what : HostRd) (res : HostRes) (s : State) : Keeps s (execHostReadCompletion p what res s) := by
  simp only [execHostReadCompletion]
  repeat' split
  all_goals simp

/-! #### Replies -/

theorem keeps_execReply (pid : Nat) (s : State) : Keeps s (execReply pid s) := by
  simp only [execReply]
  repeat' split
  all_goals simp

/-! #### The incident path at the CD -/

theorem keeps_execMeshDomainDown (f : Fin 100) (s : State) : Keeps s (execMeshDomainDown f s) := by
  simp [execMeshDomainDown]

theorem keeps_execTileHealthProbe (cd md silent : List TileId) (s : State) : Keeps s (execTileHealthProbe cd md silent s) := by
  simp [execTileHealthProbe]

theorem keeps_execIncidentAccept (s : State) : Keeps s (execIncidentAccept s) := by
  simp only [execIncidentAccept]
  repeat' split
  all_goals simp

theorem keeps_execCoalescingWindowEnd (s : State) : Keeps s (execCoalescingWindowEnd s) := by
  simp only [execCoalescingWindowEnd]
  repeat' split
  all_goals simp

/-! #### Start-up and the events that reset the module or switch it off -/

theorem keeps_execStartupPhaseEnd (r : PhaseEnd) (s : State) : Keeps s (execStartupPhaseEnd r s) := by
  simp only [execStartupPhaseEnd]
  repeat' split
  all_goals simp

theorem keeps_execPowerOn (s : State) : Keeps s (execPowerOn s) := by
  simp [execPowerOn]

theorem keeps_execInputUndervoltage (rail : Bool) (s : State) : Keeps s (execInputUndervoltage rail s) := by
  simp [execInputUndervoltage]

theorem keeps_execBladeChange (i : Fin 8) (mv10 : Nat) (held : Bool) (s : State) : Keeps s (execBladeChange i mv10 held s) := by
  simp [execBladeChange]

theorem keeps_execModResetN (s : State) : Keeps s (execModResetN s) := by
  simp [execModResetN]

theorem keeps_execModuleResetRelease (s : State) : Keeps s (execModuleResetRelease s) := by
  simp [execModuleResetRelease]

theorem keeps_execMrst (p : Fin 2) (s : State) : Keeps s (execMrst p s) := by
  simp [execMrst]

theorem keeps_execReferenceClockLoss (s : State) : Keeps s (execReferenceClockLoss s) := by
  simp [execReferenceClockLoss]

theorem keeps_execReferenceClockValid (s : State) : Keeps s (execReferenceClockValid s) := by
  simp [execReferenceClockValid]

theorem keeps_execTamper (pin : Bool) (s : State) : Keeps s (execTamper pin s) := by
  simp [execTamper]

theorem keeps_execTamperCleared (s : State) : Keeps s (execTamperCleared s) := by
  simp [execTamperCleared]

theorem keeps_execActivationReset (s : State) : Keeps s (execActivationReset s) := by
  unfold execActivationReset
  split <;> simp

theorem keeps_execHealthDeadline (s : State) : Keeps s (execHealthDeadline s) := by
  simp only [execHealthDeadline, keeps_ite, keeps_next, Lasting.le_refl, implies_true, and_true]
  exact fun _ => le_moduleReset _ (le_fallBack _ (le_reachPs _ (Lasting.le_refl _)))

/-! #### Satellites and their Brobry links -/

theorem keeps_execSatelliteDieReset (d : Fin 32) (s : State) : Keeps s (execSatelliteDieReset d s) := by
  simp [execSatelliteDieReset]

theorem keeps_execSatelliteRetrainDone (d : Fin 32) (s : State) : Keeps s (execSatelliteRetrainDone d s) := by
  simp only [execSatelliteRetrainDone]
  repeat' split
  all_goals simp

theorem keeps_execDieTraining (d : Fin 32) (bad : List (Fin 8 × Fin 2 × Fin 13)) (s : State) : Keeps s (execDieTraining d bad s) := by
  simp only [execDieTraining]
  repeat' split
  all_goals simp

theorem keeps_execBrobryFlit (d : Fin 32) (p : Fin 8) (dir : Fin 2) (slots : Option (List (Fin 4))) (ok : Bool) (s : State) :
    Keeps s (execBrobryFlit d p dir slots ok s) := by
  simp [execBrobryFlit]

theorem keeps_execBrobryNak (d : Fin 32) (p : Fin 8) (dir : Fin 2) (oks : List Bool) (s : State) : Keeps s (execBrobryNak d p dir oks s) := by
  simp [execBrobryNak]

theorem keeps_execBrobryReplayTimeout (d : Fin 32) (p : Fin 8) (dir : Fin 2) (oks : List Bool) (s : State) :
    Keeps s (execBrobryReplayTimeout d p dir oks s) := by
  simp [execBrobryReplayTimeout]

theorem keeps_execAttachPortRetrain (d : Fin 32) (p : Fin 8) (s : State) : Keeps s (execAttachPortRetrain d p s) := by
  simp [execAttachPortRetrain]

theorem keeps_execAttachPortRetrainDone (d : Fin 32) (p : Fin 8) (bad : List (Fin 2 × Fin 13)) (s : State) :
    Keeps s (execAttachPortRetrainDone d p bad s) := by
  simp [execAttachPortRetrainDone]

theorem keeps_execCreditFrame (d : Fin 32) (p : Fin 8) (dir : Fin 2) (v : W64) (ok : Bool) (s : State) :
    Keeps s (execCreditFrame d p dir v ok s) := by
  simp [execCreditFrame]

theorem keeps_execTrainFrame (d : Fin 32) (p : Fin 8) (dir : Fin 2) (w : W64) (ok : Bool) (s : State) : Keeps s (execTrainFrame d p dir w ok s) := by
  simp [execTrainFrame]

theorem keeps_execKeyFrame (d : Fin 32) (p : Fin 8) (slot : Fin 16) (piece : Fin 4) (ok : Bool) (s : State) :
    Keeps s (execKeyFrame d p slot piece ok s) := by
  simp only [execKeyFrame]
  repeat' split
  all_goals simp

theorem keeps_execMgmtFrame (d : Fin 32) (p : Fin 8) (dir : Fin 2) (bs : List Byte) (ok : Bool) (s : State) :
    Keeps s (execMgmtFrame d p dir bs ok s) := by
  simp [execMgmtFrame]

theorem keeps_execStateFrame (d : Fin 32) (p : Fin 8) (rep : DieRep) (ok : Bool) (s : State) : Keeps s (execStateFrame d p rep ok s) := by
  simp [execStateFrame]

theorem keeps_execSbackFrame (d : Fin 32) (p : Fin 8) (dir : Fin 2) (ok : Bool) (s : State) : Keeps s (execSbackFrame d p dir ok s) := by
  simp [execSbackFrame]

theorem keeps_execSidebandRepeatTimeout (d : Fin 32) (p : Fin 8) (dir : Fin 2) (oks : List Bool) (s : State) :
    Keeps s (execSidebandRepeatTimeout d p dir oks s) := by
  simp only [execSidebandRepeatTimeout, keeps_ite, keeps_next, lasting_ite, lasting_sbFail, ite_self]
  refine ⟨fun _ => Lasting.le_refl _, fun _ => le_foldl (fun s x h => ?_) _ (by simp)⟩
  split
  · exact le_frameEffect _ _ _ _ _ _ (by simpa using h)
  · simpa using h

/-! #### The host ports -/

theorem keeps_execSemTake (p : Fin 2) (both : Bool) (s : State) : Keeps s (execSemTake p both s) := by
  simp [execSemTake]

theorem keeps_execSemHb (p : Fin 2) (v : W32) (s : State) : Keeps s (execSemHb p v s) := by
  rw [execSemHb, keeps_next, lasting_hostWr _ _ _ (lasting_semKey _ _ _ _ (by simp)), lasting_semCheck]
  exact Lasting.le_refl _

theorem keeps_execSemRel (p : Fin 2) (v : W32) (s : State) : Keeps s (execSemRel p v s) := by
  rw [execSemRel, keeps_next, lasting_hostWr _ _ _ (lasting_semKey _ _ _ _ (by simp)), lasting_semCheck]
  exact Lasting.le_refl _

theorem keeps_execSemaphoreLeaseEnd (s : State) : Keeps s (execSemaphoreLeaseEnd s) := by
  simp [execSemaphoreLeaseEnd]

theorem keeps_execRingCfg (p : Fin 2) (e : Fin 79) (v : W32) (s : State) : Keeps s (execRingCfg p e v s) := by
  simp [execRingCfg]

theorem keeps_execRingDb (p : Fin 2) (e : Fin 79) (tail : W32) (s : State) : Keeps s (execRingDb p e tail s) := by
  simp [execRingDb]

theorem keeps_execCplHead (p : Fin 2) (e : Fin 79) (v : W32) (s : State) : Keeps s (execCplHead p e v s) := by
  simp [execCplHead]

theorem keeps_execCompletionInterruptDelay (p : Fin 2) (e : Fin 79) (s : State) : Keeps s (execCompletionInterruptDelay p e s) := by
  simp only [execCompletionInterruptDelay]
  split <;> simp

theorem keeps_execIntCause (p : Fin 2) (v : W32) (s : State) : Keeps s (execIntCause p v s) := by
  simp [execIntCause]

theorem keeps_execIntMask (p : Fin 2) (v : W32) (s : State) : Keeps s (execIntMask p v s) := by
  simp [execIntMask]

theorem keeps_execMsixMaskChange (p : Fin 2) (en fm : Option Bool) (vec : Option (Fin 1024 × Bool)) (s : State) :
    Keeps s (execMsixMaskChange p en fm vec s) := by
  simp only [execMsixMaskChange]
  repeat' split
  all_goals simp

theorem keeps_execTimeNs (p : Fin 2) (h : Half) (s : State) : Keeps s (execTimeNs p h s) := by
  simp [execTimeNs]

theorem keeps_execBar0AccessSize (p : Fin 2) (write : Bool) (s : State) : Keeps s (execBar0AccessSize p write s) := by
  simp [execBar0AccessSize]

theorem keeps_execRegisterWrite (p : Fin 2) (r : RegW) (s : State) : Keeps s (execRegisterWrite p r s) := by
  simp [execRegisterWrite]

theorem keeps_execRcRegisterRead (r : RegRc) (s : State) : Keeps s (execRcRegisterRead r s) := by
  simp [execRcRegisterRead]

theorem keeps_execConfigurationRequest (p : Fin 2) (q : CfgReq) (s : State) : Keeps s (execConfigurationRequest p q s) := by
  unfold execConfigurationRequest
  split <;> simp

theorem keeps_execFlr (p : Fin 2) (s : State) : Keeps s (execFlr p s) := by
  simp [execFlr]

theorem keeps_execPerstN (p : Fin 2) (pin : Bool) (s : State) : Keeps s (execPerstN p pin s) := by
  simp [execPerstN]

theorem keeps_execHostPortResetEnd (p : Fin 2) (s : State) : Keeps s (execHostPortResetEnd p s) := by
  simp [execHostPortResetEnd]

theorem keeps_execClockInputValidityChange (i : ClkIn) (valid : Bool) (s : State) : Keeps s (execClockInputValidityChange i valid s) := by
  unfold execClockInputValidityChange
  split <;> simp

/-! #### The firmware services of the mailboxes -/

theorem keeps_execMbNop (s : State) : Keeps s (execMbNop s) := by
  simp [execMbNop]

theorem keeps_execMbVersion (s : State) : Keeps s (execMbVersion s) := by
  simp [execMbVersion]

theorem keeps_execMbState (s : State) : Keeps s (execMbState s) := by
  simp [execMbState]

theorem keeps_execMbInventory (s : State) : Keeps s (execMbInventory s) := by
  simp [execMbInventory]

theorem keeps_execMbBirthRead (s : State) : Keeps s (execMbBirthRead s) := by
  simp [execMbBirthRead]

theorem keeps_execMbMemmapRead (s : State) : Keeps s (execMbMemmapRead s) := by
  simp [execMbMemmapRead]

theorem keeps_execMbMemmapSet (s : State) : Keeps s (execMbMemmapSet s) := by
  simp [execMbMemmapSet]

theorem keeps_execMbIncringSet (s : State) : Keeps s (execMbIncringSet s) := by
  simp [execMbIncringSet]

theorem keeps_execMbFence (s : State) : Keeps s (execMbFence s) := by
  rw [execMbFence, keeps_next]
  refine le_mailRun _ _ (Lasting.le_refl _) fun c => ?_
  simp only [le_lasting_ite]
  refine ⟨fun _ => ⟨fun _ => by simp, fun _ => ⟨fun _ => by simp, fun _ => by simp⟩⟩, fun _ => ⟨fun _ => by simp, fun _ => ?_⟩⟩
  rw [lasting_mailOk]
  split <;> simp

theorem keeps_execMbUnfence (s : State) : Keeps s (execMbUnfence s) := by
  simp [execMbUnfence]

theorem keeps_execMbSnapSet (s : State) : Keeps s (execMbSnapSet s) := by
  simp [execMbSnapSet]

theorem keeps_execMbSnapRead (s : State) : Keeps s (execMbSnapRead s) := by
  simp [execMbSnapRead]

theorem keeps_execMbPcapSet (flash : Bool) (s : State) : Keeps s (execMbPcapSet flash s) := by
  simp only [execMbPcapSet]
  repeat' split
  all_goals simp

theorem keeps_execMbOpmaskSet (flash : Bool) (s : State) : Keeps s (execMbOpmaskSet flash s) := by
  simp [execMbOpmaskSet]

theorem keeps_execMbTsrcSet (flash : Bool) (s : State) : Keeps s (execMbTsrcSet flash s) := by
  simp [execMbTsrcSet]

theorem keeps_execMbSetRead (s : State) : Keeps s (execMbSetRead s) := by
  simp [execMbSetRead]

theorem keeps_execMbSetWrite (flash : Bool) (s : State) : Keeps s (execMbSetWrite flash s) := by
  simp [execMbSetWrite]

theorem keeps_execMbSetDefault (flash : Bool) (s : State) : Keeps s (execMbSetDefault flash s) := by
  simp [execMbSetDefault]

theorem keeps_execMbSnuffEng (s : State) : Keeps s (execMbSnuffEng s) := by
  simp [execMbSnuffEng]

theorem keeps_execMbSnuffRel (s : State) : Keeps s (execMbSnuffRel s) := by
  simp [execMbSnuffRel]

theorem keeps_execMbUpdStage (s : State) : Keeps s (execMbUpdStage s) := by
  simp [execMbUpdStage]

theorem keeps_execUpdateStagingComplete (flash : Bool) (s : State) : Keeps s (execUpdateStagingComplete flash s) := by
  simp only [execUpdateStagingComplete]
  repeat' split
  all_goals simp

theorem keeps_execMbUpdActivate (s : State) : Keeps s (execMbUpdActivate s) := by
  simp [execMbUpdActivate]

theorem keeps_execMbUpdConfirm (s : State) : Keeps s (execMbUpdConfirm s) := by
  simp [execMbUpdConfirm]

theorem keeps_execMbUpdStatus (s : State) : Keeps s (execMbUpdStatus s) := by
  simp [execMbUpdStatus]

/-! #### Operating points, PLLs, Taper and droop -/

theorem keeps_execOpChangeStep (f : Fin 100) (s : State) : Keeps s (execOpChangeStep f s) := by
  simp only [execOpChangeStep]
  repeat' split
  all_goals simp

theorem keeps_execTaperStep (f : Fin 100) (s : State) : Keeps s (execTaperStep f s) := by
  simp [execTaperStep]

theorem keeps_execFieldPllUnlock (f : Fin 100) (b : Bool) (s : State) : Keeps s (execFieldPllUnlock f b s) := by
  simp [execFieldPllUnlock]

theorem keeps_execStandbyPllTimeout (f : Fin 100) (s : State) : Keeps s (execStandbyPllTimeout f s) := by
  unfold execStandbyPllTimeout
  split <;> simp

theorem keeps_execDroopDetected (t : TileId) (s : State) : Keeps s (execDroopDetected t s) := by
  simp [execDroopDetected]

theorem keeps_execDroopRecovered (t : TileId) (s : State) : Keeps s (execDroopRecovered t s) := by
  simp [execDroopRecovered]

theorem keeps_execServoMeasurement (o : Int) (s : State) : Keeps s (execServoMeasurement o s) := by
  simp [execServoMeasurement]

theorem keeps_execPpsIn (s : State) : Keeps s (execPpsIn s) := by
  simp [execPpsIn]

theorem keeps_execTimeSourceTimeout (s : State) : Keeps s (execTimeSourceTimeout s) := by
  simp [execTimeSourceTimeout]

theorem keeps_execMbClkStatus (s : State) : Keeps s (execMbClkStatus s) := by
  simp [execMbClkStatus]

theorem keeps_execMbFreqMeas (s : State) : Keeps s (execMbFreqMeas s) := by
  simp only [execMbFreqMeas]
  split <;> simp

theorem keeps_execFrequencyMeterGateClose (m : Fin 128) (count : Option W32) (s : State) : Keeps s (execFrequencyMeterGateClose m count s) := by
  simp only [execFrequencyMeterGateClose]
  repeat' split
  all_goals simp

/-! #### The power cap -/

theorem keeps_execBladeMeasurement (vs : List (BitVec 16 × BitVec 16)) (s : State) : Keeps s (execBladeMeasurement vs s) := by
  simp only [execBladeMeasurement]
  split <;> simp

theorem keeps_execFastHalvingRecheck (s : State) : Keeps s (execFastHalvingRecheck s) := by
  unfold execFastHalvingRecheck
  split <;> simp

theorem keeps_execMbPowerRead (s : State) : Keeps s (execMbPowerRead s) := by
  simp [execMbPowerRead]

theorem keeps_execPowerLoopStep (e : PowerEst) (s : State) : Keeps s (execPowerLoopStep e s) := by
  simp [execPowerLoopStep]

theorem keeps_execIssueBudgetCycle (f : Fin 100) (s : State) : Keeps s (execIssueBudgetCycle f s) := by
  simp [execIssueBudgetCycle]

/-! #### Thermal control -/

theorem keeps_execHeatResume (r : Fin 64) (s : State) : Keeps s (execHeatResume r s) := by
  simp only [execHeatResume]
  repeat' split
  all_goals simp

theorem keeps_execThermalSensorRead (x : Sensor) (s : State) : Keeps s (execThermalSensorRead x s) := by
  unfold execThermalSensorRead
  split <;> simp

theorem keeps_execHeatBudgetStep (f : Fin 100) (s : State) : Keeps s (execHeatBudgetStep f s) := by
  simp [execHeatBudgetStep]

/-! #### Pilot -/

theorem keeps_execMbPilotEnter (s : State) : Keeps s (execMbPilotEnter s) := by
  simp [execMbPilotEnter]

theorem keeps_execPilotEntryStep (s : State) : Keeps s (execPilotEntryStep s) := by
  simp only [execPilotEntryStep]
  repeat' split
  all_goals simp

theorem keeps_execMbPilotWake (s : State) : Keeps s (execMbPilotWake s) := by
  simp [execMbPilotWake]

theorem keeps_execWakeStep (fields : List (Fin 100)) (msds : List (Fin 24)) (s : State) : Keeps s (execWakeStep fields msds s) := by
  simp only [execWakeStep]
  repeat' split
  all_goals simp

/-! #### The security commands of the mailbox -/

theorem keeps_execSecStatus (s : State) : Keeps s (execSecStatus s) := by
  simp [execSecStatus]

theorem keeps_execSecPubkeys (s : State) : Keeps s (execSecPubkeys s) := by
  simp [execSecPubkeys]

theorem keeps_execSecAttest (s : State) : Keeps s (execSecAttest s) := by
  simp [execSecAttest]

theorem keeps_execSecKeyImport (s : State) : Keeps s (execSecKeyImport s) := by
  rw [execSecKeyImport, keeps_next]
  refine le_mailRun _ _ (Lasting.le_refl _) fun c => ?_
  rw [le_lasting_ite, le_lasting_ite]
  refine ⟨fun _ => by simp, fun _ => ⟨fun _ => by simp, fun _ => ?_⟩⟩
  split
  · simp
  · next key _ =>
    have hu (slot fp : Nat) (k : KeySlot) :
        (lasting s).le (lasting (auditAdd (modIsland s fun x => { x with slots := mput x.slots slot k }) 7 c.port fp)) :=
      le_auditAdd _ _ _ (le_modIsland _ (by simp) (Lasting.le_refl _))
    rw [le_lasting_ite, lasting_mailOk, lasting_modMail]
    exact ⟨fun _ => hu .., fun _ => le_modIsland _ (by simp) (hu ..)⟩

theorem keeps_execSecKeyClear (s : State) : Keeps s (execSecKeyClear s) := by
  simp [execSecKeyClear]

theorem keeps_execSecKeyList (s : State) : Keeps s (execSecKeyList s) := by
  simp [execSecKeyList]

theorem keeps_execSecRandom (s : State) : Keeps s (execSecRandom s) := by
  simp [execSecRandom]

theorem keeps_execSecSelftest (s : State) : Keeps s (execSecSelftest s) := by
  simp [execSecSelftest]

theorem keeps_execEntropyTestFailure (adaptive : Bool) (s : State) : Keeps s (execEntropyTestFailure adaptive s) := by
  simp [execEntropyTestFailure]

theorem keeps_execSecDbgChal (s : State) : Keeps s (execSecDbgChal s) := by
  rw [execSecDbgChal, keeps_next]
  refine le_secRun _ _ (Lasting.le_refl _) fun c => ?_
  rw [lasting_mailEnd]
  exact le_auditAdd _ _ _ (le_modIsland _ (by simp) (le_drawn (Lasting.le_refl _)))

theorem keeps_execSecDbgUnlock (s : State) : Keeps s (execSecDbgUnlock s) := by
  rw [execSecDbgUnlock, keeps_next]
  refine le_secRun _ _ (Lasting.le_refl _) fun c => ?_
  rw [le_lasting_ite]
  refine ⟨fun _ => by simp, fun _ => ?_⟩
  have hs : (lasting s).le (lasting (modIsland s fun x => { x with chal := none })) := le_modIsland _ (by simp) (Lasting.le_refl _)
  dsimp only
  split
  · rw [lasting_mailOk]
    refine le_auditAdd _ _ _ ?_
    rw [lasting_raiseInc]
    exact le_modIsland _ (by simp) (le_clearSlots _ _ _ hs)
  · rw [lasting_mailFail]
    refine le_auditAdd _ _ _ ?_
    rw [lasting_raiseInc]
    exact le_modIsland _ (by simp) hs

theorem keeps_execSecDbgLock (s : State) : Keeps s (execSecDbgLock s) := by
  rw [execSecDbgLock, keeps_next]
  refine le_secRun _ _ (Lasting.le_refl _) fun c => ?_
  rw [lasting_mailOk]
  exact le_auditAdd _ _ _ (le_modIsland _ (by simp) (Lasting.le_refl _))

theorem keeps_execSecAuditRead (s : State) : Keeps s (execSecAuditRead s) := by
  simp [execSecAuditRead]

theorem bit_setBits_one (x i k : Nat) (h : bit x k = true) : bit (setBits x i 1 1) k = true := by
  rw [bit_setBits, h, ite_eq_left_iff]
  intro hi
  rw [ite_eq_right_iff]
  intro hk
  rw [show k - i = 0 by omega]
  rfl

theorem keeps_execSecRootRevoke (s : State) : Keeps s (execSecRootRevoke s) := by
  rw [execSecRootRevoke, keeps_next]
  refine le_secRun _ _ (Lasting.le_refl _) fun c => ?_
  extract_lets i others digest u
  have hu : (lasting s).le (lasting u) :=
    le_modIsland _ ⟨le_rfl, fun k hk => bit_setBits_one _ _ k hk, le_rfl, le_rfl, id⟩ (Lasting.le_refl _)
  rw [le_lasting_ite, le_lasting_ite, lasting_mailFail, lasting_mailFail, lasting_mailOk]
  refine ⟨fun _ => Lasting.le_refl _, fun _ => ⟨fun _ => Lasting.le_refl _, fun _ => le_auditAdd _ _ _ ?_⟩⟩
  rwa [lasting_raiseInc]

/-! #### The service connector -/

theorem keeps_execTapBypass (d : Fin 32) (s : State) : Keeps s (execTapBypass d s) := by
  simp [execTapBypass]

theorem keeps_execTapIdcode (d : Fin 32) (s : State) : Keeps s (execTapIdcode d s) := by
  simp [execTapIdcode]

theorem keeps_execTapSample (d : Fin 32) (pins preload : List Bool) (s : State) : Keeps s (execTapSample d pins preload s) := by
  simp [execTapSample]

theorem keeps_execTapExtest (d : Fin 32) (pins next : List Bool) (s : State) : Keeps s (execTapExtest d pins next s) := by
  simp [execTapExtest]

theorem keeps_execTapJsel (v : W32) (s : State) : Keeps s (execTapJsel v s) := by
  simp [execTapJsel]

theorem keeps_execTapLbnear (d : Fin 32) (v : BitVec 8) (s : State) : Keeps s (execTapLbnear d v s) := by
  simp [execTapLbnear]

theorem keeps_execTapLbfar (d : Fin 32) (v : BitVec 8) (s : State) : Keeps s (execTapLbfar d v s) := by
  simp [execTapLbfar]

theorem keeps_execTapPrbscfg (d : Fin 32) (v : W32) (s : State) : Keeps s (execTapPrbscfg d v s) := by
  simp [execTapPrbscfg]

theorem keeps_execTapPrbsrd (d : Fin 32) (errs : List (Fin 13 × W32)) (bits : Nat) (s : State) : Keeps s (execTapPrbsrd d errs bits s) := by
  rw [execTapPrbsrd, keeps_next, lasting_tapDo]
  · exact Lasting.le_refl _
  · split <;> simp

theorem keeps_execTapBbstat (d : Fin 32) (s : State) : Keeps s (execTapBbstat d s) := by
  simp [execTapBbstat]

theorem keeps_execSbId (s : State) : Keeps s (execSbId s) := by
  simp [execSbId]

theorem keeps_execSbState (s : State) : Keeps s (execSbState s) := by
  simp [execSbState]

theorem keeps_execSbPin (s : State) : Keeps s (execSbPin s) := by
  simp [execSbPin]

theorem keeps_execSbVmin (s : State) : Keeps s (execSbVmin s) := by
  simp [execSbVmin]

theorem keeps_execSbIblade (s : State) : Keeps s (execSbIblade s) := by
  simp [execSbIblade]

theorem keeps_execSbTmax (s : State) : Keeps s (execSbTmax s) := by
  simp [execSbTmax]

theorem keeps_execSbTcool (s : State) : Keeps s (execSbTcool s) := by
  simp [execSbTcool]

theorem keeps_execSbAlert (s : State) : Keeps s (execSbAlert s) := by
  simp [execSbAlert]

theorem keeps_execUartRx (_ch : Byte) (s : State) : Keeps s (execUartRx _ch s) := by
  simp [execUartRx]

/-! #### Timer, module time, CSRs and system instructions of the Wick cores -/

theorem keeps_execTrd (t : TileId) (c : CoreIx) (gd : GReg) (s : State) : Keeps s (execTrd t c gd s) := by
  simp [execTrd]

theorem keeps_execTset (t : TileId) (c : CoreIx) (gs1 : GReg) (s : State) : Keeps s (execTset t c gs1 s) := by
  simp [execTset]

theorem keeps_execTwait (t : TileId) (c : CoreIx) (s : State) : Keeps s (execTwait t c s) := by
  simp [execTwait]

theorem keeps_execTchk (t : TileId) (c : CoreIx) (gd : GReg) (s : State) : Keeps s (execTchk t c gd s) := by
  simp [execTchk]

theorem keeps_execTimerDeadlineReached (t : TileId) (c : CoreIx) (s : State) : Keeps s (execTimerDeadlineReached t c s) := by
  simp [execTimerDeadlineReached]

theorem keeps_execMtime (t : TileId) (c : CoreIx) (gd : GReg) (s : State) : Keeps s (execMtime t c gd s) := by
  simp [execMtime]

theorem keeps_execCsrr (t : TileId) (c : CoreIx) (gd : GReg) (csr : BitVec 12) (s : State) : Keeps s (execCsrr t c gd csr s) := by
  simp [execCsrr]

theorem keeps_execCsrw (t : TileId) (c : CoreIx) (gs1 : GReg) (csr : BitVec 12) (s : State) : Keeps s (execCsrw t c gs1 csr s) := by
  simp [execCsrw]

theorem keeps_execYield (t : TileId) (c : CoreIx) (s : State) : Keeps s (execYield t c s) := by
  simp [execYield]

theorem keeps_execWickHalt (t : TileId) (c : CoreIx) (s : State) : Keeps s (execWickHalt t c s) := by
  simp [execWickHalt]

theorem keeps_execTrap (t : TileId) (c : CoreIx) (imm : BitVec 14) (s : State) : Keeps s (execTrap t c imm s) := by
  unfold execTrap
  exact keeps_else (keeps_execWickHalt t c s) (by simp)

end Sys2Proof.Machine
end

section
/-!
PROOFS. What a step does (O58) and what every step keeps (O60).
-/
namespace Sys2Proof.Machine
open Sys2Proof

theorem keeps_exec (i : Instr) (s : State) : Keeps s (exec i s) :=
  match i with
  | .powerOn => keeps_execPowerOn s
  | .startupPhaseEnd r => keeps_execStartupPhaseEnd r s
  | .inputUndervoltage rail => keeps_execInputUndervoltage rail s
  | .bladeChange ix mv10 held => keeps_execBladeChange ix mv10 held s
  | .modResetN => keeps_execModResetN s
  | .referenceClockLoss => keeps_execReferenceClockLoss s
  | .referenceClockValid => keeps_execReferenceClockValid s
  | .tamper pin => keeps_execTamper pin s
  | .tamperCleared => keeps_execTamperCleared s
  | .integerAlu t c ins => keeps_execIntegerAlu t c ins s
  | .multiplyDivide t c o gd gs1 gs2 => keeps_execMultiplyDivide t c o gd gs1 gs2 s
  | .loadStore t c o gd gs1 imm => keeps_execLoadStore t c o gd gs1 imm s
  | .ownTileLoadData t c => keeps_execOwnTileLoadData t c s
  | .branchJump t c ins => keeps_execBranchJump t c ins s
  | .scalarFloatingPoint t c ins => keeps_execScalarFloatingPoint t c ins s
  | .packedSimd t c ins => keeps_execPackedSimd t c ins s
  | .bitManipulation t c ins => keeps_execBitManipulation t c ins s
  | .crc32c t c gd gs1 gs2 w => keeps_execCrc32c t c gd gs1 gs2 w s
  | .hmix t c gd gs1 gs2 => keeps_execHmix t c gd gs1 gs2 s
  | .hfold t c gd gs1 gs2 => keeps_execHfold t c gd gs1 gs2 s
  | .pop t c gd q => keeps_execPop t c gd q s
  | .popl t c gd q => keeps_execPopl t c gd q s
  | .peek t c gd q => keeps_execPeek t c gd q s
  | .qcnt t c gd q => keeps_execQcnt t c gd q s
  | .qdrop t c gd q => keeps_execQdrop t c gd q s
  | .send t c gd gs1 gs2 n => keeps_execSend t c gd gs1 gs2 n s
  | .sendb t c gd gs1 gs2 n => keeps_execSendb t c gd gs1 gs2 n s
  | .sendbRetry t c => keeps_execSendbRetry t c s
  | .sendbDeadline t c => keeps_execSendbDeadline t c s
  | .sendbReplyLost t c => keeps_execSendbReplyLost t c s
  | .recv t c gd gs1 mask rot => keeps_execRecv t c gd gs1 mask rot s
  | .recvTimeout t c => keeps_execRecvTimeout t c s
  | .dsend t c gd gs1 gs2 => keeps_execDsend t c gd gs1 gs2 s
  | .tkwt t c gd gs1 => keeps_execTkwt t c gd gs1 s
  | .tkst t c gd gs1 => keeps_execTkst t c gd gs1 s
  | .wickFence t c => keeps_execWickFence t c s
  | .ldr t c gd gs1 gs2 => keeps_execLdr t c gd gs1 gs2 s
  | .str t c gd gs1 gs2 => keeps_execStr t c gd gs1 gs2 s
  | .trd t c gd => keeps_execTrd t c gd s
  | .tset t c gs1 => keeps_execTset t c gs1 s
  | .twait t c => keeps_execTwait t c s
  | .tchk t c gd => keeps_execTchk t c gd s
  | .mtime t c gd => keeps_execMtime t c gd s
  | .csrr t c gd csr => keeps_execCsrr t c gd csr s
  | .csrw t c gs1 csr => keeps_execCsrw t c gs1 csr s
  | .yield t c => keeps_execYield t c s
  | .wickHalt t c => keeps_execWickHalt t c s
  | .trap t c imm => keeps_execTrap t c imm s
  | .timerDeadlineReached t c => keeps_execTimerDeadlineReached t c s
  | .remoteAccessTimeout t c tag => keeps_execRemoteAccessTimeout t c tag s
  | .rrsp pid => keeps_execRrsp pid s
  | .racc pid => keeps_execRacc pid s
  | .reply pid => keeps_execReply pid s
  | .ticketTimeout t c tk => keeps_execTicketTimeout t c tk s
  | .probe pid => keeps_execProbe pid s
  | .msg pid => keeps_execMsg pid s
  | .msgb pid => keeps_execMsgb pid s
  | .desc pid => keeps_execDesc pid s
  | .descriptorRecordWritten t m => keeps_execDescriptorRecordWritten t m s
  | .matmul t k fl ep => keeps_execMatmul t k fl ep s
  | .vector t k sh ep => keeps_execVector t k sh ep s
  | .loadw t k => keeps_execLoadw t k s
  | .loadx t k => keeps_execLoadx t k s
  | .uopHalt t k => keeps_execUopHalt t k s
  | .cuContextStart t k => keeps_execCuContextStart t k s
  | .microOpIssue t k => keeps_execMicroOpIssue t k s
  | .outputTokenSend t u => keeps_execOutputTokenSend t u s
  | .maskDeadline t k => keeps_execMaskDeadline t k s
  | .steeringFire t k shadow ep => keeps_execSteeringFire t k shadow ep s
  | .generatorStart t m p cu => keeps_execGeneratorStart t m p cu s
  | .affineBeat t m g => keeps_execAffineBeat t m g s
  | .indirectAccess t m g => keeps_execIndirectAccess t m g s
  | .gatherPiece t m g => keeps_execGatherPiece t m g s
  | .treeWalkNode t m g => keeps_execTreeWalkNode t m g s
  | .ringProduce t m p => keeps_execRingProduce t m p s
  | .ringConsume t m p => keeps_execRingConsume t m p s
  | .copyOutGranule t m => keeps_execCopyOutGranule t m s
  | .snapshotShadowWait t m g => keeps_execSnapshotShadowWait t m g s
  | .shadowFoldBack t m => keeps_execShadowFoldBack t m s
  | .sramScrub t u => keeps_execSramScrub t u s
  | .tokd pid => keeps_execTokd pid s
  | .tokc pid => keeps_execTokc pid s
  | .cret pid => keeps_execCret pid s
  | .queueRelease t u q => keeps_execQueueRelease t u q s
  | .ackStreamResend t u o => keeps_execAckStreamResend t u o s
  | .foldSwitchRequest t u => keeps_execFoldSwitchRequest t u s
  | .foldSwitch t u => keeps_execFoldSwitch t u s
  | .spillReinjection t u => keeps_execSpillReinjection t u s
  | .drainEvaluation r => keeps_execDrainEvaluation r s
  | .drainTimeout r => keeps_execDrainTimeout r s
  | .quiesceDeadline tag => keeps_execQuiesceDeadline tag s
  | .watchdogWindow r => keeps_execWatchdogWindow r s
  | .regionLoad r => keeps_execRegionLoad r s
  | .regionStart r => keeps_execRegionStart r s
  | .regionStop r => keeps_execRegionStop r s
  | .regionDrain r => keeps_execRegionDrain r s
  | .regionRestart r => keeps_execRegionRestart r s
  | .regionStep r => keeps_execRegionStep r s
  | .phase r => keeps_execPhase r s
  | .phaseComplete r => keeps_execPhaseComplete r s
  | .packetHop pid => keeps_execPacketHop pid s
  | .linkRetry t port ctl => keeps_execLinkRetry t port ctl s
  | .linkRetrain t port ctl => keeps_execLinkRetrain t port ctl s
  | .linkRetrainDone t port ctl bad => keeps_execLinkRetrainDone t port ctl bad s
  | .groupPacket pid => keeps_execGroupPacket pid s
  | .red pid => keeps_execRed pid s
  | .cwaitExpiry t ix => keeps_execCwaitExpiry t ix s
  | .rect pid => keeps_execRect pid s
  | .meshDomainDown f => keeps_execMeshDomainDown f s
  | .liveTableChange => keeps_execLiveTableChange s
  | .tableChangeIdle => keeps_execTableChangeIdle s
  | .tableChangeDeadline => keeps_execTableChangeDeadline s
  | .waveSend => keeps_execWaveSend s
  | .timeMarkSchedule => keeps_execTimeMarkSchedule s
  | .snapshot alt miss quiet late => keeps_execSnapshot alt miss quiet late s
  | .commit alt miss quiet late => keeps_execCommit alt miss quiet late s
  | .abort alt miss quiet late => keeps_execAbort alt miss quiet late s
  | .freezeWave alt miss quiet late => keeps_execFreezeWave alt miss quiet late s
  | .timeMark alt miss quiet late => keeps_execTimeMark alt miss quiet late s
  | .waveReportMissing => keeps_execWaveReportMissing s
  | .commandFetch e words => keeps_execCommandFetch e words s
  | .cmdNop e => keeps_execCmdNop e s
  | .copy e => keeps_execCopy e s
  | .copyPageComplete cmd ix => keeps_execCopyPageComplete cmd ix s
  | .decryptChunk cmd ix => keeps_execDecryptChunk cmd ix s
  | .portCfg d => keeps_execPortCfg d s
  | .instPut d => keeps_execInstPut d s
  | .instDel d => keeps_execInstDel d s
  | .tmplWr d => keeps_execTmplWr d s
  | .guardWr d => keeps_execGuardWr d s
  | .parseWr d => keeps_execParseWr d s
  | .replayCfg d => keeps_execReplayCfg d s
  | .wgxSess d => keeps_execWgxSess d s
  | .wgxPush d => keeps_execWgxPush d s
  | .wgxPull d => keeps_execWgxPull d s
  | .txnBegin => keeps_execTxnBegin s
  | .txnCommit => keeps_execTxnCommit s
  | .txnAbort => keeps_execTxnAbort s
  | .stageWr => keeps_execStageWr s
  | .memberStaged e => keeps_execMemberStaged e s
  | .transactionDeadline tag => keeps_execTransactionDeadline tag s
  | .ctrRead => keeps_execCtrRead s
  | .histRead => keeps_execHistRead s
  | .snapNow => keeps_execSnapNow s
  | .lhistRead => keeps_execLhistRead s
  | .traceSet => keeps_execTraceSet s
  | .traceStop => keeps_execTraceStop s
  | .freeze => keeps_execFreeze s
  | .frameReceived d p data fcsOk dts => keeps_execFrameReceived d p data fcsOk dts s
  | .ptpFrame d p data => keeps_execPtpFrame d p data s
  | .parseNop d l => keeps_execParseNop d l s
  | .parseSetc d l => keeps_execParseSetc d l s
  | .parseLd d l => keeps_execParseLd d l s
  | .parseLdl d l => keeps_execParseLdl d l s
  | .parseLdi d l => keeps_execParseLdi d l s
  | .parseLui d l => keeps_execParseLui d l s
  | .parseAdd d l => keeps_execParseAdd d l s
  | .parseAddi d l => keeps_execParseAddi d l s
  | .parseAndi d l => keeps_execParseAndi d l s
  | .parseShri d l => keeps_execParseShri d l s
  | .parseAdv d l => keeps_execParseAdv d l s
  | .parseBr d l => keeps_execParseBr d l s
  | .parseJmp d l => keeps_execParseJmp d l s
  | .parseKey d l => keeps_execParseKey d l s
  | .parseKeyv d l => keeps_execParseKeyv d l s
  | .parseExt d l => keeps_execParseExt d l s
  | .parseFsq d l => keeps_execParseFsq d l s
  | .parseEmit d l => keeps_execParseEmit d l s
  | .parseDone d l => keeps_execParseDone d l s
  | .parseDrop d l => keeps_execParseDrop d l s
  | .frameEnd d n => keeps_execFrameEnd d n s
  | .eventSend d k => keeps_execEventSend d k s
  | .pendingIndexTimeout d n => keeps_execPendingIndexTimeout d n s
  | .eventReplyTimeout d n => keeps_execEventReplyTimeout d n s
  | .replayRecordWrite d journal => keeps_execReplayRecordWrite d journal s
  | .response pid => keeps_execResponse pid s
  | .macGrant d p dts => keeps_execMacGrant d p dts s
  | .frameTransmitted d p => keeps_execFrameTransmitted d p s
  | .snuffN low held => keeps_execSnuffN low held s
  | .cdSnfWrite p v => keeps_execCdSnfWrite p v s
  | .portLinkChange d p up => keeps_execPortLinkChange d p up s
  | .replaySend d g => keeps_execReplaySend d g s
  | .wgxData d p f => keeps_execWgxData d p f s
  | .wgxAck d p f => keeps_execWgxAck d p f s
  | .wgxPullFrame d p f => keeps_execWgxPullFrame d p f s
  | .wgxRst d p f => keeps_execWgxRst d p f s
  | .wgxFrameSend d ix => keeps_execWgxFrameSend d ix s
  | .wgxRtoExpiry d ix seq => keeps_execWgxRtoExpiry d ix seq s
  | .wgxAckTimer d ix => keeps_execWgxAckTimer d ix s
  | .mwr pid => keeps_execMwr pid s
  | .mrd pid => keeps_execMrd pid s
  | .msdServiceStart m => keeps_execMsdServiceStart m s
  | .hbmPatrolScrub m => keeps_execHbmPatrolScrub m s
  | .resilverPage m => keeps_execResilverPage m s
  | .satelliteDieReset d => keeps_execSatelliteDieReset d s
  | .satelliteRetrainDone d => keeps_execSatelliteRetrainDone d s
  | .brobryFlit d p dir slots ok => keeps_execBrobryFlit d p dir slots ok s
  | .brobryNak d p dir oks => keeps_execBrobryNak d p dir oks s
  | .brobryReplayTimeout d p dir oks => keeps_execBrobryReplayTimeout d p dir oks s
  | .attachPortRetrain d p => keeps_execAttachPortRetrain d p s
  | .waveFrame d p ok => keeps_execWaveFrame d p ok s
  | .snuffFrame d => keeps_execSnuffFrame d s
  | .sbackFrame d p dir ok => keeps_execSbackFrame d p dir ok s
  | .creditFrame d p dir v ok => keeps_execCreditFrame d p dir v ok s
  | .trainFrame d p dir w ok => keeps_execTrainFrame d p dir w ok s
  | .keyFrame d p slot piece ok => keeps_execKeyFrame d p slot piece ok s
  | .mgmtFrame d p dir bs ok => keeps_execMgmtFrame d p dir bs ok s
  | .stateFrame d p rep ok => keeps_execStateFrame d p rep ok s
  | .sidebandRepeatTimeout d p dir oks => keeps_execSidebandRepeatTimeout d p dir oks s
  | .dieTraining d bad => keeps_execDieTraining d bad s
  | .semTake p both => keeps_execSemTake p both s
  | .semHb p v => keeps_execSemHb p v s
  | .semRel p v => keeps_execSemRel p v s
  | .semaphoreLeaseEnd => keeps_execSemaphoreLeaseEnd s
  | .mrst p => keeps_execMrst p s
  | .ringCfg p e v => keeps_execRingCfg p e v s
  | .ringDb p e tail => keeps_execRingDb p e tail s
  | .cplHead p e v => keeps_execCplHead p e v s
  | .completionInterruptDelay p e => keeps_execCompletionInterruptDelay p e s
  | .intCause p v => keeps_execIntCause p v s
  | .intMask p v => keeps_execIntMask p v s
  | .msixMaskChange p en fm vec => keeps_execMsixMaskChange p en fm vec s
  | .timeNs p h => keeps_execTimeNs p h s
  | .bar0AccessSize p write => keeps_execBar0AccessSize p write s
  | .registerWrite p r => keeps_execRegisterWrite p r s
  | .flr p => keeps_execFlr p s
  | .perstN p pin => keeps_execPerstN p pin s
  | .mbhPost p w => keeps_execMbhPost p w s
  | .mailboxRequestCheck p => keeps_execMailboxRequestCheck p s
  | .mailboxReply => keeps_execMailboxReply s
  | .mbmAck p aseq => keeps_execMbmAck p aseq s
  | .mailboxReplyDeadline p => keeps_execMailboxReplyDeadline p s
  | .mbNop => keeps_execMbNop s
  | .mbVersion => keeps_execMbVersion s
  | .mbState => keeps_execMbState s
  | .mbInventory => keeps_execMbInventory s
  | .mbBirthRead => keeps_execMbBirthRead s
  | .mbMemmapRead => keeps_execMbMemmapRead s
  | .mbMemmapSet => keeps_execMbMemmapSet s
  | .mbIncringSet => keeps_execMbIncringSet s
  | .mbFence => keeps_execMbFence s
  | .mbUnfence => keeps_execMbUnfence s
  | .mbSnapSet => keeps_execMbSnapSet s
  | .mbSnapRead => keeps_execMbSnapRead s
  | .mbPcapSet flash => keeps_execMbPcapSet flash s
  | .mbPowerRead => keeps_execMbPowerRead s
  | .mbOpmaskSet flash => keeps_execMbOpmaskSet flash s
  | .mbPilotEnter => keeps_execMbPilotEnter s
  | .mbPilotWake => keeps_execMbPilotWake s
  | .wakeStep fields msds => keeps_execWakeStep fields msds s
  | .mbClkStatus => keeps_execMbClkStatus s
  | .mbFreqMeas => keeps_execMbFreqMeas s
  | .mbTsrcSet flash => keeps_execMbTsrcSet flash s
  | .mbSnuffEng => keeps_execMbSnuffEng s
  | .mbSnuffRel => keeps_execMbSnuffRel s
  | .mbSetRead => keeps_execMbSetRead s
  | .mbSetWrite flash => keeps_execMbSetWrite flash s
  | .mbSetDefault flash => keeps_execMbSetDefault flash s
  | .mbUpdStage => keeps_execMbUpdStage s
  | .mbUpdActivate => keeps_execMbUpdActivate s
  | .activationReset => keeps_execActivationReset s
  | .mbUpdConfirm => keeps_execMbUpdConfirm s
  | .mbUpdStatus => keeps_execMbUpdStatus s
  | .healthDeadline => keeps_execHealthDeadline s
  | .secStatus => keeps_execSecStatus s
  | .secPubkeys => keeps_execSecPubkeys s
  | .secAttest => keeps_execSecAttest s
  | .secKeyImport => keeps_execSecKeyImport s
  | .secKeyClear => keeps_execSecKeyClear s
  | .secKeyList => keeps_execSecKeyList s
  | .secRandom => keeps_execSecRandom s
  | .secSelftest => keeps_execSecSelftest s
  | .secDbgChal => keeps_execSecDbgChal s
  | .secDbgUnlock => keeps_execSecDbgUnlock s
  | .secDbgLock => keeps_execSecDbgLock s
  | .secAuditRead => keeps_execSecAuditRead s
  | .secRootRevoke => keeps_execSecRootRevoke s
  | .entropyTestFailure adaptive => keeps_execEntropyTestFailure adaptive s
  | .incidentAccept => keeps_execIncidentAccept s
  | .coalescingWindowEnd => keeps_execCoalescingWindowEnd s
  | .tileHealthProbe cd md silent => keeps_execTileHealthProbe cd md silent s
  | .periodicSnapshot => keeps_execPeriodicSnapshot s
  | .recoveryStart => keeps_execRecoveryStart s
  | .spareTestDone good => keeps_execSpareTestDone good s
  | .replayCaughtUp g => keeps_execReplayCaughtUp g s
  | .bladeMeasurement vs => keeps_execBladeMeasurement vs s
  | .fastHalvingRecheck => keeps_execFastHalvingRecheck s
  | .powerLoopStep e => keeps_execPowerLoopStep e s
  | .issueBudgetCycle f => keeps_execIssueBudgetCycle f s
  | .opChangeStep f => keeps_execOpChangeStep f s
  | .taperStep f => keeps_execTaperStep f s
  | .droopDetected t => keeps_execDroopDetected t s
  | .droopRecovered t => keeps_execDroopRecovered t s
  | .fieldPllUnlock f b => keeps_execFieldPllUnlock f b s
  | .standbyPllTimeout f => keeps_execStandbyPllTimeout f s
  | .thermalSensorRead x => keeps_execThermalSensorRead x s
  | .heatBudgetStep f => keeps_execHeatBudgetStep f s
  | .heatResume r => keeps_execHeatResume r s
  | .servoMeasurement o => keeps_execServoMeasurement o s
  | .ppsIn => keeps_execPpsIn s
  | .timeSourceTimeout => keeps_execTimeSourceTimeout s
  | .tapBypass d => keeps_execTapBypass d s
  | .tapIdcode d => keeps_execTapIdcode d s
  | .tapSample d pins preload => keeps_execTapSample d pins preload s
  | .tapExtest d pins next => keeps_execTapExtest d pins next s
  | .tapJsel v => keeps_execTapJsel v s
  | .tapLbnear d v => keeps_execTapLbnear d v s
  | .tapLbfar d v => keeps_execTapLbfar d v s
  | .tapPrbscfg d v => keeps_execTapPrbscfg d v s
  | .tapPrbsrd d errs bits => keeps_execTapPrbsrd d errs bits s
  | .tapBbstat d => keeps_execTapBbstat d s
  | .sbId => keeps_execSbId s
  | .sbState => keeps_execSbState s
  | .sbPin => keeps_execSbPin s
  | .sbVmin => keeps_execSbVmin s
  | .sbIblade => keeps_execSbIblade s
  | .sbTmax => keeps_execSbTmax s
  | .sbTcool => keeps_execSbTcool s
  | .sbAlert => keeps_execSbAlert s
  | .uartRx ch => keeps_execUartRx ch s
  | .pilotEntryStep => keeps_execPilotEntryStep s
  | .frequencyMeterGateClose m count => keeps_execFrequencyMeterGateClose m count s
  | .updateStagingComplete flash => keeps_execUpdateStagingComplete flash s
  | .hostPortResetEnd p => keeps_execHostPortResetEnd p s
  | .configurationRequest p q => keeps_execConfigurationRequest p q s
  | .rcRegisterRead r => keeps_execRcRegisterRead r s
  | .hostReadCompletion p what res => keeps_execHostReadCompletion p what res s
  | .attachPortRetrainDone d p bad => keeps_execAttachPortRetrainDone d p bad s
  | .clockInputValidityChange ix valid => keeps_execClockInputValidityChange ix valid s
  | .moduleResetRelease => keeps_execModuleResetRelease s

/-- A step keeps what lasts of the state without the front of its queue. -/
theorem keeps_step (s : State) : Keeps { s with pending := s.pending.tail } (step s) := by
  unfold step
  split
  · next h =>
    rw [h]
    exact keeps_exec _ _
  · next h =>
    rw [keeps_next, h, List.tail_nil, ← h]
    exact le_advance 1 (Lasting.le_refl _)

/-- Settles O60: the meaning of every command keeps what lasts (`keeps_exec`), and so does a period of the reference clock. -/
theorem everyStepKeeps : Obligations.EveryStepKeeps := by
  unfold Obligations.EveryStepKeeps
  intro s u h
  obtain ⟨hpending, hpart, ⟨hsvn, hrevoked, hboots, haseq, hraises⟩, hticks⟩ := keeps_step s u h
  exact ⟨hpending, hpart, hsvn, hrevoked, hboots, haseq, hraises, hticks⟩

/-- Settles O58: `step` is its own two cases, and one period of the reference clock (`advance` by one tick) touches the time alone. -/
theorem stepTakesTheFrontCommand : Obligations.StepTakesTheFrontCommand := by
  unfold Obligations.StepTakesTheFrontCommand
  refine ⟨fun s c rest h => ?_, fun s h => ⟨idleTick s, ?_, rfl, ?_, rfl⟩⟩
  · simp only [step, h]
  · simp only [step, h]
  · simp [idleTick, advance]

end Sys2Proof.Machine
end

section
/-!
PROOFS. The host's accesses to registers and configuration space (O46): what a port that is up or down answers, then one lemma for each command.
-/
namespace Sys2Proof.Machine
open Sys2Proof

/-! ### Requests at a host port (R445) -/

theorem hostRead_up {s : State} {p : Nat} (h : hostUp s p = true) (k : State) : hostRead s p k = k := if_pos h

theorem hostWr_up {s : State} {p : Nat} (h : hostUp s p = true) (k : State) : hostWr s p k = k := if_pos h

theorem hostRead_down {s : State} {p : Nat} (hl : (getHost s p).linkUp = true) (hp : (getHost s p).perst = false) (h : hostUp s p = false) (k : State) :
    hostRead s p k = hostAns s p .unsupported := by
  simp [hostRead, h, hl, hp]

@[simp] theorem host_hostAns_same (s : State) (p : Nat) (a : HAns) : mget .none (hostAns s p a).ans.host p = a := mget_mset_same ..

theorem getRing_setRing_same (s : State) (p e : Nat) (r : HRing) : getRing (setRing s p e r) p e = r := by
  rw [getRing, setRing, modHost_eq, getHost_setHost_same]
  exact mget_mset_same ..

theorem getBb_modBb_same (s : State) (d p : Nat) (f : BbPort → BbPort) : getBb (modBb s d p f) d p = f (getBb s d p) := by
  rw [getBb, modBb, modDie_eq, getDie_setDie_same]
  exact mget_mset_same ..

/-! ### Module time (R444) -/

theorem execTimeNs_up {s : State} {p : Fin 2} (h : hostUp s p.val = true) :
    let t := nowNs s % 2 ^ 64
    (∃ u, exec (.timeNs p .whole) s = .next u ∧ mget .none u.ans.host p.val = .data t ∧ { u with ans := s.ans } = s) ∧
    (∃ u, exec (.timeNs p .low) s = .next u ∧ mget .none u.ans.host p.val = .data (t % 2 ^ 32) ∧ (getHost u p.val).latch = some (t / 2 ^ 32)) ∧
    (∃ u, exec (.timeNs p .high) s = .next u ∧ mget .none u.ans.host p.val = .data ((getHost s p.val).latch.getD (t / 2 ^ 32)) ∧
      (getHost u p.val).latch = none) := by
  refine ⟨⟨_, congrArg Host.Outcome.next (hostRead_up h _), host_hostAns_same .., rfl⟩,
    ⟨_, congrArg Host.Outcome.next (hostRead_up h _), host_hostAns_same .., ?_⟩,
    ⟨_, congrArg Host.Outcome.next (hostRead_up h _), host_hostAns_same .., ?_⟩⟩
  · exact congrArg HostPort.latch (getHost_setHost_same ..)
  · exact congrArg HostPort.latch (getHost_setHost_same ..)

/-! ### Accesses of another size (R428) -/

/-- An incident of a satellite or the CD is not traced: it changes the incident path and nothing else. -/
theorem raiseInc_die_frame (s : State) (i : Inc) (h : i.die ≠ 0) : { raiseInc s i with inc := s.inc } = s := by
  have ht : traceInc s i = s := if_neg (by simp [h])
  rw [raiseInc_eq, ht]
  exact pushInc_frame ..

/-- The state in which a coalesced incident opens its window (R502). -/
def windowOpened (s : State) (i : Inc) : State :=
  { s with inc := { s.inc with windows := s.inc.windows ++ [⟨nowNs s, i.cls, i.die, i.utyp, i.tile, i.uidx, none, 0, 0⟩] } }

theorem raiseCoal_fresh (s : State) (i : Inc) (h : ∀ x ∈ s.inc.windows, x.cls ≠ i.cls) : raiseCoal s i = raiseInc (windowOpened s i) i := by
  unfold raiseCoal
  refine if_neg ?_
  simp only [List.any_eq_true, not_exists, not_and]
  intro x hx
  simp [h x hx]

theorem raised_raiseCoal_fresh (s : State) (i : Inc) (h : ∀ x ∈ s.inc.windows, x.cls ≠ i.cls) :
    raised s (raiseCoal s i) (incSource i) i.cls i.uidx i.detail := by
  rw [raiseCoal_fresh s i h]
  exact raised_raiseInc (windowOpened s i) i

theorem raiseCoal_fresh_frame (s : State) (i : Inc) (h : ∀ x ∈ s.inc.windows, x.cls ≠ i.cls) (hd : i.die ≠ 0) :
    { raiseCoal s i with inc := s.inc } = s := by
  rw [raiseCoal_fresh s i h]
  exact congrArg (fun u : State => { u with inc := s.inc }) (raiseInc_die_frame (windowOpened s i) i hd)

theorem execBar0AccessSize_up {s : State} {p : Fin 2} (w : Bool) (h : hostUp s p.val = true) (hx : ∀ x ∈ s.inc.windows, x.cls ≠ 0x0A05) :
    ∃ u, exec (.bar0AccessSize p w) s = .next u ∧ raised s u 20001 0x0A05 0 0 ∧ { u with inc := s.inc, ans := s.ans } = s ∧
      (w = false → mget .none u.ans.host p.val = .abort) := by
  have hr : raised s (raiseCoal s (cdInc 0x0A05 0)) 20001 0x0A05 0 0 := raised_raiseCoal_fresh s (cdInc 0x0A05 0) hx
  have hf := congrArg (fun u : State => { u with ans := s.ans }) (raiseCoal_fresh_frame s (cdInc 0x0A05 0) hx (by decide))
  cases w with
  | true => exact ⟨_, congrArg Host.Outcome.next (hostWr_up h _), hr, hf, nofun⟩
  | false => exact ⟨_, congrArg Host.Outcome.next (hostRead_up h _), hr, hf, fun _ => host_hostAns_same ..⟩

/-! ### The registers of a ring (R436) -/

theorem execRegisterWrite_up {s : State} {p : Fin 2} (h : hostUp s p.val = true) (w : RegW) :
    exec (.registerWrite p w) s = .next (regWrite s p.val w) :=
  congrArg Host.Outcome.next (hostWr_up h _)

theorem hostRingFree_iff (r : HRing) : hostRingFree r = true ↔ r.en = false ∧ r.out = 0 := by
  simp [hostRingFree]

theorem getRing_setRing_if (c : Prop) [Decidable c] (s : State) (p e : Nat) (r : HRing) :
    getRing (if c then setRing s p e r else s) p e = if c then r else getRing s p e := by
  split
  · exact getRing_setRing_same ..
  · rfl

theorem getRing_regWrite_ringBase (s : State) (p : Nat) (e : Fin 79) (h : Half) (v : W64) :
    getRing (regWrite s p (.ringBase e h v)) p e.val =
      if hostRingFree (getRing s p e.val) then { getRing s p e.val with rbase := mergeHalf h (getRing s p e.val).rbase v.toNat / 4096 * 4096 }
      else getRing s p e.val :=
  getRing_setRing_if ..

theorem getRing_regWrite_cplBase (s : State) (p : Nat) (e : Fin 79) (h : Half) (v : W64) :
    getRing (regWrite s p (.cplBase e h v)) p e.val =
      if hostRingFree (getRing s p e.val) then { getRing s p e.val with cbase := mergeHalf h (getRing s p e.val).cbase v.toNat / 4096 * 4096 }
      else getRing s p e.val :=
  getRing_setRing_if ..

theorem getRing_regWrite_cplCfg (s : State) (p : Nat) (e : Fin 79) (v : W32) :
    getRing (regWrite s p (.cplCfg e v)) p e.val =
      { getRing s p e.val with
        cvec := bits v.toNat 22 10, cdly := bits v.toNat 12 10,
        csize := if hostRingFree (getRing s p e.val) then bits v.toNat 0 12 else (getRing s p e.val).csize } := by
  refine (getRing_setRing_same ..).trans ?_
  rw [show hostRingFree { getRing s p e.val with cvec := bits v.toNat 22 10, cdly := bits v.toNat 12 10 } = hostRingFree (getRing s p e.val) from rfl]
  split <;> rfl

theorem setBits_high_mod (old v : Nat) : setBits old 32 32 v % 2 ^ 32 = old % 2 ^ 32 :=
  bits_setBits_apart old 32 32 v 0 32 (by decide)

theorem execRegisterWrite_rings {s : State} {p : Fin 2} (e : Fin 79) (v : W64) (c : W32) (h : hostUp s p.val = true) :
    let r := getRing s p.val e.val
    let free := r.en = false ∧ r.out = 0
    (∃ u, exec (.registerWrite p (.ringBase e .whole v)) s = .next u ∧
      getRing u p.val e.val = (if free then { r with rbase := v.toNat / 4096 * 4096 } else r)) ∧
    (∃ u, exec (.registerWrite p (.cplBase e .whole v)) s = .next u ∧
      getRing u p.val e.val = (if free then { r with cbase := v.toNat / 4096 * 4096 } else r)) ∧
    (∃ u, exec (.registerWrite p (.ringBase e .high v)) s = .next u ∧
      (free → r.rbase % 4096 = 0 →
        (getRing u p.val e.val).rbase % 2 ^ 32 = r.rbase % 2 ^ 32 ∧ bits (getRing u p.val e.val).rbase 32 32 = v.toNat % 2 ^ 32)) ∧
    (∃ u, exec (.registerWrite p (.cplCfg e c)) s = .next u ∧
      getRing u p.val e.val =
        { r with cvec := bits c.toNat 22 10, cdly := bits c.toNat 12 10, csize := if free then bits c.toNat 0 12 else r.csize }) := by
  intro r free
  have hfree : hostRingFree r = true ↔ free := hostRingFree_iff r
  refine ⟨⟨_, execRegisterWrite_up h _, ?_⟩, ⟨_, execRegisterWrite_up h _, ?_⟩, ⟨_, execRegisterWrite_up h _, fun hf hr => ?_⟩,
    ⟨_, execRegisterWrite_up h _, ?_⟩⟩
  · rw [getRing_regWrite_ringBase]
    exact if_congr hfree rfl rfl
  · rw [getRing_regWrite_cplBase]
    exact if_congr hfree rfl rfl
  · rw [getRing_regWrite_ringBase, if_pos (hfree.2 hf)]
    have hlow := setBits_high_mod r.rbase v.toNat
    have hkeep : setBits r.rbase 32 32 v.toNat / 4096 * 4096 = setBits r.rbase 32 32 v.toNat := by omega
    show setBits r.rbase 32 32 v.toNat / 4096 * 4096 % 2 ^ 32 = _ ∧ bits (setBits r.rbase 32 32 v.toNat / 4096 * 4096) 32 32 = _
    rw [hkeep]
    exact ⟨hlow, bits_setBits_same ..⟩
  · rw [getRing_regWrite_cplCfg]
    exact congrArg (fun n => { r with cvec := bits c.toNat 22 10, cdly := bits c.toNat 12 10, csize := n }) (if_congr hfree rfl rfl)

/-! ### The mailbox and the MSI-X entries (R443, R470) -/

theorem bit_ofNat_of_lt {n w b : Nat} (h : b < w) : bit (BitVec.ofNat w n).toNat b = bit n b := by
  simp [bit_eq_testBit, Nat.testBit_mod_two_pow, h]

theorem bit_setBits_zero (v lo len b : Nat) : bit (setBits v lo len 0) b = (bit v b && !(decide (lo ≤ b) && decide (b < lo + len))) := by
  rw [bit_setBits]
  by_cases h1 : b < lo
  · simp [h1]
  · have h1' : lo ≤ b := Nat.le_of_not_lt h1
    by_cases h2 : b < lo + len <;> simp [h1, h1', h2]

/-- Where every byte fits the request area, `putReq` puts the bytes as a write to memory does. -/
theorem mget_putReq_zipIdx (ofs n : Nat) (bs : List Byte) (m m' : SMap Byte) (hfit : ofs + n + bs.length ≤ 4080)
    (hm : ∀ k, mget 0 m k = mget 0 m' k) (k : Nat) :
    mget 0 ((bs.zipIdx n).foldl (fun m e => if ofs + e.2 < 4080 then mset 0 m (ofs + e.2) e.1 else m) m) k =
      mget 0 ((bs.zipIdx n).foldl (fun m e => mput m (ofs + e.2) e.1) m') k := by
  induction bs generalizing m m' n with
  | nil => exact hm k
  | cons b bs ih =>
    rw [List.length_cons] at hfit
    rw [List.zipIdx_cons, List.foldl_cons, List.foldl_cons, if_pos (by omega)]
    exact ih (n + 1) _ _ (by omega) fun j => by rw [mget_mset, mget_mput, hm]

theorem mget_putReq (m : SMap Byte) (ofs : Nat) (bs : List Byte) (hfit : ofs + bs.length ≤ 4080) (k : Nat) :
    mget 0 (putReq m ofs bs) k = if ofs ≤ k ∧ k < ofs + bs.length then lget 0 bs (k - ofs) else mget 0 m k := by
  refine (mget_putReq_zipIdx ofs 0 bs m m hfit (fun _ => rfl) k).trans ?_
  simpa using mem_hostWrite_aux m ofs 0 bs k

theorem regWrite_mbhHdr_free (s : State) (p : Nat) (h : Half) (v : W64) (hb : (getMb s p).busy = false) :
    regWrite s p (.mbhHdr h v) =
      setMb s p { getMb s p with hdr := BitVec.ofNat 64 (setBits (mergeHalf h (getMb s p).hdr.toNat v.toNat) 28 4 0) } :=
  if_neg (by simp [hb])

theorem regWrite_request_free (s : State) (p : Nat) (ofs : Fin 4080) (bs : List Byte) (hb : (getMb s p).busy = false)
    (hlen : bs.length = 4 ∨ bs.length = 8) (hmod : ofs.val % bs.length = 0) :
    regWrite s p (.request ofs bs) = setMb s p { getMb s p with req := putReq (getMb s p).req ofs.val bs } := by
  refine if_neg ?_
  simp only [hb, hmod, Bool.false_or, bne_self_eq_false, Bool.or_false, Bool.not_eq_true', Bool.or_eq_false_iff, beq_eq_false_iff_ne]
  omega

theorem execRegisterWrite_others {s : State} {p : Fin 2} (v : W64) (ofs : Fin 4080) (bs : List Byte) (i : Fin 1024) (c : W32)
    (h : hostUp s p.val = true) :
    let x := getMb s p.val
    (∃ u, exec (.registerWrite p (.mbhHdr .whole v)) s = .next u ∧ (x.busy = true → u = s) ∧
      (x.busy = false → ∀ b, b < 64 → bit (getMb u p.val).hdr.toNat b = (bit v.toNat b && !(28 ≤ b && b < 32)))) ∧
    (∃ u, exec (.registerWrite p (.request ofs bs)) s = .next u ∧ (x.busy = true → u = s) ∧
      (x.busy = false → (bs.length = 4 ∨ bs.length = 8) → ofs.val % bs.length = 0 → ofs.val + bs.length ≤ 4080 →
        ∀ a, mget 0 (getMb u p.val).req a = if ofs.val ≤ a ∧ a < ofs.val + bs.length then lget 0 bs (a - ofs.val) else mget 0 x.req a)) ∧
    (∃ u, exec (.registerWrite p (.msixAddr i .whole v)) s = .next u ∧
      mget Msix.reset (getHost u p.val).msix i.val = { mget Msix.reset (getHost s p.val).msix i.val with addr := v }) ∧
    (∃ u, exec (.registerWrite p (.msixData i c)) s = .next u ∧
      mget Msix.reset (getHost u p.val).msix i.val = { mget Msix.reset (getHost s p.val).msix i.val with data := c }) := by
  intro x
  refine ⟨⟨_, execRegisterWrite_up h _, fun hb => ?_, fun hb b hlt => ?_⟩,
    ⟨_, execRegisterWrite_up h _, fun hb => ?_, fun hb hlen hmod hfit a => ?_⟩, ⟨_, execRegisterWrite_up h _, ?_⟩, ⟨_, execRegisterWrite_up h _, ?_⟩⟩
  · exact if_pos hb
  · rw [regWrite_mbhHdr_free _ _ _ _ hb, getMb_setMb_same, bit_ofNat_of_lt hlt]
    exact bit_setBits_zero ..
  · exact if_pos (by simp [show (getMb s p.val).busy = true from hb])
  · rw [regWrite_request_free _ _ _ _ hb hlen hmod, getMb_setMb_same]
    exact mget_putReq _ _ _ hfit a
  · simp [regWrite, mergeHalf]
  · simp [regWrite]

/-! ### Fields that a read clears (R16) -/

theorem hasLow_iff (h : Half) : hasLow h = true ↔ h ≠ .high := by
  simp [hasLow]

theorem hasHigh_iff (h : Half) : hasHigh h = true ↔ h ≠ .low := by
  simp [hasHigh]

theorem regAns_reg (s : State) (v : Nat) : (regAns s v).ans.reg = BitVec.ofNat 64 v := rfl

theorem regAns_getTile (s : State) (v t : Nat) : getTile (regAns s v) t = getTile s t := rfl

theorem regAns_getField (s : State) (v f : Nat) : getField (regAns s v) f = getField s f := rfl

theorem regAns_getBb (s : State) (v d p : Nat) : getBb (regAns s v) d p = getBb s d p := rfl

theorem regAns_frame (s : State) (v : Nat) : { regAns s v with ans := s.ans } = s := rfl

theorem setTile_regAns_frame (s : State) (v t : Nat) (x : Tile) : { setTile (regAns s v) t x with tiles := s.tiles, ans := s.ans } = s := rfl

theorem setField_regAns_frame (s : State) (v f : Nat) (x : FieldSt) : { setField (regAns s v) f x with fields := s.fields, ans := s.ans } = s := rfl

theorem modBb_regAns_frame (s : State) (v d p : Nat) (f : BbPort → BbPort) :
    { modBb (regAns s v) d p f with dies := s.dies, ans := s.ans } = s := rfl

theorem settleDroop_fence (x : Tile) (fc : Nat) : (settleDroop x fc).fence = x.fence := by
  unfold settleDroop
  split <;> rfl

theorem rcRead_llStat (s : State) (t : TileId) (h : Half) :
    rcRead s (.llStat t h) =
      if hasLow h then modTile (regAns s (halfOf h (llStatWord s t.val))) t.val fun x => { x with llMiss := 0, llAlt := 0 }
      else regAns s (halfOf h (llStatWord s t.val)) := rfl

theorem rcRead_tcClk (s : State) (t : TileId) (h : Half) :
    rcRead s (.tcClk t h) =
      if hasHigh h then
        modTile (regAns s (halfOf h (tcClkWord s t.val))) t.val fun x => { settleDroop x (fieldCycles s (fieldOf t.val)) with dstr := 0 }
      else regAns s (halfOf h (tcClkWord s t.val)) := rfl

theorem rcRead_fcClk (s : State) (f : Fin 100) (h : Half) :
    rcRead s (.fcClk f h) =
      if hasLow h then modField (regAns s (halfOf h (fcClkWord (getField s f.val)))) f.val fun x => { x with opcnt := 0 }
      else regAns s (halfOf h (fcClkWord (getField s f.val))) := rfl

theorem rcRead_bbStat (s : State) (d : Fin 32) (a : Fin 8) (h : Half) :
    rcRead s (.bbStat d a h) =
      if hasHigh h then modBb (regAns s (halfOf h (bbStatWord (getBb s d.val a.val)))) d.val a.val fun b => { b with retry := 0 }
      else regAns s (halfOf h (bbStatWord (getBb s d.val a.val))) := rfl

theorem execRcRegisterRead_llStat (s : State) (t : TileId) (h : Half) :
    ∃ u, exec (.rcRegisterRead (.llStat t h)) s = .next u ∧ u.ans.reg = BitVec.ofNat 64 (halfOf h (llStatWord s t)) ∧
      getTile u t = (if h = .high then getTile s t else { getTile s t with llMiss := 0, llAlt := 0 }) ∧ { u with tiles := s.tiles, ans := s.ans } = s := by
  refine ⟨rcRead s (.llStat t h), rfl, ?_⟩
  rw [rcRead_llStat]
  by_cases hh : h = .high
  · rw [if_neg (by simp [hasLow_iff, hh]), if_pos hh]
    exact ⟨regAns_reg .., regAns_getTile .., regAns_frame ..⟩
  · rw [if_pos ((hasLow_iff h).2 hh), if_neg hh, modTile_eq, regAns_getTile, setTile_ans]
    exact ⟨regAns_reg .., getTile_setTile_same .., setTile_regAns_frame ..⟩

theorem execRcRegisterRead_tcClk (s : State) (t : TileId) (h : Half) :
    ∃ u, exec (.rcRegisterRead (.tcClk t h)) s = .next u ∧ u.ans.reg = BitVec.ofNat 64 (halfOf h (tcClkWord s t)) ∧
      (h = .low → getTile u t = getTile s t) ∧ (h ≠ .low → (getTile u t).dstr = 0 ∧ (getTile u t).fence = (getTile s t).fence) ∧
      { u with tiles := s.tiles, ans := s.ans } = s := by
  refine ⟨rcRead s (.tcClk t h), rfl, ?_⟩
  rw [rcRead_tcClk]
  by_cases hh : h = .low
  · rw [if_neg (by simp [hasHigh_iff, hh])]
    exact ⟨regAns_reg .., fun _ => regAns_getTile .., fun hn => absurd hh hn, regAns_frame ..⟩
  · rw [if_pos ((hasHigh_iff h).2 hh), modTile_eq, regAns_getTile, setTile_ans, getTile_setTile_same]
    exact ⟨regAns_reg .., fun hl => absurd hl hh, fun _ => ⟨rfl, settleDroop_fence ..⟩, setTile_regAns_frame ..⟩

theorem execRcRegisterRead_fcClk (s : State) (f : Fin 100) (h : Half) :
    ∃ u, exec (.rcRegisterRead (.fcClk f h)) s = .next u ∧ u.ans.reg = BitVec.ofNat 64 (halfOf h (fcClkWord (getField s f.val))) ∧
      getField u f.val = (if h = .high then getField s f.val else { getField s f.val with opcnt := 0 }) ∧
      { u with fields := s.fields, ans := s.ans } = s := by
  refine ⟨rcRead s (.fcClk f h), rfl, ?_⟩
  rw [rcRead_fcClk]
  by_cases hh : h = .high
  · rw [if_neg (by simp [hasLow_iff, hh]), if_pos hh]
    exact ⟨regAns_reg .., regAns_getField .., regAns_frame ..⟩
  · rw [if_pos ((hasLow_iff h).2 hh), if_neg hh, modField_eq, regAns_getField, setField_ans]
    exact ⟨regAns_reg .., getField_setField_same .., setField_regAns_frame ..⟩

theorem execRcRegisterRead_bbStat (s : State) (d : Fin 32) (a : Fin 8) (h : Half) :
    ∃ u, exec (.rcRegisterRead (.bbStat d a h)) s = .next u ∧ u.ans.reg = BitVec.ofNat 64 (halfOf h (bbStatWord (getBb s d.val a.val))) ∧
      getBb u d.val a.val = (if h = .low then getBb s d.val a.val else { getBb s d.val a.val with retry := 0 }) ∧
      { u with dies := s.dies, ans := s.ans } = s := by
  refine ⟨rcRead s (.bbStat d a h), rfl, ?_⟩
  rw [rcRead_bbStat]
  by_cases hh : h = .low
  · rw [if_neg (by simp [hasHigh_iff, hh]), if_pos hh]
    exact ⟨regAns_reg .., regAns_getBb .., regAns_frame ..⟩
  · rw [if_pos ((hasHigh_iff h).2 hh), if_neg hh, getBb_modBb_same, modBb_ans, regAns_getBb]
    exact ⟨regAns_reg .., rfl, modBb_regAns_frame ..⟩

/-- Within its lease a holder keeps the semaphore (R432). -/
theorem semCheck_of_lease {s : State} (h : s.sem.holder = none ∨ nowPs s ≤ s.sem.lease) : semCheck s = s := by
  refine if_neg ?_
  rcases h with h | h
  · simp [h]
  · simp [Nat.not_lt.2 h]

/-- The fields of `SEM_STAT` that a read of a half clears. -/
def semStatCleared (s : State) (p : Nat) (h : Half) : State :=
  let s1 := if hasLow h then { s with sem := { s.sem with tie := 0 } } else s
  if hasHigh h then modHost { s1 with sem := { s1.sem with hbign := 0 } } p fun x => { x with rwsign := 0 } else s1

theorem semStatRead_up {s : State} {p : Nat} (hu : hostUp s p = true) (hs : s.sem.holder = none ∨ nowPs s ≤ s.sem.lease) (h : Half) :
    semStatRead s p h = hostAns (semStatCleared s p h) p (.data (halfOf h (semStatWord s p))) := by
  unfold semStatRead
  rw [semCheck_of_lease hs]
  exact hostRead_up hu _

theorem semStatCleared_fields (s : State) (p : Nat) (h : Half) :
    (semStatCleared s p h).sem = { s.sem with tie := if h = .high then s.sem.tie else 0, hbign := if h = .low then s.sem.hbign else 0 } ∧
      (getHost (semStatCleared s p h) p).rwsign = if h = .low then (getHost s p).rwsign else 0 := by
  cases h with
  | low => exact ⟨rfl, rfl⟩
  | whole => exact ⟨rfl, congrArg HostPort.rwsign (getHost_setHost_same ..)⟩
  | high => exact ⟨rfl, congrArg HostPort.rwsign (getHost_setHost_same ..)⟩

theorem execRcRegisterRead_ports {s : State} {p : Fin 2} (h : Half) (hu : hostUp s p.val = true) :
    (∃ u, exec (.rcRegisterRead (.cdSnf p)) s = .next u ∧ mget .none u.ans.host p.val = .data (snfWord s.snuff % 2 ^ 32) ∧
      u.snuff = { s.snuff with relrej := 0 }) ∧
    (∃ u, exec (.rcRegisterRead (.mbhStat p)) s = .next u ∧
      mget .none u.ans.host p.val = .data (halfOf .high (mbhStatWord (getMb s p.val) * 2 ^ 32)) ∧
      getMb u p.val = { getMb s p.val with mrej := 0 }) ∧
    (∃ u, exec (.rcRegisterRead (.mbmStat p)) s = .next u ∧
      mget .none u.ans.host p.val = .data (halfOf .high (mbmStatWord (getMb s p.val) * 2 ^ 32)) ∧
      getMb u p.val = { getMb s p.val with tie := 0, tocnt := 0 }) ∧
    ((s.sem.holder = none ∨ nowPs s ≤ s.sem.lease) → ∃ u, exec (.rcRegisterRead (.semStat p h)) s = .next u ∧
      mget .none u.ans.host p.val = .data (halfOf h (semStatWord s p.val)) ∧
      u.sem = { s.sem with tie := if h = .high then s.sem.tie else 0, hbign := if h = .low then s.sem.hbign else 0 } ∧
      (getHost u p.val).rwsign = if h = .low then (getHost s p.val).rwsign else 0) :=
  ⟨⟨_, congrArg Host.Outcome.next (hostRead_up hu _), host_hostAns_same .., rfl⟩,
    ⟨_, congrArg Host.Outcome.next (hostRead_up hu _), host_hostAns_same .., getMb_setMb_same ..⟩,
    ⟨_, congrArg Host.Outcome.next (hostRead_up hu _), host_hostAns_same .., getMb_setMb_same ..⟩,
    fun hs => ⟨_, congrArg Host.Outcome.next (semStatRead_up hu hs h), host_hostAns_same .., semStatCleared_fields s p.val h⟩⟩

/-! ### Locations that a read leaves as they are (R428) -/

/-- A read of a location that is not the place of a command of its own. -/
theorem bar0Read_plain (s : State) (p k : Nat) (h : Half) (hk : k ∉ [4, 0x20, 0x23, 0x801, 0xA01, 0x1C00]) :
    bar0Read s p k h = hostRead s p (hostAns s p (.data (halfOf h (bar0Word s p k)))) := by
  simp only [List.mem_cons, List.not_mem_nil, or_false, not_or] at hk
  obtain ⟨hsnf, htake, hstat, hmbh, hmbm, htime⟩ := hk
  simp [bar0Read, hsnf, htake, hstat, hmbh, hmbm, htime]

theorem bit_eq_of_div {n i : Nat} {b : Bool} (h : n / 2 ^ i % 2 = ofBit b) : bit n i = b := by
  rw [bit, Nat.shiftRight_eq_div_pow, h]
  cases b <;> rfl

theorem ofBit_lt (b : Bool) : ofBit b < 2 := by
  cases b <;> decide

theorem bits_eq_div_mod (n lo len : Nat) : bits n lo len = n / 2 ^ lo % 2 ^ len := by
  rw [bits, Nat.shiftRight_eq_div_pow]

theorem modStateWord_fields (s : State) (p : Fin 2) :
    let n := modStateWord s p.val
    bits n 0 4 = s.boot.mst % 16 ∧ bits n 8 4 = s.boot.lrst % 16 ∧ bit n 12 = holdsSem s p.val ∧ bit n 14 = s.snuff.snf ∧ bit n 15 = (p.val == 1) := by
  have hp : ofBit (p.val == 1) = p.val := by
    revert p
    decide
  have hsnf := ofBit_lt s.snuff.snf
  have hlock := ofBit_lt s.tc.lock
  have hsem := ofBit_lt (holdsSem s p.val)
  have hp2 := p.isLt
  simp only [bits_eq_div_mod, modStateWord]
  refine ⟨?_, ?_, bit_eq_of_div ?_, bit_eq_of_div ?_, bit_eq_of_div ?_⟩
  · omega
  · omega
  · omega
  · omega
  · omega

theorem bar0Word_ring (s : State) (p e j : Nat) (he : e < 79) (hj : j < 8) : bar0Word s p (0x200 + 8 * e + j) = ringRegWord (getRing s p e) j := by
  have hblock : (0x200 + 8 * e + j - 0x200) / 8 = e := by omega
  have hplace : (0x200 + 8 * e + j) % 8 = j := by omega
  simp only [bar0Word, beq_iff_eq, Bool.and_eq_true, decide_eq_true_eq]
  rw [if_neg (by omega), if_neg (by omega), if_neg (by omega), if_neg (by omega), if_neg (by omega), if_pos (by omega), hblock, hplace]

theorem ringRegWord_cfg (r : HRing) :
    bit (ringRegWord r 1) 31 = r.en ∧ bit (ringRegWord r 1) 29 = (r.out != 0) ∧ bits (ringRegWord r 1) 0 16 = r.rsize % 65536 := by
  have hen := ofBit_lt r.en
  have herr := ofBit_lt r.err
  have hbusy := ofBit_lt (r.out != 0)
  rw [bits_eq_div_mod]
  simp only [ringRegWord]
  refine ⟨bit_eq_of_div ?_, bit_eq_of_div ?_, ?_⟩
  · omega
  · omega
  · omega

theorem execRcRegisterRead_bar0 {s : State} {p : Fin 2} (k : Fin 8192) (h : Half) (hu : hostUp s p.val = true)
    (hk : k.val ∉ [4, 0x20, 0x23, 0x801, 0xA01, 0x1C00]) :
    ∃ u n, exec (.rcRegisterRead (.bar0 p k h)) s = .next u ∧ { u with ans := s.ans } = s ∧ mget .none u.ans.host p.val = .data (halfOf h n) ∧
      (k.val = 0x40 → n = (getHost s p.val).cause) ∧ (k.val = 0x41 → n = (getHost s p.val).mask) ∧
      (k.val = 2 → bits n 0 4 = s.boot.mst % 16 ∧ bits n 8 4 = s.boot.lrst % 16 ∧ bit n 12 = holdsSem s p.val ∧ bit n 14 = s.snuff.snf ∧
        bit n 15 = (p.val == 1)) ∧
      (∀ e j, e < 79 → j < 8 → k.val = 0x200 + 8 * e + j →
        let r := getRing s p.val e
        (j = 0 → n = r.rbase) ∧ (j = 1 → bit n 31 = r.en ∧ bit n 29 = (r.out != 0) ∧ bits n 0 16 = r.rsize % 65536) ∧ (j = 2 → n = 0) ∧
          (j = 4 → n = r.cbase)) := by
  refine ⟨_, bar0Word s p.val k.val, congrArg Host.Outcome.next ((bar0Read_plain s p.val k.val h hk).trans (hostRead_up hu _)), rfl,
    host_hostAns_same .., fun hk => ?_, fun hk => ?_, fun hk => ?_, fun e j he hj hk => ?_⟩
  · rw [hk]
    rfl
  · rw [hk]
    rfl
  · rw [hk]
    exact modStateWord_fields s p
  · rw [hk, bar0Word_ring s p.val e j he hj]
    refine ⟨?_, ?_, ?_, ?_⟩
    · rintro rfl
      rfl
    · rintro rfl
      exact ringRegWord_cfg _
    · rintro rfl
      rfl
    · rintro rfl
      rfl

/-- At the other locations a read is the command of its own. -/
theorem execRcRegisterRead_bar0_commands (s : State) (p : Fin 2) :
    exec (.rcRegisterRead (.bar0 p 0x20 .whole)) s = exec (.semTake p false) s ∧
    exec (.rcRegisterRead (.bar0 p 0x23 .whole)) s = exec (.rcRegisterRead (.semStat p .whole)) s ∧
    exec (.rcRegisterRead (.bar0 p 4 .low)) s = exec (.rcRegisterRead (.cdSnf p)) s ∧
    exec (.rcRegisterRead (.bar0 p 0x801 .high)) s = exec (.rcRegisterRead (.mbhStat p)) s ∧
    exec (.rcRegisterRead (.bar0 p 0xA01 .high)) s = exec (.rcRegisterRead (.mbmStat p)) s ∧
    ∀ h, exec (.rcRegisterRead (.bar0 p 0x1C00 h)) s = exec (.timeNs p h) s :=
  ⟨rfl, rfl, rfl, rfl, rfl, fun _ => rfl⟩

/-! ### Configuration requests (R424, R426, R445) -/

theorem execConfigurationRequest_down (s : State) (p : Fin 2) (q : CfgReq) (h : (getHost s p.val).linkUp = false ∨ (getHost s p.val).perst = true) :
    exec (.configurationRequest p q) s = .next s := by
  refine if_pos ?_
  simpa using h

theorem execConfigurationRequest_up {s : State} {p : Fin 2} (q : CfgReq) (hl : (getHost s p.val).linkUp = true) (hp : (getHost s p.val).perst = false) :
    let early := s.boot.step = 0 ∨ s.boot.mst = 0 ∨ (getHost s p.val).resetAt.isSome = true
    ∃ u, exec (.configurationRequest p q) s = .next u ∧ (early → mget .none u.ans.host p.val = .retry ∧ { u with ans := s.ans } = s) ∧
      (¬early →
        (∀ d, q = .read d → { u with ans := s.ans } = s ∧
          ∃ n, mget .none u.ans.host p.val = .data n ∧ (d.val = 0 → n / 65536 = 0x5702) ∧
            (d.val = 2 → n / 256 = 0x120000 ∧ n % 256 = s.part.rev % 256)) ∧
        (∀ on, q = .memEnable on → (getHost u p.val).memEn = on)) := by
  intro early
  have hlink : ¬(!(getHost s p.val).linkUp || (getHost s p.val).perst) = true := by simp [hl, hp]
  have hearly : (s.boot.step == 0 || s.boot.mst == 0 || (getHost s p.val).resetAt.isSome) = true ↔ early := by simp [early, or_assoc]
  by_cases he : early
  · refine ⟨hostAns s p.val .retry, ?_, fun _ => ⟨host_hostAns_same .., rfl⟩, fun hn => absurd he hn⟩
    exact (if_neg hlink).trans (if_pos (hearly.2 he))
  · cases q with
    | read d =>
      refine ⟨hostAns s p.val (.data (cfgRead s p.val d.val)), (if_neg hlink).trans (if_neg (mt hearly.1 he)), fun h => absurd h he, fun _ =>
        ⟨fun _ hq => ?_, nofun⟩⟩
      cases hq
      refine ⟨rfl, _, host_hostAns_same .., fun hd => ?_, fun hd => ?_⟩
      · rw [hd]
        have := Config.vendorId.isLt
        show (0x5702 * 65536 + Config.vendorId.toNat) / 65536 = 0x5702
        omega
      · rw [hd]
        show (0x120000 * 256 + s.part.rev % 256) / 256 = 0x120000 ∧ (0x120000 * 256 + s.part.rev % 256) % 256 = s.part.rev % 256
        omega
    | memEnable on =>
      refine ⟨modHost s p.val fun h => { h with memEn := on }, (if_neg hlink).trans (if_neg (mt hearly.1 he)), fun h => absurd h he, fun _ =>
        ⟨nofun, fun _ hq => ?_⟩⟩
      cases hq
      exact congrArg HostPort.memEn (getHost_setHost_same ..)

/-! ### Requests at a port that is not answering (R445) -/

theorem exec_read_down {s : State} {p : Fin 2} (hl : (getHost s p.val).linkUp = true) (hp : (getHost s p.val).perst = false)
    (hu : hostUp s p.val = false) (i : Instr) (hi : i ∈ [Instr.timeNs p .whole, .timeNs p .low, .timeNs p .high, .bar0AccessSize p false]) :
    ∃ u, exec i s = .next u ∧ mget .none u.ans.host p.val = .unsupported ∧ { u with ans := s.ans } = s := by
  refine ⟨hostAns s p.val .unsupported, ?_, host_hostAns_same .., rfl⟩
  simp only [List.mem_cons, List.not_mem_nil, or_false] at hi
  rcases hi with rfl | rfl | rfl | rfl
  all_goals exact congrArg Host.Outcome.next (hostRead_down hl hp hu _)

/-- Settles O46: each clause is the lemma above about its command. -/
theorem registerAccess : Obligations.RegisterAccess := by
  unfold Obligations.RegisterAccess
  exact ⟨fun _ _ h => execTimeNs_up h, fun _ _ w h hx => execBar0AccessSize_up w h hx, fun _ _ e v c h => execRegisterWrite_rings e v c h,
    fun _ _ v ofs bs i c h => execRegisterWrite_others v ofs bs i c h, execRcRegisterRead_llStat, execRcRegisterRead_tcClk, execRcRegisterRead_fcClk,
    execRcRegisterRead_bbStat, fun _ _ h hu => execRcRegisterRead_ports h hu, fun s p k h v => congrArg Host.Outcome.next (ite_self s),
    fun _ _ k h hu hk => execRcRegisterRead_bar0 k h hu hk, fun s p _ => execRcRegisterRead_bar0_commands s p,
    fun s p q => ⟨execConfigurationRequest_down s p q, fun hl hp => execConfigurationRequest_up q hl hp⟩,
    fun _ _ hl hp hu i hi => exec_read_down hl hp hu i hi⟩

end Sys2Proof.Machine
end

section
/-!
PROOFS. What a command of an engine leaves when it completes or waits (R439, R457, Table 14.6): its place in the engine's list, its completion
record in host memory, and everything else as it was.
-/
namespace Sys2Proof.Machine
open Sys2Proof

/-! ### Host ports: what an update of a port keeps -/

theorem getHost_modHost_keeps {β : Type} (π : HostPort → β) {f : HostPort → HostPort} (hf : ∀ h, π (f h) = π h) (s : State) (p q : Nat) :
    π (getHost (modHost s p f) q) = π (getHost s q) := by
  by_cases hq : q = p
  · rw [hq, modHost_eq, getHost_setHost_same, hf]
  · rw [modHost_eq, getHost_setHost_other _ _ _ _ hq]

@[simp] theorem setRing_mem (s : State) (p e : Nat) (r : HRing) (q : Nat) : (getHost (setRing s p e r) q).mem = (getHost s q).mem :=
  getHost_modHost_keeps HostPort.mem (fun _ => by rfl) s p q

@[simp] theorem sendVec_mem (s : State) (p v q : Nat) : (getHost (sendVec s p v) q).mem = (getHost s q).mem :=
  getHost_modHost_keeps HostPort.mem (fun h => by split <;> rfl) s p q

@[simp] theorem sendVec_getRing (s : State) (p v q e : Nat) : getRing (sendVec s p v) q e = getRing s q e :=
  congrArg (mget HRing.reset · e) (getHost_modHost_keeps HostPort.rings (fun h => by split <;> rfl) s p q)

@[simp] theorem hostWrite_getRing (s : State) (p a : Nat) (bs : List Byte) (q e : Nat) : getRing (hostWrite s p a bs) q e = getRing s q e :=
  congrArg (mget HRing.reset · e) (getHost_modHost_keeps HostPort.rings (fun _ => by rfl) s p q)

theorem mem_hostWrite_other {p q : Nat} (h : q ≠ p) (s : State) (a : Nat) (bs : List Byte) :
    (getHost (hostWrite s p a bs) q).mem = (getHost s q).mem :=
  congrArg HostPort.mem (getHost_setHost_other s p q _ h)

/-! ### The completion message of a ring (R442) -/

/-- All that `cplSignal` can do: nothing, change when the ring's message goes out, or send it. -/
theorem cplSignal_cases (s : State) (p e : Nat) :
    cplSignal s p e = s ∨ ∃ arm due, cplSignal s p e = setRing s p e { getRing s p e with arm := arm, due := due } ∨
      ∃ v, cplSignal s p e = sendVec (setRing s p e { getRing s p e with arm := arm, due := due }) p v := by
  unfold cplSignal
  simp only
  split
  · exact .inl rfl
  · split
    · split
      · exact .inr ⟨_, _, .inl rfl⟩
      · exact .inr ⟨_, _, .inr ⟨_, rfl⟩⟩
    · split
      · exact .inl rfl
      · exact .inr ⟨_, _, .inl rfl⟩

@[simp] theorem cplSignal_mem (s : State) (p e q : Nat) : (getHost (cplSignal s p e) q).mem = (getHost s q).mem := by
  obtain h | ⟨_, _, h | ⟨_, h⟩⟩ := cplSignal_cases s p e <;> simp [h]

@[simp] theorem cplSignal_ctail (s : State) (p e : Nat) : (getRing (cplSignal s p e) p e).ctail = (getRing s p e).ctail := by
  obtain h | ⟨_, _, h | ⟨_, h⟩⟩ := cplSignal_cases s p e <;> simp [h, getRing_setRing_same]

theorem cplSignal_frame (s : State) (p e : Nat) : { cplSignal s p e with hosts := s.hosts } = s := by
  obtain h | ⟨_, _, h | ⟨_, h⟩⟩ := cplSignal_cases s p e
  all_goals rw [h]
  all_goals rfl

/-! ### The completion record (R439, R457) -/

@[simp] theorem recordBytes_length (s : State) (c : Cmd) (o : Outc) (detail : Nat) (ph : Bool) : (recordBytes s c o detail ph).length = 32 := by
  simp [recordBytes]

theorem recordBytes_congr {s u : State} (h : nowNs u = nowNs s) (c : Cmd) (o : Outc) (detail : Nat) (ph : Bool) :
    recordBytes u c o detail ph = recordBytes s c o detail ph := by
  unfold recordBytes
  rw [h]

/-- Where the next completion record of a command's ring is written. -/
def recordAt (s : State) (c : Cmd) : Nat := (getRing s c.port c.eng).cbase + 32 * (getRing s c.port c.eng).ctail

/-- Byte `i` of the memory of port `p`'s host is none of the command's completion record. -/
def outsideRecord (s : State) (c : Cmd) (p i : Nat) : Prop :=
  c.port ≠ p ∨ c.norec = true ∨ i < recordAt s c ∨ recordAt s c + 32 ≤ i

theorem writeRecord_frame (s : State) (c : Cmd) (o : Outc) (detail : Nat) : { writeRecord s c o detail with hosts := s.hosts } = s := by
  unfold writeRecord
  split
  · rfl
  · exact congrArg (fun u : State => { u with hosts := s.hosts }) (cplSignal_frame ..)

theorem writeRecord_eng (s : State) (c : Cmd) (o : Outc) (detail : Nat) : (writeRecord s c o detail).eng = s.eng := by
  have h := congrArg State.eng (writeRecord_frame s c o detail)
  exact h

theorem writeRecord_nowNs (s : State) (c : Cmd) (o : Outc) (detail : Nat) : nowNs (writeRecord s c o detail) = nowNs s := by
  have h := congrArg nowNs (writeRecord_frame s c o detail)
  exact h

theorem mem_writeRecord (s : State) (c : Cmd) (o : Outc) (detail : Nat) (h : c.norec = false) (k : Nat) :
    mget 0 (getHost (writeRecord s c o detail) c.port).mem k =
      if recordAt s c ≤ k ∧ k < recordAt s c + 32 then lget 0 (recordBytes s c o detail (getRing s c.port c.eng).pass) (k - recordAt s c)
      else mget 0 (getHost s c.port).mem k := by
  unfold writeRecord
  rw [if_neg (by simp [h]), cplSignal_mem, setRing_mem, mem_hostWrite, recordBytes_length]
  rfl

theorem mem_writeRecord_at (s : State) (c : Cmd) (o : Outc) (detail : Nat) (h : c.norec = false) {i : Nat} (hi : i < 32) :
    mget 0 (getHost (writeRecord s c o detail) c.port).mem (recordAt s c + i) =
      lget 0 (recordBytes s c o detail (getRing s c.port c.eng).pass) i := by
  rw [mem_writeRecord s c o detail h, if_pos (by omega), Nat.add_sub_cancel_left]

theorem mem_writeRecord_outside {s : State} {c : Cmd} {p k : Nat} (o : Outc) (detail : Nat) (h : outsideRecord s c p k) :
    mget 0 (getHost (writeRecord s c o detail) p).mem k = mget 0 (getHost s p).mem k := by
  by_cases hn : c.norec = true
  · rw [writeRecord, if_pos hn]
  · by_cases hp : p = c.port
    · rw [hp, mem_writeRecord s c o detail (by simpa using hn), if_neg]
      obtain h | h | h := h
      · exact absurd hp.symm h
      · exact absurd h hn
      · omega
    · rw [writeRecord, if_neg hn, cplSignal_mem, setRing_mem, mem_hostWrite_other hp]

theorem ctail_writeRecord (s : State) (c : Cmd) (o : Outc) (detail : Nat) (h : c.norec = false) :
    (getRing (writeRecord s c o detail) c.port c.eng).ctail =
      if (getRing s c.port c.eng).ctail + 1 ≥ (getRing s c.port c.eng).csize * 128 then 0 else (getRing s c.port c.eng).ctail + 1 := by
  unfold writeRecord
  rw [if_neg (by simp [h]), cplSignal_ctail, getRing_setRing_same]
  simp

/-! ### The command's place in its engine -/

theorem cmds_modCmds_same (s : State) (e : Nat) (f : List Cmd → List Cmd) : (getEng (modCmds s e f) e).cmds = f (getEng s e).cmds :=
  congrArg Eng.cmds (getEng_setEng_same ..)

theorem modCmds_frame (s : State) (e : Nat) (f : List Cmd → List Cmd) : { modCmds s e f with eng := s.eng } = s := rfl

theorem inPhase_setPh {s : State} {c : Cmd} (h : c ∈ (getEng s c.eng).cmds) (ph : CPh) : inPhase (setPh s c ph) c ph := by
  refine ⟨{ c with ph := ph }, ?_, rfl, rfl⟩
  rw [setPh, cmds_modCmds_same]
  exact List.mem_map.2 ⟨c, h, if_pos (beq_self_eq_true c.id)⟩

/-! ### A command completes -/

theorem finishCmd_frame (s : State) (c : Cmd) (o : Outc) (detail : Nat) : { finishCmd s c o detail with eng := s.eng, hosts := s.hosts } = s :=
  congrArg (fun u : State => { u with eng := s.eng }) (writeRecord_frame (modCmds s c.eng _) c o detail)

theorem mem_finishCmd_outside {s : State} {c : Cmd} {p k : Nat} (o : Outc) (detail : Nat) (h : outsideRecord s c p k) :
    mget 0 (getHost (finishCmd s c o detail) p).mem k = mget 0 (getHost s p).mem k :=
  mem_writeRecord_outside (s := modCmds s c.eng _) o detail h

theorem completed_congr {s v u : State} {c : Cmd} {o : Outc} {detail : Nat} (h : getRing v c.port c.eng = getRing s c.port c.eng)
    (hv : completed v u c o detail) : completed s u c o detail := by
  unfold completed at hv ⊢
  rwa [h] at hv

theorem completed_finishCmd (s : State) (c : Cmd) (o : Outc) (detail : Nat) : completed s (finishCmd s c o detail) c o detail := by
  refine ⟨fun x hx => ?_, fun hn => ⟨fun i hi => ?_, ctail_writeRecord (modCmds s c.eng _) c o detail hn⟩⟩
  · rw [finishCmd, getEng, writeRecord_eng, ← getEng, cmds_modCmds_same] at hx
    simpa using List.of_mem_filter hx
  · have hnow : nowNs (finishCmd s c o detail) = nowNs s := writeRecord_nowNs (modCmds s c.eng _) c o detail
    rw [recordBytes_congr hnow]
    exact mem_writeRecord_at (modCmds s c.eng _) c o detail hn hi

theorem completed_failCmd (s : State) (c : Cmd) (o : Outc) (reason : Nat) : completed s (failCmd s c o reason 0) c o (reason * 2 ^ 56) := by
  rw [failCmd, Nat.zero_mod, Nat.add_zero]
  exact completed_finishCmd ..

theorem failCmd_frame (s : State) (c : Cmd) (o : Outc) (reason low : Nat) : { failCmd s c o reason low with eng := s.eng, hosts := s.hosts } = s :=
  finishCmd_frame ..

/-! ### The maintenance engine (14.1) -/

theorem maintRun_some {s : State} {opc : Nat} {c : Cmd} (h : maintNext s opc = some c) (k : Cmd → State) : maintRun s opc k = k c := by
  simp only [maintRun, h]

theorem maintNext_mem {s : State} {opc : Nat} {c : Cmd} (h : maintNext s opc = some c) : c ∈ (getEng s 0x4E).cmds := by
  unfold maintNext at h
  simp only at h
  split at h
  · next d hd =>
    split at h
    · cases h
      exact List.mem_of_find?_eq_some hd
    · cases h
  · cases h

/-- A command of the maintenance engine that asks for a wave waits for it, and nothing else has changed. -/
theorem waveFor_waits {s v : State} {opc : Nat} {c : Cmd} (h : maintNext s opc = some c) (he : c.eng = 0x4E) (hv : v.eng = s.eng)
    (t : WType) (rel : Bool) (arg : Nat) : inPhase (waveFor v c t rel arg) c (.wave 0) := by
  refine inPhase_setPh ?_ _
  rw [he, getEng, hv]
  exact maintNext_mem h

end Sys2Proof.Machine
end

section
/-!
PROOFS. Reads of counters and histograms, and the commands that ask for a wave of their own (O30): the bytes of a record in host memory, then one
lemma for each command.
-/
namespace Sys2Proof.Machine
open Sys2Proof

/-! ### Words as bytes (R14) -/

@[simp] theorem wordBytes_length (ws : List Nat) : (wordBytes ws).length = 8 * ws.length := by
  simp [wordBytes, List.length_flatMap, Nat.mul_comm]

theorem lget_append_right {α : Type} (d : α) (l m : List α) (i : Nat) : lget d (l ++ m) (l.length + i) = lget d m i := by
  rw [lget_eq_getD, lget_eq_getD, List.getD_append_right _ _ _ _ (Nat.le_add_right ..), Nat.add_sub_cancel_left]

theorem lget_pair_append {α : Type} (d a b : α) (l : List α) (i : Nat) : lget d ([a, b] ++ l) (2 + i) = lget d l i :=
  lget_append_right d [a, b] l i

theorem lget_map_range {α : Type} (d : α) (f : Nat → α) {n i : Nat} (hi : i < n) : lget d ((List.range n).map f) i = f i := by
  rw [lget_eq_getD]
  simp [hi]

theorem lget_wordBytes (ws : List Nat) (i b : Nat) (hi : i < ws.length) (hb : b < 8) :
    lget 0 (wordBytes ws) (8 * i + b) = lget 0 (leBytes 8 (lget 0 ws i)) b := by
  induction ws generalizing i with
  | nil => simp at hi
  | cons w ws ih =>
    show lget 0 (leBytes 8 w ++ wordBytes ws) (8 * i + b) = _
    cases i with
    | zero => rw [Nat.mul_zero, Nat.zero_add, lget_append_left _ _ _ _ (by simpa using hb)]; rfl
    | succ i =>
      have hpos : 8 * (i + 1) + b = (leBytes 8 w).length + (8 * i + b) := by rw [leBytes_length]; omega
      rw [hpos, lget_append_right, ih i (by simpa using hi)]
      rfl

theorem map_lget_range {α : Type} (d : α) (l : List α) : (List.range l.length).map (lget d l) = l := by
  refine List.ext_getElem (by simp) fun i _ hi => ?_
  simp [lget_eq_getD, hi]

/-- The eight bytes at a word's place spell the word. -/
theorem leNat_wordBytes (ws : List Nat) (i : Nat) (hi : i < ws.length) :
    leNat ((List.range 8).map fun b => lget 0 (wordBytes ws) (8 * i + b)) = lget 0 ws i % 2 ^ 64 := by
  have hword : ((List.range 8).map fun b => lget 0 (wordBytes ws) (8 * i + b)) = leBytes 8 (lget 0 ws i) := by
    refine (List.map_congr_left fun b hb => lget_wordBytes ws i b hi (List.mem_range.1 hb)).trans ?_
    simpa using map_lget_range 0 (leBytes 8 (lget 0 ws i))
  rw [hword, leNat_leBytes]
  rfl

/-! ### Removing the entries of some keys -/

theorem mget_filter_key {α : Type} (d : α) (p : Nat → Bool) (m : SMap α) (k : Nat) :
    mget d (m.filter fun e => p e.1) k = if p k then mget d m k else d := by
  induction m with
  | nil => simp
  | cons e m ih =>
    obtain ⟨j, v⟩ := e
    by_cases hj : j = k
    · subst hj
      by_cases hp : p j = true <;> simp [hp, mget, ih]
    · by_cases hp : p j = true <;> simp [hp, mget, hj, ih]

/-- A fold that leaves its state alone and appends the bytes of each element. -/
theorem foldl_still {σ α β : Type} {f : σ × List β × Nat → α → σ × List β × Nat} {g : α → List β} {s : σ} {l : List α}
    (hf : ∀ a ∈ l, ∀ out n, f (s, out, n) a = (s, out ++ g a, n + 1)) (out : List β) (n : Nat) :
    l.foldl f (s, out, n) = (s, out ++ l.flatMap g, n + l.length) := by
  induction l generalizing out n with
  | nil => simp
  | cons a l ih =>
    rw [List.foldl_cons, hf a List.mem_cons_self, ih fun b hb => hf b (List.mem_cons_of_mem a hb)]
    simp [Nat.add_assoc, Nat.add_comm 1]

/-! ### A record in host memory (Table 14.5) -/

/-- The state after a read whose record went to the host of port `p`. -/
def recordRead (v : State) (c : Cmd) (p : Nat) (bs : List Byte) : State :=
  finishCmd (hostWrite v p (cmdWord c 0 2) bs) c .done bs.length

theorem putRecord_host {c : Cmd} {p : Nat} (hd : dsp c = p + 1) (old v : State) (bs : List Byte) :
    putRecord old v c bs none = recordRead v c p bs := by
  unfold putRecord writeAt
  rw [hd]
  rfl

theorem recordRead_frame (v : State) (c : Cmd) (p : Nat) (bs : List Byte) : { recordRead v c p bs with eng := v.eng, hosts := v.hosts } = v :=
  congrArg (fun u : State => { u with hosts := v.hosts }) (finishCmd_frame (hostWrite v p _ bs) c .done bs.length)

theorem completed_recordRead (s v : State) (c : Cmd) (p : Nat) (bs : List Byte) (hv : v.hosts = s.hosts) :
    completed s (recordRead v c p bs) c .done bs.length := by
  refine completed_congr ?_ (completed_finishCmd (hostWrite v p _ bs) c .done bs.length)
  rw [hostWrite_getRing, getRing, getHost, hv]
  rfl

theorem mem_recordRead {s v : State} {c : Cmd} {p i : Nat} {bs : List Byte} (hv : v.hosts = s.hosts) (hi : i < bs.length)
    (ho : outsideRecord s c p (cmdWord c 0 2 + i)) :
    mget 0 (getHost (recordRead v c p bs) p).mem (cmdWord c 0 2 + i) = lget 0 bs i := by
  have hring : getRing (hostWrite v p (cmdWord c 0 2) bs) c.port c.eng = getRing s c.port c.eng := by
    rw [hostWrite_getRing, getRing, getHost, hv]
    rfl
  have ho' : outsideRecord (hostWrite v p (cmdWord c 0 2) bs) c p (cmdWord c 0 2 + i) := by
    unfold outsideRecord recordAt
    rw [hring]
    exact ho
  rw [recordRead, mem_finishCmd_outside _ _ ho', mem_hostWrite, if_pos (by omega), Nat.add_sub_cancel_left]

theorem failCmd_cus (s : State) (c : Cmd) (o : Outc) (reason low : Nat) : (failCmd s c o reason low).cus = s.cus := by
  have h := congrArg State.cus (failCmd_frame s c o reason low)
  exact h

theorem failCmd_pds (s : State) (c : Cmd) (o : Outc) (reason low : Nat) : (failCmd s c o reason low).pds = s.pds := by
  have h := congrArg State.pds (failCmd_frame s c o reason low)
  exact h

theorem finishCmd_trace (s : State) (c : Cmd) (o : Outc) (detail : Nat) : (finishCmd s c o detail).trace = s.trace := by
  have h := congrArg State.trace (finishCmd_frame s c o detail)
  exact h

theorem failCmd_trace (s : State) (c : Cmd) (o : Outc) (reason low : Nat) : (failCmd s c o reason low).trace = s.trace :=
  finishCmd_trace ..

theorem recordRead_cus (v : State) (c : Cmd) (p : Nat) (bs : List Byte) : (recordRead v c p bs).cus = v.cus := by
  have h := congrArg State.cus (recordRead_frame v c p bs)
  exact h

theorem recordRead_pds (v : State) (c : Cmd) (p : Nat) (bs : List Byte) : (recordRead v c p bs).pds = v.pds := by
  have h := congrArg State.pds (recordRead_frame v c p bs)
  exact h

/-! ### CTR_READ (R524 to R528) -/

/-- The record of a live read: its header, the time, and each block's number and counters (Table 17.3). -/
def liveRecord (s : State) (c : Cmd) (n : Nat) : List Byte :=
  let w := cmdWord c 0 3
  let k := bits w 48 7
  let bs := ctrBlocks s k (bits w 14 14) (bits w 0 14)
  wordBytes [bs.length * 2 ^ 32 + n * 2 ^ 16 + bits w 48 8 * 2 ^ 8, nowNs s] ++ bs.flatMap fun b => wordBytes (b :: ctrBlock s k b)

theorem execCtrRead_live {s : State} {c : Cmd} {p n : Nat} (h : maintNext s 0x44 = some c) (hd : dsp c = p + 1) (hp : p < 2) :
    let w := cmdWord c 0 3
    let k := bits w 48 7
    setWords k = some n → bits w 14 14 < nTiles → bits w 0 14 < nTiles → bit w 55 = false → bit w 61 = false →
    (∀ b ∈ ctrBlocks s k (bits w 14 14) (bits w 0 14), ctrStat s k b = 0) → exec .ctrRead s = .next (recordRead s c p (liveRecord s c n)) := by
  intro w k hn ht0 ht1 hlat hclr hst
  have hd3 : ¬dsp c = 3 := by omega
  refine congrArg Host.Outcome.next ((maintRun_some h _).trans ?_)
  simp only [w, k] at hn hlat hclr hst
  simp only [hn]
  rw [if_neg (by simp [hd3, w, Nat.not_le.2 ht0, Nat.not_le.2 ht1]),
    foldl_still (g := fun b => wordBytes (b :: ctrBlock s k b)) fun b hb out n => by simp [hst b hb, hlat, hclr, ofBit, k, w],
    if_pos (by simp), List.nil_append]
  exact putRecord_host hd s s _

theorem execCtrRead_reserved {s : State} {c : Cmd} (h : maintNext s 0x44 = some c) (hr : setWords (bits (cmdWord c 0 3) 48 7) = none ∨ dsp c = 3) :
    exec .ctrRead s = .next (failCmd s c .fault 2 0) := by
  refine congrArg Host.Outcome.next ((maintRun_some h _).trans ?_)
  simp only
  split
  · rfl
  · next n hn =>
    rcases hr with hr | hr
    · rw [hr] at hn; cases hn
    · exact if_pos (by simp [hr])

/-! ### HIST_READ (R531, R77) -/

/-- The counters of a stream's histogram, as two to a word (R531). -/
def histPair (s : State) (t k o i : Nat) : Nat :=
  mget 0 (getCu s t k).hist (o * 36 + 2 * i) + mget 0 (getCu s t k).hist (o * 36 + 2 * i + 1) * 2 ^ 32

/-- The words of a histogram's record: its header, the time, and the 36 bins (R531). -/
def histWords (s : State) (t k o : Nat) : List Nat :=
  [t * 2 ^ 18 + k * 2 ^ 17 + o * 2 ^ 11 + (getStrm (getFlow s t (48 + k)) o).w1.toNat / 2 ^ 32 % 256, nowNs s] ++
    (List.range 18).map (histPair s t k o)

@[simp] theorem histWords_length (s : State) (t k o : Nat) : (histWords s t k o).length = 20 := by
  simp [histWords]

theorem lget_histWords (s : State) (t k o : Nat) {i : Nat} (hi : i < 18) : lget 0 (histWords s t k o) (2 + i) = histPair s t k o i := by
  rw [histWords, lget_pair_append, lget_map_range 0 _ hi]

/-- A CU without the histogram of one of its streams. -/
def histCleared (s : State) (t k o : Nat) : State := modCu s t k fun u => { u with hist := u.hist.filter fun e => e.1 / 36 != o }

theorem mget_histCleared (s : State) (t k o j : Nat) :
    mget 0 (getCu (histCleared s t k o) t k).hist j = if j / 36 = o then 0 else mget 0 (getCu s t k).hist j := by
  rw [histCleared, modCu_eq, getCu_setCu_same, mget_filter_key 0 fun i => i / 36 != o]
  by_cases hj : j / 36 = o <;> simp [hj]

theorem execHistRead_eq {s : State} {c : Cmd} {p : Nat} (h : maintNext s 0x45 = some c) (hd : dsp c = p + 1) (hp : p < 2) :
    let w := cmdWord c 0 3
    let t := bits w 14 14
    let k := bits w 13 1
    let o := bits w 0 6
    t < nTiles → exec .histRead s = .next
      (if fenced s t then failCmd s c .refusedFenced 0 0 else recordRead (histCleared s t k o) c p (wordBytes (histWords s t k o))) := by
  intro w t k o ht
  have hd3 : ¬dsp c = 3 := by omega
  rw [← putRecord_host hd s]
  exact congrArg Host.Outcome.next ((maintRun_some h _).trans (if_neg (by simp [hd3, t, w, Nat.not_le.2 ht])))

/-! ### LHIST_READ (R534) -/

theorem latRecord_length (s : State) (d g : Nat) : (latRecord s d g).length = 37 := by
  simp [latRecord]

theorem latRecords_length (s : State) (d : Nat) (gs : List Nat) : (wordBytes (gs.flatMap (latRecord s d))).length = gs.length * 296 := by
  simp [List.length_flatMap, latRecord_length]
  omega

/-- A port die without the latency histograms of some groups; the groups' configuration, entry 68, stays. -/
def latCleared (s : State) (d : Nat) (gs : List Nat) : State :=
  modPd s d fun x => { x with lat := x.lat.filter fun e => e.1 % 128 == 68 || !gs.contains (e.1 / 128) }

theorem mget_latCleared (s : State) (d : Nat) {gs : List Nat} {g i : Nat} (hg : g ∈ gs) (hi : i < 64) :
    mget 0 (getPd (latCleared s d gs) d).lat (latKey g i) = 0 := by
  have hmod : latKey g i % 128 = i := by unfold latKey; omega
  have hdiv : latKey g i / 128 = g := by unfold latKey; omega
  have hne : ¬i = 68 := by omega
  rw [latCleared, modPd_eq, getPd_setPd_same, mget_filter_key 0 fun j => j % 128 == 68 || !gs.contains (j / 128)]
  simp [hmod, hdiv, hne, hg]

theorem execLhistRead_eq {s : State} {c : Cmd} {p : Nat} (h : maintNext s 0x48 = some c) (hd : dsp c = p + 1) (hp : p < 2) :
    let w := cmdWord c 0 3
    let die := bits w 16 8
    let gs := (List.range 16).filter (bit (bits w 0 16))
    dieIsPd die = true → gs ≠ [] → exec .lhistRead s = .next
      (if dieFenced s die || (getPd s (die - 2)).inReset then failCmd s c .refusedFenced 0 0
       else recordRead (if bit w 61 then latCleared s (die - 2) gs else s) c p (wordBytes (gs.flatMap (latRecord s (die - 2))))) := by
  intro w die gs hdie hgs
  have hd3 : ¬dsp c = 3 := by omega
  rw [← putRecord_host hd s]
  refine congrArg Host.Outcome.next ((maintRun_some h _).trans (if_neg ?_))
  simp only [Bool.or_eq_true, beq_iff_eq, Bool.not_eq_true', List.isEmpty_iff, not_or, Bool.not_eq_false]
  exact ⟨⟨hd3, hdie⟩, hgs⟩

/-! ### Commands that ask for a wave (R325, R453) -/

theorem execSnapNow_waits {s : State} {c : Cmd} (h : maintNext s 0x46 = some c) (he : c.eng = 0x4E) :
    ∃ u, exec .snapNow s = .next u ∧ u.lamp.pending = s.lamp.pending ++ [Wave.ask .snapshot 0 false (BitVec.ofNat 64 (cmdWord c 0 2)) (.cmd c.id)] ∧
      inPhase u c (.wave 0) ∧ { u with eng := s.eng, lamp := s.lamp } = s :=
  ⟨_, congrArg Host.Outcome.next (maintRun_some h _), rfl, waveFor_waits h he rfl .snapshot false (cmdWord c 0 2), rfl⟩

theorem execFreeze_waits {s : State} {c : Cmd} (h : maintNext s 0x4B = some c) (he : c.eng = 0x4E) :
    ∃ u, exec .freeze s = .next u ∧
      u.lamp.pending = s.lamp.pending ++ [Wave.ask .freeze 0 (bit (cmdWord c 0 3) 0) (BitVec.ofNat 64 (cmdWord c 0 2)) (.cmd c.id)] ∧
      inPhase u c (.wave 0) ∧ { u with eng := s.eng, lamp := s.lamp } = s :=
  ⟨_, congrArg Host.Outcome.next (maintRun_some h _), rfl, waveFor_waits h he rfl .freeze (bit (cmdWord c 0 3) 0) (cmdWord c 0 2), rfl⟩

/-! ### TRACE_SET and TRACE_STOP (R535, R537) -/

/-- The trace that a TRACE_SET sets up. -/
def traceOf (c : Cmd) : TraceSt :=
  let w := cmdWord c 0 3
  { TraceSt.none with starting := true, addr := bits (cmdWord c 0 2) 0 48, pages := bits w 40 24, wrap := bit w 39, stopInc := bit w 38,
                      mask := bits w 0 16, t0 := bits (cmdWord c 0 4) 14 14, t1 := bits (cmdWord c 0 4) 0 14 }

section
variable {s : State} {c : Cmd} (h : maintNext s 0x49 = some c)
include h

theorem execTraceSet_busy (hb : s.trace.running = true ∨ s.trace.starting = true ∨ s.trace.stopping = true) :
    exec .traceSet s = .next (failCmd s c .refusedFull 0 0) := by
  refine congrArg Host.Outcome.next ((maintRun_some h _).trans (if_pos ?_))
  simpa [or_assoc] using hb

theorem execTraceSet_badBuffer (hr : s.trace.running = false) (hs : s.trace.starting = false) (hp : s.trace.stopping = false)
    (hb : bits (cmdWord c 0 2) 0 48 % 4096 ≠ 0 ∨ bits (cmdWord c 0 3) 40 24 = 0) : exec .traceSet s = .next (failCmd s c .fault 2 0) := by
  refine congrArg Host.Outcome.next ((maintRun_some h _).trans ((if_neg (by simp [hr, hs, hp])).trans (if_pos ?_)))
  obtain hb | hb := hb <;> simp [hb]

theorem execTraceSet_starts (hr : s.trace.running = false) (hs : s.trace.starting = false) (hp : s.trace.stopping = false) :
    let a := bits (cmdWord c 0 2) 0 48
    let pg := bits (cmdWord c 0 3) 40 24
    a % 4096 = 0 → pg ≠ 0 → inHbm s (a + pg * 4096 - 1) = true → bits (cmdWord c 0 4) 14 14 < nTiles → bits (cmdWord c 0 4) 0 14 < nTiles →
      exec .traceSet s = .next (waveFor { s with trace := traceOf c } c .snapshot false 0) := by
  intro a pg ha hpg hin ht0 ht1
  refine congrArg Host.Outcome.next ((maintRun_some h _).trans ((if_neg (by simp [hr, hs, hp])).trans (if_neg ?_)))
  simp only [Bool.or_eq_true, bne_iff_ne, beq_iff_eq, Bool.not_eq_true', decide_eq_true_eq, not_or, Bool.not_eq_false]
  exact ⟨⟨⟨⟨not_not.2 ha, hpg⟩, hin⟩, Nat.not_le.2 ht0⟩, Nat.not_le.2 ht1⟩

end

section
variable {s : State} {c : Cmd} (h : maintNext s 0x4A = some c)
include h

theorem execTraceStop_running (hr : s.trace.running = true) (hs : s.trace.stopping = false) :
    exec .traceStop s = .next (waveFor { s with trace := { s.trace with stopping := true } } c .snapshot false 0) :=
  congrArg Host.Outcome.next ((maintRun_some h _).trans (if_pos (by simp [hr, hs])))

theorem execTraceStop_ended (hr : s.trace.running = false) (he : s.trace.ended = true) :
    exec .traceStop s = .next (finishCmd { s with trace := { s.trace with ended := false } } c .done
      (s.trace.written % 2 ^ 32 + s.trace.dropped % 2 ^ 32 * 2 ^ 32)) :=
  congrArg Host.Outcome.next ((maintRun_some h _).trans ((if_neg (by simp [hr])).trans ((if_neg (by simp [hr])).trans (if_pos he))))

theorem execTraceStop_none (hr : s.trace.running = false) (he : s.trace.ended = false) : exec .traceStop s = .next (failCmd s c .fault 3 0) :=
  congrArg Host.Outcome.next
    ((maintRun_some h _).trans ((if_neg (by simp [hr])).trans ((if_neg (by simp [hr])).trans (if_neg (by simp [he])))))

end
/-! ### The commands as the obligation states them -/

theorem execCtrRead_record {s : State} {c : Cmd} {p n : Nat} (h : maintNext s 0x44 = some c) :
    let w := cmdWord c 0 3
    let k := bits w 48 7
    setWords k = some n → dsp c = p + 1 → p < 2 → bits w 14 14 < nTiles → bits w 0 14 < nTiles → bit w 55 = false → bit w 61 = false →
    (∀ b ∈ ctrBlocks s k (bits w 14 14) (bits w 0 14), ctrStat s k b = 0) →
    ∃ u, exec .ctrRead s = .next u ∧ completed s u c .done (liveRecord s c n).length ∧ { u with eng := s.eng, hosts := s.hosts } = s ∧
      ∀ i, i < (liveRecord s c n).length → outsideRecord s c p (cmdWord c 0 2 + i) →
        mget 0 (getHost u p).mem (cmdWord c 0 2 + i) = lget 0 (liveRecord s c n) i := by
  intro w k hn hd hp ht0 ht1 hlat hclr hst
  exact ⟨_, execCtrRead_live h hd hp hn ht0 ht1 hlat hclr hst, completed_recordRead s s c p _ rfl, recordRead_frame .., fun _ => mem_recordRead rfl⟩

/-- Every word of a histogram stands in host memory, where all its bytes do. -/
theorem leNat_histRead {s : State} {c : Cmd} {p i : Nat} (t k o : Nat) (hi : i < 18)
    (ho : ∀ b, b < 8 → outsideRecord s c p (cmdWord c 0 2 + 16 + 8 * i + b)) :
    leNat ((List.range 8).map fun b =>
        mget 0 (getHost (recordRead (histCleared s t k o) c p (wordBytes (histWords s t k o))) p).mem (cmdWord c 0 2 + 16 + 8 * i + b)) =
      histPair s t k o i % 2 ^ 64 := by
  have hbytes : ∀ b ∈ List.range 8,
      mget 0 (getHost (recordRead (histCleared s t k o) c p (wordBytes (histWords s t k o))) p).mem (cmdWord c 0 2 + 16 + 8 * i + b) =
        lget 0 (wordBytes (histWords s t k o)) (8 * (2 + i) + b) := fun b hb => by
    have hb8 : b < 8 := List.mem_range.1 hb
    have hat : cmdWord c 0 2 + 16 + 8 * i + b = cmdWord c 0 2 + (8 * (2 + i) + b) := by omega
    have hob := ho b hb8
    rw [hat] at hob ⊢
    exact mem_recordRead rfl (by simp; omega) hob
  rw [List.map_congr_left hbytes, leNat_wordBytes _ _ (by simp; omega), lget_histWords s t k o hi]

theorem execHistRead_record {s : State} {c : Cmd} {p : Nat} (h : maintNext s 0x45 = some c) (hd : dsp c = p + 1) (hp : p < 2) :
    let w := cmdWord c 0 3
    let t := bits w 14 14
    let k := bits w 13 1
    let o := bits w 0 6
    t < nTiles →
    ∃ u, exec .histRead s = .next u ∧ (fenced s t = true → completed s u c .refusedFenced 0 ∧ u.cus = s.cus) ∧
      (fenced s t = false → completed s u c .done 160 ∧ (∀ j, mget 0 (getCu u t k).hist j = if j / 36 = o then 0 else mget 0 (getCu s t k).hist j) ∧
        (∀ i, i < 18 → (∀ b, b < 8 → outsideRecord s c p (cmdWord c 0 2 + 16 + 8 * i + b)) →
          leNat ((List.range 8).map fun b => mget 0 (getHost u p).mem (cmdWord c 0 2 + 16 + 8 * i + b)) = histPair s t k o i % 2 ^ 64)) := by
  intro w t k o ht
  refine ⟨_, execHistRead_eq h hd hp ht, ?_⟩
  cases hf : fenced s t with
  | true =>
    rw [if_pos rfl]
    exact ⟨fun _ => ⟨completed_failCmd .., failCmd_cus ..⟩, nofun⟩
  | false =>
    have hlen : (wordBytes (histWords s t k o)).length = 160 := by simp
    rw [if_neg Bool.false_ne_true]
    refine ⟨nofun, fun _ => ⟨?_, fun j => ?_, fun i hi ho => leNat_histRead t k o hi ho⟩⟩
    · exact hlen ▸ completed_recordRead s (histCleared s t k o) c p _ rfl
    · rw [getCu, recordRead_cus]
      exact mget_histCleared s t k o j

theorem execLhistRead_record {s : State} {c : Cmd} {p : Nat} (h : maintNext s 0x48 = some c) (hd : dsp c = p + 1) (hp : p < 2) :
    let w := cmdWord c 0 3
    let die := bits w 16 8
    let gs := (List.range 16).filter (bit (bits w 0 16))
    dieIsPd die = true → gs ≠ [] →
    ∃ u, exec .lhistRead s = .next u ∧
      ((dieFenced s die = true ∨ (getPd s (die - 2)).inReset = true) → completed s u c .refusedFenced 0 ∧ u.pds = s.pds) ∧
      (dieFenced s die = false → (getPd s (die - 2)).inReset = false → completed s u c .done (gs.length * 296) ∧
        (bit w 61 = false → u.pds = s.pds) ∧
        (bit w 61 = true → ∀ g ∈ gs, ∀ i, i < 64 → mget 0 (getPd u (die - 2)).lat (latKey g i) = 0)) := by
  intro w die gs hdie hgs
  refine ⟨_, execLhistRead_eq h hd hp hdie hgs, fun hr => ?_, fun hf hn => ?_⟩
  · rw [if_pos (by simpa using hr)]
    exact ⟨completed_failCmd .., failCmd_pds ..⟩
  · have hopen : ¬(dieFenced s die || (getPd s (die - 2)).inReset) = true := by simp [hf, hn]
    rw [if_neg hopen]
    refine ⟨?_, fun hclr => ?_, fun hclr g hg i hi => ?_⟩
    · rw [← latRecords_length s (die - 2)]
      exact completed_recordRead s _ c p _ (by split <;> rfl)
    · rw [recordRead_pds, if_neg (Bool.eq_false_iff.1 hclr)]
    · rw [getPd, recordRead_pds, if_pos hclr]
      exact mget_latCleared s (die - 2) hg hi

theorem execTraceSet_outcome {s : State} {c : Cmd} (h : maintNext s 0x49 = some c) (he : c.eng = 0x4E) :
    let w := cmdWord c 0 3
    let a := bits (cmdWord c 0 2) 0 48
    let pg := bits w 40 24
    ∃ u, exec .traceSet s = .next u ∧
      ((s.trace.running = true ∨ s.trace.starting = true ∨ s.trace.stopping = true) → completed s u c .refusedFull 0 ∧ u.trace = s.trace) ∧
      (s.trace.running = false → s.trace.starting = false → s.trace.stopping = false →
        ((a % 4096 ≠ 0 ∨ pg = 0) → completed s u c .fault (2 * 2 ^ 56) ∧ u.trace = s.trace) ∧
        (a % 4096 = 0 → pg ≠ 0 → inHbm s (a + pg * 4096 - 1) = true → bits (cmdWord c 0 4) 14 14 < nTiles → bits (cmdWord c 0 4) 0 14 < nTiles →
          u.trace.starting = true ∧ u.trace.running = false ∧ u.trace.addr = a ∧ u.trace.pages = pg ∧ u.trace.mask = bits w 0 16 ∧
          u.trace.wrap = bit w 39 ∧ u.trace.stopInc = bit w 38 ∧ inPhase u c (.wave 0) ∧
          ∃ x, u.lamp.pending = s.lamp.pending ++ [x] ∧ x.wtype = .snapshot)) := by
  intro w a pg
  by_cases hb : s.trace.running = true ∨ s.trace.starting = true ∨ s.trace.stopping = true
  · refine ⟨_, execTraceSet_busy h hb, fun _ => ⟨completed_failCmd .., failCmd_trace ..⟩, fun hr hs hp => ?_⟩
    simp [hr, hs, hp] at hb
  · obtain ⟨hr, hs, hp⟩ : s.trace.running = false ∧ s.trace.starting = false ∧ s.trace.stopping = false := by simpa using hb
    obtain ⟨v, hv⟩ : ∃ v, exec .traceSet s = .next v := ⟨_, congrArg Host.Outcome.next (maintRun_some h _)⟩
    refine ⟨v, hv, fun h' => absurd h' hb, fun _ _ _ => ⟨fun hbad => ?_, fun ha hpg hin ht0 ht1 => ?_⟩⟩
    · cases hv.symm.trans (execTraceSet_badBuffer h hr hs hp hbad)
      exact ⟨completed_failCmd .., failCmd_trace ..⟩
    · cases hv.symm.trans (execTraceSet_starts h hr hs hp ha hpg hin ht0 ht1)
      exact ⟨rfl, rfl, rfl, rfl, rfl, rfl, rfl, waveFor_waits h he rfl .snapshot false 0, _, rfl, rfl⟩

theorem execTraceStop_outcome {s : State} {c : Cmd} (h : maintNext s 0x4A = some c) (he : c.eng = 0x4E) :
    ∃ u, exec .traceStop s = .next u ∧
      (s.trace.running = true → s.trace.stopping = false → u.trace = { s.trace with stopping := true } ∧ inPhase u c (.wave 0)) ∧
      (s.trace.running = false → s.trace.ended = true → u.trace = { s.trace with ended := false } ∧
        completed s u c .done (s.trace.written % 2 ^ 32 + s.trace.dropped % 2 ^ 32 * 2 ^ 32)) ∧
      (s.trace.running = false → s.trace.ended = false → completed s u c .fault (3 * 2 ^ 56) ∧ u.trace = s.trace) := by
  obtain ⟨v, hv⟩ : ∃ v, exec .traceStop s = .next v := ⟨_, congrArg Host.Outcome.next (maintRun_some h _)⟩
  refine ⟨v, hv, fun hr hs => ?_, fun hr hend => ?_, fun hr hend => ?_⟩
  · cases hv.symm.trans (execTraceStop_running h hr hs)
    exact ⟨rfl, waveFor_waits h he rfl .snapshot false 0⟩
  · cases hv.symm.trans (execTraceStop_ended h hr hend)
    exact ⟨finishCmd_trace .., completed_congr (by rfl) (completed_finishCmd ..)⟩
  · cases hv.symm.trans (execTraceStop_none h hr hend)
    exact ⟨completed_failCmd .., failCmd_trace ..⟩

/-- Settles O30: each clause is the lemma above about its command. -/
theorem counterReadsAndWaveCommands : Obligations.CounterReadsAndWaveCommands := by
  unfold Obligations.CounterReadsAndWaveCommands
  exact ⟨fun _ _ _ _ h => execCtrRead_record h, fun _ _ h hr => ⟨_, execCtrRead_reserved h hr, completed_failCmd ..⟩,
    fun _ _ _ h hd hp => execHistRead_record h hd hp, fun _ _ _ h hd hp => execLhistRead_record h hd hp, fun _ _ => execSnapNow_waits,
    fun _ _ => execFreeze_waits, fun _ _ => execTraceSet_outcome, fun _ _ => execTraceStop_outcome⟩

end Sys2Proof.Machine
end

section
/-!
PROOFS. What a CU keeps while commands act around it and on it: packets, traced events and incidents leave the CUs as they are; taking operands
changes the latent errors of its memories only; the running and the ending of a micro-op, each said once.
-/
namespace Sys2Proof.Machine
open Sys2Proof

/-! ### Traffic: packets, traced events and incidents -/

/-- A state without its packets, its trace and its incident path. -/
def besideTraffic (s : State) : State := { s with net := State.reset.net, trace := State.reset.trace, inc := State.reset.inc }

theorem frame_of_besideTraffic {s u : State} (h : besideTraffic u = besideTraffic s) :
    { u with net := s.net, trace := s.trace, inc := s.inc } = s :=
  congrArg (fun v : State => { v with net := s.net, trace := s.trace, inc := s.inc }) h

theorem besideTraffic_raiseInc (s : State) (i : Inc) : besideTraffic (raiseInc s i) = besideTraffic s := by
  have h := congrArg besideTraffic (raiseInc_frame s i)
  exact h

theorem besideTraffic_tileMwr (s : State) (t src a req cls : Nat) (data : List Byte) (poi : List Bool) :
    besideTraffic (tileMwr s t src a req cls data poi) = besideTraffic s := by
  unfold tileMwr
  split
  · rfl
  · exact besideTraffic_raiseInc ..

theorem besideTraffic_traceHold (s : State) (t utyp uidx ev det : Nat) : besideTraffic (traceHold s t utyp uidx ev det) = besideTraffic s := by
  have h := congrArg besideTraffic (traceHold_frame s t utyp uidx ev det)
  exact h

theorem besideTraffic_traceFlush (s : State) (t : Nat) (all : Bool) (n : Nat) : besideTraffic (traceFlush s t all n) = besideTraffic s := by
  induction n generalizing s with
  | zero => rfl
  | succ n ih =>
    simp only [traceFlush]
    split
    · rfl
    · next b rest _ =>
      rw [apply_ite besideTraffic, ih]
      cases rest with
      | nil =>
        rw [apply_ite besideTraffic, besideTraffic_tileMwr]
        simp [besideTraffic]
      | cons =>
        rw [apply_ite besideTraffic, ih, ih, besideTraffic_tileMwr, besideTraffic_tileMwr]
        simp [besideTraffic]

/-- A traced event may write held records out: it changes packets, the trace and the incident path. -/
theorem besideTraffic_traceEv (s : State) (t utyp uidx ev det : Nat) : besideTraffic (traceEv s t utyp uidx ev det) = besideTraffic s := by
  unfold traceEv
  split
  · rw [besideTraffic_traceFlush, besideTraffic_traceHold]
  · rfl

theorem traceEv_flows (s : State) (t utyp uidx ev det : Nat) : (traceEv s t utyp uidx ev det).flows = s.flows := by
  have h := congrArg State.flows (besideTraffic_traceEv s t utyp uidx ev det)
  exact h

theorem traceEv_mus (s : State) (t utyp uidx ev det : Nat) : (traceEv s t utyp uidx ev det).mus = s.mus := by
  have h := congrArg State.mus (besideTraffic_traceEv s t utyp uidx ev det)
  exact h

/-! ### A region stops (R276) -/

/-- A state without what the stopping of a region changes: cores, the region, the engines, the hosts' records, the waves asked for. -/
def besideStop (s : State) : State :=
  { s with wicks := State.reset.wicks, regions := State.reset.regions, eng := State.reset.eng, hosts := State.reset.hosts, lamp := State.reset.lamp }

theorem waveTxn_regions (s : State) (tag : Nat) (commit : Bool) (o : Outc) (reason : Nat) : (waveTxn s tag commit o reason).regions = s.regions := by
  unfold waveTxn
  split <;> rfl

theorem besideStop_waveTxn (s : State) (tag : Nat) (commit : Bool) (o : Outc) (reason : Nat) :
    besideStop (waveTxn s tag commit o reason) = besideStop s := by
  unfold waveTxn
  split <;> rfl

theorem failCmd_regions (s : State) (c : Cmd) (o : Outc) (reason low : Nat) : (failCmd s c o reason low).regions = s.regions := by
  have h := congrArg State.regions (failCmd_frame s c o reason low)
  exact h

theorem besideStop_failCmd (s : State) (c : Cmd) (o : Outc) (reason low : Nat) : besideStop (failCmd s c o reason low) = besideStop s := by
  have h := congrArg besideStop (failCmd_frame s c o reason low)
  exact h

/-- What each step of a fold keeps, the fold keeps. -/
theorem foldl_keeps {σ α β : Type} (π : σ → β) (f : σ → α → σ) (l : List α) (s : σ) (h : ∀ s x, π (f s x) = π s) : π (l.foldl f s) = π s :=
  List.foldlRecOn (motive := fun u => π u = π s) l f rfl fun u hu x _ => (h u x).trans hu

theorem engStopped_keeps {β : Type} (π : State → β) (hw : ∀ s tag o r, π (waveTxn s tag false o r) = π s)
    (hf : ∀ s c o r, π (failCmd s c o r 0) = π s) (s : State) (r : Nat) (o : Outc) : π (engStopped s r o) = π s := by
  unfold engStopped
  extract_lets s1
  have h1 : π s1 = π s := foldl_keeps π _ _ s fun _ _ => hw ..
  split
  · split
    · exact h1
    · exact (hf ..).trans h1
  · exact h1

theorem besideStop_stopCores (s : State) (r : Nat) : besideStop (stopCores s r) = besideStop s := by
  unfold stopCores
  extract_lets g on v
  refine (foldl_keeps besideStop _ _ v ?_).trans (foldl_keeps besideStop _ _ s ?_)
  all_goals exact fun _ _ => rfl

theorem besideStop_stopRegion (s : State) (r : Nat) : besideStop (stopRegion s r) = besideStop s := by
  unfold stopRegion
  extract_lets g
  split
  · rfl
  · unfold stopRegionAs
    extract_lets
    split
    · rfl
    · rw [engStopped_keeps besideStop (fun _ _ _ _ => besideStop_waveTxn ..) (fun _ _ _ _ => besideStop_failCmd ..)]
      exact besideStop_stopCores s r

theorem besideStop_stopTileRegion (s : State) (t : Nat) : besideStop (stopTileRegion s t) = besideStop s := by
  unfold stopTileRegion
  split
  · exact besideStop_stopRegion ..
  · rfl

/-- A region that is not frozen stops. -/
theorem stopRegion_st {s : State} {r : Nat} (hz : (getRegion s r).frozenAt = none) (h0 : (getRegion s r).st ≠ .empty) :
    (getRegion (stopRegion s r) r).st = .stopped := by
  unfold stopRegion
  simp only [hz, Option.isSome_none, Bool.false_and, Bool.false_eq_true, if_false]
  unfold stopRegionAs
  by_cases h1 : (getRegion s r).st = .stopped
  · simp [h1]
  · have hr (v : State) (o : Outc) : (getRegion (engStopped v r o) r).st = (getRegion v r).st :=
      congrArg (fun m => (mget Region.none m r).st)
        (engStopped_keeps State.regions (fun _ _ _ _ => waveTxn_regions ..) (fun _ _ _ _ => failCmd_regions ..) v r o)
    simp [h0, h1, hr]

/-! ### Operations that leave the CUs -/

@[simp] theorem traceEv_cus (s : State) (t utyp uidx ev det : Nat) : (traceEv s t utyp uidx ev det).cus = s.cus := by
  have h := congrArg State.cus (besideTraffic_traceEv s t utyp uidx ev det)
  exact h

@[simp] theorem raiseInc_cus (s : State) (i : Inc) : (raiseInc s i).cus = s.cus := by
  have h := congrArg State.cus (besideTraffic_raiseInc s i)
  exact h

@[simp] theorem tileMwr_cus (s : State) (t src a req cls : Nat) (data : List Byte) (poi : List Bool) :
    (tileMwr s t src a req cls data poi).cus = s.cus := by
  have h := congrArg State.cus (besideTraffic_tileMwr s t src a req cls data poi)
  exact h

@[simp] theorem flowFault_cus (s : State) (cls t u detail : Nat) : (flowFault s cls t u detail).cus = s.cus := by
  have h := congrArg State.cus (besideStop_stopTileRegion (raiseInc s (tileInc s cls (unitType u) t (unitIx u) detail)) t)
  exact h.trans (raiseInc_cus ..)

@[simp] theorem raiseUnit_cus (s : State) (i : Inc) : (raiseUnit s i).cus = s.cus := by
  simp only [raiseUnit, apply_ite State.cus, raiseInc_cus, modTile_eq, setTile_cus, ite_self]

@[simp] theorem raiseCoal_cus (s : State) (i : Inc) : (raiseCoal s i).cus = s.cus := by
  simp only [raiseCoal, apply_ite State.cus, raiseInc_cus, ite_self]

@[simp] theorem muRaise_cus (s : State) (t k corrected : Nat) (bad : List Nat) : (muRaise s t k corrected bad).cus = s.cus :=
  (foldl_keeps State.cus _ _ _ fun _ _ => raiseUnit_cus ..).trans (foldl_keeps State.cus _ _ _ fun _ _ => raiseCoal_cus ..)

@[simp] theorem muRead_cus (s : State) (t k a n : Nat) : (muRead s t k a n).2.2.cus = s.cus := by simp [muRead]

@[simp] theorem muWrite_cus (s : State) (t k a : Nat) (bs : List Byte) (poi : Bool) : (muWrite s t k a bs poi).1.cus = s.cus := by
  simp only [muWrite]
  split <;> simp

@[simp] theorem muWriteQ_cus (s : State) (t k a : Nat) (bs : List Byte) (poi : Bool) : (muWriteQ s t k a bs poi).cus = s.cus := by
  simp [muWriteQ, apply_ite State.cus]

@[simp] theorem ringWrite_cus (s : State) (t : Nat) (ra : RingAt) (r : RingRec) : (ringWrite s t ra r).cus = s.cus := by
  unfold ringWrite
  split
  · exact foldl_keeps State.cus _ _ _ fun _ _ => tileMwr_cus ..
  · exact muWriteQ_cus ..

theorem ringAdd_cus {s s' : State} {t : Nat} {ra : RingAt} {rg rg' : RingRt} {x : RingRec} (h : ringAdd s t ra rg x = some (s', rg')) :
    s'.cus = s.cus := by
  obtain ⟨rg1, -, h⟩ := Option.map_eq_some_iff.1 h
  obtain ⟨rfl, -⟩ := Prod.mk.inj h
  split
  · simp only [apply_ite State.cus, ringWrite_cus, ite_self]
    split <;> simp
  · split <;> simp

theorem ringFetch_cus {s s' : State} {t : Nat} {ra : RingAt} {r : RingRec} {bs : List Byte} {poi : Bool}
    (h : ringFetch s t ra r = some (bs, poi, s')) : s'.cus = s.cus := by
  unfold ringFetch at h
  split at h
  · cases h; rfl
  · split at h
    · cases h
    · cases h
      exact muRead_cus ..

theorem spillTake_cus {s s' : State} {t u e q : Nat} {tok : Token} {owed : List Owed} (h : spillTake s t u e = some (q, tok, owed, s')) :
    s'.cus = s.cus := by
  simp only [spillTake] at h
  split at h
  · cases h
  · split at h
    · cases h
    · obtain ⟨z, hz, h⟩ := Option.map_eq_some_iff.1 h
      cases h
      have hc : z.2.2.cus = s.cus := ringFetch_cus hz
      exact hc

@[simp] theorem returnCredits_cus (s : State) (t u : Nat) (owed : List Owed) : (returnCredits s t u owed).cus = s.cus :=
  foldl_keeps State.cus _ _ _ fun _ _ => rfl

@[simp] theorem placeSeq_cus (s : State) (t u q : Nat) (tok : Token) (n : Nat) (owed : List Owed) (fresh : Bool) :
    (placeSeq s t u q tok n owed fresh).1.cus = s.cus := by
  simp only [placeSeq]
  repeat' split
  all_goals simp

@[simp] theorem reinjectQ_cus (s : State) (t u q : Nat) : (reinjectQ s t u q).cus = s.cus := by
  simp only [reinjectQ]
  split
  · rfl
  · split
    · next h => simp [apply_ite State.cus, spillTake_cus h]
    · simp [apply_ite State.cus]

@[simp] theorem releaseQ_cus (s : State) (t u q : Nat) : (releaseQ s t u q).cus = s.cus := by
  simp only [releaseQ]
  split <;> simp

@[simp] theorem unitStall_cus (s : State) (t u cause : Nat) : (unitStall s t u cause).cus = s.cus := by simp [unitStall]

@[simp] theorem qStall_cus (s : State) (a cause : Nat) : (qStall s a cause).cus = s.cus := by simp [qStall, apply_ite State.cus]

@[simp] theorem inStall_cus (s : State) (t u q : Nat) : (inStall s t u q).cus = s.cus := by simp [inStall, apply_ite State.cus]

@[simp] theorem outStall_cus (s : State) (t u : Nat) : (outStall s t u).cus = s.cus := by
  unfold outStall
  split <;> simp [apply_ite State.cus]

@[simp] theorem raiseSp_cus (s : State) (t k : Nat) (run : URun) (w : W64 × W64) (errs : List SpErr) : (raiseSp s t k run w errs).cus = s.cus := by
  unfold raiseSp
  split <;> simp

@[simp] theorem raiseWin_cus (s : State) (t k : Nat) (run : URun) (w : W64 × W64) (cls n detail : Nat) :
    (raiseWin s t k run w cls n detail).cus = s.cus := by simp [raiseWin, apply_ite State.cus]

theorem getCu_congr {s u : State} (h : u.cus = s.cus) (t k : Nat) : getCu u t k = getCu s t k := congrArg (fun m => mget Cu.reset m (t * 2 + k)) h

end Sys2Proof.Machine
end

section
/-!
PROOFS. What the operations of a CU leave of it: taking operands and reading its memories, running rows, ending a micro-op.
-/
namespace Sys2Proof.Machine
open Sys2Proof

/-! ### Taking operands (R86, R498) -/

/-- A CU without the latent errors of its memories and without its predictor counters: what taking operands and counting leave as it is. -/
def cuData (c : Cu) : Cu := { c with err := [], pc := [], pinv := [] }

theorem getCu_modCu_keeps {β : Type} (π : Cu → β) {f : Cu → Cu} (hf : ∀ c, π (f c) = π c) (s : State) (t k t' k' : Nat) :
    π (getCu (modCu s t k f) t' k') = π (getCu s t' k') := by
  unfold modCu setCu getCu
  simp only [mget_mset]
  split
  · next h => rw [h, hf]
  · rfl

theorem cuData_cuMemRead (s : State) (t k key t' k' : Nat) : cuData (getCu (cuMemRead s t k key).1 t' k') = cuData (getCu s t' k') := by
  unfold cuMemRead
  split
  · rfl
  · rw [getCu_congr (raiseCoal_cus ..)]
    exact getCu_modCu_keeps cuData (by exact fun _ => rfl) ..
  · rw [getCu_congr (raiseUnit_cus ..)]

theorem cuData_bufRead (s : State) (t u q : Nat) (k : Token) (t' k' : Nat) :
    cuData (getCu (bufRead s t u q k).2 t' k') = cuData (getCu s t' k') := by
  unfold bufRead
  split
  · exact (getCu_modCu_keeps cuData (by exact fun _ => rfl) ..).trans (cuData_cuMemRead ..)
  · rfl

theorem cuData_takeTok {s s' : State} {t u q : Nat} {tok : Token} (h : takeTok s t u q = some (tok, s')) (t' k' : Nat) :
    cuData (getCu s' t' k') = cuData (getCu s t' k') := by
  simp only [takeTok] at h
  split at h
  · have hs := congrArg Prod.snd (Option.some.inj h)
    rw [← show _ = s' from hs, cuData_bufRead, setFlow_getCu]
    split
    · rw [getCu_congr (releaseQ_cus ..)]
    · rfl
  · cases h

theorem cuData_fillPart (n : Nat) (s : State) (t u q : Nat) (f : Fmt) (k : Nat) (scl : Bool) (p : OpPart) (t' k' : Nat) :
    cuData (getCu (fillPart n s t u q f k scl p).2 t' k') = cuData (getCu s t' k') := by
  fun_induction fillPart n s t u q f k scl p with
  | case1 | case2 | case3 => rfl
  | case4 => next ht _ _ ih => rw [ih, cuData_takeTok ht]

/-- Taking an operand leaves of every CU all but the errors of its queue buffers. -/
theorem cuData_fillA (s : State) (t u : Nat) (w : W64 × W64) (p : OpPart) (t' k' : Nat) :
    cuData (getCu (fillA s t u w p).2.1 t' k') = cuData (getCu s t' k') :=
  (cuData_fillPart ..).trans (cuData_fillPart ..)

theorem cuData_slotsRead (s : State) (t k : Nat) (w : W64 × W64) (t' k' : Nat) :
    cuData (getCu (slotsRead s t k w).1 t' k') = cuData (getCu s t' k') :=
  foldl_keeps (fun a : State × List (WSlot × Nat) => cuData (getCu a.1 t' k')) _ _ _
    fun _ _ => (cuData_cuMemRead ..).trans (cuData_cuMemRead ..)

theorem accumulate_cus (s : State) (t k : Nat) (run : URun) (w : W64 × W64) (a : ARow) (bs : List (WSlot × Nat)) :
    (accumulate s t k run w a bs).2.2.cus = s.cus := by
  unfold accumulate
  split <;> simp [apply_ite State.cus]

/-! ### The end of a masked invocation (R135 to R143) -/

theorem cuData_pcAdd (c : Cu) (slot word ctr n : Nat) : cuData (pcAdd c slot word ctr n) = cuData c := rfl

theorem verCopy_cus (s : State) (t k : Nat) (w : W64 × W64) (p : W64) (mask : List Byte) : (verCopy s t k w p mask).1.cus = s.cus := by
  simp only [verCopy]
  split
  · next h => simp [ringAdd_cus h]
  · rfl

/-- A masked invocation that ends counts, and leaves all else of its CU. -/
theorem cuData_maskEnd (s : State) (t k : Nat) (run : URun) (w : W64 × W64) (e : Nat × W64) (t' k' : Nat) :
    cuData (getCu (maskEnd s t k run w e) t' k') = cuData (getCu s t' k') := by
  unfold maskEnd
  extract_lets c key add s1 pv s2 s3 den s4 r
  have hadd (v : State) (ctr n : Nat) : cuData (getCu (add v ctr n) t' k') = cuData (getCu v t' k') :=
    getCu_modCu_keeps cuData (by exact fun _ => rfl) ..
  have h1 : cuData (getCu s1 t' k') = cuData (getCu s t' k') := (hadd ..).trans (hadd ..)
  have h2 : cuData (getCu s2 t' k') = cuData (getCu s t' k') := by
    unfold s2
    split
    · exact h1
    · exact (getCu_modCu_keeps cuData (by exact fun _ => rfl) ..).trans h1
  have h3 : cuData (getCu s3 t' k') = cuData (getCu s t' k') := by
    unfold s3
    split
    · exact (hadd ..).trans h2
    · exact h2
  have h4 : cuData (getCu s4 t' k') = cuData (getCu s t' k') := (hadd ..).trans h3
  have h5 : cuData (getCu r.1 t' k') = cuData (getCu s t' k') := by
    unfold r
    rw [getCu_congr (verCopy_cus ..), h4]
  split
  · exact h2
  · split
    · exact h3
    · split
      · exact h4
      · split
        · exact (hadd ..).trans h4
        · split
          · exact h5
          · exact (hadd ..).trans h4

/-! ### The end of a micro-op -/

/-- A micro-op that no COMMIT wave has met sees its CU as it is. -/
theorem cuOf_late {run : URun} (h : run.late = false) (c : Cu) : cuOf c run = c := by
  unfold cuOf
  split
  · rw [h]
    rfl
  · rfl

/-- A CU in which a micro-op of the present configuration has ended (R91, R114): a `LOADW` is no longer loading; any other is no longer issued, and,
unless it verifies, its context goes on at `nx` with the outcome of its markers. -/
def endedCu (c : Cu) (run : URun) (w : W64 × W64) (nx : Nat) : Cu :=
  if uOpc w == 3 then { c with loading := none }
  else if run.ver.isSome then { c with issued := none }
  else
    let x := cuCtx c run.slot
    setCtx { c with issued := none } run.slot { x with next := nx, running := x.running && uOpc w != 15, outc := runOutc run }

/-- The micro-op sends what `VTOPK` kept before it ends (R103). -/
def sendsTopk (w : W64 × W64) : Bool := uOpc w == 2 || (uOpc w == 1 && uAout w)

/-- What the end of a micro-op makes of its CU, where nothing is left for the later stages of a `VTOPK`, or where these had what they needed: `s1` is
the state after they ran. -/
theorem endUop_some {s u : State} {t k : Nat} {run : URun} {w : W64 × W64} {ep : EPlace} (hl : run.late = false)
    (h : endUop s t k run w ep = some u) :
    ∃ s1 c nx, (sendsTopk w = false → s1 = s) ∧ cuData c = cuData (getCu s1 t k) ∧
      (predOf (getCu s t k) run.slot run.uop = none → nx = uNext w) ∧ getCu u t k = lateEnd (endedCu c run w nx) := by
  unfold endUop at h
  extract_lets c0 top strict src more at h
  obtain ⟨s1, hs1, h⟩ := Option.map_eq_some_iff.1 h
  extract_lets s2 s3 s4 s5 s6 s7 at h
  have hc0 : c0 = getCu s t k := cuOf_late hl _
  have h3 : cuData (getCu s3 t k) = cuData (getCu s1 t k) := by
    rw [getCu_congr (raiseWin_cus ..), getCu_congr (raiseWin_cus ..)]
  have h4 : cuData (getCu s4 t k) = cuData (getCu s1 t k) := by
    unfold s4
    split
    · exact (cuData_maskEnd ..).trans h3
    · exact h3
  have h5 : cuData (getCu s5 t k) = cuData (getCu s1 t k) := by
    unfold s5
    split
    · split
      · refine (getCu_modCu_keeps cuData (fun c => ?_) ..).trans h4
        rw [apply_ite cuData, cuData_pcAdd, cuData_pcAdd, cuData_pcAdd, ite_self]
      · exact h4
    · exact h4
  refine ⟨s1, getCu s5 t k, strict.getD (uNext w), fun ht => ?_, h5, fun hp => ?_, ?_⟩
  · have htop : top = none := if_neg (by simpa [sendsTopk] using ht)
    rw [htop] at hs1
    exact (Option.some.inj hs1).symm
  · unfold strict
    rw [hc0, hp]
    rfl
  · rw [← h, getCu_congr (traceEv_cus ..)]
    simp only [s7, s6, modFlow_eq, setFlow_getCu, modCu_eq, getCu_setCu_same, hl, Bool.or_false]
    rfl

/-- A micro-op that sends nothing at its end ends at once. -/
theorem endUop_isSome (s : State) (t k : Nat) (run : URun) {w : W64 × W64} (ep : EPlace) (h : sendsTopk w = false) :
    ∃ u, endUop s t k run w ep = some u := by
  unfold endUop
  extract_lets c0 top
  have htop : top = none := if_neg (by simpa [sendsTopk] using h)
  rw [htop]
  exact ⟨_, rfl⟩

end Sys2Proof.Machine
end

section
/-!
PROOFS. The rows of a micro-op: whatever a matrix or vector micro-op does on its way, it stays the micro-op that it is, and the `PRED_CTL` words of its
CU stay as they are.
-/
namespace Sys2Proof.Machine
open Sys2Proof

/-! ### Which micro-op it is -/

/-- What makes a micro-op at work the one that it is: its place, the verification that it makes, and the configuration that it goes on under. -/
def runId (run : URun) : Nat × Nat × Option Nat × Bool := (run.slot, run.uop, run.ver, run.late)

theorem late_of_runId {r run : URun} (h : runId r = runId run) : r.late = run.late := by
  have h' := congrArg (fun x => x.2.2.2) h
  exact h'

theorem slot_of_runId {r run : URun} (h : runId r = runId run) : r.slot = run.slot := by
  have h' := congrArg (fun x => x.1) h
  exact h'

theorem uop_of_runId {r run : URun} (h : runId r = runId run) : r.uop = run.uop := by
  have h' := congrArg (fun x => x.2.1) h
  exact h'

theorem ver_of_runId {r run : URun} (h : runId r = runId run) : r.ver = run.ver := by
  have h' := congrArg (fun x => x.2.2.1) h
  exact h'

/-- The `PRED_CTL` words of a CU in a state. -/
def predsAt (s : State) (t k : Nat) : SMap W64 := (getCu s t k).pred

theorem predOf_congr {s u : State} {t k : Nat} (h : predsAt u t k = predsAt s t k) (slot uop : Nat) :
    predOf (getCu u t k) slot uop = predOf (getCu s t k) slot uop := by
  unfold predsAt at h
  unfold predOf predWords
  rw [h]

theorem predsAt_of_cus {s u : State} (h : u.cus = s.cus) (t k : Nat) : predsAt u t k = predsAt s t k := congrArg Cu.pred (getCu_congr h t k)

theorem predsAt_of_cuData {s u : State} {t k : Nat} (h : cuData (getCu u t k) = cuData (getCu s t k)) : predsAt u t k = predsAt s t k := by
  have h' := congrArg Cu.pred h
  exact h'

theorem predsAt_modCu {f : Cu → Cu} (hf : ∀ c, (f c).pred = c.pred) (s : State) (t k t' k' : Nat) :
    predsAt (modCu s t k f) t' k' = predsAt s t' k' := getCu_modCu_keeps Cu.pred hf ..

/-! ### The vector stages and the output stage -/

theorem cuData_srcVec {s s' : State} {t k : Nat} {run : URun} {w code : Nat} {p : Pass} {v : Vec} {poi apx : Bool}
    (h : srcVec s t k run w code p = some (v, poi, apx, s')) (t' k' : Nat) : cuData (getCu s' t' k') = cuData (getCu s t' k') := by
  unfold srcVec at h
  split at h
  · obtain ⟨r, hr, h⟩ := Option.map_eq_some_iff.1 h
    cases h
    exact cuData_takeTok hr t' k'
  all_goals cases h; rfl

theorem cuData_runStages {ws : List Nat} {s s' : State} {t k : Nat} {run : URun} {e : RndEnv} {osh : Int} {st : Nat} {taken : Bool} {p p' : Pass}
    (h : runStages ws s t k run e osh st taken p = some (p', s')) (t' k' : Nat) : cuData (getCu s' t' k') = cuData (getCu s t' k') := by
  induction ws generalizing s st taken p with
  | nil => cases h; rfl
  | cons w rest ih =>
    simp only [runStages] at h
    split at h
    · cases h; rfl
    · split at h
      · exact ih h
      · split at h
        · exact ih h
        · split at h
          · cases h
          · next ha =>
            have hab := cuData_srcVec ha t' k'
            split at h
            · cases h
            · next hb =>
              split at hb
              · exact (ih h).trans ((cuData_srcVec hb t' k').trans hab)
              · cases hb
                exact (ih h).trans hab

theorem predsAt_putStrm (s : State) (e : Emit) (x : Strm) (t' k' : Nat) : predsAt (putStrm s e x) t' k' = predsAt s t' k' := by
  unfold putStrm
  split
  · exact predsAt_modCu (by exact fun _ => rfl) ..
  · rfl

theorem pushOut_cus (s : State) (e : Emit) (ks : List Token) : (pushOut s e ks).cus = s.cus := by
  unfold pushOut
  split <;> rfl

theorem predsAt_emitToks (s : State) (e : Emit) (ps : List (Nat × Nat)) (t' k' : Nat) : predsAt (emitToks s e ps) t' k' = predsAt s t' k' := by
  unfold emitToks
  rw [predsAt_of_cus (pushOut_cus ..)]
  exact foldl_keeps (fun a : State × List Token => predsAt a.1 t' k') _ _ _ fun _ _ => predsAt_putStrm ..

theorem predsAt_outputPass (s : State) (t k ostr : Nat) (run : URun) (w : W64 × W64) (e : RndEnv) (p : Pass) (t' k' : Nat) :
    predsAt (outputPass s t k ostr run w e p) t' k' = predsAt s t' k' := by
  unfold outputPass
  split
  · rfl
  · extract_lets em r s1
    refine (predsAt_emitToks ..).trans (predsAt_modCu (fun c => foldl_keeps Cu.pred _ _ c ?_) ..)
    exact fun _ _ => rfl

/-- Beats that pass through the vector program leave the micro-op and the `PRED_CTL` words. -/
theorem sendBeats_keeps {l : List (Nat × Pass)} {s s' : State} {t k : Nat} {run run' : URun} {w : W64 × W64} {ep : EPlace}
    (h : sendBeats l s t k run w ep = some (s', run')) (t' k' : Nat) : runId run' = runId run ∧ predsAt s' t' k' = predsAt s t' k' := by
  induction l generalizing s run with
  | nil => cases h; exact ⟨rfl, rfl⟩
  | cons x rest ih =>
    simp only [sendBeats] at h
    split at h
    · cases h
    · next hr =>
      obtain ⟨hid, hp⟩ := ih h
      refine ⟨hid, hp.trans (.trans ?_ (predsAt_of_cuData (cuData_runStages hr t' k')))⟩
      split
      · rfl
      · split
        · split
          · exact predsAt_outputPass ..
          · rfl
        · exact predsAt_outputPass ..

/-! ### Rows -/

theorem predsAt_shadowRow (s : State) (t k : Nat) (run : URun) (w : W64 × W64) (cyc : Nat) (shadow : List Nat) (t' k' : Nat) :
    predsAt (shadowRow s t k run w cyc shadow).1 t' k' = predsAt s t' k' := by
  unfold shadowRow
  extract_lets s1
  have h1 : predsAt s1 t' k' = predsAt s t' k' := predsAt_modCu (by exact fun _ => rfl) ..
  split
  · rfl
  · split
    · exact (predsAt_of_cus (raiseUnit_cus ..) ..).trans h1
    · exact h1

theorem finishRow_keeps {s s' : State} {t k : Nat} {run run' : URun} {w : W64 × W64} {r : AccRow} {nb : Nat} {fl : MatFault} {ep : EPlace}
    {valid : Option Nat} (h : finishRow s t k run w r nb fl ep valid = some (s', run')) (t' k' : Nat) :
    runId run' = runId run ∧ predsAt s' t' k' = predsAt s t' k' := by
  unfold finishRow at h
  extract_lets c r1 chk skip bad s1 s2 r2 sh s3 poi s4 at h
  have h1 : predsAt s1 t' k' = predsAt s t' k' := by
    unfold s1
    split
    · exact predsAt_modCu (by exact fun _ => rfl) ..
    · rfl
  have h2 : predsAt s2 t' k' = predsAt s t' k' := by
    unfold s2
    split
    · exact (predsAt_of_cus (raiseUnit_cus ..) ..).trans h1
    · exact h1
  have h3 : predsAt s3 t' k' = predsAt s t' k' := (predsAt_shadowRow ..).trans h2
  split at h
  · obtain ⟨z, hz, h⟩ := Option.map_eq_some_iff.1 h
    cases h
    obtain ⟨hid, hp⟩ := sendBeats_keeps hz t' k'
    exact ⟨hid, hp.trans ((predsAt_modCu (by exact fun _ => rfl) ..).trans h3)⟩
  · cases h
    exact ⟨rfl, (predsAt_modCu (by exact fun _ => rfl) ..).trans h3⟩

theorem runId_accumulate (s : State) (t k : Nat) (run : URun) (w : W64 × W64) (a : ARow) (bs : List (WSlot × Nat)) :
    runId (accumulate s t k run w a bs).2.1 = runId run := by
  unfold accumulate
  split <;> rfl

theorem wsRow_keeps (s : State) (t k : Nat) (run : URun) (w : W64 × W64) (fl : MatFault) (ep : EPlace) (t' k' : Nat) :
    runId (wsRow s t k run w fl ep).2.1 = runId run ∧ predsAt (wsRow s t k run w fl ep).1 t' k' = predsAt s t' k' := by
  unfold wsRow
  extract_lets z run1 m bs r
  have hz : predsAt z.2.1 t' k' = predsAt s t' k' := predsAt_of_cuData (cuData_fillA ..)
  split
  · exact ⟨rfl, hz⟩
  · split
    · next y hy =>
      obtain ⟨hid, hp⟩ := finishRow_keeps hy t' k'
      have hr : predsAt r.2.2 t' k' = predsAt z.2.1 t' k' :=
        (predsAt_of_cus (accumulate_cus ..) ..).trans (predsAt_of_cuData (cuData_slotsRead ..))
      exact ⟨hid.trans (runId_accumulate ..), hp.trans (hr.trans hz)⟩
    · exact ⟨rfl, hz⟩

theorem unpackTo_cus (s : State) (t k : Nat) (run : URun) (w : W64 × W64) (kbase : Nat) (b : Fed) : (unpackTo s t k run w kbase b).2.cus = s.cus :=
  raiseSp_cus ..

theorem predsAt_setFeed (s : State) (t k prog : Nat) (l : List FeedBlk) (t' k' : Nat) :
    predsAt (modCu s t k fun c => setFeed c prog l) t' k' = predsAt s t' k' := predsAt_modCu (by exact fun _ => rfl) ..

theorem predsAt_streamBlocks {n : Nat} {s s' : State} {t k : Nat} {run : URun} {w : W64 × W64} {kb : Nat} {acc bs : List (WSlot × Nat)}
    {apx apx' : Bool} (h : streamBlocks n s t k run w kb acc apx = some (bs, apx', s')) (t' k' : Nat) : predsAt s' t' k' = predsAt s t' k' := by
  induction n generalizing s kb acc apx with
  | zero => cases h; rfl
  | succ n ih =>
    simp only [streamBlocks] at h
    split at h
    · cases h; rfl
    · split at h
      · cases h
      · exact (ih h).trans ((predsAt_of_cus (unpackTo_cus ..) ..).trans (predsAt_setFeed ..))

theorem predsAt_tagBlocks {n : Nat} {s s' : State} {t k : Nat} {run : URun} {w : W64 × W64} {prev : Option Nat} {acc bs : List (WSlot × Nat)}
    {bad apx : Bool} (h : tagBlocks n s t k run w prev acc = some (bs, bad, apx, s')) (t' k' : Nat) : predsAt s' t' k' = predsAt s t' k' := by
  induction n generalizing s prev acc bs bad apx with
  | zero => cases h
  | succ n ih =>
    unfold tagBlocks at h
    split at h
    · cases h
    · extract_lets d tg fin nil kb err wrong at h
      split at h
      · cases h
      · extract_lets s1 s2 r acc' at h
        have h2 : predsAt s2 t' k' = predsAt s t' k' := by
          clear_value err wrong
          have h1 : predsAt s1 t' k' = predsAt s t' k' := predsAt_setFeed ..
          cases err with
          | none => exact h1
          | some => exact (predsAt_of_cus (raiseSp_cus ..) ..).trans h1
        have hr : predsAt r.2 t' k' = predsAt s t' k' := (predsAt_of_cus (unpackTo_cus ..) ..).trans h2
        split at h
        · simp only [Option.some.injEq, Prod.mk.injEq] at h
          exact h.2.2.2 ▸ h2
        · obtain ⟨z, hz, h⟩ := Option.map_eq_some_iff.1 h
          cases h
          exact (ih hz).trans h2

theorem streamRow_keeps {s s' : State} {t k : Nat} {run run' : URun} {w : W64 × W64} {fl : MatFault} {ep : EPlace} {b : Bool}
    (h : streamRow s t k run w fl ep = some (s', run', b)) (t' k' : Nat) : runId run' = runId run ∧ predsAt s' t' k' = predsAt s t' k' := by
  unfold streamRow at h
  extract_lets c m a gather at h
  split at h
  · cases h
    exact ⟨rfl, predsAt_setFeed ..⟩
  · obtain ⟨⟨bs, bad, apx, s1⟩, hb, h⟩ := Option.bind_eq_some_iff.1 h
    obtain ⟨z, hz, h⟩ := Option.map_eq_some_iff.1 h
    cases h
    have hm : predsAt m.1 t' k' = predsAt s t' k' := predsAt_of_cuData (cuData_cuMemRead ..)
    have h1 : predsAt s1 t' k' = predsAt s t' k' := by
      split at hb
      · exact (predsAt_tagBlocks hb ..).trans hm
      · obtain ⟨⟨bs1, apx1, s2⟩, hy, h⟩ := Option.map_eq_some_iff.1 hb
        cases h
        exact (predsAt_streamBlocks hy ..).trans hm
    obtain ⟨hid, hp⟩ := finishRow_keeps hz t' k'
    exact ⟨hid.trans (runId_accumulate ..), hp.trans ((predsAt_of_cus (accumulate_cus ..) ..).trans h1)⟩

/-- The rows of a matrix micro-op leave the micro-op that it is, and the `PRED_CTL` words of its CU. -/
theorem matLoop_keeps (n : Nat) (s : State) (t k : Nat) (run : URun) (w : W64 × W64) (fl : MatFault) (ep : EPlace) (t' k' : Nat) :
    runId (matLoop n s t k run w fl ep).2.1 = runId run ∧ predsAt (matLoop n s t k run w fl ep).1 t' k' = predsAt s t' k' := by
  induction n generalizing s run with
  | zero => exact ⟨rfl, rfl⟩
  | succ n ih =>
    simp only [matLoop]
    split
    · exact ⟨rfl, rfl⟩
    · split
      · split
        · exact ⟨rfl, rfl⟩
        · next h => exact streamRow_keeps h t' k'
        · next h =>
          obtain ⟨hid, hp⟩ := streamRow_keeps h t' k'
          exact ⟨(ih _ _).1.trans hid, (ih _ _).2.trans hp⟩
      · obtain ⟨hid, hp⟩ := wsRow_keeps s t k run w fl ep t' k'
        split
        · next h =>
          rw [h] at hid hp
          exact ⟨(ih _ _).1.trans hid, (ih _ _).2.trans hp⟩
        · next h =>
          rw [h] at hid hp
          exact ⟨hid, hp⟩

theorem predsAt_putVhb (s : State) (t k : Nat) (w : W64 × W64) (p : OpPart) (t' k' : Nat) : predsAt (putVhb s t k w p) t' k' = predsAt s t' k' :=
  predsAt_modCu (by exact fun _ => rfl) ..

theorem vhbLoad_keeps (s : State) (t k : Nat) (run : URun) (w : W64 × W64) (t' k' : Nat) :
    runId (vhbLoad s t k run w).2.1 = runId run ∧ predsAt (vhbLoad s t k run w).1 t' k' = predsAt s t' k' := by
  unfold vhbLoad
  extract_lets z dl
  have hz : predsAt z.2.1 t' k' = predsAt s t' k' := predsAt_of_cuData (cuData_fillA ..)
  split
  · exact ⟨rfl, rfl⟩
  · split
    · exact ⟨rfl, rfl⟩
    · split
      · exact ⟨rfl, (predsAt_putVhb ..).trans hz⟩
      · exact ⟨rfl, hz⟩

end Sys2Proof.Machine
end

section
/-!
PROOFS. CUs: contexts start, micro-ops issue, and HALT, LOADX and LOADW do their work (R83 to R86, R90 to R92, R136).
-/
namespace Sys2Proof.Machine
open Sys2Proof

/-! ### What the end of a micro-op leaves -/

/-- What a CU holds of data: its weight slots, accumulators, vector hold buffer and feeds. -/
def cuHeld (c : Cu) : SMap WSlot × SMap AccRow × List Nat × List Nat × Bool × Bool × SMap (List FeedBlk) :=
  (c.slots, c.acc, c.vhb, c.vhbScl, c.vhbPoi, c.vhbApx, c.feed)

theorem cuHeld_of_cuData {c d : Cu} (h : cuData c = cuData d) : cuHeld c = cuHeld d := by
  have h' := congrArg cuHeld h
  exact h'

theorem old_of_cuData {c d : Cu} (h : cuData c = cuData d) : c.old = d.old := by
  have h' := congrArg Cu.old h
  exact h'

theorem lateEnd_old_none {c : Cu} (h : c.old = none) : lateEnd c = c := by simp [lateEnd, h]

theorem lateEnd_issued (c : Cu) : (lateEnd c).issued = c.issued := by
  unfold lateEnd
  split <;> rfl

theorem lateEnd_cuCtx (c : Cu) (slot : Nat) : cuCtx (lateEnd c) slot = cuCtx c slot := by
  unfold lateEnd
  split <;> rfl

theorem endedCu_of_loadw {w : W64 × W64} (h : uOpc w = 3) (c : Cu) (run : URun) (nx : Nat) : endedCu c run w nx = { c with loading := none } :=
  if_pos (by simp [h])

theorem endedCu_held (c : Cu) (run : URun) (w : W64 × W64) (nx : Nat) : cuHeld (endedCu c run w nx) = cuHeld c := by
  unfold endedCu
  split
  · rfl
  · split <;> rfl

theorem endedCu_old (c : Cu) (run : URun) (w : W64 × W64) (nx : Nat) : (endedCu c run w nx).old = c.old := by
  unfold endedCu
  split
  · rfl
  · split <;> rfl

theorem endedCu_issued {w : W64 × W64} (h : uOpc w ≠ 3) (c : Cu) (run : URun) (nx : Nat) : (endedCu c run w nx).issued = none := by
  unfold endedCu
  rw [if_neg (by simpa using h)]
  split <;> rfl

theorem endedCu_cuCtx {w : W64 × W64} (h : uOpc w ≠ 3) (c : Cu) {run : URun} (hv : run.ver = none) (nx : Nat) :
    cuCtx (endedCu c run w nx) run.slot = { cuCtx c run.slot with
      next := nx, running := (cuCtx c run.slot).running && uOpc w != 15, outc := runOutc run } := by
  unfold endedCu
  rw [if_neg (by simpa using h), if_neg (by simp [hv])]
  exact mget_mset_same ..

section
variable {s u : State} {t k : Nat} {run : URun} {w : W64 × W64} {ep : EPlace}

/-- A micro-op that has ended is no longer issued. -/
theorem endUop_issued (hl : run.late = false) (hw : uOpc w ≠ 3) (h : endUop s t k run w ep = some u) : (getCu u t k).issued = none := by
  obtain ⟨s1, c, nx, -, -, -, hu⟩ := endUop_some hl h
  rw [hu, lateEnd_issued, endedCu_issued hw]

/-- A micro-op that is no verification ends with the outcome of its markers (R114); its context goes on at `NEXT` where no predictor word names it,
and HALT ends the program (R91). -/
theorem endUop_cuCtx (hl : run.late = false) (hw : uOpc w ≠ 3) (hv : run.ver = none) (h : endUop s t k run w ep = some u) :
    (cuCtx (getCu u t k) run.slot).outc = runOutc run ∧
      (predOf (getCu s t k) run.slot run.uop = none → (cuCtx (getCu u t k) run.slot).next = uNext w) ∧
      (uOpc w = 15 → (cuCtx (getCu u t k) run.slot).running = false) := by
  obtain ⟨s1, c, nx, -, -, hp, hu⟩ := endUop_some hl h
  rw [hu, lateEnd_cuCtx, endedCu_cuCtx hw c hv]
  exact ⟨rfl, hp, fun h15 => by simp [h15]⟩

/-- The end of a micro-op that sends nothing more keeps what its CU holds, where no COMMIT wave waits for the end. -/
theorem endUop_held (hl : run.late = false) (ht : sendsTopk w = false) (ho : (getCu s t k).old = none) (h : endUop s t k run w ep = some u) :
    cuHeld (getCu u t k) = cuHeld (getCu s t k) := by
  obtain ⟨s1, c, nx, hs, hd, -, hu⟩ := endUop_some hl h
  rw [hs ht] at hd
  have hco : (endedCu c run w nx).old = none := by rw [endedCu_old, old_of_cuData hd, ho]
  rw [hu, lateEnd_old_none hco, endedCu_held, cuHeld_of_cuData hd]

theorem endUop_loading (hl : run.late = false) (hw : uOpc w = 3) (ho : (getCu s t k).old = none) (h : endUop s t k run w ep = some u) :
    (getCu u t k).loading = none := by
  obtain ⟨s1, c, nx, hs, hd, -, hu⟩ := endUop_some hl h
  rw [hs (by simp [sendsTopk, hw])] at hd
  have hco : (endedCu c run w nx).old = none := by rw [endedCu_old, old_of_cuData hd, ho]
  rw [hu, lateEnd_old_none hco, endedCu_of_loadw hw]

theorem endOr_of_endUop (h : endUop s t k run w ep = some u) : endOr s t k run w ep = u := by
  unfold endOr
  rw [h]

end

theorem runUop_late {run : URun} (h : run.late = false) (c : Cu) : runUop c run = uopAt c run.slot run.uop := by
  unfold runUop
  rw [cuOf_late h]

/-! ### A context starts (R91) -/

theorem bits_entry (n : Nat) : bits n 30 6 = n / 2 ^ 30 % 64 := by
  rw [bits, Nat.shiftRight_eq_div_pow]
  rfl

/-- The running state of a context that begins at its entry micro-op with the start token `head`. -/
def startedCtx (x : CuCtx) (entry : Nat) (head : Option Token) : CuCtx :=
  { x with running := true, next := entry, startTag := (head.map (·.tag)).getD 0, count := (x.count + 1) % 2 ^ 32 }

/-- A context whose start token is there starts at its entry (R91, assumption 29). -/
theorem execCuContextStart_starts (s : State) (t : TileId) (k : CuIx) (h : unitRuns s t = true) :
    let c := getCu s t k
    let f := getFlow s t (48 + k.val)
    let slot := curSlot f
    let entry := bits (cuCfg c slot) 30 6
    let w := uopAt c slot entry
    let head := (uopQueues c slot w).findSome? (headTok f)
    (cuCtx c slot).running = false → uOpc w ≠ 0 → c.old = none → (f.foldReq = false ∨ c.acc ≠ []) → (uopQueues c slot w ≠ [] → head ≠ none) →
    ∃ u, exec (.cuContextStart t k) s = .next u ∧
      onlyCu s u t k { c with ctxs := mset CuCtx.idle c.ctxs slot (startedCtx (cuCtx c slot) entry head) } := by
  dsimp only
  intro hrun hopc hold hfold hq
  refine ⟨_, if_neg ?_, onlyCu_setCu s t k _ k.isLt⟩
  have hf : ((getFlow s t (48 + k.val)).foldReq && (getCu s t k).acc.isEmpty) = false := by
    rcases hfold with hf | ha
    · rw [hf]
      rfl
    · simp [ha]
  simp only [Bool.or_eq_true, not_or, Bool.not_eq_true, beq_eq_false_iff_ne]
  refine ⟨⟨⟨⟨⟨by rw [h]; rfl, hrun⟩, hopc⟩, by rw [hold]; rfl⟩, hf⟩, ?_⟩
  simp only [Bool.and_eq_false_imp, Bool.not_eq_true', List.isEmpty_eq_false_iff, Option.isNone_eq_false_iff]
  exact fun he => Option.isSome_iff_ne_none.2 (hq he)

/-! ### A micro-op issues (R84, R92, R136) -/

/-- A CU in which micro-op `w` has been issued as `run`: a LOADW goes on beside what follows it (R84). -/
def issuedCu (c : Cu) (run : URun) (w : W64 × W64) : Cu :=
  if uOpc w == 3 then setCtx { c with rot := ofBit run.ver.isSome, loading := some run } run.slot { cuCtx c run.slot with next := uNext w }
  else { c with rot := ofBit run.ver.isSome, issued := some run }

theorem issuedCu_of_loadw {w : W64 × W64} (h : uOpc w = 3) (c : Cu) (run : URun) :
    issuedCu c run w = setCtx { c with rot := ofBit run.ver.isSome, loading := some run } run.slot { cuCtx c run.slot with next := uNext w } :=
  if_pos (by simp [h])

theorem issuedCu_of_other {w : W64 × W64} (h : uOpc w ≠ 3) (c : Cu) (run : URun) :
    issuedCu c run w = { c with rot := ofBit run.ver.isSome, issued := some run } := if_neg (by simpa using h)

theorem issueUop_getCu (s : State) (t k : Nat) (run : URun) :
    getCu (issueUop s t k run) t k = issuedCu (getCu s t k) run (uopAt (getCu s t k) run.slot run.uop) := by
  unfold issueUop
  rw [getCu_congr (traceEv_cus ..), modCu_eq, getCu_setCu_same]
  rfl

/-- Issuing touches the CU; a traced event may send packets. -/
theorem issueUop_frame (s : State) (t k : Nat) (run : URun) :
    { issueUop s t k run with cus := s.cus, net := s.net, trace := s.trace, inc := s.inc } = s := by
  unfold issueUop
  extract_lets s1
  have h := frame_of_besideTraffic (besideTraffic_traceEv s1 t utCu k 1 (uopDet s1 t run.uop (getFlow s1 t (48 + k)).curFold))
  have h' := congrArg (fun v : State => { v with cus := s.cus }) h
  exact h'

/-- The ready micro-op of a running context is issued where no verification waits; a matrix micro-op in an issue cycle only (R92, R556). -/
theorem execMicroOpIssue_ready (s : State) (t : TileId) (k : CuIx) (h : unitRuns s t = true) :
    let c := getCu s t k
    let f := getFlow s t (48 + k.val)
    let slot := curSlot f
    let x := cuCtx c slot
    let w := uopAt c slot x.next
    c.issued = none → c.old = none → f.foldReq = false → verWaiting s t k slot = none → x.running = true → uopReady c f slot w = true →
    slotsAwaited c w = false → ((uOpc w = 1 ∨ uOpc w = 3) → issueOpen s t = true) →
    exec (.microOpIssue t k) s =
      .next (issueUop s t k (runBegin s t k slot x.next ((uopQueues c slot w).findSome? (headTok f) |>.map (·.tag) |>.getD x.startTag) none)) := by
  dsimp only
  intro hi ho hf hv hr hw ha hopen
  show execMicroOpIssue t k s = _
  unfold execMicroOpIssue
  simp only [h, hi, ho, hf, Bool.not_true, Option.isSome_none, Bool.or_self, Bool.false_and, Bool.false_eq_true, if_false, hv, hr, hw, ha,
    Bool.not_false, Bool.and_self]
  refine if_neg ?_
  simpa using hopen

/-- Of a waiting verification and a micro-op that is not ready or comes after it by `PRIO`, the verification is issued (R92, R136). -/
theorem execMicroOpIssue_ver (s : State) (t : TileId) (k : CuIx) (h : unitRuns s t = true) :
    let c := getCu s t k
    let f := getFlow s t (48 + k.val)
    let slot := curSlot f
    let x := cuCtx c slot
    let w := uopAt c slot x.next
    c.issued = none → c.old = none → f.foldReq = false → ∀ e, verWaiting s t k slot = some e → issueOpen s t = true →
    (x.running = false ∨ uopReady c f slot w = false ∨ uPrio (uopAt c slot (prVuop e.2)) < uPrio w) →
    exec (.microOpIssue t k) s = .next (issueUop (takeVer s t k slot e) t k (runBegin s t k slot (prVuop e.2) 0 (some e.1))) := by
  dsimp only
  intro hi ho hf e hv hopen hprio
  show execMicroOpIssue t k s = _
  unfold execMicroOpIssue
  extract_lets c u f slot x w stall s0 go pace first
  have hs0 : s0 = s := if_neg (by simp [f, u, hf])
  have hgo : (go && (decide (uPrio w < uPrio (uopAt c slot (prVuop e.2))) || uPrio w == uPrio (uopAt c slot (prVuop e.2)) && c.rot == 1)) = false := by
    obtain hr | hw | hp := hprio
    · rw [show go = (x.running && uopReady c f slot w && !slotsAwaited c w) from rfl, show x.running = false from hr]
      rfl
    · rw [show go = (x.running && uopReady c f slot w && !slotsAwaited c w) from rfl, show uopReady c f slot w = false from hw]
      simp
    · have hp : uPrio (uopAt c slot (prVuop e.2)) < uPrio w := hp
      simp [Nat.not_lt.2 hp.le, hp.ne']
  have hfirst : first = some e := by
    unfold first
    rw [hs0, show verWaiting s t k slot = some e from hv]
    exact if_neg (by rw [hgo]; simp)
  rw [if_neg (by simp [c, h, hi, ho]), if_neg (by simp [f, u, hf]), hfirst, hs0]
  exact if_neg (by simp [hopen])

theorem takeVer_uopAt (s : State) (t k slot : Nat) (e : Nat × W64) (sl i : Nat) :
    uopAt (getCu (takeVer s t k slot e) t k) sl i = uopAt (getCu s t k) sl i := by
  suffices h : (getCu (takeVer s t k slot e) t k).uops = (getCu s t k).uops by rw [uopAt, uopAt, h]
  unfold takeVer
  extract_lets c w m p rg
  split
  · rfl
  · split
    · rfl
    · next hf =>
      refine (getCu_modCu_keeps Cu.uops (by exact fun _ => rfl) ..).trans ?_
      exact congrArg Cu.uops (getCu_congr (ringFetch_cus hf) t k)

/-! ### HALT, LOADX and LOADW -/

/-- HALT ends the program of its context (R91). -/
theorem execUopHalt_ends (s : State) (t : TileId) (k : CuIx) (run : URun) (hi : (getCu s t k).issued = some run) (hm : cuMoves s t = true)
    (hv : run.ver = none) (hl : run.late = false) (hw : uOpc (uopAt (getCu s t k) run.slot run.uop) = 15) :
    ∃ u, exec (.uopHalt t k) s = .next u ∧ (getCu u t k).issued = none ∧ (cuCtx (getCu u t k) run.slot).running = false := by
  obtain ⟨u, hu⟩ := endUop_isSome s t k run EPlace.none (w := uopAt (getCu s t k) run.slot run.uop) (by simp [sendsTopk, hw])
  refine ⟨u, ?_, endUop_issued hl (by simp [hw]) hu, (endUop_cuCtx hl (by simp [hw]) hv hu).2.2 hw⟩
  show execUopHalt t k s = _
  unfold execUopHalt
  simp only [hi, runUop_late hl, hw, hm, endOr_of_endUop hu]
  rfl

theorem cuHeld_putVhb (s : State) (t k : Nat) (w : W64 × W64) (p : OpPart) :
    cuHeld (getCu (putVhb s t k w p) t k) =
      ((getCu s t k).slots, (getCu s t k).acc, p.el.take (uK w), p.scl, p.poi, p.apx, (getCu s t k).feed) := by
  unfold putVhb
  rw [modCu_eq, getCu_setCu_same]
  rfl

theorem putVhb_old (s : State) (t k : Nat) (w : W64 × W64) (p : OpPart) : (getCu (putVhb s t k w p) t k).old = (getCu s t k).old :=
  getCu_modCu_keeps Cu.old (by exact fun _ => rfl) ..

/-- LOADX leaves the elements taken, with their scales and markers, in the vector hold buffer and ends (R86). -/
theorem execLoadx_ends {s s' : State} {t : TileId} {k : CuIx} {run : URun} {p : OpPart} {w : W64 × W64} (hi : (getCu s t k).issued = some run)
    (hm : cuMoves s t = true) (hl : run.late = false) (ho : (getCu s t k).old = none) (he : uopAt (getCu s t k) run.slot run.uop = w)
    (hw : uOpc w = 4) (hf : fillA s t (48 + k.val) w run.part = (p, s', true)) :
    ∃ u, exec (.loadx t k) s = .next u ∧ (getCu u t k).issued = none ∧ cuHeld (getCu u t k) =
      ((getCu s t k).slots, (getCu s t k).acc, p.el.take (uK w), p.scl, p.poi, p.apx, (getCu s t k).feed) := by
  have hd : cuData (getCu s' t k) = cuData (getCu s t k) := by
    have h := cuData_fillA s t (48 + k.val) w run.part t k
    rwa [hf] at h
  have ht : sendsTopk w = false := by simp [sendsTopk, hw]
  have hold : (getCu (putVhb s' t k w p) t k).old = none := by rw [putVhb_old, old_of_cuData hd, ho]
  obtain ⟨u, hu⟩ := endUop_isSome (putVhb s' t k w p) t k
    { run with part := p, tag := p.tag.getD run.tag, poi := run.poi || p.poi, apx := run.apx || p.apx } EPlace.none ht
  refine ⟨u, ?_, endUop_issued (by exact hl) (by simp [hw]) hu, ?_⟩
  · show execLoadx t k s = _
    unfold execLoadx
    simp only [hi, runUop_late hl, he, hw, hm, hf]
    exact congrArg Host.Outcome.next (endOr_of_endUop hu)
  · have hh := cuHeld_of_cuData hd
    simp only [cuHeld, Prod.mk.injEq] at hh
    obtain ⟨hslots, hacc, -, -, -, -, hfeed⟩ := hh
    rw [endUop_held (by exact hl) ht hold hu, cuHeld_putVhb, hslots, hacc, hfeed]

/-- A block of a LOADW in plain form, with its format errors; `use` is what it is for: depth, K and K position (assumption 110). -/
def unpackedFor (w : W64 × W64) (use : Nat × Nat × Nat) (b : Fed) : List (List (Nat × Nat)) × List Nat × List SpErr :=
  unpackBlock (uWfmt w) use.1 (uSpat w) (uSclw w) use.2.1 use.2.2 (leNat b.bytes)

/-- The block in resident form (R83, R121). -/
def loadedSlot (w : W64 × W64) (use : Nat × Nat × Nat) (b : Fed) : WSlot :=
  mkSlot (uWfmt w) use.1 (uSpat w) (uSclw w) (unpackedFor w use b).1 (unpackedFor w use b).2.1 (b.poi || !(unpackedFor w use b).2.2.isEmpty) b.pcols

/-- A CU in which slot `i` has been written with `x`, and the feed of program `prog` has come to `rest`. -/
def slotPut (c : Cu) (i prog : Nat) (rest : List FeedBlk) (x : WSlot) : Cu :=
  { setFeed (cuMemPut (cuMemPut c (16 + i)) (32 + i)) prog rest with slots := mset WSlot.empty c.slots i x }

/-- The last slot of a LOADW takes its block from the feed, and the LOADW has gone through its slots. -/
theorem loadSlots_last {s : State} {t k : Nat} {run : URun} {w : W64 × W64} {i : Nat} {use : Nat × Nat × Nat} {b : Fed} {rest : List FeedBlk}
    (hi : uSlot w + run.row = i) (huse : slotUse (getCu s t k) run w i = use) (hr : slotRead (getCu s t k) i = false)
    (hf : feedTake (cuFeed (getCu s t k) (uAgp w)) (blkBytes (uWfmt w) use.1 (uSpat w) (uSclw w)) Fed.none = some (b, rest)) :
    loadSlots 1 s t k run w =
      (modCu (raiseSp s t k run w (unpackedFor w use b).2.2) t k fun c => slotPut c i (uAgp w) rest (loadedSlot w use b),
        { run with row := run.row + 1, poi := run.poi || (loadedSlot w use b).poi, apx := run.apx || b.apx }, true) := by
  simp only [loadSlots, hi, huse, hr, hf]
  rfl

/-- The LOADW of one slot more writes that slot with the block that it takes from the feed, and no other, and ends (R83, R84). -/
theorem execLoadw_ends {s : State} {t : TileId} {k : CuIx} {run : URun} {w : W64 × W64} {i : Nat} {use : Nat × Nat × Nat} {b : Fed}
    {rest : List FeedBlk} (hl1 : (getCu s t k).loading = some run) (hm : cuMoves s t = true) (hl : run.late = false)
    (ho : (getCu s t k).old = none) (he : uopAt (getCu s t k) run.slot run.uop = w) (hw : uOpc w = 3) (hrow : run.row = w.2.toNat % 16)
    (hi : uSlot w + run.row = i) (huse : slotUse (getCu s t k) run w i = use) (hr : slotRead (getCu s t k) i = false)
    (hf : feedTake (cuFeed (getCu s t k) (uAgp w)) (blkBytes (uWfmt w) use.1 (uSpat w) (uSclw w)) Fed.none = some (b, rest)) :
    ∃ u, exec (.loadw t k) s = .next u ∧ (getCu u t k).loading = none ∧
      cuHeld (getCu u t k) = cuHeld (slotPut (getCu s t k) i (uAgp w) rest (loadedSlot w use b)) := by
  have hload := loadSlots_last hi huse hr hf
  have ht : sendsTopk w = false := by simp [sendsTopk, hw]
  have hn : bits w.2.toNat 0 4 + 1 - run.row = 1 := by
    rw [hrow]
    simp [bits]
  let v := modCu (raiseSp s t k run w (unpackedFor w use b).2.2) t k fun c => slotPut c i (uAgp w) rest (loadedSlot w use b)
  have hput : getCu v t k = slotPut (getCu s t k) i (uAgp w) rest (loadedSlot w use b) := by
    unfold v
    rw [modCu_eq, getCu_setCu_same, getCu_congr (raiseSp_cus ..)]
  have hold : (getCu v t k).old = none := by
    rw [hput]
    exact ho
  obtain ⟨u, hu⟩ := endUop_isSome v t k
    { run with row := run.row + 1, poi := run.poi || (loadedSlot w use b).poi, apx := run.apx || b.apx } EPlace.none ht
  refine ⟨u, ?_, endUop_loading (by exact hl) hw hold hu, ?_⟩
  · show execLoadw t k s = _
    unfold execLoadw
    simp only [hl1, runUop_late hl, he, hw, hm, hn, hload]
    exact congrArg Host.Outcome.next (endOr_of_endUop hu)
  · rw [endUop_held (by exact hl) ht hold hu, hput]

/-- Settles O13: each clause is the lemma above about its command. -/
theorem cuContextsIssueAndLoads : Obligations.CuContextsIssueAndLoads := by
  unfold Obligations.CuContextsIssueAndLoads
  refine ⟨fun s t k h => ?_, fun s t k h => ?_, execUopHalt_ends, ?_, ?_⟩
  · have hstart := execCuContextStart_starts s t k h
    simp only [bits_entry] at hstart
    exact hstart
  · intro c f slot x w hi ho hf
    refine ⟨fun hv hr hw ha hopen => ?_, fun e hv hopen hopc hprio => ?_⟩
    · let tag := (uopQueues c slot w).findSome? (headTok f) |>.map (·.tag) |>.getD x.startTag
      refine ⟨_, runBegin s t k slot x.next tag none, execMicroOpIssue_ready s t k h hi ho hf hv hr hw ha hopen, rfl, rfl, rfl, rfl, rfl, rfl, rfl, rfl, fun h3 => ?_, fun h3 => ?_,
        issueUop_frame ..⟩
      · exact (issueUop_getCu ..).trans (issuedCu_of_other h3 ..)
      · exact (issueUop_getCu ..).trans (issuedCu_of_loadw h3 ..)
    · refine ⟨_, runBegin s t k slot (prVuop e.2) 0 (some e.1), execMicroOpIssue_ver s t k h hi ho hf e hv hopen hprio, ?_, rfl, rfl, rfl⟩
      have h3 : uOpc (uopAt c slot (prVuop e.2)) ≠ 3 := by
        rw [hopc]
        decide
      rw [issueUop_getCu, takeVer_uopAt]
      exact congrArg Cu.issued (issuedCu_of_other h3 ..)
  · intro s s' t k run p hi hm hl ho w hw hf
    obtain ⟨u, hu, hni, hh⟩ := execLoadx_ends hi hm hl ho rfl hw hf
    simp only [cuHeld, Prod.mk.injEq] at hh
    obtain ⟨hslots, hacc, hvhb, hscl, hpoi, hapx, -⟩ := hh
    exact ⟨u, hu, hni, hvhb, hscl, hpoi, hapx, hslots, hacc⟩
  · intro s t k run b rest hl1 hm hl ho c w i use d hw hrow hr hf
    obtain ⟨u, hu, hnl, hh⟩ := execLoadw_ends hl1 hm hl ho rfl hw hrow rfl rfl hr hf
    simp only [cuHeld, slotPut, setFeed, Prod.mk.injEq] at hh
    obtain ⟨hslots, hacc, hvhb, -, -, -, hfeed⟩ := hh
    refine ⟨u, hu, hnl, ?_, ?_, fun j hj => ?_, hacc, hvhb⟩
    · rw [cuFeed, hfeed, mget_mset_same]
    · rw [hslots]
      exact mget_mset_same ..
    · rw [hslots]
      exact mget_mset_other _ _ _ _ _ hj

end Sys2Proof.Machine
end

section
/-!
PROOFS. CUs: MATMUL and VECTOR work through their rows and end (R86, R87, R89, R91, R114, R139).
-/
namespace Sys2Proof.Machine
open Sys2Proof

/-! ### A micro-op that waits for an input -/

theorem getFlow_modFlow_keeps {β : Type} (π : Flow → β) {g : Flow → Flow} (hg : ∀ f, π (g f) = π f) (s : State) (t u t' u' : Nat) :
    π (getFlow (modFlow s t u g) t' u') = π (getFlow s t' u') := by
  unfold modFlow setFlow getFlow
  simp only [mget_mset]
  split
  · next h => rw [h, hg]
  · rfl

/-- A queue that counts a stall leaves what `π` reads of the units' flows, if that is not their queues. -/
theorem getFlow_qStall {β : Type} (π : Flow → β) (hπ : ∀ f q x, π (setQ f q x) = π f) (s : State) (a cause t' u' : Nat) :
    π (getFlow (qStall s a cause) t' u') = π (getFlow s t' u') := by
  unfold qStall
  split
  · rfl
  · split
    · rfl
    · exact getFlow_modFlow_keeps π (fun _ => hπ ..) ..

theorem getFlow_congr {s u : State} (h : u.flows = s.flows) (t n : Nat) : getFlow u t n = getFlow s t n :=
  congrArg (fun m => mget Flow.reset m (ukey t n)) h

/-- A unit that counts a stall: its own counter rises, and nothing else of its flow changes. -/
theorem getFlow_unitStall (s : State) (t u cause : Nat) : getFlow (unitStall s t u cause) t u = flStall (getFlow s t u) cause 1 := by
  unfold unitStall
  rw [getFlow_congr (traceEv_flows ..), modFlow_eq, getFlow_setFlow_same]

/-- A unit that waits for an input whose feeders are not fenced counts the cycle under input empty (Table 8.14). -/
theorem inStall_stInput {s : State} {t u q : Nat} (h : feederFenced s (qaMake t u q) = false) :
    mget 0 (getFlow (inStall s t u q) t u).stall stInput = satAdd 48 (mget 0 (getFlow s t u).stall stInput) 1 := by
  have hs : (getFlow (inStall s t u q) t u).stall = (getFlow (unitStall s t u stInput) t u).stall := by
    unfold inStall
    simp only [h, Bool.false_eq_true, if_false]
    split
    · exact getFlow_qStall Flow.stall (fun _ _ _ => by rfl) ..
    · rfl
  rw [hs, getFlow_unitStall]
  exact mget_mset_same ..

section
variable {s : State} {t k : Nat} {run : URun}

theorem runWait_eq (h : run.late = false) (w : W64 × W64) (ep : EPlace) :
    runWait s t k run w ep = inStall (putRun s t k run) t (48 + k) (uInq w) := if_neg (by simp [h])

/-- A micro-op that waits keeps its place. -/
theorem runWait_getCu (h : run.late = false) (w : W64 × W64) (ep : EPlace) :
    getCu (runWait s t k run w ep) t k = { getCu s t k with issued := some run } := by
  rw [runWait_eq h, getCu_congr (inStall_cus ..), putRun, modCu_eq, getCu_setCu_same]

end

/-! ### The last row of a weight-stationary MATMUL (R89) -/

theorem shadowRow_getCu (s : State) (t : Nat) {k : Nat} (hk : k < 2) (run : URun) (w : W64 × W64) (cyc : Nat) (shadow : List Nat) :
    getCu (shadowRow s t k run w cyc shadow).1 t k = getCu s t k := by
  unfold shadowRow
  extract_lets s1
  have h1 : getCu s1 t k = getCu s t k := getCu_setCu_other s t (1 - k) t k _ (by omega) hk (by omega)
  split
  · rfl
  · split
    · exact (getCu_congr (raiseUnit_cus ..) ..).trans h1
    · exact h1

/-- A row is put in its bank of accumulators. -/
def rowPut (s : State) (t k row : Nat) (r : AccRow) : State := modCu s t k fun c => { c with acc := mput c.acc row r }

theorem shadowRow_nil (s : State) (t k : Nat) (run : URun) (w : W64 × W64) (cyc : Nat) : (shadowRow s t k run w cyc []).2 = false := by
  unfold shadowRow
  split <;> rfl

/-- A row that meets no upset and is not checked stays in its bank with `AOUT` = 0, and the micro-op goes on to the next row. -/
theorem finishRow_stays {s : State} {t k : Nat} {run : URun} {w : W64 × W64} (ha : uAout w = false)
    (hc : bit (cuCfg (cuOf (getCu s t k) run) run.slot) 4 = false) (r : AccRow) (nb : Nat) (ep : EPlace) :
    finishRow s t k run w r nb ⟨[], []⟩ ep none =
      some (rowPut (shadowRow s t k run w (rowCycles w nb) []).1 t k run.row r,
        { run with row := run.row + 1, poi := run.poi || (r.poi || r.xp.any (·.poi)), apx := run.apx || r.apx }) := by
  unfold finishRow
  simp only [hc, ha, shadowRow_nil, Bool.and_false, Bool.false_and, Bool.or_false, Bool.false_eq_true, if_false]
  rfl

theorem accumulate_row (s : State) (t k : Nat) (run : URun) (w : W64 × W64) (a : ARow) (bs : List (WSlot × Nat)) :
    (accumulate s t k run w a bs).2.1.row = run.row := by
  unfold accumulate
  split <;> rfl

/-- The row that a weight-stationary MATMUL accumulates of operand `p` over the resident blocks; `s1` is the state after the operand was taken. -/
def wsAccRow (s1 : State) (t k : Nat) (run : URun) (w : W64 × W64) (p : OpPart) : AccRow :=
  (accumulate (slotsRead s1 t k w).1 t k { run with part := p, tag := p.tag.getD 0 } w (partRow w p) (slotsRead s1 t k w).2).1

theorem cfg_of_cuData {c d : Cu} (h : cuData c = cuData d) (slot : Nat) : cuCfg c slot = cuCfg d slot := by
  have h' := congrArg (fun c : Cu => cuCfg c slot) h
  exact h'

/-- A row whose operand is whole leaves its sum in the bank; nothing else of the data of its CU has changed. -/
theorem wsRow_stays {s s1 : State} {t k : Nat} {run : URun} {w : W64 × W64} {p : OpPart} (ep : EPlace) (hk : k < 2) (hl : run.late = false)
    (ha : uAout w = false) (hc : bit (cuCfg (getCu s t k) run.slot) 4 = false) (hf : fillA s t (48 + k) w run.part = (p, s1, true)) :
    ∃ v r, wsRow s t k run w ⟨[], []⟩ ep = (v, r, true) ∧ r.row = run.row + 1 ∧ runId r = runId run ∧
      cuData (getCu v t k) = cuData { getCu s t k with acc := mput (getCu s t k).acc run.row (wsAccRow s1 t k run w p) } := by
  have h1 : cuData (getCu s1 t k) = cuData (getCu s t k) := by
    have h := cuData_fillA s t (48 + k) w run.part t k
    rwa [hf] at h
  let run1 : URun := { run with part := p, tag := p.tag.getD 0 }
  let m := slotsRead s1 t k w
  let r := accumulate m.1 t k run1 w (partRow w p) m.2
  have h2 : cuData (getCu r.2.2 t k) = cuData (getCu s t k) := by
    rw [getCu_congr (accumulate_cus ..)]
    exact (cuData_slotsRead ..).trans h1
  have hid : runId r.2.1 = runId run := runId_accumulate ..
  have hc2 : bit (cuCfg (cuOf (getCu r.2.2 t k) r.2.1) r.2.1.slot) 4 = false := by
    rw [cuOf_late ((late_of_runId hid).trans hl), slot_of_runId hid, cfg_of_cuData h2, hc]
  have hfin := finishRow_stays ha hc2 r.1 m.2.length ep
  have hr : r.2.1.row = run.row := accumulate_row ..
  refine ⟨rowPut (shadowRow r.2.2 t k r.2.1 w (rowCycles w m.2.length) []).1 t k r.2.1.row r.1,
    { r.2.1 with row := r.2.1.row + 1, poi := r.2.1.poi || (r.1.poi || r.1.xp.any (·.poi)), apx := r.2.1.apx || r.1.apx, part := OpPart.empty }, ?_, congrArg (· + 1) hr, hid, ?_⟩
  · unfold wsRow
    simp only [hf, Bool.not_true, Bool.false_eq_true, if_false]
    rw [hfin]
  · rw [rowPut, modCu_eq, getCu_setCu_same, shadowRow_getCu _ _ hk, hr]
    have hacc := congrArg (fun c : Cu => { c with acc := mput c.acc run.row r.1 }) h2
    exact hacc

theorem matLoop_done {n : Nat} {s : State} {t k : Nat} {run : URun} {w : W64 × W64} (fl : MatFault) (ep : EPlace) (hm : uMode w = 0)
    (h : uRows w ≤ run.row) : matLoop (n + 1) s t k run w fl ep = (s, run, true) := by
  rw [matLoop]
  exact if_pos (by simp [hm, h])

theorem matLoop_row {n : Nat} {s v : State} {t k : Nat} {run r : URun} {w : W64 × W64} {fl : MatFault} {ep : EPlace} (hm : uMode w = 0)
    (h : run.row < uRows w) (hr : wsRow s t k run w fl ep = (v, r, true)) :
    matLoop (n + 1) s t k run w fl ep = matLoop n v t k r w fl ep := by
  rw [matLoop, if_neg (by simp [hm, h]), if_neg (by simp [hm]), hr]

/-! ### MATMUL as a command (R87, R115, R556) -/

theorem vhbLoad_stationary {w : W64 × W64} (h : uMode w = 0) (s : State) (t k : Nat) (run : URun) : vhbLoad s t k run w = (s, run, true) :=
  if_pos (by simp [h])

theorem exists_next_ite {p : Prop} [Decidable p] {a b : Out} (ha : ∃ u, a = .next u) (hb : ∃ u, b = .next u) :
    ∃ u, (if p then a else b) = .next u := by
  split
  · exact ha
  · exact hb

/-- A MATMUL answers a next state. -/
theorem execMatmul_next (t : TileId) (k : CuIx) (fl : MatFault) (ep : EPlace) (s : State) : ∃ u, exec (.matmul t k fl ep) s = .next u := by
  show ∃ u, execMatmul t k fl ep s = .next u
  unfold execMatmul
  extract_lets c
  split
  · exact ⟨_, rfl⟩
  · extract_lets w z s1 run1 gather
    refine exists_next_ite ⟨_, rfl⟩ (exists_next_ite ⟨_, rfl⟩ (exists_next_ite ⟨_, rfl⟩ (exists_next_ite ⟨_, rfl⟩ (exists_next_ite ⟨_, rfl⟩ ?_))))
    extract_lets
    exact exists_next_ite ⟨_, rfl⟩ ⟨_, rfl⟩

section
variable {s : State} {t : TileId} {k : CuIx} {run : URun} {w : W64 × W64} (hi : (getCu s t k).issued = some run) (hm : cuMoves s t = true)
  (hl : run.late = false) (he : uopAt (getCu s t k) run.slot run.uop = w) (ho : (getFlow s t (48 + k.val)).out = [])

section
variable (hw : uOpc w = 1) (hopen : issueOpen s t = true) (fl : MatFault) (ep : EPlace)
include hi hm hl he ho hw hopen

/-- A MATMUL whose vector hold buffer is not as it needs it waits. -/
theorem execMatmul_unloaded {v : State} {r : URun} (hz : vhbLoad s t k run w = (v, r, false)) :
    exec (.matmul t k fl ep) s = .next (runWait v t k r w ep) := by
  show execMatmul t k fl ep s = _
  unfold execMatmul
  simp only [hi, runUop_late hl, he, hw, hm, ho, hopen, hz]
  rfl

/-- A MATMUL that does not gather goes through its rows and ends, or waits for what it lacks. -/
theorem execMatmul_rows {s1 v : State} {run1 r : URun} {done : Bool} (hz : vhbLoad s t k run w = (s1, run1, true))
    (hg : (uMode w == 1 && isGather s1 t k run1 w) = false) (hr : matLoop (uRows w + 70000) s1 t k run1 w fl ep = (v, r, done)) :
    exec (.matmul t k fl ep) s = .next (if done then endOr v t k r w ep else runWait v t k r w ep) := by
  show execMatmul t k fl ep s = _
  unfold execMatmul
  simp only [hi, runUop_late hl, he, hw, hm, ho, hopen, hz, hg, Bool.false_and, Bool.false_eq_true, if_false, hr]
  exact (apply_ite Host.Outcome.next ..).symm

/-- The last row of a weight-stationary MATMUL with `AOUT` = 0 leaves the accumulated row in its bank and ends the micro-op (R89). -/
theorem execMatmul_lastRow {s1 : State} {p : OpPart} (hold : (getCu s t k).old = none) (hmode : uMode w = 0) (ha : uAout w = false)
    (hrow : run.row + 1 = uRows w) (hc : bit (cuCfg (getCu s t k) run.slot) 4 = false) (hf : fillA s t (48 + k.val) w run.part = (p, s1, true)) :
    ∃ u, exec (.matmul t k ⟨[], []⟩ ep) s = .next u ∧ (getCu u t k).issued = none ∧
      (getCu u t k).acc = mput (getCu s t k).acc run.row (wsAccRow s1 t k run w p) ∧
      (getCu u t k).slots = (getCu s t k).slots ∧ (getCu u t k).vhb = (getCu s t k).vhb := by
  obtain ⟨v, r, hws, hr, hid, hv⟩ := wsRow_stays ep k.isLt hl ha hc hf
  have hloop : matLoop (uRows w + 70000) s t k run w ⟨[], []⟩ ep = (v, r, true) := by
    rw [matLoop_row hmode (by omega) hws, matLoop_done _ _ hmode (by omega)]
  have ht : sendsTopk w = false := by simp [sendsTopk, hw, ha]
  have hrl := (late_of_runId hid).trans hl
  obtain ⟨u, hu⟩ := endUop_isSome v t k r ep ht
  have hh := (endUop_held hrl ht ((old_of_cuData hv).trans hold) hu).trans (cuHeld_of_cuData hv)
  simp only [cuHeld, Prod.mk.injEq] at hh
  obtain ⟨hslots, hacc, hvhb, -⟩ := hh
  refine ⟨u, ?_, endUop_issued hrl (by omega) hu, hacc, hslots, hvhb⟩
  rw [execMatmul_rows hi hm hl he ho hw hopen _ ep (vhbLoad_stationary hmode s t k run) (by simp [hmode]) hloop]
  exact congrArg Host.Outcome.next (endOr_of_endUop hu)

/-- A MATMUL that does not gather and has gone through its rows ends with the outcome of its markers; one that lacks an operand keeps its place
(R87, R91, R114). -/
theorem execMatmul_ends {s1 v : State} {run1 r : URun} {done : Bool} (hz : vhbLoad s t k run w = (s1, run1, true))
    (hg : uMode w ≠ 1 ∨ isGather s1 t k run1 w = false) (hr : matLoop (uRows w + 70000) s1 t k run1 w fl ep = (v, r, done)) :
    ∃ u, exec (.matmul t k fl ep) s = .next u ∧ (done = true → ∀ x, endUop v t k r w ep = some x → u = x ∧
      (run.ver = none → predOf (getCu s t k) run.slot run.uop = none → (getCu u t k).issued = none ∧
        (cuCtx (getCu u t k) run.slot).outc = runOutc r ∧ (cuCtx (getCu u t k) run.slot).next = uNext w)) ∧
      (done = false → (getCu u t k).issued = some r) := by
  have hg' : (uMode w == 1 && isGather s1 t k run1 w) = false := by
    obtain h | h := hg
    · simp [h]
    · simp [h]
  obtain ⟨hid1, hp1⟩ := vhbLoad_keeps s t k run w t k
  obtain ⟨hid2, hp2⟩ := matLoop_keeps (uRows w + 70000) s1 t k run1 w fl ep t k
  rw [hz] at hid1 hp1
  rw [hr] at hid2 hp2
  have hid : runId r = runId run := hid2.trans hid1
  have hrl := (late_of_runId hid).trans hl
  refine ⟨_, execMatmul_rows hi hm hl he ho hw hopen fl ep hz hg' hr, fun hd x hx => ?_, fun hd => ?_⟩
  · rw [if_pos hd, endOr_of_endUop hx]
    refine ⟨rfl, fun hv hp => ?_⟩
    have hw3 : uOpc w ≠ 3 := by omega
    obtain ⟨houtc, hnext, -⟩ := endUop_cuCtx hrl hw3 ((ver_of_runId hid).trans hv) hx
    rw [slot_of_runId hid, uop_of_runId hid, predOf_congr (hp2.trans hp1)] at hnext
    rw [slot_of_runId hid] at houtc
    exact ⟨endUop_issued hrl hw3 hx, houtc, hnext hp⟩
  · rw [if_neg (by simp [hd]), runWait_getCu hrl]

end

/-! ### VECTOR as a command (R91) -/

theorem vecLoop_done {n : Nat} {s : State} {t k : Nat} {run : URun} {w : W64 × W64} (sh : List Nat) (ep : EPlace) (hn : 0 < n)
    (h : uRows w ≤ run.row) : vecLoop n s t k run w sh ep = (s, run, true) := by
  obtain ⟨m, rfl⟩ := Nat.exists_eq_add_one.2 hn
  rw [vecLoop]
  exact if_pos h

theorem vecLoop_short {n : Nat} {s : State} {t k : Nat} {run : URun} {w : W64 × W64} (sh : List Nat) (ep : EPlace) (h : run.row < uRows w)
    (ht : takeTok s t (48 + k) (uInq w) = none) : vecLoop (n + 1) s t k run w sh ep = (s, run, false) := by
  rw [vecLoop, if_neg (Nat.not_le.2 h), ht]

/-- A control token passes through a VECTOR unchanged (assumption 32). -/
theorem vecLoop_control {n : Nat} {s s1 : State} {t k : Nat} {run : URun} {w : W64 × W64} (sh : List Nat) (ep : EPlace) {tok : Token} {kind : Nat}
    (h : run.row < uRows w) (ht : takeTok s t (48 + k) (uInq w) = some (tok, s1)) (hk : tok.ctl = some kind) :
    vecLoop (n + 1) s t k run w sh ep =
      vecLoop n (emitCtl s1 (cuEmit s1 t k (uOstr w) { run with tag := tok.tag } tok.poi tok.apx) kind tok.val) t k
        { run with tag := tok.tag, row := run.row + 1, poi := run.poi || tok.poi, apx := run.apx || tok.apx } w sh ep := by
  rw [vecLoop, if_neg (Nat.not_le.2 h), ht]
  simp only [hk]
  rfl

/-- A data token passes through the vector program. -/
theorem vecLoop_data {n : Nat} {s s1 s2 : State} {t k : Nat} {run r : URun} {w : W64 × W64} (sh : List Nat) (ep : EPlace) {tok : Token}
    (h : run.row < uRows w) (ht : takeTok s t (48 + k) (uInq w) = some (tok, s1)) (hk : tok.ctl = none) :
    let run1 := { run with tag := tok.tag }
    let v := tokVec (uAfmt w) tok
    let z := shadowRow s1 t k run1 w (if v.fmt = .pair then 2 else 1) sh
    sendBeats [(0, headPass run1 v (tokPoi v tok || z.2) tok.apx)] z.1 t k run1 w ep = some (s2, r) →
    vecLoop (n + 1) s t k run w sh ep = vecLoop n s2 t k { r with row := run.row + 1 } w sh ep := by
  intro run1 v z hb
  rw [vecLoop, if_neg (Nat.not_le.2 h), ht]
  simp only [hk, Option.isSome_none, Bool.false_eq_true, if_false, beq_iff_eq]
  rw [hb]

section
variable (hw : uOpc w = 2) (hst : isSteer (getCu s t k) run.slot w = false)
include hi hm hl he ho hw hst

/-- A VECTOR that does not steer takes its tokens and ends, or waits for what it lacks. -/
theorem execVector_rows {v : State} {r : URun} {done : Bool} {sh : List Nat} {ep : EPlace}
    (hr : vecLoop (uRows w + 1) s t k run w sh ep = (v, r, done)) :
    exec (.vector t k sh ep) s = .next (if done then endOr v t k r w ep else runWait v t k r w ep) := by
  show execVector t k sh ep s = _
  unfold execVector
  simp only [hi, runUop_late hl, cuOf_late hl, he, hw, hst, hm, ho, hr]
  exact (apply_ite Host.Outcome.next ..).symm

/-- A VECTOR whose last token has passed ends. -/
theorem execVector_ends {v u : State} {r : URun} {sh : List Nat} {ep : EPlace} (hr : vecLoop (uRows w + 1) s t k run w sh ep = (v, r, true))
    (hrl : r.late = false) (hu : endUop v t k r w ep = some u) :
    exec (.vector t k sh ep) s = .next u ∧ (getCu u t k).issued = none := by
  rw [execVector_rows hi hm hl he ho hw hst hr]
  exact ⟨congrArg Host.Outcome.next (endOr_of_endUop hu), endUop_issued hrl (by omega) hu⟩

/-- A VECTOR whose queue is empty keeps its place and counts the cycle under input empty. -/
theorem execVector_stalls {sh : List Nat} {ep : EPlace} (hrow : run.row < uRows w) (ht : takeTok s t (48 + k.val) (uInq w) = none)
    (hfd : feederFenced s (qaMake t (48 + k.val) (uInq w)) = false) :
    ∃ u, exec (.vector t k sh ep) s = .next u ∧ getCu u t k = { getCu s t k with issued := some run } ∧
      mget 0 (getFlow u t (48 + k.val)).stall stInput = satAdd 48 (mget 0 (getFlow s t (48 + k.val)).stall stInput) 1 := by
  refine ⟨_, execVector_rows hi hm hl he ho hw hst (vecLoop_short sh ep hrow ht), runWait_getCu hl w ep, ?_⟩
  simp only [Bool.false_eq_true, if_false]
  rw [runWait_eq hl]
  exact inStall_stInput (s := putRun s t k run) hfd

end

end

/-- Settles O14: each clause follows the rows of its micro-op to their end, or to the input that it lacks. -/
theorem cuMatmulAndVector : Obligations.CuMatmulAndVector := by
  unfold Obligations.CuMatmulAndVector
  refine ⟨?_, ?_, ?_, ?_⟩
  · intro s s1 t k run p ep hi hm hl hold w hw hmode ha hrow hc ho hopen hf
    exact execMatmul_lastRow hi hm hl rfl ho hw hopen ep hold hmode ha hrow hc hf
  · intro s t k run fl ep hi hm w hl hw ho hopen z r
    by_cases hz : z.2.2 = true
    · have hz' : vhbLoad s t k run w = (z.1, z.2.1, true) := by rw [← hz]
      by_cases hg : uMode w ≠ 1 ∨ isGather z.1 t k z.2.1 w = false
      · obtain ⟨u, hu, hend, hwait⟩ := execMatmul_ends hi hm hl rfl ho hw hopen fl ep hz' hg (Prod.ext rfl rfl)
        exact ⟨u, hu, fun h => absurd hz (by simp [h]), fun _ _ => ⟨hend, hwait⟩⟩
      · obtain ⟨u, hu⟩ := execMatmul_next t k fl ep s
        exact ⟨u, hu, fun h => absurd hz (by simp [h]), fun _ h => absurd h hg⟩
    · have hz0 : z.2.2 = false := by simpa using hz
      have hz' : vhbLoad s t k run w = (z.1, z.2.1, false) := by rw [← hz0]
      have hzl : z.2.1.late = false := (late_of_runId (vhbLoad_keeps s t k run w t k).1).trans hl
      refine ⟨_, execMatmul_unloaded hi hm hl rfl ho hw hopen fl ep hz', fun _ => ?_, fun h => absurd h hz⟩
      rw [runWait_getCu hzl]
  · intro s s1 t k run tok ep hi hm w hl hw hst hrow ho ht run1 v sh
    have hlt : run.row < uRows w := by omega
    have hpos : 0 < uRows w := Nat.zero_lt_of_lt hlt
    refine ⟨fun hk s2 r u hb hu => ?_, fun kind u hk hu => ?_⟩
    · have hrl : r.late = false := (late_of_runId (sendBeats_keeps hb t k).1).trans hl
      exact execVector_ends hi hm hl rfl ho hw hst ((vecLoop_data [] ep hlt ht hk hb).trans (vecLoop_done [] ep hpos hrow.ge)) (by exact hrl) hu
    · exact execVector_ends hi hm hl rfl ho hw hst ((vecLoop_control [] ep hlt ht hk).trans (vecLoop_done [] ep hpos hrow.ge)) (by exact hl) hu
  · intro s t k run sh ep hi hm w hl hw hst hrow ho ht hfd
    exact execVector_stalls hi hm hl rfl ho hw hst hrow ht hfd

end Sys2Proof.Machine
end

section
/-!
PROOFS. CUs: steering, late masks and output tokens (R106, R134, R253, R254, R262, R263, R292).
-/
namespace Sys2Proof.Machine
open Sys2Proof

/-! ### Steering (R262, R263) -/

theorem shadowRow_nil_flows (s : State) (t k : Nat) (run : URun) (w : W64 × W64) (cyc : Nat) :
    (shadowRow s t k run w cyc []).1.flows = s.flows ∧ (shadowRow s t k run w cyc []).1.net = s.net := by
  unfold shadowRow
  split <;> exact ⟨rfl, rfl⟩

/-- An incident that a unit's flow raises stops the region and leaves its one record at the tile (R501, Table 8.13). -/
theorem raised_flowFault (s : State) (cls t u detail : Nat) :
    raised s (flowFault s cls t u detail) t cls (unitIx u) (BitVec.ofNat 64 detail) := by
  let i := tileInc s cls (unitType u) t (unitIx u) detail
  have hi : incSource i = t ∧ i.cls = cls ∧ i.uidx = unitIx u ∧ i.detail = BitVec.ofNat 64 detail := by
    unfold i tileInc
    split <;> exact ⟨rfl, rfl, rfl, rfl⟩
  have h := raised_raiseInc s i
  rw [hi.1, hi.2.1, hi.2.2.1, hi.2.2.2] at h
  have hinc : (flowFault s cls t u detail).inc = (raiseInc s i).inc := by
    have h := congrArg State.inc (besideStop_stopTileRegion (raiseInc s i) t)
    exact h
  unfold raised at h ⊢
  rwa [hinc]

theorem raiseInc_regions (s : State) (i : Inc) : (raiseInc s i).regions = s.regions := by
  have h := congrArg State.regions (besideTraffic_raiseInc s i)
  exact h

/-- The region of a unit whose flow faults stops, if it is not frozen (R276, R325). -/
theorem flowFault_stops {s : State} {t r : Nat} (hr : regionOf s t = some r) (hz : (getRegion s r).frozenAt = none)
    (h0 : (getRegion s r).st ≠ .empty) (cls u detail : Nat) : (getRegion (flowFault s cls t u detail) r).st = .stopped := by
  let v := raiseInc s (tileInc s cls (unitType u) t (unitIx u) detail)
  have hg : getRegion v r = getRegion s r := congrArg (fun m => mget Region.none m r) (raiseInc_regions ..)
  have hv : regionOf v t = some r := by
    rw [regionOf, raiseInc_regions, ← regionOf, hr]
  have hf : flowFault s cls t u detail = stopRegion v r := by
    show stopTileRegion v t = _
    unfold stopTileRegion
    rw [hv]
  rw [hf]
  exact stopRegion_st (by rw [hg, hz]) (by rw [hg]; exact h0)

/-- A CU that moves stands in a region that is not frozen (R325). -/
theorem frozenAt_of_cuMoves {s : State} {t r : Nat} (h : cuMoves s t = true) (hr : regionOf s t = some r) : (getRegion s r).frozenAt = none := by
  simp only [cuMoves, unitsStill, Bool.and_eq_true, Bool.not_eq_true', Bool.or_eq_false_iff] at h
  obtain ⟨⟨-, hz⟩, -⟩ := h
  rw [regionAt, hr] at hz
  simpa using hz

section
variable {s : State} {t : TileId} {k : CuIx} {run : URun} {w : W64 × W64} {ct : Token} {sh : List Nat} {ep : EPlace}
  (hi : (getCu s t k).issued = some run) (hm : cuMoves s t = true) (hl : run.late = false) (he : uopAt (getCu s t k) run.slot run.uop = w)
  (hst : isSteer (getCu s t k) run.slot w = true) (ho : (getFlow s t (48 + k.val)).out = []) (hrow : run.row < uRows w)
  (hct : headTok (getFlow s t (48 + k.val)) (uInq w) = some ct)
include hi hm hl he hst ho hrow hct

/-- A control head with another tag than the base raises TAG_WINDOW (R263). -/
theorem execSteeringFire_mismatch (hv : sVop (v0Of (getCu s t k) run.slot w) ≠ 0x52) (htag : ct.tag ≠ (cuCtx (getCu s t k) run.slot).tbase) :
    exec (.steeringFire t k sh ep) s = .next (flowFault s 0x0401 t (48 + k.val) (uInq w)) := by
  have hgo : (decide (uRows w ≤ run.row) || run.late) = false := by simp [hl, hrow]
  show execSteeringFire t k sh ep s = _
  unfold execSteeringFire
  simp only [hi, runUop_late hl, cuOf_late hl, he, hst, hm, ho, ge_iff_le, hgo, beq_iff_eq, if_neg hv, hct, bne_iff_ne, ne_eq, htag, not_false_eq_true,
    if_true]
  rfl

/-- The state after a filter with control value 0 has fired with both tokens taken, before its micro-op goes on. -/
def filterDropped (s s2 : State) (t k : Nat) (run : URun) (w : W64 × W64) : State :=
  let x := cuCtx (getCu s t k) run.slot
  modCu (modCu (shadowRow s2 t k run w 1 []).1 t k fun c => { c with filterDrop := satAdd 48 c.filterDrop 1 }) t k
    fun c => setCtx c run.slot { x with tbase := (x.tbase + 1) % 256 }

/-- A filter whose heads both carry the base takes both and drops the data token on control value 0 (R262). -/
theorem execSteeringFire_drop {s1 s2 : State} {dt : Token} (hv : sVop (v0Of (getCu s t k) run.slot w) = 0x53) (hrow' : run.row + 1 < uRows w)
    (hdt : headTok (getFlow s t (48 + k.val)) (uInq w ^^^ 1) = some dt) (hc : ct.tag = (cuCtx (getCu s t k) run.slot).tbase)
    (hd : dt.tag = (cuCtx (getCu s t k) run.slot).tbase) (hval : ct.val % 2 = 0) (ht1 : takeTok s t (48 + k.val) (uInq w) = some (ct, s1))
    (ht2 : takeTok s1 t (48 + k.val) (uInq w ^^^ 1) = some (dt, s2)) :
    exec (.steeringFire t k [] ep) s = .next (putRun (filterDropped s s2 t k run w) t k { run with row := run.row + 1 }) := by
  have hgo : (decide (uRows w ≤ run.row) || run.late) = false := by simp [hl, hrow]
  show execSteeringFire t k [] ep s = _
  unfold execSteeringFire
  simp only [hi, runUop_late hl, cuOf_late hl, he, hst, hm, ho, ge_iff_le, hgo, Bool.not_true, Bool.or_self, List.isEmpty_nil, Bool.false_eq_true,
    if_false, hv, Nat.reduceBEq, hct, hc, hdt, hd, ht1, ht2, steerVal, hval, bne_self_eq_false, Bool.and_self, if_true, Nat.not_le.2 hrow']
  rfl

end

/-- A filter that drops raises the base by 1, counts the token, and leaves the flows and the packets as the taking of the tokens left them. -/
theorem filterDropped_spec (s : State) {s1 s2 : State} {t k a b : Nat} {ct dt : Token} (hk : k < 2) (run : URun) (w : W64 × W64)
    (ht1 : takeTok s t a b = some (ct, s1)) {a' b' : Nat} (ht2 : takeTok s1 t a' b' = some (dt, s2)) :
    let u := filterDropped s s2 t k run w
    (cuCtx (getCu u t k) run.slot).tbase = ((cuCtx (getCu s t k) run.slot).tbase + 1) % 256 ∧
      (getCu u t k).filterDrop = satAdd 48 (getCu s t k).filterDrop 1 ∧ u.flows = s2.flows ∧ u.net = s2.net := by
  intro u
  have hd : cuData (getCu s2 t k) = cuData (getCu s t k) := (cuData_takeTok ht2 ..).trans (cuData_takeTok ht1 ..)
  have hfd : (getCu s2 t k).filterDrop = (getCu s t k).filterDrop := by
    have h := congrArg Cu.filterDrop hd
    exact h
  have hu : getCu u t k = setCtx { getCu s2 t k with filterDrop := satAdd 48 (getCu s2 t k).filterDrop 1 } run.slot
      { cuCtx (getCu s t k) run.slot with tbase := ((cuCtx (getCu s t k) run.slot).tbase + 1) % 256 } := by
    unfold u filterDropped
    simp only [modCu_eq, getCu_setCu_same, shadowRow_getCu _ _ hk]
  refine ⟨?_, ?_, (shadowRow_nil_flows ..).1, (shadowRow_nil_flows ..).2⟩
  · rw [hu]
    exact congrArg CuCtx.tbase (mget_mset_same ..)
  · rw [hu]
    exact congrArg (satAdd 48 · 1) hfd

/-! ### The mask deadline (R134) -/

/-- A generator that feeds CU `k` from program `p` takes its mask from the fallback program. -/
def fallbackGens (gens : SMap Gen) (p k : Nat) : SMap Gen :=
  gens.map fun g => if g.2.prog == p && g.2.cu == some k then (g.1, { g.2 with direct := true }) else g

theorem mem_fallbackGens_direct {gens : SMap Gen} {p k : Nat} {g : Nat × Gen} (h : g ∈ fallbackGens gens p k) (hp : g.2.prog = p)
    (hk : g.2.cu = some k) : g.2.direct = true := by
  obtain ⟨g0, -, rfl⟩ := List.mem_map.1 h
  by_cases hc : (g0.2.prog == p && g0.2.cu == some k) = true
  · rw [if_pos hc]
  · rw [if_neg hc] at hp hk
    simp [hp, hk] at hc

/-- At a mask deadline with no mask seen the fallback is taken, the late mask is marked to be discarded, and `PC_LATE` counts (R134). -/
theorem execMaskDeadline_fallback {s : State} {t : TileId} {k : CuIx} {run : URun} {w : W64 × W64} {e : Nat × W64} {dl lo q : Nat}
    (hi : (getCu s t k).issued = some run) (hm : cuMoves s t = true) (hl : run.late = false) (he : uopAt (getCu s t k) run.slot run.uop = w)
    (hlo : muLow k w = lo) (hq : bits (progWord s t lo (uAgp w) 0) 55 3 = q) (hp : predOf (getCu s t k) run.slot run.uop = some e)
    (hdl : run.deadline = some dl) (hfb : run.fallback = false)
    (hg : ∀ g ∈ (getMu s t lo).gens, g.2.prog = uAgp w → g.2.cu = some k.val → g.2.mask = [] ∧ g.2.maskEnd = false)
    (hh : headTok (getFlow s t (50 + lo)) q = none) (hge : gatherEnd (getCu s t k) (uAgp w) = none) :
    exec (.maskDeadline t k) s = .next (modMu (modCu (reachCycle s t dl) t k
        fun c => pcAdd { c with issued := some { run with deadline := none, fallback := true } } run.slot e.1 3 1) t lo
      fun m => { m with maskDrop := mmod 0 m.maskDrop q (· + 1), gens := fallbackGens m.gens (uAgp w) k }) := by
  have hseen : ((getMu s t lo).gens.any fun g => g.2.prog == uAgp w && g.2.cu == some k.val && (!g.2.mask.isEmpty || g.2.maskEnd)) = false := by
    rw [List.any_eq_false]
    intro g hgm hc
    simp only [Bool.and_eq_true, beq_iff_eq] at hc
    obtain ⟨⟨hprog, hcu⟩, hmask⟩ := hc
    obtain ⟨hnil, hend⟩ := hg g hgm hprog hcu
    simp [hnil, hend] at hmask
  show execMaskDeadline t k s = _
  unfold execMaskDeadline
  simp only [hi, runUop_late hl, cuOf_late hl, he, hlo, hq, hp, hdl, hm, hfb, hseen, hh, hge]
  rfl

/-! ### Output tokens (R106, R253, R254, R292) -/

theorem injected_ne_none (t src dst fold epoch : Nat) (ctl : Bool) (b : Body) : injected t src dst fold epoch ctl b ≠ Packet.none := by
  simp [injected, Packet.none]

section
variable {s : State} {t : TileId} {u : Fin 6} {o : OutPend} {rest : List OutPend} {x : Strm} {room n : Nat} {b : Body}
  (ho : (getFlow s t (48 + u.val)).out = o :: rest) (hs : unitsStill s t = false) (hold : o.old = none)
  (hx : getStrm (getFlow s t (48 + u.val)) o.ostr = x)
  (hroom : (if stMode x = 0 then x.cred else if stMode x = 1 then (if x.inflight = none then 1 else 0) else 15) = room)
  (hn : min room (packRun x o.toks) = n) (hb : tokBody x o.ostr (o.toks.take n) = b)
include ho hs hold hx hroom hn

/-- Without room for a token the unit counts the cycle as one whose output is full. -/
theorem execOutputTokenSend_full (h0 : n = 0) : exec (.outputTokenSend t u) s = .next (outStall s t (48 + u.val)) := by
  show execOutputTokenSend t u s = _
  unfold execOutputTokenSend
  simp only [ho, hold, Option.getD_none, hx, Option.isSome_none, Bool.false_eq_true, if_false, beq_iff_eq, Option.isNone_iff_eq_none, hroom, hn, hs]
  exact if_pos h0

include hb in
/-- A packet for which the router's local buffer has no room waits (R292). -/
theorem execOutputTokenSend_blocked (h0 : n ≠ 0) (hr : localRoom s t b = false) :
    exec (.outputTokenSend t u) s = .next (unitStall s t (48 + u.val) stCredit) := by
  show execOutputTokenSend t u s = _
  unfold execOutputTokenSend
  simp only [ho, hold, Option.getD_none, hx, Option.isSome_none, Bool.false_eq_true, if_false, beq_iff_eq, Option.isNone_iff_eq_none, hroom, hn, hs, h0,
    hb, hr]
  rfl

/-- The flow of a unit after the first `n` tokens of its output have left by stream entry `x`. -/
def sentFlow (f : Flow) (o : OutPend) (rest : List OutPend) (x : Strm) (n pid : Nat) : Flow :=
  setStrm { f with out := if (o.toks.drop n).isEmpty then rest else ⟨o.ostr, o.toks.drop n, none⟩ :: rest } o.ostr
    { x with cred := if stMode x = 0 then x.cred - n else x.cred, inflight := if stMode x = 1 then (o.toks.take n).head? else x.inflight, pid := pid,
             ssent := (x.ssent + n * bits x.w1.toNat 48 16) % 2 ^ 48 }

include hb in
/-- The tokens for which there are credits and room enter the router in one packet (R106, R253, R254). -/
theorem execOutputTokenSend_sends (h0 : n ≠ 0) (hr : localRoom s t b = true) :
    exec (.outputTokenSend t u) s = .next (inject (setFlow s t (48 + u.val) (sentFlow (getFlow s t (48 + u.val)) o rest x n s.net.next)) t
      (qaMake t (48 + u.val) 0) (strmDst x) (stDfold x) (((o.toks.take n).head?.map (·.epoch)).getD (epochAt s t)) b) := by
  show execOutputTokenSend t u s = _
  unfold execOutputTokenSend
  simp only [ho, hold, Option.getD_none, hx, Option.isSome_none, Bool.false_eq_true, if_false, beq_iff_eq, Option.isNone_iff_eq_none, hroom, hn, hs, h0,
    hb, hr]
  rfl

end

theorem unitStall_mus (s : State) (t u cause : Nat) : (unitStall s t u cause).mus = s.mus := traceEv_mus ..

theorem qStall_mus (s : State) (a cause : Nat) : (qStall s a cause).mus = s.mus := by
  unfold qStall
  split
  · rfl
  · split <;> rfl

theorem getFlow_qStall_out (s : State) (a cause t u : Nat) : (getFlow (qStall s a cause) t u).out = (getFlow s t u).out :=
  getFlow_qStall Flow.out (fun _ _ _ => by rfl) ..

theorem getFlow_unitStall_out (s : State) (t u cause : Nat) : (getFlow (unitStall s t u cause) t u).out = (getFlow s t u).out := by
  rw [getFlow_unitStall]
  rfl

/-- A unit whose output is full counts the cycle: its MUs and its pending output stay as they are. -/
theorem outStall_keeps (s : State) (t u : Nat) :
    (outStall s t u).mus = s.mus ∧ (getFlow (outStall s t u) t u).out = (getFlow s t u).out := by
  unfold outStall
  split
  · extract_lets x cause
    split
    · exact ⟨(qStall_mus ..).trans (unitStall_mus ..), (getFlow_qStall_out ..).trans (getFlow_unitStall_out ..)⟩
    · exact ⟨unitStall_mus .., getFlow_unitStall_out ..⟩
  · exact ⟨unitStall_mus .., getFlow_unitStall_out ..⟩

theorem sentFlow_cred (f : Flow) (o : OutPend) (rest : List OutPend) (x : Strm) (n pid : Nat) :
    (getStrm (sentFlow f o rest x n pid) o.ostr).cred = (if stMode x = 0 then x.cred - n else x.cred) :=
  congrArg Strm.cred (mget_mset_same ..)

theorem sentFlow_out (f : Flow) (o : OutPend) (rest : List OutPend) (x : Strm) (n pid : Nat) :
    (sentFlow f o rest x n pid).out = (if o.toks.drop n = [] then rest else ⟨o.ostr, o.toks.drop n, none⟩ :: rest) := by
  show (if (o.toks.drop n).isEmpty then rest else _) = _
  simp only [List.isEmpty_iff]

/-- Settles O15: each clause is the lemma above about its command. -/
theorem cuSteeringMaskAndOutput : Obligations.CuSteeringMaskAndOutput := by
  unfold Obligations.CuSteeringMaskAndOutput
  refine ⟨?_, ?_, ?_, ?_⟩
  · intro s s1 s2 t k run ct dt ep hi hm c w v0 x hl hst hv ho hrow hct hdt hc hd hval ht1 ht2
    obtain ⟨htb, hfd, hfl, hnet⟩ := filterDropped_spec s k.isLt run w ht1 ht2
    refine ⟨_, execSteeringFire_drop hi hm hl rfl hst ho (Nat.lt_of_succ_lt hrow) hct hv hrow hdt hc hd hval ht1 ht2, ?_, ?_, ?_, hfl, hnet⟩
    all_goals rw [putRun, modCu_eq, getCu_setCu_same]
    · exact htb
    · exact hfd
  · intro s t k run ct sh ep hi hm c w hl hrow hst hv ho hct htag
    refine ⟨_, execSteeringFire_mismatch hi hm hl rfl hst ho hrow hct hv htag, ?_, fun r hr _ h0 => ?_⟩
    · have hu : unitIx (48 + k.val) = k.val := by
        have hk := k.isLt
        simp [unitIx, show 48 + k.val < 50 by omega]
      have h := raised_flowFault s 0x0401 t (48 + k.val) (uInq w)
      rwa [hu] at h
    · exact flowFault_stops hr (frozenAt_of_cuMoves hm hr) h0 ..
  · intro s t k run i dl pw hi hm c w lo q hl hp hdl hfb hg hh hge
    refine ⟨_, execMaskDeadline_fallback hi hm hl rfl rfl rfl hp hdl hfb hg hh hge, ?_, ?_, ?_, ?_⟩
    · rw [modMu_eq, setMu_getCu, modCu_eq, getCu_setCu_same]
      rfl
    · rw [modMu_eq, setMu_getCu, modCu_eq, getCu_setCu_same]
      exact mget_mmod_same 0 c.pc ((run.slot * 4 + i) * 9 + 3) (satAdd 48 · 1)
    · rw [modMu_eq, getMu_setMu_same]
      exact mget_mmod_same 0 (getMu s t lo).maskDrop q (· + 1)
    · intro g hgm
      rw [modMu_eq, getMu_setMu_same] at hgm
      exact mem_fallbackGens_direct hgm
  · intro s t u o rest ho hs f x room n b epoch hold
    by_cases h0 : n = 0
    · obtain ⟨hmus, hout⟩ := outStall_keeps s t (48 + u.val)
      exact ⟨_, execOutputTokenSend_full ho hs hold rfl rfl rfl h0, fun _ => ⟨rfl, outStall_cus .., hmus, hout⟩, fun h => absurd h0 h,
        fun h => absurd h0 h⟩
    · cases hr : localRoom s t b with
      | false =>
        exact ⟨_, execOutputTokenSend_blocked ho hs hold rfl rfl rfl rfl h0 hr, fun h => absurd h h0,
          fun _ _ => ⟨getFlow_unitStall .., unitStall_cus .., unitStall_mus ..⟩, fun _ h => by cases h⟩
      | true =>
        have hsend := execOutputTokenSend_sends ho hs hold rfl rfl rfl rfl h0 hr
        rw [List.head?_take, if_neg h0] at hsend
        refine ⟨_, hsend, fun h => absurd h h0, fun _ h => (by cases h), fun _ _ => ⟨?_, ?_, ?_, rfl⟩⟩
        · exact sent_inject (setFlow s t (48 + u.val) _) _ _ _ _ _ _ (injected_ne_none _ _ _ _ _ _ _)
        · rw [inject_getFlow, getFlow_setFlow_same, sentFlow_cred]
        · rw [inject_getFlow, getFlow_setFlow_same, sentFlow_out]

end Sys2Proof.Machine
end

section
/-!
PROOFS. What the memories of MUs and cores leave of the module when they are read and written (R149, R150, R171, R183): the error path changes
incidents, the trace and the tiles' counts only, and the records that a source of incidents holds are only ever added to.
-/
namespace Sys2Proof.Machine
open Sys2Proof

/-! ### Incidents are added (R499, R501) -/

/-- Every source holds the records that it held, and more behind them while it has room. -/
structure IncGrows (s u : State) : Prop where
  added (k : Nat) : ∃ l, mget [] u.inc.sources k = mget [] s.inc.sources k ++ l ∧ (8 ≤ (mget [] s.inc.sources k).length → l = [])

theorem incGrows_of_sources {s u : State} (h : u.inc.sources = s.inc.sources) : IncGrows s u :=
  ⟨fun _ => ⟨[], by rw [h, List.append_nil], fun _ => rfl⟩⟩

theorem incGrows_of_inc {s u : State} (h : u.inc = s.inc) : IncGrows s u := incGrows_of_sources (by rw [h])

@[simp] theorem incGrows_refl (s : State) : IncGrows s s := incGrows_of_inc rfl

theorem incGrows_setTile (s : State) (t : Nat) (x : Tile) : IncGrows s (setTile s t x) := incGrows_of_inc rfl
theorem incGrows_setMu (s : State) (t k : Nat) (m : Mu) : IncGrows s (setMu s t k m) := incGrows_of_inc rfl

theorem IncGrows.trans {s u v : State} (h : IncGrows s u) (h' : IncGrows u v) : IncGrows s v := by
  refine ⟨fun k => ?_⟩
  obtain ⟨l, hl, hf⟩ := h.added k
  obtain ⟨l', hl', hf'⟩ := h'.added k
  refine ⟨l ++ l', by rw [hl', hl, List.append_assoc], fun h8 => ?_⟩
  rw [hf h8, hf' (by rw [hl, hf h8, List.append_nil]; exact h8)]
  rfl

theorem incGrows_foldl {α : Type} {f : State → α → State} (hf : ∀ s x, IncGrows s (f s x)) (l : List α) (s : State) : IncGrows s (l.foldl f s) :=
  List.foldlRecOn (motive := IncGrows s) l f (incGrows_refl s) fun u hu x _ => hu.trans (hf u x)

theorem incGrows_pushInc (s : State) (i : Inc) : IncGrows s (pushInc s i) := by
  by_cases h : (mget [] s.inc.sources (incSource i)).length < 8
  · rw [pushInc_room s i h]
    refine ⟨fun k => ?_⟩
    by_cases hk : k = incSource i
    · subst hk
      exact ⟨[i], mget_mset_same .., fun h8 => absurd h (by omega)⟩
    · exact ⟨[], by rw [List.append_nil]; exact mget_mset_other _ _ _ _ _ hk, fun _ => rfl⟩
  · rw [pushInc_full s i h]
    exact incGrows_of_sources rfl

theorem incGrows_raiseInc (s : State) (i : Inc) : IncGrows s (raiseInc s i) := by
  rw [raiseInc_eq]
  exact (incGrows_of_inc (of_trace_frame (traceInc_frame s i)).1).trans (incGrows_pushInc ..)

/-- All that `raiseUnit` can do after it has raised the incident: count it in its tile, or raise 0x0220 (R499). -/
theorem raiseUnit_cases (s : State) (i : Inc) : ∃ x, raiseUnit s i = raiseInc s i ∨ raiseUnit s i = setTile (raiseInc s i) i.tile x ∨
    raiseUnit s i = raiseInc (setTile (raiseInc s i) i.tile x) (mkInc 0x0220 utTile 0 i.tile 0 0) := by
  unfold raiseUnit
  extract_lets v now recent
  split
  · split
    · exact ⟨Tile.reset, .inl rfl⟩
    · split
      · exact ⟨_, .inr (.inr rfl)⟩
      · exact ⟨_, .inr (.inl rfl)⟩
  · exact ⟨Tile.reset, .inl rfl⟩

theorem incGrows_raiseUnit_tail (s : State) (i : Inc) : IncGrows (raiseInc s i) (raiseUnit s i) := by
  obtain ⟨x, h | h | h⟩ := raiseUnit_cases s i
  · rw [h]
    exact incGrows_refl _
  · rw [h]
    exact incGrows_of_inc rfl
  · rw [h]
    exact (incGrows_setTile ..).trans (incGrows_raiseInc ..)

theorem incGrows_raiseUnit (s : State) (i : Inc) : IncGrows s (raiseUnit s i) := (incGrows_raiseInc s i).trans (incGrows_raiseUnit_tail s i)

theorem incGrows_raiseCoal (s : State) (i : Inc) : IncGrows s (raiseCoal s i) := by
  unfold raiseCoal
  extract_lets hit now x upd
  split
  · exact incGrows_of_sources rfl
  · refine IncGrows.trans (incGrows_of_sources ?_) (incGrows_raiseInc ..)
    rfl

theorem incGrows_muRaise (s : State) (t k corrected : Nat) (bad : List Nat) : IncGrows s (muRaise s t k corrected bad) :=
  (incGrows_foldl (fun _ _ => incGrows_raiseCoal ..) _ _).trans (incGrows_foldl (fun _ _ => incGrows_raiseUnit ..) _ _)

/-- What is raised first stays first, whatever is raised after it. -/
theorem raisedFirst_of_grows {s u v : State} {src cls uidx : Nat} {detail : W64} (h : raised s u src cls uidx detail) (hg : IncGrows u v) :
    raisedFirst s v src cls uidx detail := by
  obtain ⟨l, hl, hf⟩ := hg.added src
  unfold raised at h
  unfold raisedFirst
  split
  · next h8 =>
    rw [if_pos h8] at h
    obtain ⟨i, hc, hu, hd, ht, hs⟩ := h
    exact ⟨i, l, hc, hu, hd, ht, by rw [hl, hs, List.append_assoc]; rfl⟩
  · next h8 =>
    rw [if_neg h8] at h
    rw [hl, h.1, hf (by rw [h.1]; omega), List.append_nil]

theorem raisedAs_of_grows {s u v : State} {src cls uidx : Nat} {detail : W64} (h : raised s u src cls uidx detail) (hg : IncGrows u v) :
    raisedAs s v src cls uidx := by
  intro h8
  have hr := raisedFirst_of_grows h hg
  rw [raisedFirst, if_pos h8] at hr
  obtain ⟨i, l, hc, hu, -, ht, hs⟩ := hr
  exact ⟨i, l, hc, hu, ht, hs⟩

/-- An incident of a unit of a tile joins the records of the tile. -/
theorem raised_tileInc (s : State) (cls utyp t uidx detail : Nat) :
    raised s (raiseInc s (tileInc s cls utyp t uidx detail)) t cls uidx (BitVec.ofNat 64 detail) := by
  have hi : incSource (tileInc s cls utyp t uidx detail) = t ∧ (tileInc s cls utyp t uidx detail).cls = cls ∧
      (tileInc s cls utyp t uidx detail).uidx = uidx ∧ (tileInc s cls utyp t uidx detail).detail = BitVec.ofNat 64 detail := by
    unfold tileInc
    split <;> exact ⟨rfl, rfl, rfl, rfl⟩
  obtain ⟨hs, hc, hu, hd⟩ := hi
  have h := raised_raiseInc s (tileInc s cls utyp t uidx detail)
  rwa [hs, hc, hu, hd] at h

/-- Only the incident path and the time that an incident was raised at matter for what was raised. -/
theorem raised_congr {s s' u u' : State} (hi : s'.inc = s.inc) (ht : s'.time = s.time) (hu : u'.inc = u.inc) {src cls uidx : Nat} {detail : W64}
    (h : raised s u src cls uidx detail) : raised s' u' src cls uidx detail := by
  unfold raised nowNs at h ⊢
  rwa [hi, ht, hu]

/-! ### The error path beside incidents -/

/-- A state without what raising an error of a memory changes: incidents, the trace, the tiles' counts. -/
def besideErrors (s : State) : State := { s with tiles := State.reset.tiles, trace := State.reset.trace, inc := State.reset.inc }

theorem besideErrors_raiseInc (s : State) (i : Inc) : besideErrors (raiseInc s i) = besideErrors s := by
  have h := congrArg besideErrors (raiseInc_frame s i)
  exact h

theorem besideErrors_setTile (s : State) (t : Nat) (x : Tile) : besideErrors (setTile s t x) = besideErrors s := rfl

theorem besideErrors_raiseUnit (s : State) (i : Inc) : besideErrors (raiseUnit s i) = besideErrors s := by
  obtain ⟨x, h | h | h⟩ := raiseUnit_cases s i
  · rw [h, besideErrors_raiseInc]
  · rw [h, besideErrors_setTile, besideErrors_raiseInc]
  · rw [h, besideErrors_raiseInc, besideErrors_setTile, besideErrors_raiseInc]

theorem besideErrors_raiseCoal (s : State) (i : Inc) : besideErrors (raiseCoal s i) = besideErrors s := by
  unfold raiseCoal
  extract_lets hit now x upd
  split
  · rfl
  · exact besideErrors_raiseInc ..

theorem besideErrors_muRaise (s : State) (t k corrected : Nat) (bad : List Nat) : besideErrors (muRaise s t k corrected bad) = besideErrors s :=
  (foldl_keeps besideErrors _ _ _ fun _ _ => besideErrors_raiseUnit ..).trans (foldl_keeps besideErrors _ _ _ fun _ _ => besideErrors_raiseCoal ..)

/-- A part of the state that `besideErrors` keeps is as before when errors have been raised. -/
theorem muRaise_keeps {β : Type} (π : State → β) (hπ : ∀ s, π (besideErrors s) = π s) (s : State) (t k corrected : Nat) (bad : List Nat) :
    π (muRaise s t k corrected bad) = π s := by
  rw [← hπ, besideErrors_muRaise, hπ]

theorem muRaise_getMu (s : State) (t k corrected : Nat) (bad : List Nat) (t' k' : Nat) :
    getMu (muRaise s t k corrected bad) t' k' = getMu s t' k' :=
  muRaise_keeps (fun s => getMu s t' k') (fun _ => by rfl) ..

/-! ### MUs: what an update keeps -/

theorem getMu_setMu_keeps {β : Type} (π : Mu → β) {s : State} {t k : Nat} {m : Mu} (h : π m = π (getMu s t k)) (t' k' : Nat) :
    π (getMu (setMu s t k m) t' k') = π (getMu s t' k') := by
  unfold setMu getMu at *
  simp only [mget_mset]
  split
  · next e => rw [e, h]
  · rfl

theorem getMu_modMu_keeps {β : Type} (π : Mu → β) {f : Mu → Mu} (hf : ∀ m, π (f m) = π m) (s : State) (t k t' k' : Nat) :
    π (getMu (modMu s t k f) t' k') = π (getMu s t' k') := getMu_setMu_keeps π (hf _) t' k'

theorem getMu_congr {s u : State} (h : u.mus = s.mus) (t k : Nat) : getMu u t k = getMu s t k := congrArg (fun m => mget Mu.reset m (t * 4 + k)) h

/-- An MU without its latent errors and its count of corrected ones: what reading its memory leaves as it is. -/
def muData (m : Mu) : Mu := { m with err := [], corrected := 0 }

/-- An MU without its memory, its snapshot and the writes that wait: what writing its memory leaves as it is. -/
def muHeld (m : Mu) : Mu :=
  { m with mem := [], poi := [], err := [], corrected := 0, snap := none, snapWait := 0, waitW := [] }

theorem muHeld_of_muData {m n : Mu} (h : muData m = muData n) : muHeld m = muHeld n := by
  have e := congrArg muHeld h
  exact e

/-! ### Reading (R149) -/

theorem muData_muEcc (m : Mu) (ws : List Nat) : muData (muEcc m ws).1 = muData m := rfl

/-- A state without the MUs and what raising an error of a memory changes. -/
def besideMus (s : State) : State := { besideErrors s with mus := State.reset.mus }

/-- What states share that differ in their MUs and in what raising errors changes. -/
theorem of_besideMus {s u : State} (h : besideMus u = besideMus s) :
    u.net = s.net ∧ u.flows = s.flows ∧ u.regions = s.regions ∧ u.wicks = s.wicks ∧ u.cus = s.cus := by
  have hn := congrArg State.net h
  have hf := congrArg State.flows h
  have hr := congrArg State.regions h
  have hw := congrArg State.wicks h
  have hc := congrArg State.cus h
  exact ⟨hn, hf, hr, hw, hc⟩

theorem besideMus_muRaise (s : State) (t k corrected : Nat) (bad : List Nat) : besideMus (muRaise s t k corrected bad) = besideMus s :=
  congrArg (fun v : State => { v with mus := State.reset.mus }) (besideErrors_muRaise ..)

theorem besideMus_muRead (s : State) (t k a n : Nat) : besideMus (muRead s t k a n).2.2 = besideMus s := besideMus_muRaise ..

theorem incGrows_muRead (s : State) (t k a n : Nat) : IncGrows s (muRead s t k a n).2.2 :=
  (incGrows_setMu ..).trans (incGrows_muRaise ..)

theorem muData_muRead (s : State) (t k a n t' k' : Nat) : muData (getMu (muRead s t k a n).2.2 t' k') = muData (getMu s t' k') := by
  simp only [muRead, muRaise_getMu]
  exact getMu_setMu_keeps muData (muData_muEcc ..) t' k'

/-- What a read answers rests on its MU alone. -/
theorem muRead_congr {s u : State} {t k : Nat} (h : getMu u t k = getMu s t k) (a n : Nat) :
    (muRead u t k a n).1 = (muRead s t k a n).1 ∧ (muRead u t k a n).2.1 = (muRead s t k a n).2.1 := by
  unfold muRead
  simp only [h, and_self]

/-! ### Writing (R150, R171) -/

theorem muHeld_muPutBytes (m : Mu) (a : Nat) (bs : List Byte) (poi : Bool) : muHeld (muPutBytes m a bs poi) = muHeld m := rfl

theorem muHeld_muRelocate {m m' : Mu} {a : Nat} (h : muRelocate m a = some m') : muHeld m' = muHeld m := by
  unfold muRelocate at h
  extract_lets g at h
  split at h
  · cases h; rfl
  · split at h
    · cases h; rfl
    · split at h <;> cases h
      rfl

theorem foldl_bind_keeps {α β γ : Type} {f : α → γ → Option α} {π : α → β} (hf : ∀ a x b, f a x = some b → π b = π a) (l : List γ)
    {a b : α} (h : l.foldl (fun acc x => acc.bind fun m => f m x) (some a) = some b) : π b = π a := by
  refine List.foldlRecOn (motive := fun acc : Option α => ∀ b, acc = some b → π b = π a) l _ ?_ ?_ b h
  · rintro _ ⟨⟩
    rfl
  · intro acc ih x _ b hb
    obtain ⟨c, hc, hb⟩ := Option.bind_eq_some_iff.1 hb
    exact (hf c x b hb).trans (ih c hc)

/-- A write that is not held up changes the memory of its MU, the errors and the snapshot's shadows, and nothing else. -/
theorem muHeld_muWriteAll {m m' : Mu} {a : Nat} {bs : List Byte} {poi : Bool} (h : muWriteAll m a bs poi = some m') : muHeld m' = muHeld m := by
  unfold muWriteAll at h
  extract_lets gs m1 at h
  obtain ⟨m2, h2, rfl⟩ := Option.map_eq_some_iff.1 h
  refine (foldl_keeps muHeld _ _ _ fun _ _ => muHeld_muPutBytes ..).trans ?_
  exact (foldl_bind_keeps (fun _ _ _ h => muHeld_muRelocate h) gs h2).trans (muHeld_of_muData (muData_muEcc m _))

theorem muHeld_muMarkWait (m : Mu) (a : Nat) : muHeld (muMarkWait m a) = muHeld m := by
  unfold muMarkWait
  split <;> rfl

/-- A write that its MU takes. -/
theorem muWrite_some {s : State} {t k a : Nat} {bs : List Byte} {poi : Bool} {m' : Mu} (h : muWriteAll (getMu s t k) a bs poi = some m') :
    (muWrite s t k a bs poi).2 = true ∧ getMu (muWrite s t k a bs poi).1 t k = m' := by
  unfold muWrite
  simp only [h, muRaise_getMu, getMu_setMu_same, and_self]

theorem besideMus_muWrite (s : State) (t k a : Nat) (bs : List Byte) (poi : Bool) : besideMus (muWrite s t k a bs poi).1 = besideMus s := by
  simp only [muWrite]
  split
  · exact besideMus_muRaise ..
  · rfl

theorem incGrows_muWrite (s : State) (t k a : Nat) (bs : List Byte) (poi : Bool) : IncGrows s (muWrite s t k a bs poi).1 := by
  simp only [muWrite]
  split
  · exact (incGrows_setMu ..).trans (incGrows_muRaise ..)
  · exact incGrows_of_inc rfl

theorem muHeld_muWrite (s : State) (t k a : Nat) (bs : List Byte) (poi : Bool) (t' k' : Nat) :
    muHeld (getMu (muWrite s t k a bs poi).1 t' k') = muHeld (getMu s t' k') := by
  simp only [muWrite]
  split
  · next h =>
    rw [muRaise_getMu]
    exact getMu_setMu_keeps muHeld (muHeld_muWriteAll h) t' k'
  · exact getMu_setMu_keeps muHeld (muHeld_muMarkWait ..) t' k'

theorem besideMus_muWriteQ (s : State) (t k a : Nat) (bs : List Byte) (poi : Bool) : besideMus (muWriteQ s t k a bs poi) = besideMus s := by
  unfold muWriteQ
  extract_lets m gs behind keep r
  split
  · rfl
  · split
    · exact besideMus_muWrite ..
    · exact (show besideMus (keep r.1) = besideMus r.1 from rfl).trans (besideMus_muWrite ..)

theorem muHeld_muWriteQ (s : State) (t k a : Nat) (bs : List Byte) (poi : Bool) (t' k' : Nat) :
    muHeld (getMu (muWriteQ s t k a bs poi) t' k') = muHeld (getMu s t' k') := by
  unfold muWriteQ
  extract_lets m gs behind keep r
  have hk (v : State) : muHeld (getMu (keep v) t' k') = muHeld (getMu v t' k') := getMu_modMu_keeps muHeld (by exact fun _ => rfl) ..
  split
  · exact hk s
  · split
    · exact muHeld_muWrite ..
    · exact (hk _).trans (muHeld_muWrite ..)

/-- With no other write waiting, a write that its MU takes is performed at once. -/
theorem muWriteQ_some {s : State} {t k a : Nat} {bs : List Byte} {poi : Bool} {m' : Mu} (hw : (getMu s t k).waitW = [])
    (h : muWriteAll (getMu s t k) a bs poi = some m') : getMu (muWriteQ s t k a bs poi) t k = m' := by
  obtain ⟨h2, hm⟩ := muWrite_some h
  unfold muWriteQ
  simp only [hw, List.any_nil, Bool.false_eq_true, if_false, h2, if_true, hm]

end Sys2Proof.Machine
end

section
/-!
PROOFS. Remote accesses of the Wick cores (R177, R193, R194, R196, Table 6.9): what an instruction with one product leaves, then LDR and STR, the
replies, and the access at its target.
-/
namespace Sys2Proof.Machine
open Sys2Proof

/-! ### An instruction with one product -/

theorem otherCores_of_wicks {s u : State} (h : u.wicks = s.wicks) (t c : Nat) : otherCores s u t c :=
  fun t' c' _ _ => congrArg (fun m => mget Wick.reset m (wkey t' c')) h

theorem otherCores_setWick {s v : State} {t c : Nat} (hc : c < 48) (h : otherCores s v t c) (w : Wick) : otherCores s (setWick v t c w) t c :=
  fun t' c' h' hne => (getWick_setWick_other v t c t' c' w hc h' hne).trans (h t' c' h' hne)

/-- A second write to the one core that has changed. -/
theorem onlyCore.setWick {s v : State} {t c : Nat} {w : Wick} (h : onlyCore s v t c w) (hc : c < 48) (w' : Wick) :
    onlyCore s (setWick v t c w') t c w' := by
  obtain ⟨-, ho, hf⟩ := h
  exact ⟨getWick_setWick_same .., otherCores_setWick hc ho w', hf⟩

theorem coreAndTraffic_of_onlyCore {s v : State} {t c : Nat} {w : Wick} (h : onlyCore s v t c w) : coreAndTraffic s v t c w := by
  obtain ⟨hw, ho, hf⟩ := h
  exact ⟨hw, ho, congrArg (fun x : State => { x with net := s.net, trace := s.trace, inc := s.inc }) hf⟩

theorem coreAndTraffic.setWick {s v : State} {t c : Nat} {w : Wick} (h : coreAndTraffic s v t c w) (hc : c < 48) (w' : Wick) :
    coreAndTraffic s (setWick v t c w') t c w' := by
  obtain ⟨-, ho, hf⟩ := h
  exact ⟨getWick_setWick_same .., otherCores_setWick hc ho w', hf⟩

theorem coreAndTraffic.inject {s v : State} {t c : Nat} {w : Wick} (h : coreAndTraffic s v t c w) (t' src dst fold epoch : Nat) (b : Body) :
    coreAndTraffic s (inject v t' src dst fold epoch b) t c w := by
  obtain ⟨hw, ho, hf⟩ := h
  exact ⟨hw, ho, hf⟩

/-- An instruction that makes one product applies it and retires. -/
theorem wkIssue_one {s : State} {t c : Nat} {uses : List Nat} {dec : Wick → WRes} {a : WAct} (h : coreReady s t c uses)
    (hd : dec (getWick s t c) = .ok [a] none) :
    wkIssue s t c uses dec = wkRetire (wkActOut (setWick s t c (wkActCore s t (getWick s t c) a)) t c a) t c none := by
  rw [wkIssue_ready s t c uses dec h, wkTry_ready s t c uses dec h, hd]
  unfold wkEnd wkApply wkActOne
  simp only [List.foldl_cons, List.foldl_nil, modWick_eq, h.2, Bool.false_and, Bool.false_eq_true, if_false]

theorem wkRetire_unlocked {s : State} {t c : Nat} (h : wkEvenLocked (getWick s t c) c = false) :
    wkRetire s t c none = setWick s t c (retired (getWick s t c)) := by
  unfold wkRetire
  simp only [modWick_eq, h, Bool.false_eq_true, if_false]
  rfl

/-- Only the packets under way matter for what was sent. -/
theorem sent_congr {s s' u u' : State} {p : Packet} (hs : s'.net = s.net) (hu : u'.net = u.net) (h : sent s u p) : sent s' u' p := by
  unfold sent getPacket at h ⊢
  rwa [hs, hu]

/-! ### LDR and STR (R193, R194) -/

/-- A core with a remote access under way: its tag holds the deadline and the packet's number. -/
def remoteWick (s : State) (t : Nat) (w : Wick) (st : Bool) (g rd : Nat) : Wick :=
  { w with tags := mset RTag.free w.tags g (.live (!st) rd (cyclesOf s t + bits (mget 0 w.ctx w.fold).toNat 32 16 * 16) s.net.next) }

/-- An instruction that sends a remote access takes the tag, sends the one packet and retires. -/
theorem wkIssue_remote {s : State} {t c : Nat} {uses : List Nat} {dec : Wick → WRes} {st : Bool} {g rd tile mu ofs : Nat} {d : Reg}
    (h : coreReady s t c uses) (hc : c < 48) (hd : dec (getWick s t c) = .ok [.remote st g rd tile mu ofs d] none) :
    coreAndTraffic s (wkIssue s t c uses dec) t c (retired (remoteWick s t (getWick s t c) st g rd)) ∧
      sent s (wkIssue s t c uses dec) (injected t (qaMake t c 0) (qaMake tile (50 + mu) 0) (getWick s t c).fold (epochAt s t) true
        (.racc st g ofs d)) := by
  let w := getWick s t c
  let v := setWick (setWick s t c w) t c (remoteWick s t w st g rd)
  have hv : getWick v t c = remoteWick s t w st g rd := getWick_setWick_same ..
  have hu : wkIssue s t c uses dec = setWick (inject v t (qaMake t c 0) (qaMake tile (50 + mu) 0) w.fold (epochAt s t) (.racc st g ofs d)) t c
      (retired (remoteWick s t w st g rd)) := by
    rw [wkIssue_one h hd]
    show wkRetire (wkActOut (setWick s t c w) t c _) t c none = _
    have ho : wkActOut (setWick s t c w) t c (.remote st g rd tile mu ofs d) =
        inject v t (qaMake t c 0) (qaMake tile (50 + mu) 0) w.fold (epochAt s t) (.racc st g ofs d) := by
      unfold wkActOut
      simp only [modWick_eq, getWick_setWick_same]
      show wkInject v t c 0 _ _ = _
      unfold wkInject
      rw [hv, coreAddr, Nat.add_zero, show epochAt v t = epochAt s t from rfl]
      rfl
    rw [ho, wkRetire_unlocked, inject_getWick, hv]
    rw [inject_getWick, hv]
    exact h.2
  have hc1 : coreAndTraffic s v t c (remoteWick s t w st g rd) := coreAndTraffic_of_onlyCore ((onlyCore_setWick s t c w hc).setWick hc _)
  rw [hu]
  exact ⟨(hc1.inject ..).setWick hc _,
    sent_congr rfl rfl (sent_inject v t _ _ _ _ _ (injected_ne_none _ _ _ _ _ _ _))⟩

theorem muRead_wicks (s : State) (t k a n : Nat) : (muRead s t k a n).2.2.wicks = s.wicks := (of_besideMus (besideMus_muRead ..)).2.2.2.1

/-- An instruction that reads an MU of its tile holds what it read as an own-tile load and retires. -/
theorem wkIssue_muLoad {s : State} {t c : Nat} {uses : List Nat} {dec : Wick → WRes} {rd mu ofs : Nat} (h : coreReady s t c uses)
    (hc : c < 48) (hd : dec (getWick s t c) = .ok [.muLoad rd mu ofs 4 false] none) :
    let w := getWick s t c
    let r := muRead s t mu ofs 4
    getWick (wkIssue s t c uses dec) t c = retired { w with own := w.own ++ [⟨rd, ⟨BitVec.ofNat 32 (leNat r.1), r.2.1, false⟩⟩] } ∧
      otherCores s (wkIssue s t c uses dec) t c := by
  intro w r
  let s1 := setWick s t c w
  let v := (muRead s1 t mu ofs 4).2.2
  obtain ⟨h1, h2⟩ := muRead_congr (s := s) (u := s1) (t := t) (k := mu) rfl ofs 4
  have hv : getWick v t c = w := (congrArg (fun m => mget Wick.reset m (wkey t c)) (muRead_wicks ..)).trans (getWick_setWick_same ..)
  have ho : wkActOut s1 t c (.muLoad rd mu ofs 4 false) =
      setWick v t c { w with own := w.own ++ [⟨rd, ⟨BitVec.ofNat 32 (leNat r.1), r.2.1, false⟩⟩] } := by
    unfold wkActOut
    simp only [modWick_eq, Bool.false_eq_true, if_false, h1, h2]
    show setWick v t c _ = _
    rw [hv]
  have hu : wkIssue s t c uses dec = setWick (setWick v t c { w with own := w.own ++ [⟨rd, ⟨BitVec.ofNat 32 (leNat r.1), r.2.1, false⟩⟩] }) t c
      (retired { w with own := w.own ++ [⟨rd, ⟨BitVec.ofNat 32 (leNat r.1), r.2.1, false⟩⟩] }) := by
    rw [wkIssue_one h hd]
    show wkRetire (wkActOut s1 t c _) t c none = _
    rw [ho, wkRetire_unlocked, getWick_setWick_same]
    rw [getWick_setWick_same]
    exact h.2
  have hoth : otherCores s v t c := fun t' c' h' hne =>
    (otherCores_of_wicks (muRead_wicks s1 t mu ofs 4) t c t' c' h' hne).trans (otherCores_setWick hc (otherCores_of_wicks rfl t c) w t' c' h' hne)
  rw [hu]
  exact ⟨getWick_setWick_same .., otherCores_setWick hc (otherCores_setWick hc hoth _) _⟩

section
variable {s : State} {t : TileId} {c : CoreIx} {gd a b : GReg} {g : Nat} (h : coreReady s t c [gd.val, a.val, b.val])
  (ha : (wkReg (getWick s t c) a).poi = false) (hb : (wkReg (getWick s t c) b).poi = false)
include h ha hb

/-- LDR of another tile, or of a misaligned address, is a remote load (R193, R194). -/
theorem execLdr_remote (hg : freeTag (getWick s t c) = some g)
    (hr : ¬(bits (wkReg (getWick s t c) a).v.toNat 2 14 = t.val ∧ bits (wkReg (getWick s t c) b).v.toNat 0 20 % 4 = 0)) :
    ∃ u, exec (.ldr t c gd a b) s = .next u ∧ coreAndTraffic s u t c (retired (remoteWick s t (getWick s t c) false g gd)) ∧
      sent s u (injected t (qaMake t c 0) (qaMake (bits (wkReg (getWick s t c) a).v.toNat 2 14) (50 + bits (wkReg (getWick s t c) a).v.toNat 0 2) 0)
        (getWick s t c).fold (epochAt s t) true (.racc false g (bits (wkReg (getWick s t c) b).v.toNat 0 20) Reg.zero)) := by
  refine ⟨_, rfl, wkIssue_remote h c.isLt ?_⟩
  have hn : (bits (wkReg (getWick s t c) a).v.toNat 2 14 == t.val && bits (wkReg (getWick s t c) b).v.toNat 0 20 % 4 == 0) = false := by
    simpa using hr
  simp only [ha, hb, hn, hg, Bool.false_eq_true, if_false]

/-- An aligned LDR of the core's own tile is an own-tile load (R194). -/
theorem execLdr_own (ht : bits (wkReg (getWick s t c) a).v.toNat 2 14 = t.val) (ho : bits (wkReg (getWick s t c) b).v.toNat 0 20 % 4 = 0)
    (hl : (getWick s t c).own.length < 4) :
    let r := muRead s t (bits (wkReg (getWick s t c) a).v.toNat 0 2) (bits (wkReg (getWick s t c) b).v.toNat 0 20) 4
    ∃ u, exec (.ldr t c gd a b) s = .next u ∧
      getWick u t c = retired { getWick s t c with
        own := (getWick s t c).own ++ [⟨gd.val, ⟨BitVec.ofNat 32 (leNat r.1), r.2.1, false⟩⟩] } ∧
      otherCores s u t c := by
  refine ⟨_, rfl, wkIssue_muLoad h c.isLt ?_⟩
  simp only [ha, hb, ht, ho, beq_self_eq_true, Bool.and_self, Nat.not_le.2 hl, Bool.false_eq_true, if_true, if_false]

/-- STR is a remote store (R193). -/
theorem execStr_remote (hg : freeTag (getWick s t c) = some g) :
    ∃ u, exec (.str t c gd a b) s = .next u ∧ coreAndTraffic s u t c (retired (remoteWick s t (getWick s t c) true g 0)) ∧
      sent s u (injected t (qaMake t c 0) (qaMake (bits (wkReg (getWick s t c) a).v.toNat 2 14) (50 + bits (wkReg (getWick s t c) a).v.toNat 0 2) 0)
        (getWick s t c).fold (epochAt s t) true
        (.racc true g (bits (wkReg (getWick s t c) b).v.toNat 0 20) (wkReg (getWick s t c) gd))) := by
  refine ⟨_, rfl, wkIssue_remote h c.isLt ?_⟩
  simp only [ha, hb, hg, Bool.false_eq_true, if_false]

end

theorem bits_tile (n : Nat) : bits n 2 14 = n / 4 % 2 ^ 14 := by
  rw [bits, Nat.shiftRight_eq_div_pow]

theorem bits_low (n len : Nat) : bits n 0 len = n % 2 ^ len := by
  rw [bits, Nat.shiftRight_zero]

/-! ### Replies (R194, R196) -/

/-- The core after an access has ended: a load has its register, the tag is in its next state, and what was not DONE is noted in `RLERR`. -/
def endedRemote (w : Wick) (tag rd : Nat) (l : Bool) (after : RTag) (o : Outc) (v : Reg) : Wick :=
  let w1 := if l then wkSetReg w rd (if o = .done then v else ⟨0, true, false⟩) else w
  wkRlerr { w1 with tags := mset RTag.free w1.tags tag after } o

theorem endRemote_unlocked {s : State} {t c tag rd dl pid : Nat} {l : Bool} (h : mget RTag.free (getWick s t c).tags tag = .live l rd dl pid)
    (hk : wkEvenLocked (getWick s t c) c = false) (after : RTag) (o : Outc) (v : Reg) :
    endRemote s t c tag after o v = setWick s t c (endedRemote (getWick s t c) tag rd l after o v) := by
  unfold endRemote
  simp only [h, hk, modWick_eq, Bool.false_eq_true, if_false]
  rfl

theorem wkSetReg_keeps (w : Wick) (r : Nat) (v : Reg) :
    (wkSetReg w r v).tags = w.tags ∧ (wkSetReg w r v).rlerrN = w.rlerrN ∧ (wkSetReg w r v).rlerrO = w.rlerrO ∧ (wkSetReg w r v).tie = w.tie := by
  unfold wkSetReg
  split <;> exact ⟨rfl, rfl, rfl, rfl⟩

section
variable {s : State} {pid : Nat} {p : Packet} {t c tag : Nat} {v : W32} {poi : Bool} {o : Outc} (hp : getPacket s pid = some p)
  (hb : p.body = .rrsp tag v poi o) (hl : p.loc = .deliver t) (ht : qaTile p.dst = t) (hc : qaUnit p.dst = c) (h48 : c < 48)
include hp hb hl ht hc h48

/-- A reply to the request that its tag awaits ends the access: in time with its own outcome, after the deadline with TIMEOUT (R196). -/
theorem execRrsp_live {rd dl : Nat} {l : Bool} (hg : mget RTag.free (getWick s t c).tags tag = .live l rd dl p.re)
    (hk : wkEvenLocked (getWick s t c) c = false) :
    let now := cyclesOf s t
    let w := endedRemote (getWick s t c) tag rd l .free (if now ≤ dl then o else .timeout) ⟨v, poi, false⟩
    ∃ u, exec (.rrsp pid) s = .next u ∧ onlyCore (delPacket s pid) u t c (if now = dl then { w with tie := satAdd 16 w.tie 1 } else w) := by
  intro now w
  have hnow : cyclesOf (delPacket s pid) t = now := rfl
  have hg' : mget RTag.free (getWick (delPacket s pid) t c).tags tag = .live l rd dl p.re := hg
  have hend := fun o v => endRemote_unlocked (s := delPacket s pid) hg' hk .free o v
  show ∃ u, execRrsp pid s = .next u ∧ _
  unfold execRrsp
  simp only [hp, hb, hl, ht, hc, bne_self_eq_false, Bool.false_or, decide_eq_true_eq, ge_iff_le, Nat.not_le.2 h48, if_false, hg', hnow,
    Bool.false_eq_true]
  by_cases hle : now ≤ dl
  · have hw : w = endedRemote (getWick s t c) tag rd l .free o ⟨v, poi, false⟩ := by
      unfold w
      rw [if_pos hle]
    rw [if_neg (by omega), hend]
    by_cases he : now = dl
    · refine ⟨_, rfl, ?_⟩
      simp only [he, beq_self_eq_true, if_true, modWick_eq, getWick_setWick_same, hw]
      exact (onlyCore_setWick (delPacket s pid) t c _ h48).setWick h48 _
    · refine ⟨_, rfl, ?_⟩
      simp only [beq_iff_eq, he, if_false, hw]
      exact onlyCore_setWick _ t c _ h48
  · have hw : w = endedRemote (getWick s t c) tag rd l .free .timeout Reg.zero := by
      unfold w
      rw [if_neg hle]
      rfl
    rw [if_pos (by omega), hend]
    refine ⟨_, rfl, ?_⟩
    rw [if_neg (by omega), hw]
    exact onlyCore_setWick _ t c _ h48

/-- A reply to an earlier request of its tag is discarded (R209). -/
theorem execRrsp_stale {rd dl rq : Nat} {l : Bool} (hg : mget RTag.free (getWick s t c).tags tag = .live l rd dl rq) (hne : p.re ≠ rq) :
    exec (.rrsp pid) s = .next (delPacket s pid) := by
  have hg' : mget RTag.free (getWick (delPacket s pid) t c).tags tag = .live l rd dl rq := hg
  show execRrsp pid s = _
  unfold execRrsp
  simp only [hp, hb, hl, ht, hc, bne_self_eq_false, Bool.false_or, decide_eq_true_eq, ge_iff_le, Nat.not_le.2 h48, if_false, hg', bne_iff_ne,
    ne_eq, hne, not_false_eq_true, if_true]

/-- The reply to an access that has timed out frees its tag (R196). -/
theorem execRrsp_expired (hg : mget RTag.free (getWick s t c).tags tag = .expired p.re) :
    ∃ u, exec (.rrsp pid) s = .next u ∧
      onlyCore (delPacket s pid) u t c { getWick s t c with tags := mset RTag.free (getWick s t c).tags tag .free } := by
  have hg' : mget RTag.free (getWick (delPacket s pid) t c).tags tag = .expired p.re := hg
  show ∃ u, execRrsp pid s = .next u ∧ _
  unfold execRrsp
  simp only [hp, hb, hl, ht, hc, bne_self_eq_false, Bool.false_or, decide_eq_true_eq, ge_iff_le, Nat.not_le.2 h48, if_false, hg', modWick_eq,
    Bool.false_eq_true]
  exact ⟨_, rfl, onlyCore_setWick (delPacket s pid) t c _ h48⟩

end

/-! ### The access at its target (R177, Table 6.9) -/

theorem bare_newPacket_ne_none (t src dst fold epoch re : Nat) (b : Body) :
    bare (newPacket src dst fold epoch b (.router t 4) re) ≠ Packet.none := injected_ne_none _ _ _ _ _ _ _

/-- A packet that a unit of a tile sends in answer to packet `re` is the next one under way. -/
theorem getPacket_newPacket (s : State) (t src dst fold epoch re : Nat) (b : Body) :
    let u := putPacket s (newPacket src dst fold epoch b (.router t 4) re)
    (getPacket u s.net.next).map bare = some (injected t src dst fold epoch (bodyCtl b) b) ∧ (getPacket u s.net.next).map Packet.re = some re := by
  intro u
  have hs := getPacket_putPacket_same s _ (bare_newPacket_ne_none t src dst fold epoch re b)
  refine ⟨hs, ?_⟩
  have hg : getPacket u s.net.next = none ∨
      getPacket u s.net.next = some { newPacket src dst fold epoch b (.router t 4) re with
        id := s.net.next, arr := s.net.seq, cyc := locCycle s (.router t 4) } := by
    unfold getPacket u putPacket
    simp only [mget_mset_same]
    split
    · exact .inl rfl
    · exact .inr rfl
  rcases hg with hg | hg
  · rw [hg] at hs
    cases hs
  · rw [hg]
    rfl

theorem answerUnit_addressed {t un : Nat} {p : Packet} (hf : qaTileForm p.dst = true) (ht : qaTile p.dst = t) (hu : qaUnit p.dst = un) :
    answerUnit t p = un := by
  unfold answerUnit
  simp [hf, ht, hu]

/-- A CU or MU answers the packet that came to it and is gone, under its own fold and epoch (R214). -/
theorem answeredWith_answerWith {s v : State} {pid t un : Nat} {p : Packet} (hp : getPacket s pid = some p) (hpid : pid < s.net.next)
    (hf : qaTileForm p.dst = true) (ht : qaTile p.dst = t) (hu : qaUnit p.dst = un) (h48 : 48 ≤ un) (hn : v.net = (delPacket s pid).net)
    (hfl : v.flows = s.flows) (hr : v.regions = s.regions) (dst : Nat) (b : Body) :
    answeredWith s (answerWith v t p dst b) pid
      (injected t (qaMake t un 0) dst (getFlow s t un).curFold (epochAt s t) (bodyCtl b) b) := by
  have hnx : v.net.next = s.net.next := by rw [hn]; rfl
  have hgv : ∀ k, getPacket v k = getPacket (delPacket s pid) k := fun k => by rw [getPacket, getPacket, hn]
  have hfold : unitFold v t un = (getFlow s t un).curFold := by
    unfold unitFold
    rw [if_neg (by omega), getFlow_congr hfl]
  have hep : epochAt v t = epochAt s t := by
    unfold epochAt regionAt regionOf getRegion
    rw [hr]
  have ha : answerWith v t p dst b = putPacket v (newPacket (qaMake t un 0) dst (getFlow s t un).curFold (epochAt s t) b (.router t 4) p.id) := by
    unfold answerWith
    simp only [answerUnit_addressed hf ht hu, hfold, hep]
  obtain ⟨h1, h2⟩ := getPacket_newPacket v t (qaMake t un 0) dst (getFlow s t un).curFold (epochAt s t) p.id b
  rw [ha]
  refine ⟨⟨v.net.next, hnx.ge, h1, by rw [h2, hp]; rfl⟩, ?_, fun k hk hne => ?_⟩
  · rw [getPacket_putPacket_other _ _ _ (by omega), hgv, getPacket_delPacket_same]
  · rw [getPacket_putPacket_other _ _ _ (by omega), hgv, getPacket_delPacket_other _ _ _ hne]

section
variable {s : State} {pid t k tag ofs : Nat} {p : Packet} {st : Bool} {d : Reg} (hp : getPacket s pid = some p)
  (hb : p.body = .racc st tag ofs d) (hl : p.loc = .deliver t) (ht : qaTile p.dst = t) (hu : qaUnit p.dst = 50 + k) (hk : k < 4)
include hp hb hl ht hu hk

/-- An access that comes to a fenced tile, or from outside to a group that recovers, is refused (R518). -/
theorem execRacc_refused (h : fenced s t = true ∨ groupRecovering s t = true ∧ foreign s t p.src = true) :
    exec (.racc pid) s = .next (answerWith (delPacket s pid) t p p.src (.rrsp tag 0 false .refusedFenced)) := by
  have hz : (fenced s t || groupRecovering s t && foreign s t p.src) = true := by simpa using h
  show execRacc pid s = _
  unfold execRacc
  simp only [hp, hb, hl, ht, hu, bne_self_eq_false, hz, if_true]
  simp [show ¬(50 + k < 50) by omega, show ¬(50 + k > 53) by omega]

variable (hz : fenced s t = false) (hr : groupRecovering s t = false)
include hz hr

/-- A misaligned access is answered FAULT and raises 0x0103. -/
theorem execRacc_misaligned (h : ofs % 4 ≠ 0) :
    exec (.racc pid) s = .next (answerWith (delPacket (raiseInc s (tileInc s 0x0103 utMu t k ofs)) pid) t p p.src (.rrsp tag 0 false .fault)) := by
  show execRacc pid s = _
  unfold execRacc
  simp only [hp, hb, hl, ht, hu, bne_self_eq_false, hz, hr, Nat.add_sub_cancel_left]
  simp [show ¬(50 + k < 50) by omega, show ¬(50 + k > 53) by omega, h]

/-- An aligned load answers what the MU's memory reads as. -/
theorem execRacc_load (h : ofs % 4 = 0) (hst : st = false) :
    let r := muRead s t k ofs 4
    exec (.racc pid) s = .next (answerWith (delPacket r.2.2 pid) t p p.src (.rrsp tag (BitVec.ofNat 32 (leNat r.1)) r.2.1 .done)) := by
  intro r
  show execRacc pid s = _
  unfold execRacc
  simp only [hp, hb, hl, ht, hu, bne_self_eq_false, hz, hr, Nat.add_sub_cancel_left]
  simp [show ¬(50 + k < 50) by omega, show ¬(50 + k > 53) by omega, h, hst]
  rfl

/-- An aligned store that its MU takes is answered DONE. -/
theorem execRacc_store (h : ofs % 4 = 0) (hst : st = true) {m : Mu} (hm : muWriteAll (getMu s t k) ofs (leBytes 4 d.v.toNat) d.poi = some m) :
    exec (.racc pid) s = .next (answerWith (delPacket (muWrite s t k ofs (leBytes 4 d.v.toNat) d.poi).1 pid) t p p.src (.rrsp tag 0 false .done)) := by
  show execRacc pid s = _
  unfold execRacc
  simp only [hp, hb, hl, ht, hu, bne_self_eq_false, hz, hr, Nat.add_sub_cancel_left]
  simp [show ¬(50 + k < 50) by omega, show ¬(50 + k > 53) by omega, h, hst, (muWrite_some hm).1]

end

theorem besideMus_delPacket {s v : State} (h : besideMus v = besideMus s) (pid : Nat) : besideMus (delPacket v pid) = besideMus (delPacket s pid) := by
  have e := congrArg (fun x => delPacket x pid) h
  exact e

/-- An answer leaves incidents and MUs as they are. -/
theorem answerWith_keeps (s : State) (pid t : Nat) (p : Packet) (dst : Nat) (b : Body) :
    (answerWith (delPacket s pid) t p dst b).inc = s.inc ∧ (answerWith (delPacket s pid) t p dst b).mus = s.mus := ⟨rfl, rfl⟩

/-- Every access is answered, served or not. -/
theorem execRacc_next (pid : Nat) (s : State) : ∃ u, exec (.racc pid) s = .next u := by
  show ∃ u, execRacc pid s = .next u
  unfold execRacc
  repeat' split
  all_goals exact ⟨_, rfl⟩

/-- Settles O11: LDR and STR by what their one product does, replies by the state of their tag, accesses by the row of Table 6.9 that they
meet. -/
theorem wickRemoteAccess : Obligations.WickRemoteAccess := by
  refine ⟨?_, ?_, ?_, ?_⟩
  · intro s t c gd a b g h w tile mu ofs due ha hb hg
    have htile : bits (wkReg w a).v.toNat 2 14 = tile := bits_tile _
    have hmu : bits (wkReg w a).v.toNat 0 2 = mu := bits_low _ 2
    have hofs : bits (wkReg w b).v.toNat 0 20 = ofs := bits_low _ 20
    refine ⟨fun hne => ?_, fun ht ho hlen => ?_, ?_⟩
    · have hr : ¬(bits (wkReg w a).v.toNat 2 14 = t.val ∧ bits (wkReg w b).v.toNat 0 20 % 4 = 0) := by
        rw [htile, hofs]
        rintro ⟨h1, h2⟩
        rcases hne with h3 | h3
        · exact h3 h1
        · exact h3 h2
      have hl := execLdr_remote h ha hb hg hr
      rwa [htile, hmu, hofs] at hl
    · have hl := execLdr_own h ha hb (htile.trans ht) (by rw [hofs]; exact ho) hlen
      rwa [hmu, hofs] at hl
    · have hl := execStr_remote h ha hb hg
      rwa [htile, hmu, hofs] at hl
  · intro s pid p t c tag rd dl l poi v o hp hb hl ht hc h48 hg hk w now o' w1 w2 w3
    obtain ⟨h1, h2, h3, h4⟩ : w1.tags = w.tags ∧ w1.rlerrN = w.rlerrN ∧ w1.rlerrO = w.rlerrO ∧ w1.tie = w.tie := by
      unfold w1
      split
      · exact wkSetReg_keeps ..
      · exact ⟨rfl, rfl, rfl, rfl⟩
    have he : endedRemote w tag rd l .free o' ⟨v, poi, false⟩ = w3 := by
      show wkRlerr { w1 with tags := mset RTag.free w1.tags tag .free } o' = w3
      unfold wkRlerr w3 w2
      simp only [h1, h2, h3, beq_iff_eq]
    have htie : w3.tie = w.tie := by
      unfold w3
      split <;> exact h4
    obtain ⟨u, hx, hu⟩ := execRrsp_live hp hb hl ht hc h48 hg hk
    refine ⟨u, hx, ?_⟩
    rw [← htie, ← he]
    exact hu
  · intro s pid p t c tag rd dl rq l poi v o hp hb hl ht hc h48
    exact ⟨fun hg hne => execRrsp_stale hp hb hl ht hc h48 hg hne, fun hg => execRrsp_expired hp hb hl ht hc h48 hg⟩
  · intro s pid p t k tag ofs st d hp hpid hb hl hf ht hu hk answer
    obtain ⟨u, hx⟩ := execRacc_next pid s
    have hans {v : State} {x : W32} {pz : Bool} {o : Outc} (he : exec (.racc pid) s = .next (answerWith v t p p.src (.rrsp tag x pz o)))
        (hv : besideMus v = besideMus (delPacket s pid)) :
        answeredWith s u pid (answer x pz o) ∧ u = answerWith v t p p.src (.rrsp tag x pz o) := by
      obtain ⟨hn, hfl, hr, -, -⟩ := of_besideMus hv
      rw [hx] at he
      cases he
      exact ⟨answeredWith_answerWith hp hpid hf ht hu (by omega) hn hfl hr _ _, rfl⟩
    refine ⟨u, hx, fun hz => ?_, fun _ hr ho => ?_, fun hz hr ho => ?_, fun hz hr ho hst => ?_, fun hz hr ho hst m hm => ?_⟩
    · obtain ⟨ha, rfl⟩ := hans (execRacc_refused hp hb hl ht hu hk (.inl hz)) rfl
      exact ⟨ha, rfl⟩
    · obtain ⟨ha, rfl⟩ := hans (execRacc_refused hp hb hl ht hu hk (.inr ⟨hr, ho⟩)) rfl
      exact ⟨ha, rfl⟩
    · have hv := besideErrors_raiseInc s (tileInc s 0x0103 utMu t k ofs)
      obtain ⟨ha, rfl⟩ := hans (execRacc_misaligned hp hb hl ht hu hk hz hr ho)
        (besideMus_delPacket (congrArg (fun x : State => { x with mus := State.reset.mus }) hv) pid)
      have hmus := congrArg State.mus hv
      obtain ⟨hi, hm⟩ := answerWith_keeps (raiseInc s (tileInc s 0x0103 utMu t k ofs)) pid t p p.src (.rrsp tag 0 false .fault)
      exact ⟨ha, raised_congr rfl rfl hi (raised_tileInc s 0x0103 utMu t k ofs), hm.trans hmus⟩
    · exact (hans (execRacc_load hp hb hl ht hu hk hz hr ho hst)
        (besideMus_delPacket (besideMus_muRead ..) pid)).1
    · obtain ⟨ha, rfl⟩ := hans (execRacc_store hp hb hl ht hu hk hz hr ho hst hm)
        (besideMus_delPacket (besideMus_muWrite ..) pid)
      exact ⟨ha, (getMu_congr (answerWith_keeps ..).2 t k).trans (muWrite_some hm).2⟩

end Sys2Proof.Machine
end

section
/-!
PROOFS. A SNAPSHOT wave over a state whose flows are not canonical (R170, R530): clearing counters can remove the first of two entries of one
unit, and the unit then reads the second, with another fold map and no copy-out program.
-/
namespace Sys2Proof.Machine
open Sys2Proof

/-- A SNAPSHOT wave to region 0, sent at 0. -/
def shadowedWave : Wave := ⟨.snapshot, 1, 0, false, 1, .none, 0, []⟩

/-- MU 0 of tile 0, enabled for snapshots, with a copy-out program in configuration slot 0. -/
def shadowedMu : Mu := { Mu.reset with snapW := 1, progs := [(0, BitVec.ofNat 64 (5 * 2 ^ 61))] }

/-- Region 0 is tile 0, the clear of counter set 1 of tile 0 is armed, and MU 0's flow has two entries: the first holds one stall counter and
nothing else, the second maps fold 0 to slot 1. -/
def shadowedFlow : State :=
  { State.reset with
    lamp := { State.reset.lamp with sent := [shadowedWave] }
    regions := [(0, { Region.none with st := .running })]
    mus := [(0, shadowedMu)]
    flows := [(ukey 0 50, { Flow.reset with stall := [(0, 1)] }), (ukey 0 50, { Flow.reset with foldMap := [(0, 1)] })]
    armed := [(0x01 * 65536, true)] }

/-- Before the wave the MU can take a snapshot, with program 0. -/
theorem shadowedFlow_ready : snSen (getMu shadowedFlow 0 0).snapW = true ∧ (getMu shadowedFlow 0 0).snap = none ∧
    copyOutProg shadowedFlow 0 0 = some 0 := by decide

/-- The wave's counter clear empties the first entry and drops it; the MU then finds no copy-out program and starts no snapshot. -/
theorem shadowedFlow_snapshot : ∃ u, exec (.snapshot [] [] [] []) shadowedFlow = .next u ∧ (getMu u 0 0).snap = none := ⟨_, rfl, by decide⟩

/-- Refutes O27: the first clause (SNAPSHOT) does not ask for flows in canonical form. The wave clears armed counters with `mmap`, which drops an
entry that has become the reset value; a second entry of the same unit, which no state reached from reset has, then comes to light. -/
theorem not_wavesTakeEffect : ¬ Obligations.WavesTakeEffect := by
  unfold Obligations.WavesTakeEffect
  rintro ⟨h, -⟩
  obtain ⟨u, hu, -, -, -, -, hs⟩ := h shadowedFlow shadowedWave [] [] [] [] rfl rfl rfl
  obtain ⟨v, hv, hnone⟩ := shadowedFlow_snapshot
  obtain ⟨hen, hidle, hprog⟩ := shadowedFlow_ready
  obtain rfl : u = v := by
    rw [hu] at hv
    cases hv
    rfl
  obtain ⟨sn, hsn, -⟩ := hs 0 0 0 0 (by decide) (by decide) (by decide) (by decide) hen hidle hprog
  exact absurd (hnone.symm.trans hsn) (by simp)

end Sys2Proof.Machine
end

section
/-!
PROOFS. Descriptors and rings (R155, R168, R233 to R238, Table 7.9): what placing a record does to the ring and to the memory, then the four
commands of a ring program.
-/
namespace Sys2Proof.Machine
open Sys2Proof

/-! ### What decides the words of a program and the epoch -/

theorem epochAt_congr {s u : State} (h : u.regions = s.regions) (t : Nat) : epochAt u t = epochAt s t := by
  unfold epochAt regionAt regionOf getRegion
  rw [h]

theorem unitFold_flow {s u : State} (h : u.flows = s.flows) {n : Nat} (hn : 48 ≤ n) (t : Nat) : unitFold u t n = (getFlow s t n).curFold := by
  unfold unitFold
  rw [if_neg (by omega), getFlow_congr h]

theorem progWord_congr {s u : State} {t m : Nat} (hp : (getMu u t m).progs = (getMu s t m).progs) (hf : u.flows = s.flows) (p i : Nat) :
    progWord u t m p i = progWord s t m p i := by
  unfold progWord
  rw [hp, getFlow_congr hf]

theorem progRing_congr {s u : State} {t m : Nat} (hp : (getMu u t m).progs = (getMu s t m).progs) (hf : u.flows = s.flows) (p : Nat) :
    progRing u t m p = progRing s t m p := by
  unfold progRing ringSizes
  simp only [progWord_congr hp hf]

/-- Parts of an MU that neither its memory nor its snapshot nor its waiting writes are. -/
theorem parts_of_muHeld {m n : Mu} (h : muHeld m = muHeld n) : m.rings = n.rings ∧ m.jobs = n.jobs ∧ m.progs = n.progs := by
  have hr := congrArg Mu.rings h
  have hj := congrArg Mu.jobs h
  have hp := congrArg Mu.progs h
  exact ⟨hr, hj, hp⟩

/-! ### Placing a record (R236 to R238) -/

/-- The record that a placement has put in stands last, at its place; all else of it is as it was offered. -/
theorem ringPut_recs {size ov : Nat} {r r' : RingRt} {x : RingRec} (h : ringPut size ov r x = some r') :
    ∃ o b, r'.recs = r.recs ++ [{ x with ofs := o, ov := b }] := by
  unfold ringPut at h
  split at h
  · cases h
    exact ⟨_, _, rfl⟩
  · split at h <;> cases h
    exact ⟨_, _, rfl⟩

/-- The state after the PAD that a placement of `len` bytes leaves, if it leaves one (R237). -/
def ringPadded (s : State) (t : Nat) (ra : RingAt) (rg : RingRt) (len : Nat) : State :=
  match ringPlace ra.size rg len with
  | some (some (o, n), _) => muWriteQ s t ra.mu (ra.base + o) (leBytes 8 (recHeader 0 15 n false false)) false
  | _ => s

theorem ringPadded_none {s : State} {t : Nat} {ra : RingAt} {rg : RingRt} {len : Nat}
    (h : ∀ pad o, ringPlace ra.size rg len ≠ some (some pad, o)) : ringPadded s t ra rg len = s := by
  unfold ringPadded
  split
  · next he => exact absurd he (h _ _)
  · rfl

theorem ringPadded_pad {s : State} {t : Nat} {ra : RingAt} {rg : RingRt} {len o n k : Nat} (h : ringPlace ra.size rg len = some (some (o, n), k)) :
    ringPadded s t ra rg len = muWriteQ s t ra.mu (ra.base + o) (leBytes 8 (recHeader 0 15 n false false)) false := by
  unfold ringPadded
  rw [h]

theorem ringPadded_keeps (s : State) (t : Nat) (ra : RingAt) (rg : RingRt) (len : Nat) :
    besideMus (ringPadded s t ra rg len) = besideMus s ∧
      ∀ t' k', muHeld (getMu (ringPadded s t ra rg len) t' k') = muHeld (getMu s t' k') := by
  unfold ringPadded
  split
  · exact ⟨besideMus_muWriteQ .., fun _ _ => muHeld_muWriteQ ..⟩
  · exact ⟨rfl, fun _ _ => rfl⟩

theorem ringAdd_none {ra : RingAt} {rg : RingRt} {x : RingRec} (h : ringPut ra.size ra.ovSize rg x = none) (s : State) (t : Nat) :
    ringAdd s t ra rg x = none := by
  unfold ringAdd
  rw [h]
  rfl

/-- A record that is only reserved takes its place; nothing of it is written (R233). -/
theorem ringAdd_reserved {ra : RingAt} {rg rg' : RingRt} {x : RingRec} (h : ringPut ra.size ra.ovSize rg x = some rg') (hx : x.done = false)
    (s : State) (t : Nat) : ringAdd s t ra rg x = some (ringPadded s t ra rg x.len, rg') := by
  obtain ⟨o, b, hr⟩ := ringPut_recs h
  unfold ringAdd
  simp only [h, Option.map_some, hr, List.getLast?_concat, hx, Bool.false_eq_true, if_false]
  rfl

/-- A complete record is written where it has its place (R236). -/
theorem ringAdd_written {ra : RingAt} {rg rg' : RingRt} {x r : RingRec} {l : List RingRec} (h : ringPut ra.size ra.ovSize rg x = some rg')
    (hr : rg'.recs = l ++ [r]) (hx : r.done = true) (s : State) (t : Nat) :
    ringAdd s t ra rg x = some (ringWrite (ringPadded s t ra rg x.len) t ra r, rg') := by
  unfold ringAdd
  simp only [h, Option.map_some, hr, List.getLast?_concat, hx, if_true]
  rfl

/-- A record that lies in the ring is written to the MU's memory. -/
theorem ringWrite_inRing {r : RingRec} (h : r.ov = false) (s : State) (t : Nat) (ra : RingAt) :
    ringWrite s t ra r = muWriteQ s t ra.mu (ra.base + r.ofs) (recBytes r) r.poi := by
  unfold ringWrite
  rw [h]
  rfl

/-- What writing a record leaves: the flows, the regions, the numbers of packets already given, and of the MUs all but their memories. -/
structure RingKept (s u : State) : Prop where
  flows : u.flows = s.flows
  regions : u.regions = s.regions
  next : s.net.next ≤ u.net.next
  held (t k : Nat) : muHeld (getMu u t k) = muHeld (getMu s t k)

theorem RingKept.refl (s : State) : RingKept s s := ⟨rfl, rfl, Nat.le_refl _, fun _ _ => rfl⟩

theorem RingKept.trans {s u v : State} (h : RingKept s u) (h' : RingKept u v) : RingKept s v :=
  ⟨h'.flows.trans h.flows, h'.regions.trans h.regions, Nat.le_trans h.next h'.next, fun t k => (h'.held t k).trans (h.held t k)⟩

theorem ringKept_of_besideMus {s u : State} (h : besideMus u = besideMus s) (hm : ∀ t k, muHeld (getMu u t k) = muHeld (getMu s t k)) :
    RingKept s u := by
  obtain ⟨hn, hf, hr, -, -⟩ := of_besideMus h
  exact ⟨hf, hr, by rw [hn], hm⟩

theorem ringKept_tileMwr (s : State) (t src a req cls : Nat) (data : List Byte) (poi : List Bool) :
    RingKept s (tileMwr s t src a req cls data poi) := by
  unfold tileMwr
  split
  · exact ⟨rfl, rfl, Nat.le_succ _, fun _ _ => rfl⟩
  · have h := besideErrors_raiseInc s (tileInc s 0x0110 utTile t 0 a)
    have hm := congrArg State.mus h
    exact ringKept_of_besideMus (congrArg (fun v : State => { v with mus := State.reset.mus }) h) fun _ _ => congrArg muHeld (getMu_congr hm _ _)

theorem ringKept_ringWrite (s : State) (t : Nat) (ra : RingAt) (r : RingRec) : RingKept s (ringWrite s t ra r) := by
  unfold ringWrite
  split
  · exact List.foldlRecOn (motive := RingKept s) _ _ (RingKept.refl s) fun u hu e _ => hu.trans (ringKept_tileMwr ..)
  · exact ringKept_of_besideMus (besideMus_muWriteQ ..) fun _ _ => muHeld_muWriteQ ..

theorem ringKept_ringAdd {s s' : State} {t : Nat} {ra : RingAt} {rg rg' : RingRt} {x : RingRec} (h : ringAdd s t ra rg x = some (s', rg')) :
    RingKept s s' := by
  have hp := ringKept_of_besideMus (ringPadded_keeps s t ra rg x.len).1 (ringPadded_keeps s t ra rg x.len).2
  obtain ⟨rg1, hr, -⟩ := Option.map_eq_some_iff.1 h
  obtain ⟨o, b, hl⟩ := ringPut_recs hr
  cases hd : x.done with
  | false =>
    rw [ringAdd_reserved hr hd] at h
    cases h
    exact hp
  | true =>
    rw [ringAdd_written hr hl hd] at h
    cases h
    exact hp.trans (ringKept_ringWrite ..)

/-! ### A descriptor comes (R233, Table 7.9) -/

theorem modMu_net (s : State) (t k : Nat) (f : Mu → Mu) : (modMu s t k f).net = s.net := rfl

theorem setMu_delPacket_frame (s : State) (pid t k : Nat) (m : Mu) :
    ({ setMu (delPacket s pid) t k m with mus := s.mus, net := s.net } : State) = s := rfl

theorem getPacket_congr {s u : State} (h : u.net = s.net) (n : Nat) : getPacket u n = getPacket s n := by
  unfold getPacket
  rw [h]

theorem answerFrom_desc {p : Packet} {d : QEnt} (hb : p.body = .desc d) (s : State) (t : Nat) (o : Outc) :
    answerFrom s t p o = answerWith s t p p.src (.reply o 3 (qaQueue p.src)) := by
  unfold answerFrom replyTo
  rw [hb]
  rfl

section
variable {s : State} {pid t k : Nat} {p : Packet} {d : QEnt} (hp : getPacket s pid = some p)
  (hb : p.body = .desc d) (hl : p.loc = .deliver t) (ht : qaTile p.dst = t) (hu : qaUnit p.dst = 50 + k) (hk : k < 4)
include hp hb hl ht hu hk

/-- A descriptor at a fenced tile is refused. -/
theorem execDesc_refused (h : fenced s t = true) :
    exec (.desc pid) s = .next (answerWith (delPacket s pid) t p p.src (.reply .refusedFenced 3 (qaQueue p.src))) := by
  have hz : fenced (delPacket s pid) t = true := h
  show execDesc pid s = _
  unfold execDesc
  simp only [hp, hb, hl, ht, hu, bne_self_eq_false, hz, if_true, answerFrom_desc hb]
  simp [show ¬(54 ≤ 50 + k) by omega]

variable (hz : fenced s t = false)
include hz

/-- What a descriptor that no row refuses for its tile comes to: a fault with its class and detail, a refusal of its ring, or a reserved record. -/
theorem execDesc_checked :
    let len := bits d.w.toNat 48 16
    let a := bits d.w.toNat 0 48
    let v := delPacket s pid
    let rl := 8 + (len + 7) / 8 * 8
    let rec0 : RingRec := ⟨0, rl, false, false, qaMake (qaTile p.src) (qaUnit p.src) 0, 1, false, false, [], none⟩
    let bad (cls detail : Nat) : State :=
      answerWith (raiseInc v (tileInc v cls utMu t k detail)) t p p.src (.reply .fault 3 (qaQueue p.src))
    exec (.desc pid) s = .next (match producerOf s t k (qaQueue p.dst) with
      | none => bad 0x0505 p.dst
      | some g =>
        if 4088 < len then bad 0x0503 len
        else if a % 8 ≠ 0 ∨ onWafer a len = none then bad 0x0506 a
        else match ringAdd v t (progRing s t k g) (mget RingRt.empty (getMu s t k).rings g) rec0 with
          | none => answerWith v t p p.src (.reply .refusedFull 3 (qaQueue p.src))
          | some (v, rg) => modMu v t k fun x =>
            { x with rings := mset RingRt.empty x.rings g rg, jobs := x.jobs ++ [⟨p.src, p.id, g, rl, a, len⟩] }) := by
  intro len a v rl rec0 bad
  have hut : unitType (50 + k) = utMu ∧ unitIx (50 + k) = k := by
    unfold unitType unitIx
    constructor
    · rw [if_neg (by omega), if_neg (by omega)]
    · rw [if_neg (by omega), if_neg (by omega), Nat.add_sub_cancel_left]
  have hz' : fenced (delPacket s pid) t = false := hz
  show execDesc pid s = _
  unfold execDesc
  simp only [hp, hb, hl, ht, hu, bne_self_eq_false, hz', hut, answerFrom_desc hb, Nat.add_sub_cancel_left, Bool.false_or,
    show ¬(54 ≤ 50 + k) by omega, show ¬(50 + k < 50) by omega, decide_false, if_false, Bool.false_eq_true]
  show (match producerOf s t k (qaQueue p.dst) with | none => _ | some g => _) = _
  cases producerOf s t k (qaQueue p.dst) with
  | none => rfl
  | some g =>
    dsimp only
    by_cases h1 : 4088 < len
    · rw [if_pos h1, if_pos h1]
    · rw [if_neg h1, if_neg h1]
      by_cases h2 : a % 8 ≠ 0 ∨ onWafer a len = none
      · rw [if_pos (by simpa [a, len] using h2), if_pos h2]
      · rw [if_neg (by simpa [a, len] using h2), if_neg h2]
        show (match ringAdd v t (progRing s t k g) (mget RingRt.empty (getMu s t k).rings g) rec0 with | none => _ | some (v, rg) => _) = _
        cases ringAdd v t (progRing s t k g) (mget RingRt.empty (getMu s t k).rings g) rec0 <;> rfl

variable {g : Nat} (hpr : producerOf s t k (qaQueue p.dst) = some g) (hlen : ¬4088 < bits d.w.toNat 48 16)
  (ha : ¬(bits d.w.toNat 0 48 % 8 ≠ 0 ∨ onWafer (bits d.w.toNat 0 48) (bits d.w.toNat 48 16) = none))
include hpr hlen ha

/-- A descriptor whose record finds no room is refused. -/
theorem execDesc_full
    (hput : ringPut (progRing s t k g).size (progRing s t k g).ovSize (mget RingRt.empty (getMu s t k).rings g)
      ⟨0, 8 + (bits d.w.toNat 48 16 + 7) / 8 * 8, false, false, qaMake (qaTile p.src) (qaUnit p.src) 0, 1, false, false, [], none⟩ = none) :
    exec (.desc pid) s = .next (answerWith (delPacket s pid) t p p.src (.reply .refusedFull 3 (qaQueue p.src))) := by
  have hx := execDesc_checked hp hb hl ht hu hk hz
  rw [hpr] at hx
  rw [hx]
  dsimp only
  rw [if_neg hlen, if_neg ha, ringAdd_none hput]

/-- A descriptor that passes has its record reserved and a job noted. -/
theorem execDesc_reserved {rg : RingRt}
    (hput : ringPut (progRing s t k g).size (progRing s t k g).ovSize (mget RingRt.empty (getMu s t k).rings g)
      ⟨0, 8 + (bits d.w.toNat 48 16 + 7) / 8 * 8, false, false, qaMake (qaTile p.src) (qaUnit p.src) 0, 1, false, false, [], none⟩ = some rg) :
    exec (.desc pid) s = .next (modMu (ringPadded (delPacket s pid) t (progRing s t k g) (mget RingRt.empty (getMu s t k).rings g)
      (8 + (bits d.w.toNat 48 16 + 7) / 8 * 8)) t k fun x =>
        { x with rings := mset RingRt.empty x.rings g rg
                 jobs := x.jobs ++ [⟨p.src, p.id, g, 8 + (bits d.w.toNat 48 16 + 7) / 8 * 8, bits d.w.toNat 0 48, bits d.w.toNat 48 16⟩] }) := by
  have hx := execDesc_checked hp hb hl ht hu hk hz
  rw [hpr] at hx
  rw [hx]
  dsimp only
  rw [if_neg hlen, if_neg ha, ringAdd_reserved hput rfl]

end

/-! ### A descriptor's record is written (R233, Table 7.9 row 6) -/

theorem besideErrors_wkCorrected (s : State) (t n : Nat) : besideErrors (wkCorrected s t n) = besideErrors s := rfl

/-- Reading a core's local memory changes that core's latent errors and what raising errors changes. -/
theorem besideErrors_wickRead (s : State) (t c a n : Nat) : ∃ w, besideErrors (wickRead s t c a n).2.2 = besideErrors (setWick s t c w) := by
  refine ⟨_, (foldl_keeps besideErrors _ _ _ fun _ _ => besideErrors_raiseUnit ..).trans (foldl_keeps besideErrors _ _ _ fun v i => ?_)⟩
  exact (besideErrors_raiseCoal ..).trans (besideErrors_wkCorrected ..)

/-- What reading a buffer leaves: packets, flows, regions, and of the MUs all but their latent errors. -/
theorem readBuffer_keeps (s : State) (a n : Nat) :
    (readBuffer s a n).2.2.net = s.net ∧ (readBuffer s a n).2.2.flows = s.flows ∧ (readBuffer s a n).2.2.regions = s.regions ∧
      ∀ t k, muData (getMu (readBuffer s a n).2.2 t k) = muData (getMu s t k) := by
  unfold readBuffer
  split
  · split
    · exact ⟨rfl, rfl, rfl, fun _ _ => rfl⟩
    · split
      · next st su o _ _ _ =>
        obtain ⟨w, h⟩ := besideErrors_wickRead s st su o n
        have hn := congrArg State.net h
        have hf := congrArg State.flows h
        have hr := congrArg State.regions h
        have hm := congrArg State.mus h
        exact ⟨hn, hf, hr, fun _ _ => congrArg muData (getMu_congr hm ..)⟩
      · obtain ⟨hn, hf, hr, -, -⟩ := of_besideMus (besideMus_muRead s _ _ _ n)
        exact ⟨hn, hf, hr, fun _ _ => muData_muRead ..⟩
  · exact ⟨rfl, rfl, rfl, fun _ _ => rfl⟩

theorem openRec_first {pre post : List RingRec} {x : RingRec} (hx : x.done = false) (hpre : ∀ y ∈ pre, y.done = true) :
    openRec (pre ++ x :: post) = some x := by
  unfold openRec
  rw [List.find?_append, List.find?_eq_none.2 (by simpa using hpre)]
  simp [hx]

theorem fillRec_first {pre post : List RingRec} {x : RingRec} (hx : x.done = false) (hpre : ∀ y ∈ pre, y.done = true) (x' : RingRec) :
    fillRec (pre ++ x :: post) x' = pre ++ x' :: post := by
  induction pre with
  | nil => simp [fillRec, hx]
  | cons y pre ih =>
    rw [List.forall_mem_cons] at hpre
    rw [List.cons_append, fillRec, if_pos hpre.1, ih hpre.2]
    rfl

/-- The state after the oldest job of an MU has read its buffer and left the list of jobs. -/
def jobRead (s : State) (t m : Nat) (j : DescJob) (rest : List DescJob) : State :=
  modMu (readBuffer s j.addr j.len).2.2 t m fun u => { u with jobs := rest }

/-- The record that job `j` completes when its place was reserved by `x`. -/
def jobRec (s : State) (j : DescJob) (x : RingRec) : RingRec :=
  { x with done := true, poi := (readBuffer s j.addr j.len).2.1,
           data := (readBuffer s j.addr j.len).1 ++ List.replicate (j.rlen - 8 - j.len) 0 }

theorem jobRead_keeps (s : State) (t m : Nat) (j : DescJob) (rest : List DescJob) :
    (jobRead s t m j rest).net = s.net ∧ (jobRead s t m j rest).flows = s.flows ∧ (jobRead s t m j rest).regions = s.regions ∧
      muData (getMu (jobRead s t m j rest) t m) = muData { getMu s t m with jobs := rest } := by
  obtain ⟨hn, hf, hr, hm⟩ := readBuffer_keeps s j.addr j.len
  refine ⟨hn, hf, hr, ?_⟩
  have h := congrArg (fun u : Mu => { u with jobs := rest }) (hm t m)
  unfold jobRead
  rw [modMu_eq, getMu_setMu_same]
  exact h

/-- The oldest job completes the first record that is reserved, and its sender gets DONE. -/
theorem execDescriptorRecordWritten_first {s : State} {t : TileId} {m : MuIx} {j : DescJob} {rest : List DescJob} {pre post : List RingRec}
    {x : RingRec} (hj : (getMu s t m).jobs = j :: rest) (hs : unitsStill s t = false)
    (hrecs : (mget RingRt.empty (getMu s t m).rings j.prog).recs = pre ++ x :: post) (hx : x.done = false) (hpre : ∀ y ∈ pre, y.done = true) :
    let v := modMu (ringWrite (jobRead s t m j rest) t (progRing s t m j.prog) (jobRec s j x)) t m fun u =>
      { u with rings := mset RingRt.empty u.rings j.prog
                { mget RingRt.empty (getMu s t m).rings j.prog with recs := pre ++ jobRec s j x :: post } }
    exec (.descriptorRecordWritten t m) s = .next (putPacket v (newPacket (qaMake t (50 + m) 0) j.src (getFlow s t (50 + m)).curFold (epochAt s t)
      (.reply .done 3 (qaQueue j.src)) (.router t 4) j.re)) := by
  intro v
  obtain ⟨hn, hf, hr, hm⟩ := jobRead_keeps s t m j rest
  obtain ⟨hrings, -, hprogs⟩ := parts_of_muHeld (muHeld_of_muData hm)
  have hk := ringKept_ringWrite (jobRead s t m j rest) t (progRing s t m j.prog) (jobRec s j x)
  have hfold : unitFold v t (50 + m.val) = (getFlow s t (50 + m.val)).curFold := unitFold_flow (hk.flows.trans hf) (by omega) _
  have hep : epochAt v t.val = epochAt s t.val := epochAt_congr (hk.regions.trans hr) _
  show execDescriptorRecordWritten t m s = _
  unfold execDescriptorRecordWritten
  have hring : mget RingRt.empty (getMu (modMu (readBuffer s j.addr j.len).2.2 t m fun u => { u with jobs := rest }) t m).rings j.prog =
      mget RingRt.empty (getMu s t m).rings j.prog := congrArg (fun l => mget RingRt.empty l j.prog) hrings
  have hra : progRing (modMu (readBuffer s j.addr j.len).2.2 t m fun u => { u with jobs := rest }) t m j.prog = progRing s t m j.prog :=
    progRing_congr hprogs hf _
  simp only [hj, hs, Bool.false_eq_true, if_false, hring, hrecs, openRec_first hx hpre, fillRec_first hx hpre, hra]
  rw [← hfold, ← hep]
  rfl

theorem muWriteQ_jobRead {s : State} {t m : Nat} {j : DescJob} {rest : List DescJob} {a : Nat} {bs : List Byte} {poi : Bool} {m' : Mu}
    (hw : (getMu s t m).waitW = [])
    (h : muWriteAll { getMu (readBuffer s j.addr j.len).2.2 t m with jobs := rest } a bs poi = some m') :
    getMu (muWriteQ (jobRead s t m j rest) t m a bs poi) t m = m' := by
  have hg : getMu (jobRead s t m j rest) t m = { getMu (readBuffer s j.addr j.len).2.2 t m with jobs := rest } := getMu_setMu_same ..
  have hd := congrArg Mu.waitW ((readBuffer_keeps s j.addr j.len).2.2.2 t m)
  have hwait : (getMu (jobRead s t m j rest) t m).waitW = [] := by
    rw [hg]
    exact hd.trans hw
  exact muWriteQ_some hwait (by rw [hg]; exact h)

/-! ### A producer puts a token into its ring (R236 to R238) -/

/-- A state with ring `p` of an MU replaced. -/
def setRingRt (s : State) (t m p : Nat) (rg : RingRt) : State := modMu s t m fun u => { u with rings := mset RingRt.empty u.rings p rg }

theorem getMu_setRingRt (s : State) (t m p : Nat) (rg : RingRt) :
    getMu (setRingRt s t m p rg) t m = { getMu s t m with rings := mset RingRt.empty (getMu s t m).rings p rg } := getMu_setMu_same ..

theorem ring_setRingRt (s : State) (t m p : Nat) (rg : RingRt) : mget RingRt.empty (getMu (setRingRt s t m p rg) t m).rings p = rg := by
  rw [getMu_setRingRt]
  exact mget_mset_same ..

theorem setRingRt_keeps (s : State) (t m p : Nat) (rg : RingRt) :
    (setRingRt s t m p rg).flows = s.flows ∧ (setRingRt s t m p rg).inc = s.inc := ⟨rfl, rfl⟩

section
variable {s s1 : State} {t : TileId} {m : MuIx} {p : Fin 8} {tok : Token} (hm : muMoves s t = true) (hmode : gMode (progWord s t m p 0) = 4)
  (hdir : bit (progWord s t m p 1) 63 = false) (htok : takeTok s t (50 + m) (gQdat (progWord s t m p 0)) = some (tok, s1))
include hm hmode hdir htok

/-- What a token comes to in the ring of its program: a stop beyond the MU, a refusal, or a record. -/
theorem execRingProduce_taken :
    let ra := progRing s t m p
    let data := leBytes ((tok.len * 4 + 7) / 8 * 8) tok.val
    let rg0 := mget RingRt.empty (getMu s1 t m).rings p
    let rec0 : RingRec := ⟨0, 8 + data.length, false, true, qaMake t (50 + m) 0, 2, tok.poi, tok.apx, data, none⟩
    exec (.ringProduce t m p) s = .next (
      if 2 ^ 20 < gBase (progWord s t m p 0) + ra.size then
        setRingRt (raiseInc s1 (tileInc s1 0x0103 utMu t m (gBase (progWord s t m p 0) + ra.size))) t m p { rg0 with outc := .poisoned }
      else match ringAdd s1 t ra rg0 rec0 with
        | none => setRingRt s1 t m p { rg0 with outc := .refusedFull }
        | some r => setRingRt r.1 t m p { r.2 with outc := .done }) := by
  intro ra data rg0 rec0
  show execRingProduce t m p s = _
  unfold execRingProduce
  simp only [hm, hmode, hdir, htok, bne_self_eq_false, Bool.not_true, Bool.or_false, Bool.false_eq_true, if_false]
  by_cases h : 2 ^ 20 < gBase (progWord s t m p 0) + ra.size
  · rw [if_pos h]
    exact if_pos h
  · rw [if_neg h]
    refine (if_neg h).trans ?_
    show (match ringAdd s1 t ra rg0 rec0 with | none => _ | some r => _) = _
    cases ringAdd s1 t ra rg0 rec0 <;> rfl

end

/-! ### What a generator delivers leaves the MUs -/

theorem modFlow_mus (s : State) (t u : Nat) (f : Flow → Flow) : (modFlow s t u f).mus = s.mus := rfl

theorem putStrm_mus (s : State) (e : Emit) (x : Strm) : (putStrm s e x).mus = s.mus := by
  unfold putStrm
  split <;> rfl

theorem pushOut_mus (s : State) (e : Emit) (ks : List Token) : (pushOut s e ks).mus = s.mus := by
  unfold pushOut
  split
  · rfl
  · exact modFlow_mus ..

theorem emitToks_mus (s : State) (e : Emit) (ps : List (Nat × Nat)) : (emitToks s e ps).mus = s.mus :=
  (pushOut_mus ..).trans (foldl_keeps (fun a : State × List Token => a.1.mus) _ _ _ fun _ _ => putStrm_mus ..)

theorem genFeed_mus (s : State) (t : Nat) (x : Gen) (l : List FeedBlk) : (genFeed s t x l).mus = s.mus := by
  unfold genFeed
  split <;> rfl

theorem genEmit_mus (s : State) (t m : Nat) (x : Gen) (tag : Option Nat) (bs : List Byte) (poi : Bool) : (genEmit s t m x tag bs poi).mus = s.mus := by
  unfold genEmit
  split
  · exact genFeed_mus ..
  · exact genFeed_mus ..
  · exact emitToks_mus ..
  · rfl

/-! ### A consumer takes a record (R235, R237) -/

/-- The ring that a consumer reads is that of the first producer at its place. -/
theorem ringHome_first {s : State} {t m p h : Nat} (hh : h < 8) (hne : h ≠ p)
    (hfeed : gMode (progWord s t m h 0) = 4 ∧ bit (progWord s t m h 1) 63 = false ∧ gBase (progWord s t m h 0) = gBase (progWord s t m p 0))
    (hmin : ∀ q, q < h → q ≠ p →
      ¬(gMode (progWord s t m q 0) = 4 ∧ bit (progWord s t m q 1) 63 = false ∧ gBase (progWord s t m q 0) = gBase (progWord s t m p 0))) :
    ringHome s t m p = h := by
  unfold ringHome
  have hf : ((List.range 8).find? fun q => q != p && gMode (progWord s t m q 0) == 4 && !bit (progWord s t m q 1) 63 &&
        gBase (progWord s t m q 0) == gBase (progWord s t m p 0)) = some h := by
    obtain ⟨h1, h2, h3⟩ := hfeed
    refine List.find?_range_eq_some.2 ⟨by simp [hne, h1, h2, h3], List.mem_range.2 hh, fun q hq => ?_⟩
    by_cases hqp : q = p
    · simp [hqp]
    · by_contra hc
      refine hmin q hq hqp ?_
      simpa [hqp, and_assoc] using hc
  rw [hf]
  rfl

theorem ringFetch_keeps {s s1 : State} {t : Nat} {ra : RingAt} {r : RingRec} {data : List Byte} {poi : Bool}
    (h : ringFetch s t ra r = some (data, poi, s1)) : s1.flows = s.flows ∧ ∀ t' k', muData (getMu s1 t' k') = muData (getMu s t' k') := by
  unfold ringFetch at h
  split at h
  · cases h
    exact ⟨rfl, fun _ _ => rfl⟩
  · split at h <;> cases h
    exact ⟨(of_besideMus (besideMus_muRead ..)).2.1, fun _ _ => muData_muRead ..⟩

/-- A record that is complete and can be read leaves its ring for the program's destination. -/
theorem execRingConsume_takes {s s1 : State} {t : TileId} {m : MuIx} {p h : Fin 8} {r : RingRec} {rest : List RingRec} {data : List Byte}
    {poi : Bool} (hm : muMoves s t = true) (hmode : gMode (progWord s t m p 0) = 4) (hdir : bit (progWord s t m p 1) 63 = true)
    (hemit : genCanEmit s t m (freshGen s t m p none) = true) (hhome : ringHome s t m p = h)
    (hrecs : (mget RingRt.empty (getMu s t m).rings h).recs = r :: rest) (hd : r.done = true)
    (hf : ringFetch s t (progRing s t m h) r = some (data, poi, s1)) :
    let ra := progRing s t m h
    exec (.ringConsume t m p) s = .next (genEmit
      (modMu s1 t m fun u => { u with rings := mset RingRt.empty u.rings h
                                        (ringTake ra.size ra.ovSize (mget RingRt.empty (getMu s t m).rings h)) })
      t m { freshGen s t m p none with apx := r.apx } none data poi) := by
  intro ra
  obtain ⟨hfl, hmu⟩ := ringFetch_keeps hf
  have hra : progRing s1 t m h = ra := progRing_congr (parts_of_muHeld (muHeld_of_muData (hmu t m))).2.2 hfl h
  have hsz : ringSizes s1 t m h = (ra.size, ra.ovSize) := by
    rw [← hra]
    rfl
  show execRingConsume t m p s = _
  unfold execRingConsume
  simp only [hm, hmode, hdir, hemit, hhome, hrecs, hd, hf, hsz, bne_self_eq_false, Bool.not_true, Bool.or_false, Bool.false_eq_true, if_false,
    if_true]

/-- Settles O16: descriptors by the row of Table 7.9 that they meet, their jobs by the record that they complete, ring programs by what the
placement and the taking of a record do. -/
theorem descriptorsAndRings : Obligations.DescriptorsAndRings := by
  refine ⟨?_, ?_, ?_, ?_⟩
  · intro s pid p t k d hp hpid hb hl hf ht hu hk len a answer
    have hans {u v : State} {o : Outc} (hx : exec (.desc pid) s = .next u)
        (he : exec (.desc pid) s = .next (answerWith v t p p.src (.reply o 3 (qaQueue p.src))))
        (hv : besideMus v = besideMus (delPacket s pid)) :
        answeredWith s u pid (answer o) ∧ u.inc = v.inc ∧ u.mus = v.mus := by
      obtain ⟨hn, hfl, hr, -, -⟩ := of_besideMus hv
      rw [hx] at he
      cases he
      exact ⟨answeredWith_answerWith hp hpid hf ht hu (by omega) hn hfl hr _ _, rfl, rfl⟩
    have hbad {u : State} {cls det : Nat} (hx : exec (.desc pid) s = .next u)
        (he : exec (.desc pid) s = .next (answerWith (raiseInc (delPacket s pid) (tileInc (delPacket s pid) cls utMu t k det)) t p p.src
          (.reply .fault 3 (qaQueue p.src)))) :
        answeredWith s u pid (answer .fault) ∧ raised s u t cls k (BitVec.ofNat 64 det) ∧ u.mus = s.mus := by
      have hv := besideErrors_raiseInc (delPacket s pid) (tileInc (delPacket s pid) cls utMu t k det)
      have hmus := congrArg State.mus hv
      obtain ⟨ha, hi, hm⟩ := hans hx he (congrArg (fun x : State => { x with mus := State.reset.mus }) hv)
      exact ⟨ha, raised_congr rfl rfl hi (raised_tileInc (delPacket s pid) cls utMu t k det), hm.trans hmus⟩
    cases hz : fenced s t with
    | true =>
      have hx := execDesc_refused hp hb hl ht hu hk hz
      obtain ⟨ha, -, hm⟩ := hans hx hx rfl
      exact ⟨_, hx, fun _ => ⟨ha, hm⟩, fun h => (by cases h), fun h => (by cases h)⟩
    | false =>
      have hc := execDesc_checked hp hb hl ht hu hk hz
      obtain ⟨u, hx⟩ : ∃ u, exec (.desc pid) s = .next u := ⟨_, hc⟩
      refine ⟨u, hx, fun h => (by cases h), fun _ hpr => ?_, fun _ g hpr => ⟨fun hlen => ?_, fun hlen ha => ?_, fun hlen ha hon => ?_⟩⟩
      · rw [hpr] at hc
        exact hbad hx hc
      · rw [hpr] at hc
        exact hbad hx (hc.trans (congrArg Host.Outcome.next (if_pos hlen)))
      · rw [hpr] at hc
        exact hbad hx (hc.trans (congrArg Host.Outcome.next ((if_neg (Nat.not_lt.2 hlen)).trans (if_pos ha))))
      · have hna : ¬(a % 8 ≠ 0 ∨ onWafer a len = none) := by simp [ha, hon]
        intro ra rg0 rl rec0
        refine ⟨fun hput => ?_, fun rg hput => ?_⟩
        · obtain ⟨h1, -, h2⟩ := hans hx (execDesc_full hp hb hl ht hu hk hz hpr (Nat.not_lt.2 hlen) hna hput) rfl
          exact ⟨h1, h2⟩
        · have hr := execDesc_reserved hp hb hl ht hu hk hz hpr (Nat.not_lt.2 hlen) hna hput
          cases hx.symm.trans hr
          obtain ⟨hbeside, hheld⟩ := ringPadded_keeps (delPacket s pid) t ra rg0 rl
          have hnet := (of_besideMus hbeside).1
          have hjobs := (parts_of_muHeld (hheld t k)).2.1
          refine ⟨?_, ?_, ?_, ?_, fun hno => ?_, fun at_ n o hpl hw m' hm => ?_⟩
          · rw [modMu_net, hnet]
            rfl
          · rw [getPacket_congr ((modMu_net ..).trans hnet), getPacket_delPacket_same]
          · rw [modMu_eq, getMu_setMu_same]
            exact mget_mset_same ..
          · rw [modMu_eq, getMu_setMu_same]
            exact congrArg (· ++ _) hjobs
          · rw [ringPadded_none hno, modMu_eq, getMu_setMu_same]
            exact ⟨rfl, setMu_delPacket_frame ..⟩
          · rw [modMu_eq, getMu_setMu_same, ringPadded_pad hpl]
            have hmu : getMu (delPacket s pid) t k = getMu s t k := rfl
            have hwr := muWriteQ_some (s := delPacket s pid) (t := t) (k := k) (by rw [hmu]; exact hw) (hmu.symm ▸ hm)
            have hmem := congrArg Mu.mem hwr
            exact hmem
  · intro s t m j rest st su o pre post x hj hs ho hrecs hx hpre r x' ra
    have hr : readBuffer s j.addr j.len = r := by
      unfold readBuffer
      rw [ho]
    have hx' : jobRec s j x = x' := by
      unfold jobRec
      rw [hr]
    obtain ⟨hn, hf, hreg, hm⟩ := jobRead_keeps s t m j rest
    have hk := ringKept_ringWrite (jobRead s t m j rest) t ra x'
    have hjobs : (getMu (ringWrite (jobRead s t m j rest) t ra x') t m).jobs = rest := by
      rw [(parts_of_muHeld (hk.held t m)).2.1, (parts_of_muHeld (muHeld_of_muData hm)).2.1]
    have hexec := execDescriptorRecordWritten_first hj hs hrecs hx hpre
    rw [hx'] at hexec
    refine ⟨_, hexec, ?_, ?_, fun hov hw m' hwr => ?_, ?_⟩
    · rw [putPacket_getMu, modMu_eq, getMu_setMu_same]
      exact hjobs
    · rw [putPacket_getMu, modMu_eq, getMu_setMu_same]
      exact congrArg RingRt.recs (mget_mset_same ..)
    · have hov' : x'.ov = false := hov
      have hq := muWriteQ_jobRead hw (by rw [hr]; exact hwr)
      have hmem := congrArg Mu.mem hq
      have hpoi := congrArg Mu.poi hq
      rw [putPacket_getMu, modMu_eq, getMu_setMu_same, ringWrite_inRing hov']
      exact ⟨hmem, hpoi⟩
    · obtain ⟨hbare, hre⟩ := getPacket_newPacket (modMu (ringWrite (jobRead s t m j rest) t ra x') t m fun u =>
        { u with rings := mset RingRt.empty u.rings j.prog { mget RingRt.empty (getMu s t m).rings j.prog with recs := pre ++ x' :: post } })
        t (qaMake t (50 + m) 0) j.src (getFlow s t (50 + m)).curFold (epochAt s t) j.re (.reply .done 3 (qaQueue j.src))
      exact ⟨_, Nat.le_trans (Nat.le_of_eq (congrArg Net.next hn).symm) hk.next, hre, hbare⟩
  · intro s s1 t m p tok hm w0 hmode hdir htok ra data rg0 put
    have hc := execRingProduce_taken hm hmode hdir htok
    obtain ⟨u, hx⟩ : ∃ u, exec (.ringProduce t m p) s = .next u := ⟨_, hc⟩
    by_cases hbig : 2 ^ 20 < gBase w0 + ra.size
    · have hv := besideErrors_raiseInc s1 (tileInc s1 0x0103 utMu t m (gBase w0 + ra.size))
      have hfl := congrArg State.flows hv
      have hmus := congrArg State.mus hv
      cases hx.symm.trans (hc.trans (congrArg Host.Outcome.next (if_pos hbig)))
      refine ⟨_, hx, (setRingRt_keeps ..).1.trans hfl, fun _ => ⟨?_, ?_, ring_setRingRt ..⟩, fun h => absurd hbig (Nat.not_lt.2 h),
        fun h => absurd hbig (Nat.not_lt.2 h)⟩
      · exact raisedAs_of_grows (raised_tileInc ..) (incGrows_of_inc (setRingRt_keeps ..).2)
      · rw [getMu_setRingRt]
        have hmem := congrArg Mu.mem (getMu_congr hmus t m)
        exact hmem
    · have hc := hc.trans (congrArg Host.Outcome.next (if_neg hbig))
      cases hput : put with
      | none =>
        have hadd := ringAdd_none hput s1 t
        rw [hadd] at hc
        cases hx.symm.trans hc
        refine ⟨_, hx, (setRingRt_keeps ..).1, fun h => absurd h hbig, fun _ _ => ⟨?_, ring_setRingRt ..⟩, fun _ _ h => (by cases h)⟩
        rw [getMu_setRingRt]
      | some rg =>
        obtain ⟨o, b, hrecs⟩ := ringPut_recs hput
        have hadd := ringAdd_written hput hrecs rfl s1 t
        rw [hadd] at hc
        cases hx.symm.trans hc
        refine ⟨_, hx, (setRingRt_keeps ..).1.trans (ringKept_ringAdd hadd).flows, fun h => absurd h hbig, fun _ h => (by cases h), ?_⟩
        rintro - rg' ⟨⟩
        refine ⟨ring_setRingRt .., fun r l m' hr hov hno hw hwr => ?_⟩
        have hlast := List.append_inj' (hrecs.symm.trans hr) rfl
        obtain rfl := List.singleton_inj.1 hlast.2
        rw [getMu_setRingRt, ringPadded_none hno, ringWrite_inRing hov]
        have hmu := muWriteQ_some hw hwr
        exact congrArg (fun x : Mu => { x with rings := mset RingRt.empty x.rings p { rg with outc := .done } }) hmu
  · intro s t m p h r rest hm w0 feeds hmode hdir hemit hne hfeed hmin rg ra data poi s1 hrecs hd hf s2
    have hx := execRingConsume_takes hm hmode hdir hemit
      (ringHome_first h.isLt (fun e => hne (Fin.ext e)) hfeed hmin) hrecs hd hf
    refine ⟨_, hx, ?_, rfl⟩
    rw [getMu_congr (genEmit_mus ..), modMu_eq, getMu_setMu_same]
    exact mget_mset_same ..

end Sys2Proof.Machine
end

section
/-!
PROOFS. Snapshots of an MU and the scrub (R149 to R151, R170 to R175, R183, R507): what copying, folding back and scrubbing leave of the memory that
the program sees, and what the scrub corrects, poisons and raises.
-/
namespace Sys2Proof.Machine
open Sys2Proof

/-! ### Writing a list of places -/

/-- A map after writing the places of a list: a place of the list holds what was written there, each other place what it held. -/
theorem mget_foldl_mset {α : Type} [DecidableEq α] (d v : α) (key : Nat → Nat) (val : Nat → α) (l : List Nat) (m : SMap α) (k : Nat)
    (hv : ∀ j ∈ l, key j = k → val j = v) :
    mget d (l.foldl (fun acc i => mset d acc (key i) (val i)) m) k = if ∃ i ∈ l, key i = k then v else mget d m k := by
  induction l generalizing m with
  | nil => simp
  | cons x l ih =>
    rw [List.foldl_cons, ih _ fun j hj => hv j (List.mem_cons_of_mem x hj), mget_mset]
    by_cases hl : ∃ i ∈ l, key i = k
    · rw [if_pos hl, if_pos (hl.imp fun i hi => ⟨List.mem_cons_of_mem x hi.1, hi.2⟩)]
    · rw [if_neg hl]
      by_cases hx : key x = k
      · rw [if_pos hx.symm, if_pos ⟨x, List.mem_cons_self, hx⟩, hv x List.mem_cons_self hx]
      · rw [if_neg (Ne.symm hx), if_neg (by simpa [hx] using hl)]

/-- Writing one value at the places of a list themselves. -/
theorem mget_foldl_mset_const {α : Type} [DecidableEq α] (d v : α) (l : List Nat) (m : SMap α) (k : Nat) :
    mget d (l.foldl (fun acc i => mset d acc i v) m) k = if k ∈ l then v else mget d m k := by
  have h := mget_foldl_mset d v id (fun _ => v) l m k fun _ _ _ => rfl
  simpa using h

/-! ### Copying a granule (R171) -/

theorem zipIdx_map_range {α : Type} (f : Nat → α) (n : Nat) : ((List.range n).map f).zipIdx = (List.range n).map fun i => (f i, i) := by
  refine List.ext_getElem (by simp) fun i h1 h2 => ?_
  simp

theorem muByte_muCopyGranule (m : Mu) (g h b : Nat) :
    muByte (muCopyGranule m g h) b = if b / 256 = h then muByte m (g * 256 + b % 256) else muByte m b := by
  have hmem : (muCopyGranule m g h).mem =
      (List.range 256).foldl (fun acc i => mset 0 acc (h * 256 + i) (muByte m (g * 256 + i))) m.mem := by
    unfold muCopyGranule
    simp only [zipIdx_map_range, List.foldl_map]
  have hplace : (∃ i ∈ List.range 256, h * 256 + i = b) ↔ b / 256 = h := by
    simp only [List.mem_range]
    exact ⟨by rintro ⟨i, hi, rfl⟩; omega, fun e => ⟨b % 256, by omega, by omega⟩⟩
  rw [muByte, hmem, mget_foldl_mset 0 (muByte m (g * 256 + b % 256)) (h * 256 + ·) (fun i => muByte m (g * 256 + i))]
  · simp only [hplace]
    rfl
  · intro j hj hk
    rw [List.mem_range] at hj
    rw [show b % 256 = j by omega]

/-! ### Writes that wait -/

theorem muFlush_none {s : State} {t k : Nat} (h : (getMu s t k).waitW = []) (n : Nat) : muFlush n s t k = s := by
  cases n with
  | zero => rfl
  | succ n => rw [muFlush, h]

/-! ### Copy-out (R170, R175) -/

/-- What sending a part of an image changes of its MU: the pages sent, or that one has failed (R507). -/
theorem getMu_imageWrite {s : State} {t m a : Nat} {sn : Snap} (h : (getMu s t m).snap = some sn) (data : List Byte) (poi : List Bool) :
    ∃ n b, getMu (imageWrite s t m a data poi) t m = { getMu s t m with snap := some { sn with sent := n, failed := b } } := by
  have hmus := congrArg State.mus (besideTraffic_tileMwr s t (qaMake t (50 + m) 0) a 65 2 data poi)
  have hg : getMu (tileMwr s t (qaMake t (50 + m) 0) a 65 2 data poi) t m = getMu s t m := getMu_congr hmus t m
  unfold imageWrite
  extract_lets v
  split
  · refine ⟨sn.sent + 1, sn.failed, ?_⟩
    rw [modMu_eq, getMu_setMu_same, hg, h]
  · refine ⟨sn.sent, true, ?_⟩
    rw [modMu_eq, getMu_setMu_same, hg, h]

/-- A snapshot after granule `g` has been copied: the next one, or one out of turn. -/
def copiedSnap (m : Mu) (sn : Snap) (gen g : Nat) : Snap :=
  { sn with gen := some gen
            next := if g = sn.next then sn.next + 1 else sn.next
            done := if g = sn.next then [] else [g]
            bad := if muPoison m ((List.range 32).map (g * 32 + ·)) then sn.bad ++ [g] else sn.bad
            fold := if (sn.map.lookup g).isSome then sn.fold ++ [g] else sn.fold
            urgent := if sn.urgent = some g then none else sn.urgent }

theorem find?_empty_first (a n : Nat) :
    ((List.range (n + 1)).map (a + ·)).find? (fun h => !([] : List Nat).contains h) = some a := by
  simp [List.range_succ_eq_map]

section
variable {s : State} {t : TileId} {m : MuIx} {sn : Snap} {gen g : Nat} (hsn : (getMu s t m).snap = some sn) (hs : unitsStill s t = false)
  (hgen : sn.gen = some gen ∨ (sn.gen = none ∧ freeGen (getMu s t m) = some gen)) (hlast : sn.next < snWb sn.word + snWnm1 sn.word)
  (hdone : sn.done = []) (hg : (match sn.urgent with | some g => if muFrozen (getMu s t m) g then g else sn.next | none => sn.next) = g)
include hsn hs hgen hlast hdone hg

/-- A copy-out that is not at its last granule copies one and sends it, then performs the writes that waited. -/
theorem execCopyOutGranule_copies : ∃ v a bs poi, exec (.copyOutGranule t m) s = .next (muFlush 64 (imageWrite v t m a bs poi) t m) ∧
    getMu v t m = { (muEcc (getMu s t m) ((List.range 32).map (g * 32 + ·))).1 with snap := some (copiedSnap (getMu s t m) sn gen g) } := by
  have hgen' : (match sn.gen with | some g => some g | none => freeGen (getMu s t m)) = some gen := by
    rcases hgen with h | ⟨h, h'⟩
    · rw [h]
    · rw [h, h']
  show ∃ v a bs poi, execCopyOutGranule t m s = _ ∧ _
  unfold execCopyOutGranule
  extract_lets u
  split
  · next he => exact absurd (he.symm.trans hsn) (by simp)
  next sn0 he =>
  obtain rfl : sn0 = sn := Option.some.inj (he.symm.trans hsn)
  rw [if_neg (by rw [hs]; exact Bool.false_ne_true)]
  split
  · next he => exact absurd (he.symm.trans hgen') (by simp)
  next gen1 he =>
  obtain rfl : gen1 = gen := Option.some.inj (he.symm.trans hgen')
  extract_lets last g' bs ws ecc bad done next sn' src s1 s2 s3 tail
  rw [if_neg (show ¬sn0.next > last by omega)]
  obtain rfl : g' = g := hg
  have hd : done = if g' = sn0.next then [] else [g'] := by
    unfold done
    rw [hdone]
    simp
  have hn : next = if g' = sn0.next then sn0.next + 1 else sn0.next := by
    unfold next
    by_cases hgn : g' = sn0.next
    · obtain ⟨k, hk⟩ : ∃ k, last + 2 - sn0.next = k + 1 := ⟨last + 1 - sn0.next, by omega⟩
      rw [hd, if_pos hgn, if_pos hgn, if_pos (beq_iff_eq.2 hgn), hk, find?_empty_first]
      rfl
    · rw [if_neg hgn, if_neg (by simpa using hgn)]
  have hsn' : sn' = copiedSnap u sn0 gen1 g' := by
    unfold sn' copiedSnap
    rw [hn, hd]
  rw [if_neg (show ¬next > last by rw [hn]; split <;> omega)]
  refine ⟨s2, _, _, _, rfl, ?_⟩
  rw [muRaise_getMu, getMu_setMu_same, hsn']

end

/-! ### Shadows (R171, R172) -/

theorem muByte_muEcc (m : Mu) (ws : List Nat) (b : Nat) : muByte (muEcc m ws).1 b = muByte m b := rfl


/-- A write for which no shadow is free raises the copy-out of its granule and counts the wait. -/
theorem execSnapshotShadowWait_waits {s : State} {t : TileId} {m : MuIx} {g : Fin 4096} {sn : Snap} (hsn : (getMu s t m).snap = some sn)
    (hf : muFrozen (getMu s t m) g = true) (hmap : sn.map.lookup g.val = none) (hfree : muFreeShadow (getMu s t m) = none) :
    exec (.snapshotShadowWait t m g) s = .next (muStall (setMu s t m
      { getMu s t m with snap := some { sn with urgent := some g.val }, snapWait := satAdd 48 (getMu s t m).snapWait 1 }) t m stOutput) := by
  have hmark : muMarkWait (getMu s t m) (g.val * 256) =
      { getMu s t m with snap := some { sn with urgent := some g.val }, snapWait := satAdd 48 (getMu s t m).snapWait 1 } := by
    unfold muMarkWait
    rw [hsn]
    simp
  show execSnapshotShadowWait t m g s = _
  unfold execSnapshotShadowWait
  simp only [hsn, hf, hmap, hfree, hmark, Option.isSome_none, Option.isNone_none, Bool.not_false, Bool.and_self, if_true]

/-- What the end of a snapshot leaves of an MU: the snapshot is as it was or gone, the memory and the waiting writes stay. -/
theorem snapFinish_keeps (s : State) (t m : Nat) :
    (∀ sn, (getMu (snapFinish s t m) t m).snap = some sn → (getMu s t m).snap = some sn) ∧
      (getMu (snapFinish s t m) t m).mem = (getMu s t m).mem ∧ (getMu (snapFinish s t m) t m).waitW = (getMu s t m).waitW := by
  unfold snapFinish
  extract_lets u
  split
  · split
    · exact ⟨fun _ h => h, rfl, rfl⟩
    · split <;> rw [getMu_setMu_same] <;> exact ⟨fun _ h => (by cases h), rfl, rfl⟩
  · exact ⟨fun _ h => h, rfl, rfl⟩

/-- The first shadow to fold back is copied to its granule and its mapping removed; the snapshot may be over then. -/
theorem execShadowFoldBack_first {s : State} {t : TileId} {m : MuIx} {sn : Snap} {g h : Nat} {rest : List Nat}
    (hsn : (getMu s t m).snap = some sn) (hs : unitsStill s t = false) (hfold : sn.fold = g :: rest) (hmap : sn.map.lookup g = some h) :
    ∃ v, exec (.shadowFoldBack t m) s = .next (muFlush 64 (snapFinish v t m) t m) ∧
      getMu v t m = { muCopyGranule (muEcc (getMu s t m) ((List.range 32).map (h * 32 + ·))).1 h g with
                        snap := some { sn with fold := rest, map := mdel sn.map g } } := by
  show ∃ v, execShadowFoldBack t m s = _ ∧ _
  unfold execShadowFoldBack
  simp only [hsn, hs, hfold, hmap, Bool.false_eq_true, if_false, Option.getD_some]
  exact ⟨_, rfl, by rw [muRaise_getMu, getMu_setMu_same]⟩

/-! ### The scrub (R151, R183) -/

/-- Codewords whose latent error has become stored poison. -/
def poisonWords (m : Mu) (ws : List Nat) : Mu := ws.foldl (fun x w => { x with err := mset 0 x.err w 0, poi := mset false x.poi w true }) m

theorem poisonWords_mem (m : Mu) (ws : List Nat) : (poisonWords m ws).mem = m.mem := foldl_keeps Mu.mem _ _ _ fun _ _ => rfl

theorem poisonWords_err (m : Mu) (ws : List Nat) (k : Nat) : mget 0 (poisonWords m ws).err k = if k ∈ ws then 0 else mget 0 m.err k := by
  unfold poisonWords
  rw [← List.foldl_hom Mu.err (g₂ := fun e w => mset 0 e w 0) (fun _ _ => rfl)]
  exact mget_foldl_mset_const ..

theorem poisonWords_poi (m : Mu) (ws : List Nat) (k : Nat) : mget false (poisonWords m ws).poi k = if k ∈ ws then true else mget false m.poi k := by
  unfold poisonWords
  rw [← List.foldl_hom Mu.poi (g₂ := fun e w => mset false e w true) (fun _ _ => rfl)]
  exact mget_foldl_mset_const ..

/-- The codewords that the next step of the scrub of an MU reads. -/
def scrubWords (m : Mu) : List Nat := (List.range 4).map (m.scrub * 4 + ·)

/-- An MU after one step of its scrub. -/
def scrubbedMu (m : Mu) : Mu :=
  { poisonWords (muEcc m (scrubWords m)).1 ((scrubWords m).filter fun w => mget 0 m.err w == 2) with scrub := (m.scrub + 1) % 32768 }

theorem mem_scrubWords {m : Mu} {i : Nat} (hi : i < 4) : m.scrub * 4 + i ∈ scrubWords m :=
  List.mem_map_of_mem (List.mem_range.2 hi)

theorem muEcc_err (m : Mu) (ws : List Nat) (k : Nat) :
    mget 0 (muEcc m ws).1.err k = if k ∈ ws ∧ mget 0 m.err k = 1 then 0 else mget 0 m.err k := by
  have h := mget_foldl_mset_const 0 0 (ws.filter fun w => mget 0 m.err w == 1) m.err k
  refine h.trans ?_
  simp

theorem scrubbedMu_err {m : Mu} {i : Nat} (hi : i < 4) :
    mget 0 (scrubbedMu m).err (m.scrub * 4 + i) =
      if mget 0 m.err (m.scrub * 4 + i) = 1 ∨ mget 0 m.err (m.scrub * 4 + i) = 2 then 0 else mget 0 m.err (m.scrub * 4 + i) := by
  show mget 0 (poisonWords _ _).err _ = _
  rw [poisonWords_err, muEcc_err]
  simp only [List.mem_filter, mem_scrubWords hi, true_and, beq_iff_eq]
  split
  · next h => rw [if_pos (.inr h)]
  · next h => simp [h]

theorem scrubbedMu_poi {m : Mu} {i : Nat} (hi : i < 4) (he : mget 0 m.err (m.scrub * 4 + i) = 2) :
    mget false (scrubbedMu m).poi (m.scrub * 4 + i) = true := by
  show mget false (poisonWords _ _).poi _ = _
  rw [poisonWords_poi, if_pos (by simp [mem_scrubWords hi, he])]

/-- The first uncorrectable codeword of a step is the first that the step raises. -/
theorem scrubWords_first {m : Mu} {i : Nat} (hi : i < 4) (he : mget 0 m.err (m.scrub * 4 + i) = 2)
    (hmin : ∀ j, j < i → mget 0 m.err (m.scrub * 4 + j) ≠ 2) :
    ∃ l, (scrubWords m).filter (fun w => mget 0 m.err w == 2) = (m.scrub * 4 + i) :: l := by
  have hf : (scrubWords m).find? (fun w => mget 0 m.err w == 2) = some (m.scrub * 4 + i) := by
    unfold scrubWords
    rw [List.find?_map, List.find?_range_eq_some.2 ⟨by simpa using he, List.mem_range.2 hi, fun j hj => by simpa using hmin j hj⟩]
    rfl
  rw [← List.head?_filter] at hf
  exact ⟨_, (List.eq_cons_of_mem_head? hf)⟩

/-- The scrub of an MU leaves it as `scrubbedMu` says and raises what it found. -/
theorem getMu_scrubMu (s : State) (t m : Nat) : getMu (scrubMu s t m) t m = scrubbedMu (getMu s t m) := by
  unfold scrubMu
  rw [muRaise_getMu, getMu_setMu_same]
  rfl

/-- What is uncorrectable in an MU is raised after what was corrected, the first codeword first. -/
theorem raisedFirst_muRaise {s v : State} (hi : v.inc = s.inc) (ht : v.time = s.time) (t k w : Nat) (l : List Nat) :
    raisedFirst s (muRaise v t k 0 (w :: l)) t 0x0102 k (BitVec.ofNat 64 (w * 8)) :=
  raisedFirst_of_grows (raised_congr hi.symm ht.symm rfl (raised_tileInc v 0x0102 utMu t k (w * 8)))
    ((incGrows_raiseUnit_tail ..).trans (incGrows_foldl (fun _ _ => incGrows_raiseUnit ..) l _))

/-- An uncorrectable codeword that a step of the scrub meets first, with none to correct, is the first that it raises. -/
theorem raisedFirst_scrubMu {s : State} {t m i : Nat} (hi : i < 4) (he : mget 0 (getMu s t m).err ((getMu s t m).scrub * 4 + i) = 2)
    (hone : ∀ j, j < 4 → mget 0 (getMu s t m).err ((getMu s t m).scrub * 4 + j) ≠ 1)
    (hmin : ∀ j, j < i → mget 0 (getMu s t m).err ((getMu s t m).scrub * 4 + j) ≠ 2) :
    raisedFirst s (scrubMu s t m) t 0x0102 m (BitVec.ofNat 64 (((getMu s t m).scrub * 4 + i) * 8)) := by
  obtain ⟨l, hl⟩ := scrubWords_first hi he hmin
  have h0 : (scrubWords (getMu s t m)).filter (fun w => mget 0 (getMu s t m).err w == 1) = [] := by
    simpa [scrubWords] using hone
  have hs : scrubMu s t m = muRaise (setMu s t m (scrubbedMu (getMu s t m))) t m
      ((scrubWords (getMu s t m)).filter fun w => mget 0 (getMu s t m).err w == 1).length
      ((scrubWords (getMu s t m)).filter fun w => mget 0 (getMu s t m).err w == 2) := rfl
  rw [hs, h0, hl]
  exact raisedFirst_muRaise (setMu_inc ..) (setMu_time ..) ..

theorem raiseInc_tiles (s : State) (i : Inc) : (raiseInc s i).tiles = s.tiles := by
  have h := congrArg State.tiles (besideTraffic_raiseInc s i)
  exact h

theorem raiseCoal_tiles (s : State) (i : Inc) : (raiseCoal s i).tiles = s.tiles := by
  unfold raiseCoal
  extract_lets hit now x upd
  split
  · rfl
  · exact raiseInc_tiles ..

/-- A core after one step of the scrub of its local memory. -/
def scrubbedWick (w : Wick) : Wick :=
  { w with scrub := (w.scrub + 1) % 4096
           memErr := mset 0 w.memErr w.scrub 0
           memPoi := if mget 0 w.memErr w.scrub = 2 then mset false w.memPoi w.scrub true else w.memPoi }

/-- The scrub of a core's local memory, and what it raises by what it found. -/
theorem scrubWick_eq (s : State) (t c : Nat) :
    scrubWick s t c = (if mget 0 (getWick s t c).memErr (getWick s t c).scrub = 1 then
        raiseCoal (wkCorrected (setWick s t c (scrubbedWick (getWick s t c))) t 1)
          (tileInc (setWick s t c (scrubbedWick (getWick s t c))) 0x0101 utWick t c (4 * (getWick s t c).scrub))
      else if mget 0 (getWick s t c).memErr (getWick s t c).scrub = 2 then
        raiseUnit (setWick s t c (scrubbedWick (getWick s t c)))
          (tileInc (setWick s t c (scrubbedWick (getWick s t c))) 0x0102 utWick t c (4 * (getWick s t c).scrub))
      else setWick s t c (scrubbedWick (getWick s t c))) := by
  unfold scrubWick scrubbedWick
  simp only [beq_iff_eq]

theorem scrubWick_wicks (s : State) (t c : Nat) : (scrubWick s t c).wicks = (setWick s t c (scrubbedWick (getWick s t c))).wicks := by
  rw [scrubWick_eq]
  split
  · have h := congrArg State.wicks ((besideErrors_raiseCoal (wkCorrected (setWick s t c (scrubbedWick (getWick s t c))) t 1)
      (tileInc (setWick s t c (scrubbedWick (getWick s t c))) 0x0101 utWick t c (4 * (getWick s t c).scrub))).trans
      (besideErrors_wkCorrected ..))
    exact h
  · split
    · have h := congrArg State.wicks (besideErrors_raiseUnit (setWick s t c (scrubbedWick (getWick s t c)))
        (tileInc (setWick s t c (scrubbedWick (getWick s t c))) 0x0102 utWick t c (4 * (getWick s t c).scrub)))
      exact h
    · rfl

section
variable {s : State} {t : TileId} (h : (regionAt s t).frozenAt = none ∨ fenced s t = true)
include h

/-- The scrub does not rest at a tile that no FREEZE wave holds, or that is fenced. -/
theorem scrub_goes : ¬((regionAt s t).frozenAt.isSome && !fenced s t) = true := by
  rcases h with h | h <;> simp [h]

theorem execSramScrub_mu (m : MuIx) : exec (.sramScrub t (.mu m)) s = .next (scrubMu s t m) := if_neg (scrub_goes h)

theorem execSramScrub_wick (c : CoreIx) : exec (.sramScrub t (.wick c)) s = .next (scrubWick s t c) := if_neg (scrub_goes h)

end

/-- Settles O19: one lemma for each command, over the memory laws above. -/
theorem muSnapshotsAndScrub : Obligations.MuSnapshotsAndScrub := by
  refine ⟨?_, ?_, ?_, ?_, ?_⟩
  · intro s t m sn gen hsn hs hgen hlast hdone hw g
    obtain ⟨v, a, bs, poi, hx, hv⟩ := execCopyOutGranule_copies hsn hs hgen hlast hdone (g := g) rfl
    have hvs : (getMu v t m).snap = some (copiedSnap (getMu s t m) sn gen g) := by rw [hv]
    obtain ⟨n, b, hu⟩ := getMu_imageWrite hvs bs poi (a := a)
    have hfl : muFlush 64 (imageWrite v t m a bs poi) t m = imageWrite v t m a bs poi := by
      refine muFlush_none ?_ 64
      rw [hu, hv]
      exact hw
    rw [hfl] at hx
    refine ⟨_, _, hx, congrArg Mu.snap hu, rfl, rfl, rfl, fun hgn => ⟨if_pos hgn, if_pos hgn⟩, fun hgn => ⟨if_neg hgn, if_neg hgn⟩, rfl, rfl,
      fun x => ?_⟩
    rw [hu, hv]
    rfl
  · intro s t m g sn hsn hf hmap hfree
    refine ⟨_, execSnapshotShadowWait_waits hsn hf hmap hfree, ?_, ?_⟩
    · exact (getMu_congr (unitStall_mus ..) t m).trans (getMu_setMu_same ..)
    · exact getFlow_unitStall ..
  · intro s t m sn g h rest hsn hs hfold hmap hne hw
    obtain ⟨v, hx, hv⟩ := execShadowFoldBack_first hsn hs hfold hmap
    obtain ⟨hsnap, hmem, hwait⟩ := snapFinish_keeps v t m
    have hfl : muFlush 64 (snapFinish v t m) t m = snapFinish v t m := by
      refine muFlush_none ?_ 64
      rw [hwait, hv]
      exact hw
    rw [hfl] at hx
    have hbyte (b : Nat) : muByte (getMu (snapFinish v t m) t m) b =
        if b / 256 = g then muByte (getMu s t m) (h * 256 + b % 256) else muByte (getMu s t m) b := by
      have hcopy := muByte_muCopyGranule (muEcc (getMu s t m) ((List.range 32).map (h * 32 + ·))).1 h g b
      rw [muByte_muEcc, muByte_muEcc] at hcopy
      have hm := congrArg Mu.mem hv
      dsimp only at hm
      rw [muByte, hmem, hm]
      exact hcopy
    refine ⟨_, hx, fun sn' hsn' => ?_, fun i hi => ?_, fun b hb => ?_⟩
    · have h2 := hsnap sn' hsn'
      rw [hv] at h2
      cases h2
      exact ⟨rfl, rfl⟩
    · rw [hbyte, if_pos (by omega), show (g * 256 + i) % 256 = i by omega]
    · rw [hbyte, if_neg hb]
  · intro s t m hz v
    have hg := getMu_scrubMu s t m
    refine ⟨_, execSramScrub_mu hz m, ?_, fun b => ?_, fun i hi => ?_, fun i hi he => ?_, fun i hi he hone hmin => ?_⟩
    · rw [hg]
      rfl
    · rw [hg]
      exact congrArg (fun l => mget 0 l b) (poisonWords_mem ..)
    · rw [hg]
      exact scrubbedMu_err hi
    · rw [hg]
      exact scrubbedMu_poi hi he
    · exact raisedFirst_scrubMu hi he hone hmin
  · intro s t c hz w i e
    have hw := scrubWick_wicks s t c
    have hget : getWick (scrubWick s t c) t c = scrubbedWick w :=
      (congrArg (fun l => mget Wick.reset l (wkey t c)) hw).trans (getWick_setWick_same ..)
    refine ⟨_, execSramScrub_wick hz c, hget, ?_, fun he => ?_, fun he => ?_, fun h1 h2 => ?_⟩
    · exact fun t' c' h' hne => (otherCores_of_wicks hw t c t' c' h' hne).trans
        (otherCores_setWick c.isLt (otherCores_of_wicks rfl t c) _ t' c' h' hne)
    · show (getTile (scrubWick s t c) t).corrW = _
      rw [scrubWick_eq, if_pos he, getTile, raiseCoal_tiles]
      exact congrArg Tile.corrW (getTile_setTile_same ..)
    · show raisedFirst s (scrubWick s t c) _ _ _ _
      have he' : mget 0 (getWick s t c).memErr (getWick s t c).scrub = 2 := he
      rw [scrubWick_eq, if_neg (by rw [he']; decide), if_pos he']
      exact raisedFirst_of_grows (raised_congr (setWick_inc ..).symm (setWick_time ..).symm rfl (raised_tileInc ..)) (incGrows_raiseUnit_tail ..)
    · show onlyCore s (scrubWick s t c) t c (getWick (scrubWick s t c) t c)
      rw [hget, scrubWick_eq, if_neg h1, if_neg h2]
      exact onlyCore_setWick s t c _ c.isLt

end Sys2Proof.Machine
end

section
/-!
PROOFS. Incidents through what the units of a tile do: taking a token from a queue, counting a stall and delivering a beat only ever add records to
the sources of incidents (R499).
-/
namespace Sys2Proof.Machine
open Sys2Proof

/-! ### Traces and stalls -/

theorem incGrows_tileMwr (s : State) (t src a req cls : Nat) (data : List Byte) (poi : List Bool) :
    IncGrows s (tileMwr s t src a req cls data poi) := by
  unfold tileMwr
  split
  · exact incGrows_of_inc rfl
  · exact incGrows_raiseInc ..

theorem incGrows_traceFlush (s : State) (t : Nat) (all : Bool) (n : Nat) : IncGrows s (traceFlush s t all n) := by
  induction n generalizing s with
  | zero => exact incGrows_refl s
  | succ n ih =>
    rw [traceFlush]
    extract_lets pos base put
    split
    · exact incGrows_refl s
    · next b rest _ =>
      have hput (v : State) (n a : Nat) (data : List Byte) (left : List TraceRec) : IncGrows v (put v n a data left) :=
        (incGrows_of_inc (by rfl)).trans (incGrows_tileMwr ..)
      split
      · exact (incGrows_of_inc (by rfl)).trans (ih _)
      · split
        · split
          · exact (hput ..).trans (ih _)
          · exact (hput ..).trans (ih _)
        · split
          · exact hput ..
          · exact incGrows_refl s

theorem incGrows_traceEv (s : State) (t utyp uidx ev det : Nat) : IncGrows s (traceEv s t utyp uidx ev det) := by
  unfold traceEv
  split
  · exact (incGrows_of_inc (of_trace_frame (traceHold_frame ..)).1).trans (incGrows_traceFlush ..)
  · exact incGrows_refl s

theorem incGrows_unitStall (s : State) (t u cause : Nat) : IncGrows s (unitStall s t u cause) :=
  (incGrows_of_inc (by rfl)).trans (incGrows_traceEv ..)

theorem qStall_inc (s : State) (a cause : Nat) : (qStall s a cause).inc = s.inc := by
  unfold qStall
  split
  · rfl
  · split <;> rfl

theorem incGrows_inStall (s : State) (t u q : Nat) : IncGrows s (inStall s t u q) := by
  unfold inStall
  extract_lets a cause v
  have hv : IncGrows s v := incGrows_unitStall ..
  split
  · exact hv.trans (incGrows_of_inc (qStall_inc ..))
  · exact hv

theorem incGrows_outStall (s : State) (t u : Nat) : IncGrows s (outStall s t u) := by
  unfold outStall
  split
  · extract_lets x cause
    split
    · exact (incGrows_unitStall ..).trans (incGrows_of_inc (qStall_inc ..))
    · exact incGrows_unitStall ..
  · exact incGrows_unitStall ..

/-! ### Taking a token -/

theorem stopTileRegion_inc (s : State) (t : Nat) : (stopTileRegion s t).inc = s.inc := by
  have h := congrArg State.inc (besideStop_stopTileRegion s t)
  exact h

theorem incGrows_flowFault (s : State) (cls t u detail : Nat) : IncGrows s (flowFault s cls t u detail) := by
  unfold flowFault
  exact (incGrows_raiseInc ..).trans (incGrows_of_inc (stopTileRegion_inc ..))

theorem incGrows_ringFetch {s v : State} {t : Nat} {ra : RingAt} {r : RingRec} {bs : List Byte} {poi : Bool}
    (h : ringFetch s t ra r = some (bs, poi, v)) : IncGrows s v := by
  unfold ringFetch at h
  split at h
  · cases h
    exact incGrows_refl s
  · split at h <;> cases h
    exact incGrows_muRead ..

theorem incGrows_spillTake {s v : State} {t u e q : Nat} {tok : Token} {owed : List Owed} (h : spillTake s t u e = some (q, tok, owed, v)) :
    IncGrows s v := by
  simp only [spillTake] at h
  split at h
  · cases h
  · split at h
    · cases h
    · obtain ⟨z, hz, h⟩ := Option.map_eq_some_iff.1 h
      cases h
      exact (incGrows_ringFetch hz).trans (incGrows_of_inc rfl)

theorem incGrows_placeSeq (s : State) (t u q : Nat) (tok : Token) (n : Nat) (owed : List Owed) (fresh : Bool) :
    IncGrows s (placeSeq s t u q tok n owed fresh).1 := by
  unfold placeSeq
  extract_lets f x d ptr dist comb fault old qarr x1
  have hf : IncGrows s (fault s).1 := incGrows_flowFault ..
  clear_value old
  split
  · exact incGrows_refl s
  · split
    · exact hf
    · split
      · exact incGrows_flowFault ..
      · split
        · exact incGrows_of_inc rfl
        · split
          · exact hf
          · split
            · exact hf
            · extract_lets upd x2 s1 s2
              have h1 : IncGrows s s1 := incGrows_of_inc rfl
              show IncGrows s s2
              unfold s2
              split
              · exact h1.trans (incGrows_raiseInc ..)
              · exact h1

theorem incGrows_reinjectQ (s : State) (t u q : Nat) : IncGrows s (reinjectQ s t u q) := by
  unfold reinjectQ
  extract_lets f x
  split
  · exact incGrows_refl s
  · split
    · next h =>
      extract_lets dist
      split
      · exact (incGrows_spillTake h).trans (incGrows_placeSeq ..)
      · exact incGrows_refl s
    · split
      · exact incGrows_of_inc rfl
      · exact incGrows_refl s

theorem returnCredits_inc (s : State) (t u : Nat) (owed : List Owed) : (returnCredits s t u owed).inc = s.inc :=
  foldl_keeps State.inc _ _ _ fun _ _ => inject_inc ..

theorem incGrows_releaseQ (s : State) (t u q : Nat) : IncGrows s (releaseQ s t u q) := by
  unfold releaseQ
  extract_lets f
  split
  · exact incGrows_refl s
  · next e _ =>
    extract_lets x x1 v
    have hv : IncGrows s v := incGrows_of_inc rfl
    exact hv.trans ((incGrows_of_inc (returnCredits_inc ..)).trans (incGrows_reinjectQ ..))

theorem incGrows_cuMemRead (s : State) (t k key : Nat) : IncGrows s (cuMemRead s t k key).1 := by
  unfold cuMemRead
  split
  · exact incGrows_refl s
  · exact (incGrows_of_inc (by rfl)).trans (incGrows_raiseCoal ..)
  · exact incGrows_raiseUnit ..

theorem incGrows_bufRead (s : State) (t u q : Nat) (k : Token) : IncGrows s (bufRead s t u q k).2 := by
  unfold bufRead
  split
  · exact (incGrows_cuMemRead ..).trans (incGrows_of_inc (by rfl))
  · exact incGrows_refl s

theorem incGrows_takeTok {s v : State} {t u q : Nat} {tok : Token} (h : takeTok s t u q = some (tok, v)) : IncGrows s v := by
  unfold takeTok at h
  extract_lets f s1 f1 at h
  have h1 : IncGrows s s1 := by
    unfold s1
    split
    · exact incGrows_releaseQ ..
    · exact incGrows_refl s
  split at h
  · have hv := congrArg Prod.snd (Option.some.inj h)
    rw [← show _ = v from hv]
    exact (h1.trans (incGrows_of_inc (by rfl))).trans (incGrows_bufRead ..)
  · cases h

theorem incGrows_popBytes {k : Nat} {s v : State} {t u q n : Nat} {acc bs : List Byte} {poi poi' : Bool}
    (h : popBytes k s t u q n acc poi = some (bs, poi', v)) : IncGrows s v := by
  induction k generalizing s acc poi with
  | zero => cases h
  | succ k ih =>
    unfold popBytes at h
    split at h
    · cases h
      exact incGrows_refl _
    · split at h
      · cases h
      · next ht => exact (incGrows_takeTok ht).trans (ih h)

/-! ### Delivering a beat -/

theorem putStrm_inc (s : State) (e : Emit) (x : Strm) : (putStrm s e x).inc = s.inc := by
  unfold putStrm
  split <;> rfl

theorem pushOut_inc (s : State) (e : Emit) (ks : List Token) : (pushOut s e ks).inc = s.inc := by
  unfold pushOut
  split <;> rfl

theorem emitToks_inc (s : State) (e : Emit) (ps : List (Nat × Nat)) : (emitToks s e ps).inc = s.inc :=
  (pushOut_inc ..).trans (foldl_keeps (fun a : State × List Token => a.1.inc) _ _ _ fun _ _ => putStrm_inc ..)

theorem genFeed_inc (s : State) (t : Nat) (x : Gen) (l : List FeedBlk) : (genFeed s t x l).inc = s.inc := by
  unfold genFeed
  split <;> rfl

theorem genEmit_inc (s : State) (t m : Nat) (x : Gen) (tag : Option Nat) (bs : List Byte) (poi : Bool) : (genEmit s t m x tag bs poi).inc = s.inc := by
  unfold genEmit
  split
  · exact genFeed_inc ..
  · exact genFeed_inc ..
  · exact emitToks_inc ..
  · rfl

theorem incGrows_genRead (s : State) (t m : Nat) (paired : Bool) (a n : Nat) : IncGrows s (genRead s t m paired a n).2.2 := by
  unfold genRead
  extract_lets r r2
  split
  · exact (incGrows_muRead ..).trans (incGrows_muRead ..)
  · exact incGrows_muRead ..

theorem finishGen_inc (s : State) (t m g : Nat) (x : Gen) : (finishGen s t m g x).inc = s.inc := by
  unfold finishGen
  extract_lets v
  split
  · split <;> rfl
  · rfl

end Sys2Proof.Machine
end

section
/-!
PROOFS. Generators (R153 to R161): the table of generators of an MU, the start of a program, an affine beat and an indirect access.
-/
namespace Sys2Proof.Machine
open Sys2Proof

/-! ### The generators of an MU -/

theorem lookup_mput_same {α : Type} (m : SMap α) (k : Nat) (v : α) : (mput m k v).lookup k = some v := by
  induction m with
  | nil => simp [mput]
  | cons e m ih =>
    obtain ⟨j, w⟩ := e
    unfold mput
    split
    · simp
    · next hj =>
      split
      · simp
      · rw [List.lookup_cons, beq_eq_false_iff_ne.2 (Ne.symm hj)]
        exact ih

theorem lookup_mdel_same {α : Type} (m : SMap α) (k : Nat) : (mdel m k).lookup k = none := by
  induction m with
  | nil => rfl
  | cons e m ih =>
    obtain ⟨j, w⟩ := e
    unfold mdel
    split
    · exact ih
    · next hj =>
      rw [List.lookup_cons, beq_eq_false_iff_ne.2 (Ne.symm hj)]
      exact ih

/-- An MU with generator `g` set. -/
def withGen (m : Mu) (g : Nat) (x : Gen) : Mu := { m with gens := mput m.gens g x }

theorem setGen_eq (s : State) (t m g : Nat) (x : Gen) : setGen s t m g x = setMu s t m (withGen (getMu s t m) g x) := rfl

theorem getMu_setGen (s : State) (t m g : Nat) (x : Gen) : getMu (setGen s t m g x) t m = withGen (getMu s t m) g x := getMu_setMu_same ..

theorem genOf_setGen (s : State) (t m g : Nat) (x : Gen) : genOf (setGen s t m g x) t m g = some x := by
  rw [genOf, getMu_setGen]
  exact lookup_mput_same ..

/-- What setting a generator leaves of the module. -/
theorem setGen_keeps (s : State) (t m g : Nat) (x : Gen) :
    (setGen s t m g x).flows = s.flows ∧ (setGen s t m g x).cus = s.cus ∧ (setGen s t m g x).inc = s.inc := ⟨rfl, rfl, rfl⟩

theorem getMu_setGen_other (s : State) (t m m' g : Nat) (x : Gen) (h : m' ≠ m) : getMu (setGen s t m g x) t m' = getMu s t m' := by
  have h' : t * 4 + m' ≠ t * 4 + m := by omega
  exact mget_mset_other _ _ _ _ _ h'

/-- A second write to the one MU that has changed. -/
theorem onlyMu.setMu {s v : State} {t k : Nat} {m : Mu} (h : onlyMu s v t k m) (hk : k < 4) (m' : Mu) : onlyMu s (setMu v t k m') t k m' := by
  obtain ⟨-, ho, hf⟩ := h
  exact ⟨getMu_setMu_same .., fun t' k' h' hne => (getMu_setMu_other v t k t' k' m' hk h' hne).trans (ho t' k' h' hne), hf⟩

/-- The MU that has counted a start and runs the program. -/
theorem onlyMu_started (s : State) (t g : Nat) (m : MuIx) (x : Gen) :
    onlyMu s (setGen (modMu s t m fun u => { u with starts := u.starts + 1 }) t m g x) t m
      { getMu s t m with starts := (getMu s t m).starts + 1, gens := mput (getMu s t m).gens g x } := by
  have h := (onlyMu_setMu s t m { getMu s t m with starts := (getMu s t m).starts + 1 } m.isLt).setMu m.isLt
    { getMu s t m with starts := (getMu s t m).starts + 1, gens := mput (getMu s t m).gens g x }
  rw [setGen_eq, modMu_eq, getMu_setMu_same]
  exact h

theorem genOf_congr {s u : State} {t m : Nat} (h : (getMu u t m).gens = (getMu s t m).gens) (g : Nat) : genOf u t m g = genOf s t m g := by
  unfold genOf
  rw [h]

theorem genOf_of_genReady {s : State} {t m g md : Nat} {x : Gen} (h : genReady s t m g md = some x) : genOf s t m g = some x := by
  unfold genReady at h
  split at h
  · next y hy =>
    split at h
    · cases h
      exact hy
    · cases h
  · cases h

theorem getMu_endGen_same (s : State) (t m g : Nat) :
    getMu (endGen s t m g) t m = { getMu s t m with gens := mdel (getMu s t m).gens g } := getMu_setMu_same ..

theorem getMu_endGen_other (s : State) (t m m' g : Nat) (h : m' ≠ m) : getMu (endGen s t m g) t m' = getMu s t m' := by
  have h' : t * 4 + m' ≠ t * 4 + m := by omega
  exact mget_mset_other _ _ _ _ _ h'

/-- A program that ends leaves its generator idle; in a pair the upper MU's generator ends with it. -/
theorem finishGen_spec (s : State) (t m g : Nat) (x : Gen) :
    getMu (finishGen s t m g x) t m = { getMu s t m with gens := mdel (getMu s t m).gens g } ∧ (finishGen s t m g x).cus = s.cus := by
  unfold finishGen
  extract_lets v
  have hv : getMu v t m = { getMu s t m with gens := mdel (getMu s t m).gens g } := getMu_endGen_same ..
  split
  · split
    · exact ⟨(getMu_endGen_other _ _ _ _ _ (by omega)).trans hv, rfl⟩
    · exact ⟨hv, rfl⟩
  · exact ⟨hv, rfl⟩

/-- What a failing address makes of its program (R155). -/
theorem genFail_fresh {x : Gen} (h : x.failed = false) (s : State) (t m g a : Nat) :
    genFail s t m g x a = setGen (raiseInc s (tileInc s 0x0103 utMu t m (a % 2 ^ 32))) t m g { x with failed := true, poi := true } := by
  unfold genFail
  rw [h]
  rfl

/-- An address beyond the MU is incident 0x0103, whatever follows it. -/
theorem raisedAs_genFail {x : Gen} (h : x.failed = false) {s s' u : State} {t m g a : Nat} (hi : s'.inc = s.inc) (ht : s'.time = s.time)
    (hu : IncGrows (genFail s' t m g x a) u) : raisedAs s u t 0x0103 m := by
  rw [genFail_fresh h] at hu
  exact raisedAs_of_grows (raised_congr hi.symm ht.symm (setGen_keeps ..).2.2 (raised_tileInc ..)) hu

/-! ### The loop nest (R158) -/

/-- A program that goes on to its next point, or ends. -/
def affineStep (s : State) (t m g : Nat) (x : Gen) : State :=
  match affineNext x with
  | some y => setGen s t m g y
  | none => finishGen s t m g x

theorem affineStep_spec (s : State) (t m g : Nat) (x : Gen) :
    (∀ y, affineNext x = some y → genOf (affineStep s t m g x) t m g = some y) ∧ (affineNext x = none → genOf (affineStep s t m g x) t m g = none) ∧
      (affineStep s t m g x).cus = s.cus ∧ (affineNext x ≠ none → (affineStep s t m g x).flows = s.flows) ∧
      (affineStep s t m g x).inc = s.inc ∧ (getMu (affineStep s t m g x) t m).mem = (getMu s t m).mem ∧
      (getMu (affineStep s t m g x) t m).poi = (getMu s t m).poi := by
  unfold affineStep
  cases affineNext x with
  | some y =>
    refine ⟨fun z hz => ?_, fun h => (by cases h), (setGen_keeps ..).2.1, fun _ => (setGen_keeps ..).1, (setGen_keeps ..).2.2, ?_, ?_⟩
    · cases hz
      exact genOf_setGen ..
    · have hmem := congrArg Mu.mem (getMu_setGen s t m g y)
      exact hmem
    · have hpoi := congrArg Mu.poi (getMu_setGen s t m g y)
      exact hpoi
  | none =>
    obtain ⟨hm, hc⟩ := finishGen_spec s t m g x
    have hmem := congrArg Mu.mem hm
    have hpoi := congrArg Mu.poi hm
    refine ⟨fun z hz => (by cases hz), fun _ => ?_, hc, fun h => absurd rfl h, finishGen_inc .., hmem, hpoi⟩
    dsimp only
    rw [genOf, hm]
    exact lookup_mdel_same ..

/-! ### Delivering a beat to a CU (R157) -/

theorem cuFeed_genFeed {x : Gen} {k : Nat} (hk : x.cu = some k) (s : State) (t : Nat) (l : List FeedBlk) :
    cuFeed (getCu (genFeed s t x l) t k) x.prog = cuFeed (getCu s t k) x.prog ++ l := by
  unfold genFeed
  rw [hk]
  dsimp only
  rw [modCu_eq, getCu_setCu_same]
  exact mget_mset_same ..

theorem genFeed_flows (s : State) (t : Nat) (x : Gen) (l : List FeedBlk) : (genFeed s t x l).flows = s.flows := by
  unfold genFeed
  split <;> rfl

/-- A beat for a CU feed. -/
theorem genEmit_feed {x : Gen} (h : gDest x.w0.toNat ≤ 1) (s : State) (t m : Nat) (tag : Option Nat) (bs : List Byte) (poi : Bool) :
    genEmit s t m x tag bs poi = genFeed s t x [⟨bs, tag, poi, [], x.apx, false, 0⟩] := by
  unfold genEmit
  rcases (by omega : gDest x.w0.toNat = 0 ∨ gDest x.w0.toNat = 1) with h | h
  · rw [h]
    rfl
  · rw [h]
    rfl

/-- A beat for the output stream. -/
theorem genEmit_stream {x : Gen} (h : gDest x.w0.toNat = 2) (s : State) (t m : Nat) (tag : Option Nat) (bs : List Byte) (poi : Bool) :
    genEmit s t m x tag bs poi = emitToks s (muEmit s t m x poi) (byteToks 40 bs) := by
  unfold genEmit
  rw [h]
  rfl

theorem emitToks_cus {e : Emit} (h : e.late = false) (s : State) (ps : List (Nat × Nat)) : (emitToks s e ps).cus = s.cus := by
  refine (pushOut_cus ..).trans (foldl_keeps (fun a : State × List Token => a.1.cus) _ _ _ fun a p => ?_)
  show (putStrm a.1 e _).cus = _
  unfold putStrm
  rw [h]
  rfl

/-- What reading for a program leaves: the flows, the regions, the CUs, and of the MUs all but their latent errors. -/
theorem genRead_keeps (s : State) (t m : Nat) (paired : Bool) (a n : Nat) :
    besideMus (genRead s t m paired a n).2.2 = besideMus s ∧
      ∀ t' k', muData (getMu (genRead s t m paired a n).2.2 t' k') = muData (getMu s t' k') := by
  unfold genRead
  extract_lets r r2
  split
  · exact ⟨(besideMus_muRead ..).trans (besideMus_muRead ..), fun t' k' => (muData_muRead ..).trans (muData_muRead ..)⟩
  · exact ⟨besideMus_muRead .., fun _ _ => muData_muRead ..⟩

/-! ### A program starts (R153) -/

section
variable {s : State} {t : TileId} {m : MuIx} {p : Fin 8} (hm : muMoves s t = true) (hfold : (getFlow s t (50 + m)).foldReq = false)
include hm hfold

/-- A token of `QIN` starts a program that feeds no CU; a list program has taken it (`v` is the state then). -/
theorem execGeneratorStart_token {tok : Token} {g : Nat} (hfor : genFor (getMu s t m) p none = none)
    (hmode : 0 < gMode (freshGen s t m p none).w0.toNat) (hmode4 : gMode (freshGen s t m p none).w0.toNat < 4)
    (hdest : 1 < gDest (freshGen s t m p none).w0.toNat) (htok : headTok (getFlow s t (50 + m)) (gQin (freshGen s t m p none).w0.toNat) = some tok)
    (hfree : freeGen (getMu s t m) = some g) :
    let x := freshGen s t m p none
    let v := if gMode x.w0.toNat = 1 ∧ bit x.w1.toNat 61 = true then
      ((takeTok s t (50 + m) (gQin x.w0.toNat)).map (·.2)).getD s else s
    exec (.generatorStart t m p none) s = .next (setGen (modMu v t m fun u => { u with starts := u.starts + 1 }) t m g
      { x with tag := tok.tag, poi := tok.poi, apx := tok.apx }) := by
  intro x v
  show execGeneratorStart t m p none s = _
  unfold execGeneratorStart
  simp only [hm, hfold, hfor, htok, hfree, Option.map_none, Option.isSome_none, Bool.not_true, Bool.or_false, Bool.false_or, ge_iff_le,
    Nat.not_le.2 hmode4, Nat.not_le.2 hdest, decide_false, Nat.ne_of_gt hmode, beq_iff_eq, Bool.false_eq_true, if_false]
  unfold v
  by_cases hl : gMode x.w0.toNat = 1 ∧ bit x.w1.toNat 61 = true
  · have hb : (gMode x.w0.toNat == 1 && bit x.w1.toNat 61) = true := by simpa using hl
    rw [if_pos hl, if_pos hb]
    cases takeTok s t (50 + m) (gQin x.w0.toNat) <;> rfl
  · have hb : ¬(gMode x.w0.toNat == 1 && bit x.w1.toNat 61) = true := by simpa using hl
    rw [if_neg hl, if_neg hb]

/-- The program that a micro-op of CU `k` starts: a gather may have its mask given (R131, R134, R136, R140). -/
def maskedGen (s : State) (t k : Nat) (run : URun) (x : Gen) : Gen :=
  if gMode x.w0.toNat ≠ 2 then x
  else match maskFrom s t k run with
    | .fbagp => { x with direct := true }
    | .given l => { x with mask := l, maskEnd := true, direct := true }
    | .queue => x

/-- A micro-op of a CU starts the program that it names, on both MUs of a pair for a paired feed. -/
theorem execGeneratorStart_feed {k : CuIx} {run : URun} {g : Nat} (hfor : genFor (getMu s t m) p (some k) = none)
    (hmode4 : gMode (freshGen s t m p (some k)).w0.toNat < 4) (hrun : consumerUop s t k p = some run)
    (hfree : freeGen (getMu s t m) = some g) :
    let x := freshGen s t m p (some k)
    let d := gDest x.w0.toNat
    let lo := muLow k (runUop (getCu s t k) run)
    exec (.generatorStart t m p (some k)) s = .next (
      if 3 < d ∨ m.val / 2 ≠ lo / 2 ∨ d = 0 ∧ m.val ≠ lo then s
      else if d = 0 then match freeGen (getMu s t (m + 1)) with
        | none => cuStall s t k stInput
        | some h => setGen (setGen s t m g (maskedGen s t k run x)) t (m + 1) h (freshGen s t (m + 1) p (some k))
      else setGen s t m g (maskedGen s t k run x)) := by
  intro x d lo
  have hx : (if gMode x.w0.toNat != 2 then x else match maskFrom s t k run with
      | .fbagp => { x with direct := true }
      | .given l => { x with mask := l, maskEnd := true, direct := true }
      | .queue => x) = maskedGen s t k run x := by
    unfold maskedGen
    simp only [bne_iff_ne]
  show execGeneratorStart t m p (some k) s = _
  unfold execGeneratorStart
  simp only [hm, hfold, hfor, hfree, hrun, Option.map_some, Option.isSome_none, Bool.not_true, Bool.or_false, ge_iff_le,
    Nat.not_le.2 hmode4, decide_false, Bool.false_eq_true, if_false]
  by_cases hbad : 3 < d ∨ m.val / 2 ≠ lo / 2 ∨ d = 0 ∧ m.val ≠ lo
  · rw [if_pos hbad]
    exact if_pos (by simpa [d, lo, or_assoc] using hbad)
  · rw [if_neg hbad]
    refine (if_neg (by simpa [d, lo, or_assoc] using hbad)).trans ?_
    by_cases h0 : d = 0
    · rw [if_pos h0]
      refine (if_pos (beq_iff_eq.2 h0)).trans ?_
      cases freeGen (getMu s t (m + 1)) with
      | none => rfl
      | some h => exact congrArg (fun y => Host.Outcome.next (setGen (setGen s t m g y) t (m + 1) h (freshGen s t (m + 1) p (some k)))) hx
    · rw [if_neg h0]
      refine (if_neg (fun e => h0 (beq_iff_eq.1 e))).trans ?_
      exact congrArg (fun y => Host.Outcome.next (setGen s t m g y)) hx

end

/-! ### An affine beat (R158) -/

section
variable {s : State} {t : TileId} {m : MuIx} {g : Fin 2} {x : Gen} (hr : genReady s t m g 0 = some x)
include hr

/-- An affine beat answers a state; what it raises comes after what its address raised. -/
theorem execAffineBeat_grows : ∃ u, exec (.affineBeat t m g) s = .next u ∧
    IncGrows (if inMu (affineAddr x) (gBytes x.w0.toNat) then s else genFail s t m g x (affineAddr x % 2 ^ 32).toNat) u := by
  show ∃ u, execAffineBeat t m g s = .next u ∧ _
  unfold execAffineBeat
  split
  · next h => exact absurd (h.symm.trans hr) (by simp)
  next x0 h =>
  obtain rfl : x0 = x := Option.some.inj (h.symm.trans hr)
  extract_lets n a go s1 x1
  have hgo (v : State) (y : Gen) : IncGrows v (go v y) := incGrows_of_inc (affineStep_spec v t m g y).2.2.2.2.1
  show ∃ u, (_ : Out) = Host.Outcome.next u ∧ IncGrows s1 u
  split
  · split
    · exact ⟨_, rfl, incGrows_inStall ..⟩
    · next hpop =>
      split
      · exact ⟨_, rfl, (incGrows_popBytes hpop).trans (hgo ..)⟩
      · extract_lets r
        split
        · exact ⟨_, rfl, (incGrows_popBytes hpop).trans ((incGrows_muWrite ..).trans (hgo ..))⟩
        · exact ⟨_, rfl, (incGrows_muWrite ..).trans (incGrows_unitStall ..)⟩
  · split
    · exact ⟨_, rfl, incGrows_outStall ..⟩
    · split
      · exact ⟨_, rfl, incGrows_unitStall ..⟩
      · split
        · exact ⟨_, rfl, (incGrows_of_inc (genEmit_inc ..)).trans (hgo ..)⟩
        · exact ⟨_, rfl, (incGrows_genRead ..).trans ((incGrows_of_inc (genEmit_inc ..)).trans (hgo ..))⟩

variable (hf : x.failed = false) (hin : inMu (affineAddr x) (gBytes x.w0.toNat) = true)
include hf hin

/-- A beat in range that is read is delivered, and the nest moves on. -/
theorem execAffineBeat_reads (hd : gDest x.w0.toNat ≠ 3) (he : genCanEmit s t m x = true) (ho : gDest x.w0.toNat ≤ 1 → issueOpen s t = true) :
    let r := genRead s t m (isPaired x.w0.toNat m) (affineAddr x).toNat (gBytes x.w0.toNat)
    exec (.affineBeat t m g) s = .next (affineStep (genEmit r.2.2 t m x none r.1 (r.2.1 || x.poi)) t m g x) := by
  intro r
  have ho' : (decide (gDest x.w0.toNat ≤ 1) && !issueOpen s t) = false := by
    by_cases h : gDest x.w0.toNat ≤ 1
    · simp [ho h]
    · simp [h]
  show execAffineBeat t m g s = _
  unfold execAffineBeat
  simp only [hr, hin, genOf_of_genReady hr, hf, he, ho', beq_iff_eq, hd, Option.getD_some, Bool.not_true, Bool.false_eq_true, if_true, if_false]
  rfl

/-- A beat in range that is written takes its bytes from `QDAT`, and the nest moves on. -/
theorem execAffineBeat_writes (hd : gDest x.w0.toNat = 3) {bs : List Byte} {poi : Bool} {s1 : State} {m' : Mu}
    (hpop : popBytes 40 s t (50 + m) (gQdat x.w0.toNat) (gBytes x.w0.toNat) [] false = some (bs, poi, s1))
    (hw : muWriteAll (getMu s1 t m) (affineAddr x).toNat (bs.take (gBytes x.w0.toNat)) poi = some m') :
    exec (.affineBeat t m g) s =
      .next (affineStep (muWrite s1 t m (affineAddr x).toNat (bs.take (gBytes x.w0.toNat)) poi).1 t m g x) := by
  show execAffineBeat t m g s = _
  unfold execAffineBeat
  simp only [hr, hin, genOf_of_genReady hr, hf, hd, hpop, (muWrite_some hw).1, beq_self_eq_true, Option.getD_some, Bool.false_eq_true, if_true,
    if_false]
  rfl

end

/-! ### An indirect access (R159 to R161) -/

/-- The bytes that an indirect access needs within the MU: a word for an addend, the whole block of a tag, nothing for a tag without one. -/
def ixLen (y : Gen) (i : Nat) : Nat :=
  if bits y.w1.toNat 62 2 = 2 then 4
  else if bits y.w1.toNat 62 2 = 0 ∧ bits y.w1.toNat 59 2 = 2 then (if bit i 14 then 0 else max (gBytes y.w0.toNat) (bits y.w1.toNat 0 24))
  else gBytes y.w0.toNat

/-- The tag that a beat of an indirect program carries (R161). -/
def ixTag (y : Gen) (i : Nat) : Option Nat := if bits y.w1.toNat 59 2 = 2 then some (i % 65536) else none

/-- What an indirect read delivers: the block of a tag to a CU feed, or one beat (R159, R161). -/
def ixRead (s : State) (t m : Nat) (y : Gen) (i : Nat) : State :=
  let n := gBytes y.w0.toNat
  let a := (ixAddr y i).toNat
  let paired := isPaired y.w0.toNat m
  let r := genRead s t m paired a n
  if bits y.w1.toNat 59 2 = 2 ∧ gDest y.w0.toNat ≤ 1 then tagFeed s t m y paired (i % 65536) a n
  else genEmit r.2.2 t m y (ixTag y i) r.1 (r.2.1 || y.poi)

section
variable {s s1 : State} {t : TileId} {m : MuIx} {g : Fin 2} {x y : Gen} {i : Nat} (hr : genReady s t m g 1 = some x)
  (he : genCanEmit s t m x = true) (hi : nextIndex s t m x = some (.at i, y, s1)) (hy : y.failed = false)
include hr he hi hy

/-- An indirect access, by what the program does with an address in range, and a read beyond the MU. -/
theorem execIndirectAccess_served :
    let n := gBytes y.w0.toNat
    let a := (ixAddr y i).toNat
    let s2 := setGen s1 t m g y
    (inMu (ixAddr y i) (ixLen y i) = true →
      (bits y.w1.toNat 62 2 = 0 → exec (.indirectAccess t m g) s = .next (ixRead s2 t m y i)) ∧
      (bits y.w1.toNat 62 2 = 1 → ∀ bs poi s3 m', popBytes 40 s2 t (50 + m) (gQdat y.w0.toNat) n [] false = some (bs, poi, s3) →
        muWriteAll (getMu s3 t m) a (bs.take n) (poi || y.poi) = some m' →
        exec (.indirectAccess t m g) s = .next (muWrite s3 t m a (bs.take n) (poi || y.poi)).1) ∧
      (bits y.w1.toNat 62 2 = 2 → ∀ d poi z s3 m', nextAddend s2 t m y = some (d, poi, z, s3) → z.failed = false →
        let r := muRead (setGen s3 t m g z) t m a 4
        let bs := leBytes 4 ((leNat r.1 + d) % 2 ^ 32)
        muWriteAll (getMu r.2.2 t m) a bs (r.2.1 || poi || z.poi) = some m' →
        exec (.indirectAccess t m g) s = .next (muWrite r.2.2 t m a bs (r.2.1 || poi || z.poi)).1)) ∧
      (inMu (ixAddr y i) (ixLen y i) = false → bits y.w1.toNat 62 2 = 0 → ∃ b, exec (.indirectAccess t m g) s =
        .next (genEmit (genFail s2 t m g y (ixAddr y i % 2 ^ 32).toNat) t m { y with failed := true, poi := true } (ixTag y i) b true)) := by
  intro n a s2
  generalize hE : exec (.indirectAccess t m g) s = o
  change execIndirectAccess t m g s = o at hE
  unfold execIndirectAccess at hE
  split at hE
  · next h => exact absurd (h.symm.trans hr) (by simp)
  next x0 h =>
  obtain rfl : x0 = x := Option.some.inj (h.symm.trans hr)
  rw [if_neg (by rw [he]; exact Bool.false_ne_true)] at hE
  split at hE
  · next h => exact absurd (h.symm.trans hi) (by simp)
  · next h => exact absurd (h.symm.trans hi) (by simp)
  · next h => exact absurd (h.symm.trans hi) (by simp)
  next i0 y0 s0 h =>
  obtain ⟨⟨rfl⟩, rfl, rfl⟩ : Ix.at i0 = Ix.at i ∧ y0 = y ∧ s0 = s1 := by simpa using h.symm.trans hi
  extract_lets iop n' a' tag paired n0 s3 x1 r at hE
  have hn0 : n0 = ixLen y0 i := by
    have hl : ixLen y0 i = if iop = 2 then 4 else if iop = 0 ∧ bits y0.w1.toNat 59 2 = 2 then
        (if bit i 14 then 0 else max (gBytes y0.w0.toNat) (bits y0.w1.toNat 0 24)) else gBytes y0.w0.toNat := rfl
    rw [hl]
    unfold n0 n' tag
    by_cases h2 : iop = 2
    · simp [h2]
    · by_cases ht : bits y0.w1.toNat 59 2 = 2 <;> simp [h2, ht]
  have hy' : ¬y0.failed = true := by rw [hy]; exact Bool.false_ne_true
  have htag : tag = ixTag y0 i := by
    unfold tag ixTag
    simp only [beq_iff_eq]
  refine ⟨fun hin => ?_, fun hout h0 => ?_⟩
  case refine_2 =>
    have h0' : iop = 0 := h0
    have hs3 : s3 = genFail s2 t m g y0 (ixAddr y0 i % 2 ^ 32).toNat := if_neg (by rw [hn0, hout]; exact Bool.false_ne_true)
    have hx1 : x1 = { y0 with failed := true, poi := true } := by
      unfold x1
      rw [hs3, genFail_fresh hy, genOf_setGen]
      rfl
    rw [if_pos (by rw [h0']; rfl), hx1, if_pos rfl, hs3, htag] at hE
    exact ⟨_, hE.symm⟩
  have hs3 : s3 = s2 := if_pos (by rw [hn0]; exact hin)
  have hx1 : x1 = y0 := by
    unfold x1
    rw [hs3, genOf_setGen]
    rfl
  refine ⟨fun h0 => ?_, fun h1 bs poi v m' hpop hw => ?_, fun h2 d poi z v m' hadd hz => ?_⟩
  · have h0' : iop = 0 := h0
    have hn : n' = n := if_neg (by rw [h0']; decide)
    have hr' : r = genRead s2 t m paired a n := by
      unfold r
      rw [hs3, hn]
    rw [if_pos (by rw [h0']; rfl), hx1, hs3, if_neg hy', hr', hn] at hE
    by_cases ht : bits y0.w1.toNat 59 2 = 2
    · have ht' : ixTag y0 i = some (i % 65536) := if_pos ht
      unfold ixRead
      rw [htag, ht'] at hE
      dsimp only at hE
      by_cases hd : gDest y0.w0.toNat ≤ 1
      · rw [if_pos hd] at hE
        rw [if_pos ⟨ht, hd⟩]
        exact hE.symm
      · rw [if_neg hd] at hE
        rw [if_neg (fun h => hd h.2), ht']
        exact hE.symm
    · have ht' : ixTag y0 i = none := if_neg ht
      unfold ixRead
      rw [htag, ht'] at hE
      rw [if_neg (fun h => ht h.1), ht']
      exact hE.symm
  · have h1' : iop = 1 := h1
    have hn : n' = n := if_neg (by rw [h1']; decide)
    rw [if_neg (by rw [h1']; decide), if_pos (by rw [h1']; rfl), hs3, hx1, hn, hpop, show a'.toNat = a from rfl] at hE
    dsimp only at hE
    rw [if_neg hy', if_pos (muWrite_some hw).1] at hE
    exact hE.symm
  · have h2' : iop = 2 := h2
    intro r bs hw
    have hz' : ¬z.failed = true := by rw [hz]; exact Bool.false_ne_true
    rw [if_neg (by rw [h2']; decide), if_neg (by rw [h2']; decide), hs3, hx1, hadd, show a'.toNat = a from rfl] at hE
    dsimp only at hE
    rw [if_neg hz', if_pos (muWrite_some hw).1] at hE
    exact hE.symm

end

theorem execIndirectAccess_next (t : TileId) (m : MuIx) (g : Fin 2) (s : State) : ∃ u, exec (.indirectAccess t m g) s = .next u := by
  show ∃ u, execIndirectAccess t m g s = .next u
  unfold execIndirectAccess
  split
  · exact ⟨_, rfl⟩
  split
  · exact ⟨_, rfl⟩
  split
  · exact ⟨_, rfl⟩
  · exact ⟨_, rfl⟩
  · exact ⟨_, rfl⟩
  extract_lets iop n a tag paired n0 s3 x1 r
  clear_value tag x1 s3 r
  split
  · repeat' split
    all_goals exact ⟨_, rfl⟩
  split
  · split
    · exact ⟨_, rfl⟩
    · extract_lets z
      repeat' split
      all_goals exact ⟨_, rfl⟩
  · split
    · exact ⟨_, rfl⟩
    · extract_lets v z w
      repeat' split
      all_goals exact ⟨_, rfl⟩

/-! ### What an indirect read delivers (R161) -/

theorem gBytes_pos (w : Nat) : 0 < gBytes w := by
  unfold gBytes
  omega

theorem bit_tag (i : Nat) : bit (i % 65536) 14 = bit i 14 := by
  unfold bit
  rw [Nat.shiftRight_eq_div_pow, Nat.shiftRight_eq_div_pow, show i % 65536 / 2 ^ 14 % 2 = i / 2 ^ 14 % 2 by omega]

/-- A tag without a block is delivered alone (Table 4.5). -/
theorem tagFeed_nil {tag : Nat} (h : bit tag 14 = true) (s : State) (t m : Nat) (y : Gen) (paired : Bool) (a n : Nat) :
    tagFeed s t m y paired tag a n = genFeed s t y [⟨[], some tag, y.poi, [], y.apx, false, 0⟩] := by
  unfold tagFeed
  rw [if_pos h]

/-- A block of one beat is delivered with its tag. -/
theorem tagFeed_beat {tag n : Nat} {y : Gen} (h : bit tag 14 = false) (hn : 0 < n) (hlen : bits y.w1.toNat 0 24 ≤ n) (s : State) (t m : Nat)
    (paired : Bool) (a : Nat) :
    let r := genRead s t m paired a n
    tagFeed s t m y paired tag a n = genFeed r.2.2 t y [⟨r.1, some tag, r.2.1 || y.poi, [], y.apx, false, 0⟩] := by
  intro r
  have htot : max n (bits y.w1.toNat 0 24) = n := Nat.max_eq_left hlen
  have hone : (n + n - 1) / n = 1 := Nat.div_eq_of_lt_le (by omega) (by omega)
  unfold tagFeed
  rw [if_neg (by rw [h]; exact Bool.false_ne_true)]
  simp only [htot, hone, List.range_one, List.foldl_cons, List.foldl_nil, Nat.zero_mul, Nat.add_zero, Nat.sub_zero, Nat.min_self,
    beq_self_eq_true, if_true]
  rfl

/-- The generators of an MU. -/
def gensAt (s : State) (t m : Nat) : SMap Gen := (getMu s t m).gens

theorem gensAt_genRead (s : State) (t m : Nat) (paired : Bool) (a n t' m' : Nat) :
    gensAt (genRead s t m paired a n).2.2 t' m' = gensAt s t' m' := by
  have h := congrArg Mu.gens ((genRead_keeps s t m paired a n).2 t' m')
  exact h

theorem gensAt_tagFeed (s : State) (t m : Nat) (y : Gen) (paired : Bool) (tag a n t' m' : Nat) :
    gensAt (tagFeed s t m y paired tag a n) t' m' = gensAt s t' m' := by
  have hfeed (v : State) (l : List FeedBlk) : gensAt (genFeed v t y l) t' m' = gensAt v t' m' :=
    congrArg Mu.gens (getMu_congr (genFeed_mus ..) t' m')
  unfold tagFeed
  split
  · exact hfeed ..
  · exact foldl_keeps (gensAt · t' m') _ _ _ fun _ _ => (hfeed ..).trans (gensAt_genRead ..)

theorem genOf_ixRead (s : State) (t m : Nat) (y : Gen) (i g : Nat) : genOf (ixRead s t m y i) t m g = genOf s t m g := by
  refine genOf_congr ?_ g
  unfold ixRead
  extract_lets n a paired r
  split
  · exact gensAt_tagFeed ..
  · exact (congrArg Mu.gens (getMu_congr (genEmit_mus ..) t m)).trans (gensAt_genRead ..)

/-- The block that an indirect read of one beat adds to its CU's feed. -/
def ixBlock (s : State) (t m : Nat) (y : Gen) (i : Nat) : FeedBlk :=
  let r := genRead s t m (isPaired y.w0.toNat m) (ixAddr y i).toNat (gBytes y.w0.toNat)
  if bits y.w1.toNat 59 2 = 2 ∧ bit i 14 = true then ⟨[], some (i % 65536), y.poi, [], y.apx, false, 0⟩
  else ⟨r.1, ixTag y i, r.2.1 || y.poi, [], y.apx, false, 0⟩

theorem cuFeed_ixRead {y : Gen} {i k : Nat} (h0 : bits y.w1.toNat 62 2 = 0) (hd : gDest y.w0.toNat ≤ 1) (hk : y.cu = some k)
    (hlen : ixLen y i ≤ gBytes y.w0.toNat) (s : State) (t m : Nat) :
    cuFeed (getCu (ixRead s t m y i) t k) y.prog = cuFeed (getCu s t k) y.prog ++ [ixBlock s t m y i] := by
  have hread (l : List FeedBlk) :
      cuFeed (getCu (genFeed (genRead s t m (isPaired y.w0.toNat m) (ixAddr y i).toNat (gBytes y.w0.toNat)).2.2 t y l) t k) y.prog =
        cuFeed (getCu s t k) y.prog ++ l := by
    rw [cuFeed_genFeed hk, getCu_congr (of_besideMus (genRead_keeps ..).1).2.2.2.2]
  unfold ixRead ixBlock
  by_cases ht : bits y.w1.toNat 59 2 = 2
  · simp only [ht, hd, true_and, if_true]
    cases hb : bit i 14 with
    | true =>
      rw [tagFeed_nil (by rw [bit_tag, hb])]
      exact cuFeed_genFeed hk ..
    | false =>
      have hmax : bits y.w1.toNat 0 24 ≤ gBytes y.w0.toNat := by
        unfold ixLen at hlen
        simp only [h0, ht, hb, and_self, if_true, Bool.false_eq_true, if_false] at hlen
        simpa using hlen
      rw [tagFeed_beat (by rw [bit_tag, hb]) (gBytes_pos _) hmax, hread, if_neg Bool.false_ne_true, ixTag, if_pos ht]
  · simp only [ht, false_and, if_false]
    rw [genEmit_feed hd, hread]

/-- A block longer than a beat is one with a tag. -/
theorem ixRead_block {y : Gen} {i : Nat} (h0 : bits y.w1.toNat 62 2 = 0) (hd : gDest y.w0.toNat ≤ 1)
    (hlen : gBytes y.w0.toNat < ixLen y i) (s : State) (t m : Nat) :
    ixRead s t m y i = tagFeed s t m y (isPaired y.w0.toNat m) (i % 65536) (ixAddr y i).toNat (gBytes y.w0.toNat) := by
  have ht : bits y.w1.toNat 59 2 = 2 := by
    by_contra ht
    unfold ixLen at hlen
    simp [h0, ht] at hlen
  unfold ixRead
  exact if_pos ⟨ht, hd⟩

/-- A longer range that begins at the same address is not in the MU when a shorter is not. -/
theorem inMu_longer {a : Int} {n n' : Nat} (h : inMu a n = false) (hn : n ≤ n') : inMu a n' = false := by
  unfold inMu at h ⊢
  simp only [Bool.and_eq_false_iff, decide_eq_false_iff_not] at h ⊢
  omega

theorem ixLen_untagged {y : Gen} {i : Nat} (h0 : bits y.w1.toNat 62 2 = 0) (h : bits y.w1.toNat 59 2 ≠ 2 ∨ bit i 14 = false) :
    gBytes y.w0.toNat ≤ ixLen y i := by
  unfold ixLen
  rw [h0, if_neg (by decide)]
  split
  · next ht =>
    rw [h.resolve_left (fun hn => hn ht.2)]
    exact Nat.le_max_left ..
  · exact Nat.le_refl _

/-- Settles O17: starts by the token or micro-op that names the program, beats by what is done with their address. -/
theorem generatorStartsAndBeats : Obligations.GeneratorStartsAndBeats := by
  refine ⟨⟨?_, ?_⟩, ?_, ?_, ?_⟩
  · intro s t m p tok g x w0 hm hfold hfor hmode hmode4 hdest htok hfree y
    have hx := execGeneratorStart_token hm hfold hfor hmode hmode4 hdest htok hfree
    refine ⟨_, hx, fun hn => ?_, fun h1 hb z s1 hz => ?_⟩
    · rw [if_neg hn]
      exact onlyMu_started ..
    · rw [if_pos ⟨h1, hb⟩, hz]
      exact onlyMu_started ..
  · intro s t m p k run g x w0 hm hfold hfor hmode4 hrun lo y hfree
    have hx := execGeneratorStart_feed hm hfold hfor hmode4 hrun hfree
    have hy : maskedGen s t k run x = y := rfl
    refine ⟨_, hx, fun h0 h3 hlo => ?_, fun h0 hlo h hh => ?_⟩
    · have hno : ¬(3 < gDest w0 ∨ m.val / 2 ≠ lo / 2 ∨ gDest w0 = 0 ∧ m.val ≠ lo) := by omega
      rw [if_neg hno, if_neg (Nat.ne_of_gt h0)]
      exact onlyMu_setMu s t m _ m.isLt
    · have hno : ¬(3 < gDest w0 ∨ m.val / 2 ≠ lo / 2 ∨ gDest w0 = 0 ∧ m.val ≠ lo) := by
        rw [hlo]
        omega
      rw [if_neg hno, if_pos h0, hh]
      refine ⟨?_, ?_, rfl⟩
      · exact (getMu_setGen_other _ _ _ _ _ _ (by omega)).trans (getMu_setGen ..)
      · refine (getMu_setGen ..).trans ?_
        rw [getMu_setGen_other _ _ _ _ _ _ (by omega)]
        rfl
  · intro s t m g x hr hf n a r
    obtain ⟨u, hu, hg⟩ := execAffineBeat_grows hr
    obtain ⟨hbeside, hdata⟩ := genRead_keeps s t m (isPaired x.w0.toNat m) a.toNat n
    obtain ⟨-, hflows, hregions, -, hcus⟩ := of_besideMus hbeside
    refine ⟨u, hu, fun hout => ?_, fun hin hd he ho => ?_, fun hin hd bs poi s1 m' hpop hw => ?_⟩
    · rw [if_neg (by rw [hout]; exact Bool.false_ne_true)] at hg
      exact raisedAs_genFail hf rfl rfl hg
    · cases hu.symm.trans (execAffineBeat_reads hr hf hin hd he ho)
      obtain ⟨hsome, hnone, hc, hfl, -⟩ := affineStep_spec (genEmit r.2.2 t m x none r.1 (r.2.1 || x.poi)) t m g x
      refine ⟨hsome, hnone, fun hd1 k hk => ⟨?_, fun hne => ?_⟩, fun hd2 => ⟨?_, fun hne => ?_⟩⟩
      · rw [getCu_congr hc, genEmit_feed hd1, cuFeed_genFeed hk, getCu_congr hcus]
      · rw [hfl hne, genEmit_feed hd1, genFeed_flows, hflows]
      · rw [hc, genEmit_stream hd2, emitToks_cus rfl, hcus]
      · have hstarts := congrArg Mu.starts (hdata t m)
        have hemit : muEmit r.2.2 t m x (r.2.1 || x.poi) =
            ⟨t, 50 + m, gOstr x.w0.toNat, false, epochAt s t, x.tag, (getMu s t m).starts, r.2.1 || x.poi, x.apx⟩ := by
          unfold muEmit
          rw [epochAt_congr hregions, show (getMu r.2.2 t m).starts = (getMu s t m).starts from hstarts]
        rw [hfl hne, genEmit_stream hd2, hemit]
    · cases hu.symm.trans (execAffineBeat_writes hr hf hin hd hpop hw)
      obtain ⟨hsome, hnone, -, hfl, -, hmem, hpoi⟩ := affineStep_spec (muWrite s1 t m a.toNat (bs.take n) poi).1 t m g x
      have hm' := (muWrite_some hw).2
      exact ⟨hmem.trans (congrArg Mu.mem hm'), hpoi.trans (congrArg Mu.poi hm'),
        fun hne => (hfl hne).trans (of_besideMus (besideMus_muWrite ..)).2.1, hsome, hnone⟩
  · intro s s1 t m g x y i hr he hi hy n tagged len hin a s2
    obtain ⟨u, hu⟩ := execIndirectAccess_next t m g s
    obtain ⟨hread, hwrite, hadd⟩ := (execIndirectAccess_served hr he hi hy).1 hin
    refine ⟨u, hu, fun h0 => ?_, fun h1 bs poi s3 m' hpop hw => ?_, fun h2 d poi z s3 hnext hz => ?_⟩
    · cases hu.symm.trans (hread h0)
      refine ⟨(genOf_ixRead ..).trans (genOf_setGen ..), fun hd k hk => ⟨fun hlen => ?_, fun hlen => ixRead_block h0 hd hlen ..⟩⟩
      have hadded : [ixBlock s2 t m y i] = if tagged ∧ bit i 14 = true then [⟨[], some (i % 65536), y.poi, [], y.apx, false, 0⟩] else
          [⟨(genRead s2 t m (isPaired y.w0.toNat m) a n).1, if tagged then some (i % 65536) else none,
            (genRead s2 t m (isPaired y.w0.toNat m) a n).2.1 || y.poi, [], y.apx, false, 0⟩] := by
        unfold ixBlock
        rw [apply_ite (fun b => [b])]
        rfl
      rw [cuFeed_ixRead h0 hd hk hlen, hadded, getCu_congr (setGen_keeps ..).2.1]
    · cases hu.symm.trans (hwrite h1 bs poi s3 m' hpop hw)
      exact ⟨(muWrite_some hw).2, (of_besideMus (besideMus_muWrite ..)).2.1⟩
    · intro s4 r m' hw
      cases hu.symm.trans (hadd h2 d poi z s3 m' hnext hz hw)
      have hgens := congrArg Mu.gens (muHeld_muWrite r.2.2 t m a (leBytes 4 ((leNat r.1 + d) % 2 ^ 32)) (r.2.1 || poi || z.poi) t m)
      have hgens' := congrArg Mu.gens (muData_muRead s4 t m a 4 t m)
      refine ⟨(muWrite_some hw).2, ?_⟩
      rw [genOf_congr (hgens.trans hgens')]
      exact genOf_setGen ..
  · intro s s1 t m g x y i hr he hi hy h0 htag hout
    obtain ⟨b, hx⟩ := (execIndirectAccess_served hr he hi hy).2 (inMu_longer hout (ixLen_untagged h0 htag)) h0
    refine ⟨_, { y with failed := true, poi := true }, hx, ?_, ?_, rfl⟩
    · exact raisedAs_genFail hy (setGen_keeps ..).2.2 rfl (incGrows_of_inc (genEmit_inc ..))
    · rw [genOf_congr (congrArg Mu.gens (getMu_congr (genEmit_mus ..) t m)), genFail_fresh hy]
      exact genOf_setGen ..

end Sys2Proof.Machine
end

section
/-!
PROOFS. The arithmetic of the Wick cores (R185): each value of MULTIPLY_DIVIDE as the rule states it, with its corners.
-/
namespace Sys2Proof.Machine
open Sys2Proof

/-! ### Products, quotients and remainders (R185) -/

theorem mulVal_mul (a b : W32) : mulVal .mul a b = BitVec.ofNat 32 (a.toNat * b.toNat) :=
  BitVec.eq_of_toNat_eq (by rw [mulVal, BitVec.toNat_mul, BitVec.toNat_ofNat])

theorem mulVal_mulh (a b : W32) : mulVal .mulh a b = BitVec.ofInt 32 (a.toInt * b.toInt / 2 ^ 32) := by
  rw [mulVal, show (32 : ℤ) = ((32 : ℕ) : ℤ) from rfl, Int.shiftRight_natCast_right, Int.shiftRight_eq_div_pow]
  rfl

theorem mulVal_mulhu (a b : W32) : mulVal .mulhu a b = BitVec.ofNat 32 (a.toNat * b.toNat / 2 ^ 32) := by
  rw [mulVal, Nat.shiftRight_eq_div_pow]

theorem mulVal_divu (a b : W32) :
    mulVal .divu a b = if b = 0 then 0xFFFFFFFF#32 else BitVec.ofNat 32 (a.toNat / b.toNat) := by
  have hq : a.udiv b = BitVec.ofNat 32 (a.toNat / b.toNat) :=
    BitVec.eq_of_toNat_eq (by
      rw [BitVec.toNat_ofNat, Nat.mod_eq_of_lt ((Nat.div_le_self _ _).trans_lt a.isLt)]
      exact BitVec.toNat_udiv)
  rw [mulVal, hq]

theorem mulVal_remu (a b : W32) : mulVal .remu a b = if b = 0 then a else BitVec.ofNat 32 (a.toNat % b.toNat) := by
  have hr : a.umod b = BitVec.ofNat 32 (a.toNat % b.toNat) :=
    BitVec.eq_of_toNat_eq (by
      rw [BitVec.toNat_ofNat, Nat.mod_eq_of_lt ((Nat.mod_le _ _).trans_lt a.isLt)]
      exact BitVec.toNat_umod)
  rw [mulVal, hr]

/-- The two operands of the one quotient that overflows, as words and as numbers. -/
theorem overflow_iff (a b : W32) : (a = 0x80000000#32 ∧ b = 0xFFFFFFFF#32) ↔ (a.toInt = -2 ^ 31 ∧ b.toInt = -1) :=
  and_congr (BitVec.toInt_inj (y := 0x80000000#32)).symm (BitVec.toInt_inj (y := 0xFFFFFFFF#32)).symm

theorem mulVal_div (a b : W32) : mulVal .div a b = if b = 0 then BitVec.ofInt 32 (-1) else
    if a.toInt = -2 ^ 31 ∧ b.toInt = -1 then a else BitVec.ofInt 32 (a.toInt.tdiv b.toInt) := by
  simp only [mulVal, ← overflow_iff]
  refine if_congr Iff.rfl rfl ?_
  split
  · next h => exact h.1.symm
  · rfl

theorem mulVal_rem (a b : W32) : mulVal .rem a b = if b = 0 then a else
    if a.toInt = -2 ^ 31 ∧ b.toInt = -1 then 0 else BitVec.ofInt 32 (a.toInt.tmod b.toInt) := by
  simp only [mulVal, ← overflow_iff]

/-- Settles O2: the instruction writes one register, and its value is that of R185, operation by operation. -/
theorem wickMultiplyDivideResults : Obligations.WickMultiplyDivideResults := by
  intro s t c o gd a b h w x y v
  have hv : mulVal o x.v y.v = v := by
    cases o with
    | mul => exact mulVal_mul ..
    | mulh => exact mulVal_mulh ..
    | mulhu => exact mulVal_mulhu ..
    | divu => exact mulVal_divu ..
    | remu => exact mulVal_remu ..
    | div => exact mulVal_div ..
    | rem => exact mulVal_rem ..
  refine ⟨_, rfl, ?_⟩
  rw [← hv]
  exact wkIssue_reg s t c gd (wkJoin (mulVal o x.v y.v) x y) _ _ h c.isLt rfl

end Sys2Proof.Machine
end

section
/-!
PROOFS. How a Wick core takes an exception and what the stop of its region leaves of it (R202, R276): in canonical form each core is listed once,
and the stop changes each core of the region as `stopWick` says.
-/
namespace Sys2Proof.Machine
open Sys2Proof

/-! ### Changing the entries of a map one by one -/

theorem le_of_mem_mrise {α : Type} {lo : Nat} {m : SMap α} {e : Nat × α} (hm : mrise lo m = true) (he : e ∈ m) : lo ≤ e.1 := by
  induction m generalizing lo with
  | nil => cases he
  | cons x m ih =>
    simp only [mrise, Bool.and_eq_true, decide_eq_true_eq] at hm
    obtain ⟨hlo, hm⟩ := hm
    rcases List.mem_cons.1 he with rfl | he
    · exact hlo
    · have := ih hm he
      omega

/-- In a map whose keys rise a key reads as its one entry. -/
theorem mget_of_mem_mrise {α : Type} (d : α) {lo : Nat} {m : SMap α} {e : Nat × α} (hm : mrise lo m = true) (he : e ∈ m) :
    mget d m e.1 = e.2 := by
  induction m generalizing lo with
  | nil => cases he
  | cons x m ih =>
    simp only [mrise, Bool.and_eq_true, decide_eq_true_eq] at hm
    rcases List.mem_cons.1 he with rfl | he
    · exact if_pos rfl
    · have := le_of_mem_mrise hm.2 he
      exact (if_neg (by omega)).trans (ih hm.2 he)

/-- Some of the entries of a map in canonical form are written, each changed by its key, into another map. -/
theorem mget_foldl_entries {α : Type} [DecidableEq α] (d : α) (p : Nat → Bool) (f : Nat → α → α) {lo : Nat} {m : SMap α}
    (hm : mrise lo m = true) (hd : mnodef d m = true) (acc : SMap α) (k : Nat) :
    mget d ((m.filter fun e => p e.1).foldl (fun a e => mset d a e.1 (f e.1 e.2)) acc) k =
      if p k = true ∧ mget d m k ≠ d then f k (mget d m k) else mget d acc k := by
  induction m generalizing lo acc with
  | nil => simp
  | cons x m ih =>
    obtain ⟨j, v⟩ := x
    simp only [mrise, Bool.and_eq_true, decide_eq_true_eq] at hm
    simp only [mnodef, List.all_cons, Bool.and_eq_true, decide_eq_true_eq] at hd
    have ih' := ih hm.2 hd.2
    have hfilter : List.filter (fun e => p e.1) ((j, v) :: m) = if p j then (j, v) :: m.filter (fun e => p e.1) else m.filter fun e => p e.1 :=
      List.filter_cons
    by_cases hk : k = j
    · subst hk
      have hrest : mget d m k = d := mget_of_mrise d _ m k hm.2 (Nat.lt_succ_self k)
      have hget : mget d ((k, v) :: m) k = v := if_pos rfl
      by_cases hp : p k = true <;> simp [hfilter, hp, ih', hrest, hget, hd.1]
    · have hget : mget d ((j, v) :: m) k = mget d m k := if_neg (Ne.symm hk)
      by_cases hp : p j = true <;> simp [hfilter, hp, ih', hget, mget_mset_other _ _ _ _ _ hk]

/-- In canonical form every key that is chosen reads as changed, and every other key as before. -/
theorem mget_change_entries {α : Type} [DecidableEq α] (d : α) (p : Nat → Bool) (f : Nat → α → α) {m : SMap α} (hm : mwf d m = true) (k : Nat)
    (hf : f k d = d) :
    mget d ((m.filter fun e => p e.1).foldl (fun a e => mset d a e.1 (f e.1 e.2)) m) k = if p k then f k (mget d m k) else mget d m k := by
  obtain ⟨hr, hd⟩ := Bool.and_eq_true_iff.1 hm
  rw [mget_foldl_entries d p f hr hd]
  by_cases h : mget d m k = d
  · simp [h, hf]
  · simp [h]

/-! ### What the stopping of a region leaves of its cores (R276) -/

/-- Of a region that runs or drains, its stop changes the cores as `stopCores` says. -/
theorem stopRegion_wicks {s : State} {r : Nat} (hz : (getRegion s r).frozenAt = none) (h0 : (getRegion s r).st ≠ .empty)
    (h1 : (getRegion s r).st ≠ .stopped) : (stopRegion s r).wicks = (stopCores s r).wicks := by
  have hw (v : State) (tag : Nat) (o : Outc) (reason : Nat) : (waveTxn v tag false o reason).wicks = v.wicks := by
    unfold waveTxn
    split <;> rfl
  have hf (v : State) (c : Cmd) (o : Outc) (reason : Nat) : (failCmd v c o reason 0).wicks = v.wicks := by
    have h := congrArg State.wicks (failCmd_frame v c o reason 0)
    exact h
  unfold stopRegion stopRegionAs
  simp only [hz, h0, h1, Option.isSome_none, Bool.false_and, Bool.false_eq_true, decide_false, Bool.or_self, if_false]
  exact engStopped_keeps State.wicks hw hf ..

/-- An empty region, and one that has stopped, does not change. -/
theorem stopRegion_idle {s : State} {r : Nat} (hz : (getRegion s r).frozenAt = none)
    (h : (getRegion s r).st = .empty ∨ (getRegion s r).st = .stopped) : stopRegion s r = s := by
  unfold stopRegion stopRegionAs
  rcases h with h | h <;> simp [hz, h]

theorem stopWick_reset (now : Nat) : stopWick now Wick.reset = Wick.reset := rfl

/-- A core that sends no `SENDB` loses its tickets and tags when its region stops, and no longer runs. -/
theorem stopWick_eq {w : Wick} (h : w.sendb = none) (now : Nat) : stopWick now w =
    { w with tickets := (wkTimeoutTickets w).tickets, tags := [], run := if w.run = .running then .stopped else w.run } := by
  unfold stopWick wkTimeoutTickets
  simp only [h]

/-- The cores of a region after its stop, an odd core of a pair whose even core sends a `SENDB` aside. -/
theorem getWick_stopCores {s : State} {t k : Nat} (r : Nat) (hm : mwf Wick.reset s.wicks = true) (hk : k < 48)
    (hp : k % 2 = 0 ∨ wkLock (getWick s t (k - 1)) = false ∨ (getWick s t (k - 1)).sendb = none) :
    getWick (stopCores s r) t k = if inRegion (getRegion s r) t then stopWick (cyclesOf s t) (getWick s t k) else getWick s t k := by
  have hr : mrise 0 s.wicks = true := (Bool.and_eq_true_iff.1 hm).1
  have hkey (e : Nat × Wick) : wkey (e.1 / 48) (e.1 % 48) = e.1 := Nat.div_add_mod' e.1 48
  unfold stopCores
  extract_lets g listed v
  have hv : v = { s with wicks := listed.foldl (fun m e => mset Wick.reset m e.1 (stopWick (cyclesOf s (e.1 / 48)) e.2)) s.wicks } := by
    have h := List.foldl_hom (l := listed) (init := s.wicks) (fun m : SMap Wick => { s with wicks := m })
      (g₁ := fun m e => mset Wick.reset m e.1 (stopWick (cyclesOf s (e.1 / 48)) e.2))
      (g₂ := fun s e => setWick s (e.1 / 48) (e.1 % 48) (stopWick (cyclesOf s (e.1 / 48)) e.2)) fun m e => by
        unfold setWick
        rw [hkey]
        rfl
    exact h
  have h1 : getWick v t k = if inRegion g t then stopWick (cyclesOf s t) (getWick s t k) else getWick s t k := by
    have htile : wkey t k / 48 = t := by
      unfold wkey
      omega
    rw [hv]
    refine (mget_change_entries Wick.reset (fun j => inRegion g (j / 48)) (fun j => stopWick (cyclesOf s (j / 48))) hm (wkey t k)
      (stopWick_reset _)).trans ?_
    rw [htile]
    rfl
  refine Eq.trans ?_ h1
  refine List.foldlRecOn (motive := fun u => getWick u t k = getWick v t k) _ _ rfl fun u hu e he => ?_
  obtain ⟨hin, hsends⟩ := List.mem_filter.1 he
  simp only [Bool.and_eq_true, beq_iff_eq] at hsends
  obtain ⟨⟨hsome, heven⟩, hlock⟩ := hsends
  have hmem : e ∈ s.wicks := (List.mem_filter.1 hin).1
  rw [modWick_eq]
  refine (getWick_setWick_other _ _ _ _ _ _ (by omega) hk ?_).trans hu
  rintro ⟨rfl, rfl⟩
  have hget : getWick s (e.1 / 48) (e.1 % 48) = e.2 := by
    unfold getWick
    rw [hkey]
    exact mget_of_mem_mrise _ hr hmem
  rw [Nat.add_sub_cancel, hget] at hp
  rcases hp with h | h | h
  · omega
  · exact absurd (h.symm.trans hlock) (by decide)
  · simp [h] at hsome

/-- A core of a tile whose region stops: it stops with the region, or it is as before, its region having stopped already. -/
theorem getWick_stopTileRegion {s : State} {t k : Nat} (hm : mwf Wick.reset s.wicks = true) (hk : k < 48) (hz : (regionAt s t).frozenAt = none)
    (hp : k % 2 = 0 ∨ wkLock (getWick s t (k - 1)) = false ∨ (getWick s t (k - 1)).sendb = none) :
    getWick (stopTileRegion s t) t k = getWick s t k ∨ getWick (stopTileRegion s t) t k = stopWick (cyclesOf s t) (getWick s t k) := by
  unfold stopTileRegion
  unfold regionAt at hz
  cases hr : regionOf s t with
  | none => exact .inl rfl
  | some r =>
    rw [hr] at hz
    show getWick (stopRegion s r) t k = _ ∨ getWick (stopRegion s r) t k = _
    by_cases hst : (getRegion s r).st = .empty ∨ (getRegion s r).st = .stopped
    · exact .inl (by rw [stopRegion_idle hz hst])
    · obtain ⟨h0, h1⟩ := not_or.1 hst
      have hcores : getWick (stopRegion s r) t k = getWick (stopCores s r) t k :=
        congrArg (fun m => mget Wick.reset m (wkey t k)) (stopRegion_wicks hz h0 h1)
      rw [hcores, getWick_stopCores r hm hk hp]
      split
      · exact .inr rfl
      · exact .inl rfl

/-! ### Exceptions (R202) -/

/-- A core that has taken an exception (Table 6.7), its region not yet stopped. -/
def faulted (w : Wick) (cause : Nat) (eval : W32) : Wick := { w with ecause := cause, epc := w.pc.toNat, eval := eval, run := .stopped }

/-- An exception of a core outside every pair: the core stops, an incident is raised, its tile's region stops (R202). -/
theorem wickException_unlocked {s : State} {t c : Nat} (h : wkEvenLocked (getWick s t c) c = false) (cause : Nat) (eval : W32) :
    ∃ i, wickException s t c cause eval = stopTileRegion (raiseInc (setWick s t c (faulted (getWick s t c) cause eval)) i) t := by
  unfold wickException
  simp only [h, modWick_eq, Bool.false_eq_true, if_false]
  exact ⟨_, rfl⟩

/-- An instruction that takes an exception does nothing else. -/
theorem wkIssue_exc {s : State} {t c : Nat} {uses : List Nat} {dec : Wick → WRes} {cause : Nat} {eval : W32} (h : coreReady s t c uses)
    (hd : dec (getWick s t c) = .exc cause eval) : wkIssue s t c uses dec = wickException s t c cause eval := by
  rw [wkIssue_ready s t c uses dec h, wkTry_ready s t c uses dec h, hd]
  rfl

theorem raiseInc_wicks_regions (s : State) (i : Inc) : (raiseInc s i).wicks = s.wicks ∧ (raiseInc s i).regions = s.regions := by
  have hw := congrArg State.wicks (besideErrors_raiseInc s i)
  have hr := congrArg State.regions (besideErrors_raiseInc s i)
  exact ⟨hw, hr⟩

theorem wkOddLocked_false {s : State} {t c : Nat} (h : wkOddLocked s t c = false) : c % 2 = 0 ∨ wkLock (getWick s t (c - 1)) = false := by
  rcases Nat.mod_two_eq_zero_or_one c with h2 | h2
  · exact .inl h2
  · exact .inr (by simpa [wkOddLocked, h2] using h)

/-- A core that has become `v` by an exception: all of it is as before but what tells of the exception, and the tickets and tags that a stop of the
region resolves. -/
def stoppedBy (w v : Wick) (cause : Nat) (eval : W32) : Prop := ∃ tk tg, v = { faulted w cause eval with tickets := tk, tags := tg }

theorem stoppedBy.fields {w v : Wick} {cause : Nat} {eval : W32} (h : stoppedBy w v cause eval) :
    v.ecause = cause ∧ v.epc = w.pc.toNat ∧ v.eval = eval ∧ v.run = .stopped ∧ v.regs = w.regs ∧ v.mem = w.mem ∧ v.queues = w.queues ∧
      v.pc = w.pc ∧ v.instret = w.instret := by
  obtain ⟨tk, tg, rfl⟩ := h
  exact ⟨rfl, rfl, rfl, rfl, rfl, rfl, rfl, rfl, rfl⟩

/-- The command answers a state in which its core has stopped by an exception. -/
def stopsCore (i : Instr) (s : State) (t c cause : Nat) (eval : W32) : Prop :=
  ∃ u, exec i s = .next u ∧ stoppedBy (getWick s t c) (getWick u t c) cause eval

/-- What an exception leaves of a core outside every pair, in canonical form: its cause, `pc` and value stand in `ECAUSE`, `EPC` and `EVAL`, it has
stopped, and it has kept everything else, its tickets and tags aside, which the stop of its region resolves. -/
theorem getWick_wickException {s : State} {t c : Nat} {uses : List Nat} (hm : mwf Wick.reset s.wicks = true) (hc : c < 48)
    (h : coreReady s t c uses) (cause : Nat) (eval : W32) :
    stoppedBy (getWick s t c) (getWick (wickException s t c cause eval) t c) cause eval := by
  obtain ⟨⟨-, hsendb, -, hstill, -, -, hodd⟩, heven⟩ := h
  obtain ⟨i, hi⟩ := wickException_unlocked heven cause eval
  let w' := faulted (getWick s t c) cause eval
  let u := raiseInc (setWick s t c w') i
  obtain ⟨hwicks, hregions⟩ : u.wicks = (setWick s t c w').wicks ∧ u.regions = s.regions := raiseInc_wicks_regions ..
  have hget (t' c' : Nat) : getWick u t' c' = getWick (setWick s t c w') t' c' := congrArg (fun m => mget Wick.reset m (wkey t' c')) hwicks
  have hself : getWick u t c = w' := (hget t c).trans (getWick_setWick_same ..)
  have hm' : mwf Wick.reset u.wicks = true := hwicks ▸ mwf_mset _ _ _ _ hm
  have hz : (regionAt u t).frozenAt = none := by
    have hat : regionAt u t = regionAt s t := by
      unfold regionAt regionOf getRegion
      rw [hregions]
    rw [hat]
    simp only [unitsStill, Bool.or_eq_false_iff, Option.isSome_eq_false_iff, Option.isNone_iff_eq_none] at hstill
    exact hstill.2
  have hp : c % 2 = 0 ∨ wkLock (getWick u t (c - 1)) = false ∨ (getWick u t (c - 1)).sendb = none := by
    rcases Nat.mod_two_eq_zero_or_one c with h2 | h2
    · exact .inl h2
    · rw [hget, getWick_setWick_other _ _ _ _ _ _ hc (by omega) (by omega)]
      exact .inr (.inl ((wkOddLocked_false hodd).resolve_left (by omega)))
  have hstop := getWick_stopTileRegion hm' hc hz hp
  rw [hself, stopWick_eq (w := w') hsendb] at hstop
  rw [hi]
  rcases hstop with h | h
  · exact ⟨_, _, h⟩
  · exact ⟨_, _, h⟩

end Sys2Proof.Machine
end

section
/-!
PROOFS. The instructions that take an exception (Table 6.7), in a state whose cores are in canonical form.
-/
namespace Sys2Proof.Machine
open Sys2Proof

section
variable {s : State} {t : TileId} {c : CoreIx} (hm : mwf Wick.reset s.wicks = true)
include hm

theorem stopsCore_of_exc {i : Instr} {uses : List Nat} {dec : Wick → WRes} {cause : Nat} {eval : W32} (h : coreReady s t c uses)
    (hx : exec i s = .next (wkIssue s t c uses dec)) (hd : dec (getWick s t c) = .exc cause eval) : stopsCore i s t c cause eval :=
  ⟨_, hx, by
    rw [wkIssue_exc h hd]
    exact getWick_wickException hm c.isLt h cause eval⟩

/-- An encoding that is not listed is illegal. -/
theorem stopsCore_unlisted (word : W32) (h : coreReady s t c []) : stopsCore (.integerAlu t c (.unlisted word)) s t c 1 word :=
  stopsCore_of_exc hm h rfl rfl

/-- The reserved width of CRC32C is illegal. -/
theorem stopsCore_crc32c_reserved (gd a b : GReg) (h : coreReady s t c [gd.val, a.val, b.val]) : stopsCore (.crc32c t c gd a b 3) s t c 1 3 :=
  stopsCore_of_exc hm h rfl rfl

section
variable (o : LsOp) (gd a : GReg) (imm : BitVec 16) (h : coreReady s t c [gd.val, a.val])
include h

theorem stopsCore_loadStore_poisoned (hp : (wkReg (getWick s t c) a).poi = true) :
    stopsCore (.loadStore t c o gd a imm) s t c 4 (wkReg (getWick s t c) a).v :=
  stopsCore_of_exc hm h rfl (if_pos hp)

variable (hp : (wkReg (getWick s t c) a).poi = false)
include hp

theorem stopsCore_loadStore_misaligned {ad : Nat} (had : ((wkReg (getWick s t c) a).v + imm.signExtend 32).toNat = ad) (ha : ad % lsBytes o ≠ 0) :
    stopsCore (.loadStore t c o gd a imm) s t c 2 (BitVec.ofNat 32 ad) := by
  refine stopsCore_of_exc hm h rfl ?_
  simp only [lsDec, hp, had, bne_iff_ne.2 ha, Bool.false_eq_true, if_true, if_false]

/-- A store into the code window (R182), and an address that Table 6.3 does not list. -/
theorem stopsCore_loadStore_range {ad : Nat} (had : ((wkReg (getWick s t c) a).v + imm.signExtend 32).toNat = ad) (ha : ad % lsBytes o = 0)
    (hr : (ad < 0x4000 ∧ lsStore o = true ∧ inWindow (getWick s t c) ad = true) ∨ 0x4000 ≤ ad ∧ (ad < 0x100000 ∨ 0x500000 ≤ ad)) :
    stopsCore (.loadStore t c o gd a imm) s t c 3 (BitVec.ofNat 32 ad) := by
  refine stopsCore_of_exc hm h rfl ?_
  have haligned : (ad % lsBytes o != 0) = false := by simp [ha]
  rcases hr with ⟨hlt, hst, hw⟩ | ⟨hge, hr⟩
  · simp only [lsDec, hp, had, haligned, hlt, hst, hw, Bool.false_eq_true, if_true, if_false]
  · have hout : ¬(muWindow ≤ ad ∧ ad < 0x500000) := by
      unfold muWindow
      omega
    simp only [lsDec, hp, had, haligned, Nat.not_lt.2 hge, hout, Bool.false_eq_true, if_false]

end

/-- A branch on a poisoned register, the first of the two in `EVAL`. -/
theorem stopsCore_branch_poisoned (k : BrCond) (a b : GReg) (tgt : BitVec 14) (h : coreReady s t c [a.val, b.val])
    (hp : ((wkReg (getWick s t c) a).poi || (wkReg (getWick s t c) b).poi) = true) :
    stopsCore (.branchJump t c (.branch k a b tgt)) s t c 4
      (if (wkReg (getWick s t c) a).poi then (wkReg (getWick s t c) a).v else (wkReg (getWick s t c) b).v) := by
  refine stopsCore_of_exc hm h rfl ?_
  rw [Bool.or_eq_true] at hp
  by_cases ha : (wkReg (getWick s t c) a).poi = true
  · simp [ctlDec, ha, wkPoisonUse]
  · simp [ctlDec, ha, hp.resolve_left ha, wkPoisonUse]

/-- A jump to a poisoned register, or to an address beyond 14 bits. -/
theorem stopsCore_jr (a : GReg) (h : coreReady s t c [a.val]) :
    ((wkReg (getWick s t c) a).poi = true → stopsCore (.branchJump t c (.jr a)) s t c 4 (wkReg (getWick s t c) a).v) ∧
    ((wkReg (getWick s t c) a).poi = false → 0x4000 ≤ (wkReg (getWick s t c) a).v.toNat →
      stopsCore (.branchJump t c (.jr a)) s t c 3 (wkReg (getWick s t c) a).v) := by
  refine ⟨fun hp => stopsCore_of_exc hm h rfl (if_pos hp), fun hp hr => stopsCore_of_exc hm h rfl ?_⟩
  simp [ctlDec, hp, hr]

/-- A pair that is named by an odd register is illegal. -/
theorem stopsCore_pop_odd (gd : GReg) (q : QIx) (h : coreReady s t c [gd.val, gd.val + 1]) (ho : gd.val % 2 = 1) :
    stopsCore (.pop t c gd q) s t c 1 (BitVec.ofNat 32 gd) ∧ stopsCore (.peek t c gd q) s t c 1 (BitVec.ofNat 32 gd) := by
  refine ⟨stopsCore_of_exc hm h rfl ?_, stopsCore_of_exc hm h rfl ?_⟩
  all_goals simp [pairOk, ho, wkIllegal]

theorem stopsCore_qdrop (gd : GReg) (q : QIx) (h : coreReady s t c []) (hg : gd.val ≠ 0) :
    stopsCore (.qdrop t c gd q) s t c 1 (BitVec.ofNat 32 gd) := by
  refine stopsCore_of_exc hm h rfl ?_
  simp [hg, wkIllegal]

/-- A message whose words start at an odd register or would end beyond g31, and one to a poisoned address. -/
theorem stopsCore_send (gd a b : GReg) (n : Fin 4) (h : coreReady s t c (gd.val :: a.val :: msgUses b.val (n.val + 1)))
    {i : Instr} (hi : i ∈ ([.send t c gd a b n, .sendb t c gd a b n] : List Instr)) :
    ((b.val % 2 = 1 ∨ b.val + 2 * (n.val + 1) > 32) → stopsCore i s t c 1 (BitVec.ofNat 32 b)) ∧
    (b.val % 2 = 0 → b.val + 2 * (n.val + 1) ≤ 32 → (wkReg (getWick s t c) a).poi = true →
      stopsCore i s t c 4 (wkReg (getWick s t c) a).v) := by
  simp only [List.mem_cons, List.not_mem_nil, or_false] at hi
  rcases hi with rfl | rfl
  all_goals
    refine ⟨fun hb => stopsCore_of_exc hm h rfl ?_, fun he hb hp => stopsCore_of_exc hm h rfl ?_⟩
    · have hbad : (b.val % 2 != 0 || decide (b.val + 2 * (n.val + 1) > 32)) = true := by
        rcases hb with hb | hb <;> simp [hb]
      simp only [hbad, if_true]
      rfl
    · have hok : (b.val % 2 != 0 || decide (b.val + 2 * (n.val + 1) > 32)) = false := by simp [he, hb]
      simp only [hok, hp, Bool.false_eq_true, if_true, if_false]
      rfl

theorem stopsCore_trap (imm : BitVec 14) (h : coreReady s t c []) (hne : imm ≠ 0) : stopsCore (.trap t c imm) s t c 6 (imm.setWidth 32) :=
  stopsCore_of_exc hm h (if_neg hne) rfl

end

end Sys2Proof.Machine
end

section
/-!
PROOFS. A state whose cores are not in canonical form: core 0 of tile 0 is listed twice. The stop of its region goes through the list, the second
entry ends where reads find it, and the exception that stopped the region is lost. Every statement that says of every state what an exception
leaves in `ECAUSE` fails there.
-/
namespace Sys2Proof.Machine
open Sys2Proof

/-! ### A core that is listed twice -/

/-- A core at `pc` 0, ready to issue, whose register 1 is poisoned. -/
def poisonedCore : Wick := { Wick.reset with run := .running, regs := [(1, ⟨0, true, false⟩)] }

/-- What the second entry of a core holds. -/
def secondEntry : Wick := { Wick.reset with fold := 1 }

/-- Region 0 is tile 0 and runs. Core 0 of tile 0 is listed twice; a read finds the first entry. -/
def listedTwice : State :=
  { State.reset with
    wicks := [(wkey 0 0, poisonedCore), (wkey 0 0, secondEntry)]
    regions := [(0, { Region.none with st := .running })] }

theorem listedTwice_not_canonical : mwf Wick.reset listedTwice.wicks = false := by decide

theorem coreReady_listedTwice (uses : List Nat) : coreReady listedTwice 0 0 uses := by
  refine ⟨⟨rfl, rfl, rfl, by decide, by decide, fun r _ => ?_, by decide⟩, by decide⟩
  show wkPending poisonedCore r = false
  simp [wkPending, poisonedCore, Wick.reset]

/-- The stop of a region goes through the list of cores, so that the second entry of a core ends where reads find it. -/
theorem getWick_stopCores_twice {s : State} {r : Nat} {a b : Wick} (hw : s.wicks = [(wkey 0 0, a), (wkey 0 0, b)])
    (hr : inRegion (getRegion s r) 0 = true) (ha : a.sendb = none) (hb : b.sendb = none) :
    getWick (stopCores s r) 0 0 = stopWick (cyclesOf s 0) b := by
  have hnow : cyclesOf (setWick s 0 0 (stopWick (cyclesOf s 0) a)) 0 = cyclesOf s 0 := rfl
  unfold stopCores
  simp [hw, hr, ha, hb, wkey, hnow]

/-- An exception is lost: the core reads as its second entry once its region has stopped. -/
theorem ecause_wickException_listedTwice (cause : Nat) (eval : W32) :
    (getWick (wickException listedTwice 0 0 cause eval) 0 0).ecause = 0 := by
  obtain ⟨i, hi⟩ := wickException_unlocked (coreReady_listedTwice []).2 cause eval
  let s1 := setWick listedTwice 0 0 (faulted poisonedCore cause eval)
  let s2 := raiseInc s1 i
  obtain ⟨hw2, hr2⟩ : s2.wicks = s1.wicks ∧ s2.regions = listedTwice.regions := raiseInc_wicks_regions s1 i
  have hne : faulted poisonedCore cause eval ≠ Wick.reset := fun e => WRun.noConfusion (congrArg Wick.run e)
  have hw : s2.wicks = [(wkey 0 0, faulted poisonedCore cause eval), (wkey 0 0, secondEntry)] := by
    rw [hw2]
    simp [s1, setWick, mset, hne, listedTwice, mput]
  have hreg : getRegion s2 0 = { Region.none with st := .running } := congrArg (fun m => mget Region.none m 0) hr2
  have hof : regionOf s2 0 = some 0 := by
    rw [regionOf, hr2]
    decide
  have hstop : getWick (stopTileRegion s2 0) 0 0 = stopWick (cyclesOf s2 0) secondEntry := by
    rw [stopTileRegion, hof]
    refine (congrArg (fun m => mget Wick.reset m (wkey 0 0)) (stopRegion_wicks ?_ ?_ ?_)).trans (getWick_stopCores_twice hw ?_ rfl rfl)
    all_goals
      rw [hreg]
      decide
  rw [hi]
  exact congrArg Wick.ecause (hstop.trans (stopWick_eq rfl _))

/-- Whatever the instruction, the state that it answers does not hold the cause of its exception in `ECAUSE`. -/
theorem ecause_of_exc_listedTwice {i : Instr} {u : State} {uses : List Nat} {dec : Wick → WRes} {cause : Nat} {eval : W32}
    (hu : exec i listedTwice = .next u) (hx : exec i listedTwice = .next (wkIssue listedTwice 0 0 uses dec))
    (hd : dec poisonedCore = .exc cause eval) {n : Nat} (hn : n ≠ 0) : (getWick u 0 0).ecause ≠ n := by
  obtain rfl : u = wkIssue listedTwice 0 0 uses dec := Host.Outcome.next.inj (hu.symm.trans hx)
  rw [wkIssue_exc (coreReady_listedTwice uses) hd, ecause_wickException_listedTwice]
  exact hn.symm

/-- Refutes O1 at its third clause, an encoding that is not listed. In canonical form the clause holds (`stopsCore_unlisted`). -/
theorem not_wickIntegerAndBitResults : ¬ Obligations.WickIntegerAndBitResults := by
  rintro ⟨-, -, h, -⟩
  obtain ⟨u, hu, hc, -⟩ := h listedTwice 0 0 0 (coreReady_listedTwice _)
  exact ecause_of_exc_listedTwice hu rfl rfl (by decide) hc

/-- Refutes O3 at its second clause, the reserved width of CRC32C. In canonical form the clause holds (`stopsCore_crc32c_reserved`). -/
theorem not_wickHashResults : ¬ Obligations.WickHashResults := by
  rintro ⟨-, h, -⟩
  obtain ⟨u, hu, hc, -⟩ := h listedTwice 0 0 0 0 0 (coreReady_listedTwice _)
  exact ecause_of_exc_listedTwice hu rfl rfl (by decide) hc

/-- Refutes O5 at its first clause, a load from a poisoned address. In canonical form the clause holds (`stopsCore_loadStore_poisoned`), as do
those of the other exceptions. -/
theorem not_wickLoadStoreByAddress : ¬ Obligations.WickLoadStoreByAddress := by
  intro h
  obtain ⟨u, hu, hp, -⟩ := h listedTwice 0 0 .lw 0 1 0 (coreReady_listedTwice _)
  obtain ⟨hc, -⟩ := hp rfl
  exact ecause_of_exc_listedTwice hu rfl rfl (by decide) hc

/-- Refutes O6 at its fourth clause, a JR to a poisoned register. In canonical form the clause holds (`stopsCore_jr`). -/
theorem not_wickLoadDataAndJumps : ¬ Obligations.WickLoadDataAndJumps := by
  rintro ⟨-, -, -, h, -⟩
  obtain ⟨u, hu, hp, -⟩ := h listedTwice 0 0 1 (coreReady_listedTwice _)
  obtain ⟨hc, -⟩ := hp rfl
  exact ecause_of_exc_listedTwice hu rfl rfl (by decide) hc

/-- Refutes O7 at its fourth clause, a POP to the odd register 1. In canonical form the clause holds (`stopsCore_pop_odd`). -/
theorem not_wickQueueInstructions : ¬ Obligations.WickQueueInstructions := by
  rintro ⟨-, -, -, h, -⟩
  obtain ⟨u, hu, hc, -⟩ := h listedTwice 0 0 1 0 (coreReady_listedTwice _) rfl _ (List.mem_cons_self ..)
  exact ecause_of_exc_listedTwice hu rfl rfl (by decide) hc

/-- Refutes O8 at its last clause, a SEND of words from the odd register 1. In canonical form the clause holds (`stopsCore_send`). -/
theorem not_wickMessagingInstructions : ¬ Obligations.WickMessagingInstructions := by
  rintro ⟨-, -, -, -, -, -, h⟩
  obtain ⟨u, hu, hp, -⟩ := h listedTwice 0 0 0 0 1 0 (coreReady_listedTwice _) _ (List.mem_cons_self ..)
  obtain ⟨hc, -⟩ := hp (.inl rfl)
  exact ecause_of_exc_listedTwice hu rfl rfl (by decide) hc

/-- Refutes O10 at its first clause, TRAP with the immediate 1. In canonical form what the clause says of TRAP holds (`stopsCore_trap`). -/
theorem not_wickYieldHaltTrapAndPairs : ¬ Obligations.WickYieldHaltTrapAndPairs := by
  rintro ⟨h, -⟩
  obtain ⟨-, -, ht, -⟩ := h listedTwice 0 0 (coreReady_listedTwice _)
  obtain ⟨u, hu, hc, -⟩ := ht 1 (by decide)
  exact ecause_of_exc_listedTwice hu rfl rfl (by decide) hc

end Sys2Proof.Machine
end

section
/-!
PROOFS. A drain that completes in the period of REFCLK_MOD in which its `DRTO` ends (R33, R275): the model counts whole periods and takes it as
in time, with a tie, where the statement compares picoseconds.
-/
namespace Sys2Proof.Machine
open Sys2Proof

/-- A REGION_DRAIN that gated its region at 0 ps. -/
def drainCommand : Cmd := ⟨0, 0, 0, 0x13, 0, 0, false, false, [], 0, 0, false, false, 0, .drain 0⟩

/-- A region of tile 0 with `DRTO` 1 µs, gated, whose first evaluation, in cycle 0, was true. -/
def drainingRegion : Region := { Region.none with st := .quiescing, desc1 := 0x10000#64, gated := true, drain := some (0, 0, 0) }

/-- After 157 periods, or 1,004,800 ps, the drain's time of 1,000,000 ps has ended within the last period. -/
def drainAtDeadline : State :=
  { State.reset with
    time := { State.reset.time with ticks := 157 }
    regions := [(0, drainingRegion)]
    eng := { State.reset.eng with engs := [(0, ⟨[drainCommand], 0⟩)] } }

/-- The region is drained, with the counters of its first evaluation, and its second evaluation is due. -/
theorem drainAtDeadline_drained : drainedNow drainAtDeadline 0 = true ∧ drainSums drainAtDeadline 0 = (0, 0) ∧
    reachCycle drainAtDeadline 0 256 = drainAtDeadline := by decide

/-- By periods the drain ends in the cycle of its deadline, by picoseconds after it. -/
theorem drainAtDeadline_time : atPs drainAtDeadline (rgDrto drainingRegion * 1000000) = true ∧
    rgDrto drainingRegion * 1000000 < nowPs drainAtDeadline := by decide

/-- The evaluation completes the drain. -/
theorem drainAtDeadline_evaluation : ∃ u, exec (.drainEvaluation 0) drainAtDeadline = .next u ∧ (getRegion u 0).st = .drained :=
  ⟨_, rfl, by decide⟩

/-- Refutes O21: the clause of DRAIN_EVALUATION calls a drain late by picoseconds, and the model by periods of REFCLK_MOD. `DRTO` is a multiple
of 1 µs and no multiple of a period, so that a second true evaluation in the period of the deadline ends the drain DRAINED with a tie
(R33), where the statement wants the region stopped. -/
theorem not_foldsDrainsAndWatchdog : ¬ Obligations.FoldsDrainsAndWatchdog := by
  rintro ⟨-, h, -⟩
  obtain ⟨hdrained, hsums, hreach⟩ := drainAtDeadline_drained
  have hdrain : (getRegion drainAtDeadline 0).drain = some (0, (drainSums drainAtDeadline 0).1, (drainSums drainAtDeadline 0).2) := by
    rw [hsums]
    rfl
  obtain ⟨u, hu, -, -, hends, -⟩ := h drainAtDeadline 0 rfl rfl rfl
  obtain ⟨-, hst, -⟩ := hends hdrained 0 hdrain rfl
  obtain ⟨v, hv, hdone⟩ := drainAtDeadline_evaluation
  obtain rfl : u = v := Host.Outcome.next.inj (hu.symm.trans hv)
  have hlate : (getRegion u 0).st = .stopped := by
    refine (hst drainCommand 0 rfl rfl).2 ?_
    show 0 + rgDrto drainingRegion * 1000000 < nowPs (reachCycle drainAtDeadline 0 256)
    rw [hreach]
    exact (Nat.zero_add _).trans_lt drainAtDeadline_time.2
  exact absurd (hdone.symm.trans hlate) (by decide)

end Sys2Proof.Machine
end

section
/-!
PROOFS. Messages at a core (R210, R217, R218, R220, Table 7.6): what a delivery that wakes a `RECV` and traces its events leaves, the row of the
table that decides, and the answer.
-/
namespace Sys2Proof.Machine
open Sys2Proof

/-! ### Packets may be put under way -/

/-- Packets may have been put under way, and those already under way are as they were. -/
structure NetGrows (s u : State) : Prop where
  next : s.net.next ≤ u.net.next
  kept (k : Nat) (h : k < s.net.next) : getPacket u k = getPacket s k

theorem netGrows_of_net {s u : State} (h : u.net = s.net) : NetGrows s u := ⟨by rw [h], fun k _ => getPacket_congr h k⟩

theorem NetGrows.trans {s u v : State} (h : NetGrows s u) (h' : NetGrows u v) : NetGrows s v :=
  ⟨h.next.trans h'.next, fun k hk => (h'.kept k (hk.trans_le h.next)).trans (h.kept k hk)⟩

theorem netGrows_putPacket (s : State) (p : Packet) : NetGrows s (putPacket s p) :=
  ⟨Nat.le_succ _, fun k hk => getPacket_putPacket_other s p k (by omega)⟩

theorem netGrows_raiseInc (s : State) (i : Inc) : NetGrows s (raiseInc s i) := by
  have h := congrArg State.net (raiseInc_frame s i)
  exact netGrows_of_net h

theorem netGrows_tileMwr (s : State) (t src a req cls : Nat) (data : List Byte) (poi : List Bool) :
    NetGrows s (tileMwr s t src a req cls data poi) := by
  unfold tileMwr
  split
  · exact netGrows_putPacket ..
  · exact netGrows_raiseInc ..

theorem netGrows_traceFlush (s : State) (t : Nat) (all : Bool) (n : Nat) : NetGrows s (traceFlush s t all n) := by
  induction n generalizing s with
  | zero => exact netGrows_of_net rfl
  | succ n ih =>
    rw [traceFlush]
    extract_lets pos base put
    split
    · exact netGrows_of_net rfl
    · next b rest _ =>
      have hput (v : State) (n a : Nat) (data : List Byte) (left : List TraceRec) : NetGrows v (put v n a data left) :=
        (netGrows_of_net (by rfl)).trans (netGrows_tileMwr ..)
      split
      · exact (netGrows_of_net (by rfl)).trans (ih _)
      · split
        · split
          · exact (hput ..).trans (ih _)
          · exact (hput ..).trans (ih _)
        · split
          · exact hput ..
          · exact netGrows_of_net rfl

/-- A traced event may send the records that are held, and leaves the packets under way as they are (R536). -/
theorem netGrows_traceEv (s : State) (t utyp uidx ev det : Nat) : NetGrows s (traceEv s t utyp uidx ev det) := by
  unfold traceEv
  split
  · have h := congrArg State.net (traceHold_frame s t utyp uidx ev det)
    exact (netGrows_of_net (u := traceHold s t utyp uidx ev det) h).trans (netGrows_traceFlush ..)
  · exact netGrows_of_net rfl

theorem traceEv_wicks_regions (s : State) (t utyp uidx ev det : Nat) :
    (traceEv s t utyp uidx ev det).wicks = s.wicks ∧ (traceEv s t utyp uidx ev det).regions = s.regions := by
  have hw := congrArg State.wicks (besideTraffic_traceEv s t utyp uidx ev det)
  have hr := congrArg State.regions (besideTraffic_traceEv s t utyp uidx ev det)
  exact ⟨hw, hr⟩

theorem getWick_congr {s u : State} (h : u.wicks = s.wicks) (t c : Nat) : getWick u t c = getWick s t c :=
  congrArg (fun m => mget Wick.reset m (wkey t c)) h

/-! ### A blocked instruction ends (R225, R227) -/

theorem getWick_setWick_keeps {β : Type} (π : Wick → β) {s : State} {t c : Nat} {w : Wick} (h : π w = π (getWick s t c)) (t' c' : Nat) :
    π (getWick (setWick s t c w) t' c') = π (getWick s t' c') := by
  unfold setWick getWick at *
  simp only [mget_mset]
  split
  · next e => rw [h, e]
  · rfl

/-- A core without what the end of a blocked instruction changes, and without the time at which a queue filled. -/
def besideWait (w : Wick) : Wick :=
  { w with regs := [], pc := 0, instret := 0, sendb := none, recv := none, stall := [], rot := 0, tie := 0, fullAt := [] }

theorem of_besideWait {w x : Wick} (h : besideWait x = besideWait w) : x.queues = w.queues ∧ x.qacc = w.qacc ∧ x.fold = w.fold := by
  have hq := congrArg Wick.queues h
  have ha := congrArg Wick.qacc h
  have hf := congrArg Wick.fold h
  exact ⟨hq, ha, hf⟩

theorem wkSetReg_besideWait (w : Wick) (r : Nat) (v : Reg) : besideWait (wkSetReg w r v) = besideWait w := by
  unfold wkSetReg
  split <;> rfl

/-- A core that goes on past the instruction that blocked it, with its result in `gd` and its stall counters `st`. -/
def unblocked (w : Wick) (gd : Nat) (v : Reg) (st : SMap Nat) : Wick :=
  { wkSetReg w gd v with pc := w.pc + 4, instret := w.instret + 1, sendb := none, recv := none, stall := st }

theorem unblocked_besideWait (w : Wick) (gd : Nat) (v : Reg) (st : SMap Nat) : besideWait (unblocked w gd v st) = besideWait w :=
  wkSetReg_besideWait w gd v

/-- The end of a blocked instruction lets its core go on, and the other core of a pair with it (R203, R225, R228). -/
theorem wkFinish_eq (s : State) (t c gd : Nat) (v : Reg) : ∃ st st', wkFinish s t c gd v =
    let u := setWick s t c (unblocked (getWick s t c) gd v st)
    if wkEvenLocked (getWick s t c) c then setWick u t (c + 1) (unblocked (getWick u t (c + 1)) gd v st') else u := by
  unfold wkFinish
  extract_lets w now f waited u
  have hw : waited (f w) = unblocked w gd v (waited (f w)).stall := by
    unfold waited
    split <;> rfl
  refine ⟨(waited (f w)).stall, (f (getWick u t (c + 1))).stall, ?_⟩
  rw [← hw]
  rfl

theorem wkFinish_net_regions (s : State) (t c gd : Nat) (v : Reg) :
    (wkFinish s t c gd v).net = s.net ∧ (wkFinish s t c gd v).regions = s.regions := by
  obtain ⟨st, st', h⟩ := wkFinish_eq s t c gd v
  rw [h]
  dsimp only
  split <;> exact ⟨rfl, rfl⟩

theorem wkFinish_besideWait (s : State) (t c gd : Nat) (v : Reg) (t' c' : Nat) :
    besideWait (getWick (wkFinish s t c gd v) t' c') = besideWait (getWick s t' c') := by
  obtain ⟨st, st', h⟩ := wkFinish_eq s t c gd v
  have hu := getWick_setWick_keeps (s := s) besideWait (unblocked_besideWait (getWick s t c) gd v st) t' c'
  rw [h]
  dsimp only
  split
  · exact (getWick_setWick_keeps besideWait (unblocked_besideWait ..) t' c').trans hu
  · exact hu

/-- A core outside every pair goes on: only it changes. -/
theorem wkFinish_unlocked {s v : State} {t c gd : Nat} (x : Reg) (hc : c < 48) (ho : otherCores s v t c)
    (hk : wkEvenLocked (getWick v t c) c = false) :
    let w := getWick v t c
    let u := wkFinish v t c gd x
    otherCores s u t c ∧ (getWick u t c).sendb = none ∧ (getWick u t c).pc = w.pc + 4 ∧ (getWick u t c).regs = (wkSetReg w gd x).regs := by
  intro w u
  obtain ⟨st, st', h⟩ := wkFinish_eq v t c gd x
  have hu : u = setWick v t c (unblocked w gd x st) := by
    show wkFinish v t c gd x = _
    rw [h]
    dsimp only
    rw [hk, if_neg Bool.false_ne_true]
  rw [hu, getWick_setWick_same]
  exact ⟨otherCores_setWick hc ho _, rfl, rfl, rfl⟩

/-! ### A message is stored or refused (R210, R220) -/

/-- A `RECV` that an entry wakes changes its core's registers and counters, and no queue. -/
theorem wakeRecv_keeps (s : State) (t c : Nat) : (wakeRecv s t c).net = s.net ∧ (wakeRecv s t c).regions = s.regions ∧
    ∀ t' c', besideWait (getWick (wakeRecv s t c) t' c') = besideWait (getWick s t' c') := by
  have hend (gd : Nat) (v : Reg) (w : Wick) (hw : besideWait w = besideWait (getWick (wkFinish s t c gd v) t c)) :
      (setWick (wkFinish s t c gd v) t c w).net = s.net ∧ (setWick (wkFinish s t c gd v) t c w).regions = s.regions ∧
      ∀ t' c', besideWait (getWick (setWick (wkFinish s t c gd v) t c w) t' c') = besideWait (getWick s t' c') := by
    obtain ⟨hn, hr⟩ := wkFinish_net_regions s t c gd v
    exact ⟨hn, hr, fun t' c' => (getWick_setWick_keeps besideWait hw t' c').trans (wkFinish_besideWait ..)⟩
  unfold wakeRecv
  extract_lets w
  split
  · exact ⟨rfl, rfl, fun _ _ => rfl⟩
  · extract_lets ok order late
    split
    · exact ⟨rfl, rfl, fun _ _ => rfl⟩
    · split
      · obtain ⟨hn, hr⟩ := wkFinish_net_regions s t c _ _
        exact ⟨hn, hr, wkFinish_besideWait s t c _ _⟩
      · exact hend _ _ _ (by rfl)

/-- A core that has stored a message in its queue. -/
def stored (w : Wick) (q : Nat) (ws : List QEnt) : Wick :=
  { w with queues := mset [] w.queues q (mget [] w.queues q ++ ws), qacc := mset 0 w.qacc q (satAdd 32 (mget 0 w.qacc q) 1) }

/-- A message is stored whole and counted; beside the core, which a `RECV` may let go on, traced events may be sent. -/
theorem wkStore_done (s : State) (t c q : Nat) (ws : List QEnt) :
    let u := wkStore s t c q ws .done
    NetGrows s u ∧ u.regions = s.regions ∧ besideWait (getWick u t c) = besideWait (stored (getWick s t c) q ws) := by
  intro u
  let s1 := setWick s t c (stored (getWick s t c) q ws)
  let full := setWick s1 t c { getWick s1 t c with fullAt := mset 0 (getWick s1 t c).fullAt q s1.time.ticks }
  let s2 := if (mget [] (getWick s1 t c).queues q).length == 16 then traceEv full t utWick c 6 (c * 8 + q) else s1
  have hu : u = wakeRecv s2 t c := rfl
  have h2 : NetGrows s s2 ∧ s2.regions = s.regions ∧ besideWait (getWick s2 t c) = besideWait (getWick s1 t c) := by
    unfold s2
    split
    · obtain ⟨hw, hr⟩ := traceEv_wicks_regions full t utWick c 6 (c * 8 + q)
      refine ⟨(netGrows_of_net (by rfl)).trans (netGrows_traceEv ..), hr, ?_⟩
      rw [getWick_congr hw, getWick_setWick_same]
      rfl
    · exact ⟨netGrows_of_net rfl, rfl, rfl⟩
  obtain ⟨hn, hr, hw⟩ := h2
  obtain ⟨hwn, hwr, hk⟩ := wakeRecv_keeps s2 t c
  rw [hu]
  refine ⟨hn.trans (netGrows_of_net hwn), hwr.trans hr, (hk t c).trans (hw.trans ?_)⟩
  rw [getWick_setWick_same]

/-- A refused message is counted, and nothing else of its core changes. -/
theorem wkStore_refused {o : Outc} (h : o = .refusedFull ∨ o = .refusedEpoch) (s : State) (t c q : Nat) (ws : List QEnt) :
    wkStore s t c q ws o = setWick s t c { getWick s t c with qref := mset 0 (getWick s t c).qref q (satAdd 32 (mget 0 (getWick s t c).qref q) 1) } := by
  rcases h with rfl | rfl <;> rfl

/-! ### The row of Table 7.6 that decides -/

section
variable {s : State} {t c q n src epoch : Nat}

theorem wkDecide_closed (h : wkQen (getWick s t c) q = false ∨ wkOddLocked s t c = true) : wkDecide s t c q n src epoch false = .refusedFull := by
  unfold wkDecide
  rcases h with h | h <;> simp [h]

variable (hq : wkQen (getWick s t c) q = true) (ho : wkOddLocked s t c = false)
include hq ho

theorem wkDecide_gated (hg : gatedAt s t = true) (hu : wkQcls (getWick s t c) q = true) (hf : foreign s t src = true) :
    wkDecide s t c q n src epoch false = .refusedFull := by
  unfold wkDecide
  simp [hq, ho, hg, hu, hf]

theorem wkDecide_epoch (hu : wkQcls (getWick s t c) q = false) (he : epoch ≠ epochAt s t) : wkDecide s t c q n src epoch false = .refusedEpoch := by
  unfold wkDecide
  simp [hq, ho, hu, he]

theorem wkDecide_room (hg : gatedAt s t = false ∨ wkQcls (getWick s t c) q = false ∨ foreign s t src = false)
    (he : wkQcls (getWick s t c) q = true ∨ epoch = epochAt s t) :
    wkDecide s t c q n src epoch false = if (mget [] (getWick s t c).queues q).length + n > 16 then .refusedFull else .done := by
  have h1 : (gatedAt s t && (wkQcls (getWick s t c) q && foreign s t src)) = false := by
    rcases hg with h | h | h <;> simp [h]
  have h2 : (!wkQcls (getWick s t c) q && epoch != epochAt s t) = false := by
    rcases he with h | h <;> simp [h]
  unfold wkDecide
  simp [hq, ho, h1, h2]

end

/-! ### The answer (R214, R217) -/

/-- A unit answers the packet that came to it and is gone, under its own fold and epoch; others may have been sent before. -/
theorem answeredWith_of_grows {s v : State} {pid t un f : Nat} {p : Packet} (hp : getPacket s pid = some p) (hpid : pid < s.net.next)
    (hform : qaTileForm p.dst = true) (ht : qaTile p.dst = t) (hu : qaUnit p.dst = un) (hn : NetGrows (delPacket s pid) v)
    (hf : unitFold v t un = f) (hr : v.regions = s.regions) (dst : Nat) (b : Body) :
    answeredWith s (answerWith v t p dst b) pid (injected t (qaMake t un 0) dst f (epochAt s t) (bodyCtl b) b) := by
  have ha : answerWith v t p dst b = putPacket v (newPacket (qaMake t un 0) dst f (epochAt s t) b (.router t 4) p.id) := by
    unfold answerWith
    simp only [answerUnit_addressed hform ht hu, hf, epochAt_congr hr]
  obtain ⟨h1, h2⟩ := getPacket_newPacket v t (qaMake t un 0) dst f (epochAt s t) p.id b
  have hg := hn.trans (netGrows_putPacket v (newPacket (qaMake t un 0) dst f (epochAt s t) b (.router t 4) p.id))
  rw [ha]
  refine ⟨⟨v.net.next, hn.next, h1, by rw [h2, hp]; rfl⟩, ?_, fun k hk hne => ?_⟩
  · rw [hg.kept pid hpid, getPacket_delPacket_same]
  · rw [hg.kept k hk, getPacket_delPacket_other _ _ _ hne]

theorem getWick_answerWith (s : State) (t : Nat) (p : Packet) (dst : Nat) (b : Body) (t' c' : Nat) :
    getWick (answerWith s t p dst b) t' c' = getWick s t' c' := rfl

theorem unitFold_core {c : Nat} (h : c < 48) (s : State) (t : Nat) : unitFold s t c = (getWick s t c).fold := if_pos h

theorem answerFrom_msg {p : Packet} {b : Bool} {ws : List QEnt} (hb : p.body = .msg b ws) (s : State) (t : Nat) (o : Outc) :
    answerFrom s t p o = answerWith s t p p.src (.reply o (if b then 2 else 1) (qaQueue p.src)) := by
  unfold answerFrom replyTo
  rw [hb]
  cases b <;> rfl

theorem exec_message (b : Bool) (pid : Nat) (s : State) : exec (if b then .msgb pid else .msg pid) s = .next (msgArrive s pid b) := by
  cases b <;> rfl

section
variable {s : State} {pid t c q : Nat} {p : Packet} {b : Bool} {ws : List QEnt} (hp : getPacket s pid = some p)
  (hb : p.body = .msg b ws) (hl : p.loc = .deliver t) (ht : qaTile p.dst = t) (hc : qaUnit p.dst = c)
include hp hb hl ht hc

/-- A message that another arrival comes before waits (R218). -/
theorem msgArrive_waits {s' : State} (h54 : c < 54) (hw : portWait s t p = some s') : msgArrive s pid b = s' := by
  unfold msgArrive
  simp [hp, hb, hl, ht, hc, hw, Nat.not_le.2 h54]

variable (hw : portWait s t p = none) (h48 : c < 48)
include hw h48

/-- A message at a fenced tile is refused. -/
theorem msgArrive_fenced (h : fenced s t = true) :
    msgArrive s pid b = answerWith (delPacket s pid) t p p.src (.reply .refusedFenced (if b then 2 else 1) (qaQueue p.src)) := by
  unfold msgArrive
  simp [hp, hb, hl, ht, hc, hw, h, show ¬54 ≤ c by omega, answerFrom_msg hb]

variable (hpid : pid < s.net.next) (hform : qaTileForm p.dst = true) (hq : qaQueue p.dst = q) (hz : fenced s t = false)

include hq hz in
/-- A message at a core is stored or refused, and answered, by the row of Table 7.6 that decides. -/
theorem msgArrive_core {o : Outc} (hd : wkDecide s t c q ws.length p.src p.epoch false = o) :
    msgArrive s pid b =
      answerWith (wkStore (delPacket s pid) t c q ws o) t p p.src (.reply o (if b then 2 else 1) (qaQueue p.src)) := by
  have hd' : wkDecide (delPacket s pid) t c q ws.length p.src p.epoch false = o := hd
  unfold msgArrive
  simp [hp, hb, hl, ht, hc, hw, hz, hq, show ¬54 ≤ c by omega, h48, answerFrom_msg hb, hd']

include hpid hform hq hz

/-- A message that a row refuses is answered with its outcome and counted. -/
theorem msgArrive_refused {o : Outc} (ho : o = .refusedFull ∨ o = .refusedEpoch)
    (hd : wkDecide s t c q ws.length p.src p.epoch false = o) :
    let w := getWick s t c
    let u := msgArrive s pid b
    answeredWith s u pid (injected t (qaMake t c 0) p.src w.fold (epochAt s t) true (.reply o (if b then 2 else 1) (qaQueue p.src))) ∧
      (getWick u t c).queues = w.queues ∧ mget 0 (getWick u t c).qref q = satAdd 32 (mget 0 w.qref q) 1 := by
  intro w u
  let x := { w with qref := mset 0 w.qref q (satAdd 32 (mget 0 w.qref q) 1) }
  let v := setWick (delPacket s pid) t c x
  have hv : getWick v t c = x := getWick_setWick_same ..
  have hu : u = answerWith v t p p.src (.reply o (if b then 2 else 1) (qaQueue p.src)) := by
    show msgArrive s pid b = _
    rw [msgArrive_core hp hb hl ht hc hw h48 hq hz hd, wkStore_refused ho]
    rfl
  have hg : getWick u t c = x := by rw [hu, getWick_answerWith, hv]
  rw [hg, hu]
  exact ⟨answeredWith_of_grows hp hpid hform ht hc (netGrows_of_net (u := v) rfl) ((unitFold_core h48 v t).trans (congrArg Wick.fold hv)) rfl _ _, rfl,
    mget_mset_same ..⟩

/-- A message that no row refuses is answered DONE, stored whole and counted. -/
theorem msgArrive_stored (hd : wkDecide s t c q ws.length p.src p.epoch false = .done) :
    let w := getWick s t c
    let u := msgArrive s pid b
    answeredWith s u pid (injected t (qaMake t c 0) p.src w.fold (epochAt s t) true (.reply .done (if b then 2 else 1) (qaQueue p.src))) ∧
      mget [] (getWick u t c).queues q = mget [] w.queues q ++ ws ∧ mget 0 (getWick u t c).qacc q = satAdd 32 (mget 0 w.qacc q) 1 := by
  intro w u
  let v := wkStore (delPacket s pid) t c q ws .done
  obtain ⟨hn, hr, hk⟩ := wkStore_done (delPacket s pid) t c q ws
  obtain ⟨hqs, hacc, hfold⟩ := of_besideWait hk
  have hu : u = answerWith v t p p.src (.reply .done (if b then 2 else 1) (qaQueue p.src)) :=
    msgArrive_core hp hb hl ht hc hw h48 hq hz hd
  have hg : getWick u t c = getWick v t c := by rw [hu, getWick_answerWith]
  rw [hg, hqs, hacc, hu]
  exact ⟨answeredWith_of_grows hp hpid hform ht hc hn ((unitFold_core h48 v t).trans hfold) hr _ _, mget_mset_same .., mget_mset_same ..⟩

end

/-- A message that waits for a cycle is counted at the delivery port and at its queue (R218, Table 8.14), and stays under way. -/
theorem portWait_keeps {s s' : State} {t : Nat} {p : Packet} (h : portWait s t p = some s') :
    s'.net = s.net ∧ ∀ t' c', (getWick s' t' c').queues = (getWick s t' c').queues := by
  obtain rfl : qStall (countWait s t 4 0) p.dst stCredit = s' := by
    unfold portWait at h
    extract_lets first at h
    split at h
    · exact Option.some.inj h
    · cases h
  unfold qStall
  split
  · exact ⟨rfl, fun _ _ => rfl⟩
  · split
    · refine ⟨rfl, fun t' c' => ?_⟩
      rw [modWick_eq]
      exact getWick_setWick_keeps (s := countWait s t 4 0) Wick.queues (by rfl) t' c'
    · exact ⟨rfl, fun _ _ => rfl⟩

end Sys2Proof.Machine
end

section
/-!
PROOFS. Replies and probes at a core (R223 to R226, R231): what a ticket, a `SENDB` and a blocked core make of them; then the statement of messages,
replies and probes at the cores.
-/
namespace Sys2Proof.Machine
open Sys2Proof

/-! ### A reply at a core -/

theorem traceRefused_wicks (s : State) (t c dst : Nat) (o : Outc) : (traceRefused s t c dst o).wicks = s.wicks := by
  unfold traceRefused
  split
  · rfl
  · exact (traceEv_wicks_regions ..).1

/-- What a core makes of a reply: kinds 1 and 3 concern a ticket, kind 2 the `SENDB`. -/
def coreReply (s : State) (t c : Nat) (o : Outc) (kind ref re : Nat) : State :=
  if kind = 2 then sendbReply s t c o re else ticketReply s t c ref o re

/-- Beside the trace, a reply does what its ticket or the `SENDB` makes of it. -/
theorem unitReply_wicks {c kind : Nat} (h48 : c < 48) (hk : kind ∈ [1, 2, 3]) (s : State) (t : Nat) (p : Packet) (o : Outc) (ref : Nat) :
    (unitReply s t c p o kind ref).wicks = (coreReply s t c o kind ref p.re).wicks := by
  unfold unitReply
  rw [if_pos h48]
  simp only [List.mem_cons, List.not_mem_nil, or_false] at hk
  rcases hk with rfl | rfl | rfl <;> exact traceRefused_wicks ..

/-- A reply at a core of a tile that is not fenced changes the cores as its ticket or the `SENDB` does. -/
theorem execReply_core {s : State} {pid t c ref kind : Nat} {p : Packet} {o : Outc} (hp : getPacket s pid = some p)
    (hb : p.body = .reply o kind ref) (hl : p.loc = .deliver t) (ht : qaTile p.dst = t) (hc : qaUnit p.dst = c) (h48 : c < 48)
    (hz : fenced s t = false) (hk : kind ∈ [1, 2, 3]) :
    ∃ u, exec (.reply pid) s = .next u ∧ u.wicks = (coreReply (delPacket s pid) t c o kind ref p.re).wicks := by
  refine ⟨unitReply (delPacket s pid) t c p o kind ref, ?_, unitReply_wicks h48 hk ..⟩
  show execReply pid s = _
  unfold execReply
  simp [hp, hb, hl, ht, hc, hz, show ¬54 ≤ c by omega]

theorem otherCores.of_wicks {s u v : State} {t c : Nat} (h : otherCores s v t c) (hw : u.wicks = v.wicks) : otherCores s u t c :=
  fun t' c' h' hne => (getWick_congr hw t' c').trans (h t' c' h' hne)

/-! ### A ticket (R223, R224) -/

theorem ticketReply_stale {s : State} {t c tk re : Nat} (h : (mget Ticket.fresh (getWick s t c).tickets tk).pid ≠ re) (o : Outc) :
    ticketReply s t c tk o re = s := by
  unfold ticketReply
  simp [h]

section
variable {s : State} {t c tk re : Nat} (hx : (mget Ticket.fresh (getWick s t c).tickets tk).pending = true)
  (hre : (mget Ticket.fresh (getWick s t c).tickets tk).pid = re)
include hx hre

/-- A reply by the deadline resolves its ticket; one in the deadline cycle counts a tie (R33). -/
theorem getWick_ticketReply_inTime (o : Outc) (h : cyclesOf s t ≤ (mget Ticket.fresh (getWick s t c).tickets tk).deadline) :
    let w := getWick s t c
    let x := mget Ticket.fresh w.tickets tk
    getWick (ticketReply s t c tk o re) t c = { w with
      tickets := mset Ticket.fresh w.tickets tk { x with pending := false, outc := o }
      tie := if cyclesOf s t = x.deadline then satAdd 16 w.tie 1 else w.tie } := by
  intro w x
  subst hre
  unfold ticketReply
  simp only [hx, Bool.not_true, bne_self_eq_false, Bool.or_self, Bool.false_eq_true, if_false, Nat.not_lt.2 h, beq_iff_eq, modWick_eq]
  unfold x w
  split
  · rw [getWick_setWick_same, getWick_setWick_same]
  · rw [getWick_setWick_same]

/-- A reply after the deadline finds its ticket timed out (R224). -/
theorem getWick_ticketReply_late (o : Outc) (h : (mget Ticket.fresh (getWick s t c).tickets tk).deadline < cyclesOf s t) :
    let w := getWick s t c
    let x := mget Ticket.fresh w.tickets tk
    getWick (ticketReply s t c tk o re) t c =
      { w with tickets := mset Ticket.fresh w.tickets tk { x with pending := false, outc := .timeout } } := by
  intro w x
  subst hre
  unfold ticketReply
  simp only [hx, Bool.not_true, bne_self_eq_false, Bool.or_self, Bool.false_eq_true, if_false, h, if_true, modWick_eq]
  rw [getWick_congr (raiseInc_wicks_regions ..).1, getWick_setWick_same]

end

/-! ### A `SENDB` (R225, R226) -/

theorem sendbReply_stale {s : State} {t c re : Nat} (h : ∀ b, (getWick s t c).sendb = some b → b.pid ≠ re) (o : Outc) :
    sendbReply s t c o re = s := by
  unfold sendbReply
  split
  · next b hb => simp [h b hb]
  · rfl

/-- The `SENDB` of a core has ended with an outcome, and only its core has changed. -/
def sendbEnded (s u : State) (t c gd : Nat) (o : Outc) : Prop :=
  otherCores s u t c ∧ (getWick u t c).sendb = none ∧ (getWick u t c).pc = (getWick s t c).pc + 4 ∧
    (getWick u t c).regs = (wkSetReg (getWick s t c) gd ⟨BitVec.ofNat 32 (outcCode o), false, false⟩).regs

/-- The `SENDB` of a core has gone into back-off, and only its core has changed. -/
def sendbBacksOff (s u : State) (t c : Nat) (b : SendB) : Prop :=
  otherCores s u t c ∧ ∃ b', (getWick u t c).sendb = some b' ∧ b'.awaiting = false ∧ b'.resume = cyclesOf s t + b.wait ∧
    b'.wait = b.wait ∧ b'.deadline = b.deadline ∧ (getWick u t c).pc = (getWick s t c).pc ∧ (getWick u t c).regs = (getWick s t c).regs

/-- The core of a `SENDB` with a tie counted, if its reply has come in the deadline cycle (R33). -/
def tied (w : Wick) (d : Bool) : Wick := { w with tie := if d then satAdd 16 w.tie 1 else w.tie }

theorem sendbEnded_wkFinish {s v : State} {t c : Nat} {d : Bool} (gd : Nat) (o : Outc) (hc : c < 48) (ho : otherCores s v t c)
    (hv : getWick v t c = tied (getWick s t c) d) (hk : wkEvenLocked (getWick s t c) c = false) :
    sendbEnded s (wkFinish v t c gd ⟨BitVec.ofNat 32 (outcCode o), false, false⟩) t c gd o := by
  have hk' : wkEvenLocked (getWick v t c) c = false := by rw [hv]; exact hk
  obtain ⟨hoth, hs, hpc, hr⟩ := wkFinish_unlocked ⟨BitVec.ofNat 32 (outcCode o), false, false⟩ hc ho hk' (gd := gd)
  rw [hv] at hpc hr
  refine ⟨hoth, hs, hpc, hr.trans ?_⟩
  unfold wkSetReg
  split <;> rfl

section
variable {s : State} {t c re : Nat} {b : SendB} (hs : (getWick s t c).sendb = some b) (ha : b.awaiting = true) (hre : b.pid = re)
  (hc : c < 48)
include hs ha hre hc

/-- A `SENDB` whose reply comes more than 4,096 cycles after its deadline has ended without it (R226). -/
theorem sendbReply_lost (hk : wkEvenLocked (getWick s t c) c = false) (o : Outc) (h : b.deadline + 4096 < cyclesOf s t) :
    sendbEnded s (sendbReply s t c o re) t c b.gd .timeout := by
  have hu : sendbReply s t c o re = sendbLost s t c b := by
    unfold sendbReply
    simp [hs, ha, hre, h]
  obtain ⟨hoth, hn, hpc, hr⟩ := sendbEnded_wkFinish b.gd .timeout hc (otherCores_of_wicks rfl t c) (d := false) rfl hk
  rw [hu]
  have hw : (sendbLost s t c b).wicks = (wkFinish s t c b.gd ⟨BitVec.ofNat 32 (outcCode .timeout), false, false⟩).wicks :=
    (raiseInc_wicks_regions ..).1
  unfold sendbEnded
  rw [getWick_congr hw]
  exact ⟨hoth.of_wicks hw, hn, hpc, hr⟩

/-- A refusal before the deadline backs the `SENDB` off, with or without a probe (R225, R231). -/
theorem sendbReply_backsOff (h : cyclesOf s t < b.deadline) : sendbBacksOff s (sendbReply s t c .refusedFull re) t c b := by
  subst hre
  have hne : (cyclesOf s t == b.deadline) = false := beq_false_of_ne (Nat.ne_of_lt h)
  let on := userQueueCore s b.dst
  let b' : SendB := { b with
    awaiting := false, resume := cyclesOf s t + b.wait, blockedOn := on, probed := b.probed || (decide (b.wait = 1024) && !b.probed && on.isSome) }
  have hw : (sendbReply s t c .refusedFull b.pid).wicks = (setWick s t c { getWick s t c with sendb := some b' }).wicks := by
    unfold sendbReply
    simp only [hs, ha, hne, Bool.not_true, bne_self_eq_false, Bool.or_self, Bool.false_eq_true, if_false, gt_iff_lt, ge_iff_le, ne_eq,
      not_true_eq_false, Nat.not_le.2 h, show ¬b.deadline + 4096 < cyclesOf s t by omega]
    split
    · split <;> rfl
    · rfl
  unfold sendbBacksOff
  rw [getWick_congr hw, getWick_setWick_same]
  exact ⟨(otherCores_setWick hc (otherCores_of_wicks rfl t c) _).of_wicks hw, b', rfl, rfl, rfl, rfl, rfl, rfl, rfl⟩

/-- Any other outcome ends the `SENDB` that awaits it, and a refusal does from the deadline on (R225). -/
theorem sendbReply_ends (hk : wkEvenLocked (getWick s t c) c = false) {o : Outc} (h : cyclesOf s t ≤ b.deadline + 4096)
    (ho : o ≠ .refusedFull ∨ b.deadline ≤ cyclesOf s t) : sendbEnded s (sendbReply s t c o re) t c b.gd o := by
  let v := if cyclesOf s t == b.deadline then modWick s t c fun w => { w with tie := satAdd 16 w.tie 1 } else s
  obtain ⟨hv, hoth⟩ : getWick v t c = tied (getWick s t c) (cyclesOf s t == b.deadline) ∧ otherCores s v t c := by
    unfold v tied
    split
    · rw [modWick_eq]
      exact ⟨getWick_setWick_same .., otherCores_setWick hc (otherCores_of_wicks rfl t c) _⟩
    · exact ⟨rfl, otherCores_of_wicks rfl t c⟩
  have hu : sendbReply s t c o re = wkFinish v t c b.gd ⟨BitVec.ofNat 32 (outcCode o), false, false⟩ := by
    unfold sendbReply
    simp only [hs, ha, hre, Bool.not_true, bne_self_eq_false, Bool.or_self, Bool.false_eq_true, if_false, gt_iff_lt, Nat.not_lt.2 h]
    by_cases hf : o = .refusedFull
    · subst hf
      rw [if_neg (by decide), if_pos (ho.resolve_left (by decide))]
    · rw [if_pos hf]
  rw [hu]
  exact sendbEnded_wkFinish b.gd o hc hoth hv hk

/-- What a reply makes of the `SENDB` that awaits it. -/
theorem sendbReply_cases (hk : wkEvenLocked (getWick s t c) c = false) (o : Outc) :
    (b.deadline + 4096 < cyclesOf s t ∧ sendbEnded s (sendbReply s t c o re) t c b.gd .timeout) ∨
    (o = .refusedFull ∧ cyclesOf s t < b.deadline ∧ sendbBacksOff s (sendbReply s t c o re) t c b) ∨
    ((o ≠ .refusedFull ∨ b.deadline ≤ cyclesOf s t) ∧ cyclesOf s t ≤ b.deadline + 4096 ∧ sendbEnded s (sendbReply s t c o re) t c b.gd o) := by
  rcases Nat.lt_or_ge (b.deadline + 4096) (cyclesOf s t) with h | h
  · exact .inl ⟨h, sendbReply_lost hs ha hre hc hk o h⟩
  · by_cases hf : o = .refusedFull ∧ cyclesOf s t < b.deadline
    · obtain ⟨rfl, hlt⟩ := hf
      exact .inr (.inl ⟨rfl, hlt, sendbReply_backsOff hs ha hre hc hlt⟩)
    · have ho : o ≠ .refusedFull ∨ b.deadline ≤ cyclesOf s t := (Decidable.not_and_iff_or_not.1 hf).imp_right Nat.not_lt.1
      exact .inr (.inr ⟨ho, h, sendbReply_ends hs ha hre hc hk h ho⟩)

end

/-! ### A probe (R231) -/

/-- A probe goes on from its core when the one that came is gone. -/
theorem passedOn_wkInject {s : State} {pid : Nat} (hpid : pid < s.net.next) (t c dst : Nat) (b : Body) :
    passedOn s (wkInject (delPacket s pid) t c 0 dst b) pid
      (injected t (qaMake t c 0) dst (getWick s t c).fold (epochAt s t) (bodyCtl b) b) := by
  obtain ⟨hp, hk⟩ := sent_inject (delPacket s pid) t (qaMake t c 0) dst (getWick s t c).fold (epochAt s t) b (injected_ne_none _ _ _ _ _ _ _)
  have hi : wkInject (delPacket s pid) t c 0 dst b =
      inject (delPacket s pid) t (qaMake t c 0) dst (getWick s t c).fold (epochAt s t) b := by
    unfold wkInject
    rw [coreAddr, Nat.add_zero]
    rfl
  rw [hi]
  refine ⟨⟨s.net.next, Nat.le_refl _, hp⟩, ?_, fun k h hne => ?_⟩
  · exact (hk pid hpid).trans (getPacket_delPacket_same ..)
  · exact (hk k h).trans (getPacket_delPacket_other _ _ _ hne)

section
variable {s : State} {pid t c hops mina orig : Nat} {p : Packet} (hp : getPacket s pid = some p) (hb : p.body = .probe hops mina orig)
  (hl : p.loc = .deliver t) (hc : qaUnit p.dst = c)
include hp hb hl hc

/-- A probe that finds no `SENDB`, or one that has ended, is discarded, wherever it comes. -/
theorem execProbe_discarded (h : ∀ b, (getWick s t c).sendb = some b → sendbOver (cyclesOf s t) b = true) :
    exec (.probe pid) s = .next (delPacket s pid) := by
  have hnow : cyclesOf (delPacket s pid) t = cyclesOf s t := rfl
  show execProbe pid s = _
  unfold execProbe
  simp only [hp, hb, hl, hc, delPacket_getWick, hnow]
  split
  · rfl
  · split
    · next b hs => rw [if_pos (h b hs)]
    · rfl

variable {b : SendB} {d : Nat} (ht : qaTile p.dst = t) (h48 : c < 48) (hz : fenced s t = false)
  (hs : (getWick s t c).sendb = some b) (hd : b.blockedOn = some d) (hov : sendbOver (cyclesOf s t) b = false)
include ht h48 hz hs hd hov

/-- What a probe does at a blocked core. -/
theorem execProbe_blocked :
    let me := qaMake t c 0
    let v := delPacket s pid
    exec (.probe pid) s = .next (if orig = me then
        (if b.probed = true ∧ mina = me then raiseInc v (tileInc v 0x0501 utWick t c (d + hops * 2 ^ 23)) else v)
      else if hops < 63 then wkInject v t c 0 d (.probe (hops + 1) (min mina me) orig) else v) := by
  intro me v
  have hnow : cyclesOf (delPacket s pid) t = cyclesOf s t := rfl
  show execProbe pid s = _
  unfold execProbe
  simp only [hp, hb, hl, hc, ht, delPacket_getWick, delPacket_fenced, hnow, hz, hs, hd, hov, bne_self_eq_false, Bool.false_or, Bool.or_false,
    decide_eq_true_eq, ge_iff_le, Nat.not_le.2 h48, if_false, Bool.false_eq_true, coreAddr, beq_iff_eq, Bool.and_eq_true, Option.getD_some]
  split
  · split <;> rfl
  · split <;> rfl

end
/-- Settles O12: a message by the row of Table 7.6 that decides, or by the arrival that it waits for; a reply by its ticket or the `SENDB` that
awaits it; a probe by the `SENDB` that blocks its core. -/
theorem messagesAndRepliesAtCores : Obligations.MessagesAndRepliesAtCores := by
  refine ⟨?_, ?_, ?_, ?_, ?_, ?_, ?_⟩
  · intro s pid p t c q b ws hp hpid hb hl hw hform ht hc hq h48 w user answer refusedAs
    refine ⟨msgArrive s pid b, exec_message .., fun hz => ?_, fun hz => ?_⟩
    · rw [msgArrive_fenced hp hb hl ht hc hw h48 hz]
      exact ⟨answeredWith_of_grows hp hpid hform ht hc (netGrows_of_net rfl) (unitFold_core h48 (delPacket s pid) t) rfl _ _, rfl⟩
    · have hqen : wkQen w q = w.core.toNat.testBit q := bit_eq_testBit ..
      have hcls : wkQcls w q = user := bit_eq_testBit ..
      have href {o : Outc} := msgArrive_refused (o := o) hp hb hl ht hc hw h48 hpid hform hq hz
      refine ⟨fun h => href (.inl rfl) (wkDecide_closed ?_), fun h1 h2 h3 h4 h5 => href (.inl rfl) ?_, fun h1 h2 h3 h4 => href (.inr rfl) ?_,
        fun h1 h2 h3 h4 => ⟨fun h => href (.inl rfl) ?_, fun h => msgArrive_stored hp hb hl ht hc hw h48 hpid hform hq hz ?_⟩⟩
      · exact h.imp_left hqen.trans
      · exact wkDecide_gated (hqen.trans h1) h2 h3 (hcls.trans h4) h5
      · exact wkDecide_epoch (hqen.trans h1) h2 (hcls.trans h3) h4
      · rw [wkDecide_room (hqen.trans h1) h2 (hcls.symm ▸ h3) (hcls.symm ▸ h4), if_pos h]
      · rw [wkDecide_room (hqen.trans h1) h2 (hcls.symm ▸ h3) (hcls.symm ▸ h4), if_neg (Nat.not_lt.2 h)]
  · intro s s' pid p t b ws hp hb hl ht h54 hw
    obtain ⟨hn, hq⟩ := portWait_keeps hw
    rw [exec_message, msgArrive_waits hp hb hl ht rfl h54 hw]
    exact ⟨rfl, hn, fun k q => congrArg (fun m => mget [] m q) (hq t k)⟩
  · intro s pid p t c tk o d hp hb hl ht hc h48 hz w x hx hre
    obtain ⟨u, hu, hw⟩ := execReply_core hp hb hl ht hc h48 hz (by cases d <;> decide)
    have hr : coreReply (delPacket s pid) t c o (if d then 3 else 1) tk p.re = ticketReply (delPacket s pid) t c tk o p.re :=
      if_neg (by cases d <;> decide)
    rw [hr] at hw
    refine ⟨u, hu, fun h => ?_, fun h => ?_⟩
    · exact (getWick_congr hw t c).trans (getWick_ticketReply_inTime (s := delPacket s pid) hx hre o h)
    · exact (getWick_congr hw t c).trans (getWick_ticketReply_late (s := delPacket s pid) hx hre o h)
  · intro s pid p t c tk kind o hp hb hk hl ht hc h48 hz htk hsb
    obtain ⟨u, hu, hw⟩ := execReply_core hp hb hl ht hc h48 hz hk
    refine ⟨u, hu, hw.trans ?_⟩
    unfold coreReply
    split
    · next h => rw [sendbReply_stale (s := delPacket s pid) (hsb h)]; rfl
    · next h => rw [ticketReply_stale (s := delPacket s pid) (htk h)]; rfl
  · intro s pid p t c ref o b hp hb hl ht hc h48 hz hs ha hre hk w now
    obtain ⟨u, hu, hw⟩ := execReply_core hp hb hl ht hc h48 hz (by decide)
    rw [coreReply, if_pos rfl] at hw
    refine ⟨u, hu, ?_⟩
    rw [getWick_congr hw]
    have hlater {n : Nat} (hlt : n < b.deadline) : ¬b.deadline + 4096 < n := by omega
    rcases sendbReply_cases (s := delPacket s pid) hs ha hre h48 hk o with ⟨hgt, hoth, hn, -, hr⟩ | ⟨rfl, hlt, hoth, hback⟩ | ⟨hne, hle, hoth, hend⟩
    · exact ⟨hoth.of_wicks hw, fun _ => ⟨hn, hr⟩, fun _ hle => absurd hgt (Nat.not_lt.2 hle), fun _ hlt => absurd hgt (hlater hlt),
        fun _ _ hle => absurd hgt (Nat.not_lt.2 hle)⟩
    · exact ⟨hoth.of_wicks hw, fun hgt => absurd hgt (hlater hlt), fun hne => absurd rfl hne, fun _ _ => hback,
        fun _ hge => absurd hlt (Nat.not_lt.2 hge)⟩
    · exact ⟨hoth.of_wicks hw, fun hgt => absurd hle (Nat.not_le.2 hgt), fun _ _ => hend,
        fun he hlt => absurd hlt (Nat.not_lt.2 (hne.resolve_left (not_not.2 he))), fun he _ _ => by subst he; exact hend⟩
  · intro s pid p t c hops mina orig b d hp hpid hb hl ht hc h48 hz hs hd hov me
    have hx := execProbe_blocked hp hb hl hc ht h48 hz hs hd hov
    refine ⟨_, hx, ?_, fun hne hlt => ?_, fun he hm hpr => ?_⟩
    · split
      · split
        · exact (raiseInc_wicks_regions ..).1
        · rfl
      · split <;> rfl
    · rw [if_neg hne, if_pos hlt]
      exact passedOn_wkInject hpid ..
    · rw [if_pos he, if_pos ⟨hpr, hm⟩]
      exact raised_congr (s := delPacket s pid) rfl rfl rfl (raised_tileInc ..)
  · intro s pid p t c hops mina orig hp hb hl h hc
    exact ⟨delPacket s pid, execProbe_discarded hp hb hl hc h, getPacket_delPacket_same .., rfl⟩

end Sys2Proof.Machine
end

section
/-!
PROOFS. Tokens, credits, releases and resends at CUs and MUs (R249, R254, R257 to R260, R265, Table 8.10): how a queue decides a token, one lemma
for each outcome, then the four commands.
-/
namespace Sys2Proof.Machine
open Sys2Proof

/-! ### A queue of a unit: a read after a write -/

theorem mput_mput {α : Type} (m : SMap α) (k : Nat) (v w : α) : mput (mput m k v) k w = mput m k w := by
  induction m with
  | nil => simp [mput]
  | cons e m ih =>
    obtain ⟨j, x⟩ := e
    by_cases hj : j = k
    · simp [mput, hj]
    · by_cases hlt : k < j <;> simp [mput, hj, hlt, ih]

@[simp] theorem getQ_setQ_same (f : Flow) (q : Nat) (x : DQ) : getQ (setQ f q x) q = x := mget_mset_same ..

/-- The later of two writes of a queue stands, where neither leaves it as it was at reset. -/
theorem setQ_setQ {x y : DQ} (hx : x ≠ DQ.empty) (hy : y ≠ DQ.empty) (f : Flow) (q : Nat) : setQ (setQ f q x) q y = setQ f q y := by
  unfold setQ mset
  simp only [if_neg hx, if_neg hy, mput_mput]

/-- A queue that holds an entry is not as at reset. -/
theorem ne_empty_of_slots {x : DQ} (h : x.slots ≠ []) : x ≠ DQ.empty := fun he => h (he ▸ rfl)

theorem qUsed_add_slot (x : DQ) (e : QSlot) (h : e.parts.length = 1) (qarr fullAt : Nat) :
    qUsed { x with slots := x.slots ++ [e], qarr := qarr, fullAt := fullAt } = qUsed x + 1 := by
  unfold qUsed
  simp only [List.foldl_append, List.foldl_cons, List.foldl_nil, h]
  omega

/-! ### The decision of a queue (R257, R260, R265, Table 7.6) -/

@[simp] theorem flowFault_flows (s : State) (cls t u detail : Nat) : (flowFault s cls t u detail).flows = s.flows := by
  have h := congrArg State.flows (besideStop_stopTileRegion (raiseInc s (tileInc s cls (unitType u) t (unitIx u) detail)) t)
  have hi := congrArg State.flows (raiseInc_frame s (tileInc s cls (unitType u) t (unitIx u) detail))
  exact Eq.trans h hi

theorem countEpdisc_flows_net (s : State) (t n : Nat) : (countEpdisc s t n).flows = s.flows ∧ (countEpdisc s t n).net = s.net := by
  unfold countEpdisc
  split <;> exact ⟨rfl, rfl⟩

/-- An arrival that changes no flow fills no queue, so that its decision is all there is to it. -/
theorem arriveUnit_of_flows {s : State} {t u q src n : Nat} {msg : Bool} {tok : Token} {owed : List Owed} {r : State × Decide}
    (hr : decideUnit s t u q src msg tok n owed = r) (hf : r.1.flows = s.flows) : arriveUnit s t u q src msg tok n owed = r := by
  unfold arriveUnit
  simp only [hr, getFlow_congr hf, Bool.not_and_self, Bool.false_eq_true, if_false]

section
variable {s : State} {t u q src n : Nat} {k : Token} {owed : List Owed}

/-- A queue of no depth refuses a token. -/
theorem arriveUnit_noDepth (h : qDepth (getFlow s t u) q = 0) : arriveUnit s t u q src false k n owed = (s, .full) := by
  refine arriveUnit_of_flows ?_ rfl
  unfold decideUnit
  simp only [h, beq_self_eq_true, if_true]

variable (hd : qDepth (getFlow s t u) q ≠ 0) (hg : gatedAt s t = false)
include hd hg

/-- A token of another epoch is discarded and counted (R265). -/
theorem arriveUnit_epoch (he : k.epoch ≠ epochAt s t) : arriveUnit s t u q src false k n owed = (countEpdisc s t 1, .epoch) := by
  refine arriveUnit_of_flows ?_ (countEpdisc_flows_net s t 1).1
  unfold decideUnit
  simp [hd, hg, he]

variable (he : k.epoch = epochAt s t) (hn : k.fold ≤ rgNfm1 (regionAt s t)) (hc : k.fold = (getFlow s t u).curFold)
  (hri : (getFlow s t u).reinject = []) (hsp : (getQ (getFlow s t u) q).spill = false) (hseq : qdSeqd (qDesc (getFlow s t u) q) = true)
include he hn hc hri hsp hseq

/-- A token of the current fold and epoch is placed by its sequence number (R257). -/
theorem decideUnit_places : decideUnit s t u q src false k n owed = placeSeq s t u q k n owed true := by
  have hdesc : qDescOf (getFlow s t u) (getFlow s t u).curFold q = qDesc (getFlow s t u) q := rfl
  unfold decideUnit
  simp [hd, hg, he, hc ▸ Nat.not_lt.2 hn, hc, hdesc, hri, hsp, hseq]

/-- A full queue without the entry of a token refuses it (R95). -/
theorem arriveUnit_full (hu : qDepth (getFlow s t u) q ≤ qUsed (getQ (getFlow s t u) q))
    (hno : ∀ y ∈ (getQ (getFlow s t u) q).slots, y.seq ≠ k.seq) : arriveUnit s t u q src false k n owed = (s, .full) := by
  refine arriveUnit_of_flows ((decideUnit_places hd hg he hn hc hri hsp hseq).trans ?_) rfl
  have hold : (getQ (getFlow s t u) q).slots.find? (·.seq == k.seq) = none := List.find?_eq_none.2 (by simpa using hno)
  unfold placeSeq
  simp [hu, hold]

variable (hu : qUsed (getQ (getFlow s t u) q) < qDepth (getFlow s t u) q)
include hu

/-- A token beyond the window of its queue is a fault (R257, Table 8.13). -/
theorem arriveUnit_outside (hw : qCap (getFlow s t u) q ≤ (k.seq + 65536 - mget 0 (getQ (getFlow s t u) q).ptrs (getFlow s t u).curFold) % 65536) :
    arriveUnit s t u q src false k n owed = (flowFault s 0x0403 t u (q + k.seq * 2 ^ 16), .stopped) := by
  refine arriveUnit_of_flows ((decideUnit_places hd hg he hn hc hri hsp hseq).trans ?_) (flowFault_flows ..)
  unfold placeSeq
  simp [Nat.not_le.2 hu, hw]

/-- A token within the window, the first of its sequence number, becomes an entry; a queue that it fills is a traced event (Table 17.7). -/
theorem arriveUnit_placed (hw : (k.seq + 65536 - mget 0 (getQ (getFlow s t u) q).ptrs (getFlow s t u).curFold) % 65536 < qCap (getFlow s t u) q)
    (hst : isSteerQ s t u q = false) (hno : ∀ y ∈ (getQ (getFlow s t u) q).slots, y.seq ≠ k.seq) :
    let f := getFlow s t u
    let x := getQ f q
    ∃ v, arriveUnit s t u q src false k n owed = (v, .accepted) ∧
      getFlow v t u = setQ f q { x with slots := x.slots ++ [⟨k.seq, [k], n, owed⟩], qarr := (x.qarr + n) % 2 ^ 48,
                                         fullAt := if qDepth f q ≤ qUsed x + 1 then s.time.ticks else x.fullAt } ∧
      { v with flows := s.flows, net := s.net, trace := s.trace, inc := s.inc } = s := by
  intro f x
  let e : QSlot := ⟨k.seq, [k], n, owed⟩
  let x1 : DQ := { x with slots := x.slots ++ [e], qarr := (x.qarr + n) % 2 ^ 48 }
  let w := setFlow s t u (setQ f q x1)
  have hold : x.slots.find? (·.seq == k.seq) = none := List.find?_eq_none.2 (by simpa using hno)
  have hplace : decideUnit s t u q src false k n owed = (w, .accepted) := by
    rw [decideUnit_places hd hg he hn hc hri hsp hseq]
    unfold placeSeq
    simp [Nat.not_le.2 hu, Nat.not_le.2 hw, hst, hold, f, x] 
    rfl
  have hwf : getFlow w t u = setQ f q x1 := getFlow_setFlow_same ..
  have hused : qUsed (getQ (getFlow w t u) q) = qUsed x + 1 := by
    rw [hwf, getQ_setQ_same]
    exact qUsed_add_slot x e rfl _ _
  have hdep : qDepth (getFlow w t u) q = qDepth f q := by rw [hwf]; rfl
  have hnot : ¬qDepth f q ≤ qUsed x := Nat.not_le.2 hu
  unfold arriveUnit
  simp only [hplace, hused, hdep, ge_iff_le]
  by_cases hfull : qDepth f q ≤ qUsed x + 1
  · rw [if_pos (by simp [hfull, hnot, f, x]), if_pos hfull]
    refine ⟨_, rfl, ?_, ?_⟩
    · rw [getFlow_congr (traceEv_flows ..), modFlow_eq, getFlow_setFlow_same, hwf, getQ_setQ_same,
        setQ_setQ (ne_empty_of_slots (by simp [x1])) (ne_empty_of_slots (by simp [x1]))]
    · exact congrArg (fun u : State => { u with flows := s.flows }) (frame_of_besideTraffic (besideTraffic_traceEv ..))
  · rw [if_neg (by simp [hfull, f, x]), if_neg hfull]
    exact ⟨w, rfl, hwf, rfl⟩

end

/-! ### A token at the delivery port of a CU or MU (R249, R260, Table 8.10) -/

section
variable {s : State} {pid t o : Nat} {p : Packet} {ctl : Bool} {k : Token} (hb : p.body = if ctl then .tokc o k else .tokd o [k])
include hb

theorem exec_token (hp : getPacket s pid = some p) (hl : p.loc = .deliver t) (hw : portWait s t p = none) :
    ∃ keep, exec (if ctl then .tokc pid else .tokd pid) s = .next (tokDeliver (delPacket s pid) pid p t o [k] keep) := by
  cases ctl with
  | true =>
    refine ⟨keepCtl o k, ?_⟩
    show execTokc pid s = _
    unfold execTokc
    simp [hp, hb, hl]
  | false =>
    refine ⟨.tokd o, ?_⟩
    show execTokd pid s = _
    unfold execTokd
    simp [hp, hb, hl, hw]

theorem answerFrom_token (v : State) (e : Outc) :
    answerFrom v t p e = answerWith v t p (replyTo p) (.reply e (bodyKind p.body) o) := by
  unfold answerFrom replyTo
  cases ctl <;> simp [hb, bodyRef]

end

section
variable {s : State} {pid t u q o : Nat} {p : Packet} {k : Token} {keep : List Token → Body} (ht : qaTile p.dst = t)
  (hu : qaUnit p.dst = u) (hq : qaQueue p.dst = q) (hlo : 48 ≤ u) (hhi : u < 54)
include ht hu hhi

/-- A token at a fenced tile is refused (R313). -/
theorem tokDeliver_fenced (h : fenced s t = true) : tokDeliver s pid p t o [k] keep = answerFrom s t p .refusedFenced := by
  unfold tokDeliver
  simp [ht, hu, Nat.not_le.2 hhi, h]

variable (hz : fenced s t = false)
include hq hlo hz

/-- A token at a CU or MU is answered only where its queue refuses it (R260). -/
theorem tokDeliver_unit {r : State × Decide} (hr : arriveUnit s t u q p.src false k 1 (owedFor s p.src o) = r) (hh : r.2 ≠ .held) :
    tokDeliver s pid p t o [k] keep = if r.2 = .full then answerFrom r.1 t p .refusedFull else r.1 := by
  obtain ⟨v, d⟩ := r
  have hplace : tokDeliver s pid p t o [k] keep = tokPlaced s pid p t o 1 [k] keep := by
    unfold tokDeliver
    simp [ht, hu, Nat.not_le.2 hhi, Nat.not_lt.2 hlo, hz]
  rw [hplace]
  unfold tokPlaced
  simp only [hu, hq, tokAtUnit, hr]
  cases d with
  | held => exact absurd rfl hh
  | accepted | full | epoch | stopped => simp

end

/-- A data or control token at a CU or MU: where its queue is closed, of another epoch, and by its sequence number. -/
theorem token_arrives {s : State} {pid t u q o : Nat} {p : Packet} {ctl : Bool} {k : Token} (hp : getPacket s pid = some p)
    (hpid : pid < s.net.next) (hb : p.body = if ctl then .tokc o k else .tokd o [k]) (hl : p.loc = .deliver t) (hw : portWait s t p = none)
    (hform : qaTileForm p.dst = true) (ht : qaTile p.dst = t) (hu : qaUnit p.dst = u) (hq : qaQueue p.dst = q) (hlo : 48 ≤ u) (hhi : u < 54) :
    let f := getFlow s t u
    let x := getQ f q
    let back (o' : Outc) : Packet := injected t (qaMake t u 0) (replyTo p) f.curFold (epochAt s t) true (.reply o' (bodyKind p.body) o)
    ∃ v, exec (if ctl then .tokc pid else .tokd pid) s = .next v ∧
      (fenced s t = true → v.flows = s.flows ∧ answeredWith s v pid (back .refusedFenced)) ∧
      (fenced s t = false → qDepth f q = 0 → v.flows = s.flows ∧ answeredWith s v pid (back .refusedFull)) ∧
      (fenced s t = false → qDepth f q ≠ 0 → gatedAt s t = false → k.epoch ≠ epochAt s t →
        v.flows = s.flows ∧ v.net = (delPacket s pid).net) ∧
      (fenced s t = false → qDepth f q ≠ 0 → gatedAt s t = false → k.epoch = epochAt s t → k.fold ≤ rgNfm1 (regionAt s t) → k.fold = f.curFold →
        f.reinject = [] → x.spill = false → qdSeqd (qDesc f q) = true →
        let dist := (k.seq + 65536 - mget 0 x.ptrs f.curFold) % 65536
        (qDepth f q ≤ qUsed x → (∀ y ∈ x.slots, y.seq ≠ k.seq) → v.flows = s.flows ∧ answeredWith s v pid (back .refusedFull)) ∧
        (qUsed x < qDepth f q → qCap f q ≤ dist → v.flows = s.flows ∧ raisedFirst s v t 0x0403 (unitIx u) (BitVec.ofNat 64 (q + k.seq * 2 ^ 16))) ∧
        (qUsed x < qDepth f q → dist < qCap f q → isSteerQ s t u q = false → (∀ y ∈ x.slots, y.seq ≠ k.seq) →
          getFlow v t u = setQ f q { x with slots := x.slots ++ [⟨k.seq, [k], 1, owedFor s p.src o⟩], qarr := (x.qarr + 1) % 2 ^ 48,
                                             fullAt := if qDepth f q ≤ qUsed x + 1 then s.time.ticks else x.fullAt } ∧
          { v with flows := s.flows, net := s.net, trace := s.trace, inc := s.inc } = s)) := by
  intro f x back
  let d := delPacket s pid
  obtain ⟨keep, hx⟩ := exec_token hb hp hl hw
  have hanswer (e : Outc) : (answerFrom d t p e).flows = s.flows ∧ answeredWith s (answerFrom d t p e) pid (back e) := by
    rw [answerFrom_token hb]
    exact ⟨rfl, answeredWith_of_grows hp hpid hform ht hu (netGrows_of_net rfl) (unitFold_flow (s := s) rfl hlo t) rfl _ _⟩
  have hunit {r : State × Decide} (hz : fenced s t = false) (hr : arriveUnit d t u q p.src false k 1 (owedFor d p.src o) = r)
      (hh : r.2 ≠ .held) : tokDeliver d pid p t o [k] keep = if r.2 = .full then answerFrom r.1 t p .refusedFull else r.1 :=
    tokDeliver_unit (s := d) ht hu hq hlo hhi hz hr hh
  refine ⟨_, hx, fun hz => ?_, fun hz h0 => ?_, fun hz h0 hg he => ?_, fun hz h0 hg he hn hc hri hsp hseq => ⟨fun hfull hno => ?_,
    fun hroom hwin => ?_, fun hroom hwin hst hno => ?_⟩⟩
  · rw [tokDeliver_fenced ht hu hhi (s := delPacket s pid) hz]
    exact hanswer .refusedFenced
  · rw [hunit hz (arriveUnit_noDepth (s := d) h0) (by simp), if_pos rfl]
    exact hanswer .refusedFull
  · rw [hunit hz (arriveUnit_epoch (s := d) h0 hg he) (by simp), if_neg (by simp)]
    exact countEpdisc_flows_net d t 1
  · rw [hunit hz (arriveUnit_full (s := d) h0 hg he hn hc hri hsp hseq hfull hno) (by simp), if_pos rfl]
    exact hanswer .refusedFull
  · rw [hunit hz (arriveUnit_outside (s := d) h0 hg he hn hc hri hsp hseq hroom hwin) (by simp), if_neg (by simp)]
    exact ⟨flowFault_flows .., raisedFirst_of_grows (raised_congr (s := d) rfl rfl rfl (raised_flowFault ..)) (incGrows_refl _)⟩
  · obtain ⟨v, hr, hflow, hframe⟩ := arriveUnit_placed (s := d) (src := p.src) (n := 1) (owed := owedFor d p.src o) h0 hg he hn hc hri hsp hseq
      hroom hwin hst hno
    rw [hunit hz hr (by simp), if_neg (by simp)]
    exact ⟨hflow, congrArg (fun w : State => { w with net := s.net }) hframe⟩

/-! ### Credits (R259) -/

/-- Credits come back to a credited stream up to its limit; those of another epoch are discarded. -/
theorem credits_return {s : State} {pid t u o n : Nat} {p : Packet} (hp : getPacket s pid = some p) (hb : p.body = .cret o n)
    (hl : p.loc = .deliver t) (ht : qaTile p.dst = t) (hu : qaUnit p.dst = u) (hlo : 48 ≤ u) (hhi : u < 54) (hz : fenced s t = false) :
    let x := getStrm (getFlow s t u) o
    ∃ v, exec (.cret pid) s = .next v ∧
      (p.epoch ≠ epochAt s t → v = delPacket s pid) ∧
      (p.epoch = epochAt s t → stMode x = 0 →
        onlyFlow (delPacket s pid) v t u (setStrm (getFlow s t u) o { x with cred := min (x.cred + n) (stCred x) })) ∧
      (p.epoch = epochAt s t → stMode x ≠ 0 → getFlow v t u = getFlow s t u) := by
  intro x
  let f := getFlow s t u
  have hx : exec (.cret pid) s = .next (if p.epoch = epochAt s t then
      setFlow (delPacket s pid) t u (if stMode x = 0 then setStrm f o { x with cred := min (x.cred + n) (stCred x) } else f)
      else delPacket s pid) := by
    have hz' : fenced (delPacket s pid) t = false := hz
    have he : epochAt (delPacket s pid) t = epochAt s t := rfl
    show execCret pid s = _
    unfold execCret
    simp only [hp, hb, hl, ht, hu, hz', he, Nat.not_lt.2 hlo, Nat.not_le.2 hhi, modFlow_eq, delPacket_getFlow]
    by_cases hep : p.epoch = epochAt s t <;> simp [hep, f, x]
  refine ⟨_, hx, fun he => if_neg he, fun he h0 => ?_, fun he h0 => ?_⟩
  · rw [if_pos he, if_pos h0]
    exact onlyFlow_setFlow _ _ _ _ ⟨hlo, hhi⟩
  · rw [if_pos he, if_neg h0]
    exact getFlow_setFlow_same ..

/-! ### Release (R257, R259) -/

theorem returnCredits_one (s : State) (t u : Nat) (w : Owed) :
    returnCredits s t u [w] = inject s t (qaMake t u 0) w.src 0 (epochAt s t) (.cret w.ostr 1) := by
  unfold returnCredits
  simp [List.eraseDups_cons]

theorem returnCredits_frame (s : State) (t u : Nat) (owed : List Owed) : { returnCredits s t u owed with net := s.net } = s :=
  List.foldlRecOn (motive := fun v : State => { v with net := s.net } = s) _ _ rfl fun _ hv _ _ => hv

theorem returnCredits_flows (s : State) (t u : Nat) (owed : List Owed) : (returnCredits s t u owed).flows = s.flows := by
  have h := congrArg State.flows (returnCredits_frame s t u owed)
  exact h

theorem reinjectQ_still {s : State} {t u q : Nat} (h : (getQ (getFlow s t u) q).spill = false) : reinjectQ s t u q = s := by
  unfold reinjectQ
  simp only [h, Bool.not_false, if_true]

/-- A queue that does not spill gives its complete entry to the consumer, and the credits of the entry go back. -/
theorem releaseQ_head {s : State} {t u q : Nat} {e : QSlot} (hsp : (getQ (getFlow s t u) q).spill = false)
    (he : headSlot (getFlow s t u) q = some e) :
    let f := getFlow s t u
    let x := getQ f q
    releaseQ s t u q = returnCredits (setFlow s t u { setQ f q { x with
      slots := x.slots.filter (fun y => y.seq != e.seq), ready := x.ready ++ slotTokens (qdComb (qDesc f q) == 3) e,
      ptrs := mset 0 x.ptrs f.curFold ((mget 0 x.ptrs f.curFold + 1) % 65536) } with relAt := s.time.ticks }) t u e.owed := by
  intro f x
  unfold releaseQ
  simp only [he]
  refine reinjectQ_still ?_
  rw [getFlow_congr (returnCredits_flows ..), getFlow_setFlow_same]
  exact (congrArg DQ.spill (getQ_setQ_same ..)).trans hsp

/-- A release does nothing without a complete entry at the pointer; of one it keeps all but the entry, the pointer and the credits. -/
theorem entry_released {s : State} {t : TileId} {u : Fin 6} {q : QIx} (hm : unitsStill s t = false)
    (hsp : (getQ (getFlow s t (48 + u.val)) q).spill = false) :
    let f := getFlow s t (48 + u.val)
    let x := getQ f q
    (headSlot f q = none → exec (.queueRelease t u q) s = .next s) ∧
    (∀ e, headSlot f q = some e → ∃ v, exec (.queueRelease t u q) s = .next v ∧
      (let y := getQ (getFlow v t (48 + u.val)) q
       y.slots = x.slots.filter (fun y => y.seq != e.seq) ∧ y.ready = x.ready ++ slotTokens (qdComb (qDesc f q) == 3) e ∧
       y.ptrs = mset 0 x.ptrs f.curFold ((mget 0 x.ptrs f.curFold + 1) % 65536) ∧ y.stall = x.stall ∧ y.qarr = x.qarr ∧
       y.fullAt = x.fullAt ∧ y.spill = false ∧ getFlow v t (48 + u.val) = { setQ f q y with relAt := s.time.ticks }) ∧
      { v with flows := s.flows, net := s.net } = s ∧ (e.owed = [] → v.net = s.net) ∧
      (∀ w, e.owed = [w] → sent s v (injected t (qaMake t (48 + u.val) 0) w.src 0 (epochAt s t) true (.cret w.ostr 1)))) := by
  intro f x
  have hx : exec (.queueRelease t u q) s = .next (releaseQ s t.val (48 + u.val) q.val) := if_neg (by simp [hm])
  refine ⟨fun h => ?_, fun e he => ?_⟩
  · rw [hx]
    unfold releaseQ
    simp only [f] at h
    simp only [h]
  · let y : DQ := { x with
      slots := x.slots.filter (fun y => y.seq != e.seq), ready := x.ready ++ slotTokens (qdComb (qDesc f q) == 3) e,
      ptrs := mset 0 x.ptrs f.curFold ((mget 0 x.ptrs f.curFold + 1) % 65536) }
    let w := setFlow s t (48 + u.val) { setQ f q y with relAt := s.time.ticks }
    have hv : releaseQ s t.val (48 + u.val) q.val = returnCredits w t (48 + u.val) e.owed := releaseQ_head hsp he
    have hframe := returnCredits_frame w t (48 + u.val) e.owed
    have hflow : getFlow (returnCredits w t (48 + u.val) e.owed) t (48 + u.val) = { setQ f q y with relAt := s.time.ticks } := by
      have h := congrArg (fun v => getFlow v t.val (48 + u.val)) hframe
      exact Eq.trans h (getFlow_setFlow_same ..)
    have hq : getQ { setQ f q y with relAt := s.time.ticks } q = y := getQ_setQ_same ..
    refine ⟨_, hx, ?_, ?_, fun h => ?_, fun d h => ?_⟩
    · rw [hv, hflow, hq]
      exact ⟨rfl, rfl, rfl, rfl, rfl, rfl, hsp, rfl⟩
    · rw [hv]
      exact congrArg (fun v : State => { v with flows := s.flows }) hframe
    · rw [hv, h]
      rfl
    · rw [hv, h, returnCredits_one]
      exact sent_congr (s := w) rfl rfl (sent_inject _ _ _ _ _ _ _ (injected_ne_none _ _ _ _ _ _ _))

/-! ### An acknowledged stream (R254) -/

/-- The refused token of an acknowledged stream goes out again, and its stream awaits the reply to the new packet. -/
theorem token_resent {s : State} {t : TileId} {u : Fin 6} {o : QIx} {k : Token} (hm : unitsStill s t = false) :
    let f := getFlow s t (48 + u.val)
    let x := getStrm f o
    x.inflight = some k → x.resend = true →
    let b : Body := if k.ctl.isSome then .tokc o k else .tokd o [k]
    ∃ v, exec (.ackStreamResend t u o) s = .next v ∧ getFlow v t (48 + u.val) = setStrm f o { x with resend := false, pid := s.net.next } ∧
      sent s v (injected t (qaMake t (48 + u.val) 0) (stDst x) (stDfold x) (epochAt s t) (bodyCtl b) b) ∧
      { v with flows := s.flows, net := s.net } = s := by
  intro f x hk hr b
  let w := setFlow s t (48 + u.val) (setStrm f o { x with resend := false, pid := s.net.next })
  have hx : exec (.ackStreamResend t u o) s =
      .next (inject w t (qaMake t (48 + u.val) 0) (stDst x) (stDfold x) (epochAt w t) b) := by
    show execAckStreamResend t u o s = _
    unfold execAckStreamResend
    extract_lets un x'
    split
    · next k' hk' =>
      obtain rfl : k' = k := Option.some.inj (hk'.symm.trans hk)
      exact if_neg (by simp [x', un, f, x, hm] at hr ⊢; exact hr)
    · next hn => exact absurd (hn.symm.trans hk) nofun
  exact ⟨_, hx, getFlow_setFlow_same .., sent_congr (s := w) rfl rfl (sent_inject _ _ _ _ _ _ _ (injected_ne_none _ _ _ _ _ _ _)), rfl⟩

/-- Settles O20: a token by the decision of its queue, credits by their stream, a release by the entry at the pointer, and the refused token again. -/
theorem tokensAndCredits : Obligations.TokensAndCredits :=
  ⟨fun _ _ _ _ _ _ _ _ _ hp hpid hb hl hw hform ht hu hq hlo hhi => token_arrives hp hpid hb hl hw hform ht hu hq hlo hhi,
    fun _ _ _ _ _ _ _ hp hb hl ht hu hlo hhi hz => credits_return hp hb hl ht hu hlo hhi hz, fun _ _ _ _ hm hsp => entry_released hm hsp,
    fun _ _ _ _ _ hm => token_resent hm⟩

end Sys2Proof.Machine
end

section
/-!
PROOFS. The commands of the region engines (R247, R248, R275 to R278, R283, R466, R467, Table 8.5): what ending a transaction, reading HBM and
discarding tokens leave as they are, then one lemma for each command.
-/
namespace Sys2Proof.Machine
open Sys2Proof

/-! ### Which command starts (R248, R325) -/

theorem nextCmd_mem {s : State} {e opc : Nat} {c : Cmd} (h : nextCmd s e opc = some c) : c ∈ (getEng s e).cmds := by
  unfold nextCmd at h
  split at h
  · next d l hl =>
    split at h
    · cases h
      rw [hl]
      exact List.mem_cons_self
    · cases h
  · cases h

theorem regionRun_some {s : State} {r opc : Nat} {c : Cmd} (h : nextCmd s r opc = some c) (hw : regionWaits s r = false)
    (k : Cmd → Region → State) : regionRun s r opc k = k c (getRegion s r) := by
  simp only [regionRun, h, hw, Bool.false_eq_true, if_false]

theorem getRegion_congr {s u : State} (h : u.regions = s.regions) (r : Nat) : getRegion u r = getRegion s r :=
  congrArg (fun m => mget Region.none m r) h

theorem inPhase_toStage {s : State} {c : Cmd} (h : c ∈ (getEng s c.eng).cmds) (chgs : List Chg) (det : Nat) :
    inPhase (toStage s c chgs det) c (.stage chgs) := by
  refine ⟨{ c with ph := .stage chgs, det := det }, ?_, rfl, rfl⟩
  rw [toStage, cmds_modCmds_same]
  exact List.mem_map.2 ⟨c, h, if_pos (beq_self_eq_true c.id)⟩

theorem failCmd_fails (s : State) (c : Cmd) (o : Outc) (reason : Nat) :
    completed s (failCmd s c o reason 0) c o (reason * 2 ^ 56) ∧ (failCmd s c o reason 0).regions = s.regions :=
  ⟨completed_failCmd .., failCmd_regions ..⟩

theorem finishCmd_regions (s : State) (c : Cmd) (o : Outc) (detail : Nat) : (finishCmd s c o detail).regions = s.regions := by
  have h := congrArg State.regions (finishCmd_frame s c o detail)
  exact h

/-- What has completed stays so while engines, hosts and module time do. -/
theorem completed_of_later {s u v : State} {c : Cmd} {o : Outc} {detail : Nat} (he : v.eng.engs = u.eng.engs) (hh : v.hosts = u.hosts)
    (ht : nowNs v = nowNs u) (h : completed s u c o detail) : completed s v c o detail := by
  unfold completed at h ⊢
  simp only [getRing, getEng, getHost, he, hh, recordBytes_congr ht] at h ⊢
  exact h

/-! ### Transactions that end (R462, R464) -/

/-- A state without what the ending of a transaction changes: the transactions, the waves asked for, the incident path. -/
def besideTxns (s : State) : State :=
  { s with eng := { s.eng with txns := [] }, lamp := State.reset.lamp, inc := State.reset.inc }

theorem besideTxns_waveTxn (s : State) (tag : Nat) (commit : Bool) (o : Outc) (reason : Nat) :
    besideTxns (waveTxn s tag commit o reason) = besideTxns s := by
  unfold waveTxn
  split <;> rfl

/-- What states share that differ in their transactions, waves and incidents. -/
theorem of_besideTxns {s u : State} (h : besideTxns u = besideTxns s) :
    u.eng.engs = s.eng.engs ∧ u.hosts = s.hosts ∧ u.regions = s.regions ∧ u.flows = s.flows ∧ nowNs u = nowNs s := by
  have he := congrArg (fun v => v.eng.engs) h
  have hh := congrArg State.hosts h
  have hr := congrArg State.regions h
  have hf := congrArg State.flows h
  have ht := congrArg nowNs h
  exact ⟨he, hh, hr, hf, ht⟩

theorem besideTxns_txnTimeout (s : State) (x : Txn) : besideTxns (txnTimeout s x) = besideTxns s := by
  have h := congrArg besideTxns (raiseInc_die_frame s { mkInc 0x0A07 utCd 1 noTile 0 0 with eng := 0x4E } (by decide))
  exact (besideTxns_waveTxn ..).trans h

theorem besideTxns_txnLapse (s : State) : besideTxns (txnLapse s) = besideTxns s :=
  foldl_keeps besideTxns _ _ s besideTxns_txnTimeout

theorem memberFail_own {c : Cmd} (h : c.txh = 0) (s : State) (o : Outc) (reason low : Nat) :
    memberFail s c o reason low = failCmd (txnLapse s) c o reason low := by
  simp only [memberFail, h, beq_self_eq_true, if_true]

/-- A command of no transaction that fails staging completes at once (R460). -/
theorem memberFail_fails {c : Cmd} (h : c.txh = 0) (s : State) (o : Outc) (reason : Nat) :
    completed s (memberFail s c o reason 0) c o (reason * 2 ^ 56) ∧ (memberFail s c o reason 0).regions = s.regions := by
  obtain ⟨-, hh, hr, -, -⟩ := of_besideTxns (besideTxns_txnLapse s)
  rw [memberFail_own h]
  exact ⟨completed_congr (by unfold getRing getHost; rw [hh]) (completed_failCmd ..), (failCmd_regions ..).trans hr⟩

/-! ### What staging leaves of the units' flows -/

@[simp] theorem waveTxn_flows (s : State) (tag : Nat) (commit : Bool) (o : Outc) (reason : Nat) :
    (waveTxn s tag commit o reason).flows = s.flows := by
  obtain ⟨-, -, -, h, -⟩ := of_besideTxns (besideTxns_waveTxn s tag commit o reason)
  exact h

@[simp] theorem txnLapse_flows (s : State) : (txnLapse s).flows = s.flows := by
  obtain ⟨-, -, -, h, -⟩ := of_besideTxns (besideTxns_txnLapse s)
  exact h

@[simp] theorem failCmd_flows (s : State) (c : Cmd) (o : Outc) (reason low : Nat) : (failCmd s c o reason low).flows = s.flows := by
  have h := congrArg State.flows (failCmd_frame s c o reason low)
  exact h

@[simp] theorem txnGo_flows (s : State) (x : Txn) : (txnGo s x).flows = s.flows := by
  unfold txnGo
  extract_lets rs v due
  split
  · exact waveTxn_flows ..
  · split
    · exact waveTxn_flows ..
    · exact foldl_keeps State.flows gateRegion rs v fun _ _ => rfl

@[simp] theorem txnDecide_flows (s : State) (tag : Nat) : (txnDecide s tag).flows = s.flows := by
  unfold txnDecide
  split
  · simp only [apply_ite State.flows, waveTxn_flows, txnGo_flows, ite_self]
  · rfl

@[simp] theorem memberFail_flows (s : State) (c : Cmd) (o : Outc) (reason low : Nat) : (memberFail s c o reason low).flows = s.flows := by
  unfold memberFail
  extract_lets v w
  have hw : w.flows = s.flows := (failCmd_flows ..).trans (txnLapse_flows s)
  split
  · exact hw
  · split
    · split
      · exact (txnDecide_flows ..).trans hw
      · exact (txnDecide_flows ..).trans hw
      · exact hw
    · exact hw

/-- Staging a command changes no queue of a unit. -/
theorem memberStage_flows (s : State) (c : Cmd) (chgs : List Chg) (strict replace : Bool) :
    (memberStage s c chgs strict replace).flows = s.flows := by
  unfold memberStage
  extract_lets v before ts
  have hv : v.flows = s.flows := txnLapse_flows s
  repeat' split
  · exact hv
  · exact (failCmd_flows ..).trans hv
  · exact (memberFail_flows ..).trans hv
  · exact (failCmd_flows ..).trans hv
  · exact (memberFail_flows ..).trans hv
  · exact (failCmd_flows ..).trans hv
  · exact (memberFail_flows ..).trans hv
  · exact (txnDecide_flows ..).trans hv
  · exact (txnDecide_flows ..).trans hv

/-! ### Reading HBM leaves regions and engines (R362, R366) -/

/-- A state without what reading the module's memories changes: the memories and what raising errors changes. -/
def besideReads (s : State) : State :=
  { besideErrors s with wicks := State.reset.wicks, mus := State.reset.mus, msds := State.reset.msds }

theorem besideReads_of_besideErrors {s u : State} (h : besideErrors u = besideErrors s) : besideReads u = besideReads s :=
  congrArg (fun v : State => { v with wicks := State.reset.wicks, mus := State.reset.mus, msds := State.reset.msds }) h

theorem besideReads_raiseInc (s : State) (i : Inc) : besideReads (raiseInc s i) = besideReads s :=
  besideReads_of_besideErrors (besideErrors_raiseInc s i)

theorem besideReads_mirrorFix (s : State) (m w : Nat) : besideReads (mirrorFix s m w).1 = besideReads s := by
  unfold mirrorFix
  extract_lets o x ok r v v1
  split
  · exact besideReads_raiseInc ..
  · rfl

theorem besideReads_memberRead (s : State) (mir : Bool) (m a n : Nat) : besideReads (memberRead s mir m a n).2 = besideReads s := by
  unfold memberRead
  extract_lets v r
  have hv : besideReads v = besideReads s := by
    refine foldl_keeps besideReads _ _ s fun u w => ?_
    extract_lets x
    have hfix : besideReads x.1 = besideReads u := by
      unfold x
      split
      · exact besideReads_mirrorFix ..
      · rfl
    split
    · exact hfix
    · exact (besideReads_raiseInc ..).trans hfix
  show besideReads (hbmRaise _ m _) = _
  unfold hbmRaise
  split
  · exact (besideReads_of_besideErrors (besideErrors_raiseCoal ..)).trans hv
  · exact hv

theorem besideReads_modReadPiece (s : State) (die a n : Nat) : besideReads (modReadPiece s die a n).2.2 = besideReads s := by
  unfold modReadPiece
  split
  · split
    · split
      · rfl
      · exact besideReads_memberRead ..
    · exact besideReads_raiseInc ..
  · split
    · next t u o _ =>
      split
      · rfl
      · split
        · obtain ⟨w, h⟩ := besideErrors_wickRead s t u o n
          exact Eq.trans (b := besideReads (setWick s t u w)) (besideReads_of_besideErrors h) rfl
        · have h := congrArg (fun v : State => { v with wicks := State.reset.wicks, msds := State.reset.msds })
            (besideMus_muRead s t (u - 50) o n)
          exact h
    · exact besideReads_raiseInc ..

theorem besideReads_modRead (s : State) (die a n : Nat) : besideReads (modRead s die a n).2.2 = besideReads s := by
  have step (acc r : List PByte × Outc × State) (hr : besideReads r.2.2 = besideReads acc.2.2) :
      besideReads (if acc.2.1 ≠ .done then acc else (acc.1 ++ r.1, r.2.1, r.2.2)).2.2 = besideReads acc.2.2 := by
    split
    · rfl
    · exact hr
  exact foldl_keeps (fun acc : List PByte × Outc × State => besideReads acc.2.2) _ _ ([], .done, s) fun acc _ =>
    step acc _ (besideReads_modReadPiece ..)

/-- An image is read without change to the regions and the engines. -/
theorem modRead_keeps {s u : State} {die a n : Nat} {bs : List PByte} {o : Outc} (h : modRead s die a n = (bs, o, u)) :
    u.regions = s.regions ∧ u.eng = s.eng := by
  have hb := besideReads_modRead s die a n
  rw [h] at hb
  have hr := congrArg State.regions hb
  have he := congrArg State.eng hb
  exact ⟨hr, he⟩

/-! ### REGION_LOAD (R247, R278, R283) -/

theorem inPhase_congr {u v : State} (h : v.eng = u.eng) {c : Cmd} {ph : CPh} (hp : inPhase u c ph) : inPhase v c ph := by
  unfold inPhase getEng at hp ⊢
  rwa [h]

/-- An image that passes its checks is staged, and its sections set out (R245, R307, R460). -/
theorem loadImage_stages {s : State} {r : Nat} {c : Cmd} {bs : List Byte} {img : Image} (hc : c ∈ (getEng s c.eng).cmds)
    (himg : readImage (ldIlen c) bs = some img) (hok : imageOk s r img = true) :
    let g := getRegion s r
    let v := loadImage s r c bs
    inPhase v c (.stage [.image r img ⟨ldIsp c, cmdWord c 0 2⟩ (ldIlen c) (decide (g.st = .running) || g.heatHeld)]) ∧ v.regions = s.regions := by
  intro g v
  let chgs : List Chg := [.image r img ⟨ldIsp c, cmdWord c 0 2⟩ (ldIlen c) (decide (g.st = .running) || g.heatHeld)]
  let u := toStage s c chgs (img.imgid.toNat * 2 ^ 32)
  have hv : v = img.sections.foldl (fun s x => sendRect s c.eng x.unit x.skind x.fold x.t0 x.t1 x.soff x.data) u := by
    unfold v loadImage
    simp only [himg, hok, Bool.not_true, Bool.false_eq_true, if_false]
    rfl
  have he : v.eng = u.eng := hv ▸ foldl_keeps State.eng _ _ u fun _ _ => rfl
  have hr : v.regions = u.regions := hv ▸ foldl_keeps State.regions _ _ u fun _ _ => rfl
  exact ⟨inPhase_congr he (inPhase_toStage hc chgs _), hr⟩

section
variable {s : State} {r : Fin 64} {c : Cmd}

theorem regionLoad_command (h : nextCmd s r 0x10 = some c) (he : c.eng = r) (hw : regionWaits s r = false) (htx : c.txh = 0) :
    let g := getRegion s r
    let a := cmdWord c 0 2
    let n := ldIlen c
    ∃ v, exec (.regionLoad r) s = .next v ∧
      ((ldIsp c = 3 ∨ a % 64 ≠ 0) → completed s v c .fault (2 * 2 ^ 56) ∧ v.regions = s.regions) ∧
      (ldIsp c < 3 → a % 64 = 0 → (ldIsp c = 0 → n ≠ 0 ∧ inHbm s a = true ∧ inHbm s (a + n - 1) = true) →
        (g.st = .quiescing → g.heatHeld = false → completed s v c .fault (3 * 2 ^ 56) ∧ v.regions = s.regions) ∧
        ((g.st ≠ .quiescing ∨ g.heatHeld = true) → 0 < ldIsp c → inPhase v c .image ∧ { v with eng := s.eng } = s) ∧
        ((g.st ≠ .quiescing ∨ g.heatHeld = true) → ldIsp c = 0 → ∀ bs s1 img, modRead s dieCd a n = (bs, .done, s1) → anyPoi bs = false →
          readImage n (bs.map (·.1)) = some img → imageOk s1 r img = true →
          inPhase v c (.stage [.image r img ⟨0, a⟩ n (decide (g.st = .running) || g.heatHeld)]) ∧ v.regions = s1.regions)) := by
  intro g a n
  have hc : c ∈ (getEng s c.eng).cmds := he ▸ nextCmd_mem h
  refine ⟨_, congrArg Host.Outcome.next (regionRun_some h hw _), fun hbad => ?_, fun hsp ha hin => ?_⟩
  · rw [if_pos (by rcases hbad with h | (h : cmdWord c 0 2 % 64 ≠ 0) <;> simp [h])]
    exact memberFail_fails htx ..
  · have hok : ¬(ldIsp c == 3 || a % 64 != 0 || (ldIsp c == 0 && !(n != 0 && inHbm s a && inHbm s (a + n - 1)))) = true := by
      by_cases h0 : ldIsp c = 0
      · obtain ⟨hn, hlo, hhi⟩ := hin h0
        simp [h0, ha, hn, hlo, hhi]
      · simp [h0, ha, Nat.ne_of_lt hsp]
    rw [if_neg hok]
    have hgo (hq : g.st ≠ .quiescing ∨ g.heatHeld = true) : ¬(decide (g.st = .quiescing) && !g.heatHeld) = true := by
      rcases hq with h | h <;> simp [h]
    refine ⟨fun hq hh => ?_, fun hq h0 => ?_, fun hq h0 bs s1 img hread hpoi himg himgOk => ?_⟩
    · rw [if_pos (by simp [g, hq, hh])]
      exact memberFail_fails htx ..
    · rw [if_neg (hgo hq), if_pos (by simp; omega)]
      exact ⟨inPhase_setPh hc .image, rfl⟩
    · rw [if_neg (hgo hq), if_neg (by simp [h0])]
      obtain ⟨hr, heng⟩ := modRead_keeps hread
      have hc1 : c ∈ (getEng s1 c.eng).cmds := by
        unfold getEng at hc ⊢
        rwa [heng]
      have hload := loadImage_stages (r := r.val) hc1 himg himgOk
      rw [getRegion_congr hr, h0] at hload
      simpa [a, n, hread, hpoi] using hload

/-! ### REGION_START (R247, R283) -/

theorem regionStart_command (h : nextCmd s r 0x11 = some c) (hw : regionWaits s r = false) :
    let g := getRegion s r
    ∃ v, exec (.regionStart r) s = .next v ∧
      ((g.heatHeld = true ∨ (g.st ≠ .drained ∧ g.st ≠ .loaded)) → completed s v c .fault (3 * 2 ^ 56) ∧ v.regions = s.regions) ∧
      (g.heatHeld = false → g.st = .drained → completed s v c .done 0 ∧ getRegion v r = { g with st := .running, gated := false }) ∧
      (g.heatHeld = false → g.st = .loaded → v = memberStage s c [.start r] false false) := by
  intro g
  refine ⟨_, congrArg Host.Outcome.next (regionRun_some h hw _), fun hbad => ?_, fun hh hst => ?_, fun hh hst => ?_⟩
  · rcases hbad with hh | ⟨hd, hl⟩
    · rw [if_pos hh]
      exact failCmd_fails ..
    · rw [if_neg hd, if_neg hl, ite_self]
      exact failCmd_fails ..
  · rw [if_neg (by simp [g, hh]), if_pos hst]
    let u := setRegion s r { g with st := .running, gated := false }
    refine ⟨completed_congr (v := u) rfl (completed_finishCmd u c .done 0), ?_⟩
    exact (getRegion_congr (finishCmd_regions u c .done 0) r).trans (getRegion_setRegion_same ..)
  · rw [if_neg (by simp [g, hh]), if_neg (by simp [g, hst]), if_pos hst]

/-! ### REGION_STOP (R276, R325, Table 16.8) -/

/-- A region that runs or drains and is not frozen stops with its cores and its engine's command (R276). -/
theorem stopRegion_eq {s : State} {r : Nat} (hz : (getRegion s r).frozenAt = none) (h0 : (getRegion s r).st ≠ .empty)
    (h1 : (getRegion s r).st ≠ .stopped) :
    stopRegion s r =
      engStopped (modRegion (stopCores s r) r fun x => { x with st := .stopped, gated := true, drain := none }) r .fault := by
  unfold stopRegion stopRegionAs
  simp only [hz, h0, h1, Option.isSome_none, Bool.false_and, Bool.false_eq_true, decide_false, Bool.or_self, if_false]

/-- A state without its cores. -/
def besideWicks (s : State) : State := { s with wicks := State.reset.wicks }

theorem stopCores_frame (s : State) (r : Nat) : { stopCores s r with wicks := s.wicks } = s := by
  have h : besideWicks (stopCores s r) = besideWicks s := by
    unfold stopCores
    extract_lets g listed v
    refine (foldl_keeps besideWicks _ _ v ?_).trans (foldl_keeps besideWicks _ _ s ?_)
    all_goals exact fun _ _ => rfl
  exact congrArg (fun u : State => { u with wicks := s.wicks }) h

theorem curCmd_congr {s u : State} (h : u.eng.engs = s.eng.engs) (e : Nat) : curCmd u e = curCmd s e := by
  unfold curCmd getEng
  rw [h]

/-- With no command in its engine, the stopping of a region ends transactions only (R280). -/
theorem besideTxns_engStopped {s : State} {r : Nat} (h : curCmd s r = none) (o : Outc) : besideTxns (engStopped s r o) = besideTxns s := by
  unfold engStopped
  extract_lets v
  have hv : besideTxns v = besideTxns s := foldl_keeps besideTxns _ _ s fun _ _ => besideTxns_waveTxn ..
  have hcur : curCmd v r = none := by
    obtain ⟨he, -⟩ := of_besideTxns hv
    rw [curCmd_congr he, h]
  rw [hcur]
  exact hv

/-- The only command of an engine has completed: the engine has none. -/
theorem curCmd_finishCmd {s : State} {c : Cmd} (h : (getEng s c.eng).cmds = [c]) (o : Outc) (detail : Nat) :
    curCmd (finishCmd s c o detail) c.eng = none := by
  have hcmds : (getEng (finishCmd s c o detail) c.eng).cmds = [] := by
    rw [finishCmd, getEng, writeRecord_eng, ← getEng, cmds_modCmds_same, h]
    simp
  unfold curCmd
  rw [hcmds]

/-- A stop that is carried out: the command completes, and the region stops with its inputs gated and its cores stopped (R276). -/
theorem stopRegion_finishCmd {s : State} {c : Cmd} (hl : (getEng s c.eng).cmds = [c]) (hz : (getRegion s c.eng).frozenAt = none)
    (h0 : (getRegion s c.eng).st ≠ .empty) (h1 : (getRegion s c.eng).st ≠ .stopped) :
    let g := getRegion s c.eng
    let v := stopRegion (finishCmd s c .done 0) c.eng
    completed s v c .done 0 ∧ getRegion v c.eng = { g with st := .stopped, gated := true, drain := none } ∧ v.flows = s.flows ∧
      (mwf Wick.reset s.wicks = true → ∀ t k, k < 48 → (k % 2 = 0 ∨ wkLock (getWick s t (k - 1)) = false ∨ (getWick s t (k - 1)).sendb = none) →
        getWick v t k = if inRegion g t then stopWick (cyclesOf s t) (getWick s t k) else getWick s t k) := by
  intro g v
  let f := finishCmd s c .done 0
  let w := modRegion (stopCores f c.eng) c.eng fun x => { x with st := .stopped, gated := true, drain := none }
  have hf : { f with eng := s.eng, hosts := s.hosts } = s := finishCmd_frame ..
  have hg : getRegion f c.eng = g := getRegion_congr (finishCmd_regions ..) _
  have hz' : (getRegion f c.eng).frozenAt = none := by rw [hg, hz]
  have h0' : (getRegion f c.eng).st ≠ .empty := by rw [hg]; exact h0
  have h1' : (getRegion f c.eng).st ≠ .stopped := by rw [hg]; exact h1
  have hs := stopCores_frame f c.eng
  have hsg : getRegion (stopCores f c.eng) c.eng = g := by
    have h := congrArg (fun u => getRegion u c.eng) hs
    exact Eq.trans h hg
  have hw : besideTxns v = besideTxns w := by
    have hcur : curCmd w c.eng = none := by
      have he := congrArg (fun u : State => u.eng.engs) hs
      exact (curCmd_congr (u := w) (s := f) he c.eng).trans (curCmd_finishCmd hl .done 0)
    exact (congrArg besideTxns (stopRegion_eq hz' h0' h1')).trans (besideTxns_engStopped hcur .fault)
  obtain ⟨hve, hvh, hvr, hvf, hvt⟩ := of_besideTxns hw
  refine ⟨?_, ?_, ?_, fun hm t k hk hp => ?_⟩
  · have he := congrArg (fun u : State => u.eng.engs) hs
    have hh := congrArg State.hosts hs
    have ht := congrArg nowNs hs
    exact completed_of_later (hve.trans he) (hvh.trans hh) (hvt.trans ht) (completed_finishCmd s c .done 0)
  · rw [getRegion_congr hvr, ← hsg]
    exact getRegion_setRegion_same ..
  · have hfl := congrArg State.flows hs
    have hff := congrArg State.flows hf
    exact hvf.trans (hfl.trans hff)
  · have hfw : f.wicks = s.wicks := by
      have h := congrArg State.wicks hf
      exact h
    have hft : cyclesOf f t = cyclesOf s t := by
      have h := congrArg (fun u => cyclesOf u t) hf
      exact h
    have hgw (t k : Nat) : getWick f t k = getWick s t k := getWick_congr hfw t k
    have hcores : getWick v t k = getWick (stopCores f c.eng) t k := getWick_congr (stopRegion_wicks hz' h0' h1') t k
    rw [hcores, getWick_stopCores c.eng (by rw [hfw]; exact hm) hk (by simpa only [hgw] using hp), hg, hft, hgw]

theorem regionStop_command (h : nextCmd s r 0x12 = some c) (he : c.eng = r) (hl : (getEng s r).cmds = [c])
    (hown : ownOpen s r = false ∨ (getRegion s r).st = .quiescing) :
    let g := getRegion s r
    ∃ v, exec (.regionStop r) s = .next v ∧
      ((g.st = .empty ∨ g.st = .loaded) → completed s v c .fault (3 * 2 ^ 56) ∧ v.regions = s.regions) ∧
      (g.st = .stopped → completed s v c .done 0 ∧ v.regions = s.regions) ∧
      ((g.st = .running ∨ g.st = .quiescing ∨ g.st = .drained) → g.frozenAt = none → recovering s (rgGrp g) = false →
        completed s v c .done 0 ∧ getRegion v r = { g with st := .stopped, gated := true, drain := none } ∧ v.flows = s.flows ∧
        (mwf Wick.reset s.wicks = true → ∀ t k, k < 48 → (k % 2 = 0 ∨ wkLock (getWick s t (k - 1)) = false ∨ (getWick s t (k - 1)).sendb = none) →
          getWick v t k = if inRegion g t then stopWick (cyclesOf s t) (getWick s t k) else getWick s t k)) ∧
      ((g.st = .running ∨ g.st = .quiescing ∨ g.st = .drained) → g.frozenAt ≠ none →
        inPhase v c (.wave 0) ∧ v.regions = s.regions ∧ ∃ w, v.lamp.pending = s.lamp.pending ++ [w]) := by
  intro g
  have hnow : ¬(ownOpen s r.val && decide (g.st ≠ .quiescing)) = true := by
    rcases hown with h | h <;> simp [g, h]
  have hlive (hst : g.st = .running ∨ g.st = .quiescing ∨ g.st = .drained) : g.st ≠ .empty ∧ g.st ≠ .loaded ∧ g.st ≠ .stopped := by
    rcases hst with h | h | h <;> simp [h]
  refine ⟨_, rfl, fun hst => ?_, fun hst => ?_, fun hst hz hrec => ?_, fun hst hz => ?_⟩
  all_goals simp only [h]
  all_goals rw [if_neg hnow]
  · rw [if_pos (by rcases hst with h | h <;> simp [g, h])]
    exact failCmd_fails ..
  · rw [if_neg (by simp [g, hst]), if_pos hst]
    exact ⟨completed_finishCmd .., finishCmd_regions ..⟩
  · obtain ⟨h0, hl0, h1⟩ := hlive hst
    rw [if_neg (by simp [g, h0, hl0]), if_neg h1, if_neg (by simp [g, hz]), if_neg (by simp [g, hrec])]
    rw [← he] at hl
    have hg : getRegion s c.eng = g := by rw [he]
    have hstop := stopRegion_finishCmd hl (by rw [hg, hz]) (by rw [hg]; exact h0) (by rw [hg]; exact h1)
    rwa [he] at hstop
  · obtain ⟨h0, hl0, h1⟩ := hlive hst
    rw [if_neg (by simp [g, h0, hl0]), if_neg h1, if_pos (Option.isSome_iff_ne_none.2 hz)]
    exact ⟨inPhase_setPh (he ▸ nextCmd_mem h) _, rfl, _, rfl⟩

/-! ### REGION_DRAIN (R275) -/

theorem regionDrain_command (h : nextCmd s r 0x13 = some c) (he : c.eng = r) (hw : regionWaits s r = false) :
    let g := getRegion s r
    ∃ v, exec (.regionDrain r) s = .next v ∧
      (g.st = .drained → completed s v c .done 0 ∧ v.regions = s.regions) ∧
      (g.st = .running → inPhase v c (.drain (nowPs s)) ∧
        getRegion v r = { g with st := .quiescing, gated := true, waiting := false, drain := none } ∧ { v with regions := s.regions, eng := s.eng } = s) ∧
      (g.st ≠ .drained → g.st ≠ .running → completed s v c .fault (3 * 2 ^ 56) ∧ v.regions = s.regions) := by
  intro g
  refine ⟨_, congrArg Host.Outcome.next (regionRun_some h hw _), fun hst => ?_, fun hst => ?_, fun hd hr => ?_⟩
  · rw [if_pos hst]
    exact ⟨completed_finishCmd .., finishCmd_regions ..⟩
  · rw [if_neg (by simp [g, hst]), if_pos hst]
    exact ⟨inPhase_setPh (he ▸ nextCmd_mem h) _, getRegion_setRegion_same .., rfl⟩
  · rw [if_neg hd, if_neg hr]
    exact failCmd_fails ..

/-! ### REGION_RESTART (R277) -/

/-- An entry that a change of every chosen entry has changed, or that is not listed. -/
theorem mget_mmap_chosen {α : Type} [DecidableEq α] (P : α → Prop) {d : α} {p : Nat → Bool} {f : α → α} {k : Nat} (m : SMap α)
    (hp : p k = true) (hd : P d) (hf : ∀ x, P (f x)) : P (mget d (mmap d m p f) k) := by
  induction m with
  | nil => exact hd
  | cons e m ih =>
    obtain ⟨j, x⟩ := e
    rw [mmap_cons]
    by_cases hj : j = k
    · subst hj
      rw [if_pos hp]
      split
      · exact ih
      · rw [mget, if_pos rfl]
        exact hf x
    · by_cases hx : (if p j then f x else x) = d
      · rw [if_pos hx]
        exact ih
      · rw [if_neg hx, mget, if_neg hj]
        exact ih

/-- A queue without its tokens. -/
def tokenless (x : DQ) : DQ := { x with slots := [], ready := [], spill := false }

/-- A unit's flow without the tokens of its queues and spill rings. -/
def emptied (f : Flow) : Flow := { f with queues := mmap DQ.empty f.queues (fun _ => true) tokenless, rings := [] }

theorem getQ_emptied (f : Flow) (q : Nat) : getQ (emptied f) q = mget DQ.empty (mmap DQ.empty f.queues (fun _ => true) tokenless) q := rfl

theorem discardTokens_flows (s : State) (r : Nat) :
    (discardTokens s r).1.flows = mmap Flow.reset s.flows (fun k => inRegion (getRegion s r) (k / 6)) emptied := rfl

/-- The queues and spill rings of a region's units hold nothing after its tokens are discarded (R277). -/
theorem discardTokens_empties {s : State} {r t u : Nat} (hin : inRegion (getRegion s r) t = true) (hu : 48 ≤ u) (hu' : u < 54) (q : Nat) :
    let f := getFlow (discardTokens s r).1 t u
    (getQ f q).slots = [] ∧ (getQ f q).ready = [] ∧ f.rings = [] := by
  have hkey : ukey t u / 6 = t := by
    unfold ukey
    omega
  unfold getFlow
  rw [discardTokens_flows]
  refine mget_mmap_chosen (fun f => (getQ f q).slots = [] ∧ (getQ f q).ready = [] ∧ f.rings = []) s.flows (by rw [hkey]; exact hin)
    ⟨rfl, rfl, rfl⟩ fun f => ?_
  obtain ⟨hslots, hready⟩ : (getQ (emptied f) q).slots = [] ∧ (getQ (emptied f) q).ready = [] := by
    rw [getQ_emptied]
    exact mget_mmap_chosen (fun x : DQ => x.slots = [] ∧ x.ready = []) f.queues rfl ⟨rfl, rfl⟩ fun _ => ⟨rfl, rfl⟩
  exact ⟨hslots, hready, rfl⟩

theorem regionRestart_command (h : nextCmd s r 0x14 = some c) (hw : regionWaits s r = false) :
    let g := getRegion s r
    ∃ v, exec (.regionRestart r) s = .next v ∧
      ((g.heatHeld = true ∨ (g.st ≠ .running ∧ g.st ≠ .drained ∧ g.st ≠ .stopped)) → completed s v c .fault (3 * 2 ^ 56) ∧ v.regions = s.regions) ∧
      (g.heatHeld = false → (g.st = .running ∨ g.st = .drained ∨ g.st = .stopped) → openTxns s c.port < 16 →
        conflicts s 0 (chgTargets s (.restart r)) = false → ∀ t u q, inRegion g t = true → 48 ≤ u → u < 54 →
        (getQ (getFlow v t u) q).slots = [] ∧ (getQ (getFlow v t u) q).ready = [] ∧ (getFlow v t u).rings = []) := by
  intro g
  refine ⟨_, congrArg Host.Outcome.next (regionRun_some h hw _), fun hbad => ?_, fun hh hst hroom hfree t u q hin hu hu' => ?_⟩
  · rw [if_pos (by rcases hbad with h | ⟨h1, h2, h3⟩ <;> simp [g, *])]
    exact failCmd_fails ..
  · rw [if_neg (by rcases hst with h | h | h <;> simp [g, hh, h]), if_neg (Nat.not_le.2 hroom), if_neg (by simp [hfree])]
    extract_lets w d
    have hin' : inRegion (getRegion w r) t = true := by
      unfold w
      split
      · next hrun =>
        have hs : getRegion (stopCores s r) r = g := by
          have h := congrArg (fun v => getRegion v r.val) (stopCores_frame s r)
          exact h
        rw [modRegion_eq, getRegion_setRegion_same, hs]
        simp only [inRegion, Bool.and_eq_true] at hin ⊢
        exact ⟨rfl, hin.2⟩
      · exact hin
    rw [getFlow_congr (memberStage_flows ..)]
    exact discardTokens_empties hin' hu hu' q

/-! ### REGION_STEP (R248, R70) -/

theorem regionStep_command (h : nextCmd s r 0x15 = some c) (he : c.eng = r) (hw : regionWaits s r = false) (htx : c.txh = 0) :
    let g := getRegion s r
    ∃ v, exec (.regionStep r) s = .next v ∧
      (g.st = .empty → completed s v c .fault (3 * 2 ^ 56) ∧ v.regions = s.regions) ∧
      (g.st ≠ .empty → (g.st ≠ .quiescing ∨ g.heatHeld = true) → (∃ x ∈ (getEng s r).cmds, x.id = c.id) →
        inPhase v c (.stage [.step r (BitVec.ofNat 32 (bits (cmdWord c 0 2) 0 32))]) ∧ { v with eng := s.eng } = s) := by
  intro g
  refine ⟨_, congrArg Host.Outcome.next (regionRun_some h hw _), fun hst => ?_, fun hst hq _ => ?_⟩
  · rw [if_pos hst]
    exact memberFail_fails htx ..
  · rw [if_neg hst, if_neg (by rcases hq with h | h <;> simp [g, h])]
    exact ⟨inPhase_toStage (he ▸ nextCmd_mem h) _ _, rfl⟩

/-! ### PHASE (R466, R467) -/

theorem fieldReq_congr {s u : State} (h : u.regions = s.regions) (f : Nat) : fieldReq u f = fieldReq s f := by
  unfold fieldReq fieldRegions
  rw [h]

/-- A field is asked for the point of its regions' preferences, and what it was granted before no longer counts. -/
def askPoint (s : State) (f : Nat) : State := modField s f fun x => { x with opreq := fieldReq s f, grant := none }

theorem askPoints_frame (s : State) (fs : List Nat) : { fs.foldl askPoint s with fields := s.fields } = s :=
  foldl_keeps (fun u : State => { u with fields := s.fields }) askPoint fs s fun _ _ => rfl

/-- Every field that is asked holds the request of its regions. -/
theorem askPoints_asked (s : State) (fs : List Nat) :
    ∀ f ∈ fs, (getField (fs.foldl askPoint s) f).opreq = fieldReq s f ∧ (getField (fs.foldl askPoint s) f).grant = none := by
  induction fs using List.reverseRecOn with
  | nil => nofun
  | append_singleton l f' ih =>
    intro f hf
    have hr := congrArg State.regions (askPoints_frame s l)
    rw [List.foldl_append, List.foldl_cons, List.foldl_nil, askPoint, modField_eq]
    by_cases hff : f = f'
    · subst hff
      rw [getField_setField_same]
      exact ⟨fieldReq_congr hr f, rfl⟩
    · rw [getField_setField_other _ _ _ _ hff]
      exact ih f (by simpa [hff] using hf)

theorem phase_command (h : nextCmd s r 0x16 = some c) (he : c.eng = r) (hw : regionWaits s r = false) :
    let g := getRegion s r
    let w := cmdWord c 0 2
    ∃ v, exec (.phase r) s = .next v ∧
      (g.st = .empty → completed s v c .fault (3 * 2 ^ 56) ∧ v.regions = s.regions) ∧
      (g.st ≠ .empty → (g.st ≠ .quiescing ∨ g.heatHeld = true) → (∃ x ∈ (getEng s r).cmds, x.id = c.id) →
        getRegion v r = { g with phasePref := some (bits w 0 2), phaseLat := bit w 7 } ∧
        (∀ f ∈ regionFields g, (getField v f).opreq = fieldReq v f ∧ (getField v f).grant = none) ∧
        inPhase v c (.settle (nowPs s + 20000000000 - (nowNs s - c.atime) * 1000))) := by
  intro g w
  refine ⟨_, congrArg Host.Outcome.next (regionRun_some h hw _), fun hst => ?_, fun hst hq _ => ?_⟩
  · rw [if_pos hst]
    exact failCmd_fails ..
  · rw [if_neg hst, if_neg (by rcases hq with h | h <;> simp [g, h])]
    let u := setRegion s r { g with phasePref := some (bits w 0 2), phaseLat := bit w 7 }
    let a := (regionFields g).foldl askPoint u
    have hframe : { a with fields := u.fields } = u := askPoints_frame u _
    have hr : a.regions = u.regions := by
      have h := congrArg State.regions hframe
      exact h
    have hc : c ∈ (getEng a c.eng).cmds := by
      have hcmds : (getEng a c.eng).cmds = (getEng s c.eng).cmds := by
        have h := congrArg (fun v => (getEng v c.eng).cmds) hframe
        exact h
      rw [hcmds, he]
      exact nextCmd_mem h
    have hnow : nowPs a = nowPs s ∧ nowNs a = nowNs s := by
      have hp := congrArg nowPs hframe
      have hn := congrArg nowNs hframe
      exact ⟨hp, hn⟩
    refine ⟨(getRegion_congr hr r).trans (getRegion_setRegion_same ..), fun f hf => ?_, ?_⟩
    · obtain ⟨hreq, hgrant⟩ := askPoints_asked u (regionFields g) f hf
      exact ⟨hreq.trans (fieldReq_congr hr f).symm, hgrant⟩
    · rw [← hnow.1, ← hnow.2]
      exact inPhase_setPh hc _

theorem phaseComplete_command {due : Nat} (h : curCmd s r = some c) (hph : c.ph = .settle due) :
    let g := getRegion s r
    let fs := regionFields g
    let s1 := if fs.all (fieldSettled s) then s else reachPs s due
    let ops := fs.map fun f => (getField s f).opcur
    let good := (ops.filter fun o => decide (o ≤ prefOf g)).length
    let given := fs.map fun f => (getField s f).grant.getD (getField s f).opcur
    let det := given.foldl min 3 + given.foldl max 0 * 4 + good * 2 ^ 8 + fs.length * 2 ^ 24
    ∃ v, exec (.phaseComplete r) s = .next v ∧ v.regions = s.regions ∧ v.fields = s.fields ∧
      (good = fs.length → completed s1 v c .done det) ∧
      (good = 0 → fs.length ≠ 0 → completed s1 v c .refusedQuota (det % 2 ^ 56)) ∧
      (good ≠ 0 → good ≠ fs.length → completed s1 v c .partly (det % 2 ^ 56)) := by
  intro g fs s1 ops good given det
  have hs1 : s1.regions = s.regions ∧ s1.fields = s.fields := by
    unfold s1
    split <;> exact ⟨rfl, rfl⟩
  have hfield (f : Nat) : getField s1 f = getField s f := congrArg (fun m => mget FieldSt.reset m f) hs1.2
  have hx : exec (.phaseComplete r) s =
      .next (if good = fs.length then finishCmd s1 c .done det else failCmd s1 c (if good = 0 then .refusedQuota else .partly) 0 det) := by
    show execPhaseComplete r s = _
    unfold execPhaseComplete
    have hf (f : Nat) :
        getField (if (regionFields (getRegion s r.val)).all (fieldSettled s) then s else reachPs s due) f = getField s f := hfield f
    simp only [h, hph, hf, beq_iff_eq]
    rfl
  have hfail (o : Outc) : completed s1 (failCmd s1 c o 0 det) c o (det % 2 ^ 56) := by
    rw [failCmd, Nat.zero_mul, Nat.zero_add]
    exact completed_finishCmd ..
  refine ⟨_, hx, ?_, ?_, fun hall => ?_, fun h0 hn => ?_, fun h0 hn => ?_⟩
  · split
    · exact (finishCmd_regions ..).trans hs1.1
    · exact (failCmd_regions ..).trans hs1.1
  · split
    · have h := congrArg State.fields (finishCmd_frame s1 c .done det)
      exact h.trans hs1.2
    · have h := congrArg State.fields (failCmd_frame s1 c (if good = 0 then .refusedQuota else .partly) 0 det)
      exact h.trans hs1.2
  · rw [if_pos hall]
    exact completed_finishCmd ..
  · rw [if_neg (by omega), if_pos h0]
    exact hfail _
  · rw [if_neg hn, if_neg h0]
    exact hfail _

end

/-- Settles O22: each clause is the lemma above about its command. -/
theorem regionCommands : Obligations.RegionCommands :=
  ⟨fun _ _ _ h he hw htx => regionLoad_command h he hw htx, fun _ _ _ h _ hw => regionStart_command h hw,
    fun _ _ _ h he hl hown => regionStop_command h he hl hown, fun _ _ _ h he hw => regionDrain_command h he hw,
    fun _ _ _ h _ hw => regionRestart_command h hw, fun _ _ _ h he hw htx => regionStep_command h he hw htx,
    fun _ _ _ h he hw => phase_command h he hw, fun _ _ _ _ h hph _ => phaseComplete_command h hph⟩

end Sys2Proof.Machine
end

section
/-!
PROOFS. Links of the mesh (R289, R294, R295, R316, Table 9.7): what an update of a tile or a link leaves, retries, and training.
-/
namespace Sys2Proof.Machine
open Sys2Proof

/-! ### Tiles and links: a read after a write -/

theorem getTile_modTile (s : State) (t : Nat) (f : Tile → Tile) (i : Nat) :
    getTile (modTile s t f) i = if i = t then f (getTile s t) else getTile s i := mget_mset ..

theorem getTile_modTile_same (s : State) (t : Nat) (f : Tile → Tile) : getTile (modTile s t f) t = f (getTile s t) := getTile_setTile_same ..

theorem getTile_congr {s u : State} (h : u.tiles = s.tiles) (t : Nat) : getTile u t = getTile s t := congrArg (fun m => mget Tile.reset m t) h

/-- What the change of a tile keeps of it, it keeps of every tile. -/
theorem getTile_modTile_keeps {β : Type} (π : Tile → β) {f : Tile → Tile} (hf : ∀ x, π (f x) = π x) (s : State) (t i : Nat) :
    π (getTile (modTile s t f) i) = π (getTile s i) := by
  rw [getTile_modTile]
  split
  · next e => rw [e, hf]
  · rfl

theorem getLink_congr {s u : State} {t : Nat} (h : (getTile u t).links = (getTile s t).links) (p n : Nat) : getLink u t p n = getLink s t p n :=
  congrArg (fun m => mget Link.ok m (p + 8 * n)) h

theorem getLink_modTile_keeps {f : Tile → Tile} (hf : ∀ x, (f x).links = x.links) (s : State) (t i p n : Nat) :
    getLink (modTile s t f) i p n = getLink s i p n := getLink_congr (getTile_modTile_keeps Tile.links hf s t i) p n

theorem getLink_modLink_same (s : State) (t p n : Nat) (f : Link → Link) : getLink (modLink s t p n f) t p n = f (getLink s t p n) := by
  unfold getLink modLink
  rw [getTile_modTile_same]
  exact mget_mset_same ..

theorem getLink_modLink_other (s : State) (t p n t' p' n' : Nat) (f : Link → Link) (h : ¬(t' = t ∧ p' + 8 * n' = p + 8 * n)) :
    getLink (modLink s t p n f) t' p' n' = getLink s t' p' n' := by
  unfold getLink modLink
  rw [getTile_modTile]
  split
  · next e =>
    rw [e]
    exact mget_mset_other _ _ _ _ _ fun hk => h ⟨e, hk⟩
  · rfl

theorem modLink_hold (s : State) (t p n t' : Nat) (f : Link → Link) : (getTile (modLink s t p n f) t').hold = (getTile s t').hold :=
  getTile_modTile_keeps Tile.hold (fun _ => by rfl) s t t'

/-! ### Holding a link (R295) -/

theorem bit_holdBit_same (w : W32) {p : Nat} (hp : p < 32) (on : Bool) :
    bit (BitVec.ofNat 32 (setBits w.toNat p 1 (ofBit on))).toNat p = on := by
  rw [BitVec.toNat_ofNat, Nat.mod_eq_of_lt (setBits_lt _ _ _ _ _ w.isLt (by omega)), bit_setBits, if_neg (by omega), if_pos (by omega), Nat.sub_self]
  cases on <;> rfl

theorem bit_holdBit_other (w : W32) {p i : Nat} (hp : p < 32) (hi : i ≠ p) (v : Nat) :
    bit (BitVec.ofNat 32 (setBits w.toNat p 1 v)).toNat i = bit w.toNat i := by
  rw [BitVec.toNat_ofNat, Nat.mod_eq_of_lt (setBits_lt _ _ _ _ _ w.isLt (by omega)), bit_setBits]
  split
  · rfl
  · exact if_neg (by omega)

theorem enters_lt (p : Nat) : enters p < 4 := by
  unfold enters
  split <;> decide

theorem enters_ne {p : Nat} (h : p < 4) : enters p ≠ p := by
  interval_cases p <;> decide

/-- Both ends of a link are held, or released. -/
theorem bit_holdLink {p : Nat} (hp : p < 4) (s : State) (t : Nat) (on : Bool) :
    bit (getTile (holdLink s t p on) t).hold.toNat p = on ∧
      bit (getTile (holdLink s t p on) (neighbour t p)).hold.toNat (enters p) = on := by
  have he := enters_lt p
  unfold holdLink
  extract_lets set
  refine ⟨?_, ?_⟩
  · show bit (getTile (modTile (set s t p) (neighbour t p) _) t).hold.toNat p = on
    have hs : bit (getTile (set s t p) t).hold.toNat p = on := by
      show bit (getTile (modTile s t _) t).hold.toNat p = on
      rw [getTile_modTile_same]
      exact bit_holdBit_same _ (by omega) on
    rw [getTile_modTile]
    split
    · next e =>
      rw [← e]
      exact (bit_holdBit_other _ (by omega) (enters_ne hp).symm _).trans hs
    · exact hs
  · show bit (getTile (modTile (set s t p) (neighbour t p) _) (neighbour t p)).hold.toNat (enters p) = on
    rw [getTile_modTile_same]
    exact bit_holdBit_same _ (by omega) on

theorem getLink_holdLink (s : State) (t p : Nat) (on : Bool) (t' p' n' : Nat) : getLink (holdLink s t p on) t' p' n' = getLink s t' p' n' :=
  (getLink_modTile_keeps (fun _ => by rfl) _ _ _ _ _).trans (getLink_modTile_keeps (fun _ => by rfl) s t _ _ _)

/-- Holding a link and changing it change the routers and nothing else. -/
theorem holdLink_frame (s : State) (t p : Nat) (on : Bool) : { holdLink s t p on with tiles := s.tiles } = s := rfl
theorem modLink_frame (s : State) (t p n : Nat) (f : Link → Link) : { modLink s t p n f with tiles := s.tiles } = s := rfl

/-! ### Retries (R294) -/

/-- A coalesced incident with no window of its own is raised (R502). -/
theorem raised_raiseCoal {s : State} {i : Inc}
    (h : ∀ w ∈ s.inc.windows, ¬(w.cls = i.cls ∧ w.die = i.die ∧ w.utyp = i.utyp ∧ w.tile = i.tile ∧ w.uidx = i.uidx)) :
    raised s (raiseCoal s i) (incSource i) i.cls i.uidx i.detail := by
  have e : raiseCoal s i = raiseInc (windowOpened s i) i := by
    unfold raiseCoal
    refine if_neg ?_
    simp only [List.any_eq_true, not_exists, not_and, Bool.and_eq_true, beq_iff_eq]
    rintro w hw ⟨⟨⟨hc, hd⟩, hu⟩, ht⟩ hx
    exact h w hw ⟨hc, hd, hu, ht, hx⟩
  rw [e]
  exact raised_raiseInc (windowOpened s i) i

/-- A retry is counted on its link alone and raises 0x0601 at the far end (R294). -/
theorem linkRetry_command (s : State) (t : TileId) (port : Fin 4) (ctl : Bool) :
    let net := if ctl then 1 else 0
    let l := getLink s t port net
    let far := neighbour t port
    l.training = false → l.failed = false →
    (∀ w ∈ s.inc.windows, ¬(w.cls = 0x0601 ∧ w.die = 0 ∧ w.utyp = utRouter ∧ w.tile = far ∧ w.uidx = enters port)) →
    ∃ u, exec (.linkRetry t port ctl) s = .next u ∧ getLink u t port net = { l with retries := satAdd 48 l.retries 1, window := l.window + 1 } ∧
      (∀ t' p' n', p' < 8 → ¬(t' = t.val ∧ p' = port.val ∧ n' = net) → getLink u t' p' n' = getLink s t' p' n') ∧
      raised s u far 0x0601 (enters port) (BitVec.ofNat 64 (port + 8 * net)) := by
  intro net l far htr hf hw
  let v := modLink s t port net fun l => { l with retries := satAdd 48 l.retries 1, window := l.window + 1 }
  let i := mkInc 0x0601 utRouter 0 far (enters port) (port + 8 * net)
  have hx : exec (.linkRetry t port ctl) s = .next (raiseCoal v i) :=
    if_neg (by rw [htr, hf]; exact Bool.false_ne_true)
  have hlink (t' p' n' : Nat) : getLink (raiseCoal v i) t' p' n' = getLink v t' p' n' :=
    getLink_congr (congrArg Tile.links (getTile_congr (raiseCoal_tiles v i) t')) p' n'
  refine ⟨_, hx, (hlink ..).trans (getLink_modLink_same ..), fun t' p' n' hp hne => (hlink ..).trans ?_, raised_congr rfl rfl rfl (raised_raiseCoal (s := v) (i := i) hw)⟩
  refine getLink_modLink_other _ _ _ _ _ _ _ _ fun ⟨ht, hk⟩ => hne ⟨ht, ?_⟩
  have := port.isLt
  omega

/-! ### Training (R295) -/

theorem linkRetrain_command (s : State) (t : TileId) (port : Fin 4) (ctl : Bool) :
    let net := if ctl then 1 else 0
    let l := getLink s t port net
    16 < l.window → l.training = false → l.failed = false →
    ∃ u, exec (.linkRetrain t port ctl) s = .next u ∧ getLink u t port net = { l with training := true } ∧
      bit (getTile u t).hold.toNat port = true ∧ bit (getTile u (neighbour t port)).hold.toNat (enters port) = true ∧
      { u with tiles := s.tiles } = s := by
  intro net l hwin htr hf
  let v := holdLink s t port true
  have hstart : ¬(decide (l.window ≤ 16) || l.training || l.failed) = true := by
    rw [htr, hf, Bool.or_false, Bool.or_false, decide_eq_true_eq]
    exact Nat.not_le.2 hwin
  have hx : exec (.linkRetrain t port ctl) s = .next (modLink v t port net fun l => { l with training := true }) := by
    show execLinkRetrain t port ctl s = _
    unfold execLinkRetrain
    exact if_neg hstart
  obtain ⟨hnear, hfar⟩ := bit_holdLink port.isLt s t true
  refine ⟨_, hx, ?_, ?_, ?_, holdLink_frame s t port true⟩
  · rw [getLink_modLink_same, getLink_holdLink]
  · rw [modLink_hold]
    exact hnear
  · rw [modLink_hold]
    exact hfar

theorem linkRetrainDone_idle (s : State) (t : TileId) (port : Fin 4) (ctl : Bool)
    (h : (getLink s t port (if ctl then 1 else 0)).training = false) (bad : List (Nat × Nat)) : exec (.linkRetrainDone t port ctl bad) s = .next s :=
  if_pos (by rw [h]; rfl)

/-- A fold whose steps do nothing but for one number is the step of that number. -/
theorem foldl_range_single {σ : Type} {f : σ → Nat → σ} {g n : Nat} (hg : g < n) (hf : ∀ s i, i ≠ g → f s i = s) (s : σ) :
    (List.range n).foldl f s = f s g := by
  induction n with
  | zero => omega
  | succ n ih =>
    rw [List.range_succ, List.foldl_append]
    rcases Nat.lt_succ_iff_lt_or_eq.1 hg with h | rfl
    · rw [ih h]
      exact hf _ _ (by omega)
    · have hid : (List.range g).foldl f s = s :=
        List.foldlRecOn (motive := (· = s)) _ f rfl fun u hu i hi => (hf u i (by rw [List.mem_range] at hi; omega)).trans hu
      rw [hid]
      rfl

/-- The lanes of a group that a test has found to fail. -/
def lanesOf (bad : List (Nat × Nat)) (g : Nat) : List Nat := ((bad.filter (·.1 == g)).map (·.2 % 32)).eraseDups

/-- The link as the end of its training leaves it. -/
def trained (s : State) (t p n : Nat) : State :=
  holdLink (modLink s t p n fun l => { l with training := false, window := 0, flits := 0 }) t p false

/-- A test that finds failed lanes in one group at most repairs that group. -/
theorem exec_linkRetrainDone {s : State} {t : TileId} {port : Fin 4} {ctl : Bool} {bad : List (Nat × Nat)} {g : Nat}
    (htr : (getLink s t port (if ctl then 1 else 0)).training = true) (hf : (getLink s t port (if ctl then 1 else 0)).failed = false)
    (hg : g < if ctl then 4 else 32) (hbad : ∀ x ∈ bad, x.1 = g) :
    exec (.linkRetrainDone t port ctl bad) s =
      .next (trained (repairGroup s t port (if ctl then 1 else 0) g (lanesOf bad g)) t port (if ctl then 1 else 0)) := by
  show execLinkRetrainDone t port ctl bad s = _
  unfold execLinkRetrainDone
  extract_lets net l groups v
  have hv : v = repairGroup s t port net g (lanesOf bad g) := by
    refine (foldl_range_single hg (fun u i hi => ?_) s).trans ?_
    · have hnone : bad.filter (·.1 == i) = [] := by
        rw [List.filter_eq_nil_iff]
        intro x hx
        simp [hbad x hx, hi.symm]
      simp only [hnone, List.map_nil, List.eraseDups_nil, repairGroup, ite_self]
    · exact if_neg (by rw [hf]; exact Bool.false_ne_true)
  show (if (!l.training) = true then _ else Host.Outcome.next (trained v t port net)) = _
  rw [if_neg (by rw [htr]; exact Bool.false_ne_true), hv]

theorem getLink_trained (s : State) (t p n : Nat) :
    getLink (trained s t p n) t p n = { getLink s t p n with training := false, window := 0, flits := 0 } := by
  rw [trained, getLink_holdLink, getLink_modLink_same]

theorem trained_inc (s : State) (t p n : Nat) : (trained s t p n).inc = s.inc := by
  have hh := congrArg State.inc (holdLink_frame (modLink s t p n fun l => { l with training := false, window := 0, flits := 0 }) t p false)
  have hm := congrArg State.inc (modLink_frame s t p n fun l => { l with training := false, window := 0, flits := 0 })
  exact hh.trans hm

theorem trained_boot (s : State) (t p n : Nat) : (trained s t p n).boot = s.boot := by
  have hh := congrArg State.boot (holdLink_frame (modLink s t p n fun l => { l with training := false, window := 0, flits := 0 }) t p false)
  have hm := congrArg State.boot (modLink_frame s t p n fun l => { l with training := false, window := 0, flits := 0 })
  exact hh.trans hm

/-- A link is free of its training: no retry is counted in its window and neither end is held (R295). -/
def linkReleased (u : State) (t p n : Nat) : Prop :=
  (getLink u t p n).training = false ∧ (getLink u t p n).window = 0 ∧
    bit (getTile u t).hold.toNat p = false ∧ bit (getTile u (neighbour t p)).hold.toNat (enters p) = false

theorem linkReleased_trained {p : Nat} (hp : p < 4) (s : State) (t n : Nat) : linkReleased (trained s t p n) t p n := by
  unfold linkReleased
  rw [getLink_trained]
  exact ⟨rfl, rfl, bit_holdLink hp _ t false⟩

/-! ### Spares and repair records (R295, R316, Table 9.7) -/

theorem lanesOf_one {a : Nat} (ha : a < 32) (g : Nat) : lanesOf [(g, a)] g = [a] := by
  simp [lanesOf, Nat.mod_eq_of_lt ha, List.eraseDups_cons]

theorem lanesOf_two {a b : Nat} (ha : a < 32) (hb : b < 32) (hab : a ≠ b) (g : Nat) : lanesOf [(g, a), (g, b)] g = [a, b] := by
  simp [lanesOf, Nat.mod_eq_of_lt ha, Nat.mod_eq_of_lt hb, List.eraseDups_cons, hab.symm]

/-- A repair record of type 2 names its group and its lane (Table 9.7). -/
theorem repairRec_fields {t p n g a : Nat} (ht : t < 11000) (hp : p < 4) (hn : n < 2) (hg : g < 32) (ha : a < 32) (s : State) :
    let w := repairRec s 2 t p n g a
    bits w.toNat 60 4 = 2 ∧ bits w.toNat 37 5 = g ∧ bits w.toNat 32 5 = a := by
  have hfield : fieldOf t < 100 := by unfold fieldOf tileX tileY; omega
  have hrow : frowOf t < 11 := by unfold frowOf tileY; omega
  have hcol : physCol s t < 16 := by unfold physCol fcolOf tileX; split <;> omega
  intro w
  have hw : w.toNat = 2 * 2 ^ 60 + fieldOf t * 2 ^ 53 + frowOf t * 2 ^ 49 + physCol s t * 2 ^ 45 + p * 2 ^ 43 + n * 2 ^ 42 + g * 2 ^ 37 +
      a * 2 ^ 32 + 2 ^ 31 := by
    unfold w repairRec
    rw [BitVec.toNat_ofNat, Nat.mod_eq_of_lt (by omega)]
  rw [hw]
  simp only [bits, Nat.shiftRight_eq_div_pow]
  generalize fieldOf t = x at *
  generalize frowOf t = y at *
  generalize physCol s t = z at *
  omega

/-- One failed lane takes the spare of its group. -/
theorem repairGroup_spare {s : State} {t p n g a : Nat} (h : mget false (getLink s t p n).spares g = false) :
    repairGroup s t p n g [a] =
      addRepair (raiseInc (modLink s t p n fun l => { l with spares := mset false l.spares g true }) (mkInc 0x0602 utRouter 0 t p (g * 32 + a)))
        (repairRec (modLink s t p n fun l => { l with spares := mset false l.spares g true }) 2 t p n g a) := by
  refine if_pos ?_
  rw [h]
  rfl

/-- Two failed lanes of a group fail the link where no seam spares are left. -/
theorem repairGroup_fails {s : State} {t p n g a b : Nat} (h : atSeam t p = false ∨ (getLink s t p n).seam = true) :
    repairGroup s t p n g [a, b] =
      raiseInc (modLink s t p n fun l => { l with failed := true }) (mkInc 0x0604 utRouter 0 t p (g * 32 + a)) := by
  refine if_neg ?_
  rcases h with h | h <;> simp [h]

theorem raiseInc_boot (s : State) (i : Inc) : (raiseInc s i).boot = s.boot := by
  have h := congrArg State.boot (raiseInc_frame s i)
  exact h

theorem getLink_raiseInc (s : State) (i : Inc) (t p n : Nat) : getLink (raiseInc s i) t p n = getLink s t p n :=
  getLink_congr (congrArg Tile.links (getTile_congr (raiseInc_tiles s i) t)) p n

theorem addRepair_boot (s : State) (w : W64) : (addRepair s w).boot.birth = s.boot.birth ++ [w] := rfl
theorem addRepair_inc (s : State) (w : W64) : (addRepair s w).inc = s.inc := rfl

section
variable {s : State} {t : TileId} {port : Fin 4} {ctl : Bool} {net g a : Nat} (hnet : (if ctl then 1 else 0) = net)
  (htr : (getLink s t port net).training = true) (hf : (getLink s t port net).failed = false)
  (hg : g < if ctl then 4 else 32) (ha : a < 32)
include hnet htr hf hg

/-- A test that finds no failed lane releases the link. -/
theorem linkRetrainDone_good :
    ∃ u, exec (.linkRetrainDone t port ctl []) s = .next u ∧ linkReleased u t port net ∧ (getLink u t port net).failed = false ∧
      u.boot = s.boot ∧ u.inc = s.inc := by
  subst hnet
  refine ⟨_, exec_linkRetrainDone htr hf hg nofun, linkReleased_trained port.isLt _ _ _, ?_, trained_boot .., trained_inc ..⟩
  rw [getLink_trained]
  exact hf

include ha

/-- One failed lane takes the spare of its group, with 0x0602 and a repair record. -/
theorem linkRetrainDone_spare (hsp : mget false (getLink s t port net).spares g = false) :
    ∃ u, exec (.linkRetrainDone t port ctl [(g, a)]) s = .next u ∧ linkReleased u t port net ∧
      (getLink u t port net).failed = false ∧ mget false (getLink u t port net).spares g = true ∧
      raised s u t 0x0602 port (BitVec.ofNat 64 (g * 32 + a)) ∧
      (∃ w, u.boot.birth = s.boot.birth ++ [w] ∧ bits w.toNat 60 4 = 2 ∧ bits w.toNat 37 5 = g ∧ bits w.toNat 32 5 = a) := by
  have hn : net < 2 := by rw [← hnet]; split <;> decide
  have hg32 : g < 32 := hg.trans_le (by split <;> decide)
  let v := modLink s t port net fun l => { l with spares := mset false l.spares g true }
  let i := mkInc 0x0602 utRouter 0 t port (g * 32 + a)
  let w := repairRec v 2 t port net g a
  have hx : exec (.linkRetrainDone t port ctl [(g, a)]) s = .next (trained (addRepair (raiseInc v i) w) t port net) := by
    subst hnet
    rw [exec_linkRetrainDone htr hf hg (by simp), lanesOf_one ha, repairGroup_spare hsp]
  have hlink : getLink (addRepair (raiseInc v i) w) t port net =
      { getLink s t port net with spares := mset false (getLink s t port net).spares g true } :=
    (getLink_raiseInc v i t port net).trans (getLink_modLink_same ..)
  have hboot : (raiseInc v i).boot = s.boot := raiseInc_boot v i
  have hinc : (trained (addRepair (raiseInc v i) w) t port net).inc = (raiseInc v i).inc := (trained_inc ..).trans (addRepair_inc ..)
  refine ⟨_, hx, linkReleased_trained port.isLt _ _ _, ?_, ?_, raised_congr (s := v) rfl rfl hinc (raised_raiseInc v i),
    w, ?_, repairRec_fields t.isLt port.isLt hn hg32 ha v⟩
  · rw [getLink_trained, hlink]
    exact hf
  · rw [getLink_trained, hlink]
    exact mget_mset_same _ (getLink s t port net).spares g true
  · rw [trained_boot, addRepair_boot, hboot]

/-- Two failed lanes of a group fail the link where no seam spares are left: 0x0604, and no record. -/
theorem linkRetrainDone_fails {b : Nat} (hb : b < 32) (hab : a ≠ b) (hseam : atSeam t port = false ∨ (getLink s t port net).seam = true) :
    ∃ u, exec (.linkRetrainDone t port ctl [(g, a), (g, b)]) s = .next u ∧ linkReleased u t port net ∧
      (getLink u t port net).failed = true ∧ raised s u t 0x0604 port (BitVec.ofNat 64 (g * 32 + a)) ∧ u.boot = s.boot := by
  let v := modLink s t port net fun l => { l with failed := true }
  let i := mkInc 0x0604 utRouter 0 t port (g * 32 + a)
  have hx : exec (.linkRetrainDone t port ctl [(g, a), (g, b)]) s = .next (trained (raiseInc v i) t port net) := by
    subst hnet
    rw [exec_linkRetrainDone htr hf hg (by simp), lanesOf_two ha hb hab, repairGroup_fails hseam]
  have hlink : getLink (raiseInc v i) t port net = { getLink s t port net with failed := true } :=
    (getLink_raiseInc v i t port net).trans (getLink_modLink_same ..)
  refine ⟨_, hx, linkReleased_trained port.isLt _ _ _, ?_, raised_congr (s := v) rfl rfl (trained_inc ..) (raised_raiseInc v i), ?_⟩
  · rw [getLink_trained, hlink]
  · rw [trained_boot]
    exact raiseInc_boot v i

end

end Sys2Proof.Machine
end

section
/-!
PROOFS. Mesh domains that fail, and table changes (R314, R320, R506, Table 9.8).
-/
namespace Sys2Proof.Machine
open Sys2Proof

/-- What a step of a fold brings about, and the others keep, holds after the fold. -/
theorem foldl_establishes {σ α : Type} {Q : σ → Prop} {f : σ → α → σ} {l : List α} {a : α} (ha : a ∈ l) (hset : ∀ s, Q (f s a))
    (hkeep : ∀ s b, Q s → Q (f s b)) (s : σ) : Q (l.foldl f s) := by
  obtain ⟨pre, post, rfl⟩ := List.append_of_mem ha
  rw [List.foldl_append, List.foldl_cons]
  exact List.foldlRecOn (motive := Q) post f (hset _) fun u hu b _ => hkeep u b hu

/-! ### A mesh domain fails (R314, R506) -/

/-- A state without what the stops and fences of Mantle change beside the tiles: the port dies, Mantle, what the stop of a region changes, and the
incident path. -/
def besideMantle (s : State) : State :=
  { besideStop s with pds := State.reset.pds, mantle := State.reset.mantle, inc := State.reset.inc }

theorem of_besideMantle {s u : State} (h : besideMantle u = besideMantle s) : u.tiles = s.tiles ∧ u.fields = s.fields := by
  have ht := congrArg State.tiles h
  have hf := congrArg State.fields h
  exact ⟨ht, hf⟩

theorem besideMantle_of_besideStop {s u : State} (h : besideStop u = besideStop s) : besideMantle u = besideMantle s :=
  congrArg (fun v : State => { v with pds := State.reset.pds, mantle := State.reset.mantle, inc := State.reset.inc }) h

theorem besideMantle_setPd (s : State) (d : Nat) (x : Pd) : besideMantle (setPd s d x) = besideMantle s := rfl
theorem besideMantle_modMantle (s : State) (f : Mantle → Mantle) : besideMantle (modMantle s f) = besideMantle s := rfl

theorem besideMantle_portCount (s : State) (d p i : Nat) : besideMantle (portCount s d p i) = besideMantle s := besideMantle_setPd ..

theorem besideMantle_logAdd (s : State) (d : Nat) (jn : Bool) (data : List Byte) (mark : Option Nat) (supp : Bool) :
    besideMantle (logAdd s d jn data mark supp) = besideMantle s := by
  unfold logAdd
  extract_lets l
  split
  · rfl
  · exact besideMantle_setPd ..

theorem besideMantle_pdSettle (s : State) (d : Nat) : besideMantle (pdSettle s d) = besideMantle s := by
  unfold pdSettle pdLogEvents
  extract_lets x done v
  have hv : besideMantle v = besideMantle s := (besideMantle_setPd ..).trans (besideMantle_setPd ..)
  refine (foldl_keeps besideMantle _ done v fun u e => ?_).trans hv
  split
  · simp only [apply_ite besideMantle, besideMantle_logAdd, besideMantle_portCount, ite_self]
  · rfl

theorem besideMantle_unsuppress (s : State) (g : Nat) : besideMantle (unsuppress s g) = besideMantle s :=
  foldl_keeps besideMantle _ _ s fun _ _ => (besideMantle_pdSettle ..).trans (besideMantle_setPd ..)

theorem besideMantle_stopRunning (rs : List Nat) (s : State) :
    besideMantle (rs.foldl (fun s r =>
      let st := (getRegion s r).st
      if st = .running || st = .quiescing || st = .drained then stopRegion s r else s) s) = besideMantle s := by
  refine foldl_keeps besideMantle _ rs s fun u r => ?_
  dsimp only
  split
  · exact besideMantle_of_besideStop (besideStop_stopRegion ..)
  · rfl

/-- An incident of a satellite or the CD changes the incident path only. -/
theorem besideMantle_raiseInc_die (s : State) (i : Inc) (h : i.die ≠ 0) : besideMantle (raiseInc s i) = besideMantle s := by
  have e := congrArg besideMantle (raiseInc_die_frame s i h)
  exact e

theorem besideMantle_abandon (s : State) (g cause : Nat) : besideMantle (abandon s g cause) = besideMantle s := by
  unfold abandon
  extract_lets v v1 v2
  have h2 : besideMantle v2 = besideMantle v1 := besideMantle_stopRunning ..
  have h1 : besideMantle v1 = besideMantle v := besideMantle_modMantle ..
  exact (besideMantle_raiseInc_die _ _ Nat.one_ne_zero).trans (h2.trans (h1.trans (besideMantle_unsuppress s g)))

/-- What a field that is fenced keeps of the routers and fields is what the fences of its tiles leave. -/
theorem besideMantle_fenceField (s : State) (f cause : Nat) :
    besideMantle (fenceField s f cause) = besideMantle ((fieldTiles f).foldl (fun s t => fenceTile s t true cause) s) := by
  unfold fenceField
  extract_lets gs v v1 v2
  have h1 : besideMantle v1 = besideMantle v := foldl_keeps besideMantle _ _ v fun _ _ => besideMantle_of_besideStop (besideStop_stopRegion ..)
  have h2 : besideMantle v2 = besideMantle v1 := foldl_keeps besideMantle _ _ v1 fun _ _ => besideMantle_abandon ..
  have hw : besideMantle (wantTable v2 (fieldBreak v2 f) none none) = besideMantle v2 := besideMantle_modMantle ..
  exact hw.trans (h2.trans h1)

/-- The fence of a tile of a failed mesh domain, with `MDOK` clear. -/
def fencedForMesh (w : W32) : Prop := bit w.toNat 0 = true ∧ bits w.toNat 12 4 = 3 ∧ bit w.toNat 8 = false

theorem mdok_cleared (w : W32) : bit (BitVec.ofNat 32 (setBits w.toNat 8 1 0)).toNat 8 = false := bit_holdBit_same w (by decide) false

theorem fencedForMesh_fence {w : W32} (h : bit w.toNat 8 = false) :
    fencedForMesh (BitVec.ofNat 32 (setBits (setBits w.toNat 0 1 1) 12 4 3)) := by
  have h1 : setBits w.toNat 0 1 1 < 2 ^ 32 := setBits_lt _ _ _ _ _ w.isLt (by decide)
  unfold fencedForMesh
  rw [BitVec.toNat_ofNat, Nat.mod_eq_of_lt (setBits_lt _ _ _ _ _ h1 (by decide))]
  refine ⟨?_, bits_setBits_same .., ?_⟩
  · simp only [bit_setBits]
    rfl
  · simpa [bit_setBits] using h

theorem getField_meshDown (s : State) (f : Nat) : getField (meshDown s f) f = { getField s f with meshOff := true } := by
  unfold meshDown
  extract_lets v
  have hv : ((fieldTiles f).foldl (fun s t => modTile s t fun x => { x with fence := BitVec.ofNat 32 (setBits x.fence.toNat 8 1 0) }) v).fields =
      v.fields := foldl_keeps State.fields _ _ v fun _ _ => rfl
  unfold getField
  rw [hv]
  exact mget_mset_same ..

/-- `MDOK` falls in every tile of the field (R314). -/
theorem mdok_meshDown {f t : Nat} (ht : t ∈ fieldTiles f) (s : State) : bit (getTile (meshDown s f) t).fence.toNat 8 = false := by
  unfold meshDown
  extract_lets v
  refine foldl_establishes (Q := fun u => bit (getTile u t).fence.toNat 8 = false) ht (fun u => ?_) (fun u i hu => ?_) v
  · rw [getTile_modTile_same]
    exact mdok_cleared _
  · rw [getTile_modTile]
    split
    · exact mdok_cleared _
    · exact hu

theorem fence_fenceTile (s : State) (t i : Nat) : (getTile (fenceTile s i true 3) t).fence =
    if t = i then BitVec.ofNat 32 (setBits (setBits (getTile s i).fence.toNat 0 1 1) 12 4 3) else (getTile s t).fence := by
  unfold fenceTile
  rw [getTile_modTile]
  split <;> rfl

/-- Fencing tiles for a failed mesh domain fences each of them whose `MDOK` is clear. -/
theorem fencedForMesh_fenceTiles {l : List Nat} {t : Nat} (ht : t ∈ l) {s : State} (h : bit (getTile s t).fence.toNat 8 = false) :
    fencedForMesh (getTile (l.foldl (fun s t => fenceTile s t true 3) s) t).fence := by
  obtain ⟨pre, post, rfl⟩ := List.append_of_mem ht
  rw [List.foldl_append, List.foldl_cons]
  refine List.foldlRecOn (motive := fun u => fencedForMesh (getTile u t).fence) post _ ?_ fun u hu i _ => ?_
  · rw [fence_fenceTile, if_pos rfl]
    refine fencedForMesh_fence (List.foldlRecOn (motive := fun u => bit (getTile u t).fence.toNat 8 = false) pre _ h fun u hu i _ => ?_)
    rw [fence_fenceTile]
    split
    · next e => exact (fencedForMesh_fence (e ▸ hu)).2.2
    · exact hu
  · rw [fence_fenceTile]
    split
    · next e => exact fencedForMesh_fence (e ▸ hu.2.2)
    · exact hu

theorem fenceTiles_fields (l : List Nat) (s : State) : (l.foldl (fun s t => fenceTile s t true 3) s).fields = s.fields :=
  foldl_keeps State.fields _ l s fun _ _ => fenceTile_fields ..

theorem meshDomainDown_command (s : State) (f : Fin 100) (h : (getField s f).meshOff = false) :
    ∃ u, exec (.meshDomainDown f) s = .next u ∧ (getField u f).meshOff = true ∧
      ∀ t ∈ fieldTiles f, fenced u t = true ∧ bits (getTile u t).fence.toNat 12 4 = 3 ∧ tileMdok u t = false ∧ meshUp u t = false := by
  have hx : exec (.meshDomainDown f) s = .next (fenceField (meshDown s f) f 3) := by
    show execMeshDomainDown f s = _
    unfold execMeshDomainDown
    exact if_neg (by rw [h]; exact Bool.false_ne_true)
  obtain ⟨htiles, hfields⟩ := of_besideMantle (besideMantle_fenceField (meshDown s f) f 3)
  refine ⟨_, hx, ?_, fun t ht => ?_⟩
  · have hkept := fenceTiles_fields (fieldTiles f) (meshDown s f)
    have e : getField (fenceField (meshDown s f) f 3) f = getField (meshDown s f) f :=
      congrArg (fun m => mget FieldSt.reset m f) (hfields.trans hkept)
    rw [e, getField_meshDown]
  · have hall := fencedForMesh_fenceTiles ht (mdok_meshDown ht s)
    rw [← getTile_congr htiles t] at hall
    obtain ⟨hfence, hcause, hmd⟩ := hall
    exact ⟨hfence, hcause, hmd, by rw [meshUp, tileMdok, hmd, Bool.and_false]⟩

/-! ### A transaction asks for its wave (R462, R323) -/

theorem txnOf_congr {s u : State} (h : u.eng.txns = s.eng.txns) (tag : Nat) : txnOf u tag = txnOf s tag :=
  congrArg (List.find? fun x : Txn => x.tag == tag) h

theorem txnOf_modTxn {s : State} {tag : Nat} {y : Txn} (h : txnOf s tag = some y) {f : Txn → Txn} (hf : ∀ x, (f x).tag = x.tag) :
    txnOf (modTxn s tag f) tag = some (f y) := by
  have htag : (y.tag == tag) = true := List.find?_some (p := fun x : Txn => x.tag == tag) h
  have hcomp : (fun x : Txn => x.tag == tag) ∘ (fun x => if x.tag == tag then f x else x) = fun x => x.tag == tag := by
    funext x
    simp only [Function.comp]
    split
    · rw [hf]
    · rfl
  unfold txnOf modTxn at *
  simp only [List.find?_map, hcomp, h, Option.map_some, htag, if_true]

/-- The transaction of a tag asks for its wave: it waits for it, and the wave is the last of those that wait. -/
theorem waveTxn_waits {s : State} {tag : Nat} {y : Txn} (h : txnOf s tag = some y) (commit : Bool) (o : Outc) (reason : Nat) :
    let u := waveTxn s tag commit o reason
    (∃ z, txnOf u tag = some z ∧ z.ph = .waved commit ∧ z.chgs = y.chgs) ∧
      ∃ w, u.lamp.pending = s.lamp.pending ++ [w] ∧ w.wtype = (if commit then .commit else .abort) ∧ w.wtxn = tag := by
  intro u
  have hu : u = requestWave (modTxn s tag fun x => { x with ph := .waved commit, outc := o, reason := reason })
      (Wave.ask (if commit then .commit else .abort) tag false (BitVec.ofNat 64 (maskOf (txnRegions y))) .none) := by
    show waveTxn s tag commit o reason = _
    unfold waveTxn
    rw [h]
  rw [hu]
  exact ⟨⟨_, txnOf_modTxn h fun _ => by rfl, rfl, rfl⟩, _, rfl, rfl, rfl⟩

theorem waveTxn_inc_time (s : State) (tag : Nat) (commit : Bool) (o : Outc) (reason : Nat) :
    (waveTxn s tag commit o reason).inc = s.inc ∧ (waveTxn s tag commit o reason).time = s.time := by
  unfold waveTxn
  split <;> exact ⟨rfl, rfl⟩

/-! ### Table changes (R320, Table 9.8) -/

theorem modTab_frame (s : State) (p : TabChg → Bool) (f : TabChg → TabChg) : { modTab s p f with mantle := s.mantle } = s := by
  unfold modTab
  split <;> rfl

/-- A change of Mantle's tables leaves transactions, waves, incidents and time. -/
theorem modTab_keeps (s : State) (p : TabChg → Bool) (f : TabChg → TabChg) :
    (modTab s p f).eng = s.eng ∧ (modTab s p f).lamp = s.lamp ∧ (modTab s p f).inc = s.inc ∧ (modTab s p f).time = s.time := by
  have he := congrArg State.eng (modTab_frame s p f)
  have hl := congrArg State.lamp (modTab_frame s p f)
  have hi := congrArg State.inc (modTab_frame s p f)
  have ht := congrArg State.time (modTab_frame s p f)
  exact ⟨he, hl, hi, ht⟩

section
variable {s : State} {x : TabChg} {y : Txn} (h : s.mantle.tabs.find? (·.ph == 1) = some x) (hy : txnOf s x.tag = some y)
include h hy

/-- At its deadline a table change raises 0x0607 and its transaction aborts. -/
theorem tableChangeDeadline_command :
    ∃ u z, exec .tableChangeDeadline s = .next u ∧ x.t0 + 1000000000 ≤ nowPs u ∧ txnOf u x.tag = some z ∧ z.ph = .waved false ∧ z.chgs = y.chgs ∧
      raised (reachPs s (x.t0 + 1000000000)) u 20001 0x0607 0 0 := by
  let v := reachPs s (x.t0 + 1000000000)
  let r := raiseInc v (cdInc 0x0607 0)
  let m := modTab r (·.ph == 1) fun y => { y with ph := 2 }
  have hx : exec .tableChangeDeadline s = .next (waveTxn m x.tag false .aborted 0) := by
    show execTableChangeDeadline s = _
    unfold execTableChangeDeadline
    rw [h]
  have hr := raiseInc_die_frame v (cdInc 0x0607 0) Nat.one_ne_zero
  have hreng : r.eng = v.eng := by
    have e := congrArg State.eng hr
    exact e
  have hrtime : r.time = v.time := by
    have e := congrArg State.time hr
    exact e
  obtain ⟨hmeng, -, hminc, hmtime⟩ := modTab_keeps r (·.ph == 1) fun y => { y with ph := 2 }
  obtain ⟨hinc, htime⟩ := waveTxn_inc_time m x.tag false .aborted 0
  have hveng : v.eng = s.eng := reachPs_eng ..
  have hmy : txnOf m x.tag = some y := (txnOf_congr (congrArg Engines.txns (hmeng.trans (hreng.trans hveng))) _).trans hy
  obtain ⟨⟨z, hz, hph, hchgs⟩, -⟩ := waveTxn_waits hmy false .aborted 0
  have hnow : nowPs (waveTxn m x.tag false .aborted 0) = nowPs v := by
    unfold nowPs
    rw [htime, hmtime, hrtime]
  refine ⟨_, z, hx, ?_, hz, hph, hchgs, ?_⟩
  · rw [hnow]
    exact le_nowPs_reachPs ..
  · exact raised_congr rfl rfl (hinc.trans hminc) (raised_raiseInc v (cdInc 0x0607 0))

/-- A table change whose routers are idle in time asks for its COMMIT wave. -/
theorem tableChangeIdle_command :
    ∃ u, exec .tableChangeIdle s = .next u ∧
      (((∃ t ∈ x.tiles, routerIdle s t = false) ∨ x.t0 + 1000000000 < nowPs s) → u = s) ∧
      ((∀ t ∈ x.tiles, routerIdle s t = true) → nowPs s ≤ x.t0 + 1000000000 →
        ∃ z w, txnOf u x.tag = some z ∧ z.ph = .waved true ∧ z.chgs = y.chgs ∧ u.lamp.pending = s.lamp.pending ++ [w] ∧ w.wtype = .commit ∧
          w.wtxn = x.tag) := by
  let m := modTab s (·.ph == 1) fun y => { y with ph := 2 }
  have hx : exec .tableChangeIdle s =
      .next (if x.tiles.all (routerIdle s) = true ∧ nowPs s ≤ x.t0 + 1000000000 then waveTxn m x.tag true .done 0 else s) := by
    show execTableChangeIdle s = _
    unfold execTableChangeIdle
    rw [h]
    simp only [Bool.and_eq_true, decide_eq_true_eq, apply_ite Host.Outcome.next]
    rfl
  refine ⟨_, hx, fun hno => if_neg ?_, fun hidle hin => ?_⟩
  · rintro ⟨hall, hin⟩
    rw [List.all_eq_true] at hall
    rcases hno with ⟨t, ht, hbusy⟩ | hlate
    · exact Bool.false_ne_true (hbusy.symm.trans (hall t ht))
    · omega
  · rw [if_pos ⟨List.all_eq_true.2 hidle, hin⟩]
    obtain ⟨hmeng, hmlamp, -, -⟩ := modTab_keeps s (·.ph == 1) fun y => { y with ph := 2 }
    have hmy : txnOf m x.tag = some y := (txnOf_congr (congrArg Engines.txns hmeng) _).trans hy
    obtain ⟨⟨z, hz, hph, hchgs⟩, w, hw, htype, htag⟩ := waveTxn_waits hmy true .done 0
    exact ⟨z, w, hz, hph, hchgs, by rw [hw, hmlamp], htype, htag⟩

end

/-- Holding the links into a set of routers from outside changes the routers only. -/
theorem holdInto_frame (s : State) (ts : List Nat) (on : Bool) : { holdInto s ts on with tiles := s.tiles } = s := by
  refine foldl_keeps (fun u : State => { u with tiles := s.tiles }) _ ts s fun u t => ?_
  refine foldl_keeps (fun u : State => { u with tiles := s.tiles }) _ _ u fun v p => ?_
  dsimp only
  split <;> rfl

theorem bit_hold_setHold (s : State) (t i b p : Nat) (hp : p < 4) (h : bit (getTile s t).hold.toNat b = true) :
    bit (getTile (modTile s i fun x => { x with hold := BitVec.ofNat 32 (setBits x.hold.toNat p 1 1) }) t).hold.toNat b = true := by
  rw [getTile_modTile]
  split
  · next e =>
    subst e
    by_cases hb : b = p
    · rw [hb]
      exact bit_holdBit_same _ (by omega) true
    · exact (bit_holdBit_other _ (by omega) hb 1).trans h
  · exact h

/-- Every link into a set of routers from a router outside it is held (Table 9.8 step 3). -/
theorem bit_holdInto {ts : List Nat} {t p : Nat} (ht : t ∈ ts) (hp : p < 4) (hn : neighbour t p ∉ ts) (s : State) :
    bit (getTile (holdInto s ts true) (neighbour t p)).hold.toNat (enters p) = true := by
  have hc (i : Nat) : ts.contains i = decide (i ∈ ts) := List.contains_eq_mem ..
  have hstep (u : State) (i q : Nat) (hu : bit (getTile u (neighbour t p)).hold.toNat (enters p) = true) :
      bit (getTile (if ts.contains (neighbour i q) then u
        else modTile u (neighbour i q) fun x => { x with hold := BitVec.ofNat 32 (setBits x.hold.toNat (enters q) 1 (ofBit true)) })
          (neighbour t p)).hold.toNat (enters p) = true := by
    split
    · exact hu
    · exact bit_hold_setHold _ _ _ _ _ (enters_lt q) hu
  refine foldl_establishes (Q := fun u => bit (getTile u (neighbour t p)).hold.toNat (enters p) = true) ht (fun u => ?_) (fun u i hu => ?_) s
  · refine foldl_establishes (Q := fun u => bit (getTile u (neighbour t p)).hold.toNat (enters p) = true) (List.mem_range.2 hp) (fun v => ?_)
      (fun v q hv => hstep v t q hv) u
    rw [hc, if_neg (by simpa using hn), getTile_modTile_same]
    exact bit_holdBit_same _ (by have := enters_lt p; omega) true
  · exact List.foldlRecOn (motive := fun u => bit (getTile u (neighbour t p)).hold.toNat (enters p) = true) _ _ hu fun v hv q _ => hstep v i q hv

theorem besideStop_stopOwners (s : State) (ts : List Nat) : besideStop (stopOwners s ts) = besideStop s := by
  refine foldl_keeps besideStop _ _ s fun u r => ?_
  dsimp only
  split
  · exact besideStop_stopRegion ..
  · rfl

/-- The first table change that waits is staged as a closed transaction, and the links into its routers are held. -/
theorem liveTableChange_command {s : State} {x : TabChg} {rest : List TabChg} (h : s.mantle.tabs = x :: rest) (hph : ∀ y ∈ s.mantle.tabs, y.ph = 0) :
    ∃ u y z, exec .liveTableChange s = .next u ∧ u.mantle.tabs = y :: rest ∧ y.ph = 1 ∧ y.t0 = nowPs s ∧ y.tiles = x.tiles ∧ y.chgs = x.chgs ∧
      z ∈ u.eng.txns ∧ z.tag = y.tag ∧ z.chgs = x.chgs ∧ z.ph = .closed ∧
      (∀ t ∈ x.tiles, ∀ p, p < 4 → neighbour t p ∉ x.tiles → bit (getTile u (neighbour t p)).hold.toNat (enters p) = true) := by
  let v := stopOwners s x.tiles
  let tag := freshTag v
  let z : Txn := { Txn.fresh tag 2 0 none with chgs := x.chgs, nmem := 1, ph := .closed }
  let a := addTxn v z
  let f : TabChg → TabChg := fun y => { y with tag := tag, ph := 1, t0 := nowPs a }
  let m := modTab a (fun y => y.ph == 0) f
  have hv := besideStop_stopOwners s x.tiles
  have hvm : v.mantle = s.mantle := by
    have e := congrArg State.mantle hv
    exact e
  have hvt : v.time = s.time := by
    have e := congrArg State.time hv
    exact e
  have hx : exec .liveTableChange s = .next (holdInto m x.tiles true) := by
    have hidle : (s.mantle.tabs.any (·.ph != 0)) = false := by
      rw [List.any_eq_false]
      intro y hy
      simp [hph y hy]
    show execLiveTableChange s = _
    unfold execLiveTableChange
    rw [if_neg (by rw [hidle]; exact Bool.false_ne_true), h]
    rfl
  have hm : m = modMantle a fun k => { k with tabs := lmod k.tabs 0 f } := by
    have ha : a.mantle.tabs = x :: rest := (congrArg Mantle.tabs hvm).trans h
    have hi : a.mantle.tabs.findIdx? (fun y => y.ph == 0) = some 0 := by
      rw [ha, List.findIdx?_cons, hph x (by rw [h]; exact List.mem_cons_self ..)]
      rfl
    unfold m modTab
    rw [hi]
  have hh := holdInto_frame m x.tiles true
  have hhm : (holdInto m x.tiles true).mantle.tabs = f x :: rest := by
    have e := congrArg (fun u => u.mantle.tabs) hh
    refine e.trans ?_
    rw [hm]
    show lmod v.mantle.tabs 0 f = _
    rw [hvm, h]
    rfl
  have hhe : (holdInto m x.tiles true).eng.txns = v.eng.txns ++ [z] := by
    have e := congrArg (fun u => u.eng.txns) hh
    refine e.trans ?_
    rw [hm]
    rfl
  refine ⟨_, f x, z, hx, hhm, rfl, ?_, rfl, rfl, ?_, rfl, rfl, rfl, fun t ht p hp hn => bit_holdInto ht hp hn m⟩
  · exact congrArg (fun t => t.ticks * 6400) hvt
  · rw [hhe]
    exact List.mem_append_right _ (List.mem_singleton_self _)

/-- Settles O24: each clause is the lemma above about its command. -/
theorem meshRepairsDomainsAndTables : Obligations.MeshRepairsDomainsAndTables := by
  refine ⟨⟨linkRetry_command, linkRetrain_command, linkRetrainDone_idle, ?_⟩, meshDomainDown_command, fun _ _ _ => liveTableChange_command,
    fun _ _ _ h hy => ⟨?_, tableChangeIdle_command h hy⟩⟩
  · intro s t port ctl g a b net l htr hf hg ha hb hab past
    exact ⟨linkRetrainDone_good rfl htr hf hg, linkRetrainDone_spare rfl htr hf hg ha, linkRetrainDone_fails rfl htr hf hg ha hb hab⟩
  · exact tableChangeDeadline_command h hy

end Sys2Proof.Machine
end

section
/-!
PROOFS. A packet at a router (R292, R296 to R303, R305): what a grant and a wait leave, the route, the refusal, and the errors of its buffer.
-/
namespace Sys2Proof.Machine
open Sys2Proof

/-! ### Grants and waits (R292, R301) -/

/-- What a grant counts at its output. -/
def flitsCounted (out net n : Nat) (x : Tile) : Tile :=
  { x with grants := mset 0 x.grants (out + 8 * net) (satAdd 48 (mget 0 x.grants (out + 8 * net)) n) }

theorem countGrant_cases (s : State) (t out net n : Nat) :
    countGrant s t out net n = modTile s t (flitsCounted out net n) ∨
      ∃ f, countGrant s t out net n = modLink (modTile s t (flitsCounted out net n)) t out net f := by
  unfold countGrant
  extract_lets k v
  by_cases h : out < 4
  · exact .inr ⟨_, if_pos h⟩
  · exact .inl (if_neg h)

/-- A state that differs from another in the counts, the links and the rotation of a router. -/
structure GrantedFrom (s u : State) (t : Nat) : Prop where
  other (i : Nat) (h : i ≠ t) : getTile u i = getTile s i
  same : ∃ g l r, getTile u t = { getTile s t with grants := g, links := l, turn := r }
  frame : { u with tiles := s.tiles } = s

theorem grantedFrom_modTile {s u : State} {t : Nat} (h : GrantedFrom s u t) {f : Tile → Tile}
    (hf : ∀ x, ∃ g l r, f x = { x with grants := g, links := l, turn := r }) : GrantedFrom s (modTile u t f) t where
  other i hi := by rw [getTile_modTile, if_neg hi, h.other i hi]
  same := by
    obtain ⟨g, l, r, hu⟩ := h.same
    obtain ⟨g', l', r', hx⟩ := hf (getTile u t)
    rw [getTile_modTile_same, hx, hu]
    exact ⟨g', l', r', rfl⟩
  frame := h.frame

theorem grantedFrom_countGrant (s : State) (t out net n : Nat) : GrantedFrom s (countGrant s t out net n) t := by
  have hv : GrantedFrom s (modTile s t (flitsCounted out net n)) t := grantedFrom_modTile ⟨fun _ _ => rfl, ⟨_, _, _, rfl⟩, rfl⟩ fun _ => ⟨_, _, _, rfl⟩
  obtain h | ⟨f, h⟩ := countGrant_cases s t out net n
  · rw [h]
    exact hv
  · rw [h]
    exact grantedFrom_modTile hv fun _ => ⟨_, _, _, rfl⟩

/-- A grant changes the counts, the links and the rotation of its router, and nothing else. -/
theorem grantedFrom_granted (s : State) (t out : Nat) (p : Packet) : GrantedFrom s (granted s t out p) t :=
  grantedFrom_modTile (grantedFrom_countGrant s t out (netOf p) (flitsOf p.body)) fun _ => ⟨_, _, _, rfl⟩

/-- What depends on no count, link or rotation of a router is as before. -/
theorem GrantedFrom.keeps {s u : State} {t : Nat} (h : GrantedFrom s u t) {β : Type} (π : Tile → β)
    (hπ : ∀ x g l r, π { x with grants := g, links := l, turn := r } = π x) (i : Nat) : π (getTile u i) = π (getTile s i) := by
  by_cases hi : i = t
  · obtain ⟨g, l, r, hu⟩ := h.same
    rw [hi, hu, hπ]
  · rw [h.other i hi]

/-- A grant counts the flits of the packet at its output. -/
theorem granted_grants (s : State) (t out : Nat) (p : Packet) :
    (getTile (granted s t out p) t).grants =
      mset 0 (getTile s t).grants (out + 8 * netOf p) (satAdd 48 (mget 0 (getTile s t).grants (out + 8 * netOf p)) (flitsOf p.body)) := by
  refine (getTile_modTile_keeps Tile.grants (fun _ => by rfl) _ t t).trans ?_
  have hv := congrArg Tile.grants (getTile_modTile_same s t (flitsCounted out (netOf p) (flitsOf p.body)))
  obtain h | ⟨f, h⟩ := countGrant_cases s t out (netOf p) (flitsOf p.body)
  · rw [h]
    exact hv
  · rw [h]
    exact (getTile_modTile_keeps Tile.grants (fun _ => by rfl) _ t t).trans hv

/-- The channel of the packet was served last. -/
theorem granted_turn (s : State) (t out : Nat) (p : Packet) : mget 0 (getTile (granted s t out p) t).turn (out + 8 * netOf p) = chanIx p := by
  unfold granted
  extract_lets v
  rw [getTile_modTile_same]
  exact mget_mset_same ..

theorem granted_net (s : State) (t out : Nat) (p : Packet) : (granted s t out p).net = s.net := by
  have h := congrArg State.net (grantedFrom_granted s t out p).frame
  exact h

theorem granted_inc (s : State) (t out : Nat) (p : Packet) : (granted s t out p).inc = s.inc := by
  have h := congrArg State.inc (grantedFrom_granted s t out p).frame
  exact h

theorem cyclesOf_congr {s u : State} (ht : u.time = s.time) {t : Nat} (hd : (getTile u t).droop = (getTile s t).droop)
    (hl : (getTile u t).lag = (getTile s t).lag) : cyclesOf u t = cyclesOf s t := by
  unfold cyclesOf tileCycles fieldCycles
  rw [ht, hd, hl]

theorem cyclesOf_granted (s : State) (t out : Nat) (p : Packet) (i : Nat) : cyclesOf (granted s t out p) i = cyclesOf s i := by
  have h := grantedFrom_granted s t out p
  have ht : (granted s t out p).time = s.time := by
    have e := congrArg State.time h.frame
    exact e
  exact cyclesOf_congr ht (h.keeps Tile.droop (fun _ _ _ _ => by rfl) i) (h.keeps Tile.lag (fun _ _ _ _ => by rfl) i)

theorem locCycle_granted (s : State) (t out : Nat) (p : Packet) (l : Loc) : locCycle (granted s t out p) l = locCycle s l := by
  unfold locCycle
  split
  · exact cyclesOf_granted ..
  · exact cyclesOf_granted ..
  · rfl

/-- A packet that waits is counted at its output, and nothing else changes. -/
theorem countWait_stalls (s : State) (t out net : Nat) :
    (getTile (countWait s t out net) t).stalls =
      mset 0 (getTile s t).stalls (out + 8 * net) (satAdd 48 (mget 0 (getTile s t).stalls (out + 8 * net)) 1) := by
  unfold countWait
  rw [getTile_modTile_same]

theorem countWait_frame (s : State) (t out net : Nat) : { countWait s t out net with tiles := s.tiles } = s := rfl

theorem getTile_countWait_other {t i : Nat} (h : i ≠ t) (s : State) (out net : Nat) : getTile (countWait s t out net) i = getTile s i := by
  unfold countWait
  rw [getTile_modTile, if_neg h]

/-! ### A packet moves on -/

theorem getPacket_setPacket_same (s : State) (pid : Nat) {p : Packet} (h : p ≠ Packet.none) : getPacket (setPacket s pid p) pid = some p := by
  simp [getPacket, setPacket, h]

theorem getPacket_setPacket_other (s : State) {pid k : Nat} (p : Packet) (h : k ≠ pid) : getPacket (setPacket s pid p) k = getPacket s k := by
  simp [getPacket, setPacket, mget_mset_other _ _ _ _ _ h]

theorem getPacket_movePacket_same (s : State) (pid : Nat) {q : Packet} (h : ∀ a c, { q with arr := a, cyc := c } ≠ Packet.none) :
    getPacket (movePacket s pid q) pid = some { q with arr := s.net.seq, cyc := locCycle s q.loc } := by
  simp [getPacket, movePacket, h]

theorem getPacket_movePacket_other (s : State) {pid k : Nat} (q : Packet) (h : k ≠ pid) : getPacket (movePacket s pid q) k = getPacket s k := by
  simp [getPacket, movePacket, mget_mset_other _ _ _ _ _ h]

theorem movePacket_frame (s : State) (pid : Nat) (q : Packet) : { movePacket s pid q with net := s.net } = s := rfl

/-- A packet with a body that can be read is a packet. -/
theorem ne_none_of_body {q : Packet} (h : ∀ k ws, q.body ≠ .raw k ws) : q ≠ Packet.none := fun e => h 0 [] (by rw [e]; rfl)

/-- A packet at a router is granted an output, as `q` beyond it, or it waits there (R292, R301). -/
def hopTo (s : State) (t pid : Nat) (p : Packet) (out : Nat) (q : Packet) : State :=
  if grantsNow s t pid out p q then movePacket (granted s t out p) pid q else countWait s t out (netOf p)

/-- What one grant or wait does: the packet has moved on and its flits are counted, or it stays and the wait is counted; nothing else changes. -/
def hopped (s u : State) (t pid : Nat) (p : Packet) (out : Nat) (q : Packet) : Prop :=
  let net := netOf p
  (canGo s t net out q = true → nextChan s t net out = some (chanIx p) →
    getPacket u pid = some { q with arr := s.net.seq, cyc := locCycle s q.loc } ∧
    mget 0 (getTile u t).grants (out + 8 * net) = satAdd 48 (mget 0 (getTile s t).grants (out + 8 * net)) (flitsOf p.body) ∧
    mget 0 (getTile u t).turn (out + 8 * net) = chanIx p) ∧
  (¬(canGo s t net out q = true ∧ nextChan s t net out = some (chanIx p)) → getPacket u pid = some p ∧
    mget 0 (getTile u t).stalls (out + 8 * net) = satAdd 48 (mget 0 (getTile s t).stalls (out + 8 * net)) 1) ∧
  (∀ k, k ≠ pid → getPacket u k = getPacket s k) ∧ (∀ t', t' ≠ t → getTile u t' = getTile s t') ∧ { u with net := s.net, tiles := s.tiles } = s

theorem grantsNow_iff {s : State} {pid : Nat} {p : Packet} (hhead : isHead s pid p = true) (t out : Nat) (q : Packet) :
    grantsNow s t pid out p q = true ↔ canGo s t (netOf p) out q = true ∧ nextChan s t (netOf p) out = some (chanIx p) := by
  simp [grantsNow, hhead]

theorem hopped_hopTo {s : State} {pid : Nat} {p q : Packet} (hp : getPacket s pid = some p) (hhead : isHead s pid p = true)
    (hq : ∀ k ws, q.body ≠ .raw k ws) (t out : Nat) : hopped s (hopTo s t pid p out q) t pid p out q := by
  have hiff := grantsNow_iff hhead t out q
  by_cases hg : canGo s t (netOf p) out q = true ∧ nextChan s t (netOf p) out = some (chanIx p)
  · rw [hopTo, if_pos (hiff.2 hg)]
    let v := granted s t out p
    have hpk (k : Nat) : getPacket v k = getPacket s k := getPacket_congr (granted_net s t out p) k
    have htile (i : Nat) : getTile (movePacket v pid q) i = getTile v i := rfl
    refine ⟨fun _ _ => ⟨?_, ?_, ?_⟩, fun h => absurd hg h, fun k hk => ?_, fun t' ht => ?_, ?_⟩
    · rw [getPacket_movePacket_same v pid fun a c => ne_none_of_body hq, granted_net, locCycle_granted]
    · rw [htile, granted_grants]
      exact mget_mset_same ..
    · rw [htile]
      exact granted_turn ..
    · rw [getPacket_movePacket_other _ _ hk, hpk]
    · rw [htile]
      exact (grantedFrom_granted s t out p).other t' ht
    · have e := congrArg (fun u : State => { u with net := s.net }) (grantedFrom_granted s t out p).frame
      exact e
  · rw [hopTo, if_neg fun h => hg (hiff.1 h)]
    refine ⟨fun h1 h2 => absurd ⟨h1, h2⟩ hg, fun _ => ⟨hp, ?_⟩, fun k _ => rfl, fun t' ht => getTile_countWait_other ht .., rfl⟩
    rw [countWait_stalls]
    exact mget_mset_same ..

/-! ### The route (R299, R300) -/

section
variable {s : State} {t d : Nat} {p : Packet}

/-- The x phase begins in the direction chosen. -/
theorem routeAt_begin_x (hy : p.yph = false) (hx : tileX t ≠ tileX d) (hf : p.fresh = true) {neg : Bool}
    (hc : chooseDir 100 (tileX t) (tileX d) (xBroken s t) = some neg) :
    routeAt s t d p = .go (if neg then 1 else 0) { p with vch := false, dir := neg, fresh := false } := by
  simp [routeAt, hy, hx, hf, hc]

/-- The y phase begins where the x phase has come to its column. -/
theorem routeAt_begin_y (hy : p.yph = false) (hx : tileX t = tileX d) (hne : tileY t ≠ tileY d) {neg : Bool}
    (hc : chooseDir 110 (tileY t) (tileY d) (yBroken s t) = some neg) :
    routeAt s t d p = .go (if neg then 3 else 2) { p with vch := false, yph := true, dir := neg, fresh := false } := by
  simp [routeAt, hy, hx, hne, hc]

theorem routeAt_here (hx : tileX t = tileX d) (hy : tileY t = tileY d) : routeAt s t d p = .here := by
  simp [routeAt, hx, hy]

/-- The packet that goes on has the body of the one that came. -/
theorem routeAt_body {port : Nat} {q : Packet} (h : routeAt s t d p = .go port q) : q.body = p.body := by
  unfold routeAt at h
  extract_lets startY at h
  have hstart {q' : Packet} (h : startY p = .go port q') : q'.body = p.body := by
    unfold startY at h
    split at h
    · cases h
    · split at h
      · cases h
        rfl
      · cases h
  split at h
  · split at h
    · cases h
    · cases h
      rfl
  · split at h
    · exact hstart h
    · split at h
      · split at h
        · cases h
          rfl
        · cases h
      · cases h
        rfl

end

/-! ### Refusals (R8, R303) -/

theorem answerWith_inc (s : State) (t : Nat) (p : Packet) (dst : Nat) (b : Body) : (answerWith s t p dst b).inc = s.inc := rfl

theorem netGrows_answerWith (s : State) (t : Nat) (p : Packet) (dst : Nat) (b : Body) : NetGrows s (answerWith s t p dst b) := netGrows_putPacket ..

/-- An answer is one more packet, or none. -/
theorem answerFrom_cases (s : State) (t : Nat) (p : Packet) (o : Outc) :
    answerFrom s t p o = s ∨ ∃ dst b, answerFrom s t p o = answerWith s t p dst b := by
  unfold answerFrom
  split
  case h_1 => exact .inr ⟨_, _, rfl⟩
  case h_7 => exact .inr ⟨_, _, rfl⟩
  case h_8 => exact .inr ⟨_, _, rfl⟩
  all_goals exact .inl rfl

/-- The state from which a refusal answers: the packet is gone, and the incident of the check that failed, if one did, is raised. -/
def refusing (s : State) (t pid : Nat) (p : Packet) : Option Nat → State
  | some c => raiseInc (delPacket s pid) (mkInc c utRouter 0 t 0 (packetDetail c p))
  | none => delPacket s pid

theorem routerRefuse_eq {p : Packet} (h : ∀ k ws, p.body ≠ .raw k ws) (s : State) (t pid : Nat) (o : Outc) (cls : Option Nat) :
    routerRefuse s t pid p o cls = answerFrom (refusing s t pid p cls) t p o := by
  unfold routerRefuse
  extract_lets v v1
  have hv : v1 = refusing s t pid p cls := by cases cls <;> rfl
  rw [hv]
  split
  · next k ws hb => exact absurd hb (h k ws)
  · rfl

/-- A refusal answers with one packet, or with none. -/
theorem routerRefuse_cases (s : State) (t pid : Nat) (p : Packet) (o : Outc) (cls : Option Nat) :
    routerRefuse s t pid p o cls = refusing s t pid p cls ∨
      ∃ dst b, routerRefuse s t pid p o cls = answerWith (refusing s t pid p cls) t p dst b := by
  by_cases h : ∃ k ws, p.body = .raw k ws
  · obtain ⟨k, ws, hb⟩ := h
    unfold routerRefuse
    extract_lets v v1
    have hv : v1 = refusing s t pid p cls := by cases cls <;> rfl
    rw [hv]
    simp only [hb]
    split
    · exact .inl rfl
    · split
      · exact .inr ⟨_, _, rfl⟩
      · exact answerFrom_cases ..
  · rw [routerRefuse_eq fun k ws hb => h ⟨k, ws, hb⟩]
    exact answerFrom_cases ..

theorem netGrows_refusing (s : State) (t pid : Nat) (p : Packet) (cls : Option Nat) : NetGrows (delPacket s pid) (refusing s t pid p cls) := by
  cases cls with
  | none => exact netGrows_of_net rfl
  | some c => exact netGrows_raiseInc ..

theorem refusing_regions (s : State) (t pid : Nat) (p : Packet) (cls : Option Nat) : (refusing s t pid p cls).regions = s.regions := by
  cases cls with
  | none => rfl
  | some c => exact raiseInc_regions ..

theorem netGrows_routerRefuse (s : State) (t pid : Nat) (p : Packet) (o : Outc) (cls : Option Nat) :
    NetGrows (delPacket s pid) (routerRefuse s t pid p o cls) := by
  have hv := netGrows_refusing s t pid p cls
  obtain h | ⟨dst, b, h⟩ := routerRefuse_cases s t pid p o cls
  · rw [h]
    exact hv
  · rw [h]
    exact hv.trans (netGrows_answerWith ..)

/-- A packet that is refused is gone. -/
theorem getPacket_routerRefuse {s : State} {pid : Nat} (hpid : pid < s.net.next) (t : Nat) (p : Packet) (o : Outc) (cls : Option Nat) :
    getPacket (routerRefuse s t pid p o cls) pid = none :=
  ((netGrows_routerRefuse s t pid p o cls).kept pid hpid).trans (getPacket_delPacket_same s pid)

theorem routerRefuse_inc (s : State) (t pid : Nat) (p : Packet) (o : Outc) (cls : Option Nat) :
    (routerRefuse s t pid p o cls).inc = (refusing s t pid p cls).inc := by
  obtain h | ⟨dst, b, h⟩ := routerRefuse_cases s t pid p o cls
  · rw [h]
  · rw [h, answerWith_inc]

theorem incGrows_routerRefuse (s : State) (t pid : Nat) (p : Packet) (o : Outc) (cls : Option Nat) :
    IncGrows s (routerRefuse s t pid p o cls) := by
  refine IncGrows.trans ?_ (incGrows_of_inc (routerRefuse_inc ..))
  cases cls with
  | none => exact incGrows_of_inc rfl
  | some c => exact (incGrows_of_inc (by rfl)).trans (incGrows_raiseInc (delPacket s pid) _)

/-- The check that failed raises its incident (R8, R297). -/
theorem raised_routerRefuse (s : State) (t pid : Nat) (p : Packet) (o : Outc) (c : Nat) :
    raised s (routerRefuse s t pid p o (some c)) t c 0 (BitVec.ofNat 64 (packetDetail c p)) :=
  raised_congr (s := delPacket s pid) rfl rfl (routerRefuse_inc ..) (raised_raiseInc (delPacket s pid) (mkInc c utRouter 0 t 0 (packetDetail c p)))

/-- A packet is answered by the unit that it is addressed to, or by the tile, under its own fold and epoch (R214); others may have been sent
before. -/
theorem answeredWith_answer {s v : State} {pid t : Nat} {p : Packet} (hp : getPacket s pid = some p) (hpid : pid < s.net.next)
    (hn : NetGrows (delPacket s pid) v) (hf : unitFold v t (answerUnit t p) = unitFold s t (answerUnit t p)) (hr : v.regions = s.regions)
    (dst : Nat) (b : Body) :
    answeredWith s (answerWith v t p dst b) pid
      (injected t (qaMake t (answerUnit t p) 0) dst (unitFold s t (answerUnit t p)) (epochAt s t) (bodyCtl b) b) := by
  have ha : answerWith v t p dst b =
      putPacket v (newPacket (qaMake t (answerUnit t p) 0) dst (unitFold s t (answerUnit t p)) (epochAt s t) b (.router t 4) p.id) := by
    unfold answerWith
    simp only [hf, epochAt_congr hr]
  obtain ⟨h1, h2⟩ := getPacket_newPacket v t (qaMake t (answerUnit t p) 0) dst (unitFold s t (answerUnit t p)) (epochAt s t) p.id b
  have hg := hn.trans (netGrows_answerWith v t p dst b)
  refine ⟨⟨v.net.next, hn.next, ?_, ?_⟩, ?_, fun k hk hne => ?_⟩
  · rw [ha, h1]
  · rw [ha, h2, hp]
    rfl
  · rw [hg.kept pid hpid, getPacket_delPacket_same]
  · rw [hg.kept k hk, getPacket_delPacket_other _ _ _ hne]

theorem unitFold_refusing (s : State) (t pid : Nat) (p : Packet) (cls : Option Nat) (u : Nat) :
    unitFold (refusing s t pid p cls) t u = unitFold s t u := by
  cases cls with
  | none => rfl
  | some c =>
    have hw := congrArg State.wicks (besideTraffic_raiseInc (delPacket s pid) (mkInc c utRouter 0 t 0 (packetDetail c p)))
    have hf := congrArg State.flows (besideTraffic_raiseInc (delPacket s pid) (mkInc c utRouter 0 t 0 (packetDetail c p)))
    have hw' : (refusing s t pid p (some c)).wicks = s.wicks := hw
    have hf' : (refusing s t pid p (some c)).flows = s.flows := hf
    unfold unitFold getWick getFlow
    rw [hw', hf']

/-- A message that a router refuses is answered (R303). -/
theorem routerRefuse_answers {s : State} {pid : Nat} {p : Packet} (hp : getPacket s pid = some p) (hpid : pid < s.net.next)
    {b : Bool} {ws : List QEnt} (hb : p.body = .msg b ws) (t : Nat) (o : Outc) (cls : Option Nat) :
    answeredWith s (routerRefuse s t pid p o cls) pid
      (injected t (qaMake t (answerUnit t p) 0) p.src (unitFold s t (answerUnit t p)) (epochAt s t) true (.reply o (bodyKind p.body) (qaQueue p.src))) := by
  have hk : bodyKind p.body = if b then 2 else 1 := by
    rw [hb]
    cases b <;> rfl
  rw [routerRefuse_eq (by simp [hb]), answerFrom_msg hb, hk]
  exact answeredWith_answer hp hpid (netGrows_refusing ..) (unitFold_refusing ..) (refusing_regions ..) _ _

/-! ### Errors of the buffer (R498) -/

section
variable {s : State} {t pid : Nat} {p : Packet}

/-- A header and a payload without an error are read as they are. -/
theorem headRead_clean (hh : mget 0 (getTile s t).err (2 * (chanIx p + 12 * netOf p)) = 0)
    (hb : mget 0 (getTile s t).err (2 * (chanIx p + 12 * netOf p) + 1) = 0) : headRead s t pid p = (s, some p) := by
  simp [headRead, hh, hb]

/-- A router whose errors of a channel have been read. -/
def errorsRead (s : State) (t key : Nat) : State := modTile s t fun x => { x with err := mset 0 (mset 0 x.err key 0) (key + 1) 0 }

/-- A header that cannot be read discards the packet. -/
theorem headRead_header (hhead : isHead s pid p = true) (hh : mget 0 (getTile s t).err (2 * (chanIx p + 12 * netOf p)) = 2) :
    headRead s t pid p =
      (raiseInc (delPacket (errorsRead s t (2 * (chanIx p + 12 * netOf p))) pid) (mkInc 0x0608 utRouter 0 t 0 0), none) := by
  simp [headRead, hh, hhead, errorsRead]

/-- A payload that cannot be read raises 0x0102 and goes on poisoned. -/
theorem headRead_payload (hhead : isHead s pid p = true) (hh : mget 0 (getTile s t).err (2 * (chanIx p + 12 * netOf p)) = 0)
    (hb : mget 0 (getTile s t).err (2 * (chanIx p + 12 * netOf p) + 1) = 2) :
    let key := 2 * (chanIx p + 12 * netOf p)
    let q := { p with body := poisonBody p.body }
    headRead s t pid p = (setPacket (raiseInc (errorsRead s t key) (mkInc 0x0102 utRouter 0 t 0 (key + 1))) pid q, some q) := by
  simp [headRead, hh, hb, hhead, errorsRead]

end

end Sys2Proof.Machine
end

section
/-!
PROOFS. PACKET_HOP (R292, R296 to R303, R305, Table 9.4): a packet at a router, and one that a satellite injects.
-/
namespace Sys2Proof.Machine
open Sys2Proof

theorem incGrows_hopTo (s : State) (t pid : Nat) (p : Packet) (out : Nat) (q : Packet) : IncGrows s (hopTo s t pid p out q) := by
  unfold hopTo
  split
  · exact incGrows_of_inc (granted_inc s t out p)
  · exact incGrows_setTile ..

theorem incGrows_hopAt (s : State) (t pid : Nat) (p : Packet) : IncGrows s (hopAt s t pid p) := by
  unfold hopAt
  extract_lets go
  have hgo (out : Nat) (q : Packet) : IncGrows s (go out q) := incGrows_hopTo s t pid p out q
  split
  · exact incGrows_routerRefuse ..
  · split
    · exact incGrows_refl s
    · split
      · exact incGrows_refl s
      · exact incGrows_refl s
      · split
        · exact incGrows_routerRefuse ..
        · split
          · exact hgo ..
          · split
            · exact incGrows_routerRefuse ..
            · exact hgo ..
        · exact hgo ..

/-- A packet that fails the first check is refused with the incident of that check (R297, R298). -/
theorem hopAt_fails_check {p : Packet} {c : Nat} (hf : p.fresh = true) (hc : firstCheck p = some c) (s : State) (t pid : Nat) :
    hopAt s t pid p = routerRefuse s t pid p .fault (some c) := by
  simp [hopAt, hf, hc]

/-- What a router does with a packet by its route: `att` is the attach port that its address names. -/
def hopBy (s : State) (t pid : Nat) (p : Packet) (att : Option (Nat × Nat)) : Route → State
  | .refused => routerRefuse s t pid p .refusedFenced none
  | .here =>
    match att with
    | none => hopTo s t pid p 4 { p with loc := .deliver t, fresh := false }
    | some (die, k) =>
      if dieRefuses s die k p.body then routerRefuse s t pid p .refusedFenced none
      else hopTo s t pid p 5 { p with loc := .die die k, fresh := false }
  | .go port q => hopTo s t pid p port (crossLink t port q)

section
variable {s : State} {t pid d : Nat} {p : Packet} {att : Option (Nat × Nat)} (hc : p.fresh = true → firstCheck p = none)
  (hg : qaGroupForm p.dst = false) (hrect : ∀ a b c e f g h, p.body ≠ .rect a b c e f g h) (hd : targetOf p.dst = some (d, att))
include hc hg hrect hd

/-- A packet to one place that passes the first check goes by its route. -/
theorem hopAt_by_route : hopAt s t pid p = hopBy s t pid p att (routeAt s t d p) := by
  unfold hopAt
  extract_lets go
  split
  · next c h =>
    split at h
    · next hf => exact absurd (h.symm.trans (hc hf)) nofun
    · cases h
  · rw [if_neg (by rw [hg]; exact Bool.false_ne_true)]
    split
    · next h => exact absurd h (hrect _ _ _ _ _ _ _)
    · next h _ => exact absurd (h.symm.trans hd) nofun
    · next d' att' h _ =>
      obtain ⟨rfl, rfl⟩ : d' = d ∧ att' = att := by simpa using h.symm.trans hd
      unfold hopBy
      cases routeAt s t d' p with
      | refused => rfl
      | here => cases att' <;> rfl
      | go port q => rfl

end

/-! ### The command -/

section
variable {s : State} {pid t pt : Nat} {p : Packet} (hp : getPacket s pid = some p) (hl : p.loc = .router t pt) (hm : meshUp s t = true)
  (hhead : isHead s pid p = true)
include hp hl hm hhead

/-- The head of a channel is read, and goes on if it can be. -/
theorem exec_packetHop :
    exec (.packetHop pid) s = .next ((headRead s t pid p).2.elim (headRead s t pid p).1 (hopAt (headRead s t pid p).1 t pid)) := by
  show execPacketHop pid s = _
  unfold execPacketHop
  simp only [hp, hl, hm, hhead, Bool.not_true, Bool.or_self, Bool.false_eq_true, if_false]
  cases (headRead s t pid p).2 <;> rfl

variable (hpid : pid < s.net.next)
include hpid

/-- A packet without an error that fails no check is granted the output of its route, or waits, is delivered, or is refused (R299 to R303). -/
theorem packetHop_routed {d : Nat} {att : Option (Nat × Nat)} (hh : mget 0 (getTile s t).err (2 * (chanIx p + 12 * netOf p)) = 0)
    (hb : mget 0 (getTile s t).err (2 * (chanIx p + 12 * netOf p) + 1) = 0) (hc : p.fresh = true → firstCheck p = none)
    (hg : qaGroupForm p.dst = false) (hrect : ∀ a b c e f g h, p.body ≠ .rect a b c e f g h) (hraw : ∀ a b, p.body ≠ .raw a b)
    (hd : targetOf p.dst = some (d, att)) :
    let back : Packet := injected t (qaMake t (answerUnit t p) 0) p.src (unitFold s t (answerUnit t p)) (epochAt s t) true
      (.reply .refusedFenced (bodyKind p.body) (qaQueue p.src))
    ∃ u, exec (.packetHop pid) s = .next u ∧
      (∀ port q, routeAt s t d p = .go port q → hopped s u t pid p port (crossLink t port q)) ∧
      (p.yph = false → tileX t ≠ tileX d → p.fresh = true → ∀ neg, chooseDir 100 (tileX t) (tileX d) (xBroken s t) = some neg →
        let port := if neg then 1 else 0
        hopped s u t pid p port { p with vch := dateLine t port, dir := neg, fresh := false, loc := .router (neighbour t port) (enters port) }) ∧
      (p.yph = false → tileX t = tileX d → tileY t ≠ tileY d → ∀ neg, chooseDir 110 (tileY t) (tileY d) (yBroken s t) = some neg →
        let port := if neg then 3 else 2
        hopped s u t pid p port
          { p with vch := dateLine t port, yph := true, dir := neg, fresh := false, loc := .router (neighbour t port) (enters port) }) ∧
      (tileX t = tileX d → tileY t = tileY d → att = none → hopped s u t pid p 4 { p with loc := .deliver t, fresh := false }) ∧
      (tileX t = tileX d → tileY t = tileY d → ∀ die k, att = some (die, k) → dieRefuses s die k p.body = false →
        hopped s u t pid p 5 { p with loc := .die die k, fresh := false }) ∧
      ((routeAt s t d p = .refused ∨ (tileX t = tileX d ∧ tileY t = tileY d ∧ ∃ die k, att = some (die, k) ∧ dieRefuses s die k p.body = true)) →
        getPacket u pid = none ∧ (∀ b ws, p.body = .msg b ws → answeredWith s u pid back)) := by
  intro back
  have hx : exec (.packetHop pid) s = .next (hopBy s t pid p att (routeAt s t d p)) := by
    rw [exec_packetHop hp hl hm hhead, headRead_clean hh hb]
    exact congrArg Host.Outcome.next (hopAt_by_route hc hg hrect hd)
  have hgo {out : Nat} {q : Packet} (hq : q.body = p.body) : hopped s (hopTo s t pid p out q) t pid p out q :=
    hopped_hopTo hp hhead (by rw [hq]; exact hraw) t out
  have hroute {port : Nat} {q : Packet} (h : routeAt s t d p = .go port q) :
      hopped s (hopBy s t pid p att (routeAt s t d p)) t pid p port (crossLink t port q) := by
    have hbody : q.body = p.body := routeAt_body h
    rw [h]
    exact hgo (q := crossLink t port q) hbody
  refine ⟨_, hx, fun port q h => hroute h, fun hy hne hf neg hdir => ?_, fun hy hxe hne neg hdir => ?_, fun hxe hye ha => ?_,
    fun hxe hye die k ha hz => ?_, fun h => ?_⟩
  · have h := hroute (routeAt_begin_x hy hne hf hdir)
    rwa [crossLink, Bool.false_or] at h
  · have h := hroute (routeAt_begin_y hy hxe hne hdir)
    rwa [crossLink, Bool.false_or] at h
  · subst ha
    rw [routeAt_here hxe hye]
    exact hgo rfl
  · subst ha
    rw [routeAt_here hxe hye, hopBy, if_neg (by rw [hz]; exact Bool.false_ne_true)]
    exact hgo rfl
  · have hr : hopBy s t pid p att (routeAt s t d p) = routerRefuse s t pid p .refusedFenced none := by
      rcases h with h | ⟨hxe, hye, die, k, rfl, hz⟩
      · rw [h]
        rfl
      · rw [routeAt_here hxe hye, hopBy, if_pos hz]
    rw [hr]
    exact ⟨getPacket_routerRefuse hpid .., fun b ws hbody => routerRefuse_answers hp hpid hbody ..⟩

/-- A packet whose header cannot be read is discarded; one whose payload cannot be read raises 0x0102; one that fails the first router's check is
removed with the incident of that check, and a message answered. -/
theorem packetHop_read :
    let key := 2 * (chanIx p + 12 * netOf p)
    ∃ u, exec (.packetHop pid) s = .next u ∧
      (mget 0 (getTile s t).err key = 2 → getPacket u pid = none ∧ u.net.next = s.net.next ∧ raised s u t 0x0608 0 0) ∧
      (mget 0 (getTile s t).err key = 0 → mget 0 (getTile s t).err (key + 1) = 2 → raisedFirst s u t 0x0102 0 (BitVec.ofNat 64 (key + 1))) ∧
      (mget 0 (getTile s t).err key = 0 → mget 0 (getTile s t).err (key + 1) = 0 → p.fresh = true → ∀ c, firstCheck p = some c →
        getPacket u pid = none ∧
        raised s u t c 0 (BitVec.ofNat 64 (if c = 0x0502 then p.dst + p.src * 2 ^ 23 + bodyKind p.body * 2 ^ 48 else p.dst)) ∧
        (∀ b ws, p.body = .msg b ws → answeredWith s u pid (injected t (qaMake t (answerUnit t p) 0) p.src (unitFold s t (answerUnit t p))
          (epochAt s t) true (.reply .fault (bodyKind p.body) (qaQueue p.src))))) := by
  intro key
  refine ⟨_, exec_packetHop hp hl hm hhead, fun hh => ?_, fun hh hb => ?_, fun hh hb hf c hcheck => ?_⟩
  · rw [headRead_header hhead hh]
    have hn := congrArg State.net (raiseInc_frame (delPacket (errorsRead s t key) pid) (mkInc 0x0608 utRouter 0 t 0 0))
    have hnet : (raiseInc (delPacket (errorsRead s t key) pid) (mkInc 0x0608 utRouter 0 t 0 0)).net = (delPacket s pid).net := hn
    have hnext : (raiseInc (delPacket (errorsRead s t key) pid) (mkInc 0x0608 utRouter 0 t 0 0)).net.next = s.net.next := by
      rw [hnet]
      rfl
    refine ⟨?_, hnext, raised_congr (s := delPacket (errorsRead s t key) pid) rfl rfl rfl (raised_raiseInc ..)⟩
    exact (getPacket_congr hnet pid).trans (getPacket_delPacket_same s pid)
  · rw [headRead_payload hhead hh hb]
    have hr := raised_raiseInc (errorsRead s t key) (mkInc 0x0102 utRouter 0 t 0 (key + 1))
    exact raisedFirst_of_grows (raised_congr (s := errorsRead s t key) (u' := setPacket _ pid { p with body := poisonBody p.body }) rfl rfl rfl hr)
      (incGrows_hopAt ..)
  · rw [headRead_clean hh hb]
    have hr : (some p).elim s (hopAt s t pid) = routerRefuse s t pid p .fault (some c) := hopAt_fails_check hf hcheck s t pid
    have hraise := raised_routerRefuse s t pid p .fault c
    simp only [packetDetail, beq_iff_eq] at hraise
    rw [hr]
    exact ⟨getPacket_routerRefuse hpid .., hraise, fun b ws hbody => routerRefuse_answers hp hpid hbody ..⟩

end

/-- A packet of a satellite enters the mesh by its attach port, or waits for room there (R290). -/
theorem packetHop_enters {s : State} {pid d k : Nat} {p : Packet} (hp : getPacket s pid = some p) (hl : p.loc = .die d k)
    (hown : ¬(qaEdgeForm p.dst = true ∧ edgeDie p.dst = d)) (hup : attachUp s d k = true) :
    ∃ u, exec (.packetHop pid) s = .next u ∧
      (chanRoom s (attachTile d k) 5 false p.ctl p.body = false → u = s) ∧
      (chanRoom s (attachTile d k) 5 false p.ctl p.body = true →
        getPacket u pid = some { p with loc := .router (attachTile d k) 5, fresh := true, yph := false, vch := false, arr := s.net.seq,
                                        cyc := cyclesOf s (attachTile d k) } ∧
        (∀ k', k' ≠ pid → getPacket u k' = getPacket s k') ∧ { u with net := s.net } = s) := by
  let q := { p with loc := .router (attachTile d k) 5, fresh := true, yph := false, vch := false }
  have hx : exec (.packetHop pid) s = .next (if chanRoom s (attachTile d k) 5 false p.ctl p.body then movePacket s pid q else s) := by
    have hown' : (qaEdgeForm p.dst && edgeDie p.dst == d) = false := by simpa using hown
    show execPacketHop pid s = _
    unfold execPacketHop
    simp only [hp, hl, hown', hup, Bool.not_true, Bool.false_or, Bool.false_eq_true, if_false, Bool.not_eq_true', apply_ite Host.Outcome.next]
    have hroom : roomFor s q = chanRoom s (attachTile d k) 5 false p.ctl p.body := rfl
    rw [← hroom]
    show (if roomFor s q = false then _ else _) = _
    cases roomFor s q <;> rfl
  refine ⟨_, hx, fun h => ?_, fun h => ?_⟩
  · rw [if_neg (by rw [h]; exact Bool.false_ne_true)]
  · rw [if_pos h]
    exact ⟨getPacket_movePacket_same s pid fun a c e => Loc.noConfusion (congrArg Packet.loc e), fun k' hk => getPacket_movePacket_other s q hk,
      movePacket_frame s pid q⟩

/-- Settles O23: a packet that a router has read goes by its route, one that it cannot read or that fails its check is discarded or refused, and one
from a satellite enters at its attach port. -/
theorem packetsCrossTheMesh : Obligations.PacketsCrossTheMesh :=
  ⟨fun _ _ _ _ _ _ _ hp hpid hl hm hhead hh hb hc hg hrect hraw hd => packetHop_routed hp hl hm hhead hpid hh hb hc hg hrect hraw hd,
    fun _ _ _ _ _ hp hpid hl hm hhead => packetHop_read hp hl hm hhead hpid, fun _ _ _ _ _ => packetHop_enters⟩

end Sys2Proof.Machine
end

section
/-!
PROOFS. What a step of Mantle leaves of the incident path (R326, R463, R511 to R517): installing an image keeps it, and what reads memory or
ends a recovery only adds records.
-/
namespace Sys2Proof.Machine
open Sys2Proof

/-! ### Installing an image keeps the incident path -/

theorem foldl_inc {α : Type} {f : State → α → State} (h : ∀ s x, (f s x).inc = s.inc) (l : List α) (s : State) : (l.foldl f s).inc = s.inc :=
  foldl_keeps State.inc f l s h

theorem putWord_inc (s : State) (k t u fold slot : Nat) (w : Nat × Nat × Nat) : (putWord s k t u fold slot w).inc = s.inc := by
  unfold putWord
  extract_lets i old
  split
  case h_6 =>
    split
    · exact setFlow_inc ..
    · exact setMu_inc ..
  all_goals rfl

theorem putSection_inc (b : Nat) (s : State) (x : Section) : (putSection b s x).inc = s.inc := by
  refine foldl_inc (fun s _ => foldl_inc (fun s _ => ?_) _ s) _ s
  split
  · rfl
  · exact foldl_inc (fun _ _ => putWord_inc ..) _ s

theorem dropVers_inc (s : State) (t k : Nat) : (dropVers s t k).inc = s.inc := by
  refine foldl_inc (fun s _ => foldl_inc (fun s _ => ?_) _ s) _ s
  extract_lets m n
  split
  · rfl
  · exact (setMu_inc ..).trans (setCu_inc ..)

theorem cuLate_inc (s : State) (t k : Nat) : (cuLate s t k).inc = s.inc := by
  unfold cuLate
  extract_lets c f late
  split
  · rfl
  · exact setCu_inc ..

theorem cuLeave_inc (s : State) (t k : Nat) : (cuLeave s t k).inc = s.inc := (cuLate_inc ..).trans (dropVers_inc ..)

theorem clearTile_inc (r : Nat) (s : State) (t : Nat) : (clearTile r s t).inc = s.inc := by
  unfold clearTile
  extract_lets v1 v2 v3 v4 v5 v6
  have h1 : v1.inc = s.inc := foldl_inc (fun _ _ => cuLeave_inc ..) _ s
  have h2 : v2.inc = v1.inc := foldl_inc (fun _ _ => setFlow_inc ..) _ v1
  have h3 : v3.inc = v2.inc := foldl_inc (fun _ _ => setWick_inc ..) _ v2
  have h4 : v4.inc = v3.inc := foldl_inc (fun _ _ => setFlow_inc ..) _ v3
  have h5 : v5.inc = v4.inc := foldl_inc (fun _ _ => setCu_inc ..) _ v4
  have h6 : v6.inc = v5.inc := foldl_inc (fun _ _ => setMu_inc ..) _ v5
  exact (setTile_inc ..).trans (h6.trans (h5.trans (h4.trans (h3.trans (h2.trans h1)))))

theorem dropDisabled_inc (s : State) (t : Nat) : (dropDisabled s t).inc = s.inc := foldl_inc (fun _ _ => setWick_inc ..) _ s

theorem pairImage_inc (img : Image) (s : State) (t : Nat) : (pairImage img s t).inc = s.inc := by
  refine foldl_inc (fun s _ => ?_) _ s
  split
  · rfl
  · refine foldl_inc (fun s _ => ?_) _ s
    split
    · exact setWick_inc ..
    · rfl

theorem installImage_inc (s : State) (r : Nat) (img : Image) (from_ : MAddr) (len : Nat) : (installImage s r img from_ len).inc = s.inc := by
  unfold installImage
  extract_lets old base g ts v1 v2 v3 v4 v5
  have h1 : v1.inc = s.inc := foldl_inc (fun _ _ => clearTile_inc ..) _ s
  have h2 : v2.inc = v1.inc := setRegion_inc ..
  have h3 : v3.inc = v2.inc := foldl_inc (fun _ _ => putSection_inc ..) _ v2
  have h4 : v4.inc = v3.inc := foldl_inc (fun _ _ => pairImage_inc ..) _ v3
  have h5 : v5.inc = v4.inc := foldl_inc (fun s _ => foldl_inc (fun _ _ => setFlow_inc ..) _ s) _ v4
  exact (foldl_inc (fun _ _ => dropDisabled_inc ..) _ v5).trans (h5.trans (h4.trans (h3.trans (h2.trans h1))))

theorem discardTokens_inc (s : State) (r : Nat) : (discardTokens s r).1.inc = s.inc := setRegion_inc ..

theorem tileReset_inc (s : State) (t : Nat) : (tileReset s t).inc = s.inc := foldl_inc (fun _ _ => setWick_inc ..) _ s

theorem holdInto_inc (s : State) (ts : List Nat) (on : Bool) : (holdInto s ts on).inc = s.inc := by
  refine foldl_inc (fun s _ => foldl_inc (fun s _ => ?_) _ s) _ s
  extract_lets n
  split
  · rfl
  · exact setTile_inc ..

theorem movedTile_inc (s : State) (t : Nat) : (movedTile s t).inc = s.inc :=
  (setTile_inc ..).trans (foldl_inc (fun _ _ => setWick_inc ..) (List.range 48) _)

theorem servedAnew_inc (s : State) (t : Nat) (u : Option Nat) : (servedAnew s t u).inc = s.inc := by
  refine (setTile_inc ..).trans ((tileReset_inc ..).trans ((foldl_inc (fun v c => ?_) _ _).trans (foldl_inc (fun v m => ?_) _ _)))
  · split
    · exact setWick_inc ..
    · rfl
  · split
    · exact setMu_inc ..
    · rfl

theorem portCount_inc (s : State) (d lane i : Nat) : (portCount s d lane i).inc = s.inc := setPd_inc ..

theorem logAdd_inc (s : State) (d : Nat) (jn : Bool) (data : List Byte) (mark : Option Nat) (supp : Bool) :
    (logAdd s d jn data mark supp).inc = s.inc := by
  unfold logAdd
  extract_lets l
  split
  · rfl
  · exact setPd_inc ..

theorem pdLogEvents_inc (s : State) (d : Nat) : (pdLogEvents s d).inc = s.inc := by
  unfold pdLogEvents
  extract_lets x done v
  refine (foldl_inc (fun s e => ?_) _ v).trans (setPd_inc ..)
  split
  · next o _ =>
    extract_lets lane v1 v2
    have h1 : v1.inc = s.inc := by
      unfold v1
      split
      · exact portCount_inc ..
      · rfl
    have h2 : v2.inc = s.inc := by
      unfold v2
      split
      · rfl
      · split
        · exact (portCount_inc ..).trans h1
        · exact h1
    split
    · exact h2
    · exact (logAdd_inc ..).trans h2
  · rfl

theorem unsuppress_inc (s : State) (g : Nat) : (unsuppress s g).inc = s.inc :=
  foldl_inc (fun _ _ => (pdLogEvents_inc ..).trans ((setPd_inc ..).trans (setPd_inc ..))) _ s

theorem stopRegion_inc (s : State) (r : Nat) : (stopRegion s r).inc = s.inc :=
  have h := congrArg State.inc (besideStop_stopRegion s r)
  h


/-! ### Reading memory only adds incidents (R362, R366, R499) -/

theorem incGrows_mirrorFix (s : State) (m w : Nat) : IncGrows s (mirrorFix s m w).1 := by
  unfold mirrorFix
  extract_lets o x ok r v1 v2
  split
  · exact (incGrows_of_inc (u := v2) ((setMsd_inc ..).trans (setMsd_inc ..))).trans (incGrows_raiseInc ..)
  · exact incGrows_refl s

theorem incGrows_hbmRaise (s : State) (m corrected : Nat) : IncGrows s (hbmRaise s m corrected) := by
  unfold hbmRaise
  split
  · exact incGrows_raiseCoal ..
  · exact incGrows_refl s

theorem incGrows_memberRead (s : State) (mir : Bool) (m a n : Nat) : IncGrows s (memberRead s mir m a n).2 := by
  unfold memberRead
  extract_lets v r
  have hv : IncGrows s v := by
    refine incGrows_foldl (fun u w => ?_) _ s
    extract_lets x
    have hfix : IncGrows u x.1 := by
      unfold x
      split
      · exact incGrows_mirrorFix ..
      · exact incGrows_refl u
    split
    · exact hfix
    · exact hfix.trans ((incGrows_of_inc (setMsd_inc ..)).trans (incGrows_raiseInc ..))
  exact hv.trans ((incGrows_of_inc (setMsd_inc ..)).trans (incGrows_hbmRaise ..))

theorem incGrows_wickRead (s : State) (t c a n : Nat) : IncGrows s (wickRead s t c a n).2.2 := by
  unfold wickRead
  extract_lets w ws one two v1 v2 v3
  have h1 : IncGrows s v1 := incGrows_of_inc (setWick_inc ..)
  have h2 : IncGrows v1 v2 := incGrows_foldl (fun _ _ => (incGrows_of_inc (setTile_inc ..)).trans (incGrows_raiseCoal ..)) _ v1
  have h3 : IncGrows v2 v3 := incGrows_foldl (fun _ _ => incGrows_raiseUnit ..) _ v2
  exact h1.trans (h2.trans h3)

theorem incGrows_modReadPiece (s : State) (die a n : Nat) : IncGrows s (modReadPiece s die a n).2.2 := by
  unfold modReadPiece
  split
  · split
    · split
      · exact incGrows_refl s
      · exact incGrows_memberRead ..
    · exact incGrows_raiseInc ..
  · split
    · split
      · exact incGrows_refl s
      · split
        · exact incGrows_wickRead ..
        · exact incGrows_muRead ..
    · exact incGrows_raiseInc ..

theorem incGrows_modRead (s : State) (die a n : Nat) : IncGrows s (modRead s die a n).2.2 := by
  have step (acc r : List PByte × Outc × State) (hr : IncGrows acc.2.2 r.2.2) :
      IncGrows acc.2.2 (if acc.2.1 ≠ .done then acc else (acc.1 ++ r.1, r.2.1, r.2.2)).2.2 := by
    split
    · exact incGrows_refl _
    · exact hr
  exact List.foldlRecOn (motive := fun acc : List PByte × Outc × State => IncGrows s acc.2.2) _ _ (incGrows_refl s) fun acc h _ _ =>
    h.trans (step acc _ (incGrows_modReadPiece ..))

/-! ### A recovery reloads, restores and replays (R511 to R517) -/

theorem incGrows_foldl_fst {α β : Type} {f : State × β → α → State × β} (hf : ∀ p x, IncGrows p.1 (f p x).1) (l : List α) (p : State × β) :
    IncGrows p.1 (l.foldl f p).1 :=
  List.foldlRecOn (motive := fun q : State × β => IncGrows p.1 q.1) l f (incGrows_refl p.1) fun q h x _ => h.trans (hf q x)

theorem incGrows_imageAgain (s : State) (r : Nat) : IncGrows s (imageAgain s r).2 := by
  simp only [imageAgain]
  split
  · split
    · exact incGrows_modRead ..
    · split <;> exact incGrows_modRead ..
  · exact incGrows_refl s

theorem incGrows_reloadRegion (s : State) (r : Nat) : IncGrows s (reloadRegion s r).1 := by
  have hi := incGrows_imageAgain s r
  unfold reloadRegion
  extract_lets g
  split
  · next h =>
    rw [h] at hi
    exact hi.trans (incGrows_of_inc (installImage_inc ..))
  · next h =>
    rw [h] at hi
    exact hi

theorem restoreState_inc (s : State) (t m : Nat) (blk : List Byte) : (restoreState s t m blk).inc = s.inc := by
  unfold restoreState
  extract_lets word rings v
  have hv : v.inc = s.inc := setMu_inc ..
  split
  · exact hv
  · exact (foldl_inc (fun _ _ => setCu_inc ..) _ v).trans hv

/-- A unit of memory that is written back and given its state again raises nothing. -/
theorem restored_inc (s : State) (t m : Nat) (f : Mu → Mu) (blk : List Byte) : (restoreState (modMu s t m f) t m blk).inc = s.inc :=
  (restoreState_inc ..).trans (setMu_inc ..)

theorem incGrows_ite_fst {s u v : State} {c : Prop} [Decidable c] {a b : Bool} (hu : IncGrows s u) (hv : v.inc = u.inc) :
    IncGrows s (if c then (u, a) else (v, b)).1 := by
  split
  · exact hu
  · exact hu.trans (incGrows_of_inc hv)

theorem incGrows_restoreMu (s : State) (w : Nat) (e : Nat × Nat) : IncGrows s (restoreMu s w e).1 := by
  unfold restoreMu
  dsimp only
  split
  · exact incGrows_ite_fst (incGrows_modRead ..) (restored_inc ..)
  · exact incGrows_refl s

theorem incGrows_abandon (s : State) (g cause : Nat) : IncGrows s (abandon s g cause) := by
  unfold abandon
  extract_lets v1 v2 v3
  have h1 : v1.inc = s.inc := unsuppress_inc ..
  have h2 : v2.inc = v1.inc := modMantle_inc ..
  have h3 : v3.inc = v2.inc := by
    refine foldl_inc (fun v r => ?_) _ v2
    extract_lets st
    split
    · exact stopRegion_inc ..
    · rfl
  exact (incGrows_of_inc (h3.trans (h2.trans h1))).trans (incGrows_raiseInc ..)

theorem mantleTxn_inc (s : State) (chgs : List Chg) (groups : List Nat) : (mantleTxn s chgs groups).1.inc = s.inc :=
  modTxn_inc (mantleCommit s chgs).1 (mantleCommit s chgs).2 _

theorem incGrows_reloadGroup (s : State) (g : Nat) : IncGrows s (reloadGroup s g) := by
  unfold reloadGroup
  split
  · exact incGrows_refl s
  · extract_lets rs a b v1 v2 y
    have ha : IncGrows s a.1 := incGrows_foldl_fst (p := (s, true)) (fun p r => by
      dsimp only
      split
      · exact incGrows_reloadRegion ..
      · exact incGrows_refl p.1) _
    have hb : IncGrows a.1 b.1 := incGrows_foldl_fst (fun p e => by
      split
      · exact incGrows_restoreMu ..
      · exact incGrows_refl p.1) _ a
    have h1 : v1.inc = b.1.inc := by
      unfold v1
      split
      · exact foldl_inc (fun _ _ => setMu_inc ..) _ b.1
      · rfl
    have h2 : v2.inc = v1.inc := foldl_inc (fun _ _ => discardTokens_inc ..) _ v1
    split
    · exact ha.trans (hb.trans (incGrows_abandon ..))
    · exact ha.trans (hb.trans (incGrows_of_inc ((modMantle_inc ..).trans ((mantleTxn_inc ..).trans (h2.trans h1)))))

theorem incGrows_startReplay (s : State) (g : Nat) : IncGrows s (startReplay s g) := by
  unfold startReplay
  split
  · exact incGrows_refl s
  · extract_lets r
    have hr : IncGrows s r.1 := incGrows_foldl_fst (p := (s, true)) (fun p d => by
      split
      · exact incGrows_refl p.1
      · split
        · exact incGrows_of_inc (setPd_inc ..)
        · exact incGrows_refl p.1) _
    split
    · exact hr.trans (incGrows_of_inc (modMantle_inc ..))
    · exact hr.trans (incGrows_abandon ..)

/-! ### A wave that Mantle asked for (R316, R320, R512) -/

theorem mailEnd_inc (s : State) (c : MbCmd) (o : Outc) (stat : Nat) (data : List Byte) : (mailEnd s c o stat data).inc = s.inc := by
  unfold mailEnd
  split
  · exact delMail_inc ..
  · exact modMail_inc s c.id fun x => { x with ph := .done }

theorem incGrows_tabResolved (s : State) (x : TabChg) (commit : Bool) : IncGrows s (tabResolved s x commit) := by
  unfold tabResolved
  extract_lets v0 i drop v1 v2
  have h0 : v0.inc = s.inc := holdInto_inc ..
  have h1 : v1.inc = s.inc := (modMantle_inc ..).trans h0
  have h2 : v2.inc = s.inc := by
    unfold v2
    split
    · exact (fenceTile_inc ..).trans ((setTile_inc ..).trans ((foldl_inc (fun _ _ => movedTile_inc ..) _ _).trans ((servedAnew_inc ..).trans h1)))
    · exact h1
  split
  · split
    · split
      · exact (incGrows_of_inc h2).trans (incGrows_reloadGroup ..)
      · exact incGrows_of_inc h2
    · exact incGrows_of_inc h2
  · split
    · extract_lets n
      split
      · exact (incGrows_of_inc ((modMantle_inc ..).trans h0)).trans (incGrows_abandon ..)
      · exact incGrows_of_inc ((modMantle_inc ..).trans ((modMantle_inc ..).trans h0))
    · exact incGrows_of_inc ((modMantle_inc ..).trans h0)

theorem incGrows_mantleResolved (s : State) (x : Txn) (commit : Bool) : IncGrows s (mantleResolved s x commit) := by
  unfold mantleResolved
  extract_lets v1 v2
  have h1 : IncGrows s v1 := by
    unfold v1
    split
    · split
      · exact incGrows_of_inc (mailEnd_inc ..)
      · exact incGrows_of_inc (mailEnd_inc ..)
    · exact incGrows_refl s
  have h2 : IncGrows v1 v2 := by
    unfold v2
    split
    · exact incGrows_tabResolved ..
    · exact incGrows_refl v1
  split
  · exact h1.trans (h2.trans (incGrows_startReplay ..))
  · exact h1.trans h2

/-! ### The end of a wave (R326, R463) -/

theorem writeRecord_inc (s : State) (c : Cmd) (o : Outc) (detail : Nat) : (writeRecord s c o detail).inc = s.inc := by
  have h := congrArg State.inc (writeRecord_frame s c o detail)
  exact h

theorem recordOf_inc (s : State) (c : Cmd) (o : Outc) (reason low detail : Nat) : (recordOf s c o reason low detail).inc = s.inc :=
  writeRecord_inc ..

theorem closerRecord_inc (s : State) (x : Txn) (c : Cmd) : (closerRecord s x c).inc = s.inc := by
  unfold closerRecord
  extract_lets members
  split
  · exact recordOf_inc ..
  · split
    · exact writeRecord_inc ..
    · split
      · exact writeRecord_inc ..
      · exact recordOf_inc ..

theorem txnRecords_inc (s : State) (x : Txn) : (txnRecords s x).inc = s.inc := by
  unfold txnRecords
  extract_lets o reason v1 v2 _ v3
  have h1 : v1.inc = s.inc := foldl_inc (fun _ _ => recordOf_inc ..) _ s
  have h2 : v2.inc = v1.inc := by
    unfold v2
    split
    · exact closerRecord_inc ..
    · rfl
  refine (delTxn_inc ..).trans (Eq.trans ?_ (h2.trans h1))
  unfold v3
  split <;> rfl

end Sys2Proof.Machine
end

section
/-!
PROOFS. Waves are sent by order and age, 32 ns apart, and a missing report raises its incidents and fails its command (R321, R323, R326).
-/
namespace Sys2Proof.Machine
open Sys2Proof

/-! ### Sending a wave (R323) -/

/-- A wave takes the next number, at the time of the state. -/
def sentFrom (v : State) (w : Wave) : State :=
  { v with lamp := { v.lamp with wnum := (v.lamp.wnum + 1) % 65536, lastAt := some (nowPs v),
                                 sent := v.lamp.sent ++ [{ w with wnum := v.lamp.wnum, at_ := nowPs v }] } }

theorem advance_zero (s : State) : advance s 0 = s := by simp [advance]

theorem reachPs_advance (s : State) (ps : Nat) : ∃ n, reachPs s ps = advance s n := ⟨_, rfl⟩

theorem reachNs_advance (s : State) (ns : Nat) : ∃ n, reachNs s ns = advance s n := ⟨_, rfl⟩

/-- A wave is sent after no more than the passing of time, at least 32 ns after the last. -/
theorem sendWave_eq (s : State) (w : Wave) :
    ∃ n, sendWave s w = sentFrom (advance s n) w ∧ ∀ t, s.lamp.lastAt = some t → t + 32000 ≤ nowPs (advance s n) := by
  unfold sendWave
  split
  · next t ht =>
    have hle := le_nowPs_reachPs s (t + 32000)
    obtain ⟨n, hn⟩ := reachPs_advance s (t + 32000)
    rw [hn] at hle ⊢
    exact ⟨n, rfl, fun t' ht' => by rw [ht] at ht'; cases ht'; exact hle⟩
  · next ht => exact ⟨0, by rw [advance_zero]; rfl, fun t' ht' => by rw [ht] at ht'; cases ht'⟩

/-- The least value of a list that does not lie above the start is what the fold of `min` answers. -/
theorem foldl_min_eq {α : Type} {f : α → Nat} {m : Nat} :
    ∀ {l : List α} {n : Nat}, m ≤ n → (∀ y ∈ l, m ≤ f y) → (m = n ∨ ∃ y ∈ l, f y = m) → l.foldl (fun n y => min n (f y)) n = m
  | [], n, _, _, hit => by
    obtain h | ⟨y, hy, -⟩ := hit
    · exact h.symm
    · cases hy
  | y :: l, n, hn, hl, hit => by
    have hy := hl y (List.mem_cons_self ..)
    refine foldl_min_eq (l := l) (n := min n (f y)) (le_min hn hy) (fun z hz => hl z (List.mem_cons_of_mem _ hz)) ?_
    obtain h | ⟨z, hz, h⟩ := hit
    · left
      omega
    · obtain rfl | hz := List.mem_cons.1 hz
      · left
        omega
      · exact .inr ⟨z, hz, h⟩

theorem ldel_append_cons {α : Type} (post : List α) (a : α) : ∀ pre : List α, ldel (pre ++ a :: post) pre.length = pre ++ post
  | [] => rfl
  | b :: pre => congrArg (b :: ·) (ldel_append_cons post a pre)

theorem waveRank_le (t : WType) : waveRank t ≤ 9 := by cases t <;> decide

/-- The wave that goes next stands where no wave before it has its rank and none after it a higher one. -/
theorem execWaveSend_eq {s : State} {pre post : List Wave} {w : Wave} (hon : lampOn s = true) (hp : s.lamp.pending = pre ++ w :: post)
    (hpre : ∀ y ∈ pre, waveRank w.wtype < waveRank y.wtype) (hpost : ∀ y ∈ post, waveRank w.wtype ≤ waveRank y.wtype) :
    exec .waveSend s = .next (sendWave { s with lamp := { s.lamp with pending := pre ++ post } } w) := by
  have hbest : (pre ++ w :: post).foldl (fun n y => min n (waveRank y.wtype)) 9 = waveRank w.wtype := by
    refine foldl_min_eq (waveRank_le _) (fun y hy => ?_) (.inr ⟨w, by simp, rfl⟩)
    obtain h | h := List.mem_append.1 hy
    · exact (hpre y h).le
    · obtain rfl | h := List.mem_cons.1 h
      · exact le_rfl
      · exact hpost y h
  have hidx : (pre ++ w :: post).findIdx? (fun y => waveRank y.wtype == waveRank w.wtype) = some pre.length := by
    have hnone : pre.findIdx? (fun y => waveRank y.wtype == waveRank w.wtype) = none :=
      List.findIdx?_eq_none_iff.2 fun y hy => beq_false_of_ne (hpre y hy).ne'
    rw [List.findIdx?_append, hnone, List.findIdx?_cons, if_pos (beq_self_eq_true _)]
    simp
  show execWaveSend s = _
  unfold execWaveSend
  simp [hon, hp, hbest, hidx, ldel_append_cons]

theorem waveSend_sends {s : State} {pre post : List Wave} {w : Wave} (hon : lampOn s = true) (hp : s.lamp.pending = pre ++ w :: post)
    (hpre : ∀ y ∈ pre, waveRank w.wtype < waveRank y.wtype) (hpost : ∀ y ∈ post, waveRank w.wtype ≤ waveRank y.wtype) :
    ∃ u, exec .waveSend s = .next u ∧ u.lamp.pending = pre ++ post ∧ u.lamp.sent = s.lamp.sent ++ [{ w with wnum := s.lamp.wnum, at_ := nowPs u }] ∧
      u.lamp.wnum = (s.lamp.wnum + 1) % 65536 ∧ u.lamp.lastAt = some (nowPs u) ∧ (∀ t, s.lamp.lastAt = some t → t + 32000 ≤ nowPs u) ∧
      { u with lamp := s.lamp, time := s.time } = s := by
  let v : State := { s with lamp := { s.lamp with pending := pre ++ post } }
  obtain ⟨n, he, hgap⟩ := sendWave_eq v w
  exact ⟨sentFrom (advance v n) w, (execWaveSend_eq hon hp hpre hpost).trans (congrArg _ he), rfl, rfl, rfl, rfl, hgap, rfl⟩

/-- Before each multiple of 1,000 ns a TIME_MARK names it (R323). -/
theorem timeMarkSchedule_marks {s : State} (hon : lampOn s = true) (hmod : s.tc.markNext % 1000 = 0) :
    ∃ u w m, exec .timeMarkSchedule s = .next u ∧ m % 1000 = 0 ∧ s.tc.markNext ≤ m ∧ nowNs s + 300 ≤ m ∧
      (s.tc.markNext ≤ nowNs s + 300 → m < nowNs s + 1300) ∧ u.tc.markNext = m + 1000 ∧ u.lamp.pending = s.lamp.pending ∧
      u.lamp.sent = s.lamp.sent ++ [w] ∧ w.wtype = .timeMark ∧ w.warg = BitVec.ofNat 64 m ∧ w.wnum = s.lamp.wnum ∧ w.owner = .none ∧
      { u with lamp := s.lamp, time := s.time, tc := s.tc } = s := by
  obtain ⟨m, hm⟩ : ∃ m, m = max s.tc.markNext ((nowNs s + 300 + 999) / 1000 * 1000) := ⟨_, rfl⟩
  obtain ⟨k, hk⟩ := reachNs_advance s (m - 300)
  let v : State := { advance s k with tc := { s.tc with markNext := m + 1000 } }
  let w : Wave := Wave.ask .timeMark 0 false (BitVec.ofNat 64 m) .none
  obtain ⟨n, he, -⟩ := sendWave_eq v w
  have hx : exec .timeMarkSchedule s = .next (sentFrom (advance v n) w) := by
    rw [← he]
    show execTimeMarkSchedule s = _
    unfold execTimeMarkSchedule
    simp only [hon, ← hm, hk]
    rfl
  exact ⟨sentFrom (advance v n) w, _, m, hx, by omega, by omega, by omega, fun h => by omega, rfl, rfl, rfl, rfl, rfl, rfl, rfl, rfl⟩

/-! ### Raising at one source leaves the others (R501) -/

theorem sources_pushInc_other {k : Nat} {i : Inc} (h : k ≠ incSource i) (s : State) : mget [] (pushInc s i).inc.sources k = mget [] s.inc.sources k := by
  by_cases h8 : (mget [] s.inc.sources (incSource i)).length < 8
  · rw [pushInc_room s i h8]
    exact mget_mset_other _ _ _ _ _ h
  · rw [pushInc_full s i h8]

theorem sources_raiseInc_other {k : Nat} {i : Inc} (h : k ≠ incSource i) (s : State) : mget [] (raiseInc s i).inc.sources k = mget [] s.inc.sources k := by
  rw [raiseInc_eq, sources_pushInc_other (i := stamped s i) h, (of_trace_frame (traceInc_frame s i)).1]

/-- What is raised first at a source that was quiet until then. -/
theorem raisedFirst_of_quiet {s v u : State} {src cls uidx : Nat} {detail : W64} (hq : mget [] v.inc.sources src = mget [] s.inc.sources src)
    (ht : v.time = s.time) (h : raisedFirst v u src cls uidx detail) : raisedFirst s u src cls uidx detail := by
  have hn : nowNs v = nowNs s := by
    unfold nowNs
    rw [ht]
  unfold raisedFirst at h ⊢
  rwa [hq, hn] at h

theorem time_raises {α : Type} (g : α → Inc) (l : List α) (s : State) : (l.foldl (fun s x => raiseInc s (g x)) s).time = s.time :=
  have h := congrArg State.time (foldl_keeps besideErrors _ l s fun s x => besideErrors_raiseInc s (g x))
  h

/-- The first incident of a fold that is raised at a source is the first there. -/
theorem raisedFirst_raises {α : Type} (g : α → Inc) {src cls uidx : Nat} {detail : W64} :
    ∀ (l : List α) (s : State), (∃ x ∈ l, incSource (g x) = src) →
      (∀ x ∈ l, incSource (g x) = src → (g x).cls = cls ∧ (g x).uidx = uidx ∧ (g x).detail = detail) →
      raisedFirst s (l.foldl (fun s x => raiseInc s (g x)) s) src cls uidx detail
  | [], _, hex, _ => by
    obtain ⟨_, hx, _⟩ := hex
    cases hx
  | x :: l, s, hex, hall => by
    by_cases hx : incSource (g x) = src
    · obtain ⟨hc, hu, hd⟩ := hall x (List.mem_cons_self ..) hx
      have h := raised_raiseInc s (g x)
      rw [hx, hc, hu, hd] at h
      exact raisedFirst_of_grows h (incGrows_foldl (fun _ _ => incGrows_raiseInc ..) l _)
    · obtain ⟨y, hy, he⟩ := hex
      have hyl : y ∈ l := (List.mem_cons.1 hy).resolve_left fun h => hx (h ▸ he)
      have ih := raisedFirst_raises g l (raiseInc s (g x)) ⟨y, hyl, he⟩ fun z hz => hall z (List.mem_cons_of_mem _ hz)
      exact raisedFirst_of_quiet (sources_raiseInc_other (Ne.symm hx) s) (time_raises g [x] s) ih

theorem raisedFirst_trans {s v u : State} {src cls uidx : Nat} {detail : W64} (h : raisedFirst s v src cls uidx detail) (hg : IncGrows v u) :
    raisedFirst s u src cls uidx detail := by
  obtain ⟨l, hl, hf⟩ := hg.added src
  unfold raisedFirst at h ⊢
  split
  · next h8 =>
    rw [if_pos h8] at h
    obtain ⟨i, l', hc, hu, hd, ht, hs⟩ := h
    exact ⟨i, l' ++ l, hc, hu, hd, ht, by rw [hl, hs, List.append_assoc]; rfl⟩
  · next h8 =>
    rw [if_neg h8] at h
    rw [hl, h, hf (by rw [h]; omega), List.append_nil]

theorem raisedFirst_congr {s s' u : State} {src cls uidx : Nat} {detail : W64} (hi : s'.inc = s.inc) (ht : s'.time = s.time)
    (h : raisedFirst s' u src cls uidx detail) : raisedFirst s u src cls uidx detail :=
  raisedFirst_of_quiet (by rw [hi]) ht h

/-! ### A report is missing (R326) -/

theorem incGrows_failCmd (s : State) (c : Cmd) (o : Outc) (reason low : Nat) : IncGrows s (failCmd s c o reason low) :=
  have h := congrArg State.inc (failCmd_frame s c o reason low)
  incGrows_of_inc h

/-- The end of a wave that was not reported adds incidents at most. -/
theorem incGrows_waveDone_missing (s : State) (w : Wave) : IncGrows s (waveDone s w true) := by
  unfold waveDone
  split
  · split
    · exact incGrows_failCmd ..
    · exact incGrows_refl s
  · split
    · exact incGrows_refl s
    · split
      · next x _ =>
        extract_lets y v
        have hv : IncGrows s v := incGrows_of_inc (txnRecords_inc ..)
        split
        · exact hv.trans (incGrows_mantleResolved ..)
        · exact hv
      · exact incGrows_refl s

theorem waveDone_missing_cmd {s : State} {w : Wave} {id : Nat} {c : Cmd} (ho : w.owner = .cmd id) (hc : cmdById s id = some c) :
    waveDone s w true = failCmd s c .fault 0xE 0 := by
  unfold waveDone
  rw [ho]
  simp only [hc]
  rfl

theorem waveDone_unowned {s : State} {w : Wave} (missing : Bool) (ho : w.owner = .none) (ht : w.wtxn = 0) : waveDone s w missing = s := by
  unfold waveDone
  rw [ho]
  simp [ht]

/-- The incident of a field that has not reported. -/
def fieldQuietInc (w : Wave) (f : Nat) : Inc := mkInc 0x0613 utField 0 noTile 0 (w.wnum + f * 65536)

/-- The incident of a satellite that has not reported. -/
def dieQuietInc (w : Wave) (d : Nat) : Inc := mkInc 0x0613 utBrobry d noTile 0 w.wnum

/-- The satellites that owe a report of a wave. -/
def owingDies (s : State) (w : Wave) : List Nat := (s.lamp.owed.filter fun o => o.wave.wnum == w.wnum).map (·.die)

/-- The incidents of the fields that have not reported. -/
def fieldsQuiet (s : State) (w : Wave) : State := (quietFields w).foldl (fun s f => raiseInc s (fieldQuietInc w f)) s

/-- The incidents of the satellites that have not reported. -/
def diesQuiet (s : State) (w : Wave) : State := (owingDies s w).foldl (fun s d => raiseInc s (dieQuietInc w d)) s

/-- A probe is due now where a field has not reported. -/
def probeQuiet (s : State) (w : Wave) : State := if (quietFields w).isEmpty then s else modMantle s fun m => { m with probeAt := nowPs s }

theorem execWaveReportMissing_eq {s : State} {w : Wave} {rest : List Wave} (h : s.lamp.reporting = w :: rest) :
    exec .waveReportMissing s =
      .next (waveDone (probeQuiet (diesQuiet (fieldsQuiet
        (reachPs { s with lamp := { s.lamp with reporting := rest } } (w.at_ + 600000)) w) w) w) w true) := by
  show execWaveReportMissing s = _
  unfold execWaveReportMissing
  rw [h]
  rfl

theorem besideErrors_fieldsQuiet (s : State) (w : Wave) : besideErrors (fieldsQuiet s w) = besideErrors s :=
  foldl_keeps besideErrors _ _ s fun _ _ => besideErrors_raiseInc ..

theorem besideErrors_diesQuiet (s : State) (w : Wave) : besideErrors (diesQuiet s w) = besideErrors s :=
  foldl_keeps besideErrors _ _ s fun _ _ => besideErrors_raiseInc ..

theorem incGrows_fieldsQuiet (s : State) (w : Wave) : IncGrows s (fieldsQuiet s w) := incGrows_foldl (fun _ _ => incGrows_raiseInc ..) _ s

theorem incGrows_diesQuiet (s : State) (w : Wave) : IncGrows s (diesQuiet s w) := incGrows_foldl (fun _ _ => incGrows_raiseInc ..) _ s

theorem incGrows_probeQuiet (s : State) (w : Wave) : IncGrows s (probeQuiet s w) := by
  unfold probeQuiet
  split
  · exact incGrows_refl s
  · exact incGrows_of_inc (modMantle_inc ..)

/-- The first field that has not reported raises the first incident of the Lamplighter. -/
theorem raisedFirst_fieldsQuiet {w : Wave} {f : Nat} {l : List Nat} (h : quietFields w = f :: l) (s : State) :
    raisedFirst s (fieldsQuiet s w) noTile 0x0613 0 (BitVec.ofNat 64 (w.wnum + f * 65536)) := by
  unfold fieldsQuiet
  rw [h]
  exact raisedFirst_of_grows (raised_raiseInc s (fieldQuietInc w f)) (incGrows_foldl (fun _ _ => incGrows_raiseInc ..) l _)

theorem incSource_dieQuietInc (w : Wave) {d : Nat} (h : d ≠ 0) : incSource (dieQuietInc w d) = 20000 + d :=
  if_neg fun e => h (beq_iff_eq.1 e)

/-- A satellite that owes its report raises the incident at itself. -/
theorem raisedFirst_diesQuiet {s : State} {w : Wave} {o : OwedWave} (ho : o ∈ s.lamp.owed) (hn : o.wave.wnum = w.wnum) (hd : o.die ≠ 0) :
    raisedFirst s (diesQuiet s w) (20000 + o.die) 0x0613 0 (BitVec.ofNat 64 w.wnum) := by
  refine raisedFirst_raises (dieQuietInc w) _ s ⟨o.die, ?_, incSource_dieQuietInc w hd⟩ fun _ _ _ => ⟨rfl, rfl, rfl⟩
  exact List.mem_map_of_mem (List.mem_filter.2 ⟨ho, beq_iff_eq.2 hn⟩)

/-- The fields' incidents leave what the satellites have raised. -/
theorem sources_fieldsQuiet (s : State) (w : Wave) {k : Nat} (h : k ≠ noTile) : mget [] (fieldsQuiet s w).inc.sources k = mget [] s.inc.sources k :=
  foldl_keeps (fun s : State => mget [] s.inc.sources k) _ _ s fun s f => sources_raiseInc_other (i := fieldQuietInc w f) h s

/-- Raising leaves time, the Lamplighter, the engines and the hosts. -/
theorem keeps_of_besideErrors {s v : State} (h : besideErrors v = besideErrors s) :
    v.time = s.time ∧ v.lamp = s.lamp ∧ v.eng = s.eng ∧ v.hosts = s.hosts :=
  have ht := congrArg State.time h
  have hl := congrArg State.lamp h
  have he := congrArg State.eng h
  have hh := congrArg State.hosts h
  ⟨ht, hl, he, hh⟩

theorem probeQuiet_keeps (s : State) (w : Wave) : (probeQuiet s w).time = s.time ∧ (probeQuiet s w).lamp = s.lamp ∧
    (probeQuiet s w).eng = s.eng ∧ (probeQuiet s w).hosts = s.hosts := by
  unfold probeQuiet
  split
  · exact ⟨rfl, rfl, rfl, rfl⟩
  · exact ⟨rfl, rfl, rfl, rfl⟩

/-- When a deadline is reached follows from the time and the rate alone. -/
theorem reachPs_time_congr {s v : State} (ht : v.time = s.time) (hc : v.tc = s.tc) (ps : Nat) : (reachPs v ps).time = (reachPs s ps).time := by
  unfold reachPs advance perTick
  rw [ht, hc]

theorem nowPs_waveDone (s : State) (w : Wave) (missing : Bool) : nowPs (waveDone s w missing) = nowPs s := by
  have h := congrArg Lasting.ticks (lasting_waveDone s w missing)
  exact congrArg (· * 6400) h

theorem waveReportMissing_fails {s : State} {w : Wave} {rest : List Wave} (h : s.lamp.reporting = w :: rest) :
    let s1 := reachPs s (w.at_ + 600000)
    ∃ u, exec .waveReportMissing s = .next u ∧ w.at_ + 600000 ≤ nowPs u ∧
      (∀ f l, quietFields w = f :: l → raisedFirst s1 u noTile 0x0613 0 (BitVec.ofNat 64 (w.wnum + f * 65536))) ∧
      (∀ o ∈ s.lamp.owed, o.wave.wnum = w.wnum → 2 ≤ o.die → raisedFirst s1 u (20000 + o.die) 0x0613 0 (BitVec.ofNat 64 w.wnum)) ∧
      (∀ id c, w.owner = .cmd id → cmdById s id = some c → completed s u c .fault (0xE * 2 ^ 56)) ∧
      (w.owner = .none → w.wtxn = 0 → u.lamp = { s.lamp with reporting := rest }) := by
  intro s1
  let s0 : State := { s with lamp := { s.lamp with reporting := rest } }
  obtain ⟨v, hv⟩ : ∃ v, v = reachPs s0 (w.at_ + 600000) := ⟨_, rfl⟩
  have hle : w.at_ + 600000 ≤ nowPs v := hv ▸ le_nowPs_reachPs ..
  have hinc : v.inc = s1.inc := hv ▸ (reachPs_inc ..).trans (reachPs_inc s _).symm
  have hlamp : v.lamp = s0.lamp := hv ▸ reachPs_lamp ..
  have heng : v.eng = s.eng := hv ▸ reachPs_eng s0 _
  have hhosts : v.hosts = s.hosts := hv ▸ reachPs_hosts s0 _
  have htime : v.time = s1.time := hv ▸ reachPs_time_congr (s := s) (v := s0) rfl rfl _
  have hx : exec .waveReportMissing s = .next (waveDone (probeQuiet (diesQuiet (fieldsQuiet v w) w) w) w true) :=
    hv ▸ execWaveReportMissing_eq h
  clear_value s1
  clear hv
  obtain ⟨htime1, hlamp1, -, -⟩ := keeps_of_besideErrors (besideErrors_fieldsQuiet v w)
  obtain ⟨htime2, hlamp2, heng2, hhosts2⟩ :=
    keeps_of_besideErrors ((besideErrors_diesQuiet (fieldsQuiet v w) w).trans (besideErrors_fieldsQuiet v w))
  obtain ⟨htime3, hlamp3, heng3, hhosts3⟩ := probeQuiet_keeps (diesQuiet (fieldsQuiet v w) w) w
  have hend : IncGrows (diesQuiet (fieldsQuiet v w) w) (waveDone (probeQuiet (diesQuiet (fieldsQuiet v w) w) w) w true) :=
    (incGrows_probeQuiet ..).trans (incGrows_waveDone_missing ..)
  refine ⟨_, hx, ?_, fun f l hf => ?_, fun o ho hn hd => ?_, fun id c ho hc => ?_, fun ho ht0 => ?_⟩
  · rw [nowPs_waveDone]
    unfold nowPs
    rw [htime3, htime2]
    exact hle
  · exact raisedFirst_trans (raisedFirst_congr hinc htime (raisedFirst_fieldsQuiet hf v)) ((incGrows_diesQuiet ..).trans hend)
  · have ho1 : o ∈ (fieldsQuiet v w).lamp.owed := by
      rw [hlamp1, hlamp]
      exact ho
    have hq := raisedFirst_of_quiet (sources_fieldsQuiet v w (k := 20000 + o.die) (by unfold noTile; omega)) htime1
      (raisedFirst_diesQuiet ho1 hn (by omega))
    exact raisedFirst_trans (raisedFirst_congr hinc htime hq) hend
  · have hc' : cmdById (probeQuiet (diesQuiet (fieldsQuiet v w) w) w) id = some c := by
      unfold cmdById
      rw [heng3, heng2, heng]
      exact hc
    rw [waveDone_missing_cmd ho hc']
    refine completed_congr ?_ (completed_failCmd ..)
    unfold getRing getHost
    rw [hhosts3, hhosts2, hhosts]
  · rw [waveDone_unowned true ho ht0, hlamp3, hlamp2, hlamp]

/-- Settles O26: the wave of the highest order goes and is sent 32 ns after the last at the earliest, a TIME_MARK names the next multiple of 1,000 ns,
and a report that is missing raises its incidents before anything else that the end of the wave raises. -/
theorem wavesAreSentAndReported : Obligations.WavesAreSentAndReported :=
  ⟨fun _ _ _ _ hon hp hpre hpost => waveSend_sends hon hp hpre hpost, fun _ hon hmod => timeMarkSchedule_marks hon hmod,
    fun _ _ _ h => waveReportMissing_fails h⟩

end Sys2Proof.Machine
end

section
/-!
PROOFS. The answers of the fenced tiles of a rectangle write (R307). Where the packets stand in canonical form each answer stays under way; where
they are listed out of order an answer can take its number before a stale entry of the same number, and what removes the engine's other writes
removes the answer too.
-/
namespace Sys2Proof.Machine
open Sys2Proof

/-! ### Ending a staged command leaves the packets (R460) -/

theorem waveTxn_net (s : State) (tag : Nat) (commit : Bool) (o : Outc) (reason : Nat) : (waveTxn s tag commit o reason).net = s.net :=
  have h := congrArg State.net (besideTxns_waveTxn s tag commit o reason)
  h

theorem txnLapse_net (s : State) : (txnLapse s).net = s.net :=
  have h := congrArg State.net (besideTxns_txnLapse s)
  h

theorem failCmd_net (s : State) (c : Cmd) (o : Outc) (reason low : Nat) : (failCmd s c o reason low).net = s.net :=
  have h := congrArg State.net (failCmd_frame s c o reason low)
  h

theorem txnGo_net (s : State) (x : Txn) : (txnGo s x).net = s.net := by
  unfold txnGo
  extract_lets rs v due
  split
  · exact waveTxn_net ..
  · split
    · exact waveTxn_net ..
    · exact foldl_keeps State.net gateRegion rs v fun _ _ => rfl

theorem txnDecide_net (s : State) (tag : Nat) : (txnDecide s tag).net = s.net := by
  unfold txnDecide
  split
  · simp only [apply_ite State.net, waveTxn_net, txnGo_net, ite_self]
  · rfl

theorem memberFail_net (s : State) (c : Cmd) (o : Outc) (reason low : Nat) : (memberFail s c o reason low).net = s.net := by
  unfold memberFail
  extract_lets v w
  have hw : w.net = s.net := (failCmd_net ..).trans (txnLapse_net s)
  split
  · exact hw
  · split
    · split
      · exact (txnDecide_net ..).trans hw
      · exact (txnDecide_net ..).trans hw
      · exact hw
    · exact hw

/-- A short write removes the engine's other writes and leaves the packets besides. -/
theorem rectShort_net (s : State) (e : Nat) (c : Cmd) (got want : Nat) :
    (rectShort s e c got want).net = ((rectsOf s e).foldl delPacket s).net := by
  unfold rectShort
  extract_lets v st det
  split
  · exact failCmd_net ..
  · exact memberFail_net ..

theorem getPacket_foldl_delPacket {k : Nat} {l : List Nat} (h : k ∉ l) (s : State) : getPacket (l.foldl delPacket s) k = getPacket s k :=
  List.foldlRecOn (motive := fun v => getPacket v k = getPacket s k) l delPacket rfl fun v hv j hj =>
    (getPacket_delPacket_other v j k fun e => h (e ▸ hj)).trans hv

/-- In canonical form what a number is removed for is what it reads as. -/
theorem rect_of_mem_rectsOf {s : State} {e k : Nat} {q : Packet} (hwf : mwf Packet.none s.net.packets = true) (hq : getPacket s k = some q)
    (hk : k ∈ rectsOf s e) : ∃ u sk f t0 t1 o d, q.body = .rect u sk f t0 t1 o d := by
  obtain ⟨x, hx, rfl⟩ := List.mem_map.1 hk
  obtain ⟨hmem, hrect⟩ := List.mem_filter.1 hx
  have hrise : mrise 0 s.net.packets = true := (Bool.and_eq_true_iff.1 hwf).1
  have hget := mget_of_mem_mrise Packet.none hrise hmem
  have hxq : x.2 = q := by
    unfold getPacket at hq
    rw [hget] at hq
    dsimp only at hq
    split at hq
    · cases hq
    · exact Option.some.inj hq
  rw [hxq] at hrect
  split at hrect
  · next heq => exact ⟨_, _, _, _, _, _, _, heq⟩
  · cases hrect

/-! ### The answers of fenced tiles (R303, R307) -/

/-- What tile `t` answers to a rectangle write that it refuses. -/
def rectAnswer (s : State) (t : Nat) (p : Packet) : Packet :=
  injected t (qaMake t (answerUnit t p) 0) p.src (unitFold s t (answerUnit t p)) (epochAt s t) true (.reply .refusedFenced 12 0)

section
variable {s : State} {p : Packet} {a b c t0 t1 o : Nat} {data : List Byte} (hb : p.body = .rect a b c t0 t1 o data)
include hb

theorem answerFrom_rect (t : Nat) : answerFrom s t p .refusedFenced =
    putPacket s (newPacket (qaMake t (answerUnit t p) 0) p.src (unitFold s t (answerUnit t p)) (epochAt s t) (.reply .refusedFenced 12 0)
      (.router t 4) p.id) := by
  unfold answerFrom replyTo
  rw [hb]
  rfl

/-- The answers change the packets alone, in canonical form, and put each under way as the next. -/
theorem answers_rect (l : List Nat) (hwf : mwf Packet.none s.net.packets = true) :
    let u := l.foldl (fun v t => answerFrom v t p .refusedFenced) s
    { u with net := s.net } = s ∧ mwf Packet.none u.net.packets = true ∧ NetGrows s u ∧
      ∀ t ∈ l, ∃ k, s.net.next ≤ k ∧ k < u.net.next ∧ (getPacket u k).map bare = some (rectAnswer s t p) := by
  induction l using List.reverseRecOn with
  | nil => exact ⟨rfl, hwf, netGrows_of_net rfl, fun _ h => absurd h List.not_mem_nil⟩
  | append_singleton l t ih =>
    obtain ⟨hf, hw, hg, hall⟩ := ih
    simp only [List.foldl_append, List.foldl_cons, List.foldl_nil]
    generalize l.foldl (fun v t => answerFrom v t p .refusedFenced) s = v at hf hw hg hall ⊢
    have hgt : NetGrows v (answerFrom v t p .refusedFenced) := by
      rw [answerFrom_rect hb]
      exact netGrows_putPacket ..
    have hnext : (answerFrom v t p .refusedFenced).net.next = v.net.next + 1 := by rw [answerFrom_rect hb]; rfl
    refine ⟨?_, ?_, hg.trans hgt, fun x hx => ?_⟩
    · rw [answerFrom_rect hb]
      exact hf
    · rw [answerFrom_rect hb]
      exact mwf_mset _ _ _ _ hw
    · obtain hx | hx := List.mem_append.1 hx
      · obtain ⟨k, hk, hk', hp⟩ := hall x hx
        exact ⟨k, hk, by omega, by rw [hgt.kept k hk', hp]⟩
      · obtain rfl := List.mem_singleton.1 hx
        refine ⟨v.net.next, hg.next, by omega, ?_⟩
        have hfold : unitFold v x (answerUnit x p) = unitFold s x (answerUnit x p) := by
          have h := congrArg (fun v => unitFold v x (answerUnit x p)) hf
          exact h
        have hepoch : epochAt v x = epochAt s x := by
          have h := congrArg (fun v => epochAt v x) hf
          exact h
        rw [answerFrom_rect hb, hfold, hepoch]
        exact (getPacket_newPacket ..).1

end

/-- A rectangle write that every field lets through ends as the answers of its fenced tiles, and as a short write if an engine stages for it. -/
theorem execRect_through {s : State} {pid : Nat} {p : Packet} {a b c t0 t1 o : Nat} {data : List Byte} (hp : getPacket s pid = some p)
    (hb : p.body = .rect a b c t0 t1 o data) (hc : firstCheck p = none) (hm : ∀ t ∈ cornerTiles t0 t1, meshUp s t = true) :
    let v := ((cornerTiles t0 t1).filter (fenced s)).foldl (fun v t => answerFrom v t p .refusedFenced) (delPacket s pid)
    exec (.rect pid) s = .next v ∨ ∃ x got want, exec (.rect pid) s = .next (rectShort v (edgeSub p.src) x got want) := by
  intro v
  have hall : (cornerTiles t0 t1).all (meshUp s) = true := List.all_eq_true.2 hm
  have hx : exec (.rect pid) s = .next (match stagingCmd v (edgeSub p.src) with
      | some (x, _) => if (cornerTiles t0 t1).length - ((cornerTiles t0 t1).filter (fenced s)).length == (cornerTiles t0 t1).length then v
          else rectShort v (edgeSub p.src) x ((cornerTiles t0 t1).length - ((cornerTiles t0 t1).filter (fenced s)).length) (cornerTiles t0 t1).length
      | none => v) := by
    show execRect pid s = _
    unfold execRect
    simp only [hp, hb, hc, hall]
    rfl
  rw [hx]
  split
  · split
    · exact .inl rfl
    · exact .inr ⟨_, _, _, rfl⟩
  · exact .inl rfl

/-- In canonical form each fenced tile's answer to a rectangle write is under way when the write has ended. -/
theorem rect_answered {s : State} {pid : Nat} {p : Packet} {a b c t0 t1 o : Nat} {data : List Byte}
    (hwf : mwf Packet.none s.net.packets = true) (hp : getPacket s pid = some p) (hpid : pid < s.net.next)
    (hb : p.body = .rect a b c t0 t1 o data) (hc : firstCheck p = none) (hm : ∀ t ∈ cornerTiles t0 t1, meshUp s t = true) :
    ∃ u, exec (.rect pid) s = .next u ∧ ∀ t ∈ cornerTiles t0 t1, fenced s t = true →
      getPacket u pid = none ∧ ∃ k, s.net.next ≤ k ∧ (getPacket u k).map bare = some (rectAnswer s t p) := by
  have hwf' : mwf Packet.none (delPacket s pid).net.packets = true := mwf_mdel _ _ _ hwf
  obtain ⟨-, hw, hg, hall⟩ := answers_rect hb ((cornerTiles t0 t1).filter (fenced s)) hwf'
  have hx := execRect_through hp hb hc hm
  dsimp only at hx hw hg hall
  generalize ((cornerTiles t0 t1).filter (fenced s)).foldl (fun v t => answerFrom v t p .refusedFenced) (delPacket s pid) = v at hx hw hg hall
  have hnone : getPacket v pid = none := (hg.kept pid hpid).trans (getPacket_delPacket_same s pid)
  obtain hx | ⟨x, got, want, hx⟩ := hx
  · refine ⟨v, hx, fun t ht hf => ⟨hnone, ?_⟩⟩
    obtain ⟨k, hk, -, hgot⟩ := hall t (List.mem_filter.2 ⟨ht, hf⟩)
    exact ⟨k, hk, hgot⟩
  · refine ⟨_, hx, fun t ht hf => ?_⟩
    obtain ⟨k, hk, -, hgot⟩ := hall t (List.mem_filter.2 ⟨ht, hf⟩)
    have hgone : getPacket ((rectsOf v (edgeSub p.src)).foldl delPacket v) pid = none :=
      List.foldlRecOn (motive := fun u => getPacket u pid = none) _ delPacket hnone fun u hu j _ => by
        by_cases hj : pid = j
        · rw [hj]
          exact getPacket_delPacket_same ..
        · rw [getPacket_delPacket_other _ _ _ hj, hu]
    have hkeep : k ∉ rectsOf v (edgeSub p.src) := fun hmem => by
      obtain ⟨q, hq, hbare⟩ := Option.map_eq_some_iff.1 hgot
      obtain ⟨_, _, _, _, _, _, _, hrect⟩ := rect_of_mem_rectsOf hw hq hmem
      have hbody : q.body = .reply .refusedFenced 12 0 := congrArg Packet.body hbare
      exact Body.noConfusion (hrect.symm.trans hbody)
    have hshort (n : Nat) : getPacket (rectShort v (edgeSub p.src) x got want) n = getPacket ((rectsOf v (edgeSub p.src)).foldl delPacket v) n :=
      getPacket_congr (rectShort_net ..) n
    exact ⟨(hshort pid).trans hgone, k, hk, (congrArg _ ((hshort k).trans (getPacket_foldl_delPacket hkeep v))).trans hgot⟩

/-! ### A packet listed below its number -/

/-- A rectangle write of region engine 0 to tile 0 alone. -/
def engineWrite : Packet :=
  ⟨edgeMake 1 0 0, 0, 0, 0, false, .rect 0 0 0 0 0 0 [0], false, false, false, false, .router 0 5, 0, 0, 0, 0, []⟩

/-- A packet that is not a write of an engine. -/
def creditReturn : Packet := ⟨0, 0, 0, 0, true, .cret 0 0, false, false, false, false, .router 0 4, 0, 0, 0, 0, []⟩

/-- Tile 0 is fenced, with its mesh domain up. Engine 0 stages a command. The next packet number is 2, but a write of the engine stands under it
already, and below the entry of number 3. -/
def listedBelow : State :=
  { State.reset with
    tiles := [(0, { Tile.reset with fence := 0x301#32 })]
    net := ⟨[(1, engineWrite), (3, creditReturn), (2, engineWrite)], 2, 0⟩
    eng := { State.reset.eng with engs := [(0, ⟨[⟨0, 0, 0, 0x11, 0, 0, false, false, [], 0, 0, false, false, 0, .stage []⟩], 1⟩)] } }

theorem listedBelow_not_canonical : mwf Packet.none listedBelow.net.packets = false := by decide

/-- The write of packet 1 ends, and with the stale entry of number 2 the answer that stands before it is removed. -/
theorem listedBelow_rect : ∃ u, exec (.rect 1) listedBelow = .next u ∧ u.net.packets = [(3, creditReturn)] := ⟨_, rfl, by decide⟩

theorem listedBelow_tiles : cornerTiles 0 0 = [0] := by decide

theorem listedBelow_fenced : meshUp listedBelow 0 = true ∧ fenced listedBelow 0 = true := by decide

/-- Refutes O25 at its last clause, the answer of a fenced tile of a rectangle write, where the packets do not stand in canonical form: no packet
is left but one that is no answer. In canonical form what the clause says of the answers holds (`rect_answered`). -/
theorem not_groupsAndReduction : ¬ Obligations.GroupsAndReduction := by
  rintro ⟨-, -, -, -, h⟩
  obtain ⟨hup, hfenced⟩ := listedBelow_fenced
  have hall : ∀ t ∈ cornerTiles 0 0, meshUp listedBelow t = true := fun t ht => by
    rw [listedBelow_tiles] at ht
    rw [List.mem_singleton.1 ht, hup]
  obtain ⟨u, hu, -, -, hthrough⟩ := h listedBelow 1 engineWrite 0 0 0 0 0 0 [0] (by decide) (by decide) rfl
  obtain ⟨-, hanswers, -⟩ := hthrough rfl hall
  obtain ⟨-, k, -, hgot⟩ := hanswers 0 (by decide) hfenced
  obtain ⟨v, hv, hleft⟩ := listedBelow_rect
  obtain rfl : u = v := Host.Outcome.next.inj (hu.symm.trans hv)
  obtain ⟨q, hq, hbare⟩ := Option.map_eq_some_iff.1 hgot
  have hbody : q.body = .reply .refusedFenced 12 0 := congrArg Packet.body hbare
  have hother : q = creditReturn := by
    unfold getPacket at hq
    rw [hleft] at hq
    simp only [mget] at hq
    split at hq
    · simpa [creditReturn, Packet.none] using hq.symm
    · simp at hq
  exact Body.noConfusion (hother ▸ hbody)

end Sys2Proof.Machine
end
